-- ==== Sys2Proof/Word.lean ====
section
/-! DEFINITION. The word types of the module and the type of a sparse file of cells. -/

namespace Sys2Proof

/-- A byte of a memory. -/
abbrev Byte := BitVec 8
/-- A 32-bit word: a scratchpad word (R120) or half of a 64-bit register (R38). -/
abbrev Word := BitVec 32
/-- A 64-bit word: a whole 64-bit register (R38). -/
abbrev DWord := BitVec 64

/-- A sparse file: (key, value) pairs with keys strictly rising, none equal to what an unlisted key reads as. -/
abbrev Cells (α : Type) := List (Nat × α)

end Sys2Proof
end

