-- ==== Sys2Proof/Syntax.lean ====
section
/-! DEFINITION. The commands the module takes, with the operands each carries. -/

namespace Sys2Proof

/-- A host port, or an Icord port, or one of two things called A and B (R38, R78, R485). -/
inductive Port where
  | a | b
  deriving DecidableEq, Repr

/-- An access path of R38: a function of host port A or B (0 the PF, v + 1 the VF of partition v, R487), or the
sideband path of a management card, of which only the lead's writes are taken (R27). -/
inductive Path where
  | host (port : Port) (fn : Nat)
  | sideband (card : Port)
  deriving DecidableEq, Repr

/-- What a PTP Announce carries for the default best master clock algorithm (R78). -/
structure Announce where
  domain       : Nat
  priority1    : Nat
  clockClass   : Nat
  accuracy     : Nat
  variance     : Nat
  priority2    : Nat
  gmIdentity   : DWord
  stepsRemoved : Nat
  /-- The identity of the clock that sends it, and the number of its port. -/
  sender       : DWord
  senderPort   : Nat
  utcOffset    : Int
  deriving DecidableEq, Repr, Inhabited

/-- A PTP Sync (R78, R79): received, with its domain, whether it came over UDP, whether a Follow_Up brings its origin time,
its origin and its arrival in picoseconds; or sent by a master port, at a departure time. -/
inductive PtpSync where
  | received (domain : Nat) (udp twoStep : Bool) (t1 t2 : Nat)
  | sent (t1 : Nat)
  deriving DecidableEq, Repr

/-- A PTP Delay_Req (R78): sent by the slave port at a departure time, or received on a master port from a clock, with its
domain, its transport and its arrival. -/
inductive PtpDelayReq where
  | sent (t3 : Nat)
  | received (domain : Nat) (udp : Bool) (clock : DWord) (t4 : Nat)
  deriving DecidableEq, Repr

/-- A PTP Announce (R78): received over a transport, or sent by a master port. -/
inductive PtpAnnounce where
  | received (udp : Bool) (a : Announce)
  | sent
  deriving DecidableEq, Repr

/-- Who sends a remote write (R132). -/
inductive Sender where
  | tile (t : Nat) | sillage (e : Nat) | coll (g : Nat)
  deriving DecidableEq, Repr

/-- A collective start record (R314, R386), and the rank that sends it. -/
structure StartRec where
  group   : Nat
  rank    : Nat
  seq     : Nat
  chg     : Nat
  op      : Nat
  fmt     : Nat
  count   : Nat
  profile : Nat
  size    : Nat
  step    : Nat
  attempt : Nat
  deriving DecidableEq, Repr

/-- The body of a verdict message or a retraction (R387): its step and attempt, the sender's partition, the cause code
of a retraction, the job tag, and the close TIME or the TIME of the mark. -/
structure VerdictMsg where
  step    : Nat
  attempt : Nat
  part    : Nat
  cause   : Nat
  tag     : Nat
  tick    : Nat
  deriving DecidableEq, Repr

/-- The kinds of fabric message (R364, R334, R337, R453). -/
inductive Message where
  | start (r : StartRec)
  /-- An abort notice; a replay abort sets no ABORT_SEQ (R396). -/
  | abort (group seq code : Nat) (replay : Bool)
  | verdict (v : VerdictMsg)
  | retract (v : VerdictMsg)
  /-- A move release: the MOVE's source node, and the source granule's and the destination granule's offsets (R366). -/
  | release (node src dst : Nat)
  /-- A release query about a held IN granule, and its answer: HOME, or FREE (R453). -/
  | query (src dst : Nat)
  | answer (dst : Nat) (home : Bool)
  /-- A join request, marked by the neighbour with the link it came in on (R334). -/
  | join (hall : Nat) (req : Option Nat) (serial : Nat) (link : Option Nat)
  | joinAccept (node incarnation : Nat) (link : Option Nat)
  | joinRefuse (reason : Nat) (link : Option Nat)
  | leave (node : Nat)
  /-- A ledger query: the receiver's link number and the sender's sealed totals; and its reply: the totals received and
  freed when that link last went DOWN (R474). -/
  | ledgerQuery (link myLink sentNet received : Nat)
  | ledgerReply (link received freed : Nat)
  deriving DecidableEq, Repr

/-- A broadcast body (R367). -/
structure Bcast where
  kind        : Nat
  origin      : Nat
  seq         : Nat
  tick        : Nat
  frac        : Nat
  op          : Nat
  incarnation : Nat
  deriving DecidableEq, Repr

/-- Where collective data belongs (R317 to R324): its group, SEQ and sending rank, the phase of the algorithm, the step
or round in it, and the byte offset of the frame's data in what is sent in that step. -/
structure CollPos where
  group : Nat
  seq   : Nat
  rank  : Nat
  phase : Nat
  step  : Nat
  off   : Nat
  /-- The whole bytes of this send, of which the frame carries a part. -/
  total : Nat
  deriving DecidableEq, Repr

/-- What a frame carries, by its TYPE (R344). Data comes with its seal trailer (R374); `first` is the length of the
first seal span, where the receiver does not know the source's address. -/
inductive Body where
  | readReq (words : Nat)
  | readData (data : List Byte) (seals : List Word)
  | readErr (code : Nat)
  | write (data : List Byte) (seals : List Word) (first : Nat)
  | writeAck
  | writeErr (code : Nat)
  | moveData (data : List Byte) (seals : List Word) (first : Nat) (srcGran : Nat)
  | collData (pos : CollPos) (data : List Byte) (seals : List Word) (first : Nat)
  | collAck (pos : CollPos) (accepted : Nat)
  | msg (incarnation seq part : Nat) (m : Message)
  /-- An acknowledgement; the answer to a release: 0 taken or already HOME, 1 not held (R453). -/
  | msgAck (seq answer : Nat)
  | bcast (b : Bcast)
  | unreach (code : Nat)
  /-- A LEDGER marker: sent_net, RECEIVED and FREED of each class (R351). -/
  | ledger (counts : List (Nat × Nat × Nat))
  /-- The initial credits of each class (R346). -/
  | config (inits : List Nat)
  deriving DecidableEq, Repr

/-- A Daxvo frame (R343). TYPE follows from the body. -/
structure Frame where
  vc     : Nat
  layer  : Nat
  dst    : Nat
  src    : Nat
  offset : Nat
  tag    : Nat
  fseq   : Nat
  hops   : Nat
  part   : Nat
  body   : Body
  deriving DecidableEq, Repr

/-- A HELLO frame of training (R346, R353): the neighbour, its link, its hall and its initial credits; and whether it has
passed FUSED since the link last carried traffic (R352, log entry 90). -/
structure Hello where
  node     : Nat
  link     : Nat
  unjoined : Bool
  hall     : Nat
  inits    : List Nat
  fresh    : Bool
  deriving DecidableEq, Repr

/-- What a link's receiver reports (R342 to R344, R349): a codeword the FEC cannot correct, a frame header as received, a
CWSEQ out of order, or a sideband unit as received. The header and the unit are judged by their bits. -/
inductive LineError where
  | uncorrectable
  | header (h : BitVec 180)
  | order
  | unit (u : BitVec 64)
  deriving DecidableEq, Repr

/-- The rails that the module switches (R399); cages, dies, edges, domains, sleds and cards by their number. -/
inductive Rail where
  | bus12
  | vopt (k : Fin 48)
  | vio (i : Fin 12)
  | vstk (e : Fin 4)
  | vedge (e : Fin 4)
  | vcore (d : Fin 84)
  | vdram
  | vpp
  | vsled (i : Fin 4)
  | vcard (c : Port)
  deriving DecidableEq, Repr

/-- A temperature reading in °C (R421): a sensor of a domain, a stack's device, or the inlet of a coupling pair. -/
inductive Reading where
  | wafer (d : Fin 84) (c : Nat)
  | stack (k : Fin 32) (c : Nat)
  | inlet (pair : Port) (c : Nat)
  deriving DecidableEq, Repr

/-- What a core domain measures over a power window (R408, R423): the mean and the highest current in 0.1 A, its four
temperature sensors, its output and its 16 voltage sensors in mV, and the charge in and delivered in µC at 12 V. -/
structure DomWindow where
  avg   : Nat
  peak  : Nat
  temps : List Nat
  out   : Nat
  sense : List Nat
  qin   : Nat
  qout  : Nat
  deriving DecidableEq, Repr

/-- What the module measures over a power window (R408, R423): its input power, mean and highest, in W; the charge in and
out of each cassette; the domains; the five companion accounts; the rise of BUS12 since FUSED in mV; whether the
hold-up store is charged (R399); and of the coupling pairs A and B the inlet and outlet temperatures in °C and the flow in
0.1 L/min (R422). -/
structure PowerWindow where
  pMod   : Nat
  pPeak  : Nat
  cass   : List (Nat × Nat)
  doms   : List DomWindow
  acc    : List Nat
  bus    : Int
  holdup : Bool
  cool   : List (Nat × Nat × Nat)
  deriving DecidableEq, Repr

/-- What a core domain has shown for a number of ticks (R406): its output in mV, or its output current in 0.1 A. -/
inductive DomainReading where
  | output (mv ticks : Nat)
  | current (da ticks : Nat)
  deriving DecidableEq, Repr

/-- Why a management card stops being lead, or standby (R458, R460): it is removed or resets, its rail fails, or it is
silent: a lead without a heartbeat, a standby whose mirror is late. -/
inductive CardLoss where
  | removed | reset | rail | silent
  deriving DecidableEq, Repr

/-- A power-on event (R436, R517): BUS54 rises at a cassette position while RACK_OFF_N is high or not; or RACK_OFF_N rises
after some ticks low, with BUS54 present or not. -/
inductive PowerEvent where
  | bus54 (i : Fin 14) (rackHigh : Bool)
  | rackOff (low : Nat) (bus54 : Bool)
  deriving DecidableEq, Repr

/-- A wrong sum in an adder stage (R109): the output and the plane, and by how much it is wrong. -/
structure Slip where
  out   : Nat
  plane : Nat
  by_   : Int
  deriving DecidableEq, Repr

/-- Errors at offsets of a bonded region or of a stack: corrected ones, uncorrectable ones, and stored seals that do not match
their bytes. And errors that arise outside the tiers (log entry 104): in words of the scratchpad of the region's tile, each with 1
for a single bit and 2 for two (R128); in the transfers to come, the first in the next one, each as the bits that change in its bytes
(R375); and in the adder stages to come (R109). -/
structure Upsets where
  single : List Nat
  double : List Nat
  seals  : List Nat
  spad   : List (Nat × Nat)
  wire   : List (List (Nat × Byte))
  slips  : List (Option Slip)
  deriving DecidableEq, Repr

/-- A companion position (R443). -/
inductive Companion where
  | stack (k : Fin 32)
  | die (i : Fin 12)
  | sled (i : Fin 4)
  | cassette (i : Fin 14)
  | card (c : Port)
  deriving DecidableEq, Repr

/-- A step of Enfleurage (R442): the SFDP table with its density in MiB, if it can be read (R438); 4, with the positions
that do not answer their probe; 5; 6; and 7. -/
inductive EnfStep where
  | sfdp (mib : Option Nat)
  | maps (missing : List Companion)
  | fill
  | links
  | ready
  deriving DecidableEq, Repr

/-- What the host answers to a read (R495): the data, an Unsupported Request or Completer Abort, poison, an ECRC that fails where
the function checks it, or the data after a correctable error. -/
inductive HostAnswer where
  | data | unsupported | poison | ecrc | corrected
  deriving DecidableEq, Repr

/-- The read of host memory that an answer is for (R493): the fetch of a Sillage entry, or whatever else reads the 64-byte line of
an address: a ring fetch, a descriptor read, an engine's local path. -/
inductive HostTarget where
  | entry (e : Fin 16) (id : Nat)
  | line (addr : BitVec 60)
  deriving DecidableEq, Repr

/-- The configuration that the host has written into the functions of a port (R486, R498, R503): Bus Master Enable of the PF and
of each VF, VF Enable, Max Payload Size and Max Read Request Size in bytes, ECRC generation and check, and whether the PF is in
D3hot. -/
structure PortCfg where
  master     : Bool
  vfEn       : Bool
  vfMaster   : BitVec 8
  maxPayload : Nat
  maxRead    : Nat
  ecrcGen    : Bool
  ecrcCheck  : Bool
  d3         : Bool
  deriving DecidableEq, Repr

/-- What an Icord request comes with (R461, R462): the card's port it arrives at, the serial number it addresses, its source
address and SEQ; and, where its class cannot begin it within 10 ms, the class's queue depth times its mean service time in
milliseconds (R466); and the TYPE it carries, if that is another than its command's. -/
structure IcordHdr where
  port   : Port
  serial : BitVec 64
  addr   : BitVec 32
  seq    : BitVec 32
  busy   : Option Nat
  type   : Option (BitVec 8)
  deriving DecidableEq, Repr

/-- The percent of controller time that the work of each class asks for in one 10 ms (R465). -/
structure ClassLoad where
  c1 : Nat
  c2 : Nat
  c3 : Nat
  c4 : Nat
  deriving DecidableEq, Repr

/-- What a lifetime record is taken from (R475): the seconds of AON-on time; the energy; the thermal cycles; the ageing of
every physical tile in ppm; a sled's share of unused spare blocks in percent and highest erase count, as the sled reports them
(R282), its terabytes written and its histogram of erase counts; the insertions of a part; an event of the journal, by its TYPE. -/
inductive LifeInput where
  | powerOn (seconds : Nat)
  | energy
  | thermal
  | ageing (ppm : List Nat)
  | wear (sled : Fin 4) (sparePct eraseMax terabytes : Nat) (histogram : List Nat)
  | insertion (part : Fin 23)
  | event (type : Nat)
  deriving DecidableEq, Repr


/-- The commands, one constructor per row of spec/opcode_table.json, in its order. -/
inductive Instr where
  /-- BAD_ACCESS (R36). A BAR0 access that is narrower, wider or misaligned has no effect, reads zero, and is recorded in
  MOD.ACCESS_ERR with BAD_ACCESS raised. -/
  | badAccess (p : Path) (off : BitVec 26) (n : Nat) (write : Bool)
  /-- LOW_HALF_READ (R38). A 32-bit read of the low half of a 64-bit register latches the high half into the holding register of that access path. -/
  | lowHalfRead (p : Path) (off : BitVec 26) (wide bar2 : Bool)
  /-- LOW_HALF_WRITE (R38). A 32-bit write of the low half of a 64-bit register is held in the path's write buffer; any
  buffered half is discarded with BAD_ACCESS. -/
  | lowHalfWrite (p : Path) (off : BitVec 26) (v : Word)
  /-- HIGH_HALF_WRITE (R38). A 32-bit write of the high half applies the buffered low half, or zero if none is buffered,
  together with it as one 64-bit write. -/
  | highHalfWrite (p : Path) (off : BitVec 26) (v : Word)
  /-- REGISTER_WRITE (R41). A write to a register with no behaviour of its own is applied field by field under each field's type. -/
  | registerWrite (p : Path) (off : BitVec 26) (wide bar2 : Bool) (v : DWord)
  /-- SOFT_RESET (R51). PG_CTRL.SRST resets a block's RW and HS fields and internal state, keeping its header, CT, LK and ST fields. -/
  | softReset (p : Path) (page : Fin 1984)
  /-- COMMIT_REQUEST (R57). MOD.COMMIT_CTRL with OP COMMIT and GO takes the next mode generation and sets PENDING, or is refused. -/
  | commitRequest (p : Path) (scope : BitVec 8) (glob : Bool)
  /-- COMMIT_CYCLE (R57). In the clk_mgmt cycle after GO, every page of the scope copies shadow to pending and checks it. -/
  | commitCycle
  /-- COMMIT_EPOCH (R57). At the commit epoch, every queue of the scope stops issuing at its next command boundary. -/
  | commitEpoch
  /-- PAGE_APPLY (R57). Once no command of the scope is in progress in it, a page moves pending to active, records the generation and acknowledges. -/
  | pageApply (page : Fin 1984)
  /-- CREDIT_DRAIN (R346). A link applying a new CRED_CFG waits until every class holds its INIT, exchanges CONFIG, resumes and then acknowledges. -/
  | creditDrain (k : Fin 48)
  /-- COMMIT_DEADLINE (R57). When the deadline after the stop tick passes with pages unacknowledged, the scope enters HOLD. -/
  | commitDeadline
  /-- RECOMMIT (R59). In HOLD, RECOMMIT tries the same generation again with a new deadline. -/
  | recommit (p : Path) (scope : BitVec 8) (glob : Bool)
  /-- ROLLBACK (R59). In HOLD, ROLLBACK returns every page that applied the generation to its previous copy and retires the generation. -/
  | rollback (p : Path) (scope : BitVec 8) (glob : Bool)
  /-- HOLD_AUTO_EXPIRY (R452). A scope held for CFG.HOLD_AUTO ticks is rolled back by the island, which raises HOLD_AUTO_ROLLBACK. -/
  | holdAutoExpiry
  /-- REFERENCE_OUT_OF_RANGE (R66). A reference outside ±50 ppm raises REF_RANGE while the PLL keeps tracking it. -/
  | referenceOutOfRange (ppm : Nat)
  /-- HOLDOVER_ENTRY (R66). A reference absent for 16 ticks, or out of range for 1 ms, puts the root PLL into holdover and raises REF_LOSS. -/
  | holdoverEntry (absent : Bool) (ticks : Nat)
  /-- HOLDOVER_EXIT (R66). A reference back in range for 1 ms takes the PLL out of holdover by frequency slew. -/
  | holdoverExit (ppm ticks : Nat)
  /-- PLL_UNLOCK (R67). A root PLL lock loss above FUSED is logged by the island, which starts Drydown. -/
  | pllUnlock
  /-- FRACTION_MOVE (R72). Every 128 ticks a row's effective fraction moves one sixteenth towards its target. -/
  | fractionMove (p : Fin 8)
  /-- EMERG_APPLY (R74). A GO on CLK.EMERG_CTRL with OP apply schedules an emergency fraction for EMERG_EPOCH, replacing any pending operation. -/
  | emergApply (p : Path) (frac : BitVec 5)
  /-- EMERG_RELEASE (R75). A GO on CLK.EMERG_CTRL with OP release schedules the return of every target to its staged fraction. -/
  | emergRelease (p : Path)
  /-- EMERG_EPOCH (R74). At the emergency epoch, the pending operation takes effect and the rows start stepping. -/
  | emergEpoch
  /-- TB_SET (R77). TB.SET_CTRL.GO loads SET_VALUE into TIME at the next clk_tb edge in FUSED, ENFLEURAGE or READY. -/
  | tbSet (p : Path)
  /-- PTP_SYNC (R79). A PTP Sync message updates the measured offset and SYNC, and the servo steers CLK.STEER. -/
  | ptpSync (port : Port) (m : PtpSync)
  /-- PTP_DELAY_RESP (R78). A PTP Delay_Resp message completes a delay request-response measurement of the mean path delay. -/
  | ptpDelayResp (port : Port) (domain : Nat) (udp : Bool) (t4 : Nat)
  /-- PTP_ANNOUNCE (R78). A PTP Announce message feeds the default best master clock algorithm of the boundary clock. -/
  | ptpAnnounce (port : Port) (m : PtpAnnounce)
  /-- SYNC_TIMEOUT (R79). No valid Sync message for 2 s clears TB.STAT.SYNC. -/
  | syncTimeout
  /-- SNAP_SW (R82). TB.SNAP_CTRL.SW fires the software snapshot source at the second clk_tb edge after the write. -/
  | snapSw (p : Path)
  /-- SNAP_ARM (R84). TB.SNAP_CTRL.ARM re-arms the one-shot snapshot trigger. -/
  | snapArm (p : Path)
  /-- SNAP_CMP_ARM (R82). A write of the high half of TB.SNAP_CMP arms the timebase compare. -/
  | snapCmpArm (p : Path) (tick : DWord)
  /-- SNAP_CMP_FIRE (R82). At the edge at which TIME reaches SNAP_CMP, the compare fires if enabled and disarms. -/
  | snapCmpFire
  /-- SNAP_ERR_FIRE (R82). The first-error source fires a full tick after a page's PG_ERR_FIRST.VALID rises. -/
  | snapErrFire
  /-- SNAP_PIN (R517). SNAP_IN_N held low for at least 4 ticks after 4 ticks high fires a snapshot at the third edge after the falling edge. -/
  | snapPin (highTicks lowTicks : Nat)
  /-- SNAP_FABRIC_FIRE (R82). At the edge at which TIME reaches TB.SNAP_FABRIC, the fabric snapshot source fires. -/
  | snapFabricFire
  /-- SNAP_OUT_RELEASE (R83). 16 ticks after the latching edge, the module releases SNAP_OUT_N. -/
  | snapOutRelease
  /-- YIELD_CYCLE (R123). An unscheduled scratchpad access that has waited YIELD_WAIT kept cycles forces a yield cycle in
  which no scheduled requester advances. -/
  | yieldCycle (t : Fin 960) (waited : Nat)
  /-- SPAD_CLEAR (R127). TILE.SPAD_CLEAR_CTRL.GO starts clearing a range of written bits at 64 lines per kept cycle. -/
  | spadClear (p : Path) (t : Fin 960) (lines : BitVec 20)
  /-- SPAD_CLEAR_DONE (R127). When the last line of the range is cleared, CLEARING and GO return to 0. -/
  | spadClearDone (t : Fin 960) (cycles : Nat)
  /-- WIN_ALLOC (R130). TILE.WIN_ALLOC.GO allocates the lowest free window, or fails with WIN_FULL. -/
  | winAlloc (p : Path) (t : Fin 960)
  /-- WIN_OPEN (R131). OPEN on an allocated window checks its bounds and overlap and puts it in open, or refuses. -/
  | winOpen (p : Path) (t : Fin 960) (n : Fin 16)
  /-- WIN_CLOSE (R129). CLOSE on an open window stops new remote writes and puts it in closing. -/
  | winClose (p : Path) (t : Fin 960) (n : Fin 16)
  /-- WIN_CLOSING_DONE (R129). A closing window whose IN_USE reaches 0 returns to allocated. -/
  | winClosingDone (t : Fin 960) (n : Fin 16)
  /-- WIN_FREE (R129). FREE on an allocated window returns it to free. -/
  | winFree (p : Path) (t : Fin 960) (n : Fin 16)
  /-- REMOTE_WRITE (R132). The header of a remote write arrives, and the tile admits it or refuses it whole. -/
  | remoteWrite (w : Sender) (t : Fin 960) (n : Fin 16) (off : Nat) (words : List Word) (prof : Fin 3) (cmd : Option (Nat × Nat))
  /-- REMOTE_WRITE_LANDED (R133). When an admitted write's last word lands, IN_USE falls and the window's signal counter
  advances by the lines touched. -/
  | remoteWriteLanded (w : Sender) (t : Fin 960) (n : Fin 16)
  /-- MATMUL (R140). COMPUTE MATMUL runs the sweep, anchor phases, multiply passes and drains of C = A × B on every tile of its set. -/
  | matmul (q : Fin 64)
  /-- ANCHOR_ONLY (R139). A MATMUL with ANCHOR_ONLY runs the sweep and anchor phase and writes its local anchor codes without multiplying. -/
  | anchorOnly (q : Fin 64)
  /-- MAP (R150). COMPUTE MAP runs an Accord recipe over the arrays of a port table. -/
  | mapCmd (q : Fin 64)
  /-- REDUCE (R531). COMPUTE REDUCE forms exact-window or K1 reductions of row-form runs into outputs. -/
  | reduce (q : Fin 64)
  /-- CONVERT (R530). COMPUTE CONVERT converts a row-form or XB40 array to OUT_FMT. -/
  | convert (q : Fin 64)
  /-- PRUNED_CONVERT (R241). A CONVERT with DFLAGS[0] keeps the two highest-ranked values of each group and writes a 2:4-compressed operand. -/
  | prunedConvert (q : Fin 64)
  /-- LIST_BUILD (R248). A REDUCE with DFLAGS[0] writes a padded row list of the active neuron blocks from block scores. -/
  | listBuild (q : Fin 64)
  /-- RECIPE_LOAD (R148). COMPUTE RECIPE_LOAD checks a recipe image and loads it into an Accord slot, or refuses with ACCORD_CONFIG. -/
  | recipeLoad (q : Fin 64)
  /-- STREAM_READ (R210). A STREAM READ is cut into transfers carried by Sillage, the bonded port or the mesh into windows. -/
  | streamRead (q : Fin 64)
  /-- GATHERED_READ (R232). A READ from a row list fetches only the listed weight rows into the destination. -/
  | gatheredRead (q : Fin 64)
  /-- STREAM_WRITE (R533). A STREAM WRITE moves data from a scratchpad or tier to memory along its legal path. -/
  | streamWrite (q : Fin 64)
  /-- STREAM_MOVE (R261). A STREAM MOVE relocates whole granules, flipping each home from source to destination. -/
  | streamMove (q : Fin 64)
  /-- ALL_REDUCE (R317). COLLECTIVE ALL_REDUCE sums each member's data over a node group and gives every member the sum. -/
  | allReduce (q : Fin 64)
  /-- REDUCE_SCATTER (R312). COLLECTIVE REDUCE_SCATTER gives each member the sum of its block over the group. -/
  | reduceScatter (q : Fin 64)
  /-- ALL_GATHER (R317). COLLECTIVE ALL_GATHER gives every member every member's block. -/
  | allGather (q : Fin 64)
  /-- ALL_TO_ALL (R322). COLLECTIVE ALL_TO_ALL with equal sizes exchanges one block between every pair of members in rounds. -/
  | allToAll (q : Fin 64)
  /-- ALL_TO_ALL_UNEQUAL (R323). COLLECTIVE ALL_TO_ALL with unequal fixed sizes exchanges tokens by an exchange table and
  returns excess on the spill lane. -/
  | allToAllUnequal (q : Fin 64)
  /-- ANCHOR (R312). COLLECTIVE ANCHOR delivers the unsigned byte maximum of the members' anchor codes. -/
  | anchorCmd (q : Fin 64)
  /-- WAIT (R167). A WAIT issues and completes when all of its enabled counter conditions hold. -/
  | waitCmd (q : Fin 64)
  /-- SIGNAL_ADD (R168). SIGNAL ADD adds values to counters after every earlier command of its queue has completed. -/
  | signalAdd (q : Fin 64)
  /-- SIGNAL_SET (R168). SIGNAL SET sets counters to values after every earlier command of its queue has completed. -/
  | signalSet (q : Fin 64)
  /-- SIGNAL_BOUND (R168). SIGNAL BOUND loads a value into a bound register of its queue. -/
  | signalBound (q : Fin 64)
  /-- COMMIT (R169). A COMMIT command makes up to five shadow writes and requests a commit of its own partition. -/
  | commitCmd (q : Fin 64)
  /-- SNAP_TRIGGER (R171). SNAP with OPCODE 0 acts as a software snapshot trigger. -/
  | snapTrigger (q : Fin 64)
  /-- SNAP_LOAD_CMP (R171). SNAP with OPCODE 1 loads TB.SNAP_CMP with TICK and arms the compare. -/
  | snapLoadCmp (q : Fin 64)
  /-- SNAP_FABRIC_SEND (R171). SNAP with OPCODE 2 originates a fabric snapshot broadcast carrying TICK. -/
  | snapFabricSend (q : Fin 64)
  /-- EVAL_BEGIN (R304). EVAL_BEGIN opens an evaluation bracket on a weight version and sets its deadline base. -/
  | evalBegin (q : Fin 64)
  /-- EVAL_END (R172). EVAL_END closes the bracket and, with the last WVER 1 bracket, ends the evaluation hold. -/
  | evalEnd (q : Fin 64)
  /-- COMMAND_COMPLETE (R177). A command completes, advancing DONE_CTR and DONE and loading LAST_TAG when IRQ is set. -/
  | commandComplete (q : Fin 64) (i : Nat)
  /-- QUEUE_ENABLE (R152). Writing CQ PG_CTRL.EN = 1 checks the queue's claim and ring placement and enables it, or refuses with QUEUE_PLACE. -/
  | queueEnable (p : Path) (q : Fin 64)
  /-- TAIL_WRITE (R153). A write of CQ.TAIL or its doorbell DB_TAIL makes commands valid, or is ignored with QUEUE_TAIL. -/
  | tailWrite (p : Path) (q : Fin 64) (v : BitVec 32) (doorbell : Bool)
  /-- RUN_AHEAD (R180). A queue scans ahead of HEAD and issues STREAMs that need no wait or fence early. -/
  | runAhead (q : Fin 64)
  /-- PAUSE (R185). CQ.CTRL.PAUSE stops the queue at its next command boundary until cleared. -/
  | pause (p : Path) (q : Fin 64) (b : Bool)
  /-- RETRY (R184). CQ.RESUME with OP RETRY reads the faulted command again and issues it anew. -/
  | retry (p : Path) (q : Fin 64)
  /-- SKIP (R184). CQ.RESUME with OP SKIP takes the faulted command as completed without effect. -/
  | skip (p : Path) (q : Fin 64)
  /-- SKIP_SIGNAL (R184). CQ.RESUME with OP SKIP_SIGNAL skips the command and advances its DONE_CTR. -/
  | skipSignal (p : Path) (q : Fin 64)
  /-- DEADLINE_MISS (R186). A real-time command incomplete when TIME reaches its deadline raises DEADLINE_MISS. -/
  | deadlineMiss (q : Fin 64) (i : Nat)
  /-- WAIT_LIMIT (R176). A HEAD command that has waited CQ.WAIT_LIMIT ticks raises WAIT_LIMIT once and keeps waiting. -/
  | waitLimit (q : Fin 64)
  /-- QALLOC (R156). SIG.QALLOC.GO claims the lowest unclaimed queue of a partition, or fails with QUEUE_FULL. -/
  | qalloc (p : Path) (part : Fin 8)
  /-- QFREE (R156). SIG.QFREE.GO releases a disabled idle queue, or refuses with QUEUE_BUSY. -/
  | qfree (p : Path) (q : Fin 64)
  /-- CALLOC (R175). SIG.CALLOC.GO allocates a run of contiguous free counters of a partition and zeroes them, or fails with SIG_FULL. -/
  | calloc (p : Path) (part : Fin 8) (count : BitVec 7)
  /-- CFREE (R175). SIG.CFREE.GO frees a run of counters, or refuses with SIG_BUSY while any is waited on. -/
  | cfree (p : Path) (base : BitVec 12) (count : BitVec 7)
  /-- CTR_ADD (R174). SIG.CTR_SEL with OP add and GO adds CTR_DATA to the selected counter. -/
  | ctrAdd (p : Path) (i : BitVec 12)
  /-- CTR_SET (R174). SIG.CTR_SEL with OP set and GO sets the selected counter to CTR_DATA. -/
  | ctrSet (p : Path) (i : BitVec 12)
  /-- TRANSFER_ACCEPT (R213). A Sillage engine accepts a transfer when a slot is free, taking queues in rotation. -/
  | transferAccept (e : Fin 16)
  /-- FETCH_ISSUE (R217). After HOLD ticks or MAX_JOIN transfers, once the source accepts, an entry's fetch issues to its source. -/
  | fetchIssue (e : Fin 16) (id : Nat)
  /-- FETCH_RETURN (R218). The source returns a fetch's data into its fetch buffer, ready for injection. -/
  | fetchReturn (e : Fin 16) (id : Nat)
  /-- FETCH_FAIL (R221). A fetch whose source errs or whose seal fails ends every owning STREAM with SILL_FETCH. -/
  | fetchFail (e : Fin 16) (id : Nat)
  /-- INJECTION (R224). An injection group is injected into the tree flit by flit as credits and row-branch places allow. -/
  | injection (e : Fin 16) (id : Nat)
  /-- DROP_CREDIT_RETURN (R223). A drop port returns a flit credit once it has passed or discarded the flit. -/
  | dropCreditReturn (e : Fin 16) (t : Fin 960)
  /-- TRANSFER_ACK (R216). A destination tile acknowledges a landed write, and the transfer completes when every destination has done so. -/
  | transferAck (e : Fin 16) (t : Fin 960)
  /-- FETCH_SLOW (R226). A fetch outstanding for FETCH_WARN ticks raises FETCH_SLOW once and keeps waiting. -/
  | fetchSlow (e : Fin 16) (id : Nat)
  /-- PLACE (R257). QUOTA.OP_CTRL with OP PLACE and GO checks a granule range, takes it from FREE to IN and starts its zero-fill. -/
  | place (p : Path) (c : Fin 64)
  /-- PLACE_FILL_DONE (R257). A granule whose zero-fill or trim completes moves from IN to HOME. -/
  | placeFillDone (g : Nat)
  /-- RELEASE (R258). QUOTA.OP_CTRL with OP RELEASE and GO stops new access to a HOME range owned by the context. -/
  | release (p : Path) (c : Fin 64)
  /-- GRANULE_FREE (R258). A released granule goes FREE and is credited once its earlier admitted accesses complete. -/
  | granuleFree (g : Nat)
  /-- GRANULE_OUT (R261). When no write to a MOVE source granule is in progress, it goes OUT and its destination goes IN. -/
  | granuleOut (q : Fin 64) (i : Nat)
  /-- GRANULE_FLIP (R261). When a granule's copy completes, the source goes FREE and the destination goes HOME in one cycle. -/
  | granuleFlip (q : Fin 64) (i : Nat)
  /-- CTX_ALLOC (R264). QUOTA.CTX_ALLOC.GO claims the lowest unclaimed quota context of a partition, or fails with CTX_FULL. -/
  | ctxAlloc (p : Path) (part : Fin 8)
  /-- CTX_FREE (R264). QUOTA.CTX_FREE.GO releases a context with no owned granules, or refuses with CTX_BUSY. -/
  | ctxFree (p : Path) (c : Fin 64)
  /-- APER_ENABLE (R254). FLASH.APERn_CTRL.ENABLE enables a flash aperture, or refuses with APER_REFUSED. -/
  | aperEnable (p : Path) (n : Fin 192)
  /-- APER_DISABLE (R254). FLASH.APERn_CTRL.DISABLE admits no new access through the aperture. -/
  | aperDisable (p : Path) (n : Fin 192)
  /-- APER_DRAINED (R254). When every access admitted through a disabled aperture completes, VALID clears. -/
  | aperDrained (n : Fin 192)
  /-- PATROL_SCRUB (R273). A patrol scrub reads and checks every line of a bonded region or stack once in each period. -/
  | patrolScrub (stack : Bool) (i : Nat) (met later : Upsets)
  /-- BONDED_ROW_SPARE (R274). A DRAM row past its error threshold is remapped to a spare row while the bonded port is held up to 2 µs. -/
  | bondedRowSpare (t : Fin 960) (bank : Fin 16)
  /-- BANK_SPARE (R274). Once the partition is in QUIESCE, a failing bonded bank is copied to the spare bank. -/
  | bankSpare (t : Fin 960) (bank : Fin 16) (failed : Bool)
  /-- STACK_SPARE (R278). A channel past its threshold, or named by SPARE_CTRL.GO, is spared after the owning partition reaches QUIESCE. -/
  | stackSpare (k : Fin 32) (ch : Fin 16) (request : Option Path)
  /-- STACK_SPARE_DONE (R278). The channel copy completes, the channel is remapped and the partition resumes. -/
  | stackSpareDone (k : Fin 32)
  /-- SLED_RELEASE (R281). FLASH.SLED_CTRL RELEASE makes an attached sled admit no new access. -/
  | sledRelease (p : Path) (i : Fin 4)
  /-- SLED_RELEASE_DONE (R281). When a released sled's admitted accesses complete, RELEASED sets and its granules leave TOTAL. -/
  | sledReleaseDone (i : Fin 4)
  /-- ATTACH (R281). FLASH.SLED_CTRL ATTACH rebuilds a present sled's home map from its records. -/
  | attach (p : Path) (i : Fin 4)
  /-- ATTACH_ERASE (R281). FLASH.SLED_CTRL ATTACH_ERASE trims every granule of a sled and claims it for this module. -/
  | attachErase (p : Path) (i : Fin 4)
  /-- SLED_INSERT (R281). A sled inserted in a bay is class-checked and reported present, or left unpowered. -/
  | sledInsert (i : Fin 4) (ok foreign : Bool) (sparePct eraseMax : Nat) (records : List (Nat × Nat × Nat)) (data : List (Nat × List Byte))
  /-- SLED_PULL (R23). A sled pulled unreleased ends its outstanding reads with SLED_PULLED, marks the step suspect and loses its granules. -/
  | sledPull (i : Fin 4)
  /-- STEP_ENABLE (R283). STEPp_CTRL.ENABLE checks the step configuration and activates the mechanism, or refuses with STEP_CFG. -/
  | stepEnable (p : Path) (part : Fin 8)
  /-- STEP_DISABLE (R302). STEPp_CTRL.DISABLE clears the mechanism's state and abandons any pending flip. -/
  | stepDisable (p : Path) (part : Fin 8)
  /-- STEP_FLIP (R289). Once the step has closed and every required verdict is clean, the verdict counter advances and AWAIT clears. -/
  | stepFlip (part : Fin 8)
  /-- VERDICT_SLOW (R301). A step that has waited VWARN ticks after its close without a flip raises VERDICT_SLOW once. -/
  | verdictSlow (part : Fin 8)
  /-- GROUP_CFG_WRITE (R308). A write of GRPn_CFG defines an entry, or, while bound and idle, clears PIN or VALID to release its context. -/
  | groupCfgWrite (p : Path) (n : Fin 256) (v : BitVec 32)
  /-- COLL_ABORT (R316). GRPn_CTRL.ABORT ends the member's collective and sends an abort notice to every member. -/
  | collAbort (p : Path) (n : Fin 256)
  /-- START_RECORD (R314). A peer's collective start record arrives and is compared with this member's own. -/
  | startRecord (k : Fin 48) (f : Frame)
  /-- ABORT_NOTICE (R316). An abort notice ends the named collective, or records its SEQ in ABORT_SEQ if not yet issued. -/
  | abortNotice (k : Fin 48) (f : Frame)
  /-- COLL_DATA (R317). A COLL_DATA frame delivers collective data for a ring step, round or chain link, which is combined or placed. -/
  | collData (k : Fin 48) (f : Frame)
  /-- COLL_ACK (R326). A COLL_ACK frame acknowledges collective data and reports the receiver's accepted token count. -/
  | collAck (k : Fin 48) (f : Frame)
  /-- JOIN (R334). FAB_CTRL.JOIN sends a JOIN message on every link that is up to a joined neighbour. -/
  | join (p : Path) (req : BitVec 16) (reqValid : Bool)
  /-- JOIN_MESSAGE (R334). A neighbour that receives a JOIN message forwards it to the registrar and relays the reply. -/
  | joinMessage (k : Fin 48) (f : Frame)
  /-- JOIN_ACCEPT (R334). An ACCEPT loads the node identifier and incarnation, and the module starts fabric traffic. -/
  | joinAccept (k : Fin 48) (f : Frame)
  /-- JOIN_REFUSE (R335). A REFUSE records its reason and raises JOIN_REFUSED. -/
  | joinRefuse (k : Fin 48) (f : Frame)
  /-- LEAVE (R337). FAB_CTRL.LEAVE sends LEAVE to the registrar and every neighbour, and JOINED clears on acknowledgement. -/
  | leave (p : Path)
  /-- LEAVE_RECEIVED (R337). A received LEAVE ends transactions outstanding at the leaving node and drops its messages. -/
  | leaveReceived (k : Fin 48) (f : Frame)
  /-- OPTIC_INSERT (R341). An inserted optic is checked over CMIS and trained, or refused with OPTIC_REFUSED. -/
  | opticInsert (k : Fin 48) (ok : Bool)
  /-- OPTIC_REMOVE (R341). Removing an optic takes its link DOWN and then ABSENT. -/
  | opticRemove (k : Fin 48)
  /-- LINK_ENABLE (R353). Writing LINK PG_CTRL.EN = 1 starts training of the link. -/
  | linkEnable (p : Path) (k : Fin 48)
  /-- LINK_DISABLE (R353). Writing LINK PG_CTRL.EN = 0 takes the link DOWN and turns its lasers off. -/
  | linkDisable (p : Path) (k : Fin 48)
  /-- READ_REQ (R361). A READ_REQ frame is served by the target under R271 or forwarded towards its destination. -/
  | readReq (k : Fin 48) (f : Frame)
  /-- READ_DATA (R361). A READ_DATA frame returns read data and its seal trailer to the requester. -/
  | readData (k : Fin 48) (f : Frame)
  /-- READ_ERR (R362). A READ_ERR frame ends the remote read with the code it carries. -/
  | readErr (k : Fin 48) (f : Frame)
  /-- WRITE (R361). A WRITE frame writes data at the target after checking it, answered by WRITE_ACK or WRITE_ERR. -/
  | writeFrame (k : Fin 48) (f : Frame)
  /-- WRITE_ACK (R361). A WRITE_ACK frame completes a remote write or MOVE_DATA transfer. -/
  | writeAck (k : Fin 48) (f : Frame)
  /-- WRITE_ERR (R362). A WRITE_ERR frame ends the remote write with the code it carries. -/
  | writeErr (k : Fin 48) (f : Frame)
  /-- MOVE_DATA (R361). A MOVE_DATA frame writes move data into an IN granule at the destination. -/
  | moveData (k : Fin 48) (f : Frame)
  /-- UNREACH (R363). An UNREACH notice ends the transaction with the named TAG with NODE_UNREACHABLE or ROUTE_LOOP. -/
  | unreach (k : Fin 48) (f : Frame)
  /-- MSG_ACK (R365). A MSG_ACK acknowledges a fabric message, which the sender stops resending. -/
  | msgAck (k : Fin 48) (f : Frame)
  /-- MSG_RESEND (R365). An unacknowledged message is resent every MSG_RETX ticks. -/
  | msgResend (node : BitVec 16) (seq : Nat)
  /-- HELLO (R346). A HELLO frame announces the peer's identity, hall and initial credits during training. -/
  | hello (k : Fin 48) (h : Hello)
  /-- CONFIG (R346). A CONFIG frame exchanges new initial credit values after a drained credit change. -/
  | configFrame (k : Fin 48) (f : Frame)
  /-- LEDGER (R351). A peer's LEDGER marker frame is accepted and the three credit-ledger checks are made for each class. -/
  | ledger (k : Fin 48) (f : Frame)
  /-- LEDGER_TICK (R351). At every 1 ms boundary each side takes its counts and sends CREDIT units and a LEDGER frame. -/
  | ledgerTick (k : Fin 48) (corr : List Nat)
  /-- CREDIT (R347). A CREDIT unit returns the freed credits of a class as a cumulative count. -/
  | credit (k : Fin 48) (c : Fin 12) (freed : Nat)
  /-- ACK (R349). An ACK unit releases frames up to its FSEQ from the replay buffer. -/
  | ack (k : Fin 48) (fseq : Nat)
  /-- NAK (R349). A NAK unit refunds the credits of frames from its FSEQ onwards and resends them in order. -/
  | nak (k : Fin 48) (fseq : Nat) (lanes : BitVec 16)
  /-- CODEWORD_ERROR (R349). An uncorrectable codeword, bad header CRC or out-of-order CWSEQ puts the receiver into discard and sends a NAK. -/
  | codewordError (k : Fin 48) (e : LineError)
  /-- NAK_RESEND (R349). A NAK whose frame has not arrived again within 256 ticks is sent again. -/
  | nakResend (k : Fin 48)
  /-- LANE_FAIL (R354). A lane that loses lock, passes its error threshold or loses deskew puts the link into RETRAIN. -/
  | laneFail (k : Fin 48) (lanes : BitVec 16) (peer : Bool)
  /-- LINK_RETRAIN (R355). LINK.CTRL.RETRAIN retrains the link, on 16 lanes where possible. -/
  | linkRetrain (p : Path) (k : Fin 48)
  /-- RETRAIN_COMPLETE (R355). Retraining ends UP on 16 lanes, DEGRADED on one half, or DOWN if neither half qualifies. -/
  | retrainComplete (k : Fin 48) (peer : BitVec 16)
  /-- LINK_DOWN (R356). A link that goes DOWN stops being routed, and its unacknowledged frames are sent along another way. -/
  | linkDown (k : Fin 48)
  /-- ROUTE_READ (R357). MOD.ROUTE_SEL with OP read and GO loads the selected route entry into ROUTE_DATA. -/
  | routeRead (p : Path) (node : BitVec 16)
  /-- ROUTE_WRITE (R357). MOD.ROUTE_SEL with OP write and GO writes ROUTE_DATA into the selected route entry. -/
  | routeWrite (p : Path) (node : BitVec 16)
  /-- MOVE_RELEASE (R366). A move release message takes the destination granule from IN to HOME. -/
  | moveRelease (k : Fin 48) (f : Frame)
  /-- RELEASE_QUERY (R453). A release query about an IN granule is answered from the source's pending releases. -/
  | releaseQuery (k : Fin 48) (f : Frame)
  /-- SNAPSHOT_BROADCAST (R368). An accepted snapshot broadcast loads TB.SNAP_FABRIC and is flooded on. -/
  | snapshotBroadcast (k : Fin 48) (f : Frame)
  /-- EMERGENCY_BROADCAST (R369). An emergency broadcast passes the duplicate check, is forwarded, and is applied if its origin is listed. -/
  | emergencyBroadcast (k : Fin 48) (f : Frame)
  /-- BCAST_SNAPSHOT (R368). MOD.BCAST_CTRL with TYPE 1 and GO originates a snapshot broadcast. -/
  | bcastSnapshot (p : Path)
  /-- BCAST_EMERGENCY (R369). MOD.BCAST_CTRL with TYPE 2 and GO originates an emergency broadcast and applies it to this module. -/
  | bcastEmergency (p : Path) (frac : BitVec 5) (op : BitVec 2)
  /-- VERDICT_CLEAN (R389). A kind 3 clean local verdict message is recorded against its step, or discarded as stray. -/
  | verdictClean (k : Fin 48) (f : Frame)
  /-- RETRACTION (R389). A kind 4 retraction for the current attempt is a suspect mark with cause RETRACTED. -/
  | retraction (k : Fin 48) (f : Frame)
  /-- LEDGER_QUERY (R474). A kind 8 ledger query asks a peer for its link totals at the last DOWN. -/
  | ledgerQuery (k : Fin 48) (f : Frame)
  /-- LEDGER_REPLY (R474). A kind 9 ledger reply lets the module book the codewords lost on the link in LINK_LOST. -/
  | ledgerReply (k : Fin 48) (f : Frame)
  /-- NOSE_DUPLICATE (R384). The checker runs a sample unit between its own commands and compares the result with the original. -/
  | noseDuplicate (t : Fin 960) (q : Fin 64) (i : Nat) (err : List (Nat × Word)) (void : Bool)
  /-- NOSE_ARBITER (R384). After a mismatch, the arbiter runs the unit and the outcome implicates the original, the checker or neither. -/
  | noseArbiter (t : Fin 960) (q : Fin 64) (i : Nat) (err : List (Nat × Word)) (fit void : Bool)
  /-- NOSE_PERIOD (R380). With the mechanism inactive, NOSE.EPOCH advances at each period boundary. -/
  | nosePeriod
  /-- LOCAL_VERDICT (R385). Once a closed step has all its duplicate outcomes, its clean local verdict is posted and sent to every destination. -/
  | localVerdict (part : Fin 8)
  /-- VERDICT_WINDOW (R385). At the close plus WINDOW, pending duplicates are abandoned, or the verdict waits with VERDICT_LATE under STRICT. -/
  | verdictWindow (part : Fin 8)
  /-- FINAL_VERDICT (R390). The final verdict of an attempt is posted clean when every source is clean, or becomes suspect on a mark. -/
  | finalVerdict (part : Fin 8)
  /-- REPLAY_RESTORE (R396). Once issued commands have completed and any shift is done, the checkpoint is restored and queues
  return to their gates. -/
  | replayRestore (part : Fin 8)
  /-- REPLAY_RESUME (R396). NOSE.REPLAY_CTRLp.GO after the hook resumes the partition's queues. -/
  | replayResume (p : Path) (part : Fin 8)
  /-- FIELD_TEST (R398). NOSE.KAT_CTRL.GO starts a known-answer test on every tile of a quiesced partition, or refuses. -/
  | fieldTest (p : Path) (test : BitVec 3) (part : Fin 8)
  /-- FIELD_TEST_DONE (R398). At the end of a field test, failing tiles are recorded in KAT_FAIL and raise KAT_FAIL. -/
  | fieldTestDone (failed : List Nat)
  /-- POWER_WINDOW (R408). At each 1 ms power window boundary, P_MOD, currents, the ledger and ENV_SET are updated. -/
  | powerWindow (w : PowerWindow)
  /-- CAP_RELEASE (R417). PWR.CAP_CFG.RELEASE releases the cap's emergency fraction. -/
  | capRelease (p : Path)
  /-- RAIL_FAIL (R399). A rail outside ±10 % for 100 µs while on fails, with its dependents switched off as its row states. -/
  | railFail (r : Rail)
  /-- CASSETTE_INSERT (R400). An inserted cassette is class-checked and starts its 500 ms soft-start, or is refused. -/
  | cassetteInsert (i : Fin 14) (ok : Bool)
  /-- CASSETTE_HEALTHY (R401). At the end of soft-start, a cassette becomes healthy and SUPPLY_CEIL is raised. -/
  | cassetteHealthy (i : Fin 14) (mv : Int)
  /-- CASSETTE_REMOVE (R400). A removed or unhealthy cassette is turned off with CASS_FAULT and SUPPLY_CEIL is lowered. -/
  | cassetteRemove (lost removed gained : BitVec 14) (bus : Option (Nat × Nat))
  /-- PHASE_FAIL (R406). A regulator phase failure is replaced by the spare phase, or is a domain fault if the spare is used. -/
  | phaseFail (d : Fin 84)
  /-- DOMAIN_FAULT (R406). A domain fault switches the domain off, retires its four rows and marks their steps suspect. -/
  | domainFault (d : Fin 84) (r : DomainReading)
  /-- SENSOR_EXCLUSION (R405). A sensor out of range or reading far below the others is excluded from steering. -/
  | sensorExclusion (d : Fin 84) (i : Fin 16) (reading ticks : Nat)
  /-- DROOP (R407). A domain's minimum reading below the droop threshold for TICKS ticks raises VDROOP and marks steps suspect. -/
  | droop (d : Fin 84) (min_ ticks : Nat)
  /-- SHED (R411). PWR.SHED_CTRL with OP shed and GO orders a shed at SHED_EPOCH. -/
  | shed (p : Path)
  /-- SHED_EPOCH (R411). At a shed's epoch, the module applies the emergency fraction 2/16. -/
  | shedEpoch
  /-- SHED_FREEZE (R411). After SHED_DELAY, with every row at fraction 2, the tiles freeze, queues stop and targets slew to RETAIN_MV. -/
  | shedFreeze
  /-- RESTORE (R412). PWR.SHED_CTRL with OP restore and GO slews domain targets back to EFF_MV, or refuses with SHED_REFUSED. -/
  | restore (p : Path)
  /-- RESTORE_UNFREEZE (R412). When every domain reaches its target, the tiles unfreeze, the queues resume and the emergency is released. -/
  | restoreUnfreeze
  /-- PARK (R414). PWR.PARK_CTRL with OP park power-gates a quiesced partition's tiles and puts its bonded regions in self-refresh. -/
  | park (p : Path) (part : Fin 8)
  /-- PARK_COMPLETE (R414). A park completes within 1 ms and is counted in PARKS. -/
  | parkComplete (part : Fin 8)
  /-- UNPARK (R414). PWR.PARK_CTRL with OP unpark restores a parked partition's tiles with every line unwritten. -/
  | unpark (p : Path) (part : Fin 8)
  /-- SELF_REFRESH_REENTRY (R414). A parked bonded region returns to self-refresh 10 µs after its last access. -/
  | selfRefreshReentry (t : Fin 960)
  /-- THERMAL_WARN (R421). A reading at warn raises THERM_WARN and lowers THERM_CEIL to 90 % of P_MOD. -/
  | thermalWarn (r : Reading)
  /-- THERM_CEIL_STEP (R421). Every 100 ms at warn, THERM_CEIL falls by a further 10 %. -/
  | thermCeilStep
  /-- THERMAL_CLEAR (R421). Every reading 3 °C below warn for 1 s returns THERM_CEIL to 34,000 W. -/
  | thermalClear (settled : Bool)
  /-- THERMAL_SHED (R421). A reading at shed level raises THERM_SHED and sheds the module. -/
  | thermalShed (r : Reading)
  /-- THERMAL_TRIP (R421). A reading at trip level raises THERM_TRIP and starts Drydown. -/
  | thermalTrip (r : Reading)
  /-- COUPLING_DISCONNECT (R11). One coolant coupling pair is disconnected while the other carries the flow. -/
  | couplingDisconnect (c : Port)
  /-- FLOW_LOSS (R422). Total flow below FLOW_MIN for 100 ms, or both pairs absent, raises FLOW_LOW and sheds. -/
  | flowLoss (fa fb ticks : Nat)
  /-- FLOW_RESTORED (R422). Flow at or above FLOW_MIN for 1 s clears the flow shed source. -/
  | flowRestored (fa fb ticks : Nat)
  /-- DRYDOWN_REQUEST (R426). PWR.DRYDOWN_CTRL.GO starts Drydown with cause DD_REQUESTED. -/
  | drydownRequest (p : Path)
  /-- DRYDOWN_STEP (R427). Each Drydown step runs at its time after the step before, switching off its rails in order. -/
  | drydownStep (flushed low : Bool) (stuck : BitVec 10) (holdup : Bool)
  /-- RACK_OFF (R517). RACK_OFF_N held low for 4 ticks starts Drydown with cause DD_REQUESTED. -/
  | rackOff (ticks : Nat)
  /-- POWER_ON (R436). A power-on event takes the module from OFF to FUSED, where the island checks the fuses and locks the PLL. -/
  | powerOn (ev : PowerEvent) (sram : Bool)
  /-- ENFLEURAGE_ENTRY (R437). The module leaves FUSED for ENFLEURAGE once all its exit conditions hold. -/
  | enfleurageEntry (holdup bus12 : Bool)
  /-- RAIL_TURN (R442). At each of 13 turns the sequencer raises one rail and checks the rail raised before it. -/
  | railTurn (ok : Bool)
  /-- IMAGE_CHECK (R440). The check of an image slot completes, loading it or failing at its first failed check. -/
  | imageCheck
  /-- FW_READY (R441). The lead card writes CFG.FW_READY when its firmware has started and the microcode is loaded. -/
  | fwReady (p : Path)
  /-- FW_START_TIMEOUT (R441). No FW_READY within 10 s of the load tries the other slot or enters FAULT. -/
  | fwStartTimeout
  /-- ENFLEURAGE_STEP (R442). An Enfleurage step starts when the steps it follows end, and step 7 enters READY. -/
  | enfleurageStep (x : EnfStep)
  /-- PART_RUN (R431). CFG.PART_CTRL with OP run takes a partition to RUN, or clears your quiesce holder, or refuses. -/
  | partRun (p : Path) (part : Fin 8)
  /-- PART_QUIESCE (R432). CFG.PART_CTRL with OP quiesce sets your holder and stops the partition's queues. -/
  | partQuiesce (p : Path) (part : Fin 8)
  /-- QUIESCE_REACHED (R432). A held partition reads QUIESCE once every issued command has completed. -/
  | quiesceReached (part : Fin 8)
  /-- WARM_RESET (R448). CFG.RESET_CTRL warm runs Drydown steps 0–9 and re-enters FUSED with TIME running on. -/
  | warmReset (p : Path)
  /-- REATTACH_EXPIRY (R450). At expiry of the host-reattach window, each paused partition receives the host holder and is parked. -/
  | reattachExpiry
  /-- WDOG_KICK (R451). CFG.WDOG_CTRL.KICK over the sideband path restarts the watchdog count. -/
  | wdogKick (p : Path)
  /-- WDOG_EXPIRY (R451). The watchdog reaching TIMEOUT_S raises WDOG_EXPIRED and starts Drydown. -/
  | wdogExpiry
  /-- PREL_CLEAR (R453). CFG.PREL_CLEAR ends every pending release and held IN granule. -/
  | prelClear (p : Path)
  /-- SHIFT_REQUEST (R446). SPARE.SHIFT_CTRL.GO requests a row shift of a physical column, or refuses with SHIFT_REFUSED. -/
  | shiftRequest (p : Path) (row : BitVec 5) (pcol : BitVec 6)
  /-- SHIFT_COPY_DONE (R30). When the moved tiles' copies complete, the row is steered, the record is written and the partition leaves QUIESCE. -/
  | shiftCopyDone (row : Fin 24) (regionLost : Bool)
  /-- TILE_FAILURE (R17). A tile fails, leading to a shift request or, as a third failure in its row, to retirement. -/
  | tileFailure (row : Fin 24) (pcol : Fin 42)
  /-- IODIE_FAIL (R22). A failed I/O die takes its four links down and is reported in MOD.STATUS. -/
  | iodieFail (i : Fin 12)
  /-- HEARTBEAT (R458). The lead card writes MGMT.HEARTBEAT at least every 1 ms. -/
  | heartbeat (c : Port) (count : BitVec 32) (both : Bool)
  /-- LEAD_LOST (R458). Removal, reset or VCARD failure of the lead, or 20 ms without a heartbeat, makes the other card lead. -/
  | leadLost (why : CardLoss)
  /-- PLANNED_TAKEOVER (R459). MGMT.TAKEOVER_CTRL.GO hands lead to the standby at its first heartbeat, or refuses. -/
  | plannedTakeover (p : Path)
  /-- MIRROR (R460). The lead sends its firmware state to the standby at least every 10 ms. -/
  | mirror (copied : Bool)
  /-- CARD_INSERT (R460). An inserted card is class-checked, loads firmware, copies the management flash and becomes standby. -/
  | cardInsert (c : Port) (ok link own : Bool)
  /-- ANNOUNCE (R463). Every 10 s the module multicasts an ANNOUNCE with its identity and state. -/
  | announce
  /-- ERROR_RECORD (R469). The port hardware sends the next record of the error record queue as an ERROR_RECORD. -/
  | errorRecord
  /-- TELEMETRY (R468). Each telemetry period, firmware sends one snapshot of telemetry, decimated under load. -/
  | telemetry (loads : List ClassLoad)
  /-- REG_READ (R463). An Icord REG_READ reads up to 64 BAR0 offsets over the sideband path. -/
  | regRead (h : IcordHdr) (offs : List (BitVec 26))
  /-- REG_WRITE (R463). An Icord REG_WRITE writes up to 32 offset and value pairs in order over the sideband path. -/
  | regWrite (h : IcordHdr) (ws : List (BitVec 26 × Word))
  /-- ENVELOPE (R463). An Icord ENVELOPE writes PWR.ENV_TARGET and ENV_RAMP, clamped under R415. -/
  | envelope (h : IcordHdr) (target ramp : BitVec 16)
  /-- ICORD_SHED (R463). An Icord SHED writes the shed epoch and SHED_CTRL with GO. -/
  | icordShed (h : IcordHdr) (op : BitVec 2) (epoch : DWord)
  /-- POWER_OFF (R464). An Icord POWER_OFF passes straight to the island and starts Drydown with DD_REQUESTED. -/
  | powerOff (h : IcordHdr)
  /-- ICORD_WARM_RESET (R464). An Icord WARM_RESET passes straight to the island and starts a warm reset. -/
  | icordWarmReset (h : IcordHdr)
  /-- ICORD_FIELD_TEST (R463). An Icord FIELD_TEST starts a known-answer test as NOSE.KAT_CTRL does. -/
  | icordFieldTest (h : IcordHdr) (test part : BitVec 3)
  /-- IMAGE_WRITE (R463). An Icord IMAGE_WRITE writes up to 1,024 bytes into an image slot other than the loaded one. -/
  | imageWrite (h : IcordHdr) (slot : Fin 2) (off : BitVec 25) (bs : List Byte)
  /-- IMAGE_SELECT (R463). An Icord IMAGE_SELECT writes the preferred boot slot. -/
  | imageSelect (h : IcordHdr) (slot : Fin 2)
  /-- TAG_READ (R463). An Icord TAG_READ returns up to 1,024 bytes of the Flacon tag. -/
  | tagRead (h : IcordHdr) (off len : BitVec 16)
  /-- TAG_WRITE (R463). An Icord TAG_WRITE queues one 32-byte record into a management area of the tag. -/
  | tagWrite (h : IcordHdr) (area : BitVec 2) (bs : List Byte)
  /-- LIFE_READ (R463). An Icord LIFE_READ returns a lifetime record from management flash. -/
  | lifeRead (h : IcordHdr) (kind idx : Nat)
  /-- LEDGER_READ (R463). An Icord LEDGER_READ returns the LEDG page and the charge ledger accounts. -/
  | ledgerRead (h : IcordHdr)
  /-- LOG_READ (R463). An Icord LOG_READ returns always-on log entries from an index. -/
  | logRead (h : IcordHdr) (idx : Nat)
  /-- MBOX_REQUEST (R467). MGMT.MBOX_CTRL.GO submits an Icord request from the host to the firmware. -/
  | mboxRequest (p : Path) (type len : BitVec 8) (busy : Option Nat)
  /-- LEDGER_SEAL (R472). Every PERIOD_S seconds the island seals every ledger kind to configuration flash. -/
  | ledgerSeal
  /-- SEAL_NOW (R472). LEDG.SEAL_CTRL.GO seals the ledgers at once. -/
  | sealNow (p : Path)
  /-- ACK_OPEN (R473). LEDG.ACK_OPEN marks an open ledger kind reconciled. -/
  | ackOpen (p : Path) (charge token event : Bool)
  /-- LIFETIME_RECORD (R475). At each grain the lead card takes a lifetime record into management flash. -/
  | lifetimeRecord (x : LifeInput) (sum : Bool)
  /-- AGEING_OFFSET (R476). Once a day firmware sets each domain's OFFSET_MV from the worst tile's ageing. -/
  | ageingOffset (ppm : List Nat)
  /-- SERVICE_UPDATE (R484). Once a second firmware updates MGMT.SERVICE and journals each rising bit. -/
  | serviceUpdate (opticRefused : Bool)
  /-- TAG_RD (R478). TAG.RD_ADDR.GO reads 32 bytes of the tag into RD_DATA. -/
  | tagRd (p : Path) (byte : BitVec 13)
  /-- TAG_WR (R480). TAG.WR_CTRL.GO queues a record for a summary or journal commit, or refuses with TAG_AREA. -/
  | tagWr (p : Path) (area : BitVec 2)
  /-- TAG_COMMIT_DONE (R479). A 40 ms tag commit completes and is read back, with TAG_WRITE_FAIL after three failures. -/
  | tagCommitDone (ok : Bool)
  /-- INVENTORY (R478). An ISO/IEC 15693 INVENTORY command from an RF reader is answered by the tag. -/
  | rfInventory
  /-- GET_SYSTEM_INFORMATION (R478). An RF GET SYSTEM INFORMATION command is answered by the tag. -/
  | getSystemInformation
  /-- READ_SINGLE_BLOCK (R478). An RF READ SINGLE BLOCK command returns one 4-byte block. -/
  | readSingleBlock (n : BitVec 16)
  /-- READ_MULTIPLE_BLOCKS (R478). An RF READ MULTIPLE BLOCKS command returns consecutive blocks. -/
  | readMultipleBlocks (n count : BitVec 16)
  /-- WRITE_SINGLE_BLOCK (R478). An RF WRITE SINGLE BLOCK writes the technician log, or is refused as block-locked elsewhere. -/
  | writeSingleBlock (n : BitVec 16) (v : Word)
  /-- RF_SESSION_END (R481). 500 ms after the last RF command, or on field loss, the session ends and waiting wired commits are made. -/
  | rfSessionEnd (fieldLost : Bool)
  /-- RF_HOLD (R481). A wired commit that has waited 2 s holds the RF side for one 40 ms commit. -/
  | rfHold
  /-- PORT_ATTACH (R498). A host port becomes attached when its link is active and its PF is enabled. -/
  | portAttach (port : Port) (width rate : Nat) (cfg : PortCfg)
  /-- PORT_DETACH (R499). A port that stops being attached moves its partitions to the other port and resends their open requests. -/
  | portDetach (port : Port) (linkUp : Bool) (resent : Nat)
  /-- VF_FLR (R503). A Function Level Reset of a VF ends its partition's host transfers and puts its queues in host pause. -/
  | vfFlr (port : Port) (part : Fin 8)
  /-- CLAIM (R502). FN_CLAIM.CLAIM reattaches every partition through the PF, or one partition through its VF. -/
  | claim (port : Port) (fn : Fin 9)
  /-- REARM (R497). FN_REARM.GO sets a vector's latch again if any of its sources still raises. -/
  | rearm (port : Port) (fn : Fin 9) (vec : Fin 128)
  /-- MSIX_UNMASK (R497). Unmasking a vector whose PBA bit is set sends its pending message. -/
  | msixUnmask (port : Port) (fn : Fin 9) (vec : Fin 128)
  /-- PART_PORT_WRITE (R500). A write of HOST.PART_PORT sets each partition's preferred port. -/
  | partPortWrite (p : Path) (v : BitVec 8)
  /-- PORT_MOVE (R500). A partition moves to its preferred port once it has no host transfer outstanding. -/
  | portMove (part : Fin 8)
  /-- HOST_COMPLETION (R495). A completion for a host read delivers data, or ends the transfer with HOST_UR or HOST_POISON. -/
  | hostCompletion (t : HostTarget) (h : HostAnswer)
  /-- TRAINING_COMPLETE (R353). Initial training of a link in TRAINING completes and the link enters UP on 16 lanes or DEGRADED on one half. -/
  | trainingComplete (k : Fin 48) (peer : BitVec 16)
  /-- STANDBY_LOST (R460). Removal or reset of the standby card, or a mirror older than 20 ms, clears STANDBY_OK and raises STANDBY_LOST. -/
  | standbyLost (why : CardLoss)
  /-- COUPLING_CONNECT (R11). A coolant coupling pair is connected, setting its PRESENT bit and counting an insertion. -/
  | couplingConnect (c : Port)
  /-- PTP_FOLLOW_UP (R78). A PTP Follow_Up message delivers the precise origin timestamp of a two-step Sync to the servo. -/
  | ptpFollowUp (port : Port) (domain : Nat) (udp : Bool) (t1 : Nat)
  /-- PTP_DELAY_REQ (R78). The slave port sends a PTP Delay_Req at its interval to start a delay request-response measurement. -/
  | ptpDelayReq (port : Port) (m : PtpDelayReq)
  /-- DOMAIN_MARGIN (R407). A domain's regulator reaches 900 mV with its lowest valid reading more than 10 mV below EFF_MV,
  setting MARGIN and raising DOMAIN_MARGIN. -/
  | domainMargin (d : Fin 84) (out min_ : Nat) (idx : Fin 16)
  /-- DOUBLED_REFRESH (R276). A stack's device temperature crosses 85 °C, doubling or restoring its refresh rate and toggling STAT.HOT. -/
  | doubledRefresh (k : Fin 32) (tempC : Nat)
  deriving DecidableEq, Repr

end Sys2Proof
end

