-- ==== Sys2Proof/Config.lean ====
section
/-! DEFINITION. What one module fixes, and the free values the spec leaves open. -/

namespace Sys2Proof

/-- A value the spec leaves open. The argument is the model's own counter (State.free), so that each use is a fresh
value; nothing constrains it (log entry 4). -/
opaque Config.freeWord : Nat → BitVec 64

/-- A result the spec states no value for, as a function of the operation and its operands (log entry 5). -/
opaque Config.openResult : Nat → Nat → Nat → BitVec 64

/-- What a MODE byte of an Accord cell selects for an OP: the spec gives no encoding of MODE (log entry 9). -/
opaque Config.accordMode : Nat → Nat → Nat

/-- Whether a MODE byte is defined for an OP (R148), which the spec does not list (log entry 9). -/
opaque Config.accordModeDefined : Nat → Nat → Bool

/-- The unique identifier of the Flacon tag, which the spec does not give (log entry 15). -/
opaque Config.tagUid : BitVec 64

/-- A byte of the tag's identity area, for a module of a serial number, variant, stepping and profiles (R478; log entry 118). -/
opaque Config.identity : Nat → Nat → Nat → Nat → Nat → Byte

/-- The DRAM row and the bank of an offset in a bonded region, which the spec does not give (log entry 65). -/
opaque Config.bondRow : Nat → Nat
opaque Config.bondBank : Nat → Nat

/-- What a field test leaves in a word of a tile's Nose area; the argument is the model's own counter (State.free), the tile and the
word. The spec does not give it (log entry 94). -/
opaque Config.katWord : Nat → Nat → Nat → Word

/-- Whether a member of a group holds a collective up at a clk_tb edge, because it has not issued it yet or has stalled it: by GROUP_ID,
SEQ, rank and edge. No message says so of every member (log entry 87). -/
opaque Config.peerHolds : Nat → Nat → Nat → Nat → Bool

/-- The position that the OFFSET of a COLL_DATA frame holds above its GROUP_ID: the spec does not lay it out (log entry 107). -/
opaque Config.collPosition : CollPos → BitVec 12

/-- SHA-384 of a list of bytes, with byte 0 of the hash lowest; and whether an ECDSA P-384 signature of a hash holds for a
public key. The spec names these algorithms and does not give them (log entry 16). -/
opaque Config.sha384 : List Byte → BitVec 384
opaque Config.ecdsaOk : List Byte → List Byte → BitVec 384 → Bool

/-- Rows of the grid (R12). -/
def Config.rows : Nat := 24
/-- Logical columns of a row (R14). -/
def Config.cols : Nat := 40
/-- Physical columns of a row (R14). -/
def Config.pcols : Nat := 42
/-- Logical tiles (R15). -/
def Config.tiles : Nat := 960
/-- Ticks in one second, one millisecond and one microsecond (R76: 6.4 ns a tick). -/
def Config.ticksPerS : Nat := 156250000
def Config.ticksPerMs : Nat := 156250
/-- Words of one scratchpad (R7, R120): 40 MiB of 4-byte words. -/
def Config.spadWords : Nat := 10485760

end Sys2Proof
end

