-- ==== Sys2Proof/Machine/Cells.lean ====
section
/-! DEFINITION. Reading and writing sparse files in canonical form: keys strictly rising, and no entry equal to what
an unlisted key reads as, so that equal files are equal lists. -/

namespace Sys2Proof.Machine

/-- The entry of key `k`, if the file lists one. -/
def Cells.find {α : Type} (m : Cells α) (k : Nat) : Option α :=
  match m with
  | [] => none
  | (a, v) :: r => if a = k then some v else Cells.find r k

/-- The value at key `k`, where an unlisted key reads as `d`. -/
def Cells.get {α : Type} (d : α) (m : Cells α) (k : Nat) : α :=
  (Cells.find m k).getD d

/-- The file without key `k`. -/
def Cells.drop {α : Type} (m : Cells α) (k : Nat) : Cells α :=
  match m with
  | [] => []
  | (a, v) :: r => if a = k then Cells.drop r k else (a, v) :: Cells.drop r k

/-- The file with an entry for key `k` put at its place in rising order. -/
def Cells.insert {α : Type} (m : Cells α) (k : Nat) (v : α) : Cells α :=
  match m with
  | [] => [(k, v)]
  | (a, w) :: r => if k < a then (k, v) :: (a, w) :: r else (a, w) :: Cells.insert r k v

/-- The file with value `v` at key `k`; writing the value an unlisted key reads as removes the entry. -/
def Cells.put {α : Type} [DecidableEq α] (d : α) (m : Cells α) (k : Nat) (v : α) : Cells α :=
  if v = d then Cells.drop m k else Cells.insert (Cells.drop m k) k v

/-- The file with every key satisfying `p` back to the unlisted value. -/
def Cells.clear {α : Type} (m : Cells α) (p : Nat → Bool) : Cells α :=
  m.filter fun c => !p c.1

/-- Keys strictly rising, all above `lo`. -/
def Cells.risingFrom {α : Type} (lo : Nat) (m : Cells α) : Bool :=
  match m with
  | [] => true
  | (a, _) :: r => decide (lo < a) && Cells.risingFrom a r

/-- Keys strictly rising. -/
def Cells.rising {α : Type} (m : Cells α) : Bool :=
  match m with
  | [] => true
  | (a, _) :: r => Cells.risingFrom a r

/-- No entry equal to what an unlisted key reads as. -/
def Cells.tight {α : Type} [DecidableEq α] (d : α) (m : Cells α) : Bool :=
  m.all fun c => c.2 ≠ d

/-- The canonical form of a file whose unlisted keys read as `d`. -/
def Cells.wf {α : Type} [DecidableEq α] (d : α) (m : Cells α) : Bool :=
  Cells.rising m && Cells.tight d m

/-- `n` bytes from key `a`, the lowest first. -/
def Cells.bytes (m : Cells Byte) (a n : Nat) : List Byte :=
  (List.range n).map fun i => Cells.get 0 m (a + i)

/-- The file with bytes `bs` from key `a`, the first at `a`. -/
def Cells.putBytes (m : Cells Byte) (a : Nat) (bs : List Byte) : Cells Byte :=
  match bs with
  | [] => m
  | b :: r => Cells.putBytes (Cells.put 0 m a b) (a + 1) r

/-- A little-endian number from bytes. -/
def leNat (bs : List Byte) : Nat :=
  match bs with
  | [] => 0
  | b :: r => b.toNat + 256 * leNat r

/-- `n` little-endian bytes of a number. -/
def leBytes (n v : Nat) : List Byte :=
  match n with
  | 0 => []
  | n + 1 => BitVec.ofNat 8 v :: leBytes n (v / 256)

/-- Bits `hi` down to `lo` of a number. -/
def bitsOf (v hi lo : Nat) : Nat := v / 2 ^ lo % 2 ^ (hi + 1 - lo)

/-- Bit `i` of a number. -/
def bitOf (v i : Nat) : Bool := v.testBit i

/-- A natural read as a signed number of `w` bits. -/
def signed (w v : Nat) : Int := if v % 2 ^ w < 2 ^ (w - 1) then (v % 2 ^ w : Nat) else (v % 2 ^ w : Nat) - (2 ^ w : Nat)

/-- A signed number as a natural of `w` bits, two's complement. -/
def unsigned (w : Nat) (v : Int) : Nat := (v % (2 ^ w : Nat)).toNat

/-- The value `v` held to the range from `lo` to `hi`. -/
def clampNat (lo hi v : Nat) : Nat := max lo (min hi v)

end Sys2Proof.Machine
end

