-- ==== Sys2Proof/Machine/Arith.lean ====
section
/-! DEFINITION. The arithmetic contract (spec/04): number formats, conversions, exact-window sums, XB40 triples, KSR-1
and the K1 order. A value is exact: a sign, a magnitude and a power of two. -/

namespace Sys2Proof.Machine

/-- An exact value: a NaN, an infinity, or (−1)^neg × mag × 2^exp (R89). -/
inductive Val where
  | nan
  | inf (neg : Bool)
  | fin (neg : Bool) (mag : Nat) (exp : Int)
  deriving DecidableEq, Repr

/-- Which encodings of a format are infinities and NaNs (R89). -/
inductive Special where
  | ieee | e4m3 | none
  deriving DecidableEq, Repr

/-- A binary floating-point format of R89: exponent bits, mantissa bits, bias, special encodings. -/
structure Fmt where
  eb   : Nat
  mb   : Nat
  bias : Nat
  spec : Special
  deriving DecidableEq, Repr

def fp32 : Fmt := ⟨8, 23, 127, .ieee⟩
def bf16 : Fmt := ⟨8, 7, 127, .ieee⟩
def e5m2 : Fmt := ⟨5, 2, 15, .ieee⟩
def e4m3 : Fmt := ⟨4, 3, 7, .e4m3⟩
def e2m1 : Fmt := ⟨2, 1, 1, .none⟩

/-- The width of a format. -/
def Fmt.width (f : Fmt) : Nat := 1 + f.eb + f.mb

/-- The value of an encoding (R89). -/
def Fmt.decode (f : Fmt) (v : Nat) : Val :=
  let s := bitOf v (f.eb + f.mb)
  let e := v / 2 ^ f.mb % 2 ^ f.eb
  let m := v % 2 ^ f.mb
  if f.spec = .ieee ∧ e = 2 ^ f.eb - 1 then (if m = 0 then .inf s else .nan)
  else if f.spec = .e4m3 ∧ e = 15 ∧ m = 7 then .nan
  else if e = 0 then .fin s m (1 - (f.bias : Int) - f.mb)
  else .fin s (m + 2 ^ f.mb) ((e : Int) - f.bias - f.mb)

/-- The canonical NaN of a format (R90). -/
def Fmt.nan (f : Fmt) : Nat :=
  match f.spec with
  | .ieee => (2 ^ f.eb - 1) * 2 ^ f.mb + 2 ^ (f.mb - 1)
  | _ => 2 ^ (f.eb + f.mb) - 1

/-- The largest finite encoding, without its sign (R89). -/
def Fmt.maxFinite (f : Fmt) : Nat :=
  match f.spec with
  | .ieee => (2 ^ f.eb - 1) * 2 ^ f.mb - 1
  | .e4m3 => 2 ^ (f.eb + f.mb) - 2
  | .none => 2 ^ (f.eb + f.mb) - 1

/-- The sign bit of a format. -/
def Fmt.signBit (f : Fmt) (neg : Bool) : Nat := if neg then 2 ^ (f.eb + f.mb) else 0

/-- floor(log2 m) of a non-zero magnitude with its exponent. -/
def floorLog2 (m : Nat) (e : Int) : Int := (Nat.log2 m : Int) + e

/-- floor(m × 2^k), and whether bits were dropped. -/
def shiftFloor (m : Nat) (k : Int) : Nat × Bool :=
  if 0 ≤ k then (m * 2 ^ k.toNat, false)
  else (m / 2 ^ (-k).toNat, m % 2 ^ (-k).toNat ≠ 0)

/-- floor(m × 2^k / 2^j) for a fraction of `j` bits below the unit. -/
def shiftNat (m : Nat) (k : Int) : Nat := (shiftFloor m k).1

/-- Rounds m × 2^k to an integer, to nearest with ties to even (R96). -/
def roundEven (m : Nat) (k : Int) : Nat :=
  let n := shiftNat m k
  if 0 ≤ k then n
  else
    let d := 2 ^ (-k).toNat
    let r := m % d
    if d < 2 * r ∨ (2 * r = d ∧ n % 2 = 1) then n + 1 else n

/-- Rounds m × 2^k stochastically with a 24-bit random word: up if F + rnd ≥ 2^24 (R113). -/
def roundRandom (rnd : Nat) (m : Nat) (k : Int) : Nat :=
  let n := shiftNat m k
  let f := shiftNat m (k + 24) - n * 2 ^ 24
  if 2 ^ 24 ≤ f + rnd then n + 1 else n

/-- How a conversion rounds: to nearest, or with a random word (R96, R113). -/
inductive Rounding where
  | nearest
  | random (rnd : Nat)
  deriving DecidableEq, Repr

/-- The rounded integer. -/
def Rounding.apply (r : Rounding) (m : Nat) (k : Int) : Nat :=
  match r with
  | .nearest => roundEven m k
  | .random w => roundRandom w m k

/-- The exponent of a format's spacing at a magnitude: its mantissa weight in the binade, or that of the smallest
subnormal below the smallest normal (R113). -/
def Fmt.quantum (f : Fmt) (m : Nat) (e : Int) : Int :=
  max (floorLog2 m e - f.mb) (1 - (f.bias : Int) - f.mb)

/-- The finite overflow of R95: infinity for FP32 and BF16, the largest finite value for the others. -/
def Fmt.overflow (f : Fmt) : Nat :=
  if f = fp32 ∨ f = bf16 then (2 ^ f.eb - 1) * 2 ^ f.mb else f.maxFinite

/-- The encoding of n × 2^q, where q is the quantum, checked for overflow (R95). -/
def Fmt.encodeRounded (f : Fmt) (neg : Bool) (n : Nat) (q : Int) : Nat :=
  -- n × 2^q with q ≥ the smallest quantum: n < 2^mb is subnormal at that quantum
  let base := 1 - (f.bias : Int) - f.mb
  let (n', q') := if n = 2 ^ (f.mb + 1) then (2 ^ f.mb, q + 1) else (n, q)
  let code := if n' < 2 ^ f.mb then n' else (q' - base + 1).toNat * 2 ^ f.mb + (n' - 2 ^ f.mb)
  f.signBit neg + (if f.maxFinite < code then f.overflow else code)

/-- Converts a value to a format (R95, R96, R113). A result that rounds to zero keeps its sign. -/
def Fmt.encode (f : Fmt) (r : Rounding) (v : Val) : Nat :=
  match v with
  | .nan => f.nan
  | .inf s =>
    match f.spec with
    | .ieee => f.signBit s + (2 ^ f.eb - 1) * 2 ^ f.mb
    | _ => f.nan
  | .fin s m e =>
    if m = 0 then f.signBit s
    else
      let q := f.quantum m e
      f.encodeRounded s (r.apply m (e - q)) q

/-- The value of an FP32 word. -/
def f32 (w : Nat) : Val := fp32.decode w
/-- A value as an FP32 word, rounded to nearest. -/
def toF32 (v : Val) : Nat := fp32.encode .nearest v

/-- −v. -/
def Val.neg (v : Val) : Val :=
  match v with
  | .nan => .nan
  | .inf s => .inf !s
  | .fin s m e => .fin (!s) m e

/-- The signed integer of a finite value in units of 2^g, where g is at most its exponent. -/
def scaled (s : Bool) (m : Nat) (e g : Int) : Int :=
  let n : Int := (m * 2 ^ (e - g).toNat : Nat)
  if s then -n else n

/-- The exact value of an integer in units of 2^g; zero has the sign given. -/
def ofScaled (zeroNeg : Bool) (n g : Int) : Val :=
  if n = 0 then .fin zeroNeg 0 0 else .fin (decide (n < 0)) n.natAbs g

/-- The exact sum. A zero sum of opposite signs is +0 (IEEE 754, to nearest; R110). -/
def Val.add (x y : Val) : Val :=
  match x, y with
  | .nan, _ | _, .nan => .nan
  | .inf a, .inf b => if a = b then .inf a else .nan
  | .inf a, _ | _, .inf a => .inf a
  | .fin s m e, .fin t n f =>
    let g := min e f
    ofScaled (s && t && decide (m = 0 ∧ n = 0)) (scaled s m e g + scaled t n f g) g

/-- The exact product. -/
def Val.mul (x y : Val) : Val :=
  match x, y with
  | .nan, _ | _, .nan => .nan
  | .inf a, .inf b => .inf (a != b)
  | .inf a, .fin b m _ | .fin b m _, .inf a => if m = 0 then .nan else .inf (a != b)
  | .fin s m e, .fin t n f => .fin (s != t) (m * n) (e + f)

/-- x × 2^k. -/
def Val.scale (x : Val) (k : Int) : Val :=
  match x with
  | .fin s m e => .fin s m (e + k)
  | v => v

/-- The binary32 operations of R110, each rounded once. -/
def fadd (a b : Nat) : Nat := toF32 ((f32 a).add (f32 b))
def fsub (a b : Nat) : Nat := toF32 ((f32 a).add (f32 b).neg)
def fmul (a b : Nat) : Nat := toF32 ((f32 a).mul (f32 b))
def ffma (a b c : Nat) : Nat := toF32 (((f32 a).mul (f32 b)).add (f32 c))

/-- x ÷ y rounded to binary32: the quotient is taken with 64 bits more than the dividend and a sticky bit. -/
def fdiv (a b : Nat) : Nat :=
  match f32 a, f32 b with
  | .nan, _ | _, .nan => fp32.nan
  | .inf _, .inf _ => fp32.nan
  | .inf s, .fin t _ _ => toF32 (.inf (s != t))
  | .fin s _ _, .inf t => toF32 (.fin (s != t) 0 0)
  | .fin s m e, .fin t n f =>
    if n = 0 then (if m = 0 then fp32.nan else toF32 (.inf (s != t)))
    else
      let q := m * 2 ^ 64 / n
      let r := m * 2 ^ 64 % n
      toF32 (.fin (s != t) (2 * q + (if r = 0 then 0 else 1)) (e - f - 65))

/-- The integer square root by bisection on bits, `fuel` bits from 2^(fuel−1) down. -/
def isqrtBits (n : Nat) (fuel acc : Nat) : Nat :=
  match fuel with
  | 0 => acc
  | k + 1 =>
    let t := acc + 2 ^ k
    isqrtBits n k (if t * t ≤ n then t else acc)

/-- √x rounded to binary32; the root of −0 is −0 and of a negative value a NaN (IEEE 754). -/
def fsqrt (a : Nat) : Nat :=
  match f32 a with
  | .nan => fp32.nan
  | .inf s => if s then fp32.nan else toF32 (.inf false)
  | .fin s m e =>
    if m = 0 then toF32 (.fin s 0 0)
    else if s then fp32.nan
    else
      let (m', e') := if e % 2 = 0 then (m, e) else (2 * m, e - 1)
      let n := m' * 2 ^ 64
      let r := isqrtBits n 48 0
      toF32 (.fin false (2 * r + (if r * r = n then 0 else 1)) (e' / 2 - 33))

/-- Whether x < y for values that are not NaN. -/
def Val.lt (x y : Val) : Bool :=
  match x, y with
  | .inf a, .inf b => a && !b
  | .inf a, .fin _ _ _ => a
  | .fin _ _ _, .inf b => !b
  | .fin s m e, .fin t n f => let g := min e f; decide (scaled s m e g < scaled t n f g)
  | _, _ => false

/-- The sign of a value. -/
def Val.isNeg (x : Val) : Bool :=
  match x with
  | .inf s | .fin s _ _ => s
  | .nan => false

/-- FMIN and FMAX (R110): a NaN gives the canonical NaN; −0 is below +0. -/
def fmin (a b : Nat) : Nat :=
  match f32 a, f32 b with
  | .nan, _ | _, .nan => fp32.nan
  | x, y => if x.lt y then a else if y.lt x then b else if x.isNeg then a else b
def fmax (a b : Nat) : Nat :=
  match f32 a, f32 b with
  | .nan, _ | _, .nan => fp32.nan
  | x, y => if x.lt y then b else if y.lt x then a else if x.isNeg then b else a

/-- Conversion of a value to INT32: nearest, ties to even, saturating; a NaN gives 0 (R97). -/
def toInt32 (v : Val) : Nat :=
  match v with
  | .nan => 0
  | .inf s => if s then 0x80000000 else 0x7FFFFFFF
  | .fin s m e =>
    let n : Int := roundEven m e
    let k : Int := if s then -n else n
    unsigned 32 (max (-(2 ^ 31 : Nat)) (min (2 ^ 31 - 1 : Nat) k))

/-- The value of an INT32 word. -/
def ofInt32 (w : Nat) : Val := let i := signed 32 w; .fin (decide (i < 0)) i.natAbs 0

/-! ### Microscaling blocks (R93, R94) -/

/-- The value of an element of an MX block with scale code `x`; scale 0xFF makes every element a NaN. -/
def mxValue (f : Fmt) (x elem : Nat) : Val := if x = 255 then .nan else (f.decode elem).scale ((x : Int) - 127)

/-- emax of R94. -/
def mxEmax (f : Fmt) : Int := if f = e4m3 then 8 else if f = e5m2 then 15 else 2

/-- The larger magnitude's floor(log2), over the non-zero finite values. -/
def maxLog2 (vs : List Val) : Option Int :=
  vs.foldl (fun a v =>
    match v with
    | .fin _ m e => if m = 0 then a else
      (match a with
        | none => some (floorLog2 m e)
        | some b => some (max b (floorLog2 m e)))
    | _ => a) none

/-- Whether a value is a NaN or an infinity. -/
def Val.special (v : Val) : Bool :=
  match v with
  | .fin _ _ _ => false
  | _ => true

/-- Writes an MX block: the scale code and the element codes (R94); `r i` gives the rounding of element `i`. -/
def mxEncode (f : Fmt) (r : Nat → Rounding) (vs : List Val) : Nat × List Nat :=
  if vs.any Val.special then (255, vs.map fun _ => 0)
  else
    match maxLog2 vs with
    | none => (0, vs.map fun v => f.signBit v.isNeg)
    | some l =>
      let x := (max 0 (min 254 (l - mxEmax f + 127))).toNat
      (x, vs.zipIdx.map fun p => f.encode (r p.2) (p.1.scale (127 - (x : Int))))

/-! ### Exact windows (R98 to R103) -/

/-- One operand K-block as the anchor rule sees it: its block exponent, if it has one, and whether it is special (R99). -/
structure BlockExp where
  exp     : Option Int
  special : Bool
  deriving DecidableEq, Repr

/-- The block exponent of a K-block's values (R99). -/
def blockExp (vs : List Val) : BlockExp := ⟨maxLog2 vs, vs.any Val.special⟩

/-- The larger of two optional exponents. -/
def maxOpt (a b : Option Int) : Option Int :=
  match a, b with
  | none, y => y
  | x, none => x
  | some x, some y => some (max x y)

/-- The anchor code from the anchor and whether any block is special (R100). -/
def anchorCode (special : Bool) (a : Option Int) : Nat :=
  if special then 255
  else
    match a with
    | none => 0
    | some x => if 127 < x then 255 else if x < -126 then 1 else (x + 127).toNat

/-- The anchor of one K-block pair of a product term (R100). -/
def pairAnchor (x y : BlockExp) : Option Int :=
  match x.exp, y.exp with
  | some a, some b => some (a + b + 1)
  | _, _ => none

/-- The grid exponent of an anchor code (R101). -/
def grid (code : Nat) : Int := (code : Int) - 127 - 47

/-- A term in units of the grid, truncated toward zero (R101). -/
def gridTerm (g : Int) (v : Val) : Int :=
  match v with
  | .fin s m e => let n : Int := shiftNat m (e - g); if s then -n else n
  | _ => 0

/-- The exact integer sum of a list of terms on a grid. -/
def gridSum (g : Int) (vs : List Val) : Int := vs.foldl (fun a v => a + gridTerm g v) 0

/-- The value of a sum on a code's grid: +0 for a zero sum and for code 0, a NaN for code 255 (R101). -/
def windowValue (code : Nat) (s : Int) : Val :=
  if code = 255 then .nan else if code = 0 then .fin false 0 0 else ofScaled false s (grid code)

/-! ### XB40 triples (R104 to R109) -/

/-- One output of a triple: three planes in units of the grid (R105). -/
structure Planes where
  v0 : Int
  v1 : Int
  v2 : Int
  deriving DecidableEq, Repr

/-- The integer the planes stand for (R105). -/
def Planes.value (p : Planes) : Int := p.v0 + p.v1 * 2 ^ 24 + p.v2 * 2 ^ 48

/-- The carry out of a plane: (v + 2^23) >> 24, an arithmetic shift (R106). -/
def planeCarry (v : Int) : Int := (v + 2 ^ 23) / 2 ^ 24

/-- Normalisation of one output (R106). -/
def Planes.normalise (p : Planes) : Planes :=
  let c0 := planeCarry p.v0
  let v1 := p.v1 + c0
  let c1 := planeCarry v1
  ⟨p.v0 - c0 * 2 ^ 24, v1 - c1 * 2 ^ 24, p.v2 + c1⟩

/-- Whether plane 2 fits 40 bits; outside it XB40_RANGE arises (R106). -/
def Planes.inRange (p : Planes) : Bool := decide (-(2 ^ 39 : Int) ≤ p.v2 ∧ p.v2 ≤ 2 ^ 39 - 1)

/-- The exact plane sums of an adder stage (R107). -/
def Planes.add (p q : Planes) : Planes := ⟨p.v0 + q.v0, p.v1 + q.v1, p.v2 + q.v2⟩

/-- res(w): the mathematical remainder of w modulo 255 (R109). -/
def residue (w : Int) : Int := w % 255

/-- Whether an adder stage's sum passes the residue check of one plane (R109). -/
def residueOk (inputs : List Int) (sum : Int) : Bool :=
  decide (residue sum = residue (inputs.foldl (fun a v => a + residue v) 0))

/-- The residue check of every plane of one output of an adder stage (R109). -/
def planesOk (ins : List Planes) (sum : Planes) : Bool :=
  residueOk (ins.map Planes.v0) sum.v0 && residueOk (ins.map Planes.v1) sum.v1 && residueOk (ins.map Planes.v2) sum.v2

/-- A triple: the three anchor bytes and the 32 outputs (R104, R105). -/
structure Triple where
  anchors : Nat × Nat × Nat
  outs    : List Planes
  deriving DecidableEq, Repr

/-- The anchor code of a triple whose three anchor bytes agree (R105). -/
def Triple.code (t : Triple) : Option Nat :=
  if t.anchors.1 = t.anchors.2.1 ∧ t.anchors.1 = t.anchors.2.2 then some t.anchors.1 else none

/-- A 40-bit two's-complement number from five little-endian bytes (R104). -/
def plane40 (bs : List Byte) : Int := signed 40 (leNat bs)

/-- A triple from its 483 bytes (R104, R105). -/
def Triple.ofBytes (bs : List Byte) : Triple :=
  let at_ (p i : Nat) := plane40 ((bs.drop (161 * p + 1 + 5 * i)).take 5)
  let anchor (p : Nat) := (bs.getD (161 * p) 0).toNat
  ⟨(anchor 0, anchor 1, anchor 2), (List.range 32).map fun i => ⟨at_ 0 i, at_ 1 i, at_ 2 i⟩⟩

/-- One XB40 block of 161 bytes (R104). -/
def xb40Block (anchor : Nat) (vs : List Int) : List Byte :=
  BitVec.ofNat 8 anchor :: vs.flatMap fun v => leBytes 5 (unsigned 40 v)

/-- The 483 bytes of a triple (R105). -/
def Triple.bytes (t : Triple) : List Byte :=
  xb40Block t.anchors.1 (t.outs.map (·.v0)) ++ xb40Block t.anchors.2.1 (t.outs.map (·.v1)) ++
    xb40Block t.anchors.2.2 (t.outs.map (·.v2))

/-- The triple of 32 sums on one code, normalised in a wide register (R106). -/
def Triple.ofSums (code : Nat) (ss : List Int) : Triple :=
  ⟨(code, code, code), ss.map fun s => Planes.normalise ⟨s, 0, 0⟩⟩

/-- What an adder stage can report instead of a sum (R105 to R109). -/
inductive StageErr where
  | anchor | residue | range
  deriving DecidableEq, Repr

/-- A plane sum with `v` more than it is. -/
def Planes.slip (p : Planes) (plane : Nat) (v : Int) : Planes :=
  match plane with
  | 0 => { p with v0 := p.v0 + v }
  | 1 => { p with v1 := p.v1 + v }
  | _ => { p with v2 := p.v2 + v }

/-- One adder stage of triples that share an anchor code: plane sums, residue checks on the exact sums, normalisation,
and the residue of the output before and after it (R107, R109). `slip` is what the stage adds wrong, if anything. -/
def adderStage (ts : List Triple) (slip : Option Slip) : Except StageErr Triple :=
  match ts with
  | [] => .ok ⟨(0, 0, 0), (List.range 32).map fun _ => ⟨0, 0, 0⟩⟩
  | t :: rest =>
    match t.code with
    | none => .error .anchor
    | some c =>
      if rest.all fun u => u.code = some c then
        let exact := rest.foldl (fun a u => List.zipWith Planes.add a u.outs) t.outs
        let sums := match slip with
          | none => exact
          | some x => exact.modify x.out fun p => p.slip x.plane x.by_
        let norm := sums.map Planes.normalise
        let planes := sums.zipIdx.all fun p => planesOk (ts.map fun u => u.outs.getD p.2 ⟨0, 0, 0⟩) p.1
        let kept := (sums.zip norm).all fun p => residue (p.1.v0 + p.1.v1 + p.1.v2) = residue (p.2.v0 + p.2.v1 + p.2.v2)
        if planes && kept then
          if norm.all Planes.inRange then .ok ⟨(c, c, c), norm⟩ else .error .range
        else .error .residue
      else .error .anchor

/-! ### KSR-1 (R112) -/

/-- mix of R112, on 64-bit words. -/
def ksrMix (z : BitVec 64) : BitVec 64 :=
  let a := (z ^^^ (z >>> 31)) * 0xA3B195354A39B70D#64
  let b := (a ^^^ (a >>> 29)) * 0x8D2F5C3BE6A14F27#64
  b ^^^ (b >>> 32)

/-- ksr1 of R112. -/
def ksr1 (seed step index : Nat) : Nat :=
  let s := BitVec.ofNat 64 seed
  let st := BitVec.ofNat 64 step
  let c0 := BitVec.ofNat 64 index ||| (st <<< 46)
  let c1 := (st >>> 18) ||| 0x4B53523100000000#64
  let h1 := ksrMix (s ^^^ c0)
  let h2 := ksrMix (h1 ^^^ c1)
  (ksrMix (h2 + s)).toNat

/-- The random word of a parameter: the top 24 bits of the hash (R112). -/
def ksrWord (seed step index : Nat) : Nat := ksr1 seed step index / 2 ^ 40

/-! ### Profile K1 (R115) -/

/-- One level of the pairwise tree. -/
def pairUp (l : List Nat) : List Nat :=
  match l with
  | a :: b :: r => fadd a b :: pairUp r
  | r => r

/-- A chunk of 16 binary32 values through the four levels of the tree (R115). -/
def chunkSum (l : List Nat) : Nat := ((pairUp (pairUp (pairUp (pairUp l)))).headD 0)

/-- The K1 chain over chunks: `fuel` chunks of 16 terms, padded with +0 (R115). -/
def k1Chain (fuel : Nat) (acc : Nat) (l : List Nat) : Nat :=
  match fuel with
  | 0 => acc
  | n + 1 =>
    let c := l.take 16
    k1Chain n (fadd acc (chunkSum (c ++ List.replicate (16 - c.length) 0))) (l.drop 16)

/-- A K1 reduction of binary32 terms from accumulator `acc` (R115, R116). -/
def k1Reduce (acc : Nat) (l : List Nat) : Nat := k1Chain ((l.length + 15) / 16) acc l

/-! ### CRC-32C (R372) -/

/-- One bit of the reflected CRC-32C. -/
def crcBit (c : BitVec 32) : BitVec 32 := if c.getLsbD 0 then (c >>> 1) ^^^ 0x82F63B78#32 else c >>> 1

/-- One byte of the reflected CRC-32C. -/
def crcByte (c : BitVec 32) (b : Byte) : BitVec 32 :=
  (List.range 8).foldl (fun a _ => crcBit a) (c ^^^ b.setWidth 32)

/-- The seal of a list of bytes: their CRC-32C (R372). -/
def sealOf (bs : List Byte) : Word := (bs.foldl crcByte 0xFFFFFFFF#32) ^^^ 0xFFFFFFFF#32

/-- Cuts bytes into seal spans: the first of `first` bytes, the others of 512 (R374). -/
def spansOf (first n : Nat) : List (Nat × Nat) :=
  if n ≤ first then (if n = 0 then [] else [(0, n)])
  else (if first = 0 then [] else [(0, first)]) ++
    (List.range ((n - first + 511) / 512)).map fun i => (first + 512 * i, min 512 (n - first - 512 * i))

/-- The length of the first span of data whose source starts at byte `a`. -/
def firstSpan (a : Nat) : Nat := 512 - a % 512

/-- The carried seals of bytes. -/
def sealsOf (first : Nat) (bs : List Byte) : List Word :=
  (spansOf first bs.length).map fun x => sealOf ((bs.drop x.1).take x.2)

/-- The spans whose carried seal does not match. -/
def badSpans (first : Nat) (bs : List Byte) (seals : List Word) : List (Nat × Nat) :=
  ((spansOf first bs.length).zipIdx.filter fun x => decide (seals[x.2]? ≠ some (sealOf ((bs.drop x.1.1).take x.1.2)))).map Prod.fst

/-- Bytes with bits of some of them changed. -/
def flipBytes (bs : List Byte) (err : List (Nat × Byte)) : List Byte :=
  err.foldl (fun v e => v.modify e.1 fun b => b ^^^ e.2) bs

end Sys2Proof.Machine
end

