-- ==== Sys2Proof/Machine/Errors.lean ====
section
/-! DEFINITION. The error codes of the module: every code table of spec/02 to spec/18 (R54), with its class (R370, R528). -/

namespace Sys2Proof.Machine

/-- The error codes, by the spec's names. -/
inductive Err where
  | BAD_ACCESS
  | LOCKED_WRITE
  | TRIG_BUSY
  | CT_UNDER
  | SRST_REFUSED
  | STAGE_ILLEGAL
  | COMMIT_LATE
  | COMMIT_BUSY
  | COMMIT_ROLLBACK
  | REF_RANGE
  | REF_LOSS
  | PLL_UNLOCK
  | EMERG_LATE
  | TB_SET_REFUSED
  | TB_OFFSET_LARGE
  | PTP_LOSS
  | SNAP_LATE
  | ANCHOR_RANGE
  | SPECIAL_OPERAND
  | REDUCE_TOO_LONG
  | PROFILE_FORMAT
  | PROFILE_UNDECLARED
  | PROFILE_MIX
  | XB40_ANCHOR_MISMATCH
  | RESIDUE_MISMATCH
  | XB40_RANGE
  | BANK_CONFLICT
  | SPAD_RANGE
  | UNSET_READ
  | SPAD_UE
  | SPAD_POISON
  | WIN_FULL
  | WIN_BOUND
  | WIN_CLOSED
  | WIN_BUSY
  | WIN_LOCKED
  | RESOURCE_OVF
  | OPERAND_FORMAT
  | SPARSE_INDEX
  | ACCORD_CONFIG
  | ACCORD_SLOT_EMPTY
  | PARTITION_CROSS
  | TILE_RETIRED
  | CLEAR_REFUSED
  | WIN_OVERLAP
  | CMD_CLASS
  | CMD_FIELD
  | CMD_SIGRANGE
  | CMD_TILESET
  | DESC_READ
  | BOUND_RANGE
  | QUEUE_READ
  | QUEUE_PLACE
  | QUEUE_FULL
  | QUEUE_BUSY
  | SIG_FULL
  | SIG_OVF
  | SIG_BUSY
  | WAIT_LIMIT
  | DEADLINE_MISS
  | EVAL_NEST
  | EVAL_UPDATE
  | COMMIT_TARGET
  | COMMIT_FAILED
  | RESUME_REFUSED
  | QUEUE_TAIL
  | SILL_ROUTE
  | SILL_FETCH
  | GATHER_LIST
  | GATHER_COUNT
  | FETCH_SLOW
  | LIST_CAPPED
  | NO_HOME
  | HOME_MOVING
  | MEM_UE
  | MEM_POISON
  | MEM_UNMAPPED
  | FLASH_PRIVATE
  | REMOTE_DENIED
  | MEM_ALIGN
  | MEM_ROUTE
  | QUOTA_EXCEEDED
  | PLACE_STATE
  | PLACE_RANGE
  | PLACE_CTX
  | CTX_FULL
  | CTX_BUSY
  | APER_REFUSED
  | SLED_RELEASED
  | SLED_PULLED
  | SLED_WORN
  | SLED_REFUSED
  | REGION_SPARES_OUT
  | STACK_SPARE_REFUSED
  | STACK_FAILED
  | STEP_CFG
  | STEP_BUSY
  | STEP_MISMATCH
  | STEP_EXHAUSTED
  | STEP_JUMP
  | VERDICT_SLOW
  | GROUP_FULL
  | GROUP_ENTRY
  | GROUP_DESC
  | GROUP_BUSY
  | COLL_FORMAT
  | XCHG_TABLE
  | GEN_MISMATCH
  | COLL_SHAPE
  | COLL_ABORTED
  | TOKEN_LEDGER
  | JOIN_REFUSED
  | NODE_UNREACHABLE
  | ROUTE_LOOP
  | LINK_DOWN
  | LINK_DEGRADED
  | CREDIT_LEDGER
  | OPTIC_REFUSED
  | FAB_GATEWAY
  | BCAST_REJECTED
  | HALL_MISMATCH
  | SEAL_STORED
  | SEAL_CARRIED
  | NOSE_MISMATCH
  | RETRACTED
  | REPLAY_FAILED
  | VERDICT_LATE
  | VDEST_FULL
  | NOSE_BUSY
  | KAT_REFUSED
  | KAT_FAIL
  | REPLAY_READY
  | CASS_FAULT
  | CASS_REFUSED
  | SUPPLY_CAP
  | FORCED_PARK
  | ENV_RANGE
  | PWR_CAP
  | PHASE_SPARED
  | DOMAIN_FAULT
  | VDROOP
  | DOMAIN_MARGIN
  | CRACK_SUSPECT
  | SENSOR_EXCLUDED
  | THERM_WARN
  | THERM_SHED
  | THERM_TRIP
  | FLOW_LOW
  | CHARGE_RESIDUAL
  | DD_RAIL_FAIL
  | SHED_REFUSED
  | PARK_REFUSED
  | DD_REQUESTED
  | FUSE_CRC
  | NOR_SFDP
  | IMAGE_FALLBACK
  | IMAGE_AUTH
  | FW_START_TIMEOUT
  | RAIL_UP_FAIL
  | COMPANION_MISSING
  | RUN_REFUSED
  | HOST_LOST
  | HOST_PARKED
  | HOLD_AUTO_ROLLBACK
  | WDOG_EXPIRED
  | SHIFT_REFUSED
  | SHIFT_ABORTED
  | SPARE_RECORD_BAD
  | MOVE_LOST
  | MGMT_PATH
  | TAKEOVER
  | TAKEOVER_REFUSED
  | STANDBY_LOST
  | CARD_REFUSED
  | ICORD_DENIED
  | TAG_WRITE_FAIL
  | TAG_AREA
  | LEDGER_OPEN
  | LEDGER_RECON
  | PORT_DOWN
  | HOST_LINK
  | HOST_UR
  | HOST_POISON
  | VF_DENIED
  | CLAIM_REFUSED
  deriving DecidableEq, Repr

/-- The 16-bit code (R54). -/
def Err.code : Err → Nat
  | .BAD_ACCESS => 0x0010
  | .LOCKED_WRITE => 0x0011
  | .TRIG_BUSY => 0x0012
  | .CT_UNDER => 0x0013
  | .SRST_REFUSED => 0x0014
  | .STAGE_ILLEGAL => 0x0018
  | .COMMIT_LATE => 0x0019
  | .COMMIT_BUSY => 0x001A
  | .COMMIT_ROLLBACK => 0x001B
  | .REF_RANGE => 0x0101
  | .REF_LOSS => 0x0102
  | .PLL_UNLOCK => 0x0103
  | .EMERG_LATE => 0x0104
  | .TB_SET_REFUSED => 0x0111
  | .TB_OFFSET_LARGE => 0x0112
  | .PTP_LOSS => 0x0113
  | .SNAP_LATE => 0x0114
  | .ANCHOR_RANGE => 0x0201
  | .SPECIAL_OPERAND => 0x0202
  | .REDUCE_TOO_LONG => 0x0203
  | .PROFILE_FORMAT => 0x0204
  | .PROFILE_UNDECLARED => 0x0205
  | .PROFILE_MIX => 0x0206
  | .XB40_ANCHOR_MISMATCH => 0x0207
  | .RESIDUE_MISMATCH => 0x0208
  | .XB40_RANGE => 0x0209
  | .BANK_CONFLICT => 0x0301
  | .SPAD_RANGE => 0x0302
  | .UNSET_READ => 0x0303
  | .SPAD_UE => 0x0304
  | .SPAD_POISON => 0x0305
  | .WIN_FULL => 0x0306
  | .WIN_BOUND => 0x0307
  | .WIN_CLOSED => 0x0308
  | .WIN_BUSY => 0x0309
  | .WIN_LOCKED => 0x030A
  | .RESOURCE_OVF => 0x030B
  | .OPERAND_FORMAT => 0x030C
  | .SPARSE_INDEX => 0x030D
  | .ACCORD_CONFIG => 0x030E
  | .ACCORD_SLOT_EMPTY => 0x030F
  | .PARTITION_CROSS => 0x0310
  | .TILE_RETIRED => 0x0311
  | .CLEAR_REFUSED => 0x0312
  | .WIN_OVERLAP => 0x0313
  | .CMD_CLASS => 0x0401
  | .CMD_FIELD => 0x0402
  | .CMD_SIGRANGE => 0x0403
  | .CMD_TILESET => 0x0404
  | .DESC_READ => 0x0405
  | .BOUND_RANGE => 0x0406
  | .QUEUE_READ => 0x0407
  | .QUEUE_PLACE => 0x0408
  | .QUEUE_FULL => 0x0409
  | .QUEUE_BUSY => 0x040A
  | .SIG_FULL => 0x040B
  | .SIG_OVF => 0x040C
  | .SIG_BUSY => 0x040D
  | .WAIT_LIMIT => 0x040E
  | .DEADLINE_MISS => 0x040F
  | .EVAL_NEST => 0x0410
  | .EVAL_UPDATE => 0x0411
  | .COMMIT_TARGET => 0x0412
  | .COMMIT_FAILED => 0x0413
  | .RESUME_REFUSED => 0x0414
  | .QUEUE_TAIL => 0x0415
  | .SILL_ROUTE => 0x0501
  | .SILL_FETCH => 0x0502
  | .GATHER_LIST => 0x0503
  | .GATHER_COUNT => 0x0504
  | .FETCH_SLOW => 0x0505
  | .LIST_CAPPED => 0x0601
  | .NO_HOME => 0x0701
  | .HOME_MOVING => 0x0702
  | .MEM_UE => 0x0703
  | .MEM_POISON => 0x0704
  | .MEM_UNMAPPED => 0x0705
  | .FLASH_PRIVATE => 0x0706
  | .REMOTE_DENIED => 0x0707
  | .MEM_ALIGN => 0x0708
  | .MEM_ROUTE => 0x0709
  | .QUOTA_EXCEEDED => 0x070A
  | .PLACE_STATE => 0x070B
  | .PLACE_RANGE => 0x070C
  | .PLACE_CTX => 0x070D
  | .CTX_FULL => 0x070E
  | .CTX_BUSY => 0x070F
  | .APER_REFUSED => 0x0710
  | .SLED_RELEASED => 0x0711
  | .SLED_PULLED => 0x0712
  | .SLED_WORN => 0x0713
  | .SLED_REFUSED => 0x0714
  | .REGION_SPARES_OUT => 0x0715
  | .STACK_SPARE_REFUSED => 0x0716
  | .STACK_FAILED => 0x0717
  | .STEP_CFG => 0x0801
  | .STEP_BUSY => 0x0802
  | .STEP_MISMATCH => 0x0803
  | .STEP_EXHAUSTED => 0x0804
  | .STEP_JUMP => 0x0805
  | .VERDICT_SLOW => 0x0806
  | .GROUP_FULL => 0x0901
  | .GROUP_ENTRY => 0x0902
  | .GROUP_DESC => 0x0903
  | .GROUP_BUSY => 0x0904
  | .COLL_FORMAT => 0x0905
  | .XCHG_TABLE => 0x0906
  | .GEN_MISMATCH => 0x0907
  | .COLL_SHAPE => 0x0908
  | .COLL_ABORTED => 0x0909
  | .TOKEN_LEDGER => 0x090A
  | .JOIN_REFUSED => 0x0A01
  | .NODE_UNREACHABLE => 0x0A02
  | .ROUTE_LOOP => 0x0A03
  | .LINK_DOWN => 0x0A04
  | .LINK_DEGRADED => 0x0A05
  | .CREDIT_LEDGER => 0x0A06
  | .OPTIC_REFUSED => 0x0A07
  | .FAB_GATEWAY => 0x0A08
  | .BCAST_REJECTED => 0x0A09
  | .HALL_MISMATCH => 0x0A0A
  | .SEAL_STORED => 0x0B01
  | .SEAL_CARRIED => 0x0B02
  | .NOSE_MISMATCH => 0x0B03
  | .RETRACTED => 0x0B04
  | .REPLAY_FAILED => 0x0B05
  | .VERDICT_LATE => 0x0B06
  | .VDEST_FULL => 0x0B07
  | .NOSE_BUSY => 0x0B08
  | .KAT_REFUSED => 0x0B09
  | .KAT_FAIL => 0x0B0A
  | .REPLAY_READY => 0x0B0B
  | .CASS_FAULT => 0x0C01
  | .CASS_REFUSED => 0x0C02
  | .SUPPLY_CAP => 0x0C03
  | .FORCED_PARK => 0x0C04
  | .ENV_RANGE => 0x0C05
  | .PWR_CAP => 0x0C06
  | .PHASE_SPARED => 0x0C07
  | .DOMAIN_FAULT => 0x0C08
  | .VDROOP => 0x0C09
  | .DOMAIN_MARGIN => 0x0C0A
  | .CRACK_SUSPECT => 0x0C0B
  | .SENSOR_EXCLUDED => 0x0C0C
  | .THERM_WARN => 0x0C0D
  | .THERM_SHED => 0x0C0E
  | .THERM_TRIP => 0x0C0F
  | .FLOW_LOW => 0x0C10
  | .CHARGE_RESIDUAL => 0x0C11
  | .DD_RAIL_FAIL => 0x0C12
  | .SHED_REFUSED => 0x0C13
  | .PARK_REFUSED => 0x0C14
  | .DD_REQUESTED => 0x0C15
  | .FUSE_CRC => 0x0D01
  | .NOR_SFDP => 0x0D02
  | .IMAGE_FALLBACK => 0x0D03
  | .IMAGE_AUTH => 0x0D04
  | .FW_START_TIMEOUT => 0x0D05
  | .RAIL_UP_FAIL => 0x0D06
  | .COMPANION_MISSING => 0x0D07
  | .RUN_REFUSED => 0x0D08
  | .HOST_LOST => 0x0D09
  | .HOST_PARKED => 0x0D0A
  | .HOLD_AUTO_ROLLBACK => 0x0D0B
  | .WDOG_EXPIRED => 0x0D0C
  | .SHIFT_REFUSED => 0x0D0D
  | .SHIFT_ABORTED => 0x0D0E
  | .SPARE_RECORD_BAD => 0x0D0F
  | .MOVE_LOST => 0x0D10
  | .MGMT_PATH => 0x0E01
  | .TAKEOVER => 0x0E02
  | .TAKEOVER_REFUSED => 0x0E03
  | .STANDBY_LOST => 0x0E04
  | .CARD_REFUSED => 0x0E05
  | .ICORD_DENIED => 0x0E06
  | .TAG_WRITE_FAIL => 0x0E07
  | .TAG_AREA => 0x0E08
  | .LEDGER_OPEN => 0x0E09
  | .LEDGER_RECON => 0x0E0A
  | .PORT_DOWN => 0x0E11
  | .HOST_LINK => 0x0E12
  | .HOST_UR => 0x0E13
  | .HOST_POISON => 0x0E14
  | .VF_DENIED => 0x0E15
  | .CLAIM_REFUSED => 0x0E16

/-- The class of a code: 0 corrected, 1 contained, 2 suspect, 3 unrecovered, 4 fatal (R370, R528). -/
def Err.cls : Err → Nat
  | .PHASE_SPARED => 0
  | .XB40_ANCHOR_MISMATCH | .RESIDUE_MISMATCH | .XB40_RANGE | .SPAD_UE | .SPAD_POISON | .MEM_UE | .MEM_POISON | .SLED_PULLED | .TOKEN_LEDGER | .SEAL_STORED | .SEAL_CARRIED | .NOSE_MISMATCH | .RETRACTED | .VDROOP | .HOST_POISON => 2
  | .SLED_WORN | .REGION_SPARES_OUT | .STACK_FAILED | .REPLAY_FAILED | .FORCED_PARK | .DOMAIN_FAULT | .COMPANION_MISSING | .HOST_PARKED | .MOVE_LOST => 3
  | .PLL_UNLOCK | .THERM_TRIP | .DD_RAIL_FAIL | .DD_REQUESTED | .FUSE_CRC | .NOR_SFDP | .IMAGE_AUTH | .RAIL_UP_FAIL | .WDOG_EXPIRED => 4
  | _ => 1

/-- The index of a code's event counter in LEDG (R471). -/
def Err.index (e : Err) : Nat := e.code / 256 * 32 + e.code % 32

/-- Codes by number, part 1. -/
def Err.list1 : List Err :=
  [.BAD_ACCESS, .LOCKED_WRITE, .TRIG_BUSY, .CT_UNDER, .SRST_REFUSED, .STAGE_ILLEGAL, .COMMIT_LATE, .COMMIT_BUSY,
   .COMMIT_ROLLBACK, .REF_RANGE, .REF_LOSS, .PLL_UNLOCK, .EMERG_LATE, .TB_SET_REFUSED, .TB_OFFSET_LARGE,
   .PTP_LOSS, .SNAP_LATE, .ANCHOR_RANGE, .SPECIAL_OPERAND, .REDUCE_TOO_LONG, .PROFILE_FORMAT, .PROFILE_UNDECLARED,
   .PROFILE_MIX, .XB40_ANCHOR_MISMATCH, .RESIDUE_MISMATCH, .XB40_RANGE, .BANK_CONFLICT, .SPAD_RANGE, .UNSET_READ,
   .SPAD_UE, .SPAD_POISON, .WIN_FULL, .WIN_BOUND, .WIN_CLOSED, .WIN_BUSY, .WIN_LOCKED, .RESOURCE_OVF,
   .OPERAND_FORMAT, .SPARSE_INDEX, .ACCORD_CONFIG]

/-- Codes by number, part 2. -/
def Err.list2 : List Err :=
  [.ACCORD_SLOT_EMPTY, .PARTITION_CROSS, .TILE_RETIRED, .CLEAR_REFUSED, .WIN_OVERLAP, .CMD_CLASS, .CMD_FIELD,
   .CMD_SIGRANGE, .CMD_TILESET, .DESC_READ, .BOUND_RANGE, .QUEUE_READ, .QUEUE_PLACE, .QUEUE_FULL, .QUEUE_BUSY,
   .SIG_FULL, .SIG_OVF, .SIG_BUSY, .WAIT_LIMIT, .DEADLINE_MISS, .EVAL_NEST, .EVAL_UPDATE, .COMMIT_TARGET,
   .COMMIT_FAILED, .RESUME_REFUSED, .QUEUE_TAIL, .SILL_ROUTE, .SILL_FETCH, .GATHER_LIST, .GATHER_COUNT,
   .FETCH_SLOW, .LIST_CAPPED, .NO_HOME, .HOME_MOVING, .MEM_UE, .MEM_POISON, .MEM_UNMAPPED, .FLASH_PRIVATE,
   .REMOTE_DENIED, .MEM_ALIGN]

/-- Codes by number, part 3. -/
def Err.list3 : List Err :=
  [.MEM_ROUTE, .QUOTA_EXCEEDED, .PLACE_STATE, .PLACE_RANGE, .PLACE_CTX, .CTX_FULL, .CTX_BUSY, .APER_REFUSED,
   .SLED_RELEASED, .SLED_PULLED, .SLED_WORN, .SLED_REFUSED, .REGION_SPARES_OUT, .STACK_SPARE_REFUSED,
   .STACK_FAILED, .STEP_CFG, .STEP_BUSY, .STEP_MISMATCH, .STEP_EXHAUSTED, .STEP_JUMP, .VERDICT_SLOW, .GROUP_FULL,
   .GROUP_ENTRY, .GROUP_DESC, .GROUP_BUSY, .COLL_FORMAT, .XCHG_TABLE, .GEN_MISMATCH, .COLL_SHAPE, .COLL_ABORTED,
   .TOKEN_LEDGER, .JOIN_REFUSED, .NODE_UNREACHABLE, .ROUTE_LOOP, .LINK_DOWN, .LINK_DEGRADED, .CREDIT_LEDGER,
   .OPTIC_REFUSED, .FAB_GATEWAY, .BCAST_REJECTED]

/-- Codes by number, part 4. -/
def Err.list4 : List Err :=
  [.HALL_MISMATCH, .SEAL_STORED, .SEAL_CARRIED, .NOSE_MISMATCH, .RETRACTED, .REPLAY_FAILED, .VERDICT_LATE,
   .VDEST_FULL, .NOSE_BUSY, .KAT_REFUSED, .KAT_FAIL, .REPLAY_READY, .CASS_FAULT, .CASS_REFUSED, .SUPPLY_CAP,
   .FORCED_PARK, .ENV_RANGE, .PWR_CAP, .PHASE_SPARED, .DOMAIN_FAULT, .VDROOP, .DOMAIN_MARGIN, .CRACK_SUSPECT,
   .SENSOR_EXCLUDED, .THERM_WARN, .THERM_SHED, .THERM_TRIP, .FLOW_LOW, .CHARGE_RESIDUAL, .DD_RAIL_FAIL,
   .SHED_REFUSED, .PARK_REFUSED, .DD_REQUESTED, .FUSE_CRC, .NOR_SFDP, .IMAGE_FALLBACK, .IMAGE_AUTH,
   .FW_START_TIMEOUT, .RAIL_UP_FAIL, .COMPANION_MISSING]

/-- Codes by number, part 5. -/
def Err.list5 : List Err :=
  [.RUN_REFUSED, .HOST_LOST, .HOST_PARKED, .HOLD_AUTO_ROLLBACK, .WDOG_EXPIRED, .SHIFT_REFUSED, .SHIFT_ABORTED,
   .SPARE_RECORD_BAD, .MOVE_LOST, .MGMT_PATH, .TAKEOVER, .TAKEOVER_REFUSED, .STANDBY_LOST, .CARD_REFUSED,
   .ICORD_DENIED, .TAG_WRITE_FAIL, .TAG_AREA, .LEDGER_OPEN, .LEDGER_RECON, .PORT_DOWN, .HOST_LINK, .HOST_UR,
   .HOST_POISON, .VF_DENIED, .CLAIM_REFUSED]

/-- The error with a code, if it is one of this manual (R54). -/
def Err.ofCode (c : Nat) : Option Err :=
  (Err.list1 ++ Err.list2 ++ Err.list3 ++ Err.list4 ++ Err.list5).find? fun e => decide (e.code = c)

end Sys2Proof.Machine
end

