-- ==== Sys2Proof/Machine/Fields.lean ====
section
/-! DEFINITION. A register field as data: where it lies and what it reads at reset (R38, R41 to R49), and the rows of
the register tables. -/

namespace Sys2Proof.Machine

/-- A field of a BAR0 register: the byte address of its register, its lowest bit, its width, its reset value. -/
structure Fld where
  addr : Nat
  lo   : Nat
  w    : Nat
  rst  : Nat
  deriving DecidableEq, Repr

/-- The key of a field in the register file: its register's address and its lowest bit (below 64). -/
def Fld.key (f : Fld) : Nat := f.addr * 64 + f.lo

/-- The overflow bit of the counter whose COUNT part is `f` (R44). -/
def Fld.ovf (f : Fld) : Fld := ⟨f.addr, 63, 1, 0⟩

/-- The seven field types of R10 (R41 to R49). -/
inductive FType where
  | RW | RO | HS | CT | ST | TG | LK
  deriving DecidableEq, Repr

/-- One field of a row of a register table. -/
structure FRow where
  lo  : Nat
  w   : Nat
  ty  : FType
  rst : Nat
  deriving DecidableEq, Repr

/-- One register of a page, repeated `n1` times at stride `s1` and within that `n2` times at stride `s2`;
`wide` marks a 64-bit register. -/
structure RegRow where
  off    : Nat
  n1     : Nat
  s1     : Nat
  n2     : Nat
  s2     : Nat
  wide   : Bool
  fields : List FRow
  deriving DecidableEq, Repr

/-- Whether the row has a register starting at page offset `o`. -/
def RegRow.startsAt (r : RegRow) (o : Nat) : Bool :=
  if o < r.off then false else
  let d := o - r.off
  let i := if r.s1 = 0 then 0 else d / r.s1
  let e := d - i * r.s1
  let j := if r.s2 = 0 then 0 else e / r.s2
  decide (i < r.n1 ∧ j < r.n2 ∧ e = j * r.s2)

/-- The register of `t` that starts at page offset `o`. -/
def RegRow.lookup (t : List RegRow) (o : Nat) : Option RegRow :=
  t.find? fun r => r.startsAt o

/-- The field of a row at the register's address `a`. -/
def FRow.at (f : FRow) (a : Nat) : Fld := ⟨a, f.lo, f.w, f.rst⟩

end Sys2Proof.Machine
end

