-- ==== Sys2Proof/Machine/Regs.lean ====
section
/-! DEFINITION. Every register field of the register tables of spec/02 to spec/18, under the spec's names:
`R.PAGE.REGISTER.FIELD` (`R.PAGE.REGISTER` where the register has one field, and the COUNT part of a CT counter).
An argument is the instance of the page, then the index of a repeated register. A reset value the tables do not
state as a number is 0 here and is set by `State.reset` (log entry 2), and PG is the header of every page (its
argument is the page's base). -/

namespace Sys2Proof.Machine

/-! The base address of each page (R39). -/

def pgMOD : Nat := 0x0
def pgCLK : Nat := 0x1000
def pgTB : Nat := 0x2000
def pgPWR : Nat := 0x3000
def pgFUSE : Nat := 0x5000
def pgCFG : Nat := 0x6000
def pgMGMT : Nat := 0x7000
def pgHOST : Nat := 0x8000
def pgSIG : Nat := 0xA000
def pgNOSE : Nat := 0xB000
def pgLEDG : Nat := 0xC000
def pgQUOTA : Nat := 0xD000
def pgTAG : Nat := 0xE000
def pgSPARE : Nat := 0xF000
def pgSILL (e : Nat) : Nat := 0x10000 + 0x1000 * e
def pgSTACK (s : Nat) : Nat := 0x20000 + 0x1000 * s
def pgFLASH : Nat := 0x40000
def pgCOLL (g : Nat) : Nat := 0x50000 + 0x1000 * g
def pgLINK (k : Nat) : Nat := 0x60000 + 0x1000 * k
def pgPDOM (d : Nat) : Nat := 0x100000 + 0x1000 * d
def pgCQ (q : Nat) : Nat := 0x200000 + 0x1000 * q
def pgTILE (t : Nat) : Nat := 0x400000 + 0x1000 * t

/-- PG_CTRL.EN at reset, which the header table leaves to each block (log entry 3): 0 in CQ pages, which software enables
(R152), and in LINK pages, which firmware enables at step 6 of Enfleurage (R442); 1 in every other, as CLK and TB read
(R68). -/
def enReset (pg : Nat) : Nat :=
  if 0x200000 ≤ pg ∧ pg < 0x240000 then 0 else if 0x60000 ≤ pg ∧ pg < 0x90000 then 0 else 1


/-! PG (spec/02_register_conventions.md). -/

def R.PG.ID.TYPE (pg : Nat) : Fld := ⟨pg + 0x0, 16, 16, 0⟩
def R.PG.ID.INST (pg : Nat) : Fld := ⟨pg + 0x0, 0, 16, 0⟩
def R.PG.VER.MAJOR (pg : Nat) : Fld := ⟨pg + 0x4, 24, 8, 0⟩
def R.PG.VER.MINOR (pg : Nat) : Fld := ⟨pg + 0x4, 16, 8, 0⟩
def R.PG.VER.PROFILES (pg : Nat) : Fld := ⟨pg + 0x4, 0, 8, 0⟩
def R.PG.CTRL.EN (pg : Nat) : Fld := ⟨pg + 0x10, 0, 1, enReset pg⟩
def R.PG.CTRL.SRST (pg : Nat) : Fld := ⟨pg + 0x10, 1, 1, 0⟩
def R.PG.CTRL.SNAP_EN (pg : Nat) : Fld := ⟨pg + 0x10, 2, 1, 1⟩
def R.PG.CTRL.SHADOW_RD (pg : Nat) : Fld := ⟨pg + 0x10, 3, 1, 0⟩
def R.PG.STAT.IDLE (pg : Nat) : Fld := ⟨pg + 0x14, 0, 1, 1⟩
def R.PG.STAT.FITTED (pg : Nat) : Fld := ⟨pg + 0x14, 1, 1, 0⟩
def R.PG.STAT.ENABLED (pg : Nat) : Fld := ⟨pg + 0x14, 2, 1, 0⟩
def R.PG.STAT.STAGE_DIRTY (pg : Nat) : Fld := ⟨pg + 0x14, 3, 1, 0⟩
def R.PG.STAT.ACKED (pg : Nat) : Fld := ⟨pg + 0x14, 4, 1, 0⟩
def R.PG.STAT.NAKED (pg : Nat) : Fld := ⟨pg + 0x14, 5, 1, 0⟩
def R.PG.STAT.GLOBAL (pg : Nat) : Fld := ⟨pg + 0x14, 6, 1, 0⟩
def R.PG.STAT.PART (pg : Nat) : Fld := ⟨pg + 0x14, 8, 4, 15⟩
def R.PG.IRQ_RAW.ERR (pg : Nat) : Fld := ⟨pg + 0x18, 0, 1, 0⟩
def R.PG.IRQ_RAW.COMMIT (pg : Nat) : Fld := ⟨pg + 0x18, 1, 1, 0⟩
def R.PG.IRQ_RAW.BLOCK (pg : Nat) : Fld := ⟨pg + 0x18, 2, 30, 0⟩
def R.PG.ERR_FIRST.VALID (pg : Nat) : Fld := ⟨pg + 0x20, 31, 1, 0⟩
def R.PG.ERR_FIRST.MULTI (pg : Nat) : Fld := ⟨pg + 0x20, 30, 1, 0⟩
def R.PG.ERR_FIRST.SOURCE (pg : Nat) : Fld := ⟨pg + 0x20, 16, 8, 0⟩
def R.PG.ERR_FIRST.CODE (pg : Nat) : Fld := ⟨pg + 0x20, 0, 16, 0⟩
def R.PG.ERR_COUNT (pg : Nat) : Fld := ⟨pg + 0x24, 0, 32, 0⟩
def R.PG.STAGE_GEN (pg : Nat) : Fld := ⟨pg + 0x28, 0, 32, 0⟩
def R.PG.COMMIT_ACK (pg : Nat) : Fld := ⟨pg + 0x2C, 0, 32, 0⟩

/-! MOD (spec/02_register_conventions.md). -/

def R.MOD.VARIANT.STACKS : Fld := ⟨pgMOD + 0x80, 0, 6, 0⟩
def R.MOD.VARIANT.LINKS : Fld := ⟨pgMOD + 0x80, 8, 6, 0⟩
def R.MOD.VARIANT.FLASH_SLEDS : Fld := ⟨pgMOD + 0x80, 16, 3, 0⟩
def R.MOD.VARIANT.GRADE : Fld := ⟨pgMOD + 0x80, 24, 1, 0⟩
def R.MOD.STATE : Fld := ⟨pgMOD + 0x84, 0, 4, 1⟩
/-- Field of partition `p` in MOD.PART_STATE. -/
def R.MOD.PART_STATE (p : Nat) : Fld := ⟨pgMOD + 0x88, 4 * p, 4, 0⟩
def R.MOD.STATUS.CASSETTES : Fld := ⟨pgMOD + 0x8C, 0, 4, 0⟩
def R.MOD.STATUS.CASS_LOW : Fld := ⟨pgMOD + 0x8C, 4, 1, 1⟩
def R.MOD.STATUS.ROW_RETIRED : Fld := ⟨pgMOD + 0x8C, 5, 1, 0⟩
def R.MOD.STATUS.IODIE_FAILED : Fld := ⟨pgMOD + 0x8C, 6, 1, 0⟩
def R.MOD.STATUS.COMPANION_MISSING : Fld := ⟨pgMOD + 0x8C, 7, 1, 0⟩
def R.MOD.STATUS.LEAD_B : Fld := ⟨pgMOD + 0x8C, 8, 1, 0⟩
def R.MOD.STATUS.STANDBY_OK : Fld := ⟨pgMOD + 0x8C, 9, 1, 0⟩
def R.MOD.RETIRED_ROWS : Fld := ⟨pgMOD + 0x90, 0, 24, 0⟩
def R.MOD.IODIE_FAIL : Fld := ⟨pgMOD + 0x94, 0, 12, 0⟩
def R.MOD.ACCESS_ERR.VALID : Fld := ⟨pgMOD + 0x98, 31, 1, 0⟩
def R.MOD.ACCESS_ERR.PATH : Fld := ⟨pgMOD + 0x98, 28, 2, 0⟩
def R.MOD.ACCESS_ERR.OFFSET : Fld := ⟨pgMOD + 0x98, 0, 26, 0⟩
def R.MOD.COMMIT_CTRL.SCOPE : Fld := ⟨pgMOD + 0xA0, 0, 8, 0⟩
def R.MOD.COMMIT_CTRL.GLOBAL : Fld := ⟨pgMOD + 0xA0, 8, 1, 0⟩
def R.MOD.COMMIT_CTRL.OP : Fld := ⟨pgMOD + 0xA0, 12, 2, 0⟩
def R.MOD.COMMIT_CTRL.GO : Fld := ⟨pgMOD + 0xA0, 15, 1, 0⟩
def R.MOD.COMMIT_EPOCH : Fld := ⟨pgMOD + 0xA8, 0, 64, 0⟩
def R.MOD.COMMIT_DEADLINE : Fld := ⟨pgMOD + 0xB0, 0, 32, 156250⟩
def R.MOD.COMMIT_STAT.PENDING : Fld := ⟨pgMOD + 0xB4, 0, 1, 0⟩
def R.MOD.COMMIT_STAT.HELD : Fld := ⟨pgMOD + 0xB4, 1, 1, 0⟩
def R.MOD.COMMIT_STAT.LAST_RESULT : Fld := ⟨pgMOD + 0xB4, 2, 2, 0⟩
def R.MOD.COMMIT_STAT.MISSING : Fld := ⟨pgMOD + 0xB4, 4, 12, 0⟩
def R.MOD.COMMIT_GEN : Fld := ⟨pgMOD + 0xB8, 0, 32, 0⟩
def R.MOD.COMMIT_MISSING : Fld := ⟨pgMOD + 0xBC, 0, 32, 0⟩
def R.MOD.PART_DEF.FIRST_ROW (p : Nat) : Fld := ⟨pgMOD + 0xC0 + 0x4 * p, 0, 5, 0⟩
def R.MOD.PART_DEF.ROWS (p : Nat) : Fld := ⟨pgMOD + 0xC0 + 0x4 * p, 8, 5, 0⟩
def R.MOD.PART_DEF.VALID (p : Nat) : Fld := ⟨pgMOD + 0xC0 + 0x4 * p, 15, 1, 0⟩
def R.MOD.SIG_RANGE.BASE (p : Nat) : Fld := ⟨pgMOD + 0x180 + 0x4 * p, 0, 12, 0⟩
def R.MOD.SIG_RANGE.COUNT (p : Nat) : Fld := ⟨pgMOD + 0x180 + 0x4 * p, 16, 13, 0⟩
def R.MOD.GROUP_RANGE.BASE (p : Nat) : Fld := ⟨pgMOD + 0x1A0 + 0x4 * p, 0, 8, 0⟩
def R.MOD.GROUP_RANGE.COUNT (p : Nat) : Fld := ⟨pgMOD + 0x1A0 + 0x4 * p, 16, 9, 0⟩

/-! CLK (spec/03_clocks_timebase_snapshot.md). -/

def R.CLK.CAPS.REF_MHZ : Fld := ⟨pgCLK + 0x8, 0, 8, 100⟩
def R.CLK.CAPS.ROOT_MHZ : Fld := ⟨pgCLK + 0x8, 8, 16, 5000⟩
def R.CLK.CAPS.FRAC_MIN : Fld := ⟨pgCLK + 0x8, 24, 5, 2⟩
def R.CLK.STATUS.REF_OK : Fld := ⟨pgCLK + 0x80, 0, 1, 0⟩
def R.CLK.STATUS.LOCK : Fld := ⟨pgCLK + 0x80, 1, 1, 0⟩
def R.CLK.STATUS.HOLDOVER : Fld := ⟨pgCLK + 0x80, 2, 1, 0⟩
def R.CLK.STATUS.REF_PPM : Fld := ⟨pgCLK + 0x80, 16, 16, 0⟩
def R.CLK.STEER : Fld := ⟨pgCLK + 0x84, 0, 32, 0⟩
def R.CLK.FRAC_P (p : Nat) : Fld := ⟨pgCLK + 0xA0 + 0x4 * p, 0, 5, 16⟩
/-- Field of partition `p` in CLK.FRAC_EFF. -/
def R.CLK.FRAC_EFF (p : Nat) : Fld := ⟨pgCLK + 0xC0 + 4 * (p / 4), 8 * (p % 4), 5, 0⟩
def R.CLK.EMERG_CTRL.FRAC : Fld := ⟨pgCLK + 0xD0, 0, 5, 16⟩
def R.CLK.EMERG_CTRL.OP : Fld := ⟨pgCLK + 0xD0, 8, 2, 0⟩
def R.CLK.EMERG_CTRL.GO : Fld := ⟨pgCLK + 0xD0, 15, 1, 0⟩
def R.CLK.EMERG_EPOCH : Fld := ⟨pgCLK + 0xD8, 0, 64, 0⟩
def R.CLK.EMERG_STAT.PENDING : Fld := ⟨pgCLK + 0xE0, 0, 1, 0⟩
def R.CLK.EMERG_STAT.ACTIVE : Fld := ⟨pgCLK + 0xE0, 1, 1, 0⟩
def R.CLK.EMERG_STAT.LATE : Fld := ⟨pgCLK + 0xE0, 2, 1, 0⟩
def R.CLK.EMERG_STAT.SOURCE : Fld := ⟨pgCLK + 0xE0, 4, 2, 0⟩
def R.CLK.EMERG_STAT.REPLACED : Fld := ⟨pgCLK + 0xE0, 16, 16, 0⟩
def R.CLK.FRAC_CHANGES : Fld := ⟨pgCLK + 0xE8, 0, 63, 0⟩
def R.CLK.EMERG_COUNT : Fld := ⟨pgCLK + 0xF0, 0, 63, 0⟩

/-! TB (spec/03_clocks_timebase_snapshot.md). -/

def R.TB.CAPS.TICK_PS : Fld := ⟨pgTB + 0x8, 0, 16, 6400⟩
def R.TB.CAPS.PTP_PORTS : Fld := ⟨pgTB + 0x8, 16, 2, 2⟩
def R.TB.TIME : Fld := ⟨pgTB + 0x80, 0, 64, 0⟩
def R.TB.STAT.PTP_LOCK : Fld := ⟨pgTB + 0x88, 0, 1, 0⟩
def R.TB.STAT.SYNC : Fld := ⟨pgTB + 0x88, 1, 1, 0⟩
def R.TB.STAT.SET_DONE : Fld := ⟨pgTB + 0x88, 2, 1, 0⟩
def R.TB.STAT.PORT_B : Fld := ⟨pgTB + 0x88, 3, 1, 0⟩
def R.TB.PTP_CFG.DOMAIN : Fld := ⟨pgTB + 0x8C, 0, 7, 0⟩
def R.TB.PTP_CFG.UDP : Fld := ⟨pgTB + 0x8C, 8, 1, 0⟩
def R.TB.PTP_CFG.PORT_EN : Fld := ⟨pgTB + 0x8C, 10, 2, 3⟩
def R.TB.PTP_CFG.SYNC_TOL : Fld := ⟨pgTB + 0x8C, 16, 8, 16⟩
def R.TB.OFFSET : Fld := ⟨pgTB + 0x90, 0, 32, 0⟩
def R.TB.PATH_DELAY : Fld := ⟨pgTB + 0x94, 0, 32, 0⟩
def R.TB.GM_IDENTITY : Fld := ⟨pgTB + 0x98, 0, 64, 0⟩
def R.TB.SET_VALUE : Fld := ⟨pgTB + 0xA0, 0, 64, 0⟩
def R.TB.SET_CTRL : Fld := ⟨pgTB + 0xA8, 0, 1, 0⟩
def R.TB.SNAP_CTRL.SW : Fld := ⟨pgTB + 0xC0, 0, 1, 0⟩
def R.TB.SNAP_CTRL.ARM : Fld := ⟨pgTB + 0xC0, 1, 1, 0⟩
def R.TB.SNAP_CTRL.MODE : Fld := ⟨pgTB + 0xC0, 4, 1, 0⟩
def R.TB.SNAP_CTRL.EN_ERR : Fld := ⟨pgTB + 0xC0, 8, 1, 0⟩
def R.TB.SNAP_CTRL.EN_CMP : Fld := ⟨pgTB + 0xC0, 9, 1, 0⟩
def R.TB.SNAP_CTRL.EN_PIN : Fld := ⟨pgTB + 0xC0, 10, 1, 0⟩
def R.TB.SNAP_CTRL.EN_FABRIC : Fld := ⟨pgTB + 0xC0, 11, 1, 0⟩
def R.TB.SNAP_STAT.ARMED : Fld := ⟨pgTB + 0xC4, 0, 1, 1⟩
def R.TB.SNAP_STAT.LATE : Fld := ⟨pgTB + 0xC4, 1, 1, 0⟩
def R.TB.SNAP_STAT.CMP_ARMED : Fld := ⟨pgTB + 0xC4, 2, 1, 0⟩
def R.TB.SNAP_STAT.FAB_ARMED : Fld := ⟨pgTB + 0xC4, 3, 1, 0⟩
def R.TB.SNAP_STAT.SOURCES : Fld := ⟨pgTB + 0xC4, 8, 5, 0⟩
def R.TB.SNAP_CMP : Fld := ⟨pgTB + 0xC8, 0, 64, 0⟩
def R.TB.SNAP_FABRIC : Fld := ⟨pgTB + 0xD0, 0, 64, 0⟩
def R.TB.SNAP_SEQ : Fld := ⟨pgTB + 0xD8, 0, 64, 0⟩
def R.TB.SNAP_TICK : Fld := ⟨pgTB + 0xE0, 0, 64, 0⟩
def R.TB.SNAP_MISSED : Fld := ⟨pgTB + 0xE8, 0, 63, 0⟩

/-! TILE (spec/05_tile.md). -/

def R.TILE.CAPS.SPAD_KIB (t : Nat) : Fld := ⟨pgTILE t + 0x8, 0, 20, 40960⟩
def R.TILE.CAPS.MX_DIM (t : Nat) : Fld := ⟨pgTILE t + 0x8, 20, 8, 96⟩
def R.TILE.CAPS2.ACCORD_CELLS (t : Nat) : Fld := ⟨pgTILE t + 0xC, 0, 10, 512⟩
def R.TILE.CAPS2.VLANES (t : Nat) : Fld := ⟨pgTILE t + 0xC, 10, 10, 256⟩
def R.TILE.CAPS2.WINDOWS (t : Nat) : Fld := ⟨pgTILE t + 0xC, 20, 5, 16⟩
def R.TILE.CAPS2.RECIPE_SLOTS (t : Nat) : Fld := ⟨pgTILE t + 0xC, 25, 3, 4⟩
def R.TILE.CAPS2.EXPBUF (t : Nat) : Fld := ⟨pgTILE t + 0xC, 28, 4, 8⟩
def R.TILE.LOC.PHYS_COL (t : Nat) : Fld := ⟨pgTILE t + 0x80, 0, 6, 0⟩
def R.TILE.LOC.ROW (t : Nat) : Fld := ⟨pgTILE t + 0x80, 8, 5, t / 40⟩
def R.TILE.LOC.COL (t : Nat) : Fld := ⟨pgTILE t + 0x80, 16, 6, t % 40⟩
def R.TILE.LOC.DOMAIN (t : Nat) : Fld := ⟨pgTILE t + 0x80, 24, 7, 0⟩
def R.TILE.LOC.RETIRED (t : Nat) : Fld := ⟨pgTILE t + 0x80, 31, 1, 0⟩
def R.TILE.SPAD_CTRL.STRICT (t : Nat) : Fld := ⟨pgTILE t + 0x84, 0, 1, 0⟩
def R.TILE.SPAD_CTRL.YIELD_WAIT (t : Nat) : Fld := ⟨pgTILE t + 0x84, 8, 8, 64⟩
def R.TILE.SPAD_CLEAR (t : Nat) : Fld := ⟨pgTILE t + 0x88, 0, 20, 0⟩
def R.TILE.SPAD_CLEAR_CTRL.LINES (t : Nat) : Fld := ⟨pgTILE t + 0x8C, 0, 20, 0⟩
def R.TILE.SPAD_CLEAR_CTRL.GO (t : Nat) : Fld := ⟨pgTILE t + 0x8C, 31, 1, 0⟩
def R.TILE.SPAD_STAT.UNSET (t : Nat) : Fld := ⟨pgTILE t + 0x90, 0, 1, 0⟩
def R.TILE.SPAD_STAT.POISON (t : Nat) : Fld := ⟨pgTILE t + 0x90, 1, 1, 0⟩
def R.TILE.SPAD_STAT.CLEARING (t : Nat) : Fld := ⟨pgTILE t + 0x90, 2, 1, 0⟩
def R.TILE.UNSET_ADDR (t : Nat) : Fld := ⟨pgTILE t + 0x94, 0, 24, 0⟩
def R.TILE.POISON_ADDR (t : Nat) : Fld := ⟨pgTILE t + 0x98, 0, 24, 0⟩
def R.TILE.WIN_ALLOC.INDEX (t : Nat) : Fld := ⟨pgTILE t + 0x9C, 0, 4, 0⟩
def R.TILE.WIN_ALLOC.FAIL (t : Nat) : Fld := ⟨pgTILE t + 0x9C, 4, 1, 0⟩
def R.TILE.WIN_ALLOC.GO (t : Nat) : Fld := ⟨pgTILE t + 0x9C, 31, 1, 0⟩
def R.TILE.MX_STAT.BUSY (t : Nat) : Fld := ⟨pgTILE t + 0xA0, 0, 1, 0⟩
def R.TILE.MX_STAT.PHASE (t : Nat) : Fld := ⟨pgTILE t + 0xA0, 1, 3, 0⟩
def R.TILE.MX_STAT.PROFILE (t : Nat) : Fld := ⟨pgTILE t + 0xA0, 4, 2, 0⟩
def R.TILE.MX_STAT.PASS (t : Nat) : Fld := ⟨pgTILE t + 0xA0, 6, 2, 0⟩
def R.TILE.MX_STAT.EXPBUF_USED (t : Nat) : Fld := ⟨pgTILE t + 0xA0, 16, 16, 0⟩
def R.TILE.SPAD_WIN_BASE (t : Nat) (n : Nat) : Fld := ⟨pgTILE t + 0x100 + 0x10 * n, 0, 24, 0⟩
def R.TILE.SPAD_WIN_LIMIT (t : Nat) (n : Nat) : Fld := ⟨pgTILE t + 0x104 + 0x10 * n, 0, 24, 0⟩
def R.TILE.SPAD_WIN_CTRL.STATE (t : Nat) (n : Nat) : Fld := ⟨pgTILE t + 0x108 + 0x10 * n, 0, 2, 0⟩
def R.TILE.SPAD_WIN_CTRL.OPEN (t : Nat) (n : Nat) : Fld := ⟨pgTILE t + 0x108 + 0x10 * n, 2, 1, 0⟩
def R.TILE.SPAD_WIN_CTRL.CLOSE (t : Nat) (n : Nat) : Fld := ⟨pgTILE t + 0x108 + 0x10 * n, 3, 1, 0⟩
def R.TILE.SPAD_WIN_CTRL.FREE (t : Nat) (n : Nat) : Fld := ⟨pgTILE t + 0x108 + 0x10 * n, 4, 1, 0⟩
def R.TILE.SPAD_WIN_CTRL.MODE (t : Nat) (n : Nat) : Fld := ⟨pgTILE t + 0x108 + 0x10 * n, 5, 2, 0⟩
def R.TILE.SPAD_WIN_CTRL.SRC_KIND (t : Nat) (n : Nat) : Fld := ⟨pgTILE t + 0x108 + 0x10 * n, 8, 2, 0⟩
def R.TILE.SPAD_WIN_CTRL.SRC_ID (t : Nat) (n : Nat) : Fld := ⟨pgTILE t + 0x108 + 0x10 * n, 16, 10, 0⟩
def R.TILE.SPAD_WIN_SIG.COUNTER (t : Nat) (n : Nat) : Fld := ⟨pgTILE t + 0x10C + 0x10 * n, 0, 12, 0⟩
def R.TILE.SPAD_WIN_SIG.SIG_EN (t : Nat) (n : Nat) : Fld := ⟨pgTILE t + 0x10C + 0x10 * n, 15, 1, 0⟩
def R.TILE.SPAD_WIN_SIG.IN_USE (t : Nat) (n : Nat) : Fld := ⟨pgTILE t + 0x10C + 0x10 * n, 16, 16, 0⟩
def R.TILE.ACCORD_SLOT.CELLS (t : Nat) (i : Nat) : Fld := ⟨pgTILE t + 0x200 + 0x8 * i, 0, 10, 0⟩
def R.TILE.ACCORD_SLOT.LATENCY (t : Nat) (i : Nat) : Fld := ⟨pgTILE t + 0x200 + 0x8 * i, 10, 8, 0⟩
def R.TILE.ACCORD_SLOT.LANES (t : Nat) (i : Nat) : Fld := ⟨pgTILE t + 0x200 + 0x8 * i, 18, 7, 0⟩
def R.TILE.ACCORD_SLOT.PROFILE (t : Nat) (i : Nat) : Fld := ⟨pgTILE t + 0x200 + 0x8 * i, 25, 2, 0⟩
def R.TILE.ACCORD_SLOT.VALID (t : Nat) (i : Nat) : Fld := ⟨pgTILE t + 0x200 + 0x8 * i, 31, 1, 0⟩
def R.TILE.ACCORD_SLOT_ID (t : Nat) (i : Nat) : Fld := ⟨pgTILE t + 0x204 + 0x8 * i, 0, 32, 0⟩
def R.TILE.MX_BUSY (t : Nat) : Fld := ⟨pgTILE t + 0x300, 0, 63, 0⟩
def R.TILE.VEC_BUSY (t : Nat) : Fld := ⟨pgTILE t + 0x308, 0, 63, 0⟩
def R.TILE.ACCORD_ELEMS (t : Nat) : Fld := ⟨pgTILE t + 0x310, 0, 63, 0⟩
def R.TILE.SPAD_YIELDS (t : Nat) : Fld := ⟨pgTILE t + 0x318, 0, 63, 0⟩
def R.TILE.UNSET_READS (t : Nat) : Fld := ⟨pgTILE t + 0x320, 0, 63, 0⟩
def R.TILE.ECC_CORRECTED (t : Nat) : Fld := ⟨pgTILE t + 0x328, 0, 63, 0⟩
def R.TILE.WIN_REFUSED (t : Nat) : Fld := ⟨pgTILE t + 0x330, 0, 63, 0⟩
def R.TILE.ACCUM_ADDS (t : Nat) : Fld := ⟨pgTILE t + 0x338, 0, 63, 0⟩

/-! CQ (spec/06_command_streams.md). -/

def R.CQ.CAPS.LOG2_MAX (q : Nat) : Fld := ⟨pgCQ q + 0x8, 0, 5, 16⟩
def R.CQ.CAPS.BOUNDS (q : Nat) : Fld := ⟨pgCQ q + 0x8, 8, 4, 8⟩
def R.CQ.CAPS.XFER_MAX (q : Nat) : Fld := ⟨pgCQ q + 0x8, 16, 14, 8192⟩
def R.CQ.BASE (q : Nat) : Fld := ⟨pgCQ q + 0x80, 0, 64, 0⟩
def R.CQ.SIZE (q : Nat) : Fld := ⟨pgCQ q + 0x88, 0, 5, 6⟩
def R.CQ.CTRL.PAUSE (q : Nat) : Fld := ⟨pgCQ q + 0x8C, 0, 1, 0⟩
def R.CQ.CTRL.RT (q : Nat) : Fld := ⟨pgCQ q + 0x8C, 1, 1, 0⟩
def R.CQ.CTRL.MISS_ACT (q : Nat) : Fld := ⟨pgCQ q + 0x8C, 2, 1, 0⟩
def R.CQ.CTRL.RUNAHEAD (q : Nat) : Fld := ⟨pgCQ q + 0x8C, 8, 8, 64⟩
def R.CQ.CTRL.MAX_OUT (q : Nat) : Fld := ⟨pgCQ q + 0x8C, 16, 14, 512⟩
def R.CQ.HEAD (q : Nat) : Fld := ⟨pgCQ q + 0x90, 0, 32, 0⟩
def R.CQ.TAIL (q : Nat) : Fld := ⟨pgCQ q + 0x94, 0, 32, 0⟩
def R.CQ.DONE (q : Nat) : Fld := ⟨pgCQ q + 0x98, 0, 32, 0⟩
def R.CQ.STAT.STATE (q : Nat) : Fld := ⟨pgCQ q + 0x9C, 0, 3, 0⟩
def R.CQ.STAT.CLAIMED (q : Nat) : Fld := ⟨pgCQ q + 0x9C, 3, 1, 0⟩
def R.CQ.STAT.EVAL (q : Nat) : Fld := ⟨pgCQ q + 0x9C, 4, 1, 0⟩
def R.CQ.STAT.ABANDONING (q : Nat) : Fld := ⟨pgCQ q + 0x9C, 5, 1, 0⟩
def R.CQ.STAT.PAUSE_SRC (q : Nat) : Fld := ⟨pgCQ q + 0x9C, 8, 2, 0⟩
def R.CQ.STAT.WAIT_WHY (q : Nat) : Fld := ⟨pgCQ q + 0x9C, 12, 4, 0⟩
def R.CQ.FAULT_IDX (q : Nat) : Fld := ⟨pgCQ q + 0xA0, 0, 32, 0⟩
def R.CQ.FAULT_CODE.CODE (q : Nat) : Fld := ⟨pgCQ q + 0xA4, 0, 16, 0⟩
def R.CQ.FAULT_CODE.TAG (q : Nat) : Fld := ⟨pgCQ q + 0xA4, 16, 16, 0⟩
def R.CQ.RESUME.OP (q : Nat) : Fld := ⟨pgCQ q + 0xA8, 0, 2, 0⟩
def R.CQ.RESUME.GO (q : Nat) : Fld := ⟨pgCQ q + 0xA8, 31, 1, 0⟩
def R.CQ.LAST_TAG (q : Nat) : Fld := ⟨pgCQ q + 0xAC, 0, 16, 0⟩
def R.CQ.EVAL_BASE (q : Nat) : Fld := ⟨pgCQ q + 0xB0, 0, 64, 0⟩
def R.CQ.DL_MISS_TICK (q : Nat) : Fld := ⟨pgCQ q + 0xB8, 0, 64, 0⟩
def R.CQ.DL_MISS_IDX.INDEX (q : Nat) : Fld := ⟨pgCQ q + 0xC0, 0, 31, 0⟩
def R.CQ.DL_MISS_IDX.VALID (q : Nat) : Fld := ⟨pgCQ q + 0xC0, 31, 1, 0⟩
def R.CQ.WAIT_LIMIT (q : Nat) : Fld := ⟨pgCQ q + 0xC4, 0, 32, 0⟩
def R.CQ.EVAL_ID (q : Nat) : Fld := ⟨pgCQ q + 0xC8, 0, 32, 0⟩
def R.CQ.BOUND (q : Nat) (n : Nat) : Fld := ⟨pgCQ q + 0x100 + 0x8 * n, 0, 64, 0⟩
def R.CQ.ISSUED (q : Nat) : Fld := ⟨pgCQ q + 0x200, 0, 63, 0⟩
def R.CQ.COMPLETED (q : Nat) : Fld := ⟨pgCQ q + 0x208, 0, 63, 0⟩
def R.CQ.RUNAHEAD (q : Nat) : Fld := ⟨pgCQ q + 0x210, 0, 63, 0⟩
def R.CQ.WAIT_TICKS (q : Nat) : Fld := ⟨pgCQ q + 0x218, 0, 63, 0⟩
def R.CQ.XFER_STALL (q : Nat) : Fld := ⟨pgCQ q + 0x220, 0, 63, 0⟩
def R.CQ.DL_MISSES (q : Nat) : Fld := ⟨pgCQ q + 0x228, 0, 63, 0⟩
def R.CQ.ABANDONED (q : Nat) : Fld := ⟨pgCQ q + 0x230, 0, 63, 0⟩
def R.CQ.EVAL_CMDS (q : Nat) : Fld := ⟨pgCQ q + 0x238, 0, 63, 0⟩

/-! SIG (spec/06_command_streams.md). -/

def R.SIG.CAPS.COUNTERS : Fld := ⟨pgSIG + 0x8, 0, 13, 4096⟩
def R.SIG.CAPS.COUNTER_BITS : Fld := ⟨pgSIG + 0x8, 16, 6, 48⟩
def R.SIG.QALLOC.PART : Fld := ⟨pgSIG + 0x80, 0, 3, 0⟩
def R.SIG.QALLOC.INDEX : Fld := ⟨pgSIG + 0x80, 8, 6, 0⟩
def R.SIG.QALLOC.FAIL : Fld := ⟨pgSIG + 0x80, 14, 1, 0⟩
def R.SIG.QALLOC.GO : Fld := ⟨pgSIG + 0x80, 31, 1, 0⟩
def R.SIG.QFREE.INDEX : Fld := ⟨pgSIG + 0x84, 0, 6, 0⟩
def R.SIG.QFREE.GO : Fld := ⟨pgSIG + 0x84, 31, 1, 0⟩
def R.SIG.CALLOC.PART : Fld := ⟨pgSIG + 0x88, 0, 3, 0⟩
def R.SIG.CALLOC.COUNT : Fld := ⟨pgSIG + 0x88, 8, 7, 1⟩
def R.SIG.CALLOC.GO : Fld := ⟨pgSIG + 0x88, 31, 1, 0⟩
def R.SIG.CALLOC_RES.BASE : Fld := ⟨pgSIG + 0x8C, 0, 12, 0⟩
def R.SIG.CALLOC_RES.FAIL : Fld := ⟨pgSIG + 0x8C, 16, 1, 0⟩
def R.SIG.CFREE.BASE : Fld := ⟨pgSIG + 0x90, 0, 12, 0⟩
def R.SIG.CFREE.COUNT : Fld := ⟨pgSIG + 0x90, 16, 7, 0⟩
def R.SIG.CFREE.GO : Fld := ⟨pgSIG + 0x90, 31, 1, 0⟩
def R.SIG.CTR_SEL.INDEX : Fld := ⟨pgSIG + 0xA0, 0, 12, 0⟩
def R.SIG.CTR_SEL.OP : Fld := ⟨pgSIG + 0xA0, 16, 2, 0⟩
def R.SIG.CTR_SEL.GO : Fld := ⟨pgSIG + 0xA0, 31, 1, 0⟩
def R.SIG.CTR_DATA : Fld := ⟨pgSIG + 0xA8, 0, 48, 0⟩
def R.SIG.CTR_VAL.VALUE : Fld := ⟨pgSIG + 0xB0, 0, 48, 0⟩
def R.SIG.CTR_VAL.ALLOC : Fld := ⟨pgSIG + 0xB0, 62, 1, 0⟩
def R.SIG.CTR_VAL.OVF : Fld := ⟨pgSIG + 0xB0, 63, 1, 0⟩
def R.SIG.ADDS : Fld := ⟨pgSIG + 0xC0, 0, 63, 0⟩
def R.SIG.WAKEUPS : Fld := ⟨pgSIG + 0xC8, 0, 63, 0⟩

/-! SILL (spec/08_weight_streaming.md). -/

def R.SILL.CAPS.SLOTS (e : Nat) : Fld := ⟨pgSILL e + 0x8, 0, 10, 512⟩
def R.SILL.CAPS.XFER_KIB (e : Nat) : Fld := ⟨pgSILL e + 0x8, 10, 6, 16⟩
def R.SILL.CAPS.INJECT_FLITS (e : Nat) : Fld := ⟨pgSILL e + 0x8, 16, 4, 8⟩
def R.SILL.CAPS.ROW_FLITS (e : Nat) : Fld := ⟨pgSILL e + 0x8, 20, 5, 16⟩
def R.SILL.CAPS.DROP_CREDITS (e : Nat) : Fld := ⟨pgSILL e + 0x8, 25, 7, 32⟩
def R.SILL.CAPS2.STACKS (e : Nat) : Fld := ⟨pgSILL e + 0xC, 0, 2, 0⟩
def R.SILL.CAPS2.EDGE (e : Nat) : Fld := ⟨pgSILL e + 0xC, 2, 2, e / 4⟩
def R.SILL.CAPS2.EDGE_BYTES (e : Nat) : Fld := ⟨pgSILL e + 0xC, 8, 10, 256⟩
def R.SILL.CAPS2.RETURN_BYTES (e : Nat) : Fld := ⟨pgSILL e + 0xC, 18, 8, 32⟩
def R.SILL.STAT.SLOTS_USED (e : Nat) : Fld := ⟨pgSILL e + 0x80, 0, 10, 0⟩
def R.SILL.STAT.OPEN (e : Nat) : Fld := ⟨pgSILL e + 0x80, 16, 10, 0⟩
def R.SILL.STAT.MERGE_ON (e : Nat) : Fld := ⟨pgSILL e + 0x80, 26, 1, 1⟩
def R.SILL.MERGE_CFG.EN (e : Nat) : Fld := ⟨pgSILL e + 0x84, 0, 1, 1⟩
def R.SILL.MERGE_CFG.HOLD (e : Nat) : Fld := ⟨pgSILL e + 0x84, 8, 8, 32⟩
def R.SILL.MERGE_CFG.MAX_JOIN (e : Nat) : Fld := ⟨pgSILL e + 0x84, 16, 7, 16⟩
def R.SILL.FETCH_WARN (e : Nat) : Fld := ⟨pgSILL e + 0x88, 0, 32, 156250⟩
def R.SILL.FAIL_INFO.CODE (e : Nat) : Fld := ⟨pgSILL e + 0x90, 0, 16, 0⟩
def R.SILL.FAIL_INFO.QUEUE (e : Nat) : Fld := ⟨pgSILL e + 0x90, 16, 6, 0⟩
def R.SILL.FAIL_INFO.VALID (e : Nat) : Fld := ⟨pgSILL e + 0x90, 31, 1, 0⟩
def R.SILL.FAIL_ADDR (e : Nat) : Fld := ⟨pgSILL e + 0x98, 0, 64, 0⟩
def R.SILL.XFERS (e : Nat) : Fld := ⟨pgSILL e + 0x100, 0, 63, 0⟩
def R.SILL.ENTRIES (e : Nat) : Fld := ⟨pgSILL e + 0x108, 0, 63, 0⟩
def R.SILL.JOINS (e : Nat) : Fld := ⟨pgSILL e + 0x110, 0, 63, 0⟩
def R.SILL.FETCHES (e : Nat) : Fld := ⟨pgSILL e + 0x118, 0, 63, 0⟩
def R.SILL.INJECTIONS (e : Nat) : Fld := ⟨pgSILL e + 0x120, 0, 63, 0⟩
def R.SILL.BYTES_FETCHED (e : Nat) : Fld := ⟨pgSILL e + 0x128, 0, 63, 0⟩
def R.SILL.BYTES_DELIVERED (e : Nat) : Fld := ⟨pgSILL e + 0x130, 0, 63, 0⟩
def R.SILL.REFUSED_DEST (e : Nat) : Fld := ⟨pgSILL e + 0x138, 0, 63, 0⟩
def R.SILL.WAIT_STACK (e : Nat) : Fld := ⟨pgSILL e + 0x140, 0, 63, 0⟩
def R.SILL.WAIT_FLASH (e : Nat) : Fld := ⟨pgSILL e + 0x148, 0, 63, 0⟩
def R.SILL.WAIT_FABRIC (e : Nat) : Fld := ⟨pgSILL e + 0x150, 0, 63, 0⟩
def R.SILL.WAIT_HOST (e : Nat) : Fld := ⟨pgSILL e + 0x158, 0, 63, 0⟩
def R.SILL.CREDIT_STALL (e : Nat) : Fld := ⟨pgSILL e + 0x160, 0, 63, 0⟩
def R.SILL.FETCH_FAILS (e : Nat) : Fld := ⟨pgSILL e + 0x168, 0, 63, 0⟩
def R.SILL.FETCH_SLOW (e : Nat) : Fld := ⟨pgSILL e + 0x170, 0, 63, 0⟩
def R.SILL.GATHER_ROWS (e : Nat) : Fld := ⟨pgSILL e + 0x178, 0, 63, 0⟩

/-! QUOTA (spec/10_memory_tiers.md). -/

def R.QUOTA.CAPS.CONTEXTS : Fld := ⟨pgQUOTA + 0x8, 0, 7, 64⟩
def R.QUOTA.CAPS.GRANULE_KIB : Fld := ⟨pgQUOTA + 0x8, 8, 12, 2048⟩
def R.QUOTA.OP_ADDR : Fld := ⟨pgQUOTA + 0x80, 0, 44, 0⟩
def R.QUOTA.OP_SIZE : Fld := ⟨pgQUOTA + 0x88, 0, 20, 0⟩
def R.QUOTA.OP_CTRL.CTX : Fld := ⟨pgQUOTA + 0x8C, 0, 6, 0⟩
def R.QUOTA.OP_CTRL.OP : Fld := ⟨pgQUOTA + 0x8C, 8, 2, 0⟩
def R.QUOTA.OP_CTRL.GO : Fld := ⟨pgQUOTA + 0x8C, 31, 1, 0⟩
def R.QUOTA.OP_RESULT : Fld := ⟨pgQUOTA + 0x90, 0, 16, 0⟩
def R.QUOTA.CTX_ALLOC.PART : Fld := ⟨pgQUOTA + 0x94, 0, 3, 0⟩
def R.QUOTA.CTX_ALLOC.INDEX : Fld := ⟨pgQUOTA + 0x94, 8, 6, 0⟩
def R.QUOTA.CTX_ALLOC.FAIL : Fld := ⟨pgQUOTA + 0x94, 14, 1, 0⟩
def R.QUOTA.CTX_ALLOC.GO : Fld := ⟨pgQUOTA + 0x94, 31, 1, 0⟩
def R.QUOTA.CTX_FREE.INDEX : Fld := ⟨pgQUOTA + 0x98, 0, 6, 0⟩
def R.QUOTA.CTX_FREE.GO : Fld := ⟨pgQUOTA + 0x98, 31, 1, 0⟩
def R.QUOTA.TIER_TOTAL (x : Nat) : Fld := ⟨pgQUOTA + 0xA0 + 0x20 * x, 0, 32, 0⟩
def R.QUOTA.TIER_FREE (x : Nat) : Fld := ⟨pgQUOTA + 0xA4 + 0x20 * x, 0, 32, 0⟩
def R.QUOTA.TIER_IN (x : Nat) : Fld := ⟨pgQUOTA + 0xA8 + 0x20 * x, 0, 32, 0⟩
def R.QUOTA.TIER_HOME (x : Nat) : Fld := ⟨pgQUOTA + 0xAC + 0x20 * x, 0, 32, 0⟩
def R.QUOTA.TIER_OUT (x : Nat) : Fld := ⟨pgQUOTA + 0xB0 + 0x20 * x, 0, 32, 0⟩
def R.QUOTA.PLACES : Fld := ⟨pgQUOTA + 0x100, 0, 63, 0⟩
def R.QUOTA.RELEASES : Fld := ⟨pgQUOTA + 0x108, 0, 63, 0⟩
def R.QUOTA.FLIPS : Fld := ⟨pgQUOTA + 0x110, 0, 63, 0⟩
def R.QUOTA.LOST_GRANULES : Fld := ⟨pgQUOTA + 0x118, 0, 63, 0⟩
def R.QUOTA.REMOTE_REFUSED : Fld := ⟨pgQUOTA + 0x120, 0, 63, 0⟩
def R.QUOTA.STALL (p : Nat) (x : Nat) : Fld := ⟨pgQUOTA + 0x200 + 0x40 * p + 0x8 * x, 0, 63, 0⟩
def R.QUOTA.CTX_LIMIT_BONDED (c : Nat) : Fld := ⟨pgQUOTA + 0x800 + 0x20 * c, 0, 32, 0⟩
def R.QUOTA.CTX_LIMIT_STACK (c : Nat) : Fld := ⟨pgQUOTA + 0x804 + 0x20 * c, 0, 32, 0⟩
def R.QUOTA.CTX_LIMIT_FLASH (c : Nat) : Fld := ⟨pgQUOTA + 0x808 + 0x20 * c, 0, 32, 0⟩
def R.QUOTA.CTX_FLAGS.CLAIMED (c : Nat) : Fld := ⟨pgQUOTA + 0x80C + 0x20 * c, 0, 1, 0⟩
def R.QUOTA.CTX_FLAGS.REMOTE_RD (c : Nat) : Fld := ⟨pgQUOTA + 0x80C + 0x20 * c, 1, 1, 0⟩
def R.QUOTA.CTX_FLAGS.REMOTE_WR (c : Nat) : Fld := ⟨pgQUOTA + 0x80C + 0x20 * c, 2, 1, 0⟩
def R.QUOTA.CTX_FLAGS.PART (c : Nat) : Fld := ⟨pgQUOTA + 0x80C + 0x20 * c, 8, 4, 15⟩
def R.QUOTA.CTX_USED_BONDED (c : Nat) : Fld := ⟨pgQUOTA + 0x810 + 0x20 * c, 0, 32, 0⟩
def R.QUOTA.CTX_USED_STACK (c : Nat) : Fld := ⟨pgQUOTA + 0x814 + 0x20 * c, 0, 32, 0⟩
def R.QUOTA.CTX_USED_FLASH (c : Nat) : Fld := ⟨pgQUOTA + 0x818 + 0x20 * c, 0, 32, 0⟩

/-! STACK (spec/10_memory_tiers.md). -/

def R.STACK.CAPS.GIB (s : Nat) : Fld := ⟨pgSTACK s + 0x8, 0, 8, 48⟩
def R.STACK.CAPS.CHANNELS (s : Nat) : Fld := ⟨pgSTACK s + 0x8, 8, 5, 16⟩
def R.STACK.CAPS.SPARES (s : Nat) : Fld := ⟨pgSTACK s + 0x8, 13, 3, 1⟩
def R.STACK.CAPS.GBPS (s : Nat) : Fld := ⟨pgSTACK s + 0x8, 16, 16, 1200⟩
def R.STACK.STAT.SPARE_FOR (s : Nat) : Fld := ⟨pgSTACK s + 0x80, 0, 5, 31⟩
def R.STACK.STAT.SPARING (s : Nat) : Fld := ⟨pgSTACK s + 0x80, 5, 1, 0⟩
def R.STACK.STAT.FAILED (s : Nat) : Fld := ⟨pgSTACK s + 0x80, 6, 1, 0⟩
def R.STACK.STAT.HOT (s : Nat) : Fld := ⟨pgSTACK s + 0x80, 7, 1, 0⟩
def R.STACK.STAT.UE (s : Nat) : Fld := ⟨pgSTACK s + 0x80, 8, 1, 0⟩
def R.STACK.STAT.TEMP_C (s : Nat) : Fld := ⟨pgSTACK s + 0x80, 16, 8, 0⟩
def R.STACK.SPARE_CTRL.CHANNEL (s : Nat) : Fld := ⟨pgSTACK s + 0x84, 0, 4, 0⟩
def R.STACK.SPARE_CTRL.GO (s : Nat) : Fld := ⟨pgSTACK s + 0x84, 31, 1, 0⟩
def R.STACK.SCRUB_CTRL.EN (s : Nat) : Fld := ⟨pgSTACK s + 0x88, 0, 1, 1⟩
def R.STACK.SCRUB_CTRL.HOURS (s : Nat) : Fld := ⟨pgSTACK s + 0x88, 8, 8, 24⟩
def R.STACK.UE_ADDR (s : Nat) : Fld := ⟨pgSTACK s + 0x90, 0, 36, 0⟩
def R.STACK.CE (s : Nat) : Fld := ⟨pgSTACK s + 0x100, 0, 63, 0⟩
def R.STACK.UE (s : Nat) : Fld := ⟨pgSTACK s + 0x108, 0, 63, 0⟩
def R.STACK.READ_BYTES (s : Nat) : Fld := ⟨pgSTACK s + 0x110, 0, 63, 0⟩
def R.STACK.WRITE_BYTES (s : Nat) : Fld := ⟨pgSTACK s + 0x118, 0, 63, 0⟩
def R.STACK.HOT_TICKS (s : Nat) : Fld := ⟨pgSTACK s + 0x120, 0, 63, 0⟩
def R.STACK.SCRUB_PASSES (s : Nat) : Fld := ⟨pgSTACK s + 0x128, 0, 63, 0⟩

/-! FLASH (spec/10_memory_tiers.md). -/

def R.FLASH.CAPS.SLEDS : Fld := ⟨pgFLASH + 0x8, 0, 3, 0⟩
def R.FLASH.CAPS.SLED_TB : Fld := ⟨pgFLASH + 0x8, 8, 5, 16⟩
def R.FLASH.CAPS.PAGE_KIB : Fld := ⟨pgFLASH + 0x8, 16, 7, 16⟩
def R.FLASH.CAPS.APERTURES : Fld := ⟨pgFLASH + 0x8, 24, 8, 192⟩
def R.FLASH.SLED_STAT.PRESENT (i : Nat) : Fld := ⟨pgFLASH + 0x80 + 0x4 * i, 0, 1, 0⟩
def R.FLASH.SLED_STAT.ATTACHED (i : Nat) : Fld := ⟨pgFLASH + 0x80 + 0x4 * i, 1, 1, 0⟩
def R.FLASH.SLED_STAT.RELEASED (i : Nat) : Fld := ⟨pgFLASH + 0x80 + 0x4 * i, 2, 1, 0⟩
def R.FLASH.SLED_STAT.WORN (i : Nat) : Fld := ⟨pgFLASH + 0x80 + 0x4 * i, 3, 1, 0⟩
def R.FLASH.SLED_STAT.FOREIGN (i : Nat) : Fld := ⟨pgFLASH + 0x80 + 0x4 * i, 4, 1, 0⟩
def R.FLASH.SLED_STAT.SPARE_PCT (i : Nat) : Fld := ⟨pgFLASH + 0x80 + 0x4 * i, 8, 8, 0⟩
def R.FLASH.SLED_STAT.ERASE_MAX (i : Nat) : Fld := ⟨pgFLASH + 0x80 + 0x4 * i, 16, 16, 0⟩
def R.FLASH.SLED_CTRL.SLED : Fld := ⟨pgFLASH + 0x90, 0, 2, 0⟩
def R.FLASH.SLED_CTRL.OP : Fld := ⟨pgFLASH + 0x90, 8, 2, 0⟩
def R.FLASH.SLED_CTRL.GO : Fld := ⟨pgFLASH + 0x90, 31, 1, 0⟩
def R.FLASH.READ_BYTES : Fld := ⟨pgFLASH + 0x100, 0, 63, 0⟩
def R.FLASH.WRITE_BYTES : Fld := ⟨pgFLASH + 0x108, 0, 63, 0⟩
def R.FLASH.UE : Fld := ⟨pgFLASH + 0x110, 0, 63, 0⟩
def R.FLASH.BLOCKS_RETIRED : Fld := ⟨pgFLASH + 0x118, 0, 63, 0⟩
def R.FLASH.PULL_ABORTS : Fld := ⟨pgFLASH + 0x120, 0, 63, 0⟩
def R.FLASH.TRIMS : Fld := ⟨pgFLASH + 0x128, 0, 63, 0⟩
def R.FLASH.APER_MAP.GRANULE (n : Nat) : Fld := ⟨pgFLASH + 0x400 + 0x8 * n, 0, 23, 0⟩
def R.FLASH.APER_MAP.SLED (n : Nat) : Fld := ⟨pgFLASH + 0x400 + 0x8 * n, 30, 2, 0⟩
def R.FLASH.APER_CTRL.PART (n : Nat) : Fld := ⟨pgFLASH + 0x404 + 0x8 * n, 0, 3, 0⟩
def R.FLASH.APER_CTRL.ENABLE (n : Nat) : Fld := ⟨pgFLASH + 0x404 + 0x8 * n, 8, 1, 0⟩
def R.FLASH.APER_CTRL.DISABLE (n : Nat) : Fld := ⟨pgFLASH + 0x404 + 0x8 * n, 9, 1, 0⟩
def R.FLASH.APER_CTRL.VALID (n : Nat) : Fld := ⟨pgFLASH + 0x404 + 0x8 * n, 10, 1, 0⟩

/-! TILE (spec/10_memory_tiers.md). -/

def R.TILE.BOND_STAT.ROWS_SPARED (t : Nat) : Fld := ⟨pgTILE t + 0x400, 0, 11, 0⟩
def R.TILE.BOND_STAT.BANK_SPARED (t : Nat) : Fld := ⟨pgTILE t + 0x400, 16, 1, 0⟩
def R.TILE.BOND_STAT.UE (t : Nat) : Fld := ⟨pgTILE t + 0x400, 17, 1, 0⟩
def R.TILE.BOND_UE_ADDR (t : Nat) : Fld := ⟨pgTILE t + 0x404, 0, 31, 0⟩
def R.TILE.BOND_SCRUB (t : Nat) : Fld := ⟨pgTILE t + 0x408, 0, 8, 24⟩
def R.TILE.BOND_CE (t : Nat) : Fld := ⟨pgTILE t + 0x410, 0, 63, 0⟩
def R.TILE.BOND_UE (t : Nat) : Fld := ⟨pgTILE t + 0x418, 0, 63, 0⟩
def R.TILE.BOND_RD_BYTES (t : Nat) : Fld := ⟨pgTILE t + 0x420, 0, 63, 0⟩
def R.TILE.BOND_WR_BYTES (t : Nat) : Fld := ⟨pgTILE t + 0x428, 0, 63, 0⟩
def R.TILE.BOND_SR_EXITS (t : Nat) : Fld := ⟨pgTILE t + 0x430, 0, 63, 0⟩

/-! MOD (spec/11_training_step.md). -/

def R.MOD.STEP_CFG.STEP_CTR (p : Nat) : Fld := ⟨pgMOD + 0x200 + 0x40 * p, 0, 12, 0⟩
def R.MOD.STEP_CFG.VERD_CTR (p : Nat) : Fld := ⟨pgMOD + 0x200 + 0x40 * p, 16, 12, 0⟩
def R.MOD.STEP_CFG.MODE (p : Nat) : Fld := ⟨pgMOD + 0x200 + 0x40 * p, 28, 2, 0⟩
def R.MOD.STEP_CTRL.ENABLE (p : Nat) : Fld := ⟨pgMOD + 0x204 + 0x40 * p, 0, 1, 0⟩
def R.MOD.STEP_CTRL.DISABLE (p : Nat) : Fld := ⟨pgMOD + 0x204 + 0x40 * p, 1, 1, 0⟩
def R.MOD.STEP_CTRL.PEERS (p : Nat) : Fld := ⟨pgMOD + 0x204 + 0x40 * p, 8, 6, 0⟩
def R.MOD.STEP_STAT.ACTIVE (p : Nat) : Fld := ⟨pgMOD + 0x208 + 0x40 * p, 0, 1, 0⟩
def R.MOD.STEP_STAT.AWAIT (p : Nat) : Fld := ⟨pgMOD + 0x208 + 0x40 * p, 1, 1, 0⟩
def R.MOD.STEP_STAT.HALTED (p : Nat) : Fld := ⟨pgMOD + 0x208 + 0x40 * p, 2, 1, 0⟩
def R.MOD.STEP_STAT.EVAL_HOLD (p : Nat) : Fld := ⟨pgMOD + 0x208 + 0x40 * p, 3, 1, 0⟩
def R.MOD.STEP_STAT.SLOW (p : Nat) : Fld := ⟨pgMOD + 0x208 + 0x40 * p, 4, 1, 0⟩
def R.MOD.STEP_VWARN (p : Nat) : Fld := ⟨pgMOD + 0x20C + 0x40 * p, 0, 32, 1562500⟩
def R.MOD.STEP_NUM (p : Nat) : Fld := ⟨pgMOD + 0x210 + 0x40 * p, 0, 48, 0⟩
def R.MOD.STEP_CLOSE_TICK (p : Nat) : Fld := ⟨pgMOD + 0x218 + 0x40 * p, 0, 64, 0⟩
def R.MOD.STEP_PEER_CLEAN (p : Nat) : Fld := ⟨pgMOD + 0x220 + 0x40 * p, 0, 63, 0⟩
def R.MOD.STEP_PEER_NEXT (p : Nat) : Fld := ⟨pgMOD + 0x228 + 0x40 * p, 0, 63, 0⟩
def R.MOD.STEP_EVAL_VER (p : Nat) : Fld := ⟨pgMOD + 0x230 + 0x40 * p, 0, 48, 0⟩
def R.MOD.STEP_FLIP_TICK (p : Nat) : Fld := ⟨pgMOD + 0x238 + 0x40 * p, 0, 64, 0⟩
def R.MOD.STEP_CLOSED (p : Nat) : Fld := ⟨pgMOD + 0x400 + 0x40 * p, 0, 63, 0⟩
def R.MOD.STEP_FLIPS (p : Nat) : Fld := ⟨pgMOD + 0x408 + 0x40 * p, 0, 63, 0⟩
def R.MOD.STEP_FLIP_WAIT (p : Nat) : Fld := ⟨pgMOD + 0x410 + 0x40 * p, 0, 63, 0⟩
def R.MOD.STEP_UPDATE_HOLD (p : Nat) : Fld := ⟨pgMOD + 0x418 + 0x40 * p, 0, 63, 0⟩
def R.MOD.STEP_STRAY (p : Nat) : Fld := ⟨pgMOD + 0x420 + 0x40 * p, 0, 63, 0⟩
def R.MOD.STEP_PEER.NODE (p : Nat) (k : Nat) : Fld := ⟨pgMOD + 0x800 + 0x100 * p + 0x4 * k, 0, 16, 0⟩
def R.MOD.STEP_PEER.PART (p : Nat) (k : Nat) : Fld := ⟨pgMOD + 0x800 + 0x100 * p + 0x4 * k, 16, 3, 0⟩
def R.MOD.STEP_PEER.VALID (p : Nat) (k : Nat) : Fld := ⟨pgMOD + 0x800 + 0x100 * p + 0x4 * k, 31, 1, 0⟩

/-! COLL (spec/12_collectives.md). -/

def R.COLL.CAPS.CONTEXTS (g : Nat) : Fld := ⟨pgCOLL g + 0x8, 0, 5, 16⟩
def R.COLL.CAPS.ENTRIES (g : Nat) : Fld := ⟨pgCOLL g + 0x8, 8, 5, 16⟩
def R.COLL.CAPS.XCHG_MAX (g : Nat) : Fld := ⟨pgCOLL g + 0x8, 16, 11, 1024⟩
def R.COLL.CAPS2.PATH_BYTES (g : Nat) : Fld := ⟨pgCOLL g + 0xC, 0, 10, 512⟩
def R.COLL.CAPS2.ADD_STAGES (g : Nat) : Fld := ⟨pgCOLL g + 0xC, 10, 4, 1⟩
def R.COLL.CAPS2.ROUNDS (g : Nat) : Fld := ⟨pgCOLL g + 0xC, 14, 3, 4⟩
def R.COLL.STAT.CTX_USED (g : Nat) : Fld := ⟨pgCOLL g + 0x80, 0, 5, 0⟩
def R.COLL.STAT.RUNNING (g : Nat) : Fld := ⟨pgCOLL g + 0x80, 8, 5, 0⟩
def R.COLL.STAT.STALLED (g : Nat) : Fld := ⟨pgCOLL g + 0x80, 16, 5, 0⟩
def R.COLL.COLLS (g : Nat) : Fld := ⟨pgCOLL g + 0x100, 0, 63, 0⟩
def R.COLL.BYTES_SENT (g : Nat) : Fld := ⟨pgCOLL g + 0x108, 0, 63, 0⟩
def R.COLL.BYTES_RECV (g : Nat) : Fld := ⟨pgCOLL g + 0x110, 0, 63, 0⟩
def R.COLL.TRIPLES_ADDED (g : Nat) : Fld := ⟨pgCOLL g + 0x118, 0, 63, 0⟩
def R.COLL.PEER_WAIT (g : Nat) : Fld := ⟨pgCOLL g + 0x120, 0, 63, 0⟩
def R.COLL.STALLS (g : Nat) : Fld := ⟨pgCOLL g + 0x128, 0, 63, 0⟩
def R.COLL.ABORTS (g : Nat) : Fld := ⟨pgCOLL g + 0x130, 0, 63, 0⟩
def R.COLL.GROUP_FULLS (g : Nat) : Fld := ⟨pgCOLL g + 0x138, 0, 63, 0⟩
def R.COLL.TOK_SENT (g : Nat) : Fld := ⟨pgCOLL g + 0x140, 0, 63, 0⟩
def R.COLL.TOK_RECV (g : Nat) : Fld := ⟨pgCOLL g + 0x148, 0, 63, 0⟩
def R.COLL.TOK_RET (g : Nat) : Fld := ⟨pgCOLL g + 0x150, 0, 63, 0⟩
def R.COLL.TOK_BOUNCED (g : Nat) : Fld := ⟨pgCOLL g + 0x158, 0, 63, 0⟩
def R.COLL.GRP_DESC (g : Nat) (n : Nat) : Fld := ⟨pgCOLL g + 0x400 + 0x40 * n, 0, 64, 0⟩
def R.COLL.GRP_CFG.VALID (g : Nat) (n : Nat) : Fld := ⟨pgCOLL g + 0x408 + 0x40 * n, 0, 1, 0⟩
def R.COLL.GRP_CFG.PIN (g : Nat) (n : Nat) : Fld := ⟨pgCOLL g + 0x408 + 0x40 * n, 1, 1, 0⟩
def R.COLL.GRP_CFG.ENGINE (g : Nat) (n : Nat) : Fld := ⟨pgCOLL g + 0x408 + 0x40 * n, 4, 4, 0⟩
def R.COLL.GRP_CFG.SHARE (g : Nat) (n : Nat) : Fld := ⟨pgCOLL g + 0x408 + 0x40 * n, 8, 8, 16⟩
def R.COLL.GRP_CTRL (g : Nat) (n : Nat) : Fld := ⟨pgCOLL g + 0x40C + 0x40 * n, 0, 1, 0⟩
def R.COLL.GRP_STAT.STATE (g : Nat) (n : Nat) : Fld := ⟨pgCOLL g + 0x410 + 0x40 * n, 0, 2, 0⟩
def R.COLL.GRP_STAT.ABORT_VALID (g : Nat) (n : Nat) : Fld := ⟨pgCOLL g + 0x410 + 0x40 * n, 2, 1, 0⟩
def R.COLL.GRP_STAT.CHG (g : Nat) (n : Nat) : Fld := ⟨pgCOLL g + 0x410 + 0x40 * n, 4, 8, 0⟩
def R.COLL.GRP_STAT.STALL_CODE (g : Nat) (n : Nat) : Fld := ⟨pgCOLL g + 0x410 + 0x40 * n, 16, 16, 0⟩
def R.COLL.GRP_SEQ (g : Nat) (n : Nat) : Fld := ⟨pgCOLL g + 0x414 + 0x40 * n, 0, 32, 0⟩
def R.COLL.GRP_LAST_GEN (g : Nat) (n : Nat) : Fld := ⟨pgCOLL g + 0x418 + 0x40 * n, 0, 32, 0⟩
def R.COLL.GRP_ABORT_SEQ (g : Nat) (n : Nat) : Fld := ⟨pgCOLL g + 0x41C + 0x40 * n, 0, 32, 0⟩
def R.COLL.GRP_RANK (g : Nat) (n : Nat) : Fld := ⟨pgCOLL g + 0x420 + 0x40 * n, 0, 16, 0⟩
def R.COLL.GRP_SIZE (g : Nat) (n : Nat) : Fld := ⟨pgCOLL g + 0x424 + 0x40 * n, 0, 17, 0⟩
def R.COLL.GRP_BAD_RANK.RANK (g : Nat) (n : Nat) : Fld := ⟨pgCOLL g + 0x428 + 0x40 * n, 0, 16, 0⟩
def R.COLL.GRP_BAD_RANK.VALID (g : Nat) (n : Nat) : Fld := ⟨pgCOLL g + 0x428 + 0x40 * n, 31, 1, 0⟩

/-! LINK (spec/13_fabric_and_links.md). -/

def R.LINK.CAPS.LANES (k : Nat) : Fld := ⟨pgLINK k + 0x8, 0, 5, 16⟩
def R.LINK.CAPS.VCS (k : Nat) : Fld := ⟨pgLINK k + 0x8, 8, 8, 6⟩
def R.LINK.CAPS.RX_CW (k : Nat) : Fld := ⟨pgLINK k + 0x8, 16, 12, 2048⟩
def R.LINK.CAPS2.REPLAY_CW (k : Nat) : Fld := ⟨pgLINK k + 0xC, 0, 12, 2048⟩
def R.LINK.CAPS2.DIE (k : Nat) : Fld := ⟨pgLINK k + 0xC, 12, 4, k / 4⟩
def R.LINK.CAPS2.PORT (k : Nat) : Fld := ⟨pgLINK k + 0xC, 16, 2, k % 4⟩
def R.LINK.STAT.STATE (k : Nat) : Fld := ⟨pgLINK k + 0x80, 0, 3, 0⟩
def R.LINK.STAT.LANES (k : Nat) : Fld := ⟨pgLINK k + 0x80, 4, 5, 0⟩
def R.LINK.STAT.HALF (k : Nat) : Fld := ⟨pgLINK k + 0x80, 9, 1, 0⟩
def R.LINK.STAT.OPTIC (k : Nat) : Fld := ⟨pgLINK k + 0x80, 10, 1, 0⟩
def R.LINK.STAT.LEDGER_OK (k : Nat) : Fld := ⟨pgLINK k + 0x80, 11, 1, 1⟩
def R.LINK.STAT.LEDGER_CLASS (k : Nat) : Fld := ⟨pgLINK k + 0x80, 12, 4, 0⟩
def R.LINK.CTRL.RETRAIN (k : Nat) : Fld := ⟨pgLINK k + 0x84, 0, 1, 0⟩
def R.LINK.CTRL.FLOOD (k : Nat) : Fld := ⟨pgLINK k + 0x84, 1, 1, 1⟩
def R.LINK.LANE_FAIL (k : Nat) : Fld := ⟨pgLINK k + 0x88, 0, 16, 0⟩
def R.LINK.LANE_THRESH (k : Nat) : Fld := ⟨pgLINK k + 0x8C, 0, 32, 1000000⟩
def R.LINK.PEER.NODE (k : Nat) : Fld := ⟨pgLINK k + 0x90, 0, 16, 0⟩
def R.LINK.PEER.LINK (k : Nat) : Fld := ⟨pgLINK k + 0x90, 16, 6, 0⟩
def R.LINK.PEER.UNJOINED (k : Nat) : Fld := ⟨pgLINK k + 0x90, 30, 1, 0⟩
def R.LINK.PEER.VALID (k : Nat) : Fld := ⟨pgLINK k + 0x90, 31, 1, 0⟩
def R.LINK.CRED_CFG0.VC0 (k : Nat) : Fld := ⟨pgLINK k + 0xA0, 0, 11, 64⟩
def R.LINK.CRED_CFG0.VC1 (k : Nat) : Fld := ⟨pgLINK k + 0xA0, 16, 11, 256⟩
def R.LINK.CRED_CFG1.VC2 (k : Nat) : Fld := ⟨pgLINK k + 0xA4, 0, 11, 576⟩
def R.LINK.CRED_CFG1.VC3 (k : Nat) : Fld := ⟨pgLINK k + 0xA4, 16, 11, 768⟩
def R.LINK.CRED_CFG2.VC4 (k : Nat) : Fld := ⟨pgLINK k + 0xA8, 0, 11, 128⟩
def R.LINK.CRED_CFG2.VC5 (k : Nat) : Fld := ⟨pgLINK k + 0xA8, 16, 11, 256⟩
def R.LINK.VC_WEIGHT0.VC1 (k : Nat) : Fld := ⟨pgLINK k + 0xB0, 0, 8, 4⟩
def R.LINK.VC_WEIGHT0.VC2 (k : Nat) : Fld := ⟨pgLINK k + 0xB0, 8, 8, 4⟩
def R.LINK.VC_WEIGHT0.VC3 (k : Nat) : Fld := ⟨pgLINK k + 0xB0, 16, 8, 8⟩
def R.LINK.VC_WEIGHT0.VC4 (k : Nat) : Fld := ⟨pgLINK k + 0xB0, 24, 8, 2⟩
def R.LINK.VC_WEIGHT1 (k : Nat) : Fld := ⟨pgLINK k + 0xB4, 0, 8, 2⟩
def R.LINK.TX_CW (k : Nat) : Fld := ⟨pgLINK k + 0x100, 0, 63, 0⟩
def R.LINK.RX_CW (k : Nat) : Fld := ⟨pgLINK k + 0x108, 0, 63, 0⟩
def R.LINK.FEC_CORR (k : Nat) : Fld := ⟨pgLINK k + 0x110, 0, 63, 0⟩
def R.LINK.FEC_UNCORR (k : Nat) : Fld := ⟨pgLINK k + 0x118, 0, 63, 0⟩
def R.LINK.FRAME_BAD (k : Nat) : Fld := ⟨pgLINK k + 0x120, 0, 63, 0⟩
def R.LINK.REPLAYS (k : Nat) : Fld := ⟨pgLINK k + 0x128, 0, 63, 0⟩
def R.LINK.RETRAINS (k : Nat) : Fld := ⟨pgLINK k + 0x130, 0, 63, 0⟩
def R.LINK.DEGRADES (k : Nat) : Fld := ⟨pgLINK k + 0x138, 0, 63, 0⟩
def R.LINK.DOWNS (k : Nat) : Fld := ⟨pgLINK k + 0x140, 0, 63, 0⟩
def R.LINK.CREDIT_STALL (k : Nat) : Fld := ⟨pgLINK k + 0x148, 0, 63, 0⟩
def R.LINK.LEDGER_CHECKS (k : Nat) : Fld := ⟨pgLINK k + 0x150, 0, 63, 0⟩
def R.LINK.LEDGER_FAILS (k : Nat) : Fld := ⟨pgLINK k + 0x158, 0, 63, 0⟩
def R.LINK.FWD_CW (k : Nat) : Fld := ⟨pgLINK k + 0x160, 0, 63, 0⟩
def R.LINK.LANE_CORR (k : Nat) (i : Nat) : Fld := ⟨pgLINK k + 0x180 + 0x8 * i, 0, 63, 0⟩
def R.LINK.LED_SENT (k : Nat) (c : Nat) : Fld := ⟨pgLINK k + 0x200 + 0x40 * c, 0, 64, 0⟩
def R.LINK.LED_REFUND (k : Nat) (c : Nat) : Fld := ⟨pgLINK k + 0x208 + 0x40 * c, 0, 64, 0⟩
def R.LINK.LED_RETURNED (k : Nat) (c : Nat) : Fld := ⟨pgLINK k + 0x210 + 0x40 * c, 0, 64, 0⟩
def R.LINK.LED_RECEIVED (k : Nat) (c : Nat) : Fld := ⟨pgLINK k + 0x218 + 0x40 * c, 0, 64, 0⟩
def R.LINK.LED_FREED (k : Nat) (c : Nat) : Fld := ⟨pgLINK k + 0x220 + 0x40 * c, 0, 64, 0⟩
def R.LINK.LED_HELD (k : Nat) (c : Nat) : Fld := ⟨pgLINK k + 0x228 + 0x40 * c, 0, 12, 0⟩
def R.LINK.LED_INIT (k : Nat) (c : Nat) : Fld := ⟨pgLINK k + 0x22C + 0x40 * c, 0, 12, 0⟩

/-! MOD (spec/13_fabric_and_links.md). -/

def R.MOD.FAB_NODE.NODE : Fld := ⟨pgMOD + 0x600, 0, 16, 0⟩
def R.MOD.FAB_NODE.JOINED : Fld := ⟨pgMOD + 0x600, 31, 1, 0⟩
def R.MOD.FAB_INCARN : Fld := ⟨pgMOD + 0x604, 0, 32, 0⟩
def R.MOD.FAB_HALL : Fld := ⟨pgMOD + 0x608, 0, 32, 0⟩
def R.MOD.FAB_REGISTRAR : Fld := ⟨pgMOD + 0x60C, 0, 16, 0⟩
def R.MOD.FAB_CTRL.REQ_NODE : Fld := ⟨pgMOD + 0x610, 0, 16, 0⟩
def R.MOD.FAB_CTRL.REQ_VALID : Fld := ⟨pgMOD + 0x610, 16, 1, 0⟩
def R.MOD.FAB_CTRL.JOIN : Fld := ⟨pgMOD + 0x610, 30, 1, 0⟩
def R.MOD.FAB_CTRL.LEAVE : Fld := ⟨pgMOD + 0x610, 31, 1, 0⟩
def R.MOD.FAB_STAT.STATE : Fld := ⟨pgMOD + 0x614, 0, 3, 0⟩
def R.MOD.FAB_STAT.REFUSE : Fld := ⟨pgMOD + 0x614, 4, 3, 0⟩
def R.MOD.ROUTE_SEL.NODE : Fld := ⟨pgMOD + 0x618, 0, 16, 0⟩
def R.MOD.ROUTE_SEL.OP : Fld := ⟨pgMOD + 0x618, 16, 2, 0⟩
def R.MOD.ROUTE_SEL.GO : Fld := ⟨pgMOD + 0x618, 31, 1, 0⟩
def R.MOD.ROUTE_DATA : Fld := ⟨pgMOD + 0x620, 0, 64, 0⟩
def R.MOD.FAB_EMERG_SRC.NODE (i : Nat) : Fld := ⟨pgMOD + 0x630 + 0x4 * i, 0, 16, 0⟩
def R.MOD.FAB_EMERG_SRC.VALID (i : Nat) : Fld := ⟨pgMOD + 0x630 + 0x4 * i, 31, 1, 0⟩
def R.MOD.BCAST_CTRL.TYPE : Fld := ⟨pgMOD + 0x640, 0, 2, 0⟩
def R.MOD.BCAST_CTRL.FRAC : Fld := ⟨pgMOD + 0x640, 8, 5, 16⟩
def R.MOD.BCAST_CTRL.OP : Fld := ⟨pgMOD + 0x640, 16, 2, 0⟩
def R.MOD.BCAST_CTRL.GO : Fld := ⟨pgMOD + 0x640, 31, 1, 0⟩
def R.MOD.BCAST_TICK : Fld := ⟨pgMOD + 0x648, 0, 64, 0⟩
def R.MOD.MSG_RETX : Fld := ⟨pgMOD + 0x650, 0, 32, 15625⟩
def R.MOD.FWD_FRAMES : Fld := ⟨pgMOD + 0x680, 0, 63, 0⟩
def R.MOD.UNREACH_SENT : Fld := ⟨pgMOD + 0x688, 0, 63, 0⟩
def R.MOD.UNREACH_LOST : Fld := ⟨pgMOD + 0x690, 0, 63, 0⟩
def R.MOD.MSG_RESENT : Fld := ⟨pgMOD + 0x698, 0, 63, 0⟩
def R.MOD.MSG_DROPPED : Fld := ⟨pgMOD + 0x6A0, 0, 63, 0⟩
def R.MOD.BCAST_DUP : Fld := ⟨pgMOD + 0x6A8, 0, 63, 0⟩
def R.MOD.BCAST_REJECT : Fld := ⟨pgMOD + 0x6B0, 0, 63, 0⟩
def R.MOD.BCAST_REPLACED : Fld := ⟨pgMOD + 0x6B8, 0, 63, 0⟩

/-! NOSE (spec/14_integrity.md). -/

def R.NOSE.CAPS.VDEST_MAX : Fld := ⟨pgNOSE + 0x8, 0, 14, 8192⟩
def R.NOSE.CAPS.CKPT_BUFS : Fld := ⟨pgNOSE + 0x8, 14, 2, 2⟩
def R.NOSE.CAPS.KAT_TESTS : Fld := ⟨pgNOSE + 0x8, 16, 4, 4⟩
def R.NOSE.SAMPLE_CFG.LOG2 : Fld := ⟨pgNOSE + 0x80, 0, 4, 6⟩
def R.NOSE.SAMPLE_CFG.CMD_LOG2 : Fld := ⟨pgNOSE + 0x80, 4, 3, 3⟩
def R.NOSE.SAMPLE_CFG.PER_TILE : Fld := ⟨pgNOSE + 0x80, 8, 4, 4⟩
def R.NOSE.SAMPLE_SEED : Fld := ⟨pgNOSE + 0x88, 0, 64, 0⟩
def R.NOSE.VERDICT_CFG.WINDOW : Fld := ⟨pgNOSE + 0x90, 0, 31, 312500⟩
def R.NOSE.VERDICT_CFG.STRICT : Fld := ⟨pgNOSE + 0x90, 31, 1, 0⟩
def R.NOSE.REPLAY_CFG.MAX : Fld := ⟨pgNOSE + 0x94, 0, 4, 2⟩
def R.NOSE.REPLAY_CFG.HOOK : Fld := ⟨pgNOSE + 0x94, 4, 1, 1⟩
def R.NOSE.REPLAY_CFG.SHIFT : Fld := ⟨pgNOSE + 0x94, 5, 1, 1⟩
def R.NOSE.PERIOD : Fld := ⟨pgNOSE + 0x98, 0, 32, 1562500⟩
def R.NOSE.EPOCH : Fld := ⟨pgNOSE + 0xA0, 0, 64, 0⟩
def R.NOSE.LAST_IMPL.TILE : Fld := ⟨pgNOSE + 0xA8, 0, 10, 0⟩
def R.NOSE.LAST_IMPL.ROLE : Fld := ⟨pgNOSE + 0xA8, 10, 1, 0⟩
def R.NOSE.LAST_IMPL.PART : Fld := ⟨pgNOSE + 0xA8, 11, 3, 0⟩
def R.NOSE.LAST_IMPL.STEP : Fld := ⟨pgNOSE + 0xA8, 24, 40, 0⟩
def R.NOSE.KAT_CTRL.TEST : Fld := ⟨pgNOSE + 0xB0, 0, 3, 0⟩
def R.NOSE.KAT_CTRL.PART : Fld := ⟨pgNOSE + 0xB0, 4, 3, 0⟩
def R.NOSE.KAT_CTRL.GO : Fld := ⟨pgNOSE + 0xB0, 31, 1, 0⟩
def R.NOSE.KAT_STAT.RUNNING : Fld := ⟨pgNOSE + 0xB4, 0, 1, 0⟩
def R.NOSE.KAT_STAT.DONE : Fld := ⟨pgNOSE + 0xB4, 1, 1, 0⟩
def R.NOSE.KAT_STAT.FAILED : Fld := ⟨pgNOSE + 0xB4, 16, 10, 0⟩
def R.NOSE.AREA_BASE (p : Nat) : Fld := ⟨pgNOSE + 0x100 + 0x40 * p, 0, 24, 0⟩
def R.NOSE.AREA_WORDS (p : Nat) : Fld := ⟨pgNOSE + 0x104 + 0x40 * p, 0, 24, 0⟩
def R.NOSE.JOB_TAG (p : Nat) : Fld := ⟨pgNOSE + 0x108 + 0x40 * p, 0, 32, 0⟩
def R.NOSE.CKPT_RANGE.BASE (p : Nat) : Fld := ⟨pgNOSE + 0x10C + 0x40 * p, 0, 12, 0⟩
def R.NOSE.CKPT_RANGE.COUNT (p : Nat) : Fld := ⟨pgNOSE + 0x10C + 0x40 * p, 16, 13, 4096⟩
def R.NOSE.REPLAY_STAT.ATTEMPT (p : Nat) : Fld := ⟨pgNOSE + 0x110 + 0x40 * p, 0, 8, 0⟩
def R.NOSE.REPLAY_STAT.PHASE (p : Nat) : Fld := ⟨pgNOSE + 0x110 + 0x40 * p, 8, 3, 0⟩
def R.NOSE.REPLAY_STAT.LOCAL (p : Nat) : Fld := ⟨pgNOSE + 0x110 + 0x40 * p, 11, 1, 0⟩
def R.NOSE.REPLAY_STAT.FINAL (p : Nat) : Fld := ⟨pgNOSE + 0x110 + 0x40 * p, 12, 1, 0⟩
def R.NOSE.REPLAY_STAT.FAILED (p : Nat) : Fld := ⟨pgNOSE + 0x110 + 0x40 * p, 13, 1, 0⟩
def R.NOSE.REPLAY_STAT.SOURCES (p : Nat) : Fld := ⟨pgNOSE + 0x110 + 0x40 * p, 16, 14, 0⟩
def R.NOSE.REPLAY_CTRL (p : Nat) : Fld := ⟨pgNOSE + 0x114 + 0x40 * p, 0, 1, 0⟩
def R.NOSE.MARK.CODE (p : Nat) : Fld := ⟨pgNOSE + 0x118 + 0x40 * p, 0, 16, 0⟩
def R.NOSE.MARK.VALID (p : Nat) : Fld := ⟨pgNOSE + 0x118 + 0x40 * p, 31, 1, 0⟩
def R.NOSE.MARK_TICK (p : Nat) : Fld := ⟨pgNOSE + 0x120 + 0x40 * p, 0, 64, 0⟩
def R.NOSE.MARK_STEP.STEP (p : Nat) : Fld := ⟨pgNOSE + 0x128 + 0x40 * p, 0, 40, 0⟩
def R.NOSE.MARK_STEP.ATTEMPT (p : Nat) : Fld := ⟨pgNOSE + 0x128 + 0x40 * p, 40, 8, 0⟩
def R.NOSE.SAMPLED : Fld := ⟨pgNOSE + 0x300, 0, 63, 0⟩
def R.NOSE.MATCHES : Fld := ⟨pgNOSE + 0x308, 0, 63, 0⟩
def R.NOSE.CHECKER_FAULTS : Fld := ⟨pgNOSE + 0x310, 0, 63, 0⟩
def R.NOSE.ORIG_FAULTS : Fld := ⟨pgNOSE + 0x318, 0, 63, 0⟩
def R.NOSE.UNRESOLVED : Fld := ⟨pgNOSE + 0x320, 0, 63, 0⟩
def R.NOSE.VOID : Fld := ⟨pgNOSE + 0x328, 0, 63, 0⟩
def R.NOSE.SKIP_SIZE : Fld := ⟨pgNOSE + 0x330, 0, 63, 0⟩
def R.NOSE.LATE_CHECKS : Fld := ⟨pgNOSE + 0x338, 0, 63, 0⟩
def R.NOSE.VERDICTS_CLEAN : Fld := ⟨pgNOSE + 0x340, 0, 63, 0⟩
def R.NOSE.VERDICTS_SUSPECT : Fld := ⟨pgNOSE + 0x348, 0, 63, 0⟩
def R.NOSE.RETRACTS_SENT : Fld := ⟨pgNOSE + 0x350, 0, 63, 0⟩
def R.NOSE.RETRACTS_RECV : Fld := ⟨pgNOSE + 0x358, 0, 63, 0⟩
def R.NOSE.REPLAYS : Fld := ⟨pgNOSE + 0x360, 0, 63, 0⟩
def R.NOSE.STRAY : Fld := ⟨pgNOSE + 0x368, 0, 63, 0⟩
def R.NOSE.SEAL_FAILS : Fld := ⟨pgNOSE + 0x370, 0, 63, 0⟩
def R.NOSE.MARKS_IDLE : Fld := ⟨pgNOSE + 0x378, 0, 63, 0⟩
def R.NOSE.KAT_FAIL (j : Nat) : Fld := ⟨pgNOSE + 0x400 + 0x4 * j, 0, 32, 0⟩

/-! CQ (spec/14_integrity.md). -/

def R.CQ.GATE_IDX (q : Nat) (i : Nat) : Fld := ⟨pgCQ q + 0x300 + 0x10 * i, 0, 32, 0⟩
def R.CQ.GATE_STEP.STEP (q : Nat) (i : Nat) : Fld := ⟨pgCQ q + 0x308 + 0x10 * i, 0, 40, 0⟩
def R.CQ.GATE_STEP.VALID (q : Nat) (i : Nat) : Fld := ⟨pgCQ q + 0x308 + 0x10 * i, 63, 1, 0⟩
def R.CQ.RETAIN (q : Nat) : Fld := ⟨pgCQ q + 0x320, 0, 32, 0⟩

/-! TILE (spec/14_integrity.md). -/

def R.TILE.NOSE_DUPS (t : Nat) : Fld := ⟨pgTILE t + 0x500, 0, 63, 0⟩
def R.TILE.NOSE_FAULTS (t : Nat) : Fld := ⟨pgTILE t + 0x508, 0, 63, 0⟩
def R.TILE.KAT_FAILS (t : Nat) : Fld := ⟨pgTILE t + 0x510, 0, 63, 0⟩

/-! PWR (spec/15_power.md). -/

def R.PWR.CAPS.CASSETTES : Fld := ⟨pgPWR + 0x8, 0, 4, 14⟩
def R.PWR.CAPS.CASS_W : Fld := ⟨pgPWR + 0x8, 4, 12, 3000⟩
def R.PWR.CAPS.DOMAINS : Fld := ⟨pgPWR + 0x8, 16, 7, 84⟩
def R.PWR.CAPS2.ENV_MAX_W : Fld := ⟨pgPWR + 0xC, 0, 16, 34000⟩
def R.PWR.CAPS2.ENV_MIN_PCT : Fld := ⟨pgPWR + 0xC, 16, 8, 12⟩
def R.PWR.CAPS2.RAMP_MAX_PCT : Fld := ⟨pgPWR + 0xC, 24, 8, 20⟩
def R.PWR.STAT.CASS_OK : Fld := ⟨pgPWR + 0x80, 0, 4, 0⟩
def R.PWR.STAT.CAP_ACTIVE : Fld := ⟨pgPWR + 0x80, 4, 1, 0⟩
def R.PWR.STAT.SHED : Fld := ⟨pgPWR + 0x80, 5, 2, 0⟩
def R.PWR.STAT.THERM : Fld := ⟨pgPWR + 0x80, 8, 2, 0⟩
def R.PWR.STAT.ENV_LOW : Fld := ⟨pgPWR + 0x80, 10, 1, 0⟩
def R.PWR.STAT.FORCED_PARK : Fld := ⟨pgPWR + 0x80, 11, 1, 0⟩
def R.PWR.STAT.LEDGER_OPEN : Fld := ⟨pgPWR + 0x80, 12, 1, 0⟩
def R.PWR.STAT.HOLDUP_OK : Fld := ⟨pgPWR + 0x80, 13, 1, 0⟩
def R.PWR.CASS_MAP.PRESENT : Fld := ⟨pgPWR + 0x84, 0, 14, 0⟩
def R.PWR.CASS_MAP.HEALTHY : Fld := ⟨pgPWR + 0x84, 16, 14, 0⟩
def R.PWR.P_MOD : Fld := ⟨pgPWR + 0x88, 0, 32, 0⟩
def R.PWR.P_PEAK : Fld := ⟨pgPWR + 0x8C, 0, 32, 0⟩
def R.PWR.ENV_TARGET : Fld := ⟨pgPWR + 0x90, 0, 16, 34000⟩
def R.PWR.ENV_RAMP : Fld := ⟨pgPWR + 0x94, 0, 16, 6800⟩
def R.PWR.ENV_TOL : Fld := ⟨pgPWR + 0x98, 0, 16, 500⟩
def R.PWR.ENV_SET : Fld := ⟨pgPWR + 0x9C, 0, 16, 34000⟩
def R.PWR.SUPPLY_CEIL : Fld := ⟨pgPWR + 0xA0, 0, 16, 0⟩
def R.PWR.THERM_CEIL : Fld := ⟨pgPWR + 0xA4, 0, 16, 34000⟩
def R.PWR.CEIL_EFF : Fld := ⟨pgPWR + 0xA8, 0, 16, 0⟩
def R.PWR.CAP_CFG.EN : Fld := ⟨pgPWR + 0xAC, 0, 1, 1⟩
def R.PWR.CAP_CFG.CAP_MS : Fld := ⟨pgPWR + 0xAC, 8, 4, 3⟩
def R.PWR.CAP_CFG.STEP : Fld := ⟨pgPWR + 0xAC, 12, 4, 2⟩
def R.PWR.CAP_CFG.ADVISE_LEAD : Fld := ⟨pgPWR + 0xAC, 16, 8, 200⟩
def R.PWR.CAP_CFG.RELEASE : Fld := ⟨pgPWR + 0xAC, 31, 1, 0⟩
/-- Field of partition `p` in PWR.ADVISE. -/
def R.PWR.ADVISE (p : Nat) : Fld := ⟨pgPWR + 0xB0 + 4 * (p / 4), 8 * (p % 4), 5, 16⟩
def R.PWR.SHED_CTRL.OP : Fld := ⟨pgPWR + 0xC0, 0, 2, 0⟩
def R.PWR.SHED_CTRL.ON_EMERG : Fld := ⟨pgPWR + 0xC0, 4, 1, 1⟩
def R.PWR.SHED_CTRL.GO : Fld := ⟨pgPWR + 0xC0, 31, 1, 0⟩
def R.PWR.SHED_EPOCH : Fld := ⟨pgPWR + 0xC8, 0, 64, 0⟩
def R.PWR.SHED_DELAY : Fld := ⟨pgPWR + 0xD0, 0, 16, 2048⟩
def R.PWR.RETAIN_MV : Fld := ⟨pgPWR + 0xD4, 0, 10, 640⟩
def R.PWR.SHED_STAT : Fld := ⟨pgPWR + 0xD8, 0, 4, 0⟩
def R.PWR.PARK_CTRL.PART : Fld := ⟨pgPWR + 0xE0, 0, 3, 0⟩
def R.PWR.PARK_CTRL.OP : Fld := ⟨pgPWR + 0xE0, 8, 2, 0⟩
def R.PWR.PARK_CTRL.GO : Fld := ⟨pgPWR + 0xE0, 31, 1, 0⟩
def R.PWR.PARK_STAT.PARKED : Fld := ⟨pgPWR + 0xE4, 0, 8, 0⟩
def R.PWR.PARK_STAT.FORCED : Fld := ⟨pgPWR + 0xE4, 8, 8, 0⟩
def R.PWR.COOL.INLET_C (i : Nat) : Fld := ⟨pgPWR + 0x100 + 0x4 * i, 0, 8, 0⟩
def R.PWR.COOL.OUTLET_C (i : Nat) : Fld := ⟨pgPWR + 0x100 + 0x4 * i, 8, 8, 0⟩
def R.PWR.COOL.FLOW (i : Nat) : Fld := ⟨pgPWR + 0x100 + 0x4 * i, 16, 16, 0⟩
def R.PWR.COOL_STAT.A_PRESENT : Fld := ⟨pgPWR + 0x108, 0, 1, 0⟩
def R.PWR.COOL_STAT.B_PRESENT : Fld := ⟨pgPWR + 0x108, 1, 1, 0⟩
def R.PWR.COOL_STAT.FLOW_LOW : Fld := ⟨pgPWR + 0x108, 2, 1, 0⟩
def R.PWR.FLOW_MIN : Fld := ⟨pgPWR + 0x10C, 0, 16, 0⟩
def R.PWR.DRYDOWN_CTRL : Fld := ⟨pgPWR + 0x120, 31, 1, 0⟩
def R.PWR.DD_LAST.CAUSE : Fld := ⟨pgPWR + 0x124, 0, 16, 0⟩
def R.PWR.DD_LAST.STEP : Fld := ⟨pgPWR + 0x124, 16, 8, 0⟩
def R.PWR.DD_LAST.COMPLETE : Fld := ⟨pgPWR + 0x124, 24, 1, 0⟩
def R.PWR.DD_RAILS : Fld := ⟨pgPWR + 0x128, 0, 10, 0⟩
def R.PWR.QIN54 : Fld := ⟨pgPWR + 0x200, 0, 64, 0⟩
def R.PWR.QCASS_OUT : Fld := ⟨pgPWR + 0x208, 0, 64, 0⟩
def R.PWR.QCASS_LOSS : Fld := ⟨pgPWR + 0x210, 0, 64, 0⟩
def R.PWR.QDOM_IN : Fld := ⟨pgPWR + 0x218, 0, 64, 0⟩
def R.PWR.QACC (c : Nat) : Fld := ⟨pgPWR + 0x220 + 0x8 * c, 0, 64, 0⟩
def R.PWR.QSTORE : Fld := ⟨pgPWR + 0x260, 0, 64, 0⟩
def R.PWR.QRESID : Fld := ⟨pgPWR + 0x268, 0, 64, 0⟩
def R.PWR.CASS_QIN (i : Nat) : Fld := ⟨pgPWR + 0x300 + 0x10 * i, 0, 64, 0⟩
def R.PWR.CASS_QOUT (i : Nat) : Fld := ⟨pgPWR + 0x308 + 0x10 * i, 0, 64, 0⟩
def R.PWR.CAP_EVENTS : Fld := ⟨pgPWR + 0x400, 0, 63, 0⟩
def R.PWR.SHEDS : Fld := ⟨pgPWR + 0x408, 0, 63, 0⟩
def R.PWR.PARKS : Fld := ⟨pgPWR + 0x410, 0, 63, 0⟩
def R.PWR.CASS_FAULTS : Fld := ⟨pgPWR + 0x418, 0, 63, 0⟩
def R.PWR.THERM_WARNS : Fld := ⟨pgPWR + 0x420, 0, 63, 0⟩
def R.PWR.RESID_FAILS : Fld := ⟨pgPWR + 0x428, 0, 63, 0⟩

/-! PDOM (spec/15_power.md). -/

def R.PDOM.CAPS.PHASES (d : Nat) : Fld := ⟨pgPDOM d + 0x8, 0, 4, 8⟩
def R.PDOM.CAPS.SPARE_PHASES (d : Nat) : Fld := ⟨pgPDOM d + 0x8, 4, 4, 1⟩
def R.PDOM.CAPS.SENSORS (d : Nat) : Fld := ⟨pgPDOM d + 0x8, 8, 5, 16⟩
def R.PDOM.CAPS.TSENSORS (d : Nat) : Fld := ⟨pgPDOM d + 0x8, 13, 3, 4⟩
def R.PDOM.CAPS.I_RATED_A (d : Nat) : Fld := ⟨pgPDOM d + 0x8, 16, 12, 440⟩
def R.PDOM.CAPS2.VMIN_MV (d : Nat) : Fld := ⟨pgPDOM d + 0xC, 0, 10, 600⟩
def R.PDOM.CAPS2.VMAX_MV (d : Nat) : Fld := ⟨pgPDOM d + 0xC, 10, 10, 850⟩
def R.PDOM.CAPS2.FIELD_ROW (d : Nat) : Fld := ⟨pgPDOM d + 0xC, 20, 3, d / 14⟩
def R.PDOM.CAPS2.FIELD_COL (d : Nat) : Fld := ⟨pgPDOM d + 0xC, 24, 4, d % 14⟩
def R.PDOM.STAT.STATE (d : Nat) : Fld := ⟨pgPDOM d + 0x80, 0, 3, 0⟩
def R.PDOM.STAT.PHASES_OK (d : Nat) : Fld := ⟨pgPDOM d + 0x80, 4, 4, 0⟩
def R.PDOM.STAT.SPARE_USED (d : Nat) : Fld := ⟨pgPDOM d + 0x80, 8, 1, 0⟩
def R.PDOM.STAT.CRACK (d : Nat) : Fld := ⟨pgPDOM d + 0x80, 9, 1, 0⟩
def R.PDOM.STAT.MARGIN (d : Nat) : Fld := ⟨pgPDOM d + 0x80, 10, 1, 0⟩
def R.PDOM.STAT.DROOP (d : Nat) : Fld := ⟨pgPDOM d + 0x80, 11, 1, 0⟩
def R.PDOM.VTARGET.FUSE_MV (d : Nat) : Fld := ⟨pgPDOM d + 0x84, 0, 10, 0⟩
def R.PDOM.VTARGET.OFFSET_MV (d : Nat) : Fld := ⟨pgPDOM d + 0x84, 16, 8, 0⟩
def R.PDOM.VOUT.OUT_MV (d : Nat) : Fld := ⟨pgPDOM d + 0x88, 0, 10, 0⟩
def R.PDOM.VOUT.MIN_MV (d : Nat) : Fld := ⟨pgPDOM d + 0x88, 10, 10, 0⟩
def R.PDOM.VOUT.MIN_IDX (d : Nat) : Fld := ⟨pgPDOM d + 0x88, 20, 4, 0⟩
def R.PDOM.VEFF (d : Nat) : Fld := ⟨pgPDOM d + 0x8C, 0, 10, 0⟩
def R.PDOM.SENSE.S0 (d : Nat) (j : Nat) : Fld := ⟨pgPDOM d + 0x90 + 0x4 * j, 0, 10, 0⟩
def R.PDOM.SENSE.S1 (d : Nat) (j : Nat) : Fld := ⟨pgPDOM d + 0x90 + 0x4 * j, 16, 10, 0⟩
def R.PDOM.SENSOR_EXCL (d : Nat) : Fld := ⟨pgPDOM d + 0xB0, 0, 16, 0⟩
def R.PDOM.I_AVG.AVG_DA (d : Nat) : Fld := ⟨pgPDOM d + 0xB4, 0, 16, 0⟩
def R.PDOM.I_AVG.PEAK_DA (d : Nat) : Fld := ⟨pgPDOM d + 0xB4, 16, 16, 0⟩
def R.PDOM.TEMP.MAX_C (d : Nat) : Fld := ⟨pgPDOM d + 0xB8, 0, 8, 0⟩
def R.PDOM.TEMP.IDX (d : Nat) : Fld := ⟨pgPDOM d + 0xB8, 8, 2, 0⟩
def R.PDOM.PATH (d : Nat) : Fld := ⟨pgPDOM d + 0xBC, 0, 16, 0⟩
def R.PDOM.CRACK_CFG.EXCESS_MV (d : Nat) : Fld := ⟨pgPDOM d + 0xC0, 0, 8, 12⟩
def R.PDOM.CRACK_CFG.WINDOWS (d : Nat) : Fld := ⟨pgPDOM d + 0xC0, 8, 8, 16⟩
def R.PDOM.CRACK_CFG.MIN_DA (d : Nat) : Fld := ⟨pgPDOM d + 0xC0, 16, 16, 500⟩
def R.PDOM.DROOP_CFG.DROOP_MV (d : Nat) : Fld := ⟨pgPDOM d + 0xC4, 0, 8, 40⟩
def R.PDOM.DROOP_CFG.TICKS (d : Nat) : Fld := ⟨pgPDOM d + 0xC4, 8, 8, 16⟩
def R.PDOM.QIN (d : Nat) : Fld := ⟨pgPDOM d + 0x100, 0, 64, 0⟩
def R.PDOM.QOUT_REF (d : Nat) : Fld := ⟨pgPDOM d + 0x108, 0, 64, 0⟩
def R.PDOM.PHASE_FAILS (d : Nat) : Fld := ⟨pgPDOM d + 0x200, 0, 63, 0⟩
def R.PDOM.DROOPS (d : Nat) : Fld := ⟨pgPDOM d + 0x208, 0, 63, 0⟩
def R.PDOM.CRACK_WINDOWS (d : Nat) : Fld := ⟨pgPDOM d + 0x210, 0, 63, 0⟩
def R.PDOM.SENSOR_EXCLS (d : Nat) : Fld := ⟨pgPDOM d + 0x218, 0, 63, 0⟩
def R.PDOM.MARGIN_TICKS (d : Nat) : Fld := ⟨pgPDOM d + 0x220, 0, 63, 0⟩

/-! FUSE (spec/16_bringup_and_reset.md). -/

def R.FUSE.CAPS.KEYS : Fld := ⟨pgFUSE + 0x8, 0, 2, 2⟩
def R.FUSE.CAPS.SVN_MAX : Fld := ⟨pgFUSE + 0x8, 8, 7, 64⟩
def R.FUSE.SERIAL : Fld := ⟨pgFUSE + 0x80, 0, 64, 0⟩
def R.FUSE.STEPPING.STEP : Fld := ⟨pgFUSE + 0x88, 0, 8, 0⟩
def R.FUSE.STEPPING.PROFILES : Fld := ⟨pgFUSE + 0x88, 8, 8, 0⟩
def R.FUSE.KEY_HASH0 (w : Nat) : Fld := ⟨pgFUSE + 0xC0 + 0x4 * w, 0, 32, 0⟩
def R.FUSE.KEY_HASH1 (w : Nat) : Fld := ⟨pgFUSE + 0xF0 + 0x4 * w, 0, 32, 0⟩
def R.FUSE.KEY_STAT.REVOKE0 : Fld := ⟨pgFUSE + 0x120, 0, 1, 0⟩
def R.FUSE.KEY_STAT.KEY_USED : Fld := ⟨pgFUSE + 0x120, 1, 1, 0⟩
def R.FUSE.SVN : Fld := ⟨pgFUSE + 0x124, 0, 7, 0⟩
def R.FUSE.CRC : Fld := ⟨pgFUSE + 0x128, 0, 32, 0⟩
def R.FUSE.CRC_STAT : Fld := ⟨pgFUSE + 0x12C, 0, 1, 0⟩

/-! CFG (spec/16_bringup_and_reset.md). -/

def R.CFG.CAPS.SLOTS : Fld := ⟨pgCFG + 0x8, 0, 2, 2⟩
def R.CFG.CAPS.NOR_MIB : Fld := ⟨pgCFG + 0x8, 4, 16, 0⟩
def R.CFG.BOOT_STAT.SLOT : Fld := ⟨pgCFG + 0x80, 0, 1, 0⟩
def R.CFG.BOOT_STAT.FALLBACK : Fld := ⟨pgCFG + 0x80, 1, 1, 0⟩
def R.CFG.BOOT_STAT.WARM : Fld := ⟨pgCFG + 0x80, 2, 1, 0⟩
def R.CFG.BOOT_STAT.STEP : Fld := ⟨pgCFG + 0x80, 4, 4, 0⟩
def R.CFG.SLOT_VER (i : Nat) : Fld := ⟨pgCFG + 0x84 + 0x4 * i, 0, 32, 0⟩
def R.CFG.SLOT_STAT.A_RESULT : Fld := ⟨pgCFG + 0x8C, 0, 4, 0⟩
def R.CFG.SLOT_STAT.B_RESULT : Fld := ⟨pgCFG + 0x8C, 4, 4, 0⟩
def R.CFG.BOOT_CTRL.PREFER : Fld := ⟨pgCFG + 0x90, 0, 1, 0⟩
def R.CFG.BOOT_CTRL.HOLD_FUSED : Fld := ⟨pgCFG + 0x90, 1, 1, 0⟩
def R.CFG.FW_READY : Fld := ⟨pgCFG + 0x94, 0, 1, 0⟩
def R.CFG.RESET_CTRL.OP : Fld := ⟨pgCFG + 0x98, 0, 2, 0⟩
def R.CFG.RESET_CTRL.GO : Fld := ⟨pgCFG + 0x98, 31, 1, 0⟩
def R.CFG.PART_CTRL.PART : Fld := ⟨pgCFG + 0x9C, 0, 3, 0⟩
def R.CFG.PART_CTRL.OP : Fld := ⟨pgCFG + 0x9C, 8, 2, 0⟩
def R.CFG.PART_CTRL.GO : Fld := ⟨pgCFG + 0x9C, 31, 1, 0⟩
/-- Field of partition `p` in CFG.QHOLD. -/
def R.CFG.QHOLD (p : Nat) : Fld := ⟨pgCFG + 0xA0, 4 * p, 4, 0⟩
def R.CFG.HOST_FREE : Fld := ⟨pgCFG + 0xA4, 0, 8, 0⟩
def R.CFG.REATTACH : Fld := ⟨pgCFG + 0xA8, 0, 16, 120⟩
def R.CFG.HOST_STAT.LOST : Fld := ⟨pgCFG + 0xAC, 0, 1, 0⟩
def R.CFG.HOST_STAT.REMAIN_S : Fld := ⟨pgCFG + 0xAC, 16, 16, 0⟩
def R.CFG.HOLD_AUTO : Fld := ⟨pgCFG + 0xB0, 0, 32, 1562500000⟩
def R.CFG.WDOG_CTRL.TIMEOUT_S : Fld := ⟨pgCFG + 0xB4, 0, 16, 30⟩
def R.CFG.WDOG_CTRL.KICK : Fld := ⟨pgCFG + 0xB4, 31, 1, 0⟩
def R.CFG.WDOG_STAT : Fld := ⟨pgCFG + 0xB8, 0, 16, 30⟩
def R.CFG.LINK_WAIT : Fld := ⟨pgCFG + 0xBC, 0, 16, 2500⟩
def R.CFG.PREL.SRC_PENDING : Fld := ⟨pgCFG + 0xC0, 0, 16, 0⟩
def R.CFG.PREL.DST_HELD : Fld := ⟨pgCFG + 0xC0, 16, 16, 0⟩
def R.CFG.PREL_CLEAR : Fld := ⟨pgCFG + 0xC4, 31, 1, 0⟩
def R.CFG.HOST_LOSSES : Fld := ⟨pgCFG + 0x100, 0, 63, 0⟩
def R.CFG.HOST_PARKS : Fld := ⟨pgCFG + 0x108, 0, 63, 0⟩
def R.CFG.AUTO_ROLLBACKS : Fld := ⟨pgCFG + 0x110, 0, 63, 0⟩
def R.CFG.MOVES_LOST : Fld := ⟨pgCFG + 0x118, 0, 63, 0⟩

/-! SPARE (spec/16_bringup_and_reset.md). -/

def R.SPARE.CAPS.ROWS : Fld := ⟨pgSPARE + 0x8, 0, 5, 24⟩
def R.SPARE.CAPS.PCOLS : Fld := ⟨pgSPARE + 0x8, 8, 6, 42⟩
def R.SPARE.CAPS.PER_ROW : Fld := ⟨pgSPARE + 0x8, 16, 2, 2⟩
def R.SPARE.CAPS.RECORDS : Fld := ⟨pgSPARE + 0x8, 20, 9, 256⟩
def R.SPARE.ROWMAP.F1 (r : Nat) : Fld := ⟨pgSPARE + 0x80 + 0x4 * r, 0, 6, 0⟩
def R.SPARE.ROWMAP.F1_VALID (r : Nat) : Fld := ⟨pgSPARE + 0x80 + 0x4 * r, 6, 1, 0⟩
def R.SPARE.ROWMAP.F1_FIELD (r : Nat) : Fld := ⟨pgSPARE + 0x80 + 0x4 * r, 7, 1, 0⟩
def R.SPARE.ROWMAP.F2 (r : Nat) : Fld := ⟨pgSPARE + 0x80 + 0x4 * r, 8, 6, 0⟩
def R.SPARE.ROWMAP.F2_VALID (r : Nat) : Fld := ⟨pgSPARE + 0x80 + 0x4 * r, 14, 1, 0⟩
def R.SPARE.ROWMAP.F2_FIELD (r : Nat) : Fld := ⟨pgSPARE + 0x80 + 0x4 * r, 15, 1, 0⟩
def R.SPARE.ROWMAP.RETIRED (r : Nat) : Fld := ⟨pgSPARE + 0x80 + 0x4 * r, 31, 1, 0⟩
def R.SPARE.SHIFT_CTRL.ROW : Fld := ⟨pgSPARE + 0xE0, 0, 5, 0⟩
def R.SPARE.SHIFT_CTRL.PCOL : Fld := ⟨pgSPARE + 0xE0, 8, 6, 0⟩
def R.SPARE.SHIFT_CTRL.GO : Fld := ⟨pgSPARE + 0xE0, 31, 1, 0⟩
def R.SPARE.SHIFT_STAT.BUSY : Fld := ⟨pgSPARE + 0xE4, 0, 1, 0⟩
def R.SPARE.SHIFT_STAT.STEP : Fld := ⟨pgSPARE + 0xE4, 1, 3, 0⟩
def R.SPARE.SHIFT_STAT.ROW : Fld := ⟨pgSPARE + 0xE4, 8, 5, 0⟩
def R.SPARE.SHIFT_STAT.RESULT : Fld := ⟨pgSPARE + 0xE4, 16, 16, 0⟩
def R.SPARE.RECORDS.USED : Fld := ⟨pgSPARE + 0xE8, 0, 9, 0⟩
def R.SPARE.RECORDS.BAD : Fld := ⟨pgSPARE + 0xE8, 16, 9, 0⟩
def R.SPARE.SHIFTS : Fld := ⟨pgSPARE + 0x100, 0, 63, 0⟩
def R.SPARE.SHIFT_REFUSALS : Fld := ⟨pgSPARE + 0x108, 0, 63, 0⟩
def R.SPARE.SHIFT_ABORTS : Fld := ⟨pgSPARE + 0x110, 0, 63, 0⟩

/-! MGMT (spec/17_management_and_service.md). -/

def R.MGMT.CAPS.MBOX_BYTES : Fld := ⟨pgMGMT + 0x8, 0, 8, 64⟩
def R.MGMT.CAPS.CTL_SLOTS : Fld := ⟨pgMGMT + 0x8, 8, 4, 8⟩
def R.MGMT.CAPS.CLASSES : Fld := ⟨pgMGMT + 0x8, 12, 4, 5⟩
def R.MGMT.ROLE.LEAD : Fld := ⟨pgMGMT + 0x80, 0, 1, 0⟩
def R.MGMT.ROLE.A_PRESENT : Fld := ⟨pgMGMT + 0x80, 1, 1, 0⟩
def R.MGMT.ROLE.B_PRESENT : Fld := ⟨pgMGMT + 0x80, 2, 1, 0⟩
def R.MGMT.ROLE.STANDBY_OK : Fld := ⟨pgMGMT + 0x80, 3, 1, 0⟩
def R.MGMT.ROLE.MIRROR_AGE_MS : Fld := ⟨pgMGMT + 0x80, 8, 8, 0⟩
def R.MGMT.HEARTBEAT : Fld := ⟨pgMGMT + 0x84, 0, 32, 0⟩
def R.MGMT.TAKEOVER_CTRL : Fld := ⟨pgMGMT + 0x88, 31, 1, 0⟩
def R.MGMT.PORT_STAT.LINK_A : Fld := ⟨pgMGMT + 0x8C, 0, 1, 0⟩
def R.MGMT.PORT_STAT.LINK_B : Fld := ⟨pgMGMT + 0x8C, 1, 1, 0⟩
def R.MGMT.PORT_ADDR (i : Nat) : Fld := ⟨pgMGMT + 0x90 + 0x4 * i, 0, 32, 0⟩
def R.MGMT.TELEM_CFG : Fld := ⟨pgMGMT + 0x98, 0, 16, 100⟩
def R.MGMT.TELEM_STAT.DECIM_LOG2 : Fld := ⟨pgMGMT + 0x9C, 0, 3, 0⟩
def R.MGMT.TELEM_STAT.DECIMATED : Fld := ⟨pgMGMT + 0x9C, 3, 1, 0⟩
def R.MGMT.LOAD.SHARE1 : Fld := ⟨pgMGMT + 0xA0, 0, 8, 0⟩
def R.MGMT.LOAD.SHARE2 : Fld := ⟨pgMGMT + 0xA0, 8, 8, 0⟩
def R.MGMT.LOAD.SHARE3 : Fld := ⟨pgMGMT + 0xA0, 16, 8, 0⟩
def R.MGMT.LOAD.SHARE4 : Fld := ⟨pgMGMT + 0xA0, 24, 8, 0⟩
def R.MGMT.ERRQ_STAT.DEPTH : Fld := ⟨pgMGMT + 0xA4, 0, 13, 0⟩
def R.MGMT.ERRQ_STAT.MERGING : Fld := ⟨pgMGMT + 0xA4, 13, 1, 0⟩
def R.MGMT.MBOX_CTRL.TYPE : Fld := ⟨pgMGMT + 0xC0, 0, 8, 0⟩
def R.MGMT.MBOX_CTRL.LEN : Fld := ⟨pgMGMT + 0xC0, 8, 8, 0⟩
def R.MGMT.MBOX_CTRL.GO : Fld := ⟨pgMGMT + 0xC0, 31, 1, 0⟩
def R.MGMT.MBOX_STAT.STATE : Fld := ⟨pgMGMT + 0xC4, 0, 2, 0⟩
def R.MGMT.MBOX_STAT.STATUS : Fld := ⟨pgMGMT + 0xC4, 4, 4, 0⟩
def R.MGMT.MBOX_STAT.RETRY_MS : Fld := ⟨pgMGMT + 0xC4, 16, 16, 0⟩
def R.MGMT.CTL_ADDR (i : Nat) : Fld := ⟨pgMGMT + 0xE0 + 0x4 * i, 0, 32, 0⟩
def R.MGMT.MBOX_REQ (i : Nat) : Fld := ⟨pgMGMT + 0x100 + 0x4 * i, 0, 32, 0⟩
def R.MGMT.MBOX_RESP (i : Nat) : Fld := ⟨pgMGMT + 0x140 + 0x4 * i, 0, 32, 0⟩
def R.MGMT.SERVICE.REPLACE : Fld := ⟨pgMGMT + 0x180, 0, 5, 0⟩
def R.MGMT.SERVICE.SWAP : Fld := ⟨pgMGMT + 0x180, 8, 4, 0⟩
def R.MGMT.TAKEOVERS : Fld := ⟨pgMGMT + 0x200, 0, 63, 0⟩
def R.MGMT.MBOX_BUSY : Fld := ⟨pgMGMT + 0x208, 0, 63, 0⟩
def R.MGMT.ICORD_BUSY : Fld := ⟨pgMGMT + 0x210, 0, 63, 0⟩
def R.MGMT.ICORD_DENIED : Fld := ⟨pgMGMT + 0x218, 0, 63, 0⟩
def R.MGMT.TELEM_SKIPPED : Fld := ⟨pgMGMT + 0x220, 0, 63, 0⟩
def R.MGMT.ERR_SENT : Fld := ⟨pgMGMT + 0x228, 0, 63, 0⟩
def R.MGMT.ERR_MERGED : Fld := ⟨pgMGMT + 0x230, 0, 63, 0⟩
def R.MGMT.ERRQ_LOG_ONLY : Fld := ⟨pgMGMT + 0x238, 0, 63, 0⟩

/-! LEDG (spec/17_management_and_service.md). -/

def R.LEDG.CAPS : Fld := ⟨pgLEDG + 0x8, 0, 9, 480⟩
def R.LEDG.STATE.CHARGE : Fld := ⟨pgLEDG + 0x80, 0, 2, 0⟩
def R.LEDG.STATE.LINK : Fld := ⟨pgLEDG + 0x80, 2, 2, 0⟩
def R.LEDG.STATE.TOKEN : Fld := ⟨pgLEDG + 0x80, 4, 2, 0⟩
def R.LEDG.STATE.MOVE : Fld := ⟨pgLEDG + 0x80, 6, 2, 0⟩
def R.LEDG.STATE.EVENT : Fld := ⟨pgLEDG + 0x80, 8, 2, 0⟩
def R.LEDG.ACK_OPEN.CHARGE : Fld := ⟨pgLEDG + 0x84, 0, 1, 0⟩
def R.LEDG.ACK_OPEN.TOKEN : Fld := ⟨pgLEDG + 0x84, 2, 1, 0⟩
def R.LEDG.ACK_OPEN.EVENT : Fld := ⟨pgLEDG + 0x84, 4, 1, 0⟩
def R.LEDG.SEAL_CTRL.PERIOD_S : Fld := ⟨pgLEDG + 0x88, 0, 16, 3600⟩
def R.LEDG.SEAL_CTRL.GO : Fld := ⟨pgLEDG + 0x88, 31, 1, 0⟩
def R.LEDG.SEAL_SEQ : Fld := ⟨pgLEDG + 0x8C, 0, 32, 0⟩
def R.LEDG.SEAL_TICK : Fld := ⟨pgLEDG + 0x90, 0, 64, 0⟩
def R.LEDG.LINK_SEL : Fld := ⟨pgLEDG + 0x98, 0, 6, 0⟩
def R.LEDG.LINK_LAST_PEER.NODE : Fld := ⟨pgLEDG + 0x9C, 0, 16, 0⟩
def R.LEDG.LINK_LAST_PEER.LINK : Fld := ⟨pgLEDG + 0x9C, 16, 6, 0⟩
def R.LEDG.LINK_LAST_PEER.VALID : Fld := ⟨pgLEDG + 0x9C, 31, 1, 0⟩
def R.LEDG.LINK_LAST_TX : Fld := ⟨pgLEDG + 0xA0, 0, 64, 0⟩
def R.LEDG.LINK_LAST_RX : Fld := ⟨pgLEDG + 0xA8, 0, 64, 0⟩
def R.LEDG.LINK_LOST : Fld := ⟨pgLEDG + 0xB0, 0, 64, 0⟩
def R.LEDG.TOK_SENT : Fld := ⟨pgLEDG + 0xB8, 0, 63, 0⟩
def R.LEDG.TOK_RECV : Fld := ⟨pgLEDG + 0xC0, 0, 63, 0⟩
def R.LEDG.TOK_RET : Fld := ⟨pgLEDG + 0xC8, 0, 63, 0⟩
def R.LEDG.TOK_BOUNCED : Fld := ⟨pgLEDG + 0xD0, 0, 63, 0⟩
def R.LEDG.EVT_CLASS (c : Nat) : Fld := ⟨pgLEDG + 0xD8 + 0x8 * c, 0, 63, 0⟩
def R.LEDG.EVT (i : Nat) : Fld := ⟨pgLEDG + 0x100 + 0x8 * i, 0, 63, 0⟩

/-! TAG (spec/17_management_and_service.md). -/

def R.TAG.CAPS.BYTES : Fld := ⟨pgTAG + 0x8, 0, 16, 8192⟩
def R.TAG.CAPS.RECORD : Fld := ⟨pgTAG + 0x8, 16, 8, 32⟩
def R.TAG.STAT.RF_FIELD : Fld := ⟨pgTAG + 0x80, 0, 1, 0⟩
def R.TAG.STAT.RF_SESSION : Fld := ⟨pgTAG + 0x80, 1, 1, 0⟩
def R.TAG.STAT.RF_HELD : Fld := ⟨pgTAG + 0x80, 2, 1, 0⟩
def R.TAG.STAT.DEFER_MS : Fld := ⟨pgTAG + 0x80, 4, 12, 0⟩
def R.TAG.STAT.QUEUE : Fld := ⟨pgTAG + 0x80, 16, 8, 0⟩
def R.TAG.RD_ADDR.BYTE : Fld := ⟨pgTAG + 0x84, 0, 13, 0⟩
def R.TAG.RD_ADDR.GO : Fld := ⟨pgTAG + 0x84, 31, 1, 0⟩
def R.TAG.LAST_SEQ : Fld := ⟨pgTAG + 0x88, 0, 32, 0⟩
def R.TAG.RD_DATA (j : Nat) : Fld := ⟨pgTAG + 0xA0 + 0x4 * j, 0, 32, 0⟩
def R.TAG.WR_DATA (j : Nat) : Fld := ⟨pgTAG + 0xC0 + 0x4 * j, 0, 32, 0⟩
def R.TAG.WR_CTRL.AREA : Fld := ⟨pgTAG + 0xE0, 0, 2, 0⟩
def R.TAG.WR_CTRL.GO : Fld := ⟨pgTAG + 0xE0, 31, 1, 0⟩
def R.TAG.COMMITS : Fld := ⟨pgTAG + 0x100, 0, 63, 0⟩
def R.TAG.DEFERS : Fld := ⟨pgTAG + 0x108, 0, 63, 0⟩
def R.TAG.RF_HOLDS : Fld := ⟨pgTAG + 0x110, 0, 63, 0⟩
def R.TAG.RF_REFUSED : Fld := ⟨pgTAG + 0x118, 0, 63, 0⟩
def R.TAG.CRC_BAD : Fld := ⟨pgTAG + 0x120, 0, 63, 0⟩
def R.TAG.VERIFY_FAILS : Fld := ⟨pgTAG + 0x128, 0, 63, 0⟩

/-! HOST (spec/18_host_interface.md). -/

def R.HOST.CAPS.PORTS : Fld := ⟨pgHOST + 0x8, 0, 2, 2⟩
def R.HOST.CAPS.LANES : Fld := ⟨pgHOST + 0x8, 4, 5, 16⟩
def R.HOST.CAPS.GEN : Fld := ⟨pgHOST + 0x8, 12, 4, 6⟩
def R.HOST.CAPS.VFS : Fld := ⟨pgHOST + 0x8, 16, 4, 8⟩
def R.HOST.CAPS.VECTORS : Fld := ⟨pgHOST + 0x8, 24, 8, 128⟩
def R.HOST.CAPS2.VENDOR : Fld := ⟨pgHOST + 0xC, 0, 16, 8030⟩
def R.HOST.CAPS2.DEVICE : Fld := ⟨pgHOST + 0xC, 16, 16, 2400⟩
def R.HOST.PORT_STAT.LINK_UP (i : Nat) : Fld := ⟨pgHOST + 0x80 + 0x4 * i, 0, 1, 0⟩
def R.HOST.PORT_STAT.WIDTH (i : Nat) : Fld := ⟨pgHOST + 0x80 + 0x4 * i, 1, 5, 0⟩
def R.HOST.PORT_STAT.RATE (i : Nat) : Fld := ⟨pgHOST + 0x80 + 0x4 * i, 6, 3, 0⟩
def R.HOST.PORT_STAT.ATTACHED (i : Nat) : Fld := ⟨pgHOST + 0x80 + 0x4 * i, 9, 1, 0⟩
def R.HOST.PORT_STAT.VF_EN (i : Nat) : Fld := ⟨pgHOST + 0x80 + 0x4 * i, 10, 1, 0⟩
def R.HOST.PORT_STAT.REACH (i : Nat) : Fld := ⟨pgHOST + 0x80 + 0x4 * i, 16, 8, 0⟩
def R.HOST.PART_PORT : Fld := ⟨pgHOST + 0x88, 0, 8, 170⟩
/-- Field of partition `p` in HOST.PART_SERVE. -/
def R.HOST.PART_SERVE (p : Nat) : Fld := ⟨pgHOST + 0x8C, 2 * p, 2, 0⟩
def R.HOST.TX_BYTES_A : Fld := ⟨pgHOST + 0x100, 0, 63, 0⟩
def R.HOST.TX_BYTES_B : Fld := ⟨pgHOST + 0x108, 0, 63, 0⟩
def R.HOST.RX_BYTES_A : Fld := ⟨pgHOST + 0x110, 0, 63, 0⟩
def R.HOST.RX_BYTES_B : Fld := ⟨pgHOST + 0x118, 0, 63, 0⟩
def R.HOST.FAILOVERS : Fld := ⟨pgHOST + 0x120, 0, 63, 0⟩
def R.HOST.RESENT : Fld := ⟨pgHOST + 0x128, 0, 63, 0⟩
def R.HOST.LINK_ENDS : Fld := ⟨pgHOST + 0x130, 0, 63, 0⟩
def R.HOST.CLAIMS : Fld := ⟨pgHOST + 0x138, 0, 63, 0⟩
def R.HOST.CORR_ERRS : Fld := ⟨pgHOST + 0x140, 0, 63, 0⟩
def R.HOST.VF_DENIALS : Fld := ⟨pgHOST + 0x148, 0, 63, 0⟩

/-! MOD (spec/02_register_conventions.md). -/

/-- Nibble of resource `i` in SILL_ASSIGN (R63). -/
def R.MOD.SILL_ASSIGN (i : Nat) : Fld := ⟨pgMOD + 0x100 + 4 * (i / 8), 4 * (i % 8), 4, 0xF⟩
/-- Nibble of resource `i` in STACK_ASSIGN (R63). -/
def R.MOD.STACK_ASSIGN (i : Nat) : Fld := ⟨pgMOD + 0x108 + 4 * (i / 8), 4 * (i % 8), 4, 0xF⟩
/-- Nibble of resource `i` in LINK_ASSIGN (R63). -/
def R.MOD.LINK_ASSIGN (i : Nat) : Fld := ⟨pgMOD + 0x118 + 4 * (i / 8), 4 * (i % 8), 4, 0xF⟩
/-- Nibble of resource `i` in CQ_ASSIGN (R63). -/
def R.MOD.CQ_ASSIGN (i : Nat) : Fld := ⟨pgMOD + 0x130 + 4 * (i / 8), 4 * (i % 8), 4, 0xF⟩
/-- Nibble of resource `i` in QUOTA_ASSIGN (R63). -/
def R.MOD.QUOTA_ASSIGN (i : Nat) : Fld := ⟨pgMOD + 0x150 + 4 * (i / 8), 4 * (i % 8), 4, 0xF⟩
/-- Nibble of resource `i` in COLL_ASSIGN (R63). -/
def R.MOD.COLL_ASSIGN (i : Nat) : Fld := ⟨pgMOD + 0x170 + 4 * (i / 8), 4 * (i % 8), 4, 0xF⟩

/-! PG (spec/02_register_conventions.md). -/

def R.PG.IRQ_MASK (pg : Nat) : Fld := ⟨pg + 0x1C, 0, 32, 4294967295⟩
def R.PG.SNAP (pg : Nat) (i : Nat) : Fld := ⟨pg + 0x40 + 0x4 * i, 0, 32, 0⟩

/-! The same fields as tables, by page, for accesses by address. -/

def tabPG (pg : Nat) : List RegRow :=
  [⟨0x0, 1, 0x0, 1, 0x0, false, [⟨16, 16, .RO, 0⟩, ⟨0, 16, .RO, 0⟩]⟩,
   ⟨0x4, 1, 0x0, 1, 0x0, false, [⟨24, 8, .RO, 0⟩, ⟨16, 8, .RO, 0⟩, ⟨0, 8, .RO, 0⟩]⟩,
   ⟨0x10, 1, 0x0, 1, 0x0, false, [⟨0, 1, .RW, (enReset pg)⟩, ⟨1, 1, .TG, 0⟩, ⟨2, 1, .RW, 1⟩, ⟨3, 1, .RW, 0⟩]⟩,
   ⟨0x14, 1, 0x0, 1, 0x0, false, [⟨0, 1, .RO, 1⟩, ⟨1, 1, .RO, 0⟩, ⟨2, 1, .RO, 0⟩, ⟨3, 1, .RO, 0⟩, ⟨4, 1, .RO, 0⟩, ⟨5, 1, .RO, 0⟩, ⟨6, 1, .RO, 0⟩, ⟨8, 4, .RO, 15⟩]⟩,
   ⟨0x18, 1, 0x0, 1, 0x0, false, [⟨0, 1, .HS, 0⟩, ⟨1, 1, .HS, 0⟩, ⟨2, 30, .HS, 0⟩]⟩,
   ⟨0x20, 1, 0x0, 1, 0x0, false, [⟨31, 1, .HS, 0⟩, ⟨30, 1, .HS, 0⟩, ⟨16, 8, .RO, 0⟩, ⟨0, 16, .RO, 0⟩]⟩,
   ⟨0x24, 1, 0x0, 1, 0x0, false, [⟨0, 32, .RO, 0⟩]⟩,
   ⟨0x28, 1, 0x0, 1, 0x0, false, [⟨0, 32, .RO, 0⟩]⟩,
   ⟨0x2C, 1, 0x0, 1, 0x0, false, [⟨0, 32, .RO, 0⟩]⟩,
   ⟨0x1C, 1, 0x0, 1, 0x0, false, [⟨0, 32, .RW, 4294967295⟩]⟩,
   ⟨0x40, 16, 0x4, 1, 0x0, false, [⟨0, 32, .RO, 0⟩]⟩]

def tabMOD_0 : List RegRow :=
  [⟨0x80, 1, 0x0, 1, 0x0, false, [⟨0, 6, .RO, 0⟩, ⟨8, 6, .RO, 0⟩, ⟨16, 3, .RO, 0⟩, ⟨24, 1, .RO, 0⟩]⟩,
   ⟨0x84, 1, 0x0, 1, 0x0, false, [⟨0, 4, .RO, 1⟩]⟩,
   ⟨0x88, 1, 0x0, 1, 0x0, false, [⟨0, 4, .RO, 0⟩, ⟨4, 4, .RO, 0⟩, ⟨8, 4, .RO, 0⟩, ⟨12, 4, .RO, 0⟩, ⟨16, 4, .RO, 0⟩, ⟨20, 4, .RO, 0⟩, ⟨24, 4, .RO, 0⟩, ⟨28, 4, .RO, 0⟩]⟩,
   ⟨0x8C, 1, 0x0, 1, 0x0, false, [⟨0, 4, .RO, 0⟩, ⟨4, 1, .RO, 1⟩, ⟨5, 1, .RO, 0⟩, ⟨6, 1, .RO, 0⟩, ⟨7, 1, .RO, 0⟩, ⟨8, 1, .RO, 0⟩, ⟨9, 1, .RO, 0⟩]⟩,
   ⟨0x90, 1, 0x0, 1, 0x0, false, [⟨0, 24, .RO, 0⟩]⟩,
   ⟨0x94, 1, 0x0, 1, 0x0, false, [⟨0, 12, .RO, 0⟩]⟩,
   ⟨0x98, 1, 0x0, 1, 0x0, false, [⟨31, 1, .HS, 0⟩, ⟨28, 2, .RO, 0⟩, ⟨0, 26, .RO, 0⟩]⟩,
   ⟨0xA0, 1, 0x0, 1, 0x0, false, [⟨0, 8, .RW, 0⟩, ⟨8, 1, .RW, 0⟩, ⟨12, 2, .RW, 0⟩, ⟨15, 1, .TG, 0⟩]⟩,
   ⟨0xA8, 1, 0x0, 1, 0x0, true, [⟨0, 64, .RW, 0⟩]⟩,
   ⟨0xB0, 1, 0x0, 1, 0x0, false, [⟨0, 32, .RW, 156250⟩]⟩,
   ⟨0xB4, 1, 0x0, 1, 0x0, false, [⟨0, 1, .RO, 0⟩, ⟨1, 1, .RO, 0⟩, ⟨2, 2, .RO, 0⟩, ⟨4, 12, .RO, 0⟩]⟩,
   ⟨0xB8, 1, 0x0, 1, 0x0, false, [⟨0, 32, .RO, 0⟩]⟩,
   ⟨0xBC, 1, 0x0, 1, 0x0, false, [⟨0, 32, .RO, 0⟩]⟩,
   ⟨0xC0, 8, 0x4, 1, 0x0, false, [⟨0, 5, .ST, 0⟩, ⟨8, 5, .ST, 0⟩, ⟨15, 1, .ST, 0⟩]⟩,
   ⟨0x180, 8, 0x4, 1, 0x0, false, [⟨0, 12, .ST, 0⟩, ⟨16, 13, .ST, 0⟩]⟩,
   ⟨0x1A0, 8, 0x4, 1, 0x0, false, [⟨0, 8, .ST, 0⟩, ⟨16, 9, .ST, 0⟩]⟩,
   ⟨0x200, 8, 0x40, 1, 0x0, false, [⟨0, 12, .RW, 0⟩, ⟨16, 12, .RW, 0⟩, ⟨28, 2, .RW, 0⟩]⟩,
   ⟨0x204, 8, 0x40, 1, 0x0, false, [⟨0, 1, .TG, 0⟩, ⟨1, 1, .TG, 0⟩, ⟨8, 6, .RW, 0⟩]⟩,
   ⟨0x208, 8, 0x40, 1, 0x0, false, [⟨0, 1, .RO, 0⟩, ⟨1, 1, .RO, 0⟩, ⟨2, 1, .RO, 0⟩, ⟨3, 1, .RO, 0⟩, ⟨4, 1, .HS, 0⟩]⟩,
   ⟨0x20C, 8, 0x40, 1, 0x0, false, [⟨0, 32, .RW, 1562500⟩]⟩,
   ⟨0x210, 8, 0x40, 1, 0x0, true, [⟨0, 48, .RO, 0⟩]⟩,
   ⟨0x218, 8, 0x40, 1, 0x0, true, [⟨0, 64, .RO, 0⟩]⟩,
   ⟨0x220, 8, 0x40, 1, 0x0, true, [⟨0, 63, .RO, 0⟩]⟩,
   ⟨0x228, 8, 0x40, 1, 0x0, true, [⟨0, 63, .RO, 0⟩]⟩,
   ⟨0x230, 8, 0x40, 1, 0x0, true, [⟨0, 48, .RO, 0⟩]⟩,
   ⟨0x238, 8, 0x40, 1, 0x0, true, [⟨0, 64, .RO, 0⟩]⟩,
   ⟨0x400, 8, 0x40, 1, 0x0, true, [⟨0, 63, .CT, 0⟩, ⟨63, 1, .CT, 0⟩]⟩,
   ⟨0x408, 8, 0x40, 1, 0x0, true, [⟨0, 63, .CT, 0⟩, ⟨63, 1, .CT, 0⟩]⟩,
   ⟨0x410, 8, 0x40, 1, 0x0, true, [⟨0, 63, .CT, 0⟩, ⟨63, 1, .CT, 0⟩]⟩,
   ⟨0x418, 8, 0x40, 1, 0x0, true, [⟨0, 63, .CT, 0⟩, ⟨63, 1, .CT, 0⟩]⟩]

def tabMOD_1 : List RegRow :=
  [⟨0x420, 8, 0x40, 1, 0x0, true, [⟨0, 63, .CT, 0⟩, ⟨63, 1, .CT, 0⟩]⟩,
   ⟨0x800, 8, 0x100, 63, 0x4, false, [⟨0, 16, .RW, 0⟩, ⟨16, 3, .RW, 0⟩, ⟨31, 1, .RW, 0⟩]⟩,
   ⟨0x600, 1, 0x0, 1, 0x0, false, [⟨0, 16, .RO, 0⟩, ⟨31, 1, .RO, 0⟩]⟩,
   ⟨0x604, 1, 0x0, 1, 0x0, false, [⟨0, 32, .RO, 0⟩]⟩,
   ⟨0x608, 1, 0x0, 1, 0x0, false, [⟨0, 32, .LK, 0⟩]⟩,
   ⟨0x60C, 1, 0x0, 1, 0x0, false, [⟨0, 16, .RW, 0⟩]⟩,
   ⟨0x610, 1, 0x0, 1, 0x0, false, [⟨0, 16, .RW, 0⟩, ⟨16, 1, .RW, 0⟩, ⟨30, 1, .TG, 0⟩, ⟨31, 1, .TG, 0⟩]⟩,
   ⟨0x614, 1, 0x0, 1, 0x0, false, [⟨0, 3, .RO, 0⟩, ⟨4, 3, .RO, 0⟩]⟩,
   ⟨0x618, 1, 0x0, 1, 0x0, false, [⟨0, 16, .RW, 0⟩, ⟨16, 2, .RW, 0⟩, ⟨31, 1, .TG, 0⟩]⟩,
   ⟨0x620, 1, 0x0, 1, 0x0, true, [⟨0, 64, .RW, 0⟩]⟩,
   ⟨0x630, 4, 0x4, 1, 0x0, false, [⟨0, 16, .RW, 0⟩, ⟨31, 1, .RW, 0⟩]⟩,
   ⟨0x640, 1, 0x0, 1, 0x0, false, [⟨0, 2, .RW, 0⟩, ⟨8, 5, .RW, 16⟩, ⟨16, 2, .RW, 0⟩, ⟨31, 1, .TG, 0⟩]⟩,
   ⟨0x648, 1, 0x0, 1, 0x0, true, [⟨0, 64, .RW, 0⟩]⟩,
   ⟨0x650, 1, 0x0, 1, 0x0, false, [⟨0, 32, .RW, 15625⟩]⟩,
   ⟨0x680, 1, 0x0, 1, 0x0, true, [⟨0, 63, .CT, 0⟩, ⟨63, 1, .CT, 0⟩]⟩,
   ⟨0x688, 1, 0x0, 1, 0x0, true, [⟨0, 63, .CT, 0⟩, ⟨63, 1, .CT, 0⟩]⟩,
   ⟨0x690, 1, 0x0, 1, 0x0, true, [⟨0, 63, .CT, 0⟩, ⟨63, 1, .CT, 0⟩]⟩,
   ⟨0x698, 1, 0x0, 1, 0x0, true, [⟨0, 63, .CT, 0⟩, ⟨63, 1, .CT, 0⟩]⟩,
   ⟨0x6A0, 1, 0x0, 1, 0x0, true, [⟨0, 63, .CT, 0⟩, ⟨63, 1, .CT, 0⟩]⟩,
   ⟨0x6A8, 1, 0x0, 1, 0x0, true, [⟨0, 63, .CT, 0⟩, ⟨63, 1, .CT, 0⟩]⟩,
   ⟨0x6B0, 1, 0x0, 1, 0x0, true, [⟨0, 63, .CT, 0⟩, ⟨63, 1, .CT, 0⟩]⟩,
   ⟨0x6B8, 1, 0x0, 1, 0x0, true, [⟨0, 63, .CT, 0⟩, ⟨63, 1, .CT, 0⟩]⟩,
   ⟨0x100, 2, 0x4, 1, 0x0, false, [⟨0, 4, .ST, 15⟩, ⟨4, 4, .ST, 15⟩, ⟨8, 4, .ST, 15⟩, ⟨12, 4, .ST, 15⟩, ⟨16, 4, .ST, 15⟩, ⟨20, 4, .ST, 15⟩, ⟨24, 4, .ST, 15⟩, ⟨28, 4, .ST, 15⟩]⟩,
   ⟨0x108, 4, 0x4, 1, 0x0, false, [⟨0, 4, .ST, 15⟩, ⟨4, 4, .ST, 15⟩, ⟨8, 4, .ST, 15⟩, ⟨12, 4, .ST, 15⟩, ⟨16, 4, .ST, 15⟩, ⟨20, 4, .ST, 15⟩, ⟨24, 4, .ST, 15⟩, ⟨28, 4, .ST, 15⟩]⟩,
   ⟨0x118, 6, 0x4, 1, 0x0, false, [⟨0, 4, .ST, 15⟩, ⟨4, 4, .ST, 15⟩, ⟨8, 4, .ST, 15⟩, ⟨12, 4, .ST, 15⟩, ⟨16, 4, .ST, 15⟩, ⟨20, 4, .ST, 15⟩, ⟨24, 4, .ST, 15⟩, ⟨28, 4, .ST, 15⟩]⟩,
   ⟨0x130, 8, 0x4, 1, 0x0, false, [⟨0, 4, .ST, 15⟩, ⟨4, 4, .ST, 15⟩, ⟨8, 4, .ST, 15⟩, ⟨12, 4, .ST, 15⟩, ⟨16, 4, .ST, 15⟩, ⟨20, 4, .ST, 15⟩, ⟨24, 4, .ST, 15⟩, ⟨28, 4, .ST, 15⟩]⟩,
   ⟨0x150, 8, 0x4, 1, 0x0, false, [⟨0, 4, .ST, 15⟩, ⟨4, 4, .ST, 15⟩, ⟨8, 4, .ST, 15⟩, ⟨12, 4, .ST, 15⟩, ⟨16, 4, .ST, 15⟩, ⟨20, 4, .ST, 15⟩, ⟨24, 4, .ST, 15⟩, ⟨28, 4, .ST, 15⟩]⟩,
   ⟨0x170, 2, 0x4, 1, 0x0, false, [⟨0, 4, .ST, 15⟩, ⟨4, 4, .ST, 15⟩, ⟨8, 4, .ST, 15⟩, ⟨12, 4, .ST, 15⟩, ⟨16, 4, .ST, 15⟩, ⟨20, 4, .ST, 15⟩, ⟨24, 4, .ST, 15⟩, ⟨28, 4, .ST, 15⟩]⟩]

def tabMOD : List RegRow := tabMOD_0 ++ tabMOD_1

def tabCLK : List RegRow :=
  [⟨0x8, 1, 0x0, 1, 0x0, false, [⟨0, 8, .RO, 100⟩, ⟨8, 16, .RO, 5000⟩, ⟨24, 5, .RO, 2⟩]⟩,
   ⟨0x80, 1, 0x0, 1, 0x0, false, [⟨0, 1, .RO, 0⟩, ⟨1, 1, .RO, 0⟩, ⟨2, 1, .RO, 0⟩, ⟨16, 16, .RO, 0⟩]⟩,
   ⟨0x84, 1, 0x0, 1, 0x0, false, [⟨0, 32, .RW, 0⟩]⟩,
   ⟨0xA0, 8, 0x4, 1, 0x0, false, [⟨0, 5, .ST, 16⟩]⟩,
   ⟨0xC0, 2, 0x4, 1, 0x0, false, [⟨0, 5, .RO, 0⟩, ⟨8, 5, .RO, 0⟩, ⟨16, 5, .RO, 0⟩, ⟨24, 5, .RO, 0⟩]⟩,
   ⟨0xD0, 1, 0x0, 1, 0x0, false, [⟨0, 5, .RW, 16⟩, ⟨8, 2, .RW, 0⟩, ⟨15, 1, .TG, 0⟩]⟩,
   ⟨0xD8, 1, 0x0, 1, 0x0, true, [⟨0, 64, .RW, 0⟩]⟩,
   ⟨0xE0, 1, 0x0, 1, 0x0, false, [⟨0, 1, .RO, 0⟩, ⟨1, 1, .RO, 0⟩, ⟨2, 1, .HS, 0⟩, ⟨4, 2, .RO, 0⟩, ⟨16, 16, .RO, 0⟩]⟩,
   ⟨0xE8, 1, 0x0, 1, 0x0, true, [⟨0, 63, .CT, 0⟩, ⟨63, 1, .CT, 0⟩]⟩,
   ⟨0xF0, 1, 0x0, 1, 0x0, true, [⟨0, 63, .CT, 0⟩, ⟨63, 1, .CT, 0⟩]⟩]

def tabTB : List RegRow :=
  [⟨0x8, 1, 0x0, 1, 0x0, false, [⟨0, 16, .RO, 6400⟩, ⟨16, 2, .RO, 2⟩]⟩,
   ⟨0x80, 1, 0x0, 1, 0x0, true, [⟨0, 64, .RO, 0⟩]⟩,
   ⟨0x88, 1, 0x0, 1, 0x0, false, [⟨0, 1, .RO, 0⟩, ⟨1, 1, .RO, 0⟩, ⟨2, 1, .RO, 0⟩, ⟨3, 1, .RO, 0⟩]⟩,
   ⟨0x8C, 1, 0x0, 1, 0x0, false, [⟨0, 7, .RW, 0⟩, ⟨8, 1, .RW, 0⟩, ⟨10, 2, .RW, 3⟩, ⟨16, 8, .RW, 16⟩]⟩,
   ⟨0x90, 1, 0x0, 1, 0x0, false, [⟨0, 32, .RO, 0⟩]⟩,
   ⟨0x94, 1, 0x0, 1, 0x0, false, [⟨0, 32, .RO, 0⟩]⟩,
   ⟨0x98, 1, 0x0, 1, 0x0, true, [⟨0, 64, .RO, 0⟩]⟩,
   ⟨0xA0, 1, 0x0, 1, 0x0, true, [⟨0, 64, .RW, 0⟩]⟩,
   ⟨0xA8, 1, 0x0, 1, 0x0, false, [⟨0, 1, .TG, 0⟩]⟩,
   ⟨0xC0, 1, 0x0, 1, 0x0, false, [⟨0, 1, .TG, 0⟩, ⟨1, 1, .TG, 0⟩, ⟨4, 1, .RW, 0⟩, ⟨8, 1, .RW, 0⟩, ⟨9, 1, .RW, 0⟩, ⟨10, 1, .RW, 0⟩, ⟨11, 1, .RW, 0⟩]⟩,
   ⟨0xC4, 1, 0x0, 1, 0x0, false, [⟨0, 1, .RO, 1⟩, ⟨1, 1, .HS, 0⟩, ⟨2, 1, .RO, 0⟩, ⟨3, 1, .RO, 0⟩, ⟨8, 5, .RO, 0⟩]⟩,
   ⟨0xC8, 1, 0x0, 1, 0x0, true, [⟨0, 64, .RW, 0⟩]⟩,
   ⟨0xD0, 1, 0x0, 1, 0x0, true, [⟨0, 64, .RO, 0⟩]⟩,
   ⟨0xD8, 1, 0x0, 1, 0x0, true, [⟨0, 64, .RO, 0⟩]⟩,
   ⟨0xE0, 1, 0x0, 1, 0x0, true, [⟨0, 64, .RO, 0⟩]⟩,
   ⟨0xE8, 1, 0x0, 1, 0x0, true, [⟨0, 63, .CT, 0⟩, ⟨63, 1, .CT, 0⟩]⟩]

def tabTILE_0 (t : Nat) : List RegRow :=
  [⟨0x8, 1, 0x0, 1, 0x0, false, [⟨0, 20, .RO, 40960⟩, ⟨20, 8, .RO, 96⟩]⟩,
   ⟨0xC, 1, 0x0, 1, 0x0, false, [⟨0, 10, .RO, 512⟩, ⟨10, 10, .RO, 256⟩, ⟨20, 5, .RO, 16⟩, ⟨25, 3, .RO, 4⟩, ⟨28, 4, .RO, 8⟩]⟩,
   ⟨0x80, 1, 0x0, 1, 0x0, false, [⟨0, 6, .RO, 0⟩, ⟨8, 5, .RO, (t / 40)⟩, ⟨16, 6, .RO, (t % 40)⟩, ⟨24, 7, .RO, 0⟩, ⟨31, 1, .RO, 0⟩]⟩,
   ⟨0x84, 1, 0x0, 1, 0x0, false, [⟨0, 1, .ST, 0⟩, ⟨8, 8, .RW, 64⟩]⟩,
   ⟨0x88, 1, 0x0, 1, 0x0, false, [⟨0, 20, .RW, 0⟩]⟩,
   ⟨0x8C, 1, 0x0, 1, 0x0, false, [⟨0, 20, .RW, 0⟩, ⟨31, 1, .TG, 0⟩]⟩,
   ⟨0x90, 1, 0x0, 1, 0x0, false, [⟨0, 1, .HS, 0⟩, ⟨1, 1, .HS, 0⟩, ⟨2, 1, .RO, 0⟩]⟩,
   ⟨0x94, 1, 0x0, 1, 0x0, false, [⟨0, 24, .RO, 0⟩]⟩,
   ⟨0x98, 1, 0x0, 1, 0x0, false, [⟨0, 24, .RO, 0⟩]⟩,
   ⟨0x9C, 1, 0x0, 1, 0x0, false, [⟨0, 4, .RO, 0⟩, ⟨4, 1, .RO, 0⟩, ⟨31, 1, .TG, 0⟩]⟩,
   ⟨0xA0, 1, 0x0, 1, 0x0, false, [⟨0, 1, .RO, 0⟩, ⟨1, 3, .RO, 0⟩, ⟨4, 2, .RO, 0⟩, ⟨6, 2, .RO, 0⟩, ⟨16, 16, .RO, 0⟩]⟩,
   ⟨0x100, 16, 0x10, 1, 0x0, false, [⟨0, 24, .RW, 0⟩]⟩,
   ⟨0x104, 16, 0x10, 1, 0x0, false, [⟨0, 24, .RW, 0⟩]⟩,
   ⟨0x108, 16, 0x10, 1, 0x0, false, [⟨0, 2, .RO, 0⟩, ⟨2, 1, .TG, 0⟩, ⟨3, 1, .TG, 0⟩, ⟨4, 1, .TG, 0⟩, ⟨5, 2, .RW, 0⟩, ⟨8, 2, .RW, 0⟩, ⟨16, 10, .RW, 0⟩]⟩,
   ⟨0x10C, 16, 0x10, 1, 0x0, false, [⟨0, 12, .RW, 0⟩, ⟨15, 1, .RW, 0⟩, ⟨16, 16, .RO, 0⟩]⟩,
   ⟨0x200, 4, 0x8, 1, 0x0, false, [⟨0, 10, .RO, 0⟩, ⟨10, 8, .RO, 0⟩, ⟨18, 7, .RO, 0⟩, ⟨25, 2, .RO, 0⟩, ⟨31, 1, .RO, 0⟩]⟩,
   ⟨0x204, 4, 0x8, 1, 0x0, false, [⟨0, 32, .RO, 0⟩]⟩,
   ⟨0x300, 1, 0x0, 1, 0x0, true, [⟨0, 63, .CT, 0⟩, ⟨63, 1, .CT, 0⟩]⟩,
   ⟨0x308, 1, 0x0, 1, 0x0, true, [⟨0, 63, .CT, 0⟩, ⟨63, 1, .CT, 0⟩]⟩,
   ⟨0x310, 1, 0x0, 1, 0x0, true, [⟨0, 63, .CT, 0⟩, ⟨63, 1, .CT, 0⟩]⟩,
   ⟨0x318, 1, 0x0, 1, 0x0, true, [⟨0, 63, .CT, 0⟩, ⟨63, 1, .CT, 0⟩]⟩,
   ⟨0x320, 1, 0x0, 1, 0x0, true, [⟨0, 63, .CT, 0⟩, ⟨63, 1, .CT, 0⟩]⟩,
   ⟨0x328, 1, 0x0, 1, 0x0, true, [⟨0, 63, .CT, 0⟩, ⟨63, 1, .CT, 0⟩]⟩,
   ⟨0x330, 1, 0x0, 1, 0x0, true, [⟨0, 63, .CT, 0⟩, ⟨63, 1, .CT, 0⟩]⟩,
   ⟨0x338, 1, 0x0, 1, 0x0, true, [⟨0, 63, .CT, 0⟩, ⟨63, 1, .CT, 0⟩]⟩,
   ⟨0x400, 1, 0x0, 1, 0x0, false, [⟨0, 11, .RO, 0⟩, ⟨16, 1, .RO, 0⟩, ⟨17, 1, .HS, 0⟩]⟩,
   ⟨0x404, 1, 0x0, 1, 0x0, false, [⟨0, 31, .RO, 0⟩]⟩,
   ⟨0x408, 1, 0x0, 1, 0x0, false, [⟨0, 8, .RW, 24⟩]⟩,
   ⟨0x410, 1, 0x0, 1, 0x0, true, [⟨0, 63, .CT, 0⟩, ⟨63, 1, .CT, 0⟩]⟩,
   ⟨0x418, 1, 0x0, 1, 0x0, true, [⟨0, 63, .CT, 0⟩, ⟨63, 1, .CT, 0⟩]⟩]

def tabTILE_1 (t : Nat) : List RegRow :=
  [⟨0x420, 1, 0x0, 1, 0x0, true, [⟨0, 63, .CT, 0⟩, ⟨63, 1, .CT, 0⟩]⟩,
   ⟨0x428, 1, 0x0, 1, 0x0, true, [⟨0, 63, .CT, 0⟩, ⟨63, 1, .CT, 0⟩]⟩,
   ⟨0x430, 1, 0x0, 1, 0x0, true, [⟨0, 63, .CT, 0⟩, ⟨63, 1, .CT, 0⟩]⟩,
   ⟨0x500, 1, 0x0, 1, 0x0, true, [⟨0, 63, .CT, 0⟩, ⟨63, 1, .CT, 0⟩]⟩,
   ⟨0x508, 1, 0x0, 1, 0x0, true, [⟨0, 63, .CT, 0⟩, ⟨63, 1, .CT, 0⟩]⟩,
   ⟨0x510, 1, 0x0, 1, 0x0, true, [⟨0, 63, .CT, 0⟩, ⟨63, 1, .CT, 0⟩]⟩]

def tabTILE (t : Nat) : List RegRow := tabTILE_0 t ++ tabTILE_1 t

def tabCQ (q : Nat) : List RegRow :=
  [⟨0x8, 1, 0x0, 1, 0x0, false, [⟨0, 5, .RO, 16⟩, ⟨8, 4, .RO, 8⟩, ⟨16, 14, .RO, 8192⟩]⟩,
   ⟨0x80, 1, 0x0, 1, 0x0, true, [⟨0, 64, .RW, 0⟩]⟩,
   ⟨0x88, 1, 0x0, 1, 0x0, false, [⟨0, 5, .RW, 6⟩]⟩,
   ⟨0x8C, 1, 0x0, 1, 0x0, false, [⟨0, 1, .RW, 0⟩, ⟨1, 1, .RW, 0⟩, ⟨2, 1, .RW, 0⟩, ⟨8, 8, .RW, 64⟩, ⟨16, 14, .RW, 512⟩]⟩,
   ⟨0x90, 1, 0x0, 1, 0x0, false, [⟨0, 32, .RO, 0⟩]⟩,
   ⟨0x94, 1, 0x0, 1, 0x0, false, [⟨0, 32, .RW, 0⟩]⟩,
   ⟨0x98, 1, 0x0, 1, 0x0, false, [⟨0, 32, .RO, 0⟩]⟩,
   ⟨0x9C, 1, 0x0, 1, 0x0, false, [⟨0, 3, .RO, 0⟩, ⟨3, 1, .RO, 0⟩, ⟨4, 1, .RO, 0⟩, ⟨5, 1, .RO, 0⟩, ⟨8, 2, .RO, 0⟩, ⟨12, 4, .RO, 0⟩]⟩,
   ⟨0xA0, 1, 0x0, 1, 0x0, false, [⟨0, 32, .RO, 0⟩]⟩,
   ⟨0xA4, 1, 0x0, 1, 0x0, false, [⟨0, 16, .RO, 0⟩, ⟨16, 16, .RO, 0⟩]⟩,
   ⟨0xA8, 1, 0x0, 1, 0x0, false, [⟨0, 2, .RW, 0⟩, ⟨31, 1, .TG, 0⟩]⟩,
   ⟨0xAC, 1, 0x0, 1, 0x0, false, [⟨0, 16, .RO, 0⟩]⟩,
   ⟨0xB0, 1, 0x0, 1, 0x0, true, [⟨0, 64, .RO, 0⟩]⟩,
   ⟨0xB8, 1, 0x0, 1, 0x0, true, [⟨0, 64, .RO, 0⟩]⟩,
   ⟨0xC0, 1, 0x0, 1, 0x0, false, [⟨0, 31, .RO, 0⟩, ⟨31, 1, .HS, 0⟩]⟩,
   ⟨0xC4, 1, 0x0, 1, 0x0, false, [⟨0, 32, .RW, 0⟩]⟩,
   ⟨0xC8, 1, 0x0, 1, 0x0, false, [⟨0, 32, .RO, 0⟩]⟩,
   ⟨0x100, 8, 0x8, 1, 0x0, true, [⟨0, 64, .RW, 0⟩]⟩,
   ⟨0x200, 1, 0x0, 1, 0x0, true, [⟨0, 63, .CT, 0⟩, ⟨63, 1, .CT, 0⟩]⟩,
   ⟨0x208, 1, 0x0, 1, 0x0, true, [⟨0, 63, .CT, 0⟩, ⟨63, 1, .CT, 0⟩]⟩,
   ⟨0x210, 1, 0x0, 1, 0x0, true, [⟨0, 63, .CT, 0⟩, ⟨63, 1, .CT, 0⟩]⟩,
   ⟨0x218, 1, 0x0, 1, 0x0, true, [⟨0, 63, .CT, 0⟩, ⟨63, 1, .CT, 0⟩]⟩,
   ⟨0x220, 1, 0x0, 1, 0x0, true, [⟨0, 63, .CT, 0⟩, ⟨63, 1, .CT, 0⟩]⟩,
   ⟨0x228, 1, 0x0, 1, 0x0, true, [⟨0, 63, .CT, 0⟩, ⟨63, 1, .CT, 0⟩]⟩,
   ⟨0x230, 1, 0x0, 1, 0x0, true, [⟨0, 63, .CT, 0⟩, ⟨63, 1, .CT, 0⟩]⟩,
   ⟨0x238, 1, 0x0, 1, 0x0, true, [⟨0, 63, .CT, 0⟩, ⟨63, 1, .CT, 0⟩]⟩,
   ⟨0x300, 2, 0x10, 1, 0x0, false, [⟨0, 32, .RO, 0⟩]⟩,
   ⟨0x308, 2, 0x10, 1, 0x0, true, [⟨0, 40, .RO, 0⟩, ⟨63, 1, .RO, 0⟩]⟩,
   ⟨0x320, 1, 0x0, 1, 0x0, false, [⟨0, 32, .RO, 0⟩]⟩]

def tabSIG : List RegRow :=
  [⟨0x8, 1, 0x0, 1, 0x0, false, [⟨0, 13, .RO, 4096⟩, ⟨16, 6, .RO, 48⟩]⟩,
   ⟨0x80, 1, 0x0, 1, 0x0, false, [⟨0, 3, .RW, 0⟩, ⟨8, 6, .RO, 0⟩, ⟨14, 1, .RO, 0⟩, ⟨31, 1, .TG, 0⟩]⟩,
   ⟨0x84, 1, 0x0, 1, 0x0, false, [⟨0, 6, .RW, 0⟩, ⟨31, 1, .TG, 0⟩]⟩,
   ⟨0x88, 1, 0x0, 1, 0x0, false, [⟨0, 3, .RW, 0⟩, ⟨8, 7, .RW, 1⟩, ⟨31, 1, .TG, 0⟩]⟩,
   ⟨0x8C, 1, 0x0, 1, 0x0, false, [⟨0, 12, .RO, 0⟩, ⟨16, 1, .RO, 0⟩]⟩,
   ⟨0x90, 1, 0x0, 1, 0x0, false, [⟨0, 12, .RW, 0⟩, ⟨16, 7, .RW, 0⟩, ⟨31, 1, .TG, 0⟩]⟩,
   ⟨0xA0, 1, 0x0, 1, 0x0, false, [⟨0, 12, .RW, 0⟩, ⟨16, 2, .RW, 0⟩, ⟨31, 1, .TG, 0⟩]⟩,
   ⟨0xA8, 1, 0x0, 1, 0x0, true, [⟨0, 48, .RW, 0⟩]⟩,
   ⟨0xB0, 1, 0x0, 1, 0x0, true, [⟨0, 48, .RO, 0⟩, ⟨62, 1, .RO, 0⟩, ⟨63, 1, .RO, 0⟩]⟩,
   ⟨0xC0, 1, 0x0, 1, 0x0, true, [⟨0, 63, .CT, 0⟩, ⟨63, 1, .CT, 0⟩]⟩,
   ⟨0xC8, 1, 0x0, 1, 0x0, true, [⟨0, 63, .CT, 0⟩, ⟨63, 1, .CT, 0⟩]⟩]

def tabSILL (e : Nat) : List RegRow :=
  [⟨0x8, 1, 0x0, 1, 0x0, false, [⟨0, 10, .RO, 512⟩, ⟨10, 6, .RO, 16⟩, ⟨16, 4, .RO, 8⟩, ⟨20, 5, .RO, 16⟩, ⟨25, 7, .RO, 32⟩]⟩,
   ⟨0xC, 1, 0x0, 1, 0x0, false, [⟨0, 2, .RO, 0⟩, ⟨2, 2, .RO, (e / 4)⟩, ⟨8, 10, .RO, 256⟩, ⟨18, 8, .RO, 32⟩]⟩,
   ⟨0x80, 1, 0x0, 1, 0x0, false, [⟨0, 10, .RO, 0⟩, ⟨16, 10, .RO, 0⟩, ⟨26, 1, .RO, 1⟩]⟩,
   ⟨0x84, 1, 0x0, 1, 0x0, false, [⟨0, 1, .ST, 1⟩, ⟨8, 8, .ST, 32⟩, ⟨16, 7, .ST, 16⟩]⟩,
   ⟨0x88, 1, 0x0, 1, 0x0, false, [⟨0, 32, .RW, 156250⟩]⟩,
   ⟨0x90, 1, 0x0, 1, 0x0, false, [⟨0, 16, .RO, 0⟩, ⟨16, 6, .RO, 0⟩, ⟨31, 1, .HS, 0⟩]⟩,
   ⟨0x98, 1, 0x0, 1, 0x0, true, [⟨0, 64, .RO, 0⟩]⟩,
   ⟨0x100, 1, 0x0, 1, 0x0, true, [⟨0, 63, .CT, 0⟩, ⟨63, 1, .CT, 0⟩]⟩,
   ⟨0x108, 1, 0x0, 1, 0x0, true, [⟨0, 63, .CT, 0⟩, ⟨63, 1, .CT, 0⟩]⟩,
   ⟨0x110, 1, 0x0, 1, 0x0, true, [⟨0, 63, .CT, 0⟩, ⟨63, 1, .CT, 0⟩]⟩,
   ⟨0x118, 1, 0x0, 1, 0x0, true, [⟨0, 63, .CT, 0⟩, ⟨63, 1, .CT, 0⟩]⟩,
   ⟨0x120, 1, 0x0, 1, 0x0, true, [⟨0, 63, .CT, 0⟩, ⟨63, 1, .CT, 0⟩]⟩,
   ⟨0x128, 1, 0x0, 1, 0x0, true, [⟨0, 63, .CT, 0⟩, ⟨63, 1, .CT, 0⟩]⟩,
   ⟨0x130, 1, 0x0, 1, 0x0, true, [⟨0, 63, .CT, 0⟩, ⟨63, 1, .CT, 0⟩]⟩,
   ⟨0x138, 1, 0x0, 1, 0x0, true, [⟨0, 63, .CT, 0⟩, ⟨63, 1, .CT, 0⟩]⟩,
   ⟨0x140, 1, 0x0, 1, 0x0, true, [⟨0, 63, .CT, 0⟩, ⟨63, 1, .CT, 0⟩]⟩,
   ⟨0x148, 1, 0x0, 1, 0x0, true, [⟨0, 63, .CT, 0⟩, ⟨63, 1, .CT, 0⟩]⟩,
   ⟨0x150, 1, 0x0, 1, 0x0, true, [⟨0, 63, .CT, 0⟩, ⟨63, 1, .CT, 0⟩]⟩,
   ⟨0x158, 1, 0x0, 1, 0x0, true, [⟨0, 63, .CT, 0⟩, ⟨63, 1, .CT, 0⟩]⟩,
   ⟨0x160, 1, 0x0, 1, 0x0, true, [⟨0, 63, .CT, 0⟩, ⟨63, 1, .CT, 0⟩]⟩,
   ⟨0x168, 1, 0x0, 1, 0x0, true, [⟨0, 63, .CT, 0⟩, ⟨63, 1, .CT, 0⟩]⟩,
   ⟨0x170, 1, 0x0, 1, 0x0, true, [⟨0, 63, .CT, 0⟩, ⟨63, 1, .CT, 0⟩]⟩,
   ⟨0x178, 1, 0x0, 1, 0x0, true, [⟨0, 63, .CT, 0⟩, ⟨63, 1, .CT, 0⟩]⟩]

def tabQUOTA : List RegRow :=
  [⟨0x8, 1, 0x0, 1, 0x0, false, [⟨0, 7, .RO, 64⟩, ⟨8, 12, .RO, 2048⟩]⟩,
   ⟨0x80, 1, 0x0, 1, 0x0, true, [⟨0, 44, .RW, 0⟩]⟩,
   ⟨0x88, 1, 0x0, 1, 0x0, false, [⟨0, 20, .RW, 0⟩]⟩,
   ⟨0x8C, 1, 0x0, 1, 0x0, false, [⟨0, 6, .RW, 0⟩, ⟨8, 2, .RW, 0⟩, ⟨31, 1, .TG, 0⟩]⟩,
   ⟨0x90, 1, 0x0, 1, 0x0, false, [⟨0, 16, .RO, 0⟩]⟩,
   ⟨0x94, 1, 0x0, 1, 0x0, false, [⟨0, 3, .RW, 0⟩, ⟨8, 6, .RO, 0⟩, ⟨14, 1, .RO, 0⟩, ⟨31, 1, .TG, 0⟩]⟩,
   ⟨0x98, 1, 0x0, 1, 0x0, false, [⟨0, 6, .RW, 0⟩, ⟨31, 1, .TG, 0⟩]⟩,
   ⟨0xA0, 3, 0x20, 1, 0x0, false, [⟨0, 32, .RO, 0⟩]⟩,
   ⟨0xA4, 3, 0x20, 1, 0x0, false, [⟨0, 32, .RO, 0⟩]⟩,
   ⟨0xA8, 3, 0x20, 1, 0x0, false, [⟨0, 32, .RO, 0⟩]⟩,
   ⟨0xAC, 3, 0x20, 1, 0x0, false, [⟨0, 32, .RO, 0⟩]⟩,
   ⟨0xB0, 3, 0x20, 1, 0x0, false, [⟨0, 32, .RO, 0⟩]⟩,
   ⟨0x100, 1, 0x0, 1, 0x0, true, [⟨0, 63, .CT, 0⟩, ⟨63, 1, .CT, 0⟩]⟩,
   ⟨0x108, 1, 0x0, 1, 0x0, true, [⟨0, 63, .CT, 0⟩, ⟨63, 1, .CT, 0⟩]⟩,
   ⟨0x110, 1, 0x0, 1, 0x0, true, [⟨0, 63, .CT, 0⟩, ⟨63, 1, .CT, 0⟩]⟩,
   ⟨0x118, 1, 0x0, 1, 0x0, true, [⟨0, 63, .CT, 0⟩, ⟨63, 1, .CT, 0⟩]⟩,
   ⟨0x120, 1, 0x0, 1, 0x0, true, [⟨0, 63, .CT, 0⟩, ⟨63, 1, .CT, 0⟩]⟩,
   ⟨0x200, 8, 0x40, 5, 0x8, true, [⟨0, 63, .CT, 0⟩, ⟨63, 1, .CT, 0⟩]⟩,
   ⟨0x800, 64, 0x20, 1, 0x0, false, [⟨0, 32, .RW, 0⟩]⟩,
   ⟨0x804, 64, 0x20, 1, 0x0, false, [⟨0, 32, .RW, 0⟩]⟩,
   ⟨0x808, 64, 0x20, 1, 0x0, false, [⟨0, 32, .RW, 0⟩]⟩,
   ⟨0x80C, 64, 0x20, 1, 0x0, false, [⟨0, 1, .RO, 0⟩, ⟨1, 1, .RW, 0⟩, ⟨2, 1, .RW, 0⟩, ⟨8, 4, .RO, 15⟩]⟩,
   ⟨0x810, 64, 0x20, 1, 0x0, false, [⟨0, 32, .RO, 0⟩]⟩,
   ⟨0x814, 64, 0x20, 1, 0x0, false, [⟨0, 32, .RO, 0⟩]⟩,
   ⟨0x818, 64, 0x20, 1, 0x0, false, [⟨0, 32, .RO, 0⟩]⟩]

def tabSTACK (s : Nat) : List RegRow :=
  [⟨0x8, 1, 0x0, 1, 0x0, false, [⟨0, 8, .RO, 48⟩, ⟨8, 5, .RO, 16⟩, ⟨13, 3, .RO, 1⟩, ⟨16, 16, .RO, 1200⟩]⟩,
   ⟨0x80, 1, 0x0, 1, 0x0, false, [⟨0, 5, .RO, 31⟩, ⟨5, 1, .RO, 0⟩, ⟨6, 1, .RO, 0⟩, ⟨7, 1, .RO, 0⟩, ⟨8, 1, .HS, 0⟩, ⟨16, 8, .RO, 0⟩]⟩,
   ⟨0x84, 1, 0x0, 1, 0x0, false, [⟨0, 4, .RW, 0⟩, ⟨31, 1, .TG, 0⟩]⟩,
   ⟨0x88, 1, 0x0, 1, 0x0, false, [⟨0, 1, .RW, 1⟩, ⟨8, 8, .RW, 24⟩]⟩,
   ⟨0x90, 1, 0x0, 1, 0x0, true, [⟨0, 36, .RO, 0⟩]⟩,
   ⟨0x100, 1, 0x0, 1, 0x0, true, [⟨0, 63, .CT, 0⟩, ⟨63, 1, .CT, 0⟩]⟩,
   ⟨0x108, 1, 0x0, 1, 0x0, true, [⟨0, 63, .CT, 0⟩, ⟨63, 1, .CT, 0⟩]⟩,
   ⟨0x110, 1, 0x0, 1, 0x0, true, [⟨0, 63, .CT, 0⟩, ⟨63, 1, .CT, 0⟩]⟩,
   ⟨0x118, 1, 0x0, 1, 0x0, true, [⟨0, 63, .CT, 0⟩, ⟨63, 1, .CT, 0⟩]⟩,
   ⟨0x120, 1, 0x0, 1, 0x0, true, [⟨0, 63, .CT, 0⟩, ⟨63, 1, .CT, 0⟩]⟩,
   ⟨0x128, 1, 0x0, 1, 0x0, true, [⟨0, 63, .CT, 0⟩, ⟨63, 1, .CT, 0⟩]⟩]

def tabFLASH : List RegRow :=
  [⟨0x8, 1, 0x0, 1, 0x0, false, [⟨0, 3, .RO, 0⟩, ⟨8, 5, .RO, 16⟩, ⟨16, 7, .RO, 16⟩, ⟨24, 8, .RO, 192⟩]⟩,
   ⟨0x80, 4, 0x4, 1, 0x0, false, [⟨0, 1, .RO, 0⟩, ⟨1, 1, .RO, 0⟩, ⟨2, 1, .RO, 0⟩, ⟨3, 1, .RO, 0⟩, ⟨4, 1, .RO, 0⟩, ⟨8, 8, .RO, 0⟩, ⟨16, 16, .RO, 0⟩]⟩,
   ⟨0x90, 1, 0x0, 1, 0x0, false, [⟨0, 2, .RW, 0⟩, ⟨8, 2, .RW, 0⟩, ⟨31, 1, .TG, 0⟩]⟩,
   ⟨0x100, 1, 0x0, 1, 0x0, true, [⟨0, 63, .CT, 0⟩, ⟨63, 1, .CT, 0⟩]⟩,
   ⟨0x108, 1, 0x0, 1, 0x0, true, [⟨0, 63, .CT, 0⟩, ⟨63, 1, .CT, 0⟩]⟩,
   ⟨0x110, 1, 0x0, 1, 0x0, true, [⟨0, 63, .CT, 0⟩, ⟨63, 1, .CT, 0⟩]⟩,
   ⟨0x118, 1, 0x0, 1, 0x0, true, [⟨0, 63, .CT, 0⟩, ⟨63, 1, .CT, 0⟩]⟩,
   ⟨0x120, 1, 0x0, 1, 0x0, true, [⟨0, 63, .CT, 0⟩, ⟨63, 1, .CT, 0⟩]⟩,
   ⟨0x128, 1, 0x0, 1, 0x0, true, [⟨0, 63, .CT, 0⟩, ⟨63, 1, .CT, 0⟩]⟩,
   ⟨0x400, 192, 0x8, 1, 0x0, false, [⟨0, 23, .RW, 0⟩, ⟨30, 2, .RW, 0⟩]⟩,
   ⟨0x404, 192, 0x8, 1, 0x0, false, [⟨0, 3, .RW, 0⟩, ⟨8, 1, .TG, 0⟩, ⟨9, 1, .TG, 0⟩, ⟨10, 1, .RO, 0⟩]⟩]

def tabCOLL (g : Nat) : List RegRow :=
  [⟨0x8, 1, 0x0, 1, 0x0, false, [⟨0, 5, .RO, 16⟩, ⟨8, 5, .RO, 16⟩, ⟨16, 11, .RO, 1024⟩]⟩,
   ⟨0xC, 1, 0x0, 1, 0x0, false, [⟨0, 10, .RO, 512⟩, ⟨10, 4, .RO, 1⟩, ⟨14, 3, .RO, 4⟩]⟩,
   ⟨0x80, 1, 0x0, 1, 0x0, false, [⟨0, 5, .RO, 0⟩, ⟨8, 5, .RO, 0⟩, ⟨16, 5, .RO, 0⟩]⟩,
   ⟨0x100, 1, 0x0, 1, 0x0, true, [⟨0, 63, .CT, 0⟩, ⟨63, 1, .CT, 0⟩]⟩,
   ⟨0x108, 1, 0x0, 1, 0x0, true, [⟨0, 63, .CT, 0⟩, ⟨63, 1, .CT, 0⟩]⟩,
   ⟨0x110, 1, 0x0, 1, 0x0, true, [⟨0, 63, .CT, 0⟩, ⟨63, 1, .CT, 0⟩]⟩,
   ⟨0x118, 1, 0x0, 1, 0x0, true, [⟨0, 63, .CT, 0⟩, ⟨63, 1, .CT, 0⟩]⟩,
   ⟨0x120, 1, 0x0, 1, 0x0, true, [⟨0, 63, .CT, 0⟩, ⟨63, 1, .CT, 0⟩]⟩,
   ⟨0x128, 1, 0x0, 1, 0x0, true, [⟨0, 63, .CT, 0⟩, ⟨63, 1, .CT, 0⟩]⟩,
   ⟨0x130, 1, 0x0, 1, 0x0, true, [⟨0, 63, .CT, 0⟩, ⟨63, 1, .CT, 0⟩]⟩,
   ⟨0x138, 1, 0x0, 1, 0x0, true, [⟨0, 63, .CT, 0⟩, ⟨63, 1, .CT, 0⟩]⟩,
   ⟨0x140, 1, 0x0, 1, 0x0, true, [⟨0, 63, .CT, 0⟩, ⟨63, 1, .CT, 0⟩]⟩,
   ⟨0x148, 1, 0x0, 1, 0x0, true, [⟨0, 63, .CT, 0⟩, ⟨63, 1, .CT, 0⟩]⟩,
   ⟨0x150, 1, 0x0, 1, 0x0, true, [⟨0, 63, .CT, 0⟩, ⟨63, 1, .CT, 0⟩]⟩,
   ⟨0x158, 1, 0x0, 1, 0x0, true, [⟨0, 63, .CT, 0⟩, ⟨63, 1, .CT, 0⟩]⟩,
   ⟨0x400, 16, 0x40, 1, 0x0, true, [⟨0, 64, .RW, 0⟩]⟩,
   ⟨0x408, 16, 0x40, 1, 0x0, false, [⟨0, 1, .RW, 0⟩, ⟨1, 1, .RW, 0⟩, ⟨4, 4, .RW, 0⟩, ⟨8, 8, .RW, 16⟩]⟩,
   ⟨0x40C, 16, 0x40, 1, 0x0, false, [⟨0, 1, .TG, 0⟩]⟩,
   ⟨0x410, 16, 0x40, 1, 0x0, false, [⟨0, 2, .RO, 0⟩, ⟨2, 1, .RO, 0⟩, ⟨4, 8, .RO, 0⟩, ⟨16, 16, .RO, 0⟩]⟩,
   ⟨0x414, 16, 0x40, 1, 0x0, false, [⟨0, 32, .RO, 0⟩]⟩,
   ⟨0x418, 16, 0x40, 1, 0x0, false, [⟨0, 32, .RO, 0⟩]⟩,
   ⟨0x41C, 16, 0x40, 1, 0x0, false, [⟨0, 32, .RO, 0⟩]⟩,
   ⟨0x420, 16, 0x40, 1, 0x0, false, [⟨0, 16, .RO, 0⟩]⟩,
   ⟨0x424, 16, 0x40, 1, 0x0, false, [⟨0, 17, .RO, 0⟩]⟩,
   ⟨0x428, 16, 0x40, 1, 0x0, false, [⟨0, 16, .RO, 0⟩, ⟨31, 1, .HS, 0⟩]⟩]

def tabLINK_0 (k : Nat) : List RegRow :=
  [⟨0x8, 1, 0x0, 1, 0x0, false, [⟨0, 5, .RO, 16⟩, ⟨8, 8, .RO, 6⟩, ⟨16, 12, .RO, 2048⟩]⟩,
   ⟨0xC, 1, 0x0, 1, 0x0, false, [⟨0, 12, .RO, 2048⟩, ⟨12, 4, .RO, (k / 4)⟩, ⟨16, 2, .RO, (k % 4)⟩]⟩,
   ⟨0x80, 1, 0x0, 1, 0x0, false, [⟨0, 3, .RO, 0⟩, ⟨4, 5, .RO, 0⟩, ⟨9, 1, .RO, 0⟩, ⟨10, 1, .RO, 0⟩, ⟨11, 1, .RO, 1⟩, ⟨12, 4, .RO, 0⟩]⟩,
   ⟨0x84, 1, 0x0, 1, 0x0, false, [⟨0, 1, .TG, 0⟩, ⟨1, 1, .RW, 1⟩]⟩,
   ⟨0x88, 1, 0x0, 1, 0x0, false, [⟨0, 16, .HS, 0⟩]⟩,
   ⟨0x8C, 1, 0x0, 1, 0x0, false, [⟨0, 32, .RW, 1000000⟩]⟩,
   ⟨0x90, 1, 0x0, 1, 0x0, false, [⟨0, 16, .RO, 0⟩, ⟨16, 6, .RO, 0⟩, ⟨30, 1, .RO, 0⟩, ⟨31, 1, .RO, 0⟩]⟩,
   ⟨0xA0, 1, 0x0, 1, 0x0, false, [⟨0, 11, .ST, 64⟩, ⟨16, 11, .ST, 256⟩]⟩,
   ⟨0xA4, 1, 0x0, 1, 0x0, false, [⟨0, 11, .ST, 576⟩, ⟨16, 11, .ST, 768⟩]⟩,
   ⟨0xA8, 1, 0x0, 1, 0x0, false, [⟨0, 11, .ST, 128⟩, ⟨16, 11, .ST, 256⟩]⟩,
   ⟨0xB0, 1, 0x0, 1, 0x0, false, [⟨0, 8, .ST, 4⟩, ⟨8, 8, .ST, 4⟩, ⟨16, 8, .ST, 8⟩, ⟨24, 8, .ST, 2⟩]⟩,
   ⟨0xB4, 1, 0x0, 1, 0x0, false, [⟨0, 8, .ST, 2⟩]⟩,
   ⟨0x100, 1, 0x0, 1, 0x0, true, [⟨0, 63, .CT, 0⟩, ⟨63, 1, .CT, 0⟩]⟩,
   ⟨0x108, 1, 0x0, 1, 0x0, true, [⟨0, 63, .CT, 0⟩, ⟨63, 1, .CT, 0⟩]⟩,
   ⟨0x110, 1, 0x0, 1, 0x0, true, [⟨0, 63, .CT, 0⟩, ⟨63, 1, .CT, 0⟩]⟩,
   ⟨0x118, 1, 0x0, 1, 0x0, true, [⟨0, 63, .CT, 0⟩, ⟨63, 1, .CT, 0⟩]⟩,
   ⟨0x120, 1, 0x0, 1, 0x0, true, [⟨0, 63, .CT, 0⟩, ⟨63, 1, .CT, 0⟩]⟩,
   ⟨0x128, 1, 0x0, 1, 0x0, true, [⟨0, 63, .CT, 0⟩, ⟨63, 1, .CT, 0⟩]⟩,
   ⟨0x130, 1, 0x0, 1, 0x0, true, [⟨0, 63, .CT, 0⟩, ⟨63, 1, .CT, 0⟩]⟩,
   ⟨0x138, 1, 0x0, 1, 0x0, true, [⟨0, 63, .CT, 0⟩, ⟨63, 1, .CT, 0⟩]⟩,
   ⟨0x140, 1, 0x0, 1, 0x0, true, [⟨0, 63, .CT, 0⟩, ⟨63, 1, .CT, 0⟩]⟩,
   ⟨0x148, 1, 0x0, 1, 0x0, true, [⟨0, 63, .CT, 0⟩, ⟨63, 1, .CT, 0⟩]⟩,
   ⟨0x150, 1, 0x0, 1, 0x0, true, [⟨0, 63, .CT, 0⟩, ⟨63, 1, .CT, 0⟩]⟩,
   ⟨0x158, 1, 0x0, 1, 0x0, true, [⟨0, 63, .CT, 0⟩, ⟨63, 1, .CT, 0⟩]⟩,
   ⟨0x160, 1, 0x0, 1, 0x0, true, [⟨0, 63, .CT, 0⟩, ⟨63, 1, .CT, 0⟩]⟩,
   ⟨0x180, 16, 0x8, 1, 0x0, true, [⟨0, 63, .CT, 0⟩, ⟨63, 1, .CT, 0⟩]⟩,
   ⟨0x200, 12, 0x40, 1, 0x0, true, [⟨0, 64, .RO, 0⟩]⟩,
   ⟨0x208, 12, 0x40, 1, 0x0, true, [⟨0, 64, .RO, 0⟩]⟩,
   ⟨0x210, 12, 0x40, 1, 0x0, true, [⟨0, 64, .RO, 0⟩]⟩,
   ⟨0x218, 12, 0x40, 1, 0x0, true, [⟨0, 64, .RO, 0⟩]⟩]

def tabLINK_1 (k : Nat) : List RegRow :=
  [⟨0x220, 12, 0x40, 1, 0x0, true, [⟨0, 64, .RO, 0⟩]⟩,
   ⟨0x228, 12, 0x40, 1, 0x0, false, [⟨0, 12, .RO, 0⟩]⟩,
   ⟨0x22C, 12, 0x40, 1, 0x0, false, [⟨0, 12, .RO, 0⟩]⟩]

def tabLINK (k : Nat) : List RegRow := tabLINK_0 k ++ tabLINK_1 k

def tabNOSE_0 : List RegRow :=
  [⟨0x8, 1, 0x0, 1, 0x0, false, [⟨0, 14, .RO, 8192⟩, ⟨14, 2, .RO, 2⟩, ⟨16, 4, .RO, 4⟩]⟩,
   ⟨0x80, 1, 0x0, 1, 0x0, false, [⟨0, 4, .RW, 6⟩, ⟨4, 3, .RW, 3⟩, ⟨8, 4, .RW, 4⟩]⟩,
   ⟨0x88, 1, 0x0, 1, 0x0, true, [⟨0, 64, .RW, 0⟩]⟩,
   ⟨0x90, 1, 0x0, 1, 0x0, false, [⟨0, 31, .RW, 312500⟩, ⟨31, 1, .RW, 0⟩]⟩,
   ⟨0x94, 1, 0x0, 1, 0x0, false, [⟨0, 4, .RW, 2⟩, ⟨4, 1, .RW, 1⟩, ⟨5, 1, .RW, 1⟩]⟩,
   ⟨0x98, 1, 0x0, 1, 0x0, false, [⟨0, 32, .RW, 1562500⟩]⟩,
   ⟨0xA0, 1, 0x0, 1, 0x0, true, [⟨0, 64, .RO, 0⟩]⟩,
   ⟨0xA8, 1, 0x0, 1, 0x0, true, [⟨0, 10, .RO, 0⟩, ⟨10, 1, .RO, 0⟩, ⟨11, 3, .RO, 0⟩, ⟨24, 40, .RO, 0⟩]⟩,
   ⟨0xB0, 1, 0x0, 1, 0x0, false, [⟨0, 3, .RW, 0⟩, ⟨4, 3, .RW, 0⟩, ⟨31, 1, .TG, 0⟩]⟩,
   ⟨0xB4, 1, 0x0, 1, 0x0, false, [⟨0, 1, .RO, 0⟩, ⟨1, 1, .HS, 0⟩, ⟨16, 10, .RO, 0⟩]⟩,
   ⟨0x100, 8, 0x40, 1, 0x0, false, [⟨0, 24, .RW, 0⟩]⟩,
   ⟨0x104, 8, 0x40, 1, 0x0, false, [⟨0, 24, .RW, 0⟩]⟩,
   ⟨0x108, 8, 0x40, 1, 0x0, false, [⟨0, 32, .RW, 0⟩]⟩,
   ⟨0x10C, 8, 0x40, 1, 0x0, false, [⟨0, 12, .RW, 0⟩, ⟨16, 13, .RW, 4096⟩]⟩,
   ⟨0x110, 8, 0x40, 1, 0x0, false, [⟨0, 8, .RO, 0⟩, ⟨8, 3, .RO, 0⟩, ⟨11, 1, .RO, 0⟩, ⟨12, 1, .RO, 0⟩, ⟨13, 1, .RO, 0⟩, ⟨16, 14, .RO, 0⟩]⟩,
   ⟨0x114, 8, 0x40, 1, 0x0, false, [⟨0, 1, .TG, 0⟩]⟩,
   ⟨0x118, 8, 0x40, 1, 0x0, false, [⟨0, 16, .RO, 0⟩, ⟨31, 1, .HS, 0⟩]⟩,
   ⟨0x120, 8, 0x40, 1, 0x0, true, [⟨0, 64, .RO, 0⟩]⟩,
   ⟨0x128, 8, 0x40, 1, 0x0, true, [⟨0, 40, .RO, 0⟩, ⟨40, 8, .RO, 0⟩]⟩,
   ⟨0x300, 1, 0x0, 1, 0x0, true, [⟨0, 63, .CT, 0⟩, ⟨63, 1, .CT, 0⟩]⟩,
   ⟨0x308, 1, 0x0, 1, 0x0, true, [⟨0, 63, .CT, 0⟩, ⟨63, 1, .CT, 0⟩]⟩,
   ⟨0x310, 1, 0x0, 1, 0x0, true, [⟨0, 63, .CT, 0⟩, ⟨63, 1, .CT, 0⟩]⟩,
   ⟨0x318, 1, 0x0, 1, 0x0, true, [⟨0, 63, .CT, 0⟩, ⟨63, 1, .CT, 0⟩]⟩,
   ⟨0x320, 1, 0x0, 1, 0x0, true, [⟨0, 63, .CT, 0⟩, ⟨63, 1, .CT, 0⟩]⟩,
   ⟨0x328, 1, 0x0, 1, 0x0, true, [⟨0, 63, .CT, 0⟩, ⟨63, 1, .CT, 0⟩]⟩,
   ⟨0x330, 1, 0x0, 1, 0x0, true, [⟨0, 63, .CT, 0⟩, ⟨63, 1, .CT, 0⟩]⟩,
   ⟨0x338, 1, 0x0, 1, 0x0, true, [⟨0, 63, .CT, 0⟩, ⟨63, 1, .CT, 0⟩]⟩,
   ⟨0x340, 1, 0x0, 1, 0x0, true, [⟨0, 63, .CT, 0⟩, ⟨63, 1, .CT, 0⟩]⟩,
   ⟨0x348, 1, 0x0, 1, 0x0, true, [⟨0, 63, .CT, 0⟩, ⟨63, 1, .CT, 0⟩]⟩,
   ⟨0x350, 1, 0x0, 1, 0x0, true, [⟨0, 63, .CT, 0⟩, ⟨63, 1, .CT, 0⟩]⟩]

def tabNOSE_1 : List RegRow :=
  [⟨0x358, 1, 0x0, 1, 0x0, true, [⟨0, 63, .CT, 0⟩, ⟨63, 1, .CT, 0⟩]⟩,
   ⟨0x360, 1, 0x0, 1, 0x0, true, [⟨0, 63, .CT, 0⟩, ⟨63, 1, .CT, 0⟩]⟩,
   ⟨0x368, 1, 0x0, 1, 0x0, true, [⟨0, 63, .CT, 0⟩, ⟨63, 1, .CT, 0⟩]⟩,
   ⟨0x370, 1, 0x0, 1, 0x0, true, [⟨0, 63, .CT, 0⟩, ⟨63, 1, .CT, 0⟩]⟩,
   ⟨0x378, 1, 0x0, 1, 0x0, true, [⟨0, 63, .CT, 0⟩, ⟨63, 1, .CT, 0⟩]⟩,
   ⟨0x400, 30, 0x4, 1, 0x0, false, [⟨0, 32, .RO, 0⟩]⟩]

def tabNOSE : List RegRow := tabNOSE_0 ++ tabNOSE_1

def tabPWR_0 : List RegRow :=
  [⟨0x8, 1, 0x0, 1, 0x0, false, [⟨0, 4, .RO, 14⟩, ⟨4, 12, .RO, 3000⟩, ⟨16, 7, .RO, 84⟩]⟩,
   ⟨0xC, 1, 0x0, 1, 0x0, false, [⟨0, 16, .RO, 34000⟩, ⟨16, 8, .RO, 12⟩, ⟨24, 8, .RO, 20⟩]⟩,
   ⟨0x80, 1, 0x0, 1, 0x0, false, [⟨0, 4, .RO, 0⟩, ⟨4, 1, .RO, 0⟩, ⟨5, 2, .RO, 0⟩, ⟨8, 2, .RO, 0⟩, ⟨10, 1, .RO, 0⟩, ⟨11, 1, .RO, 0⟩, ⟨12, 1, .RO, 0⟩, ⟨13, 1, .RO, 0⟩]⟩,
   ⟨0x84, 1, 0x0, 1, 0x0, false, [⟨0, 14, .RO, 0⟩, ⟨16, 14, .RO, 0⟩]⟩,
   ⟨0x88, 1, 0x0, 1, 0x0, false, [⟨0, 32, .RO, 0⟩]⟩,
   ⟨0x8C, 1, 0x0, 1, 0x0, false, [⟨0, 32, .RO, 0⟩]⟩,
   ⟨0x90, 1, 0x0, 1, 0x0, false, [⟨0, 16, .RW, 34000⟩]⟩,
   ⟨0x94, 1, 0x0, 1, 0x0, false, [⟨0, 16, .RW, 6800⟩]⟩,
   ⟨0x98, 1, 0x0, 1, 0x0, false, [⟨0, 16, .RW, 500⟩]⟩,
   ⟨0x9C, 1, 0x0, 1, 0x0, false, [⟨0, 16, .RO, 34000⟩]⟩,
   ⟨0xA0, 1, 0x0, 1, 0x0, false, [⟨0, 16, .RO, 0⟩]⟩,
   ⟨0xA4, 1, 0x0, 1, 0x0, false, [⟨0, 16, .RO, 34000⟩]⟩,
   ⟨0xA8, 1, 0x0, 1, 0x0, false, [⟨0, 16, .RO, 0⟩]⟩,
   ⟨0xAC, 1, 0x0, 1, 0x0, false, [⟨0, 1, .RW, 1⟩, ⟨8, 4, .RW, 3⟩, ⟨12, 4, .RW, 2⟩, ⟨16, 8, .RW, 200⟩, ⟨31, 1, .TG, 0⟩]⟩,
   ⟨0xB0, 2, 0x4, 1, 0x0, false, [⟨0, 5, .RW, 16⟩, ⟨8, 5, .RW, 16⟩, ⟨16, 5, .RW, 16⟩, ⟨24, 5, .RW, 16⟩]⟩,
   ⟨0xC0, 1, 0x0, 1, 0x0, false, [⟨0, 2, .RW, 0⟩, ⟨4, 1, .RW, 1⟩, ⟨31, 1, .TG, 0⟩]⟩,
   ⟨0xC8, 1, 0x0, 1, 0x0, true, [⟨0, 64, .RW, 0⟩]⟩,
   ⟨0xD0, 1, 0x0, 1, 0x0, false, [⟨0, 16, .RW, 2048⟩]⟩,
   ⟨0xD4, 1, 0x0, 1, 0x0, false, [⟨0, 10, .RW, 640⟩]⟩,
   ⟨0xD8, 1, 0x0, 1, 0x0, false, [⟨0, 4, .RO, 0⟩]⟩,
   ⟨0xE0, 1, 0x0, 1, 0x0, false, [⟨0, 3, .RW, 0⟩, ⟨8, 2, .RW, 0⟩, ⟨31, 1, .TG, 0⟩]⟩,
   ⟨0xE4, 1, 0x0, 1, 0x0, false, [⟨0, 8, .RO, 0⟩, ⟨8, 8, .RO, 0⟩]⟩,
   ⟨0x100, 2, 0x4, 1, 0x0, false, [⟨0, 8, .RO, 0⟩, ⟨8, 8, .RO, 0⟩, ⟨16, 16, .RO, 0⟩]⟩,
   ⟨0x108, 1, 0x0, 1, 0x0, false, [⟨0, 1, .RO, 0⟩, ⟨1, 1, .RO, 0⟩, ⟨2, 1, .RO, 0⟩]⟩,
   ⟨0x10C, 1, 0x0, 1, 0x0, false, [⟨0, 16, .RW, 0⟩]⟩,
   ⟨0x120, 1, 0x0, 1, 0x0, false, [⟨31, 1, .TG, 0⟩]⟩,
   ⟨0x124, 1, 0x0, 1, 0x0, false, [⟨0, 16, .RO, 0⟩, ⟨16, 8, .RO, 0⟩, ⟨24, 1, .RO, 0⟩]⟩,
   ⟨0x128, 1, 0x0, 1, 0x0, false, [⟨0, 10, .RO, 0⟩]⟩,
   ⟨0x200, 1, 0x0, 1, 0x0, true, [⟨0, 64, .RO, 0⟩]⟩,
   ⟨0x208, 1, 0x0, 1, 0x0, true, [⟨0, 64, .RO, 0⟩]⟩]

def tabPWR_1 : List RegRow :=
  [⟨0x210, 1, 0x0, 1, 0x0, true, [⟨0, 64, .RO, 0⟩]⟩,
   ⟨0x218, 1, 0x0, 1, 0x0, true, [⟨0, 64, .RO, 0⟩]⟩,
   ⟨0x220, 5, 0x8, 1, 0x0, true, [⟨0, 64, .RO, 0⟩]⟩,
   ⟨0x260, 1, 0x0, 1, 0x0, true, [⟨0, 64, .RO, 0⟩]⟩,
   ⟨0x268, 1, 0x0, 1, 0x0, true, [⟨0, 64, .RO, 0⟩]⟩,
   ⟨0x300, 14, 0x10, 1, 0x0, true, [⟨0, 64, .RO, 0⟩]⟩,
   ⟨0x308, 14, 0x10, 1, 0x0, true, [⟨0, 64, .RO, 0⟩]⟩,
   ⟨0x400, 1, 0x0, 1, 0x0, true, [⟨0, 63, .CT, 0⟩, ⟨63, 1, .CT, 0⟩]⟩,
   ⟨0x408, 1, 0x0, 1, 0x0, true, [⟨0, 63, .CT, 0⟩, ⟨63, 1, .CT, 0⟩]⟩,
   ⟨0x410, 1, 0x0, 1, 0x0, true, [⟨0, 63, .CT, 0⟩, ⟨63, 1, .CT, 0⟩]⟩,
   ⟨0x418, 1, 0x0, 1, 0x0, true, [⟨0, 63, .CT, 0⟩, ⟨63, 1, .CT, 0⟩]⟩,
   ⟨0x420, 1, 0x0, 1, 0x0, true, [⟨0, 63, .CT, 0⟩, ⟨63, 1, .CT, 0⟩]⟩,
   ⟨0x428, 1, 0x0, 1, 0x0, true, [⟨0, 63, .CT, 0⟩, ⟨63, 1, .CT, 0⟩]⟩]

def tabPWR : List RegRow := tabPWR_0 ++ tabPWR_1

def tabPDOM (d : Nat) : List RegRow :=
  [⟨0x8, 1, 0x0, 1, 0x0, false, [⟨0, 4, .RO, 8⟩, ⟨4, 4, .RO, 1⟩, ⟨8, 5, .RO, 16⟩, ⟨13, 3, .RO, 4⟩, ⟨16, 12, .RO, 440⟩]⟩,
   ⟨0xC, 1, 0x0, 1, 0x0, false, [⟨0, 10, .RO, 600⟩, ⟨10, 10, .RO, 850⟩, ⟨20, 3, .RO, (d / 14)⟩, ⟨24, 4, .RO, (d % 14)⟩]⟩,
   ⟨0x80, 1, 0x0, 1, 0x0, false, [⟨0, 3, .RO, 0⟩, ⟨4, 4, .RO, 0⟩, ⟨8, 1, .RO, 0⟩, ⟨9, 1, .HS, 0⟩, ⟨10, 1, .RO, 0⟩, ⟨11, 1, .HS, 0⟩]⟩,
   ⟨0x84, 1, 0x0, 1, 0x0, false, [⟨0, 10, .RO, 0⟩, ⟨16, 8, .RW, 0⟩]⟩,
   ⟨0x88, 1, 0x0, 1, 0x0, false, [⟨0, 10, .RO, 0⟩, ⟨10, 10, .RO, 0⟩, ⟨20, 4, .RO, 0⟩]⟩,
   ⟨0x8C, 1, 0x0, 1, 0x0, false, [⟨0, 10, .RO, 0⟩]⟩,
   ⟨0x90, 8, 0x4, 1, 0x0, false, [⟨0, 10, .RO, 0⟩, ⟨16, 10, .RO, 0⟩]⟩,
   ⟨0xB0, 1, 0x0, 1, 0x0, false, [⟨0, 16, .HS, 0⟩]⟩,
   ⟨0xB4, 1, 0x0, 1, 0x0, false, [⟨0, 16, .RO, 0⟩, ⟨16, 16, .RO, 0⟩]⟩,
   ⟨0xB8, 1, 0x0, 1, 0x0, false, [⟨0, 8, .RO, 0⟩, ⟨8, 2, .RO, 0⟩]⟩,
   ⟨0xBC, 1, 0x0, 1, 0x0, false, [⟨0, 16, .RO, 0⟩]⟩,
   ⟨0xC0, 1, 0x0, 1, 0x0, false, [⟨0, 8, .RW, 12⟩, ⟨8, 8, .RW, 16⟩, ⟨16, 16, .RW, 500⟩]⟩,
   ⟨0xC4, 1, 0x0, 1, 0x0, false, [⟨0, 8, .RW, 40⟩, ⟨8, 8, .RW, 16⟩]⟩,
   ⟨0x100, 1, 0x0, 1, 0x0, true, [⟨0, 64, .RO, 0⟩]⟩,
   ⟨0x108, 1, 0x0, 1, 0x0, true, [⟨0, 64, .RO, 0⟩]⟩,
   ⟨0x200, 1, 0x0, 1, 0x0, true, [⟨0, 63, .CT, 0⟩, ⟨63, 1, .CT, 0⟩]⟩,
   ⟨0x208, 1, 0x0, 1, 0x0, true, [⟨0, 63, .CT, 0⟩, ⟨63, 1, .CT, 0⟩]⟩,
   ⟨0x210, 1, 0x0, 1, 0x0, true, [⟨0, 63, .CT, 0⟩, ⟨63, 1, .CT, 0⟩]⟩,
   ⟨0x218, 1, 0x0, 1, 0x0, true, [⟨0, 63, .CT, 0⟩, ⟨63, 1, .CT, 0⟩]⟩,
   ⟨0x220, 1, 0x0, 1, 0x0, true, [⟨0, 63, .CT, 0⟩, ⟨63, 1, .CT, 0⟩]⟩]

def tabFUSE : List RegRow :=
  [⟨0x8, 1, 0x0, 1, 0x0, false, [⟨0, 2, .RO, 2⟩, ⟨8, 7, .RO, 64⟩]⟩,
   ⟨0x80, 1, 0x0, 1, 0x0, true, [⟨0, 64, .RO, 0⟩]⟩,
   ⟨0x88, 1, 0x0, 1, 0x0, false, [⟨0, 8, .RO, 0⟩, ⟨8, 8, .RO, 0⟩]⟩,
   ⟨0xC0, 12, 0x4, 1, 0x0, false, [⟨0, 32, .RO, 0⟩]⟩,
   ⟨0xF0, 12, 0x4, 1, 0x0, false, [⟨0, 32, .RO, 0⟩]⟩,
   ⟨0x120, 1, 0x0, 1, 0x0, false, [⟨0, 1, .RO, 0⟩, ⟨1, 1, .RO, 0⟩]⟩,
   ⟨0x124, 1, 0x0, 1, 0x0, false, [⟨0, 7, .RO, 0⟩]⟩,
   ⟨0x128, 1, 0x0, 1, 0x0, false, [⟨0, 32, .RO, 0⟩]⟩,
   ⟨0x12C, 1, 0x0, 1, 0x0, false, [⟨0, 1, .RO, 0⟩]⟩]

def tabCFG : List RegRow :=
  [⟨0x8, 1, 0x0, 1, 0x0, false, [⟨0, 2, .RO, 2⟩, ⟨4, 16, .RO, 0⟩]⟩,
   ⟨0x80, 1, 0x0, 1, 0x0, false, [⟨0, 1, .RO, 0⟩, ⟨1, 1, .RO, 0⟩, ⟨2, 1, .RO, 0⟩, ⟨4, 4, .RO, 0⟩]⟩,
   ⟨0x84, 2, 0x4, 1, 0x0, false, [⟨0, 32, .RO, 0⟩]⟩,
   ⟨0x8C, 1, 0x0, 1, 0x0, false, [⟨0, 4, .RO, 0⟩, ⟨4, 4, .RO, 0⟩]⟩,
   ⟨0x90, 1, 0x0, 1, 0x0, false, [⟨0, 1, .RW, 0⟩, ⟨1, 1, .RW, 0⟩]⟩,
   ⟨0x94, 1, 0x0, 1, 0x0, false, [⟨0, 1, .RW, 0⟩]⟩,
   ⟨0x98, 1, 0x0, 1, 0x0, false, [⟨0, 2, .RW, 0⟩, ⟨31, 1, .TG, 0⟩]⟩,
   ⟨0x9C, 1, 0x0, 1, 0x0, false, [⟨0, 3, .RW, 0⟩, ⟨8, 2, .RW, 0⟩, ⟨31, 1, .TG, 0⟩]⟩,
   ⟨0xA0, 1, 0x0, 1, 0x0, false, [⟨0, 4, .RO, 0⟩, ⟨4, 4, .RO, 0⟩, ⟨8, 4, .RO, 0⟩, ⟨12, 4, .RO, 0⟩, ⟨16, 4, .RO, 0⟩, ⟨20, 4, .RO, 0⟩, ⟨24, 4, .RO, 0⟩, ⟨28, 4, .RO, 0⟩]⟩,
   ⟨0xA4, 1, 0x0, 1, 0x0, false, [⟨0, 8, .RW, 0⟩]⟩,
   ⟨0xA8, 1, 0x0, 1, 0x0, false, [⟨0, 16, .RW, 120⟩]⟩,
   ⟨0xAC, 1, 0x0, 1, 0x0, false, [⟨0, 1, .RO, 0⟩, ⟨16, 16, .RO, 0⟩]⟩,
   ⟨0xB0, 1, 0x0, 1, 0x0, false, [⟨0, 32, .RW, 1562500000⟩]⟩,
   ⟨0xB4, 1, 0x0, 1, 0x0, false, [⟨0, 16, .RW, 30⟩, ⟨31, 1, .TG, 0⟩]⟩,
   ⟨0xB8, 1, 0x0, 1, 0x0, false, [⟨0, 16, .RO, 30⟩]⟩,
   ⟨0xBC, 1, 0x0, 1, 0x0, false, [⟨0, 16, .RW, 2500⟩]⟩,
   ⟨0xC0, 1, 0x0, 1, 0x0, false, [⟨0, 16, .RO, 0⟩, ⟨16, 16, .RO, 0⟩]⟩,
   ⟨0xC4, 1, 0x0, 1, 0x0, false, [⟨31, 1, .TG, 0⟩]⟩,
   ⟨0x100, 1, 0x0, 1, 0x0, true, [⟨0, 63, .CT, 0⟩, ⟨63, 1, .CT, 0⟩]⟩,
   ⟨0x108, 1, 0x0, 1, 0x0, true, [⟨0, 63, .CT, 0⟩, ⟨63, 1, .CT, 0⟩]⟩,
   ⟨0x110, 1, 0x0, 1, 0x0, true, [⟨0, 63, .CT, 0⟩, ⟨63, 1, .CT, 0⟩]⟩,
   ⟨0x118, 1, 0x0, 1, 0x0, true, [⟨0, 63, .CT, 0⟩, ⟨63, 1, .CT, 0⟩]⟩]

def tabSPARE : List RegRow :=
  [⟨0x8, 1, 0x0, 1, 0x0, false, [⟨0, 5, .RO, 24⟩, ⟨8, 6, .RO, 42⟩, ⟨16, 2, .RO, 2⟩, ⟨20, 9, .RO, 256⟩]⟩,
   ⟨0x80, 24, 0x4, 1, 0x0, false, [⟨0, 6, .RO, 0⟩, ⟨6, 1, .RO, 0⟩, ⟨7, 1, .RO, 0⟩, ⟨8, 6, .RO, 0⟩, ⟨14, 1, .RO, 0⟩, ⟨15, 1, .RO, 0⟩, ⟨31, 1, .RO, 0⟩]⟩,
   ⟨0xE0, 1, 0x0, 1, 0x0, false, [⟨0, 5, .RW, 0⟩, ⟨8, 6, .RW, 0⟩, ⟨31, 1, .TG, 0⟩]⟩,
   ⟨0xE4, 1, 0x0, 1, 0x0, false, [⟨0, 1, .RO, 0⟩, ⟨1, 3, .RO, 0⟩, ⟨8, 5, .RO, 0⟩, ⟨16, 16, .RO, 0⟩]⟩,
   ⟨0xE8, 1, 0x0, 1, 0x0, false, [⟨0, 9, .RO, 0⟩, ⟨16, 9, .RO, 0⟩]⟩,
   ⟨0x100, 1, 0x0, 1, 0x0, true, [⟨0, 63, .CT, 0⟩, ⟨63, 1, .CT, 0⟩]⟩,
   ⟨0x108, 1, 0x0, 1, 0x0, true, [⟨0, 63, .CT, 0⟩, ⟨63, 1, .CT, 0⟩]⟩,
   ⟨0x110, 1, 0x0, 1, 0x0, true, [⟨0, 63, .CT, 0⟩, ⟨63, 1, .CT, 0⟩]⟩]

def tabMGMT : List RegRow :=
  [⟨0x8, 1, 0x0, 1, 0x0, false, [⟨0, 8, .RO, 64⟩, ⟨8, 4, .RO, 8⟩, ⟨12, 4, .RO, 5⟩]⟩,
   ⟨0x80, 1, 0x0, 1, 0x0, false, [⟨0, 1, .RO, 0⟩, ⟨1, 1, .RO, 0⟩, ⟨2, 1, .RO, 0⟩, ⟨3, 1, .RO, 0⟩, ⟨8, 8, .RO, 0⟩]⟩,
   ⟨0x84, 1, 0x0, 1, 0x0, false, [⟨0, 32, .RW, 0⟩]⟩,
   ⟨0x88, 1, 0x0, 1, 0x0, false, [⟨31, 1, .TG, 0⟩]⟩,
   ⟨0x8C, 1, 0x0, 1, 0x0, false, [⟨0, 1, .RO, 0⟩, ⟨1, 1, .RO, 0⟩]⟩,
   ⟨0x90, 2, 0x4, 1, 0x0, false, [⟨0, 32, .RW, 0⟩]⟩,
   ⟨0x98, 1, 0x0, 1, 0x0, false, [⟨0, 16, .RW, 100⟩]⟩,
   ⟨0x9C, 1, 0x0, 1, 0x0, false, [⟨0, 3, .RO, 0⟩, ⟨3, 1, .HS, 0⟩]⟩,
   ⟨0xA0, 1, 0x0, 1, 0x0, false, [⟨0, 8, .RO, 0⟩, ⟨8, 8, .RO, 0⟩, ⟨16, 8, .RO, 0⟩, ⟨24, 8, .RO, 0⟩]⟩,
   ⟨0xA4, 1, 0x0, 1, 0x0, false, [⟨0, 13, .RO, 0⟩, ⟨13, 1, .RO, 0⟩]⟩,
   ⟨0xC0, 1, 0x0, 1, 0x0, false, [⟨0, 8, .RW, 0⟩, ⟨8, 8, .RW, 0⟩, ⟨31, 1, .TG, 0⟩]⟩,
   ⟨0xC4, 1, 0x0, 1, 0x0, false, [⟨0, 2, .RO, 0⟩, ⟨4, 4, .RO, 0⟩, ⟨16, 16, .RO, 0⟩]⟩,
   ⟨0xE0, 8, 0x4, 1, 0x0, false, [⟨0, 32, .RW, 0⟩]⟩,
   ⟨0x100, 16, 0x4, 1, 0x0, false, [⟨0, 32, .RW, 0⟩]⟩,
   ⟨0x140, 16, 0x4, 1, 0x0, false, [⟨0, 32, .RO, 0⟩]⟩,
   ⟨0x180, 1, 0x0, 1, 0x0, false, [⟨0, 5, .RO, 0⟩, ⟨8, 4, .RO, 0⟩]⟩,
   ⟨0x200, 1, 0x0, 1, 0x0, true, [⟨0, 63, .CT, 0⟩, ⟨63, 1, .CT, 0⟩]⟩,
   ⟨0x208, 1, 0x0, 1, 0x0, true, [⟨0, 63, .CT, 0⟩, ⟨63, 1, .CT, 0⟩]⟩,
   ⟨0x210, 1, 0x0, 1, 0x0, true, [⟨0, 63, .CT, 0⟩, ⟨63, 1, .CT, 0⟩]⟩,
   ⟨0x218, 1, 0x0, 1, 0x0, true, [⟨0, 63, .CT, 0⟩, ⟨63, 1, .CT, 0⟩]⟩,
   ⟨0x220, 1, 0x0, 1, 0x0, true, [⟨0, 63, .CT, 0⟩, ⟨63, 1, .CT, 0⟩]⟩,
   ⟨0x228, 1, 0x0, 1, 0x0, true, [⟨0, 63, .CT, 0⟩, ⟨63, 1, .CT, 0⟩]⟩,
   ⟨0x230, 1, 0x0, 1, 0x0, true, [⟨0, 63, .CT, 0⟩, ⟨63, 1, .CT, 0⟩]⟩,
   ⟨0x238, 1, 0x0, 1, 0x0, true, [⟨0, 63, .CT, 0⟩, ⟨63, 1, .CT, 0⟩]⟩]

def tabLEDG : List RegRow :=
  [⟨0x8, 1, 0x0, 1, 0x0, false, [⟨0, 9, .RO, 480⟩]⟩,
   ⟨0x80, 1, 0x0, 1, 0x0, false, [⟨0, 2, .RO, 0⟩, ⟨2, 2, .RO, 0⟩, ⟨4, 2, .RO, 0⟩, ⟨6, 2, .RO, 0⟩, ⟨8, 2, .RO, 0⟩]⟩,
   ⟨0x84, 1, 0x0, 1, 0x0, false, [⟨0, 1, .TG, 0⟩, ⟨2, 1, .TG, 0⟩, ⟨4, 1, .TG, 0⟩]⟩,
   ⟨0x88, 1, 0x0, 1, 0x0, false, [⟨0, 16, .RW, 3600⟩, ⟨31, 1, .TG, 0⟩]⟩,
   ⟨0x8C, 1, 0x0, 1, 0x0, false, [⟨0, 32, .RO, 0⟩]⟩,
   ⟨0x90, 1, 0x0, 1, 0x0, true, [⟨0, 64, .RO, 0⟩]⟩,
   ⟨0x98, 1, 0x0, 1, 0x0, false, [⟨0, 6, .RW, 0⟩]⟩,
   ⟨0x9C, 1, 0x0, 1, 0x0, false, [⟨0, 16, .RO, 0⟩, ⟨16, 6, .RO, 0⟩, ⟨31, 1, .RO, 0⟩]⟩,
   ⟨0xA0, 1, 0x0, 1, 0x0, true, [⟨0, 64, .RO, 0⟩]⟩,
   ⟨0xA8, 1, 0x0, 1, 0x0, true, [⟨0, 64, .RO, 0⟩]⟩,
   ⟨0xB0, 1, 0x0, 1, 0x0, true, [⟨0, 64, .RO, 0⟩]⟩,
   ⟨0xB8, 1, 0x0, 1, 0x0, true, [⟨0, 63, .CT, 0⟩, ⟨63, 1, .CT, 0⟩]⟩,
   ⟨0xC0, 1, 0x0, 1, 0x0, true, [⟨0, 63, .CT, 0⟩, ⟨63, 1, .CT, 0⟩]⟩,
   ⟨0xC8, 1, 0x0, 1, 0x0, true, [⟨0, 63, .CT, 0⟩, ⟨63, 1, .CT, 0⟩]⟩,
   ⟨0xD0, 1, 0x0, 1, 0x0, true, [⟨0, 63, .CT, 0⟩, ⟨63, 1, .CT, 0⟩]⟩,
   ⟨0xD8, 5, 0x8, 1, 0x0, true, [⟨0, 63, .CT, 0⟩, ⟨63, 1, .CT, 0⟩]⟩,
   ⟨0x100, 480, 0x8, 1, 0x0, true, [⟨0, 63, .CT, 0⟩, ⟨63, 1, .CT, 0⟩]⟩]

def tabTAG : List RegRow :=
  [⟨0x8, 1, 0x0, 1, 0x0, false, [⟨0, 16, .RO, 8192⟩, ⟨16, 8, .RO, 32⟩]⟩,
   ⟨0x80, 1, 0x0, 1, 0x0, false, [⟨0, 1, .RO, 0⟩, ⟨1, 1, .RO, 0⟩, ⟨2, 1, .RO, 0⟩, ⟨4, 12, .RO, 0⟩, ⟨16, 8, .RO, 0⟩]⟩,
   ⟨0x84, 1, 0x0, 1, 0x0, false, [⟨0, 13, .RW, 0⟩, ⟨31, 1, .TG, 0⟩]⟩,
   ⟨0x88, 1, 0x0, 1, 0x0, false, [⟨0, 32, .RO, 0⟩]⟩,
   ⟨0xA0, 8, 0x4, 1, 0x0, false, [⟨0, 32, .RO, 0⟩]⟩,
   ⟨0xC0, 8, 0x4, 1, 0x0, false, [⟨0, 32, .RW, 0⟩]⟩,
   ⟨0xE0, 1, 0x0, 1, 0x0, false, [⟨0, 2, .RW, 0⟩, ⟨31, 1, .TG, 0⟩]⟩,
   ⟨0x100, 1, 0x0, 1, 0x0, true, [⟨0, 63, .CT, 0⟩, ⟨63, 1, .CT, 0⟩]⟩,
   ⟨0x108, 1, 0x0, 1, 0x0, true, [⟨0, 63, .CT, 0⟩, ⟨63, 1, .CT, 0⟩]⟩,
   ⟨0x110, 1, 0x0, 1, 0x0, true, [⟨0, 63, .CT, 0⟩, ⟨63, 1, .CT, 0⟩]⟩,
   ⟨0x118, 1, 0x0, 1, 0x0, true, [⟨0, 63, .CT, 0⟩, ⟨63, 1, .CT, 0⟩]⟩,
   ⟨0x120, 1, 0x0, 1, 0x0, true, [⟨0, 63, .CT, 0⟩, ⟨63, 1, .CT, 0⟩]⟩,
   ⟨0x128, 1, 0x0, 1, 0x0, true, [⟨0, 63, .CT, 0⟩, ⟨63, 1, .CT, 0⟩]⟩]

def tabHOST : List RegRow :=
  [⟨0x8, 1, 0x0, 1, 0x0, false, [⟨0, 2, .RO, 2⟩, ⟨4, 5, .RO, 16⟩, ⟨12, 4, .RO, 6⟩, ⟨16, 4, .RO, 8⟩, ⟨24, 8, .RO, 128⟩]⟩,
   ⟨0xC, 1, 0x0, 1, 0x0, false, [⟨0, 16, .RO, 8030⟩, ⟨16, 16, .RO, 2400⟩]⟩,
   ⟨0x80, 2, 0x4, 1, 0x0, false, [⟨0, 1, .RO, 0⟩, ⟨1, 5, .RO, 0⟩, ⟨6, 3, .RO, 0⟩, ⟨9, 1, .RO, 0⟩, ⟨10, 1, .RO, 0⟩, ⟨16, 8, .RO, 0⟩]⟩,
   ⟨0x88, 1, 0x0, 1, 0x0, false, [⟨0, 8, .RW, 170⟩]⟩,
   ⟨0x8C, 1, 0x0, 1, 0x0, false, [⟨0, 2, .RO, 0⟩, ⟨2, 2, .RO, 0⟩, ⟨4, 2, .RO, 0⟩, ⟨6, 2, .RO, 0⟩, ⟨8, 2, .RO, 0⟩, ⟨10, 2, .RO, 0⟩, ⟨12, 2, .RO, 0⟩, ⟨14, 2, .RO, 0⟩]⟩,
   ⟨0x100, 1, 0x0, 1, 0x0, true, [⟨0, 63, .CT, 0⟩, ⟨63, 1, .CT, 0⟩]⟩,
   ⟨0x108, 1, 0x0, 1, 0x0, true, [⟨0, 63, .CT, 0⟩, ⟨63, 1, .CT, 0⟩]⟩,
   ⟨0x110, 1, 0x0, 1, 0x0, true, [⟨0, 63, .CT, 0⟩, ⟨63, 1, .CT, 0⟩]⟩,
   ⟨0x118, 1, 0x0, 1, 0x0, true, [⟨0, 63, .CT, 0⟩, ⟨63, 1, .CT, 0⟩]⟩,
   ⟨0x120, 1, 0x0, 1, 0x0, true, [⟨0, 63, .CT, 0⟩, ⟨63, 1, .CT, 0⟩]⟩,
   ⟨0x128, 1, 0x0, 1, 0x0, true, [⟨0, 63, .CT, 0⟩, ⟨63, 1, .CT, 0⟩]⟩,
   ⟨0x130, 1, 0x0, 1, 0x0, true, [⟨0, 63, .CT, 0⟩, ⟨63, 1, .CT, 0⟩]⟩,
   ⟨0x138, 1, 0x0, 1, 0x0, true, [⟨0, 63, .CT, 0⟩, ⟨63, 1, .CT, 0⟩]⟩,
   ⟨0x140, 1, 0x0, 1, 0x0, true, [⟨0, 63, .CT, 0⟩, ⟨63, 1, .CT, 0⟩]⟩,
   ⟨0x148, 1, 0x0, 1, 0x0, true, [⟨0, 63, .CT, 0⟩, ⟨63, 1, .CT, 0⟩]⟩]

end Sys2Proof.Machine
end

