-- ==== Sys2Proof/Machine/State.lean ====
section
/-! DEFINITION. The state of the module as plain data, and the state at the entry to FUSED. Registers are held as
fields in sparse files keyed by `Fld.key`; what the registers do not show is in the records below. -/

namespace Sys2Proof.Machine

/-- Reasons a command would stop the run. No command of this block stops it: every error of the spec is an effect on
the registers (R53). -/
inductive Fault where
  /-- Raised by nothing: kept so that the type has a member. Safe. -/
  | none
  deriving DecidableEq, Repr

/-- Reasons a command has no meaning here. -/
inductive Refusal where
  /-- A command without a meaning in this model. Safe: no claim about it can be proved. -/
  | notModelled (mnemonic : String)
  deriving DecidableEq, Repr

/-- The register file (R38, R41 to R49). -/
structure RegFile where
  /-- Every field but the staged ones. -/
  cells  : Cells Nat
  /-- The four copies of the staged fields (R47). -/
  shadow : Cells Nat
  pend   : Cells Nat
  act    : Cells Nat
  prev   : Cells Nat
  /-- The holding registers, by path and page (R38). -/
  hold   : Cells Word
  /-- The write buffers: the offset and the buffered low half, by path and page (R38). -/
  wbuf   : Cells (Option (Nat × Word))
  deriving DecidableEq, Repr

/-- A commit in progress (R57 to R60). -/
structure CommitSt where
  /-- The partitions of the scope, as a mask, whether module-wide pages are in it, and the bases of its pages. -/
  parts     : Nat
  glob      : Bool
  pages     : List Nat
  /-- A commit cycle has taken place since the last GO; T as that cycle read it. -/
  cycleDone : Bool
  epoch     : Nat
  /-- The tick at which the queues of the scope stopped issuing. -/
  stop      : Option Nat
  /-- The tick S + D at which the deadline passes, once a commit cycle has set it. -/
  deadline  : Option Nat
  /-- The tick at which the scope entered HOLD, or of the last RECOMMIT (R452); a RECOMMIT is being tried. -/
  heldAt    : Option Nat
  again     : Bool
  /-- At the commit epoch an affected partition had not stopped, so that MOD does not apply (R35). -/
  refused   : Bool
  /-- Pages of the scope that were soft reset, and do not acknowledge before a RECOMMIT (R51). -/
  barred    : List Nat
  /-- The partitions whose FRAC_P the CLK page has applied, as a mask (R73). -/
  frac      : Nat
  /-- The queue and ring index of the COMMIT command that requested it (R169). -/
  byQueue   : Option (Nat × Nat)
  /-- The generation each page of the scope held before it applied this one, by page (R59). -/
  oldGen    : Cells Nat
  deriving DecidableEq, Repr

/-- One row's clock fraction: the effective fraction, and the tick of its next move while it is stepping (R72). -/
structure RowFrac where
  eff : Nat
  due : Option Nat
  deriving DecidableEq, Repr

/-- A scheduled emergency operation (R74): whether it applies or releases, its fraction, its epoch, and its source as
EMERG_STAT.SOURCE numbers it. -/
structure EmergOp where
  apply : Bool
  frac  : Nat
  epoch : Nat
  src   : Nat
  deriving DecidableEq, Repr

/-- Clocks and clock fractions (R72 to R77). -/
structure ClkSt where
  /-- The clk_tb edges so far, which a set of TIME leaves alone (R77): intervals are measured on it. -/
  edges   : Nat
  rows    : Cells RowFrac
  pending : Option EmergOp
  /-- The emergency fraction in force while EMERG_STAT.ACTIVE is 1, and whether a Daxvo message applied it. -/
  frac    : Nat
  daxvo   : Bool
  /-- CEIL_EFF at the last apply of the cap, while the cap is in force (R417). -/
  capCeil : Option Nat
  /-- The edge of the last set of TIME to an odd value, at which a shortened frame begins (R77). -/
  cut     : Option Nat
  deriving DecidableEq, Repr

/-- A foreign master (R78): the port that hears it, whether over UDP, and its last Announce. -/
structure Foreign where
  port : Port
  udp  : Bool
  ann  : Announce
  deriving DecidableEq, Repr

/-- The PTP boundary clock (R78, R79). Times are in picoseconds. -/
structure PtpSt where
  /-- The data set of the module's own clock, as an Announce of its own. -/
  own      : Announce
  /-- The foreign masters heard. -/
  heard    : List Foreign
  /-- The origin and arrival times of the last Sync. -/
  t1       : Nat
  t2       : Nat
  /-- A two-step Sync awaits its Follow_Up. -/
  awaitFu  : Bool
  /-- The departure time of the last Delay_Req, while its answer is awaited. -/
  t3       : Option Nat
  /-- The edge of the last valid Sync, and whether an offset has been measured (R79). -/
  lastSync : Option Nat
  measured : Bool
  /-- The UTC offset last received, in seconds (R475). -/
  utc      : Option Int
  deriving DecidableEq, Repr

/-- What one snapshot froze (R55, R83): its sequence number, its tick, and the registers as they were. A page takes
part if its PG_CTRL.SNAP_EN was 1 and it was powered. -/
structure SnapRec where
  seq       : Nat
  tick      : Nat
  /-- A Drydown, or the stop of a warm reset, was in progress (R86, R448). -/
  dry       : Bool
  rails     : Cells Bool
  cells     : Cells Nat
  act       : Cells Nat
  deriving DecidableEq, Repr

/-- The snapshot trigger (R82 to R86). -/
structure SnapSt where
  /-- The snapshots taken, the latest first. -/
  taken    : List SnapRec
  /-- The edges at which first-error captures became valid and that have not fired yet. -/
  errRise  : List Nat
  /-- The edges at which software triggers fire, each with the queue and index of the SNAP command it comes from, if any; and
  those at which falls of SNAP_IN_N fire. -/
  sw       : List (Nat × Option (Nat × Nat))
  pin      : List Nat
  /-- The edge at which SNAP_OUT_N is released, while it is driven low. -/
  outUntil : Option Nat
  deriving DecidableEq, Repr

/-- One entry of the error record queue (R469). -/
structure ErrRec where
  rseq    : Nat
  err     : Err
  cls     : Nat
  pgId    : Nat
  source  : Nat
  first   : Nat
  last    : Nat
  step    : Nat
  attempt : Nat
  count   : Nat
  deriving DecidableEq, Repr

/-- The command that owns a piece of work: its queue, its index, its partition and its step tag with the attempt
(R378); no tag inside an evaluation bracket. -/
structure Owner where
  queue : Nat
  idx   : Nat
  part  : Nat
  step  : Option (Nat × Nat)
  deriving DecidableEq, Repr

/-- A pending release (R366): the destination node, the source granule's and the destination granule's offsets, and
the MOVE that waits for it, if it is still in progress. -/
structure PendingRelease where
  /-- The MOVE's source node, as it was when the granule flipped. -/
  from_ : Nat
  node  : Nat
  src   : Nat
  dst   : Nat
  owner : Option Owner
  deriving DecidableEq, Repr

/-- A field spare record (R444), and whether its CRC holds. -/
structure SpareRec where
  row    : Nat
  pcol   : Nat
  tick   : Nat
  serial : Nat
  seq    : Nat
  ok     : Bool
  deriving DecidableEq, Repr

/-- The ledger counts of one class of a link (R350). -/
structure LedgerCount where
  sent     : Nat
  refund   : Nat
  returned : Nat
  received : Nat
  freed    : Nat
  deriving DecidableEq, Repr

/-- What the island keeps of one link's ledger (R352, R474): the peer (node and link) and the totals at the last check,
SENT − REFUND and RECEIVED; the totals RECEIVED and FREED when the link last went DOWN; the codewords booked as lost, and
whether the last peer has answered since this module joined. -/
structure LinkLedger where
  peer      : Option (Nat × Nat)
  /-- The ledger counts of each class as they were copied at the last check (R352). -/
  counts    : List LedgerCount
  /-- The values of the marker last checked: sent_net, RECEIVED and FREED of each class. -/
  checked   : List (Nat × Nat × Nat)
  /-- SENT less REFUND and RECEIVED, over the classes, as they stood at the last entry to FUSED (R474). -/
  atFused   : Nat × Nat
  downRx    : Nat
  downFreed : Nat
  lost      : Nat
  answered  : Bool
  deriving DecidableEq, Repr

/-- Nothing yet known of a link. -/
def LinkLedger.empty : LinkLedger := ⟨none, [], [], (0, 0), 0, 0, 0, true⟩

/-- The totals of a link: SENT less REFUND, and RECEIVED, over its classes (R472, R474). -/
def LinkLedger.tx (x : LinkLedger) : Nat := (x.counts.map fun c => c.sent - c.refund).sum
def LinkLedger.rx (x : LinkLedger) : Nat := (x.counts.map LedgerCount.received).sum

/-- An entry of the always-on log: an error of class 2 or higher (R371), a repair by row shift, with its row and physical
column (R30), a further start of Drydown (R426), a step of Drydown whose rail is already off (R428), and the Drydown record
(R427). -/
inductive LogEntry where
  | error (r : ErrRec)
  | repair (tick row pcol : Nat)
  | start (tick cause : Nat)
  | railOff (tick step : Nat)
  | drydown (tick cause rails : Nat)
  deriving DecidableEq, Repr

/-- A seal of the ledgers in configuration flash (R425, R472): its sequence and tick, whether a Drydown made it, the
ledger's register fields by `Fld.key`, the ledgers of the links, and the pending releases (R453). -/
structure Seal where
  seq      : Nat
  tick     : Nat
  closed   : Bool
  cells    : Cells Nat
  links    : Cells LinkLedger
  releases : List PendingRelease
  deriving DecidableEq, Repr

/-- What the always-on island keeps besides its registers. -/
structure IslandSt where
  /-- The error record queue (R469), oldest first, and its sequence and overflow counts. -/
  queue    : List ErrRec
  rseq     : Nat
  overflow : Nat
  /-- The class 0 errors of each page since FUSED, and the edge of the last report of them (R371). -/
  zeros    : Cells Nat
  zeroAt   : Nat
  /-- The always-on log (R371), oldest first. -/
  log      : List LogEntry
  /-- Pending releases, in the always-on SRAM (R366). -/
  releases : List PendingRelease
  /-- The ledger of each link. -/
  links    : Cells LinkLedger
  /-- The field spare records of configuration flash (R444). -/
  spares   : List SpareRec
  /-- The insertions counted of each part (R475). -/
  inserts  : Cells Nat
  /-- The seals of the ledger area, the latest first; at most two copies (R472). -/
  seals    : List Seal
  deriving DecidableEq, Repr

/-- The fuses (R434), in the order of the table. `spares` is by row × 2 + entry: the column in bits 5:0 and the valid bit
in bit 6; `trims` and `paths` are by domain. -/
structure Fuses where
  serial   : Nat
  variant  : Nat
  stepping : Nat
  profiles : Nat
  spares   : Cells Nat
  trims    : Cells Nat
  paths    : Cells Nat
  cBus     : Nat
  flowMin  : Nat
  hash0    : Nat
  hash1    : Nat
  revoke0  : Bool
  svn      : Nat
  crc      : Nat
  deriving DecidableEq, Repr

/-- Bring-up (R436 to R451) and the image slots of configuration flash (R438). -/
structure BootSt where
  /-- The tick of entry to FUSED or to ENFLEURAGE, and the tick at which VCARD rose. -/
  entered : Nat
  vcardAt : Nat
  /-- The next turn of the rail sequencer: 0 to 12, then 13, the check of the last rail; 14 once step 1 has ended. -/
  turn    : Nat
  /-- Image slots tried in this Enfleurage, as a mask, and the tick of the load. -/
  tried   : Nat
  loadAt  : Option Nat
  /-- Steps of Enfleurage that have ended, as a mask by step number, and the tick at which step 6 began, which is that of the
  end of step 4. -/
  done    : Nat
  linksAt : Nat
  /-- The tick from which the watchdog counts, while it runs (R451). -/
  wdogAt  : Option Nat
  /-- The boot preference record. -/
  prefer  : Nat
  /-- The image slots by slot × 2^25 + offset; an erased byte reads 0xFF. -/
  images  : Cells Byte
  deriving DecidableEq, Repr

/-- Management (R456 to R468). -/
structure MgmtSt where
  /-- The tick from which a missing heartbeat counts, and that of the last mirror. -/
  hbAt     : Nat
  mirrorAt : Nat
  /-- A planned takeover waits for the standby's first heartbeat (R459). -/
  planned  : Bool
  /-- The servo loop is absent: the lead was lost or hands over, and no lead has resumed its loops since (R81, R460). -/
  servoOff : Bool
  /-- The last SEQ accepted from each controller slot, plus 1 (R462). -/
  ctlSeq   : Cells Nat
  /-- Telemetry periods skipped since the last message (R468). -/
  skipped  : Nat
  /-- The tick at which the firmware of a card stopped or began to load, plus 1; 0 while it is not known to have stopped (R457, R460). -/
  loads    : Cells Nat
  /-- The classes whose work asked for more of the controller than they got in the last 10 ms, as a mask (R465). -/
  unmet    : Nat
  /-- Consecutive 10 ms in which class 3 did not receive its share, and in which it did, since DECIM_LOG2 could last move (R468). -/
  short    : Nat
  fed      : Nat
  deriving DecidableEq, Repr

/-- A lifetime record of management flash (R475): its kind, its values, and its calendar. -/
structure LifeRec where
  kind    : Nat
  values  : List Nat
  tick    : Nat
  timeSet : Bool
  utc     : Option Int
  deriving DecidableEq, Repr

/-- Lifetime records (R475): the records in the management flash of each card, in the order taken (R477); whether the wafer
has exceeded 85 °C since the last thermal cycle, the cycles, the highest wafer temperature and the thermal trips. -/
structure LifeSt where
  records : Cells (List LifeRec)
  hot     : Bool
  cycles  : Nat
  maxC    : Nat
  trips   : Nat
  deriving DecidableEq, Repr

/-- The configuration of a function after its reset: the values of the PCIe specification (PRESUMED, log entry 120). -/
def PortCfg.reset : PortCfg := ⟨false, false, 0, 128, 512, false, false, false⟩

/-- A transfer to or from host memory that has requests to send (R493, R532): whose it is, its place in the order of issue, and
what is left of it: the address, the number of bytes, for a read the entry it fetches for, and for a posted write the bytes, whether
they carry Relaxed Ordering (R494), and whether its last request completes a piece of its command. -/
structure HostReq where
  owner   : Owner
  id      : Nat
  addr    : Nat
  n       : Nat
  entry   : Option Nat
  bytes   : List Byte
  relaxed : Bool
  piece   : Bool
  deriving DecidableEq, Repr

/-- The host interface (spec/18): the tick of a host loss that has not expired; the partitions paused by a loss, those that
wait to be parked since its expiry, and those paused by a VF's reset, as masks; the partitions claimed through each port, as
a mask (FN_CLAIMED); FN_REARM.VECTOR by function; and the partitions for which a write of PART_PORT has not taken effect, as a
mask (R500). -/
structure HostSt where
  lostAt  : Option Nat
  paused  : Nat
  toPark  : Nat
  flr     : Nat
  claimed : Cells Nat
  rearm   : Cells Nat
  moves   : Nat
  /-- By port: the configuration of its functions, and the errors that its Advanced Error Reporting has logged, as a mask: 1
  correctable, 2 a poisoned TLP, 4 a failed ECRC (R486, R495). -/
  cfg     : Cells PortCfg
  aer     : Cells Nat
  /-- Transfers with requests to send, in the order of issue, and the id of the next (R532). -/
  reqs    : List HostReq
  nextReq : Nat
  /-- By port: the read requests sent and not answered, the last posted writes sent, which its replay buffer may still hold, and the
  partition served last, plus 1 (R486, R499, R532). -/
  reads   : Cells (List HostReq)
  held    : Cells (List HostReq)
  turn    : Cells Nat
  /-- What the host answers to reads of a 64-byte line of its memory, by line (R495). -/
  answers : Cells HostAnswer
  deriving DecidableEq, Repr

/-- The MSI-X latches, pending bits and unmasked vectors of every function, by `vecKey`, and the words of the MSI-X tables by four
times the key: the two halves of a vector's message address, and its data (R497). -/
structure MsixSt where
  latch    : Cells Bool
  pba      : Cells Bool
  unmasked : Cells Bool
  table    : Cells Nat
  deriving DecidableEq, Repr

/-- An admitted remote write whose last word has not landed (R132). -/
structure Landing where
  tile   : Nat
  win    : Nat
  off    : Nat
  words  : List Word
  sender : Sender
  owner  : Option Owner
  /-- The profile of the command that sent it, 0 if it names none (R88). -/
  prof   : Nat
  /-- The length of its first seal span, and its carried seals (R374). -/
  first  : Nat
  seals  : List Word
  deriving DecidableEq, Repr

/-- The tiles: their scratchpads, recipe slots and remote writes (spec/05). -/
structure TileSt where
  /-- Scratchpad words, by `wordKey`. -/
  words   : Cells Word
  /-- Written bits of 64-byte lines, by `lineKey` (R125). -/
  written : Cells Bool
  /-- Words of poisoned entries not yet written or cleared since the poisoning, by `wordKey` (R128). -/
  poison  : Cells Bool
  /-- Words, neither written nor cleared since, of entries that hold a bit error not yet read, by `wordKey`: 1 single, 2 double
  (R128). -/
  flaws   : Cells Nat
  /-- The profile of the contributions in a slot of an accumulate window, by the `wordKey` of its first word (R88). -/
  profs   : Cells Nat
  /-- The image words of the loaded recipes, by tile × 4 + slot (R148). -/
  recipes : Cells (List Word)
  /-- Remote writes admitted and not yet complete, oldest first. -/
  landing : List Landing
  /-- The next line and the number of lines left of the clear in progress in a tile (R127). -/
  clears  : Cells (Nat × Nat)
  /-- Errors not yet met (log entry 104): the bits that change in the bytes of each transfer to come, and what each adder stage to
  come adds wrong (R109, R375). -/
  wire    : List (List (Nat × Byte))
  slips   : List (Option Slip)
  deriving DecidableEq, Repr

/-- One granule: its state, 0 FREE, 1 IN, 2 HOME, 3 OUT (R256), and the context that owns it. -/
structure Gran where
  st  : Nat
  ctx : Nat
  deriving DecidableEq, Repr

/-- One transfer of a STREAM that Sillage carries (R212): its source address and bytes, its formats, its destination
tiles, and the window and word offset it lands at. -/
structure Xfer where
  /-- The model's own number of the transfer. -/
  id    : Nat
  owner : Owner
  src   : Nat
  n     : Nat
  sfmt  : Nat
  dfmt  : Nat
  tiles : List Nat
  win   : Nat
  off   : Nat
  /-- The profile of the STREAM, 0 for none. -/
  prof  : Nat
  deriving DecidableEq, Repr

/-- An injection group: its transfers, and the flits of it already injected (R219, R224). -/
structure Group where
  xfers : List Xfer
  flits : Nat
  deriving DecidableEq, Repr

/-- An entry of a merge table, with its fetch buffer (R217). Its number is the model's own. -/
structure MergeEntry where
  id      : Nat
  eng     : Nat
  xfers   : List Xfer
  /-- Injection groups not yet injected whole. -/
  groups  : List Group
  born    : Nat
  hold    : Nat
  maxJoin : Nat
  /-- The tick at which its fetch issued; whether FETCH_SLOW has been raised for it. -/
  issued  : Option Nat
  slow    : Bool
  /-- What the source gave at the issue (R218): bytes with their carried seals (R374), or the tier's error. -/
  bytes   : List Byte
  seals   : List Word
  err     : Option Err
  /-- The data is in the fetch buffer, converted. -/
  words   : Option (List Word)
  deriving DecidableEq, Repr

/-- One tile's share of an injected transfer: flits sent and passed to the scratchpad, of a total (R214, R223). -/
structure Drop where
  eng    : Nat
  tile   : Nat
  xfer   : Xfer
  /-- The admitted write, unless the tile refused it. -/
  write  : Option Landing
  total  : Nat
  sent   : Nat
  passed : Nat
  deriving DecidableEq, Repr

/-- A STREAM MOVE in progress (R261): granules taken OUT and granules flipped, of a total, and the granule it fails at once those
before it have flipped (R263). -/
structure Move where
  owner   : Owner
  src     : Nat
  dst     : Nat
  total   : Nat
  out     : Nat
  flipped : Nat
  failed  : Option (Nat × Err)
  deriving DecidableEq, Repr

/-- A STREAM with its bounds resolved. -/
structure StreamWork where
  op      : Nat
  src     : Nat
  dst     : Nat
  rows    : Nat
  bytes   : Nat
  sStride : Nat
  dStride : Nat
  tileset : Nat
  sfmt    : Nat
  dfmt    : Nat
  bcast   : Bool
  kind    : Nat
  eng     : Nat
  profile : Nat
  deriving DecidableEq, Repr

/-- One piece of a STREAM: its source address as a byte count of its space, its bytes, and the destination byte count
that precedes it from DST (R212). -/
structure Piece where
  src : Nat
  n   : Nat
  dst : Nat
  deriving DecidableEq, Repr

/-- A gathered read in progress (R232): its dense array, the rows its list names, the next of them to be read, and the index
read last. -/
structure Gather where
  owner : Owner
  work  : StreamWork
  base  : Nat
  count : Nat
  next  : Nat
  prev  : Option Nat
  deriving DecidableEq, Repr

/-- Transfers to another node that wait for a slot (R181, R212): of a WRITE, or of a granule of a MOVE, their source bytes
counted from the STREAM's source. -/
structure Post where
  owner : Owner
  gran  : Option Nat
  work  : StreamWork
  rest  : List Piece
  deriving DecidableEq, Repr

/-- STREAMs in progress (spec/08, R261). -/
structure StreamSt where
  /-- Transfers that their engine has not accepted, in issue order: the engine and the transfer. -/
  waiting : List (Nat × Xfer)
  entries : List MergeEntry
  drops   : List Drop
  /-- Flit credits in use, by engine × 1024 + tile (R223). -/
  credits : Cells Nat
  /-- The queue each engine served last, and the slots each queue holds (R181). -/
  lastQ   : Cells Nat
  held    : Cells Nat
  nextId  : Nat
  /-- Engines that have injected a flit in this tick (R227). -/
  sent    : List Nat
  moves   : List Move
  gathers : List Gather
  posts   : List Post
  deriving DecidableEq, Repr

/-- A PLACE or RELEASE in progress (R257, R258): granule keys not yet HOME, or not yet FREE. -/
structure GranOp where
  release : Bool
  ctx     : Nat
  left    : List Nat
  deriving DecidableEq, Repr

/-- The tiers, and host memory (spec/10). Places are keyed as `placeKey` says: a bonded or stack byte by its offset,
a flash byte by its sled and its byte within the sled. -/
structure MemSt where
  bytes   : Cells Byte
  /-- The home map, by granule. -/
  grans   : Cells Gran
  /-- Poisoned 64-byte lines (R273, R277), and 512-byte blocks poisoned by a failed seal (R376). -/
  poison  : Cells Bool
  blkBad  : Cells Bool
  /-- 512-byte blocks whose stored seal does not match their bytes (R376). -/
  badSeal : Cells Bool
  /-- Code words that hold an error not yet read, by `flawKey`: 1 corrected, 2 uncorrectable (R273, R277). -/
  flaws   : Cells Nat
  /-- The errors met in a bonded region, by tile: offset, edge, and whether uncorrectable (R274); and those met in a channel
  of a stack, by stack × 16 + channel: edge, and whether uncorrectable (R278). -/
  rowErrs  : Cells (List (Nat × Nat × Bool))
  chanErrs : Cells (List (Nat × Bool))
  /-- Granules of a RELEASE that admit no new access (R258). -/
  leaving : Cells Bool
  /-- The PLACE or RELEASE in progress. -/
  op      : Option GranOp
  /-- Spared rows of each bank of a bonded region, by tile × 16 + bank (R274). -/
  spared  : Cells Nat
  /-- Tiles whose bonded region has failed (R274), and those whose granules have left TOTAL with a failed region (R267). -/
  lost    : Cells Bool
  gone    : Cells Bool
  /-- The records of the sleds present: granule, state and context (R279). -/
  sledRec : Cells (List (Nat × Nat × Nat))
  /-- Positions that hold a sled beyond the fused count, unpowered (R6). -/
  extra   : Cells Bool
  /-- Sleds being released, by position, and apertures being disabled, by 16 + n: they admit no new access (R254, R281). -/
  closing : Cells Bool
  /-- The channel, plus 1, that a stack is sparing (R278). -/
  sparing : Cells Nat
  /-- Host memory; an address it does not list is not backed. -/
  host    : Cells Byte
  deriving DecidableEq, Repr

/-- A command issued and not yet complete (R176 to R178). -/
structure Flight where
  idx      : Nat
  cls      : Nat
  op       : Nat
  tag      : Nat
  irq      : Bool
  /-- The counter it advances and by how much. -/
  done     : Option (Nat × Nat)
  owner    : Owner
  /-- Issued inside an evaluation bracket. -/
  eval     : Bool
  deadline : Option Nat
  missed   : Bool
  /-- The tiles its work is in. -/
  tiles    : List Nat
  /-- Pieces of its work not yet done: transfers, granules, rounds, copies. -/
  left     : Nat
  /-- The error it ends with once its work has ended. -/
  err      : Option Err
  deriving DecidableEq, Repr

/-- A command that ended with a fault and waits for a RESUME (R183); `own` if the CQ page itself raises the code;
`shown` once the queue has become faulted at it. -/
structure FaultRec where
  idx   : Nat
  err   : Err
  tag   : Nat
  own   : Bool
  shown : Bool
  deriving DecidableEq, Repr

/-- What one queue holds besides its registers (spec/06). -/
structure QState where
  flights  : List Flight
  /-- Indices at or beyond HEAD that have issued, by run-ahead or before a RETRY of an earlier one (R180, R184). -/
  ahead    : List Nat
  /-- Completed indices that DONE has not passed. -/
  finished : List Nat
  /-- Commands that ended with a fault, not yet resumed (R183). -/
  faults   : List FaultRec
  /-- Conditions of the command at HEAD that have held at the end of a cycle (R174): 0 the header's, 1 to 5 the body's. -/
  met      : List Nat
  /-- The tick since which the command at HEAD has waited, and whether WAIT_LIMIT has been raised for it (R176). -/
  since    : Nat
  limited  : Bool
  /-- Indices from DONE on whose missed deadline has been counted (R186). -/
  missed   : List Nat
  /-- The index from which the commands of the open bracket that have not issued are abandoned (R187). -/
  abandonAt : Option Nat
  /-- The open evaluation bracket: its WVER and the version it reads (R304). -/
  bracket  : Option (Nat × Nat)
  /-- The step and attempt of the last step gate the queue issued (R378, R393). -/
  gate     : Option (Nat × Nat)
  deriving DecidableEq, Repr

/-- The queues, and what the issue of commands has in progress. -/
structure QueueSt where
  qs : Cells QState
  deriving DecidableEq, Repr

/-- The signal counters, by number (R173). -/
structure SigSt where
  ctr   : Cells Nat
  ovf   : Cells Bool
  alloc : Cells Bool
  deriving DecidableEq, Repr

/-- A checkpoint (R394): counters with their values, bound registers by queue, and the five fields of each group
entry. -/
structure Ckpt where
  ctrs   : List (Nat × Nat)
  bounds : List (Nat × List Nat)
  groups : List (Nat × List Nat)
  deriving DecidableEq, Repr

/-- A verdict message (R387): kind 3 clean, kind 4 retraction. -/
structure Verdict where
  kind  : Nat
  node  : Nat
  part  : Nat
  step  : Nat
  att   : Nat
  cause : Nat
  tag   : Nat
  deriving DecidableEq, Repr

/-- One attempt of a step of a partition, open or awaiting its flip (R385, R390). -/
structure Run where
  part      : Nat
  step      : Nat
  att       : Nat
  /-- The tick of its close. -/
  closed    : Option Nat
  /-- The first mark that attached to it: its cause code and its tick (R377). -/
  mark      : Option (Nat × Nat)
  /-- The local verdict has been posted clean; the final verdict is clean; the kind 3 or kind 4 has been sent. -/
  local3    : Bool
  final3    : Bool
  sent3     : Bool
  sent4     : Bool
  /-- VERDICT_LATE has been raised for it (R385), and VERDICT_SLOW (R301). -/
  late      : Bool
  slow      : Bool
  /-- The row and physical column of the original tile that a Nose outcome implicated (R384). -/
  impl      : Option (Nat × Nat)
  /-- Node-group members and peers that its verdict goes to: node, partition (R386). -/
  dests     : List (Nat × Nat)
  /-- Sources with a kind 3 recorded. -/
  clean     : List (Nat × Nat)
  /-- Messages for the next attempt (R389). -/
  held      : List Verdict
  ckpt      : Option Ckpt
  deriving DecidableEq, Repr

/-- A COMPUTE as a tile runs it: profile, operation, flags and the descriptor's fields with resolved bounds. -/
structure Work where
  profile : Nat
  op      : Nat
  cflags  : Nat
  aFmt    : Nat
  bFmt    : Nat
  outFmt  : Nat
  dflags  : Nat
  m       : Nat
  n       : Nat
  k       : Nat
  recipe  : Nat
  totalK  : Nat
  aAddr   : Nat
  aStride : Nat
  bAddr   : Nat
  bStride : Nat
  cAddr   : Nat
  cStride : Nat
  anchor  : Nat
  init    : Nat
  seed    : Nat
  step    : Nat
  base    : Nat
  piRow   : Nat
  piTrow  : Nat
  piTcol  : Nat
  deriving DecidableEq, Repr

/-- A sample unit of a COMPUTE (R381): the operand words it reads in its tile, the anchor codes it uses, four to a word, and the
words it writes, each with the bits that are the unit's; and of a MAP the port table, a parameter of the command, and the image of
its recipe as it was loaded. -/
structure SampleUnit where
  reads  : List Nat
  codes  : List Word
  outs   : List (Nat × Word)
  params : List (Nat × Word)
  image  : List Word
  deriving DecidableEq, Repr

/-- A duplicate of a sample unit (R384). -/
structure Dup where
  owner   : Owner
  tile    : Nat
  checker : Nat
  arbiter : Nat
  /-- The tile's position in the set, the command's work, and the unit. -/
  pos     : Nat × Nat
  work    : Work
  unit    : SampleUnit
  /-- The first word of the copies in the Nose area, and their carried seals. -/
  base    : Nat
  seals   : List Word
  /-- What the checker's run has given, once it differs from the original. -/
  found   : Option (List Word)
  deriving DecidableEq, Repr

/-- The Nose: the attempts of steps, pending duplicates, and per-tile counts of chosen commands (spec/14). -/
structure NoseSt where
  runs   : List Run
  dups   : List Dup
  chosen : Cells Nat
  /-- The field test that is running: its test and partition (R398). -/
  kat    : Option (Nat × Nat)
  deriving DecidableEq, Repr

/-- What a group descriptor gives (R309): its kind, algorithm and identifier, this member's rank, and its members as
(node, partition); or a tile set and its sub-groups. -/
structure GroupDesc where
  tile    : Bool
  algo    : Nat
  id      : Nat
  size    : Nat
  rank    : Nat
  dim1    : Nat
  tileset : Nat
  subRows : Nat
  subCols : Nat
  members : List (Nat × Nat)
  deriving DecidableEq, Repr

/-- One action of a collective in its member's order (R317 to R324). A range is in units of the member's buffer. -/
inductive CollAct where
  /-- Sends a range to a rank, or awaits one from a rank and combines or places it, in a step of a phase. -/
  | send (phase step dst a b : Nat)
  | recv (phase step src a b : Nat) (add : Bool)
  /-- Awaits the comparison of every other member's start record, before an exchange by table writes to DST (R316). -/
  | heard
  /-- Copies the member's own block of an exchange by table (R322, R324). -/
  | self
  /-- Waits until everything sent, or everything sent to a rank, has been acknowledged. -/
  | acked
  | ackedBy (rank : Nat)
  /-- Forms the triples of the member's values on the delivered anchor codes (R318). -/
  | form
  /-- Converts the units of a range to ELEM_FMT; the others become zero. -/
  | round (a b : Nat)
  /-- Takes an exchanged block, or an exchange's tokens, from a rank; awaits a rank's returned tokens (R322 to R325). -/
  | take (src : Nat)
  | tokens (src : Nat)
  | spill (src : Nat)
  deriving DecidableEq, Repr

/-- What has arrived of one send of a rank: its bytes so far, by their offset, of a total. -/
structure Arrival where
  rank  : Nat
  phase : Nat
  step  : Nat
  total : Nat
  parts : List (Nat × List Byte)
  deriving DecidableEq, Repr

/-- A frame of collective data that has not been acknowledged: its transaction tag, its receiver and its place. -/
structure Unacked where
  tag   : Nat
  rank  : Nat
  phase : Nat
  step  : Nat
  off   : Nat
  deriving DecidableEq, Repr

/-- One row of an exchange table (R323). -/
structure XchgRow where
  sendOfs : Nat
  send    : Nat
  recvOfs : Nat
  cap     : Nat
  deriving DecidableEq, Repr

/-- A node-group collective in progress. -/
structure CollRun where
  entry   : Nat
  eng     : Nat
  owner   : Owner
  desc    : GroupDesc
  op      : Nat
  fmt     : Nat
  count   : Nat
  profile : Nat
  src     : Nat
  dst     : Nat
  seq     : Nat
  chg     : Nat
  /-- Ranks whose start record has been compared, ranks that have acknowledged data of it, and the code it has stalled with
  (R314, R316, R330). -/
  heard   : List Nat
  ackers  : List Nat
  stalled : Option Err
  /-- The member's own values, the working buffer, the bytes of one of its units and how units combine: 0 maximum,
  1 triples, 2 integers, 3 FP32. -/
  own     : List Byte
  buf     : List Byte
  unit    : Nat
  kind    : Nat
  prog    : List CollAct
  inbox   : List Arrival
  unacked : List Unacked
  /-- Accepted counts that receivers have reported, by rank (R325). -/
  counts  : Cells (Option Nat)
  /-- The exchange table and the addresses of its spill buffer and counts. -/
  table   : List XchgRow
  spillAt : Nat
  recvAt  : Nat
  retAt   : Nat
  deriving DecidableEq, Repr

/-- Collectives (spec/12): descriptors of entries as last bound, by entry; entries that have issued since VALID rose;
collectives in progress; start records, data and aborts of collectives that have not issued here. -/
structure CollSt where
  descs   : Cells (Option GroupDesc)
  used    : Cells Bool
  runs    : List CollRun
  records : List (Nat × StartRec)
  early   : List Frame
  aborts  : List (Nat × Nat × Nat)
  /-- The last partition of each entry, plus 1 (R332). -/
  owners  : Cells Nat
  deriving DecidableEq, Repr

/-- A fabric transaction of this module that awaits its answer (R361): a fetch of a Sillage entry, a frame of transfer `xfer`
of a command's write, a granule's data of a command, or a collective's data. -/
inductive TxnKind where
  | fetch (e id : Nat)
  | write (o : Owner) (xfer : Nat)
  | move (o : Owner) (gran : Nat)
  | coll (entry seq : Nat)
  deriving DecidableEq, Repr

structure Txn where
  tag  : Nat
  node : Nat
  kind : TxnKind
  deriving DecidableEq, Repr

/-- A message that has not been acknowledged (R365): its destination and sequence, and the tick of its last sending,
none while 16 earlier ones await their acknowledgement. -/
structure OutMsg where
  node : Nat
  /-- The partition of this module whose message it is; none for the node's own. -/
  own  : Option Nat
  seq  : Nat
  /-- The tag its frames carry. -/
  tag  : Nat
  part : Nat
  msg  : Message
  sent : Option Nat
  deriving DecidableEq, Repr

/-- The rotations of a link's transmitter (R329, R348): the virtual channel visited and the bytes it has sent in the visit;
within VC 3 the group entry visited (256 for frames of no group of this module), whether its share has been added, and the
allowances. -/
structure Turn where
  vc    : Nat
  sent  : Nat
  group : Nat
  added : Bool
  allow : Cells Nat
  deriving DecidableEq, Repr

/-- An exchange of initial credits (R346): whether frames may not start; whether this side has new credits to announce, and
whether they are those of a commit that the page acknowledges at the end; whether its CONFIG has gone; and the peer's CONFIG. -/
structure Drain where
  on     : Bool
  change : Bool
  apply  : Bool
  sent   : Bool
  peer   : Option (List Nat)
  deriving DecidableEq, Repr

/-- What one link holds besides its registers (R340 to R356). -/
structure LinkSt where
  /-- Frames sent and not yet acknowledged, in FSEQ order (R349). -/
  replay  : List Frame
  /-- Frames that wait for credit or for the link; and those of them in transit, with the link and the class whose buffer they
  hold until they start (R347). -/
  waiting : List Frame
  transit : List (Frame × Nat × Nat)
  txSeq   : Nat
  rxSeq   : Nat
  /-- The receiver is in discard; the tick of its last NAK (R349). -/
  discard : Bool
  nakAt   : Nat
  /-- The FSEQ from which frames have been refunded and not sent again. -/
  resend  : Option Nat
  /-- The last FREED taken of each class (R347). -/
  freed   : Cells Nat
  /-- Lanes that the peer reports failed (R354). -/
  peerBad : Nat
  /-- A retraining after CREDIT_LEDGER: it keeps the lane count and reinitialises HELD (R352). -/
  ledger  : Bool
  /-- A new CRED_CFG drains the link (R346). -/
  drain   : Drain
  /-- The neighbour's HELLO of this training. -/
  hello   : Option Hello
  /-- The link has carried traffic since the last entry to FUSED (R352). -/
  trained : Bool
  turn    : Turn
  deriving DecidableEq, Repr

/-- The fabric (spec/13). -/
structure FabSt where
  /-- The route table, by node identifier (R357). -/
  routes  : Cells Nat
  links   : Cells LinkSt
  nextTag : Nat
  txns    : List Txn
  /-- The sequence of the last message made for each destination node (R365). -/
  msgSeq  : Cells Nat
  msgs    : List OutMsg
  /-- The incarnation and last sequence accepted of each sender node (R365). -/
  msgFrom : Cells (Nat × Nat)
  /-- Releases answered "not held": the sender and the sequence, for a repeated acknowledgement (R365, R453). -/
  refused : List (Nat × Nat)
  /-- The incarnation and last sequence accepted of each broadcast origin, plus one entry of presence (R367). -/
  origins : Cells (Option (Nat × Nat))
  /-- The last broadcast sequence this module originated. -/
  bseq    : Nat
  /-- IN granules of moves from other nodes: the source node and the source granule's offset (R262, R453). -/
  moveIn  : Cells (Option (Nat × Nat))
  /-- Held IN granules that await the answer to a release query (R453). -/
  held    : List Nat
  deriving DecidableEq, Repr

/-- A row shift in progress: its row and failed column, and whether a replay ordered it (R30, R396). -/
structure Shift where
  row    : Nat
  pcol   : Nat
  replay : Bool
  /-- The row's failed columns in the shadow copy of the row map, once step 2 has written it. -/
  shadow : Option (List Nat)
  deriving DecidableEq, Repr

/-- A wired record of the tag that waits for its commit: the area, TYPE, FLAGS, TIME, the payload, the tick it was queued,
the failed read-backs so far, and whether it has had to wait for an RF session (R479 to R481). -/
structure TagRec where
  area    : Nat
  type    : Nat
  flags   : Nat
  tick    : Nat
  payload : List Byte
  since   : Nat
  fails   : Nat
  waited  : Bool
  deriving DecidableEq, Repr

/-- The Flacon tag (R478 to R481): its bytes, the wired queue, and the tick of the last RF command of a session. -/
structure TagSt where
  bytes : Cells Byte
  queue : List TagRec
  lastRf : Option Nat
  deriving DecidableEq, Repr

/-- Partitions (R431, R432): the state each entered QUIESCE from, whether a run has cleared the user's holder since,
and the repairs that hold a partition in QUIESCE (the partition and the repair's key). -/
structure PartSt where
  entry   : Cells Nat
  ran     : Cells Bool
  repairs : List (Nat × Nat)
  /-- Row shifts in progress, in the order they began (R30). -/
  shifts  : List Shift
  deriving DecidableEq, Repr

/-- A change of a domain's target (R404): from one value in mV to another, since a tick. -/
structure Slew where
  src  : Nat
  dst  : Nat
  tick : Nat
  deriving DecidableEq, Repr

/-- Drydown, or the stop of a warm reset, in progress (R427, R448): T0, the next of its steps 0 to 17 (the six field rows
of step 6 are steps of their own), the edge at which the step before began, and the cause code. T0 is an edge too. -/
structure Drydown where
  t0    : Nat
  next  : Nat
  last  : Nat
  warm  : Bool
  cause : Nat
  deriving DecidableEq, Repr

/-- Power state that the registers do not show (spec/15). -/
structure PowerSt where
  /-- The tiles are frozen by a shed (R411) or by Drydown (R427). -/
  frozen      : Bool
  /-- The rails that are on, by `railKey`. -/
  rails       : Cells Bool
  /-- The tick at which the soft-start of a powered cassette began, plus 1. -/
  inserted    : Cells Nat
  /-- Cassettes turned off since they were inserted, or pulled, and cassettes present that were refused, as masks (R29, R400). -/
  cassOff     : Nat
  cassRefused : Nat
  /-- Accepted cassettes whose insertion is not counted yet, as a mask: it counts as their soft-start completes (R481). -/
  cassNew     : Nat
  /-- The epoch T of a shed that has not come, the tick from which it freezes, and whether it applied its emergency. -/
  shedAt      : Option Nat
  freezeAt    : Option Nat
  shedApplied : Bool
  /-- Consecutive windows over CEIL_EFF, and whether SUPPLY_CEIL has fallen since the last apply (R417). -/
  overs       : Nat
  supplyFell  : Bool
  /-- The fraction of a watt that ENV_SET carries, in mW (R415). -/
  envMilli    : Nat
  /-- The target of each core domain. -/
  slews       : Cells Slew
  /-- Consecutive windows of excess droop of each domain, and of an excess residual (R409, R424). -/
  cracks      : Cells Nat
  resids      : Nat
  /-- The tick of the last fall of THERM_CEIL, while a reading stays at warn (R421). -/
  warnAt      : Option Nat
  /-- Partitions whose park is not complete, as a mask (R414). -/
  parking     : Nat
  /-- Bonded regions at park that are out of self-refresh: the tick of the last access, plus 1 (R414). -/
  awake       : Cells Nat
  dry         : Option Drydown
  deriving DecidableEq, Repr

/-- The tag's answer to an RF reader (R478): its unique identifier, its size in blocks of 4 bytes, blocks read, a block
written, the block-locked error, or the error for a block the tag does not have. -/
inductive RfReply where
  | inventory (uid : DWord)
  | info (uid : DWord) (blocks : Nat)
  | blocks (bs : List Byte)
  | written
  | locked
  | unavailable
  deriving DecidableEq, Repr

/-- The body of an Icord answer (R463). -/
inductive IcordBody where
  | empty
  | words (ws : List Nat)
  | bytes (bs : List Byte)
  | log (es : List LogEntry)
  | life (r : Option LifeRec)
  deriving DecidableEq, Repr

/-- What the module sends to the outside. -/
inductive Out where
  /-- An answer of the Flacon tag to an RF command. -/
  | rf (r : RfReply)
  /-- An Icord answer through a card's port: TYPE, SEQ, STATUS, RETRY_MS and the body (R461). -/
  | icord (port : Port) (type seq status retry : Nat) (body : IcordBody)
  /-- ANNOUNCE: serial, MOD.VARIANT, MOD.STATE, node and IMAGE_VERSION (R463). -/
  | announce (serial variant state node version : Nat)
  /-- ERROR_RECORD: a record, and the class 1 records lost since the one before (R469). -/
  | errorRecord (r : ErrRec) (overflow : Nat)
  /-- The island's report of the class 0 errors that each page has counted, by PG_ID (R371). -/
  | classZero (counts : Cells Nat)
  /-- TELEMETRY: the snapshot's values in the order of R468, DECIM_LOG2 and the periods skipped. -/
  | telemetry (values : List Nat) (decim skipped : Nat)
  /-- An MSI-X message of a vector of a function of a port, with the address and data of its table (R497). -/
  | msix (port : Port) (fn vec : Nat) (addr data : Nat)
  /-- A function that a port presents: its Vendor ID, Device ID, class code and Device Serial Number (R487). -/
  | function (port : Port) (fn vendor device cls serial : Nat)
  /-- A request to host memory, with its Requester ID, which is that of a function of a port: a read, or a posted write with or without
  Relaxed Ordering (R493, R494). -/
  | memRead (port : Port) (fn addr n : Nat)
  | memWrite (port : Port) (fn addr : Nat) (bs : List Byte) (relaxed : Bool)
  /-- SNAP_OUT_N driven low, or released (R83). -/
  | snapOut (low : Bool)
  /-- PTP messages of a port, over Ethernet or over UDP (R78): the slave port's Delay_Req, with its departure in picoseconds;
  a master port's Sync, always of two steps, with the Follow_Up that gives its departure, its Announce, and its answer to a
  clock's Delay_Req. -/
  | ptpDelayReq (port : Port) (udp : Bool) (t3 : Nat)
  | ptpSync (port : Port) (udp : Bool) (domain : Nat)
  | ptpFollowUp (port : Port) (udp : Bool) (domain t1 : Nat)
  | ptpAnnounce (port : Port) (udp : Bool) (a : Announce)
  | ptpDelayResp (port : Port) (udp : Bool) (domain : Nat) (clock : DWord) (t4 : Nat)
  /-- The value a read returns on a path. -/
  | readData (p : Path) (v : DWord)
  /-- A frame sent on a link, and the sideband units CREDIT, ACK and NAK (R342); a NAK tells the peer which lanes have failed
  (R354). -/
  | frame (k : Nat) (f : Frame)
  | credit (k cls freed : Nat)
  | ack (k fseq : Nat)
  | nak (k fseq lanes : Nat)
  /-- The order to a sled to flush its journal (R427). -/
  | sledFlush (i : Nat)
  /-- A HELLO sent in training. -/
  | hello (k : Nat) (h : Hello)
  deriving DecidableEq, Repr

structure State where
  /-- The commands that are waiting, first in, first out. -/
  pending : List Instr
  /-- The model's own counter of free values (log entry 4). -/
  free    : Nat
  regs    : RegFile
  commit  : CommitSt
  clk     : ClkSt
  ptp     : PtpSt
  snap    : SnapSt
  tile    : TileSt
  mem     : MemSt
  stream  : StreamSt
  queue   : QueueSt
  sig     : SigSt
  nose    : NoseSt
  coll    : CollSt
  fab     : FabSt
  part    : PartSt
  tag     : TagSt
  /-- The per-path results of WIN_ALLOC, QALLOC, CALLOC_RES, OP_RESULT and CTX_ALLOC, by `pathKey` (R130). -/
  pathVal : Cells Nat
  island  : IslandSt
  msix    : MsixSt
  power   : PowerSt
  fuses   : Fuses
  boot    : BootSt
  mgmt    : MgmtSt
  life    : LifeSt
  host    : HostSt
  out     : List Out
  deriving DecidableEq, Repr

/-! ### Reset -/

/-- The fuses of the module at reset: the reference variant S32/L48/F4/C with profiles K1 and K2; serial, stepping, trims,
paths, capacitance and key hashes 0 (log entry 2). The CRC is the one of these fuses. -/
def Fuses.reset : Fuses where
  serial := 0
  variant := 32 + 48 * 2 ^ 8 + 4 * 2 ^ 16
  stepping := 0
  profiles := 3
  spares := []
  trims := []
  paths := []
  cBus := 0
  flowMin := 450
  hash0 := 0
  hash1 := 0
  revoke0 := false
  svn := 0
  crc := 0x9C5ECB50

/-- Registers that read other than their table's reset value at the entry to FUSED (R434, R437). -/
def resetFields : List (Fld × Nat) :=
  [(R.MOD.VARIANT.STACKS, 32), (R.MOD.VARIANT.LINKS, 48), (R.MOD.VARIANT.FLASH_SLEDS, 4), (R.FLASH.CAPS.SLEDS, 4),
   (R.PG.VER.PROFILES pgMOD, 3), (R.FUSE.STEPPING.PROFILES, 3), (R.FUSE.CRC, Fuses.reset.crc), (R.FUSE.CRC_STAT, 1),
   (R.PWR.FLOW_MIN, 450), (R.CLK.STATUS.LOCK, 1), (R.CLK.STATUS.REF_OK, 1)] ++
  (List.range 16).map fun e => (R.SILL.CAPS2.STACKS e, 2)

/-- The boundary clock at reset. The data set of its own clock is the one of the default profile of IEEE 1588-2019, with identity 0
(PRESUMED, log entry 7). -/
def PtpSt.reset : PtpSt := ⟨⟨0, 128, 248, 0xFE, 0xFFFF, 128, 0, 0, 0, 0, 0⟩, [], 0, 0, false, none, none, false, none⟩

/-- The module as it enters FUSED after its first power-on event (R436, R437 steps 1 to 5): the fuses have passed, the
root PLL is locked, TIME is 0, BUS12 and VCARD are on, and no swapped part is fitted (log entry 2). -/
def State.reset : State where
  pending := []
  free := 0
  regs := ⟨resetFields.foldl (fun m x => Cells.put x.1.rst m x.1.key x.2) [], [], [], [], [], [], []⟩
  commit := ⟨0, false, [], false, 0, none, none, none, false, false, [], 0, none, []⟩
  clk := ⟨0, [], none, 0, false, none, none⟩
  ptp := PtpSt.reset
  snap := ⟨[], [], [], [], none⟩
  tile := ⟨[], [], [], [], [], [], [], [], [], []⟩
  mem := ⟨[], [], [], [], [], [], [], [], [], none, [], [], [], [], [], [], [], []⟩
  stream := ⟨[], [], [], [], [], [], 0, [], [], [], []⟩
  queue := ⟨[]⟩
  sig := ⟨[], [], []⟩
  nose := ⟨[], [], [], none⟩
  coll := ⟨[], [], [], [], [], [], []⟩
  fab := ⟨[], [], 0, [], [], [], [], [], [], 0, [], []⟩
  part := ⟨[], [], [], []⟩
  tag := ⟨[], [], none⟩
  pathVal := []
  island := ⟨[], 0, 0, [], 0, [], [], [], [], [], []⟩
  msix := ⟨[], [], [], []⟩
  power := ⟨false, [(0, true), (1152, true), (1153, true)], [], 0, 0, 0, none, none, false, 0, false, 0, [], [], 0, none, 0, [], none⟩
  fuses := Fuses.reset
  boot := ⟨0, 0, 0, 0, none, 0, 0, none, 0, []⟩
  mgmt := ⟨0, 0, false, false, [], 0, [], 0, 0, 0⟩
  life := ⟨[], false, 0, 0, 0⟩
  host := ⟨none, 0, 0, 0, [], [], 0, [], [], [], 0, [], [], [], []⟩
  out := []

end Sys2Proof.Machine
end

