-- ==== Sys2Proof/Machine/Ops.lean ====
section
/-! DEFINITION. The operations every command is written from: reading and writing a field, counting, raising an
interrupt, raising an error. -/

namespace Sys2Proof.Machine

/-- The value of a field that is not staged. -/
def State.rd (s : State) (f : Fld) : Nat := Cells.get f.rst s.regs.cells f.key

/-- The active copy of a staged field (R47). -/
def State.act (s : State) (f : Fld) : Nat := Cells.get f.rst s.regs.act f.key

/-- The shadow copy of a staged field. -/
def State.shadow (s : State) (f : Fld) : Nat := Cells.get f.rst s.regs.shadow f.key

/-- The pending copy of a staged field. -/
def State.pendCopy (s : State) (f : Fld) : Nat := Cells.get f.rst s.regs.pend f.key

/-- Writes a field that is not staged; a value is held to the field's width. -/
def State.wr (s : State) (f : Fld) (v : Nat) : State :=
  { s with regs := { s.regs with cells := Cells.put f.rst s.regs.cells f.key (v % 2 ^ f.w) } }

/-- Writes the shadow copy of a staged field. -/
def State.wrShadow (s : State) (f : Fld) (v : Nat) : State :=
  { s with regs := { s.regs with shadow := Cells.put f.rst s.regs.shadow f.key (v % 2 ^ f.w) } }

/-- Writes a one-bit field. -/
def State.flag (s : State) (f : Fld) (b : Bool) : State := s.wr f (if b then 1 else 0)

/-- Whether a one-bit field is set. -/
def State.on (s : State) (f : Fld) : Bool := s.rd f = 1

/-- Applies `g` where `c` holds. -/
def State.when (s : State) (c : Bool) (g : State → State) : State := if c then g s else s

/-- What follows a check: `bad` of the error it found, or `good` where it found none. -/
def checked {α : Type} (x : Option Err) (bad : Err → α) (good : α) : α :=
  match x with
  | some e => bad e
  | none => good

/-- What follows a judgement: `bad` of its error, or `good` of its value. -/
def judged {α β : Type} (x : Except Err β) (bad : Err → α) (good : β → α) : α :=
  match x with
  | .error e => bad e
  | .ok v => good v

/-- What follows a lookup: `no` where there is nothing, or `yes` of what there is. -/
def given {α β : Type} (x : Option β) (no : α) (yes : β → α) : α :=
  match x with
  | some v => yes v
  | none => no

/-- The current tick, TB.TIME (R76). -/
def State.time (s : State) : Nat := s.rd R.TB.TIME

/-- The clk_tb edges so far, on which intervals are measured: a set of TIME leaves it alone (R77). -/
def State.now (s : State) : Nat := s.clk.edges

/-- Adds an output message. -/
def State.emit (s : State) (o : Out) : State := { s with out := s.out ++ [o] }

/-- A fresh free value, and the state in which it has been used (log entry 4). -/
def State.fresh (s : State) : Nat × State := ((Config.freeWord s.free).toNat, { s with free := s.free + 1 })

/-- The largest count of a CT counter (R44). -/
def ctMax : Nat := 2 ^ 63 - 1

/-- Adds `n` to a CT counter, which saturates and then sets OVF (R44). -/
def State.bump (s : State) (f : Fld) (n : Nat) : State :=
  if ctMax < s.rd f + n then (s.wr f ctMax).wr f.ovf 1 else s.wr f (s.rd f + n)

/-- The 22 block types of the page index (R39). -/
inductive PageTy where
  | MOD | CLK | TB | PWR | FUSE | CFG | MGMT | HOST | SIG | NOSE | LEDG | QUOTA | TAG | SPARE
  | SILL | STACK | FLASH | LINK | COLL | PDOM | CQ | TILE
  deriving DecidableEq, Repr

/-- The block type code of PG_ID (R39). -/
def PageTy.code : PageTy → Nat
  | .MOD => 0x01 | .CLK => 0x02 | .TB => 0x03 | .PWR => 0x04 | .FUSE => 0x05 | .CFG => 0x06 | .MGMT => 0x07
  | .HOST => 0x08 | .SIG => 0x09 | .NOSE => 0x0A | .LEDG => 0x0B | .QUOTA => 0x0C | .TAG => 0x0D | .SPARE => 0x0E
  | .SILL => 0x10 | .STACK => 0x11 | .FLASH => 0x12 | .LINK => 0x13 | .COLL => 0x14 | .PDOM => 0x15 | .CQ => 0x16
  | .TILE => 0x17

/-- The base and the number of the instances of a block type (R39). -/
def PageTy.span : PageTy → Nat × Nat
  | .MOD => (0x0, 1) | .CLK => (0x1000, 1) | .TB => (0x2000, 1) | .PWR => (0x3000, 1) | .FUSE => (0x5000, 1)
  | .CFG => (0x6000, 1) | .MGMT => (0x7000, 1) | .HOST => (0x8000, 1) | .SIG => (0xA000, 1) | .NOSE => (0xB000, 1)
  | .LEDG => (0xC000, 1) | .QUOTA => (0xD000, 1) | .TAG => (0xE000, 1) | .SPARE => (0xF000, 1)
  | .SILL => (0x10000, 16) | .STACK => (0x20000, 32) | .FLASH => (0x40000, 1) | .COLL => (0x50000, 16)
  | .LINK => (0x60000, 48) | .PDOM => (0x100000, 84) | .CQ => (0x200000, 64) | .TILE => (0x400000, 960)

/-- The block types in the order of the index. -/
def PageTy.all : List PageTy :=
  [.MOD, .CLK, .TB, .PWR, .FUSE, .CFG, .MGMT, .HOST, .SIG, .NOSE, .LEDG, .QUOTA, .TAG, .SPARE, .SILL, .STACK,
   .FLASH, .COLL, .LINK, .PDOM, .CQ, .TILE]

/-- Whether the pages of a block type are module-wide (PG_STAT.GLOBAL). -/
def PageTy.global : PageTy → Bool
  | .MOD | .CLK | .TB | .PWR | .FUSE | .CFG | .MGMT | .HOST | .LEDG | .TAG | .SPARE | .PDOM => true
  | _ => false

/-- The block type and instance of the page that BAR0 offset `a` lies in, if any (R37, R39). -/
def pageAt (a : Nat) : Option (PageTy × Nat) :=
  (PageTy.all.find? fun t => decide (t.span.1 ≤ a ∧ a < t.span.1 + 0x1000 * t.span.2)).map
    fun t => (t, (a - t.span.1) / 0x1000)

/-- The base of the page that offset `a` lies in. -/
def pageBase (a : Nat) : Nat := a / 0x1000 * 0x1000

/-- The base of instance `i` of a block type. -/
def PageTy.page (t : PageTy) (i : Nat) : Nat := t.span.1 + 0x1000 * i

/-- Every page of the index, lowest address first. -/
def allPages : List Nat := PageTy.all.flatMap fun t => (List.range t.span.2).map t.page

/-- PG_ID of a page: its type and instance. -/
def pgId (pg : Nat) : Nat :=
  match pageAt pg with
  | some (t, i) => t.code * 65536 + i
  | none => 0

/-- The register tables of a page's own registers, at offsets 0x080 and above. -/
def PageTy.table (t : PageTy) (i : Nat) : List RegRow :=
  match t with
  | .MOD => tabMOD | .CLK => tabCLK | .TB => tabTB | .PWR => tabPWR | .FUSE => tabFUSE | .CFG => tabCFG
  | .MGMT => tabMGMT | .HOST => tabHOST | .SIG => tabSIG | .NOSE => tabNOSE | .LEDG => tabLEDG | .QUOTA => tabQUOTA
  | .TAG => tabTAG | .SPARE => tabSPARE | .SILL => tabSILL i | .STACK => tabSTACK i | .FLASH => tabFLASH
  | .COLL => tabCOLL i | .LINK => tabLINK i | .PDOM => tabPDOM i | .CQ => tabCQ i | .TILE => tabTILE i

/-- The partition of row `r` under a partition table read by `get` (R32). -/
def partOfRowBy (get : Fld → Nat) (r : Nat) : Option Nat :=
  (List.range 8).find? fun p =>
    decide (get (R.MOD.PART_DEF.VALID p) = 1 ∧ get (R.MOD.PART_DEF.FIRST_ROW p) ≤ r ∧
      r < get (R.MOD.PART_DEF.FIRST_ROW p) + get (R.MOD.PART_DEF.ROWS p))

/-- The partition of logical row `r` under the active partition table. -/
def State.partOfRow (s : State) (r : Nat) : Option Nat := partOfRowBy s.act r

/-- Whether row `r` is retired (R17). -/
def State.rowRetired (s : State) (r : Nat) : Bool := bitOf (s.rd R.MOD.RETIRED_ROWS) r

/-- Whether row `r` is held at park: its partition is parked, it is in none, or it is retired (R32, R414). -/
def State.rowParked (s : State) (r : Nat) : Bool :=
  s.rowRetired r ||
    match s.partOfRow r with
    | none => true
    | some p => (s.rd R.PWR.PARK_STAT.PARKED).testBit p

/-- A partition named by a nibble of an assignment map (R63). -/
def nibblePart (v : Nat) : Option Nat := if v < 8 then some v else none

/-- The partition that owns a page (PG_STAT.PART). -/
def State.pagePart (s : State) (pg : Nat) : Option Nat :=
  match pageAt pg with
  | some (.TILE, t) => s.partOfRow (t / 40)
  | some (.SILL, e) => nibblePart (s.act (R.MOD.SILL_ASSIGN e))
  | some (.STACK, k) => nibblePart (s.act (R.MOD.STACK_ASSIGN k))
  | some (.LINK, k) => nibblePart (s.act (R.MOD.LINK_ASSIGN k))
  | some (.CQ, q) => nibblePart (s.act (R.MOD.CQ_ASSIGN q))
  | some (.COLL, g) => nibblePart (s.act (R.MOD.COLL_ASSIGN g))
  | _ => none

/-- The stack positions fitted for a stack count (R20). -/
def stackFitted (count k : Nat) : Bool :=
  if count = 32 then k < 32 else if count = 24 then decide (k < 32 ∧ (k % 2 = 0 ∨ k / 2 % 2 = 0))
  else decide (k < 32 ∧ k % 2 = 0)

/-- The I/O die positions fitted for a link count (R21). -/
def dieFitted (count i : Nat) : Bool :=
  if count = 48 then i < 12 else if count = 36 then [0, 1, 2, 3, 5, 6, 8, 9, 11].contains i
  else [0, 2, 3, 6, 8, 9].contains i

/-- PG_STAT.FITTED of a page (R5, R20, R21). -/
def State.fitted (s : State) (pg : Nat) : Bool :=
  match pageAt pg with
  | some (.STACK, k) => stackFitted (s.rd R.MOD.VARIANT.STACKS) k
  | some (.LINK, k) => dieFitted (s.rd R.MOD.VARIANT.LINKS) (k / 4)
  | some (.FLASH, _) => decide (s.rd R.MOD.VARIANT.FLASH_SLEDS ≠ 0)
  | some _ => true
  | none => false

/-- Whether a page raises its interrupt (R52). -/
def State.raising (s : State) (pg : Nat) : Bool :=
  let raw := s.rd (R.PG.IRQ_RAW.ERR pg) + 2 * s.rd (R.PG.IRQ_RAW.COMMIT pg) + 4 * s.rd (R.PG.IRQ_RAW.BLOCK pg)
  decide (raw &&& (0xFFFFFFFF ^^^ s.rd (R.PG.IRQ_MASK pg)) ≠ 0)

/-- The MSI-X vector whose source a page is (R496). -/
def vectorOf (pg : Nat) : Option Nat :=
  match pageAt pg with
  | some (.CQ, q) => some q
  | some (.COLL, g) => some (64 + g)
  | some (.SILL, e) => some (80 + e)
  | some (.NOSE, _) => some 96
  | some (.MOD, _) => some 97
  | some (.PWR, _) | some (.PDOM, _) => some 98
  | some (.CFG, _) | some (.SPARE, _) => some 99
  | some (.MGMT, _) | some (.TAG, _) | some (.LEDG, _) => some 100
  | some (.CLK, _) | some (.TB, _) => some 101
  | some (.LINK, _) => some 102
  | some (.STACK, _) | some (.FLASH, _) | some (.QUOTA, _) => some 103
  | some (.TILE, _) => some 104
  | some (.HOST, _) | some (.SIG, _) | some (.FUSE, _) => some 105
  | none => none

/-- The index of a host port. -/
def portIx : Port → Nat
  | .a => 0
  | .b => 1

/-- The key of a vector of a function of a port. -/
def vecKey (port : Port) (fn vec : Nat) : Nat := (portIx port * 16 + fn) * 128 + vec

/-- Whether a host port is attached (R498). -/
def State.attached (s : State) (p : Port) : Bool := s.on (R.HOST.PORT_STAT.ATTACHED (portIx p))

/-- The message of a vector, as its function's MSI-X table has it. -/
def State.msixMsg (s : State) (port : Port) (fn vec : Nat) : Out :=
  let w := fun i => Cells.get 0 s.msix.table (4 * vecKey port fn vec + i)
  .msix port fn vec (w 0 + 2 ^ 32 * w 1) (w 2)

/-- Sets one vector's latch, and sends its message or sets its pending bit (R497 steps 1 and 2). -/
def State.latch (s : State) (port : Port) (fn vec : Nat) : State :=
  let k := vecKey port fn vec
  if Cells.get false s.msix.unmasked k then
    ({ s with msix := { s.msix with latch := Cells.put false s.msix.latch k false } }).emit (s.msixMsg port fn vec)
  else
    { s with msix := { s.msix with latch := Cells.put false s.msix.latch k true,
                                   pba := Cells.put false s.msix.pba k true } }

/-- The functions that receive a page as a source (R496). -/
def State.receivers (s : State) (pg vec : Nat) : List (Port × Nat) :=
  if 96 ≤ vec then (if s.attached .a then [(.a, 0)] else [(.b, 0)])
  else
    match s.pagePart pg with
    | some v => [(.a, 0), (.b, 0), (.a, v + 1), (.b, v + 1)]
    | none => [(.a, 0), (.b, 0)]

/-- A page starts to raise: its vector's latch sets in every function that receives it (R497 step 1). -/
def State.signalPage (s : State) (pg : Nat) : State :=
  match vectorOf pg with
  | some vec => (s.receivers pg vec).foldl (fun t r => t.latch r.1 r.2 vec) s
  | none => s

/-- Signals the page if it raises in `s` and did not in `before`. -/
def State.edge (s before : State) (pg : Nat) : State :=
  if !before.raising pg && s.raising pg then s.signalPage pg else s

/-- Sets bit `bit` of a page's PG_IRQ_RAW.BLOCK, numbered as in PG_IRQ_RAW (2 to 31). -/
def State.irq (s : State) (pg bit : Nat) : State :=
  (s.wr (R.PG.IRQ_RAW.BLOCK pg) (s.rd (R.PG.IRQ_RAW.BLOCK pg) ||| 2 ^ (bit - 2))).edge s pg

/-- The capture of one cycle's errors in a page (R53): the number raised, and the one captured. -/
def State.capture (s : State) (pg n code src : Nat) : State :=
  let v := R.PG.ERR_FIRST.VALID pg
  if s.on v then
    (s.wr (R.PG.ERR_FIRST.MULTI pg) 1).wr (R.PG.ERR_COUNT pg) (min 0xFFFFFFFF (s.rd (R.PG.ERR_COUNT pg) + n))
  else
    let t := ((((s.wr v 1).wr (R.PG.ERR_FIRST.MULTI pg) (if 1 < n then 1 else 0)).wr (R.PG.ERR_FIRST.SOURCE pg) src).wr
      (R.PG.ERR_FIRST.CODE pg) code).wr (R.PG.ERR_COUNT pg) n
    let u := (t.wr (R.PG.IRQ_RAW.ERR pg) 1).edge s pg
    { u with snap := { u.snap with errRise := u.snap.errRise ++ [s.now] } }

/-- Entries of the record queue that classes 2 to 4 alone may use, and its size (R469). -/
def recReserved : Nat := 1024
def recSize : Nat := 4096

/-- The queue with a record merged into the first waiting entry of its code and page: one entry takes it (R469). -/
def mergeRec (r : ErrRec) (q : List ErrRec) : List ErrRec :=
  match q with
  | [] => []
  | x :: t => if x.err = r.err ∧ x.pgId = r.pgId then { x with count := x.count + r.count, last := r.last } :: t else x :: mergeRec r t

/-- Puts an error record into the queue, merging or counting it where the queue is full (R469). -/
def State.enqueue (s : State) (r : ErrRec) : State :=
  let q := s.island.queue
  if r.cls = 1 then
    if 2048 < q.length ∧ q.any (fun x => x.err = r.err ∧ x.pgId = r.pgId) then
      ({ s with island := { s.island with queue := mergeRec r q } }).bump R.MGMT.ERR_MERGED 1
    else if recSize - recReserved ≤ (q.filter fun x => x.cls = 1).length ∨ recSize ≤ q.length then
      { s with island := { s.island with overflow := s.island.overflow + 1 } }
    else { s with island := { s.island with queue := q ++ [{ r with rseq := s.island.rseq }], rseq := s.island.rseq + 1 } }
  else if recSize ≤ q.length then s.bump R.MGMT.ERRQ_LOG_ONLY 1
  else { s with island := { s.island with queue := q ++ [{ r with rseq := s.island.rseq }], rseq := s.island.rseq + 1 } }

/-- Keeps ERRQ_STAT as the queue stands (R469). -/
def State.recStat (s : State) : State :=
  (s.wr R.MGMT.ERRQ_STAT.DEPTH s.island.queue.length).flag R.MGMT.ERRQ_STAT.MERGING (decide (2048 < s.island.queue.length))

/-! ### The tag's wired queue (R479 to R481) -/

/-- Changes what the tag holds. -/
def State.onTag (s : State) (g : TagSt → TagSt) : State := { s with tag := g s.tag }

/-- TAG.STAT.QUEUE as the wired queue stands. -/
def State.showTag (s : State) : State := s.wr R.TAG.STAT.QUEUE s.tag.queue.length

/-- The records the wired queue holds at most. -/
def tagQueueMax : Nat := 64

/-- Queues a record for an area; with a session active it waits, and the wait is counted (R481). The island's last
records go first (R429). A full queue takes none of the lead card's. -/
def State.queueTag (s : State) (area type : Nat) (payload : List Byte) : State :=
  if tagQueueMax ≤ s.tag.queue.length ∧ area ≠ 3 then s
  else
    let wait := s.on R.TAG.STAT.RF_SESSION
    let r : TagRec := ⟨area, type, s.rd R.TB.STAT.SET_DONE, s.time, payload, s.now, 0, wait⟩
    let a := (s.onTag fun t => { t with queue := if area = 3 then r :: t.queue else t.queue ++ [r] }).showTag
    if wait then a.bump R.TAG.DEFERS 1 else a

/-- Bytes the spec leaves open: a journal record's payload (log entry 4). -/
def State.openBytes (s : State) (n : Nat) : List Byte × State :=
  let x := s.fresh
  let y := x.2.fresh
  (leBytes n (x.1 + 2 ^ 64 * y.1), y.2)

/-- Journal types (R479). -/
def jDrydown : Nat := 0x0201
def jWarm : Nat := 0x0202
def jTakeover : Nat := 0x0203
def jPartOut : Nat := 0x0204
def jPartIn : Nat := 0x0205
def jRepair : Nat := 0x0206
def jError : Nat := 0x0207
def jOpen : Nat := 0x0208

/-- The register bit that shows a management card present (MGMT.ROLE). -/
def cardFld (c : Port) : Fld :=
  match c with
  | .a => R.MGMT.ROLE.A_PRESENT
  | .b => R.MGMT.ROLE.B_PRESENT

/-- The lead card (R458), and the other one. -/
def State.lead (s : State) : Port := if s.on R.MGMT.ROLE.LEAD then .b else .a
def otherCard (c : Port) : Port :=
  match c with
  | .a => .b
  | .b => .a

/-- The key of a card's rail VCARD: group 9 (R399). -/
def cardRail (c : Port) : Nat := 9 * 128 + (match c with | .a => 0 | .b => 1)

/-- Whether a card is present and powered. -/
def State.cardUp (s : State) (c : Port) : Bool := s.on (cardFld c) && Cells.get false s.power.rails (cardRail c)

/-- Whether the lead card's firmware runs (R441, R457): it may have stopped with its card present. -/
def State.firmware (s : State) : Bool :=
  s.on R.CFG.FW_READY && s.cardUp s.lead && decide (Cells.get 0 s.mgmt.loads (portIx s.lead) = 0)

/-- The lead card queues a journal record of a type (R479); its payload is not given. -/
def State.journal (s : State) (type : Nat) : State :=
  if s.firmware then
    let x := s.openBytes 12
    x.2.queueTag 2 type x.1
  else s

/-! ### Reports (R371, R471) -/

/-- The report of an error of class 1 or higher to the management network, and the always-on log of one of class 2 or
higher (R371); one of class 3 or 4 is journalled (R475). -/
def State.report (s : State) (pg : Nat) (e : Err) (c src step attempt : Nat) : State :=
  let r : ErrRec := ⟨0, e, c, pgId pg, src, s.time, s.time, step, attempt, 1⟩
  let t := if c = 0 then { s with island := { s.island with zeros := Cells.put 0 s.island.zeros r.pgId (Cells.get 0 s.island.zeros r.pgId + 1) } }
    else (s.enqueue r).recStat
  let u := if 2 ≤ c then { t with island := { t.island with log := t.island.log ++ [.error r] } } else t
  if 3 ≤ c then u.journal jError else u

/-- Counts an error in the LEDG event counters, whatever the capture holds (R471). -/
def State.countErr (s : State) (e : Err) (c : Nat) : State :=
  (s.bump (R.LEDG.EVT_CLASS c) 1).bump (R.LEDG.EVT e.index) 1

/-- Raises error `e` of sub-unit `src` in page `pg` with class `c`, for a command with a step tag (R53, R371, R471). -/
def State.raiseCls (s : State) (pg : Nat) (e : Err) (c src step attempt : Nat) : State :=
  ((s.capture pg 1 e.code src).countErr e c).report pg e c src step attempt

/-- Raises an error with the class its code has (R370). -/
def State.raiseTag (s : State) (pg : Nat) (e : Err) (src step attempt : Nat) : State := s.raiseCls pg e e.cls src step attempt

/-- Raises error `e` of sub-unit `src` in page `pg`. -/
def State.raise (s : State) (pg : Nat) (e : Err) (src : Nat := 0) : State := s.raiseTag pg e src 0 0

/-- Raises several errors of one cycle in one page: the lowest code, then the lowest source, is captured (R53). -/
def State.raiseAll (s : State) (pg : Nat) (es : List (Err × Nat)) : State :=
  match es with
  | [] => s
  | x :: r =>
    let first := r.foldl (fun m y => if y.1.code < m.1.code ∨ (y.1.code = m.1.code ∧ y.2 < m.2) then y else m) x
    es.foldl (fun t y => (t.countErr y.1 y.1.cls).report pg y.1 y.1.cls y.2 0 0) (s.capture pg es.length first.1.code first.2)

/-- The base state of the module: 0 OFF, 1 FUSED, 2 ENFLEURAGE, 3 READY or a state derived from it, 7 DRYDOWN,
8 FAULT (R430, R433). -/
def State.modState (s : State) : Nat := s.rd R.MOD.STATE

/-- The state of partition `p` before HOLD is laid over it (R430): 0 undefined, 3 READY, 4 RUN, 5 QUIESCE. -/
def State.partState (s : State) (p : Nat) : Nat := s.rd (R.MOD.PART_STATE p)

/-- Whether partition `p` is in the scope of the commit that is held (R57 step 6). -/
def State.partHeld (s : State) (p : Nat) : Bool := s.on R.MOD.COMMIT_STAT.HELD && s.commit.parts.testBit p

/-- MOD.PART_STATE of partition `p`: 6 while it is in HOLD (R61). -/
def State.partRead (s : State) (p : Nat) : Nat := if s.partHeld p ∧ s.partState p ≠ 0 then 6 else s.partState p

/-- MOD.STATE.MODULE (R61, R433). The base states 1, 2, 7 and 8 stand; outside them HOLD, RUN, QUIESCE and READY
follow from the partitions and a held scope of module-wide pages. 0 is OFF, in which no page answers (log entry 8). -/
def State.modRead (s : State) : Nat :=
  if s.modState ≠ 3 then s.modState
  else if (List.range 8).any (fun p => s.partRead p = 6) ∨ (s.on R.MOD.COMMIT_STAT.HELD ∧ s.commit.parts = 0) then 6
  else if (List.range 8).any (fun p => s.partRead p = 4) then 4
  else if (List.range 8).any (fun p => s.partRead p = 5) then 5
  else 3

/-- Whether a page serves commands: not one that has applied a generation that its whole scope does not hold yet (R58). -/
def State.serves (s : State) (pg : Nat) : Bool :=
  !((s.on R.MOD.COMMIT_STAT.PENDING || s.on R.MOD.COMMIT_STAT.HELD) && s.commit.pages.contains pg && s.on (R.PG.STAT.ACKED pg))

/-- Whether partition `p` is defined in the active table. -/
def State.partValid (s : State) (p : Nat) : Bool := decide (s.act (R.MOD.PART_DEF.VALID p) = 1)

/-- The rows of partition `p`. -/
def State.partRows (s : State) (p : Nat) : List Nat := (List.range 24).filter fun r => s.partOfRow r = some p

/-- The logical tiles of partition `p`. -/
def State.partTiles (s : State) (p : Nat) : List Nat := (s.partRows p).flatMap fun r => (List.range 40).map fun c => r * 40 + c

end Sys2Proof.Machine
end

