-- ==== Sys2Proof/Machine/Access.lean ====
section
/-! DEFINITION. Access paths: which page a write of a path reaches, bad accesses, the write buffers, and what a virtual
function may write (R36 to R38, R430, R489). -/

namespace Sys2Proof.Machine

/-- The index of an access path: host port A, host port B, the sideband (R38). -/
def pathIx (p : Path) : Nat :=
  match p with
  | .host .a _ => 0
  | .host .b _ => 1
  | .sideband _ => 2

/-- Whether a path is the management sideband. -/
def pathSide (p : Path) : Bool :=
  match p with
  | .sideband _ => true
  | .host _ _ => false

/-- The partition of a virtual function: VF v + 1 belongs to partition v (R487). -/
def pathVf (p : Path) : Option Nat :=
  match p with
  | .host _ (n + 1) => some n
  | _ => none

/-- A bad access is raised, and the first is recorded in ACCESS_ERR (R36, R38, R62). -/
def State.badAccess (s : State) (p : Path) (off : Nat) : State :=
  let a := if s.on R.MOD.ACCESS_ERR.VALID then s
    else ((s.wr R.MOD.ACCESS_ERR.VALID 1).wr R.MOD.ACCESS_ERR.PATH (pathIx p)).wr R.MOD.ACCESS_ERR.OFFSET off
  a.raise pgMOD .BAD_ACCESS

/-- The key of a path's write buffer and holding register for a page. -/
def halfKey (p : Path) (pg : Nat) : Nat := pathIx p * 2 ^ 26 + pg

/-- The low half buffered by a path for a page. -/
def State.half (s : State) (p : Path) (pg : Nat) : Option (Nat × Word) := Cells.get none s.regs.wbuf (halfKey p pg)

/-- Puts a low half into a path's buffer for a page, or clears it. -/
def State.setHalf (s : State) (p : Path) (pg : Nat) (h : Option (Nat × Word)) : State :=
  { s with regs := { s.regs with wbuf := Cells.put none s.regs.wbuf (halfKey p pg) h } }

/-- A buffered low half is discarded, with the offset of the half itself (R38). -/
def State.discardHalf (s : State) (p : Path) (pg : Nat) : State :=
  match s.half p pg with
  | none => s
  | some h => (s.setHalf p pg none).badAccess p h.1

/-- The group entry whose registers an offset lies in (R308). -/
def entryOfOffset (a : Nat) : Option Nat :=
  match pageAt a with
  | some (.COLL, g) => if 0x400 ≤ a % 0x1000 ∧ a % 0x1000 < 0x800 then some (g * 16 + (a % 0x1000 - 0x400) / 0x40) else none
  | _ => none

/-- Whether a group entry lies in the range of a partition. -/
def State.entryInRange (s : State) (v n : Nat) : Bool :=
  decide (s.act (R.MOD.GROUP_RANGE.BASE v) ≤ n ∧ n < s.act (R.MOD.GROUP_RANGE.BASE v) + s.act (R.MOD.GROUP_RANGE.COUNT v))

/-- Whether the VF of partition `v` may write at offset `a`; `own` is the partition that a request of SIG or PART_CTRL
names (R489). -/
def State.vfWrites (s : State) (v a : Nat) (own : Option Nat) : Bool :=
  decide (s.pagePart a = some v) || decide (own = some v) ||
    (match entryOfOffset a with
     | some n => s.entryInRange v n
     | none => false)

/-- A write that a VF may not make is ignored (R489). -/
def State.vfDenied (s : State) : State := (s.bump R.HOST.VF_DENIALS 1).raise pgHOST .VF_DENIED

/-- Payload of register writes of a host port (HOST.RX_BYTES). -/
def State.countRx (s : State) (p : Path) (n : Nat) : State :=
  match p with
  | .host .a _ => s.bump R.HOST.RX_BYTES_A n
  | .host .b _ => s.bump R.HOST.RX_BYTES_B n
  | .sideband _ => s

/-- The pages that the island serves (R454). -/
def islandPage (t : PageTy) : Bool :=
  match t with
  | .FUSE | .CFG | .SPARE | .PWR | .MGMT | .TAG | .LEDG => true
  | _ => false

/-- Whether the function of a path is there: VFs 1 to 8 are once VF Enable is set (R487). -/
def State.vfThere (s : State) (p : Path) : Bool :=
  match p with
  | .host port (v + 1) => s.on (R.HOST.PORT_STAT.VF_EN (portIx port)) && decide (v < 8)
  | _ => true

/-- Whether the page of offset `a` answers on a path: no page does in OFF, nor to a function that is not there, and in FAULT
the island's pages do over the sideband path alone (R430, R454). -/
def State.answers (s : State) (p : Path) (a : Nat) : Bool :=
  if s.modState = 0 ∨ !s.vfThere p then false
  else if s.modState = 8 then
    pathSide p && (match pageAt a with
      | some (t, _) => islandPage t
      | none => false)
  else true

/-- Whether the island takes the writes of a path: of the two cards, those of the lead alone (R27). -/
def State.takesWrites (s : State) (p : Path) : Bool :=
  match p with
  | .sideband c => decide (c = s.lead)
  | .host _ _ => true

/-- A write of `n` bytes at offset `a` on a path reaches its page, which takes it by `g`: not from a standby card, not a page
that does not answer or is not fitted, and not where a VF may not write. -/
def State.onPage (s : State) (p : Path) (a n : Nat) (own : Option Nat) (g : State → State) : State :=
  if !s.answers p a ∨ !s.takesWrites p then s
  else
    let t := s.countRx p n
    if !s.fitted a then t
    else
      let ok := match pathVf p with
        | some v => s.vfWrites v a own
        | none => true
      if ok then g t else t.vfDenied

/-- A write of a whole register; a low half that the path has buffered for the page is discarded. -/
def State.onWrite (s : State) (p : Path) (a n : Nat) (own : Option Nat) (g : State → State) : State :=
  s.onPage p a n own fun t => g (t.discardHalf p (pageBase a))

end Sys2Proof.Machine
end

