-- ==== Sys2Proof/Machine/Marks.lean ====
section
/-! DEFINITION. Suspect marks (R377 to R379), and raising an error on behalf of the command that owns it. -/

namespace Sys2Proof.Machine

/-- Whether the step mechanism of partition `p` is active (R283). -/
def State.stepActive (s : State) (p : Nat) : Bool := s.on (R.MOD.STEP_STAT.ACTIVE p)

/-- Changes the attempts of partition `p` that satisfy `c`. -/
def State.mapRuns (s : State) (c : Run → Bool) (g : Run → Run) : State :=
  { s with nose := { s.nose with runs := s.nose.runs.map fun r => if c r then g r else r } }

/-- The attempt of step `n` of partition `p`, if the step is open or awaits its flip. -/
def State.runOf (s : State) (p n : Nat) : Option Run := s.nose.runs.find? fun r => decide (r.part = p ∧ r.step = n)

/-- Records a mark in MARKp, MARK_TICKp and MARK_STEPp if MARKp.VALID was 0 (R377); there are eight partitions. -/
def State.captureMark (s : State) (p step att code : Nat) : State :=
  if 8 ≤ p ∨ s.on (R.NOSE.MARK.VALID p) then s
  else ((((s.wr (R.NOSE.MARK.VALID p) 1).wr (R.NOSE.MARK.CODE p) code).wr (R.NOSE.MARK_TICK p) s.time).wr
    (R.NOSE.MARK_STEP.STEP p) step).wr (R.NOSE.MARK_STEP.ATTEMPT p) att

/-- A suspect mark of cause `code` on attempt `att` of step `step` of partition `p`; with the mechanism inactive it
is counted and nothing follows from it (R379). -/
def State.mark (s : State) (p step att code : Nat) : State :=
  let t := s.captureMark p step att code
  if s.stepActive p then
    t.mapRuns (fun r => decide (r.part = p ∧ r.step = step ∧ r.att = att))
      (fun r => { r with mark := r.mark.or (some (code, s.time)) })
  else t.bump R.NOSE.MARKS_IDLE 1

/-- Raises error `e` of sub-unit `src` in page `pg` on behalf of the command `o`: the record carries its step tag, and
an error of class 2 marks that step (R377, R378). -/
def State.raiseFor (s : State) (o : Option Owner) (pg : Nat) (e : Err) (src : Nat := 0) : State :=
  match o with
  | none => s.raise pg e src
  | some w =>
    match w.step with
    | none => s.raise pg e src
    | some (step, att) =>
      let t := s.raiseTag pg e src step att
      if e.cls = 2 then t.mark w.part step att e.code else t

end Sys2Proof.Machine
end

