-- ==== Sys2Proof/Machine/Memory.lean ====
section
/-! DEFINITION. The tiers of spec/10: offsets on this node, granules and homes, and every read and write of a tier. -/

namespace Sys2Proof.Machine

/-! ### Places (R253 to R255) -/

/-- The bytes of one bonded region and the first offset past the bonded tier (R253). -/
def bondBytes : Nat := 0x60000000
def bondEnd : Nat := 0x16800000000
/-- The first offsets of the stacks and of the flash apertures, and the bytes of a block of each (R253). -/
def stackBase : Nat := 0x20000000000
def flashBase : Nat := 0x40000000000
def blockBytes : Nat := 0x1000000000
/-- The bytes a stack presents, and those a sled presents (R20, R279). -/
def stackBytes : Nat := 0xC00000000
def sledBytes : Nat := 16000000000000
/-- The bytes of a granule (R255). -/
def granBytes : Nat := 0x200000
/-- Granules of a bonded region, of a stack and of a sled (R255). -/
def bondGrans : Nat := 768
def stackGrans : Nat := 24576
def sledGrans : Nat := 7629395

/-- Where a byte lies: in the bonded region of a tile, in a stack, or on a sled. -/
inductive Place where
  | bond (t off : Nat)
  | stack (k off : Nat)
  | flash (sled off : Nat)
  deriving DecidableEq, Repr

/-- The key of a place in the memory's files. -/
def Place.key (p : Place) : Nat :=
  match p with
  | .bond t off => t * bondBytes + off
  | .stack k off => stackBase + k * blockBytes + off
  | .flash i off => 2 ^ 46 + i * 2 ^ 44 + off

/-- The tier a place is in: 0 bonded, 1 stack, 2 flash. -/
def Place.tier (p : Place) : Nat :=
  match p with
  | .bond _ _ => 0
  | .stack _ _ => 1
  | .flash _ _ => 2

/-- The page that raises an error of a place. -/
def Place.page (p : Place) : Nat :=
  match p with
  | .bond t _ => pgTILE t
  | .stack k _ => pgSTACK k
  | .flash _ _ => pgFLASH

/-- The granule of a place. -/
def Place.gran (p : Place) : Nat := p.key / granBytes

/-- The place a key stands for. -/
def placeOfKey (k : Nat) : Place :=
  if k < bondEnd then .bond (k / bondBytes) (k % bondBytes)
  else if k < flashBase then .stack ((k - stackBase) / blockBytes) ((k - stackBase) % blockBytes)
  else .flash ((k - 2 ^ 46) / 2 ^ 44) ((k - 2 ^ 46) % 2 ^ 44)

/-- The partition an aperture serves, while it is enabled (R254). -/
def State.aperPart (s : State) (n : Nat) : Option Nat :=
  if s.on (R.FLASH.APER_CTRL.VALID n) then some (s.rd (R.FLASH.APER_CTRL.PART n)) else none

/-- The place that offset `off` of this node maps onto (R253, R254), or the code of the failed first check of R271, for an
access admitted already: an aperture or a sled that is closing still serves it. -/
def State.mapped (s : State) (off : Nat) : Except Err Place :=
  if off < bondEnd then
    if s.rowRetired (off / bondBytes / 40) then .error .MEM_UNMAPPED else .ok (.bond (off / bondBytes) (off % bondBytes))
  else if stackBase ≤ off ∧ off < flashBase then
    let k := (off - stackBase) / blockBytes
    let o := (off - stackBase) % blockBytes
    if k < 32 ∧ o < stackBytes ∧ s.fitted (pgSTACK k) ∧ !s.on (R.STACK.STAT.FAILED k) then .ok (.stack k o)
    else .error .MEM_UNMAPPED
  else if flashBase ≤ off ∧ off < flashBase + 192 * blockBytes then
    let n := (off - flashBase) / blockBytes
    let sled := s.rd (R.FLASH.APER_MAP.SLED n)
    let o := s.rd (R.FLASH.APER_MAP.GRANULE n) * granBytes + (off - flashBase) % blockBytes
    if !s.on (R.FLASH.APER_CTRL.VALID n) ∨ sledBytes ≤ o then .error .MEM_UNMAPPED
    else if !s.on (R.FLASH.SLED_STAT.ATTACHED sled) then .error .SLED_RELEASED
    else .ok (.flash sled o)
  else .error .MEM_UNMAPPED

/-- The aperture that an offset lies in. -/
def aperOf (off : Nat) : Option Nat := if flashBase ≤ off then some ((off - flashBase) / blockBytes) else none

/-- The place that offset `off` of this node maps onto for a new access: neither through an aperture that is being disabled, nor
on a sled that is being released (R254, R281). -/
def State.place (s : State) (off : Nat) : Except Err Place :=
  match s.mapped off with
  | .ok (.flash i o) =>
    if (aperOf off).any fun n => Cells.get false s.mem.closing (16 + n) then .error .MEM_UNMAPPED
    else if Cells.get false s.mem.closing i then .error .SLED_RELEASED
    else .ok (.flash i o)
  | r => r

/-- The page that raises an error of an offset that may map onto nothing: the page of the tier its range names. -/
def State.pageOfOffset (s : State) (off : Nat) : Nat :=
  match s.place off with
  | .ok p => p.page
  | .error _ =>
    if off < bondEnd then pgTILE (off / bondBytes)
    else if stackBase ≤ off ∧ off < stackBase + 32 * blockBytes then pgSTACK ((off - stackBase) / blockBytes)
    else if flashBase ≤ off then pgFLASH else pgTILE 0

/-! ### Granules (R256, R264, R266) -/

/-- The granule of key `g`: FREE and owned by none if the home map does not list it. -/
def State.gran (s : State) (g : Nat) : Gran := Cells.get ⟨0, 0⟩ s.mem.grans g

/-- Puts a granule into the home map. -/
def State.setGran (s : State) (g : Nat) (v : Gran) : State :=
  { s with mem := { s.mem with grans := Cells.put ⟨0, 0⟩ s.mem.grans g v } }

/-- The tier of a granule key. -/
def granTier (g : Nat) : Nat := (placeOfKey (g * granBytes)).tier

/-- The count field of a granule state in a tier (R267). -/
def tierField (x st : Nat) : Fld :=
  match st with
  | 0 => R.QUOTA.TIER_FREE x
  | 1 => R.QUOTA.TIER_IN x
  | 2 => R.QUOTA.TIER_HOME x
  | _ => R.QUOTA.TIER_OUT x

/-- A context's USED count in a tier; a context number has six bits. -/
def usedField (x c : Nat) : Fld :=
  match x with
  | 0 => R.QUOTA.CTX_USED_BONDED (c % 64)
  | 1 => R.QUOTA.CTX_USED_STACK (c % 64)
  | _ => R.QUOTA.CTX_USED_FLASH (c % 64)

/-- A context's limit in a tier. -/
def limitField (x c : Nat) : Fld :=
  match x with
  | 0 => R.QUOTA.CTX_LIMIT_BONDED (c % 64)
  | 1 => R.QUOTA.CTX_LIMIT_STACK (c % 64)
  | _ => R.QUOTA.CTX_LIMIT_FLASH (c % 64)

/-- Adds or takes from a plain count, which does not go below 0. -/
def State.tally (s : State) (f : Fld) (d : Int) : State := s.wr f ((s.rd f : Int) + d).toNat

/-- A granule changes its state and owner: one count falls and one rises, and the contexts are charged and credited
in the same cycle (R267). -/
def State.moveGran (s : State) (g : Nat) (v : Gran) : State :=
  let u := s.gran g
  let x := granTier g
  let a := ((s.tally (tierField x u.st) (-1)).tally (tierField x v.st) 1).setGran g v
  let b := if u.st = 0 then a else a.tally (usedField x u.ctx) (-1)
  if v.st = 0 then b else b.tally (usedField x v.ctx) 1

/-- The partition that a quota context is assigned to (R264). -/
def State.ctxPart (s : State) (c : Nat) : Option Nat := nibblePart (s.act (R.MOD.QUOTA_ASSIGN c))

/-- Who accesses a granule: a command of a partition, or another node (R266). -/
inductive Actor where
  | part (p : Nat)
  | remote
  deriving DecidableEq, Repr

/-- The first three checks of R271 at one place. -/
def State.checkPlace (s : State) (a : Actor) (write : Bool) (p : Place) : Option Err :=
  let g := s.gran p.gran
  match a with
  | .part v =>
    if g.st ≠ 0 ∧ s.ctxPart g.ctx ≠ some v then some .PARTITION_CROSS
    else if g.st = 0 ∨ g.st = 1 ∨ Cells.get false s.mem.leaving p.gran then some .NO_HOME
    else if write ∧ g.st = 3 then some .HOME_MOVING
    else none
  | .remote =>
    if p.tier = 2 then some .FLASH_PRIVATE
    else if g.st ≠ 0 ∧ (if write then !s.on (R.QUOTA.CTX_FLAGS.REMOTE_WR g.ctx) else !s.on (R.QUOTA.CTX_FLAGS.REMOTE_RD g.ctx))
    then some .REMOTE_DENIED
    else if g.st = 0 ∨ g.st = 1 ∨ Cells.get false s.mem.leaving p.gran then some .NO_HOME
    else if write ∧ g.st = 3 then some .HOME_MOVING
    else none

/-- The offsets at which `n` bytes from `off` meet a new granule: `off` and every multiple of 2 MiB inside. -/
def granStarts (off n : Nat) : List Nat :=
  off :: ((List.range ((off % granBytes + n - 1) / granBytes)).map fun i => (off / granBytes + i + 1) * granBytes)

/-- Whether an offset lies in an aperture that serves queues of another partition than the actor's (R254). -/
def State.otherAper (s : State) (a : Actor) (off : Nat) : Bool :=
  match a, aperOf off with
  | .part v, some n => decide (s.aperPart n ≠ some v)
  | _, _ => false

/-- The first three checks of R271 over `n` bytes from `off`: the first failure, with the page that raises it. The last byte is
judged as well: a sled's last granule is not whole (R255). -/
def State.checkAccess (s : State) (a : Actor) (write : Bool) (off n : Nat) : Option (Err × Nat) :=
  if n = 0 then none else
  (granStarts off n ++ [off + n - 1]).findSome? fun o =>
    match s.place o with
    | .error e => some (e, s.pageOfOffset o)
    | .ok p =>
      if s.otherAper a o then some (.PARTITION_CROSS, p.page)
      else
        match s.checkPlace a write p with
        | some e => some (e, if e = .REMOTE_DENIED then pgQUOTA else p.page)
        | none => none

/-! ### Data (R271 check 4, R273, R277, R373, R376) -/

/-- An access reaches the bonded region of tile `t`: at park the region leaves self-refresh (R414). -/
def State.wakeRegion (s : State) (t : Nat) : State :=
  if s.rowParked (t / 40) then
    let a := if Cells.get 0 s.power.awake t = 0 then s.bump (R.TILE.BOND_SR_EXITS t) 1 else s
    { a with power := { a.power with awake := Cells.put 0 a.power.awake t (s.now + 1) } }
  else s

/-- An access reaches a place, whatever comes of it. -/
def State.reach (s : State) (p : Place) : State :=
  match p with
  | .bond t _ => s.wakeRegion t
  | _ => s

/-- Counts bytes read from or written to the tier of a place. -/
def State.countBytes (s : State) (p : Place) (write : Bool) (n : Nat) : State :=
  match p with
  | .bond t _ => (s.wakeRegion t).bump (if write then R.TILE.BOND_WR_BYTES t else R.TILE.BOND_RD_BYTES t) n
  | .stack k _ => s.bump (if write then R.STACK.WRITE_BYTES k else R.STACK.READ_BYTES k) n
  | .flash _ _ => s.bump (if write then R.FLASH.WRITE_BYTES else R.FLASH.READ_BYTES) n

/-- 24 h, in ticks (R274, R278). -/
def ticks24h : Nat := 86400 * Config.ticksPerS

/-- Changes what the tiers hold. -/
def State.onMem (s : State) (g : MemSt → MemSt) : State := { s with mem := g s.mem }

/-- The bytes of a code word of a place: a word of a bonded region, a burst of a stack, a page of flash (R273, R277, R279). -/
def Place.unit (p : Place) : Nat :=
  match p with
  | .bond _ _ => 8
  | .stack _ _ => 32
  | .flash _ _ => 16384

/-- The key of the code word of a place: its first 8-byte word. -/
def Place.flawKey (p : Place) : Nat := p.key / p.unit * (p.unit / 8)

/-- The logical channel of an offset in a stack (R275). -/
def channelOf (off : Nat) : Nat := off / 256 % 16

/-- An error met at a place is kept for row and channel sparing: a corrected one for 24 h (R274, R278). -/
def State.noteUpset (s : State) (p : Place) (ue : Bool) : State :=
  match p with
  | .bond t off => s.onMem fun m =>
    let old := (Cells.get [] m.rowErrs t).filter fun e => e.2.2 || decide (s.now < e.2.1 + ticks24h)
    { m with rowErrs := Cells.put [] m.rowErrs t (old ++ [(off, s.now, ue)]) }
  | .stack k off => s.onMem fun m =>
    let c := k * 16 + channelOf off
    let old := (Cells.get [] m.chanErrs c).filter fun e => e.2 || decide (s.now < e.1 + ticks24h)
    { m with chanErrs := Cells.put [] m.chanErrs c (old ++ [(s.now, ue)]) }
  | .flash _ _ => s

/-- A code word's error is corrected: counted and written back (R273, R277). -/
def State.corrected (s : State) (p : Place) : State :=
  match p with
  | .bond t _ => (s.bump (R.TILE.BOND_CE t) 1).noteUpset p false
  | .stack k _ => (s.bump (R.STACK.CE k) 1).noteUpset p false
  | .flash _ _ => s

/-- An uncorrectable error in the code word of a place: counted, and captured as the offset of its line, or of its burst
(R273, R277). -/
def State.uncorrected (s : State) (p : Place) : State :=
  match p with
  | .bond t off =>
    let a := (s.bump (R.TILE.BOND_UE t) 1).noteUpset p true
    if s.on (R.TILE.BOND_STAT.UE t) then a else (a.wr (R.TILE.BOND_UE_ADDR t) (off / 64 * 64)).wr (R.TILE.BOND_STAT.UE t) 1
  | .stack k off =>
    let a := (s.bump (R.STACK.UE k) 1).noteUpset p true
    if s.on (R.STACK.STAT.UE k) then a else (a.wr (R.STACK.UE_ADDR k) (off / 32 * 32)).wr (R.STACK.STAT.UE k) 1
  | .flash _ _ => s.bump R.FLASH.UE 1

/-- The error of a read of a poisoned line (R273, R277), for flash that of a page that cannot be read. -/
def Place.poisonErr (p : Place) : Err :=
  match p with
  | .flash _ _ => .MEM_UE
  | _ => .MEM_POISON

/-- The error of reading the line of a place where it is poisoned: by its own errors, or by the seal of its block (R273, R277,
R376). -/
def State.poisoned (s : State) (p : Place) : Option Err :=
  if Cells.get false s.mem.blkBad (p.key / 512) then some .MEM_POISON
  else if Cells.get false s.mem.poison (p.key / 64) then some p.poisonErr
  else none

/-- The places of the code words of the 64-byte line of a place that hold an error of a kind. -/
def State.flawed (s : State) (p : Place) (kind : Nat) : List Place :=
  let l := p.key / 64 * 64
  ((List.range (max 1 (64 / p.unit))).map fun i => placeOfKey (l + i * p.unit)).filter fun q =>
    decide (Cells.get 0 s.mem.flaws q.flawKey = kind)

/-- A code word's latent error is gone. -/
def State.mend (s : State) (p : Place) : State := s.onMem fun m => { m with flaws := Cells.put 0 m.flaws p.flawKey 0 }

/-- The uncorrectable code words of a line are met: the line is poisoned and counted, in a stack burst by burst; a page of flash
stays unreadable (R273, R277). -/
def State.meetDouble (s : State) (p : Place) (qs : List Place) : State :=
  let t := s.onMem fun m => { m with poison := Cells.put false m.poison (p.key / 64) true }
  match p with
  | .bond _ _ => (qs.foldl State.mend t).uncorrected (qs.headD p)
  | .stack _ _ => qs.foldl (fun u q => (u.mend q).uncorrected q) t
  | .flash _ _ => s.uncorrected p

/-- One 64-byte line is read: latent single errors are corrected, a double one poisons the line (R273, R277). -/
def State.scanLine (s : State) (o : Option Owner) (p : Place) : State × Option Err :=
  match s.poisoned p with
  | some e => (s.raiseFor o p.page e, some e)
  | none =>
    let t := (s.flawed p 1).foldl (fun u q => (u.mend q).corrected q) s
    match s.flawed p 2 with
    | [] => (t, none)
    | qs => ((t.meetDouble p qs).raiseFor o p.page .MEM_UE, some .MEM_UE)

/-- Lines are read in ascending order, up to the first failure. -/
def State.scanLines (s : State) (o : Option Owner) (ps : List Place) : State × Option Err :=
  match ps with
  | [] => (s, none)
  | p :: r =>
    match s.scanLine o p with
    | (t, some e) => (t, some e)
    | (t, none) => t.scanLines o r

/-- The 512-byte blocks that `n` bytes from key `k` cover: whole blocks only, or every block touched. -/
def blocksOf (k n : Nat) (whole : Bool) : List Nat :=
  let first := if whole then (k + 511) / 512 else k / 512
  let last := if whole then (k + n) / 512 else (k + n + 511) / 512
  (List.range (last - first)).map fun i => first + i

/-- A block whose stored seal fails its check is poisoned, until a write covers the whole of it (R376). -/
def State.poisonBlock (s : State) (b : Nat) : State := s.onMem fun m => { m with blkBad := Cells.put false m.blkBad b true }

/-- The page that raises a seal failure counts it (R376). -/
def State.sealFail (s : State) (o : Option Owner) (pg : Nat) (e : Err) : State :=
  (s.raiseFor o pg e).bump R.NOSE.SEAL_FAILS 1

/-- The bytes of a tier at a place. -/
def State.bytesAt (s : State) (p : Place) (n : Nat) : List Byte := Cells.bytes s.mem.bytes p.key n

/-- The data checks of a read of `n` bytes at a place within one region: poison and ECC line by line, then the stored
seal of every whole block (R271 check 4, R375). -/
def State.checkData (s : State) (o : Option Owner) (p : Place) (n : Nat) : State × Option Err :=
  let k := p.key
  let lines := (List.range ((k % 64 + n + 63) / 64)).map fun i => placeOfKey ((k / 64 + i) * 64)
  match s.scanLines o lines with
  | (t, some e) => (t, some e)
  | (t, none) =>
    match (blocksOf k n true).find? fun b => Cells.get false t.mem.badSeal b with
    | none => (t, none)
    | some b => ((t.poisonBlock b).sealFail o p.page .SEAL_STORED, some .SEAL_STORED)

/-- Cuts `n` bytes from offset `off` at granule boundaries: runs of one granule each. -/
def granRuns (off n : Nat) : List (Nat × Nat) :=
  (granStarts off n).map fun o => (o, min (off + n) ((o / granBytes + 1) * granBytes) - o)

/-- Reads the runs one after the other, up to the first failure. -/
def State.readRuns (s : State) (o : Option Owner) (rs : List (Nat × Nat)) : State × Except Err (List Byte) :=
  match rs with
  | [] => (s, .ok [])
  | (off, n) :: r =>
    match s.place off with
    | .error e => (s.raiseFor o (s.pageOfOffset off) e, .error e)
    | .ok p =>
      match (s.reach p).checkData o p n with
      | (t, some e) => (t, .error e)
      | (t, none) =>
        match (t.countBytes p false n).readRuns o r with
        | (u, .error e) => (u, .error e)
        | (u, .ok bs) => (u, .ok (t.bytesAt p n ++ bs))

/-- Reads `n` bytes at offset `off` of this node: the checks of R271 in their order, then the data. -/
def State.memRead (s : State) (o : Option Owner) (a : Actor) (off n : Nat) : State × Except Err (List Byte) :=
  if n = 0 then (s, .ok []) else
  match s.checkAccess a false off n with
  | some (e, pg) => (s.raiseFor o pg e, .error e)
  | none => s.readRuns o (granRuns off n)

/-- A write to a place: whole lines and whole blocks lose their poison, whole code words their errors, and whole blocks take a
new seal; a partial block keeps its old one, which is checked (R273, R375, R376). -/
def State.writeAt (s : State) (p : Place) (bs : List Byte) : State :=
  let k := p.key
  let n := bs.length
  let wholeLines := (List.range ((k + n) / 64 - (k + 63) / 64)).map fun i => (k + 63) / 64 + i
  let m := s.mem
  ({ s with mem := { m with
      bytes := Cells.putBytes m.bytes k bs
      poison := wholeLines.foldl (fun q l => Cells.put false q l false) m.poison
      blkBad := (blocksOf k n true).foldl (fun q b => Cells.put false q b false) m.blkBad
      flaws := Cells.clear m.flaws fun w => decide (k ≤ w * 8 ∧ w * 8 + p.unit ≤ k + n)
      badSeal := (blocksOf k n true).foldl (fun q b => Cells.put false q b false) m.badSeal } }).countBytes p true n

/-- Writes the runs one after the other, up to the first failure. -/
def State.writeRuns (s : State) (o : Option Owner) (rs : List (Nat × Nat)) (bs : List Byte) : State × Option Err :=
  match rs with
  | [] => (s, none)
  | (off, n) :: r =>
    match s.place off with
    | .error e => (s.raiseFor o (s.pageOfOffset off) e, some e)
    | .ok p =>
      let worn := match p with
        | .flash i _ => s.on (R.FLASH.SLED_STAT.WORN i)
        | _ => false
      let k := p.key
      let partBad := (blocksOf k n false).find? fun b => Cells.get false s.mem.badSeal b && !(blocksOf k n true).contains b
      if worn then (s.raiseFor o pgFLASH .SLED_WORN, some .SLED_WORN)
      else
        match partBad with
        | some b => (((s.reach p).poisonBlock b).sealFail o p.page .SEAL_STORED, some .SEAL_STORED)
        | none => (s.writeAt p (bs.take n)).writeRuns o r (bs.drop n)

/-- Writes bytes at offset `off` of this node: the checks of R271 in their order, then the data. -/
def State.memWrite (s : State) (o : Option Owner) (a : Actor) (off : Nat) (bs : List Byte) : State × Option Err :=
  if bs.isEmpty then (s, none) else
  match s.checkAccess a true off bs.length with
  | some (e, pg) => (s.raiseFor o pg e, some e)
  | none => s.writeRuns o (granRuns off bs.length) bs

/-- The canonical form of the memories: in the tiers, the scratchpads and the tag, addresses are strictly rising and no
byte or word is listed that an unlisted address reads as. -/
def Memory.wf (s : State) : Bool := Cells.wf 0 s.mem.bytes && Cells.wf 0 s.tile.words && Cells.wf 0 s.tag.bytes

/-- Zero-fills a granule with valid seals (R257). -/
def State.fillGran (s : State) (g : Nat) : State :=
  let k := g * granBytes
  let inG := fun unit a => decide (k / unit ≤ a ∧ a < (k + granBytes) / unit)
  ({ s with mem := { s.mem with
      bytes := Cells.clear s.mem.bytes (inG 1), poison := Cells.clear s.mem.poison (inG 64),
      blkBad := Cells.clear s.mem.blkBad (inG 512), flaws := Cells.clear s.mem.flaws (inG 8),
      badSeal := Cells.clear s.mem.badSeal (inG 512) } })

/-! ### Host memory -/

/-- Whether requests to host memory leave the module: a port is attached, and no host loss stands (R498, R501). -/
def State.hostUp (s : State) : Bool := (s.attached .a || s.attached .b) && !s.on R.CFG.HOST_STAT.LOST

/-- The port that serves a partition (R493). -/
def State.serving (s : State) (p : Nat) : Port := if s.rd (R.HOST.PART_SERVE p) = 1 then .b else .a

/-- The configuration of a port's functions. -/
def State.portCfg (s : State) (port : Port) : PortCfg := Cells.get PortCfg.reset s.host.cfg (portIx port)

/-- The function that serves a partition on a port: its VF where VF Enable is set, else the PF (R493). -/
def State.serveFn (s : State) (p : Nat) (port : Port) : Nat := if s.on (R.HOST.PORT_STAT.VF_EN (portIx port)) then p + 1 else 0

/-- What a posted write carries for an address. -/
def HostReq.byteAt (r : HostReq) (a : Nat) : Option Byte := if r.addr ≤ a then r.bytes[a - r.addr]? else none

/-- The bytes of host memory from address `a`, if every one is backed, under the posted writes `later`, oldest first. -/
def State.hostMem (s : State) (later : List HostReq) (a n : Nat) : Option (List Byte) :=
  (List.range n).foldr (fun i acc =>
    match acc, Cells.find s.mem.host (a + i) with
    | some bs, some b => some ((later.foldl (fun v r => (r.byteAt (a + i)).getD v) b) :: bs)
    | _, _ => none) (some [])

/-- The error that an answer ends a read of a partition with (R495). -/
def State.answerErr (s : State) (p : Nat) (h : HostAnswer) : Option Err :=
  match h with
  | .data | .corrected => none
  | .unsupported => some .HOST_UR
  | .poison => some .HOST_POISON
  | .ecrc => if (s.portCfg (s.serving p)).ecrcCheck then some .HOST_POISON else none

/-- The 64-byte lines of `n` bytes from address `a`. -/
def hostLines (a n : Nat) : List Nat := (List.range ((a + n + 63) / 64 - a / 64)).map fun i => a / 64 + i

/-- The error that the host's standing answers to the lines of a read give. -/
def State.lineErr (s : State) (p a n : Nat) : Option Err := (hostLines a n).findSome? fun l => s.answerErr p (Cells.get .data s.host.answers l)

/-- What a partition reads of host memory from address `a`, if the host is there and answers with the data. Its requests leave in order,
so the read finds what its earlier writes have written (R532). -/
def State.hostRead (s : State) (p a n : Nat) : Option (List Byte) :=
  if !s.hostUp ∨ (s.lineErr p a n).isSome then none
  else s.hostMem (s.host.reqs.filter fun r => decide (r.owner.part = p) && r.entry.isNone) a n

/-- Host memory with bytes written from address `a`; only backed addresses take them. -/
def State.hostWrite (s : State) (a : Nat) (bs : List Byte) : State :=
  match bs with
  | [] => s
  | b :: r =>
    let m := if (Cells.find s.mem.host a).isSome then Cells.insert (Cells.drop s.mem.host a) a b else s.mem.host
    ({ s with mem := { s.mem with host := m } }).hostWrite (a + 1) r

/-- Payload bytes on the port that serves a partition (R493). -/
def State.hostBytes (s : State) (p n : Nat) (sent : Bool) : State :=
  if s.rd (R.HOST.PART_SERVE p) = 1 then s.bump (if sent then R.HOST.TX_BYTES_B else R.HOST.RX_BYTES_B) n
  else s.bump (if sent then R.HOST.TX_BYTES_A else R.HOST.RX_BYTES_A) n

/-- A port logs an error (R486, R495). -/
def State.noteAer (s : State) (port : Port) (e : Nat) : State :=
  { s with host := { s.host with aer := Cells.put 0 s.host.aer (portIx port) (Cells.get 0 s.host.aer (portIx port) ||| e) } }

/-- A correctable error on the way of an answer is counted (R495). -/
def State.countCorrected (s : State) (p n : Nat) : State :=
  if n = 0 then s else (s.bump R.HOST.CORR_ERRS n).noteAer (s.serving p) 1

/-- An answer that ends a read with HOST_POISON is logged by the port. -/
def State.logPoison (s : State) (p : Nat) (h : HostAnswer) : State :=
  match h with
  | .poison => s.noteAer (s.serving p) 2
  | .ecrc => s.noteAer (s.serving p) 4
  | _ => s

/-- A partition has read `n` bytes from address `a`: the request and its data are counted, and the errors on the way (R493, R495).
The host answers each such line with its data from then on. -/
def State.hostSeen (s : State) (p a n : Nat) : State :=
  let c := (hostLines a n).filter fun l => Cells.get .data s.host.answers l = .corrected
  let t := ((s.hostBytes p n false).emit (.memRead (s.serving p) (s.serveFn p (s.serving p)) a n)).countCorrected p c.length
  { t with host := { t.host with answers := c.foldl (fun m l => Cells.put .data m l .data) t.host.answers } }

/-- The error of a read that the host does not carry out: HOST_LINK while it is not there, and else what its answer gives (R495,
R501). -/
def State.hostFail (s : State) (o : Option Owner) (p a n : Nat) : State × Err :=
  if s.hostUp then
    let e := (s.lineErr p a n).getD .HOST_UR
    let t := (hostLines a n).foldl (fun u l => u.logPoison p (Cells.get .data s.host.answers l)) s
    (t.raiseFor o pgHOST e, e)
  else ((s.bump R.HOST.LINK_ENDS 1).raiseFor o pgHOST .HOST_LINK, .HOST_LINK)

/-- Reads host memory for a command. -/
def State.hostGet (s : State) (o : Owner) (a n : Nat) : State × Except Err (List Byte) :=
  match s.hostRead o.part a n with
  | some bs => (s.hostSeen o.part a n, .ok bs)
  | none => ((s.hostFail (some o) o.part a n).1, .error (s.hostFail (some o) o.part a n).2)

/-! ### Memory addresses (R159) -/

/-- The fields of a 64-bit memory address: its space, and by space its node and offset, tile, window and word. -/
def adrSpace (a : Nat) : Nat := bitsOf a 63 60
def adrNode (a : Nat) : Nat := bitsOf a 59 44
def adrOff (a : Nat) : Nat := bitsOf a 43 0
def adrHost (a : Nat) : Nat := bitsOf a 59 0
def adrTile (a : Nat) : Nat := bitsOf a 57 48
def adrWord (a : Nat) : Nat := bitsOf a 23 0
def adrWin (a : Nat) : Nat := bitsOf a 43 40

/-- Whether an address of space 0x0 names this node. -/
def State.onNode (s : State) (a : Nat) : Bool := decide (adrNode a = s.rd R.MOD.FAB_NODE.NODE)

/-- The bytes at a memory address of this node or of host memory, read without an effect on the tier; `none` where
the read would fail (R154, R163). -/
def State.peek (s : State) (p a n : Nat) : Option (List Byte) :=
  if adrSpace a = 1 then s.hostRead p (adrHost a) n
  else if adrSpace a = 0 ∧ s.onNode a then
    match s.checkAccess (.part p) false (adrOff a) n with
    | some _ => none
    | none =>
      match s.place (adrOff a) with
      | .error _ => none
      | .ok pl =>
        match (s.checkData none pl n).2 with
        | some _ => none
        | none => some (s.bytesAt pl n)
  else none

end Sys2Proof.Machine
end

