-- ==== Sys2Proof/Machine/Entry.lean ====
section
/-! DEFINITION. Command queues (R152 to R155), the layout of the 64-byte command (R157 to R172), and what keeps the
command at HEAD waiting (R174, R176, R185). -/

namespace Sys2Proof.Machine

/-! ### The 64-byte command -/

/-- Field of a little-endian record: bits `hi` to `lo` counted from byte `b`. -/
def field (e b hi lo : Nat) : Nat := bitsOf e (8 * b + hi) (8 * b + lo)

/-- A one-bit field of a record. -/
def fieldBit (e b i : Nat) : Bool := e.testBit (8 * b + i)

/-- The header fields of a command (R157). -/
def cmdClass (e : Nat) : Nat := field e 0 3 0
def cmdProfile (e : Nat) : Nat := field e 0 5 4
def cmdFence (e : Nat) : Bool := fieldBit e 0 6
def cmdIrq (e : Nat) : Bool := fieldBit e 0 7
def cmdOp (e : Nat) : Nat := field e 0 11 8
def cmdTag (e : Nat) : Nat := field e 0 31 16
def cmdDoneCtr (e : Nat) : Nat := field e 4 11 0
def cmdDoneEn (e : Nat) : Bool := fieldBit e 4 15
def cmdWaitCtr (e : Nat) : Nat := field e 4 27 16
def cmdWaitEn (e : Nat) : Bool := fieldBit e 4 31
def cmdWaitVal (e : Nat) : Nat := field e 8 47 0
def cmdDoneAdd (e : Nat) : Nat := max 1 (field e 14 15 0)
def cmdDeadline (e : Nat) : Nat := field e 60 31 0

/-- Classes of command (R157). -/
def clsCompute : Nat := 1
def clsStream : Nat := 2
def clsCollective : Nat := 3
def clsWait : Nat := 4
def clsSignal : Nat := 5
def clsCommit : Nat := 6
def clsSnap : Nat := 7
def clsEvalBegin : Nat := 8
def clsEvalEnd : Nat := 9

/-- The five body items of a WAIT or SIGNAL: enable, counter, value (R167, R168). -/
def cmdItem (e i : Nat) : Bool × Nat × Nat :=
  (fieldBit e (16 + 8 * i) 63, field e (16 + 8 * i) 59 48, field e (16 + 8 * i) 47 0)

/-- The enabled body items, in order from byte 16. -/
def cmdItems (e : Nat) : List (Nat × Nat) :=
  (List.range 5).filterMap fun i => let x := cmdItem e i; if x.1 then some x.2 else none

/-- The counter conditions of a command: 0 is the header wait, 1 to 5 are the body conditions of a WAIT. -/
def cmdConditions (e : Nat) : List (Nat × Nat × Nat) :=
  (if cmdWaitEn e then [(0, cmdWaitCtr e, cmdWaitVal e)] else []) ++
  (if cmdClass e = clsWait then
    (List.range 5).filterMap fun i => let x := cmdItem e i; if x.1 then some (i + 1, x.2) else none
   else [])

/-- Whether every earlier command of the queue must have completed first (R176 condition 2). -/
def cmdOrdered (e : Nat) : Bool :=
  cmdFence e || [clsSignal, clsCommit, clsSnap, clsEvalBegin, clsEvalEnd].contains (cmdClass e)

/-! ### Queues -/

/-- A queue with nothing in progress. -/
def QState.empty : QState := ⟨[], [], [], [], [], 0, false, [], none, none, none⟩

/-- What queue `q` has in progress. -/
def State.q (s : State) (q : Nat) : QState := Cells.get QState.empty s.queue.qs q

/-- Puts back what queue `q` has in progress. -/
def State.setQ (s : State) (q : Nat) (v : QState) : State :=
  { s with queue := { s.queue with qs := Cells.put QState.empty s.queue.qs q v } }

/-- The partition of queue `q` (R152). -/
def State.queuePart (s : State) (q : Nat) : Option Nat := nibblePart (s.act (R.MOD.CQ_ASSIGN q))

/-- The queues of partition `p`. -/
def State.queuesOf (s : State) (p : Nat) : List Nat := (List.range 64).filter fun q => s.queuePart q = some p

/-- A signal counter's value (R173). -/
def State.ctr (s : State) (c : Nat) : Nat := Cells.get 0 s.sig.ctr c

/-- Ring indices count without wrapping until they pass 2^32 − 1 (R153). -/
def idxAdd (a n : Nat) : Nat := (a + n) % 2 ^ 32
def idxSub (a b : Nat) : Nat := (a + 2 ^ 32 - b) % 2 ^ 32

/-- The address of the command with index `i` (R153). -/
def State.entryAddr (s : State) (q i : Nat) : Nat := s.rd (R.CQ.BASE q) + 64 * (i % 2 ^ s.rd (R.CQ.SIZE q))

/-- The command with index `i`, if the ring can be read (R154). -/
def State.entryAt (s : State) (q i : Nat) : Option Nat :=
  match s.queuePart q with
  | none => none
  | some p => (s.peek p (s.entryAddr q i) 64).map leNat

/-- The index the queue issues next. -/
def State.nextIdx (s : State) (q : Nat) : Nat := s.rd (R.CQ.HEAD q)

/-- Whether the queue has a command to issue. -/
def State.hasNext (s : State) (q : Nat) : Bool := decide (s.rd (R.CQ.HEAD q) ≠ s.rd (R.CQ.TAIL q))

/-- Whether index `i` lies before index `j` in a ring (R153). -/
def idxBefore (i j : Nat) : Bool := decide (i ≠ j ∧ idxSub j i ≤ 2 ^ 31)

/-- Whether the queue is faulted: a command before HEAD ended with a fault and has not been resumed (R183). -/
def State.faulted (s : State) (q : Nat) : Bool :=
  (s.q q).faults.any fun f => idxBefore f.idx (s.rd (R.CQ.HEAD q))

/-- Whether every command before the next one has completed: nothing earlier is in flight. -/
def State.allEarlierDone (s : State) (q : Nat) : Bool :=
  !(s.q q).flights.any fun f => idxBefore f.idx (s.nextIdx q)

/-- Whether condition `k` on counter `c` at value `v` of the command at HEAD holds, or has held (R174): each condition of a WAIT
latches on its own (DESIGN CHOICE, log entry 73). -/
def State.condMet (s : State) (q : Nat) (k : Nat × Nat × Nat) : Bool :=
  (s.q q).met.contains k.1 || decide (k.2.2 ≤ s.ctr k.2.1)

/-- Whether an active step mechanism's counter is the target of an enabled item of a SIGNAL ADD or SET (R285). -/
def addsStep (ctr : Nat) (e : Nat) : Bool :=
  decide (cmdClass e = clsSignal ∧ cmdOp e = 0) && (cmdItems e).any fun x => decide (x.1 = ctr)

/-- STEP of a COMPUTE as its descriptor and bound selector give it, where the descriptor can be read (R163, R164). -/
def State.resolvedStep (s : State) (q e : Nat) : Option Nat :=
  match s.queuePart q with
  | none => none
  | some p =>
    let sel := field e 36 15 12
    if 8 ≤ sel then some (s.rd (R.CQ.BOUND q (sel - 8)))
    else (s.peek p (field e 24 63 0) 128).map fun bs => field (leNat bs) 72 39 0

/-- Whether a step of partition `p` awaits its flip under an active mechanism (R285). -/
def State.awaits (s : State) (p : Nat) : Bool := s.stepActive p && s.on (R.MOD.STEP_STAT.AWAIT p)

/-- Why the command `e` at HEAD may not issue yet, before its issue checks, as CQ.STAT.WAIT_WHY numbers it: 0 nothing,
1 signal or AWAIT, 2 a fence, 4 commit busy (R176, R285, R304). -/
def State.waitWhy (s : State) (q e : Nat) : Nat :=
  let p := (s.queuePart q).getD 8
  if !(cmdConditions e).all (s.condMet q) then 1
  else if cmdOrdered e && !s.allEarlierDone q then 2
  else if cmdClass e = clsCommit ∧ (s.on R.MOD.COMMIT_STAT.PENDING ∨ s.on R.MOD.COMMIT_STAT.HELD) then 4
  else if s.awaits p ∧ addsStep (s.rd (R.MOD.STEP_CFG.STEP_CTR p)) e then 1
  else if s.awaits p ∧ cmdClass e = clsEvalBegin ∧ field e 24 7 0 = 1 then 1
  else 0

/-- Why a PARAM_UPDATE that has passed its checks waits at HEAD: 1 for AWAIT, 2 for an evaluation hold that covers its
step (R286, R306). -/
def State.updateWait (s : State) (q e : Nat) : Nat :=
  let p := (s.queuePart q).getD 8
  if cmdClass e = clsCompute ∧ fieldBit e 32 2 ∧ s.stepActive p then
    if s.awaits p then 1
    else if s.on (R.MOD.STEP_STAT.EVAL_HOLD p) ∧ s.rd (R.MOD.STEP_EVAL_VER p) < (s.resolvedStep q e).getD 0 then 2
    else 0
  else 0

/-- Whether the queues of partition `p` are stopped: outside READY and its states (R427, R448), at a commit epoch (R57
step 3), by a holder (R432), by a replay (R396, R397), by a shed (R411) or at park (R410). -/
def State.partStopped (s : State) (p : Nat) : Bool :=
  decide (s.modState ≠ 3) || (s.rd R.PWR.PARK_STAT.PARKED).testBit p ||
  (s.on R.MOD.COMMIT_STAT.PENDING && s.commit.stop.isSome && s.commit.parts.testBit p) ||
  decide (s.rd (R.CFG.QHOLD p) ≠ 0) || decide (s.rd (R.NOSE.REPLAY_STAT.PHASE p) ≠ 0) || s.on (R.NOSE.REPLAY_STAT.FAILED p) || s.power.frozen

/-- CQ.STAT.STATE and WAIT_WHY of a queue (R185). A queue of a partition that is not in RUN reads stopped. Of several causes the
first counts: faulted, held, paused, stopped (DESIGN CHOICE, log entry 74). -/
def State.queueStat (s : State) (q : Nat) : Nat × Nat :=
  if !s.on (R.PG.CTRL.EN (pgCQ q)) then (0, 0)
  else if s.faulted q then (5, 0)
  else
    match s.queuePart q with
    | none => (4, 0)
    | some p =>
      if s.partHeld p then (6, 0)
      else if s.on (R.CQ.CTRL.PAUSE q) ∨ bitOf (s.rd (R.CQ.STAT.PAUSE_SRC q)) 1 then (3, 0)
      else if s.partStopped p ∨ s.partState p ≠ 4 then (4, 0)
      else if !s.hasNext q then (7, 0)
      else
        match s.entryAt q (s.nextIdx q) with
        | none => (1, 0)
        | some e =>
          let w := if s.waitWhy q e ≠ 0 then s.waitWhy q e else s.updateWait q e
          if w ≠ 0 then (2, w) else if s.rd (R.CQ.STAT.WAIT_WHY q) = 3 then (2, 3) else (1, 0)

/-- Shows the state of queue `q` in CQ.STAT. WAIT_WHY 3, a wait for transfer slots, is written by the STREAM that
waits and stands until it issues. -/
def State.showQueue (s : State) (q : Nat) : State :=
  let x := s.queueStat q
  (s.wr (R.CQ.STAT.STATE q) x.1).wr (R.CQ.STAT.WAIT_WHY q) x.2

/-- Shows the state of every enabled queue. -/
def State.showQueues (s : State) : State := (List.range 64).foldl (fun t q => t.showQueue q) s

end Sys2Proof.Machine
end

