-- ==== Sys2Proof/Machine/Signal.lean ====
section
/-! DEFINITION. Signal counters (R173 to R175), what a change of the step and verdict counters does (R283 to R287),
and the checkpoint of a step (R394). -/

namespace Sys2Proof.Machine

/-- The largest value of a signal counter (R173). -/
def sigMax : Nat := 2 ^ 48 - 1

/-! ### Waiters (R174) -/

/-- The command that waits at HEAD of an enabled, unfaulted queue, if there is one. -/
def State.waiter (s : State) (q : Nat) : Option Nat :=
  if s.on (R.PG.CTRL.EN (pgCQ q)) ∧ !s.faulted q ∧ s.hasNext q then s.entryAt q (s.nextIdx q) else none

/-- Records, for each waiter, the conditions on counter `c` that hold now: such a waiter is released even if a later
set lowers the counter (R174). -/
def State.latchWaiters (s : State) (c : Nat) : State :=
  (List.range 64).foldl (fun t q =>
    match s.waiter q with
    | none => t
    | some e =>
      let ks := (cmdConditions e).filter fun k => decide (k.2.1 = c ∧ k.2.2 ≤ s.ctr c) && !(s.q q).met.contains k.1
      if ks.isEmpty then t else t.setQ q { t.q q with met := (t.q q).met ++ ks.map Prod.fst }) s

/-- Whether the waiter of queue `q` has a condition that has not held. -/
def State.waits (s : State) (q : Nat) : Bool :=
  match s.waiter q with
  | none => false
  | some e => !(cmdConditions e).all (s.condMet q)

/-- A counter takes a value: waiters are judged against it, and those released are counted (R174, WAKEUPS). -/
def State.putCtr (s : State) (c v : Nat) (ovf : Bool) : State :=
  let a := s.latchWaiters c
  let b := { a with sig := { a.sig with ctr := Cells.put 0 a.sig.ctr c v, ovf := Cells.put false a.sig.ovf c ovf } }
  let d := b.latchWaiters c
  d.bump R.SIG.WAKEUPS ((List.range 64).filter fun q => a.waits q && !d.waits q).length

/-! ### The step mechanism (R283 to R287, R385, R394) -/

/-- The counters that a checkpoint of partition `p` holds: the allocated ones of CKPT_RANGEp within SIG_RANGEp, the
verdict counter excepted (R394). -/
def State.ckptCtrs (s : State) (p : Nat) : List Nat :=
  let base := max (s.rd (R.NOSE.CKPT_RANGE.BASE p)) (s.act (R.MOD.SIG_RANGE.BASE p))
  let top := min (s.rd (R.NOSE.CKPT_RANGE.BASE p) + s.rd (R.NOSE.CKPT_RANGE.COUNT p))
    (s.act (R.MOD.SIG_RANGE.BASE p) + s.act (R.MOD.SIG_RANGE.COUNT p))
  ((List.range (top - base)).map fun i => base + i).filter fun c =>
    Cells.get false s.sig.alloc c && decide (c ≠ s.rd (R.MOD.STEP_CFG.VERD_CTR p))

/-- The group entries of partition `p` (GROUP_RANGEp). -/
def State.groupsOf (s : State) (p : Nat) : List Nat :=
  (List.range (s.act (R.MOD.GROUP_RANGE.COUNT p))).map fun i => s.act (R.MOD.GROUP_RANGE.BASE p) + i

/-- The five fields of a group entry that a checkpoint holds (R394). -/
def groupFields (n : Nat) : List Fld :=
  let g := n / 16
  let i := n % 16
  [R.COLL.GRP_SEQ g i, R.COLL.GRP_LAST_GEN g i, R.COLL.GRP_STAT.CHG g i, R.COLL.GRP_ABORT_SEQ g i,
   R.COLL.GRP_STAT.ABORT_VALID g i]

/-- The checkpoint of partition `p` as the machine stands (R394). -/
def State.checkpoint (s : State) (p : Nat) : Ckpt :=
  { ctrs := (s.ckptCtrs p).map fun c => (c, s.ctr c)
    bounds := (s.queuesOf p).map fun q => (q, (List.range 8).map fun n => s.rd (R.CQ.BOUND q n))
    groups := (s.groupsOf p).map fun n => (n, (groupFields n).map s.rd) }

/-- A new attempt 0 of a step (R385). -/
def newRun (p step : Nat) (c : Option Ckpt) : Run :=
  ⟨p, step, 0, none, none, false, false, false, false, false, false, none, [], [], [], c⟩

/-- The destinations of an attempt: those of its collectives, and the valid peers (R386). -/
def State.verdictDests (s : State) (r : Run) : List (Nat × Nat) :=
  let p := r.part
  let peers := (List.range (s.rd (R.MOD.STEP_CTRL.PEERS p))).filterMap fun k =>
    if s.on (R.MOD.STEP_PEER.VALID p k) then some (s.rd (R.MOD.STEP_PEER.NODE p k), s.rd (R.MOD.STEP_PEER.PART p k)) else none
  ((r.dests ++ peers).eraseDups).filter fun d => decide (d ≠ (s.rd R.MOD.FAB_NODE.NODE, p))

/-- The destinations that are verdict sources: those whose route KIND is 1 (R386). -/
def State.verdictSources (s : State) (r : Run) : List (Nat × Nat) := (s.verdictDests r).filter fun d =>
  decide (bitsOf (Cells.get 0 s.fab.routes d.1) 33 32 = 1)

/-- Shows the attempts of partition `p` in REPLAY_STATp: the step that awaits its flip, else the open one. -/
def State.showRuns (s : State) (p : Nat) : State :=
  let rs := s.nose.runs.filter fun r => decide (r.part = p)
  match (rs.find? fun r => r.closed.isSome).or rs.head? with
  | none => s
  | some r =>
    let left := (s.verdictSources r).filter fun d => !r.clean.contains d
    (((s.wr (R.NOSE.REPLAY_STAT.ATTEMPT p) r.att).flag (R.NOSE.REPLAY_STAT.LOCAL p) r.local3).flag
      (R.NOSE.REPLAY_STAT.FINAL p) r.final3).wr (R.NOSE.REPLAY_STAT.SOURCES p) left.length

/-- Step `n` of partition `p` closes and step `n + 1` opens (R284, R285): the close is recorded and counted, the step
awaits its flip, and the checkpoint of the new step is taken (R394). -/
def State.closeStep (s : State) (p n : Nat) : State :=
  let a := ((s.wr (R.MOD.STEP_CLOSE_TICK p) s.time).bump (R.MOD.STEP_CLOSED p) 1).wr (R.MOD.STEP_STAT.AWAIT p) 1
  let b := a.mapRuns (fun r => decide (r.part = p ∧ r.step = n)) (fun r => { r with closed := some s.time })
  let d := { b with nose := { b.nose with
    runs := b.nose.runs ++ [newRun p (n + 1) (some (b.checkpoint p))]
    chosen := Cells.clear b.nose.chosen fun t => (b.partTiles p).contains t } }
  d.showRuns p

/-- What changes a signal counter. -/
inductive CtrCause where
  /-- A SIGNAL ADD command's body item. -/
  | signalAdd
  /-- The flip of a step (R289), or the restore of a checkpoint (R396). -/
  | flip
  | restore
  | other
  deriving DecidableEq, Repr

/-- STEP_JUMP halts the mechanism (R284). -/
def State.stepJump (s : State) (p : Nat) : State := (s.wr (R.MOD.STEP_STAT.HALTED p) 1).raise pgMOD .STEP_JUMP p

/-- The number of the step that opens at the exhaustion of the step numbers (R287). -/
def stepLimit : Nat := 2 ^ 40

/-- What follows in partition `p` when counter `c` has gone from `old` to `new` (R284 to R287). -/
def State.stepChanged (s : State) (p c old new : Nat) (why : CtrCause) : State :=
  if old = new then s
  else if c = s.rd (R.MOD.STEP_CFG.STEP_CTR p) then
    let a := s.wr (R.MOD.STEP_NUM p) new
    if why = .restore ∨ !s.stepActive p then a
    else
      let b := if why = .signalAdd ∧ new = old + 1 then a.closeStep p old else a.stepJump p
      if old < stepLimit ∧ stepLimit ≤ new then b.raise pgMOD .STEP_EXHAUSTED p else b
  else if s.stepActive p ∧ c = s.rd (R.MOD.STEP_CFG.VERD_CTR p) ∧ why ≠ .flip ∧ why ≠ .restore then s.stepJump p
  else s

/-- STEPp_NUM of every partition is the value of its step counter (R284). -/
def State.mirrorSteps (s : State) : State :=
  (List.range 8).foldl (fun u p => u.wr (R.MOD.STEP_NUM p) (u.ctr (u.rd (R.MOD.STEP_CFG.STEP_CTR p)))) s

/-- A counter takes a value for a cause: the waiters and the step mechanisms follow. -/
def State.changeCtr (s : State) (c v : Nat) (ovf : Bool) (why : CtrCause) : State :=
  let old := s.ctr c
  let a := s.putCtr c v ovf
  (List.range 8).foldl (fun t p => t.stepChanged p c old v why) a

/-- Adds `n` to a counter; past 2^48 − 1 it stays there, sets its OVF bit and raises SIG_OVF (R173). -/
def State.addCtr (s : State) (c n : Nat) (why : CtrCause := .other) : State :=
  let a := s.bump R.SIG.ADDS 1
  if sigMax < s.ctr c + n then (a.changeCtr c sigMax true why).raise pgSIG .SIG_OVF
  else a.changeCtr c (s.ctr c + n) (Cells.get false s.sig.ovf c) why

/-- Sets a counter and clears its OVF bit (R173). -/
def State.setCtr (s : State) (c v : Nat) (why : CtrCause := .other) : State := s.changeCtr c v false why

end Sys2Proof.Machine
end

