-- ==== Sys2Proof/Machine/Tile.lean ====
section
/-! DEFINITION. The tile of spec/05: its scratchpad, written lines, error correction and windows, and the commands on
them. -/

namespace Sys2Proof.Machine

/-! ### Scratchpad words (R120, R125 to R128) -/

/-- The key of a scratchpad word of a tile, and of a 64-byte line. -/
def wordKey (t w : Nat) : Nat := t * 2 ^ 24 + w
def lineKey (t l : Nat) : Nat := t * 2 ^ 20 + l

/-- The bank, the entry and the line of a word (R120). -/
def bankOf (w : Nat) : Nat := w % 64
def entryOf (w : Nat) : Nat := w / 128
def lineOf (w : Nat) : Nat := w / 16

/-- The other word of a word's entry: w and w + 64 share one (R120). -/
def pairWord (w : Nat) : Nat := if w / 64 % 2 = 0 then w + 64 else w - 64

/-- Whether a line is written (R125). -/
def State.lineWritten (s : State) (t l : Nat) : Bool := Cells.get false s.tile.written (lineKey t l)

/-- A line's first write sets its written bit and writes zero to its words, which ends their marks (R125, R128). -/
def State.openLine (s : State) (t l : Nat) : State :=
  let inLine := fun k => decide (wordKey t (l * 16) ≤ k ∧ k < wordKey t (l * 16) + 16)
  if s.lineWritten t l then s
  else { s with tile := { s.tile with
    written := Cells.put false s.tile.written (lineKey t l) true
    words := Cells.clear s.tile.words inLine, poison := Cells.clear s.tile.poison inLine
    flaws := Cells.clear s.tile.flaws inLine } }

/-- Writes one word; its marks go, and what it held is no contribution any more (R88, R125, R128). -/
def State.spadWrite (s : State) (t w : Nat) (v : Word) : State :=
  let a := s.openLine t (lineOf w)
  { a with tile := { a.tile with
    words := Cells.put 0 a.tile.words (wordKey t w) v
    poison := Cells.put false a.tile.poison (wordKey t w) false
    flaws := Cells.put 0 a.tile.flaws (wordKey t w) 0
    profs := Cells.put 0 a.tile.profs (wordKey t w) 0 } }

/-- Writes consecutive words from `w`. -/
def State.spadWrites (s : State) (t w : Nat) (vs : List Word) : State :=
  match vs with
  | [] => s
  | v :: r => (s.spadWrite t w v).spadWrites t (w + 1) r

/-- A poisoning: both words of the entry are marked, and the first since POISON was cleared is recorded (R128). -/
def State.poisonEntry (s : State) (t w : Nat) : State :=
  let a := { s with tile := { s.tile with
    poison := Cells.put false (Cells.put false s.tile.poison (wordKey t w) true) (wordKey t (pairWord w)) true } }
  if s.on (R.TILE.SPAD_STAT.POISON t) then a
  else ((a.wr (R.TILE.POISON_ADDR t) w).wr (R.TILE.SPAD_STAT.POISON t) 1).irq (pgTILE t) 4

/-- An unset read that returns zero: UNSET, UNSET_ADDR and UNSET_READS (R126). -/
def State.unsetRead (s : State) (t w : Nat) : State :=
  let a := s.bump (R.TILE.UNSET_READS t) 1
  if s.on (R.TILE.SPAD_STAT.UNSET t) then a
  else ((a.wr (R.TILE.UNSET_ADDR t) w).wr (R.TILE.SPAD_STAT.UNSET t) 1).irq (pgTILE t) 2

/-- Reads one word for command `o`: range, unset read, poison, then the check bits (R120, R126, R128). When a bit error arises in an
entry the spec does not say: it comes with PATROL_SCRUB (DESIGN CHOICE, log entry 104). -/
def State.spadRead (s : State) (o : Option Owner) (t w : Nat) : State × Except Err Word :=
  if Config.spadWords ≤ w then (s.raiseFor o (pgTILE t) .SPAD_RANGE, .error .SPAD_RANGE)
  else if !s.lineWritten t (lineOf w) then
    if s.act (R.TILE.SPAD_CTRL.STRICT t) = 1 then (s.raiseFor o (pgTILE t) .UNSET_READ, .error .UNSET_READ)
    else (s.unsetRead t w, .ok 0)
  else if Cells.get false s.tile.poison (wordKey t w) || Cells.get false s.tile.poison (wordKey t (pairWord w)) then
    (s.raiseFor o (pgTILE t) .SPAD_POISON, .error .SPAD_POISON)
  else
    let k := wordKey t w
    let j := wordKey t (pairWord w)
    let v := Cells.get 0 s.tile.words k
    let fixed := { s with tile := { s.tile with flaws := Cells.put 0 (Cells.put 0 s.tile.flaws k 0) j 0 } }
    match max (Cells.get 0 s.tile.flaws k) (Cells.get 0 s.tile.flaws j) with
    | 0 => (s, .ok v)
    | 1 => (fixed.bump (R.TILE.ECC_CORRECTED t) 1, .ok v)
    | _ => ((fixed.poisonEntry t w).raiseFor o (pgTILE t) .SPAD_UE, .error .SPAD_UE)

/-- Writes consecutive words from `w`; an access past the end of the scratchpad is not performed (R120). -/
def State.spadPut (s : State) (o : Option Owner) (t w : Nat) (vs : List Word) : State × Option Err :=
  let a := s.spadWrites t w (vs.take (Config.spadWords - w))
  if w + vs.length ≤ Config.spadWords then (a, none) else (a.raiseFor o (pgTILE t) .SPAD_RANGE, some .SPAD_RANGE)

/-- Reads words in order, up to the first failure. -/
def State.spadReads (s : State) (o : Option Owner) (t : Nat) (ws : List Nat) : State × Except Err (List Word) :=
  match ws with
  | [] => (s, .ok [])
  | w :: r =>
    match s.spadRead o t w with
    | (a, .error e) => (a, .error e)
    | (a, .ok v) =>
      match a.spadReads o t r with
      | (b, .error e) => (b, .error e)
      | (b, .ok vs) => (b, .ok (v :: vs))

/-- `n` consecutive words from `w`. -/
def wordsFrom (w n : Nat) : List Nat := (List.range n).map fun i => w + i

/-- The words of bytes, four to a word, the lowest first; missing bytes are zero. -/
def wordsOfBytes (bs : List Byte) : List Word :=
  (List.range ((bs.length + 3) / 4)).map fun i => BitVec.ofNat 32 (leNat ((bs.drop (4 * i)).take 4))

/-- The bytes of words, the lowest first. -/
def bytesOfWords (ws : List Word) : List Byte := ws.flatMap fun w => leBytes 4 w.toNat

/-! ### Transfers on their way (R374 to R376) -/

/-- Bytes as they arrive: with the bits that change on the way of the next transfer. -/
def State.onWire (s : State) (bs : List Byte) : State × List Byte :=
  match s.tile.wire with
  | [] => (s, bs)
  | e :: r => ({ s with tile := { s.tile with wire := r } }, flipBytes bs e)

/-- Bytes that are sealed where they are read and checked where they arrive, in one step: as they arrive, and the spans whose
carried seal fails. -/
def State.carry (s : State) (first : Nat) (bs : List Byte) : State × List Byte × List (Nat × Nat) :=
  let x := s.onWire bs
  (x.1, x.2, if x.2 = bs then [] else badSpans first x.2 (sealsOf first bs))

/-- Data that has arrived is written by `put`, span by span where some of its carried seals fail: those spans are not written
(R376). -/
def State.writeSpans (s : State) (o : Option Owner) (pg first : Nat) (d : List Byte) (bad : List (Nat × Nat))
    (put : State → Nat → List Byte → State × Option Err) : State × Option Err :=
  if bad.isEmpty then put s 0 d
  else
    let a := ((spansOf first d.length).filter fun x => !bad.contains x).foldl (fun u x => (put u x.1 ((d.drop x.1).take x.2)).1) s
    (a.sealFail o pg .SEAL_CARRIED, some .SEAL_CARRIED)

/-- A write of sealed data at offset `off` of this node: the first three checks of R271, then the carried seals, then the data
(R375, R376). -/
def State.sealedWrite (s : State) (o : Option Owner) (a : Actor) (off first : Nat) (d : List Byte) (bad : List (Nat × Nat)) :
    State × Option Err :=
  match s.checkAccess a true off d.length with
  | some (e, pg) => (s.raiseFor o pg e, some e)
  | none => s.writeSpans o (s.pageOfOffset off) first d bad fun u x bs => u.memWrite o a (off + x) bs

/-- What an adder stage adds wrong next, if anything. -/
def State.nextSlip (s : State) : Option Slip := (s.tile.slips.head?).getD none

/-- `n` adder stages have worked. -/
def State.ranStages (s : State) (n : Nat) : State := { s with tile := { s.tile with slips := s.tile.slips.drop n } }

/-- Lines of one scratchpad (R120). -/
def spadLines : Nat := 655360

/-- Clears the written bits of those of the lines `first` to `first + n - 1` that the scratchpad has; the words of a cleared line
lose their marks (R127, R128). A range that runs past the last line is accepted: the spec gives it no refusal (DESIGN CHOICE, log
entry 102). -/
def State.clearLines (s : State) (t first n : Nat) : State :=
  let m := min n (spadLines - first)
  let inLines := fun k => decide (wordKey t (first * 16) ≤ k ∧ k < wordKey t (first * 16) + m * 16)
  { s with tile := { s.tile with
    written := Cells.clear s.tile.written fun k => decide (lineKey t first ≤ k ∧ k < lineKey t first + m)
    poison := Cells.clear s.tile.poison inLines, flaws := Cells.clear s.tile.flaws inLines } }

/-! ### Work in progress in a tile -/

/-- The commands in flight that work in tile `t`. -/
def State.tileFlights (s : State) (t : Nat) : List Flight :=
  (List.range 64).flatMap fun q => (s.q q).flights.filter fun f => f.tiles.contains t

/-- PG_STAT.IDLE of a TILE page: no command work, and no remote write, is in progress in the tile. -/
def State.tileIdle (s : State) (t : Nat) : Bool :=
  (s.tileFlights t).isEmpty && !s.tile.landing.any (fun l => decide (l.tile = t))

/-! ### Yield cycles and clears (R123, R127) -/

/-- YIELD_CYCLE (R123): an unscheduled access that has waited YIELD_WAIT kept cycles forces a yield cycle. -/
def execYieldCycle (t : Fin 960) (waited : Nat) (s : State) : Host.Outcome State Fault Refusal :=
  .next (if max 1 (s.rd (R.TILE.SPAD_CTRL.YIELD_WAIT t)) ≤ waited then s.bump (R.TILE.SPAD_YIELDS t) 1 else s)

/-- Whether windows `n` is open or closing. -/
def State.winLive (s : State) (t n : Nat) : Bool := decide (2 ≤ s.rd (R.TILE.SPAD_WIN_CTRL.STATE t n))

/-- Whether two half-open ranges overlap. -/
def overlaps (a b c d : Nat) : Bool := decide (a < d ∧ c < b ∧ a < b ∧ c < d)

/-- What is left of the clear of a tile. -/
def State.setClear (s : State) (t : Nat) (r : Nat × Nat) : State :=
  { s with tile := { s.tile with clears := Cells.put (0, 0) s.tile.clears t r } }

/-- SPAD_CLEAR (R127): ignored while a clear runs (R48), refused unless the tile is idle and no open or closing window meets the
range; a range of no lines is done at once. -/
def State.spadClear (s : State) (t lines : Nat) : State :=
  let first := s.rd (R.TILE.SPAD_CLEAR t)
  let hit := (List.range 16).any fun n => s.winLive t n &&
    overlaps (first * 16) ((first + lines) * 16) (s.rd (R.TILE.SPAD_WIN_BASE t n)) (s.rd (R.TILE.SPAD_WIN_LIMIT t n))
  let a := s.wr (R.TILE.SPAD_CLEAR_CTRL.LINES t) lines
  if s.on (R.TILE.SPAD_STAT.CLEARING t) then a.raise (pgTILE t) .TRIG_BUSY
  else if !s.tileIdle t || hit then a.raise (pgTILE t) .CLEAR_REFUSED
  else if lines = 0 then a
  else
    ((a.setClear t (first, lines)).wr (R.TILE.SPAD_STAT.CLEARING t) 1).wr (R.TILE.SPAD_CLEAR_CTRL.GO t) 1

def execSpadClear (p : Path) (t : Fin 960) (lines : BitVec 20) (s : State) : Host.Outcome State Fault Refusal :=
  .next (s.onWrite p (R.TILE.SPAD_CLEAR_CTRL.GO t).addr 4 none fun s => (s.spadClear t lines.toNat))

/-- No clear of a tile is in progress any more. -/
def State.endClear (s : State) (t : Nat) : State :=
  ((s.setClear t (0, 0)).wr (R.TILE.SPAD_STAT.CLEARING t) 0).wr (R.TILE.SPAD_CLEAR_CTRL.GO t) 0

/-- `n` kept cycles of the clear in progress: 64 lines in each, in ascending order, up to the last (R127). -/
def State.clearFor (s : State) (t n : Nat) : State :=
  let r := Cells.get (0, 0) s.tile.clears t
  let a := s.clearLines t r.1 (min (64 * n) r.2)
  if r.2 ≤ 64 * n then a.endClear t else a.setClear t (r.1 + 64 * n, r.2 - 64 * n)

/-- SPAD_CLEAR_DONE (R127): `cycles` kept cycles of the clear have passed; with the last line of the range it is done. -/
def execSpadClearDone (t : Fin 960) (cycles : Nat) (s : State) : Host.Outcome State Fault Refusal :=
  .next (if s.on (R.TILE.SPAD_STAT.CLEARING t) then s.clearFor t cycles else s)

/-! ### Windows (R129 to R131) -/

/-- The key of a per-path result. -/
def pathKey (p : Path) (f : Fld) : Nat := pathIx p * 2 ^ 40 + f.key

/-- Reads and writes a per-path result. -/
def State.pathRd (s : State) (p : Path) (f : Fld) : Nat := Cells.get 0 s.pathVal (pathKey p f)
def State.pathWr (s : State) (p : Path) (f : Fld) (v : Nat) : State :=
  { s with pathVal := Cells.put 0 s.pathVal (pathKey p f) (v % 2 ^ f.w) }

/-- WIN_ALLOC (R130): the lowest-numbered free window, or WIN_FULL. -/
def State.winAlloc (s : State) (p : Path) (t : Nat) : State :=
  match (List.range 16).find? fun n => decide (s.rd (R.TILE.SPAD_WIN_CTRL.STATE t n) = 0) with
  | some n => ((s.wr (R.TILE.SPAD_WIN_CTRL.STATE t n) 1).pathWr p (R.TILE.WIN_ALLOC.INDEX t) n).pathWr p (R.TILE.WIN_ALLOC.FAIL t) 0
  | none => (s.pathWr p (R.TILE.WIN_ALLOC.FAIL t) 1).raise (pgTILE t) .WIN_FULL

def execWinAlloc (p : Path) (t : Fin 960) (s : State) : Host.Outcome State Fault Refusal :=
  .next (s.onWrite p (R.TILE.WIN_ALLOC.GO t).addr 4 none fun s => (s.winAlloc p t))

/-- WIN_OPEN (R131): accepted in allocated, with legal bounds and no overlap with an open or closing window. The SOURCE of its
refusals, and of those of CLOSE and FREE, is the window's number (DESIGN CHOICE, log entry 25). -/
def State.winOpen (s : State) (t n : Nat) : State :=
  let b := s.rd (R.TILE.SPAD_WIN_BASE t n)
  let l := s.rd (R.TILE.SPAD_WIN_LIMIT t n)
  if s.rd (R.TILE.SPAD_WIN_CTRL.STATE t n) ≠ 1 then s.raise (pgTILE t) .WIN_BUSY n
  else if b % 16 ≠ 0 ∨ l % 16 ≠ 0 ∨ l ≤ b ∨ Config.spadWords < l then s.raise (pgTILE t) .WIN_BOUND n
  else if (List.range 16).any fun m => decide (m ≠ n) && s.winLive t m &&
      overlaps b l (s.rd (R.TILE.SPAD_WIN_BASE t m)) (s.rd (R.TILE.SPAD_WIN_LIMIT t m)) then s.raise (pgTILE t) .WIN_OVERLAP n
  else s.wr (R.TILE.SPAD_WIN_CTRL.STATE t n) 2

def execWinOpen (p : Path) (t : Fin 960) (n : Fin 16) (s : State) : Host.Outcome State Fault Refusal :=
  .next (s.onWrite p (R.TILE.SPAD_WIN_CTRL.OPEN t n).addr 4 none fun s => (s.winOpen t n.val))

/-- WIN_CLOSE (R129): an open window takes no new writes, and closes at once if none is in progress. -/
def State.winClose (s : State) (t n : Nat) : State :=
  if s.rd (R.TILE.SPAD_WIN_CTRL.STATE t n) ≠ 2 then s.raise (pgTILE t) .WIN_BUSY n
  else s.wr (R.TILE.SPAD_WIN_CTRL.STATE t n) 3

def execWinClose (p : Path) (t : Fin 960) (n : Fin 16) (s : State) : Host.Outcome State Fault Refusal :=
  .next (s.onWrite p (R.TILE.SPAD_WIN_CTRL.CLOSE t n).addr 4 none fun s => (s.winClose t n.val))

/-- WIN_CLOSING_DONE (R129): a closing window whose IN_USE is 0 returns to allocated. -/
def execWinClosingDone (t : Fin 960) (n : Fin 16) (s : State) : Host.Outcome State Fault Refusal :=
  .next (if s.rd (R.TILE.SPAD_WIN_CTRL.STATE t n.val) = 3 ∧ s.rd (R.TILE.SPAD_WIN_SIG.IN_USE t n.val) = 0 then
    s.wr (R.TILE.SPAD_WIN_CTRL.STATE t n.val) 1 else s)

/-- WIN_FREE (R129): an allocated window returns to free. -/
def State.winFree (s : State) (t n : Nat) : State :=
  if s.rd (R.TILE.SPAD_WIN_CTRL.STATE t n) ≠ 1 then s.raise (pgTILE t) .WIN_BUSY n
  else s.wr (R.TILE.SPAD_WIN_CTRL.STATE t n) 0

def execWinFree (p : Path) (t : Fin 960) (n : Fin 16) (s : State) : Host.Outcome State Fault Refusal :=
  .next (s.onWrite p (R.TILE.SPAD_WIN_CTRL.FREE t n).addr 4 none fun s => (s.winFree t n.val))

/-! ### Remote writes (R132 to R134, R199, R200) -/

/-- The partition of a sender (R33). -/
def State.senderPart (s : State) (w : Sender) : Option Nat :=
  match w with
  | .tile t => s.partOfRow (t / 40)
  | .sillage e => nibblePart (s.act (R.MOD.SILL_ASSIGN e))
  | .coll g => nibblePart (s.act (R.MOD.COLL_ASSIGN g))

/-- Whether a window's SRC_KIND and SRC_ID admit a sender. -/
def State.admits (s : State) (t n : Nat) (w : Sender) : Bool :=
  let k := s.rd (R.TILE.SPAD_WIN_CTRL.SRC_KIND t n)
  let i := s.rd (R.TILE.SPAD_WIN_CTRL.SRC_ID t n)
  match w with
  | .tile u => k = 0 || (k = 1 && i = u)
  | .sillage e => k = 0 || (k = 2 && i = e)
  | .coll g => k = 0 || (k = 3 && i = g)

/-- A remote write with its carried seals, whose first span has `first` bytes (R374). -/
def landingOf (t win off : Nat) (ws : List Word) (w : Sender) (o : Option Owner) (prof first : Nat) : Landing :=
  ⟨t, win, off, ws, w, o, prof, first, sealsOf first (bytesOfWords ws)⟩

/-- The check of a remote write at its header (R132, R200): the first condition that refuses it. -/
def State.writeRefused (s : State) (w : Sender) (t n off len : Nat) : Option Err :=
  if s.senderPart w ≠ s.partOfRow (t / 40) then some .PARTITION_CROSS
  else if s.rd (R.TILE.SPAD_WIN_CTRL.STATE t n) ≠ 2 ∨ !s.admits t n w then some .WIN_CLOSED
  else if s.rd (R.TILE.SPAD_WIN_LIMIT t n) - s.rd (R.TILE.SPAD_WIN_BASE t n) < off + len then some .WIN_BOUND
  else if s.rd (R.TILE.SPAD_WIN_CTRL.MODE t n) = 1 ∧ (off % 128 ≠ 0 ∨ len % 128 ≠ 0) then some .WIN_BOUND
  else none

/-- A refused remote write is counted and raises its code (R132). -/
def State.refuseWrite (s : State) (o : Option Owner) (t : Nat) (e : Err) : State :=
  ((s.bump (R.TILE.WIN_REFUSED t) 1).raiseFor o (pgTILE t) e).irq (pgTILE t) 3

/-- A Sillage engine counts what a tile does with its write: a refused one, or the bytes of a landed one (R214, R222). -/
def State.sillCount (s : State) (w : Sender) (refused : Bool) (words : Nat) : State :=
  match w with
  | .sillage e => if refused then s.bump (R.SILL.REFUSED_DEST e) 1 else s.bump (R.SILL.BYTES_DELIVERED e) (4 * words)
  | _ => s

/-- The error a command in flight ends with: the first one found. -/
def State.flightErr (s : State) (o : Option Owner) (e : Err) : State :=
  match o with
  | none => s
  | some w => s.setQ w.queue { s.q w.queue with flights := (s.q w.queue).flights.map fun f =>
      if f.idx = w.idx then { f with err := f.err.or (some e) } else f }

/-- A header arrives: the write is admitted, or refused whole (R132). -/
def State.admitWrite (s : State) (l : Landing) : State × Option Err :=
  match s.writeRefused l.sender l.tile l.win l.off l.words.length with
  | some e => ((s.refuseWrite l.owner l.tile e).sillCount l.sender true 0, some e)
  | none =>
    let a := { s with tile := { s.tile with landing := s.tile.landing ++ [l] } }
    (a.wr (R.TILE.SPAD_WIN_SIG.IN_USE l.tile l.win) (s.rd (R.TILE.SPAD_WIN_SIG.IN_USE l.tile l.win) + 1), none)

/-- Whether two contributions may be combined: their profiles agree, where both have one (R88, log entry 67). -/
def profsAgree (a b : Nat) : Bool := a = 0 || b = 0 || a = b

/-- A tile raises an error for a command and ends it with that error. -/
def State.tileFail (s : State) (o : Option Owner) (t : Nat) (e : Err) : State := (s.raiseFor o (pgTILE t) e).flightErr o e

/-- A triple is stored in slot `w` for a contribution of profile `p`. -/
def State.putSlot (s : State) (t w p : Nat) (x : Triple) : State :=
  let a := s.spadWrites t w (wordsOfBytes (x.bytes ++ List.replicate 29 0))
  ({ a with tile := { a.tile with profs := Cells.put 0 a.tile.profs (wordKey t w) p } }).bump (R.TILE.ACCUM_ADDS t) 1

/-- One triple of 128 words of profile `p` reaches slot `w` of an accumulate window: stored into an unwritten slot, else added as
one adder stage; a failed check leaves the slot (R88, R105, R134). -/
def State.accumulate (s : State) (o : Option Owner) (t w p : Nat) (ws : List Word) : State :=
  let tr := Triple.ofBytes ((bytesOfWords ws).take 483)
  let had := Cells.get 0 s.tile.profs (wordKey t w)
  if tr.code = none then s.tileFail o t .XB40_ANCHOR_MISMATCH
  else if !s.lineWritten t (lineOf w) then s.putSlot t w p tr
  else if !profsAgree had p then s.tileFail o t .PROFILE_MIX
  else
    match s.spadReads o t (wordsFrom w 128) with
    | (b, .error e) => b.flightErr o e
    | (b, .ok old) =>
      let u := b.ranStages 1
      match adderStage [Triple.ofBytes ((bytesOfWords old).take 483), tr] b.nextSlip with
      | .ok x => u.putSlot t w (if had = 0 then p else had) x
      | .error .anchor => u.tileFail o t .XB40_ANCHOR_MISMATCH
      | .error .residue => u.tileFail o t .RESIDUE_MISMATCH
      | .error .range => u.tileFail o t .XB40_RANGE

/-- The triples of an accumulating write, slot by slot. -/
def State.accumulates (s : State) (o : Option Owner) (t w p n : Nat) (ws : List Word) : State :=
  match n with
  | 0 => s
  | n + 1 => (s.accumulate o t w p (ws.take 128)).accumulates o t (w + 128) p n (ws.drop 128)

/-- The lines that `n` words from word `w` touch. -/
def linesTouched (w n : Nat) : Nat := if n = 0 then 0 else lineOf (w + n - 1) + 1 - lineOf w

/-- The words of an admitted write as they arrive at its tile (R375). A carried seal that fails ends the command that owns the
write, which lands all the same (R376). -/
def State.arrive (s : State) (l : Landing) : State × List Word :=
  let x := s.onWire (bytesOfWords l.words)
  (if (badSpans l.first x.2 l.seals).isEmpty then x.1
    else (x.1.sealFail l.owner (pgTILE l.tile) .SEAL_CARRIED).flightErr l.owner .SEAL_CARRIED, wordsOfBytes x.2)

/-- An admitted write's last word lands: its words or triples are in place, IN_USE falls, and the window's counter
advances by the lines touched (R132 to R134). One whose window a park has freed is lost (R402, R414). -/
def State.landWrite (s : State) (l : Landing) : State :=
  let t := l.tile
  let n := l.win
  if !s.winLive t n then s else
  let x := s.arrive l
  let u := x.1
  let w := s.rd (R.TILE.SPAD_WIN_BASE t n) + l.off
  let a := if s.rd (R.TILE.SPAD_WIN_CTRL.MODE t n) = 1 then u.accumulates l.owner t w l.prof (l.words.length / 128) x.2
    else u.spadWrites t w x.2
  let b := (a.wr (R.TILE.SPAD_WIN_SIG.IN_USE t n) (a.rd (R.TILE.SPAD_WIN_SIG.IN_USE t n) - 1)).sillCount l.sender false l.words.length
  if s.on (R.TILE.SPAD_WIN_SIG.SIG_EN t n) then
    b.addCtr (s.rd (R.TILE.SPAD_WIN_SIG.COUNTER t n)) (linesTouched w l.words.length)
  else b

/-- An admitted write lands and is no longer in progress. -/
def State.landNow (s : State) (l : Landing) : State :=
  ({ s with tile := { s.tile with landing := s.tile.landing.erase l } }).landWrite l

/-- A remote write that is admitted and lands in one piece, after the older writes of its sender to the tile (R124). -/
def State.remoteWrite (s : State) (l : Landing) : State × Option Err :=
  match s.admitWrite l with
  | (a, some e) => (a, some e)
  | (a, none) => ((a.tile.landing.filter fun x => decide (x.sender = l.sender ∧ x.tile = l.tile)).foldl State.landNow a, none)

/-- The owner of a command in flight. -/
def State.ownerOf (s : State) (q i : Nat) : Option Owner := ((s.q q).flights.find? fun f => decide (f.idx = i)).map Flight.owner

/-- REMOTE_WRITE (R132): the header of a write from `w` arrives, under profile `prof` or none (0), for the command `cmd` (queue and
index) that sent it if it is one of this module; a refusal ends that command with the same code. -/
def execRemoteWrite (w : Sender) (t : Fin 960) (n : Fin 16) (off : Nat) (words : List Word) (prof : Fin 3) (cmd : Option (Nat × Nat))
    (s : State) : Host.Outcome State Fault Refusal :=
  let o := cmd.bind fun c => s.ownerOf c.1 c.2
  match s.admitWrite (landingOf t n.val off words w o prof.val 512) with
  | (a, some e) => .next (a.flightErr o e)
  | (a, none) => .next a

/-- Whether a write has all its words in the tile: one that an engine injects waits for its last flit (R214, R223). -/
def State.arrived (s : State) (l : Landing) : Bool := !s.stream.drops.any fun d => d.write = some l ∧ d.passed < d.total

/-- REMOTE_WRITE_LANDED (R133): the oldest admitted write of a sender to the window completes, once it has arrived (R124). -/
def execRemoteWriteLanded (w : Sender) (t : Fin 960) (n : Fin 16) (s : State) : Host.Outcome State Fault Refusal :=
  match s.tile.landing.find? fun l => decide (l.sender = w ∧ l.tile = t.val ∧ l.win = n.val) with
  | none => .next s
  | some l => .next (if s.arrived l then s.landNow l else s)

end Sys2Proof.Machine
end

