-- ==== Sys2Proof/Machine/Queue.lean ====
section
/-! DEFINITION. The issue, completion and faulting of queue commands (R176 to R187), the checks of R182 that all
classes share, and the commands on the queues themselves. -/

namespace Sys2Proof.Machine

/-! ### HEAD, DONE and faults (R153, R177, R183) -/

/-- Changes what queue `q` has in progress. -/
def State.onQ (s : State) (q : Nat) (g : QState → QState) : State := s.setQ q (g (s.q q))

/-- A new command comes to HEAD: nothing of its wait has passed. -/
def State.freshHead (s : State) (q : Nat) : State :=
  s.onQ q fun v => { v with met := [], since := s.now, limited := false }

/-- The fault at the lowest index before HEAD, if any. -/
def State.firstFault (s : State) (q : Nat) : Option FaultRec :=
  ((s.q q).faults.filter fun f => idxBefore f.idx (s.rd (R.CQ.HEAD q))).foldl
    (fun m f => match m with
      | none => some f
      | some x => if idxBefore f.idx x.idx then some f else some x) none

/-- The queue becomes faulted at its first fault: FAULT_IDX and FAULT_CODE are loaded; the first time, a code of the
CQ page is captured and bit 3 of PG_IRQ_RAW sets (R183). -/
def State.showFault (s : State) (q : Nat) : State :=
  match s.firstFault q with
  | none => s
  | some f =>
    let a := ((s.wr (R.CQ.FAULT_IDX q) f.idx).wr (R.CQ.FAULT_CODE.CODE q) f.err.code).wr (R.CQ.FAULT_CODE.TAG q) f.tag
    if f.shown then a
    else
      let b := a.onQ q fun v => { v with faults := v.faults.map fun x => if x.idx = f.idx then { x with shown := true } else x }
      ((if f.own then b.raise (pgCQ q) f.err else b)).irq (pgCQ q) 3

/-- HEAD passes every command at it that has issued already, up to one that has faulted (R180, R183). -/
def State.passIssued (s : State) (q n : Nat) : State :=
  match n with
  | 0 => s
  | n + 1 =>
    let h := s.rd (R.CQ.HEAD q)
    if (s.q q).ahead.contains h ∧ !s.faulted q then
      ((s.wr (R.CQ.HEAD q) (idxAdd h 1)).onQ q fun v => { v with ahead := v.ahead.filter fun i => i ≠ h }).passIssued q n
    else s

/-- HEAD passes its command, and those after it that have issued (R176, R180). -/
def State.passHead (s : State) (q : Nat) : State :=
  (s.wr (R.CQ.HEAD q) (idxAdd (s.rd (R.CQ.HEAD q)) 1)).passIssued q (s.q q).ahead.length

/-- HEAD advances (R176). -/
def State.advanceHead (s : State) (q : Nat) : State := ((s.passHead q).freshHead q).showFault q

/-- A fault has gone: HEAD passes the commands at it that issued before (R180, R184), and a further fault is shown. -/
def State.goPast (s : State) (q : Nat) : State :=
  (if (s.q q).ahead.contains (s.rd (R.CQ.HEAD q)) then (s.passIssued q (s.q q).ahead.length).freshHead q else s).showFault q

/-- DONE advances over each command that has completed (R177). -/
def State.passDone (s : State) (q n : Nat) : State :=
  match n with
  | 0 => s
  | n + 1 =>
    let d := s.rd (R.CQ.DONE q)
    if (s.q q).finished.contains d then
      ((s.wr (R.CQ.DONE q) (idxAdd d 1)).onQ q fun v => { v with
        finished := v.finished.filter fun i => i ≠ d, missed := v.missed.filter fun i => i ≠ d }).passDone q n
    else s

/-- A command is taken as completed: DONE may advance. -/
def State.finish (s : State) (q i : Nat) : State :=
  let a := s.onQ q fun v => { v with flights := v.flights.filter (fun f => f.idx ≠ i), finished := v.finished ++ [i] }
  a.passDone q ((s.q q).finished.length + 1)

/-- MX_STAT of a tile returns to idle once no COMPUTE is in progress in it. -/
def State.mxIdle (s : State) (t : Nat) : State :=
  if (s.tileFlights t).any (fun f => f.cls = clsCompute) then s
  else ((((s.wr (R.TILE.MX_STAT.BUSY t) 0).wr (R.TILE.MX_STAT.PHASE t) 0).wr (R.TILE.MX_STAT.PROFILE t) 0).wr
    (R.TILE.MX_STAT.PASS t) 0).wr (R.TILE.MX_STAT.EXPBUF_USED t) 0

/-- A command completes: its counter advances, DONE advances, it is counted, and with IRQ its TAG is loaded and bit 2
of PG_IRQ_RAW sets (R177 to R179). -/
def State.complete (s : State) (q : Nat) (f : Flight) : State :=
  let a := (s.finish q f.idx).bump (R.CQ.COMPLETED q) 1
  let b := if f.eval then a.bump (R.CQ.EVAL_CMDS q) 1 else a
  let c := f.tiles.foldl (fun u t => u.mxIdle t) b
  let d := match f.done with
    | some x => c.addCtr x.1 x.2
    | none => c
  if f.irq then (d.wr (R.CQ.LAST_TAG q) f.tag).irq (pgCQ q) 2 else d

/-- A command ends with a fault: its counter does not advance, and the queue is faulted at it once HEAD has passed it
(R183). `own`: the CQ page itself raises the code. -/
def State.faultCmd (s : State) (q i tag : Nat) (e : Err) (own : Bool) : State :=
  let tiles := ((s.q q).flights.filter fun f => f.idx = i).flatMap Flight.tiles
  let a := s.onQ q fun v => { v with flights := v.flights.filter (fun f => f.idx ≠ i), faults := v.faults ++ [⟨i, e, tag, own, false⟩] }
  (tiles.foldl (fun u t => u.mxIdle t) a).showFault q

/-- The command at HEAD faults at issue: HEAD advances past it (R176, R182). `own`: the CQ page itself raises the code. -/
def State.faultHeadBy (s : State) (q e : Nat) (err : Err) (own : Bool) : State :=
  let i := s.rd (R.CQ.HEAD q)
  (s.onQ q fun v => { v with faults := v.faults ++ [⟨i, err, cmdTag e, own, false⟩] }).advanceHead q

/-- A fault at issue that the CQ page raises. -/
def State.faultHead (s : State) (q e : Nat) (err : Err) : State := s.faultHeadBy q e err true

/-- A fault at issue that tile `t` raises (R151). -/
def State.faultTile (s : State) (q e t : Nat) (err : Err) : State := (s.raise (pgTILE t) err).faultHeadBy q e err false

/-! ### Issue (R176, R378) -/

/-- The step tag that a command of queue `q` carries from its issue (R378). -/
def State.stepTag (s : State) (q p : Nat) : Option (Nat × Nat) :=
  if s.on (R.CQ.STAT.EVAL q) then none
  else
    match (s.q q).gate with
    | some g => some g
    | none =>
      let n := s.rd (R.MOD.STEP_NUM p)
      some (n, ((s.runOf p n).map Run.att).getD 0)

/-- The owner of the work of the command with index `i` of queue `q`. -/
def State.newOwner (s : State) (q i : Nat) : Owner :=
  let p := (s.queuePart q).getD 0
  ⟨q, i, p, s.stepTag q p⟩

/-- The flight of command `e` with index `i`. A command is inside a bracket if EVAL reads 1 at its issue: so EVAL_END counts in
EVAL_CMDS and EVAL_BEGIN does not (DESIGN CHOICE, log entry 72). -/
def State.newFlight (s : State) (q i e : Nat) (tiles : List Nat) : Flight :=
  { idx := i, cls := cmdClass e, op := cmdOp e, tag := cmdTag e, irq := cmdIrq e
    done := if cmdDoneEn e then some (cmdDoneCtr e, cmdDoneAdd e) else none
    owner := s.newOwner q i
    eval := s.on (R.CQ.STAT.EVAL q)
    deadline := if s.on (R.CQ.STAT.EVAL q) ∧ s.on (R.CQ.CTRL.RT q) ∧ [1, 2, 3, 4].contains (cmdClass e) ∧ cmdDeadline e ≠ 0
      then some (s.rd (R.CQ.EVAL_BASE q) + cmdDeadline e) else none
    missed := (s.q q).missed.contains i
    tiles := tiles, left := 0, err := none }

/-- The command at HEAD issues with flight `f`: it is in progress, ISSUED counts it and HEAD advances (R176). -/
def State.issue (s : State) (q : Nat) (f : Flight) : State :=
  ((s.onQ q fun v => { v with flights := v.flights ++ [f] }).bump (R.CQ.ISSUED q) 1).advanceHead q

/-- Changes the flight of the command with index `i`. -/
def State.onFlight (s : State) (q i : Nat) (g : Flight → Flight) : State :=
  s.onQ q fun v => { v with flights := v.flights.map fun f => if f.idx = i then g f else f }

/-- The flight of a command. -/
def State.flight (s : State) (q i : Nat) : Option Flight := (s.q q).flights.find? fun f => f.idx = i

/-- A command in flight completes if nothing of its work is left, or ends with the error its work met. -/
def State.settle (s : State) (q i : Nat) : State :=
  match s.flight q i with
  | none => s
  | some f =>
    if f.left ≠ 0 then s
    else
      match f.err with
      | some e => s.faultCmd q i f.tag e false
      | none => s.complete q f

/-- Commands in flight end with a code as soon as their work has ended. -/
def State.endCommands (s : State) (c : Flight → Bool) (e : Err) : State :=
  ((List.range 64).flatMap fun q => ((s.q q).flights.filter c).map fun f => (q, f)).foldl
    (fun (u : State) (x : Nat × Flight) => (u.flightErr (some x.2.owner) e).settle x.1 x.2.idx) s

/-- Whether queue `q` may issue: enabled, not faulted, not paused, stopped or held, with a command at HEAD (R176, R185). -/
def State.mayIssue (s : State) (q : Nat) : Bool := [1, 2].contains (s.queueStat q).1

/-- A ring fetch from host memory: counted, or raising the error that it ends with (R154, R493, R495). -/
def State.ringFetch (s : State) (q i : Nat) : State :=
  let a := s.entryAddr q i
  if adrSpace a ≠ 1 then s
  else given (s.queuePart q) s fun p =>
    if (s.hostRead p (adrHost a) 64).isSome then s.hostSeen p (adrHost a) 64 else (s.hostFail none p (adrHost a) 64).1

/-- Queue `q` issues the command at HEAD if it is one that `want` accepts and it need not wait: `run` makes its checks
and carries it out. An entry that cannot be read faults with QUEUE_READ, and one of an undefined class with CMD_CLASS
(R154, R182). -/
def State.issueHead (s : State) (q : Nat) (want : Nat → Bool) (run : State → Nat → Nat → State) : State :=
  if !s.mayIssue q then s
  else
    match s.entryAt q (s.nextIdx q) with
    | none => (s.ringFetch q (s.nextIdx q)).faultHead q 0 .QUEUE_READ
    | some e =>
      if s.waitWhy q e ≠ 0 then s
      else if cmdClass e = 0 ∨ 9 < cmdClass e then (s.ringFetch q (s.nextIdx q)).faultHead q e .CMD_CLASS
      else if want e then run (s.ringFetch q (s.nextIdx q)) (s.nextIdx q) e
      else s

/-- Whether a command is of class `c` and operation `o`. -/
def isCmd (c o : Nat) (e : Nat) : Bool := decide (cmdClass e = c ∧ cmdOp e = o)

/-! ### Checks that classes share (R158 to R164, R175, R182) -/

/-- The first error of a list of checks. -/
def firstErr (cs : List (Option Err)) : Option Err := cs.findSome? id

/-- An error where a condition holds. -/
def errIf (c : Bool) (e : Err) : Option Err := if c then some e else none

/-- The reserved bits of the header (R157). -/
def headerReserved (e : Nat) : Bool :=
  field e 0 15 12 = 0 && field e 4 14 12 = 0 && field e 4 30 28 = 0

/-- Whether bytes `a` to `b` of a record are zero. -/
def zeroBytes (e a b : Nat) : Bool := field e a (8 * (b - a) + 7) 0 = 0

/-- Check 2 of DEADLINE_OFS: it may be non-zero only inside a bracket of a queue in real-time mode (R186). -/
def State.deadlineOk (s : State) (q e : Nat) : Bool :=
  cmdDeadline e = 0 || (s.on (R.CQ.STAT.EVAL q) && s.on (R.CQ.CTRL.RT q))

/-- Whether counter `c` is inside the range of partition `p` and allocated (R175). -/
def State.ctrUsable (s : State) (p c : Nat) : Bool :=
  decide (s.act (R.MOD.SIG_RANGE.BASE p) ≤ c ∧ c < s.act (R.MOD.SIG_RANGE.BASE p) + s.act (R.MOD.SIG_RANGE.COUNT p)) &&
    Cells.get false s.sig.alloc c

/-- The counters a command names (R175). -/
def cmdCounters (e : Nat) : List Nat :=
  (if cmdWaitEn e then [cmdWaitCtr e] else []) ++ (if cmdDoneEn e then [cmdDoneCtr e] else []) ++
  (if cmdClass e = clsWait ∨ (cmdClass e = clsSignal ∧ cmdOp e < 2) then (cmdItems e).map Prod.fst else [])

/-- Check 3 of R182. -/
def State.checkCounters (s : State) (q e : Nat) : Option Err :=
  errIf (!(cmdCounters e).all (s.ctrUsable ((s.queuePart q).getD 8))) .CMD_SIGRANGE

/-- Check 4 of R182: the profile is declared (R87, R50). -/
def State.checkProfile (s : State) (e : Nat) : Option Err :=
  errIf (decide (cmdProfile e ≠ 0) && !bitOf (s.rd (R.PG.VER.PROFILES pgMOD)) (cmdProfile e - 1)) .PROFILE_UNDECLARED

/-- A tile set: its first tile, rows and columns (R161). -/
structure TileSet where
  first : Nat
  rows  : Nat
  cols  : Nat
  deriving DecidableEq, Repr

/-- The tile set of a 32-bit field. -/
def tileSetOf (v : Nat) : TileSet := ⟨bitsOf v 9 0, bitsOf v 14 10 + 1, bitsOf v 20 15 + 1⟩

/-- The tiles of a set with their positions, row by row. -/
def TileSet.tiles (x : TileSet) : List (Nat × Nat × Nat) :=
  (List.range x.rows).flatMap fun i => (List.range x.cols).map fun j => (x.first + 40 * i + j, i, j)

/-- Whether the rectangle stays in the grid. -/
def TileSet.inGrid (x : TileSet) : Bool := x.first / 40 + x.rows ≤ 24 && x.first % 40 + x.cols ≤ 40

/-- Check 5 of R182: the rectangle, the partition, then retired rows (R161). -/
def State.checkTileSet (s : State) (q v : Nat) : Option Err :=
  let x := tileSetOf v
  let rows := (List.range x.rows).map fun i => x.first / 40 + i
  if !x.inGrid ∨ rows.any (fun r => decide (s.partOfRow r ≠ s.queuePart q)) then some .CMD_TILESET
  else errIf (rows.any s.rowRetired) .TILE_RETIRED

/-- A bound selector is 0 or 0x8 to 0xF (R164). -/
def selOk (v : Nat) : Bool := v = 0 || 8 ≤ v

/-- A bound resolved: the field's own value or a bound register, and whether it fits `w` bits (R164). -/
def State.bound (s : State) (q sel own w : Nat) : Option Nat :=
  if sel = 0 then some own
  else let v := s.rd (R.CQ.BOUND q (sel - 8)); if v < 2 ^ w then some v else none

/-- A known format code (R160). -/
def fmtKnown (f : Nat) : Bool := f ≤ 8 || f = 0xFF

/-! ### Completion (R177, R178) -/

/-- Whether a command in flight has its work in tiles, which are frozen: it remains in progress (R410, R413). -/
def State.inFrozen (s : State) (q i : Nat) : Bool :=
  s.power.frozen && (s.flight q i).any fun f => decide (f.cls = clsCompute) && !f.tiles.isEmpty

/-- COMMAND_COMPLETE (R177): a command in flight whose work has ended completes, or ends with the error its work met. -/
def execCommandComplete (q : Fin 64) (i : Nat) (s : State) : Host.Outcome State Fault Refusal :=
  .next (if s.inFrozen q.val i then s else s.settle q.val i)

/-! ### Queue registers (R152 to R155, R184 to R187) -/

/-- QUEUE_ENABLE (R152): EN written to 1 checks the claim and the ring's place. -/
def State.queueEnable (s : State) (q : Nat) : State :=
  let b := s.rd (R.CQ.BASE q)
  let ok := s.on (R.CQ.STAT.CLAIMED q) && decide (b % 64 = 0) &&
    ((adrSpace b = 0 && s.onNode b) || adrSpace b = 1) && decide (6 ≤ s.rd (R.CQ.SIZE q) ∧ s.rd (R.CQ.SIZE q) ≤ 16)
  if s.on (R.PG.CTRL.EN (pgCQ q)) then s
  else if ok then (s.wr (R.PG.CTRL.EN (pgCQ q)) 1).freshHead q
  else s.raise (pgCQ q) .QUEUE_PLACE

def execQueueEnable (p : Path) (q : Fin 64) (s : State) : Host.Outcome State Fault Refusal :=
  .next (s.onWrite p (R.PG.CTRL.EN (pgCQ q)).addr 4 none fun s => (s.queueEnable q.val))

/-- The command with index `i` is abandoned (R187): it counts as done, with its DONE_CTR, and HEAD passes it once it gets there. -/
def State.abandonOne (s : State) (q i e : Nat) : State :=
  let a := (s.finish q i).bump (R.CQ.ABANDONED q) 1
  let b := if cmdDoneEn e then a.addCtr (cmdDoneCtr e) (cmdDoneAdd e) else a
  if i = s.nextIdx q then b.advanceHead q else b.onQ q fun v => { v with ahead := v.ahead ++ [i] }

/-- Abandonment takes the commands from index `i` to the EVAL_END, or to TAIL, that have not issued (R187). -/
def State.abandonFrom (s : State) (q i n : Nat) : State :=
  match n with
  | 0 => s
  | n + 1 =>
    if (s.q q).ahead.contains i ∨ idxBefore i (s.nextIdx q) then s.abandonFrom q (idxAdd i 1) n
    else
      match s.entryAt q i with
      | none => s
      | some e => if cmdClass e = clsEvalEnd then s else (s.abandonOne q i e).abandonFrom q (idxAdd i 1) n

/-- A queue that is abandoning takes what has become valid (R187), from the index that missed, or from HEAD past it. -/
def State.abandon (s : State) (q : Nat) : State :=
  match s.on (R.CQ.STAT.ABANDONING q), (s.q q).abandonAt with
  | true, some x =>
    let i := if idxBefore x (s.nextIdx q) then s.nextIdx q else x
    s.abandonFrom q i (idxSub (s.rd (R.CQ.TAIL q)) i)
  | _, _ => s

/-- The lowest index that belongs to the module: RETAIN while the mechanism is active and a gate is held, else DONE
(R153, R393). -/
def State.lowIndex (s : State) (q : Nat) : Nat :=
  let p := (s.queuePart q).getD 8
  if s.stepActive p ∧ (s.on (R.CQ.GATE_STEP.VALID q 0) ∨ s.on (R.CQ.GATE_STEP.VALID q 1)) then s.rd (R.CQ.RETAIN q)
  else s.rd (R.CQ.DONE q)

/-- TAIL_WRITE (R153, R393): ignored with QUEUE_TAIL where the ring would overrun. -/
def State.tailWrite (s : State) (q v : Nat) : State :=
  if 2 ^ s.rd (R.CQ.SIZE q) < idxSub v (s.lowIndex q) ∨ 2 ^ s.rd (R.CQ.SIZE q) < idxSub v (s.rd (R.CQ.DONE q)) ∨
      2 ^ 31 < idxSub v (s.rd (R.CQ.HEAD q)) then s.raise (pgCQ q) .QUEUE_TAIL
  else
    let a := if s.hasNext q then s else s.freshHead q
    (a.wr (R.CQ.TAIL q) v).abandon q

/-- Whether a function sees the doorbell page of a queue: a VF those of its own partition's queues (R491). -/
def State.seesDoorbell (s : State) (fn q : Nat) : Bool := decide (fn = 0) || decide (s.queuePart q = some (fn - 1))

/-- A write of DB_TAIL, the alias of CQ.TAIL in BAR2: ignored through a VF that does not see the page (R491). -/
def State.doorbell (s : State) (p : Path) (q v : Nat) : State :=
  match p with
  | .host _ fn =>
    if s.answers p (R.CQ.TAIL q).addr then (s.countRx p 4).when (s.seesDoorbell fn q) fun u => u.tailWrite q v else s
  | .sideband _ => s

def execTailWrite (p : Path) (q : Fin 64) (v : BitVec 32) (doorbell : Bool) (s : State) : Host.Outcome State Fault Refusal :=
  .next (if doorbell then s.doorbell p q.val v.toNat
    else s.onWrite p (R.CQ.TAIL q).addr 4 none fun s => (s.tailWrite q.val v.toNat))

/-- PAUSE (R155, R185): the queue stops at its next command boundary until PAUSE is written to 0. -/
def State.setPause (s : State) (q : Nat) (b : Bool) : State :=
  let a := s.flag (R.CQ.CTRL.PAUSE q) b
  a.wr (R.CQ.STAT.PAUSE_SRC q) ((if b then 1 else 0) + s.rd (R.CQ.STAT.PAUSE_SRC q) / 2 * 2)

def execPause (p : Path) (q : Fin 64) (b : Bool) (s : State) : Host.Outcome State Fault Refusal :=
  .next (s.onWrite p (R.CQ.CTRL.PAUSE q).addr 4 none fun s => (s.setPause q.val b))

/-- The fault that a RESUME acts on is taken away; a further one is then shown. -/
def State.clearFault (s : State) (q i : Nat) : State :=
  s.onQ q fun v => { v with faults := v.faults.filter fun f => f.idx ≠ i }

/-- RESUME (R184) with OP 0 RETRY, 1 SKIP or 2 SKIP_SIGNAL on the command at FAULT_IDX. A retry brings HEAD back to
it; the later commands that have issued are not issued again. -/
def State.resume (s : State) (q op : Nat) : State :=
  match s.firstFault q with
  | none => s.raise (pgCQ q) .RESUME_REFUSED
  | some f =>
    let a := s.clearFault q f.idx
    match op with
    | 0 =>
      let later := (List.range (idxSub (s.rd (R.CQ.HEAD q)) (idxAdd f.idx 1))).map fun i => idxAdd f.idx (i + 1)
      ((a.wr (R.CQ.HEAD q) f.idx).onQ q fun v => { v with ahead := v.ahead ++ later }).freshHead q
    | 1 => (a.finish q f.idx).goPast q
    | 2 =>
      let b := match s.entryAt q f.idx with
        | some e => if cmdDoneEn e then a.addCtr (cmdDoneCtr e) (cmdDoneAdd e) else a
        | none => a
      (b.finish q f.idx).goPast q
    | _ => s

/-- RETRY, SKIP and SKIP_SIGNAL (R184). -/
def execRetry (p : Path) (q : Fin 64) (s : State) : Host.Outcome State Fault Refusal :=
  .next (s.onWrite p (R.CQ.RESUME.GO q).addr 4 none fun s => ((s.wr (R.CQ.RESUME.OP q.val) 0).resume q.val 0))

def execSkip (p : Path) (q : Fin 64) (s : State) : Host.Outcome State Fault Refusal :=
  .next (s.onWrite p (R.CQ.RESUME.GO q).addr 4 none fun s => ((s.wr (R.CQ.RESUME.OP q.val) 1).resume q.val 1))

def execSkipSignal (p : Path) (q : Fin 64) (s : State) : Host.Outcome State Fault Refusal :=
  .next (s.onWrite p (R.CQ.RESUME.GO q).addr 4 none fun s => ((s.wr (R.CQ.RESUME.OP q.val) 2).resume q.val 2))

/-- A miss is counted, captured and shown (R186). -/
def State.countMiss (s : State) (q i : Nat) : State :=
  let a := ((s.bump (R.CQ.DL_MISSES q) 1).raise (pgCQ q) .DEADLINE_MISS).irq (pgCQ q) 4
  if s.on (R.CQ.DL_MISS_IDX.VALID q) then a
  else ((a.wr (R.CQ.DL_MISS_TICK q) s.time).wr (R.CQ.DL_MISS_IDX.INDEX q) i).wr (R.CQ.DL_MISS_IDX.VALID q) 1

/-- After a miss of the command with index `i`, with MISS_ACT 1 it and every later command of the bracket that has not issued
is abandoned (R187). -/
def State.missAct (s : State) (q i : Nat) : State :=
  if s.on (R.CQ.CTRL.MISS_ACT q) then
    ((s.wr (R.CQ.STAT.ABANDONING q) 1).onQ q fun v => { v with abandonAt :=
      match v.abandonAt with
      | some x => some (if idxBefore x i then x else i)
      | none => some i }).abandon q
  else s

/-- Whether no EVAL_END stands among the `n` commands from index `i`, which can all be read. -/
def State.noEvalEnd (s : State) (q i n : Nat) : Bool :=
  match n with
  | 0 => true
  | n + 1 =>
    match s.entryAt q i with
    | some e => decide (cmdClass e ≠ clsEvalEnd) && s.noEvalEnd q (idxAdd i 1) n
    | none => false

/-- Whether index `i` is a command of the open bracket that has not issued: from HEAD to the EVAL_END or to TAIL. -/
def State.yetToIssue (s : State) (q i : Nat) : Bool :=
  let h := s.nextIdx q
  decide (idxSub i h < idxSub (s.rd (R.CQ.TAIL q)) h) && !(s.q q).ahead.contains i && s.noEvalEnd q h (idxSub i h)

/-- The deadline of a command of the open bracket that has not issued (R186). -/
def State.entryDeadline (s : State) (q i : Nat) : Option Nat :=
  match s.entryAt q i with
  | some e =>
    if s.on (R.CQ.STAT.EVAL q) ∧ s.on (R.CQ.CTRL.RT q) ∧ [1, 2, 3, 4].contains (cmdClass e) ∧ cmdDeadline e ≠ 0 then
      some (s.rd (R.CQ.EVAL_BASE q) + cmdDeadline e) else none
  | none => none

/-- The deadline of the command with index `i` passes: the miss is counted and acted on (R186, R187). -/
def State.miss (s : State) (q i : Nat) : State :=
  (((s.onFlight q i fun f => { f with missed := true }).onQ q fun v => { v with missed := v.missed ++ [i] }).countMiss q i).missAct q i

/-- DEADLINE_MISS (R186): the command with index `i`, in flight or not yet issued, is incomplete when TIME reaches its
deadline. A command that has missed once is not counted again. -/
def execDeadlineMiss (q : Fin 64) (i : Nat) (s : State) : Host.Outcome State Fault Refusal :=
  let q := q.val
  match s.flight q i with
  | some f =>
    .next (match f.deadline with
      | some d => if d ≤ s.time ∧ !f.missed then s.miss q i else s
      | none => s)
  | none =>
    .next (match s.entryDeadline q i with
      | some d => if d ≤ s.time ∧ !(s.q q).missed.contains i ∧ s.yetToIssue q i then s.miss q i else s
      | none => s)

/-- WAIT_LIMIT (R176): the command at HEAD has waited CQ.WAIT_LIMIT ticks; raised once per command. -/
def execWaitLimit (q : Fin 64) (s : State) : Host.Outcome State Fault Refusal :=
  let q := q.val
  let n := s.rd (R.CQ.WAIT_LIMIT q)
  .next (if n ≠ 0 ∧ (s.queueStat q).1 = 2 ∧ !(s.q q).limited ∧ (s.q q).since + n ≤ s.now then
      ((s.onQ q fun v => { v with limited := true }).raise (pgCQ q) .WAIT_LIMIT).irq (pgCQ q) 5
    else s)

/-! ### Claims and counters (R156, R175) -/

/-- PG_STAT.IDLE of a CQ page: no command of the queue is issued and incomplete. -/
def State.queueIdle (s : State) (q : Nat) : Bool := (s.q q).flights.isEmpty

/-- QALLOC (R156): the lowest unclaimed queue of the partition, or QUEUE_FULL. -/
def State.qalloc (s : State) (p : Path) (part : Nat) : State :=
  let a := s.wr R.SIG.QALLOC.PART part
  match (s.queuesOf part).find? fun q => !s.on (R.CQ.STAT.CLAIMED q) with
  | some q => ((a.wr (R.CQ.STAT.CLAIMED q) 1).pathWr p R.SIG.QALLOC.INDEX q).pathWr p R.SIG.QALLOC.FAIL 0
  | none => (a.pathWr p R.SIG.QALLOC.FAIL 1).raise pgSIG .QUEUE_FULL

def execQalloc (p : Path) (part : Fin 8) (s : State) : Host.Outcome State Fault Refusal :=
  .next (s.onWrite p R.SIG.QALLOC.GO.addr 4 (some part.val) fun s => (s.qalloc p part.val))

/-- The versions that the open WVER 1 brackets of partition `p` read. -/
def State.heldVersions (s : State) (p : Nat) : List Nat :=
  (s.queuesOf p).filterMap fun q =>
    match (s.q q).bracket with
    | some (1, v) => some v
    | _ => none

/-- EVAL_HOLD and EVAL_VER as the open brackets give them (R306). -/
def State.showHold (s : State) (p : Nat) : State :=
  match s.heldVersions p with
  | [] => (s.wr (R.MOD.STEP_STAT.EVAL_HOLD p) 0).wr (R.MOD.STEP_EVAL_VER p) 0
  | v :: r => (s.wr (R.MOD.STEP_STAT.EVAL_HOLD p) 1).wr (R.MOD.STEP_EVAL_VER p) (r.foldl min v)

/-- The bracket of queue `q` is gone with its state at a soft reset: what it held lifts (R51, R306). -/
def State.dropHold (s : State) (q : Nat) : State :=
  match s.queuePart q with
  | some p => s.showHold p
  | none => s

/-- QFREE (R156): a disabled idle queue is released; its BASE, SIZE, indices and bounds return to reset. A bracket that is open
stays open, with its hold (R306). -/
def State.qfree (s : State) (q : Nat) : State :=
  let a := s.wr R.SIG.QFREE.INDEX q
  if s.on (R.PG.CTRL.EN (pgCQ q)) ∨ !s.queueIdle q then a.raise pgSIG .QUEUE_BUSY q
  else
    let fs := [R.CQ.BASE q, R.CQ.SIZE q, R.CQ.HEAD q, R.CQ.TAIL q, R.CQ.DONE q, R.CQ.STAT.CLAIMED q] ++
      (List.range 8).map (R.CQ.BOUND q)
    (fs.foldl (fun u f => u.wr f f.rst) a).setQ q { QState.empty with bracket := (s.q q).bracket, gate := (s.q q).gate }

def execQfree (p : Path) (q : Fin 64) (s : State) : Host.Outcome State Fault Refusal :=
  .next (s.onWrite p R.SIG.QFREE.GO.addr 4 (s.queuePart q) fun s => (s.qfree q.val))

/-- The counters a CALLOC or CFREE of COUNT names (R175). -/
def sigCount (least n : Nat) : Nat := if n = 0 then least else min n 64

/-- CALLOC (R175): the lowest run of free counters in the partition's range, set to zero, or SIG_FULL. -/
def State.calloc (s : State) (p : Path) (part count : Nat) : State :=
  let a := (s.wr R.SIG.CALLOC.PART part).wr R.SIG.CALLOC.COUNT count
  let n := sigCount 1 count
  let lo := s.act (R.MOD.SIG_RANGE.BASE part)
  let sz := s.act (R.MOD.SIG_RANGE.COUNT part)
  let free := fun b => (List.range n).all fun i => !Cells.get false s.sig.alloc (b + i)
  match ((List.range (sz + 1 - n)).map fun i => lo + i).find? free with
  | none => (a.pathWr p R.SIG.CALLOC_RES.FAIL 1).raise pgSIG .SIG_FULL
  | some b =>
    let cs := (List.range n).map fun i => b + i
    let u := cs.foldl (fun u c => { u with sig :=
      { ctr := Cells.put 0 u.sig.ctr c 0, ovf := Cells.put false u.sig.ovf c false, alloc := Cells.put false u.sig.alloc c true } }) a
    (u.mirrorSteps.pathWr p R.SIG.CALLOC_RES.BASE b).pathWr p R.SIG.CALLOC_RES.FAIL 0

def execCalloc (p : Path) (part : Fin 8) (count : BitVec 7) (s : State) : Host.Outcome State Fault Refusal :=
  .next (s.onWrite p R.SIG.CALLOC.GO.addr 4 (some part.val) fun s => (s.calloc p part.val count.toNat))

/-- Whether a queue waits on counter `c`: its command at HEAD has an unmet condition on it. -/
def State.waitedOn (s : State) (c : Nat) : Bool :=
  (List.range 64).any fun q =>
    match s.waiter q with
    | none => false
    | some e => (cmdConditions e).any fun k => decide (k.2.1 = c) && !s.condMet q k

/-- Whether an active mechanism names counter `c` (R283). -/
def State.stepCounter (s : State) (c : Nat) : Bool :=
  (List.range 8).any fun p => s.stepActive p && (c = s.rd (R.MOD.STEP_CFG.STEP_CTR p) || c = s.rd (R.MOD.STEP_CFG.VERD_CTR p))

/-- CFREE (R175, R283): frees a run of counters, or SIG_BUSY while one is waited on or is a step counter. -/
def State.cfree (s : State) (base count : Nat) : State :=
  let a := (s.wr R.SIG.CFREE.BASE base).wr R.SIG.CFREE.COUNT count
  let cs := ((List.range (sigCount 0 count)).map fun i => base + i).filter fun c => c < 4096
  if cs.any fun c => s.waitedOn c || s.stepCounter c then a.raise pgSIG .SIG_BUSY
  else cs.foldl (fun u c => { u with sig := { u.sig with alloc := Cells.put false u.sig.alloc c false } }) a

/-- The partition in whose range a run of counters lies. -/
def State.ctrsPart (s : State) (base n : Nat) : Option Nat :=
  (List.range 8).find? fun v =>
    decide (s.act (R.MOD.SIG_RANGE.BASE v) ≤ base ∧ base + n ≤ s.act (R.MOD.SIG_RANGE.BASE v) + s.act (R.MOD.SIG_RANGE.COUNT v))

def execCfree (p : Path) (base : BitVec 12) (count : BitVec 7) (s : State) : Host.Outcome State Fault Refusal :=
  .next (s.onWrite p R.SIG.CFREE.GO.addr 4 (s.ctrsPart base.toNat (sigCount 0 count.toNat)) fun s => (s.cfree base.toNat count.toNat))

/-- CTR_SEL with GO: OP add or set with CTR_DATA on the selected counter (R174). -/
def State.ctrOp (s : State) (i op : Nat) : State :=
  let a := (s.wr R.SIG.CTR_SEL.INDEX i).wr R.SIG.CTR_SEL.OP op
  match op with
  | 1 => a.addCtr i (s.rd R.SIG.CTR_DATA)
  | 2 => a.setCtr i (s.rd R.SIG.CTR_DATA)
  | _ => a

def execCtrAdd (p : Path) (i : BitVec 12) (s : State) : Host.Outcome State Fault Refusal :=
  .next (s.onWrite p R.SIG.CTR_SEL.GO.addr 4 none fun s => (s.ctrOp i.toNat 1))

def execCtrSet (p : Path) (i : BitVec 12) (s : State) : Host.Outcome State Fault Refusal :=
  .next (s.onWrite p R.SIG.CTR_SEL.GO.addr 4 none fun s => (s.ctrOp i.toNat 2))

end Sys2Proof.Machine
end

