-- ==== Sys2Proof/Machine/HostMem.lean ====
section
/-! DEFINITION. The requests that the module sends to host memory: posted writes, reads, and the turns of the partitions that share a
port (R486, R493, R494, R532). -/

namespace Sys2Proof.Machine

/-- Changes what the host interface keeps. -/
def State.onHost (s : State) (g : HostSt → HostSt) : State := { s with host := g s.host }

/-- A transfer is queued behind those that have been issued. -/
def State.queueReq (s : State) (r : HostReq) : State :=
  s.onHost fun h => { h with reqs := h.reqs ++ [{ r with id := h.nextReq }], nextReq := h.nextReq + 1 }

/-- Writes host memory for a command: the posted writes are queued, and the piece is done once the last of them has left (R494, R532).
`stream` if it is STREAM data. -/
def State.hostPut (s : State) (o : Owner) (stream : Bool) (a : Nat) (bs : List Byte) : State × Option Err :=
  if !s.hostUp then ((s.hostFail (some o) o.part a bs.length).1, some .HOST_LINK)
  else if bs.isEmpty then (s, none)
  else ((s.queueReq ⟨o, 0, a, bs.length, none, bs, stream, true⟩).onFlight o.queue o.idx fun f => { f with left := f.left + 1 }, none)

/-- A read for a Sillage entry is queued. -/
def State.hostAsk (s : State) (o : Owner) (entry a n : Nat) : State := s.queueReq ⟨o, 0, a, n, some entry, [], false, false⟩

/-- Reads `n` bytes of memory at the issue of a command of partition `p` (R163, R310, R495). -/
def State.readIssue (s : State) (o : Option Owner) (p a n : Nat) : State × Option (List Byte) :=
  if adrSpace a = 1 then
    match s.hostRead p (adrHost a) n with
    | some bs => (s.hostSeen p (adrHost a) n, some bs)
    | none => ((s.hostFail o p (adrHost a) n).1, none)
  else if adrSpace a = 0 ∧ s.onNode a then
    match s.memRead none (.part p) (adrOff a) n with
    | (t, .ok bs) => (t, some bs)
    | (t, .error _) => (t, none)
  else (s, none)

/-- Outstanding non-posted requests of a port at most (R486). -/
def readsMax : Nat := 4096

/-- Posted writes that a replay buffer holds at most (DESIGN CHOICE, log entry 119). -/
def heldMax : Nat := 64

/-- The bytes of the next request of a transfer: of at most the port's size, and within a 4 KiB page, as the sizes divide it (R486,
R493). -/
def nextBytes (c : PortCfg) (r : HostReq) : Nat :=
  let m := max 1 (if r.entry.isSome then c.maxRead else c.maxPayload)
  min r.n (m - r.addr % m)

/-- The first transfer of a partition. -/
def State.firstReq (s : State) (p : Nat) : Option HostReq := s.host.reqs.find? fun r => decide (r.owner.part = p)

/-- Whether the port may send the next request of a transfer: a read needs a place among the outstanding ones. -/
def State.maySend (s : State) (port : Port) (r : HostReq) : Bool :=
  r.entry.isNone || decide ((Cells.get [] s.host.reads (portIx port)).length < readsMax)

/-- The transfer that a port serves next: the partitions that it serves take turns by their number, one request a turn (R532). -/
def State.nextReq (s : State) (port : Port) : Option HostReq :=
  let last := Cells.get 0 s.host.turn (portIx port)
  (List.range 8).findSome? fun i =>
    let p := (last + i) % 8
    if s.rd (R.HOST.PART_SERVE p) = portIx port then (s.firstReq p).filter (s.maySend port) else none

/-- Host memory with the bytes that a posted write carries; a part of it that is not backed takes none (R495). -/
def State.sendWrite (s : State) (port : Port) (r : HostReq) (n : Nat) : State :=
  let a := ((s.hostWrite r.addr (r.bytes.take n)).hostBytes r.owner.part n true).emit
    (.memWrite port (s.serveFn r.owner.part port) r.addr (r.bytes.take n) r.relaxed)
  let x : HostReq := { r with n := n, bytes := r.bytes.take n, piece := false }
  let b := a.onHost fun h =>
    let l := Cells.get [] h.held (portIx port) ++ [x]
    { h with held := Cells.put [] h.held (portIx port) (l.drop (l.length - heldMax)) }
  if r.n = n ∧ r.piece then b.onFlight r.owner.queue r.owner.idx fun f => { f with left := f.left - 1 } else b

/-- A read request leaves, and is outstanding. -/
def State.sendRead (s : State) (port : Port) (r : HostReq) (n : Nat) : State :=
  (s.emit (.memRead port (s.serveFn r.owner.part port) r.addr n)).onHost fun h =>
    { h with reads := Cells.put [] h.reads (portIx port) (Cells.get [] h.reads (portIx port) ++ [{ r with n := n }]) }

/-- A transfer after its next `n` bytes; none once nothing is left of it. -/
def reqRest (r : HostReq) (n : Nat) : List HostReq :=
  if r.n = n then [] else [{ r with addr := r.addr + n, n := r.n - n, bytes := r.bytes.drop n }]

/-- An attached port sends one request (R532). -/
def State.hostTurn (s : State) (port : Port) : State :=
  if !s.attached port ∨ !s.hostUp then s
  else
    match s.nextReq port with
    | none => s
    | some r =>
      let n := nextBytes (s.portCfg port) r
      let a := s.onHost fun h => { h with
        reqs := h.reqs.flatMap fun x => if x = r then reqRest r n else [x]
        turn := Cells.put 0 h.turn (portIx port) (r.owner.part + 1) }
      if r.entry.isSome then a.sendRead port r n else a.sendWrite port r n

end Sys2Proof.Machine
end

