-- ==== Sys2Proof/Machine/Link.lean ====
section
/-! DEFINITION. Seals (R372 to R374), Daxvo links (R342 to R352), routing (R357 to R359), and what this module sends:
requests, answers, messages. -/

namespace Sys2Proof

/-! ### Frames (R343 to R345) -/

/-- The virtual channel of a frame's type (R344). -/
def Body.vc (b : Body) : Nat :=
  match b with
  | .readReq _ | .write _ _ _ => 1
  | .readData _ _ | .readErr _ | .writeAck | .writeErr _ => 2
  | .collData _ _ _ _ => 3
  | .collAck _ _ => 4
  | .moveData _ _ _ _ => 5
  | .msg _ _ _ _ | .msgAck _ _ | .bcast _ | .unreach _ | .ledger _ | .config _ => 0

/-- Whether LINK_CTRL carries it: such a frame is never forwarded (R344). -/
def Body.linkCtrl (b : Body) : Bool :=
  match b with
  | .ledger _ | .config _ => true
  | _ => false

/-- Whether its OFFSET is a memory offset (R358). -/
def Body.memory (b : Body) : Bool :=
  match b with
  | .readReq _ | .readData _ _ | .write _ _ _ | .moveData _ _ _ _ => true
  | _ => false

/-- The bytes of data a frame carries, its seal trailer among them (R343, R344). -/
def Body.size (b : Body) : Nat :=
  match b with
  | .readData d s | .write d s _ | .moveData d s _ _ | .collData _ d s _ => d.length + 4 * s.length
  | .msg _ _ _ _ | .bcast _ | .ledger _ | .config _ => 640
  | _ => 0

/-- The bounds of R344 on what a frame asks for or carries. -/
def Body.sizeOk (b : Body) : Bool :=
  match b with
  | .readReq n => decide (n ≤ 4096)
  | .readData _ _ | .write _ _ _ | .moveData _ _ _ _ => decide (b.size ≤ 16512)
  | .collData _ _ _ _ => decide (b.size ≤ 20480)
  | _ => true

/-- The data codewords a frame occupies (R343). -/
def Body.codewords (b : Body) : Nat := (b.size + 639) / 640

/-- The class of a frame: 2 × VC + LAYER (R345). -/
def Frame.cls (f : Frame) : Nat := 2 * f.vc + f.layer

end Sys2Proof

namespace Sys2Proof.Machine

/-! ### Link state (R346 to R353) -/

/-- A link with nothing in it. -/
def Drain.none : Drain := ⟨false, false, false, false, Option.none⟩
def LinkSt.empty : LinkSt := ⟨[], [], [], 0, 0, false, 0, none, [], 0, false, Drain.none, none, false, ⟨1, 0, 0, false, []⟩⟩

/-- What link `k` holds. -/
def State.link (s : State) (k : Nat) : LinkSt := Cells.get LinkSt.empty s.fab.links k

/-- Changes what link `k` holds. -/
def State.onLink (s : State) (k : Nat) (g : LinkSt → LinkSt) : State :=
  { s with fab := { s.fab with links := Cells.put LinkSt.empty s.fab.links k (g (s.link k)) } }

/-- Whether a link carries traffic: UP or DEGRADED (R353). -/
def State.linkUp (s : State) (k : Nat) : Bool := s.rd (R.LINK.STAT.STATE k) = 3 || s.rd (R.LINK.STAT.STATE k) = 4

/-- Adds to an RO count that never decreases (R350). -/
def State.tallyUp (s : State) (f : Fld) (n : Nat) : State := s.wr f (s.rd f + n)

/-- The share of VC `v` in a link's active CRED_CFG. -/
def State.credShare (s : State) (k v : Nat) : Nat :=
  match v with
  | 0 => s.act (R.LINK.CRED_CFG0.VC0 k)
  | 1 => s.act (R.LINK.CRED_CFG0.VC1 k)
  | 2 => s.act (R.LINK.CRED_CFG1.VC2 k)
  | 3 => s.act (R.LINK.CRED_CFG1.VC3 k)
  | 4 => s.act (R.LINK.CRED_CFG2.VC4 k)
  | _ => s.act (R.LINK.CRED_CFG2.VC5 k)

/-- The initial credit of class `c` that this receiver announces (R346). -/
def State.initOf (s : State) (k c : Nat) : Nat := (s.credShare k (c / 2) + (if c % 2 = 0 then 1 else 0)) / 2

/-- The classes of a link. -/
def classes : List Nat := List.range 12

/-- The counts a LEDGER marker carries (R351). -/
def State.marker (s : State) (k : Nat) : List (Nat × Nat × Nat) :=
  classes.map fun c => (s.rd (R.LINK.LED_SENT k c) - s.rd (R.LINK.LED_REFUND k c), s.rd (R.LINK.LED_RECEIVED k c),
    s.rd (R.LINK.LED_FREED k c))

/-- A LEDGER frame takes its counts anew each time it is sent (R351). -/
def State.freshBody (s : State) (k : Nat) (b : Body) : Body :=
  match b with
  | .ledger _ => .ledger (s.marker k)
  | _ => b

/-- The codewords in a link's replay buffer. -/
def LinkSt.held (x : LinkSt) : Nat := (x.replay.map fun f => f.body.codewords).sum

/-- Charges a frame and puts it on the link (R346, R349, R350). -/
def State.putFrame (s : State) (k : Nat) (f : Frame) : State :=
  let f := { f with body := s.freshBody k f.body }
  let n := f.body.codewords
  let a := ((s.tallyUp (R.LINK.LED_SENT k f.cls) n).wr (R.LINK.LED_HELD k f.cls) (s.rd (R.LINK.LED_HELD k f.cls) - n)).bump
    (R.LINK.TX_CW k) n
  let b := if f.src = s.rd R.MOD.FAB_NODE.NODE ∨ f.body.linkCtrl then a else a.bump (R.LINK.FWD_CW k) n
  b.emit (.frame k f)

/-! ### What starts next (R329, R346, R348, R349) -/

/-- The weight of a virtual channel, 0 acting as 1 (R348). -/
def State.vcWeight (s : State) (k v : Nat) : Nat :=
  max 1 (match v with
    | 1 => s.act (R.LINK.VC_WEIGHT0.VC1 k)
    | 2 => s.act (R.LINK.VC_WEIGHT0.VC2 k)
    | 3 => s.act (R.LINK.VC_WEIGHT0.VC3 k)
    | 4 => s.act (R.LINK.VC_WEIGHT0.VC4 k)
    | _ => s.act (R.LINK.VC_WEIGHT1 k))

/-- A CREDIT unit of class `c` (R342, R347). -/
def State.emitCredit (s : State) (k c : Nat) : State := s.emit (.credit k c (s.rd (R.LINK.LED_FREED k c) % 2 ^ 24))

/-- `n` codewords of class `c` leave the buffer of link `k` (R347). -/
def State.freeCls (s : State) (k c n : Nat) : State := if n = 0 then s else (s.tallyUp (R.LINK.LED_FREED k c) n).emitCredit k c

/-- The link and class whose buffer a frame that waits on link `k` holds. -/
def LinkSt.heldOf (x : LinkSt) (f : Frame) : Option (Nat × Nat) := (x.transit.find? fun y => decide (y.1 = f)).map Prod.snd

/-- A frame in transit that starts on link `k` leaves the buffer it held (R347). -/
def State.freeTransit (s : State) (k : Nat) (f : Frame) : State :=
  match (s.link k).heldOf f with
  | some h => (s.onLink k fun x => { x with transit := x.transit.erase (f, h) }).freeCls h.1 h.2 f.body.codewords
  | none => s

/-- The number that stands for collective frames of no group of this module: those in transit (log entry 88). -/
def noGroup : Nat := 256

/-- The group entry that a collective frame is charged to (R329). -/
def State.groupOf (s : State) (f : Frame) : Nat :=
  match f.body with
  | .collData pos _ _ _ =>
    if f.src ≠ s.rd R.MOD.FAB_NODE.NODE then noGroup
    else
      match s.coll.runs.find? fun r => decide (r.desc.id = pos.group ∧ r.seq = pos.seq ∧ r.owner.part = f.part) with
      | some r => r.entry
      | none => noGroup
  | _ => noGroup

/-- What a visit adds to the allowance of a group: SHARE × 512 bytes, 0 acting as 1. -/
def State.groupShare (s : State) (n : Nat) : Nat :=
  512 * max 1 (if n < noGroup then s.rd (R.COLL.GRP_CFG.SHARE (n / 16) (n % 16)) else 16)

/-- The groups with data ready on a link, in entry order, each with its first frame. -/
def State.readyGroups (s : State) (k : Nat) : List (Nat × Frame) :=
  let fs := (s.link k).waiting.filter fun f => decide (f.vc = 3)
  (List.range (noGroup + 1)).filterMap fun n => (fs.find? fun f => decide (s.groupOf f = n)).map fun f => (n, f)

/-- The group after `n` in the rotation. -/
def nextGroup (ready : List (Nat × Frame)) (n : Nat) : Nat :=
  ((ready.find? fun x => decide (n < x.1)).orElse fun _ => ready.head?).elim n Prod.fst

/-- The rotation among groups goes on to the first frame that an allowance covers (R329). -/
def State.groupPick (s : State) (ready : List (Nat × Frame)) (t : Turn) (n : Nat) : Option (Frame × Turn) :=
  match n with
  | 0 => none
  | n + 1 =>
    match ready.find? fun x => decide (x.1 = t.group) with
    | none => if ready.isEmpty then none else s.groupPick ready { t with group := nextGroup ready t.group, added := false } n
    | some x =>
      let a := Cells.get 0 t.allow x.1 + (if t.added then 0 else s.groupShare x.1)
      let u := { t with added := true, allow := Cells.put 0 t.allow x.1 a }
      if x.2.body.size ≤ a then some (x.2, { u with allow := Cells.put 0 u.allow x.1 (a - x.2.body.size) })
      else s.groupPick ready { u with group := nextGroup ready x.1, added := false } n

/-- The next frame of a virtual channel, and the rotations once it has started. -/
def State.vcNext (s : State) (k v : Nat) : Option (Frame × Turn) :=
  let t := (s.link k).turn
  if v = 3 then
    let ready := s.readyGroups k
    s.groupPick ready t (42 * (ready.length + 1))
  else ((s.link k).waiting.find? fun f => decide (f.vc = v)).map fun f => (f, t)

/-- Whether credit and replay buffer let a frame start: credit of its class covers its codewords, and the replay buffer is not
full and takes them (R346, R349). -/
def State.covers (s : State) (k : Nat) (f : Frame) : Bool := decide (f.body.codewords ≤ s.rd (R.LINK.LED_HELD k f.cls))
def State.mayStart (s : State) (k : Nat) (f : Frame) : Bool :=
  s.covers k f && decide ((s.link k).held < 2048 ∧ (s.link k).held + f.body.codewords ≤ 2048)

/-- The visit of a virtual channel, if its next frame may start: a visit that is open goes on until its frames hold the VC's
weight in codewords of data (R348, log entry 88). -/
def State.visit (s : State) (k v : Nat) : Option (Frame × Turn) :=
  let t := (s.link k).turn
  let sent := if v = t.vc then t.sent else 0
  match s.vcNext k v with
  | some (f, u) =>
    if sent < 640 * s.vcWeight k v ∧ s.mayStart k f then some (f, { u with vc := v, sent := sent + f.body.size }) else none
  | none => none

/-- The virtual channels 1 to 5 from `v` on, in the order of the rotation; the one visited comes again at the end, as a new
visit. -/
def State.rotation (s : State) (k : Nat) : Option (Frame × Turn) :=
  let v := (s.link k).turn.vc
  ((List.range 5).findSome? fun i => s.visit k ((v - 1 + i) % 5 + 1)).orElse fun _ =>
    match s.vcNext k v with
    | some (f, u) => if s.mayStart k f then some (f, { u with vc := v, sent := f.body.size }) else none
    | none => none

/-- The next frame that starts, and the rotations after it: VC 0 before the others (R348). -/
def State.nextFrame (s : State) (k : Nat) : Option (Frame × Turn) :=
  match s.vcNext k 0 with
  | some x => if s.mayStart k x.1 then some x else s.rotation k
  | none => s.rotation k

/-- A waiting frame starts: it takes the next FSEQ and enters the replay buffer. A group with nothing ready keeps no allowance
(R329). -/
def State.startFrame (s : State) (k : Nat) (f : Frame) (t : Turn) : State :=
  let g := { f with fseq := (s.link k).txSeq }
  let a := s.onLink k fun x => { x with
    waiting := x.waiting.erase f, replay := x.replay ++ [g], txSeq := (x.txSeq + 1) % 4096 }
  let ready := (a.readyGroups k).map Prod.fst
  ((a.onLink k fun x => { x with turn := { t with allow := t.allow.filter fun c => ready.contains c.1 } }).putFrame k g).freeTransit k f

/-- Starts frames while the link takes them. -/
def State.pumpN (s : State) (k n : Nat) : State :=
  match n with
  | 0 => s
  | n + 1 =>
    match s.nextFrame k with
    | none => s
    | some x => (s.startFrame k x.1 x.2).pumpN k n

/-- Starts what link `k` can: it is up, is not draining, and has sent again what was refunded. -/
def State.pump (s : State) (k : Nat) : State :=
  if s.linkUp k ∧ !(s.link k).drain.on ∧ (s.link k).resend = none then s.pumpN k (s.link k).waiting.length else s

/-- Queues a frame on link `k`; `held` is the link and class whose buffer holds a frame in transit (R347). -/
def State.queueFrom (s : State) (k : Nat) (f : Frame) (held : Option (Nat × Nat)) : State :=
  (s.onLink k fun x => { x with
    waiting := x.waiting ++ [f], transit := x.transit ++ held.toList.map fun h => (f, h) }).pump k

def State.queueFrame (s : State) (k : Nat) (f : Frame) : State := s.queueFrom k f none

/-! ### Routing (R357 to R359, R363) -/

/-- The route entry of a node, and its KIND (R357). -/
def State.route (s : State) (n : Nat) : Nat := Cells.get 0 s.fab.routes n
def State.nodeKind (s : State) (n : Nat) : Nat := bitsOf (s.route n) 33 32

/-- Way `w` of an entry: link, DATELINE, VALID. -/
def wayOf (e w : Nat) : Nat × Bool × Bool := (bitsOf e (8 * w + 5) (8 * w), bitOf e (8 * w + 6), bitOf e (8 * w + 7))

/-- The way a frame takes: its link and DATELINE (R358). `own` names the partition of a frame that originates in it. -/
def State.chooseWay (s : State) (f : Frame) (own : Option Nat) : Option (Nat × Bool) :=
  let e := s.route f.dst
  let off := if f.body.memory then f.offset / 2 ^ 14 else 0
  let w0 := (f.src + f.dst + off + f.vc) % 4
  (List.range 4).findSome? fun i =>
    let x := wayOf e ((w0 + i) % 4)
    let mine := match own with
      | some p => decide (nibblePart (s.act (R.MOD.LINK_ASSIGN x.1)) = some p)
      | none => true
    if x.2.2 && decide (x.1 < 48) && s.linkUp x.1 && mine then some (x.1, x.2.1) else none

/-- Sends a frame on its way, or says why it cannot leave (R358, R359); `held` as for State.queueFrom. -/
def State.routeFrom (s : State) (f : Frame) (own : Option Nat) (held : Option (Nat × Nat)) : State × Option Err :=
  match s.chooseWay f own with
  | none => (s, some .NODE_UNREACHABLE)
  | some (k, dl) =>
    if dl ∧ f.layer = 1 then (s, some .ROUTE_LOOP)
    else (s.queueFrom k { f with layer := if dl then 1 else f.layer } held, none)

def State.routeFrame (s : State) (f : Frame) (own : Option Nat) : State × Option Err := s.routeFrom f own none

/-- A frame from this node. -/
def State.ownFrame (s : State) (dst off tag part : Nat) (b : Body) : Frame :=
  ⟨b.vc, 0, dst, s.rd R.MOD.FAB_NODE.NODE, off, tag, 0, 31, part, b⟩

/-- Sends an UNREACH notice; one that cannot be routed is counted (R363). -/
def State.sendUnreach (s : State) (f : Frame) (e : Err) : State :=
  match s.routeFrame (s.ownFrame f.src 0 f.tag 0 (.unreach e.code)) none with
  | (a, none) => a.bump R.MOD.UNREACH_SENT 1
  | (_, some _) => (s.bump R.MOD.UNREACH_SENT 1).bump R.MOD.UNREACH_LOST 1

/-- A frame in transit that goes no further is ended with an UNREACH; a notice is counted (R363). -/
def State.endTransit (s : State) (f : Frame) (e : Err) : State :=
  match f.body with
  | .unreach _ => s.bump R.MOD.UNREACH_LOST 1
  | _ => (s.raise pgMOD e).sendUnreach f e

/-- Sends an answer to a request of another node: `own` names the partition it originates in, if any (R358). -/
def State.answerOf (s : State) (f : Frame) (own : Option Nat) (b : Body) : State :=
  match s.routeFrame (s.ownFrame f.src f.offset f.tag (own.getD 0) b) own with
  | (a, none) => a
  | (_, some _) => s

def State.answer (s : State) (f : Frame) (b : Body) : State := s.answerOf f none b

/-! ### Transactions of this module (R361, R362) -/

/-- Whether this module has joined. -/
def State.joined (s : State) : Bool := s.on R.MOD.FAB_NODE.JOINED

/-- The tag after `t`. -/
def nextTagOf (t : Nat) : Nat := (t + 1) % 65536

/-- Starts a transaction with another node; NODE_UNREACHABLE where it finds no way, or before the module has joined
(R333, R362). -/
def State.request (s : State) (node off part : Nat) (b : Body) (kind : TxnKind) : State × Option Err :=
  if !s.joined then (s, some .NODE_UNREACHABLE)
  else
    let t := s.fab.nextTag
    let a := { s with fab := { s.fab with nextTag := nextTagOf t, txns := s.fab.txns ++ [(⟨t, node, kind⟩ : Txn)] } }
    match a.routeFrame (s.ownFrame node off t part b) (some part) with
    | (c, none) => (c, none)
    | (_, some e) => (s, some e)

/-- Takes the transaction of a tag away. -/
def State.takeTxn (s : State) (tag : Nat) : Option Txn × State :=
  (s.fab.txns.find? fun t => decide (t.tag = tag),
    { s with fab := { s.fab with txns := s.fab.txns.filter fun t => decide (t.tag ≠ tag) } })

/-! ### Messages (R364, R365) -/

/-- Unacknowledged messages for a node that are on their way. -/
def State.inFlightTo (s : State) (n : Nat) : Nat := (s.fab.msgs.filter fun m => decide (m.node = n) && m.sent.isSome).length

/-- Puts one message on the fabric. A message that finds no way is sent again later (R365). -/
def State.putMsg (s : State) (m : OutMsg) : State :=
  let f := s.ownFrame m.node 0 m.tag (m.own.getD 0) (.msg (s.rd R.MOD.FAB_INCARN) m.seq m.part m.msg)
  match s.routeFrame f m.own with
  | (a, none) => a
  | (_, some _) => s

/-- Sends the oldest messages of a node that have not been sent, up to 16 unacknowledged, once the module has joined. -/
def State.pumpMsgs (s : State) (node n : Nat) : State :=
  match n with
  | 0 => s
  | n + 1 =>
    if !s.joined ∨ 16 ≤ s.inFlightTo node then s
    else
      match s.fab.msgs.find? fun m => decide (m.node = node) && m.sent.isNone with
      | none => s
      | some m =>
        let a := { s with fab := { s.fab with msgs := s.fab.msgs.map fun x =>
          if x = m then { x with sent := some s.now } else x } }
        (a.putMsg m).pumpMsgs node n

/-- Sends a message of partition `own`, or of the node, to partition `part` of a node (0xFF: the node). One to a gateway is
ended with FAB_GATEWAY (R338). -/
def State.sendMsg (s : State) (own : Option Nat) (node part : Nat) (m : Message) : State :=
  if s.nodeKind node = 3 then s.raise pgMOD .FAB_GATEWAY
  else
    let n := Cells.get 0 s.fab.msgSeq node + 1
    let a := { s with fab := { s.fab with
      msgSeq := Cells.put 0 s.fab.msgSeq node n
      nextTag := nextTagOf s.fab.nextTag
      msgs := s.fab.msgs ++ [(⟨node, own, n, s.fab.nextTag, part, m, none⟩ : OutMsg)] } }
    a.pumpMsgs node 16

end Sys2Proof.Machine
end

