-- ==== Sys2Proof/Machine/Rows.lean ====
section
/-! DEFINITION. Format codes and how arrays lie in the scratchpad: row form (R530), groups of 32 outputs, scale bytes. -/

namespace Sys2Proof.Machine

/-- ceil(a / b). -/
def cdiv (a b : Nat) : Nat := (a + b - 1) / b

/-- The element format of a format code (R160), for the floating-point codes. -/
def fmtOf (code : Nat) : Option Fmt :=
  match code with
  | 0 => some fp32 | 1 => some bf16 | 2 => some e4m3 | 3 => some e5m2 | 4 => some e4m3 | 5 => some e5m2 | 6 => some e2m1
  | _ => none

/-- The MX codes, and the codes that hold one element each (R160). -/
def isMx (code : Nat) : Bool := code = 4 || code = 5 || code = 6
def isScalar (code : Nat) : Bool := code ≤ 3 || code = 8

/-- Bits of one element. -/
def elemBits (code : Nat) : Nat :=
  match code with
  | 0 => 32 | 8 => 32 | 1 => 16 | 6 => 4 | _ => 8

/-- The value of an element outside its block. -/
def elemVal (code v : Nat) : Val :=
  match fmtOf code with
  | some f => f.decode v
  | none => ofInt32 v

/-- Converts one value to a format that has no blocks (R95 to R97). -/
def elemEnc (code : Nat) (r : Rounding) (v : Val) : Nat :=
  match fmtOf code with
  | some f => f.encode r v
  | none => toInt32 v

/-- Packs `b`-bit codes, the first lowest, into words. -/
def packWords (b : Nat) (cs : List Nat) : List Word :=
  let v := cs.foldr (fun c a => c % 2 ^ b + a * 2 ^ b) 0
  (List.range (cdiv (cs.length * b) 32)).map fun i => BitVec.ofNat 32 (v / 2 ^ (32 * i))

/-- Element `i` of packed words. -/
def packedAt (b : Nat) (ws : List Word) (i : Nat) : Nat :=
  ((ws.getD (i * b / 32) 0).toNat / 2 ^ (i * b % 32)) % 2 ^ b

/-- Byte `i` of words. -/
def byteAt (ws : List Word) (i : Nat) : Nat := ((ws.getD (i / 4) 0).toNat / 256 ^ (i % 4)) % 256

/-! ### Row form (R530) -/

/-- Elements of a row of `n`, padded to whole blocks in an MX format. -/
def rowElems (code n : Nat) : Nat := if isMx code then cdiv n 32 * 32 else n

/-- Words of a row's elements, and of the whole row: its packed size. -/
def rowElemWords (code n : Nat) : Nat := cdiv (rowElems code n * elemBits code) 32
def rowWords (code n : Nat) : Nat := rowElemWords code n + (if isMx code then cdiv (cdiv n 32) 4 else 0)

/-- A stride of 0 acts as the packed size. -/
def strideOr (s size : Nat) : Nat := if s = 0 then size else s

/-- The values of a row from its words. -/
def rowVals (code n : Nat) (ws : List Word) : List Val :=
  (List.range n).map fun i =>
    let c := packedAt (elemBits code) ws i
    match isMx code, fmtOf code with
    | true, some f => mxValue f (byteAt (ws.drop (rowElemWords code n)) (i / 32)) c
    | _, _ => elemVal code c

/-- One group of up to 32 outputs as a format stores it: its scale byte, for an MX format, and its element codes. A
block is padded with +0 (R93). -/
def groupEnc (code : Nat) (r : Nat → Rounding) (vs : List Val) : Nat × List Nat :=
  match isMx code, fmtOf code with
  | true, some f => mxEncode f r (vs ++ List.replicate (32 - vs.length) (.fin false 0 0))
  | _, _ => (0, vs.zipIdx.map fun p => elemEnc code (r p.2) p.1)

/-- A word as the scratchpad holds it, without an access. -/
def State.rawWord (s : State) (t w : Nat) : Nat :=
  if s.lineWritten t (lineOf w) then (Cells.get 0 s.tile.words (wordKey t w)).toNat else 0

/-- Writes the scale bytes of a run: byte `i` from word `w` is `f i`, where `none` keeps the byte; a word is written if
it takes a byte that `touch` names (R191, R195). -/
def State.putScales (s : State) (t w n : Nat) (touch : Nat → Bool) (f : Nat → Option Nat) : State :=
  (List.range (cdiv n 4)).foldl (fun u j =>
    if (List.range 4).any fun b => touch (4 * j + b) then
      let old := u.rawWord t (w + j)
      let v := (List.range 4).foldl (fun a b => a + ((f (4 * j + b)).getD (old / 256 ^ b % 256)) % 256 * 256 ^ b) 0
      u.spadWrite t (w + j) (BitVec.ofNat 32 v)
    else u) s

/-- Writes a row in row form from its groups; `none` is a group that is not written (R139, R530). -/
def State.putRow (s : State) (t w code n : Nat) (gs : List (Option (Nat × List Nat))) : State :=
  let b := elemBits code
  let a := gs.zipIdx.foldl (fun u g =>
    match g.1 with
    | some x => u.spadWrites t (w + g.2 * b) (packWords b x.2)
    | none => u) s
  if isMx code then
    a.putScales t (w + rowElemWords code n) gs.length (fun i => (gs.getD i none).isSome)
      (fun i => match gs[i]? with
        | some (some x) => some x.1
        | some none => none
        | none => some 0)
  else a

/-- Splits a list into groups of 32. -/
def groupsOf32 {α : Type} (l : List α) : List (List α) :=
  (List.range (cdiv l.length 32)).map fun i => (l.drop (32 * i)).take 32

/-- The 128 words of a slot that holds a triple (R134). -/
def slotWords (t : Triple) : List Word := wordsOfBytes (t.bytes ++ List.replicate 29 0)

/-- The triple of a group's sums under a code; codes 0 and 255 carry zeros (R101, R139). -/
def groupTriple (code : Nat) (sums : List Int) : Triple :=
  let z := if code = 0 ∨ code = 255 then sums.map fun _ => 0 else sums
  Triple.ofSums code (z ++ List.replicate (32 - z.length) 0)

end Sys2Proof.Machine
end

