-- ==== Sys2Proof/Machine/Accord.lean ====
section
/-! DEFINITION. The Accord fabric: recipe images, their checks, and what one recipe gives for one element (R148 to
R150). -/

namespace Sys2Proof.Machine

/-- One function cell of a recipe (R148). -/
structure ACell where
  op   : Nat
  src  : Nat × Nat × Nat
  out  : Nat
  mode : Nat
  imm  : Nat
  deriving DecidableEq, Repr

/-- A recipe (R148). -/
structure Recipe where
  cells   : List ACell
  inputs  : Nat
  outputs : Nat
  consts  : List Nat
  profile : Nat
  ident   : Nat
  deriving DecidableEq, Repr

/-- A cell from its four words. -/
def cellOf (ws : List Word) : ACell :=
  let a := (ws.getD 0 0).toNat
  let b := (ws.getD 1 0).toNat
  ⟨bitsOf a 7 0, (bitsOf a 19 8, bitsOf a 31 20, bitsOf b 11 0), bitsOf b 15 12, bitsOf b 23 16, (ws.getD 2 0).toNat⟩

/-- The words of a recipe image whose header says `cells` cells and `consts` constants. -/
def imageWords (cells consts : Nat) : Nat := 16 + 4 * cells + consts

/-- The counts of a recipe header: cells and constants. -/
def headCells (ws : List Word) : Nat := bitsOf (ws.getD 1 0).toNat 15 0
def headConsts (ws : List Word) : Nat := bitsOf (ws.getD 2 0).toNat 15 0

/-- The recipe of an image (R148). -/
def recipeOf (ws : List Word) : Recipe :=
  let n := headCells ws
  let h1 := (ws.getD 1 0).toNat
  let h2 := (ws.getD 2 0).toNat
  { cells := (List.range n).map fun c => cellOf ((ws.drop (16 + 4 * c)).take 4)
    inputs := bitsOf h1 23 16, outputs := bitsOf h1 31 24
    consts := ((ws.drop (16 + 4 * n)).take (headConsts ws)).map fun w => w.toNat
    profile := bitsOf h2 23 16, ident := (ws.getD 3 0).toNat }

/-- The magic number of a recipe image. -/
def recipeMagic : Nat := 0x41434344

/-- Whether a header's magic number, counts and profile are legal (R148). That a PROFILE byte other than 1 and 2 refuses the image is
the model's choice (DESIGN CHOICE, log entry 70). -/
def headOk (ws : List Word) : Bool :=
  let h1 := (ws.getD 1 0).toNat
  decide ((ws.getD 0 0).toNat = recipeMagic ∧ 1 ≤ headCells ws ∧ headCells ws ≤ 512 ∧ 1 ≤ bitsOf h1 23 16 ∧ bitsOf h1 23 16 ≤ 16 ∧
    1 ≤ bitsOf h1 31 24 ∧ bitsOf h1 31 24 ≤ 8 ∧ headConsts ws ≤ 256 ∧
    (bitsOf (ws.getD 2 0).toNat 23 16 = 1 ∨ bitsOf (ws.getD 2 0).toNat 23 16 = 2))

/-- The primitives of R149. -/
def opDefined (op : Nat) : Bool :=
  (1 ≤ op && op ≤ 0x0A) || (0x10 ≤ op && op ≤ 0x18) || (0x20 ≤ op && op ≤ 0x23) || [0x30, 0x31, 0x38, 0x3F].contains op

/-- The primitives whose MODE byte selects something: FCMP, IMUL and the conversions (R149). -/
def modeUsed (op : Nat) : Bool := [0x07, 0x18, 0x30, 0x31].contains op

/-- Whether a MODE is defined for an OP: 0 alone where the primitive has no mode; otherwise open (log entry 9). -/
def modeDefined (op mode : Nat) : Bool := if modeUsed op then Config.accordModeDefined op mode else mode = 0

/-- Whether an operand source of cell `i` refers to something present (R148). A code that the table does not list (0x216 to 0x3FF,
0x500 to 0x7FF, 0x801 to 0xFFE) refers to nothing, and refuses the recipe: the spec does not say so (DESIGN CHOICE, log entry
100). -/
def srcOk (r : Recipe) (i s : Nat) : Bool :=
  if s < 0x200 then s < i
  else if s < 0x210 then s - 0x200 < r.inputs
  else if s < 0x216 then true
  else if 0x400 ≤ s ∧ s < 0x500 then s - 0x400 < r.consts.length
  else s = 0x800 || s = 0xFFF

/-- Whether a recipe passes the checks after its header's (R148). Every source field is judged, also one that the primitive does not
use (DESIGN CHOICE, log entry 71). -/
def recipeOk (r : Recipe) : Bool :=
  (r.cells.zipIdx.all fun c => srcOk r c.2 c.1.src.1 && srcOk r c.2 c.1.src.2.1 && srcOk r c.2 c.1.src.2.2 &&
    opDefined c.1.op && modeDefined c.1.op c.1.mode && !(r.profile = 1 && (c.1.op = 0x31 || c.1.op = 0x38))) &&
  (List.range r.outputs).all fun o => r.cells.any fun c => c.out = o

/-- The latency of a primitive (R149). -/
def opLatency (op : Nat) : Nat :=
  if 1 ≤ op ∧ op ≤ 4 then 4 else if op = 9 ∨ op = 0x0A then 12 else if op = 0x18 then 3
  else if op = 0x30 ∨ op = 0x31 then 2 else if op = 0x38 then 6 else 1

/-- The longest path to each cell, in order. A source field that the primitive does not use counts as an edge, and a cell that
drives no output counts as a cell: R150 does not say (DESIGN CHOICE, log entry 101). -/
def cellDepths (cs : List ACell) : List Nat :=
  cs.foldl (fun ds c =>
    let at_ := fun s => if s < 0x200 then ds.getD s 0 else 0
    ds ++ [opLatency c.op + max (at_ c.src.1) (max (at_ c.src.2.1) (at_ c.src.2.2))]) []

/-- The latency of a recipe (R150). -/
def Recipe.latency (r : Recipe) : Nat := (cellDepths r.cells).foldl max 0 + 4

/-- What an element's evaluation is given besides its inputs: step, seed and parameter index (R148). -/
structure AEnv where
  step  : Nat
  seed  : Nat
  index : Nat
  deriving DecidableEq, Repr

/-- The operand a source names. -/
def srcVal (r : Recipe) (e : AEnv) (ins outs : List Nat) (c : ACell) (s : Nat) : Nat :=
  if s < 0x200 then outs.getD s 0
  else if s < 0x210 then ins.getD (s - 0x200) 0
  else if s = 0x210 then bitsOf e.step 31 0
  else if s = 0x211 then bitsOf e.step 39 32
  else if s = 0x212 then bitsOf e.seed 31 0
  else if s = 0x213 then bitsOf e.seed 63 32
  else if s = 0x214 then bitsOf e.index 31 0
  else if s = 0x215 then bitsOf e.index 45 32
  else if s = 0x800 then c.imm
  else if 0x400 ≤ s ∧ s < 0x500 then r.consts.getD (s - 0x400) 0
  else 0

/-- FCMP: the predicate is a set of outcomes, bit 0 less, 1 equal, 2 greater, 3 unordered (R149). -/
def fcmp (pred a b : Nat) : Nat :=
  let x := f32 a
  let y := f32 b
  let i := if x = .nan ∨ y = .nan then 3 else if x.lt y then 0 else if y.lt x then 2 else 1
  if pred.testBit i then 1 else 0

/-- A shift amount of 32 or more has no stated result (log entry 5). -/
def shiftOr (op a b : Nat) (v : Nat) : Nat := if b < 32 then v else (Config.openResult op a b).toNat % 2 ^ 32

/-- EXPO and MANT of R149; a NaN, an infinity, and for MANT a zero, have no stated result (log entry 5). -/
def expo (a : Nat) : Nat :=
  match f32 a with
  | .fin _ m e => if m = 0 then unsigned 32 (-127) else unsigned 32 (floorLog2 m e)
  | _ => (Config.openResult 0x21 a 0).toNat % 2 ^ 32
def mant (a : Nat) : Nat :=
  match f32 a with
  | .fin s m e => if m = 0 then (Config.openResult 0x22 a 0).toNat % 2 ^ 32 else toF32 (.fin s m (e - floorLog2 m e))
  | _ => (Config.openResult 0x22 a 0).toNat % 2 ^ 32

/-- A conversion by the primitive CVT: the converted value, as an FP32 word (R149). -/
def cvt (target : Nat) (r : Rounding) (a : Nat) : Nat :=
  let f := match target % 3 with
    | 0 => bf16
    | 1 => e4m3
    | _ => e5m2
  toF32 (f.decode (f.encode r (f32 a)))

/-- What one primitive gives (R149). A LUT whose place lies past the recipe's constants has no stated value (log entry 5). The random
word of a stochastic CVT is SRC1 modulo 2^24: the spec does not say which bits of a larger SRC1 it takes (DESIGN CHOICE, log entry
99). -/
def cellVal (r : Recipe) (e : AEnv) (c : ACell) (x y z : Nat) : Nat :=
  let md := Config.accordMode c.op c.mode
  let w := BitVec.ofNat 32
  match c.op with
  | 0x01 => fadd x y
  | 0x02 => fsub x y
  | 0x03 => fmul x y
  | 0x04 => ffma x y z
  | 0x05 => fmin x y
  | 0x06 => fmax x y
  | 0x07 => fcmp md x y
  | 0x08 => if x ≠ 0 then y else z
  | 0x09 => fdiv x y
  | 0x0A => fsqrt x
  | 0x10 => (w x + w y).toNat
  | 0x11 => (w x - w y).toNat
  | 0x12 => (w x &&& w y).toNat
  | 0x13 => (w x ||| w y).toNat
  | 0x14 => (w x ^^^ w y).toNat
  | 0x15 => shiftOr 0x15 x y (w x <<< y).toNat
  | 0x16 => shiftOr 0x16 x y (w x >>> y).toNat
  | 0x17 => shiftOr 0x17 x y ((w x).sshiftRight y).toNat
  | 0x18 =>
    match md % 3 with
    | 0 => x * y % 2 ^ 32
    | 1 => unsigned 64 (signed 32 x * signed 32 y) / 2 ^ 32
    | _ => x * y / 2 ^ 32
  | 0x20 => toF32 ((f32 x).scale (max (-1000) (min 1000 (signed 32 y))))
  | 0x21 => expo x
  | 0x22 => mant x
  | 0x23 =>
    match r.consts[c.imm + x % 64]? with
    | some v => v
    | none => (Config.openResult 0x23 x c.imm).toNat % 2 ^ 32
  | 0x30 => cvt md .nearest x
  | 0x31 => cvt md (.random (y % 2 ^ 24)) x
  | 0x38 => ksrWord e.seed e.step e.index
  | _ => x

/-- The outputs of all cells for one element. -/
def Recipe.run (r : Recipe) (e : AEnv) (ins : List Nat) : List Nat :=
  r.cells.foldl (fun outs c =>
    let v := srcVal r e ins outs c
    outs ++ [cellVal r e c (v c.src.1) (v c.src.2.1) (v c.src.2.2)]) []

/-- The word an output port delivers. A port that several cells drive has no stated value (log entry 5). -/
def Recipe.port (r : Recipe) (outs : List Nat) (o : Nat) : Nat :=
  match (r.cells.zip outs).filter fun c => c.1.out = o with
  | [] => 0
  | [c] => c.2
  | c :: d :: _ => (Config.openResult (0x100 + o) c.2 d.2).toNat % 2 ^ 32

/-- The recipe in a slot of a tile, if it holds one (R150). -/
def State.recipe (s : State) (t slot : Nat) : Option Recipe :=
  if slot < 4 ∧ s.on (R.TILE.ACCORD_SLOT.VALID t slot) then some (recipeOf (Cells.get [] s.tile.recipes (t * 4 + slot))) else none

/-- Whether a recipe reads the step number: as a source, or through the KSR primitive (R148, R149). -/
def Recipe.usesStep (r : Recipe) : Bool :=
  r.cells.any fun c => c.op = 0x38 || [c.src.1, c.src.2.1, c.src.2.2].any fun s => s = 0x210 || s = 0x211

/-- Whether a recipe reads the parameter index: as a source, or through the KSR primitive (R149, R163). -/
def Recipe.usesIndex (r : Recipe) : Bool :=
  r.cells.any fun c => c.op = 0x38 || [c.src.1, c.src.2.1, c.src.2.2].any fun s => s = 0x214 || s = 0x215

end Sys2Proof.Machine
end

