-- ==== Sys2Proof/Machine/Matmul.lean ====
section
/-! DEFINITION. The operation descriptor (R163), the Nose's choice of a command (R380 to R383), and the matrix unit:
operands in panel and compressed form, sweep, anchors, passes and drain (R135 to R144, R188 to R199, R203). -/

namespace Sys2Proof.Machine

/-! ### The operation descriptor (R163) -/

/-- The work of command `e` with descriptor `d`, its bounds as the descriptor gives them. -/
def workOf (e d : Nat) : Work :=
  { profile := cmdProfile e, op := cmdOp e, cflags := field e 32 2 0
    aFmt := field d 4 7 0, bFmt := field d 5 7 0, outFmt := field d 6 7 0, dflags := field d 7 2 0
    m := field d 8 31 0, n := field d 12 31 0, k := field d 16 31 0, recipe := field d 20 7 0
    totalK := field d 24 63 0, aAddr := field d 32 31 0, aStride := field d 36 31 0
    bAddr := field d 40 31 0, bStride := field d 44 31 0, cAddr := field d 48 31 0, cStride := field d 52 31 0
    anchor := field d 56 31 0, init := field d 60 31 0, seed := field d 64 63 0, step := field d 72 39 0
    base := field d 80 45 0, piTrow := field d 88 63 0, piTcol := field d 96 63 0, piRow := field d 104 31 0 }

/-- The flags of the command and of the descriptor. -/
def Work.anchorOnly (w : Work) : Bool := w.profile = 2 && bitOf w.cflags 0
def Work.sr (w : Work) : Bool := bitOf w.cflags 1
def Work.update (w : Work) : Bool := bitOf w.cflags 2
def Work.flag0 (w : Work) : Bool := bitOf w.dflags 0
def Work.toWindow (w : Work) : Bool := bitOf w.dflags 1
def Work.useInit (w : Work) : Bool := w.profile = 1 && bitOf w.dflags 2
/-- Whether the command names a delivered anchor array (R139, R163). -/
def Work.delivered (w : Work) : Bool := w.profile = 2 && w.anchor ≠ 0xFFFFFFFF

/-- The parameter index of element (r, c) in the tile at position (i, j) (R163). -/
def Work.index (w : Work) (i j r c : Nat) : Nat := w.base + i * w.piTrow + j * w.piTcol + r * w.piRow + c

/-- Output groups of a row. -/
def Work.gn (w : Work) : Nat := cdiv w.n 32
/-- K-blocks. -/
def Work.kbn (w : Work) : Nat := cdiv w.k 32

/-! ### Reading in order -/

/-- Runs `f` over a list in order, up to the first failure. -/
def readAll {α β : Type} (f : State → α → State × Except Err β) (s : State) (l : List α) : State × Except Err (List β) :=
  match l with
  | [] => (s, .ok [])
  | x :: r =>
    match f s x with
    | (a, .error e) => (a, .error e)
    | (a, .ok v) =>
      match readAll f a r with
      | (b, .error e) => (b, .error e)
      | (b, .ok vs) => (b, .ok (v :: vs))

/-- One byte of the scratchpad, by its byte address. -/
def State.spadByte (s : State) (o : Option Owner) (t b : Nat) : State × Except Err Nat :=
  match s.spadRead o t (b / 4) with
  | (a, .error e) => (a, .error e)
  | (a, .ok v) => (a, .ok (v.toNat / 256 ^ (b % 4) % 256))

/-! ### The Nose's choice (R380 to R383) -/

/-- The step whose samples the Nose takes for a command: its tag's step, or EPOCH with the mechanism inactive; none
inside an evaluation bracket. -/
def State.sampleStep (s : State) (o : Owner) : Option Nat :=
  if s.stepActive o.part then o.step.map Prod.fst else some (s.rd R.NOSE.EPOCH)

/-- SAMPLE_CFG.LOG2; a value outside 4 to 10 acts as 6 (R380). -/
def State.sampleLog2 (s : State) : Nat :=
  let v := s.rd R.NOSE.SAMPLE_CFG.LOG2
  if 4 ≤ v ∧ v ≤ 10 then v else 6

/-- The checker and the arbiter of a tile for a unit hash (R383). -/
def checkerOf (t h : Nat) : Nat := t / 40 * 40 + (t % 40 + 8 + h % 25) % 40
def arbiterOf (t h : Nat) : Nat := t / 40 * 40 + (t % 40 + 8 + (h % 25 + 12) % 25) % 40

/-- The unit hash of the eligible COMPUTE of owner `o` in tile `t`, if the Nose chooses it (R380, R381). -/
def State.sampled (s : State) (o : Owner) (t : Nat) : Option Nat :=
  match s.sampleStep o with
  | none => none
  | some n =>
    let seed := s.rd R.NOSE.SAMPLE_SEED
    let h := ksr1 seed n (2 ^ 45 + t * 2 ^ 32 + o.idx)
    if !s.on (R.PG.CTRL.EN pgNOSE) ∨ ksr1 seed n t / 2 ^ (64 - s.sampleLog2) ≠ 0 ∨
        h % 2 ^ s.rd R.NOSE.SAMPLE_CFG.CMD_LOG2 ≠ 0 ∨
        max 1 (s.rd R.NOSE.SAMPLE_CFG.PER_TILE) ≤ Cells.get 0 s.nose.chosen t then none
    else some h

/-! ### Operands of a MATMUL (R188 to R190, R234 to R238) -/

/-- One operand: its format, place, extent and layout. -/
structure Operand where
  code   : Nat
  addr   : Nat
  stride : Nat
  ext    : Nat
  w      : Nat
  kbn    : Nat
  sparse : Bool
  deriving DecidableEq, Repr

/-- Words of a panel row, dense or compressed; rows of a fetch cycle; rows with padding. -/
def Operand.rw (p : Operand) : Nat := if p.sparse then elemBits p.code / 2 else elemBits p.code
def Operand.q (p : Operand) : Nat := 128 / p.rw
def Operand.rows (p : Operand) : Nat := cdiv p.ext p.w * p.w
/-- Panel row (kb, i). -/
def Operand.row (p : Operand) (kb i : Nat) : Nat := p.addr + (kb * p.rows + i) * p.stride
/-- The scale array's first word, and the byte of row (kb, i) (R189). -/
def Operand.sAddr (p : Operand) : Nat := p.addr + cdiv (p.kbn * p.rows * p.stride) 128 * 128
def Operand.sByte (p : Operand) (kb i : Nat) : Nat := 4 * p.sAddr + kb * p.rows + i
/-- The index array's first word, its slot size, and the index word of row (kb, i) (R236). -/
def Operand.xAddr (p : Operand) : Nat := p.sAddr + (if isMx p.code then cdiv (p.kbn * p.rows) 512 * 128 else 0)
def Operand.z (p : Operand) : Nat := if p.w = 96 then 128 else 64
def Operand.xWord (p : Operand) (kb i : Nat) : Nat := p.xAddr + (kb * p.rows / p.w + i / p.w) * p.z + i % p.w

/-- One past the last word of the operand's arrays (R203). -/
def Operand.last (p : Operand) : Nat :=
  max (p.row (p.kbn - 1) (p.rows - 1) + p.rw)
    (max (if isMx p.code then p.sAddr + cdiv (p.kbn * p.rows) 4 else 0)
      (if p.sparse then p.xAddr + p.kbn * (p.rows / p.w) * p.z else 0))

/-- A panel row as the array takes it: 32 dense values, the stored values that give its block exponent, whether its scale is 0xFF,
and whether an index pair is illegal. -/
structure PanelRow where
  dense   : List Val
  stored  : List Val
  special : Bool
  bad     : Bool
  deriving DecidableEq, Repr

/-- The block exponent of a panel row (R99). -/
def PanelRow.exp (r : PanelRow) : BlockExp := ⟨maxLog2 r.stored, r.special || r.stored.any Val.special⟩

/-- The dense position, within its group, of stored value `v` under an index nibble (R235). -/
def nibPos (nib v : Nat) : Nat := if v = 0 then nib % 4 else nib / 4

/-- Stored values placed under an index word, for groups that begin before K (R142, R234, R235). -/
def expandRow (kb k idx : Nat) (special : Bool) (vs : List Val) : PanelRow :=
  let zero := Val.fin false 0 0
  let live := (List.range 8).filter fun g => decide (32 * kb + 4 * g < k)
  let nib := fun g => idx / 16 ^ g % 16
  let at_ := fun g v => 4 * g + nibPos (nib g) v
  let kept := live.flatMap fun g => [0, 1].filterMap fun v =>
    if 32 * kb + at_ g v < k then some (at_ g v, vs.getD (2 * g + v) zero) else none
  ⟨(List.range 32).map fun i => ((kept.find? fun x => decide (x.1 = i)).map Prod.snd).getD zero, kept.map Prod.snd, special,
    live.any fun g => decide (nibPos (nib g) 1 ≤ nibPos (nib g) 0)⟩

/-- Panel row (kb, i) of an operand with reduction length `k`, from its words, its scale and its index word. -/
def Operand.decode (p : Operand) (k kb : Nat) (ws : List Word) (x idx : Nat) : PanelRow :=
  let vs := (List.range (if p.sparse then 16 else 32)).map fun j =>
    match isMx p.code, fmtOf p.code with
    | true, some f => mxValue f x (packedAt (elemBits p.code) ws j)
    | _, _ => elemVal p.code (packedAt (elemBits p.code) ws j)
  let special := isMx p.code && x = 255
  if p.sparse then expandRow kb k idx special vs
  else
    let d := vs.zipIdx.map fun v => if 32 * kb + v.2 < k then v.1 else Val.fin false 0 0
    ⟨d, d, special, false⟩

/-- Reads panel row (kb, i) of a dense operand that has no scales, in blocks that meet no bank twice (R192). -/
def State.panelRow (s : State) (o : Option Owner) (t : Nat) (p : Operand) (k kb i : Nat) : State × Except Err PanelRow :=
  match s.spadReads o t (wordsFrom (p.row kb i) p.rw) with
  | (a, .error e) => (a, .error e)
  | (a, .ok ws) => (a, .ok (p.decode k kb ws 127 0))

/-- The banks that two different entries of one cycle's words meet in (R122). -/
def conflicts (ws : List Nat) : List Nat :=
  (List.range 64).filter fun b =>
    match ws.filter fun w => decide (bankOf w = b) with
    | [] => false
    | x :: r => r.any fun y => decide (entryOf y ≠ entryOf x)

/-- One fetch cycle: no access is performed if two of its words meet in a bank (R122). -/
def State.fetchCycle (s : State) (o : Option Owner) (t : Nat) (ws : List Nat) : State × Except Err (List Word) :=
  match conflicts ws with
  | [] => s.spadReads o t ws
  | b :: _ => (s.raiseFor o (pgTILE t) .BANK_CONFLICT b, .error .BANK_CONFLICT)

/-- The rows of slice `tt` of an operand, and those that fetch cycle `c` reads (R188, R190). -/
def Operand.sliceRows (p : Operand) (tt : Nat) : List Nat :=
  (List.range p.w).filterMap fun r => if tt * p.w + r < p.ext then some (tt * p.w + r) else none
def Operand.cycleRows (p : Operand) (tt c : Nat) : List Nat := (p.sliceRows tt).filter fun i => decide ((i - tt * p.w) / p.q = c)

/-- The first word of the scale bytes of the slice (kb, tt), and the words that hold its w scale bytes (R190). -/
def Operand.scaleAt (p : Operand) (kb tt : Nat) : Nat := p.sByte kb (tt * p.w) / 4
def Operand.scaleWords (p : Operand) (kb tt : Nat) : List Nat :=
  wordsFrom (p.scaleAt kb tt) ((p.sByte kb (tt * p.w) + p.w - 1) / 4 + 1 - p.scaleAt kb tt)

/-- The w index words of the slice (kb, tt) (R236, R238; log entry 77). -/
def Operand.indexWords (p : Operand) (kb tt : Nat) : List Nat := wordsFrom (p.xWord kb (tt * p.w)) p.w

/-- The cycles that the fetch of a slice takes (R140, R190, R238). -/
def Operand.fetchCycles (p : Operand) : Nat := cdiv p.w p.q + (if isMx p.code then 1 else 0) + (if p.sparse then 1 else 0)

/-- Fetches the slice (kb, tt) of an operand, cycle by cycle: rows, then scales, then indices; an illegal index pair is
SPARSE_INDEX (R122, R142, R190, R238). -/
def State.fetchSlice (s : State) (o : Option Owner) (t : Nat) (p : Operand) (k tt kb : Nat) : State × Except Err (List PanelRow) :=
  let rowCycle := fun (u : State) c => u.fetchCycle o t ((p.cycleRows tt c).flatMap fun i => wordsFrom (p.row kb i) p.rw)
  match readAll rowCycle s (List.range (cdiv p.w p.q)) with
  | (a, .error e) => (a, .error e)
  | (a, .ok cs) =>
    match (if isMx p.code then a.fetchCycle o t (p.scaleWords kb tt) else (a, .ok [])) with
    | (b, .error e) => (b, .error e)
    | (b, .ok ss) =>
      match (if p.sparse then b.fetchCycle o t (p.indexWords kb tt) else (b, .ok [])) with
      | (c, .error e) => (c, .error e)
      | (c, .ok xs) =>
        let rs := (p.sliceRows tt).zipIdx.map fun i => p.decode k kb ((cs.flatten.drop (i.2 * p.rw)).take p.rw)
          (byteAt ss (p.sByte kb i.1 - 4 * p.scaleAt kb tt)) (xs.getD i.2 0).toNat
        if rs.any PanelRow.bad then (c.raiseFor o (pgTILE t) .SPARSE_INDEX, .error .SPARSE_INDEX) else (c, .ok rs)

/-! ### Geometry of a MATMUL (R135, R191, R195) -/

/-- The operand modes of R135. -/
def modeOk (a b : Nat) : Bool :=
  ((a = 2 || a = 3) && (b = 2 || b = 3)) || ((a = 4 || a = 5) && (b = 4 || b = 5 || b = 6)) || (a = 6 && b = 6) ||
    (a = 1 && b = 1)

/-- The output tile's height and width. -/
def Work.w (x : Work) : Nat := if x.aFmt = 1 then 48 else 96
def Work.opA (x : Work) : Operand := ⟨x.aFmt, x.aAddr, x.aStride, x.m, x.w, x.kbn, false⟩
def Work.opB (x : Work) : Operand := ⟨x.bFmt, x.bAddr, x.bStride, x.n, x.w, x.kbn, x.flag0⟩
/-- Passes down and across, and regions across. -/
def Work.mtn (x : Work) : Nat := cdiv x.m x.w
def Work.ntn (x : Work) : Nat := cdiv x.n x.w
def Work.regN (x : Work) : Nat := cdiv x.n 96
/-- The K-block period (R135). -/
def Work.period (x : Work) : Nat := (if x.aFmt = 6 then 16 else 32) / (if x.flag0 then 2 else 1)
/-- Words of an output region of format `f` (R141, R191). -/
def regionWords (w f : Nat) : Nat :=
  if f = 7 then w * 3 * 128 else w * 3 * elemBits f + (if isMx f then w * 3 / 4 else 0)
/-- The first word of the region of pass row `mt` and region column `h`. -/
def Work.region (x : Work) (mt h : Nat) : Nat := x.cAddr + (mt * x.regN + h) * x.cStride
/-- The word of the initial accumulator of output (m, n) (R144). -/
def Work.initWord (x : Work) (m n : Nat) : Nat :=
  x.init + (m / x.w * x.regN + n / 96) * (x.w * 96) + m % x.w * 96 + n % 96
/-- Exponent buffer entries (R137). -/
def Work.expEntries (x : Work) : Nat := x.m * x.kbn + x.kbn * x.gn

/-! ### Resource checks (R199, R203) -/

/-- An open accumulate window of tile `t` that holds words `a` to `b`, `a` at a slot of it, and admits the tile itself
(R199). -/
def State.accWindow (s : State) (t a b : Nat) : Option Nat :=
  (List.range 16).find? fun n =>
    s.rd (R.TILE.SPAD_WIN_CTRL.STATE t n) = 2 && s.rd (R.TILE.SPAD_WIN_CTRL.MODE t n) = 1 && s.admits t n (.tile t) &&
      decide (s.rd (R.TILE.SPAD_WIN_BASE t n) ≤ a ∧ b ≤ s.rd (R.TILE.SPAD_WIN_LIMIT t n) ∧
        (a - s.rd (R.TILE.SPAD_WIN_BASE t n)) % 128 = 0)

/-- The end of an anchor array at word `a`: one byte per row and output group (R198). -/
def Work.anchorEnd (x : Work) (a : Nat) : Nat := a + cdiv (x.m * x.gn) 4

/-- The ends of a MATMUL's arrays. -/
def Work.mmEnds (x : Work) : List Nat :=
  [x.opA.last, x.opB.last] ++
  (if x.anchorOnly then [x.anchorEnd x.cAddr]
   else [x.region (x.mtn - 1) (x.regN - 1) + regionWords x.w x.outFmt] ++
    (if x.delivered then [x.anchorEnd x.anchor] else []) ++
    (if x.useInit then [x.init + x.mtn * x.regN * (x.w * 96)] else []))

/-- The first resource check of R203 that a MATMUL fails, as its SOURCE. -/
def State.mmShort (s : State) (t : Nat) (x : Work) : Option Nat :=
  if x.mmEnds.any fun e => decide (Config.spadWords < e) then some 1
  else if x.toWindow && !x.anchorOnly && ((s.accWindow t x.cAddr (x.region (x.mtn - 1) (x.regN - 1) + regionWords x.w 7)).isNone ||
      (decide (x.mtn * x.regN ≠ 1) && decide (x.cStride % 128 ≠ 0))) then some 2
  else if x.profile = 2 ∧ 131072 < x.expEntries then some 3
  else none

/-! ### Anchors (R99, R100, R137 to R139) -/

/-- The local code of a group from pairs of block exponents, and the error its own blocks cause (R100, R101). -/
def localCode (pairs : List (BlockExp × BlockExp)) : Nat × Option Err :=
  let special := pairs.any fun p => p.1.special || p.2.special
  let a := pairs.foldl (fun m p => maxOpt m (pairAnchor p.1 p.2)) none
  let c := anchorCode special a
  (c, if c ≠ 255 then none else if special then some .SPECIAL_OPERAND else some .ANCHOR_RANGE)

/-- The largest block exponent of a list, and whether any is special: an exponent buffer entry. -/
def mergeExp (bs : List BlockExp) : BlockExp :=
  ⟨bs.foldl (fun m b => maxOpt m b.exp) none, bs.any BlockExp.special⟩

/-- What the anchor phase decides for one group: the code used, or none where the group is not written. -/
abbrev GroupCode := Option Nat

/-- The anchor phase for the group of byte `b` of the delivered array: a local code above the delivered one is
XB40_ANCHOR_MISMATCH; a local code of 255 raises its cause (R101, R139), except under ANCHOR_ONLY, which writes the code and raises
nothing (DESIGN CHOICE, log entry 78). -/
def State.useCode (s : State) (o : Option Owner) (t : Nat) (x : Work) (b : Nat) (c : Nat × Option Err) :
    State × Except Err GroupCode :=
  if x.anchorOnly then (s, .ok (some c.1))
  else
    let cause := fun (u : State) => match c.2 with
      | some e => u.raiseFor o (pgTILE t) e
      | none => u
    if x.delivered then
      match s.spadByte o t (4 * x.anchor + b) with
      | (a, .error e) => (a, .error e)
      | (a, .ok d) =>
        if d < c.1 then ((a.raiseFor o (pgTILE t) .XB40_ANCHOR_MISMATCH), .ok none) else (cause a, .ok (some d))
    else (cause s, .ok (some c.1))

/-- Writes local anchor codes: the code of (m, G) at byte m × gn + G of the array at word `w` (R198). -/
def State.putCodes (s : State) (t w : Nat) (cs : List Nat) : State :=
  s.putScales t w cs.length (fun b => decide (b < cs.length)) (fun b => cs[b]?)

/-- The exponent sweep of an operand: the block exponents of its rows, slice by slice (R137, log entry 77). -/
def State.sweep (s : State) (o : Option Owner) (t : Nat) (p : Operand) (k : Nat) : State × Except Err (List (List (List BlockExp))) :=
  readAll (fun u tt => readAll (fun v kb =>
    match v.fetchSlice o t p k tt kb with
    | (a, .error e) => (a, .error e)
    | (a, .ok rs) => (a, .ok (rs.map PanelRow.exp))) u (List.range p.kbn)) s (List.range (cdiv p.ext p.w))

/-- The exponent buffer: the block exponent of row `i` in K-block `kb`, for rows swept in slices of `w`. -/
def expAt (w : Nat) (xs : List (List (List BlockExp))) (i kb : Nat) : BlockExp :=
  ((xs.getD (i / w) []).getD kb []).getD (i % w) ⟨none, false⟩

/-- What the sweep leaves of both operands. -/
structure Sweep where
  xa : List (List (List BlockExp))
  xb : List (List (List BlockExp))
  deriving DecidableEq, Repr

/-- The exponent sweep of a K2 MATMUL (R137). -/
def State.sweepBoth (s : State) (o : Option Owner) (t : Nat) (x : Work) : State × Except Err Sweep :=
  match s.sweep o t x.opA x.k with
  | (a, .error e) => (a, .error e)
  | (a, .ok xa) =>
    match a.sweep o t x.opB x.k with
    | (b, .error e) => (b, .error e)
    | (b, .ok xb) => (b, .ok ⟨xa, xb⟩)

/-- The local code of the group (m, G) (R138). -/
def Work.groupCode (x : Work) (w : Sweep) (m g : Nat) : Nat × Option Err :=
  let cols := (List.range 32).filterMap fun j => if 32 * g + j < x.n then some (32 * g + j) else none
  localCode ((List.range x.kbn).map fun kb => (expAt x.w w.xa m kb, mergeExp (cols.map fun n => expAt x.w w.xb n kb)))

/-- Codes that anchor phases have settled, by m × gn + G. -/
abbrev Codes := List (Nat × GroupCode)

/-- The code of group `i`; none if it is not to be written. -/
def Codes.at_ (cs : Codes) (i : Nat) : GroupCode := (cs.find? fun c => c.1 = i).bind Prod.snd

/-- The groups whose anchor phase comes before pass `p`: those whose first column lies in it (R136, R138). -/
def Work.passGroups (x : Work) (p : Nat) : List (Nat × Nat) :=
  let gs := (List.range x.gn).filter fun g => decide (32 * g / x.w = p % x.ntn)
  (x.opA.sliceRows (p / x.ntn)).flatMap fun m => gs.map fun g => (m, g)

/-- The anchor phase before pass `p` (R138, R139). -/
def State.anchorPhase (s : State) (o : Option Owner) (t : Nat) (x : Work) (w : Sweep) (p : Nat) : State × Except Err Codes :=
  readAll (fun u (g : Nat × Nat) =>
    let i := g.1 * x.gn + g.2
    match u.useCode o t x i (x.groupCode w g.1 g.2) with
    | (a, .error e) => (a, .error e)
    | (a, .ok c) => (a, .ok (i, c))) s (x.passGroups p)

/-! ### Multiply and drain (R101, R115, R140, R141, R195) -/

/-- The exact sum of a K2 output on a code's grid; codes 0 and 255 form no sum (R101). -/
def kSum (code : Nat) (as bs : List Val) : Int :=
  if code = 0 ∨ code = 255 then 0 else gridSum (grid code) ((as.zip bs).map fun p => p.1.mul p.2)

/-- The encoding of an output group's sums in a format, through FP32 for an MX format (R101, R141). -/
def groupOut (code fmt : Nat) (sums : List Int) : Nat × List Nat :=
  let vs := sums.map (windowValue code)
  if isMx fmt then groupEnc fmt (fun _ => .nearest) (vs.map fun v => f32 (toF32 v)) else groupEnc fmt (fun _ => .nearest) vs

/-- A triple goes to word `w`: as a remote write of the tile itself with DFLAGS[1], else into its slot (R199). -/
def State.putTriple (s : State) (o : Option Owner) (t : Nat) (x : Work) (win : Option Nat) (w : Nat) (tr : Triple) : State :=
  match x.toWindow, win with
  | true, some n =>
    match s.remoteWrite (landingOf t n (w - s.rd (R.TILE.SPAD_WIN_BASE t n)) (slotWords tr) (.tile t) o x.profile 512) with
    | (a, some e) => a.flightErr o e
    | (a, none) => a
  | _, _ => s.spadWrites t w (slotWords tr)

/-- Sums held for outputs: the output's row and column and its sum, or its K1 accumulator (R136). -/
abbrev Held := List ((Nat × Nat) × Int)

/-- The groups that the drain of pass column `nt` writes: those whose last column lies in it (R136). -/
def Work.drained (x : Work) (nt : Nat) : List Nat :=
  (List.range x.gn).filter fun g => decide (min (32 * g + 31) (x.n - 1) / x.w = nt)

/-- What the drain writes of the group (m, G): its scale and codes, and its triple; none where its code is refused (R139, R141). -/
def Work.drainOut (x : Work) (codes : Codes) (held : Held) (m g : Nat) : Option ((Nat × List Nat) × Triple) :=
  let sums := (List.range 32).map fun j => ((held.find? fun h => h.1 = (m, 32 * g + j)).map Prod.snd).getD 0
  if x.profile = 2 then (codes.at_ (m * x.gn + g)).map fun c => (groupOut c x.outFmt sums, groupTriple c sums)
  else some (groupEnc x.outFmt (fun _ => .nearest) (sums.map fun a => f32 a.toNat), ⟨(0, 0, 0), []⟩)

/-- One write of the drain: a word, the scale bytes of a word (none keeps a byte), or a triple for an accumulate window. -/
inductive DrainItem where
  | word (w : Nat) (v : Word)
  | scales (w : Nat) (bs : List (Option Nat))
  | slot (w : Nat) (tr : Triple)
  deriving DecidableEq, Repr

/-- Words from `w` as items of the drain. -/
def wordItems (w : Nat) (vs : List Word) : List DrainItem := vs.zipIdx.map fun v => .word (w + v.2) v.1

/-- The scale words of the drain of pass row `mt` in region column `h`: the scales of the groups that `outs` gives, zero for those
beyond the extents, and the other bytes kept (R191, R195). -/
def Work.scaleItems (x : Work) (mt h : Nat) (outs : List ((Nat × Nat) × (Nat × List Nat))) : List DrainItem :=
  let base := x.region mt h + x.w * 3 * elemBits x.outFmt
  let new := fun i => (outs.find? fun y => y.1 = (mt * x.w + i / 3, 3 * h + i % 3)).map fun y => y.2.1
  let byte := fun i => if x.gn ≤ 3 * h + i % 3 ∨ x.m ≤ mt * x.w + i / 3 then some 0 else new i
  (List.range (cdiv (3 * x.w) 4)).filterMap fun j =>
    let is := (List.range 4).map fun b => 4 * j + b
    if is.any fun i => (new i).isSome then some (.scales (base + j) (is.map byte)) else none

/-- The writes of the drain of pass (mt, nt), in rising order of their places (R141, R191, R195, R199; log entry 77). -/
def Work.drainItems (x : Work) (codes : Codes) (held : Held) (mt nt : Nat) : List DrainItem :=
  let b := elemBits x.outFmt
  let outs := (x.opA.sliceRows mt).flatMap fun m => (x.drained nt).filterMap fun g =>
    (x.drainOut codes held m g).map fun y => ((m, g), y)
  let place := fun m g size => x.region mt (g / 3) + (m % x.w * 3 + g % 3) * size
  if x.outFmt = 7 then outs.flatMap fun y =>
    let w := place y.1.1 y.1.2 128
    if x.toWindow then [.slot w y.2.2] else wordItems w (slotWords y.2.2)
  else
    outs.flatMap (fun y => wordItems (place y.1.1 y.1.2 b) (packWords b (y.2.1.2.take (x.n - 32 * y.1.2)))) ++
    (if isMx x.outFmt then x.scaleItems mt (((x.drained nt).headD 0) / 3) (outs.map fun y => (y.1, y.2.1)) else [])

/-- One write of the drain. -/
def State.drainItem (s : State) (o : Option Owner) (t : Nat) (x : Work) (win : Option Nat) (i : DrainItem) : State :=
  match i with
  | .word w v => s.spadWrite t w v
  | .scales w bs =>
    let old := s.rawWord t w
    s.spadWrite t w (BitVec.ofNat 32 (leNat (bs.zipIdx.map fun b => BitVec.ofNat 8 (b.1.getD (old / 256 ^ b.2 % 256)))))
  | .slot w tr => s.putTriple o t x win w tr

/-- All of a drain. -/
def State.drainAll (s : State) (o : Option Owner) (t : Nat) (x : Work) (win : Option Nat) (q : List DrainItem) : State :=
  q.foldl (fun u i => u.drainItem o t x win i) s

/-- Whether the second of two items follows the first in one block: consecutive words that no multiple of 128 parts (R191). -/
def DrainItem.joins (a b : DrainItem) : Bool :=
  let place := fun (i : DrainItem) => match i with
    | .word w _ => some w
    | .scales w _ => some w
    | .slot _ _ => none
  match place a, place b with
  | some v, some w => w = v + 1 && w % 128 ≠ 0
  | _, _ => false

/-- The number of items in the first block of a drain. -/
def blockLength (q : List DrainItem) : Nat :=
  match q with
  | [] => 0
  | [_] => 1
  | a :: b :: r => if a.joins b then blockLength (b :: r) + 1 else 1

/-- `n` cycles of a drain: one block in each (R141, R191). What is left comes back. -/
def State.drainBlocks (s : State) (o : Option Owner) (t : Nat) (x : Work) (win : Option Nat) (n : Nat) (q : List DrainItem) :
    State × List DrainItem :=
  match n with
  | 0 => (s, q)
  | n + 1 =>
    if q.isEmpty then (s, q)
    else (s.drainAll o t x win (q.take (blockLength q))).drainBlocks o t x win n (q.drop (blockLength q))

/-- The outputs of pass (mt, nt), as (row, column). -/
def Work.passOuts (x : Work) (mt nt : Nat) : List (Nat × Nat) :=
  (x.opA.sliceRows mt).flatMap fun m => (x.opB.sliceRows nt).map fun n => (m, n)

/-- The initial accumulators of a pass (R144). -/
def State.passInit (s : State) (o : Option Owner) (t : Nat) (x : Work) (mt nt : Nat) : State × Except Err (List Word) :=
  if x.useInit then s.spadReads o t ((x.passOuts mt nt).map fun y => x.initWord y.1 y.2) else (s, .ok [])

/-- The sums of pass (mt, nt) from its fetched rows: the exact window, or the K1 order from the initial accumulator (R101, R115). -/
def Work.passSums (x : Work) (codes : Codes) (mt nt : Nat) (fa fb : List (List PanelRow)) (init : List Word) : Held :=
  let line := fun (f : List (List PanelRow)) i => f.flatMap fun rs => (rs.getD i ⟨[], [], false, false⟩).dense
  (x.passOuts mt nt).zipIdx.map fun y =>
    let as := line fa (y.1.1 - mt * x.w)
    let bs := line fb (y.1.2 - nt * x.w)
    (y.1, if x.profile = 2 then kSum ((codes.at_ (y.1.1 * x.gn + y.1.2 / 32)).getD 0) as bs
      else (k1Reduce (init.getD y.2 0).toNat (((as.zip bs).take x.k).map fun q => toF32 (q.1.mul q.2)) : Int))

/-- A MATMUL between two K-block periods: the codes settled, the sums held for a later drain (R136), the slices and the initial
accumulators of the pass under way, and what is left of the drain of the pass before. -/
structure MmRun where
  codes : Codes
  held  : Held
  fa    : List (List PanelRow)
  fb    : List (List PanelRow)
  init  : List Word
  queue : List DrainItem
  deriving DecidableEq, Repr

/-- The rows of a K-block's slices of A and B. -/
abbrev Slices := List PanelRow × List PanelRow

/-- Fetches the slices of K-block `kb` of pass `p`, the A slice first (R140). -/
def State.fetchBlock (s : State) (o : Option Owner) (t : Nat) (x : Work) (j : Nat × Nat) : State × Except Err Slices :=
  match s.fetchSlice o t x.opA x.k (j.1 / x.ntn) j.2 with
  | (a, .error e) => (a, .error e)
  | (a, .ok ra) =>
    match a.fetchSlice o t x.opB x.k (j.1 % x.ntn) j.2 with
    | (b, .error e) => (b, .error e)
    | (b, .ok rb) => (b, .ok (ra, rb))

/-- What begins with a pass: its initial accumulators are read, and the anchor phase of the next pass runs (R138, R144). The spec
does not place the read of the initial accumulators; the model does it here (DESIGN CHOICE, log entry 103). -/
def State.openPass (s : State) (o : Option Owner) (t : Nat) (x : Work) (w : Sweep) (p : Nat) : State × Except Err (Codes × List Word) :=
  match s.passInit o t x (p / x.ntn) (p % x.ntn) with
  | (a, .error e) => (a, .error e)
  | (a, .ok init) =>
    match (if x.profile = 2 ∧ p + 1 < x.mtn * x.ntn then a.anchorPhase o t x w (p + 1) else (a, .ok [])) with
    | (b, .error e) => (b, .error e)
    | (b, .ok cs) => (b, .ok (cs, init))

/-- The end of a pass's multiply phase: the drain of the pass before has finished, and this pass's drain is to come (R136, R141). -/
def Work.closePass (x : Work) (r : MmRun) (p : Nat) : MmRun :=
  let nt := p % x.ntn
  let all := r.held ++ x.passSums r.codes (p / x.ntn) nt r.fa r.fb r.init
  { codes := r.codes, held := all.filter fun q => decide (min (32 * (q.1.2 / 32) + 31) (x.n - 1) / x.w ≠ nt)
    fa := [], fb := [], init := [], queue := x.drainItems r.codes all (p / x.ntn) nt }

/-- The K-block periods of a MATMUL in order: each fetches the next K-block, adds the terms of its own, and gives its free cycles
to the drain of the pass before; at the end comes the drain of the last pass, and then the end that a refused group brings (R139
to R141, R195). -/
def State.mmPeriods (s : State) (o : Option Owner) (t : Nat) (x : Work) (win : Option Nat) (w : Sweep) (r : MmRun) (cur : Slices)
    (js : List (Nat × Nat)) : State × Option Err :=
  match js with
  | [] => (s.drainAll o t x win r.queue, errIf (r.codes.any fun c => c.2.isNone) .XB40_ANCHOR_MISMATCH)
  | j :: rest =>
    match (if j.2 = 0 then s.openPass o t x w j.1 else (s, .ok ([], []))) with
    | (a, .error e) => (a, some e)
    | (a, .ok c) =>
      match (match rest.head? with
        | some n => a.fetchBlock o t x n
        | none => (a, .ok ([], []))) with
      | (b, .error e) => (b, some e)
      | (b, .ok next) =>
        let free := if rest.isEmpty then x.period else x.period - (x.opA.fetchCycles + x.opB.fetchCycles)
        let d := (b.bump (R.TILE.MX_BUSY t) x.period).drainBlocks o t x win free r.queue
        let m : MmRun := { r with
          codes := r.codes ++ c.1, init := r.init ++ c.2, fa := r.fa ++ [cur.1], fb := r.fb ++ [cur.2], queue := d.2 }
        if j.2 + 1 = x.kbn then (d.1.drainAll o t x win d.2).mmPeriods o t x win w (x.closePass m j.1) next rest
        else d.1.mmPeriods o t x win w m next rest

/-- The multiply and drain of a MATMUL whose first anchor phase has given `cs` (R140). -/
def State.mmMultiply (s : State) (o : Option Owner) (t : Nat) (x : Work) (win : Option Nat) (w : Sweep) (cs : Codes) : State × Option Err :=
  let js := (List.range (x.mtn * x.ntn)).flatMap fun p => (List.range x.kbn).map fun kb => (p, kb)
  match s.fetchBlock o t x (0, 0) with
  | (a, .error e) => (a, some e)
  | (a, .ok cur) => a.mmPeriods o t x win w ⟨cs, [], [], [], [], []⟩ cur js

/-- An error that ends a command, if there was one. -/
def State.endedBy (r : State × Option Err) (o : Option Owner) : State :=
  match r.2 with
  | some e => r.1.flightErr o e
  | none => r.1

/-- A K2 MATMUL in a tile: the sweep, then all anchor phases under ANCHOR_ONLY, else the passes. A group refused for its code ends
the command once the rest is done (R137 to R141). -/
def State.runMatmul2 (s : State) (o : Option Owner) (t : Nat) (x : Work) (win : Option Nat) : State :=
  match s.sweepBoth o t x with
  | (a, .error e) => a.flightErr o e
  | (a, .ok w) =>
    if x.anchorOnly then
      match readAll (fun u p => u.anchorPhase o t x w p) a (List.range (x.mtn * x.ntn)) with
      | (b, .error e) => b.flightErr o e
      | (b, .ok cs) => b.putCodes t x.cAddr ((List.range (x.m * x.gn)).map fun i => (Codes.at_ cs.flatten i).getD 0)
    else
      match a.anchorPhase o t x w 0 with
      | (b, .error e) => b.flightErr o e
      | (b, .ok cs) => State.endedBy (b.mmMultiply o t x win w cs) o

/-- A tile's share of a MATMUL (R147, R151, R203). -/
def State.runMatmul (s : State) (o : Option Owner) (t : Nat) (x : Work) : State :=
  match s.mmShort t x with
  | some src => (s.raiseFor o (pgTILE t) .RESOURCE_OVF src).flightErr o .RESOURCE_OVF
  | none =>
    let win := s.accWindow t x.cAddr (x.region (x.mtn - 1) (x.regN - 1) + regionWords x.w 7)
    if x.profile = 2 then s.runMatmul2 o t x win else State.endedBy (s.mmMultiply o t x win ⟨[], []⟩ []) o

end Sys2Proof.Machine
end

