-- ==== Sys2Proof/Machine/Vector.lean ====
section
/-! DEFINITION. The vector unit and the Accord fabric: REDUCE and CONVERT (R95 to R97, R110, R113, R115, R201, R530,
R531), the pruned CONVERT (R241 to R243), the list build (R248), MAP and RECIPE_LOAD (R148 to R150). -/

namespace Sys2Proof.Machine

/-! ### Row-form arrays (R530) -/

/-- The words from a row's first element to its last scale, and the row's start. -/
def Work.aRow (x : Work) (len : Nat) (r : Nat) : Nat := x.aAddr + r * strideOr x.aStride (rowWords x.aFmt len)
def Work.cRow (x : Work) (r : Nat) : Nat := x.cAddr + r * strideOr x.cStride (rowWords x.outFmt x.n)
/-- The first word of the slots of an XB40 row of a REDUCE. -/
def Work.cSlots (x : Work) (r : Nat) : Nat := x.cAddr + r * strideOr x.cStride (x.gn * 128)

/-- The elements of a REDUCE row: N runs, each padded to whole blocks in an MX format (R530). -/
def Work.run (x : Work) : Nat := rowElems x.aFmt x.k
def Work.redLen (x : Work) : Nat := x.n * x.run

/-- A resource failure ends the tile's share with RESOURCE_OVF and its SOURCE (R203). -/
def State.shortOf (s : State) (o : Option Owner) (t src : Nat) : State :=
  (s.raiseFor o (pgTILE t) .RESOURCE_OVF src).flightErr o .RESOURCE_OVF

/-- Whether any array of a command ends past the scratchpad. -/
def pastEnd (ends : List Nat) : Bool := ends.any fun e => decide (Config.spadWords < e)

/-- A list of values, its rows cut. -/
def rowsOf (m : Nat) : List Nat := List.range m

/-! ### REDUCE -/

/-- The ends of a REDUCE's arrays (R203). -/
def Work.redEnds (x : Work) : List Nat :=
  [x.aRow x.redLen (x.m - 1) + rowWords x.aFmt x.redLen,
   if x.anchorOnly then x.anchorEnd x.cAddr
   else if x.outFmt = 7 then x.cSlots (x.m - 1) + x.gn * 128
   else x.cRow (x.m - 1) + rowWords x.outFmt x.n] ++
  (if x.delivered && !x.anchorOnly then [x.anchorEnd x.anchor] else []) ++
  (if x.useInit then [x.init + x.m * x.n] else [])

/-- The first resource check that a REDUCE fails. -/
def State.redShort (s : State) (t : Nat) (x : Work) : Option Nat :=
  if pastEnd x.redEnds then some 1
  else if x.toWindow && !x.anchorOnly && (s.accWindow t x.cAddr (x.cSlots (x.m - 1) + x.gn * 128)).isNone then some 2
  else if x.profile = 2 ∧ 16 < x.gn then some 4
  else none

/-- The K-blocks of a run of terms. -/
def kBlocks (vs : List Val) : List (List Val) := groupsOf32 vs

/-- The local anchor code of a group of value terms (R99, R100). -/
def valueCode (runs : List (List Val)) : Nat × Option Err :=
  let bs := runs.flatMap fun r => (kBlocks r).map blockExp
  let special := bs.any BlockExp.special
  let c := anchorCode special (bs.foldl (fun m b => maxOpt m b.exp) none)
  (c, if c ≠ 255 then none else if special then some .SPECIAL_OPERAND else some .ANCHOR_RANGE)

/-- The runs of row `r`: the K terms of each output (R530). -/
def Work.runsOf (x : Work) (vs : List Val) : List (List Val) :=
  (List.range x.n).map fun n => (vs.drop (n * x.run)).take x.k

/-- One row of a REDUCE under K2: the codes of its groups, then its outputs (R101, R139). -/
def State.redRow2 (s : State) (o : Option Owner) (t : Nat) (x : Work) (win : Option Nat) (r : Nat) (runs : List (List Val)) :
    State × Except Err (List GroupCode) :=
  let gs := groupsOf32 runs
  match readAll (fun u (g : Nat × List (List Val)) => u.useCode o t x (r * x.gn + g.1) (valueCode g.2)) s
      (gs.zipIdx.map fun g => (g.2, g.1)) with
  | (a, .error e) => (a, .error e)
  | (a, .ok codes) =>
    if x.anchorOnly then (a, .ok codes)
    else
      let sums := fun c (g : List (List Val)) => g.map fun v => if c = 0 ∨ c = 255 then 0 else gridSum (grid c) v
      let b :=
        if x.outFmt = 7 then
          (gs.zip codes).zipIdx.foldl (fun u p =>
            match p.1.2 with
            | none => u
            | some c => u.putTriple o t x win (x.cSlots r + p.2 * 128) (groupTriple c (sums c p.1.1))) a
        else
          a.putRow t (x.cRow r) x.outFmt x.n ((gs.zip codes).map fun p => p.2.map fun c => groupOut c x.outFmt (sums c p.1))
      (b, .ok codes)

/-- One row of a REDUCE under K1 (R115, R144). -/
def State.redRow1 (s : State) (o : Option Owner) (t : Nat) (x : Work) (r : Nat) (runs : List (List Val)) :
    State × Option Err :=
  let one := fun (u : State) (p : Nat × List Val) =>
    let terms := p.2.map toF32
    if x.useInit then
      match u.spadRead o t (x.init + r * x.n + p.1) with
      | (v, .error e) => (v, Except.error e)
      | (v, .ok w) => (v, .ok (k1Reduce w.toNat terms))
    else (u, .ok (k1Reduce 0 terms))
  match readAll one s (runs.zipIdx.map fun p => (p.2, p.1)) with
  | (a, .error e) => (a, some e)
  | (a, .ok accs) =>
    (a.putRow t (x.cRow r) x.outFmt x.n
      ((groupsOf32 accs).map fun g => some (groupEnc x.outFmt (fun _ => .nearest) (g.map f32))), none)

/-- The rows of a REDUCE; the codes of all groups come back. -/
def State.redRows (s : State) (o : Option Owner) (t : Nat) (x : Work) (win : Option Nat) (rs : List Nat)
    (codes : List GroupCode) : State × Except Err (List GroupCode) :=
  match rs with
  | [] => (s, .ok codes)
  | r :: rest =>
    match s.spadReads o t (wordsFrom (x.aRow x.redLen r) (rowWords x.aFmt x.redLen)) with
    | (a, .error e) => (a, .error e)
    | (a, .ok ws) =>
      let runs := x.runsOf (rowVals x.aFmt x.redLen ws)
      if x.profile = 2 then
        match a.redRow2 o t x win r runs with
        | (b, .error e) => (b, .error e)
        | (b, .ok cs) => b.redRows o t x win rest (codes ++ cs)
      else
        match a.redRow1 o t x r runs with
        | (b, some e) => (b, .error e)
        | (b, none) => b.redRows o t x win rest codes

/-- The lane work of a REDUCE, in kept cycles (R531). -/
def Work.redLanes (x : Work) : Nat :=
  (if x.profile = 2 then 2 * cdiv (x.m * x.n * x.k) 256 else cdiv (x.m * x.n * 16 * cdiv x.k 16) 256) + cdiv (x.m * x.n) 256

/-- A tile's share of a REDUCE. -/
def State.runReduce (s : State) (o : Option Owner) (t : Nat) (x : Work) : State :=
  match s.redShort t x with
  | some src => s.shortOf o t src
  | none =>
    let win := s.accWindow t x.cAddr (x.cSlots (x.m - 1) + x.gn * 128)
    match (s.bump (R.TILE.VEC_BUSY t) x.redLanes).redRows o t x win (rowsOf x.m) [] with
    | (a, .error e) => a.flightErr o e
    | (a, .ok codes) =>
      if x.anchorOnly then a.putCodes t x.cAddr (codes.map fun c => c.getD 0)
      else if codes.contains none then a.flightErr o .XB40_ANCHOR_MISMATCH else a

/-! ### CONVERT -/

/-- Rows of a region of R201, and the slot of (row, group). -/
def Work.regRows (x : Work) : Nat := if x.bFmt = 1 then 48 else 96
def Work.xbStride (x : Work) : Nat := strideOr x.aStride (x.regRows * 384)
def Work.xbSlot (x : Work) (r g : Nat) : Nat :=
  x.aAddr + (r / x.regRows * x.regN + g / 3) * x.xbStride + (r % x.regRows * 3 + g % 3) * 128

/-- The end of a CONVERT's input and output arrays. -/
def Work.cvtEnds (x : Work) : List Nat :=
  [if x.aFmt = 7 then x.aAddr + (cdiv x.m x.regRows * x.regN - 1) * x.xbStride + x.regRows * 384
   else x.aRow x.n (x.m - 1) + rowWords x.aFmt x.n,
   x.cRow (x.m - 1) + rowWords x.outFmt x.n]

/-- The rounding of an element with parameter index `i` (R112, R113). -/
def Work.rounding (x : Work) (i : Nat) : Rounding := if x.sr then .random (ksrWord x.seed x.step i) else .nearest

/-- The outputs of one XB40 slot in a format; a triple whose anchor bytes differ is refused (R105, R201). -/
def State.slotOut (s : State) (o : Option Owner) (t : Nat) (x : Work) (r g : Nat) : State × Except Err (Nat × List Nat) :=
  match s.spadReads o t (wordsFrom (x.xbSlot r g) 128) with
  | (a, .error e) => (a, .error e)
  | (a, .ok ws) =>
    let tr := Triple.ofBytes ((bytesOfWords ws).take 483)
    match tr.code with
    | none => (a.raiseFor o (pgTILE t) .XB40_ANCHOR_MISMATCH, .error .XB40_ANCHOR_MISMATCH)
    | some c => (a, .ok (groupOut c x.outFmt ((tr.outs.take (x.n - 32 * g)).map Planes.value)))

/-- One row of a CONVERT, as the groups it writes. The exact value of an MX source is rounded to the target, also where it lies
outside FP32's range; a MAP's port takes such a value as R95 converts it to FP32 (DESIGN CHOICE, log entry 68). -/
def State.cvtRow (s : State) (o : Option Owner) (t i j : Nat) (x : Work) (r : Nat) :
    State × Except Err (List (Nat × List Nat)) :=
  if x.aFmt = 7 then readAll (fun u g => u.slotOut o t x r g) s (List.range x.gn)
  else
    match s.spadReads o t (wordsFrom (x.aRow x.n r) (rowWords x.aFmt x.n)) with
    | (a, .error e) => (a, .error e)
    | (a, .ok ws) =>
      (a, .ok ((groupsOf32 (rowVals x.aFmt x.n ws)).zipIdx.map fun g =>
        groupEnc x.outFmt (fun k => x.rounding (x.index i j r (32 * g.2 + k))) g.1))

/-- The rows of a CONVERT, in order. -/
def State.cvtRows (s : State) (o : Option Owner) (t i j : Nat) (x : Work) (rs : List Nat) : State × Option Err :=
  match rs with
  | [] => (s, none)
  | r :: rest =>
    match s.cvtRow o t i j x r with
    | (a, .error e) => (a, some e)
    | (a, .ok gs) => (a.putRow t (x.cRow r) x.outFmt x.n (gs.map some)).cvtRows o t i j x rest

/-- A tile's share of a CONVERT, at position (i, j) of the set. -/
def State.runConvert (s : State) (o : Option Owner) (t i j : Nat) (x : Work) : State :=
  if pastEnd x.cvtEnds then s.shortOf o t 1
  else
    match (s.bump (R.TILE.VEC_BUSY t) (cdiv (x.m * x.n) 256)).cvtRows o t i j x (rowsOf x.m) with
    | (a, some e) => a.flightErr o e
    | (a, none) => a

/-! ### Pruned CONVERT (R240 to R244) -/

/-- The compressed output as an operand: its panels, scales and index slots are placed as those of B (R241). -/
def Work.pruneTo (x : Work) : Operand := ⟨x.outFmt, x.cAddr, x.cStride, x.n, if x.outFmt = 1 then 48 else 96, x.kbn, true⟩
def Work.pruneFrom (x : Work) : Operand := ⟨x.aFmt, x.aAddr, x.aStride, x.n, if x.outFmt = 1 then 48 else 96, x.kbn, false⟩

/-- Whether input `a` at index `i` ranks above input `b` at index `j` in a group (R242). -/
def ranksAbove (a : Val) (i : Nat) (b : Val) (j : Nat) : Bool :=
  let mag := fun (v : Val) => match v with
    | .fin _ m e => Val.fin false m e
    | .inf _ => .inf false
    | .nan => .nan
  if a = .nan ∨ b = .nan then (a = .nan && (b ≠ .nan || i < j))
  else if (mag b).lt (mag a) then true else if (mag a).lt (mag b) then false else i < j

/-- The two positions a group keeps, in ascending order (R242). -/
def keptOf (vs : List Val) : List Nat :=
  (List.range 4).filter fun i =>
    ((List.range 4).filter fun j => j ≠ i && ranksAbove (vs.getD j .nan) j (vs.getD i .nan) i).length < 2

/-- A dense panel row pruned: its sixteen kept values with their places in the row, and its index word (R242, R235). -/
def pruneRow (vs : List Val) : List (Val × Nat) × Nat :=
  let gs := (List.range 8).map fun g => (g, keptOf ((vs.drop (4 * g)).take 4))
  (gs.flatMap fun g => g.2.map fun p => (vs.getD (4 * g.1 + p) (.fin false 0 0), 4 * g.1 + p),
    gs.foldl (fun a g => a + (g.2.getD 0 0 + 4 * g.2.getD 1 0) * 16 ^ g.1) 0)

/-- The canonical zero row's index word (R239). -/
def zeroIndex : Nat := 0x44444444

/-- One panel row (kb, n) of a pruned CONVERT (R243). -/
def State.pruneOne (s : State) (o : Option Owner) (t i j : Nat) (x : Work) (kb n : Nat) : State × Option Err :=
  match s.panelRow o t x.pruneFrom x.k kb n with
  | (a, .error e) => (a, some e)
  | (a, .ok row) =>
    let kept := pruneRow row.dense
    let rnd := fun p => x.rounding (x.index i j n (32 * kb + ((kept.1.map Prod.snd).getD p 0)))
    let p := x.pruneTo
    let vs := kept.1.map Prod.fst
    let enc := match isMx p.code, fmtOf p.code with
      | true, some f => mxEncode f rnd vs
      | _, _ => (0, vs.zipIdx.map fun (q : Val × Nat) => elemEnc p.code (rnd q.2) q.1)
    let b := a.spadWrites t (p.row kb n) (packWords (elemBits p.code) enc.2)
    let c := if isMx p.code then b.putScales t p.sAddr (p.kbn * p.rows) (fun q => decide (q = kb * p.rows + n))
        (fun q => if q = kb * p.rows + n then some enc.1 else none) else b
    (c.spadWrite t (p.xWord kb n) (BitVec.ofNat 32 kept.2), none)

/-- The panel rows of a pruned CONVERT in order. -/
def State.pruneAll (s : State) (o : Option Owner) (t i j : Nat) (x : Work) (rs : List (Nat × Nat)) : State × Option Err :=
  match rs with
  | [] => (s, none)
  | r :: rest =>
    match s.pruneOne o t i j x r.1 r.2 with
    | (a, some e) => (a, some e)
    | (a, none) => a.pruneAll o t i j x rest

/-- Kept cycles in which the vector unit issues an operation of a pruned CONVERT: one for each 512 bytes that it takes and that it
gives (R244; DEDUCED, log entry 76). -/
def Work.prunedOps (x : Work) : Nat :=
  let p := x.pruneTo
  cdiv (x.kbn * x.n * x.pruneFrom.rw * 4) 512 +
    cdiv (x.kbn * x.n * (p.rw * 4 + (if isMx p.code then 1 else 0)) + x.kbn * (p.rows / p.w) * p.z * 4) 512

/-- A tile's share of a pruned CONVERT. -/
def State.runPruned (s : State) (o : Option Owner) (t i j : Nat) (x : Work) : State :=
  if pastEnd [x.pruneFrom.last, x.pruneTo.last] then s.shortOf o t 1
  else
    match (s.bump (R.TILE.VEC_BUSY t) x.prunedOps).pruneAll o t i j x ((List.range x.kbn).flatMap fun kb => (List.range x.n).map fun n => (kb, n)) with
    | (a, some e) => a.flightErr o e
    | (a, none) => a

/-! ### List build (R248) -/

/-- The magic number of a row list (R231). -/
def listMagic : Nat := 0x524C5354

/-- Whether a score is greater than +0; a NaN is not (R248). -/
def activeScore (w : Nat) : Bool := (Val.fin false 0 0).lt (f32 w)

/-- The selected block numbers, ascending: every active block, or the `k` largest, ties to the lower number (R248). -/
def selectBlocks (k : Nat) (scores : List Nat) : List Nat :=
  let act := scores.zipIdx.filter fun x => activeScore x.1
  (act.filter fun x => decide ((act.filter fun y =>
    (f32 x.1).lt (f32 y.1) || (!(f32 y.1).lt (f32 x.1) && decide (y.2 < x.2))).length < k)).map Prod.snd

/-- A tile's share of a list build. -/
def State.runList (s : State) (o : Option Owner) (t : Nat) (x : Work) : State :=
  if pastEnd [x.aAddr + x.n, x.cAddr + x.k + 5] then s.shortOf o t 1
  else
    match (s.bump (R.TILE.VEC_BUSY t) (2 * cdiv x.n 256)).spadReads o t (wordsFrom x.aAddr x.n) with
    | (a, .error e) => a.flightErr o e
    | (a, .ok ws) =>
      let scores := ws.map fun w => w.toNat
      let act := (scores.filter activeScore).length
      let sel := selectBlocks x.k scores
      let idx := sel ++ (List.range (x.k - sel.length)).map fun i => x.n + i
      let b := a.spadWrites t x.cAddr [BitVec.ofNat 32 listMagic, BitVec.ofNat 32 x.k]
      let c := b.spadWrites t (x.cAddr + 4) ((idx ++ [min act (2 ^ 32 - 1)]).map (BitVec.ofNat 32))
      if x.k < act then c.raiseFor o (pgTILE t) .LIST_CAPPED else c

/-! ### MAP (R148, R150, R163) -/

/-- Entry `p` of the port table: word address and format; inputs 0 to 15, then outputs 0 to 7 (R163). -/
def portEntry (ws : List Word) (p : Nat) : Nat × Nat := let v := (ws.getD (2 * p) 0).toNat; (bitsOf v 23 0, bitsOf v 31 24)

/-- The declared ports of a recipe: their numbers in the port table. -/
def Recipe.inPorts (r : Recipe) : List Nat := List.range (min r.inputs 16)
def Recipe.outPorts (r : Recipe) : List Nat := (List.range (min r.outputs 8)).map fun i => 16 + i

/-- An input element as the fabric's 32-bit word (R96, R97). -/
def portWords (code n : Nat) (ws : List Word) : List Nat :=
  if code = 0 then (ws.take n).map fun w => w.toNat else (rowVals code n ws).map toF32

/-- The ends of a MAP's port arrays: the word that holds the last byte of element M × N − 1 (R203). -/
def Work.mapEnds (x : Work) (r : Recipe) (tab : List Word) : List Nat :=
  (r.inPorts ++ r.outPorts).map fun p => (portEntry tab p).1 + cdiv (x.m * x.n * elemBits (portEntry tab p).2) 32

/-- The first resource check that a MAP fails (R203). -/
def State.mapShort (s : State) (t : Nat) (x : Work) : Option Nat :=
  let tab := (wordsFrom x.aAddr 48).map fun w => BitVec.ofNat 32 (s.rawWord t w)
  if 4 ≤ x.recipe then some 5
  else
    match s.recipe t x.recipe with
    | none => none
    | some r =>
      if pastEnd (x.mapEnds r tab) then some 1
      else if x.sr && decide (512 < r.cells.length + 2 * r.outputs) then some 6
      else none

/-- Writes one output port from the fabric's words (R95 to R97, R163). -/
def State.putPort (s : State) (t i j : Nat) (x : Work) (p : Nat × Nat) (vs : List Nat) : State :=
  s.putRow t p.1 p.2 vs.length ((groupsOf32 vs).zipIdx.map fun g =>
    some (groupEnc p.2 (fun k => let e := 32 * g.2 + k; x.rounding (x.index i j (e / x.n) (e % x.n))) (g.1.map f32)))

/-- A tile's share of a MAP, at position (i, j). The array of a port in an MX format is one row in row form: its scales follow its
padded elements (DESIGN CHOICE, log entry 75). -/
def State.runMap (s : State) (o : Option Owner) (t i j : Nat) (x : Work) : State :=
  match s.mapShort t x with
  | some src => s.shortOf o t src
  | none =>
    match s.recipe t x.recipe with
    | none => (s.raiseFor o (pgTILE t) .ACCORD_SLOT_EMPTY).flightErr o .ACCORD_SLOT_EMPTY
    | some r =>
      match s.spadReads o t (wordsFrom x.aAddr 48) with
      | (a, .error e) => a.flightErr o e
      | (a, .ok tab) =>
        let cnt := x.m * x.n
        let input := fun (u : State) p =>
          let q := portEntry tab p
          match u.spadReads o t (wordsFrom q.1 (rowWords q.2 cnt)) with
          | (v, .error e) => (v, Except.error e)
          | (v, .ok ws) => (v, .ok (portWords q.2 cnt ws))
        match readAll input a r.inPorts with
        | (b, .error e) => b.flightErr o e
        | (b, .ok ins) =>
          let outs := (List.range cnt).map fun e =>
            r.run ⟨x.step, x.seed, x.index i j (e / x.n) (e % x.n)⟩ (ins.map fun p => p.getD e 0)
          r.outPorts.foldl (fun u p => u.putPort t i j x (portEntry tab p) (outs.map fun c => r.port c (p - 16)))
            (b.bump (R.TILE.ACCORD_ELEMS t) cnt)

/-! ### RECIPE_LOAD (R148, R150) -/

/-- LATENCY of a loaded recipe; one that does not fit the field has no stated value (log entry 5). -/
def Recipe.shownLatency (r : Recipe) : Nat :=
  if r.latency < 256 then r.latency else (Config.openResult 0x200 r.latency 0).toNat % 256

/-- A recipe takes a slot. -/
def State.loadSlot (s : State) (t slot : Nat) (ws : List Word) : State :=
  let r := recipeOf ws
  let a := { s with tile := { s.tile with recipes := Cells.put [] s.tile.recipes (t * 4 + slot) ws } }
  (((((a.wr (R.TILE.ACCORD_SLOT.CELLS t slot) r.cells.length).wr (R.TILE.ACCORD_SLOT.LATENCY t slot) r.shownLatency).wr
    (R.TILE.ACCORD_SLOT.LANES t slot) (min 64 (512 / r.cells.length))).wr (R.TILE.ACCORD_SLOT.PROFILE t slot) r.profile).wr
    (R.TILE.ACCORD_SLOT.VALID t slot) 1).wr (R.TILE.ACCORD_SLOT_ID t slot) r.ident

/-- A tile's share of a RECIPE_LOAD. -/
def State.runLoad (s : State) (o : Option Owner) (t : Nat) (x : Work) : State :=
  let head := (wordsFrom x.aAddr 16).map fun w => BitVec.ofNat 32 (s.rawWord t w)
  let refuse := fun (u : State) => (u.raiseFor o (pgTILE t) .ACCORD_CONFIG).flightErr o .ACCORD_CONFIG
  if pastEnd [x.aAddr + (if headOk head then imageWords (headCells head) (headConsts head) else 16)] then s.shortOf o t 1
  else if 4 ≤ x.recipe then s.shortOf o t 5
  else
    match s.spadReads o t (wordsFrom x.aAddr 16) with
    | (a, .error e) => a.flightErr o e
    | (a, .ok hd) =>
      if !headOk hd then refuse a
      else
        match a.spadReads o t (wordsFrom (x.aAddr + 16) (imageWords (headCells hd) (headConsts hd) - 16)) with
        | (b, .error e) => b.flightErr o e
        | (b, .ok rest) => if recipeOk (recipeOf (hd ++ rest)) then b.loadSlot t x.recipe (hd ++ rest) else refuse b

end Sys2Proof.Machine
end

