-- ==== Sys2Proof/Machine/Unit.lean ====
section
/-! DEFINITION. A tile's share of a COMPUTE, and its sample unit: what the Nose copies, and what a duplicate of it gives (R381,
R382, R384). -/

namespace Sys2Proof.Machine

/-- The work of a COMPUTE in tile `t`, at position (i, j) of its set. -/
def State.runWork (s : State) (o : Option Owner) (t i j : Nat) (x : Work) : State :=
  match x.op with
  | 0 => s.runMatmul o t x
  | 1 => s.runMap o t i j x
  | 2 => if x.flag0 then s.runList o t x else s.runReduce o t x
  | 3 => if x.flag0 then s.runPruned o t i j x else s.runConvert o t i j x
  | _ => s.runLoad o t x

/-- The first resource check that a tile's share of an eligible COMPUTE fails, as its SOURCE (R203). -/
def State.workShort (s : State) (t : Nat) (x : Work) : Option Nat :=
  match x.op with
  | 0 => s.mmShort t x
  | 1 => s.mapShort t x
  | 2 => s.redShort t x
  | _ => if pastEnd (if x.flag0 then [x.pruneFrom.last, x.pruneTo.last] else x.cvtEnds) then some 1 else none

/-- Whether a COMPUTE is eligible for the Nose (R381). -/
def Work.eligible (x : Work) : Bool := x.op ≠ 4 && !(x.op = 2 && x.flag0)

/-! ### Sample units (R381) -/

/-- The words in which bits `b` to `b + n - 1`, counted from word `w`, lie, each with a mask of those bits. -/
def bitSpan (w b n : Nat) : List (Nat × Word) :=
  (List.range (if n = 0 then 0 else (b + n - 1) / 32 + 1 - b / 32)).map fun i =>
    let j := b / 32 + i
    (w + j, BitVec.ofNat 32 (2 ^ (min (b + n) (32 * j + 32) - 32 * j) - 2 ^ (max b (32 * j) - 32 * j)))

/-- Elements `a` to `b - 1` of a row of `len` at word `w`, in row form; in an MX format whole blocks, with their scales. -/
def rowSpan (code w len a b : Nat) : List (Nat × Word) :=
  let lo := if isMx code then a / 32 * 32 else a
  let hi := if isMx code then cdiv b 32 * 32 else b
  bitSpan w (lo * elemBits code) ((hi - lo) * elemBits code) ++
    (if isMx code then bitSpan (w + rowElemWords code len) (lo / 4) ((hi - lo) / 4) else [])

/-- Whole words as outputs. -/
def wholeWords (ws : List Nat) : List (Nat × Word) := ws.map fun w => (w, 0xFFFFFFFF#32)

/-- Elements `e` to `e + c - 1` of rows of `n` in row-major order: the rows, and the columns in each. -/
def pieces (n e c : Nat) : List (Nat × Nat × Nat) :=
  (List.range (if c = 0 then 0 else (e + c - 1) / n + 1 - e / n)).map fun i =>
    let r := e / n + i
    (r, max e (r * n) - r * n, min (e + c) (r * n + n) - r * n)

/-- The whole blocks of a row of `n` around columns `a` to `b - 1`. -/
def blocksAround (n : Nat) (p : Nat × Nat × Nat) : Nat × Nat × Nat := (p.1, p.2.1 / 32 * 32, min n (cdiv p.2.2 32 * 32))

/-- The elements of a MAP's or CONVERT's sample unit: the first and their number. -/
def Work.unitRange (x : Work) (h : Nat) : Nat × Nat :=
  let e := 2048 * (h % cdiv (x.m * x.n) 2048)
  (e, min 2048 (x.m * x.n - e))

/-- Codes as words, four to a word. -/
def codeWords (cs : List Nat) : List Word := wordsOfBytes (cs.map (BitVec.ofNat 8))

/-- The unit of a CONVERT. -/
def Work.cvtUnit (x : Work) (h : Nat) : SampleUnit :=
  let r := x.unitRange h
  let ps := (pieces x.n r.1 r.2).map fun p => if isMx x.aFmt || isMx x.outFmt then blocksAround x.n p else p
  { reads := ps.flatMap fun p =>
      if x.aFmt = 7 then (List.range (cdiv p.2.2 32 - p.2.1 / 32)).flatMap fun g => wordsFrom (x.xbSlot p.1 (p.2.1 / 32 + g)) 128
      else (rowSpan x.aFmt (x.aRow x.n p.1) x.n p.2.1 p.2.2).map Prod.fst
    codes := [], params := [], image := []
    outs := ps.flatMap fun p => rowSpan x.outFmt (x.cRow p.1) x.n p.2.1 p.2.2 }

/-- The unit of a MAP: each port's array is one row of M × N elements. -/
def State.mapUnit (s : State) (t : Nat) (x : Work) (h : Nat) : SampleUnit :=
  let tw := wordsFrom x.aAddr 48
  let tab := tw.map fun w => BitVec.ofNat 32 (s.rawWord t w)
  match s.recipe t x.recipe with
  | none => ⟨[], [], [], [], []⟩
  | some c =>
    let r := x.unitRange h
    let n := x.m * x.n
    let mx := (c.inPorts ++ c.outPorts).any fun p => isMx (portEntry tab p).2
    let p := if mx then blocksAround n (0, r.1, r.1 + r.2) else (0, r.1, r.1 + r.2)
    let span := fun q => let e := portEntry tab q; rowSpan e.2 e.1 n p.2.1 p.2.2
    { reads := c.inPorts.flatMap fun q => (span q).map Prod.fst
      codes := []
      params := tw.zip tab
      image := Cells.get [] s.tile.recipes (t * 4 + x.recipe)
      outs := c.outPorts.flatMap span }

/-- The unit of a REDUCE: one row, all its output groups. -/
def State.redUnit (s : State) (t : Nat) (x : Work) (h : Nat) : SampleUnit :=
  let r := h % x.m
  let given := (bitSpan x.anchor (8 * (r * x.gn)) (8 * x.gn)).map Prod.fst
  let ws := (wordsFrom (x.aRow x.redLen r) (rowWords x.aFmt x.redLen)).map fun w => BitVec.ofNat 32 (s.rawWord t w)
  let local_ := (groupsOf32 (x.runsOf (rowVals x.aFmt x.redLen ws))).map fun g => (valueCode g).1
  let k2 := x.profile = 2 && !x.anchorOnly
  { reads := wordsFrom (x.aRow x.redLen r) (rowWords x.aFmt x.redLen) ++
      (if x.useInit then wordsFrom (x.init + r * x.n) x.n else []) ++ (if k2 && x.delivered then given else [])
    codes := if k2 && !x.delivered then codeWords local_ else []
    params := [], image := []
    outs := if x.anchorOnly then bitSpan x.cAddr (8 * (r * x.gn)) (8 * x.gn)
      else if x.outFmt = 7 then wholeWords (wordsFrom (x.cSlots r) (x.gn * 128))
      else rowSpan x.outFmt (x.cRow r) x.n 0 x.n }

/-- The unit of a pruned CONVERT: one K-block of output tile 0. -/
def Work.pruneUnit (x : Work) (h : Nat) : SampleUnit :=
  let kb := h % x.kbn
  let p := x.pruneTo
  let ns := List.range (min p.w x.n)
  { reads := ns.flatMap fun n => wordsFrom (x.pruneFrom.row kb n) x.pruneFrom.rw
    codes := [], params := [], image := []
    outs := wholeWords (ns.flatMap fun n => wordsFrom (p.row kb n) p.rw ++ [p.xWord kb n]) ++
      (if isMx p.code then bitSpan p.sAddr (8 * (kb * p.rows)) (8 * ns.length) else []) }

/-- The words of the rows `is` of an operand, in every K-block, with their scales and index words (R188 to R190, R236). -/
def Operand.unitWords (p : Operand) (is : List Nat) : List Nat :=
  (List.range p.kbn).flatMap fun kb =>
    (is.flatMap fun i => wordsFrom (p.row kb i) p.rw) ++
    (if isMx p.code then (is.map fun i => p.sByte kb i / 4).eraseDups else []) ++
    (if p.sparse then is.map fun i => p.xWord kb i else [])

/-- The place of an output group in its region, for groups of `size` words (R191). -/
def Work.groupPlace (x : Work) (m g size : Nat) : Nat := x.region (m / x.w) (g / 3) + (m % x.w * 3 + g % 3) * size

/-- The unit of a MATMUL: one pass. A group that a pass drains may have columns of the pass before: they belong to the unit (log
entry 93). -/
def State.mmUnit (s : State) (t : Nat) (x : Work) (h : Nat) : SampleUnit :=
  let p := h % (x.mtn * x.ntn)
  let ms := x.opA.sliceRows (p / x.ntn)
  let gs := if x.anchorOnly then ((x.passGroups p).map Prod.snd).eraseDups else x.drained (p % x.ntn)
  let cols := fun g => (List.range 32).filterMap fun j => if 32 * g + j < x.n then some (32 * g + j) else none
  let ns := gs.flatMap cols
  let k2 := x.profile = 2 && !x.anchorOnly
  let mg := ms.flatMap fun m => gs.map fun g => (m, g)
  let codes := match (s.sweepBoth none t x).2 with
    | .ok w => mg.map fun y => (x.groupCode w y.1 y.2).1
    | .error _ => []
  let b := elemBits x.outFmt
  { reads := x.opA.unitWords ms ++ x.opB.unitWords ns ++
      (if x.useInit then ms.flatMap fun m => ns.map fun n => x.initWord m n else []) ++
      (if k2 && x.delivered then (mg.map fun y => x.anchor + (y.1 * x.gn + y.2) / 4).eraseDups else [])
    codes := if k2 && !x.delivered then codeWords codes else []
    params := [], image := []
    outs := if x.anchorOnly then mg.flatMap fun y => bitSpan x.cAddr (8 * (y.1 * x.gn + y.2)) 8
      else if x.outFmt = 7 then wholeWords (mg.flatMap fun y => wordsFrom (x.groupPlace y.1 y.2 128) 128)
      else mg.flatMap fun y => bitSpan (x.groupPlace y.1 y.2 b) 0 ((cols y.2).length * b) ++
        (if isMx x.outFmt then
          bitSpan (x.region (y.1 / x.w) (y.2 / 3) + x.w * 3 * b) (8 * (y.1 % x.w * 3 + y.2 % 3)) 8 else []) }

/-- The sample unit of a chosen command for its unit hash (R381). -/
def State.sampleUnit (s : State) (t : Nat) (x : Work) (h : Nat) : SampleUnit :=
  let u := match x.op with
    | 0 => s.mmUnit t x h
    | 1 => s.mapUnit t x h
    | 2 => s.redUnit t x h
    | _ => if x.flag0 then x.pruneUnit h else x.cvtUnit h
  { u with reads := u.reads.eraseDups }

/-- The words of the operand copies, of one output, and of both copies and the duplicate's output (R382). -/
def SampleUnit.opWords (u : SampleUnit) : Nat := u.reads.length + u.codes.length
def SampleUnit.size (u : SampleUnit) : Nat := u.opWords + 2 * u.outs.length

/-! ### What a unit gives -/

/-- The work as a duplicate runs it: its output goes to its own place, before any accumulate. -/
def Work.alone (x : Work) : Work := { x with dflags := if x.toWindow then x.dflags - 2 else x.dflags }

/-- The unit's outputs in a scratchpad. -/
def State.unitOuts (s : State) (t : Nat) (u : SampleUnit) : List Word := u.outs.map fun y => BitVec.ofNat 32 (s.rawWord t y.1) &&& y.2

/-- The index words of a MATMUL's compressed operands that are not the unit's: those of its other passes. -/
def Work.otherIndex (x : Work) (u : SampleUnit) : List Nat :=
  if x.op ≠ 0 then []
  else
    ([x.opA, x.opB].filter Operand.sparse).flatMap fun p =>
      (((List.range p.kbn).flatMap fun kb => (List.range p.rows).map fun i => p.xWord kb i).filter fun w => !u.reads.contains w)

/-- Positions 0 and 1 in each group of four: an index word whose pairs are legal (R234). -/
def plainIndex : Word := 0x44444444#32

/-- What a unit gives for copies of its operands: the same work is run, with the recipe it was issued with, on a scratchpad that
holds nothing else (R381, R384). Passes other than the unit's work on zeros at legal positions; nothing of them is compared. -/
def State.unitRun (s : State) (t : Nat) (pos : Nat × Nat) (x : Work) (u : SampleUnit) (ops : List Word) : List Word :=
  let a := s.clearLines t 0 spadLines
  let f := R.TILE.SPAD_CTRL.STRICT t
  let b := { a with regs := { a.regs with act := Cells.put f.rst a.regs.act f.key 0 } }
  let r := if x.op = 1 then
      ({ b with tile := { b.tile with recipes := Cells.put [] b.tile.recipes (t * 4 + x.recipe) u.image } }).wr
        (R.TILE.ACCORD_SLOT.VALID t x.recipe) 1
    else b
  let c := ((x.otherIndex u).map (fun w => (w, plainIndex)) ++ u.reads.zip ops ++ u.params).foldl (fun v y => v.spadWrite t y.1 y.2) r
  (c.runWork none t pos.1 pos.2 x.alone).unitOuts t u

/-! ### The copies (R374, R382, R384) -/

/-- The carried seals of words. -/
def wordSeals (ws : List Word) : List Word := sealsOf 512 (bytesOfWords ws)

/-- The Nose begins a sample of a chosen command that has passed its tile's resource checks (R203): the unit's operands are
copied into the checker's area. A unit that does not fit is skipped; an operand that fails its SECDED check makes the sample
void; an unset word under STRICT ends the command (R126, R382, R384). -/
def State.beginSample (s : State) (o : Owner) (t i j : Nat) (x : Work) : State × Option Dup :=
  match (if x.eligible && (s.workShort t x).isNone then s.sampled o t else none) with
  | none => (s, none)
  | some h =>
    let a := ({ s with nose := { s.nose with chosen := Cells.put 0 s.nose.chosen t (Cells.get 0 s.nose.chosen t + 1) } }).bump R.NOSE.SAMPLED 1
    let u := s.sampleUnit t x h
    let base := s.rd (R.NOSE.AREA_BASE o.part)
    if s.rd (R.NOSE.AREA_WORDS o.part) < u.size ∨ Config.spadWords < base + u.size then (a.bump R.NOSE.SKIP_SIZE 1, none)
    else
      match a.spadReads none t u.reads with
      | (b, .error .UNSET_READ) => (b.flightErr (some o) .UNSET_READ, none)
      | (b, .error _) => (b.bump R.NOSE.VOID 1, none)
      | (b, .ok ws) =>
        let d : Dup := ⟨o, t, checkerOf t h, arbiterOf t h, (i, j), x, u, base, wordSeals (ws ++ u.codes), none⟩
        (b.spadWrites d.checker base (ws ++ u.codes), some d)

/-- The original's output as drained: the words of its tile, or for an accumulate window what was drained into it. -/
def State.drainedOut (s : State) (d : Dup) (ops : List Word) : State × Except Err (List Word) :=
  if d.work.toWindow then (s, .ok (s.unitRun d.tile d.pos d.work d.unit ops))
  else
    match s.spadReads none d.tile (d.unit.outs.map Prod.fst) with
    | (a, .error e) => (a, .error e)
    | (a, .ok ws) => (a, .ok ((ws.zip (d.unit.outs.map Prod.snd)).map fun y => y.1 &&& y.2))

/-- The original has run: its drained output is copied after the operands, both copies before the command completes (R384 step 1).
A command that has met an error leaves no sample (log entry 93). -/
def State.endSample (s : State) (d : Option Dup) : State :=
  match d with
  | none => s
  | some d =>
    if ((s.flight d.owner.queue d.owner.idx).bind Flight.err).isSome then s
    else
      let ops := (wordsFrom d.base d.unit.reads.length).map fun w => BitVec.ofNat 32 (s.rawWord d.checker w)
      match s.drainedOut d ops with
      | (a, .error _) => a.bump R.NOSE.VOID 1
      | (a, .ok ws) =>
        let b := a.spadWrites d.checker (d.base + d.unit.opWords) ws
        { b with nose := { b.nose with dups := b.nose.dups ++ [{ d with seals := d.seals ++ wordSeals ws }] } }

end Sys2Proof.Machine
end

