-- ==== Sys2Proof/Machine/Compute.lean ====
section
/-! DEFINITION. The issue of COMPUTE commands: their checks in the order of R182 (R162 to R164, R193, R194, R284, R286),
and their execution in every tile of the set. -/

namespace Sys2Proof.Machine

/-! ### Checks 2 to 5 -/

/-- Check 2 of a COMPUTE (R158, R162, R163, R186). -/
def State.computeField (s : State) (q e : Nat) : Bool :=
  decide (cmdOp e ≤ 4) && (cmdProfile e = 1 || cmdProfile e = 2) && headerReserved e && zeroBytes e 20 23 &&
    zeroBytes e 38 59 && field e 32 31 3 = 0 && field e 16 31 21 = 0 &&
    decide (adrSpace (field e 24 63 0) ≤ 1 ∧ field e 24 63 0 % 64 = 0) &&
    (!fieldBit e 32 1 || cmdOp e = 1 || cmdOp e = 3) &&
    ((List.range 4).all fun i => selOk (field e 36 (4 * i + 3) (4 * i))) && s.deadlineOk q e

/-- Reads the descriptor, once, at issue (R163). An address of space 0x0 on another node, where no descriptor lies, gives DESC_READ
with the other addresses that cannot be read: the spec names no code for it (DESIGN CHOICE, log entry 105). -/
def State.readDesc (s : State) (q a : Nat) : State × Option Nat :=
  let x := s.readIssue (some (s.newOwner q (s.nextIdx q))) ((s.queuePart q).getD 8) a 128
  (x.1, x.2.map leNat)

/-! ### Bounds (R164) -/

/-- Which bounds the operation uses: M and N, K, STEP; a MAP's recipe may read the step, and a PARAM_UPDATE's is compared where the
step mechanism is active (R286). -/
def Work.usesMN (x : Work) : Bool := x.op ≠ 4
def Work.usesK (x : Work) : Bool := x.op = 0 || x.op = 2 || (x.op = 3 && x.flag0)
def State.usesStep (s : State) (q : Nat) (x : Work) (ts : List Nat) : Bool :=
  x.sr || (x.update && s.stepActive ((s.queuePart q).getD 8)) || (x.op = 1 && ts.any fun t => ((s.recipe t x.recipe).map Recipe.usesStep).getD false)

/-- The work with its bounds resolved, in the tiles `ts`; none where a bound that is used exceeds its field. -/
def State.resolve (s : State) (q e : Nat) (ts : List Nat) (x : Work) : Option Work :=
  let get := fun i (used : Bool) own w => if used then s.bound q (field e 36 (4 * i + 3) (4 * i)) own w else some own
  match get 0 x.usesMN x.m 32, get 1 x.usesMN x.n 32, get 2 x.usesK x.k 32, get 3 (s.usesStep q x ts) x.step 40 with
  | some m, some n, some k, some st => some { x with m := m, n := n, k := k, step := st }
  | _, _, _, _ => none

/-! ### Check 6: the descriptor (R163, R194, R201, R241, R248, R530) -/

/-- The reserved bytes and bits of a descriptor, and its magic number. -/
def descShape (d : Nat) : Bool :=
  field d 0 31 0 = 0x43445331 && field d 7 7 3 = 0 && zeroBytes d 21 23 && field d 72 63 40 = 0 &&
    field d 80 63 46 = 0 && zeroBytes d 108 127

/-- Formats and flags of a descriptor that its operation does not allow. -/
def Work.fieldsOk (x : Work) : Bool :=
  fmtKnown x.aFmt && fmtKnown x.outFmt &&
    (if x.op = 0 then fmtKnown x.bFmt
     else if x.op = 3 ∧ x.aFmt = 7 ∧ !x.flag0 then x.bFmt = 0xFF || x.bFmt = 1
     else x.bFmt = 0xFF) &&
    !(x.flag0 && (x.op = 1 || x.op = 4)) && !(x.toWindow && x.outFmt ≠ 7) && !(bitOf x.dflags 2 && x.profile = 2) &&
    !(x.op = 3 && x.flag0 && x.update)

/-- A non-zero stride below a size. -/
def strideBad (st size : Nat) : Bool := decide (0 < st ∧ st < size)

/-- The shape rules of check 6 that need no bound: an XB40 result of a REDUCE lies at whole slots, and the stride of XB40
regions is their size or more (R201, R530). -/
def Work.placeOk (x : Work) : Bool :=
  !(x.op = 2 && !x.flag0 && x.outFmt = 7 && decide (x.cAddr % 128 ≠ 0 ∨ x.cStride % 128 ≠ 0)) &&
  !(x.op = 3 && !x.flag0 && x.aFmt = 7 && strideBad x.aStride (x.regRows * 384))

/-- The shape rules of check 6 that rest on resolved bounds. -/
def Work.shapeOk (x : Work) : Bool :=
  if x.flag0 && (x.op = 2 || x.op = 3) then x.m = 1 && (x.op = 3 || x.totalK = x.k)
  else if x.op = 2 ∨ x.op = 3 then
    let known := fun f => isScalar f || isMx f
    !(known x.aFmt && strideBad x.aStride (rowWords x.aFmt (if x.op = 2 then x.redLen else x.n))) &&
    !(if x.op = 2 ∧ x.outFmt = 7 then strideBad x.cStride (x.gn * 128)
      else known x.outFmt && strideBad x.cStride (rowWords x.outFmt x.n))
  else true

/-! ### Check 7 (R164, R193, R194, R248) -/

/-- Whether the command uses the parameter index (R163): SR, or a recipe that reads it. -/
def State.usesIndex (s : State) (x : Work) (ts : List Nat) : Bool :=
  (x.op = 3 && x.sr) ||
    (x.op = 1 && (x.sr || ts.any fun t => ((s.recipe t x.recipe).map Recipe.usesIndex).getD false))

/-- The largest parameter index of a set (R163); the columns of a pruned CONVERT index its rows (R243). -/
def Work.topIndex (x : Work) (v : TileSet) : Nat :=
  if x.op = 3 && x.flag0 then x.index (v.rows - 1) (v.cols - 1) (x.n - 1) (x.k - 1)
  else x.index (v.rows - 1) (v.cols - 1) (x.m - 1) (x.n - 1)

/-- Check 7 on a work with resolved bounds. -/
def State.check7 (s : State) (x : Work) (v : TileSet) : Option Err :=
  let list := x.op = 2 && x.flag0
  firstErr [
    errIf ((x.usesMN && decide (x.m = 0 ∨ x.n = 0)) || ((x.op = 0 || x.op = 2) && decide (x.k = 0))) .BOUND_RANGE,
    errIf (list && decide (2 ^ 24 ≤ x.k ∨ 2 ^ 32 ≤ x.n + x.k)) .BOUND_RANGE,
    errIf ((x.op = 0 || x.op = 2) && x.profile = 2 && decide (x.k < x.totalK) && !x.anchorOnly && !x.delivered) .CMD_FIELD,
    errIf ((x.op = 0 || x.op = 2) && decide (x.totalK < x.k)) .BOUND_RANGE,
    errIf (s.usesIndex x (v.tiles.map Prod.fst) && decide (2 ^ 46 ≤ x.topIndex v)) .BOUND_RANGE]

/-! ### Check 8: formats (R96, R114, R135, R162, R241, R248) -/

/-- MX or XB40. -/
def isBlock (f : Nat) : Bool := isMx f || f = 7

/-- The port entries of a MAP in one tile, for a recipe. -/
def State.mapPorts (s : State) (t : Nat) (x : Work) (r : Recipe) : Option Err :=
  let tab := (wordsFrom x.aAddr 48).map fun w => BitVec.ofNat 32 (s.rawWord t w)
  let used := r.inPorts ++ r.outPorts
  let fmts := used.map fun p => (portEntry tab p).2
  firstErr [
    errIf ((List.range 24).any fun p => decide ((tab.getD (2 * p + 1) 0).toNat ≠ 0) ||
      (!used.contains p && decide ((tab.getD (2 * p) 0).toNat ≠ 0))) .CMD_FIELD,
    errIf (fmts.any fun f => !fmtKnown f) .CMD_FIELD,
    errIf (x.profile = 1 && (fmts.any isMx || r.outPorts.any fun p => (portEntry tab p).2 = 7)) .PROFILE_FORMAT,
    errIf (x.sr && r.outPorts.any fun p => [0, 7, 8].contains (portEntry tab p).2) .PROFILE_FORMAT,
    errIf (fmts.any fun f => f = 7 || f = 0xFF) .OPERAND_FORMAT]

/-- What R96 excludes from stochastic rounding: an INT32 or XB40 source, and an FP32, INT32 or XB40 target. -/
def Work.srBad (x : Work) : Bool := x.sr && ([7, 8].contains x.aFmt || [0, 7, 8].contains x.outFmt)

/-- Check 8 of a COMPUTE; a format that the profile rules out comes before a mode (R114). -/
def State.check8 (s : State) (x : Work) (ts : List Nat) : Option Err :=
  let plain := fun f => isScalar f || isMx f
  match x.op with
  | 0 => firstErr [
      errIf (x.profile = 1 && (isMx x.aFmt || isMx x.bFmt || isBlock x.outFmt || x.flag0)) .PROFILE_FORMAT,
      errIf (!modeOk x.aFmt x.bFmt || !decide (x.outFmt ≤ 7)) .OPERAND_FORMAT]
  | 1 => firstErr ([errIf (x.profile = 1 && x.sr) .PROFILE_FORMAT,
      errIf (decide (x.recipe < 4) && ts.any fun t => (s.recipe t x.recipe).isNone) .ACCORD_SLOT_EMPTY] ++
      ts.map fun t => (s.recipe t x.recipe).bind (s.mapPorts t x))
  | 2 =>
    if x.flag0 then firstErr [errIf (x.profile = 1) .PROFILE_FORMAT, errIf (x.aFmt ≠ 0 || x.outFmt ≠ 8) .OPERAND_FORMAT]
    else firstErr [
      errIf (x.profile = 1 && (isMx x.aFmt || isBlock x.outFmt)) .PROFILE_FORMAT,
      errIf (!plain x.aFmt || !(plain x.outFmt || x.outFmt = 7)) .OPERAND_FORMAT]
  | 3 =>
    if x.flag0 then firstErr [errIf (x.profile = 1 || x.srBad) .PROFILE_FORMAT,
      errIf (!decide (x.aFmt ≤ 3) || !decide (1 ≤ x.outFmt ∧ x.outFmt ≤ 6)) .OPERAND_FORMAT]
    else firstErr [
      errIf (x.profile = 1 && (isBlock x.aFmt || isBlock x.outFmt || x.sr)) .PROFILE_FORMAT,
      errIf x.srBad .PROFILE_FORMAT,
      errIf (!(plain x.aFmt || x.aFmt = 7) || !plain x.outFmt) .OPERAND_FORMAT]
  | _ => none

/-! ### Checks 9 to 11 (R102, R172, R284, R286) -/

/-- Checks 9, 10 and 11 of a COMPUTE. -/
def State.check9to11 (s : State) (q : Nat) (x : Work) : Option Err :=
  let p := (s.queuePart q).getD 8
  firstErr [
    errIf ((x.op = 0 || x.op = 2) && decide (2 ^ 38 < x.totalK)) .REDUCE_TOO_LONG,
    errIf (s.on (R.CQ.STAT.EVAL q) && x.update) .EVAL_UPDATE,
    errIf (x.update && s.stepActive p && s.on (R.MOD.STEP_STAT.HALTED p)) .STEP_JUMP,
    errIf (x.update && s.stepActive p && decide (stepLimit ≤ s.rd (R.MOD.STEP_NUM p))) .STEP_EXHAUSTED,
    errIf (x.update && s.stepActive p && decide (x.step ≠ s.rd (R.MOD.STEP_NUM p))) .STEP_MISMATCH]

/-- The checks of a compute command's descriptor, and the work it gives. -/
def State.workChecks (s : State) (q e d : Nat) : Except Err Work :=
  let x := workOf e d
  let v := tileSetOf (field e 16 31 0)
  if !descShape d || !x.fieldsOk || !x.placeOk then .error .CMD_FIELD
  else
    given (s.resolve q e (v.tiles.map Prod.fst) x) (.error .BOUND_RANGE) fun y =>
      checked (firstErr [errIf (!y.shapeOk) .CMD_FIELD, s.check7 y v, s.check8 y (v.tiles.map Prod.fst), s.check9to11 q y])
        .error (.ok y)

/-- The checks of R182 on a COMPUTE: the first error, or the work with its bounds resolved. -/
def State.computeChecks (s : State) (q e : Nat) : State × Except Err Work :=
  checked (firstErr [errIf (!s.computeField q e) .CMD_FIELD, s.checkCounters q e, s.checkProfile e, s.checkTileSet q (field e 16 31 0)])
    (fun er => (s, .error er))
    (let r := s.readDesc q (field e 24 63 0)
     given r.2 (r.1, .error .DESC_READ) fun d => (r.1, s.workChecks q e d))

/-! ### Execution -/

/-- MX_STAT while a COMPUTE is in progress (R140): the model shows its last stage. -/
def State.mxShow (s : State) (t : Nat) (x : Work) : State :=
  let a := (s.wr (R.TILE.MX_STAT.BUSY t) 1).wr (R.TILE.MX_STAT.PROFILE t) x.profile
  if x.op = 0 then
    ((a.wr (R.TILE.MX_STAT.PHASE t) 4).wr (R.TILE.MX_STAT.PASS t) ((x.mtn * x.ntn - 1) % 2)).wr (R.TILE.MX_STAT.EXPBUF_USED t)
      (if x.profile = 2 then cdiv x.expEntries 16 else 0)
  else a

/-- One tile's share of a COMPUTE, with the Nose's copies of a sample unit (R384). -/
def State.runTile (s : State) (o : Owner) (x : Work) (t i j : Nat) : State :=
  let a := s.beginSample o t i j x
  ((a.1.runWork (some o) t i j x).endSample a.2).mxShow t x

/-- The first tile of the set whose share fails check 8 with `er`. -/
def State.formatTile (s : State) (q e : Nat) (er : Err) : Nat :=
  let ts := (tileSetOf (field e 16 31 0)).tiles.map Prod.fst
  let y := (s.readDesc q (field e 24 63 0)).2.bind fun d => s.resolve q e ts (workOf e d)
  ((ts.find? fun t => (y.bind fun x => s.check8 x [t]) = some er).or ts.head?).getD 0

/-- A COMPUTE faults at issue. OPERAND_FORMAT and ACCORD_SLOT_EMPTY are a tile's own codes (R151): the first tile of the set that
the rule fails in raises them (DESIGN CHOICE, log entry 69). -/
def State.faultCompute (s : State) (q e : Nat) (er : Err) : State :=
  if er = .OPERAND_FORMAT ∨ er = .ACCORD_SLOT_EMPTY then s.faultTile q e (s.formatTile q e er) er else s.faultHead q e er

/-- A COMPUTE at HEAD (R176, R182): it faults, waits, or issues and runs in every tile of its set. -/
def State.runCompute (s : State) (q i e : Nat) : State :=
  let r := s.computeChecks q e
  judged r.2 (fun er => r.1.faultCompute q e er) fun x =>
    if s.updateWait q e ≠ 0 then s
    else
      let v := (tileSetOf (field e 16 31 0)).tiles
      let f := r.1.newFlight q i e (v.map Prod.fst)
      v.foldl (fun u p => u.runTile f.owner x p.1 p.2.1 p.2.2) (r.1.issue q f)

/-- DFLAGS of the descriptor that a COMPUTE names, where it can be read. -/
def State.descFlag0 (s : State) (q e : Nat) : Bool :=
  match (s.queuePart q).bind fun p => s.peek p (field e 24 63 0) 128 with
  | some bs => fieldBit (leNat bs) 7 0
  | none => false

/-- The issue of a COMPUTE of operation `op`. -/
def State.issueCompute (s : State) (q op : Nat) (c : Nat → Bool) : State :=
  s.issueHead q (fun e => isCmd clsCompute op e && c e) (fun u i e => u.runCompute q i e)

/-- MATMUL and ANCHOR_ONLY (R139, R140, R162). -/
def execMatmul (q : Fin 64) (s : State) : Host.Outcome State Fault Refusal := .next (s.issueCompute q.val 0 fun e => !fieldBit e 32 0)
def execAnchorOnly (q : Fin 64) (s : State) : Host.Outcome State Fault Refusal := .next (s.issueCompute q.val 0 fun e => fieldBit e 32 0)
/-- MAP (R150). -/
def execMapCmd (q : Fin 64) (s : State) : Host.Outcome State Fault Refusal := .next (s.issueCompute q.val 1 fun _ => true)
/-- REDUCE and LIST_BUILD (R248, R530). -/
def execReduce (q : Fin 64) (s : State) : Host.Outcome State Fault Refusal := .next (s.issueCompute q.val 2 fun e => !s.descFlag0 q.val e)
def execListBuild (q : Fin 64) (s : State) : Host.Outcome State Fault Refusal := .next (s.issueCompute q.val 2 fun e => s.descFlag0 q.val e)
/-- CONVERT and PRUNED_CONVERT (R241, R530). -/
def execConvert (q : Fin 64) (s : State) : Host.Outcome State Fault Refusal := .next (s.issueCompute q.val 3 fun e => !s.descFlag0 q.val e)
def execPrunedConvert (q : Fin 64) (s : State) : Host.Outcome State Fault Refusal := .next (s.issueCompute q.val 3 fun e => s.descFlag0 q.val e)
/-- RECIPE_LOAD (R148, R150). An operation code that no row names is judged with this row. -/
def execRecipeLoad (q : Fin 64) (s : State) : Host.Outcome State Fault Refusal :=
  .next (s.issueHead q.val (fun e => decide (cmdClass e = clsCompute ∧ 4 ≤ cmdOp e)) fun u i e => u.runCompute q.val i e)

end Sys2Proof.Machine
end

