-- ==== Sys2Proof/Machine/Control.lean ====
section
/-! DEFINITION. WAIT with step gates (R167, R393), SIGNAL (R168), and the evaluation markers (R172, R304 to R306). -/

namespace Sys2Proof.Machine

/-- A command that completes at its issue: it issues, takes effect and ends. -/
def State.issueDone (s : State) (q i e : Nat) (g : State → State) : State :=
  (g (s.issue q (s.newFlight q i e []))).settle q i

/-- Bits 62 to 60 of the five body items are reserved (R167, R168). -/
def itemsReserved (e : Nat) : Bool := (List.range 5).all fun i => field e (16 + 8 * i) 62 60 = 0

/-- What classes without a profile or an operation of their own share of check 2. -/
def bareHeader (e : Nat) : Bool := headerReserved e && cmdProfile e = 0

/-! ### WAIT (R167, R393) -/

/-- The step of the gate that a WAIT is, if it is one: the value of its first enabled condition on the step counter of
its partition's active mechanism (R393). -/
def State.gateStep (s : State) (q e : Nat) : Option Nat :=
  match s.queuePart q with
  | none => none
  | some p =>
    if s.stepActive p then
      ((cmdItems e).find? fun x => decide (x.1 = s.rd (R.MOD.STEP_CFG.STEP_CTR p))).map Prod.snd
    else none

/-- RETAIN: the lowest index held by a valid gate entry, while the mechanism is active (R393). -/
def State.showRetain (s : State) (q : Nat) : State :=
  let held := ([0, 1].filter fun g => s.on (R.CQ.GATE_STEP.VALID q g)).map fun g => s.rd (R.CQ.GATE_IDX q g)
  match held with
  | [] => s
  | x :: r => s.wr (R.CQ.RETAIN q) (r.foldl (fun m y => if idxBefore y m then y else m) x)

/-- The gate entry that a gate for step `n` at ring index `i` takes: one that holds no step, else the one with the lower step
(R393). A gate that a replay issues again has its entry already (DEDUCED, log entry 109). -/
def State.gateSlot (s : State) (q i n : Nat) : Nat :=
  let valid := fun g => s.on (R.CQ.GATE_STEP.VALID q g)
  let step := fun g => s.rd (R.CQ.GATE_STEP.STEP q g)
  let same := fun g => valid g ∧ step g = n ∧ s.rd (R.CQ.GATE_IDX q g) = i
  if same 0 then 0 else if same 1 then 1
  else if !valid 0 then 0 else if !valid 1 then 1 else if step 0 ≤ step 1 then 0 else 1

/-- A step gate issues (R393). -/
def State.passGate (s : State) (q i n : Nat) : State :=
  let g := s.gateSlot q i n
  let p := (s.queuePart q).getD 8
  let a := ((s.wr (R.CQ.GATE_IDX q g) i).wr (R.CQ.GATE_STEP.STEP q g) n).wr (R.CQ.GATE_STEP.VALID q g) 1
  (a.onQ q fun v => { v with gate := some (n % 2 ^ 40, ((s.runOf p (n % 2 ^ 40)).map Run.att).getD 0) }).showRetain q

/-- A WAIT at HEAD whose conditions have held. -/
def State.runWait (s : State) (q i e : Nat) : State :=
  let ok := bareHeader e && cmdOp e = 0 && itemsReserved e && zeroBytes e 56 59 && s.deadlineOk q e
  match firstErr [errIf (!ok) .CMD_FIELD, s.checkCounters q e] with
  | some er => s.faultHead q e er
  | none =>
    s.issueDone q i e fun u =>
      match s.gateStep q e with
      | some n => u.passGate q i n
      | none => u

/-- WAIT (R167). -/
def execWaitCmd (q : Fin 64) (s : State) : Host.Outcome State Fault Refusal :=
  .next (s.issueHead q.val (fun e => cmdClass e = clsWait) fun u i e => u.runWait q.val i e)

/-! ### SIGNAL (R168) -/

/-- One body item of a SIGNAL. -/
def State.signalItem (s : State) (q op : Nat) (x : Nat × Nat) : State :=
  match op with
  | 0 => s.addCtr x.1 x.2 .signalAdd
  | 1 => s.setCtr x.1 x.2
  | _ => s.wr (R.CQ.BOUND q (x.1 % 8)) x.2

/-- The checkpoint of a step that opened since `before`: it is taken at the tick of the opening, with all that its SIGNAL does
(R394). -/
def State.takeCkpts (s before : State) : State :=
  s.mapRuns (fun r => r.ckpt.isSome && !before.nose.runs.any fun x => decide (x.part = r.part ∧ x.step = r.step)) fun r =>
    { r with ckpt := some (s.checkpoint r.part) }

/-- A SIGNAL at HEAD: its items in order, then its DONE_CTR. -/
def State.runSignal (s : State) (q i e : Nat) : State :=
  let ok := bareHeader e && decide (cmdOp e ≤ 2) && itemsReserved e && zeroBytes e 56 63 &&
    !(cmdOp e = 2 && (cmdItems e).any fun x => decide (8 ≤ x.1))
  match firstErr [errIf (!ok) .CMD_FIELD, s.checkCounters q e] with
  | some er => s.faultHead q e er
  | none => (s.issueDone q i e fun u => (cmdItems e).foldl (fun v x => v.signalItem q (cmdOp e) x) u).takeCkpts s

/-- SIGNAL_ADD, SIGNAL_SET and SIGNAL_BOUND (R168). An operation code that no row names is judged with the last. -/
def execSignalAdd (q : Fin 64) (s : State) : Host.Outcome State Fault Refusal :=
  .next (s.issueHead q.val (isCmd clsSignal 0) fun u i e => u.runSignal q.val i e)
def execSignalSet (q : Fin 64) (s : State) : Host.Outcome State Fault Refusal :=
  .next (s.issueHead q.val (isCmd clsSignal 1) fun u i e => u.runSignal q.val i e)
def execSignalBound (q : Fin 64) (s : State) : Host.Outcome State Fault Refusal :=
  .next (s.issueHead q.val (fun e => decide (cmdClass e = clsSignal ∧ 2 ≤ cmdOp e)) fun u i e => u.runSignal q.val i e)

/-! ### EVAL_BEGIN and EVAL_END (R172, R304, R306) -/

/-- An EVAL_BEGIN at HEAD. -/
def State.runEvalBegin (s : State) (q i e : Nat) : State :=
  let p := (s.queuePart q).getD 8
  let w := field e 24 7 0
  let ok := bareHeader e && cmdOp e = 0 && zeroBytes e 25 27 && zeroBytes e 32 63 &&
    (w = 0 || (w = 1 && s.stepActive p))
  match firstErr [errIf (!ok) .CMD_FIELD, s.checkCounters q e, errIf (s.on (R.CQ.STAT.EVAL q)) .EVAL_NEST] with
  | some er => s.faultHead q e er
  | none =>
    s.issueDone q i e fun u =>
      let base := field e 16 63 0
      let a := ((u.wr (R.CQ.EVAL_BASE q) (if base = 0 then u.time else base)).wr (R.CQ.EVAL_ID q) (field e 28 31 0)).wr
        (R.CQ.STAT.EVAL q) 1
      (a.onQ q fun v => { v with bracket := some (w, u.rd (R.MOD.STEP_NUM p)) }).showHold p

def execEvalBegin (q : Fin 64) (s : State) : Host.Outcome State Fault Refusal :=
  .next (s.issueHead q.val (fun e => cmdClass e = clsEvalBegin) fun u i e => u.runEvalBegin q.val i e)

/-- An EVAL_END at HEAD. -/
def State.runEvalEnd (s : State) (q i e : Nat) : State :=
  let p := (s.queuePart q).getD 8
  let ok := bareHeader e && cmdOp e = 0 && zeroBytes e 16 27 && zeroBytes e 32 63
  match firstErr [errIf (!ok) .CMD_FIELD, s.checkCounters q e,
      errIf (!s.on (R.CQ.STAT.EVAL q) || decide (field e 28 31 0 ≠ s.rd (R.CQ.EVAL_ID q))) .EVAL_NEST] with
  | some er => s.faultHead q e er
  | none =>
    s.issueDone q i e fun u =>
      let a := (u.wr (R.CQ.STAT.EVAL q) 0).wr (R.CQ.STAT.ABANDONING q) 0
      (a.onQ q fun v => { v with bracket := none, abandonAt := none }).showHold p

def execEvalEnd (q : Fin 64) (s : State) : Host.Outcome State Fault Refusal :=
  .next (s.issueHead q.val (fun e => cmdClass e = clsEvalEnd) fun u i e => u.runEvalEnd q.val i e)

end Sys2Proof.Machine
end

