-- ==== Sys2Proof/Machine/Stream.lean ====
section
/-! DEFINITION. STREAM commands: their checks (R165, R209 to R211, R230, R260, R280, R533), the cutting into transfers
(R212), the paths that move their data at issue, and run-ahead (R180). -/

namespace Sys2Proof.Machine

/-- The fields of a STREAM (R165). -/
def streamOf (e : Nat) : StreamWork :=
  { op := cmdOp e, src := field e 16 63 0, dst := field e 24 63 0, rows := field e 32 31 0, bytes := field e 36 31 0
    sStride := field e 40 31 0, dStride := field e 44 31 0, tileset := field e 48 31 0, sfmt := field e 52 7 0
    dfmt := field e 53 7 0, bcast := fieldBit e 54 0, kind := field e 55 7 4, eng := field e 55 3 0, profile := cmdProfile e }

/-- Whether the STREAM converts. -/
def StreamWork.converts (x : StreamWork) : Bool := x.sfmt ≠ x.dfmt

/-- The reserved bits of a memory address of spaces 0x2 and 0x3 are zero (R159). -/
def adrReservedOk (a : Nat) : Bool :=
  match adrSpace a with
  | 2 => bitsOf a 59 58 = 0 && bitsOf a 47 24 = 0
  | 3 => bitsOf a 59 58 = 0 && bitsOf a 47 44 = 0 && bitsOf a 39 24 = 0
  | _ => true

/-- Check 2 of a STREAM (R158, R159, R160, R164, R165). -/
def State.streamField (s : State) (q e : Nat) : Bool :=
  let x := streamOf e
  decide (x.op ≤ 2) && headerReserved e && field e 54 7 1 = 0 && zeroBytes e 57 59 && fmtKnown x.sfmt && fmtKnown x.dfmt &&
    (if x.converts then x.profile = 1 || x.profile = 2 else x.profile = 0) && decide (adrSpace x.src ≤ 2) &&
    [0, 1, 3].contains (adrSpace x.dst) && adrReservedOk x.src && adrReservedOk x.dst && decide (x.kind ≤ 3) &&
    (x.kind = 1 || x.eng = 0) && (!x.bcast || bitsOf x.tileset 31 21 = 0) && selOk (field e 56 3 0) && selOk (field e 56 7 4) &&
    s.deadlineOk q e

/-- What a source or destination address names (R253, R533): the bonded region of a tile, a stack or an aperture of this
node, another node, host memory, a scratchpad, a window, or an offset that maps onto nothing. -/
inductive End where
  | bond (t : Nat) | stack (k : Nat) | flash | node | host | spad (t : Nat) | win (t : Nat) | none
  deriving DecidableEq, Repr

/-- What an address names. -/
def State.endOf (s : State) (a : Nat) : End :=
  match adrSpace a with
  | 0 =>
    if !s.onNode a then .node
    else if adrOff a < bondEnd then .bond (adrOff a / bondBytes)
    else if stackBase ≤ adrOff a ∧ adrOff a < stackBase + 32 * blockBytes then .stack ((adrOff a - stackBase) / blockBytes)
    else if flashBase ≤ adrOff a ∧ adrOff a < flashBase + 192 * blockBytes then .flash
    else .none
  | 1 => .host
  | 2 => .spad (adrTile a)
  | 3 => .win (adrTile a)
  | _ => .none

/-- Whether Sillage can read an end (R209). -/
def End.sillSource (x : End) : Bool :=
  match x with
  | .stack _ | .flash | .node | .host => true
  | _ => false

/-- Whether an end is a destination that the carrier switch reaches. -/
def End.outside (x : End) : Bool := x.sillSource

/-- The engines assigned to partition `p`, ascending. -/
def State.enginesOf (s : State) (p : Nat) : List Nat := (List.range 16).filter fun e => nibblePart (s.act (R.MOD.SILL_ASSIGN e)) = some p

/-- Whether a READ is carried by Sillage (R210). -/
def State.bySillage (s : State) (x : StreamWork) : Bool := x.op = 0 && (x.kind = 1 || (x.kind = 0 && (s.endOf x.src).sillSource))

/-- Whether it is a gathered read (R230). -/
def StreamWork.gathered (x : StreamWork) : Bool := x.op = 0 && x.kind = 1 && adrSpace x.src = 2

/-- The byte address of a source or a destination within its space. -/
def byteBase (a : Nat) : Nat :=
  match adrSpace a with
  | 0 => adrOff a
  | 1 => adrHost a
  | _ => 4 * adrWord a

/-- The format and alignment limits of a conversion (R211, R533). SRC counts in bytes in every space (DEDUCED, log entry 81). -/
def StreamWork.convOk (x : StreamWork) : Bool :=
  !x.converts || (decide (x.sfmt ≤ 3 ∧ x.dfmt ≤ 3) && byteBase x.src % 16 = 0 && x.bytes % 16 = 0)

/-- The word alignment of a STREAM into a window (R211, R533). SRC counts in bytes in every space (DEDUCED, log entry 81). -/
def StreamWork.wordOk (x : StreamWork) : Bool :=
  byteBase x.src % 4 = 0 && x.bytes % 4 = 0 && x.sStride % 4 = 0 && x.dStride % 4 = 0

/-- Whether a tile belongs to partition `p`. -/
def State.inPart (s : State) (p t : Nat) : Bool := decide (t < Config.tiles) && decide (s.partOfRow (t / 40) = some p)

/-- Bytes of an address's space from its base on: of its node's offsets, or of host memory (R159). -/
def spaceBytes (a : Nat) : Nat := if adrSpace a = 0 then 2 ^ 44 else 2 ^ 60

/-- Whether the source rows of a STREAM stay in the node, or in the host memory, that SRC names. -/
def StreamWork.rowsFit (x : StreamWork) : Bool := decide (byteBase x.src + (x.rows - 1) * x.sStride + x.bytes ≤ spaceBytes x.src)

/-- Check 11 of a STREAM that Sillage carries (R165, R209, R210, R211, R230). Rows that leave SRC's node name no source of R209
(DESIGN CHOICE, log entry 79). -/
def State.sillRoute (s : State) (p : Nat) (x : StreamWork) : Option Err :=
  let tileOk := x.bcast || decide (adrTile x.dst < Config.tiles)
  firstErr [
    errIf (if x.kind = 1 then !(s.enginesOf p).contains x.eng else (s.enginesOf p).isEmpty) .CMD_FIELD,
    errIf (!(x.gathered || ((s.endOf x.src).sillSource && x.rowsFit)) || adrSpace x.dst ≠ 3 || !tileOk || !x.wordOk || !x.convOk) .SILL_ROUTE,
    errIf (x.gathered && !s.inPart p (adrTile x.src)) .PARTITION_CROSS]

/-- Whether an address of space 0x0 names a gateway node (R338). -/
def State.atGateway (s : State) (a : Nat) : Bool := adrSpace a = 0 && !s.onNode a && s.nodeKind (adrNode a) = 3

/-- Whether a STREAM into flash keeps the alignment of R280. -/
def State.flashOk (s : State) (x : StreamWork) : Bool :=
  decide (s.endOf x.dst ≠ .flash) || (adrOff x.dst % 16384 = 0 && x.bytes % 16384 = 0 && x.dStride % 16384 = 0)

/-- Check 11 of a MOVE (R260, R280, R338). -/
def State.moveRoute (s : State) (x : StreamWork) : Option Err :=
  firstErr [errIf (s.atGateway x.src || s.atGateway x.dst) .FAB_GATEWAY,
    errIf (!(adrSpace x.src = 0 && adrSpace x.dst = 0 && s.onNode x.src && adrOff x.src % granBytes = 0 &&
    adrOff x.dst % granBytes = 0 && x.rows = 1 && x.bytes % granBytes = 0 && x.sfmt = 0xFF && x.dfmt = 0xFF && !x.bcast &&
    x.kind = 0 && s.flashOk x)) .MEM_ALIGN]

/-- Check 11 of any other STREAM: the rows of R533, then the alignment of R280. -/
def State.memRoute (s : State) (p : Nat) (x : StreamWork) : Option Err :=
  let legal := match x.op, s.endOf x.src, s.endOf x.dst with
    | 0, .bond _, .win u => (x.kind = 0 || x.kind = 2) && s.inPart p u && x.wordOk
    | 0, .spad t, .win u => (x.kind = 0 || x.kind = 3) && s.inPart p t && s.inPart p u && x.wordOk
    | 1, .spad t, .bond u => (x.kind = 0 || x.kind = 2) && decide (t = u)
    | 1, .spad t, d => x.kind = 0 && decide (t < Config.tiles) && d.outside
    | 1, .bond _, d => x.kind = 0 && d.outside
    | 1, .stack _, .bond _ => x.kind = 0
    | 1, .flash, .bond _ => x.kind = 0
    | 1, .stack _, d => x.kind = 0 && d.outside
    | 1, .flash, d => x.kind = 0 && d.outside
    | _, _, _ => false
  let dead := fun t => decide (x.op = 1 ∧ s.endOf x.src = .spad t) && !s.inPart p t
  firstErr [
    errIf (!legal || x.bcast || !x.convOk) .MEM_ROUTE,
    errIf (dead (adrTile x.src)) .PARTITION_CROSS,
    errIf (!s.flashOk x) .MEM_ALIGN]

/-- The checks of R182 on a STREAM: the first error, or the STREAM with its bounds resolved. -/
def State.streamChecks (s : State) (q e : Nat) : Except Err StreamWork :=
  let p := (s.queuePart q).getD 8
  let x := streamOf e
  checked (firstErr [errIf (!s.streamField q e) .CMD_FIELD, s.checkCounters q e, s.checkProfile e,
      if x.bcast then s.checkTileSet q x.tileset else none]) .error
    (given (s.bound q (field e 56 3 0) x.rows 32) (.error .BOUND_RANGE) fun r =>
      given (s.bound q (field e 56 7 4) x.bytes 32) (.error .BOUND_RANGE) fun b =>
        let y := { x with rows := r, bytes := b }
        checked (firstErr [errIf (decide (r = 0 ∨ b = 0)) .BOUND_RANGE,
            errIf (y.converts && y.profile = 1 && (isMx y.sfmt || isMx y.dfmt || y.sfmt = 7 || y.dfmt = 7)) .PROFILE_FORMAT,
            if s.bySillage y then s.sillRoute p y else if y.op = 2 then s.moveRoute y else s.memRoute p y])
          .error (.ok y))

/-! ### Transfers (R212) -/

/-- The largest transfer, in bytes. -/
def xferBytes : Nat := 16384

/-- The pieces of a row of `b` bytes from byte address `a`: the offset in the row and the bytes of each. -/
def cuts (a b : Nat) : List (Nat × Nat) :=
  (List.range (cdiv (a % xferBytes + b) xferBytes)).map fun i =>
    let lo := if i = 0 then 0 else i * xferBytes - a % xferBytes
    let hi := min b ((i + 1) * xferBytes - a % xferBytes)
    (lo, hi - lo)

/-- Bytes of one element of a format that a STREAM may convert. -/
def fmtBytes (f : Nat) : Nat := elemBits f / 8

/-- The destination bytes of `n` source bytes. -/
def StreamWork.dstBytes (x : StreamWork) (n : Nat) : Nat := if x.converts then n / fmtBytes x.sfmt * fmtBytes x.dfmt else n

/-- Converts bytes from one format to another, rounding to nearest (R95, R96, R165). -/
def convertBytes (sfmt dfmt : Nat) (bs : List Byte) : List Byte :=
  if sfmt = dfmt then bs
  else
    let b := fmtBytes sfmt
    (List.range (bs.length / b)).flatMap fun i =>
      leBytes (fmtBytes dfmt) (elemEnc dfmt .nearest (elemVal sfmt (leNat ((bs.drop (i * b)).take b))))

/-- The pieces of row `r` of a STREAM, whose source starts at byte address `a`. -/
def StreamWork.rowPieces (x : StreamWork) (a r : Nat) : List Piece :=
  (cuts a x.bytes).map fun c => ⟨a + c.1, c.2, r * x.dStride + x.dstBytes c.1⟩

/-- The pieces of a STREAM, row by row, for the rows that start at the byte addresses `starts`. -/
def StreamWork.pieces (x : StreamWork) (starts : List Nat) : List Piece :=
  starts.zipIdx.flatMap fun r => x.rowPieces r.1 r.2

/-- The rows of a STREAM. -/
def StreamWork.starts (x : StreamWork) : List Nat := (List.range x.rows).map fun r => byteBase x.src + r * x.sStride

/-! ### Paths that move their data at issue (R269, R533) -/

/-- Bytes `a` to `a + n - 1` of a tile's scratchpad. -/
def State.spadBytes (s : State) (o : Option Owner) (t a n : Nat) : State × Except Err (List Byte) :=
  match s.spadReads o t (wordsFrom (a / 4) ((a + n + 3) / 4 - a / 4)) with
  | (u, .error e) => (u, .error e)
  | (u, .ok ws) => (u, .ok (((bytesOfWords ws).drop (a % 4)).take n))

/-- Reads a piece at its source. -/
def State.readPiece (s : State) (o : Owner) (x : StreamWork) (c : Piece) : State × Except Err (List Byte) :=
  match s.endOf x.src with
  | .spad t => s.spadBytes (some o) t c.src c.n
  | .host => s.hostGet o c.src c.n
  | _ => s.memRead (some o) (.part o.part) c.src c.n

/-- The length of the first seal span of a piece: it ends with its source's block; what a conversion has made begins one (R374,
R375). -/
def StreamWork.spanFrom (x : StreamWork) (c : Piece) : Nat := if x.converts then 512 else firstSpan c.src

/-- The tile that sends a piece to a window: the source scratchpad's, or that of the bonded region read. -/
def State.sendTile (s : State) (x : StreamWork) : Nat :=
  match s.endOf x.src with
  | .spad t | .bond t => t
  | _ => 0

/-- Writes a piece at a destination that answers at once: a window, host memory, or a tier of this node. -/
def State.writePiece (s : State) (o : Owner) (x : StreamWork) (c : Piece) (bs : List Byte) : State × Option Err :=
  match s.endOf x.dst with
  | .win t =>
    s.remoteWrite (landingOf t (adrWin x.dst) (adrWord x.dst + c.dst / 4) (wordsOfBytes bs) (.tile (s.sendTile x)) (some o) x.profile
      (x.spanFrom c))
  | .host => s.hostPut o true (adrHost x.dst + c.dst) bs
  | _ =>
    let z := s.carry (x.spanFrom c) bs
    z.1.sealedWrite (some o) (.part o.part) (adrOff x.dst + c.dst) (x.spanFrom c) z.2.1 z.2.2

/-- Moves the pieces in order; the first that fails ends the STREAM. -/
def State.movePieces (s : State) (o : Owner) (x : StreamWork) (ps : List Piece) : State :=
  match ps with
  | [] => s
  | c :: r =>
    match s.readPiece o x c with
    | (a, .error e) => a.flightErr (some o) e
    | (a, .ok bs) =>
      match a.writePiece o x c (convertBytes x.sfmt x.dfmt bs) with
      | (b, some e) => b.flightErr (some o) e
      | (b, none) => b.movePieces o x r

/-! ### Slots, and work in progress (R181, R261 to R263) -/

/-- Changes what STREAMs have in progress. -/
def State.onStream (s : State) (g : StreamSt → StreamSt) : State := { s with stream := g s.stream }

/-- Transfers that queue `q` has outstanding (R181). -/
def State.heldBy (s : State) (q : Nat) : Nat := Cells.get 0 s.stream.held q

/-- Whether queue `q` may have a further transfer outstanding (R181). -/
def State.queueRoom (s : State) (q : Nat) : Bool := decide (s.heldBy q < max 1 (s.rd (R.CQ.CTRL.MAX_OUT q)))

/-- Queue `q` takes a slot, or gives `n` back. -/
def State.takeSlot (s : State) (q : Nat) : State :=
  s.onStream fun m => { m with held := Cells.put 0 m.held q (Cells.get 0 m.held q + 1) }
def State.giveSlots (s : State) (q n : Nat) : State :=
  s.onStream fun m => { m with held := Cells.put 0 m.held q (Cells.get 0 m.held q - n) }

/-- One piece of the work of a command is done. -/
def State.pieceDone (s : State) (o : Owner) : State := s.onFlight o.queue o.idx fun f => { f with left := f.left - 1 }

/-- The transfers of a command's work that are still to be sent are dropped; those of a WRITE count as done. -/
def State.dropPosts (s : State) (o : Owner) : State :=
  let mine := fun (p : Post) => decide (p.owner.queue = o.queue ∧ p.owner.idx = o.idx)
  let n := ((s.stream.posts.filter fun p => mine p && p.gran.isNone).map fun p => p.rest.length).sum
  (s.onStream fun m => { m with posts := m.posts.filter fun p => !mine p }).onFlight o.queue o.idx fun f => { f with left := f.left - n }

/-- The MOVE of a command. -/
def State.moveOf (s : State) (q i : Nat) : Option Move := s.stream.moves.find? fun m => decide (m.owner.queue = q ∧ m.owner.idx = i)

/-- Replaces a MOVE. -/
def State.setMove (s : State) (m m' : Move) : State :=
  s.onStream fun x => { x with moves := x.moves.map fun y => if y = m then m' else y }

/-- Whether a MOVE's destination is on this node. -/
def State.moveLocal (s : State) (m : Move) : Bool := decide (adrNode m.dst = s.rd R.MOD.FAB_NODE.NODE)

/-- The offsets of granule `k` of a MOVE, at its source and at its destination. -/
def Move.from (m : Move) (k : Nat) : Nat := m.src + k * granBytes
def Move.to (m : Move) (k : Nat) : Nat := adrOff m.dst + k * granBytes

/-- A granule at an offset goes to another state with its owner. -/
def State.turnGran (s : State) (off st : Nat) : State :=
  match s.mapped off with
  | .ok p => s.moveGran p.gran ⟨st, if st = 0 then 0 else (s.gran p.gran).ctx⟩
  | .error _ => s

/-- The transfers of a granule: 16 KiB each (R212), their bytes counted from the granule's start. -/
def granPieces : List Piece := (List.range 128).map fun i => ⟨i * xferBytes, xferBytes, i * xferBytes⟩

/-- The transfers of granule `k` of a MOVE. -/
def Move.post (m : Move) (k : Nat) : Post :=
  let w : StreamWork := ⟨2, m.from k, m.dst / 2 ^ 44 * 2 ^ 44 + m.to k, 1, granBytes, 0, 0, 0, 0xFF, 0xFF, false, 0, 0, 0⟩
  ⟨m.owner, some k, w, granPieces⟩

/-- Whether transfers of granule `k` of a MOVE are still to be sent. -/
def State.posting (s : State) (m : Move) (k : Nat) : Bool :=
  s.stream.posts.any fun p => decide (p.owner = m.owner ∧ p.gran = some k)

/-- The transfers of granule `k` of a MOVE that hold slots of its queue: those that have started (R181). -/
def State.granHeld (s : State) (m : Move) (k : Nat) : Nat :=
  granPieces.length - (((s.stream.posts.find? fun p => decide (p.owner = m.owner ∧ p.gran = some k)).map fun p => p.rest.length).getD 0)

/-- A MOVE fails: each granule that is OUT, and each destination that is IN, returns to HOME; what it has not sent is dropped; the
STREAM ends with the code (R263). -/
def State.loseMove (s : State) (m : Move) (e : Err) : State :=
  let out := (List.range (m.out - m.flipped)).map fun i => m.flipped + i
  let slots := if s.moveLocal m then (out.map (s.granHeld m)).sum else 0
  let a := out.foldl (fun u k =>
    let v := u.turnGran (m.from k) 2
    if s.moveLocal m then v.turnGran (m.to k) 2 else v) s
  let b := (a.onStream fun x => { x with moves := x.moves.erase m }).onFlight m.owner.queue m.owner.idx fun f =>
    { f with left := f.left - (m.total - m.flipped) }
  ((b.dropPosts m.owner).flightErr (some m.owner) e).giveSlots m.owner.queue slots

/-! ### Transfers to another node (R181, R212, R344, R361) -/

/-- Sends the destination bytes of transfer `n` as frames of at most 16 KiB (R344, R361; DEDUCED, log entry 89); `off` counts in
the destination's node. -/
def State.sendFrames (s : State) (o : Owner) (x : StreamWork) (n off first : Nat) (bs : List Byte) (k : Nat) : State × Option Err :=
  match k with
  | 0 => (s, none)
  | k + 1 =>
    let d := bs.take xferBytes
    match s.request (adrNode x.dst) off o.part (.write d (sealsOf first d) first) (.write o n) with
    | (a, some e) => (a.raiseFor (some o) (pgCQ o.queue) e, some e)
    | (a, none) => a.sendFrames o x n (off + xferBytes) 512 (bs.drop xferBytes) k

/-- One transfer of a WRITE to another node leaves: read at its source, converted, and sent. -/
def State.postWrite (s : State) (o : Owner) (x : StreamWork) (c : Piece) : State × Option Err :=
  match s.readPiece o x c with
  | (a, .error e) => (a, some e)
  | (a, .ok bs) =>
    let d := convertBytes x.sfmt x.dfmt bs
    let b := a.onStream fun m => { m with nextId := m.nextId + 1 }
    b.sendFrames o x a.stream.nextId (adrOff x.dst + c.dst) (x.spanFrom c) d (cdiv d.length xferBytes)

/-- One transfer of a granule of a MOVE starts. To another node it leaves (R361, R366): its data was checked as the granule went OUT.
On this node its copy ends with the granule's (log entry 82). -/
def State.postMove (s : State) (o : Owner) (x : StreamWork) (g : Nat) (c : Piece) : State × Option Err :=
  if s.onNode x.dst then (s, none) else
  match s.mapped (x.src + c.src) with
  | .error e => (s.raiseFor (some o) (s.pageOfOffset (x.src + c.src)) e, some e)
  | .ok p =>
    let bs := s.bytesAt p c.n
    match s.request (adrNode x.dst) (adrOff x.dst + c.dst) o.part (.moveData bs (sealsOf 512 bs) 512 x.src) (.move o g) with
    | (a, some e) => (a.raiseFor (some o) (pgCQ o.queue) e, some e)
    | (a, none) => (a, none)

/-- One transfer of a post leaves. -/
def State.postOne (s : State) (p : Post) (c : Piece) : State × Option Err :=
  match p.gran with
  | none => s.postWrite p.owner p.work c
  | some g => s.postMove p.owner p.work g c

/-- A MOVE fails at granule `k`: once the granules before it have flipped (R263). What is left of it from there is not sent. -/
def State.moveFails (s : State) (m : Move) (k : Nat) (e : Err) : State :=
  if k ≤ m.flipped then s.loseMove m e
  else
    let a := s.onStream fun x => { x with
      posts := x.posts.filter fun p => !(decide (p.owner = m.owner) && p.gran.any fun g => decide (k ≤ g)) }
    a.setMove m { m with failed := if m.failed.any fun x => decide (x.1 ≤ k) then m.failed else some (k, e) }

/-- A transfer of a post fails as it leaves: the WRITE, or the MOVE, ends with the code. -/
def State.postFails (s : State) (p : Post) (e : Err) : State :=
  match p.gran, s.moveOf p.owner.queue p.owner.idx with
  | some g, some m => s.moveFails m g e
  | _, _ => (s.flightErr (some p.owner) e).dropPosts p.owner

/-- Transfers of queue `q` leave while it has free slots. -/
def State.pumpPosts (s : State) (q n : Nat) : State :=
  match n with
  | 0 => s
  | n + 1 =>
    if !s.queueRoom q then s
    else
      match s.stream.posts.find? fun p => decide (p.owner.queue = q) with
      | none => s
      | some p =>
        match p.rest with
        | [] => (s.onStream fun m => { m with posts := m.posts.erase p }).pumpPosts q n
        | c :: r =>
          match s.postOne p c with
          | (a, none) =>
            ((a.onStream fun m => { m with posts := m.posts.map fun y => if y = p then { p with rest := r } else y }).takeSlot q).pumpPosts q n
          | (a, some e) => (a.postFails p e).pumpPosts q n

/-- What queue `q` has to send leaves, as far as its slots allow. -/
def State.sendPosts (s : State) (q : Nat) : State := s.pumpPosts q ((s.stream.posts.map fun p => p.rest.length + 1).sum)

/-- A transfer of queue `q` is over: its slot is free for the next (R181). -/
def State.freeSlot (s : State) (q : Nat) : State := (s.giveSlots q 1).sendPosts q

/-- A MOVE fails, and its slots are free for other transfers (R181, R263). -/
def State.failMove (s : State) (m : Move) (e : Err) : State := (s.loseMove m e).sendPosts m.owner.queue

/-- A MOVE that has failed at its next granule to flip ends (R263). -/
def State.endFailed (s : State) (o : Owner) : State :=
  given (s.moveOf o.queue o.idx) s fun m =>
    match m.failed with
    | some (k, e) => if k ≤ m.flipped then s.failMove m e else s
    | none => s

/-- A frame of transfer `n` of a WRITE has been answered: with the last, the transfer is over. -/
def State.frameDone (s : State) (o : Owner) (n : Nat) : State :=
  if s.fab.txns.any fun t => decide (t.kind = .write o n) then s else (s.pieceDone o).freeSlot o.queue

/-- The pieces of a WRITE to another node are queued, and leave as slots allow. -/
def State.postPieces (s : State) (o : Owner) (x : StreamWork) (ps : List Piece) : State :=
  let a := s.onStream fun m => { m with posts := m.posts ++ [⟨o, none, x, ps⟩] }
  (a.onFlight o.queue o.idx fun f => { f with left := f.left + ps.length }).sendPosts o.queue

/-! ### Transfers that Sillage carries (R210, R213, R230 to R232) -/

/-- The engine of a transfer from byte `src` of the source's space (R210). -/
def State.engineFor (s : State) (p : Nat) (x : StreamWork) (base src : Nat) : Nat :=
  if x.kind = 1 then x.eng
  else
    let es := s.enginesOf p
    let a := if adrSpace base = 0 then adrNode base * 2 ^ 44 + src else src
    let spread := es.getD (bitsOf a 59 14 % es.length) 0
    match s.endOf (adrSpace base * 2 ^ 60 + a) with
    | .stack k => if es.contains (k / 2) then k / 2 else spread
    | _ => spread

/-- The destination tiles of a STREAM. -/
def StreamWork.dests (x : StreamWork) : List Nat :=
  if x.bcast then (tileSetOf x.tileset).tiles.map Prod.fst else [adrTile x.dst]

/-- Queues the transfers of pieces whose sources lie in the space of address `base`; its slots are taken later, at
acceptance. -/
def State.queueXfers (s : State) (o : Owner) (x : StreamWork) (base : Nat) (ps : List Piece) : State :=
  let full := fun c => if adrSpace base = 0 then adrNode base * 2 ^ 44 + c else 2 ^ 60 + c
  let xs := ps.zipIdx.map fun c =>
    (s.engineFor o.part x base c.1.src,
      (⟨s.stream.nextId + c.2, o, full c.1.src, c.1.n, x.sfmt, x.dfmt, x.dests, adrWin x.dst,
        adrWord x.dst + c.1.dst / 4, x.profile⟩ : Xfer))
  let a := { s with stream := { s.stream with waiting := s.stream.waiting ++ xs, nextId := s.stream.nextId + xs.length } }
  a.onFlight o.queue o.idx fun f => { f with left := f.left + xs.length }

/-- A gathered read ends with an error that the engine raises (R232). -/
def State.gatherFail (s : State) (o : Owner) (x : StreamWork) (e : Err) : State :=
  (s.raiseFor (some o) (pgSILL x.eng) e).flightErr (some o) e

/-- A gathered read issues (R230 to R232): the engine reads words 0 to 3 of the row list. -/
def State.gather (s : State) (o : Owner) (x : StreamWork) : State :=
  match s.spadReads (some o) (adrTile x.src) (wordsFrom (adrWord x.src) 4) with
  | (a, .error e) => a.flightErr (some o) e
  | (a, .ok h) =>
    let at_ := fun i => (h.getD i 0).toNat
    let count := bitsOf (at_ 1) 23 0
    let base := at_ 2 + at_ 3 * 2 ^ 32
    if at_ 0 ≠ listMagic ∨ bitsOf (at_ 1) 31 24 ≠ 0 ∨ 1 < adrSpace base then a.gatherFail o x .GATHER_LIST
    else if x.rows < count then a.gatherFail o x .GATHER_COUNT
    else if count = 0 then a
    else
      (a.onStream fun m => { m with gathers := m.gathers ++ [⟨o, x, base, count, 0, none⟩] }).onFlight o.queue o.idx fun f =>
        { f with left := f.left + 1 }

/-- The memory address of row `i` of the dense array of a gathered read. -/
def Gather.rowAddr (g : Gather) (i : Nat) : Nat := adrSpace g.base * 2 ^ 60 + (bitsOf g.base 59 0 + i * g.work.sStride) % 2 ^ 60

/-- Where row `i` starts in the space of BASE. -/
def Gather.rowStart (g : Gather) (i : Nat) : Nat := byteBase g.base + i * g.work.sStride

/-- A gathered read has no further row to read. -/
def State.endGather (s : State) (g : Gather) : State :=
  (s.onStream fun m => { m with gathers := m.gathers.erase g }).onFlight g.owner.queue g.owner.idx fun f => { f with left := f.left - 1 }

/-- The next index of a gathered read is read, and its row is cut into transfers (R232). A row in the bonded tier, which no
engine reads, or one that leaves BASE's node, ends the READ with SILL_ROUTE (R209; DESIGN CHOICE, log entry 79). -/
def State.gatherNext (s : State) (g : Gather) : State :=
  let o := g.owner
  match s.spadReads (some o) (adrTile g.work.src) [adrWord g.work.src + 4 + g.next] with
  | (a, .error e) => (a.flightErr (some o) e).endGather g
  | (a, .ok ws) =>
    let i := (ws.headD 0).toNat
    let row := g.rowAddr i
    if g.prev.any fun p => decide (i ≤ p) then (a.gatherFail o g.work .GATHER_LIST).endGather g
    else if spaceBytes g.base < g.rowStart i + g.work.bytes ∨ (adrSpace row = 0 ∧ s.onNode row ∧ adrOff row < bondEnd) then (a.gatherFail o g.work .SILL_ROUTE).endGather g
    else
      let b := (a.bump (R.SILL.GATHER_ROWS g.work.eng) 1).queueXfers o g.work row (g.work.rowPieces (byteBase row) g.next)
      if g.next + 1 < g.count then
        b.onStream fun m => { m with gathers := m.gathers.map fun y => if y = g then { g with next := g.next + 1, prev := some i } else y }
      else b.endGather g

/-- Gathered reads of engine `e` read their next index as slots free: those whose queue has a slot, and whose rows so far have all
been accepted (R232). -/
def State.feedGathers (s : State) (e : Nat) : State :=
  (s.stream.gathers.filter fun g => decide (g.work.eng = e)).foldl (fun u g =>
    if u.queueRoom g.owner.queue ∧ !u.stream.waiting.any fun y => decide (y.2.owner.queue = g.owner.queue ∧ y.2.owner.idx = g.owner.idx)
    then u.gatherNext g else u) s

/-! ### MOVE (R261) -/

/-- A MOVE starts: its granules are yet to go OUT. -/
def State.startMove (s : State) (o : Owner) (x : StreamWork) : State :=
  let n := x.bytes / granBytes
  ({ s with stream := { s.stream with moves := s.stream.moves ++ [(⟨o, adrOff x.src, bitsOf x.dst 59 0, n, 0, 0, none⟩ : Move)] } }).onFlight
    o.queue o.idx fun f => { f with left := f.left + n }

/-! ### Issue -/

/-- Starts the work of an issued STREAM. -/
def State.startStream (s : State) (o : Owner) (x : StreamWork) : State :=
  if x.gathered then s.gather o x
  else if s.bySillage x then s.queueXfers o x x.src (x.pieces x.starts)
  else if x.op = 2 then s.startMove o x
  else if s.endOf x.dst = .node then s.postPieces o x (x.pieces x.starts)
  else s.movePieces o x (x.pieces x.starts)

/-- Whether an engine has the supply of its edge, VEDGE, which is rail group 4 (R399). -/
def State.edgeOn (s : State) (e : Nat) : Bool := Cells.get false s.power.rails (4 * 128 + e / 4)

/-- Whether an engine accepts transfers: enabled, supplied, and with a free slot (R233). -/
def State.engineOpen (s : State) (e : Nat) : Bool :=
  s.on (R.PG.CTRL.EN (pgSILL e)) && s.edgeOn e && decide (s.rd (R.SILL.STAT.SLOTS_USED e) < 512)

/-- The engine that a STREAM's first transfer needs, if Sillage carries it and its partition has that engine (R210). -/
def State.firstEngine (s : State) (p : Nat) (x : StreamWork) : Option Nat :=
  if !s.bySillage x then none
  else
    let e := if x.kind = 1 then x.eng else s.engineFor p x x.src (byteBase x.src)
    if (s.enginesOf p).contains e then some e else none

/-- Whether a STREAM finds a free slot for its first transfer (R176, R181, R233). -/
def State.slotFree (s : State) (q : Nat) (x : StreamWork) : Bool :=
  s.queueRoom q && ((s.firstEngine ((s.queuePart q).getD 8) x).all s.engineOpen)

/-- The tiles whose scratchpads a STREAM reads or writes. -/
def State.streamTiles (s : State) (x : StreamWork) : List Nat :=
  (match s.endOf x.src with
    | .spad t => [t]
    | _ => []) ++ (if adrSpace x.dst = 3 then x.dests else [])

/-- A STREAM at HEAD: it waits for slots; then its checks run, and it faults or issues (R176). -/
def State.runStream (s : State) (q i e : Nat) : State :=
  if !s.slotFree q (streamOf e) then (s.wr (R.CQ.STAT.WAIT_WHY q) 3).wr (R.CQ.STAT.STATE q) 2
  else
    judged (s.streamChecks q e) ((s.wr (R.CQ.STAT.WAIT_WHY q) 0).faultHead q e) fun x =>
      let f := s.newFlight q i e (s.streamTiles x)
      ((s.issue q f).wr (R.CQ.STAT.WAIT_WHY q) 0).startStream f.owner x

/-- STREAM READ, the gathered READ, WRITE and MOVE (R165, R210, R232, R261, R533). -/
def execStreamRead (q : Fin 64) (s : State) : Host.Outcome State Fault Refusal :=
  .next (s.issueHead q.val (fun e => isCmd clsStream 0 e && !(streamOf e).gathered) fun u i e => u.runStream q.val i e)
def execGatheredRead (q : Fin 64) (s : State) : Host.Outcome State Fault Refusal :=
  .next (s.issueHead q.val (fun e => isCmd clsStream 0 e && (streamOf e).gathered) fun u i e => u.runStream q.val i e)
def execStreamWrite (q : Fin 64) (s : State) : Host.Outcome State Fault Refusal :=
  .next (s.issueHead q.val (isCmd clsStream 1) fun u i e => u.runStream q.val i e)
/-- An operation code that no row names is judged with this row. -/
def execStreamMove (q : Fin 64) (s : State) : Host.Outcome State Fault Refusal :=
  .next (s.issueHead q.val (fun e => decide (cmdClass e = clsStream ∧ 2 ≤ cmdOp e)) fun u i e => u.runStream q.val i e)

/-! ### Run-ahead (R180) -/

/-- Whether the scan passes over a command without issuing it. -/
def scanPasses (e : Nat) : Bool :=
  !cmdFence e && (cmdClass e = clsCompute || cmdClass e = clsCollective || (cmdClass e = clsSignal && cmdOp e < 2))

/-- Whether the scan may issue a command. -/
def scanIssues (e : Nat) : Bool := cmdClass e = clsStream && !cmdFence e && !cmdWaitEn e

/-- A run-ahead issue of the STREAM with index `i`: none where it finds no slot. A STREAM that faults is remembered, and
faults the queue once HEAD reaches it (R183). -/
def State.issueAhead (s : State) (q i e : Nat) : Option State :=
  let s := s.ringFetch q i
  if !s.slotFree q (streamOf e) then none
  else some (judged (s.streamChecks q e)
    (fun er => s.onQ q fun v => { v with ahead := v.ahead ++ [i], faults := v.faults ++ [⟨i, er, cmdTag e, true, false⟩] })
    fun x =>
      let f := s.newFlight q i e (s.streamTiles x)
      let a := s.onQ q fun v => { v with flights := v.flights ++ [f], ahead := v.ahead ++ [i] }
      ((a.bump (R.CQ.ISSUED q) 1).bump (R.CQ.RUNAHEAD q) 1).startStream f.owner x)

/-- The scan from index `i` over at most `n` commands. It goes on past a STREAM that faults at its checks, and stops without a fault
at an entry that cannot be read: R180 names neither (DESIGN CHOICE, log entry 106). -/
def State.scanAhead (s : State) (q i n : Nat) : State :=
  match n with
  | 0 => s
  | n + 1 =>
    if i = s.rd (R.CQ.TAIL q) then s
    else if (s.q q).ahead.contains i then s.scanAhead q (idxAdd i 1) n
    else
      given (s.entryAt q i) s fun e =>
        if scanPasses e then s.scanAhead q (idxAdd i 1) n
        else if scanIssues e ∧ i ≠ s.nextIdx q then
          given (s.issueAhead q i e) s fun a => a.scanAhead q (idxAdd i 1) n
        else s

/-- RUN_AHEAD (R180): one scan of queue `q` from HEAD. -/
def execRunAhead (q : Fin 64) (s : State) : Host.Outcome State Fault Refusal :=
  .next (if s.mayIssue q.val then s.scanAhead q.val (s.nextIdx q.val) (s.rd (R.CQ.CTRL.RUNAHEAD q.val)) else s)

end Sys2Proof.Machine
end

