-- ==== Sys2Proof/Machine/Training.lean ====
section
/-! DEFINITION. The step mechanism (R283 to R289, R301, R302): enabling, the flip, and the slow verdict. -/

namespace Sys2Proof.Machine

/-- Changes what the Nose holds. -/
def State.onNose (s : State) (g : NoseSt → NoseSt) : State := { s with nose := g s.nose }

/-- Whether peer entries 0 to PEERS − 1 of partition `p` are all valid (R283). -/
def State.peersValid (s : State) (p : Nat) : Bool :=
  (List.range (s.rd (R.MOD.STEP_CTRL.PEERS p))).all fun k => s.on (R.MOD.STEP_PEER.VALID p k)

/-- Whether counter `c` lies inside SIG_RANGEp and is allocated. -/
def State.stepCtrOk (s : State) (p c : Nat) : Bool :=
  decide (s.act (R.MOD.SIG_RANGE.BASE p) ≤ c ∧ c < s.act (R.MOD.SIG_RANGE.BASE p) + s.act (R.MOD.SIG_RANGE.COUNT p)) &&
    Cells.get false s.sig.alloc c

/-- Whether the step configuration of partition `p` may be enabled (R283). -/
def State.stepCfgOk (s : State) (p : Nat) : Bool :=
  let a := s.rd (R.MOD.STEP_CFG.STEP_CTR p)
  let b := s.rd (R.MOD.STEP_CFG.VERD_CTR p)
  let m := s.rd (R.MOD.STEP_CFG.MODE p)
  (m = 1 || m = 2) && s.stepCtrOk p a && s.stepCtrOk p b && a ≠ b && s.ctr a = s.ctr b && (m = 2 || s.peersValid p)

/-- The mechanism becomes active: the open step has no checkpoint, because it opened before (R284, R394). -/
def State.stepActivate (s : State) (p : Nat) : State :=
  let n := s.ctr (s.rd (R.MOD.STEP_CFG.STEP_CTR p))
  let a := ((s.wr (R.MOD.STEP_STAT.ACTIVE p) 1).wr (R.MOD.STEP_NUM p) n).onNose fun m =>
    { m with runs := m.runs.filter (fun r => decide (r.part ≠ p)) ++ [newRun p n none] }
  a.showRuns p

/-- STEP_ENABLE (R283): refused with STEP_CFG; without effect while the mechanism is active. -/
def State.stepEnable (s : State) (p : Nat) : State :=
  if s.stepActive p then s
  else if s.stepCfgOk p then s.stepActivate p
  else s.raise pgMOD .STEP_CFG p

def execStepEnable (p : Path) (part : Fin 8) (s : State) : Host.Outcome State Fault Refusal :=
  .next (s.onWrite p (R.MOD.STEP_CTRL.ENABLE part).addr 4 none fun s => (s.stepEnable part.val))

/-- The step of partition `p` that has closed and awaits its flip. -/
def State.closedRun (s : State) (p : Nat) : Option Run := s.nose.runs.find? fun r => decide (r.part = p) && r.closed.isSome

/-- Whether every required verdict of the awaiting step is clean (R289). -/
def State.mayFlip (s : State) (p : Nat) : Bool :=
  match s.closedRun p with
  | none => false
  | some r =>
    s.stepActive p && s.on (R.MOD.STEP_STAT.AWAIT p) && !s.on (R.MOD.STEP_STAT.HALTED p) && r.final3 && r.mark.isNone &&
      (s.rd (R.MOD.STEP_CFG.MODE p) ≠ 1 ||
        (List.range (s.rd (R.MOD.STEP_CTRL.PEERS p))).all fun k => bitOf (s.rd (R.MOD.STEP_PEER_CLEAN p)) k)

/-- The flip of step v (R289): the verdict counter advances, AWAIT clears, the tick and the wait are recorded, and
PEER_NEXT moves to PEER_CLEAN. -/
def State.flip (s : State) (p : Nat) : State :=
  let a := s.addCtr (s.rd (R.MOD.STEP_CFG.VERD_CTR p)) 1 .flip
  let b := (a.wr (R.MOD.STEP_STAT.AWAIT p) 0).wr (R.MOD.STEP_FLIP_TICK p) s.time
  let c := (b.bump (R.MOD.STEP_FLIPS p) 1).bump (R.MOD.STEP_FLIP_WAIT p) (s.time - s.rd (R.MOD.STEP_CLOSE_TICK p))
  let d := (c.wr (R.MOD.STEP_PEER_CLEAN p) (s.rd (R.MOD.STEP_PEER_NEXT p))).wr (R.MOD.STEP_PEER_NEXT p) 0
  (d.onNose fun m => { m with runs := m.runs.filter fun r => !(decide (r.part = p) && r.closed.isSome) }).showRuns p

/-- STEP_FLIP (R289). -/
def execStepFlip (part : Fin 8) (s : State) : Host.Outcome State Fault Refusal :=
  .next (if s.mayFlip part.val then s.flip part.val else s)

/-- VERDICT_SLOW (R301): VWARN ticks have passed since the close; once for each step, which SLOW records. -/
def execVerdictSlow (part : Fin 8) (s : State) : Host.Outcome State Fault Refusal :=
  let p := part.val
  let w := s.rd (R.MOD.STEP_VWARN p)
  .next (match s.closedRun p with
    | none => s
    | some r =>
      if w ≠ 0 ∧ s.on (R.MOD.STEP_STAT.AWAIT p) ∧ !r.slow ∧ s.rd (R.MOD.STEP_CLOSE_TICK p) + w ≤ s.time then
        ((s.mapRuns (fun x => x = r) fun x => { x with slow := true }).raise pgMOD .VERDICT_SLOW p).wr (R.MOD.STEP_STAT.SLOW p) 1
      else s)

/-! ### Verdicts of peers (R291) -/

/-- The entry of the peer table that names a node and partition, among those in use. -/
def State.peerOf (s : State) (p node part : Nat) : Option Nat :=
  (List.range (s.rd (R.MOD.STEP_CTRL.PEERS p))).find? fun k =>
    s.on (R.MOD.STEP_PEER.VALID p k) && decide (s.rd (R.MOD.STEP_PEER.NODE p k) = node ∧ s.rd (R.MOD.STEP_PEER.PART p k) = part)

/-- A bit of a word set or cleared. -/
def setBit (v k : Nat) (b : Bool) : Nat := if v.testBit k = b then v else if b then v + 2 ^ k else v - 2 ^ k

/-- A peer's verdict for step `n`: PEER_CLEAN, PEER_NEXT, or STRAY (R291). -/
def State.peerVerdict (s : State) (p k n : Nat) (clean : Bool) : State :=
  let num := s.rd (R.MOD.STEP_NUM p)
  let wait := s.on (R.MOD.STEP_STAT.AWAIT p)
  if (n + 1 = num ∧ wait) ∨ (n = num ∧ !wait) then
    s.wr (R.MOD.STEP_PEER_CLEAN p) (setBit (s.rd (R.MOD.STEP_PEER_CLEAN p)) k clean)
  else if n = num then s.wr (R.MOD.STEP_PEER_NEXT p) (setBit (s.rd (R.MOD.STEP_PEER_NEXT p)) k clean)
  else s.bump (R.MOD.STEP_STRAY p) 1

end Sys2Proof.Machine
end

