-- ==== Sys2Proof/Machine/Coll.lean ====
section
/-! DEFINITION. Collectives (R166, R308 to R332): groups and their checks, the order of work of each algorithm, data and
acknowledgements, stalls and aborts. -/

namespace Sys2Proof.Machine

/-- Changes what collectives hold. -/
def State.onColl (s : State) (g : CollSt → CollSt) : State := { s with coll := g s.coll }

/-! ### Group entries (R308 to R310) -/

/-- The page and the index in it of group entry `n`. -/
def grpPage (n : Nat) : Nat := n / 16
def grpIdx (n : Nat) : Nat := n % 16

/-- GRP_STAT.STATE of an entry, whether it is bound, and its serving engine. -/
def State.grpState (s : State) (n : Nat) : Nat := s.rd (R.COLL.GRP_STAT.STATE (grpPage n) (grpIdx n))
def State.grpBound (s : State) (n : Nat) : Bool := s.grpState n ≠ 0
def State.grpEngine (s : State) (n : Nat) : Nat := s.rd (R.COLL.GRP_CFG.ENGINE (grpPage n) (grpIdx n))

/-- The collectives in progress on an entry. -/
def State.grpRuns (s : State) (n : Nat) : List CollRun := s.coll.runs.filter fun r => decide (r.entry = n)

/-- Whether an entry is defined. -/
def State.grpValid (s : State) (n : Nat) : Bool := s.on (R.COLL.GRP_CFG.VALID (grpPage n) (grpIdx n))

/-- The partition that element `i` has in a range map. -/
def ownerIn (get : Fld → Nat) (base count : Nat → Fld) (i : Nat) : Option Nat :=
  (List.range 8).find? fun p => decide (get (base p) ≤ i ∧ i < get (base p) + get (count p))

/-- The entries of the table. -/
def allGroups : List Nat := List.range 256

/-- STAT of an engine as the entries and collectives stand. -/
def State.showEngine (s : State) (e : Nat) : State :=
  let mine := allGroups.filter fun n => s.grpBound n && s.grpEngine n = e
  ((s.wr (R.COLL.STAT.CTX_USED e) mine.length).wr (R.COLL.STAT.RUNNING e)
    (s.coll.runs.filter fun r => decide (r.eng = e)).length).wr (R.COLL.STAT.STALLED e)
    (mine.filter fun n => decide (s.grpState n = 3)).length

/-- GRP_STAT.STATE as an entry's collectives stand: 1 idle, 2 running, 3 stalled. -/
def State.showGroup (s : State) (n : Nat) : State :=
  let rs := s.grpRuns n
  (if s.grpBound n then
    s.wr (R.COLL.GRP_STAT.STATE (grpPage n) (grpIdx n)) (if rs.any (fun r => r.stalled.isSome) then 3 else if rs.isEmpty then 1 else 2)
  else s).showEngine (s.grpEngine n)

/-- An entry releases its context (R310). -/
def State.unbind (s : State) (n : Nat) : State :=
  (s.wr (R.COLL.GRP_STAT.STATE (grpPage n) (grpIdx n)) 0).showEngine (s.grpEngine n)

/-- A bound entry without a collective and without PIN releases its context (R310). -/
def State.settleGroup (s : State) (n : Nat) : State :=
  if s.grpBound n ∧ (s.grpRuns n).isEmpty ∧ !s.on (R.COLL.GRP_CFG.PIN (grpPage n) (grpIdx n)) then s.unbind n else s.showGroup n

/-- GROUP_CFG_WRITE (R308, R310): the fields of an unbound entry; of a bound and idle one, only PIN and VALID may clear. -/
def State.groupCfg (s : State) (n v : Nat) : State :=
  let g := grpPage n
  let i := grpIdx n
  let put := fun (u : State) => (((u.wr (R.COLL.GRP_CFG.VALID g i) (bitsOf v 0 0)).wr (R.COLL.GRP_CFG.PIN g i) (bitsOf v 1 1)).wr
    (R.COLL.GRP_CFG.ENGINE g i) (bitsOf v 7 4)).wr (R.COLL.GRP_CFG.SHARE g i) (bitsOf v 15 8)
  let rise := !s.grpValid n && bitOf v 0
  let a := if rise then s.onColl fun c => { c with used := Cells.put false c.used n false } else s
  if !s.grpBound n then put a
  else
    let same := bitsOf v 7 4 = s.grpEngine n && bitsOf v 15 8 = s.rd (R.COLL.GRP_CFG.SHARE g i)
    let clears := (!bitOf v 0 || s.grpValid n) && (!bitOf v 1 || s.on (R.COLL.GRP_CFG.PIN g i)) &&
      !(bitOf v 0 && bitOf v 1)
    if same ∧ clears ∧ (s.grpRuns n).isEmpty then (put s).unbind n
    else s.raise (pgCOLL g) .GROUP_BUSY n

def execGroupCfgWrite (p : Path) (n : Fin 256) (v : BitVec 32) (s : State) : Host.Outcome State Fault Refusal :=
  .next (s.onWrite p (R.COLL.GRP_CFG.VALID (grpPage n) (grpIdx n)).addr 4 none fun s => (s.groupCfg n.val v.toNat))

/-! ### The group descriptor (R309) -/

/-- A little-endian field of bytes. -/
def leAt (bs : List Byte) (a n : Nat) : Nat := leNat ((bs.drop a).take n)

/-- The members of a node group's array. -/
def membersOf (bs : List Byte) (n : Nat) : List Nat := (List.range n).map fun k => leAt bs (64 + 4 * k) 4

/-- The descriptor that bytes describe; the member array is read for a node group. -/
def groupDesc (bs : List Byte) : GroupDesc :=
  let node := leAt bs 4 1 = 0
  { tile := !node, algo := leAt bs 5 1, id := leAt bs 8 4
    size := if node then leAt bs 12 4 else leAt bs 28 1 * leAt bs 29 1
    rank := leAt bs 16 4, dim1 := leAt bs 20 4, tileset := leAt bs 24 4, subRows := leAt bs 28 1, subCols := leAt bs 29 1
    members := if node then (membersOf bs (leAt bs 12 4)).map fun m => (bitsOf m 15 0, bitsOf m 18 16) else [] }

/-- The rules of R309 on the bytes of a descriptor. -/
def descBytesOk (bs : List Byte) : Bool :=
  let d := groupDesc bs
  let zero := fun a b => leAt bs a (b + 1 - a) = 0
  leAt bs 0 4 = 0x47525031 && leAt bs 4 1 ≤ 1 && zero 6 7 && zero 30 63 &&
    (if d.tile then
      let x := tileSetOf d.tileset
      zero 8 23 && bitsOf d.tileset 31 21 = 0 && x.inGrid && d.subRows ≠ 0 && d.subCols ≠ 0 && x.rows % d.subRows = 0 &&
        x.cols % d.subCols = 0 && decide (2 ≤ d.size ∧ d.size ≤ 64)
    else
      zero 24 29 && decide (2 ≤ d.size ∧ d.size ≤ 65536 ∧ d.rank < d.size) &&
        (if d.algo = 1 then decide (2 ≤ d.dim1 ∧ d.dim1 ≤ d.size / 2) && d.size % d.dim1 = 0 else d.dim1 = 0 || d.algo ≠ 0) &&
        (membersOf bs d.size).all fun m => bitOf m 31 && bitsOf m 30 19 = 0)

/-- Reads the descriptor at `a`: the header, then the member array (R310, R311 check 2). -/
def State.readGroup (s : State) (p a : Nat) : State × Except Err GroupDesc :=
  match s.readIssue none p a 64 with
  | (t, none) => (t, .error .DESC_READ)
  | (t, some h) =>
    let more := if leAt h 4 1 = 0 ∧ leAt h 12 4 ≤ 65536 then 4 * leAt h 12 4 else 0
    match if more = 0 then (t, some []) else t.readIssue none p (a + 64) more with
    | (u, none) => (u, .error .DESC_READ)
    | (u, some ms) => (u, if a % 64 = 0 ∧ descBytesOk (h ++ ms) then .ok (groupDesc (h ++ ms)) else .error .GROUP_DESC)

/-- Check 3 of R311 beyond the descriptor's own bytes, and the gateway rule of R338. -/
def State.groupPlace (s : State) (p n : Nat) (d : GroupDesc) : Bool :=
  if d.tile then
    let x := tileSetOf d.tileset
    (List.range x.rows).all fun i => decide (s.partOfRow (x.first / 40 + i) = some p)
  else
    d.members[d.rank]? = some (s.rd R.MOD.FAB_NODE.NODE, p) && d.members.all (fun m => s.nodeKind m.1 ≠ 3) &&
      allGroups.all fun k => !(k ≠ n && s.grpBound k &&
        match Cells.get none s.coll.descs k with
        | some e => !e.tile && e.id = d.id
        | none => false)

/-! ### The command (R158, R166, R311 to R313) -/

/-- The fields of a COLLECTIVE. -/
structure CollWork where
  grp   : Nat
  op    : Nat
  fmt   : Nat
  src   : Nat
  dst   : Nat
  count : Nat
  aux   : Nat
  prof  : Nat
  deriving DecidableEq, Repr

def collOf (e : Nat) : CollWork :=
  ⟨field e 16 7 0, cmdOp e, field e 20 7 0, field e 24 63 0, field e 32 63 0, field e 40 63 0, field e 48 63 0, cmdProfile e⟩

/-- Check 2 of a COLLECTIVE. -/
def State.collField (s : State) (q e : Nat) : Bool :=
  let x := collOf e
  decide (x.op ≤ 5) && (x.prof = 1 || x.prof = 2) && headerReserved e && field e 16 31 8 = 0 && zeroBytes e 21 23 && fmtKnown x.fmt &&
    decide (adrSpace x.src ≤ 2 ∧ adrSpace x.dst ≤ 3) && adrReservedOk x.src && adrReservedOk x.dst &&
    (if x.op = 4 then decide (adrSpace x.aux ≤ 2) && adrReservedOk x.aux else x.aux = 0) &&
    field e 56 7 4 = 0 && zeroBytes e 57 59 && selOk (field e 56 3 0) && s.deadlineOk q e

/-- Bytes of `n` elements of a format code (R160, R312). -/
def elemsBytes (f n : Nat) : Nat :=
  if f = 0xFF then n else if f = 7 then cdiv n 32 * 512 else if isMx f then 4 * rowWords f n else n * elemBits f / 8

/-- Whether an address names memory that an engine reads and writes by its local path: this node's tiers, host memory,
or a tile of the partition (R269, log entry 11). -/
def State.collSpace (s : State) (p a : Nat) : Bool :=
  match adrSpace a with
  | 0 => s.onNode a
  | 1 => true
  | _ => s.inPart p (adrTile a)

/-- Whether an address is one that an exchange table may name. -/
def State.collMemory (s : State) (p a : Nat) : Bool := decide (adrSpace a ≤ 2) && adrReservedOk a && s.collSpace p a

/-- Check 4 of R311. -/
def State.collFormat (s : State) (p : Nat) (x : CollWork) (d : GroupDesc) : Option Err :=
  let fmts := if x.op ≤ 1 then [0, 1, 7, 8] else if x.op = 5 then [0xFF] else [0, 1, 2, 3, 4, 5, 6, 7, 8, 0xFF]
  let whole := x.fmt = 7 || (x.prof = 2 && (x.fmt = 0 || x.fmt = 1))
  let algo := if d.tile then d.algo = 0 else d.algo = 0 || (d.algo = 1 && x.prof = 2 && (x.op = 0 || x.op = 5))
  let spaces := if d.tile then adrSpace x.src = 2 && (adrSpace x.dst = 2 || adrSpace x.dst = 3)
    else s.collSpace p x.src && s.collSpace p x.dst
  firstErr [
    errIf (!(fmts.contains x.fmt && algo && spaces && !(d.tile && x.op ≠ 5) && !(whole && x.count % 32 ≠ 0) &&
      !((x.op = 3 || x.op = 4) && decide (1024 < d.size)))) .COLL_FORMAT,
    errIf (decide (2 ^ 38 < x.count * d.size)) .REDUCE_TOO_LONG]

/-- The exchange table that bytes describe, if it obeys R323: its rows, SPILL, RECV_CNT and RET_CNT, each of which `place` must
accept as a memory address (log entry 86). -/
def xchgOf (bs : List Byte) (n : Nat) (place : Nat → Bool) : Option (List XchgRow × Nat × Nat × Nat) :=
  let rows := (List.range n).map fun j =>
    (⟨leAt bs (64 + 16 * j) 4, leAt bs (68 + 16 * j) 4, leAt bs (72 + 16 * j) 4, leAt bs (76 + 16 * j) 4⟩ : XchgRow)
  if leAt bs 0 4 = 0x58434731 ∧ leAt bs 4 4 = n ∧ leAt bs 32 32 = 0 ∧ rows.all (fun r => decide (r.send < 2 ^ 24 ∧ r.cap < 2 ^ 24)) ∧
      [leAt bs 8 8, leAt bs 16 8, leAt bs 24 8].all place then
    some (rows, leAt bs 8 8, leAt bs 16 8, leAt bs 24 8)
  else none

/-- Bytes at a memory address for an engine's local path. -/
def State.collRead (s : State) (o : Owner) (a off n : Nat) : State × Except Err (List Byte) :=
  match adrSpace a with
  | 1 => s.hostGet o (adrHost a + off) n
  | 2 => s.spadBytes (some o) (adrTile a) (4 * adrWord a + off) n
  | _ => s.memRead (some o) (.part o.part) (adrOff a + off) n

/-- Bytes with `bs` put at offset `a`. -/
def splice (l : List Byte) (a : Nat) (bs : List Byte) : List Byte := l.take a ++ bs ++ l.drop (a + bs.length)

/-- What a word of a scratchpad holds: zero in an unwritten line (R125). -/
def State.wordNow (s : State) (t w : Nat) : Word :=
  if s.lineWritten t (lineOf w) then Cells.get 0 s.tile.words (wordKey t w) else 0

/-- The words that hold bytes written from byte address `a` of a scratchpad; the other bytes of the first and last word keep their
values (log entry 85). -/
def State.mergedWords (s : State) (t a : Nat) (bs : List Byte) : List Word :=
  let old := (wordsFrom (a / 4) ((a % 4 + bs.length + 3) / 4)).map (s.wordNow t)
  wordsOfBytes (splice (bytesOfWords old) (a % 4) bs)

/-- Words that an engine writes into a tile by its local path: those whose carried seal fails at the tile land all the same, and end
the command (R376). -/
def State.localPut (s : State) (o : Owner) (t w : Nat) (ws : List Word) : State × Option Err :=
  let z := s.carry 512 (bytesOfWords ws)
  let x := z.1.spadPut (some o) t w (wordsOfBytes z.2.1)
  if z.2.2.isEmpty then x else (x.1.sealFail (some o) (pgTILE t) .SEAL_CARRIED, x.2.or (some .SEAL_CARRIED))

/-- Writes bytes at a memory address by an engine's local path, for a command of profile `prof`; a window takes them as one remote
write. -/
def State.collWrite (s : State) (o : Owner) (eng prof a off : Nat) (bs : List Byte) : State × Option Err :=
  if bs.isEmpty then (s, none)
  else
    let at_ := 4 * adrWord a + off
    match adrSpace a with
    | 1 => s.hostPut o false (adrHost a + off) bs
    | 2 => s.localPut o (adrTile a) (at_ / 4) (s.mergedWords (adrTile a) at_ bs)
    | 3 =>
      let base := 4 * s.rd (R.TILE.SPAD_WIN_BASE (adrTile a) (adrWin a))
      s.remoteWrite (landingOf (adrTile a) (adrWin a) (at_ / 4) (s.mergedWords (adrTile a) (base + at_) bs) (.coll eng) (some o) prof 512)
    | _ =>
      let z := s.carry 512 bs
      z.1.sealedWrite (some o) (.part o.part) (adrOff a + off) 512 z.2.1 z.2.2

/-! ### The order of work (R317 to R323) -/

/-- Chunk `c` of `m` of the units from `lo` to `hi` (R317). -/
def chunkOf (lo hi m c : Nat) : Nat × Nat :=
  let l := cdiv (hi - lo) m
  (min hi (lo + c * l), min hi (lo + (c + 1) * l))

/-- A ring reduce-scatter over the ranks `rs`, of which this member is the `i`th. -/
def ringReduce (ph : Nat) (rs : List Nat) (i : Nat) (ch : Nat → Nat × Nat) : List CollAct :=
  let m := rs.length
  (List.range (m - 1)).flatMap fun t =>
    let x := ch ((i + 2 * m - t - 1) % m)
    let y := ch ((i + 2 * m - t - 2) % m)
    [.send ph t (rs.getD ((i + 1) % m) 0) x.1 x.2, .recv ph t (rs.getD ((i + m - 1) % m) 0) y.1 y.2 true, .acked]

/-- A ring all-gather. -/
def ringGather (ph : Nat) (rs : List Nat) (i : Nat) (ch : Nat → Nat × Nat) : List CollAct :=
  let m := rs.length
  (List.range (m - 1)).flatMap fun t =>
    let x := ch ((i + 2 * m - t) % m)
    let y := ch ((i + 2 * m - t - 1) % m)
    [.send ph t (rs.getD ((i + 1) % m) 0) x.1 x.2, .recv ph t (rs.getD ((i + m - 1) % m) 0) y.1 y.2 false, .acked]

/-- An all-reduce of `u` units: a ring, or rows and columns under ALGO 1 (R317, R320). -/
def allReduceProg (d : GroupDesc) (u : Nat) : List CollAct :=
  if d.algo = 1 then
    let row := (List.range d.dim1).map fun j => d.rank / d.dim1 * d.dim1 + j
    let col := (List.range (d.size / d.dim1)).map fun j => j * d.dim1 + d.rank % d.dim1
    let i := d.rank % d.dim1
    let k := d.rank / d.dim1
    let rc := chunkOf 0 u row.length
    let mine := rc i
    let cc := chunkOf mine.1 mine.2 col.length
    ringReduce 0 row i rc ++ ringReduce 1 col k cc ++ [.round (cc k).1 (cc k).2] ++ ringGather 2 col k cc ++ ringGather 3 row i rc
  else
    let all := List.range d.size
    let ch := chunkOf 0 u d.size
    ringReduce 0 all d.rank ch ++ [.round (ch d.rank).1 (ch d.rank).2] ++ ringGather 1 all d.rank ch

/-- A chain of `u` units over every rank, chunk by chunk, under K1 (R319). -/
def chainProg (d : GroupDesc) (u : Nat) (scatter : Bool) (ch : Nat → Nat × Nat) : List CollAct :=
  let n := d.size
  let k := d.rank
  let cs := List.range n
  let sums := cs.flatMap fun c =>
    (if k = 0 then [] else [CollAct.recv 0 c (k - 1) (ch c).1 (ch c).2 true]) ++
      (if k + 1 < n then [CollAct.send 0 c (k + 1) (ch c).1 (ch c).2] else [])
  if k + 1 = n then
    sums ++ [.round 0 u] ++ (if scatter then (List.range k).map fun j => .send 1 j j (ch j).1 (ch j).2
      else cs.map fun c => .send 1 c 0 (ch c).1 (ch c).2)
  else
    sums ++ [.acked, .round 0 0] ++ (if scatter then [.recv 1 k (n - 1) (ch k).1 (ch k).2 false]
      else cs.flatMap fun c => [CollAct.recv 1 c ((k + n - 1) % n) (ch c).1 (ch c).2 false] ++
        (if k + 2 < n then [CollAct.send 1 c (k + 1) (ch c).1 (ch c).2] else []))

/-- The anchor ring that FP32 and BF16 sums under K2 begin with: over `u` codes (R318). -/
def anchorProg (d : GroupDesc) (u : Nat) : List CollAct :=
  let all := List.range d.size
  let ch := chunkOf 0 u d.size
  ringReduce 8 all d.rank ch ++ ringGather 9 all d.rank ch ++ [.form]

/-- The rounds of an exchange: up to four in flight (R322); `blk j` is the range of the block for rank `j`. -/
def roundsProg (d : GroupDesc) (tokens : Bool) (blk : Nat → Nat × Nat) : List CollAct :=
  let n := d.size
  let dst := fun t => (d.rank + t) % n
  let src := fun t => (d.rank + n - t % n) % n
  let snd := fun t => CollAct.send 0 0 (dst t) (blk (dst t)).1 (blk (dst t)).2
  ((List.range (n - 1)).map (· + 1)).foldl (fun acc t =>
    acc ++ [if tokens then .tokens (src t) else .take (src t), .ackedBy (dst t)] ++ (if t + 4 < n then [snd (t + 4)] else []))
    (((List.range (min 4 (n - 1))).map (· + 1)).map snd) ++
    (if tokens then ((List.range (n - 1)).map fun t => .spill (dst (t + 1))) else [])

/-- Units of a reduction: 32 elements where triples or their values travel, else one (R317). -/
def unitElems (x : CollWork) : Nat := if x.fmt = 7 ∨ (x.prof = 2 ∧ (x.fmt = 0 ∨ x.fmt = 1)) then 32 else 1

/-- Start of each rank's block in the send buffer of an exchange by table. -/
def sendStarts (tok : Nat) (rows : List XchgRow) (j : Nat) : Nat := ((rows.take j).map fun r => r.send * tok).sum

/-- The order of work of a collective at this member. -/
def collProg (x : CollWork) (d : GroupDesc) (rows : List XchgRow) : List CollAct :=
  let u := cdiv x.count (unitElems x)
  let blocks := fun b c => (c * b, (c + 1) * b)
  let lead := fun n => if x.prof = 2 ∧ (x.fmt = 0 ∨ x.fmt = 1) then anchorProg d n else []
  match x.op with
  | 0 => if x.prof = 1 then chainProg d u false (chunkOf 0 u d.size) else lead u ++ allReduceProg d u
  | 1 =>
    if x.prof = 1 then chainProg d (u * d.size) true (blocks u)
    else lead (u * d.size) ++ ringReduce 0 (List.range d.size) d.rank (blocks u) ++ [.round (blocks u d.rank).1 (blocks u d.rank).2]
  | 2 => ringGather 0 (List.range d.size) d.rank (blocks (elemsBytes x.fmt x.count))
  | 3 => roundsProg d false (blocks (elemsBytes x.fmt x.count))
  | 4 =>
    let tok := elemsBytes x.fmt x.count
    .heard :: .self :: roundsProg d true fun j => (sendStarts tok rows j, sendStarts tok rows (j + 1))
  | _ => allReduceProg d u

/-- Bytes of a unit, and how units combine, at the start. -/
def startUnit (x : CollWork) : Nat × Nat :=
  if x.op = 5 then (1, 0)
  else if 2 ≤ x.op then (1, 0)
  else if x.fmt = 8 then (4, 2)
  else if x.fmt = 7 then (483, 1)
  else if x.prof = 1 then (4, 3)
  else (1, 0)

/-- The values of a unit of FP32 or BF16 elements. -/
def unitVals (fmt i : Nat) (bs : List Byte) : List Val :=
  let b := elemBits fmt / 8
  (List.range 32).map fun j => elemVal fmt (leAt bs ((32 * i + j) * b) b)

/-- The working buffer that the member's own bytes give at the start. -/
def startBuf (x : CollWork) (d : GroupDesc) (bs : List Byte) : List Byte :=
  if x.op = 2 then
    List.replicate (bs.length * d.rank) 0 ++ bs ++ List.replicate (bs.length * (d.size - 1 - d.rank)) 0
  else if 3 ≤ x.op ∨ x.fmt = 8 then bs
  else if x.fmt = 7 then (List.range (bs.length / 512)).flatMap fun i => (bs.drop (512 * i)).take 483
  else if x.prof = 1 then
    let b := elemBits x.fmt / 8
    (List.range (bs.length / b)).flatMap fun i =>
      let v := toF32 (elemVal x.fmt (leAt bs (i * b) b))
      leBytes 4 (if d.rank = 0 then fadd 0 v else v)
  else
    (List.range (bs.length / (4 * elemBits x.fmt))).map fun i =>
      let b := blockExp (unitVals x.fmt i bs)
      BitVec.ofNat 8 (anchorCode b.special b.exp)

/-! ### Combining and converting (R317 to R319) -/

/-- One unit combined with what arrived. -/
def combineUnit (kind : Nat) (slip : Option Slip) (x y : List Byte) : Except StageErr (List Byte) :=
  match kind with
  | 0 => .ok (List.zipWith (fun a b => if a.toNat < b.toNat then b else a) x y)
  | 1 => (adderStage [Triple.ofBytes x, Triple.ofBytes y] slip).map Triple.bytes
  | 2 => .ok (leBytes 4 ((leNat x + leNat y) % 2 ^ 32))
  | _ => .ok (leBytes 4 (fadd (leNat y) (leNat x)))

/-- Cuts bytes into units. -/
def unitsOf (u : Nat) (bs : List Byte) : List (List Byte) := (List.range (bs.length / max 1 u)).map fun i => (bs.drop (i * u)).take u

/-- Combines the units of two byte strings, a stage each; `slips` is what the stages add wrong. -/
def combineAll (kind u : Nat) (slips : List (Option Slip)) (xs ys : List Byte) : Except StageErr (List Byte) :=
  ((unitsOf u xs).zip (unitsOf u ys)).zipIdx.foldl (fun acc p =>
    match acc with
    | .error e => .error e
    | .ok bs =>
      match combineUnit kind (slips.getD p.2 none) p.1.1 p.1.2 with
      | .error e => .error e
      | .ok b => .ok (bs ++ b)) (.ok [])

/-- The triples of the member's own values on the delivered anchor codes (R318). -/
def formTriples (r : CollRun) : List Byte :=
  r.buf.zipIdx.flatMap fun c =>
    (groupTriple c.1.toNat ((unitVals r.fmt c.2 r.own).map (gridTerm (grid c.1.toNat)))).bytes

/-- Whether a code of the member's own values exceeds the delivered one (R108). -/
def CollRun.codeOver (r : CollRun) : Bool :=
  r.buf.zipIdx.any fun c =>
    let b := blockExp (unitVals r.fmt c.2 r.own)
    decide (c.1.toNat < anchorCode b.special b.exp)

/-- One unit converted to ELEM_FMT (R318, R319). -/
def roundUnit (r : CollRun) (b : List Byte) : List Byte :=
  let w := elemBits r.fmt / 8
  if r.kind = 1 then
    let t := Triple.ofBytes b
    (groupOut (t.code.getD 0) r.fmt (t.outs.map Planes.value)).2.flatMap (leBytes w)
  else leBytes w (elemEnc r.fmt .nearest (f32 (leNat b)))

/-- Converts the units from `a` to `b`, where the format asks for it. -/
def CollRun.rounded (r : CollRun) (a b : Nat) : CollRun :=
  if 2 ≤ r.op ∨ r.fmt = 7 ∨ r.fmt = 8 then r
  else
    let w := if r.kind = 1 then 4 * elemBits r.fmt else elemBits r.fmt / 8
    { r with unit := w, buf := (unitsOf r.unit r.buf).zipIdx.flatMap fun x =>
        if a ≤ x.2 ∧ x.2 < b then roundUnit r x.1 else List.replicate w 0 }

/-! ### Messages and frames of a collective (R314, R317, R326) -/

/-- The start record of a collective for its peers. -/
def CollRun.record (r : CollRun) : StartRec :=
  let t := r.owner.step.getD (0, 0)
  ⟨r.desc.id, r.desc.rank, r.seq, r.chg, r.op, r.fmt, r.count, r.profile, r.desc.size, t.1, t.2⟩

/-- The ranks that a program sends data to. -/
def sendsTo (p : List CollAct) : List Nat :=
  (p.filterMap fun a => match a with
    | .send _ _ dst _ _ => some dst
    | _ => none).eraseDups

/-- Changes one collective in progress. -/
def State.onRun (s : State) (n seq : Nat) (g : CollRun → CollRun) : State :=
  s.onColl fun c => { c with runs := c.runs.map fun r => if r.entry = n ∧ r.seq = seq then g r else r }

/-- A collective in progress. -/
def State.collRun (s : State) (n seq : Nat) : Option CollRun := s.coll.runs.find? fun r => decide (r.entry = n ∧ r.seq = seq)

/-- A collective is over here: it and what belongs to it are dropped, and its command ends as `err` says. -/
def State.dropRun (s : State) (r : CollRun) (err : Option Err) : State :=
  let a := s.onColl fun c => { c with
    runs := c.runs.filter fun x => !(decide (x.entry = r.entry ∧ x.seq = r.seq))
    records := c.records.filter fun x => !(decide (x.2.group = r.desc.id ∧ x.2.seq = r.seq))
    early := c.early.filter fun f => match f.body with
      | .collData pos _ _ _ => !(decide (pos.group = r.desc.id ∧ pos.seq = r.seq))
      | _ => true }
  let b := { a with fab := { a.fab with txns := a.fab.txns.filter fun t => t.kind ≠ TxnKind.coll r.entry r.seq } }
  let c := b.onFlight r.owner.queue r.owner.idx fun f => { f with left := f.left - 1, err := f.err.or err }
  c.settleGroup r.entry

/-- A collective ends with an error at this member (R183). -/
def State.endRun (s : State) (r : CollRun) (e : Err) : State :=
  (s.dropRun r (some e)).settle r.owner.queue r.owner.idx

/-- Abort notices to every other member (R316). -/
def State.notify (s : State) (r : CollRun) (code : Nat) (replay : Bool) : State :=
  (r.desc.members.zipIdx.filter fun m => decide (m.2 ≠ r.desc.rank)).foldl (fun u m =>
    u.sendMsg (some r.owner.part) m.1.1 m.1.2 (.abort r.desc.id r.seq code replay)) s

/-- An abort of a collective at this member, with the code it has stalled with, else with `code` (R316). -/
def State.abortRun (s : State) (r : CollRun) (code : Err) : State :=
  let e := r.stalled.getD code
  let a := if e = .COLL_ABORTED then s.raiseFor (some r.owner) (pgCOLL r.eng) .COLL_ABORTED r.entry else s
  (a.bump (R.COLL.ABORTS r.eng) 1).endRun r e

/-- A failure of an engine ends the collective on every member, with its code, and marks the step (R325, R328). -/
def State.failRun (s : State) (r : CollRun) (e : Err) : State :=
  let a := if e = .SEAL_CARRIED then s.sealFail (some r.owner) (pgCOLL r.eng) e else s.raiseFor (some r.owner) (pgCOLL r.eng) e r.entry
  let b := if e = .TOKEN_LEDGER then a.irq (pgCOLL r.eng) 4 else a
  (b.notify r e.code false).endRun r e

/-- The largest piece of data in one frame: with its seal trailer it stays within 20,480 bytes (R344). -/
def collPiece : Nat := 16384

/-- The byte address of SRC in its own space, by which its 512-byte blocks count. -/
def CollRun.srcAt (r : CollRun) : Nat :=
  match adrSpace r.src with
  | 1 => adrHost r.src
  | 2 => 4 * adrWord r.src
  | _ => adrOff r.src

/-- Where in its source the data of a send begins, for its seal spans (R374): at SRC for what is read there, else at the start of
what an engine has made or relays. -/
def CollRun.sendAt (r : CollRun) (ph st dst x : Nat) : Nat :=
  match r.op with
  | 4 => if ph = 0 then r.srcAt + (r.table.getD dst ⟨0, 0, 0, 0⟩).sendOfs * elemsBytes r.fmt r.count else 0
  | 3 => r.srcAt + x
  | 2 => if ph = 0 ∧ st = 0 then r.srcAt else 0
  | _ => if ph = 0 ∧ st = 0 ∧ r.kind ≠ 1 then r.srcAt + x * r.unit else 0

/-- Sends bytes to a rank as frames, from byte `at_` of their source; a frame that finds no way is the error. -/
def State.sendData (s : State) (r : CollRun) (ph st dst at_ : Nat) (bs : List Byte) : State × Option Err :=
  let m := r.desc.members.getD dst (0, 0)
  (List.range (max 1 (cdiv bs.length collPiece))).foldl (fun u i =>
    match u.2 with
    | some _ => u
    | none =>
      let d := (bs.drop (i * collPiece)).take collPiece
      let pos : CollPos := ⟨r.desc.id, r.seq, r.desc.rank, ph, st, i * collPiece, bs.length⟩
      let tag := u.1.fab.nextTag
      let first := firstSpan (at_ + i * collPiece)
      match u.1.request m.1 0 r.owner.part (.collData pos d (sealsOf first d) first) (.coll r.entry r.seq) with
      | (a, some e) => (a, some e)
      | (a, none) =>
        ((a.bump (R.COLL.BYTES_SENT r.eng) d.length).onRun r.entry r.seq fun x =>
          { x with unacked := x.unacked ++ [⟨tag, dst, ph, st, i * collPiece⟩] }, none)) (s, none)

/-- What has arrived whole of a send, in order. -/
def CollRun.arrived (r : CollRun) (rank ph st : Nat) : Option (List Byte) :=
  match r.inbox.find? fun a => decide (a.rank = rank ∧ a.phase = ph ∧ a.step = st) with
  | none => none
  | some a =>
    if (a.parts.map fun p => p.2.length).sum = a.total then
      some ((a.parts.mergeSort fun x y => decide (x.1 ≤ y.1)).flatMap Prod.snd)
    else none

/-- Takes an arrival out of the inbox. -/
def CollRun.taken (r : CollRun) (rank ph st : Nat) : CollRun :=
  { r with inbox := r.inbox.filter fun a => !(decide (a.rank = rank ∧ a.phase = ph ∧ a.step = st)) }

/-! ### Exchange by table (R324, R325) -/

/-- Bytes of a token. -/
def CollRun.token (r : CollRun) : Nat := elemsBytes r.fmt r.count

/-- Writes a 32-bit count. -/
def State.putCount (s : State) (r : CollRun) (a j v : Nat) : State × Option Err := s.collWrite r.owner r.eng r.profile a (4 * j) (leBytes 4 v)

/-- Two writes in order. -/
def andThen (x : State × Option Err) (g : State → State × Option Err) : State × Option Err :=
  match x with
  | (s, none) => g s
  | (s, some e) => (s, some e)

/-- Keeps a failed write as the error the command ends with. -/
def State.noteErr (x : State × Option Err) (o : Owner) : State :=
  match x with
  | (s, none) => s
  | (s, some e) => s.flightErr (some o) e

/-- The tokens of a block from rank `j`: the accepted ones land in DST, the others return on the spill lane (R324). -/
def State.takeTokens (s : State) (r : CollRun) (j : Nat) (bs : List Byte) : State × Option Err :=
  let tok := max 1 r.token
  let x := r.table.getD j ⟨0, 0, 0, 0⟩
  let n := bs.length / tok
  let a := min n x.cap
  let w := andThen (s.collWrite r.owner r.eng r.profile r.dst (x.recvOfs * tok) (bs.take (a * tok))) fun u => u.putCount r r.recvAt j a
  let t := ((State.noteErr w r.owner).bump (R.COLL.TOK_RECV r.eng) a).bump R.LEDG.TOK_RECV a
  if n = a then (t, none)
  else ((t.bump (R.COLL.TOK_BOUNCED r.eng) (n - a)).bump R.LEDG.TOK_BOUNCED (n - a)).sendData r 1 0 j 0 (bs.drop (a * tok))

/-- The tokens that rank `j` returned: they go to SPILL at their place in SRC (R324). -/
def State.takeSpill (s : State) (r : CollRun) (j a : Nat) (bs : List Byte) : State :=
  let tok := max 1 r.token
  let x := r.table.getD j ⟨0, 0, 0, 0⟩
  let n := bs.length / tok
  let w := andThen (s.collWrite r.owner r.eng r.profile r.spillAt ((x.sendOfs + a) * tok) bs) fun u => u.putCount r r.retAt j n
  ((State.noteErr w r.owner).bump (R.COLL.TOK_RET r.eng) n).bump R.LEDG.TOK_RET n

/-- The member's own block of an exchange by table, by the engine's local path (R322, R324, R325). -/
def State.ownBlock (s : State) (r : CollRun) : State :=
  let t := r.table.getD r.desc.rank ⟨0, 0, 0, 0⟩
  let tok := max 1 r.token
  let n := min t.send t.cap
  let mine := (r.own.drop (sendStarts tok r.table r.desc.rank)).take (t.send * tok)
  let sum := (r.table.map XchgRow.send).sum
  let u := (((s.bump (R.COLL.TOK_SENT r.eng) sum).bump R.LEDG.TOK_SENT sum).bump (R.COLL.TOK_BOUNCED r.eng) (t.send - n)).bump
    R.LEDG.TOK_BOUNCED (t.send - n)
  let w := andThen (u.collWrite r.owner r.eng r.profile r.dst (t.recvOfs * tok) (mine.take (n * tok))) fun v =>
    v.putCount r r.recvAt r.desc.rank n
  (((State.noteErr w r.owner).bump (R.COLL.TOK_RECV r.eng) n).bump R.LEDG.TOK_RECV n).takeSpill r r.desc.rank n (mine.drop (n * tok))

/-! ### Running -/

/-- The final bytes at DST: triples fill their slots (R312). -/
def CollRun.output (r : CollRun) : List Byte :=
  let b := if r.op = 1 then
      let n := r.buf.length / max 1 r.desc.size
      (r.buf.drop (r.desc.rank * n)).take n
    else if r.op = 3 then r.own else r.buf
  if r.fmt = 7 ∧ r.op ≤ 1 then (unitsOf 483 b).flatMap fun t => t ++ List.replicate 29 0 else b

/-- The collective is done at this member: DST holds its final values and everything sent is acknowledged (R326). -/
def State.finishRun (s : State) (r : CollRun) : State :=
  let w := if r.op = 4 then (s, none) else s.collWrite r.owner r.eng r.profile r.dst 0 r.output
  ((State.noteErr w r.owner).bump (R.COLL.COLLS r.eng) 1).dropRun r none

/-- What follows one action: it waits, the member goes on with a state, or the collective is over. -/
inductive CollStep where
  | wait
  | go (s : State)
  | done (s : State)

/-- One action of a collective. -/
def State.collAct (s : State) (r : CollRun) (a : CollAct) : CollStep :=
  let on := fun (u : State) (g : CollRun → CollRun) => CollStep.go (u.onRun r.entry r.seq g)
  match a with
  | .send ph st dst x y =>
    if x = y ∧ r.op ≠ 4 then .go s
    else
      match s.sendData r ph st dst (r.sendAt ph st dst x) ((r.buf.drop (x * r.unit)).take ((y - x) * r.unit)) with
      | (u, none) => .go u
      | (u, some e) => .done (u.endRun r e)
  | .recv ph st src x y add =>
    if x = y then .go s
    else
      match r.arrived src ph st with
      | none => .wait
      | some bs =>
        if add then
          let u := if r.kind = 1 then s.ranStages (y - x) else s
          match combineAll r.kind r.unit s.tile.slips ((r.buf.drop (x * r.unit)).take ((y - x) * r.unit)) bs with
          | .ok z => on (if r.kind = 1 then u.bump (R.COLL.TRIPLES_ADDED r.eng) (y - x) else u)
              fun v => { v.taken src ph st with buf := splice v.buf (x * r.unit) z }
          | .error .anchor => .done (u.failRun r .XB40_ANCHOR_MISMATCH)
          | .error .residue => .done (u.failRun r .RESIDUE_MISMATCH)
          | .error .range => .done (u.failRun r .XB40_RANGE)
        else on s fun v => { v.taken src ph st with buf := splice v.buf (x * r.unit) bs }
  | .acked => if r.unacked.isEmpty then .go s else .wait
  | .ackedBy k => if r.unacked.any fun u => decide (u.rank = k ∧ u.phase = 0) then .wait else .go s
  | .heard => if (List.range r.desc.size).all fun j => j = r.desc.rank || r.heard.contains j then .go s else .wait
  | .self => .go (s.ownBlock r)
  | .form => if r.codeOver then .done (s.failRun r .XB40_ANCHOR_MISMATCH) else on s fun v => { v with buf := formTriples v, unit := 483, kind := 1 }
  | .round x y => on s fun v => v.rounded x y
  | .take src =>
    match r.arrived src 0 0 with
    | none => .wait
    | some bs => on s fun v => { v.taken src 0 0 with own := splice v.own (src * r.token) bs }
  | .tokens src =>
    match r.arrived src 0 0 with
    | none => .wait
    | some bs =>
      match (s.onRun r.entry r.seq fun v => v.taken src 0 0).takeTokens r src bs with
      | (u, none) => .go u
      | (u, some e) => .done (u.endRun r e)
  | .spill j =>
    match Cells.get none r.counts j with
    | none => .wait
    | some c =>
      let sent := (r.table.getD j ⟨0, 0, 0, 0⟩).send
      if sent < c then .done (s.failRun r .TOKEN_LEDGER)
      else if sent = c then
        if r.inbox.any fun a => decide (a.rank = j ∧ a.phase = 1) then .done (s.failRun r .TOKEN_LEDGER) else .go (s.takeSpill r j c [])
      else
        match r.arrived j 1 0 with
        | none => .wait
        | some bs =>
          if bs.length = (sent - c) * max 1 r.token then
            .go ((s.onRun r.entry r.seq fun v => v.taken j 1 0).takeSpill r j c bs)
          else .done (s.failRun r .TOKEN_LEDGER)

/-- Runs a collective as far as it goes. A stalled one does nothing. -/
def State.collGo (s : State) (n seq fuel : Nat) : State :=
  match fuel with
  | 0 => s
  | fuel + 1 =>
    match s.collRun n seq with
    | none => s
    | some r =>
      if r.stalled.isSome then s
      else
        match r.prog with
        | [] => if r.unacked.isEmpty then s.finishRun r else s
        | a :: rest =>
          match s.collAct r a with
          | .wait => s
          | .done u => u
          | .go u => (u.onRun n seq fun v => { v with prog := rest }).collGo n seq fuel

/-- Runs a collective. -/
def State.collAdvance (s : State) (n seq : Nat) : State :=
  match s.collRun n seq with
  | none => s
  | some r => s.collGo n seq (r.prog.length + 2)

/-! ### Start records (R314, R316) -/

/-- The code of a failed comparison. -/
def CollRun.mismatch (r : CollRun) (x : StartRec) : Option Err :=
  if x.chg ≠ r.chg then some .GEN_MISMATCH
  else if x.profile ≠ r.profile then some .PROFILE_MIX
  else errIf (!(x.op = r.op && x.fmt = r.fmt && x.count = r.count && x.size = r.desc.size)) .COLL_SHAPE

/-- A collective stalls (R316). -/
def State.stallRun (s : State) (r : CollRun) (rank : Nat) (e : Err) : State :=
  let g := grpPage r.entry
  let i := grpIdx r.entry
  let a := (((s.onRun r.entry r.seq fun v => { v with stalled := some e }).wr (R.COLL.GRP_STAT.STALL_CODE g i) e.code).wr
    (R.COLL.GRP_BAD_RANK.RANK g i) rank).wr (R.COLL.GRP_BAD_RANK.VALID g i) 1
  (((a.raiseFor (some r.owner) (pgCOLL r.eng) e r.entry).bump (R.COLL.STALLS r.eng) 1).irq (pgCOLL r.eng) 2).showGroup r.entry

/-- A peer's record is compared with this member's own. -/
def State.compareRec (s : State) (r : CollRun) (x : StartRec) : State :=
  if r.stalled.isSome then s
  else
    match r.mismatch x with
    | some e => s.stallRun r x.rank e
    | none => s.onRun r.entry r.seq fun v => { v with heard := v.heard ++ [x.rank] }

/-- The collective of a group identifier and SEQ that is in progress. -/
def State.runOfGroup (s : State) (id seq : Nat) : Option CollRun :=
  s.coll.runs.find? fun r => decide (r.desc.id = id ∧ r.seq = seq)

/-- A signed 32-bit difference of sequence numbers. -/
def seqDiff (a b : Nat) : Int := signed 32 (a + 2 ^ 32 - b)

/-- The entry of a partition whose descriptor names a group. -/
def State.entryOfGroup (s : State) (p id : Nat) : Option Nat :=
  (s.groupsOf p).find? fun n =>
    s.grpValid n && match Cells.get none s.coll.descs n with
      | some d => !d.tile && d.id = id
      | none => false

/-- Whether a collective of a group has already been issued by partition `p`. -/
def State.seqIssued (s : State) (p id seq : Nat) : Bool :=
  match s.entryOfGroup p id with
  | some n => decide (seqDiff seq (s.rd (R.COLL.GRP_SEQ (grpPage n) (grpIdx n))) ≤ 0)
  | none => false

/-! ### Data and acknowledgements (R317, R325, R326) -/

/-- A frame of data of a collective whose sender has been compared: its seals are checked, it is kept and acknowledged
with the count accepted. -/
def State.takeData (s : State) (r : CollRun) (f : Frame) (pos : CollPos) (d : List Byte) (seals : List Word) (first : Nat) : State :=
  let late := r.op = 4 && pos.phase = 1 && !r.prog.contains (.spill pos.rank)
  if !(badSpans first d seals).isEmpty then s.failRun r .SEAL_CARRIED
  else if late then s.failRun r .TOKEN_LEDGER
  else
    let put := fun (v : CollRun) =>
      let have_ := v.inbox.any fun a => decide (a.rank = pos.rank ∧ a.phase = pos.phase ∧ a.step = pos.step)
      if have_ then
        { v with inbox := v.inbox.map fun a =>
            if a.rank = pos.rank ∧ a.phase = pos.phase ∧ a.step = pos.step then { a with parts := a.parts ++ [(pos.off, d)] } else a }
      else { v with inbox := v.inbox ++ [⟨pos.rank, pos.phase, pos.step, pos.total, [(pos.off, d)]⟩] }
    let n := pos.total / max 1 r.token
    let acc := if r.op = 4 ∧ pos.phase = 0 then min n (r.table.getD pos.rank ⟨0, 0, 0, 0⟩).cap else n
    let a := (s.onRun r.entry r.seq put).bump (R.COLL.BYTES_RECV r.eng) d.length
    (a.answerOf f (some r.owner.part) (.collAck pos acc)).collAdvance r.entry r.seq

/-- COLL_DATA at its destination: taken once the sender's record has been compared, else kept (R314). Data of a
collective that has ended here is dropped. -/
def State.collData (s : State) (f : Frame) (pos : CollPos) (d : List Byte) (seals : List Word) (first : Nat) : State :=
  match s.runOfGroup pos.group pos.seq with
  | some r =>
    if r.heard.contains pos.rank ∧ r.stalled.isNone then s.takeData r f pos d seals first
    else s.onColl fun c => { c with early := c.early ++ [f] }
  | none =>
    if (List.range 8).any fun p => s.seqIssued p pos.group pos.seq then s
    else s.onColl fun c => { c with early := c.early ++ [f] }

/-- Takes the data that was kept for a collective. -/
def State.takeEarly (s : State) (fs : List Frame) : State :=
  match fs with
  | [] => s
  | f :: r =>
    (match f.body with
     | .collData pos d seals first =>
       match s.runOfGroup pos.group pos.seq with
       | some x =>
         if x.heard.contains pos.rank ∧ x.stalled.isNone then
           (s.onColl fun c => { c with early := c.early.erase f }).takeData x f pos d seals first
         else s
       | none => s
     | _ => s).takeEarly r

/-- START_RECORD at its member (R314): compared with this member's own, or kept until it issues. -/
def State.startRecord (s : State) (p : Nat) (x : StartRec) : State :=
  match s.runOfGroup x.group x.seq with
  | some r =>
    let a := s.compareRec r x
    (a.takeEarly a.coll.early).collAdvance r.entry r.seq
  | none => if s.seqIssued p x.group x.seq then s else s.onColl fun c => { c with records := c.records ++ [(p, x)] }

/-- COLL_ACK at the sender (R325, R326): the frame is no longer outstanding; the receiver's accepted count is kept. -/
def State.collAck (s : State) (tag : Nat) (pos : CollPos) (acc : Nat) : State :=
  match s.coll.runs.find? fun r => r.unacked.any fun u => decide (u.tag = tag) with
  | none => s
  | some r =>
    let u := (r.unacked.find? fun u => decide (u.tag = tag)).getD ⟨0, 0, 0, 0, 0⟩
    let a := (s.takeTxn tag).2.onRun r.entry r.seq fun v => { v with
      unacked := v.unacked.filter fun w => decide (w.tag ≠ tag)
      ackers := if v.ackers.contains u.rank then v.ackers else v.ackers ++ [u.rank]
      counts := if r.op = 4 ∧ pos.phase = 0 then Cells.put none v.counts u.rank (some acc) else v.counts }
    a.collAdvance r.entry r.seq

/-! ### Abort (R316) -/

/-- GRP_ABORT_SEQ takes a SEQ that is later than the one it holds, and ABORT_VALID sets (R316; DEDUCED, log entry 84). -/
def State.noteAbort (s : State) (n seq : Nat) : State :=
  let g := grpPage n
  let i := grpIdx n
  (if 0 < seqDiff seq (s.rd (R.COLL.GRP_ABORT_SEQ g i)) then s.wr (R.COLL.GRP_ABORT_SEQ g i) seq else s).wr
    (R.COLL.GRP_STAT.ABORT_VALID g i) 1

/-- ABORT_NOTICE at a member: its collective ends, or the SEQ is recorded; a replay abort records nothing (R396). -/
def State.abortNotice (s : State) (p id seq code : Nat) (replay : Bool) : State :=
  match s.runOfGroup id seq with
  | some r => (s.irq (pgCOLL r.eng) 3).abortRun r ((Err.ofCode code).getD .COLL_ABORTED)
  | none =>
    if s.seqIssued p id seq ∨ replay then s
    else
      match s.entryOfGroup p id with
      | some n => (s.noteAbort n seq).irq (pgCOLL (s.grpEngine n)) 3
      | none => s.onColl fun c => { c with aborts := c.aborts ++ [(p, id, seq)] }

/-- COLL_ABORT (R316): ABORT written on an entry ends its stalled collective, else its oldest, on every member. -/
def State.collAbort (s : State) (n : Nat) : State :=
  let rs := s.grpRuns n
  match (rs.find? fun r => r.stalled.isSome).or rs.head? with
  | none => s
  | some r => (s.notify r Err.COLL_ABORTED.code false).abortRun r .COLL_ABORTED

def execCollAbort (p : Path) (n : Fin 256) (s : State) : Host.Outcome State Fault Refusal :=
  .next (s.onWrite p (R.COLL.GRP_CTRL (grpPage n) (grpIdx n)).addr 4 none fun s => (s.collAbort n.val))

/-- The replay abort of every node-group collective of partition `p` in progress (R396). -/
def State.replayAborts (s : State) (p : Nat) : State :=
  (s.coll.runs.filter fun r => decide (r.owner.part = p)).foldl (fun u r => (u.notify r Err.COLL_ABORTED.code true).abortRun r .COLL_ABORTED) s

/-- A node has left, or a transaction with it has ended: every collective with a member there ends (R337, R362). -/
def State.leaveColl (s : State) (node : Nat) : State :=
  (s.coll.runs.filter fun r => r.desc.members.any fun m => decide (m.1 = node)).foldl (fun u r => u.endRun r .NODE_UNREACHABLE) s

/-! ### Issue (R310, R311, R314, R315, R386) -/

/-- An entry's CHG and LAST_GEN at the issue of a collective on it, stamped with a generation (R315). -/
def State.stampGen (s : State) (n : Nat) : State :=
  let g := grpPage n
  let i := grpIdx n
  let gen := s.rd (R.PG.STAGE_GEN (pgCOLL (s.grpEngine n)))
  let chg := if !Cells.get false s.coll.used n then 0
    else if gen = s.rd (R.COLL.GRP_LAST_GEN g i) then s.rd (R.COLL.GRP_STAT.CHG g i) else s.rd (R.COLL.GRP_STAT.CHG g i) + 1
  ((s.wr (R.COLL.GRP_LAST_GEN g i) gen).wr (R.COLL.GRP_STAT.CHG g i) chg).onColl fun c => { c with used := Cells.put false c.used n true }

/-- A node-group collective takes its entry's next SEQ as well (R314). -/
def State.stampEntry (s : State) (n : Nat) : State :=
  (s.stampGen n).wr (R.COLL.GRP_SEQ (grpPage n) (grpIdx n)) (s.rd (R.COLL.GRP_SEQ (grpPage n) (grpIdx n)) + 1)

/-- One kind 4 message of an attempt (R387, R388). -/
def State.sendRetract (s : State) (r : Run) (d : Nat × Nat) : State :=
  let m := r.mark.getD (0, 0)
  (s.sendMsg (some r.part) d.1 d.2 (.retract ⟨r.step, r.att, r.part, m.1, s.rd (R.NOSE.JOB_TAG r.part), m.2⟩)).bump R.NOSE.RETRACTS_SENT 1

/-- The verdict destinations that a node group adds to the owner's step (R386); one added after a retraction gets a retraction at
once (R388). -/
def State.addDests (s : State) (o : Owner) (d : GroupDesc) : State :=
  let me := (s.rd R.MOD.FAB_NODE.NODE, o.part)
  match o.step with
  | none => s
  | some t =>
    let mine := fun (r : Run) => decide (r.part = o.part ∧ r.step = t.1 ∧ r.att = t.2)
    let a := (s.nose.runs.filter fun r => mine r && r.sent4).foldl (fun u r =>
      (d.members.filter fun m => decide (m ≠ me) && !(s.verdictDests r).contains m).foldl (fun v m => v.sendRetract r m) u) s
    (a.mapRuns mine fun r => { r with dests := (r.dests ++ d.members.filter fun m => decide (m ≠ me)).eraseDups }).showRuns o.part

/-- Whether the destinations of the owner's step would pass 8,192 (R386). -/
def State.destsFull (s : State) (o : Owner) (d : GroupDesc) : Bool :=
  match o.step with
  | none => false
  | some t =>
    match s.runOf o.part t.1 with
    | none => false
    | some r => s.stepActive o.part && decide (8192 < (s.verdictDests r ++ d.members.filter fun m =>
        decide (m ≠ (s.rd R.MOD.FAB_NODE.NODE, o.part))).eraseDups.length)

/-- An entry binds (R310). -/
def State.bind (s : State) (n : Nat) (d : GroupDesc) : State :=
  let g := grpPage n
  let i := grpIdx n
  (((s.onColl fun c => { c with descs := Cells.put none c.descs n (some d) }).wr (R.COLL.GRP_RANK g i) d.rank).wr
    (R.COLL.GRP_SIZE g i) d.size).wr (R.COLL.GRP_STAT.STATE g i) 1

/-- Abort notices that came before the module knew the entry of their group. -/
def State.applyAborts (s : State) (p n : Nat) (d : GroupDesc) : State :=
  let mine := fun (x : Nat × Nat × Nat) => decide (x.1 = p ∧ x.2.1 = d.id)
  ((s.coll.aborts.filter mine).foldl (fun u x => u.noteAbort n x.2.2) s).onColl fun c => { c with aborts := c.aborts.filter fun x => !mine x }

/-- Whether the SEQ that entry `n` has just taken is covered by ABORT_SEQ (R316). -/
def State.seqAborted (s : State) (n : Nat) : Bool :=
  let g := grpPage n
  let i := grpIdx n
  s.on (R.COLL.GRP_STAT.ABORT_VALID g i) && decide (seqDiff (s.rd (R.COLL.GRP_SEQ g i)) (s.rd (R.COLL.GRP_ABORT_SEQ g i)) ≤ 0)

/-- What a collective takes from memory at its issue: the bytes of SRC, and its exchange table. -/
def State.ownBytes (s : State) (o : Owner) (x : CollWork) (d : GroupDesc) (rows : List XchgRow) : State × Except Err (List Byte) :=
  let tok := elemsBytes x.fmt x.count
  match x.op with
  | 0 | 2 => s.collRead o x.src 0 tok
  | 1 | 3 => s.collRead o x.src 0 (tok * d.size)
  | 4 => rows.foldl (fun u r =>
      match u with
      | (a, .error e) => (a, .error e)
      | (a, .ok bs) =>
        match a.collRead o x.src (r.sendOfs * tok) (r.send * tok) with
        | (b, .error e) => (b, .error e)
        | (b, .ok cs) => (b, .ok (bs ++ cs))) (s, .ok [])
  | _ => s.collRead o x.src 0 x.count

/-- A node-group collective starts: its peers get its record, records that have come are compared, and it runs (R314). Its own data
reaches the engine with its carried seals, and fails the collective there (R375, R376). -/
def State.startColl (s : State) (o : Owner) (x : CollWork) (d : GroupDesc) (tab : List XchgRow × Nat × Nat × Nat) : State :=
  let g := grpPage x.grp
  let i := grpIdx x.grp
  let eng := s.grpEngine x.grp
  match s.ownBytes o x d tab.1 with
  | (a, .error e) => ((a.flightErr (some o) e).settleGroup x.grp)
  | (v, .ok src) =>
    let z := v.carry (firstSpan (byteBase x.src)) src
    let a := z.1
    let own := z.2.1
    let prog := collProg x d tab.1
    let buf := startBuf x d own
    let r : CollRun :=
      { entry := x.grp, eng := eng, owner := o, desc := d, op := x.op, fmt := x.fmt, count := x.count, profile := x.prof
        src := x.src, dst := x.dst, seq := a.rd (R.COLL.GRP_SEQ g i), chg := a.rd (R.COLL.GRP_STAT.CHG g i)
        heard := [], ackers := [], stalled := none, own := own, buf := buf, unit := (startUnit x).1, kind := (startUnit x).2
        prog := prog, inbox := [], unacked := [], counts := [], table := tab.1, spillAt := tab.2.1, recvAt := tab.2.2.1
        retAt := tab.2.2.2 }
    let special := x.prof = 2 && x.op ≤ 1 && (x.fmt = 0 || x.fmt = 1) && buf.any fun c => c.toNat = 255
    let b := (a.onColl fun c => { c with runs := c.runs ++ [r] }).onFlight o.queue o.idx fun f => { f with left := 1 }
    let c := if special then b.raiseFor (some o) (pgCOLL eng) .SPECIAL_OPERAND x.grp else b
    let e := ((sendsTo prog).foldl (fun u k =>
      let m := d.members.getD k (0, 0)
      u.sendMsg (some o.part) m.1 m.2 (.start r.record)) c).addDests o d
    let got := e.coll.records.filter fun y => decide (y.1 = o.part ∧ y.2.group = d.id ∧ y.2.seq = r.seq)
    let h := got.foldl (fun u y => match u.collRun r.entry r.seq with
      | some v => u.compareRec v y.2
      | none => u) (e.showGroup x.grp)
    if z.2.2.isEmpty then (h.takeEarly h.coll.early).collAdvance r.entry r.seq else h.failRun r .SEAL_CARRIED

/-! ### Tile groups (R312, R321) -/

/-- The sub-groups of a tile group: their tiles in raster order. -/
def subGroups (d : GroupDesc) : List (List Nat) :=
  let x := tileSetOf d.tileset
  (List.range (x.rows / max 1 d.subRows)).flatMap fun a => (List.range (x.cols / max 1 d.subCols)).map fun b =>
    (List.range d.subRows).flatMap fun i => (List.range d.subCols).map fun j =>
      x.first + 40 * (a * d.subRows + i) + b * d.subCols + j

/-- The byte maximum of arrays, read tile by tile; a carried seal that fails at the engine ends it (R375, R376). -/
def State.maxCodes (s : State) (o : Owner) (eng a n : Nat) (ts : List Nat) (acc : List Byte) : State × Except Err (List Byte) :=
  match ts with
  | [] => (s, .ok acc)
  | t :: r =>
    match s.spadBytes (some o) t (4 * adrWord a) n with
    | (u, .error e) => (u, .error e)
    | (u, .ok bs) =>
      let z := u.carry 512 bs
      if z.2.2.isEmpty then z.1.maxCodes o eng a n r (List.zipWith (fun x y => if x.toNat < y.toNat then y else x) acc z.2.1)
      else (z.1.sealFail (some o) (pgCOLL eng) .SEAL_CARRIED, .error .SEAL_CARRIED)

/-- One sub-group's exchange: every tile of it writes the maximum to DST. -/
def State.anchorGroup (s : State) (o : Owner) (eng : Nat) (x : CollWork) (ts : List Nat) : State :=
  match s.maxCodes o eng x.src x.count ts (List.replicate x.count 0) with
  | (a, .error e) => a.flightErr (some o) e
  | (a, .ok m) =>
    let b := ts.foldl (fun u t =>
      if adrSpace x.dst = 3 then
        State.noteErr (u.remoteWrite (landingOf t (adrWin x.dst) (adrWord x.dst) (wordsOfBytes m) (.coll eng) (some o) x.prof 512)) o
      else State.noteErr (u.localPut o t (adrWord x.dst) (wordsOfBytes m)) o) a
    let n := ts.length * (ts.length - 1) * x.count
    (b.bump (R.COLL.BYTES_SENT eng) n).bump (R.COLL.BYTES_RECV eng) n

/-- A tile-group ANCHOR: its sub-groups are independent. -/
def State.startTiles (s : State) (o : Owner) (x : CollWork) (d : GroupDesc) : State :=
  let eng := s.grpEngine x.grp
  (((subGroups d).foldl (fun u ts => u.anchorGroup o eng x ts) s).bump (R.COLL.COLLS eng) 1).settleGroup x.grp

/-! ### COLLECTIVE at HEAD -/

/-- The checks of R311 before the context, with the descriptor they leave. -/
def State.groupChecks (s : State) (p : Nat) (x : CollWork) : State × Except Err GroupDesc :=
  let n := x.grp
  let eng := s.grpEngine n
  if !(s.groupsOf p).contains n ∨ !s.grpValid n ∨ nibblePart (s.act (R.MOD.COLL_ASSIGN eng)) ≠ some p ∨
      !s.on (R.PG.CTRL.EN (pgCOLL eng)) then (s, .error .GROUP_ENTRY)
  else
    match s.grpBound n, Cells.get none s.coll.descs n with
    | true, some d => (s, .ok d)
    | _, _ =>
      match s.readGroup p (s.rd (R.COLL.GRP_DESC (grpPage n) (grpIdx n))) with
      | (a, .error e) => (a, .error e)
      | (a, .ok d) => (a, if a.groupPlace p n d then .ok d else .error .GROUP_DESC)

/-- The exchange table of OPCODE 4 (R311 check 5, R323). -/
def State.tableCheck (s : State) (o : Owner) (x : CollWork) (d : GroupDesc) : State × Except Err (List XchgRow × Nat × Nat × Nat) :=
  if x.op ≠ 4 then (s, .ok ([], 0, 0, 0))
  else if !s.collSpace o.part x.aux then (s, .error .DESC_READ)
  else
    match s.collRead o x.aux 0 (64 + 16 * d.size) with
    | (a, .error _) => (a, .error .DESC_READ)
    | (a, .ok bs) =>
      match xchgOf bs d.size (s.collMemory o.part) with
      | some t => (a, .ok t)
      | none => (a, .error .XCHG_TABLE)

/-- The contexts of an engine in use. -/
def State.ctxUsed (s : State) (e : Nat) : Nat := (allGroups.filter fun n => s.grpBound n && s.grpEngine n = e).length

/-- A collective whose checks have passed issues: its entry binds and its tiles or its members start (R313). -/
def State.beginColl (b : State) (p : Nat) (o : Owner) (q i e : Nat) (x : CollWork) (d : GroupDesc)
    (tab : List XchgRow × Nat × Nat × Nat) : State :=
  let eng := b.grpEngine x.grp
  if !b.grpBound x.grp ∧ 16 ≤ b.ctxUsed eng then (b.bump (R.COLL.GROUP_FULLS eng) 1).faultHead q e .GROUP_FULL
  else if d.tile then
    let f := b.newFlight q i e []
    (((b.stampGen x.grp).issue q f).bind x.grp d).startTiles f.owner x d
  else if b.destsFull o d then b.faultHead q e .VDEST_FULL
  else
    let c := (b.applyAborts p x.grp d).stampEntry x.grp
    if c.seqAborted x.grp then c.faultHead q e .COLL_ABORTED
    else
      let f := c.newFlight q i e []
      ((c.issue q f).bind x.grp d).startColl f.owner x d tab

/-- A COLLECTIVE at HEAD: the checks of R182 and R311 in their order, then its start. -/
def State.runColl (s : State) (q i e : Nat) : State :=
  let p := (s.queuePart q).getD 8
  let o := s.newOwner q i
  checked (firstErr [errIf (!s.collField q e) .CMD_FIELD, s.checkCounters q e, s.checkProfile e]) (s.faultHead q e)
    (given (s.bound q (field e 56 3 0) (collOf e).count 64) (s.faultHead q e .BOUND_RANGE) fun cnt =>
      let x : CollWork := { collOf e with count := cnt }
      if cnt = 0 then s.faultHead q e .BOUND_RANGE
      else if x.prof = 1 ∧ (isMx x.fmt ∨ x.fmt = 7) then s.faultHead q e .PROFILE_FORMAT
      else
        let r := s.groupChecks p x
        judged r.2 (r.1.faultHead q e) fun d =>
          checked (r.1.collFormat p x d) (r.1.faultHead q e)
            (let t := r.1.tableCheck o x d
             judged t.2 (t.1.faultHead q e) fun tab => t.1.beginColl p o q i e x d tab))

/-- The issue of a COLLECTIVE that `c` accepts. -/
def State.issueColl (s : State) (q : Nat) (c : Nat → Bool) : State :=
  s.issueHead q (fun e => cmdClass e = clsCollective && c (cmdOp e)) fun u i e => u.runColl q i e

/-- ALL_REDUCE (R317 to R320). -/
def execAllReduce (q : Fin 64) (s : State) : Host.Outcome State Fault Refusal := .next (s.issueColl q.val fun o => o = 0)
/-- REDUCE_SCATTER. -/
def execReduceScatter (q : Fin 64) (s : State) : Host.Outcome State Fault Refusal := .next (s.issueColl q.val fun o => o = 1)
/-- ALL_GATHER. -/
def execAllGather (q : Fin 64) (s : State) : Host.Outcome State Fault Refusal := .next (s.issueColl q.val fun o => o = 2)
/-- ALL_TO_ALL with equal sizes (R322). -/
def execAllToAll (q : Fin 64) (s : State) : Host.Outcome State Fault Refusal := .next (s.issueColl q.val fun o => o = 3)
/-- ALL_TO_ALL with unequal sizes (R323 to R325). -/
def execAllToAllUnequal (q : Fin 64) (s : State) : Host.Outcome State Fault Refusal := .next (s.issueColl q.val fun o => o = 4)
/-- ANCHOR (R312, R321). An operation code that no row names is judged with this row. -/
def execAnchorCmd (q : Fin 64) (s : State) : Host.Outcome State Fault Refusal := .next (s.issueColl q.val fun o => 5 ≤ o)

end Sys2Proof.Machine
end

