-- ==== Sys2Proof/Machine/Sillage.lean ====
section
/-! DEFINITION. The Sillage engines (R208 to R227): acceptance and merging, fetches, injection, credits and
acknowledgements. -/

namespace Sys2Proof.Machine

/-! ### Acceptance and merging (R213, R217, R219, R222) -/

/-- The first waiting transfer of engine `e` of queue `q`. -/
def State.waitingOf (s : State) (e q : Nat) : Option Xfer :=
  (s.stream.waiting.find? fun x => decide (x.1 = e ∧ x.2.owner.queue = q)).map Prod.snd

/-- The transfer that engine `e` accepts next: its queues are taken in rotation, from the one after the queue served
last (R181, R213). -/
def State.nextXfer (s : State) (e : Nat) : Option Xfer :=
  let last := Cells.get 63 s.stream.lastQ e
  (List.range 64).findSome? fun i =>
    let q := (last + 1 + i) % 64
    if s.queueRoom q then s.waitingOf e q else none

/-- Whether two transfers have one merge key (R217). -/
def sameKey (x y : Xfer) : Bool := decide (x.src = y.src ∧ x.n = y.n ∧ x.sfmt = y.sfmt ∧ x.dfmt = y.dfmt)

/-- Whether a transfer of engine `e` joins an entry (R217, R220). -/
def joins (e : Nat) (x : Xfer) (m : MergeEntry) : Bool :=
  decide (m.eng = e) && m.issued.isNone && decide (m.xfers.length < m.maxJoin) && (m.xfers.head?.any fun y => sameKey x y)

/-- Whether a transfer enters an injection group (R219). -/
def fitsGroup (x : Xfer) (g : Group) : Bool :=
  (g.xfers.head?.any fun y => decide (y.win = x.win ∧ y.off = x.off)) && g.xfers.all fun y => y.tiles.all fun t => !x.tiles.contains t

/-- The groups of an entry with one more transfer. -/
def addToGroups (x : Xfer) (gs : List Group) : List Group :=
  match gs with
  | [] => [⟨[x], 0⟩]
  | g :: r => if fitsGroup x g then { g with xfers := g.xfers ++ [x] } :: r else g :: addToGroups x r

/-- A new entry: HOLD and MAX_JOIN as MERGE_CFG has them (R217, R220). -/
def State.newEntry (s : State) (e : Nat) (x : Xfer) : MergeEntry :=
  let on := s.act (R.SILL.MERGE_CFG.EN e) = 1
  { id := s.stream.nextId, eng := e, xfers := [x], groups := [⟨[x], 0⟩], born := s.now
    hold := if on then s.act (R.SILL.MERGE_CFG.HOLD e) else 0
    maxJoin := if on then s.act (R.SILL.MERGE_CFG.MAX_JOIN e) else 1
    issued := none, slow := false, bytes := [], seals := [], err := none, words := none }

/-- A transfer is accepted: it takes a slot of its queue and of its engine, and joins an entry or creates one. -/
def State.accept (s : State) (e : Nat) (x : Xfer) : State :=
  let q := x.owner.queue
  let a := (s.onStream fun m => { m with
    waiting := m.waiting.filter fun y => decide (y.2.id ≠ x.id), lastQ := Cells.put 63 m.lastQ e q }).takeSlot q
  let b := (a.bump (R.SILL.XFERS e) 1).tally (R.SILL.STAT.SLOTS_USED e) 1
  match s.stream.entries.find? (joins e x) with
  | some m =>
    (b.onStream fun z => { z with entries := z.entries.map fun y =>
      if y.id = m.id then { y with xfers := y.xfers ++ [x], groups := addToGroups x y.groups } else y }).bump (R.SILL.JOINS e) 1
  | none =>
    ((b.onStream fun z => { z with entries := z.entries ++ [s.newEntry e x], nextId := z.nextId + 1 }).bump
      (R.SILL.ENTRIES e) 1).tally (R.SILL.STAT.OPEN e) 1

/-- TRANSFER_ACCEPT (R213, R232, R233): an enabled engine with a free slot reads on in its row lists, and accepts one transfer. -/
def execTransferAccept (e : Fin 16) (s : State) : Host.Outcome State Fault Refusal :=
  .next (if s.engineOpen e then
      let a := s.feedGathers e
      match a.nextXfer e with
      | some x => a.accept e x
      | none => a
    else s)

/-! ### Completion of transfers (R213, R216, R221) -/

/-- A transfer completes: its slots are free and its STREAM has one piece less to do. -/
def State.xferDone (s : State) (e : Nat) (x : Xfer) : State :=
  ((s.tally (R.SILL.STAT.SLOTS_USED e) (-1)).pieceDone x.owner).freeSlot x.owner.queue

/-- Whether no destination of a transfer is still to acknowledge or discard its write. -/
def State.xferOver (s : State) (x : Xfer) : Bool :=
  !s.stream.drops.any (fun d => decide (d.xfer.id = x.id)) &&
    !s.stream.entries.any (fun m => m.groups.any fun g => g.xfers.any fun y => decide (y.id = x.id))

/-- The first drop of an engine at a tile that `c` accepts. -/
def State.dropOf (s : State) (e t : Nat) (c : Drop → Bool) : Option Drop :=
  s.stream.drops.find? fun d => decide (d.eng = e ∧ d.tile = t) && c d

/-- Takes a drop away; its transfer completes with the last of them. -/
def State.endDrop (s : State) (d : Drop) : State :=
  let a := s.onStream fun m => { m with drops := m.drops.erase d }
  if a.xferOver d.xfer then a.xferDone d.eng d.xfer else a

/-! ### Fetches (R217, R218, R221, R226) -/

/-- Changes one entry. -/
def State.onEntry (s : State) (id : Nat) (g : MergeEntry → MergeEntry) : State :=
  s.onStream fun m => { m with entries := m.entries.map fun y => if y.id = id then g y else y }

/-- Entry `id` of engine `e`. -/
def State.entryOf (s : State) (e id : Nat) : Option MergeEntry :=
  if s.edgeOn e then s.stream.entries.find? fun m => decide (m.eng = e ∧ m.id = id) else none

/-- The source's bytes are there, sealed (R375). -/
def State.fetched (s : State) (m : MergeEntry) (x : Xfer) (bs : List Byte) : State :=
  s.onEntry m.id fun y => { y with bytes := bs, seals := sealsOf (firstSpan (byteBase x.src)) bs }

/-- What a source on this node gives at the issue of a fetch (R218); a fetch from host memory or from another node leaves as read
requests. The bonded tier no engine reads (R209). -/
def State.fetchData (s : State) (m : MergeEntry) (x : Xfer) : State :=
  match s.endOf x.src with
  | .host =>
    if s.hostUp then s.hostAsk x.owner m.id (adrHost x.src) x.n
    else
      ((s.hostFail (some x.owner) x.owner.part (adrHost x.src) x.n).1.onEntry m.id fun y => { y with err := some .HOST_LINK }).bump
        R.HOST.LINK_ENDS (m.xfers.length - 1)
  | .node =>
    match s.request (adrNode x.src) (adrOff x.src) x.owner.part (.readReq (x.n / 4)) (.fetch m.eng m.id) with
    | (a, none) => a
    | (a, some er) => (a.raiseFor (some x.owner) (pgSILL m.eng) er).onEntry m.id fun y => { y with err := some er }
  | .bond _ => (s.raiseFor (some x.owner) (pgSILL m.eng) .SILL_ROUTE).onEntry m.id fun y => { y with err := some .SILL_ROUTE }
  | _ =>
    match s.memRead (some x.owner) (.part x.owner.part) (adrOff x.src) x.n with
    | (a, .ok bs) => a.fetched m x bs
    | (a, .error er) => a.onEntry m.id fun y => { y with err := some er }

/-- FETCH_ISSUE (R217): HOLD ticks have passed since the entry's creation, or it holds MAX_JOIN transfers, and the
source accepts its fetch. -/
def execFetchIssue (e : Fin 16) (id : Nat) (s : State) : Host.Outcome State Fault Refusal :=
  .next (match s.entryOf e id with
    | none => s
    | some m =>
      match m.issued, m.xfers.head? with
      | none, some x =>
        if m.born + m.hold ≤ s.now ∨ m.maxJoin ≤ m.xfers.length then
          let a := ((s.bump (R.SILL.FETCHES e) 1).bump (R.SILL.BYTES_FETCHED e) x.n).tally (R.SILL.STAT.OPEN e) (-1)
          (a.onEntry id fun y => { y with issued := some s.now }).fetchData m x
        else s
      | _, _ => s)

/-- Marks the steps of the owners of an entry other than the first, which the error itself has marked (R271, R378). -/
def State.markOwners (s : State) (er : Err) (xs : List Xfer) : State :=
  let tags := ((xs.drop 1).filterMap fun x => x.owner.step.map fun n => (x.owner.part, n)).eraseDups
  let first := xs.head?.bind fun x => x.owner.step.map fun n => (x.owner.part, n)
  if er.cls ≠ 2 then s
  else (tags.filter fun t => some t ≠ first).foldl (fun u t => u.mark t.1 t.2.1 t.2.2 er.code) s

/-- A fetch fails with the source's error, or with the carried seal's (R221, R376): every transfer of the entry
completes without data, and every owning STREAM ends with SILL_FETCH. -/
def State.failFetch (s : State) (m : MergeEntry) (er : Err) : State :=
  let e := m.eng
  let o := m.xfers.head?.map Xfer.owner
  let a := (s.markOwners er m.xfers).raiseFor o (pgSILL e) .SILL_FETCH
  let b := if a.on (R.SILL.FAIL_INFO.VALID e) then a
    else (((a.wr (R.SILL.FAIL_INFO.CODE e) er.code).wr (R.SILL.FAIL_INFO.QUEUE e) ((o.map Owner.queue).getD 0)).wr
      (R.SILL.FAIL_ADDR e) ((m.xfers.head?.map Xfer.src).getD 0)).wr (R.SILL.FAIL_INFO.VALID e) 1
  let c := ((b.bump (R.SILL.FETCH_FAILS e) 1).irq (pgSILL e) 2).onStream fun z =>
    { z with entries := z.entries.filter fun y => decide (y.id ≠ m.id) }
  m.xfers.foldl (fun u x => (u.flightErr (some x.owner) .SILL_FETCH).xferDone e x) c

/-- The destination words of fetched bytes, converted (R211). -/
def fetchWords (x : Xfer) (bs : List Byte) : List Word := wordsOfBytes (convertBytes x.sfmt x.dfmt bs)

/-- A fetch's data as it arrives at the engine, and whether a carried seal of it fails there (R375). -/
def State.fetchArrives (s : State) (m : MergeEntry) (x : Xfer) : State × List Byte × Bool :=
  let y := s.onWire m.bytes
  (y.1, y.2, !(badSpans (firstSpan (byteBase x.src)) y.2 m.seals).isEmpty)

/-- A fetch whose carried seal fails at the engine fails with SEAL_CARRIED, raised in the SILL page (R221, R376). -/
def State.sealFetch (s : State) (m : MergeEntry) (x : Xfer) : State :=
  (s.sealFail (some x.owner) (pgSILL m.eng) .SEAL_CARRIED).failFetch m .SEAL_CARRIED

/-- FETCH_RETURN (R218): the source's data, or its error, arrives. -/
def execFetchReturn (e : Fin 16) (id : Nat) (s : State) : Host.Outcome State Fault Refusal :=
  .next (match s.entryOf e id with
    | none => s
    | some m =>
      match m.issued, m.words, m.err, m.xfers.head? with
      | some _, none, some er, _ => s.failFetch m er
      | some _, none, none, some x =>
        if m.bytes.length = x.n then
          let a := s.fetchArrives m x
          if a.2.2 then a.1.sealFetch m x else a.1.onEntry id fun y => { y with words := some (fetchWords x a.2.1) }
        else s
      | _, _, _, _ => s)

/-- FETCH_FAIL (R221): a fetch whose source gave an error fails, and one whose data has arrived with a carried seal that fails. -/
def execFetchFail (e : Fin 16) (id : Nat) (s : State) : Host.Outcome State Fault Refusal :=
  .next (match s.entryOf e id with
    | none => s
    | some m =>
      match m.issued, m.words, m.err, m.xfers.head? with
      | some _, none, some er, _ => s.failFetch m er
      | some _, none, none, some x =>
        let a := s.fetchArrives m x
        if m.bytes.length = x.n ∧ a.2.2 then a.1.sealFetch m x else s
      | _, _, _, _ => s)

/-- FETCH_SLOW (R226): a fetch outstanding for FETCH_WARN ticks, once. -/
def execFetchSlow (e : Fin 16) (id : Nat) (s : State) : Host.Outcome State Fault Refusal :=
  let w := s.rd (R.SILL.FETCH_WARN e)
  .next (match s.entryOf e id with
    | none => s
    | some m =>
      match m.issued with
      | some t =>
        if w ≠ 0 ∧ m.words.isNone ∧ !m.slow ∧ t + w ≤ s.now then
          (((s.onEntry id fun y => { y with slow := true }).raiseFor (m.xfers.head?.map Xfer.owner) (pgSILL e)
            .FETCH_SLOW).bump (R.SILL.FETCH_SLOW e) 1).irq (pgSILL e) 3
        else s
      | none => s)

/-! ### Injection (R214, R219, R223, R224) -/

/-- Words of one flit, and the flits of a write. -/
def flitWords : Nat := 32
def flitsOf (words : Nat) : Nat := cdiv words flitWords

/-- The key of an engine's credits at a tile. -/
def creditKey (e t : Nat) : Nat := e * 1024 + t

/-- Whether the tree of engine `e` carries flits to tile `t`: only within the engine's partition (R215). -/
def State.treeReaches (s : State) (e t : Nat) : Bool := decide (s.senderPart (.sillage e) = s.partOfRow (t / 40))

/-- The tiles of a group that the tree reaches. -/
def State.groupTiles (s : State) (e : Nat) (g : List Xfer) : List Nat := (g.flatMap Xfer.tiles).filter (s.treeReaches e)

/-- Whether an engine holds a credit for every destination of a group (R223). -/
def State.hasCredits (s : State) (e : Nat) (g : List Xfer) : Bool :=
  (s.groupTiles e g).all fun t => decide (Cells.get 0 s.stream.credits (creditKey e t) < 32)

/-- The header of a transfer's write reaches one tile: the tile admits it, or refuses it whole (R214). A tile outside the engine's
partition refuses it with PARTITION_CROSS, and gets no flit (R132, R215; DEDUCED, log entry 80). -/
def State.openDrop (s : State) (e : Nat) (ws : List Word) (x : Xfer) (t : Nat) : State :=
  let l := landingOf t x.win x.off ws (.sillage e) (some x.owner) x.prof (if x.sfmt = x.dfmt then firstSpan (byteBase x.src) else 512)
  let drop := fun (u : State) (w : Option Landing) =>
    if u.treeReaches e t then u.onStream fun m => { m with drops := m.drops ++ [⟨e, t, x, w, flitsOf ws.length, 0, 0⟩] } else u
  match s.admitWrite l with
  | (a, none) => drop a (some l)
  | (a, some er) => drop (a.flightErr (some x.owner) er) none

/-- The headers of a group's writes, at its first flit. -/
def State.openDrops (s : State) (e : Nat) (ws : List Word) (g : List Xfer) : State :=
  g.foldl (fun u x => x.tiles.foldl (fun v t => v.openDrop e ws x t) u) s

/-- One flit of a group: it takes a credit of each destination. -/
def State.sendFlit (s : State) (e : Nat) (g : List Xfer) : State :=
  s.onStream fun m => { m with
    credits := (s.groupTiles e g).foldl (fun c t => Cells.put 0 c (creditKey e t) (Cells.get 0 c (creditKey e t) + 1)) m.credits
    drops := m.drops.map fun d => if d.eng = e ∧ g.any (fun x => decide (x.id = d.xfer.id)) then { d with sent := d.sent + 1 } else d
    sent := if m.sent.contains e then m.sent else m.sent ++ [e] }

/-- The last flit of a group has been injected: the group is counted, and the buffer is released with the last group
(R219, R224). A transfer that the tree carries to no tile is over. -/
def State.closeGroup (s : State) (e id : Nat) (g : Group) : State :=
  let a := (s.bump (R.SILL.INJECTIONS e) 1).onEntry id fun y => { y with groups := y.groups.erase g }
  let b := a.onStream fun m => { m with entries := m.entries.filter fun y => !(decide (y.id = id) && y.groups.isEmpty) }
  g.xfers.foldl (fun u x => if x.tiles.any (u.treeReaches e) then u else u.xferDone e x) b

/-- The next flit of group `g` of an entry is injected. -/
def State.injectFlit (s : State) (e id : Nat) (ws : List Word) (g : Group) : State :=
  let a := if g.flits = 0 then s.openDrops e ws g.xfers else s
  let g' : Group := { g with flits := g.flits + 1 }
  let b := (a.sendFlit e g.xfers).onEntry id fun y => { y with groups := y.groups.map fun z => if z = g then g' else z }
  if flitsOf ws.length ≤ g'.flits then b.closeGroup e id g' else b

/-- INJECTION (R219, R223, R224): the next flit of an entry whose data is in its buffer: of the first of its groups for which the
engine has a credit for every destination. A group that lacks one holds back no other. -/
def execInjection (e : Fin 16) (id : Nat) (s : State) : Host.Outcome State Fault Refusal :=
  .next (match s.entryOf e id with
    | none => s
    | some m =>
      match m.words, m.groups.find? fun g => s.hasCredits e g.xfers with
      | some ws, some g => s.injectFlit e id ws g
      | _, _ => s)

/-- DROP_CREDIT_RETURN (R214, R223): the drop port passes the oldest flit it holds to the scratchpad, or discards it,
and returns its credit. A refused write completes there with its last flit. -/
def execDropCreditReturn (e : Fin 16) (t : Fin 960) (s : State) : Host.Outcome State Fault Refusal :=
  .next (match s.dropOf e t fun d => decide (d.passed < d.sent) with
    | none => s
    | some d =>
      let d' := { d with passed := d.passed + 1 }
      let k := creditKey e t
      let a := s.onStream fun m => { m with
        credits := Cells.put 0 m.credits k (Cells.get 0 m.credits k - 1)
        drops := m.drops.map fun y => if y = d then d' else y }
      if d.write.isNone ∧ d.total ≤ d'.passed then a.endDrop d' else a)

/-- Whether an admitted write must wait for an older one of its sender to overlapping words (R124). -/
def State.landsLater (s : State) (l : Landing) : Bool :=
  let at_ := fun (x : Landing) => s.rd (R.TILE.SPAD_WIN_BASE x.tile x.win) + x.off
  s.tile.landing.contains l && (s.tile.landing.takeWhile fun x => decide (x ≠ l)).any fun x => decide (x.sender = l.sender ∧ x.tile = l.tile) &&
    overlaps (at_ x) (at_ x + x.words.length) (at_ l) (at_ l + l.words.length)

/-- TRANSFER_ACK (R216): a destination whose write has all its flits lands it, after the older ones of the engine to the same
words (R124), with its carried seals checked at the drop port (R375), and acknowledges. -/
def execTransferAck (e : Fin 16) (t : Fin 960) (s : State) : Host.Outcome State Fault Refusal :=
  .next (match s.dropOf e t fun d => (d.write.any fun l => !s.landsLater l) && decide (d.total ≤ d.passed) with
    | none => s
    | some d =>
      match d.write with
      | none => s
      | some l => (if s.tile.landing.contains l then s.landNow l else s).endDrop d)

end Sys2Proof.Machine
end

