-- ==== Sys2Proof/Machine/Hold.lean ====
section
/-! DEFINITION. Holders of a partition in QUIESCE (R432), and the repairs that set the sparing holder. -/

namespace Sys2Proof.Machine

/-- The holders, as CFG.QHOLD numbers them. -/
def holdUser : Nat := 0
def holdSparing : Nat := 1
def holdReplay : Nat := 2
def holdHost : Nat := 3

/-- CFG.QHOLD of partition `p`. -/
def State.holders (s : State) (p : Nat) : Nat := s.rd (R.CFG.QHOLD p)

/-- Changes what partitions remember. -/
def State.onPart (s : State) (g : PartSt → PartSt) : State := { s with part := g s.part }

/-- Writes MOD.PART_STATE of partition `p`. -/
def State.setPartState (s : State) (p v : Nat) : State := s.wr (R.MOD.PART_STATE p) v

/-- Sets a holder of a defined partition; its queues stop at their next command boundary (R432). -/
def State.setHolder (s : State) (p h : Nat) : State :=
  let a := if s.holders p = 0 then s.onPart fun m => { m with ran := Cells.put false m.ran p false } else s
  a.wr (R.CFG.QHOLD p) (s.holders p ||| 2 ^ h)

/-- Whether an issued command of partition `p` is incomplete. -/
def State.partBusy (s : State) (p : Nat) : Bool :=
  (s.queuesOf p).any (fun q => !(s.q q).flights.isEmpty) ||
    (List.range 64).any fun q => (s.q q).flights.any fun f => decide (f.owner.part = p)

/-- A held partition whose commands have all completed reads QUIESCE, and remembers the state it came from (R432). -/
def State.reachQuiesce (s : State) (p : Nat) : State :=
  if s.holders p ≠ 0 ∧ (s.partState p = 3 ∨ s.partState p = 4) ∧ !s.partBusy p then
    (s.onPart fun m => { m with entry := Cells.put 0 m.entry p (s.partState p) }).setPartState p 5
  else s

/-- Clears a holder; `run` says that a run clears it. With the last holder the partition goes to RUN, if a run has
cleared the user's holder since it entered QUIESCE, or else to the state it entered QUIESCE from (R431, R432). -/
def State.clearHolder (s : State) (p h : Nat) (run : Bool) : State :=
  let left := s.holders p &&& (15 - 2 ^ h)
  let ran := run || Cells.get false s.part.ran p
  let a := (s.wr (R.CFG.QHOLD p) left).onPart fun m => { m with ran := Cells.put false m.ran p ran }
  if left = 0 ∧ s.partState p = 5 then
    (a.setPartState p (if ran then 4 else Cells.get 0 s.part.entry p)).onPart fun m => { m with ran := Cells.put false m.ran p false }
  else a

/-- A repair of partition `p` begins: the sparing holder is set (R432). -/
def State.beginRepair (s : State) (p key : Nat) : State :=
  (s.onPart fun m => { m with repairs := if m.repairs.contains (p, key) then m.repairs else m.repairs ++ [(p, key)] }).setHolder p holdSparing

/-- A repair ends; with the last of the partition the sparing holder clears. -/
def State.endRepair (s : State) (p key : Nat) : State :=
  let a := s.onPart fun m => { m with repairs := m.repairs.filter fun r => r ≠ (p, key) }
  if a.part.repairs.any fun r => decide (r.1 = p) then a else a.clearHolder p holdSparing false

/-- Whether a repair of a resource of partition `p` may copy now: the partition has stopped, or there is none. -/
def State.quiet (s : State) (p : Option Nat) : Bool :=
  match p with
  | none => true
  | some p => s.partState p ≠ 4 && !s.partBusy p

/-- The keys of repairs: a stack, a bank of a bonded region, a row. -/
def repairStack (k : Nat) : Nat := 0x10000 + k
def repairBank (t b : Nat) : Nat := 0x20000 + t * 16 + b
def repairRow (r : Nat) : Nat := 0x30000 + r

end Sys2Proof.Machine
end

