-- ==== Sys2Proof/Machine/Shift.lean ====
section
/-! DEFINITION. Row maps, row shifts and retired rows (R12, R14, R17, R30, R31, R444, R446). -/

namespace Sys2Proof.Machine

/-- Granules leave the operation in progress; GO reads 0 once none is left (R257). A release of them ends with it (R258). -/
def State.opDrop (s : State) (c : Nat → Bool) : State :=
  let s := s.onMem fun m => { m with leaving := Cells.clear m.leaving c }
  match s.mem.op with
  | none => s
  | some o =>
    let left := o.left.filter fun x => !c x
    if left.isEmpty then (s.onMem fun m => { m with op := none }).wr R.QUOTA.OP_CTRL.GO 0
    else s.onMem fun m => { m with op := some { o with left := left } }

/-- `n` granules leave TOTAL: each owned one is credited and counted as lost (R267). -/
def State.dropGrans (s : State) (x n : Nat) (c : Nat → Bool) : State :=
  let owned := s.mem.grans.filter fun g => c g.1
  let a := owned.foldl (fun u g => (u.moveGran g.1 ⟨0, 0⟩).bump R.QUOTA.LOST_GRANULES 1) s
  ((a.tally (R.QUOTA.TIER_TOTAL x) (-(n : Int))).tally (R.QUOTA.TIER_FREE x) (-(n : Int))).opDrop c

/-- Whether a granule has left TOTAL with its bonded region (R267): it is in no state, FREE or other. -/
def State.granGone (s : State) (g : Nat) : Bool := decide (g * granBytes < bondEnd) && Cells.get false s.mem.gone (g / bondGrans)

/-- The granules of a bonded region. -/
def bondGranOf (t g : Nat) : Bool := decide (t * bondGrans ≤ g ∧ g < (t + 1) * bondGrans)

/-- The bonded region of a tile has failed: its granules leave TOTAL, once (R267). -/
def State.dropRegion (s : State) (t : Nat) : State :=
  if Cells.get false s.mem.gone t then s
  else (s.dropGrans 0 bondGrans (bondGranOf t)).onMem fun m => { m with gone := Cells.put false m.gone t true }

/-! ### The row map (R14) -/

/-- The failed physical columns of a row, lowest first. -/
def State.failedCols (s : State) (r : Nat) : List Nat :=
  (if s.on (R.SPARE.ROWMAP.F1_VALID r) then [s.rd (R.SPARE.ROWMAP.F1 r)] else []) ++
    (if s.on (R.SPARE.ROWMAP.F2_VALID r) then [s.rd (R.SPARE.ROWMAP.F2 r)] else [])

/-- The physical column of logical column `c` past failed columns in rising order. -/
def physCol (failed : List Nat) (c : Nat) : Nat := failed.foldl (fun p f => if f ≤ p then p + 1 else p) c

/-- The physical column of a logical tile, and its supply domain (R12, R14). -/
def State.tileCol (s : State) (t : Nat) : Nat := physCol (s.failedCols (t / 40)) (t % 40)
def domainOf (row pcol : Nat) : Nat := row / 4 * 14 + pcol / 3
def State.tileDomain (s : State) (t : Nat) : Nat := domainOf (t / 40) (s.tileCol t)

/-- The logical tile that a physical tile carries, if any. -/
def State.tileAt (s : State) (r pcol : Nat) : Option Nat :=
  ((List.range 40).find? fun c => decide (physCol (s.failedCols r) c = pcol)).map fun c => r * 40 + c

/-- A failed column enters a row's map; the lower one is F1. `field` marks a field record's entry. -/
def State.addFailed (s : State) (r pcol : Nat) (field : Bool) : State :=
  let put1 := fun (u : State) v f => ((u.wr (R.SPARE.ROWMAP.F1 r) v).wr (R.SPARE.ROWMAP.F1_VALID r) 1).flag (R.SPARE.ROWMAP.F1_FIELD r) f
  let put2 := fun (u : State) v f => ((u.wr (R.SPARE.ROWMAP.F2 r) v).wr (R.SPARE.ROWMAP.F2_VALID r) 1).flag (R.SPARE.ROWMAP.F2_FIELD r) f
  if !s.on (R.SPARE.ROWMAP.F1_VALID r) then put1 s pcol field
  else
    let old := s.rd (R.SPARE.ROWMAP.F1 r)
    let f := s.on (R.SPARE.ROWMAP.F1_FIELD r)
    if old < pcol then put2 s pcol field else put1 (put2 s old f) pcol field

/-! ### Records and retirement (R17, R444) -/

/-- Changes what the island keeps. -/
def State.onIsland (s : State) (g : IslandSt → IslandSt) : State := { s with island := g s.island }

/-- The numbers of parts in the insertion counts: cassettes, cards, coupling pairs, sleds; all cages together. -/
def partCass (i : Nat) : Nat := i
def partCard (c : Port) : Nat := 14 + portIx c
def partPair (c : Port) : Nat := 16 + portIx c
def partSled (i : Nat) : Nat := 18 + i
def partCage : Nat := 22

/-- The insertions counted of a part. -/
def State.inserts (s : State) (part : Nat) : Nat := Cells.get 0 s.island.inserts part

/-- The summary record that a part's insertion count is in, and its payload (R479). -/
def State.insertSummary (s : State) (part : Nat) : Nat × List Byte :=
  if part < 18 then (0x0108 + part / 6, (List.range 6).flatMap fun j => leBytes 2 (s.inserts (part / 6 * 6 + j)))
  else (0x010B, ((List.range 4).flatMap fun j => leBytes 2 (s.inserts (18 + j))) ++ leBytes 4 (s.inserts partCage))

/-- An insertion of a part is counted, and its records are queued by the firmware (R475, R479, R482). -/
def State.countInsert (s : State) (part : Nat) : State :=
  let a := (s.onIsland fun i => { i with inserts := Cells.put 0 i.inserts part (s.inserts part + 1) }).journal jPartIn
  if a.firmware then a.queueTag 1 (a.insertSummary part).1 (a.insertSummary part).2 else a

/-- A field record is written into configuration flash, unless its 256 slots are used, and the event into the always-on log and
the tag (R30 step 5). -/
def State.spareRecord (s : State) (r pcol : Nat) : State :=
  if 256 ≤ s.island.spares.length then s
  else
    let n := (s.island.spares.map SpareRec.seq).foldl max 0
    let a := s.onIsland fun i => { i with
      spares := i.spares ++ [⟨r, pcol, s.time, s.rd R.FUSE.SERIAL, n + 1, true⟩], log := i.log ++ [.repair s.time r pcol] }
    (a.wr R.SPARE.RECORDS.USED (a.rd R.SPARE.RECORDS.USED + 1)).journal jRepair

/-- The code of a retirement in a record. -/
def retiredCol : Nat := 0x3F

/-- Shows a row retired. -/
def State.markRetired (s : State) (r : Nat) : State :=
  ((s.wr (R.SPARE.ROWMAP.RETIRED r) 1).wr R.MOD.RETIRED_ROWS (s.rd R.MOD.RETIRED_ROWS ||| 2 ^ r)).wr R.MOD.STATUS.ROW_RETIRED 1

/-- Changes the power state. -/
def State.onPower (s : State) (g : PowerSt → PowerSt) : State := { s with power := g s.power }

/-- A tile is power-gated: its written bits are cleared and its windows are free; its bonded region enters
self-refresh. -/
def State.gateTile (s : State) (t : Nat) : State :=
  let a := (List.range 16).foldl (fun v n => (v.wr (R.TILE.SPAD_WIN_CTRL.STATE t n) 0).wr (R.TILE.SPAD_WIN_SIG.IN_USE t n) 0)
    (s.clearLines t 0 spadLines)
  a.onPower fun x => { x with awake := Cells.put 0 x.awake t 0 }

/-- A row is held at park: its tiles are gated, and it has no fraction (R32, R73, R414). -/
def State.dropRow (s : State) (r : Nat) : State :=
  let a := (List.range 40).foldl (fun u c => u.gateTile (r * 40 + c)) s
  { a with clk := { a.clk with rows := Cells.put ⟨0, none⟩ a.clk.rows r ⟨0, none⟩ } }

/-- A row is retired (R17): its bonded granules leave TOTAL (R267), the commands that run on its tiles end, and it is held at
park (R32). -/
def State.retireRow (s : State) (r : Nat) : State :=
  if s.on (R.SPARE.ROWMAP.RETIRED r) then s
  else
    let a := ((((List.range 40).map fun c => r * 40 + c).foldl State.dropRegion s).markRetired r).dropRow r
    let onRow := fun (f : Flight) => f.tiles.any fun t => decide (t / 40 = r)
    let b := a.spareRecord r retiredCol
    if (List.range 64).any fun q => (s.q q).flights.any onRow then
      (b.raise (pgTILE (r * 40)) .TILE_RETIRED).endCommands onRow .TILE_RETIRED
    else b

/-! ### Shifts (R30, R31, R446) -/

/-- The shift in progress in a row. -/
def State.shiftIn (s : State) (r : Nat) : Option Shift := s.part.shifts.find? fun x => decide (x.row = r)

/-- The partition that owns a row. -/
def State.rowPart (s : State) (r : Nat) : Option Nat := s.partOfRow r

/-- Step 2 of a shift whose partition has stopped: the new row map is written to the shadow row map (R30). -/
def State.writeShadows (s : State) : State :=
  s.onPart fun m => { m with shifts := m.shifts.map fun x =>
    if x.shadow.isNone && s.quiet (s.rowPart x.row) then { x with shadow := some (s.failedCols x.row ++ [x.pcol]) } else x }

/-- SHIFT_STAT of the shift that began last: it waits for its partition, or copies. -/
def State.showShift (s : State) : State :=
  let a := s.writeShadows
  match a.part.shifts.getLast? with
  | none => (a.wr R.SPARE.SHIFT_STAT.BUSY 0).wr R.SPARE.SHIFT_STAT.STEP 0
  | some x => ((a.wr R.SPARE.SHIFT_STAT.BUSY 1).wr R.SPARE.SHIFT_STAT.STEP (if x.shadow.isSome then 3 else 1)).wr
      R.SPARE.SHIFT_STAT.ROW x.row

/-- A request is refused (R446). -/
def State.shiftRefused (s : State) : State :=
  (((s.wr R.SPARE.SHIFT_STAT.RESULT Err.SHIFT_REFUSED.code).bump R.SPARE.SHIFT_REFUSALS 1).raise pgSPARE .SHIFT_REFUSED).irq pgSPARE 3

/-- A shift begins: the sparing holder holds the row's partition (R432, R446). -/
def State.beginShift (s : State) (r pcol : Nat) (replay : Bool) : State :=
  let a := s.onPart fun m => { m with shifts := m.shifts ++ [⟨r, pcol, replay, none⟩] }
  (match s.rowPart r with
   | some p => a.beginRepair p (repairRow r)
   | none => a).showShift

/-- A shift ends: the partition goes on. -/
def State.endShift (s : State) (x : Shift) : State :=
  let a := s.onPart fun m => { m with shifts := m.shifts.filter fun y => decide (y.row ≠ x.row) }
  (match s.rowPart x.row with
   | some p => a.endRepair p (repairRow x.row)
   | none => a).showShift

/-- SHIFT_REQUEST (R446): a third failure retires the row instead. -/
def State.shiftRequest (s : State) (r pcol : Nat) : State :=
  let bad := decide (24 ≤ r ∨ 41 < pcol) || (s.shiftIn r).isSome || (s.failedCols r).contains pcol ||
    (match s.rowPart r with
     | some p => s.partRead p ≠ 5
     | none => false)
  if bad then s.shiftRefused
  else if 2 ≤ (s.failedCols r).length then s.retireRow r
  else s.beginShift r pcol false

def execShiftRequest (p : Path) (row : BitVec 5) (pcol : BitVec 6) (s : State) : Host.Outcome State Fault Refusal :=
  .next (s.onWrite p R.SPARE.SHIFT_CTRL.GO.addr 4 none fun s => (((s.wr R.SPARE.SHIFT_CTRL.ROW row.toNat).wr R.SPARE.SHIFT_CTRL.PCOL pcol.toNat).shiftRequest row.toNat pcol.toNat))

/-- A shift that the module orders (R19, R396): none if the column is listed already or a shift is in progress. -/
def State.ownShift (s : State) (r pcol : Nat) (replay : Bool) : State :=
  if (s.shiftIn r).isSome ∨ (s.failedCols r).contains pcol then s else s.beginShift r pcol replay

/-- What a file keeps of each physical region of a row, `n` entries a tile, follows its region when the tiles from logical column
`k` on move one carrier on: column `c` takes what `c + 1` had, and the region brought into use has none. -/
def moveCells {α : Type} [DecidableEq α] (d : α) (m : Cells α) (n r k : Nat) : Cells α :=
  (List.range 40).foldl (fun acc c =>
    if c < k then acc
    else (List.range n).foldl (fun a b =>
      Cells.put d a ((r * 40 + c) * n + b) (if c = 39 then d else Cells.get d m ((r * 40 + c + 1) * n + b))) acc) m

/-- The spares in use of each region follow it (R18, R19). -/
def State.moveStats (s : State) (r k : Nat) : State :=
  (List.range 40).foldl (fun u c =>
    if c < k then u
    else
      let from_ := fun (f : Nat → Fld) => if c = 39 then 0 else s.rd (f (r * 40 + c + 1))
      (u.wr (R.TILE.BOND_STAT.ROWS_SPARED (r * 40 + c)) (from_ R.TILE.BOND_STAT.ROWS_SPARED)).wr
        (R.TILE.BOND_STAT.BANK_SPARED (r * 40 + c)) (from_ R.TILE.BOND_STAT.BANK_SPARED)) s

/-- The bonded regions of a row move with its logical tiles from column `k` on (R18). -/
def State.moveRegions (s : State) (r k : Nat) : State :=
  (s.onMem fun m => { m with spared := moveCells 0 m.spared 16 r k, lost := moveCells false m.lost 1 r k
                             rowErrs := moveCells [] m.rowErrs 1 r k }).moveStats r k

/-- SHIFT_COPY_DONE (R30 steps 3 to 6): the copies of the moved tiles are complete, and the shadow map becomes the row's. The
failed tile's scratchpad is not copied; if its bonded region could not be read, the objects homed there are lost. -/
def State.shiftDone (s : State) (x : Shift) (regionLost : Bool) : State :=
  let a := match s.tileAt x.row x.pcol with
    | none => s
    | some t =>
      let b := (s.clearLines t 0 (Config.spadWords / 16)).moveRegions x.row (t % 40)
      if regionLost then b.dropRegion t else b
  let d := (((a.addFailed x.row x.pcol true).spareRecord x.row x.pcol).bump R.SPARE.SHIFTS 1).wr R.SPARE.SHIFT_STAT.RESULT 0
  (d.endShift x).irq pgSPARE 2

def execShiftCopyDone (row : Fin 24) (regionLost : Bool) (s : State) : Host.Outcome State Fault Refusal :=
  .next (match s.shiftIn row.val with
    | none => s
    | some x => if s.quiet (s.rowPart row.val) then s.shiftDone x regionLost else s)

/-- A shift is aborted (R31): the previous map stays. -/
def State.abortShift (s : State) (x : Shift) : State :=
  (((((s.endShift x).wr R.SPARE.SHIFT_STAT.RESULT Err.SHIFT_ABORTED.code).bump R.SPARE.SHIFT_ABORTS 1).raise pgSPARE
    .SHIFT_ABORTED).irq pgSPARE 3)

/-- A physical tile has failed (R17, R19, R31): the module orders a shift, or retires the row at its third failure. A
failure during a shift of the row aborts it. -/
def State.tileFailed (s : State) (r pcol : Nat) : State :=
  if 24 ≤ r ∨ 41 < pcol ∨ (s.failedCols r).contains pcol ∨ s.on (R.SPARE.ROWMAP.RETIRED r) then s
  else
    match s.shiftIn r with
    | some x =>
      if x.pcol = pcol then s
      else
        let a := s.abortShift x
        if 1 ≤ (a.failedCols r).length then a.retireRow r else a.ownShift r pcol false
    | none => if 2 ≤ (s.failedCols r).length then s.retireRow r else s.ownShift r pcol false

/-- TILE_FAILURE (R17). -/
def execTileFailure (row : Fin 24) (pcol : Fin 42) (s : State) : Host.Outcome State Fault Refusal :=
  .next (s.tileFailed row.val pcol.val)

end Sys2Proof.Machine
end

