-- ==== Sys2Proof/Machine/Nose.lean ====
section
/-! DEFINITION. The Nose (R377 to R398): duplicates, verdicts, retractions, replay, and field tests. -/

namespace Sys2Proof.Machine

/-! ### Duplicates (R384) -/

/-- The pending duplicate of a command's unit in a tile. -/
def State.dupOf (s : State) (t q i : Nat) : Option Dup :=
  s.nose.dups.find? fun d => decide (d.tile = t ∧ d.owner.queue = q ∧ d.owner.idx = i)

/-- A duplicate has its outcome. -/
def State.endDup (s : State) (d : Dup) : State := s.onNose fun m => { m with dups := m.dups.erase d }

/-- A tile is implicated: its count, and LAST_IMPL. -/
def State.implicate (s : State) (d : Dup) (t role : Nat) : State :=
  ((((s.bump (R.TILE.NOSE_FAULTS t) 1).wr R.NOSE.LAST_IMPL.TILE t).wr R.NOSE.LAST_IMPL.ROLE role).wr R.NOSE.LAST_IMPL.PART
    d.owner.part).wr R.NOSE.LAST_IMPL.STEP ((d.owner.step.map Prod.fst).getD 0)

/-- Words with errors in some of them: what a tile gives that has computed wrong. -/
def withErrors (ws : List Word) (err : List (Nat × Word)) : List Word :=
  err.foldl (fun v e => v.modify e.1 fun w => w ^^^ e.2) ws

/-- The copies of a duplicate in its checker's area: the operands, and the original's output; none if a word fails its SECDED check
or a carried seal does not match, because something has overwritten a copy (R382, R384). -/
def State.copies (s : State) (d : Dup) : State × Option (List Word × List Word) :=
  match s.spadReads none d.checker (wordsFrom d.base (d.unit.opWords + d.unit.outs.length)) with
  | (a, .error _) => (a, none)
  | (a, .ok ws) =>
    let x := (ws.take d.unit.opWords, ws.drop d.unit.opWords)
    (a, if wordSeals x.1 ++ wordSeals x.2 = d.seals then some x else none)

/-- A tile runs a duplicate on copies of the operands, and its result lies after them in its area; `err` is what the tile gets
wrong. -/
def State.runDup (s : State) (d : Dup) (u : Nat) (ops : List Word) (err : List (Nat × Word)) : State × List Word :=
  let r := withErrors (s.unitRun d.tile d.pos d.work d.unit ops) err
  ((s.spadWrites u (d.base + d.unit.opWords + d.unit.outs.length) r).bump (R.TILE.NOSE_DUPS u) 1, r)

/-- NOSE_DUPLICATE (R384 step 2): unless the tiles are frozen (R413), the checker runs the unit and compares; `err` is what it
computes wrong, and `void` says that a copy has failed its seal on its way. -/
def execNoseDuplicate (t : Fin 960) (q : Fin 64) (i : Nat) (err : List (Nat × Word)) (void : Bool) (s : State) :
    Host.Outcome State Fault Refusal :=
  .next (match s.dupOf t q.val i with
    | none => s
    | some d =>
      if d.found.isSome ∨ s.power.frozen then s
      else
        match s.copies d with
        | (a, none) => (a.endDup d).bump R.NOSE.VOID 1
        | (a, some c) =>
          if void then (a.endDup d).bump R.NOSE.VOID 1
          else
            let r := a.runDup d d.checker c.1 err
            if r.2 = c.2 then (r.1.endDup d).bump R.NOSE.MATCHES 1
            else r.1.onNose fun m => { m with dups := m.dups.map fun x => if x = d then { x with found := some r.2 } else x })

/-- The mark of a mismatch that leaves the step suspect; the original tile is remembered for a shift if it is implicated. -/
def State.mismatch (s : State) (d : Dup) (original : Bool) : State :=
  let place := (d.tile / 40, s.tileCol d.tile)
  let a := if original then
      match d.owner.step with
      | some n => s.mapRuns (fun r => decide (r.part = d.owner.part ∧ r.step = n.1 ∧ r.att = n.2)) fun r => { r with impl := r.impl.or (some place) }
      | none => s
    else s
  a.raiseFor (some d.owner) pgNOSE .NOSE_MISMATCH d.owner.part

/-- What follows from the arbiter's result `z`, the checker's `c` and the original's `g` (R384). -/
def State.settleDup (s : State) (d : Dup) (g c z : List Word) : State :=
  if z = g then
    let n := d.owner.step.getD (0, 0)
    ((s.bump R.NOSE.CHECKER_FAULTS 1).implicate d d.checker 1).raiseCls pgNOSE .NOSE_MISMATCH 1 d.owner.part n.1 n.2
  else if z = c then ((s.bump R.NOSE.ORIG_FAULTS 1).implicate d d.tile 0).mismatch d true
  else (s.bump R.NOSE.UNRESOLVED 1).mismatch d false

/-- NOSE_ARBITER (R384 step 3): unless the tiles are frozen (R413), after a difference the checker's copy of the operands goes
to the arbiter, which runs the unit; `err` is what it computes wrong, `fit` whether the unit fits its area, and `void` says
that a copy has failed its seal. -/
def execNoseArbiter (t : Fin 960) (q : Fin 64) (i : Nat) (err : List (Nat × Word)) (fit void : Bool) (s : State) :
    Host.Outcome State Fault Refusal :=
  .next (match s.dupOf t q.val i with
    | none => s
    | some d =>
      match d.found with
      | none => s
      | some found =>
        if s.power.frozen then s else
        match s.copies d with
        | (a, none) => (a.endDup d).bump R.NOSE.VOID 1
        | (a, some c) =>
          if void then (a.endDup d).bump R.NOSE.VOID 1
          else if !fit then ((a.endDup d).bump R.NOSE.UNRESOLVED 1).mismatch d false
          else
            let r := ((a.endDup d).spadWrites d.arbiter d.base c.1).runDup d d.arbiter c.1 err
            r.1.settleDup d c.2 found r.2)

/-- NOSE_PERIOD (R380): a period boundary; the counts of chosen commands start again where no mechanism is active. -/
def execNosePeriod (s : State) : Host.Outcome State Fault Refusal :=
  .next (if s.time % max 1 (s.rd R.NOSE.PERIOD) = 0 then
      (s.wr R.NOSE.EPOCH (s.rd R.NOSE.EPOCH + 1)).onNose fun m => { m with
        chosen := Cells.clear m.chosen fun t => match s.partOfRow (t / 40) with
          | some p => !s.stepActive p
          | none => true }
    else s)

/-! ### Verdicts (R385 to R391) -/

/-- Duplicates of an attempt without an outcome. -/
def State.dupsOf (s : State) (r : Run) : List Dup :=
  s.nose.dups.filter fun d => decide (d.owner.part = r.part ∧ d.owner.step = some (r.step, r.att))

/-- Changes one attempt. -/
def State.onAttempt (s : State) (r : Run) (g : Run → Run) : State :=
  s.mapRuns (fun x => decide (x.part = r.part ∧ x.step = r.step)) g

/-- Sends a verdict message to every destination of an attempt. -/
def State.sendVerdicts (s : State) (r : Run) (clean : Bool) : State :=
  let tag := s.rd (R.NOSE.JOB_TAG r.part)
  (s.verdictDests r).foldl (fun u d =>
    if clean then u.sendMsg (some r.part) d.1 d.2 (.verdict ⟨r.step, r.att, r.part, 0, tag, r.closed.getD 0⟩)
    else u.sendRetract r d) s

/-- Whether an attempt is being replayed, or a replay of its partition has failed: the replay of the open step leaves the one
that awaits its flip untouched (R395, R397). -/
def State.replaying (s : State) (r : Run) : Bool := r.sent4 || s.on (R.NOSE.REPLAY_STAT.FAILED r.part)

/-- The local verdict of a closed attempt is posted clean, and sent (R385, R388). -/
def State.postLocal (s : State) (r : Run) : State :=
  ((s.onAttempt r fun x => { x with local3 := true, sent3 := true }).sendVerdicts r true).showRuns r.part

/-- LOCAL_VERDICT (R385): a closed step without a mark, whose duplicates all have outcomes. -/
def execLocalVerdict (part : Fin 8) (s : State) : Host.Outcome State Fault Refusal :=
  .next (match s.closedRun part.val with
    | none => s
    | some r => if !s.replaying r ∧ !r.local3 ∧ r.mark.isNone ∧ (s.dupsOf r).isEmpty then s.postLocal r else s)

/-- VERDICT_WINDOW (R385): WINDOW ticks after the close, duplicates without an outcome are abandoned, or under STRICT
the verdict is late. -/
def execVerdictWindow (part : Fin 8) (s : State) : Host.Outcome State Fault Refusal :=
  .next (match s.closedRun part.val with
    | none => s
    | some r =>
      let ds := s.dupsOf r
      if s.replaying r ∨ r.local3 ∨ r.mark.isSome ∨ ds.isEmpty ∨ s.time < r.closed.getD 0 + s.rd R.NOSE.VERDICT_CFG.WINDOW then s
      else if s.on R.NOSE.VERDICT_CFG.STRICT then
        if r.late then s else (s.onAttempt r fun x => { x with late := true }).raise pgNOSE .VERDICT_LATE r.part
      else
        let a := s.onNose fun m => { m with dups := m.dups.filter fun d => !ds.contains d }
        (a.bump R.NOSE.LATE_CHECKS ds.length).postLocal r)

/-- A queue's gates of a step are dropped. -/
def State.dropGates (s : State) (p n : Nat) : State :=
  (s.queuesOf p).foldl (fun u q =>
    ([0, 1].foldl (fun v g =>
      if v.on (R.CQ.GATE_STEP.VALID q g) ∧ v.rd (R.CQ.GATE_STEP.STEP q g) = n then v.wr (R.CQ.GATE_STEP.VALID q g) 0 else v) u).showRetain q) s

/-- A replay fails (R397). -/
def State.replayFail (s : State) (p : Nat) : State :=
  (((s.wr (R.NOSE.REPLAY_STAT.PHASE p) 0).wr (R.NOSE.REPLAY_STAT.FAILED p) 1).raise pgNOSE .REPLAY_FAILED p).irq pgNOSE 4

/-- A suspect final verdict (R388, R390, R395, R396 step 1, R397): retractions go out, the open step after a closed one
is discarded, node-group collectives end, and the replay begins or fails. -/
def State.suspect (s : State) (r : Run) : State :=
  let p := r.part
  let a := ((s.bump R.NOSE.VERDICTS_SUSPECT 1).irq pgNOSE 2).sendVerdicts r false
  let b := a.onAttempt r fun x => { x with sent4 := true }
  let next := if r.closed.isSome then s.runOf p (r.step + 1) else none
  let c := match next with
    | none => b
    | some x =>
      let u := (if x.sent4 then b else b.sendVerdicts x false).onNose fun m => { m with
        runs := m.runs.filter fun y => !(decide (y.part = p ∧ y.step = r.step + 1)) }
      u.dropGates p (r.step + 1)
  let d := c.replayAborts p
  if s.rd R.NOSE.REPLAY_CFG.MAX < r.att + 1 ∨ r.ckpt.isNone then d.replayFail p
  else d.wr (R.NOSE.REPLAY_STAT.PHASE p) 1

/-- FINAL_VERDICT (R390): suspect on a mark, the awaiting step first; clean once the local verdict and every source's
are. -/
def execFinalVerdict (part : Fin 8) (s : State) : Host.Outcome State Fault Refusal :=
  let p := part.val
  let rs := s.nose.runs.filter fun r => decide (r.part = p) && r.mark.isSome && !s.replaying r
  .next (match (rs.find? fun r => r.closed.isSome).or rs.head? with
    | some r => s.suspect r
    | none =>
      match s.closedRun p with
      | none => s
      | some r =>
        if !s.replaying r ∧ r.local3 ∧ !r.final3 ∧ (s.verdictSources r).all r.clean.contains then
          ((s.onAttempt r fun x => { x with final3 := true }).bump R.NOSE.VERDICTS_CLEAN 1).showRuns p
        else s)

/-- A verdict message for the current attempt takes effect (R389 rules 4 and 5). -/
def State.applyVerdict (s : State) (p : Nat) (v : Verdict) : State :=
  let a := if v.kind = 3 then
      s.mapRuns (fun r => decide (r.part = p ∧ r.step = v.step)) fun r => { r with clean := (r.clean ++ [(v.node, v.part)]).eraseDups }
    else
      (((s.raiseTag pgNOSE .RETRACTED p v.step v.att).mark p v.step v.att Err.RETRACTED.code).bump R.NOSE.RETRACTS_RECV 1)
  (match s.peerOf p v.node v.part with
   | some k => a.peerVerdict p k v.step (v.kind = 3)
   | none => a).showRuns p

/-- A verdict message for partition `p` (R389). A discarded one of a peer that names another step counts under R291 as
well. -/
def State.verdictMsg (s : State) (p : Nat) (v : Verdict) : State :=
  match s.runOf p v.step with
  | none =>
    let a := s.bump R.NOSE.STRAY 1
    match s.peerOf p v.node v.part with
    | some _ => a.bump (R.MOD.STEP_STRAY p) 1
    | none => a
  | some r =>
    if v.tag ≠ s.rd (R.NOSE.JOB_TAG p) ∨ v.att < r.att then s.bump R.NOSE.STRAY 1
    else if v.att = r.att + 1 then s.onAttempt r fun x => { x with held := x.held ++ [v] }
    else if v.att = r.att then s.applyVerdict p v
    else s.bump R.NOSE.STRAY 1

/-! ### Replay (R396, R397) -/

/-- The attempt that is being replayed. -/
def State.replayRun (s : State) (p : Nat) : Option Run := s.nose.runs.find? fun r => decide (r.part = p) && r.sent4

/-- A checkpoint is written back: every value as a set (R396 step 3). -/
def State.restoreCkpt (s : State) (c : Ckpt) : State :=
  let a := c.ctrs.foldl (fun u x => u.setCtr x.1 x.2 .restore) s
  let b := c.bounds.foldl (fun u x => x.2.zipIdx.foldl (fun v y => v.wr (R.CQ.BOUND x.1 y.2) y.1) u) a
  c.groups.foldl (fun u x => ((groupFields x.1).zip x.2).foldl (fun v y => v.wr y.1 y.2) u) b

/-- A queue goes back to its gate for step `n`, the first of them in the ring, if it holds one. -/
def State.rewindQueue (s : State) (q n : Nat) : State :=
  let held := ([0, 1].filter fun g => s.on (R.CQ.GATE_STEP.VALID q g) && decide (s.rd (R.CQ.GATE_STEP.STEP q g) = n)).map fun g =>
    s.rd (R.CQ.GATE_IDX q g)
  match held with
  | [] => s
  | x :: r =>
    let i := r.foldl (fun m y => if idxBefore y m then y else m) x
    let a := ((s.wr (R.CQ.HEAD q) i).wr (R.CQ.DONE q) i).onQ q fun v => { v with ahead := [], finished := [], faults := [], gate := none }
    (((a.wr (R.CQ.FAULT_IDX q) 0).wr (R.CQ.FAULT_CODE.CODE q) 0).wr (R.CQ.FAULT_CODE.TAG q) 0).freshHead q

/-- A replay resumes: the queues issue again, and the partition leaves QUIESCE (R396 step 5). -/
def State.replayResume (s : State) (p : Nat) : State :=
  let a := s.wr (R.NOSE.REPLAY_STAT.PHASE p) 0
  if bitOf (s.holders p) holdReplay then a.clearHolder p holdReplay false else a

/-- Step 3 of a replay, and the hook (R396). -/
def State.replayRestore (s : State) (r : Run) (c : Ckpt) : State :=
  let p := r.part
  let a := s.restoreCkpt c
  let b := (s.queuesOf p).foldl (fun u q => u.rewindQueue q r.step) a
  let d := ((b.wr (R.MOD.STEP_PEER_CLEAN p) 0).wr (R.MOD.STEP_PEER_NEXT p) 0)
  let e := if r.closed.isSome then d.wr (R.MOD.STEP_STAT.AWAIT p) 0 else d
  let fresh : Run := { newRun p r.step r.ckpt with att := r.att + 1, slow := r.slow }
  let f := e.onNose fun m => { m with
    runs := m.runs.map fun x => if x.part = p ∧ x.step = r.step then fresh else x
    dups := m.dups.filter fun x => !(decide (x.owner.part = p ∧ (x.owner.step.map Prod.fst).any fun n => decide (r.step ≤ n)))
    chosen := Cells.clear m.chosen fun t => (s.partTiles p).contains t }
  let g := (r.held.foldl (fun u v => if v.att = r.att + 1 then u.applyVerdict p v else u) f).bump R.NOSE.REPLAYS 1
  let h := g.showRuns p
  if s.on R.NOSE.REPLAY_CFG.HOOK then ((h.wr (R.NOSE.REPLAY_STAT.PHASE p) 4).raise pgNOSE .REPLAY_READY p).irq pgNOSE 3
  else h.replayResume p

/-- Step 2 of a replay: the implicated tile is shifted out of its row (R396, R397). -/
def State.replayShift (s : State) (p : Nat) (x : Nat × Nat) : State :=
  let a := ((s.wr (R.NOSE.REPLAY_STAT.PHASE p) 2).setHolder p holdReplay).reachQuiesce p
  if 2 ≤ (a.failedCols x.1).length then a.replayFail p
  else if (a.shiftIn x.1).isSome ∨ (a.failedCols x.1).contains x.2 ∨ a.on (R.SPARE.ROWMAP.RETIRED x.1) then a.shiftRefused.replayFail p
  else a.ownShift x.1 x.2 true

/-- REPLAY_RESTORE (R396): once every issued command has completed, the shift begins if one is due; once that is done, PHASE
shows the restore, and the checkpoint is restored (log entry 110). -/
def execReplayRestore (part : Fin 8) (s : State) : Host.Outcome State Fault Refusal :=
  let p := part.val
  let ph := s.rd (R.NOSE.REPLAY_STAT.PHASE p)
  .next (match s.replayRun p with
    | none => s
    | some r =>
      match r.ckpt with
      | none => s
      | some c =>
        if ph = 1 ∧ !s.partBusy p then
          match r.impl, s.on R.NOSE.REPLAY_CFG.SHIFT with
          | some x, true => s.replayShift p x
          | _, _ => s.wr (R.NOSE.REPLAY_STAT.PHASE p) 3
        else if ph = 2 then
          match r.impl with
          | some x =>
            if (s.shiftIn x.1).isSome then s
            else if (s.failedCols x.1).contains x.2 then s.wr (R.NOSE.REPLAY_STAT.PHASE p) 3
            else s.replayFail p
          | none => s
        else if ph = 3 then s.replayRestore r c
        else s)

/-- REPLAY_RESUME (R396 step 4): GO after the hook. -/
def execReplayResume (p : Path) (part : Fin 8) (s : State) : Host.Outcome State Fault Refusal :=
  .next (s.onWrite p (R.NOSE.REPLAY_CTRL part).addr 4 none fun s => (if s.rd (R.NOSE.REPLAY_STAT.PHASE part.val) = 4 then s.replayResume part.val else s))

/-! ### Disabling the step mechanism (R302) -/

/-- STEP_DISABLE (R302): the mechanism's state clears and a pending flip is abandoned; so is a replay (log entry 10). -/
def State.stepDisable (s : State) (p : Nat) : State :=
  let fs := [R.MOD.STEP_STAT.ACTIVE p, R.MOD.STEP_STAT.AWAIT p, R.MOD.STEP_STAT.HALTED p, R.MOD.STEP_STAT.SLOW p,
    R.MOD.STEP_PEER_CLEAN p, R.MOD.STEP_PEER_NEXT p, R.NOSE.REPLAY_STAT.PHASE p, R.NOSE.REPLAY_STAT.FAILED p]
  let a := (fs.foldl (fun t f => t.wr f 0) s).onNose fun m =>
    { m with runs := m.runs.filter (fun r => decide (r.part ≠ p)), dups := m.dups.filter fun d => decide (d.owner.part ≠ p) }
  if bitOf (s.holders p) holdReplay then a.clearHolder p holdReplay false else a

def execStepDisable (p : Path) (part : Fin 8) (s : State) : Host.Outcome State Fault Refusal :=
  .next (s.onWrite p (R.MOD.STEP_CTRL.DISABLE part).addr 4 none fun s => (s.stepDisable part.val))

/-! ### Field tests (R398) -/

/-- Whether a known-answer test is refused: its partition is not in QUIESCE, a test runs, there is no such test, or the
partition's area is too small for it (R398). -/
def State.katRefused (s : State) (test part : Nat) : Bool :=
  decide (s.partRead part ≠ 5 ∨ s.nose.kat.isSome ∨ test = 0 ∨ 4 < test ∨ (test < 4 ∧ s.rd (R.NOSE.AREA_WORDS part) < 65536))

/-- FIELD_TEST (R398): GO starts a known-answer test, or is refused. -/
def State.fieldTest (s : State) (test part : Nat) : State :=
  let a := (s.wr R.NOSE.KAT_CTRL.TEST test).wr R.NOSE.KAT_CTRL.PART part
  if s.katRefused test part then a.raise pgNOSE .KAT_REFUSED part
  else (a.onNose fun m => { m with kat := some (test, part) }).wr R.NOSE.KAT_STAT.RUNNING 1

def execFieldTest (p : Path) (test : BitVec 3) (part : Fin 8) (s : State) : Host.Outcome State Fault Refusal :=
  .next (s.onWrite p R.NOSE.KAT_CTRL.GO.addr 4 none fun s => (s.fieldTest test.toNat part.val))

/-- What a test leaves in the scratchpads of its tiles: tests 1 to 3 write the Nose area, with values the spec does not give (log
entry 94); test 4 leaves no line written. -/
def State.katTraces (s : State) (test part : Nat) : State :=
  let ts := s.partTiles part
  if test = 4 then ts.foldl (fun u t => u.clearLines t 0 (Config.spadWords / 16)) s
  else
    let base := s.rd (R.NOSE.AREA_BASE part)
    let n := min (s.rd (R.NOSE.AREA_WORDS part)) (Config.spadWords - base)
    ts.foldl (fun u t => u.spadWrites t base ((wordsFrom base n).map (Config.katWord s.free t))) { s with free := s.free + 1 }

/-- FIELD_TEST_DONE (R398): the tiles whose results differ are recorded. -/
def execFieldTestDone (failed : List Nat) (s : State) : Host.Outcome State Fault Refusal :=
  .next (match s.nose.kat with
    | none => s
    | some (test, part) =>
      let ts := s.partTiles part
      let bad := ts.filter failed.contains
      let b := (List.range 30).foldl (fun u j => u.wr (R.NOSE.KAT_FAIL j)
        ((bad.filter fun t => decide (t / 32 = j)).foldl (fun v t => v ||| 2 ^ (t % 32)) 0)) (s.katTraces test part)
      let c := bad.foldl (fun u t => u.bump (R.TILE.KAT_FAILS t) 1) b
      let d := c.raiseAll pgNOSE (bad.map fun t => (.KAT_FAIL, t % 256))
      let e := ((d.wr R.NOSE.KAT_STAT.FAILED bad.length).wr R.NOSE.KAT_STAT.DONE 1).wr R.NOSE.KAT_STAT.RUNNING 0
      (e.onNose fun m => { m with kat := none }).irq pgNOSE 5)

end Sys2Proof.Machine
end

