-- ==== Sys2Proof/Machine/Tiers.lean ====
section
/-! DEFINITION. Granule operations, quota contexts, moves, apertures, and the upkeep of bonded regions, stacks and sleds
(R254 to R282). -/

namespace Sys2Proof.Machine

/-- The granules of an offset range of this node, by key. -/
def State.granKeys (s : State) (off n : Nat) : Option (List Nat) :=
  (List.range n).foldr (fun i acc =>
    match acc, s.place (off + i * granBytes) with
    | some l, .ok p => some (p.gran :: l)
    | _, _ => none) (some [])

/-- Whether a range of `n` granules lies inside one bonded region, one stack or one aperture, and is aligned (R257
check 1); an aperture must be enabled, as State.place asks. -/
def oneContainer (off n : Nat) : Bool :=
  let last := off + (n - 1) * granBytes
  off % granBytes = 0 && decide (1 ≤ n) &&
    (if off < bondEnd then decide (last < bondEnd) && off / bondBytes = last / bondBytes
     else off / blockBytes = last / blockBytes)

/-- The partition that a range belongs to (R257 check 2). -/
def State.rangePart (s : State) (off : Nat) : Option Nat :=
  if off < bondEnd then s.partOfRow (off / bondBytes / 40)
  else if off < flashBase then nibblePart (s.act (R.MOD.STACK_ASSIGN ((off - stackBase) / blockBytes)))
  else s.aperPart ((off - flashBase) / blockBytes)

/-- The granules that OP_ADDR and OP_SIZE name, if check 1 of R257 passes. -/
def State.opRange (s : State) : Option (List Nat) :=
  let off := s.rd R.QUOTA.OP_ADDR
  let n := s.rd R.QUOTA.OP_SIZE
  if oneContainer off n then s.granKeys off n else none

/-- A refused PLACE or RELEASE: its code is captured, and read back on its path (R257 to R259). -/
def State.opResult (s : State) (p : Path) (e : Option Err) : State :=
  match e with
  | some e => (s.raise pgQUOTA e).pathWr p R.QUOTA.OP_RESULT e.code
  | none => s.pathWr p R.QUOTA.OP_RESULT 0

/-- An operation starts: GO reads 1 until its last granule is done (R257). -/
def State.startOp (s : State) (p : Path) (o : GranOp) : State :=
  ((s.onMem fun m => { m with op := some o }).wr R.QUOTA.OP_CTRL.GO 1).opResult p none

/-- The code of the first check of R257 that a PLACE of granules `gs` for context `c` fails. -/
def State.placeRefused (s : State) (c : Nat) (gs : List Nat) : Option Err :=
  let x := (gs.head?.map granTier).getD 0
  if !s.on (R.QUOTA.CTX_FLAGS.CLAIMED c) ∨ s.ctxPart c = none ∨ s.ctxPart c ≠ s.rangePart (s.rd R.QUOTA.OP_ADDR) then
    some .PLACE_CTX
  else if gs.any fun g => s.granGone g || decide ((s.gran g).st ≠ 0) then some .PLACE_STATE
  else if s.rd (limitField x c) < s.rd (usedField x c) + gs.length then some .QUOTA_EXCEEDED
  else none

/-- PLACE (R257): the granules go from FREE to IN and are charged in the GO cycle. -/
def State.placeOp (s : State) (p : Path) (c : Nat) : State :=
  if s.mem.op.isSome then s.opResult p (some .TRIG_BUSY)
  else
    match s.opRange with
    | none => s.opResult p (some .PLACE_RANGE)
    | some gs =>
      match s.placeRefused c gs with
      | some e => s.opResult p (some e)
      | none => ((gs.foldl (fun u g => u.moveGran g ⟨1, c⟩) s).bump R.QUOTA.PLACES gs.length).startOp p ⟨false, c, gs⟩

def execPlace (p : Path) (c : Fin 64) (s : State) : Host.Outcome State Fault Refusal :=
  .next (s.onWrite p R.QUOTA.OP_CTRL.GO.addr 4 none fun s => (((s.wr R.QUOTA.OP_CTRL.CTX c.val).wr R.QUOTA.OP_CTRL.OP 1).placeOp p c.val))

/-- One granule of the operation in progress is done; GO reads 0 after the last. -/
def State.opDone (s : State) (g : Nat) : State :=
  match s.mem.op with
  | none => s
  | some o =>
    let left := o.left.filter fun x => x ≠ g
    if left.isEmpty then (s.onMem fun m => { m with op := none }).wr R.QUOTA.OP_CTRL.GO 0
    else s.onMem fun m => { m with op := some { o with left := left } }

/-- The fill of a granule at a place is counted as bytes written, or as a trim in flash (R257). -/
def State.countFillAt (s : State) (p : Place) : State :=
  match p with
  | .flash _ _ => s.bump R.FLASH.TRIMS 1
  | p => s.countBytes p true granBytes

/-- The fill of granule `g` is counted (R257). -/
def State.countFill (s : State) (g : Nat) : State := s.countFillAt (placeOfKey (g * granBytes))

/-- PLACE_FILL_DONE (R257): a filled granule goes from IN to HOME, with zero data and valid seals. -/
def execPlaceFillDone (g : Nat) (s : State) : Host.Outcome State Fault Refusal :=
  match s.mem.op with
  | some o => .next (if !o.release ∧ o.left.contains g then
      ((((s.fillGran g).countFill g).moveGran g ⟨2, o.ctx⟩)).opDone g else s)
  | none => .next s

/-- RELEASE (R258): from the GO cycle the granules admit no new access. -/
def State.releaseOp (s : State) (p : Path) (c : Nat) : State :=
  if s.mem.op.isSome then s.opResult p (some .TRIG_BUSY)
  else
    match s.opRange with
    | none => s.opResult p (some .PLACE_RANGE)
    | some gs =>
      if gs.any fun g => decide (s.gran g ≠ ⟨2, c⟩) then s.opResult p (some .PLACE_STATE)
      else (s.onMem fun m => { m with leaving := gs.foldl (fun l g => Cells.put false l g true) m.leaving }).startOp p ⟨true, c, gs⟩

def execRelease (p : Path) (c : Fin 64) (s : State) : Host.Outcome State Fault Refusal :=
  .next (s.onWrite p R.QUOTA.OP_CTRL.GO.addr 4 none fun s => (((s.wr R.QUOTA.OP_CTRL.CTX c.val).wr R.QUOTA.OP_CTRL.OP 2).releaseOp p c.val))

/-- The source place of a fetch, if it reads a tier of this node. -/
def State.fetchPlace (s : State) (m : MergeEntry) : Option Place :=
  match m.xfers.head? with
  | some x =>
    if adrSpace x.src ≠ 0 ∨ !s.onNode x.src then none
    else
      let off := adrOff x.src
      if off < bondEnd then some (.bond (off / bondBytes) (off % bondBytes))
      else if off < flashBase then some (.stack ((off - stackBase) / blockBytes) ((off - stackBase) % blockBytes))
      else
        let n := (off - flashBase) / blockBytes
        some (.flash (s.rd (R.FLASH.APER_MAP.SLED n)) (s.rd (R.FLASH.APER_MAP.GRANULE n) * granBytes + (off - flashBase) % blockBytes))
  | none => none

/-- The fetches that are outstanding at a place that `c` accepts. -/
def State.fetchesAt (s : State) (c : Place → Bool) : List MergeEntry :=
  s.stream.entries.filter fun m => m.issued.isSome && m.words.isNone && ((s.fetchPlace m).any c)

/-- GRANULE_FREE (R258): the accesses admitted before the release have completed, and the granule goes FREE. -/
def execGranuleFree (g : Nat) (s : State) : Host.Outcome State Fault Refusal :=
  match s.mem.op with
  | some o => .next (if o.release ∧ o.left.contains g ∧ (s.fetchesAt fun p => decide (p.gran = g)).isEmpty then
      (((s.moveGran g ⟨0, 0⟩).onMem fun m => { m with leaving := Cells.put false m.leaving g false }).bump
        R.QUOTA.RELEASES 1).opDone g
    else s)
  | none => .next s

/-! ### Moves (R261 to R263, R366) -/

/-- The checks of R271 on granule `k` of a MOVE at its source, where it must be HOME, and at a destination on this
node. -/
def State.moveCheck (s : State) (m : Move) (k : Nat) : Option (Err × Nat) :=
  (s.checkAccess (.part m.owner.part) true (m.from k) granBytes).or
    (if s.moveLocal m then s.checkAccess (.part m.owner.part) true (m.to k) granBytes else none)

/-- The granule `m.out` of a MOVE to another node leaves: its data is read, and its transfers are queued (R261, R361, R366). -/
def State.outRemote (a : State) (m : Move) (p : Place) : State :=
  let r := a.checkData (some m.owner) p granBytes
  given r.2
    (let t := (r.1.countBytes p false granBytes).onStream fun x => { x with posts := x.posts ++ [m.post m.out] }
     t.sendPosts m.owner.queue)
    fun e => r.1.failMove { m with out := m.out + 1 } e

/-- Whether the next granule of a MOVE fails, as it goes OUT or as its data is read for another node. -/
def State.outFails (s : State) (m : Move) : Bool :=
  (s.moveCheck m m.out).isSome ||
    judged (s.place (m.from m.out)) (fun _ => true) fun p => !s.moveLocal m && (s.checkData (some m.owner) p granBytes).2.isSome

/-- The next granule of a MOVE goes OUT, or the MOVE fails there, once the granules before it have flipped (R261 step 1,
R263). -/
def State.outGranule (s : State) (q : Nat) (m : Move) : State :=
  if m.flipped < m.out ∧ s.outFails m then s
  else given (s.moveCheck m m.out)
    (judged (s.place (m.from m.out))
      (fun e => (s.raiseFor (some m.owner) (s.pageOfOffset (m.from m.out)) e).failMove m e)
      fun p =>
        let a := (s.turnGran (m.from m.out) 3).setMove m { m with out := m.out + 1 }
        if s.moveLocal m then ((a.turnGran (m.to m.out) 1).onStream fun x => { x with posts := x.posts ++ [m.post m.out] }).sendPosts q
        else a.outRemote m p)
    fun x => (s.raiseFor (some m.owner) x.2 x.1).failMove m x.1

/-- GRANULE_OUT (R261 step 1): with a free transfer slot (R181; DEDUCED, log entry 82) the next source granule goes OUT and its
destination IN, in one cycle. For a destination on another node the granule's data leaves. -/
def execGranuleOut (q : Fin 64) (i : Nat) (s : State) : Host.Outcome State Fault Refusal :=
  .next (given (s.moveOf q.val i) s fun m => if m.out = m.total ∨ m.failed.isSome ∨ !s.queueRoom q.val then s else s.outGranule q.val m)

/-- The entries of a file from key `a` copied to key `b`, `n` keys of them. -/
def copyCells (m : Cells Byte) (a b n : Nat) : Cells Byte :=
  let cleared := Cells.clear m fun k => decide (b ≤ k ∧ k < b + n)
  (m.filter fun c => decide (a ≤ c.1 ∧ c.1 < a + n)).foldl (fun u c => Cells.put 0 u (c.1 - a + b) c.2) cleared

/-- The transfers of a granule of a MOVE on this node, from place `p` to place `d` (R212, R261): each carries its seals, and the
first that fails its check at the destination ends the MOVE (R375, R376). -/
def State.copyPieces (s : State) (o : Owner) (p d : Place) (ps : List Piece) : State × Option Err :=
  match ps with
  | [] => (s, none)
  | c :: r =>
    let a := p.key + c.src
    let b := d.key + c.dst
    match s.tile.wire with
    | [] => (s.onMem fun m => { m with bytes := copyCells m.bytes a b c.n }).copyPieces o p d r
    | _ =>
      let z := s.carry 512 (Cells.bytes s.mem.bytes a c.n)
      match z.1.writeSpans (some o) d.page 512 z.2.1 z.2.2 fun u x bs =>
          (u.onMem fun m => { m with bytes := Cells.putBytes m.bytes (b + x) bs }, none) with
      | (t, some e) => (t, some e)
      | (t, none) => t.copyPieces o p d r

/-- The flip of a granule of a MOVE: OUT to FREE at the source (R261 step 3, R262). -/
def State.flipSource (s : State) (m : Move) : State :=
  (((s.turnGran (m.from m.flipped) 0).bump R.QUOTA.FLIPS 1).setMove m { m with flipped := m.flipped + 1 })

/-- A MOVE whose last granule has flipped is over. -/
def State.endMove (s : State) (m : Move) : State :=
  if m.total ≤ m.flipped + 1 then
    s.onStream fun x => { x with moves := x.moves.filter fun y => !decide (y.owner.queue = m.owner.queue ∧ y.owner.idx = m.owner.idx) }
  else s

/-- Whether a place lies on a sled that is worn (R280). -/
def State.wornPlace (s : State) (d : Place) : Bool :=
  match d with
  | .flash x _ => s.on (R.FLASH.SLED_STAT.WORN x)
  | _ => false

/-- A granule of a MOVE on this node is HOME at its destination: its transfers give their slots back (R181, R261 step 3). -/
def State.flipDone (s : State) (m : Move) : State :=
  let n := s.granHeld m m.flipped
  let a := s.onStream fun x => { x with posts := x.posts.filter fun p => !decide (p.owner = m.owner ∧ p.gran = some m.flipped) }
  ((((a.turnGran (m.to m.flipped) 2).flipSource m).endMove m).pieceDone m.owner).giveSlots m.owner.queue n

/-- The copy of a granule on this node completes: its bytes stand at `d`, with new seals, and the granule is HOME there (R261
steps 2 and 3). -/
def State.flipCopy (a : State) (m : Move) (p d : Place) : State :=
  if a.wornPlace d then (a.raiseFor (some m.owner) pgFLASH .SLED_WORN).failMove m .SLED_WORN
  else
    let x := (a.fillGran d.gran).copyPieces m.owner p d granPieces
    given x.2 (((((x.1.countBytes p false granBytes).countBytes d true granBytes).flipDone m).sendPosts m.owner.queue)) fun e =>
      x.1.failMove m e

/-- The flip of a granule whose destination is on this node. -/
def State.flipLocal (s : State) (m : Move) (p : Place) : State :=
  let r := s.checkData (some m.owner) p granBytes
  given r.2
    (judged (s.mapped (m.to m.flipped))
      (fun e => (r.1.raiseFor (some m.owner) (s.pageOfOffset (m.to m.flipped)) e).failMove m e)
      fun d => r.1.flipCopy m p d)
    fun e => r.1.failMove m e

/-- The flip of a granule whose destination is on another node: once its data has been acknowledged, a release is recorded
and sent (R262, R366). -/
def State.flipRemote (s : State) (m : Move) : State :=
  if (s.fab.txns.any fun t => decide (t.kind = .move m.owner m.flipped)) || s.posting m m.flipped then s
  else
    let me := s.rd R.MOD.FAB_NODE.NODE
    let r : PendingRelease := ⟨me, adrNode m.dst, m.from m.flipped, m.to m.flipped, some m.owner⟩
    let a := { s with island := { s.island with releases := s.island.releases ++ [r] } }
    let b := a.wr R.CFG.PREL.SRC_PENDING a.island.releases.length
    (((b.flipSource m).endMove m).sendMsg (some m.owner.part) (adrNode m.dst) 0xFF (.release me (m.from m.flipped) (m.to m.flipped))).endFailed m.owner

/-- The copy of the oldest granule that is OUT completes. -/
def State.flipGranule (s : State) (m : Move) : State :=
  judged (s.mapped (m.from m.flipped))
    (fun e => (s.raiseFor (some m.owner) (s.pageOfOffset (m.from m.flipped)) e).failMove m e)
    fun p => if s.moveLocal m then s.flipLocal m p else s.flipRemote m

/-- GRANULE_FLIP (R261, R262, R366): the copy of the oldest granule that is OUT completes. On this node the destination
goes HOME in the same cycle; towards another node a release is recorded and sent. -/
def execGranuleFlip (q : Fin 64) (i : Nat) (s : State) : Host.Outcome State Fault Refusal :=
  .next (given (s.moveOf q.val i) s fun m => if m.out ≤ m.flipped then s else s.flipGranule m)

/-! ### Quota contexts (R264) -/

/-- CTX_ALLOC (R264): the lowest unclaimed context of the partition, with limits 0, or CTX_FULL. -/
def State.ctxAlloc (s : State) (p : Path) (part : Nat) : State :=
  let a := s.wr R.QUOTA.CTX_ALLOC.PART part
  match (List.range 64).find? fun c => s.ctxPart c = some part && !s.on (R.QUOTA.CTX_FLAGS.CLAIMED c) with
  | some c =>
    let b := ([0, 1, 2].foldl (fun u x => u.wr (limitField x c) 0) a).wr (R.QUOTA.CTX_FLAGS.CLAIMED c) 1
    (b.pathWr p R.QUOTA.CTX_ALLOC.INDEX c).pathWr p R.QUOTA.CTX_ALLOC.FAIL 0
  | none => (a.pathWr p R.QUOTA.CTX_ALLOC.FAIL 1).raise pgQUOTA .CTX_FULL

def execCtxAlloc (p : Path) (part : Fin 8) (s : State) : Host.Outcome State Fault Refusal :=
  .next (s.onWrite p R.QUOTA.CTX_ALLOC.GO.addr 4 none fun s => (s.ctxAlloc p part.val))

/-- CTX_FREE (R264): releases a context that owns no granule, or refuses with CTX_BUSY. -/
def State.ctxFree (s : State) (c : Nat) : State :=
  let a := s.wr R.QUOTA.CTX_FREE.INDEX c
  if [0, 1, 2].any fun x => decide (s.rd (usedField x c) ≠ 0) then a.raise pgQUOTA .CTX_BUSY c
  else a.wr (R.QUOTA.CTX_FLAGS.CLAIMED c) 0

def execCtxFree (p : Path) (c : Fin 64) (s : State) : Host.Outcome State Fault Refusal :=
  .next (s.onWrite p R.QUOTA.CTX_FREE.GO.addr 4 none fun s => (s.ctxFree c.val))

/-! ### Apertures (R254) -/

/-- Granules an aperture maps. -/
def aperGrans : Nat := 32768

/-- APER_ENABLE (R254): refused with a SOURCE of 1, 2 or 3. -/
def State.aperEnable (s : State) (n : Nat) : State :=
  let sled := s.rd (R.FLASH.APER_MAP.SLED n)
  let g := s.rd (R.FLASH.APER_MAP.GRANULE n)
  if s.on (R.FLASH.APER_CTRL.VALID n) then s
  else if !s.on (R.FLASH.SLED_STAT.ATTACHED sled) then s.raise pgFLASH .APER_REFUSED 1
  else if (List.range 192).any fun m => decide (m ≠ n) && s.on (R.FLASH.APER_CTRL.VALID m) && s.rd (R.FLASH.APER_MAP.SLED m) = sled &&
      overlaps g (g + aperGrans) (s.rd (R.FLASH.APER_MAP.GRANULE m)) (s.rd (R.FLASH.APER_MAP.GRANULE m) + aperGrans) then
    s.raise pgFLASH .APER_REFUSED 2
  else if !s.partValid (s.rd (R.FLASH.APER_CTRL.PART n)) then s.raise pgFLASH .APER_REFUSED 3
  else s.wr (R.FLASH.APER_CTRL.VALID n) 1

def execAperEnable (p : Path) (n : Fin 192) (s : State) : Host.Outcome State Fault Refusal :=
  .next (s.onWrite p (R.FLASH.APER_CTRL.ENABLE n).addr 4 none fun s => (s.aperEnable n))

/-- APER_DISABLE (R254): no new access is admitted. -/
def State.aperDisable (s : State) (n : Nat) : State :=
  if s.on (R.FLASH.APER_CTRL.VALID n) then s.onMem fun m => { m with closing := Cells.put false m.closing (16 + n) true } else s

def execAperDisable (p : Path) (n : Fin 192) (s : State) : Host.Outcome State Fault Refusal :=
  .next (s.onWrite p (R.FLASH.APER_CTRL.DISABLE n).addr 4 none fun s => (s.aperDisable n))

/-- The offsets on this node of the granules of a MOVE that are in copy. -/
def State.moveOffs (s : State) (m : Move) : List Nat :=
  (List.range (m.out - m.flipped)).flatMap fun i =>
    m.from (m.flipped + i) :: if s.moveLocal m then [m.to (m.flipped + i)] else []

/-- Whether an outstanding fetch, or a granule of a MOVE in copy, goes through aperture `n`. -/
def State.aperBusy (s : State) (n : Nat) : Bool :=
  s.stream.entries.any (fun m => m.issued.isSome && m.words.isNone && (m.xfers.head?.any fun x =>
    decide (adrSpace x.src = 0) && s.onNode x.src && decide (aperOf (adrOff x.src) = some n))) ||
  s.stream.moves.any fun m => (s.moveOffs m).any fun o => decide (aperOf o = some n)

/-- APER_DRAINED (R254): every access admitted through a disabled aperture has completed, and VALID clears. -/
def execAperDrained (n : Fin 192) (s : State) : Host.Outcome State Fault Refusal :=
  .next (if Cells.get false s.mem.closing (16 + n) ∧ !s.aperBusy n then
      (s.onMem fun m => { m with closing := Cells.put false m.closing (16 + n) false }).wr (R.FLASH.APER_CTRL.VALID n) 0
    else s)

/-! ### Upkeep of bonded regions and stacks (R273 to R278) -/

/-- The keys of a bonded region or of a stack. -/
def regionKeys (stack : Bool) (i : Nat) : Nat × Nat :=
  if stack then ((Place.stack i 0).key, (Place.stack i 0).key + stackBytes) else ((Place.bond i 0).key, (Place.bond i 0).key + bondBytes)

/-- Errors arise in the code words at offsets of a region from key `lo`. -/
def State.markFlaws (s : State) (lo v : Nat) (offs : List Nat) : State :=
  s.onMem fun m => { m with flaws := offs.foldl (fun f o => Cells.put 0 f (placeOfKey (lo + o)).flawKey v) m.flaws }

/-- Errors arise in scratchpad words of a tile: in written lines, which alone are read with their check bits (R125, R128). -/
def State.flawWords (s : State) (t : Nat) (ws : List (Nat × Nat)) : State :=
  { s with tile := { s.tile with flaws := (ws.filter fun w => s.lineWritten t (lineOf w.1)).foldl (fun f w =>
      Cells.put 0 f (wordKey t w.1) (min 2 w.2)) s.tile.flaws } }

/-- Errors arise in the transfers and the adder stages to come. -/
def State.flawWays (s : State) (x : Upsets) : State :=
  { s with tile := { s.tile with wire := s.tile.wire ++ x.wire, slips := s.tile.slips ++ x.slips } }

/-- Errors of every kind arise: in a region, in the scratchpad of the region's tile, and on the ways of data (log entry 104). -/
def State.upset (s : State) (stack : Bool) (i : Nat) (x : Upsets) : State :=
  let r := regionKeys stack i
  let inside := fun (l : List Nat) => l.filter fun o => decide (r.1 + o < r.2)
  let a := ((s.markFlaws r.1 1 (inside x.single)).markFlaws r.1 2 (inside x.double)).onMem fun m =>
    { m with badSeal := (inside x.seals).foldl (fun f o => Cells.put false f ((r.1 + o) / 512) true) m.badSeal }
  (if stack then a else a.flawWords i x.spad).flawWays x

/-- One pass over the lines and the blocks of a region: what is poisoned already stays so. -/
def State.scrub (s : State) (lo hi : Nat) : State :=
  let lines := ((s.mem.flaws.map fun w => w.1 / 8).eraseDups).filter fun l => decide (lo ≤ l * 64 ∧ l * 64 < hi)
  let a := lines.foldl (fun u l =>
    if (u.poisoned (placeOfKey (l * 64))).isSome then u else (u.scanLine none (placeOfKey (l * 64))).1) s
  let blocks := (a.mem.badSeal.map Prod.fst).filter fun x => decide (lo ≤ x * 512 ∧ x * 512 < hi)
  blocks.foldl (fun u x =>
    if Cells.get false u.mem.blkBad x then u
    else (u.poisonBlock x).sealFail none (placeOfKey (x * 512)).page .SEAL_STORED) a

/-- PATROL_SCRUB (R273, R277, R373): one pass over a bonded region, or a stack while SCRUB_CTRL.EN is 1. `met` are the errors
that the pass meets; `later` are those that arise after it, for the reads to come. -/
def execPatrolScrub (stack : Bool) (i : Nat) (met later : Upsets) (s : State) : Host.Outcome State Fault Refusal :=
  let r := regionKeys stack i
  if stack ∧ (!s.on (R.STACK.SCRUB_CTRL.EN i) ∨ s.on (R.STACK.STAT.FAILED i)) then .next s
  else
    let a := ((s.upset stack i met).scrub r.1 r.2).upset stack i later
    .next (if stack then a.bump (R.STACK.SCRUB_PASSES i) 1 else a)

/-- Whether a DRAM row of a region is due for sparing: 4 corrected errors within 24 h, or an uncorrectable one (R274). -/
def State.rowDue (s : State) (t r : Nat) : Bool :=
  let es := (Cells.get [] s.mem.rowErrs t).filter fun e => decide (Config.bondRow e.1 = r)
  es.any (fun e => e.2.2) || decide (4 ≤ (es.filter fun e => decide (s.now < e.2.1 + ticks24h)).length)

/-- The DRAM rows of a bank that are due for sparing. -/
def State.dueRows (s : State) (t bank : Nat) : List Nat :=
  ((((Cells.get [] s.mem.rowErrs t).filter fun e => decide (Config.bondBank e.1 % 16 = bank)).map fun e => Config.bondRow e.1).eraseDups).filter
    (s.rowDue t)

/-- A region's own spares are exhausted (R274): the tile beneath is treated as failed (R19). -/
def State.sparesOut (s : State) (t : Nat) : State :=
  if Cells.get false s.mem.lost t then s
  else
    ((s.onMem fun m => { m with lost := Cells.put false m.lost t true }).raise (pgTILE t) .REGION_SPARES_OUT).tileFailed
      (t / 40) (s.tileCol t)

/-- A DRAM row is remapped to a spare row: its errors so far are those of the row left behind. The repair is journalled (R475). -/
def State.spareRow (s : State) (t bank r : Nat) : State :=
  let n := s.rd (R.TILE.BOND_STAT.ROWS_SPARED t)
  let k := t * 16 + bank
  ((s.wr (R.TILE.BOND_STAT.ROWS_SPARED t) (n + 1)).onMem fun m => { m with
    spared := Cells.put 0 m.spared k (Cells.get 0 m.spared k + 1)
    rowErrs := Cells.put [] m.rowErrs t ((Cells.get [] m.rowErrs t).filter fun e => decide (Config.bondRow e.1 ≠ r)) }).journal jRepair

/-- BONDED_ROW_SPARE (R274): a DRAM row of a bank that is due is remapped to a spare row; the use of the last exhausts the
region. -/
def execBondedRowSpare (t : Fin 960) (bank : Fin 16) (s : State) : Host.Outcome State Fault Refusal :=
  let n := s.rd (R.TILE.BOND_STAT.ROWS_SPARED t)
  .next (match s.dueRows t bank with
    | [] => s
    | r :: _ =>
      if 1024 ≤ n then s.sparesOut t
      else if n + 1 = 1024 then (s.spareRow t bank r).sparesOut t
      else s.spareRow t bank r)

/-- The copy of a bank to the spare bank completes, and the partition goes on: the spared rows and the errors of the bank left behind
count no more, and the repair is journalled (R475). -/
def State.bankDone (s : State) (t bank : Nat) (p : Option Nat) : State :=
  let a := ((s.wr (R.TILE.BOND_STAT.BANK_SPARED t) 1).onMem fun m => { m with
    spared := Cells.put 0 m.spared (t * 16 + bank) 0
    rowErrs := Cells.put [] m.rowErrs t ((Cells.get [] m.rowErrs t).filter fun e => decide (Config.bondBank e.1 % 16 ≠ bank)) }).journal jRepair
  match p with
  | some p => if s.part.repairs.contains (p, repairBank t bank) then a.endRepair p (repairBank t bank) else a
  | none => a

/-- BANK_SPARE (R274): a bank with 128 spared rows, or that `failed` as a whole, is copied to the spare bank once the
partition is in QUIESCE; until then the sparing holder stops it. A second bank exhausts the region. -/
def execBankSpare (t : Fin 960) (bank : Fin 16) (failed : Bool) (s : State) : Host.Outcome State Fault Refusal :=
  let p := s.partOfRow (t / 40)
  .next (if !failed ∧ Cells.get 0 s.mem.spared (t * 16 + bank.val) < 128 then s
    else if s.on (R.TILE.BOND_STAT.BANK_SPARED t) then s.sparesOut t
    else if s.quiet p then s.bankDone t bank p
    else
      match p with
      | some p => s.beginRepair p (repairBank t bank.val)
      | none => s)

/-- A whole stack fails (R278). -/
def State.failStack (s : State) (k : Nat) : State :=
  let lo := (Place.stack k 0).gran
  ((s.dropGrans 1 stackGrans fun g => decide (lo ≤ g ∧ g < lo + stackGrans)).wr (R.STACK.STAT.FAILED k) 1).raise (pgSTACK k) .STACK_FAILED

/-- A channel of a stack is to be spared (R278): refused, if requested, while the spare is in use or the partition cannot
quiesce; a further failure with the spare used fails the stack. The errors met so far are dealt with, and what the channel meets
while it is copied is none of a further one. -/
def State.stackSpare (s : State) (k ch : Nat) (requested : Bool) : State :=
  let owner := nibblePart (s.act (R.MOD.STACK_ASSIGN k))
  let used := s.on (R.STACK.STAT.SPARING k) || decide (s.rd (R.STACK.STAT.SPARE_FOR k) ≠ 31)
  let cannot := owner.any s.partHeld
  let a := if requested then s.wr (R.STACK.SPARE_CTRL.CHANNEL k) ch else s
  if s.on (R.STACK.STAT.FAILED k) then (if requested then a.raise (pgSTACK k) .STACK_SPARE_REFUSED else a)
  else if requested && (used || cannot) then a.raise (pgSTACK k) .STACK_SPARE_REFUSED
  else if used then a.failStack k
  else
    let b := (a.wr (R.STACK.STAT.SPARING k) 1).onMem fun m => { m with
      sparing := Cells.put 0 m.sparing k (ch + 1), chanErrs := Cells.put [] m.chanErrs (k * 16 + ch) [] }
    match owner with
    | some p => b.beginRepair p (repairStack k)
    | none => b

/-- Whether a channel of a stack has failed: 1,024 corrected bursts within 24 h, or 2 uncorrectable ones (R278). -/
def State.chanDue (s : State) (k ch : Nat) : Bool :=
  let es := Cells.get [] s.mem.chanErrs (k * 16 + ch)
  decide (2 ≤ (es.filter Prod.snd).length) ||
    decide (1024 ≤ (es.filter fun e => !e.2 && decide (s.now < e.1 + ticks24h)).length)

/-- STACK_SPARE (R278): a channel past its threshold, or one that a write of SPARE_CTRL.GO names. -/
def execStackSpare (k : Fin 32) (ch : Fin 16) (request : Option Path) (s : State) : Host.Outcome State Fault Refusal :=
  .next (match request with
    | some p => s.onWrite p (R.STACK.SPARE_CTRL.CHANNEL k).addr 4 none fun s => s.stackSpare k ch.val true
    | none =>
      if s.fitted (pgSTACK k) && s.chanDue k ch.val && decide (Cells.get 0 s.mem.sparing k ≠ ch.val + 1) then s.stackSpare k ch.val false
      else s)

/-- STACK_SPARE_DONE (R278): the copy is made once the partition has stopped; the channel is remapped, the repair journalled (R475),
and the partition resumes. -/
def execStackSpareDone (k : Fin 32) (s : State) : Host.Outcome State Fault Refusal :=
  let owner := nibblePart (s.act (R.MOD.STACK_ASSIGN k))
  .next (if s.on (R.STACK.STAT.SPARING k) ∧ s.quiet owner then
      let a := (((s.wr (R.STACK.STAT.SPARING k) 0).wr (R.STACK.STAT.SPARE_FOR k) (Cells.get 0 s.mem.sparing k - 1)).onMem fun m =>
        { m with sparing := Cells.put 0 m.sparing k 0
                 chanErrs := Cells.put [] m.chanErrs (k * 16 + (Cells.get 0 s.mem.sparing k - 1)) [] }).journal jRepair
      match owner with
      | some p => a.endRepair p (repairStack k)
      | none => a
    else s)

/-- A stack shows its device temperature; above 85 °C its refresh is doubled (R276). -/
def State.stackTemp (s : State) (k c : Nat) : State := (s.wr (R.STACK.STAT.TEMP_C k) c).flag (R.STACK.STAT.HOT k) (decide (85 < c))

/-- DOUBLED_REFRESH (R276): the refresh doubles above 85 °C. -/
def execDoubledRefresh (k : Fin 32) (tempC : Nat) (s : State) : Host.Outcome State Fault Refusal :=
  .next (if s.fitted (pgSTACK k) then s.stackTemp k tempC else s)

/-! ### Sleds (R23, R279 to R282) -/

/-- The keys of a sled's granules. -/
def sledFirst (i : Nat) : Nat := (Place.flash i 0).gran
def onSled (i g : Nat) : Bool := decide (sledFirst i ≤ g ∧ g < sledFirst i + sledGrans)

/-- The records a sled keeps of its granules: granule, state, context (R279). -/
def State.sledRecords (s : State) (i : Nat) : List (Nat × Nat × Nat) :=
  (s.mem.grans.filter fun g => onSled i g.1).map fun g => (g.1 - sledFirst i, g.2.st, g.2.ctx)

/-- A sled is detached: its records stand as its granules did, and its granules leave TOTAL (R267, R281). -/
def State.detach (s : State) (i : Nat) : State :=
  let a := s.onMem fun m => { m with sledRec := Cells.put [] m.sledRec i (s.sledRecords i), closing := Cells.put false m.closing i false }
  (a.dropGrans 2 sledGrans (onSled i)).wr (R.FLASH.SLED_STAT.ATTACHED i) 0

/-- Whether an access to a sled is outstanding. -/
def State.sledBusy (s : State) (i : Nat) : Bool :=
  !(s.fetchesAt fun p => match p with
    | .flash j _ => decide (j = i)
    | _ => false).isEmpty

/-- The sled that an offset of this node is mapped to by its aperture. -/
def State.sledOf (s : State) (off : Nat) : Option Nat :=
  if flashBase ≤ off then some (s.rd (R.FLASH.APER_MAP.SLED ((off - flashBase) / blockBytes))) else none

/-- Whether a MOVE in progress has a granule under copy from or to a sled. -/
def State.moveOnSled (s : State) (i : Nat) (m : Move) : Bool := (s.moveOffs m).any fun o => decide (s.sledOf o = some i)

/-- SLED_RELEASE (R281): an attached sled admits no new access; one that is being released already goes on. -/
def State.sledRelease (s : State) (i : Nat) : State :=
  if s.on (R.FLASH.SLED_STAT.ATTACHED i) then
    s.onMem fun m => { m with closing := Cells.put false m.closing i true }
  else s.raise pgFLASH .SLED_REFUSED i

/-- Writes the fields of SLED_CTRL. -/
def State.sledCtrl (s : State) (i op : Nat) : State := (s.wr R.FLASH.SLED_CTRL.SLED i).wr R.FLASH.SLED_CTRL.OP op

def execSledRelease (p : Path) (i : Fin 4) (s : State) : Host.Outcome State Fault Refusal :=
  .next (s.onWrite p R.FLASH.SLED_CTRL.GO.addr 4 none fun s => ((s.sledCtrl i.val 1).sledRelease i.val))

/-- SLED_RELEASE_DONE (R281): the admitted accesses have completed; RELEASED sets and the granules leave TOTAL. -/
def execSledReleaseDone (i : Fin 4) (s : State) : Host.Outcome State Fault Refusal :=
  .next (if Cells.get false s.mem.closing i.val ∧ !s.sledBusy i.val ∧ !s.stream.moves.any (s.moveOnSled i.val) ∧
        !(s.mem.op.any fun o => o.left.any (onSled i.val)) then
      (s.detach i.val).wr (R.FLASH.SLED_STAT.RELEASED i.val) 1 else s)

/-- Asks the source of a held IN granule for its release (R453). -/
def State.sendQuery (s : State) (g : Nat) : State :=
  match Cells.get none s.fab.moveIn g with
  | some (node, src) => s.sendMsg none node 0xFF (.query src (g * granBytes))
  | none => s

/-- An IN granule that is the target of a move from another node is held; its source is asked once the module has
joined (R453). -/
def State.holdGran (s : State) (g : Nat) : State :=
  let a := { s with fab := { s.fab with held := s.fab.held ++ [g] } }
  let b := a.wr R.CFG.PREL.DST_HELD a.fab.held.length
  if b.joined then b.sendQuery g else b

/-- One record of a sled is taken into the home map: HOME stays HOME, OUT becomes HOME, IN becomes FREE unless it is the
target of a move from another node (R279, R453). -/
def State.takeRecord (s : State) (i : Nat) (r : Nat × Nat × Nat) : State :=
  let g := sledFirst i + r.1
  if r.2.1 = 2 ∨ r.2.1 = 3 then s.moveGran g ⟨2, r.2.2⟩
  else if r.2.1 = 1 ∧ (Cells.get none s.fab.moveIn g).isSome then
    (s.moveGran g ⟨1, r.2.2⟩).holdGran g
  else s

/-- The granules of a sled join TOTAL and its records rebuild the home map; a context that holds flash homes is claimed,
with LIMIT_FLASH as its USED_FLASH and its other limits 0 (R279). -/
def State.rebuildSled (s : State) (i : Nat) : State :=
  let rs := Cells.get [] s.mem.sledRec i
  let a := (s.tally (R.QUOTA.TIER_TOTAL 2) sledGrans).tally (R.QUOTA.TIER_FREE 2) sledGrans
  let b := rs.foldl (fun u r => u.takeRecord i r) a
  let cs := ((rs.filter fun r => decide (r.2.1 = 2 ∨ r.2.1 = 3)).map fun r => r.2.2).eraseDups
  cs.foldl (fun u c => (((u.wr (R.QUOTA.CTX_FLAGS.CLAIMED c) 1).wr (R.QUOTA.CTX_LIMIT_FLASH c) (u.rd (R.QUOTA.CTX_USED_FLASH c))).wr
    (R.QUOTA.CTX_LIMIT_BONDED c) 0).wr (R.QUOTA.CTX_LIMIT_STACK c) 0) b

/-- A sled becomes attached. -/
def State.attached_ (s : State) (i : Nat) : State :=
  (s.wr (R.FLASH.SLED_STAT.ATTACHED i) 1).wr (R.FLASH.SLED_STAT.RELEASED i) 0

/-- ATTACH (R281): accepted when present, not attached, and its record names this module. -/
def State.sledAttach (s : State) (i : Nat) : State :=
  if s.on (R.FLASH.SLED_STAT.PRESENT i) ∧ !s.on (R.FLASH.SLED_STAT.ATTACHED i) ∧ !s.on (R.FLASH.SLED_STAT.FOREIGN i) then
    (s.rebuildSled i).attached_ i
  else s.raise pgFLASH .SLED_REFUSED i

def execAttach (p : Path) (i : Fin 4) (s : State) : Host.Outcome State Fault Refusal :=
  .next (s.onWrite p R.FLASH.SLED_CTRL.GO.addr 4 none fun s => ((s.sledCtrl i.val 2).sledAttach i.val))

/-- The bytes of a sled leave the module's memory. -/
def State.clearSled (s : State) (i : Nat) : State :=
  let lo := (Place.flash i 0).key
  let inS := fun unit a => decide (lo / unit ≤ a ∧ a < (lo + 2 ^ 44) / unit)
  s.onMem fun m => { m with
    bytes := Cells.clear m.bytes (inS 1)
    poison := Cells.clear m.poison (inS 64)
    blkBad := Cells.clear m.blkBad (inS 512)
    flaws := Cells.clear m.flaws (inS 8)
    badSeal := Cells.clear m.badSeal (inS 512) }

/-- ATTACH_ERASE (R281): every granule is trimmed and FREE, and the record names this module. -/
def State.sledErase (s : State) (i : Nat) : State :=
  if s.on (R.FLASH.SLED_STAT.PRESENT i) ∧ !s.on (R.FLASH.SLED_STAT.ATTACHED i) then
    let a := ((s.clearSled i).onMem fun m => { m with sledRec := Cells.put [] m.sledRec i [] }).wr (R.FLASH.SLED_STAT.FOREIGN i) 0
    ((a.bump R.FLASH.TRIMS sledGrans).rebuildSled i).attached_ i
  else s.raise pgFLASH .SLED_REFUSED i

def execAttachErase (p : Path) (i : Fin 4) (s : State) : Host.Outcome State Fault Refusal :=
  .next (s.onWrite p R.FLASH.SLED_CTRL.GO.addr 4 none fun s => ((s.sledCtrl i.val 3).sledErase i.val))

/-- Shows a sled's wear; at no spare block left it becomes worn (R282). -/
def State.showWear (s : State) (i sparePct eraseMax : Nat) : State :=
  let a := (s.wr (R.FLASH.SLED_STAT.SPARE_PCT i) sparePct).wr (R.FLASH.SLED_STAT.ERASE_MAX i) (min 0xFFFF eraseMax)
  if sparePct = 0 ∧ !s.on (R.FLASH.SLED_STAT.WORN i) then (a.wr (R.FLASH.SLED_STAT.WORN i) 1).raise pgFLASH .SLED_WORN i else a

/-- Whether the variant fits sled position `i` (R6). -/
def State.sledPosition (s : State) (i : Nat) : Bool := decide (i < s.rd R.MOD.VARIANT.FLASH_SLEDS)

/-- SLED_INSERT (R6, R29, R281, R513): a sled of class KF-16 in a fitted position is present; any other stays unpowered, one of
another class is reported with SLED_REFUSED, and one beyond the fused count is reported at Enfleurage. The sled brings its
records, whether they name another module, its wear, and its data by granule-relative byte offset. -/
def execSledInsert (i : Fin 4) (ok foreign : Bool) (sparePct eraseMax : Nat) (records : List (Nat × Nat × Nat))
    (data : List (Nat × List Byte)) (s : State) : Host.Outcome State Fault Refusal :=
  let i := i.val
  .next (if s.on (R.FLASH.SLED_STAT.PRESENT i) then s
    else if !s.sledPosition i then s.onMem fun m => { m with extra := Cells.put false m.extra i true }
    else if !ok then s.raise pgFLASH .SLED_REFUSED i
    else
      let lo := (Place.flash i 0).key
      let a := (s.clearSled i).onMem fun m => { m with
        sledRec := Cells.put [] m.sledRec i (records.filter fun r => decide (r.1 < sledGrans ∧ r.2.2 < 64))
        bytes := data.foldl (fun b d => if d.1 + d.2.length ≤ sledBytes then Cells.putBytes b (lo + d.1) d.2 else b) m.bytes }
      let b := ((a.wr (R.FLASH.SLED_STAT.PRESENT i) 1).flag (R.FLASH.SLED_STAT.FOREIGN i) foreign).wr (R.FLASH.SLED_STAT.WORN i) 0
      (b.showWear i sparePct eraseMax).countInsert (partSled i))

/-- An attached sled is lost: its outstanding accesses end with SLED_PULLED, and its granules are counted as lost. -/
def State.sledLost (s : State) (i : Nat) : State :=
  let ms := s.fetchesAt fun p => match p with
    | .flash j _ => decide (j = i)
    | _ => false
  let b := ms.foldl (fun u m =>
    let o := m.xfers.head?.map Xfer.owner
    ((u.raiseFor o pgFLASH .SLED_PULLED i).bump R.FLASH.PULL_ABORTS 1).failFetch m .SLED_PULLED) s
  let c := (s.stream.moves.filter (s.moveOnSled i)).foldl (fun u m =>
    ((u.raiseFor (some m.owner) pgFLASH .SLED_PULLED i).bump R.FLASH.PULL_ABORTS 1).failMove m .SLED_PULLED) b
  c.detach i

/-- SLED_PULL (R23, R281, R482): a sled is pulled. -/
def execSledPull (i : Fin 4) (s : State) : Host.Outcome State Fault Refusal :=
  let i := i.val
  let a := if s.on (R.FLASH.SLED_STAT.ATTACHED i) then s.sledLost i else s
  .next (if s.on (R.FLASH.SLED_STAT.PRESENT i) then
      let z := (a.clearSled i).onMem fun m => { m with sledRec := Cells.put [] m.sledRec i [] }
      ([R.FLASH.SLED_STAT.PRESENT i, R.FLASH.SLED_STAT.RELEASED i, R.FLASH.SLED_STAT.WORN i, R.FLASH.SLED_STAT.FOREIGN i,
        R.FLASH.SLED_STAT.SPARE_PCT i, R.FLASH.SLED_STAT.ERASE_MAX i].foldl (fun u f => u.wr f 0) z).journal jPartOut
    else s.onMem fun m => { m with extra := Cells.put false m.extra i false })

end Sys2Proof.Machine
end

