-- ==== Sys2Proof/Machine/Frames.lean ====
section
/-! DEFINITION. Frames that arrive on a link: acceptance in FSEQ order, forwarding, and remote transactions
(R344 to R349, R358 to R363, R271). -/

namespace Sys2Proof.Machine

/-! ### Acceptance (R344, R347, R349) -/

/-- Changes what the fabric holds. -/
def State.onFab (s : State) (g : FabSt → FabSt) : State := { s with fab := g s.fab }

/-- The receiver of link `k` enters discard and sends one NAK that names the first FSEQ not accepted and tells the peer the
lanes that have failed here (R349, R354). -/
def State.enterDiscard (s : State) (k : Nat) : State :=
  if (s.link k).discard then s
  else (s.onLink k fun x => { x with discard := true, nakAt := s.now }).emit (.nak k (s.link k).rxSeq (s.rd (R.LINK.LANE_FAIL k)))

/-- Frame `f` is received in its order; the receiver leaves discard. -/
def State.receiveFrame (s : State) (k : Nat) (f : Frame) : State :=
  let n := f.body.codewords
  let a := s.onLink k fun x => { x with rxSeq := (x.rxSeq + 1) % 4096, discard := false }
  (a.tallyUp (R.LINK.LED_RECEIVED k f.cls) n).bump (R.LINK.RX_CW k) n

/-- Frame `f` is accepted and leaves the buffer at once: its codewords are received and freed, and acknowledged. -/
def State.acceptFrame (s : State) (k : Nat) (f : Frame) : State :=
  ((s.receiveFrame k f).freeCls k f.cls f.body.codewords).emit (.ack k f.fseq)

/-- Frame `f` is accepted and acknowledged, and stays in the buffer (R347). -/
def State.holdFrame (s : State) (k : Nat) (f : Frame) : State := (s.receiveFrame k f).emit (.ack k f.fseq)

/-- Whether this module takes a frame itself: link control; a broadcast; a join request of an unjoined neighbour or its
answer (R334); and, once it has joined, a frame for its node. -/
def State.takesFrame (s : State) (f : Frame) : Bool :=
  match f.body with
  | .ledger _ | .config _ => true
  | .msg _ _ _ (.joinAccept _ _ none) | .msg _ _ _ (.joinRefuse _ none) => !s.joined
  | .msg _ _ _ (.join _ _ _ none) => s.joined
  | .bcast _ => s.joined
  | _ => s.joined && decide (f.dst = s.rd R.MOD.FAB_NODE.NODE)

/-- A frame for another node, in the buffer of link `k` (R347, R359, R363): forwarded with one hop less, or ended with an
UNREACH, which frees it; a notice that finds no way is counted. -/
def State.forward (s : State) (k : Nat) (f : Frame) : State :=
  let x := if f.hops = 0 then (s, some Err.ROUTE_LOOP) else s.routeFrom { f with hops := f.hops - 1 } none (some (k, f.cls))
  match x.2 with
  | none => x.1.bump R.MOD.FWD_FRAMES 1
  | some e => (s.freeCls k f.cls f.body.codewords).endTransit f e

/-- A frame arrives on link `k`: `own` is what this module does with one it takes. A frame on the wrong VC, or of more data than
its type may have, is a corrupted codeword; one already accepted is acknowledged again; another out of order begins a discard. Before the module
has joined, what it does not take is dropped. -/
def State.takeFrame (s : State) (k : Nat) (f : Frame) (own : State → State) : State :=
  let x := s.link k
  if !s.linkUp k then s
  else if f.vc ≠ f.body.vc ∨ 1 < f.layer ∨ !f.body.sizeOk then (s.bump (R.LINK.FRAME_BAD k) 1).enterDiscard k
  else if f.fseq ≠ x.rxSeq then
    if !x.discard ∧ (x.rxSeq + 4096 - f.fseq) % 4096 ≤ 2048 then s.emit (.ack k ((x.rxSeq + 4095) % 4096)) else s.enterDiscard k
  else
    let a := s.acceptFrame k f
    if a.takesFrame f then own a else if a.joined then (s.holdFrame k f).forward k f else a

/-! ### Requests of other nodes (R266, R271, R361, R375, R376) -/

/-- A refusal of a request of another node counts in REMOTE_REFUSED if its context does not allow it (R266). -/
def State.countRefused (s : State) (e : Err) : State :=
  if e = .REMOTE_DENIED then s.bump R.QUOTA.REMOTE_REFUSED 1 else s

/-- A READ_REQ at its target. -/
def State.serveRead (s : State) (f : Frame) (words : Nat) : State :=
  match s.memRead none .remote f.offset (4 * words) with
  | (a, .ok bs) => a.answer f (.readData bs (sealsOf (firstSpan f.offset) bs))
  | (a, .error e) => (a.countRefused e).answer f (.readErr e.code)

/-- Answers a write. -/
def State.answerWrite (s : State) (f : Frame) (e : Option Err) : State :=
  match e with
  | none => s.answer f .writeAck
  | some e => (s.countRefused e).answer f (.writeErr e.code)

/-- A WRITE at its target. -/
def State.serveWrite (s : State) (f : Frame) (d : List Byte) (seals : List Word) (first : Nat) : State :=
  let x := s.sealedWrite none .remote f.offset first d (badSpans first d seals)
  x.1.answerWrite f x.2

/-- The granule of a MOVE from another node: HOME with REMOTE_WR when its first data arrives, which takes it IN; IN from
the same move afterwards (R256, R262, R266). Once it has failed here, what still arrives of that move is turned away, up to the
first piece of a further one (log entry 83). -/
def State.openMove (s : State) (p : Place) (src : Nat × Nat) : State × Option Err :=
  let g := s.gran p.gran
  let same := Cells.get none s.fab.moveIn p.gran = some src
  if g.st = 1 ∧ same then (s, none)
  else if g.st = 2 ∧ same ∧ p.key % granBytes ≠ 0 then (s, some .NO_HOME)
  else
    match s.checkPlace .remote true p with
    | some e => (s.raise (if e = .REMOTE_DENIED then pgQUOTA else p.page) e, some e)
    | none => ((s.moveGran p.gran { g with st := 1 }).onFab fun x => { x with moveIn := Cells.put none x.moveIn p.gran (some src) }, none)

/-- A MOVE from another node has failed at the granule of place `p`: it, and the later granules of that move, return from IN to
HOME (R263). -/
def State.closeMove (s : State) (p : Place) (src : Nat × Nat) : State :=
  let later := s.fab.moveIn.filter fun c => c.2.any fun x =>
    decide (x.1 = src.1 ∧ src.2 ≤ x.2 ∧ p.gran ≤ c.1 ∧ x.2 - src.2 = (c.1 - p.gran) * granBytes ∧ (s.gran c.1).st = 1)
  later.foldl (fun u c => u.moveGran c.1 { u.gran c.1 with st := 2 }) s

/-- A MOVE_DATA at its destination. -/
def State.serveMove (s : State) (f : Frame) (d : List Byte) (seals : List Word) (first src : Nat) : State :=
  match s.place f.offset with
  | .error e => (s.raise (s.pageOfOffset f.offset) e).answerWrite f (some e)
  | .ok p =>
    match s.openMove p (f.src, src) with
    | (a, some e) => a.answerWrite f (some e)
    | (a, none) =>
      let x := a.writeSpans none (a.pageOfOffset f.offset) first d (badSpans first d seals) fun u y bs =>
        u.writeRuns none (granRuns (f.offset + y) bs.length) bs
      (if x.2.isSome then x.1.closeMove p (f.src, src) else x.1).answerWrite f x.2

/-! ### Answers to this module's transactions (R361 to R363) -/

/-- A data error that the target reports marks the step of its owner (R271, R362). -/
def State.markOwner (s : State) (o : Owner) (e : Err) : State :=
  match o.step with
  | some t => if e.cls = 2 then s.mark o.part t.1 t.2 e.code else s
  | none => s

/-- A transaction ends with an error: `raised` where this module raises the code (R363). -/
def State.endTxn (s : State) (t : Txn) (e : Err) (raised : Bool) : State :=
  match t.kind with
  | .fetch eng id =>
    match s.entryOf eng id with
    | none => s
    | some m =>
      let o := m.xfers.head?.map Xfer.owner
      let a := if raised then s.raiseFor o (pgSILL eng) e else
        match o with
        | some w => s.markOwner w e
        | none => s
      a.onEntry id fun y => { y with err := some e }
  | .write o n =>
    let a := if raised then s.raiseFor (some o) (pgCQ o.queue) e else s.markOwner o e
    ((a.flightErr (some o) e).dropPosts o).frameDone o n
  | .move o g =>
    match s.moveOf o.queue o.idx with
    | none => s.freeSlot o.queue
    | some m => ((if raised then s.raiseFor (some o) (pgCQ o.queue) e else s.markOwner o e).moveFails m g e).freeSlot o.queue
  | .coll n q =>
    match s.collRun n q with
    | none => s
    | some r => s.endRun r e

/-- The code a notice or an error frame carries; one that names no error of this manual counts as NODE_UNREACHABLE. -/
def errOfCode (c : Nat) : Err := (Err.ofCode c).getD .NODE_UNREACHABLE

/-- Ends the transaction of a tag with an error. -/
def State.endTag (s : State) (tag : Nat) (e : Err) (raised : Bool) : State :=
  match s.takeTxn tag with
  | (some t, a) => a.endTxn t e raised
  | (none, _) => s

/-- READ_DATA at the requester: the carried seals are checked at the engine (R375, R376). -/
def State.takeReadData (s : State) (f : Frame) (d : List Byte) (seals : List Word) : State :=
  match s.takeTxn f.tag with
  | (some ⟨_, _, .fetch e id⟩, a) =>
    match a.entryOf e id with
    | none => a
    | some m =>
      if (badSpans (firstSpan f.offset) d seals).isEmpty then a.onEntry id fun y => { y with bytes := d, seals := seals }
      else (a.sealFail (m.xfers.head?.map Xfer.owner) (pgSILL e) .SEAL_CARRIED).onEntry id fun y => { y with err := some .SEAL_CARRIED }
  | _ => s

/-- WRITE_ACK at the requester. -/
def State.takeWriteAck (s : State) (tag : Nat) : State :=
  match s.takeTxn tag with
  | (some ⟨_, _, .write o n⟩, a) => a.frameDone o n
  | (some ⟨_, _, .move o _⟩, a) => a.freeSlot o.queue
  | _ => s

/-- An open kind of ledger that reconciles has been reconciled where `c` holds (R473). -/
def State.reconcile (s : State) (f : Fld) (c : Bool) : State := if c && (s.rd f = 1 || s.rd f = 2) then s.wr f 3 else s

/-- The move ledger is reconciled once CFG.PREL reads 0. -/
def State.movesSettled (s : State) : State :=
  s.reconcile R.LEDG.STATE.MOVE (decide (s.rd R.CFG.PREL.SRC_PENDING = 0 ∧ s.rd R.CFG.PREL.DST_HELD = 0))

/-- The link ledger is reconciled once every last peer has answered, or cannot be reached. -/
def State.linksSettled (s : State) : State :=
  s.reconcile R.LEDG.STATE.LINK (s.island.links.all fun x => x.2.peer.isNone || x.2.answered)

/-- An UNREACH at the source of the frame it names: a message is sent again later, and a ledger query counts as answered
(R363, R365, R473). -/
def State.takeUnreach (s : State) (tag code : Nat) : State :=
  match s.fab.msgs.find? fun m => decide (m.tag = tag) with
  | some m =>
    match m.msg with
    | .ledgerQuery _ k _ _ =>
      let z := LinkLedger.empty
      (s.onIsland fun i => { i with links := Cells.put z i.links k { Cells.get z i.links k with answered := true } }).linksSettled
    | _ => s
  | none => s.endTag tag (errOfCode code) true

/-! ### The rows -/

/-- READ_REQ (R361): served under R271, or forwarded. -/
def execReadReq (k : Fin 48) (f : Frame) (s : State) : Host.Outcome State Fault Refusal :=
  .next (match f.body with
    | .readReq n => s.takeFrame k f fun u => u.serveRead f n
    | _ => s)

/-- READ_DATA (R361). -/
def execReadData (k : Fin 48) (f : Frame) (s : State) : Host.Outcome State Fault Refusal :=
  .next (match f.body with
    | .readData d seals => s.takeFrame k f fun u => u.takeReadData f d seals
    | _ => s)

/-- READ_ERR (R362). -/
def execReadErr (k : Fin 48) (f : Frame) (s : State) : Host.Outcome State Fault Refusal :=
  .next (match f.body with
    | .readErr c => s.takeFrame k f fun u => u.endTag f.tag (errOfCode c) false
    | _ => s)

/-- WRITE (R361). -/
def execWriteFrame (k : Fin 48) (f : Frame) (s : State) : Host.Outcome State Fault Refusal :=
  .next (match f.body with
    | .write d seals n => s.takeFrame k f fun u => u.serveWrite f d seals n
    | _ => s)

/-- WRITE_ACK (R361). -/
def execWriteAck (k : Fin 48) (f : Frame) (s : State) : Host.Outcome State Fault Refusal :=
  .next (match f.body with
    | .writeAck => s.takeFrame k f fun u => u.takeWriteAck f.tag
    | _ => s)

/-- WRITE_ERR (R362). -/
def execWriteErr (k : Fin 48) (f : Frame) (s : State) : Host.Outcome State Fault Refusal :=
  .next (match f.body with
    | .writeErr c => s.takeFrame k f fun u => u.endTag f.tag (errOfCode c) false
    | _ => s)

/-- MOVE_DATA (R361). -/
def execMoveData (k : Fin 48) (f : Frame) (s : State) : Host.Outcome State Fault Refusal :=
  .next (match f.body with
    | .moveData d seals n g => s.takeFrame k f fun u => u.serveMove f d seals n g
    | _ => s)

/-- UNREACH (R363). -/
def execUnreach (k : Fin 48) (f : Frame) (s : State) : Host.Outcome State Fault Refusal :=
  .next (match f.body with
    | .unreach c => s.takeFrame k f fun u => u.takeUnreach f.tag c
    | _ => s)

/-- COLL_DATA (R317 to R324). -/
def execCollData (k : Fin 48) (f : Frame) (s : State) : Host.Outcome State Fault Refusal :=
  .next (match f.body with
    | .collData pos d seals n => s.takeFrame k f fun u => u.collData f pos d seals n
    | _ => s)

/-- COLL_ACK (R326). -/
def execCollAck (k : Fin 48) (f : Frame) (s : State) : Host.Outcome State Fault Refusal :=
  .next (match f.body with
    | .collAck pos n => s.takeFrame k f fun u => u.collAck f.tag pos n
    | _ => s)

end Sys2Proof.Machine
end

