-- ==== Sys2Proof/Machine/Clock.lean ====
section
/-! DEFINITION. The commands of spec/03: reference and clock fraction, timebase and PTP. -/

namespace Sys2Proof.Machine

/-! ### Clock fraction (R70 to R75) -/

/-- Whether a frame begins in the tick now beginning: where TIME is even, and at the edge of a set of TIME to an odd value, with
the shortened frame (R70, R77). -/
def State.frameHere (s : State) : Bool := decide (s.time % 2 = 0 ∨ s.clk.cut = some s.now)

/-- The first frame that begins at or after tick `t`, the present tick or a later one (R70, R72, R77). -/
def State.frameAt (s : State) (t : Nat) : Nat := if t = s.time ∧ s.frameHere then t else t + t % 2

/-- One row's fraction. -/
def State.rowFrac (s : State) (r : Nat) : RowFrac := Cells.get ⟨0, none⟩ s.clk.rows r

/-- The target of partition `p`: its staged fraction, or the lower of that and the emergency fraction (R74). The emergency
fraction is the one that EMERG_CTRL.FRAC held at the GO of the operation in force (DESIGN CHOICE, log entry 62). -/
def State.fracTarget (s : State) (p : Nat) : Nat :=
  if s.on R.CLK.EMERG_STAT.ACTIVE then min (s.act (R.CLK.FRAC_P p)) s.clk.frac else s.act (R.CLK.FRAC_P p)

/-- Sets one row's fraction. -/
def State.setRow (s : State) (r : Nat) (f : RowFrac) : State :=
  { s with clk := { s.clk with rows := Cells.put ⟨0, none⟩ s.clk.rows r f } }

/-- The effective fraction of partition `p`: the lowest among its rows, but for retired ones, which are at park (R32); 0 if it is
undefined (FRAC_EFF). -/
def State.fracEff (s : State) (p : Nat) : Nat :=
  match (s.partRows p).filter fun r => !s.rowRetired r with
  | [] => 0
  | r :: rs => rs.foldl (fun m x => min m (s.rowFrac x).eff) (s.rowFrac r).eff

/-- Shows the effective fractions in FRAC_EFF0 and FRAC_EFF1. -/
def State.showFrac (s : State) : State :=
  (List.range 8).foldl (fun t p => t.wr (R.CLK.FRAC_EFF p) (s.fracEff p)) s

/-- Whether MOD is still to apply the partition table of the commit in progress (R35, R57). -/
def State.tableComes (s : State) : Bool :=
  s.on R.MOD.COMMIT_STAT.PENDING && s.commit.cycleDone && s.commit.pages.contains pgMOD && !s.on (R.PG.STAT.ACKED pgMOD) &&
    !s.on (R.PG.STAT.NAKED pgMOD) && !s.commit.refused

/-- The partition whose fraction row `r` follows: the one that a table MOD is still to apply gives it, once the CLK page has
acknowledged for that partition, and else its partition under the active table (R73). A retired row follows none (R32). -/
def State.clkPart (s : State) (r : Nat) : Option Nat :=
  if s.rowRetired r then none
  else match if s.tableComes then partOfRowBy s.pendCopy r else none with
  | some p => if s.commit.frac.testBit p || s.on (R.PG.STAT.ACKED pgCLK) then some p else s.partOfRow r
  | none => s.partOfRow r

/-- The rows that follow the fraction of partition `p`. -/
def State.clkRows (s : State) (p : Nat) : List Nat := (List.range 24).filter fun r => s.clkPart r = some p

/-- After a change of the targets of the partitions that `ok` names, a row that was stepping goes on 128 ticks after its
previous move; another starts at the first frame from tick `t`, unless it is at its target (R72, R75). -/
def State.retarget (s : State) (ok : Nat → Bool) (t : Nat) : State :=
  (List.range 24).foldl (fun u r =>
    match s.clkPart r with
    | none => u
    | some p =>
      let f := s.rowFrac r
      if !ok p ∨ f.eff = 0 then u
      else u.setRow r { f with due := if f.eff = s.fracTarget p then none else f.due.or (some (s.frameAt t)) }) s

/-- Rows that come to partition `p` from park take fraction 2 (R73). -/
def State.wakeRows (s : State) (p : Nat) : State :=
  ((s.clkRows p).filter fun r => decide ((s.rowFrac r).eff = 0)).foldl (fun u r => u.setRow r ⟨2, none⟩) s

/-- One frame's move of partition `p`: each of its rows that is due moves one sixteenth towards the target, and its next move
is 64 frames later (R72). A frame that begins at an odd tick is the shortened one of R77, of one tick. -/
def State.moveRows (s : State) (p : Nat) : State × Bool :=
  (s.clkRows p).foldl (fun u r =>
    let f := s.rowFrac r
    let g := s.fracTarget p
    match f.due with
    | some d =>
      if f.eff ≠ g ∧ d ≤ s.time then
        let e := if f.eff < g then f.eff + 1 else f.eff - 1
        (u.1.setRow r ⟨e, if e = g then none else some (d + 128 - d % 2)⟩, true)
      else u
    | none => u) (s, false)

/-- FRACTION_MOVE (R72): the frame in which the rows of partition `p` move, counted once in FRAC_CHANGES. -/
def execFractionMove (p : Fin 8) (s : State) : Host.Outcome State Fault Refusal :=
  let m := s.moveRows p
  .next (if m.2 then m.1.showFrac.bump R.CLK.FRAC_CHANGES 1 else s)

/-- An emergency fraction outside 2 to 16 is taken as 2 (EMERG_CTRL.FRAC). -/
def emergFrac (v : Nat) : Nat := if 2 ≤ v ∧ v ≤ 16 then v else 2

/-- An emergency operation takes effect: ACTIVE, the fraction in force, the count, and stepping from `t` (R74, R75). A
release ends the cap with it (R417). -/
def State.emergEffect (s : State) (op : EmergOp) (t : Nat) : State :=
  let u := { s with clk := { s.clk with
    pending := none, frac := if op.apply then op.frac else s.clk.frac
    daxvo := op.apply && (op.src = 2 || s.clk.daxvo), capCeil := if op.apply then s.clk.capCeil else none } }
  let v := ((u.flag R.CLK.EMERG_STAT.PENDING false).flag R.CLK.EMERG_STAT.ACTIVE op.apply).bump R.CLK.EMERG_COUNT 1
  (v.when (!op.apply) fun w => w.wr R.PWR.STAT.CAP_ACTIVE 0).retarget (fun _ => true) t

/-- The fields that a GO on EMERG_CTRL from its source loads (0 register write, 1 PWR block, 2 Daxvo message); a pending
operation that it replaces is counted (R74, R75). -/
def State.emergLoad (s : State) (op : EmergOp) : State :=
  let a := (s.wr R.CLK.EMERG_CTRL.FRAC op.frac).wr R.CLK.EMERG_CTRL.OP (if op.apply then 1 else 2)
  let b := (a.wr R.CLK.EMERG_EPOCH op.epoch).wr R.CLK.EMERG_STAT.SOURCE op.src
  if s.clk.pending.isSome then b.wr R.CLK.EMERG_STAT.REPLACED (min 0xFFFF (s.rd R.CLK.EMERG_STAT.REPLACED + 1)) else b

/-- A GO on EMERG_CTRL: schedules the operation, or starts it at the next frame where its epoch has passed (R74). -/
def State.emergGo (s : State) (op : EmergOp) : State :=
  let c := s.emergLoad op
  let op' : EmergOp := { op with frac := emergFrac op.frac }
  if op.epoch ≤ s.time then
    ((c.emergEffect op' (s.time + 1)).wr R.CLK.EMERG_STAT.LATE 1).raise pgCLK .EMERG_LATE
  else
    ({ c with clk := { c.clk with pending := some op' } }).flag R.CLK.EMERG_STAT.PENDING true

/-- EMERG_APPLY (R74): GO with OP apply, at the epoch in EMERG_EPOCH. -/
def execEmergApply (p : Path) (frac : BitVec 5) (s : State) : Host.Outcome State Fault Refusal :=
  .next (s.onWrite p R.CLK.EMERG_CTRL.GO.addr 4 none fun s => (s.emergGo ⟨true, frac.toNat, s.rd R.CLK.EMERG_EPOCH, 0⟩))

/-- EMERG_RELEASE (R75): GO with OP release, at the epoch in EMERG_EPOCH; every target returns to its staged fraction. -/
def execEmergRelease (p : Path) (s : State) : Host.Outcome State Fault Refusal :=
  .next (s.onWrite p R.CLK.EMERG_CTRL.GO.addr 4 none fun s => (s.emergGo ⟨false, s.rd R.CLK.EMERG_CTRL.FRAC, s.rd R.CLK.EMERG_EPOCH, 0⟩))

/-- EMERG_EPOCH (R74, R80): at the first edge at which TIME has reached the epoch, the pending operation takes effect. -/
def execEmergEpoch (s : State) : Host.Outcome State Fault Refusal :=
  match s.clk.pending with
  | some op => .next (if op.epoch ≤ s.time then s.emergEffect op s.time else s)
  | none => .next s

/-! ### Reference (R66) -/

/-- The magnitude of REF_PPM, in units of 0.01 ppm. -/
def refMagnitude (v : Nat) : Nat := (signed 16 v).natAbs

/-- REFERENCE_OUT_OF_RANGE (R66): a reading of a reference that is present. One more than 50 ppm off (5,000 units) raises
REF_RANGE, and the PLL tracks it; REF_OK follows the reading, in holdover too. -/
def execReferenceOutOfRange (ppm : Nat) (s : State) : Host.Outcome State Fault Refusal :=
  let a := s.wr R.CLK.STATUS.REF_PPM ppm
  .next (if 5000 < refMagnitude ppm then (a.wr R.CLK.STATUS.REF_OK 0).raise pgCLK .REF_RANGE
    else a.wr R.CLK.STATUS.REF_OK 1)

/-- HOLDOVER_ENTRY (R66): the reference has been absent, or out of range, for a number of ticks, and REF_OK is 0. After 16 ticks
absent or 1 ms out of range the root PLL holds its last frequency, REF_LOSS is raised, and the timebase keeps counting. -/
def execHoldoverEntry (absent : Bool) (ticks : Nat) (s : State) : Host.Outcome State Fault Refusal :=
  let a := s.when (decide (ticks ≠ 0)) fun u => u.wr R.CLK.STATUS.REF_OK 0
  .next (if s.on R.CLK.STATUS.HOLDOVER ∨ ticks < (if absent then 16 else Config.ticksPerMs) then a
    else (a.wr R.CLK.STATUS.HOLDOVER 1).raise pgCLK .REF_LOSS)

/-- HOLDOVER_EXIT (R66): the reference has been in range for 1 ms; HOLDOVER clears, with no phase step. -/
def execHoldoverExit (ppm ticks : Nat) (s : State) : Host.Outcome State Fault Refusal :=
  .next (if refMagnitude ppm ≤ 5000 ∧ Config.ticksPerMs ≤ ticks then
      ((s.wr R.CLK.STATUS.HOLDOVER 0).wr R.CLK.STATUS.REF_OK 1).wr R.CLK.STATUS.REF_PPM ppm
    else s)

/-! ### Timebase (R77) -/

/-- A row's next move after a set of TIME from `old` to `new`: the frame in progress ends at the edge of the set, and a
shortened frame, where the new value is odd, counts as one frame (R77). -/
def rebaseDue (old new due : Nat) : Nat :=
  let k := (due - (old - old % 2)) / 2
  if k ≤ 1 then new else if new % 2 = 0 then new + 2 * (k - 1) else new + 1 + 2 * (k - 2)

/-! ### PTP (R78, R79) -/

/-- Whether `x` is a better clock than `y` under the default best master clock algorithm (R78, log entry 7). -/
def announceBetter (x y : Announce) : Bool :=
  let key := fun (a : Announce) => [a.priority1, a.clockClass, a.accuracy, a.variance, a.priority2, a.gmIdentity.toNat,
    a.stepsRemoved, a.sender.toNat, a.senderPort]
  match ((key x).zip (key y)).find? fun c => decide (c.1 ≠ c.2) with
  | some c => c.1 < c.2
  | none => false

/-- Whether a PTP message of `domain` over a transport on `port` is taken: the configured domain and transport, on an enabled
port (R78). -/
def State.ptpTaken (s : State) (port : Port) (domain : Nat) (udp : Bool) : Bool :=
  decide (domain = s.rd R.TB.PTP_CFG.DOMAIN) && (udp == s.on R.TB.PTP_CFG.UDP) && bitOf (s.rd R.TB.PTP_CFG.PORT_EN) (portIx port)

/-- The better of a clock found so far and a further one. -/
def betterOf (m : Option Announce) (x : Announce) : Option Announce :=
  match m with
  | none => some x
  | some y => if announceBetter x y then some x else some y

/-- The best foreign master that `port` hears, of those it takes (R78). -/
def State.bestOn (s : State) (port : Port) : Option Announce :=
  ((s.ptp.heard.filter fun x => decide (x.port = port) && s.ptpTaken port x.ann.domain x.udp).map Foreign.ann).foldl betterOf none

/-- The best foreign master of the two ports, and whether port B hears it (R78). -/
def State.ptpBest (s : State) : Option (Announce × Bool) :=
  match s.bestOn .a, s.bestOn .b with
  | some x, some y => if announceBetter y x then some (y, true) else some (x, false)
  | none, some y => some (y, true)
  | some x, none => some (x, false)
  | none, none => none

/-- Whether the best foreign master `x` is better than the best of another port, `y`, by topology alone: both lead to the same
grandmaster (R78, log entry 7). -/
def byTopology (own : DWord) (x y : Announce) : Bool :=
  decide (x.gmIdentity = y.gmIdentity) && (decide (x.stepsRemoved = y.stepsRemoved) ||
    (decide (y.stepsRemoved = x.stepsRemoved + 1) && decide (y.sender.toNat < own.toNat)))

/-- What a PTP port is under the default best master clock algorithm (R78, log entry 7). -/
inductive PtpRole where
  | off | master | slave | passive
  deriving DecidableEq, Repr

/-- The state decision for a port (R78, log entry 7): a clock of class 127 or lower is never a slave. -/
def State.ptpRole (s : State) (port : Port) : PtpRole :=
  if s.modState = 0 ∨ !bitOf (s.rd R.TB.PTP_CFG.PORT_EN) (portIx port) then .off
  else if s.ptp.own.clockClass ≤ 127 then
    given (s.bestOn port) .master fun y => if announceBetter s.ptp.own y then .master else .passive
  else
    given s.ptpBest .master fun x =>
      if announceBetter s.ptp.own x.1 then .master
      else if x.2 = decide (port = .b) then .slave
      else given (s.bestOn port) .master fun y => if byTopology s.ptp.own.gmIdentity x.1 y then .passive else .master

/-- Whether `port` is the slave port. -/
def State.ptpSlave (s : State) (port : Port) : Bool := decide (s.ptpRole port = .slave)

/-- Whether `port` is a master port. -/
def State.ptpMaster (s : State) (port : Port) : Bool := decide (s.ptpRole port = .master)

/-- Whether a master is selected: the best foreign master, heard on the slave port (R78). -/
def State.ptpFollows (s : State) : Option (Announce × Bool) := if s.ptpSlave .a || s.ptpSlave .b then s.ptpBest else none

/-- A signed value held to 32 bits, for TB.OFFSET (signed ps, saturating). -/
def saturate32 (v : Int) : Nat := unsigned 32 (max (-(2 ^ 31 : Nat)) (min (2 ^ 31 - 1 : Nat) v))

/-- CLK.STEER is clamped to ±20,000 ppb (R65). -/
def clampPpb (v : Int) : Nat := unsigned 32 (max (-20000) (min 20000 v))

/-- Whether a management card is present, so that the servo runs (R81). -/
def State.leadPresent (s : State) : Bool := s.on R.MGMT.ROLE.A_PRESENT || s.on R.MGMT.ROLE.B_PRESENT

/-- Whether the servo runs: a card is present, and it is not absent in a takeover (R81). -/
def State.servoRuns (s : State) : Bool := s.leadPresent && !s.mgmt.servoOff

/-- Shows TB.STAT.PTP_LOCK: a master is selected and the servo is running. -/
def State.showLock (s : State) : State := s.flag R.TB.STAT.PTP_LOCK (s.ptpFollows.isSome && s.servoRuns)

/-- The servo steers CLK.STEER, unless it is absent in a takeover, or the PLL holds its last frequency (R66, R81). The spec
gives no control law, so the value is free, within the clamp (log entry 6). -/
def State.servo (s : State) : State :=
  if s.servoRuns && !s.on R.CLK.STATUS.HOLDOVER then
    let (v, t) := s.fresh
    t.wr R.CLK.STEER (clampPpb (signed 32 v))
  else s

/-- SYNC as it stands (R79): the last measured offset is within the tolerance, and a Sync has arrived within the last 2 s. -/
def State.judgeSync (s : State) : State :=
  let near := decide ((signed 32 (s.rd R.TB.OFFSET)).natAbs ≤ max 1 (s.rd R.TB.PTP_CFG.SYNC_TOL) * 6400)
  let heard := match s.ptp.lastSync with
    | some t => decide (s.now < t + 2 * Config.ticksPerS)
    | none => false
  s.flag R.TB.STAT.SYNC (s.ptp.measured && near && heard)

/-- Changes what the PTP clock holds. -/
def State.onPtp (s : State) (g : PtpSt → PtpSt) : State := { s with ptp := g s.ptp }

/-- One measured offset (ps): OFFSET, SYNC, TB_OFFSET_LARGE, and the servo (R79). -/
def State.ptpMeasure (s : State) (t1 t2 : Nat) : State :=
  let off : Int := (t2 : Int) - t1 - s.rd R.TB.PATH_DELAY
  let a := (s.wr R.TB.OFFSET (saturate32 off)).onPtp fun p => { p with awaitFu := false, measured := true }
  let b := a.judgeSync
  let c := if 156250 * 6400 < off.natAbs ∧ (List.range 8).any (fun p => s.partRead p = 4) then
      b.raise pgTB .TB_OFFSET_LARGE else b
  c.servo

/-- PTP_SYNC (R78, R79): a one-step Sync is measured at once; a two-step Sync waits for its Follow_Up. A master port sends its
own in two steps. -/
def execPtpSync (port : Port) (m : PtpSync) (s : State) : Host.Outcome State Fault Refusal :=
  match m with
  | .received domain udp twoStep t1 t2 => .next (if s.ptpTaken port domain udp && s.ptpSlave port then
      let a := s.onPtp fun p => { p with t1 := t1, t2 := t2, awaitFu := twoStep, lastSync := some s.now }
      if twoStep then a.judgeSync else a.ptpMeasure t1 t2
    else s)
  | .sent t1 => .next (if s.ptpMaster port then
      let d := s.rd R.TB.PTP_CFG.DOMAIN
      let udp := s.on R.TB.PTP_CFG.UDP
      (s.emit (.ptpSync port udp d)).emit (.ptpFollowUp port udp d t1)
    else s)

/-- PTP_FOLLOW_UP (R78): the precise origin time of the two-step Sync that waits for it. -/
def execPtpFollowUp (port : Port) (domain : Nat) (udp : Bool) (t1 : Nat) (s : State) : Host.Outcome State Fault Refusal :=
  .next (if s.ptpTaken port domain udp && s.ptpSlave port && s.ptp.awaitFu then
      (s.onPtp fun p => { p with t1 := t1 }).ptpMeasure t1 s.ptp.t2
    else s)

/-- PTP_DELAY_REQ (R78): the slave port sends a Delay_Req at `t3` and awaits its answer; a master port answers one that arrives
with its arrival time. -/
def execPtpDelayReq (port : Port) (m : PtpDelayReq) (s : State) : Host.Outcome State Fault Refusal :=
  match m with
  | .sent t3 => .next (if s.ptpSlave port then
      (s.onPtp fun p => { p with t3 := some t3 }).emit (.ptpDelayReq port (s.on R.TB.PTP_CFG.UDP) t3)
    else s)
  | .received domain udp clock t4 => .next (if s.ptpTaken port domain udp && s.ptpMaster port then
      s.emit (.ptpDelayResp port udp domain clock t4)
    else s)

/-- PTP_DELAY_RESP (R78): completes the delay request-response measurement; PATH_DELAY is the mean path delay. -/
def execPtpDelayResp (port : Port) (domain : Nat) (udp : Bool) (t4 : Nat) (s : State) : Host.Outcome State Fault Refusal :=
  match s.ptp.t3 with
  | some t3 => .next (if s.ptpTaken port domain udp && s.ptpSlave port then
      let d : Int := (((s.ptp.t2 : Int) - s.ptp.t1) + ((t4 : Int) - t3)) / 2
      (s.onPtp fun p => { p with t3 := none }).wr R.TB.PATH_DELAY (unsigned 32 d)
    else s)
  | none => .next s

/-- An Announce is qualified if it is not this clock's own and has not come over 255 clocks (R78, log entry 7). -/
def State.qualified (s : State) (a : Announce) : Bool := decide (a.sender ≠ s.ptp.own.gmIdentity ∧ a.stepsRemoved < 255)

/-- A foreign master's Announce takes the place of its last one (R78). -/
def PtpSt.hear (p : PtpSt) (port : Port) (udp : Bool) (a : Announce) : PtpSt :=
  let same := fun (x : Foreign) => decide (x.port = port ∧ x.udp = udp ∧ x.ann.domain = a.domain ∧ x.ann.sender = a.sender ∧
    x.ann.senderPort = a.senderPort)
  { p with heard := p.heard.filter (fun x => !same x) ++ [⟨port, udp, a⟩], utc := some a.utcOffset }

/-- PTP_ANNOUNCE (R78): the best of the foreign masters, where it is better than the module's own clock, gives the grandmaster
and the slave port. A master port sends on what the module's clock follows, one step further; where it follows none, its own. -/
def execPtpAnnounce (port : Port) (m : PtpAnnounce) (s : State) : Host.Outcome State Fault Refusal :=
  match m with
  | .received udp a => .next (if s.ptpTaken port a.domain udp && s.qualified a then
      let b := s.onPtp fun p => p.hear port udp a
      given b.ptpFollows b fun x => (b.wr R.TB.GM_IDENTITY x.1.gmIdentity.toNat).flag R.TB.STAT.PORT_B x.2
    else s)
  | .sent => .next (if s.ptpMaster port then
      let a := given s.ptpFollows s.ptp.own fun x => { x.1 with stepsRemoved := x.1.stepsRemoved + 1 }
      s.emit (.ptpAnnounce port (s.on R.TB.PTP_CFG.UDP)
        { a with domain := s.rd R.TB.PTP_CFG.DOMAIN, sender := s.ptp.own.gmIdentity, senderPort := portIx port + 1 })
    else s)

/-- SYNC_TIMEOUT (R79): no valid Sync for 2 s clears SYNC; the steering is held. -/
def execSyncTimeout (s : State) : Host.Outcome State Fault Refusal :=
  .next (if s.on R.TB.STAT.SYNC && (match s.ptp.lastSync with
      | some t => decide (t + 2 * Config.ticksPerS ≤ s.now)
      | none => true) then (s.wr R.TB.STAT.SYNC 0).raise pgTB .PTP_LOSS else s)

end Sys2Proof.Machine
end

