-- ==== Sys2Proof/Machine/Tick.lean ====
section
/-! DEFINITION. One clk_tb tick: TIME and the counters that count ticks (R76, R181, R185, R227, R272, R276, R286, R330,
R348, R407). -/

namespace Sys2Proof.Machine

/-! ### Queues (R181, R185, R272, R286) -/

/-- The tier of an address as QUOTA.STALL numbers them: 0 bonded, 1 stack, 2 flash, 3 fabric, 4 host (R272). -/
def State.tierOfAddr (s : State) (a : Nat) : Option Nat :=
  match s.endOf a with
  | .bond _ => some 0
  | .stack _ => some 1
  | .flash => some 2
  | .node => some 3
  | .host => some 4
  | _ => none

/-- The tier of an offset of this node: the source of a MOVE. -/
def offTier (off : Nat) : Nat := if off < bondEnd then 0 else if off < flashBase then 1 else 2

/-- Whether an owner is an incomplete STREAM of queue `q` earlier than its HEAD. -/
def State.streamBehind (s : State) (q : Nat) (o : Owner) : Bool :=
  decide (o.queue = q) && (s.q q).flights.any fun f => decide (f.cls = clsStream ∧ f.idx = o.idx) && idxBefore f.idx (s.nextIdx q)

/-- The tiers at which the STREAMs of queue `q` before its HEAD have a transfer outstanding (R272). -/
def State.tiersOutstanding (s : State) (q : Nat) : List Nat :=
  let xs := s.stream.entries.flatMap MergeEntry.xfers ++ s.stream.drops.map Drop.xfer
  let reads := xs.filterMap fun x => if s.streamBehind q x.owner then s.tierOfAddr x.src else none
  let moves := s.stream.moves.flatMap fun m =>
    if s.streamBehind q m.owner && s.moveLocal m && decide (m.flipped < m.out) then
      offTier (m.from m.flipped) :: (s.tierOfAddr m.dst).toList else []
  let far := s.fab.txns.flatMap fun t =>
    match t.kind with
    | .write o _ => if s.streamBehind q o then [3] else []
    | .move o _ => if s.streamBehind q o then ((s.moveOf o.queue o.idx).toList.map fun m => offTier m.src) ++ [3] else []
    | _ => []
  (reads ++ moves ++ far).eraseDups

/-- Whether a STREAM of queue `q` waits for transfer slots: of its queue, or of an engine, which a disabled one has not (R181,
R233). -/
def State.waitsForSlots (s : State) (q : Nat) : Bool :=
  let needs := s.stream.waiting.filterMap (fun x => if x.2.owner.queue = q then some x.1 else none) ++
    s.stream.gathers.filterMap fun g => if g.owner.queue = q then some g.work.eng else none
  (needs.any fun e => !s.queueRoom q || !s.engineOpen e) || (!s.queueRoom q &&
    (s.stream.posts.any (fun p => decide (p.owner.queue = q)) ||
      s.stream.moves.any fun m => decide (m.owner.queue = q ∧ m.out < m.total)))

/-- Whether a PARAM_UPDATE waits at the HEAD of queue `q` (R286). -/
def State.updateWaits (s : State) (q : Nat) : Bool :=
  match s.entryAt q (s.nextIdx q) with
  | none => false
  | some e => s.waitWhy q e = 0 && decide (s.updateWait q e ≠ 0)

/-- The tick counters of one queue. -/
def State.tickQueue (s : State) (q : Nat) : State :=
  let x := s.queueStat q
  let a := s.when (x.1 = 2) fun u => u.bump (R.CQ.WAIT_TICKS q) 1
  a.when (s.waitsForSlots q || x = (2, 3)) fun u => u.bump (R.CQ.XFER_STALL q) 1

/-- Queues whose HEAD command waits with WAIT_WHY 1 or 2. -/
def State.waitingQueues (s : State) : List Nat :=
  (List.range 64).filter fun q => s.on (R.PG.CTRL.EN (pgCQ q)) && [(2, 1), (2, 2)].contains (s.queueStat q)

/-- STALLp_x and UPDATE_HOLD of partition `p`, where `qs` are its waiting queues (R272, R286). -/
def State.tickPart (s : State) (qs : List Nat) (p : Nat) : State :=
  let mine := qs.filter fun q => s.queuePart q = some p
  let a := ((mine.flatMap s.tiersOutstanding).eraseDups).foldl (fun u x => u.bump (R.QUOTA.STALL p x) 1) s
  a.when (mine.any s.updateWaits) fun u => u.bump (R.MOD.STEP_UPDATE_HOLD p) 1

/-! ### Engines, links, stacks and domains -/

/-- The wait counter of a source class (R227). -/
def waitFld (e x : Nat) : Option Fld :=
  match x with
  | 1 => some (R.SILL.WAIT_STACK e)
  | 2 => some (R.SILL.WAIT_FLASH e)
  | 3 => some (R.SILL.WAIT_FABRIC e)
  | 4 => some (R.SILL.WAIT_HOST e)
  | _ => none

/-- The source classes at which engine `e` has a fetch outstanding. -/
def State.fetchTiers (s : State) (e : Nat) : List Nat :=
  ((s.stream.entries.filter fun m => decide (m.eng = e) && m.issued.isSome && m.words.isNone).filterMap fun m =>
    m.xfers.head?.bind fun x => s.tierOfAddr x.src).eraseDups

/-- Whether engine `e` has an injection ready, and none that it holds the credits for. -/
def State.creditBlocked (s : State) (e : Nat) : Bool :=
  let ready := s.stream.entries.filter fun m => decide (m.eng = e) && m.words.isSome && !m.groups.isEmpty
  !ready.isEmpty && ready.all fun m => m.groups.all fun g => !s.hasCredits e g.xfers

/-- The tick counters of one Sillage engine (R227). -/
def State.tickSill (s : State) (e : Nat) : State :=
  if s.stream.sent.contains e then s
  else
    let a := ((s.fetchTiers e).filterMap (waitFld e)).foldl (fun u f => u.bump f 1) s
    a.when (s.creditBlocked e) fun u => u.bump (R.SILL.CREDIT_STALL e) 1

/-- The ranks whose data or acknowledgements a collective waits for. -/
def CollRun.waitsFor (r : CollRun) : List Nat :=
  match r.prog.head? with
  | some (.recv _ _ j _ _ _) | some (.take j) | some (.tokens j) | some (.spill j) | some (.ackedBy j) => [j]
  | some .acked | none => r.unacked.map Unacked.rank
  | some .heard => (List.range r.desc.size).filter fun j => j ≠ r.desc.rank && !r.heard.contains j
  | _ => []

/-- Whether bytes that a collective sends have still to leave this module. -/
def State.runMoves (s : State) (r : CollRun) : Bool :=
  s.fab.links.any fun x => (x.2.waiting ++ x.2.replay).any fun f =>
    match f.body with
    | .collData pos _ _ _ => decide (pos.group = r.desc.id ∧ pos.seq = r.seq ∧ f.src = s.rd R.MOD.FAB_NODE.NODE)
    | _ => false

/-- Whether a collective in progress can move no byte because a member of its group has not issued it, or has stalled (R330). Of a rank
waited on, a start record or an acknowledgement says that it has issued it; that another rank holds it up, or that one has stalled, no
message says (log entry 87). -/
def State.peerWait (s : State) (r : CollRun) : Bool :=
  r.stalled.isSome || (!s.runMoves r && !r.waitsFor.isEmpty &&
    (r.waitsFor.any (fun j => !(r.heard ++ r.ackers).contains j) ||
      (List.range r.desc.size).any fun j => j ≠ r.desc.rank && Config.peerHolds r.desc.id r.seq j s.now))

/-- Whether a link passes a virtual channel over for want of credit (R348). -/
def State.passesOver (s : State) (k : Nat) : Bool :=
  s.linkUp k && (List.range 6).any fun v =>
    match s.vcNext k v with
    | some x => !s.covers k x.1
    | none => false

/-- The tick counters of the engines, links, stacks and domains. -/
def State.tickBlocks (s : State) : State :=
  let a := (List.range 16).foldl (fun u e => u.tickSill e) s
  let b := ((s.coll.runs.filter s.peerWait).map CollRun.eng).eraseDups.foldl (fun u e => u.bump (R.COLL.PEER_WAIT e) 1) a
  let c := ((s.fab.links.map Prod.fst).filter s.passesOver).foldl (fun u k => u.bump (R.LINK.CREDIT_STALL k) 1) b
  let d := ((List.range 32).filter fun k => s.on (R.STACK.STAT.HOT k)).foldl (fun u k => u.bump (R.STACK.HOT_TICKS k) 1) c
  let e := ((List.range 84).filter fun i => s.on (R.PDOM.STAT.MARGIN i)).foldl (fun u i => u.bump (R.PDOM.MARGIN_TICKS i) 1) d
  if e.stream.sent = [] then e else e.onStream fun m => { m with sent := [] }

/-- The counters that count the tick now ending. -/
def State.tickCounts (s : State) : State :=
  let qs := (List.range 64).filter fun q => s.on (R.PG.CTRL.EN (pgCQ q))
  let a := qs.foldl (fun u q => u.tickQueue q) s
  let ws := s.waitingQueues
  ((List.range 8).foldl (fun u p => u.tickPart ws p) a).tickBlocks

/-- The deadline of a pending commit does not run while the module is shed (R413). -/
def State.stallDeadline (s : State) : State :=
  if s.rd R.PWR.STAT.SHED ≠ 0 ∧ s.commit.deadline.isSome then
    { s with commit := { s.commit with deadline := s.commit.deadline.map (· + 1) } }
  else s

/-- One clk_tb edge, at which TIME takes the value `new`. -/
def State.edgeTo (s : State) (new : Nat) : State :=
  let a := s.tickCounts.stallDeadline
  ({ a with clk := { a.clk with edges := a.clk.edges + 1 } }).wr R.TB.TIME new

/-- One clk_tb edge: the tick is counted and TIME advances by 1 (R76). -/
def State.tick (s : State) : State := s.edgeTo (s.time + 1)

end Sys2Proof.Machine
end

