-- ==== Sys2Proof/Machine/Snap.lean ====
section
/-! DEFINITION. The commands of spec/03 that take clk_tb edges: setting TIME, and snapshots; and the SNAP commands of
queues. -/

namespace Sys2Proof.Machine

/-! ### Snapshots (R55, R82 to R86) -/

/-- Changes what the snapshot trigger holds. -/
def State.onSnap (s : State) (g : SnapSt → SnapSt) : State := { s with snap := g s.snap }

/-- The sources whose latching edge has come, as SNAP_STAT.SOURCES numbers them: 1 software, 2 first error, 4 compare, 8 pin,
16 fabric. -/
def State.snapDue (s : State) : Nat :=
  (if s.snap.sw.any (fun x => decide (x.1 ≤ s.now)) then 1 else 0) +
  (if s.snap.errRise.any (fun t => decide (t + 2 ≤ s.now)) then 2 else 0) +
  (if s.on R.TB.SNAP_STAT.CMP_ARMED ∧ s.rd R.TB.SNAP_CMP ≤ s.time then 4 else 0) +
  (if s.snap.pin.any (fun t => decide (t ≤ s.now)) then 8 else 0) +
  (if s.on R.TB.SNAP_STAT.FAB_ARMED ∧ s.rd R.TB.SNAP_FABRIC ≤ s.time then 16 else 0)

/-- The sources that take part: software always, the others while enabled (R82). -/
def State.snapEnabled (s : State) : Nat :=
  1 + 2 * s.rd R.TB.SNAP_CTRL.EN_ERR + 4 * s.rd R.TB.SNAP_CTRL.EN_CMP + 8 * s.rd R.TB.SNAP_CTRL.EN_PIN +
    16 * s.rd R.TB.SNAP_CTRL.EN_FABRIC

/-- The number of sources in a mask of five. -/
def sourceCount (m : Nat) : Nat := ((List.range 5).filter fun i => m.testBit i).length

/-- Sources whose edge has come are consumed, whether they fire or not (R82): the compare and the fabric value disarm, and the
other triggers are forgotten. -/
def State.consumeSnap (s : State) : State :=
  let a := if s.snapDue.testBit 2 then s.wr R.TB.SNAP_STAT.CMP_ARMED 0 else s
  let b := if s.snapDue.testBit 4 then a.wr R.TB.SNAP_STAT.FAB_ARMED 0 else a
  b.onSnap fun x => { x with
    sw := x.sw.filter fun y => decide (s.now < y.1), errRise := x.errRise.filter fun t => decide (s.now < t + 2)
    pin := x.pin.filter fun t => decide (s.now < t) }

/-- The SNAP commands whose latching edge has passed complete (R171). -/
def State.snapCmds (s : State) (xs : List (Nat × Option (Nat × Nat))) : State :=
  (xs.filterMap Prod.snd).foldl (fun u x =>
    (u.onFlight x.1 x.2 fun f => { f with left := f.left - 1 }).settle x.1 x.2) s

/-- A number of ticks in ms. -/
def ticksToMs (n : Nat) : Nat := n / 156250

/-- Shows the ages that registers read: of the last mirror and of the oldest record of the wired queue (R460, R481). -/
def State.showAges (s : State) : State :=
  (s.wr R.MGMT.ROLE.MIRROR_AGE_MS (min 255 (ticksToMs (s.now - s.mgmt.mirrorAt)))).wr R.TAG.STAT.DEFER_MS
    (min 4095 (s.tag.queue.foldl (fun m r => max m (ticksToMs (s.now - r.since))) 0))

/-- One snapshot of the sources `m` (R83): the registers as they stand, the next sequence number, TIME, and
SNAP_OUT_N low for 16 ticks. -/
def State.takeSnap (s : State) (m : Nat) : State :=
  let n := s.rd R.TB.SNAP_SEQ + 1
  let s := (List.range 8).foldl State.showRuns s.showQueues.showAges.showLock
  let a := s.onSnap fun x => { x with
    taken := ⟨n, s.time, s.power.dry.isSome, s.power.rails, s.regs.cells, s.regs.act⟩ :: x.taken, outUntil := some (s.now + 16) }
  let b := ((a.wr R.TB.SNAP_SEQ n).wr R.TB.SNAP_TICK s.time).wr R.TB.SNAP_STAT.SOURCES m
  (if s.on R.TB.SNAP_CTRL.MODE then b else b.wr R.TB.SNAP_STAT.ARMED 0).emit (.snapOut true)

/-- Every source whose edge has come fires, if it is enabled: sources of one tick give one snapshot (R83), or are counted in
SNAP_MISSED while the trigger is disarmed (R84). -/
def State.fireSnap (s : State) : State :=
  let m := s.snapDue &&& s.snapEnabled
  let a := s.consumeSnap
  let b := if m = 0 then a
    else if s.on R.TB.SNAP_CTRL.MODE || s.on R.TB.SNAP_STAT.ARMED then a.takeSnap m
    else a.bump R.TB.SNAP_MISSED (sourceCount m)
  b.snapCmds (s.snap.sw.filter fun x => decide (x.1 ≤ s.now))

/-- A clk_tb edge, at which the snapshot trigger acts before anything else of the tick (R55, R80). -/
def State.clkEdge (s : State) : State := s.tick.fireSnap

/-! ### Timebase (R77) -/

/-- TB.SET_CTRL.GO (R77): accepted in FUSED, ENFLEURAGE and READY; at the next edge TIME takes SET_VALUE and SET_DONE
sets, and a row that is stepping counts its frames on. In every other state the set is refused. -/
def State.tbSet (s : State) : State :=
  if s.modRead = 1 ∨ s.modRead = 2 ∨ s.modRead = 3 then
    let new := s.rd R.TB.SET_VALUE
    let t := (s.edgeTo new).wr R.TB.STAT.SET_DONE 1
    let u := { t with clk := { t.clk with cut := if new % 2 = 0 then none else some t.now } }
    ((List.range 24).foldl (fun v r =>
      given (s.rowFrac r).due v fun d => v.setRow r { s.rowFrac r with due := some (rebaseDue s.time new d) }) u).fireSnap
  else s.raise pgTB .TB_SET_REFUSED

/-- TB_SET (R77). -/
def execTbSet (p : Path) (s : State) : Host.Outcome State Fault Refusal :=
  .next (s.onWrite p R.TB.SET_CTRL.addr 4 none State.tbSet)

/-! ### Triggers (R82 to R85) -/

/-- SNAP_CTRL.SW is written 1, by a path or by a SNAP command: the software source fires at the second edge (R82). -/
def State.snapSw (s : State) (cmd : Option (Nat × Nat)) : State := s.onSnap fun x => { x with sw := x.sw ++ [(s.now + 2, cmd)] }

/-- SNAP_SW (R82). -/
def execSnapSw (p : Path) (s : State) : Host.Outcome State Fault Refusal :=
  .next (s.onWrite p R.TB.SNAP_CTRL.SW.addr 4 none fun s => s.snapSw none)

/-- SNAP_ARM (R84): re-arms the one-shot trigger. -/
def execSnapArm (p : Path) (s : State) : Host.Outcome State Fault Refusal :=
  .next (s.onWrite p R.TB.SNAP_CTRL.ARM.addr 4 none fun s => (s.wr R.TB.SNAP_STAT.ARMED 1))

/-- SNAP_CMP is written and the compare armed (R82). -/
def State.armCmp (s : State) (tick : Nat) : State := (s.wr R.TB.SNAP_CMP tick).wr R.TB.SNAP_STAT.CMP_ARMED 1

/-- SNAP_CMP_ARM (R82): the write of the high half arms the compare. -/
def execSnapCmpArm (p : Path) (tick : DWord) (s : State) : Host.Outcome State Fault Refusal :=
  .next (s.onWrite p R.TB.SNAP_CMP.addr 8 none fun s => (s.armCmp tick.toNat))

/-- The next clk_tb edge, if it is one at which source `k` fires (log entry 1). -/
def State.sourceEdge (s : State) (k : Nat) : State := if s.tick.snapDue.testBit k then s.clkEdge else s

/-- SNAP_CMP_FIRE (R80, R82): the edge at which TIME ≥ SNAP_CMP, at which the compare disarms, and fires if enabled. -/
def execSnapCmpFire (s : State) : Host.Outcome State Fault Refusal := .next (s.sourceEdge 2)

/-- SNAP_ERR_FIRE (R82): the edge of the first-error source, a full tick after a page's capture became valid. -/
def execSnapErrFire (s : State) : Host.Outcome State Fault Refusal := .next (s.sourceEdge 1)

/-- SNAP_FABRIC_FIRE (R80, R82, R85): the edge at which TIME ≥ SNAP_FABRIC. -/
def execSnapFabricFire (s : State) : Host.Outcome State Fault Refusal := .next (s.sourceEdge 4)

/-- SNAP_PIN (R82, R517): SNAP_IN_N low for at least 4 ticks after at least 4 ticks high fires at the third edge after
the fall. In OFF the island that samples the pin is shut down (R427, R430). -/
def execSnapPin (highTicks lowTicks : Nat) (s : State) : Host.Outcome State Fault Refusal :=
  .next (if s.modState ≠ 0 ∧ 4 ≤ highTicks ∧ 4 ≤ lowTicks then s.onSnap fun x => { x with pin := x.pin ++ [s.now + 3] } else s)

/-- SNAP_OUT_RELEASE (R83): 16 ticks after the latching edge SNAP_OUT_N is released. -/
def execSnapOutRelease (s : State) : Host.Outcome State Fault Refusal :=
  match s.snap.outUntil with
  | some t => .next (if t ≤ s.now then (s.onSnap fun x => { x with outUntil := none }).emit (.snapOut false) else s)
  | none => .next s

/-- An accepted fabric snapshot value: loaded into SNAP_FABRIC and armed; a value TIME has reached latches at the next
edge, with LATE and SNAP_LATE (R85). Both are raised at the arrival, whatever the trigger's state: the spec does not say whether
they are for a disarmed trigger, at which nothing latches (DESIGN CHOICE, log entry 97). -/
def State.loadFabricSnap (s : State) (tick : Nat) : State :=
  let a := (s.wr R.TB.SNAP_FABRIC tick).wr R.TB.SNAP_STAT.FAB_ARMED 1
  if tick ≤ s.time then (a.wr R.TB.SNAP_STAT.LATE 1).raise pgTB .SNAP_LATE else a

/-! ### SNAP commands (R171) -/

/-- The error of a SNAP at HEAD, if its checks find one. -/
def State.snapErr (s : State) (q e : Nat) : Option Err :=
  firstErr [errIf (!(bareHeader e && decide (cmdOp e ≤ 2) && zeroBytes e 24 63)) .CMD_FIELD, s.checkCounters q e]

/-- SNAP_TRIGGER (R171): as a write of SW; it completes when the latching edge has passed. A SNAP waits while the TB page serves
no command (R58). -/
def execSnapTrigger (q : Fin 64) (s : State) : Host.Outcome State Fault Refusal :=
  .next (if !s.serves pgTB then s else s.issueHead q.val (isCmd clsSnap 0) fun u i e =>
    checked (u.snapErr q.val e) (u.faultHead q.val e)
      ((u.issue q.val { u.newFlight q.val i e [] with left := 1 }).snapSw (some (q.val, i))))

/-- SNAP_LOAD_CMP (R171): loads SNAP_CMP with TICK, whatever it holds, and arms the compare. -/
def execSnapLoadCmp (q : Fin 64) (s : State) : Host.Outcome State Fault Refusal :=
  .next (if !s.serves pgTB then s else s.issueHead q.val (isCmd clsSnap 1) fun u i e =>
    checked (u.snapErr q.val e) (u.faultHead q.val e) (u.issueDone q.val i e fun v => v.armCmp (field e 16 63 0)))

end Sys2Proof.Machine
end

