-- ==== Sys2Proof/Machine/Wire.lean ====
section
/-! DEFINITION. Bits on a Daxvo link: codewords, sideband units, frame headers, and the bodies of messages and broadcasts
(R340, R342 to R344, R364, R367, R387). -/

namespace Sys2Proof

/-! ### Frame headers (R343, R344) -/

/-- The TYPE of a frame. -/
def Body.type (b : Body) : Nat :=
  match b with
  | .readReq _ => 0x01
  | .readData _ _ => 0x02
  | .readErr _ => 0x03
  | .write _ _ _ => 0x04
  | .writeAck => 0x05
  | .writeErr _ => 0x06
  | .moveData _ _ _ _ => 0x07
  | .collData _ _ _ _ => 0x08
  | .collAck _ _ => 0x09
  | .msg _ _ _ _ => 0x0A
  | .msgAck _ _ => 0x0B
  | .bcast _ => 0x0C
  | .ledger _ | .config _ => 0x0D
  | .unreach _ => 0x0E

/-- The virtual channel of a TYPE; none for a reserved one. -/
def typeVc (t : Nat) : Option Nat :=
  match t with
  | 0x01 | 0x04 => some 1
  | 0x02 | 0x03 | 0x05 | 0x06 => some 2
  | 0x07 => some 5
  | 0x08 => some 3
  | 0x09 => some 4
  | 0x0A | 0x0B | 0x0C | 0x0D | 0x0E => some 0
  | _ => none

/-- LENW of a frame: its data in words; for READ_REQ the words it asks for. -/
def Body.lenw (b : Body) : Nat :=
  match b with
  | .readReq n => n
  | _ => (b.size + 3) / 4

/-- The largest LENW of a TYPE (R344). -/
def typeLenw (t : Nat) : Nat :=
  match t with
  | 0x01 => 4096
  | 0x02 | 0x04 | 0x07 => 4128
  | 0x08 => 5120
  | 0x0A | 0x0C | 0x0D => 160
  | _ => 0

/-- OFFSET of a frame; an error frame holds its code there, and collective data its GROUP_ID, in the low 32 bits, and position
(R344, log entry 107). -/
def Frame.offsetField (f : Frame) : Nat :=
  match f.body with
  | .readErr c | .writeErr c | .unreach c => c
  | .collData pos _ _ _ => pos.group % 2 ^ 32 + 2 ^ 32 * (Config.collPosition pos).toNat
  | _ => f.offset

/-- One bit of the CRC-16 of polynomial 0x1021. -/
def crc16Bit (c : BitVec 16) (b : Bool) : BitVec 16 :=
  if c.msb != b then (c <<< 1) ^^^ 0x1021#16 else c <<< 1

/-- The CRC-16 of a header's bits [179:16], the highest first, with initial value 0xFFFF. -/
def hcrc (x : BitVec 164) : BitVec 16 :=
  (List.range 164).foldl (fun c i => crc16Bit c (x.getLsbD (163 - i))) 0xFFFF#16

/-- The fields of a header above HCRC. -/
def Frame.fields (f : Frame) : BitVec 164 :=
  BitVec.ofNat 3 f.vc ++ BitVec.ofNat 1 f.layer ++ BitVec.ofNat 5 f.body.type ++ BitVec.ofNat 13 f.body.lenw ++
  BitVec.ofNat 16 f.dst ++ BitVec.ofNat 16 f.src ++ BitVec.ofNat 44 f.offsetField ++ BitVec.ofNat 16 f.tag ++
  BitVec.ofNat 12 f.fseq ++ BitVec.ofNat 5 f.hops ++ BitVec.ofNat 3 f.part ++ 0#30

/-- The 180-bit header of a frame. -/
def Frame.header (f : Frame) : BitVec 180 := f.fields ++ hcrc f.fields

/-- The fields of a header as received: VC, LAYER, TYPE, LENW, DST, SRC, OFFSET, TAG, FSEQ, HOPS and PART. -/
structure Header where
  vc     : BitVec 3
  layer  : BitVec 1
  type   : BitVec 5
  lenw   : BitVec 13
  dst    : BitVec 16
  src    : BitVec 16
  offset : BitVec 44
  tag    : BitVec 16
  fseq   : BitVec 12
  hops   : BitVec 5
  part   : BitVec 3
  deriving DecidableEq, Repr

/-- The fields of a header. -/
def headerOf (h : BitVec 180) : Header :=
  { vc := h.extractLsb' 177 3, layer := h.extractLsb' 176 1, type := h.extractLsb' 171 5, lenw := h.extractLsb' 158 13
    dst := h.extractLsb' 142 16, src := h.extractLsb' 126 16, offset := h.extractLsb' 82 44, tag := h.extractLsb' 66 16
    fseq := h.extractLsb' 54 12, hops := h.extractLsb' 49 5, part := h.extractLsb' 46 3 }

/-- Whether a header's HCRC holds. -/
def hcrcOk (h : BitVec 180) : Bool := hcrc (h.extractLsb' 16 164) = h.extractLsb' 0 16

/-- Whether a header stands: its HCRC holds, and its TYPE is not reserved, is on its own VC and is within its bound (R344). -/
def headerOk (h : BitVec 180) : Bool :=
  let x := headerOf h
  hcrcOk h && typeVc x.type.toNat = some x.vc.toNat && decide (x.lenw.toNat ≤ typeLenw x.type.toNat)

/-! ### Sideband units (R342) -/

/-- A unit of the sideband: IDLE; a third of a header; a CREDIT of a VC and LAYER; an ACK; a NAK. -/
inductive SideUnit where
  | idle
  | hdr (i : Fin 3) (bits : BitVec 60)
  | credit (vc : BitVec 3) (layer : BitVec 1) (freed : BitVec 24)
  | ack (fseq : BitVec 12)
  | nak (fseq : BitVec 12)
  deriving DecidableEq, Repr

/-- The 64 bits of a unit: KIND, then the body. -/
def SideUnit.bits (u : SideUnit) : BitVec 64 :=
  match u with
  | .idle => 0
  | .hdr i b => BitVec.ofNat 4 (i.val + 1) ++ b
  | .credit v l n => 4#4 ++ v ++ l ++ n ++ 0#32
  | .ack q => 5#4 ++ q ++ 0#48
  | .nak q => 6#4 ++ q ++ 0#48

/-- The unit that 64 bits spell; none for a KIND that the table does not give. -/
def unitOf (x : BitVec 64) : Option SideUnit :=
  match (x.extractLsb' 60 4).toNat with
  | 0 => some .idle
  | 1 => some (.hdr 0 (x.extractLsb' 0 60))
  | 2 => some (.hdr 1 (x.extractLsb' 0 60))
  | 3 => some (.hdr 2 (x.extractLsb' 0 60))
  | 4 => some (.credit (x.extractLsb' 57 3) (x.extractLsb' 56 1) (x.extractLsb' 32 24))
  | 5 => some (.ack (x.extractLsb' 48 12))
  | 6 => some (.nak (x.extractLsb' 48 12))
  | _ => none

/-- Whether a unit's KIND is one of the table's. -/
def unitKnown (x : BitVec 64) : Bool := (unitOf x).isSome

/-- The three units of a header, in the order they are sent. -/
def headerUnits (h : BitVec 180) : List SideUnit :=
  [.hdr 0 (h.extractLsb' 120 60), .hdr 1 (h.extractLsb' 60 60), .hdr 2 (h.extractLsb' 0 60)]

/-- The order in which units that wait are sent: NAK, then ACK and CREDIT, then headers. -/
def SideUnit.rank (u : SideUnit) : Nat :=
  match u with
  | .nak _ => 0
  | .ack _ | .credit _ _ _ => 1
  | .hdr _ _ => 2
  | .idle => 3

/-- The 16 bits of a unit that travel in codeword `c` of its four: bits [63:48] first. -/
def unitSlice (u : BitVec 64) (c : Fin 4) : BitVec 16 := u.extractLsb' (48 - 16 * c.val) 16

/-! ### Codewords (R340) -/

/-- The bits of a codeword's flits: five of 128 bytes, flit 0 lowest. -/
def flitBits (bs : List Byte) : BitVec 5120 := BitVec.ofNat 5120 (Machine.leNat (bs.take 640))

/-- The 5,140 message bits of codeword number `n`: CWSEQ, DATA, 16 bits of the sideband, and the flits. -/
def codeword (n : Nat) (data : Bool) (side : BitVec 16) (bs : List Byte) : BitVec 5140 :=
  BitVec.ofNat 3 n ++ BitVec.ofBool data ++ side ++ flitBits bs

/-- The codewords of a frame's data, from codeword number `n` on; `side` are the sideband bits of each (R343). -/
def dataCodewords (n : Nat) (side : Nat → BitVec 16) (bs : List Byte) : List (BitVec 5140) :=
  (List.range ((bs.length + 639) / 640)).map fun i => codeword (n + i) true (side (n + i)) (bs.drop (640 * i))

/-- The symbols of a codeword, of 544, that each active lane carries. -/
def laneSymbols (lanes : Nat) : Nat := 544 / lanes

/-! ### Message and broadcast bodies (R364, R367, R387, R474) -/

/-- The KIND of a message; the manual numbers no release query, no answer to one and no answer to a join. -/
def Message.kind (m : Message) : Option Nat :=
  match m with
  | .start _ => some 1
  | .abort _ _ _ _ => some 2
  | .verdict _ => some 3
  | .retract _ => some 4
  | .release _ _ _ => some 5
  | .join _ _ _ _ => some 6
  | .leave _ => some 7
  | .ledgerQuery _ _ _ _ => some 8
  | .ledgerReply _ _ _ => some 9
  | .query _ _ | .answer _ _ | .joinAccept _ _ _ | .joinRefuse _ _ => none

/-- Bytes 0 to 15 of a message: KIND, the sender's incarnation, the sequence and the destination partition. -/
def messageHead (k inc seq part : Nat) : List Byte :=
  Machine.leBytes 4 k ++ Machine.leBytes 4 inc ++ Machine.leBytes 4 seq ++ Machine.leBytes 1 part ++ List.replicate 3 0#8

/-- Bytes 16 to 39 of a verdict or a retraction (R387). -/
def VerdictMsg.bytes (v : VerdictMsg) : List Byte :=
  Machine.leBytes 8 (v.step % 2 ^ 40) ++ Machine.leBytes 1 v.attempt ++ Machine.leBytes 1 v.part ++ Machine.leBytes 2 v.cause ++
  Machine.leBytes 4 v.tag ++ Machine.leBytes 8 v.tick

/-- Pads a body to one codeword. -/
def padBody (bs : List Byte) : List Byte := (bs ++ List.replicate (640 - bs.length) 0#8).take 640

/-- The 640 bytes of a message whose body the manual lays out: a verdict or a retraction. -/
def Message.bytes (m : Message) (inc seq part : Nat) : Option (List Byte) :=
  match m with
  | .verdict v => some (padBody (messageHead 3 inc seq part ++ { v with cause := 0 }.bytes))
  | .retract v => some (padBody (messageHead 4 inc seq part ++ v.bytes))
  | _ => none

/-- The body of a broadcast (R367). -/
def Bcast.bytes (b : Bcast) : List Byte :=
  padBody (Machine.leBytes 1 b.kind ++ List.replicate 1 0#8 ++ Machine.leBytes 2 b.origin ++ Machine.leBytes 4 b.seq ++
    Machine.leBytes 8 b.tick ++ Machine.leBytes 1 b.frac ++ Machine.leBytes 1 b.op ++ List.replicate 2 0#8 ++
    Machine.leBytes 4 b.incarnation)

/-- The data bytes of a frame, its seal trailer last, where the manual lays them out (R343, R374). -/
def Body.bytes (b : Body) : Option (List Byte) :=
  match b with
  | .readData d s | .write d s _ | .moveData d s _ _ | .collData _ d s _ =>
    some (d ++ s.flatMap fun w => Machine.leBytes 4 w.toNat)
  | .msg inc seq part m => m.bytes inc seq part
  | .bcast b => some b.bytes
  | .ledger _ | .config _ => none
  | _ => some []

end Sys2Proof

namespace Sys2Proof.Machine

/-- The sideband units that carry what a link sends (R342): a frame's header, or a CREDIT, ACK or NAK. -/
def Out.units (o : Out) : List SideUnit :=
  match o with
  | .frame _ f => headerUnits f.header
  | .credit _ c n => [.credit (BitVec.ofNat 3 (c / 2)) (BitVec.ofNat 1 (c % 2)) (BitVec.ofNat 24 n)]
  | .ack _ q => [.ack (BitVec.ofNat 12 q)]
  | .nak _ q _ => [.nak (BitVec.ofNat 12 q)]
  | _ => []

end Sys2Proof.Machine
end

