-- ==== Sys2Proof/Machine/Daxvo.lean ====
section
/-! DEFINITION. Daxvo links: optics, training, lanes and states (R341, R353 to R356), replay and credits (R346 to R349),
and the credit ledger (R350 to R352). -/

namespace Sys2Proof.Machine

/-! ### States (R353 to R355) -/

/-- Writes STAT.STATE; a change raises PG_IRQ_RAW bit 2. -/
def State.setLinkState (s : State) (k v : Nat) : State :=
  if s.rd (R.LINK.STAT.STATE k) = v then s else (s.wr (R.LINK.STAT.STATE k) v).irq (pgLINK k) 2

/-- The island's ledger of link `k`. -/
def State.ledgerOf (s : State) (k : Nat) : LinkLedger := Cells.get LinkLedger.empty s.island.links k

/-- Changes it. -/
def State.onLedger (s : State) (k : Nat) (g : LinkLedger → LinkLedger) : State :=
  s.onIsland fun i => { i with links := Cells.put LinkLedger.empty i.links k (g (s.ledgerOf k)) }

/-- The sum of a count over the classes of a link. -/
def State.sumClasses (s : State) (f : Nat → Fld) : Nat := (classes.map fun c => s.rd (f c)).sum

/-- A frame that has lost its link is sent another way, or ended (R356, R363). What never leaves its link ends with it:
link control, broadcasts and the messages of an unjoined neighbour. -/
def State.reroute (s : State) (f : Frame) (held : Option (Nat × Nat)) : State :=
  let mine := decide (f.src = s.rd R.MOD.FAB_NODE.NODE)
  let own := match f.body with
    | .readReq _ | .write _ _ _ | .moveData _ _ _ _ | .collData _ _ _ _ => if mine then some f.part else none
    | .msg _ _ _ _ => if mine then ((s.fab.msgs.find? fun m => decide (m.tag = f.tag)).bind OutMsg.own) else none
    | _ => none
  let request : Bool := match f.body with
    | .msg _ _ _ _ => false
    | _ => own.isSome
  let free := fun (u : State) => match held with
    | some h => u.freeCls h.1 h.2 f.body.codewords
    | none => u
  let linkOnly := match f.body with
    | .ledger _ | .config _ | .bcast _ => true
    | .msg _ _ _ (.join _ _ _ none) | .msg _ _ _ (.joinAccept _ _ none) | .msg _ _ _ (.joinRefuse _ none) => true
    | _ => false
  if linkOnly then s
  else
    match s.routeFrom f own held with
    | (a, none) => a
    | (_, some e) =>
      if request then s.endTag f.tag e true
      else if mine then
        match f.body with
        | .unreach _ => s.bump R.MOD.UNREACH_LOST 1
        | _ => s
      else (free s).endTransit f e

/-- A frame as it was before it took a way over link `k`: a way with DATELINE had given it its LAYER (R356, R359). -/
def State.uncrossed (s : State) (k : Nat) (f : Frame) : Frame :=
  let crossed := (List.range 4).any fun w =>
    let x := wayOf (s.route f.dst) w
    x.2.2 && x.2.1 && decide (x.1 = k)
  if crossed then { f with layer := 0 } else f

/-- Link `k` as it goes DOWN (R353, R355, R356): LINK_DOWN is raised where it carried traffic or retrained, and no frame is left
on it. -/
def State.lowered (s : State) (k : Nat) : State :=
  let st := s.rd (R.LINK.STAT.STATE k)
  let a := ((s.setLinkState k 1).wr (R.LINK.STAT.LANES k) 0).bump (R.LINK.DOWNS k) 1
  let b := (if 3 ≤ st then a.raise (pgLINK k) .LINK_DOWN else a).onLink k fun x =>
    { x with replay := [], waiting := [], transit := [], resend := none, discard := false, ledger := false, hello := none,
                 drain := Drain.none }
  b.onLedger k fun y => { y with downRx := s.sumClasses (R.LINK.LED_RECEIVED k), downFreed := s.sumClasses (R.LINK.LED_FREED k) }

/-- The frames on a link, in order, each with the link and class whose buffer it still holds. -/
def LinkSt.onIt (x : LinkSt) : List (Frame × Option (Nat × Nat)) :=
  x.replay.map (fun f => (f, none)) ++ x.waiting.map fun f => (f, x.heldOf f)

/-- A link goes DOWN (R355, R356): its frames that are not acknowledged leave another way, in order. -/
def State.linkDown (s : State) (k : Nat) : State :=
  if s.rd (R.LINK.STAT.STATE k) < 2 then s
  else (s.link k).onIt.foldl (fun u y => u.reroute (s.uncrossed k y.1) y.2) (s.lowered k)

/-- The lanes a link may train on: all 16, or the half in which no lane has failed in either direction, lanes 0 to 7
before lanes 8 to 15: the lane count and the half (R355). -/
def State.lanesFor (s : State) (k : Nat) : Option (Nat × Nat) :=
  let bad := s.rd (R.LINK.LANE_FAIL k) ||| (s.link k).peerBad
  if bad = 0 then some (16, 0) else if bad % 256 = 0 then some (8, 0) else if bad / 256 = 0 then some (8, 1) else none

/-- A link enters UP or DEGRADED on its lanes. -/
def State.linkCarries (s : State) (k : Nat) (lanes half : Nat) : State :=
  let a := ((s.wr (R.LINK.STAT.LANES k) lanes).wr (R.LINK.STAT.HALF k) half).setLinkState k (if lanes = 16 then 3 else 4)
  let a := a.onLink k fun x => { x with trained := true }
  if lanes = 16 then a else (a.bump (R.LINK.DEGRADES k) 1).raise (pgLINK k) .LINK_DEGRADED

/-- A link enters RETRAIN; its frames and credits are kept (R355). -/
def State.enterRetrain (s : State) (k : Nat) (ledger : Bool) : State :=
  if s.linkUp k then ((s.setLinkState k 5).bump (R.LINK.RETRAINS k) 1).onLink k fun x => { x with ledger := ledger }
  else s

/-- HELD of every class is INIT (R346). -/
def State.initHeld (s : State) (k : Nat) : State :=
  classes.foldl (fun u c => u.wr (R.LINK.LED_HELD k c) (u.rd (R.LINK.LED_INIT k c))) s

/-- The HELLO that this module sends (R346, R353). -/
def State.ownHello (s : State) (k : Nat) : Hello :=
  ⟨s.rd R.MOD.FAB_NODE.NODE, k, !s.joined, s.rd R.MOD.FAB_HALL, classes.map (s.initOf k), !(s.link k).trained⟩

/-- A link enters TRAINING and sends its HELLO. -/
def State.linkTrain (s : State) (k : Nat) : State :=
  let a := ((s.setLinkState k 2).wr (R.LINK.PEER.VALID k) 0).onLink k fun x =>
    { x with hello := none, txSeq := 0, rxSeq := 0, discard := false, resend := none, turn := LinkSt.empty.turn }
  a.emit (.hello k (s.ownHello k))

/-! ### Replay (R347, R349) -/

/-- The CREDIT units that go with a marker (R351). -/
def State.markerCredits (s : State) (k : Nat) : State := classes.foldl (fun u c => u.emitCredit k c) s

/-- One frame of the replay buffer is sent again. -/
def State.sendAgain (s : State) (k : Nat) (f : Frame) : State :=
  let a := match f.body with
    | .ledger _ => s.markerCredits k
    | _ => s
  (a.putFrame k f).bump (R.LINK.REPLAYS k) 1

/-- The frames of the replay buffer from a FSEQ on. -/
def LinkSt.fromSeq (x : LinkSt) (q : Nat) : List Frame := x.replay.dropWhile fun f => f.fseq ≠ q

/-- Refunded frames are sent again in order, while HELD covers each (R346, R349). -/
def State.sendEach (s : State) (k : Nat) (fs : List Frame) : State :=
  match fs with
  | [] => s.onLink k fun x => { x with resend := none }
  | f :: r =>
    if s.covers k f then (s.sendAgain k f).sendEach k r
    else s.onLink k fun x => { x with resend := some f.fseq }

/-- Frames that were refunded are sent again once the link carries traffic. -/
def State.resendFrames (s : State) (k : Nat) : State :=
  match (s.link k).resend with
  | none => s
  | some q => if s.linkUp k then s.sendEach k ((s.link k).fromSeq q) else s

/-- The frames from a FSEQ on that are on their way: those not already refunded. -/
def LinkSt.onWay (x : LinkSt) (q : Nat) : List Frame :=
  match x.resend with
  | none => x.fromSeq q
  | some r => if (x.fromSeq q).any fun f => decide (f.fseq = r) then (x.fromSeq q).takeWhile fun f => f.fseq ≠ r else []

/-- The frames from a FSEQ on are refunded (R349). -/
def State.refundFrom (s : State) (k q : Nat) : State :=
  let fs := (s.link k).onWay q
  let a := fs.foldl (fun u f =>
    let n := f.body.codewords
    (u.tallyUp (R.LINK.LED_REFUND k f.cls) n).wr (R.LINK.LED_HELD k f.cls) (u.rd (R.LINK.LED_HELD k f.cls) + n)) s
  if fs.isEmpty then a else a.onLink k fun x => { x with resend := some q }

/-- A link goes on: what was refunded is sent again, then what waits starts. -/
def State.goOn (s : State) (k : Nat) : State := (s.resendFrames k).pump k

/-- CREDIT (R347): the difference, modulo 2^24, from the last FREED taken is returned. -/
def execCredit (k : Fin 48) (c : Fin 12) (freed : Nat) (s : State) : Host.Outcome State Fault Refusal :=
  .next (if s.rd (R.LINK.STAT.STATE k) < 3 then s
    else
      let d := (freed + 2 ^ 24 - Cells.get 0 (s.link k).freed c) % 2 ^ 24
      (((s.onLink k fun x => { x with freed := Cells.put 0 x.freed c (freed % 2 ^ 24) }).tallyUp (R.LINK.LED_RETURNED k c) d).wr
        (R.LINK.LED_HELD k c) (s.rd (R.LINK.LED_HELD k c) + d)).goOn k)

/-- ACK (R349): releases the frames up to a FSEQ. -/
def execAck (k : Fin 48) (fseq : Nat) (s : State) : Host.Outcome State Fault Refusal :=
  .next (if (s.link k).replay.any fun f => decide (f.fseq = fseq) then
      (s.onLink k fun x => { x with replay := (x.fromSeq fseq).drop 1 }).pump k
    else s)

/-- The peer tells that lanes have failed (R354): the link retrains. -/
def State.peerLanes (s : State) (k lanes : Nat) : State :=
  if lanes = 0 then s else (s.onLink k fun x => { x with peerBad := x.peerBad ||| lanes }).enterRetrain k false

/-- NAK (R349, R354): refunds the frames from a FSEQ on and sends them again in order; `lanes` are those that the peer tells have
failed. -/
def execNak (k : Fin 48) (fseq : Nat) (lanes : BitVec 16) (s : State) : Host.Outcome State Fault Refusal :=
  .next (if s.rd (R.LINK.STAT.STATE k) < 3 then s
    else
      let a := if (s.link k).replay.any (fun f => decide (f.fseq = fseq)) then s.refundFrom k fseq else s
      (if a.linkUp k then a.peerLanes k lanes.toNat else a).goOn k)

/-- CODEWORD_ERROR (R342 to R344, R349): the receiver enters discard for a codeword it cannot correct, one out of order, or a
header that its HCRC or TYPE condemns; a sideband unit of an unknown KIND is only counted. -/
def execCodewordError (k : Fin 48) (e : LineError) (s : State) : Host.Outcome State Fault Refusal :=
  .next (if !s.linkUp k then s
    else
      match e with
      | .uncorrectable => (s.bump (R.LINK.FEC_UNCORR k) 1).enterDiscard k
      | .header h => if headerOk h then s else (s.bump (R.LINK.FRAME_BAD k) 1).enterDiscard k
      | .order => s.enterDiscard k
      | .unit u => if unitKnown u then s else s.bump (R.LINK.FRAME_BAD k) 1)

/-- NAK_RESEND (R349): the frame a NAK named has not come for 256 ticks. -/
def execNakResend (k : Fin 48) (s : State) : Host.Outcome State Fault Refusal :=
  .next (if (s.link k).discard ∧ (s.link k).nakAt + 256 ≤ s.now then
      (s.onLink k fun x => { x with nakAt := s.now }).emit (.nak k (s.link k).rxSeq (s.rd (R.LINK.LANE_FAIL k)))
    else s)

/-! ### Optics and training (R341, R346, R353) -/

/-- Whether the rails of a link's cage and I/O die are on (VOPT is group 1, VIO group 2, R399) and the die has not failed
(R22). -/
def State.cageOn (s : State) (k : Nat) : Bool :=
  Cells.get false s.power.rails (128 + k) && Cells.get false s.power.rails (2 * 128 + k / 4) &&
    !(s.rd R.MOD.IODIE_FAIL).testBit (k / 4)

/-- OPTIC_INSERT (R341, R482, R510): `ok` if the optic is of the class required. -/
def execOpticInsert (k : Fin 48) (ok : Bool) (s : State) : Host.Outcome State Fault Refusal :=
  .next (if !s.fitted (pgLINK k) ∨ s.rd (R.LINK.STAT.STATE k) ≠ 0 ∨ s.on (R.LINK.STAT.OPTIC k) then s
    else if !ok then (s.countInsert partCage).raise (pgLINK k) .OPTIC_REFUSED
    else
      let a := (s.wr (R.LINK.STAT.OPTIC k) 1).countInsert partCage
      if a.on (R.PG.CTRL.EN (pgLINK k)) ∧ a.cageOn k then a.linkTrain k else a.setLinkState k 1)

/-- OPTIC_REMOVE (R341): DOWN through loss of the peer, then ABSENT. -/
def execOpticRemove (k : Fin 48) (s : State) : Host.Outcome State Fault Refusal :=
  .next (if s.on (R.LINK.STAT.OPTIC k) then (((s.linkDown k).wr (R.LINK.STAT.OPTIC k) 0).setLinkState k 0).journal jPartOut else s)

/-- LINK_ENABLE (R353): EN written to 1 trains a link that has an optic. -/
def State.linkEnable (s : State) (k : Nat) : State :=
  let a := s.wr (R.PG.CTRL.EN (pgLINK k)) 1
  if s.fitted (pgLINK k) ∧ s.on (R.LINK.STAT.OPTIC k) ∧ s.cageOn k ∧ s.rd (R.LINK.STAT.STATE k) = 1 then a.linkTrain k else a

def execLinkEnable (p : Path) (k : Fin 48) (s : State) : Host.Outcome State Fault Refusal :=
  .next (s.onWrite p (R.PG.CTRL.EN (pgLINK k)).addr 4 none fun s => (s.linkEnable k))

/-- LINK_DISABLE (R353): EN written to 0 takes the link DOWN and turns its lasers off. -/
def State.linkDisable (s : State) (k : Nat) : State := (s.wr (R.PG.CTRL.EN (pgLINK k)) 0).linkDown k

def execLinkDisable (p : Path) (k : Fin 48) (s : State) : Host.Outcome State Fault Refusal :=
  .next (s.onWrite p (R.PG.CTRL.EN (pgLINK k)).addr 4 none fun s => (s.linkDisable k))

/-- The counts of a link start afresh towards a peer that has passed FUSED (R352, log entry 90). -/
def State.afreshLink (s : State) (k : Nat) : State :=
  (classes.foldl (fun u c => [R.LINK.LED_SENT k c, R.LINK.LED_REFUND k c, R.LINK.LED_RETURNED k c, R.LINK.LED_RECEIVED k c,
    R.LINK.LED_FREED k c].foldl (fun v f => v.wr f 0) u) s).onLink k fun x => { x with freed := [] }

/-- HELLO (R346, R353): the neighbour's identity and initial credits. One that names another hall holds the link DOWN. -/
def execHello (k : Fin 48) (h : Hello) (s : State) : Host.Outcome State Fault Refusal :=
  .next (if s.rd (R.LINK.STAT.STATE k) ≠ 2 then s
    else if h.hall ≠ s.rd R.MOD.FAB_HALL then (s.linkDown k).raise (pgLINK k) .HALL_MISMATCH
    else
      let z := s.when h.fresh fun u => u.afreshLink k
      let a := (((z.wr (R.LINK.PEER.NODE k) h.node).wr (R.LINK.PEER.LINK k) h.link).flag (R.LINK.PEER.UNJOINED k) h.unjoined).wr
        (R.LINK.PEER.VALID k) 1
      let b := classes.foldl (fun u c => u.wr (R.LINK.LED_INIT k c) (h.inits.getD c 0)) a
      b.onLink k fun x => { x with hello := some h })

/-- TRAINING_COMPLETE (R353): with the neighbour's HELLO, the link enters UP or DEGRADED with HELD at INIT; `peer` are
the lanes that the neighbour reports failed. -/
def execTrainingComplete (k : Fin 48) (peer : BitVec 16) (s : State) : Host.Outcome State Fault Refusal :=
  .next (if s.rd (R.LINK.STAT.STATE k) ≠ 2 ∨ (s.link k).hello.isNone then s
    else
      let a := s.onLink k fun x => { x with peerBad := peer.toNat }
      match a.lanesFor k with
      | some l => ((a.initHeld k).linkCarries k l.1 l.2).goOn k
      | none => a.linkDown k)

/-! ### Lanes and retraining (R354 to R356) -/

/-- Lanes of this receiver fail (R354): it can accept nothing more, so it enters discard, and its NAK tells the peer (log entry
91); the link retrains. In TRAINING there is no frame to discard, and the lanes are told as training ends. -/
def State.lanesFail (s : State) (k lanes : Nat) : State :=
  if lanes = 0 then s
  else
    let a := (s.wr (R.LINK.LANE_FAIL k) (s.rd (R.LINK.LANE_FAIL k) ||| lanes)).irq (pgLINK k) 4
    if s.rd (R.LINK.STAT.STATE k) = 2 then a else (a.enterDiscard k).enterRetrain k false

/-- LANE_FAIL (R354): lanes of this receiver, or lanes that the peer reports, while the link trains, carries traffic or
retrains. -/
def execLaneFail (k : Fin 48) (lanes : BitVec 16) (peer : Bool) (s : State) : Host.Outcome State Fault Refusal :=
  .next (if s.rd (R.LINK.STAT.STATE k) < 2 ∨ lanes = 0 then s
    else if peer then s.peerLanes k lanes.toNat
    else s.lanesFail k lanes.toNat)

/-- LINK_RETRAIN (R355). -/
def execLinkRetrain (p : Path) (k : Fin 48) (s : State) : Host.Outcome State Fault Refusal :=
  .next (s.onWrite p (R.LINK.CTRL.RETRAIN k).addr 4 none fun s => (s.enterRetrain k false))

/-- The lanes in use, as a mask. -/
def State.laneMask (s : State) (k : Nat) : Nat :=
  if s.rd (R.LINK.STAT.LANES k) = 16 then 0xFFFF else if s.rd (R.LINK.STAT.HALF k) = 0 then 0xFF else 0xFF00

/-- The lanes on which a retraining ends; one after CREDIT_LEDGER keeps its lane count (R352, R355). -/
def State.retrainLanes (s : State) (k : Nat) : Option (Nat × Nat) :=
  let bad := s.rd (R.LINK.LANE_FAIL k) ||| (s.link k).peerBad
  if (s.link k).ledger ∧ s.laneMask k &&& bad = 0 then some (s.rd (R.LINK.STAT.LANES k), s.rd (R.LINK.STAT.HALF k))
  else s.lanesFor k

/-- RETRAIN_COMPLETE (R352, R355): `peer` are the lanes that the peer reports failed. After CREDIT_LEDGER, HELD is INIT
again and the frames that are not acknowledged are replayed. -/
def execRetrainComplete (k : Fin 48) (peer : BitVec 16) (s : State) : Host.Outcome State Fault Refusal :=
  .next (if s.rd (R.LINK.STAT.STATE k) ≠ 5 then s
    else
      let a := s.onLink k fun x => { x with peerBad := peer.toNat }
      match a.retrainLanes k with
      | none => a.linkDown k
      | some l =>
        let b := if (s.link k).ledger then
            (match (s.link k).replay.head? with
              | some f => a.refundFrom k f.fseq
              | none => a).initHeld k
          else a
        ((b.onLink k fun x => { x with ledger := false }).linkCarries k l.1 l.2).goOn k)

/-- LINK_DOWN (R353, R356): the peer is lost. -/
def execLinkDown (k : Fin 48) (s : State) : Host.Outcome State Fault Refusal := .next (s.linkDown k)

/-! ### The ledger (R350 to R352) -/

/-- The 1 ms ledger period, in ticks. -/
def ledgerPeriod : Nat := 156250

/-- LEDGER_TICK (R351, R354): at a multiple of the period the CREDIT units and the marker are sent; `corr` are the symbols
corrected on each lane in the period. -/
def execLedgerTick (k : Fin 48) (corr : List Nat) (s : State) : Host.Outcome State Fault Refusal :=
  .next (if !s.linkUp k ∨ s.time % ledgerPeriod ≠ 0 then s
    else
      let cs := (corr.take 16).zipIdx
      let a := (cs.foldl (fun u x => u.bump (R.LINK.LANE_CORR k x.2) x.1) s).bump (R.LINK.FEC_CORR k) (corr.take 16).sum
      let f := { s.ownFrame 0 0 0 0 (.ledger []) with src := s.rd R.MOD.FAB_NODE.NODE }
      let b := (a.markerCredits k).queueFrame k f
      let t := s.rd (R.LINK.LANE_THRESH k)
      let bad := (cs.filter fun x => t ≠ 0 ∧ t < x.1).foldl (fun m x => m ||| 2 ^ x.2) 0
      b.lanesFail k bad)

/-- The classes of which a check of a marker fails (R351), with the counts as they stood before the marker's own
codeword. -/
def State.badClasses (s : State) (k : Nat) (counts : List (Nat × Nat × Nat)) : List Nat :=
  classes.filter fun c =>
    let m := counts.getD c (0, 0, 0)
    let net := s.rd (R.LINK.LED_SENT k c) - s.rd (R.LINK.LED_REFUND k c)
    !(m.1 = s.rd (R.LINK.LED_RECEIVED k c) && m.2.2 = s.rd (R.LINK.LED_RETURNED k c) && decide (m.2.1 ≤ net))

/-- The ledger counts of a link, class by class (R350). -/
def State.ledgerCounts (s : State) (k : Nat) : List LedgerCount :=
  classes.map fun c => ⟨s.rd (R.LINK.LED_SENT k c), s.rd (R.LINK.LED_REFUND k c), s.rd (R.LINK.LED_RETURNED k c),
    s.rd (R.LINK.LED_RECEIVED k c), s.rd (R.LINK.LED_FREED k c)⟩

/-- The checks of a marker, made of link `k` as `before` has it (R351, R352). -/
def State.checkLedger (s before : State) (k : Nat) (counts : List (Nat × Nat × Nat)) : State :=
  let bad := before.badClasses k counts
  let a := (s.bump (R.LINK.LEDGER_CHECKS k) 1).onLedger k fun y => { y with
    peer := some (s.rd (R.LINK.PEER.NODE k), s.rd (R.LINK.PEER.LINK k))
    counts := before.ledgerCounts k
    checked := counts }
  match bad.getLast? with
  | none => a.wr (R.LINK.STAT.LEDGER_OK k) 1
  | some c =>
    ((((a.wr (R.LINK.STAT.LEDGER_OK k) 0).wr (R.LINK.STAT.LEDGER_CLASS k) c).bump (R.LINK.LEDGER_FAILS k) 1).raise (pgLINK k)
      .CREDIT_LEDGER c |>.irq (pgLINK k) 3).enterRetrain k true

/-- LEDGER (R351): a peer's marker. -/
def execLedger (k : Fin 48) (f : Frame) (s : State) : Host.Outcome State Fault Refusal :=
  .next (match f.body with
    | .ledger counts => s.takeFrame k f fun u => u.checkLedger s k counts
    | _ => s)

/-! ### Routes (R357) -/

/-- ROUTE_READ and ROUTE_WRITE (R357). -/
def State.routeSel (s : State) (n op : Nat) : State := (s.wr R.MOD.ROUTE_SEL.NODE n).wr R.MOD.ROUTE_SEL.OP op
def State.routeRead (s : State) (n : Nat) : State := (s.routeSel n 1).wr R.MOD.ROUTE_DATA (s.route n)
def State.routeWrite (s : State) (n : Nat) : State :=
  (s.routeSel n 2).onFab fun x => { x with routes := Cells.put 0 x.routes n (s.rd R.MOD.ROUTE_DATA) }

def execRouteRead (p : Path) (node : BitVec 16) (s : State) : Host.Outcome State Fault Refusal :=
  .next (s.onWrite p R.MOD.ROUTE_SEL.GO.addr 4 none fun s => (s.routeRead node.toNat))

def execRouteWrite (p : Path) (node : BitVec 16) (s : State) : Host.Outcome State Fault Refusal :=
  .next (s.onWrite p R.MOD.ROUTE_SEL.GO.addr 4 none fun s => (s.routeWrite node.toNat))

end Sys2Proof.Machine
end

