-- ==== Sys2Proof/Machine/Power.lean ====
section
/-! DEFINITION. Cassettes and the supply ceiling, core domains, power windows and the cap, shedding, park, and thermal
and flow protection (R399 to R424). -/

namespace Sys2Proof.Machine

/-! ### Rails (R399) -/

/-- A rail's group, which is its bit of DD_RAILS, and its number in the group. -/
def railGroup (r : Rail) : Nat :=
  match r with
  | .bus12 => 0 | .vopt _ => 1 | .vio _ => 2 | .vstk _ => 3 | .vedge _ => 4 | .vcore _ => 5 | .vdram => 6 | .vpp => 7
  | .vsled _ => 8 | .vcard _ => 9
def railIndex (r : Rail) : Nat :=
  match r with
  | .bus12 | .vdram | .vpp => 0
  | .vopt k => k | .vio i => i | .vstk e => e | .vedge e => e | .vcore d => d | .vsled i => i | .vcard c => portIx c
def railKey (r : Rail) : Nat := railGroup r * 128 + railIndex r

/-- Whether a rail is on. -/
def State.railOn (s : State) (r : Rail) : Bool := Cells.get false s.power.rails (railKey r)

/-- Switches a rail. -/
def State.setRail (s : State) (r : Rail) (b : Bool) : State :=
  s.onPower fun x => { x with rails := Cells.put false x.rails (railKey r) b }

/-! ### Core domains (R404, R410, R411, R414) -/

/-- OFFSET_MV as it acts: values beyond ±50 are taken as ±50. -/
def offsetMv (v : Nat) : Int := max (-50) (min 50 (signed 8 v))

/-- The effective target of domain `d`: FUSE_MV + OFFSET_MV, clamped to 600 to 850 mV (R404). -/
def State.effMv (s : State) (d : Nat) : Nat :=
  clampNat 600 850 ((s.rd (R.PDOM.VTARGET.FUSE_MV d) : Int) + offsetMv (s.rd (R.PDOM.VTARGET.OFFSET_MV d))).toNat

/-- The idle-retain target (R411). -/
def State.retainMv (s : State) : Nat := clampNat 600 720 (s.rd R.PWR.RETAIN_MV)

/-- PARK_MV (R410). -/
def parkMv : Nat := 600

/-- The target that row `r` asks of domain `d` in its power state. -/
def State.rowGoal (s : State) (d r : Nat) : Nat :=
  if s.rowParked r then parkMv else if s.rd R.PWR.STAT.SHED = 2 then s.retainMv else s.effMv d

/-- The rows of a domain (R12). -/
def domRows (d : Nat) : List Nat := (List.range 4).map fun j => d / 14 * 4 + j

/-- A domain takes the highest target among its rows (R410). -/
def State.domGoal (s : State) (d : Nat) : Nat := (domRows d).foldl (fun m r => max m (s.rowGoal d r)) 0

/-- The ticks in which a target moves by 1 mV (R404). -/
def slewTicks : Nat := 1563

/-- A target at tick `t` of its slew. -/
def Slew.at (x : Slew) (t : Nat) : Nat :=
  let n := (t - x.tick) / slewTicks
  if x.src ≤ x.dst then min x.dst (x.src + n) else max x.dst (x.src - n)

/-- The target of domain `d`, including any slew in progress: VEFF. -/
def State.domTarget (s : State) (d : Nat) : Nat := (Cells.get ⟨0, 0, 0⟩ s.power.slews d).at s.now

/-- STAT.STATE of domain `d`: a fault stands until the module passes through FUSED (R406). -/
def State.domState (s : State) (d : Fin 84) : Nat :=
  if s.rd (R.PDOM.STAT.STATE d) = 4 then 4
  else if !s.railOn (.vcore d) then 0
  else if (domRows d).all s.rowParked then 3
  else if s.rd R.PWR.STAT.SHED = 2 then 2 else 1

/-- Steers a domain that is on towards its target, and shows its state. -/
def State.steerDom (s : State) (d : Fin 84) : State :=
  let a := s.wr (R.PDOM.STAT.STATE d) (s.domState d)
  if s.railOn (.vcore d) ∧ s.domGoal d ≠ (Cells.get ⟨0, 0, 0⟩ s.power.slews d).dst then
    a.onPower fun x => { x with slews := Cells.put ⟨0, 0, 0⟩ x.slews d ⟨s.domTarget d, s.domGoal d, s.now⟩ }
  else a

/-- Steers every domain. -/
def State.steer (s : State) : State := (List.finRange 84).foldl State.steerDom s

/-- Whether every domain that is on has reached its target. -/
def State.steered (s : State) : Bool :=
  (List.finRange 84).all fun d => !s.railOn (.vcore d) || decide (s.domTarget d = s.domGoal d)

/-! ### Shedding and restoring (R411, R412) -/

/-- Writes STAT.SHED; a change raises PG_IRQ_RAW bit 3. -/
def State.setShed (s : State) (v : Nat) : State :=
  if s.rd R.PWR.STAT.SHED = v then s else (s.wr R.PWR.STAT.SHED v).irq pgPWR 3

/-- The shed begins at T: it is counted, and the module applies the emergency fraction 2/16 unless a fraction of 2 is in
force; it takes effect at T itself (log entry 13). -/
def State.shedApply (s : State) : State :=
  let a := ((s.bump R.PWR.SHEDS 1).setShed 1).onPower fun x => { x with shedAt := none }
  if s.on R.CLK.EMERG_STAT.ACTIVE ∧ s.clk.frac = 2 then a
  else ((a.emergLoad ⟨true, 2, s.time, 1⟩).emergEffect ⟨true, 2, s.time, 1⟩ s.time).onPower fun x => { x with shedApplied := true }

/-- The shed's epoch, if it has come. -/
def State.shedDue (s : State) : State :=
  match s.power.shedAt with
  | some t => if t ≤ s.time then s.shedApply else s
  | none => s

/-- A shed source orders a shed at epoch `t`. A source that is active does not order again; a further source of a shed
that has not begun brings its epoch forward. -/
def State.orderShed (s : State) (src t : Nat) : State :=
  if (s.rd R.PWR.SHED_STAT).testBit src then s
  else
    let a := s.wr R.PWR.SHED_STAT (s.rd R.PWR.SHED_STAT ||| 2 ^ src)
    if s.rd R.PWR.STAT.SHED = 1 ∨ s.rd R.PWR.STAT.SHED = 2 ∨ s.power.shedAt.any fun t' => decide (t' ≤ t) then a
    else (a.onPower fun x => { x with shedAt := some t, freezeAt := some (t + s.rd R.PWR.SHED_DELAY) }).shedDue

/-- SHED (R411): SHED_CTRL with OP shed; an epoch of 0 means at once. -/
def State.shedGo (s : State) : State :=
  let t := s.rd R.PWR.SHED_EPOCH
  s.orderShed 0 (if t = 0 then s.time else t)

def execShed (p : Path) (s : State) : Host.Outcome State Fault Refusal :=
  .next (s.onWrite p R.PWR.SHED_CTRL.GO.addr 4 none fun s => (s.wr R.PWR.SHED_CTRL.OP 1).shedGo)

/-- SHED_EPOCH (R411): the epoch has come. -/
def execShedEpoch (s : State) : Host.Outcome State Fault Refusal := .next s.shedDue

/-- SHED_FREEZE (R411): after SHED_DELAY, with every row at fraction 2, the tiles freeze, the queues stop and the targets
slew to RETAIN_MV. -/
def State.shedFreeze (s : State) : State :=
  match s.rd R.PWR.STAT.SHED, s.power.shedAt, s.power.freezeAt with
  | 1, none, some f =>
    if f ≤ s.time ∧ (List.range 24).all fun r => decide ((s.rowFrac r).eff ≤ 2) then
      ((s.setShed 2).onPower fun x => { x with frozen := true, freezeAt := none }).steer
    else s
  | _, _, _ => s

def execShedFreeze (s : State) : Host.Outcome State Fault Refusal := .next s.shedFreeze

/-- The module is restored: no source stands, and the targets slew to EFF_MV (R412). -/
def State.restoreNow (s : State) : State :=
  let a := (s.wr R.PWR.SHED_STAT 0).onPower fun x => { x with shedAt := none, freezeAt := none }
  if s.rd R.PWR.STAT.SHED = 1 ∨ s.rd R.PWR.STAT.SHED = 2 then (a.setShed 3).steer else a

/-- SHED_CTRL with OP restore: refused while a source other than bit 0 is asserted (R412). -/
def State.restoreGo (s : State) : State :=
  if s.rd R.PWR.SHED_STAT / 2 = 0 then s.restoreNow else s.raise pgPWR .SHED_REFUSED

def execRestore (p : Path) (s : State) : Host.Outcome State Fault Refusal :=
  .next (s.onWrite p R.PWR.SHED_CTRL.GO.addr 4 none fun s => (s.wr R.PWR.SHED_CTRL.OP 2).restoreGo)

/-- Whether a Daxvo emergency is pending or active. -/
def State.daxvoEmerg (s : State) : Bool :=
  s.clk.daxvo || (match s.clk.pending with | some op => decide (op.src = 2) | none => false)

/-- RESTORE_UNFREEZE (R412): every domain is at its target; the tiles unfreeze, the queues resume, and the shed's
emergency is released unless a Daxvo emergency is active. -/
def State.unfreeze (s : State) : State :=
  if s.rd R.PWR.STAT.SHED = 3 ∧ s.steered then
    let a := ((s.setShed 0).onPower fun x => { x with frozen := false, shedApplied := false }).steer
    if s.power.shedApplied ∧ !s.daxvoEmerg then a.emergGo ⟨false, s.rd R.CLK.EMERG_CTRL.FRAC, s.time + 1, 1⟩ else a
  else s

def execRestoreUnfreeze (s : State) : Host.Outcome State Fault Refusal := .next s.unfreeze

/-- An emergency operation of an accepted Daxvo message (R369, R411, R412): an apply of 2 orders a shed while ON_EMERG is
1; a release ends source 1, and restores the module if that was the only one. -/
def State.daxvoShed (s : State) (apply : Bool) (frac epoch : Nat) : State :=
  if apply then
    if emergFrac frac = 2 ∧ s.on R.PWR.SHED_CTRL.ON_EMERG then s.orderShed 1 (epoch + s.rd R.PWR.SHED_DELAY) else s
  else if s.rd R.PWR.SHED_STAT = 2 then s.restoreNow
  else s.wr R.PWR.SHED_STAT (setBit (s.rd R.PWR.SHED_STAT) 1 false)

/-! ### Park (R402, R414) -/

/-- The tiles of a partition are power-gated. -/
def State.gateTiles (s : State) (p : Nat) : State := (s.partTiles p).foldl State.gateTile s

/-- Marks a partition parked or not. -/
def State.setParked (s : State) (p : Nat) (b : Bool) : State :=
  s.wr R.PWR.PARK_STAT.PARKED (setBit (s.rd R.PWR.PARK_STAT.PARKED) p b)

/-- A partition is parked (R414). -/
def State.parkNow (s : State) (p : Nat) : State :=
  ((((s.gateTiles p).setParked p true).onPower fun x => { x with parking := setBit x.parking p true })).steer

/-- Whether the module is shed, or a shed or a restore is in progress (R411, R412). -/
def State.shed (s : State) : Bool := s.rd R.PWR.STAT.SHED ≠ 0

/-- PARK (R413, R414): refused while the module is shed, with SHED_REFUSED (log entry 111), and unless the partition is in
QUIESCE. -/
def State.parkGo (s : State) (p : Nat) : State :=
  if s.shed then s.raise pgPWR .SHED_REFUSED p
  else if s.partRead p ≠ 5 then s.raise pgPWR .PARK_REFUSED p
  else if (s.rd R.PWR.PARK_STAT.PARKED).testBit p then s
  else s.parkNow p

def execPark (p : Path) (part : Fin 8) (s : State) : Host.Outcome State Fault Refusal :=
  .next (s.onWrite p R.PWR.PARK_CTRL.GO.addr 4 none fun s => (((s.wr R.PWR.PARK_CTRL.PART part.val).wr R.PWR.PARK_CTRL.OP 1).parkGo part.val))

/-- PARK_COMPLETE (R414). -/
def execParkComplete (part : Fin 8) (s : State) : Host.Outcome State Fault Refusal :=
  .next (if s.power.parking.testBit part.val then
      (s.onPower fun x => { x with parking := setBit x.parking part.val false }).bump R.PWR.PARKS 1
    else s)

/-- The count n of healthy cassettes (R401). -/
def State.healthy (s : State) : Nat := s.rd R.PWR.STAT.CASS_OK

/-- A partition leaves park; every line reads unwritten. -/
def State.unparkNow (s : State) (p : Nat) : State :=
  let f := setBit (s.rd R.PWR.PARK_STAT.FORCED) p false
  ((((s.setParked p false).wr R.PWR.PARK_STAT.FORCED f).flag R.PWR.STAT.FORCED_PARK (decide (f ≠ 0))).onPower
    fun x => { x with parking := setBit x.parking p false }).steer

/-- UNPARK (R402, R413, R414): refused while the module is shed; out of a forced park it needs three healthy cassettes. -/
def State.unparkGo (s : State) (p : Nat) : State :=
  if s.shed then s.raise pgPWR .SHED_REFUSED p
  else if !(s.rd R.PWR.PARK_STAT.PARKED).testBit p then s
  else if (s.rd R.PWR.PARK_STAT.FORCED).testBit p ∧ s.healthy < 3 then s.raise pgPWR .PARK_REFUSED p
  else s.unparkNow p

def execUnpark (p : Path) (part : Fin 8) (s : State) : Host.Outcome State Fault Refusal :=
  .next (s.onWrite p R.PWR.PARK_CTRL.GO.addr 4 none fun s => (((s.wr R.PWR.PARK_CTRL.PART part.val).wr R.PWR.PARK_CTRL.OP 2).unparkGo part.val))

/-- SELF_REFRESH_REENTRY (R414): 10 µs after its last access a bonded region at park is in self-refresh again. -/
def execSelfRefreshReentry (t : Fin 960) (s : State) : Host.Outcome State Fault Refusal :=
  let at_ := Cells.get 0 s.power.awake t
  .next (if at_ ≠ 0 ∧ at_ + 1562 ≤ s.now then s.onPower fun x => { x with awake := Cells.put 0 x.awake t 0 } else s)

/-- A forced park (R402): every partition's tiles are power-gated and its commands end. PWR raises the code, and for each command
that ends the TILE page of the first tile of its work (log entry 112). -/
def State.forcedPark (s : State) : State :=
  let ps := (List.range 8).filter s.partValid
  let on := ((List.range 64).flatMap fun q => (s.q q).flights.filter fun f => ps.contains f.owner.part).filterMap fun f => f.tiles.head?
  let a := (on.eraseDups.foldl (fun u t => u.raise (pgTILE t) .FORCED_PARK)
    (s.endCommands (fun f => ps.contains f.owner.part) .FORCED_PARK)).raise pgPWR .FORCED_PARK
  let b := ps.foldl (fun u p => (u.gateTiles p).setParked p true) a
  ((b.wr R.PWR.PARK_STAT.FORCED (ps.foldl (fun m p => m ||| 2 ^ p) (s.rd R.PWR.PARK_STAT.FORCED))).flag
    R.PWR.STAT.FORCED_PARK (!ps.isEmpty)).steer

/-! ### Cassettes and the supply ceiling (R400, R401, R416) -/

/-- The bits set among the lowest `n` of a mask. -/
def maskCount (n m : Nat) : Nat := ((List.range n).filter m.testBit).length

/-- SUPPLY_CEIL for a count of healthy cassettes. -/
def supplyCeil (n : Nat) : Nat := if 12 ≤ n then 34000 else if 3 ≤ n then (n - 1) * 3000 else if n = 2 then 3000 else 0

/-- CEIL_EFF (R416). -/
def State.showCeil (s : State) : State :=
  s.wr R.PWR.CEIL_EFF (min (s.rd R.PWR.ENV_SET + s.rd R.PWR.ENV_TOL) (min (s.rd R.PWR.SUPPLY_CEIL) (s.rd R.PWR.THERM_CEIL)))

/-- The healthy cassettes change: the counts and the ceilings follow. -/
def State.setHealthy (s : State) (m : Nat) : State :=
  let n := maskCount 14 m
  let old := s.rd R.PWR.SUPPLY_CEIL
  let a := ((s.wr R.PWR.CASS_MAP.HEALTHY m).wr R.PWR.STAT.CASS_OK n).wr R.MOD.STATUS.CASSETTES n
  let b := (((a.flag R.MOD.STATUS.CASS_LOW (decide (n < 12))).wr R.PWR.SUPPLY_CEIL (supplyCeil n)).showCeil).onPower
    fun x => { x with supplyFell := x.supplyFell || decide (supplyCeil n < old) }
  let c := if 3 ≤ n ∧ n ≤ 11 ∧ supplyCeil n < s.rd R.PWR.ENV_SET ∧ s.rd R.PWR.ENV_SET ≤ old then b.raise pgPWR .SUPPLY_CAP else b
  if n = s.healthy then c else c.irq pgPWR 5

/-- Of the cassettes of a mask, those whose insertion is not counted yet are counted (R481). -/
def State.countNew (s : State) (m : Nat) : State :=
  ((List.range 14).filter fun i => m.testBit i && s.power.cassNew.testBit i).foldl (fun u i =>
    (u.onPower fun x => { x with cassNew := setBit x.cassNew i false }).countInsert (partCass i)) s

/-- CASSETTE_INSERT (R400, R481, R482): `ok` if the cassette is of the class declared; its soft-start begins, at whose end its
insertion is counted. That of a refused one is counted at once. -/
def execCassetteInsert (i : Fin 14) (ok : Bool) (s : State) : Host.Outcome State Fault Refusal :=
  .next (if (s.rd R.PWR.CASS_MAP.PRESENT).testBit i then s
    else
      let a := s.wr R.PWR.CASS_MAP.PRESENT (s.rd R.PWR.CASS_MAP.PRESENT ||| 2 ^ i.val)
      let b := a.onPower fun x => { x with cassOff := setBit x.cassOff i false, cassRefused := setBit x.cassRefused i (!ok) }
      if ok then b.onPower fun x => { x with inserted := Cells.put 0 x.inserted i (s.now + 1), cassNew := setBit x.cassNew i true }
      else (b.countInsert (partCass i)).raise pgPWR .CASS_REFUSED i)

/-- 500 ms of soft-start, in ticks (R400). -/
def softStart : Nat := 78125000

/-- Whether cassette `i` has completed its soft-start and is not healthy yet. -/
def State.softDone (s : State) (i : Nat) : Bool :=
  let at_ := Cells.get 0 s.power.inserted i
  at_ ≠ 0 && decide (at_ + softStart ≤ s.now + 1) && !(s.rd R.PWR.CASS_MAP.HEALTHY).testBit i

/-- CASSETTE_HEALTHY (R401, R505): at the end of soft-start, with BUS54 at `mv` mV at its input; a reversed one is negative. -/
def execCassetteHealthy (i : Fin 14) (mv : Int) (s : State) : Host.Outcome State Fault Refusal :=
  .next (if s.softDone i ∧ 44000 ≤ mv ∧ mv ≤ 60000 then
      (s.setHealthy (s.rd R.PWR.CASS_MAP.HEALTHY ||| 2 ^ i.val)).countNew (2 ^ i.val)
    else s)

/-- The cassettes `lost` stop being healthy, those `removed` leave and those `gained` complete their soft-start, all in one cycle:
each powered one that is lost is turned off with CASS_FAULT; the ceiling follows at once (R400, R401). What follows at two
cassettes or fewer is the caller's. -/
def State.loseCassettes (s : State) (lost removed gained : Nat) : State :=
  let gone := (List.range 14).filter fun i => (lost ||| removed).testBit i && decide (Cells.get 0 s.power.inserted i ≠ 0)
  let new := (List.range 14).filter fun i => gained.testBit i && !(lost ||| removed).testBit i && s.softDone i
  let keep := new.foldl (fun m i => setBit m i true) (gone.foldl (fun m i => setBit m i false) (s.rd R.PWR.CASS_MAP.HEALTHY))
  let a := s.onPower fun x => { x with
    inserted := gone.foldl (fun m i => Cells.put 0 m i 0) x.inserted
    cassOff := gone.foldl (fun m i => setBit m i true) x.cassOff
    cassRefused := (List.range 14).foldl (fun m i => if removed.testBit i then setBit m i false else m) x.cassRefused }
  let out := (List.range 14).filter fun i => removed.testBit i && (s.rd R.PWR.CASS_MAP.PRESENT).testBit i
  let b := a.wr R.PWR.CASS_MAP.PRESENT (out.foldl (fun m i => setBit m i false) (s.rd R.PWR.CASS_MAP.PRESENT))
  let c := (b.raiseAll pgPWR (gone.map fun i => (Err.CASS_FAULT, i))).bump R.PWR.CASS_FAULTS gone.length
  ((out.foldl (fun u _ => u.journal jPartOut) (c.countNew removed)).setHealthy keep).countNew gained

/-! ### Domain faults and margins (R405 to R407) -/

/-- A suspect mark on the step that a partition is in (R377). -/
def State.markCurrent (s : State) (p : Nat) (e : Err) : State :=
  let n := s.rd (R.MOD.STEP_NUM p)
  s.mark p n (((s.runOf p n).map Run.att).getD 0) e.code

/-- A domain fault (R406): the domain is off, its field's tiles count as failed and its four rows are retired. -/
def State.domainFault (s : State) (d : Fin 84) : State :=
  if s.rd (R.PDOM.STAT.STATE d) = 4 then s
  else
    let ps := ((domRows d).filterMap s.partOfRow).eraseDups
    let a := (s.setRail (.vcore d) false).wr (R.PDOM.STAT.STATE d) 4
    let b := (domRows d).foldl (fun u r =>
      let v := match u.shiftIn r with
        | some x => u.abortShift x
        | none => u
      if v.on (R.SPARE.ROWMAP.RETIRED r) then v else v.retireRow r) a
    let c := ps.foldl (fun u p => u.markCurrent p .DOMAIN_FAULT) b
    (c.raise (pgPDOM d) .DOMAIN_FAULT).irq (pgPDOM d) 4

/-- Whether a reading is a domain fault: output above 950 mV, output below 550 mV for 1 µs (157 ticks), or current above 520 A for
10 µs (R406). -/
def domainFaulty (r : DomainReading) : Bool :=
  match r with
  | .output mv ticks => decide (950 < mv ∨ (mv < 550 ∧ 157 ≤ ticks))
  | .current da ticks => decide (5200 < da ∧ slewTicks ≤ ticks)

/-- DOMAIN_FAULT (R406): the output or the current of a domain that is on has left its limits. -/
def execDomainFault (d : Fin 84) (r : DomainReading) (s : State) : Host.Outcome State Fault Refusal :=
  .next (if s.railOn (.vcore d) ∧ domainFaulty r then s.domainFault d else s)

/-- PHASE_FAIL (R406, R475): the spare phase takes over once, a repair; a second failure is a domain fault. -/
def execPhaseFail (d : Fin 84) (s : State) : Host.Outcome State Fault Refusal :=
  .next (if !s.railOn (.vcore d) then s
    else
      let a := (s.bump (R.PDOM.PHASE_FAILS d) 1).wr (R.PDOM.STAT.PHASES_OK d) (s.rd (R.PDOM.STAT.PHASES_OK d) - 1)
      if s.on (R.PDOM.STAT.SPARE_USED d) then a.domainFault d
      else ((a.wr (R.PDOM.STAT.SPARE_USED d) 1).raise (pgPDOM d) .PHASE_SPARED).journal jRepair)

/-- The reading of sensor `i` of a domain. -/
def senseFld (d i : Nat) : Fld := if i % 2 = 0 then R.PDOM.SENSE.S0 d (i / 2) else R.PDOM.SENSE.S1 d (i / 2)

/-- The valid sensors of a domain. -/
def State.validSensors (s : State) (d : Nat) : List Nat :=
  (List.range 16).filter fun i => !(s.rd (R.PDOM.SENSOR_EXCL d)).testBit i

/-- Whether a reading of sensor `i`, held for `ticks` ticks, excludes it (R405). -/
def State.excludes (s : State) (d i reading ticks : Nat) : Bool :=
  let others := ((s.validSensors d).filter fun j => decide (j ≠ i)).map fun j => s.rd (senseFld d j)
  decide (reading < 450 ∨ 950 < reading) ||
    match others with
    | [] => false
    | x :: r => decide (16 ≤ ticks ∧ reading + 80 < r.foldl min x)

/-- SENSOR_EXCLUSION (R405). -/
def execSensorExclusion (d : Fin 84) (i : Fin 16) (reading ticks : Nat) (s : State) : Host.Outcome State Fault Refusal :=
  .next (if !s.railOn (.vcore d) ∨ (s.rd (R.PDOM.SENSOR_EXCL d)).testBit i ∨ !s.excludes d i reading ticks then s
    else
      let a := (s.wr (senseFld d i) reading).wr (R.PDOM.SENSOR_EXCL d) (s.rd (R.PDOM.SENSOR_EXCL d) ||| 2 ^ i.val)
      let b := (a.bump (R.PDOM.SENSOR_EXCLS d) 1).raise (pgPDOM d) .SENSOR_EXCLUDED i
      if (b.validSensors d).length < 12 then b.domainFault d else b)

/-- The tiles of a domain. -/
def State.domTiles (s : State) (d : Nat) : List Nat :=
  (domRows d).flatMap fun r => (List.range 3).filterMap fun c => s.tileAt r (d % 14 * 3 + c)

/-- Whether a tile of a domain has kept cycles. -/
def State.domKeeps (s : State) (d : Nat) : Bool :=
  !s.power.frozen && (domRows d).any fun r => !s.rowParked r && decide (0 < (s.rowFrac r).eff)

/-- DROOP (R407): the minimum valid reading has been below the droop threshold for `ticks` ticks; the step of every
command that runs on the domain's tiles is marked suspect. -/
def execDroop (d : Fin 84) (min_ ticks : Nat) (s : State) : Host.Outcome State Fault Refusal :=
  .next (if s.railOn (.vcore d) ∧ min_ + s.rd (R.PDOM.DROOP_CFG.DROOP_MV d) < s.domTarget d ∧
      max 1 (s.rd (R.PDOM.DROOP_CFG.TICKS d)) ≤ ticks ∧ s.domKeeps d then
      let ts := s.domTiles d
      let os := (((List.range 64).flatMap fun q => (s.q q).flights.filter fun f => f.tiles.any ts.contains).map fun f =>
        (f.owner.part, f.owner.step)).eraseDups
      let a := (((s.wr (R.PDOM.STAT.DROOP d) 1).bump (R.PDOM.DROOPS d) 1).raise (pgPDOM d) .VDROOP).irq (pgPDOM d) 2
      os.foldl (fun u o => match o.2 with
        | some x => u.mark o.1 x.1 x.2 Err.VDROOP.code
        | none => u) a
    else s)

/-- Loads VOUT, and MARGIN from it; DOMAIN_MARGIN is raised at each rise of MARGIN (R407). -/
def State.showVout (s : State) (d out min_ idx : Nat) : State :=
  let a := ((s.wr (R.PDOM.VOUT.OUT_MV d) out).wr (R.PDOM.VOUT.MIN_MV d) min_).wr (R.PDOM.VOUT.MIN_IDX d) idx
  let m := decide (900 ≤ out ∧ min_ + 10 < s.domTarget d)
  let b := a.flag (R.PDOM.STAT.MARGIN d) m
  if m ∧ !s.on (R.PDOM.STAT.MARGIN d) then b.raise (pgPDOM d) .DOMAIN_MARGIN else b

/-- DOMAIN_MARGIN (R407): the output and the lowest valid reading of a domain. -/
def execDomainMargin (d : Fin 84) (out min_ : Nat) (idx : Fin 16) (s : State) : Host.Outcome State Fault Refusal :=
  .next (if s.railOn (.vcore d) then s.showVout d out min_ idx else s)

/-! ### Power windows (R408, R409, R415 to R417, R423, R424) -/

/-- The lowest reading of the valid sensors, and its number. -/
def State.minSensor (s : State) (d : Nat) : Nat × Nat :=
  match s.validSensors d with
  | [] => (0, 0)
  | i :: r => r.foldl (fun m j => if s.rd (senseFld d j) < m.1 then (s.rd (senseFld d j), j) else m) (s.rd (senseFld d i), i)

/-- The highest of a list of readings, and its number. -/
def topReading (l : List Nat) : Nat × Nat :=
  l.zipIdx.foldl (fun m x => if m.1 < x.1 then x else m) (0, 0)

/-- The crack watch of a domain in a window (R409). -/
def State.crackWatch (s : State) (d avg out min_ : Nat) : State :=
  let excess : Int := (out : Int) - min_ - ((avg * s.rd (R.PDOM.PATH d) / 10000 : Nat) : Int)
  let bad := decide (s.rd (R.PDOM.CRACK_CFG.MIN_DA d) ≤ avg ∧ (s.rd (R.PDOM.CRACK_CFG.EXCESS_MV d) : Int) < excess)
  let n := if bad then Cells.get 0 s.power.cracks d + 1 else 0
  let full := decide (max 1 (s.rd (R.PDOM.CRACK_CFG.WINDOWS d)) ≤ n)
  let a := (s.when bad fun u => u.bump (R.PDOM.CRACK_WINDOWS d) 1).onPower fun x => { x with cracks := Cells.put 0 x.cracks d (if full then 0 else n) }
  if full then ((a.wr (R.PDOM.STAT.CRACK d) 1).raise (pgPDOM d) .CRACK_SUSPECT).irq (pgPDOM d) 3 else a

/-- One domain at the end of a window. -/
def State.domWindow (s : State) (d : Nat) (w : DomWindow) : State :=
  let a := (s.wr (R.PDOM.I_AVG.AVG_DA d) w.avg).wr (R.PDOM.I_AVG.PEAK_DA d) w.peak
  let b := (w.sense.take 16).zipIdx.foldl (fun u x => u.wr (senseFld d x.2) x.1) a
  let t := topReading (w.temps.take 4)
  let c := (b.wr (R.PDOM.TEMP.MAX_C d) t.1).wr (R.PDOM.TEMP.IDX d) t.2
  let m := c.minSensor d
  let e := (c.showVout d w.out m.1 m.2).crackWatch d w.avg w.out m.1
  (e.wr (R.PDOM.QIN d) (e.rd (R.PDOM.QIN d) + w.qin)).wr (R.PDOM.QOUT_REF d) (e.rd (R.PDOM.QOUT_REF d) + w.qout)

/-- The charge ledger's sums (R423): the residual is what no account explains. C_BUS is taken in mF (log entry 14). -/
def State.bookCharge (s : State) (w : PowerWindow) : State :=
  let a := (w.cass.take 14).zipIdx.foldl (fun u x =>
    (u.wr (R.PWR.CASS_QIN x.2) (u.rd (R.PWR.CASS_QIN x.2) + x.1.1)).wr (R.PWR.CASS_QOUT x.2) (u.rd (R.PWR.CASS_QOUT x.2) + x.1.2)) s
  let b := (w.acc.take 5).zipIdx.foldl (fun u x => u.wr (R.PWR.QACC x.2) (u.rd (R.PWR.QACC x.2) + x.1)) a
  let qin := ((List.range 14).map fun i => b.rd (R.PWR.CASS_QIN i)).sum
  let qout := ((List.range 14).map fun i => b.rd (R.PWR.CASS_QOUT i)).sum
  let dom := ((List.range 84).map fun d => b.rd (R.PDOM.QIN d)).sum
  let acc := ((List.range 5).map fun c => b.rd (R.PWR.QACC c)).sum
  let store : Int := (s.fuses.cBus : Int) * w.bus
  let resid : Int := (qout : Int) - dom - acc - store
  ((((((b.wr R.PWR.QIN54 qin).wr R.PWR.QCASS_OUT qout).wr R.PWR.QCASS_LOSS (unsigned 64 ((qin : Int) - qout))).wr
    R.PWR.QDOM_IN dom).wr R.PWR.QSTORE (unsigned 64 store)).wr R.PWR.QRESID (unsigned 64 resid))

/-- The check of the residual's change over a window (R424). -/
def State.checkResid (s before : State) : State :=
  let dq := (signed 64 (unsigned 64 ((s.rd R.PWR.QRESID : Int) - before.rd R.PWR.QRESID))).natAbs
  let out := unsigned 64 ((s.rd R.PWR.QCASS_OUT : Int) - before.rd R.PWR.QCASS_OUT)
  let n := if out + 20000 < 200 * dq then s.power.resids + 1 else 0
  let a := s.onPower fun x => { x with resids := if 10 ≤ n then 0 else n }
  if 10 ≤ n then (a.raise pgPWR .CHARGE_RESIDUAL).bump R.PWR.RESID_FAILS 1 else a

/-- ENV_TARGET and ENV_RAMP as they act (R415). -/
def State.envTarget (s : State) : Nat := clampNat 4080 34000 (s.rd R.PWR.ENV_TARGET)
def State.envRamp (s : State) : Nat := if s.rd R.PWR.ENV_RAMP = 0 then 6800 else min 6800 (s.rd R.PWR.ENV_RAMP)

/-- ENV_SET moves towards the target for one window, in mW, and never overshoots (R415). -/
def State.stepEnv (s : State) : State :=
  let now := s.rd R.PWR.ENV_SET * 1000 + s.power.envMilli
  let goal := s.envTarget * 1000
  let v := if now ≤ goal then min goal (now + s.envRamp) else max goal (now - s.envRamp)
  (s.wr R.PWR.ENV_SET (v / 1000)).onPower fun x => { x with envMilli := v % 1000 }

/-- Clamps of a write of ENV_TARGET or ENV_RAMP raise ENV_RANGE (R415). -/
def State.envWritten (s : State) (target ramp : Bool) : State :=
  let lo := decide (s.rd R.PWR.ENV_TARGET < 4080)
  let a := if target then s.flag R.PWR.STAT.ENV_LOW lo else s
  let b := if target ∧ (lo ∨ 34000 < s.rd R.PWR.ENV_TARGET) then a.raise pgPWR .ENV_RANGE else a
  if ramp ∧ (s.rd R.PWR.ENV_RAMP = 0 ∨ 6800 < s.rd R.PWR.ENV_RAMP) then b.raise pgPWR .ENV_RANGE else b

/-- The lowest effective fraction of any defined partition. -/
def State.lowestFrac (s : State) : Nat := ((List.range 8).filter s.partValid).foldl (fun m p => min m (s.fracEff p)) 16

/-- The fraction the cap steps from (R417). -/
def State.capFrom (s : State) : Nat := if s.on R.CLK.EMERG_STAT.ACTIVE then s.clk.frac else s.lowestFrac

/-- The cap applies (R417): it writes nothing while a Daxvo operation is pending, and only a lower fraction while one is
active. -/
def State.capApply (s : State) : State :=
  let f := max 2 (s.capFrom - max 1 (s.rd R.PWR.CAP_CFG.STEP))
  let waits := match s.clk.pending with
    | some op => decide (op.src = 2)
    | none => false
  if waits = true ∨ (s.clk.daxvo ∧ s.clk.frac ≤ f) then s
  else
    let a := ((s.emergGo ⟨true, f, s.time + 4, 1⟩).wr R.PWR.STAT.CAP_ACTIVE 1).bump R.PWR.CAP_EVENTS 1
    let b := { a with clk := { a.clk with capCeil := some (s.rd R.PWR.CEIL_EFF) } }
    ((b.onPower fun x => { x with supplyFell := false }).raise pgPWR .PWR_CAP).irq pgPWR 2

/-- The cap releases (R417). -/
def State.capRelease (s : State) : State :=
  if s.clk.capCeil.isNone ∨ s.daxvoEmerg then s
  else
    let a := { s with clk := { s.clk with capCeil := none } }
    ((a.emergGo ⟨false, s.rd R.CLK.EMERG_CTRL.FRAC, s.time + 4, 1⟩).wr R.PWR.STAT.CAP_ACTIVE 0).onPower fun x => { x with overs := 0 }

/-- CAP_RELEASE (R417): CAP_CFG.RELEASE. -/
def execCapRelease (p : Path) (s : State) : Host.Outcome State Fault Refusal :=
  .next (s.onWrite p R.PWR.CAP_CFG.RELEASE.addr 4 none fun s => s.capRelease)

/-- The cap at a window boundary (R417): for a fall of SUPPLY_CEIL, CAP_MS acts as 1. -/
def State.capWindow (s : State) : State :=
  if !s.on R.PWR.CAP_CFG.EN then s.onPower fun x => { x with overs := 0, supplyFell := false }
  else
    let above := decide (s.rd R.PWR.CEIL_EFF < s.rd R.PWR.P_MOD)
    let need := if s.power.supplyFell then 1 else max 1 (s.rd R.PWR.CAP_CFG.CAP_MS)
    let n := if above then s.power.overs + 1 else 0
    let hit := decide (need ≤ n)
    let a := s.onPower fun x => { x with overs := if hit then 0 else n, supplyFell := x.supplyFell && above }
    let rose := match s.clk.capCeil with
      | some c => decide (c + 2 * s.rd R.PWR.ENV_TOL ≤ s.rd R.PWR.CEIL_EFF)
      | none => false
    if above ∧ hit then a.capApply else if rose then a.capRelease else a

/-- A power window, in ticks. -/
def windowTicks : Nat := 156250

/-- The highest PDOM temperature. -/
def State.hottest (s : State) : Nat := (List.range 84).foldl (fun m d => max m (s.rd (R.PDOM.TEMP.MAX_C d))) 0

/-- A thermal cycle of the lifetime records (R475): the highest PDOM temperature falls below 45 °C after exceeding 85 °C. -/
def State.thermalWatch (s : State) : State :=
  let m := s.hottest
  let l := { s.life with maxC := max s.life.maxC m }
  { s with life :=
      if 85 < m then { l with hot := true }
      else if l.hot ∧ m < 45 then { l with hot := false, cycles := l.cycles + 1 } else l }

/-- What coupling pair `c` reports (R422): inlet and outlet temperatures and flow. -/
def State.showCool (s : State) (c : Nat) (x : Nat × Nat × Nat) : State :=
  ((s.wr (R.PWR.COOL.INLET_C c) x.1).wr (R.PWR.COOL.OUTLET_C c) x.2.1).wr (R.PWR.COOL.FLOW c) x.2.2

/-- POWER_WINDOW (R408): at a power window boundary, what the window measured is loaded and booked; the envelope, the
ceiling and the cap follow. -/
def State.powerWindow (s : State) (w : PowerWindow) : State :=
  let a := ((s.wr R.PWR.P_MOD w.pMod).wr R.PWR.P_PEAK w.pPeak).flag R.PWR.STAT.HOLDUP_OK w.holdup
  let b := ((w.doms.take 84).zipIdx.foldl (fun u x => u.domWindow x.2 x.1) a).thermalWatch
  let c := (w.cool.take 2).zipIdx.foldl (fun u x => u.showCool x.2 x.1) b
  (((c.bookCharge w).checkResid s).stepEnv.showCeil).capWindow

def execPowerWindow (w : PowerWindow) (s : State) : Host.Outcome State Fault Refusal :=
  .next (if s.time % windowTicks = 0 ∧ s.modState ≠ 0 then s.powerWindow w else s)

/-! ### Thermal and coolant protection (R421, R422) -/

/-- The levels of a reading: warn, shed and trip; `x` is grade X (MOD.VARIANT.GRADE). -/
structure Levels where
  warn : Nat
  shed : Nat
  trip : Nat

/-- The levels of R421; a limit that reads "above" starts one degree higher. -/
def readingLevels (r : Reading) (x : Bool) : Levels :=
  match r with
  | .wafer _ _ => ⟨95, 105, 115⟩
  | .stack _ _ => ⟨92, 100, 105⟩
  | .inlet _ _ => if x then ⟨49, 52, 55⟩ else ⟨41, 44, 47⟩

def readingValue (r : Reading) : Nat :=
  match r with
  | .wafer _ c | .stack _ c | .inlet _ c => c

/-- The levels of a reading for this module. -/
def State.levels (s : State) (r : Reading) : Levels := readingLevels r (s.on R.MOD.VARIANT.GRADE)

/-- Whether a reading is at warn: an inlet below the grade's minimum warns too. -/
def State.atWarn (s : State) (r : Reading) : Bool :=
  let low := match r with
    | .inlet _ c => decide (c < (if s.on R.MOD.VARIANT.GRADE then 10 else 18))
    | _ => false
  decide ((s.levels r).warn ≤ readingValue r) || low

/-- A reading is shown in its register: TEMP of a domain is loaded at the end of a window only. -/
def State.showReading (s : State) (r : Reading) : State :=
  match r with
  | .wafer _ _ => s
  | .stack k c => s.stackTemp k c
  | .inlet p c => s.wr (R.PWR.COOL.INLET_C (portIx p)) c

/-- Writes STAT.THERM; a change raises PG_IRQ_RAW bit 4. -/
def State.setTherm (s : State) (v : Nat) : State :=
  if s.rd R.PWR.STAT.THERM = v then s else (s.wr R.PWR.STAT.THERM v).irq pgPWR 4

/-- A reading is at warn. Entry to warn: THERM_CEIL falls to 90 % of P_MOD; a reading that comes back to warn before warn has ended
lets THERM_CEIL fall on. -/
def State.enterWarn (s : State) : State :=
  if s.rd R.PWR.STAT.THERM ≠ 0 then s.onPower fun x => { x with warnAt := x.warnAt.or (some s.now) }
  else
    let a := ((s.setTherm 1).bump R.PWR.THERM_WARNS 1).wr R.PWR.THERM_CEIL (s.rd R.PWR.P_MOD * 9 / 10)
    (a.onPower fun x => { x with warnAt := some s.now }).raise pgPWR .THERM_WARN

/-- THERMAL_WARN (R421). -/
def execThermalWarn (r : Reading) (s : State) : Host.Outcome State Fault Refusal :=
  .next (if s.atWarn r then (s.showReading r).enterWarn else s)

/-- 100 ms, in ticks. -/
def ticks100ms : Nat := 15625000

/-- THERM_CEIL_STEP (R421): every 100 ms for which a reading stays at warn THERM_CEIL falls by a tenth of its value. -/
def execThermCeilStep (s : State) : Host.Outcome State Fault Refusal :=
  .next (if s.power.warnAt.any fun t => decide (t + ticks100ms ≤ s.now) then
      (s.wr R.PWR.THERM_CEIL (s.rd R.PWR.THERM_CEIL - s.rd R.PWR.THERM_CEIL / 10)).onPower fun x => { x with warnAt := some s.now }
    else s)

/-- THERMAL_CLEAR (R421): every reading is below its warn level, which ends the thermal shed source; `settled` if every
one has been at least 3 °C below for 1 s, which ends warn. -/
def execThermalClear (settled : Bool) (s : State) : Host.Outcome State Fault Refusal :=
  .next (if s.rd R.PWR.STAT.THERM = 0 then s
    else
      let a := (s.wr R.PWR.SHED_STAT (setBit (s.rd R.PWR.SHED_STAT) 2 false)).onPower fun x => { x with warnAt := none }
      if settled then (a.setTherm 0).wr R.PWR.THERM_CEIL 34000 else a.setTherm 1)

/-- A reading is at shed, and so at warn too. -/
def State.enterShed (s : State) : State :=
  if s.rd R.PWR.STAT.THERM = 2 then s else (((s.enterWarn).setTherm 2).raise pgPWR .THERM_SHED).orderShed 2 s.time

/-- THERMAL_SHED (R421). -/
def execThermalShed (r : Reading) (s : State) : Host.Outcome State Fault Refusal :=
  .next (if (s.levels r).shed ≤ readingValue r then (s.showReading r).enterShed else s.showReading r)

/-- COUPLING_DISCONNECT (R11, R482). -/
def presentFld (c : Port) : Fld :=
  match c with
  | .a => R.PWR.COOL_STAT.A_PRESENT
  | .b => R.PWR.COOL_STAT.B_PRESENT

def execCouplingDisconnect (c : Port) (s : State) : Host.Outcome State Fault Refusal :=
  .next (if s.on (presentFld c) then (s.wr (presentFld c) 0).journal jPartOut else s)

/-- COUPLING_CONNECT (R11, R482). -/
def execCouplingConnect (c : Port) (s : State) : Host.Outcome State Fault Refusal :=
  .next (if s.on (presentFld c) then s else (s.wr (presentFld c) 1).countInsert (partPair c))

/-- The flow of the present pairs (R422). -/
def State.flow (s : State) (fa fb : Nat) : Nat :=
  (if s.on R.PWR.COOL_STAT.A_PRESENT then fa else 0) + (if s.on R.PWR.COOL_STAT.B_PRESENT then fb else 0)

/-- The flows of the pairs are shown. -/
def State.showFlow (s : State) (fa fb : Nat) : State := (s.wr (R.PWR.COOL.FLOW 0) fa).wr (R.PWR.COOL.FLOW 1) fb

/-- Whether any partition is above park (R11). -/
def State.abovePark (s : State) : Bool :=
  (List.range 8).any fun p => s.partValid p && !(s.rd R.PWR.PARK_STAT.PARKED).testBit p

/-- FLOW_LOSS (R422): the pairs' flows for `ticks` ticks. -/
def execFlowLoss (fa fb ticks : Nat) (s : State) : Host.Outcome State Fault Refusal :=
  let a := s.showFlow fa fb
  let none_ := !s.on R.PWR.COOL_STAT.A_PRESENT && !s.on R.PWR.COOL_STAT.B_PRESENT
  .next (if !s.on R.PWR.COOL_STAT.FLOW_LOW ∧
      ((s.flow fa fb < s.rd R.PWR.FLOW_MIN ∧ ticks100ms ≤ ticks) ∨ (none_ ∧ s.abovePark)) then
      ((a.wr R.PWR.COOL_STAT.FLOW_LOW 1).raise pgPWR .FLOW_LOW).orderShed 3 s.time
    else a)

/-- FLOW_RESTORED (R422): flow at or above FLOW_MIN for 1 s clears the source. -/
def execFlowRestored (fa fb ticks : Nat) (s : State) : Host.Outcome State Fault Refusal :=
  let a := s.showFlow fa fb
  .next (if s.on R.PWR.COOL_STAT.FLOW_LOW ∧ s.rd R.PWR.FLOW_MIN ≤ s.flow fa fb ∧ 10 * ticks100ms ≤ ticks then
      (a.wr R.PWR.COOL_STAT.FLOW_LOW 0).wr R.PWR.SHED_STAT (setBit (s.rd R.PWR.SHED_STAT) 3 false)
    else a)

end Sys2Proof.Machine
end

