-- ==== Sys2Proof/Machine/Message.lean ====
section
/-! DEFINITION. Fabric messages (R364 to R366, R453, R474), joining and leaving (R334 to R337), and broadcasts (R367 to
R369). -/

namespace Sys2Proof.Machine

/-! ### Delivery (R365) -/

/-- What a receiver makes of a message: takes it, acknowledges it again, or drops it. -/
inductive Receipt where
  | take | again | drop
  deriving DecidableEq, Repr

/-- A message's receipt, from the incarnation and sequence last accepted of its sender (R336, R365). Of a sender of which nothing is
kept, whatever comes first is the next (DESIGN CHOICE, log entry 108). -/
def State.receipt (s : State) (node inc seq : Nat) : Receipt :=
  match Cells.find s.fab.msgFrom node with
  | none => .take
  | some (i, q) =>
    if inc = i then (if seq = q + 1 then .take else if seq ≤ q then .again else .drop)
    else if 0 < seqDiff inc i then (if seq = 1 then .take else .drop)
    else .drop

/-- An acknowledgement; `answer` 1 says that a released granule is not held (R453). -/
def State.ackMsg (s : State) (f : Frame) (seq answer : Nat) : State :=
  let b := if answer = 1 then s.onFab fun x => { x with refused := x.refused ++ [(f.src, seq)] } else s
  b.answer f (.msgAck seq answer)

/-- Notes the sender's incarnation and sequence; a new incarnation discards what was kept of the old one. -/
def State.noteMsg (s : State) (node inc seq : Nat) : State :=
  s.onFab fun x => { x with
    msgFrom := Cells.insert (Cells.drop x.msgFrom node) node (inc, seq)
    refused := if seq = 1 then x.refused.filter fun r => decide (r.1 ≠ node) else x.refused }

/-- A message at this node: `act` is its effect and the answer that its acknowledgement carries. -/
def State.takeMsg (s : State) (f : Frame) (inc seq : Nat) (act : State → State × Nat) : State :=
  match s.receipt f.src inc seq with
  | .take =>
    let x := act (s.noteMsg f.src inc seq)
    x.1.ackMsg f seq x.2
  | .again => s.answer f (.msgAck seq (if s.fab.refused.contains (f.src, seq) then 1 else 0))
  | .drop => s

/-- A message frame that arrives on link `k`. -/
def State.msgFrame (s : State) (k : Nat) (f : Frame) (inc seq : Nat) (act : State → State × Nat) : State :=
  s.takeFrame k f fun u => u.takeMsg f inc seq act

/-- An effect whose acknowledgement carries no answer. -/
def plain (g : State → State) (s : State) : State × Nat := (g s, 0)

/-- START_RECORD (R314). -/
def execStartRecord (k : Fin 48) (f : Frame) (s : State) : Host.Outcome State Fault Refusal :=
  .next (match f.body with
    | .msg inc seq part (.start r) => s.msgFrame k f inc seq (plain fun u => u.startRecord part r)
    | _ => s)

/-- ABORT_NOTICE (R316). -/
def execAbortNotice (k : Fin 48) (f : Frame) (s : State) : Host.Outcome State Fault Refusal :=
  .next (match f.body with
    | .msg inc seq part (.abort g q c rep) => s.msgFrame k f inc seq (plain fun u => u.abortNotice part g q c rep)
    | _ => s)

/-- VERDICT_CLEAN (R389). -/
def execVerdictClean (k : Fin 48) (f : Frame) (s : State) : Host.Outcome State Fault Refusal :=
  .next (match f.body with
    | .msg inc seq part (.verdict v) =>
      s.msgFrame k f inc seq (plain fun u => u.verdictMsg part ⟨3, f.src, v.part, v.step, v.attempt, v.cause, v.tag⟩)
    | _ => s)

/-- RETRACTION (R389). -/
def execRetraction (k : Fin 48) (f : Frame) (s : State) : Host.Outcome State Fault Refusal :=
  .next (match f.body with
    | .msg inc seq part (.retract v) =>
      s.msgFrame k f inc seq (plain fun u => u.verdictMsg part ⟨4, f.src, v.part, v.step, v.attempt, v.cause, v.tag⟩)
    | _ => s)

/-! ### Releases (R366, R453) -/

/-- Forgets that an IN granule belongs to a move from another node. -/
def State.dropHeld (s : State) (g : Nat) : State :=
  let a := s.onFab fun x => { x with moveIn := Cells.put none x.moveIn g none, held := x.held.filter fun h => decide (h ≠ g) }
  (a.wr R.CFG.PREL.DST_HELD a.fab.held.length).movesSettled

/-- A held IN granule goes HOME, or FREE. -/
def State.endHeld (s : State) (g : Nat) (home : Bool) : State :=
  (s.moveGran g (if home then { s.gran g with st := 2 } else ⟨0, 0⟩)).dropHeld g

/-- A release at the destination: the granule goes from IN to HOME; one already HOME is acknowledged without effect; any
other is not held. -/
def State.takeRelease (s : State) (node src dst : Nat) : State × Nat :=
  match s.place dst with
  | .error _ => (s, 1)
  | .ok p =>
    let g := s.gran p.gran
    if g.st = 1 ∧ Cells.get none s.fab.moveIn p.gran = some (node, src) then (s.endHeld p.gran true, 0)
    else if g.st = 2 then (s, 0)
    else (s, 1)

/-- MOVE_RELEASE (R366, R453). -/
def execMoveRelease (k : Fin 48) (f : Frame) (s : State) : Host.Outcome State Fault Refusal :=
  .next (match f.body with
    | .msg inc seq _ (.release node src dst) => s.msgFrame k f inc seq fun u => u.takeRelease node src dst
    | _ => s)

/-- A release query at the source (R453): HOME if a release is pending; FREE if the source holds its granule OUT or
HOME. -/
def State.takeQuery (s : State) (node src dst : Nat) : State :=
  if s.island.releases.any fun r => decide (r.node = node ∧ r.src = src) then s.sendMsg none node 0xFF (.answer dst true)
  else
    match s.place src with
    | .ok p => if 2 ≤ (s.gran p.gran).st then s.sendMsg none node 0xFF (.answer dst false) else s
    | .error _ => s

/-- The answer to a release query, for an IN granule of a move from the node that answers. -/
def State.takeAnswer (s : State) (node dst : Nat) (home : Bool) : State :=
  let g := dst / granBytes
  match Cells.get none s.fab.moveIn g with
  | some (n, _) => if n = node ∧ (s.gran g).st = 1 then s.endHeld g home else s
  | none => s

/-- RELEASE_QUERY (R453): the query, and the answer to one. -/
def execReleaseQuery (k : Fin 48) (f : Frame) (s : State) : Host.Outcome State Fault Refusal :=
  .next (match f.body with
    | .msg inc seq _ (.query src dst) => s.msgFrame k f inc seq (plain fun u => u.takeQuery f.src src dst)
    | .msg inc seq _ (.answer dst home) => s.msgFrame k f inc seq (plain fun u => u.takeAnswer f.src dst home)
    | _ => s)

/-! ### Acknowledgements (R365, R366) -/

/-- A datum without a home (R453). -/
def State.moveLost (s : State) : State := ((s.bump R.CFG.MOVES_LOST 1).raise pgCFG .MOVE_LOST).irq pgCFG 4

/-- A pending release of a destination is cleared; the MOVE that waits for it has one granule less to wait for. -/
def State.endRelease (s : State) (node from_ src dst : Nat) (lost : Bool) : State :=
  match s.island.releases.find? fun r => decide (r.from_ = from_ ∧ r.node = node ∧ r.src = src ∧ r.dst = dst) with
  | none => s
  | some r =>
    let a := s.onIsland fun i => { i with releases := i.releases.erase r }
    let b := ((a.wr R.CFG.PREL.SRC_PENDING a.island.releases.length).movesSettled).when lost State.moveLost
    match r.owner with
    | some o => b.pieceDone o
    | none => b

/-- A LEAVE that its registrar has acknowledged: the module has left (R337). -/
def State.left (s : State) (node : Nat) : State :=
  if node = s.rd R.MOD.FAB_REGISTRAR ∧ s.rd R.MOD.FAB_STAT.STATE = 4 then
    (s.wr R.MOD.FAB_NODE.JOINED 0).wr R.MOD.FAB_STAT.STATE 0
  else s

/-- A MSG_ACK at the sender. -/
def State.takeMsgAck (s : State) (node seq answer : Nat) : State :=
  match s.fab.msgs.find? fun m => decide (m.node = node ∧ m.seq = seq) with
  | none => s
  | some m =>
    let a := s.onFab fun x => { x with msgs := x.msgs.erase m }
    let b := match m.msg with
      | .release n src dst => a.endRelease node n src dst (answer = 1)
      | .leave _ => a.left node
      | _ => a
    b.pumpMsgs node 16

/-- MSG_ACK (R365). -/
def execMsgAck (k : Fin 48) (f : Frame) (s : State) : Host.Outcome State Fault Refusal :=
  .next (match f.body with
    | .msgAck seq answer => s.takeFrame k f fun u => u.takeMsgAck f.src seq answer
    | _ => s)

/-- MSG_RETX, where 0 acts as 1,563. -/
def State.retx (s : State) : Nat := if s.rd R.MOD.MSG_RETX = 0 then 1563 else s.rd R.MOD.MSG_RETX

/-- MSG_RESEND (R365): a message that has not been acknowledged for MSG_RETX ticks is sent again and counted. -/
def execMsgResend (node : BitVec 16) (seq : Nat) (s : State) : Host.Outcome State Fault Refusal :=
  .next (match s.fab.msgs.find? fun m => decide (m.node = node.toNat ∧ m.seq = seq) with
    | none => s
    | some m =>
      match m.sent with
      | some t =>
        if s.joined ∧ t + s.retx ≤ s.now then
          let m' := { m with sent := some s.now }
          ((s.onFab fun x => { x with msgs := x.msgs.map fun y => if y = m then m' else y }).putMsg m').bump R.MOD.MSG_RESENT 1
        else s
      | none => s)

/-! ### Joining (R334, R335, R453, R474) -/

/-- Links that are up to a joined neighbour. -/
def State.neighbours (s : State) : List Nat :=
  (List.range 48).filter fun k => s.linkUp k && s.on (R.LINK.PEER.VALID k) && !s.on (R.LINK.PEER.UNJOINED k)

/-- A frame between an unjoined module and its neighbour (R334). -/
def State.joinFrame (s : State) (k : Nat) (m : Message) : State :=
  s.queueFrame k (s.ownFrame (s.rd (R.LINK.PEER.NODE k)) 0 0 0 (.msg 0 0 0xFF m))

/-- FAB_CTRL.JOIN (R334): without effect once the module has joined. -/
def State.join (s : State) : State :=
  if s.joined then s
  else
    let req := if s.on R.MOD.FAB_CTRL.REQ_VALID then some (s.rd R.MOD.FAB_CTRL.REQ_NODE) else none
    let m := Message.join (s.rd R.MOD.FAB_HALL) req (s.rd R.FUSE.SERIAL) none
    s.neighbours.foldl (fun u k => u.joinFrame k m) (s.wr R.MOD.FAB_STAT.STATE 1)

def execJoin (p : Path) (req : BitVec 16) (reqValid : Bool) (s : State) : Host.Outcome State Fault Refusal :=
  .next (s.onWrite p R.MOD.FAB_CTRL.JOIN.addr 4 none fun s => ((s.wr R.MOD.FAB_CTRL.REQ_NODE req.toNat).flag R.MOD.FAB_CTRL.REQ_VALID reqValid).join)

/-- JOIN_MESSAGE (R334): from an unjoined neighbour, it goes on to the registrar, marked with the link it came in on. A
join that another node forwards is for a registrar, which a module is not: it is acknowledged. -/
def execJoinMessage (k : Fin 48) (f : Frame) (s : State) : Host.Outcome State Fault Refusal :=
  .next (match f.body with
    | .msg _ _ _ (.join hall req serial none) =>
      s.takeFrame k f fun u => u.sendMsg none (u.rd R.MOD.FAB_REGISTRAR) 0xFF (.join hall req serial (some k.val))
    | .msg inc seq _ (.join _ _ _ (some _)) => s.msgFrame k f inc seq (plain id)
    | _ => s)

/-- What follows a join (R453, R474): pending releases are sent again, the sources of held granules are asked, and every
last peer is asked for its link's totals. -/
def State.afterJoin (s : State) : State :=
  let a := s.island.releases.foldl (fun u r => u.sendMsg (r.owner.map Owner.part) r.node 0xFF (.release r.from_ r.src r.dst)) s
  let b := s.fab.held.foldl State.sendQuery a
  let c := [R.LEDG.STATE.LINK, R.LEDG.STATE.MOVE].foldl (fun u f => if u.rd f = 1 then u.wr f 2 else u) b
  let d := s.island.links.foldl (fun u x =>
    match x.2.peer with
    | some (n, l) => (u.onLedger x.1 fun y => { y with answered := false }).sendMsg none n 0xFF (.ledgerQuery l x.1 x.2.atFused.1 x.2.atFused.2)
    | none => u) c
  d.linksSettled

/-- The position of a message among those to its node, from 1. -/
def seqOf (ms : List OutMsg) (m : OutMsg) : Nat :=
  ((ms.takeWhile fun x => x ≠ m).filter fun x => decide (x.node = m.node)).length + 1

/-- Under a new incarnation messages and broadcasts count from 1 (R336, R365, R367): those not yet acknowledged are numbered
anew, in order, and sent again. -/
def State.renumber (s : State) : State :=
  let ms := s.fab.msgs
  let a := s.onFab fun x => { x with
    msgs := ms.map fun m => { m with seq := seqOf ms m, sent := none }
    msgSeq := ms.foldl (fun c m => Cells.put 0 c m.node (seqOf ms m)) []
    bseq := 0 }
  (ms.map OutMsg.node).eraseDups.foldl (fun u n => u.pumpMsgs n 16) a

/-- An ACCEPT at the module that joins. -/
def State.joinAccept (s : State) (node inc : Nat) : State :=
  if s.rd R.MOD.FAB_STAT.STATE = 1 then
    (((((s.wr R.MOD.FAB_NODE.NODE node).wr R.MOD.FAB_NODE.JOINED 1).wr R.MOD.FAB_INCARN inc).wr R.MOD.FAB_STAT.STATE 2).renumber).afterJoin
  else s

/-- JOIN_ACCEPT (R334): for this module, or relayed on the link its request came in on. -/
def execJoinAccept (k : Fin 48) (f : Frame) (s : State) : Host.Outcome State Fault Refusal :=
  .next (match f.body with
    | .msg _ _ _ (.joinAccept n inc none) => s.takeFrame k f fun u => u.joinAccept n inc
    | .msg inc seq _ (.joinAccept n i (some l)) => s.msgFrame k f inc seq (plain fun u => u.joinFrame l (.joinAccept n i none))
    | _ => s)

/-- JOIN_REFUSE (R335). -/
def State.joinRefuse (s : State) (reason : Nat) : State :=
  if s.rd R.MOD.FAB_STAT.STATE = 1 then
    ((s.wr R.MOD.FAB_STAT.REFUSE reason).wr R.MOD.FAB_STAT.STATE 3).raise pgMOD .JOIN_REFUSED
  else s

def execJoinRefuse (k : Fin 48) (f : Frame) (s : State) : Host.Outcome State Fault Refusal :=
  .next (match f.body with
    | .msg _ _ _ (.joinRefuse r none) => s.takeFrame k f fun u => u.joinRefuse r
    | .msg inc seq _ (.joinRefuse r (some l)) => s.msgFrame k f inc seq (plain fun u => u.joinFrame l (.joinRefuse r none))
    | _ => s)

/-- FAB_CTRL.LEAVE (R337): LEAVE goes to the registrar and to every neighbour. -/
def State.leave (s : State) : State :=
  if !s.joined ∨ s.rd R.MOD.FAB_STAT.STATE = 4 then s
  else
    let dsts := (s.rd R.MOD.FAB_REGISTRAR :: s.neighbours.map fun k => s.rd (R.LINK.PEER.NODE k)).eraseDups
    dsts.foldl (fun u n => u.sendMsg none n 0xFF (.leave (s.rd R.MOD.FAB_NODE.NODE))) (s.wr R.MOD.FAB_STAT.STATE 4)

def execLeave (p : Path) (s : State) : Host.Outcome State Fault Refusal :=
  .next (s.onWrite p R.MOD.FAB_CTRL.LEAVE.addr 4 none fun s => s.leave)

/-- A node has left (R337, R365): transactions at it end, and its messages are dropped and counted. This node's incarnation stays,
so that the next message to it follows the last that it has acknowledged (log entry 108). -/
def State.nodeLeft (s : State) (node : Nat) : State :=
  let ts := s.fab.txns.filter fun t => decide (t.node = node)
  let gone := s.fab.msgs.filter fun m => decide (m.node = node)
  let a := s.onFab fun x => { x with
    txns := x.txns.filter fun t => decide (t.node ≠ node), msgs := x.msgs.filter fun m => decide (m.node ≠ node)
    msgSeq := Cells.put 0 x.msgSeq node (Cells.get 0 x.msgSeq node - gone.length) }
  let b := ts.foldl (fun u t => u.endTxn t .NODE_UNREACHABLE true) (a.bump R.MOD.MSG_DROPPED gone.length)
  b.leaveColl node

/-- LEAVE_RECEIVED (R337). -/
def execLeaveReceived (k : Fin 48) (f : Frame) (s : State) : Host.Outcome State Fault Refusal :=
  .next (match f.body with
    | .msg inc seq _ (.leave n) => s.msgFrame k f inc seq (plain fun u => u.nodeLeft n)
    | _ => s)

/-! ### Ledger queries (R474) -/

/-- LEDGER_QUERY: answered with the totals of the link as it last went DOWN. -/
def execLedgerQuery (k : Fin 48) (f : Frame) (s : State) : Host.Outcome State Fault Refusal :=
  .next (match f.body with
    | .msg inc seq _ (.ledgerQuery l mine _ _) =>
      s.msgFrame k f inc seq (plain fun u => u.sendMsg none f.src 0xFF (.ledgerReply mine (u.ledgerOf l).downRx (u.ledgerOf l).downFreed))
    | _ => s)

/-- LEDGER_REPLY: the codewords in flight at the loss are booked; a negative difference raises LEDGER_RECON. -/
def State.ledgerReply (s : State) (l received : Nat) : State :=
  let y := s.ledgerOf l
  let a := s.onLedger l fun z => { z with lost := y.atFused.1 - received, answered := true }
  (if y.atFused.1 < received then a.raise pgLEDG .LEDGER_RECON l else a).linksSettled

def execLedgerReply (k : Fin 48) (f : Frame) (s : State) : Host.Outcome State Fault Refusal :=
  .next (match f.body with
    | .msg inc seq _ (.ledgerReply l received _) => s.msgFrame k f inc seq (plain fun u => u.ledgerReply l received)
    | _ => s)

/-! ### Broadcasts (R367 to R369) -/

/-- Whether a broadcast of an origin is new (R367). -/
def State.bcastNew (s : State) (b : Bcast) : Bool :=
  match Cells.get none s.fab.origins b.origin with
  | none => true
  | some (i, q) => decide (0 < seqDiff b.incarnation i) || (b.incarnation = i && decide (0 < seqDiff b.seq q))

/-- Records the origin's incarnation and sequence. -/
def State.noteBcast (s : State) (b : Bcast) : State :=
  s.onFab fun x => { x with origins := Cells.put none x.origins b.origin (some (b.incarnation, b.seq)) }

/-- Forwards a broadcast on every usable link with FLOOD set, but the link it came in on and links to gateways. -/
def State.flood (s : State) (f : Frame) (but : Option Nat) : State :=
  let ks := (List.range 48).filter fun k =>
    s.linkUp k && s.on (R.LINK.CTRL.FLOOD k) && decide (some k ≠ but) && decide (s.nodeKind (s.rd (R.LINK.PEER.NODE k)) ≠ 3)
  ks.foldl (fun u k => u.queueFrame k f) s

/-- A snapshot broadcast at this node (R368): loads SNAP_FABRIC while EN_FABRIC is set, and counts a replacement. -/
def State.bcastSnap (s : State) (b : Bcast) : State :=
  if s.on R.TB.SNAP_CTRL.EN_FABRIC then
    (if s.on R.TB.SNAP_STAT.FAB_ARMED then s.bump R.MOD.BCAST_REPLACED 1 else s).loadFabricSnap b.tick
  else s

/-- Applies an emergency broadcast to this module (R369). -/
def State.bcastApply (s : State) (b : Bcast) : State :=
  if b.op = 1 ∨ b.op = 2 then (s.emergGo ⟨b.op = 1, b.frac, b.tick, 2⟩).daxvoShed (b.op = 1) b.frac b.tick else s

/-- An emergency broadcast at this node (R369): applied if its origin is listed, else counted and raised. -/
def State.bcastEmerg (s : State) (b : Bcast) : State :=
  if (List.range 4).any fun i => s.on (R.MOD.FAB_EMERG_SRC.VALID i) && decide (s.rd (R.MOD.FAB_EMERG_SRC.NODE i) = b.origin) then
    s.bcastApply b
  else (s.bump R.MOD.BCAST_REJECT 1).raise pgMOD .BCAST_REJECTED

/-- A broadcast that arrives: judged, acted on by `act`, then forwarded. -/
def State.takeBcast (s : State) (k : Nat) (f : Frame) (b : Bcast) (act : State → State) : State :=
  s.takeFrame k f fun u =>
    if u.bcastNew b then (act (u.noteBcast b)).flood f (some k) else u.bump R.MOD.BCAST_DUP 1

/-- SNAPSHOT_BROADCAST (R368). -/
def execSnapshotBroadcast (k : Fin 48) (f : Frame) (s : State) : Host.Outcome State Fault Refusal :=
  .next (match f.body with
    | .bcast b => if b.kind = 1 then s.takeBcast k f b fun u => u.bcastSnap b else s
    | _ => s)

/-- EMERGENCY_BROADCAST (R369). -/
def execEmergencyBroadcast (k : Fin 48) (f : Frame) (s : State) : Host.Outcome State Fault Refusal :=
  .next (match f.body with
    | .bcast b => if b.kind = 2 then s.takeBcast k f b fun u => u.bcastEmerg b else s
    | _ => s)

/-- Originates a broadcast with the next origin sequence; its own copies are duplicates. Before the module has joined it
sends nothing (R334). -/
def State.originate (s : State) (kind tick frac op : Nat) : State :=
  if !s.joined then s
  else
    let b : Bcast := ⟨kind, s.rd R.MOD.FAB_NODE.NODE, s.fab.bseq + 1, tick, frac, op, s.rd R.MOD.FAB_INCARN⟩
    let a := (s.onFab fun x => { x with bseq := x.bseq + 1 }).noteBcast b
    a.flood (a.ownFrame 0 0 0 0 (.bcast b)) none

/-- A snapshot broadcast of this module, for a tick: it takes part in the capture itself (log entry 12). -/
def State.sendSnapBcast (s : State) (tick : Nat) : State :=
  let a := s.originate 1 tick 0 0
  if s.joined then a.bcastSnap ⟨1, s.rd R.MOD.FAB_NODE.NODE, 0, tick, 0, 0, 0⟩ else a

/-- BCAST_SNAPSHOT (R368). -/
def execBcastSnapshot (p : Path) (s : State) : Host.Outcome State Fault Refusal :=
  .next (s.onWrite p R.MOD.BCAST_CTRL.GO.addr 4 none fun s => ((s.wr R.MOD.BCAST_CTRL.TYPE 1).sendSnapBcast (s.rd R.MOD.BCAST_TICK)))

/-- BCAST_EMERGENCY (R369): this module applies it to itself in the same way. -/
def State.sendEmerg (s : State) : State :=
  let t := s.rd R.MOD.BCAST_TICK
  let f := s.rd R.MOD.BCAST_CTRL.FRAC
  let op := s.rd R.MOD.BCAST_CTRL.OP
  (s.originate 2 t f op).bcastApply ⟨2, s.rd R.MOD.FAB_NODE.NODE, 0, t, f, op, 0⟩

def execBcastEmergency (p : Path) (frac : BitVec 5) (op : BitVec 2) (s : State) : Host.Outcome State Fault Refusal :=
  .next (s.onWrite p R.MOD.BCAST_CTRL.GO.addr 4 none fun s => (((s.wr R.MOD.BCAST_CTRL.TYPE 2).wr R.MOD.BCAST_CTRL.FRAC frac.toNat).wr R.MOD.BCAST_CTRL.OP op.toNat).sendEmerg)

/-- SNAP_FABRIC_SEND (R171): a SNAP with OPCODE 2 sends the fabric snapshot message carrying TICK. An operation code
that no row names is judged here. -/
def execSnapFabricSend (q : Fin 64) (s : State) : Host.Outcome State Fault Refusal :=
  .next (s.issueHead q.val (fun e => decide (cmdClass e = clsSnap ∧ 2 ≤ cmdOp e)) fun u i e =>
    checked (u.snapErr q.val e) (u.faultHead q.val e) (u.issueDone q.val i e fun v => v.sendSnapBcast (field e 16 63 0)))

end Sys2Proof.Machine
end

