-- ==== Sys2Proof/Machine/Tag.lean ====
section
/-! DEFINITION. The areas and records of the Flacon tag (R478, R479). -/

namespace Sys2Proof.Machine

/-! ### Areas and records (R478, R479) -/

/-- The bytes of the tag. -/
def tagBytes : Nat := 8192

/-- The first byte and the record slots of an area: 1 summary, 2 journal, 3 last records, 4 technician log. -/
def tagArea (a : Nat) : Nat × Nat :=
  match a with
  | 1 => (0x100, 32)
  | 2 => (0x500, 120)
  | 3 => (0x1C00, 32)
  | _ => (0x1400, 64)

/-- The first byte that no longer belongs to the identity area. -/
def tagIdentity : Nat := 0x100

/-- A byte of the tag. The identity area holds what the factory wrote, which the fuses report too; its layout, the ordering code and the
date of manufacture are not in the spec (R478; log entry 118). -/
def State.tagByte (s : State) (a : Nat) : Byte :=
  if a < tagIdentity then Config.identity s.fuses.serial s.fuses.variant s.fuses.stepping s.fuses.profiles a
  else Cells.get 0 s.tag.bytes a

/-- `n` bytes of the tag from byte `a`. -/
def State.tagRead (s : State) (a n : Nat) : List Byte := (List.range n).map fun i => s.tagByte (a + i)

/-- The 32 bytes of slot `i` of an area. -/
def State.slotBytes (s : State) (area i : Nat) : List Byte := s.tagRead ((tagArea area).1 + 32 * i) 32

/-- Whether the CRC of a record holds (R479). -/
def recordOk (bs : List Byte) : Bool := decide ((sealOf (bs.take 28)).toNat = leNat (bs.drop 28))

/-- The TYPE and the SEQ of a record. -/
def recordType (bs : List Byte) : Nat := leNat (bs.take 2)
def recordSeq (bs : List Byte) : Nat := leNat ((bs.drop 4).take 4)

/-- The valid record with the highest SEQ among slots: its slot and its SEQ. -/
def State.latestOf (s : State) (area : Nat) (slots : List Nat) : Option (Nat × Nat) :=
  slots.foldl (fun m i =>
    let b := s.slotBytes area i
    if recordOk b then
      match m with
      | some (_, q) => if q < recordSeq b then some (i, recordSeq b) else m
      | none => some (i, recordSeq b)
    else m) none

end Sys2Proof.Machine
end

