-- ==== Sys2Proof/Machine/Flacon.lean ====
section
/-! DEFINITION. The Flacon tag: its byte writes, wired commits, and RF sessions (R478 to R481). -/

namespace Sys2Proof.Machine

/-! ### Commits (R479) -/

/-- Writes bytes of the tag from byte `a`. -/
def State.tagPut (s : State) (a : Nat) (bs : List Byte) : State := s.onTag fun t => { t with bytes := Cells.putBytes t.bytes a bs }

/-- The SEQ that the next record of an area takes. -/
def State.nextSeq (s : State) (area : Nat) : Nat :=
  match s.latestOf area (List.range (tagArea area).2) with
  | some (_, q) => q + 1
  | none => 1

/-- The summary kind of a TYPE: TYPE 0x0101 is kind 0. -/
def summaryKind (type : Nat) : Nat := (type + 16 - 1) % 16

/-- The slot that the next record takes: of a summary kind, the one that does not hold its latest valid record; in a
ring, the one after the latest. -/
def State.nextSlot (s : State) (area type : Nat) : Nat :=
  if area = 1 then
    let j := summaryKind type
    match s.latestOf 1 [2 * j, 2 * j + 1] with
    | some (i, _) => if i = 2 * j then 2 * j + 1 else 2 * j
    | none => 2 * j
  else
    match s.latestOf area (List.range (tagArea area).2) with
    | some (i, _) => (i + 1) % (tagArea area).2
    | none => 0

/-- The 32 bytes of a record with its SEQ and CRC (R479). -/
def recordBytes (r : TagRec) (seq : Nat) : List Byte :=
  let b := leBytes 2 r.type ++ leBytes 1 r.flags ++ [0] ++ leBytes 4 seq ++ leBytes 8 r.tick ++ (r.payload ++ List.replicate 12 0).take 12
  b ++ leBytes 4 (sealOf b).toNat

/-- A record is committed: its blocks are written and read back as written (R479). -/
def State.tagCommit (s : State) (r : TagRec) : State :=
  let q := s.nextSeq r.area
  (((s.tagPut ((tagArea r.area).1 + 32 * s.nextSlot r.area r.type) (recordBytes r q)).wr R.TAG.LAST_SEQ q).bump R.TAG.COMMITS 1)

/-- A commit that differs at its read-back leaves bytes the spec does not give in its slot (log entry 4). -/
def State.tagSpoil (s : State) (r : TagRec) : State :=
  let x := s.openBytes 16
  let y := x.2.openBytes 16
  y.2.tagPut ((tagArea r.area).1 + 32 * s.nextSlot r.area r.type) (x.1 ++ y.1)

/-- The first record leaves the wired queue. -/
def State.popTag (s : State) : State := (s.onTag fun t => { t with queue := t.queue.drop 1 }).showTag

/-- Whether wired commits may go on: no RF session is active, or its RF side is held (R481). -/
def State.tagFree (s : State) : Bool := !s.on R.TAG.STAT.RF_SESSION || s.on R.TAG.STAT.RF_HELD

/-- A Drydown record that has been committed completes Drydown's step 11 (R427, R429). -/
def State.lastRecordDone (s : State) (area : Nat) : State :=
  if area = 3 then (s.wr R.PWR.DD_LAST.COMPLETE 1).wr R.PWR.DD_LAST.STEP 11 else s

/-- TAG_COMMIT_DONE (R479, R481): the commit of the first record of the queue has taken its 40 ms; `ok` if it reads back as
written. The third read-back that differs raises TAG_WRITE_FAIL. -/
def execTagCommitDone (ok : Bool) (s : State) : Host.Outcome State Fault Refusal :=
  .next (match s.tag.queue with
    | [] => s
    | r :: rest =>
      if !s.tagFree then s
      else
        let a := s.wr R.TAG.STAT.RF_HELD 0
        if ok then ((a.tagCommit r).popTag).lastRecordDone r.area
        else
          let b := (a.tagSpoil r).bump R.TAG.VERIFY_FAILS 1
          if 2 ≤ r.fails then (b.popTag.raise pgTAG .TAG_WRITE_FAIL).irq pgTAG 2
          else b.onTag fun t => { t with queue := { r with fails := r.fails + 1 } :: rest })

/-! ### Wired access (R478, R480) -/

/-- Whether an aligned 32-byte slot lies in a record area and holds a record whose CRC fails. -/
def State.badRecord (s : State) (a : Nat) : Bool :=
  let b := s.tagRead a 32
  decide (0x100 ≤ a) && b.any (fun x => x ≠ 0) && !recordOk b

/-- RD_ADDR.GO: 32 bytes are read into RD_DATA; a record found invalid is counted. -/
def State.tagRd (s : State) (byte : Nat) : State :=
  let a := byte / 32 * 32
  let b := (List.range 8).foldl (fun u j => u.wr (R.TAG.RD_DATA j) (leNat (s.tagRead (a + 4 * j) 4))) (s.wr R.TAG.RD_ADDR.BYTE byte)
  if s.badRecord a then b.bump R.TAG.CRC_BAD 1 else b

/-- TAG_RD (R478). -/
def execTagRd (p : Path) (byte : BitVec 13) (s : State) : Host.Outcome State Fault Refusal :=
  .next (s.onWrite p R.TAG.RD_ADDR.GO.addr 4 none fun s => s.tagRd byte.toNat)

/-- A record of 32 bytes is queued for an area; its TYPE, FLAGS, TIME and payload are the writer's (R480). -/
def State.tagQueue (s : State) (area : Nat) (bs : List Byte) : State :=
  if area ≠ 1 ∧ area ≠ 2 then s.raise pgTAG .TAG_AREA
  else if tagQueueMax ≤ s.tag.queue.length then s
  else
    let r : TagRec := ⟨area, recordType bs, leNat ((bs.drop 2).take 1), leNat ((bs.drop 8).take 8), (bs.drop 16).take 12, s.now, 0, s.on R.TAG.STAT.RF_SESSION⟩
    let a := (s.onTag fun t => { t with queue := t.queue ++ [r] }).showTag
    if s.on R.TAG.STAT.RF_SESSION then a.bump R.TAG.DEFERS 1 else a

/-- The record that WR_DATA holds. -/
def State.wrData (s : State) : List Byte := (List.range 8).flatMap fun j => leBytes 4 (s.rd (R.TAG.WR_DATA j))

/-- WR_CTRL.GO: a write of a host port is ignored with MGMT_PATH. -/
def State.tagWr (s : State) (p : Path) (area : Nat) : State :=
  match p with
  | .sideband _ => (s.wr R.TAG.WR_CTRL.AREA area).tagQueue area s.wrData
  | .host _ _ => s.raise pgTAG .MGMT_PATH

/-- TAG_WR (R480). -/
def execTagWr (p : Path) (area : BitVec 2) (s : State) : Host.Outcome State Fault Refusal :=
  .next (s.onWrite p R.TAG.WR_CTRL.GO.addr 4 none fun s => s.tagWr p area.toNat)

/-! ### RF (R478, R481) -/

/-- A session opens: each commit that the wired queue holds waits from now on, and is counted unless it has been (R481). -/
def State.deferQueue (s : State) : State :=
  if s.on R.TAG.STAT.RF_SESSION then s
  else (s.bump R.TAG.DEFERS (s.tag.queue.filter fun r => !r.waited).length).onTag fun t =>
    { t with queue := t.queue.map fun r => { r with waited := true } }

/-- An RF command is served by `g` within a session, unless the RF side is held. -/
def State.rfCommand (s : State) (g : State → State × RfReply) : State :=
  if s.on R.TAG.STAT.RF_HELD then s
  else
    let a := ((s.deferQueue.wr R.TAG.STAT.RF_FIELD 1).wr R.TAG.STAT.RF_SESSION 1).onTag fun t => { t with lastRf := some s.now }
    (g a).1.emit (.rf (g a).2)

/-- INVENTORY (R478). -/
def execRfInventory (s : State) : Host.Outcome State Fault Refusal :=
  .next (s.rfCommand fun u => (u, .inventory Config.tagUid))

/-- GET SYSTEM INFORMATION (R478). -/
def execGetSystemInformation (s : State) : Host.Outcome State Fault Refusal :=
  .next (s.rfCommand fun u => (u, .info Config.tagUid (tagBytes / 4)))

/-- Blocks `n` to `n + count - 1`. -/
def State.rfRead (s : State) (n count : Nat) : State × RfReply :=
  if tagBytes / 4 < n + count then (s, .unavailable) else (s, .blocks (s.tagRead (4 * n) (4 * count)))

/-- READ SINGLE BLOCK (R478). -/
def execReadSingleBlock (n : BitVec 16) (s : State) : Host.Outcome State Fault Refusal :=
  .next (s.rfCommand fun u => u.rfRead n.toNat 1)

/-- READ MULTIPLE BLOCKS (R478). -/
def execReadMultipleBlocks (n count : BitVec 16) (s : State) : Host.Outcome State Fault Refusal :=
  .next (s.rfCommand fun u => u.rfRead n.toNat count.toNat)

/-- WRITE SINGLE BLOCK (R478): only the technician log takes it. -/
def execWriteSingleBlock (n : BitVec 16) (v : Word) (s : State) : Host.Outcome State Fault Refusal :=
  let a := 4 * n.toNat
  .next (s.rfCommand fun u =>
    if tagBytes ≤ a then (u, .unavailable)
    else if 0x1400 ≤ a ∧ a < 0x1C00 then (u.tagPut a (leBytes 4 v.toNat), .written)
    else (u.bump R.TAG.RF_REFUSED 1, .locked))

/-- 500 ms, in ticks. -/
def rfIdle : Nat := 78125000

/-- RF_SESSION_END (R481): 500 ms after the last RF command, or when the field is lost. -/
def execRfSessionEnd (fieldLost : Bool) (s : State) : Host.Outcome State Fault Refusal :=
  let idle := match s.tag.lastRf with
    | some t => decide (t + rfIdle ≤ s.now)
    | none => false
  let a := if fieldLost then s.wr R.TAG.STAT.RF_FIELD 0 else s
  .next (if s.on R.TAG.STAT.RF_SESSION && (fieldLost || idle) then
      (((a.wr R.TAG.STAT.RF_SESSION 0).wr R.TAG.STAT.RF_HELD 0).onTag fun t => { t with lastRf := none }).irq pgTAG 3
    else a)

/-- 2 s, in ticks. -/
def rfPatience : Nat := 312500000

/-- RF_HOLD (R481): a wired commit has waited 2 s; the RF side is held for one commit. -/
def execRfHold (s : State) : Host.Outcome State Fault Refusal :=
  .next (if s.on R.TAG.STAT.RF_SESSION ∧ !s.on R.TAG.STAT.RF_HELD ∧ s.tag.queue.any (fun r => r.since + rfPatience ≤ s.now) then
      (s.wr R.TAG.STAT.RF_HELD 1).bump R.TAG.RF_HOLDS 1
    else s)

end Sys2Proof.Machine
end

