-- ==== Sys2Proof/Machine/Lead.lean ====
section
/-! DEFINITION. The management cards: lead, standby and takeover (R26, R27, R456 to R460, R477, R482). -/

namespace Sys2Proof.Machine

/-- Changes what management keeps. -/
def State.onMgmt (s : State) (g : MgmtSt → MgmtSt) : State := { s with mgmt := g s.mgmt }

/-- The bit of PORT_STAT for a card's Icord port. -/
def portFld (c : Port) : Fld :=
  match c with
  | .a => R.MGMT.PORT_STAT.LINK_A
  | .b => R.MGMT.PORT_STAT.LINK_B

/-- The firmware of a card stops, or begins to load (R457, R460). -/
def State.stopCard (s : State) (c : Port) : State := s.onMgmt fun m => { m with loads := Cells.put 0 m.loads (portIx c) (s.now + 1) }

/-- The firmware of a card runs. -/
def State.startCard (s : State) (c : Port) : State := s.onMgmt fun m => { m with loads := Cells.put 0 m.loads (portIx c) 0 }

/-- The records in the management flash of a card (R477). -/
def State.flash (s : State) (c : Port) : List LifeRec := Cells.get [] s.life.records (portIx c)

/-- Writes the management flash of a card. -/
def State.setFlash (s : State) (c : Port) (l : List LifeRec) : State :=
  { s with life := { s.life with records := Cells.put [] s.life.records (portIx c) l } }

/-- Shows STANDBY_OK. -/
def State.setStandby (s : State) (b : Bool) : State := (s.flag R.MGMT.ROLE.STANDBY_OK b).flag R.MOD.STATUS.STANDBY_OK b

/-- STANDBY_OK falls (R460). -/
def State.standbyFell (s : State) : State :=
  if s.on R.MGMT.ROLE.STANDBY_OK then (s.setStandby false).raise pgMGMT .STANDBY_LOST else s

/-- A mailbox request ends: its status, and RETRY_MS with BUSY (R466, R467). -/
def State.mboxDone (s : State) (status retry : Nat) : State :=
  let a := ((s.wr R.MGMT.MBOX_STAT.STATE 2).wr R.MGMT.MBOX_STAT.STATUS status).wr R.MGMT.MBOX_STAT.RETRY_MS retry
  (if status = 1 then a.bump R.MGMT.MBOX_BUSY 1 else a).irq pgMGMT 2

/-- The servo loop is absent until a lead writes its heartbeat: the spec gives no event at which a new lead resumes its loops,
only that it does so within 50 ms (R81, R460; DESIGN CHOICE, log entry 64). -/
def State.servoGone (s : State) : State := s.onMgmt fun m => { m with servoOff := true }

/-- The other card becomes lead, if one is present (R458): a mailbox request in progress is answered BUSY. The watchdog
runs on. -/
def State.takeover (s : State) : State :=
  let c := otherCard s.lead
  if !s.on (cardFld c) then s
  else
    let b := decide (c = .b)
    let a := ((s.flag R.MGMT.ROLE.LEAD b).flag R.MOD.STATUS.LEAD_B b).onMgmt fun m => { m with hbAt := s.now, planned := false }
    let d := if a.rd R.MGMT.MBOX_STAT.STATE = 1 then a.mboxDone 1 100 else a
    (((d.bump R.MGMT.TAKEOVERS 1).raise pgMGMT .TAKEOVER).irq pgMGMT 3).journal jTakeover

/-- A card loses its power: its port is down. -/
def State.cardOff (s : State) (c : Port) : State := (s.setRail (.vcard c) false).wr (portFld c) 0

/-- A card leaves its slot, with its management flash (R477; log entry 95). -/
def State.cardOut (s : State) (c : Port) : State := (s.cardOff c).wr (cardFld c) 0

/-- The lead is lost by a loss of its card: the card's part, the takeover, and the standby that there no longer is. -/
def State.leadGone (s : State) (g : State → State) : State := ((g s).servoGone.takeover).standbyFell

/-- 20 ms, in ticks (R458, R460). -/
def ticks20ms : Nat := 3125000

/-- LEAD_LOST (R457, R458): a missing heartbeat counts only while firmware has been started. The firmware of a card that resets or
falls silent has stopped; with no other card it stays so until it writes its heartbeat again. -/
def execLeadLost (why : CardLoss) (s : State) : Host.Outcome State Fault Refusal :=
  .next (if s.modState = 0 then s
    else
      match why with
      | .removed => if s.on (cardFld s.lead) then (s.leadGone fun u => u.cardOut s.lead).journal jPartOut else s
      | .reset => if s.on (cardFld s.lead) then s.leadGone fun u => u.stopCard s.lead else s
      | .rail => if s.cardUp s.lead then s.leadGone fun u => u.cardOff s.lead else s
      | .silent => if s.on R.CFG.FW_READY ∧ s.mgmt.hbAt + ticks20ms ≤ s.now then (s.stopCard s.lead).servoGone.takeover else s)

/-- STANDBY_LOST (R460): the standby is removed, resets or loses its rail, or the last mirror is older than 20 ms. -/
def execStandbyLost (why : CardLoss) (s : State) : Host.Outcome State Fault Refusal :=
  let c := otherCard s.lead
  .next (if s.modState = 0 then s
    else
      match why with
      | .removed => if s.on (cardFld c) then ((s.cardOut c).journal jPartOut).standbyFell else s
      | .reset => if s.on (cardFld c) then (s.stopCard c).standbyFell else s
      | .rail => if s.cardUp c then (s.cardOff c).standbyFell else s
      | .silent => if s.mgmt.mirrorAt + ticks20ms < s.now then s.standbyFell else s)

/-- A card's write of the heartbeat reaches the island: in a planned takeover the standby's first one makes it lead (R459). -/
def State.handover (s : State) (c : Port) : State := if s.mgmt.planned ∧ c ≠ s.lead ∧ s.cardUp c then s.takeover else s

/-- The lead's heartbeat is taken: its firmware runs. -/
def State.beat (s : State) (count : Nat) : State :=
  ((s.startCard s.lead).wr R.MGMT.HEARTBEAT count).onMgmt fun m => { m with hbAt := s.now, servoOff := false }

/-- Both cards act as lead in one clk_mgmt cycle: the island grants lead to card A, and card B reads its role as standby
(R27). -/
def State.grantA (s : State) : State := (s.flag R.MGMT.ROLE.LEAD false).flag R.MOD.STATUS.LEAD_B false

/-- HEARTBEAT (R27, R458, R459): only the lead's writes are taken; in a planned takeover the standby's first one makes it
lead. With `both`, the other card writes one in the same cycle, and card A's is the one that is taken. -/
def execHeartbeat (c : Port) (count : BitVec 32) (both : Bool) (s : State) : Host.Outcome State Fault Refusal :=
  .next (if both ∧ s.cardUp .a ∧ s.cardUp .b then
      s.grantA.onWrite (.sideband .a) R.MGMT.HEARTBEAT.addr 4 none fun u => u.beat count.toNat
    else if !s.cardUp c then s
    else (s.handover c).onWrite (.sideband c) R.MGMT.HEARTBEAT.addr 4 none fun u => u.beat count.toNat)

/-- 120 s, in ticks (R460). -/
def ticks120s : Nat := 120 * Config.ticksPerS

/-- Whether a card has the firmware, or has loaded it and copied the lead's management flash by now: `copied`, or the time that R460
allows it is over. -/
def State.cardReady (s : State) (c : Port) (copied : Bool) : Bool :=
  let t := Cells.get 0 s.mgmt.loads (portIx c)
  decide (t = 0) || copied || decide (t + ticks120s ≤ s.now + 1)

/-- A mirror reaches the standby, whose management flash follows the lead's; an inserted card becomes standby with its first (R460,
R477). -/
def State.mirror (s : State) (copied : Bool) : State :=
  let c := otherCard s.lead
  if s.firmware ∧ s.cardUp c ∧ s.cardReady c copied then
    (((s.startCard c).setFlash c (s.flash s.lead)).setStandby true).onMgmt fun m => { m with mirrorAt := s.now }
  else s

/-- MIRROR (R460): `copied` if an inserted standby has loaded its firmware and copied the lead's management flash. -/
def execMirror (copied : Bool) (s : State) : Host.Outcome State Fault Refusal := .next (s.mirror copied)

/-- A planned takeover is ordered (R459): with a final mirror; the standby's first heartbeat completes it. Writes from a
host port are ignored (R490). -/
def State.planTakeover (s : State) (p : Path) : State :=
  if !pathSide p then s
  else if s.on R.MGMT.ROLE.STANDBY_OK then (s.mirror false).onMgmt fun m => { m with planned := true, servoOff := true }
  else s.raise pgMGMT .TAKEOVER_REFUSED

/-- PLANNED_TAKEOVER (R459). -/
def execPlannedTakeover (p : Path) (s : State) : Host.Outcome State Fault Refusal :=
  .next (s.onWrite p R.MGMT.TAKEOVER_CTRL.addr 4 none fun s => s.planTakeover p)

end Sys2Proof.Machine
end

