-- ==== Sys2Proof/Machine/Fused.lean ====
section
/-! DEFINITION. The fuses, the entry to FUSED after a power-on event or a warm reset, and FAULT (R425, R434 to R437, R447
to R449, R453, R454, R472, R473). -/

namespace Sys2Proof.Machine

/-! ### Fuses (R434) -/

/-- The lowest `n` bits of a value, bit 0 first. -/
def bitsLow (n v : Nat) : List Bool := (List.range n).map v.testBit

/-- The fuse bits under the fuse CRC, in the order of the table: all but the revocation, the security version and the CRC
itself. -/
def Fuses.bits (f : Fuses) : List Bool :=
  bitsLow 64 f.serial ++ bitsLow 27 f.variant ++ bitsLow 8 f.stepping ++ bitsLow 8 f.profiles ++
    ((List.range 48).flatMap fun i => bitsLow 7 (Cells.get 0 f.spares i)) ++
    ((List.range 84).flatMap fun d => bitsLow 10 (Cells.get 0 f.trims d)) ++
    ((List.range 84).flatMap fun d => bitsLow 16 (Cells.get 0 f.paths d)) ++
    bitsLow 16 f.cBus ++ bitsLow 16 f.flowMin ++ bitsLow 384 f.hash0 ++ bitsLow 384 f.hash1

/-- One bit of the CRC-32C of R372. -/
def crcFeed (c : BitVec 32) (b : Bool) : BitVec 32 := crcBit (if b then c ^^^ 1#32 else c)

/-- The CRC that a module's fuses must carry. -/
def Fuses.seal (f : Fuses) : Nat := (f.bits.foldl crcFeed 0xFFFFFFFF#32 ^^^ 0xFFFFFFFF#32).toNat

/-- The registers that report the fuses. -/
def Fuses.fields (f : Fuses) : List (Fld × Nat) :=
  [(R.MOD.VARIANT.STACKS, f.variant), (R.MOD.VARIANT.LINKS, f.variant / 2 ^ 8), (R.MOD.VARIANT.FLASH_SLEDS, f.variant / 2 ^ 16),
   (R.MOD.VARIANT.GRADE, f.variant / 2 ^ 24), (R.FLASH.CAPS.SLEDS, f.variant / 2 ^ 16 % 8), (R.PG.VER.PROFILES pgMOD, f.profiles),
   (R.FUSE.SERIAL, f.serial), (R.FUSE.STEPPING.STEP, f.stepping), (R.FUSE.STEPPING.PROFILES, f.profiles),
   (R.FUSE.KEY_STAT.REVOKE0, if f.revoke0 then 1 else 0), (R.FUSE.SVN, f.svn), (R.FUSE.CRC, f.crc),
   (R.PWR.FLOW_MIN, f.flowMin)] ++
  ((List.range 16).map fun e =>
    (R.SILL.CAPS2.STACKS e, ([2 * e, 2 * e + 1].filter (stackFitted (f.variant % 2 ^ 8))).length)) ++
  ((List.range 12).flatMap fun w => [(R.FUSE.KEY_HASH0 w, f.hash0 / 2 ^ (32 * w)), (R.FUSE.KEY_HASH1 w, f.hash1 / 2 ^ (32 * w))]) ++
  ((List.range 84).flatMap fun d =>
    [(R.PDOM.VTARGET.FUSE_MV d, Cells.get 0 f.trims d), (R.PDOM.PATH d, Cells.get 0 f.paths d)])

/-- Shows the fuses, the factory spare map among them. -/
def State.showFuses (s : State) : State :=
  let a := s.fuses.fields.foldl (fun u x => u.wr x.1 x.2) s
  (List.range 48).foldl (fun u i =>
    let e := Cells.get 0 s.fuses.spares i
    if e.testBit 6 then u.addFailed (i / 2) (e % 64) false else u) a

/-! ### Ledgers (R425, R470 to R473) -/

/-- The register fields of the ledgers: LEDG.STATE, the token totals and event counters, and the charge accounts of PWR and
PDOM. -/
def ledgerKey (k : Nat) : Bool :=
  let a := k / 64
  let o := a % 0x1000
  match pageAt a with
  | some (.LEDG, _) => decide (o = 0x80 ∨ 0xB8 ≤ o)
  | some (.PWR, _) => decide (0x200 ≤ o ∧ o < 0x400)
  | some (.PDOM, _) => decide (0x100 ≤ o ∧ o < 0x110)
  | _ => false

/-- The states of the ledger kinds: charge, link, token, move, event. -/
def ledgerKinds : List Fld := [R.LEDG.STATE.CHARGE, R.LEDG.STATE.LINK, R.LEDG.STATE.TOKEN, R.LEDG.STATE.MOVE, R.LEDG.STATE.EVENT]

/-- The island seals every kind (R472); a Drydown's seal closes the ledgers, and a reconciled kind becomes continuous
(R473). -/
def State.seal (s : State) (closed : Bool) : State :=
  let a := if closed then ledgerKinds.foldl (fun u f => if u.rd f = 3 then u.wr f 0 else u) s else s
  let n := (s.rd R.LEDG.SEAL_SEQ + 1) % 2 ^ 32
  let x : Seal := ⟨n, s.time, closed, Cells.clear a.regs.cells fun k => !ledgerKey k, s.island.links, s.island.releases⟩
  ((a.onIsland fun i => { i with seals := (x :: i.seals).take 2 }).wr R.LEDG.SEAL_SEQ n).wr R.LEDG.SEAL_TICK s.time

/-- A kind is open at FUSED (R473). -/
def State.openKind (s : State) (i : Nat) : State :=
  (s.wr (ledgerKinds.getD i R.LEDG.STATE.CHARGE) 1).raise pgLEDG .LEDGER_OPEN i

/-! ### The entry to FUSED (R437, R447 to R449) -/

/-- Fields that every start keeps: what the module is fitted with, what its sleds report, its RF side, and the record of
the last Drydown. -/
def keptAlways : List Fld :=
  [R.PWR.CASS_MAP.PRESENT, R.PWR.COOL_STAT.A_PRESENT, R.PWR.COOL_STAT.B_PRESENT, R.MGMT.ROLE.A_PRESENT,
   R.MGMT.ROLE.B_PRESENT, R.MGMT.PORT_STAT.LINK_A, R.MGMT.PORT_STAT.LINK_B, R.TAG.STAT.RF_FIELD, R.TAG.STAT.RF_SESSION,
   R.TAG.STAT.RF_HELD, R.PWR.DD_LAST.CAUSE, R.PWR.DD_LAST.STEP, R.PWR.DD_LAST.COMPLETE, R.PWR.DD_RAILS, R.LEDG.SEAL_SEQ,
   R.LEDG.SEAL_TICK] ++
  ((List.range 4).flatMap fun i => [R.FLASH.SLED_STAT.PRESENT i, R.FLASH.SLED_STAT.WORN i, R.FLASH.SLED_STAT.FOREIGN i,
    R.FLASH.SLED_STAT.SPARE_PCT i, R.FLASH.SLED_STAT.ERASE_MAX i]) ++
  ((List.range 48).map fun k => R.LINK.STAT.OPTIC k)

/-- Fields that a warm reset keeps too: TIME and its clock, the hold-up store, the cassettes and the ceilings (R447,
R448). -/
def keptWarm : List Fld :=
  [R.TB.TIME, R.TB.SNAP_SEQ, R.TB.STAT.SET_DONE, R.CLK.STATUS.REF_OK, R.CLK.STATUS.HOLDOVER, R.CLK.STATUS.REF_PPM, R.CLK.STEER,
   R.PWR.STAT.HOLDUP_OK, R.PWR.CASS_MAP.HEALTHY, R.PWR.STAT.CASS_OK, R.MOD.STATUS.CASSETTES, R.MOD.STATUS.CASS_LOW,
   R.PWR.SUPPLY_CEIL, R.PWR.STAT.LEDGER_OPEN]

/-- The register fields at the entry to FUSED, before the fuses are shown. -/
def State.fusedCells (s : State) (warm ledger : Bool) : Cells Nat :=
  let keys := (keptAlways ++ if warm then keptWarm else []).map Fld.key
  Cells.clear s.regs.cells fun k => !(keys.contains k || (ledger && ledgerKey k))

/-- Keys of the flash tier, for cells of `unit` bytes. -/
def flashKey (unit k : Nat) : Bool := decide (2 ^ 46 ≤ k * unit)

/-- The tiers at the entry to FUSED: sled data and records stand, and host memory is the host's (R447). -/
def State.fusedMem (s : State) : MemSt :=
  let sleds := (List.range 4).filter fun i => s.on (R.FLASH.SLED_STAT.ATTACHED i)
  { State.reset.mem with
    bytes := Cells.clear s.mem.bytes fun k => !flashKey 1 k
    poison := Cells.clear s.mem.poison fun k => !flashKey 64 k
    blkBad := Cells.clear s.mem.blkBad fun k => !flashKey 512 k
    flaws := Cells.clear s.mem.flaws fun k => !flashKey 8 k
    badSeal := Cells.clear s.mem.badSeal fun k => !flashKey 512 k
    sledRec := sleds.foldl (fun m i => Cells.put [] m i (s.sledRecords i)) s.mem.sledRec
    extra := s.mem.extra
    host := s.mem.host }

/-- What the island holds at the entry to FUSED (R425, R447, R469): the ledgers and pending releases of its SRAM, or else
those of the last seal; no MOVE waits for a release any more. The seal no longer closes a ledger that runs again. -/
def State.fusedIsland (s : State) (warm ledger : Bool) : IslandSt :=
  let i := s.island
  let old := if ledger then (i.links, i.releases) else
    match i.seals with
    | x :: _ => (x.links, x.releases)
    | [] => ([], [])
  { i with
    queue := [], rseq := 0, overflow := 0, zeros := [], zeroAt := s.now
    log := if warm then i.log else []
    links := old.1.map fun x => (x.1, { x.2 with lost := 0, answered := x.2.peer.isNone, atFused := (x.2.tx, x.2.rx) })
    releases := old.2.map fun r => { r with owner := none }
    seals := i.seals.map fun x => { x with closed := false } }

/-- Cold, the cassettes present that were not refused soft-start again (R400). -/
def State.restarted (s : State) : Cells Nat :=
  (List.range 14).foldl (fun m i =>
    if (s.rd R.PWR.CASS_MAP.PRESENT).testBit i ∧ !s.power.cassRefused.testBit i then Cells.put 0 m i (s.now + 1) else m) []

/-- The state at the entry to FUSED, before the fuses are shown and checked. -/
def State.fusedBase (s : State) (warm ledger : Bool) : State :=
  let t := s.now
  { State.reset with
    pending := s.pending, free := s.free, out := s.out, fuses := s.fuses, life := s.life
    regs := { State.reset.regs with cells := s.fusedCells warm ledger }
    clk := { State.reset.clk with edges := s.clk.edges }
    mem := s.fusedMem
    fab := { State.reset.fab with moveIn := Cells.clear s.fab.moveIn fun g => !flashKey granBytes g }
    tag := { s.tag with queue := if ledger then s.tag.queue else [] }
    island := s.fusedIsland warm ledger
    power := { State.reset.power with
      inserted := if warm then s.power.inserted else s.restarted
      cassOff := if warm then s.power.cassOff else
        (List.range 14).foldl (fun m i => if (s.rd R.PWR.CASS_MAP.PRESENT).testBit i then setBit m i false else m) s.power.cassOff
      cassRefused := s.power.cassRefused, cassNew := s.power.cassNew }
    boot := { State.reset.boot with
      entered := t, vcardAt := if warm then s.boot.vcardAt else t, wdogAt := if warm then s.boot.wdogAt else none
      prefer := s.boot.prefer, images := s.boot.images }
    mgmt := { State.reset.mgmt with hbAt := t, mirrorAt := t } }

/-- The ledger fields of a seal. -/
def State.fromSeal (s : State) (x : Seal) : State :=
  { s with regs := { s.regs with cells := x.cells.foldl (fun m c => Cells.insert (Cells.drop m c.1) c.1 c.2) s.regs.cells } }

/-- The ledgers without their SRAM: those of the last seal, open unless the last Drydown made it (R425). -/
def State.restoreLedger (s : State) (last : Option Seal) : State :=
  let a := match last with
    | some x => s.fromSeal x
    | none => s
  if last.any Seal.closed then a else [0, 1, 2, 4].foldl State.openKind (a.wr R.PWR.STAT.LEDGER_OPEN 1)

/-- FAULT (R454): the rails of groups 1 to 8 are off. -/
def State.enterFault (s : State) : State :=
  ((s.onPower fun x => { x with rails := Cells.clear x.rails fun k => decide (128 ≤ k ∧ k < 9 * 128) }).wr R.MOD.STATE 8).wr
    R.CFG.BOOT_STAT.STEP 0

/-- A cage with an accepted optic is DOWN at FUSED (R353). -/
def State.showCages (s : State) : State :=
  (List.range 48).foldl (fun u k => if u.on (R.LINK.STAT.OPTIC k) then u.wr (R.LINK.STAT.STATE k) 1 else u) s

/-- The island's random source gives NOSE.SAMPLE_SEED (R380): a free value (log entry 4). -/
def State.drawSeed (s : State) : State := s.fresh.2.wr R.NOSE.SAMPLE_SEED s.fresh.1

/-- The module enters FUSED (R437): `warm` after a warm reset, `sram` if the always-on SRAM is intact after a power-on. -/
def State.toFused (s : State) (warm sram : Bool) : State :=
  let ledger := warm || sram
  let a := (s.fusedBase warm ledger).showTag.showFuses.showCages.drawSeed
  let b := ((a.wr R.CLK.STATUS.LOCK 1).flag R.CFG.BOOT_STAT.WARM warm).wr R.CFG.BOOT_CTRL.PREFER s.boot.prefer
  let c := if warm then b.showCeil else b.wr R.CLK.STATUS.REF_OK 1
  let lead := !c.on R.MGMT.ROLE.A_PRESENT && c.on R.MGMT.ROLE.B_PRESENT
  let d := (c.flag R.MGMT.ROLE.LEAD lead).flag R.MOD.STATUS.LEAD_B lead
  let e := if ledger then d else d.restoreLedger s.island.seals.head?
  let f := e.wr R.CFG.PREL.SRC_PENDING e.island.releases.length
  let g := if f.island.releases = [] then f else f.openKind 3
  if s.fuses.seal = s.fuses.crc then g.wr R.FUSE.CRC_STAT 1 else (g.raise pgFUSE .FUSE_CRC).enterFault

end Sys2Proof.Machine
end

