-- ==== Sys2Proof/Machine/Drydown.lean ====
section
/-! DEFINITION. Drydown and the stop of a warm reset, rail failures, and what starts them (R22, R67, R399 to R403, R421,
R425 to R429, R448, R517). -/

namespace Sys2Proof.Machine

/-! ### The start (R426) -/

/-- Adds an entry to the always-on log. -/
def State.logEntry (s : State) (e : LogEntry) : State := s.onIsland fun i => { i with log := i.log ++ [e] }

/-- Changes what the lifetime records keep. -/
def State.onLife (s : State) (g : LifeSt → LifeSt) : State := { s with life := g s.life }

/-- The number of a step in R427; the six field rows of step 6 are steps 6 to 11 here. -/
def ddStep (n : Nat) : Nat := if n ≤ 6 then n else if n ≤ 11 then 6 else n - 5

/-- The last step of R427 that is complete once step `n` has run: step 6 ends with its last field row. -/
def ddDone (n : Nat) : Nat := if n ≤ 5 then n else if n ≤ 10 then 5 else n - 5

/-- DRYDOWN begins with a cause code. The stop of a warm reset is taken over at the step it has reached (R448). -/
def State.beginDrydown (s : State) (cause : Nat) : State :=
  let d : Drydown := match s.power.dry with
    | some d => { d with warm := false, cause := cause }
    | none => ⟨s.now, 1, s.now, false, cause⟩
  let a := (((s.wr R.MOD.STATE 7).wr R.PWR.DD_LAST.CAUSE cause).wr R.PWR.DD_LAST.STEP (ddDone (d.next - 1))).wr R.PWR.DD_LAST.COMPLETE 0
  let b := (a.wr R.PWR.DD_RAILS 0).wr R.CFG.BOOT_STAT.STEP 0
  let c := ((b.onPower fun x => { x with dry := some d }).onLife fun l => { l with cycles := l.cycles + 1, hot := false }).journal jDrydown
  match s.power.dry with
  | some _ => c
  | none => c.leave

/-- A start of Drydown: in DRYDOWN it is only logged (R426). -/
def State.startDrydown (s : State) (cause : Nat) : State :=
  if s.modState = 0 then s
  else if s.modState = 7 then s.logEntry (.start s.time cause)
  else s.beginDrydown cause

/-- A start whose cause raises error `e`. -/
def State.orderDrydown (s : State) (pg : Nat) (e : Err) (src : Nat) : State :=
  if s.modState = 0 ∨ s.modState = 7 then s.startDrydown e.code else (s.raise pg e src).startDrydown e.code

/-- A start whose cause the spec gives no code: a failed rail, the loss of the busbar, or too few cassettes (log entry
4). -/
def State.powerDrydown (s : State) : State :=
  let x := s.fresh
  x.2.startDrydown (x.1 % 2 ^ 16)

/-- DRYDOWN_REQUEST (R426): DRYDOWN_CTRL.GO. -/
def execDrydownRequest (p : Path) (s : State) : Host.Outcome State Fault Refusal :=
  .next (s.onWrite p R.PWR.DRYDOWN_CTRL.addr 4 none fun s => s.orderDrydown pgPWR .DD_REQUESTED 0)

/-- RACK_OFF (R426, R517): RACK_OFF_N low for `ticks` ticks. -/
def execRackOff (ticks : Nat) (s : State) : Host.Outcome State Fault Refusal :=
  .next (if 4 ≤ ticks then s.orderDrydown pgPWR .DD_REQUESTED 0 else s)

/-- PLL_UNLOCK (R67): above FUSED. -/
def execPllUnlock (s : State) : Host.Outcome State Fault Refusal :=
  .next (if s.modState ≤ 1 then s else (s.wr R.CLK.STATUS.LOCK 0).orderDrydown pgCLK .PLL_UNLOCK 0)

/-- THERMAL_TRIP (R421): the reading is at shed too. -/
def execThermalTrip (r : Reading) (s : State) : Host.Outcome State Fault Refusal :=
  .next (if s.modState ≠ 0 ∧ (s.levels r).trip ≤ readingValue r then
      (((s.showReading r).enterShed).onLife fun l => { l with trips := l.trips + 1 }).orderDrydown pgPWR .THERM_TRIP 0
    else s)

/-- What follows from a count of healthy cassettes that has fallen (R401): at two every partition is parked, with fewer Drydown
starts. -/
def State.afterLoss (s before : State) : State :=
  if s.healthy ≤ 1 ∧ s.healthy < before.healthy then s.powerDrydown
  else if s.healthy = 2 ∧ 2 < before.healthy then s.forcedPark else s

/-- Whether BUS54 at `mv` mV for `ticks` ticks turns every cassette off: absent, below 44.0 V for 10 ms, or above 60.0 V for 100 µs
(R403, R505). -/
def busOut (mv ticks : Nat) : Bool :=
  decide (mv = 0 ∨ (mv < 44000 ∧ 10 * Config.ticksPerMs ≤ ticks) ∨ (60000 < mv ∧ 15625 ≤ ticks))

/-- CASSETTE_REMOVE (R400 to R403, R426, R505): cassettes stop being healthy (`lost`), leave (`removed`) or complete their
soft-start (`gained`), all in one cycle; `bus` is the level of BUS54 at the clip, in mV, and for how many ticks: one that turns every
cassette off starts Drydown. -/
def execCassetteRemove (lost removed gained : BitVec 14) (bus : Option (Nat × Nat)) (s : State) : Host.Outcome State Fault Refusal :=
  .next (if bus.any fun b => busOut b.1 b.2 then (s.loseCassettes 0x3FFF removed.toNat 0).powerDrydown
    else (s.loseCassettes lost.toNat removed.toNat gained.toNat).afterLoss s)

/-! ### Rails that go off (R22, R399) -/

/-- The tiles of a core domain lose their power: remote writes that have not landed are lost. -/
def State.tilesOff (s : State) (d : Nat) : State :=
  let dead := fun (t : Nat) => decide (t / 160 = d / 14 ∧ s.tileDomain t = d)
  (({ s with tile := { s.tile with landing := s.tile.landing.filter fun l => !dead l.tile } }).onStream fun m =>
    { m with drops := m.drops.filter fun x => !dead x.tile }).wr (R.PDOM.STAT.STATE d) 0

/-- A rail is off, with what it feeds. -/
def State.railDown (s : State) (r : Rail) : State :=
  let a := s.setRail r false
  match r with
  | .vopt k => a.linkDown k
  | .vcore d => a.tilesOff d
  | _ => a

/-- The rails of each group. -/
def groupRails (g : Nat) : List Rail :=
  match g with
  | 0 => [.bus12]
  | 1 => (List.finRange 48).map .vopt
  | 2 => (List.finRange 12).map .vio
  | 3 => (List.finRange 4).map .vstk
  | 4 => (List.finRange 4).map .vedge
  | 5 => (List.finRange 84).map .vcore
  | 6 => [.vdram]
  | 7 => [.vpp]
  | 8 => (List.finRange 4).map .vsled
  | _ => [.vcard .a, .vcard .b]

/-- The dependents of a rail (R399). -/
def dependents (r : Rail) : List Rail :=
  match r with
  | .bus12 => (List.range 9).flatMap fun g => groupRails (g + 1)
  | .vio i => (List.finRange 48).filterMap fun k => if k.val / 4 = i.val then some (.vopt k) else none
  | .vedge e => [.vstk e]
  | .vpp => [.vdram]
  | _ => []

/-- Records a rail's group in DD_RAILS. -/
def State.ddRail (s : State) (r : Rail) : State := s.wr R.PWR.DD_RAILS (s.rd R.PWR.DD_RAILS ||| 2 ^ railGroup r)

/-- A rail fails in Drydown: it and its dependents that are on are crowbarred and recorded. -/
def State.crowbar (s : State) (r : Rail) : State :=
  ((r :: dependents r).filter s.railOn).foldl (fun u x => (u.railDown x).ddRail x) s

/-- An I/O die fails (R22): its four links go down. -/
def State.iodieFail (s : State) (i : Fin 12) : State :=
  let a := (s.wr R.MOD.IODIE_FAIL (s.rd R.MOD.IODIE_FAIL ||| 2 ^ i.val)).wr R.MOD.STATUS.IODIE_FAILED 1
  (List.range 4).foldl (fun u j => u.linkDown (4 * i.val + j)) a

/-- IODIE_FAIL (R22). -/
def execIodieFail (i : Fin 12) (s : State) : Host.Outcome State Fault Refusal :=
  .next (if s.modState ≠ 0 ∧ s.fitted (pgLINK (4 * i.val)) ∧ !(s.rd R.MOD.IODIE_FAIL).testBit i then s.iodieFail i else s)

/-- The stacks of an edge fail (R278, R399). -/
def State.edgeFails (s : State) (e : Nat) : State :=
  ((List.range 32).filter fun k => decide (k / 8 = e) && s.fitted (pgSTACK k) && !s.on (R.STACK.STAT.FAILED k)).foldl State.failStack s

/-- A rail that is on fails outside Drydown (R399): its dependents go off with it, and what it feeds is lost. -/
def State.railFails (s : State) (r : Rail) : State :=
  match r with
  | .bus12 | .vdram | .vpp => s.powerDrydown.crowbar r
  | .vopt _ => s.railDown r
  | .vio i => ((r :: dependents r).foldl State.railDown s).iodieFail i
  | .vstk e => (s.railDown r).edgeFails e
  | .vedge e => ((r :: dependents r).foldl State.railDown s).edgeFails e
  | .vcore d => s.domainFault d
  | .vsled i => (if s.on (R.FLASH.SLED_STAT.ATTACHED i) then s.sledLost i else s).railDown r
  | .vcard c => if c = s.lead then s.leadGone fun u => u.cardOff c else (s.cardOff c).standbyFell

/-- RAIL_FAIL (R399, R428, R448): a rail that should be on has been outside its limits for 100 µs. In Drydown, which a
failure in the stop of a warm reset starts, its dependents are crowbarred. -/
def execRailFail (r : Rail) (s : State) : Host.Outcome State Fault Refusal :=
  .next (if s.modState = 0 ∨ !s.railOn r then s
    else if s.modState = 7 then (s.crowbar r).raise pgPWR .DD_RAIL_FAIL (railGroup r)
    else if s.power.dry.isSome then (s.powerDrydown.crowbar r).raise pgPWR .DD_RAIL_FAIL (railGroup r)
    else s.railFails r)

/-! ### The steps (R427 to R429, R448) -/

/-- The rails that a step switches off: 2 to 5 VOPT to VEDGE, 6 to 11 the field rows of VCORE, 12 VDRAM, 13 VPP, 14 VSLED, 15
VCARD and BUS12. -/
def stepRails (n : Nat) : List Rail :=
  match n with
  | 2 => groupRails 1
  | 3 => groupRails 2
  | 4 => groupRails 3
  | 5 => groupRails 4
  | 12 => groupRails 6
  | 13 => groupRails 7
  | 14 => groupRails 8
  | 15 => groupRails 9 ++ [.bus12]
  | n => if 6 ≤ n ∧ n ≤ 11 then
      (List.finRange 84).filterMap fun d => if d.val / 14 = n - 6 then some (.vcore d) else none
    else []

/-- The time of a step after T0, for the steps that have one. -/
def stepTime (n : Nat) : Nat :=
  if n ≤ 5 then 156250 * n else if n ≤ 11 then 937500 + 312500 * (n - 6) else if n = 12 then 3125000
  else if n = 13 then 3281250 else 7812500

/-- Whether the next step may begin: `flushed` if every attached sled has acknowledged its flush, `low` if BUS12 is below
1.2 V. Step 12 follows once the Drydown record has left the tag's queue. -/
def State.stepDue (s : State) (d : Drydown) (flushed low : Bool) : Bool :=
  let sleds := (List.range 4).any fun i => s.on (R.FLASH.SLED_STAT.ATTACHED i)
  if d.next ≤ 13 then decide (d.t0 + stepTime d.next ≤ s.now)
  else if d.next = 14 then flushed || !sleds || decide (d.t0 + stepTime 14 ≤ s.now)
  else if d.next = 15 then decide (d.last + 156250 ≤ s.now)
  else if d.next = 16 then low
  else !s.tag.queue.any fun r => decide (r.area = 3)

/-- The rails of a step go off; those of the groups in `stuck` do not fall in time and are crowbarred. A step whose rails
are already off is logged. -/
def State.stepOff (s : State) (n stuck : Nat) : State :=
  let rs := stepRails n
  if rs = [] then s
  else if !rs.any s.railOn then s.logEntry (.railOff s.time (ddStep n))
  else (rs.filter s.railOn).foldl (fun u r => let v := u.railDown r; if stuck.testBit (railGroup r) then v.ddRail r else v) s

/-- The type of a last record (R479). -/
def lastRecord : Nat := 0x0401

/-- Step 11 (R425, R427, R429): the ledgers are sealed and closed, and the Drydown record goes to the log and to the tag,
where an RF session defers it. -/
def State.lastRecords (s : State) (cause : Nat) : State :=
  let a := (s.seal true).logEntry (.drydown s.time cause (s.rd R.PWR.DD_RAILS))
  let x := a.openBytes 12
  if x.2.on R.TAG.STAT.RF_SESSION then x.2.queueTag 3 lastRecord x.1
  else (x.2.tagCommit ⟨3, lastRecord, s.rd R.TB.STAT.SET_DONE, s.time, x.1, s.now, 0, false⟩).lastRecordDone 3

/-- The module is OFF. -/
def State.enterOff (s : State) : State :=
  (s.onPower fun x => { x with dry := none, rails := [] }).wr R.MOD.STATE 0

/-- Each attached sled is told to flush its journal (R427). -/
def State.flushSleds (s : State) : State :=
  ((List.range 4).filter fun i => s.on (R.FLASH.SLED_STAT.ATTACHED i)).foldl (fun u i => u.emit (.sledFlush i)) s

/-- What a step does beside its rails. -/
def State.stepActs (s : State) (d : Drydown) : State :=
  if d.next = 1 then s.flushSleds.onPower fun x => { x with frozen := true }
  else if d.next = 16 then s.lastRecords d.cause
  else if d.next = 17 then s.enterOff
  else s

/-- The hold-up store is lost before step 11 is complete: the ledger stays open (R429). -/
def State.holdupLost (s : State) : State :=
  (s.onIsland fun i => { i with seals := i.seals.map fun x => { x with closed := false } }).enterOff

/-- One step of Drydown, or of the stop of a warm reset, which enters FUSED one step after step 9 and leaves DD_LAST as it
is. -/
def State.dryStep (s : State) (d : Drydown) (stuck : Nat) : State :=
  if d.warm ∧ d.next = 15 then s.toFused true true
  else
    let a := s.onPower fun x => { x with dry := some { d with next := d.next + 1, last := s.now } }
    let b := if d.warm ∨ 16 ≤ d.next then a else a.wr R.PWR.DD_LAST.STEP (ddDone d.next)
    (b.stepOff d.next stuck).stepActs d

/-- DRYDOWN_STEP (R427, R429, R448). -/
def execDrydownStep (flushed low : Bool) (stuck : BitVec 10) (holdup : Bool) (s : State) : Host.Outcome State Fault Refusal :=
  .next (match s.power.dry with
    | none => s
    | some d =>
      if !holdup ∧ !d.warm then if s.on R.PWR.DD_LAST.COMPLETE then s.enterOff else s.holdupLost
      else if s.stepDue d flushed low then s.dryStep d stuck.toNat
      else s)

/-! ### Warm reset and power-on (R436, R448, R517) -/

/-- A warm reset is ordered (R448): refused by nothing but OFF and DRYDOWN; one that has begun goes on. -/
def State.warmReset (s : State) : State :=
  if s.modState = 0 ∨ s.modState = 7 ∨ s.power.dry.isSome then s
  else
    let a := ((s.wr R.MOD.STATE 1).wr R.CFG.BOOT_STAT.WARM 1).wr R.CFG.BOOT_STAT.STEP 0
    ((a.onPower fun x => { x with dry := some ⟨s.now, 1, s.now, true, 0⟩ }).journal jWarm).leave

/-- WARM_RESET (R448): RESET_CTRL with OP warm. -/
def execWarmReset (p : Path) (s : State) : Host.Outcome State Fault Refusal :=
  .next (s.onWrite p R.CFG.RESET_CTRL.GO.addr 4 none fun s => (s.wr R.CFG.RESET_CTRL.OP 1).warmReset)

/-- POWER_ON (R436, R437, R517): `sram` if the always-on SRAM is still intact. BUS54 rises at a present cassette while
RACK_OFF_N is high; or RACK_OFF_N rises after at least 1 ms low while BUS54 is present. -/
def execPowerOn (ev : PowerEvent) (sram : Bool) (s : State) : Host.Outcome State Fault Refusal :=
  let on := match ev with
    | .bus54 i rackHigh => (s.rd R.PWR.CASS_MAP.PRESENT).testBit i && rackHigh
    | .rackOff low bus54 => decide (156250 ≤ low) && bus54
  .next (if s.modState = 0 && on then s.toFused false sram else s)

end Sys2Proof.Machine
end

