-- ==== Sys2Proof/Machine/Bringup.lean ====
section
/-! DEFINITION. From FUSED to READY (R437 to R445), partitions run and quiesced (R431, R432), host parking (R450), the
watchdog (R451) and the end of pending releases (R453). -/

namespace Sys2Proof.Machine

/-- Changes what bring-up keeps. -/
def State.onBoot (s : State) (g : BootSt → BootSt) : State := { s with boot := g s.boot }

/-! ### FUSED to ENFLEURAGE (R437) -/

/-- ENFLEURAGE_ENTRY (R399, R437): `holdup` and `bus12` say that the hold-up store is charged and that BUS12 is within its
limits. -/
def execEnfleurageEntry (holdup bus12 : Bool) (s : State) : Host.Outcome State Fault Refusal :=
  .next (if s.modState ≠ 1 ∨ s.power.dry.isSome then s
    else
      let a := s.flag R.PWR.STAT.HOLDUP_OK holdup
      if a.on R.FUSE.CRC_STAT ∧ a.on R.CLK.STATUS.LOCK ∧ holdup ∧ bus12 ∧ a.railOn .bus12 ∧ !a.on R.CFG.BOOT_CTRL.HOLD_FUSED ∧
          a.boot.vcardAt + ticks100ms ≤ a.now then
        ((a.wr R.MOD.STATE 2).wr R.CFG.BOOT_STAT.STEP 1).onBoot fun b =>
          { b with entered := a.now, turn := 0, tried := 0, loadAt := none, done := 0, linksAt := 0 }
      else a)

/-! ### Steps of Enfleurage (R442) -/

/-- Whether steps have ended; bit 0 of the mask is the reading of the SFDP table (R438). -/
def State.ended (s : State) (ns : List Nat) : Bool := ns.all s.boot.done.testBit

/-- A step ends. STEP shows the lowest step in progress; the watchdog runs from step 3, and one that runs is not restarted
(R451). -/
def State.endStep (s : State) (n : Nat) : State :=
  let a := s.onBoot fun b => { b with done := b.done ||| 2 ^ n }
  let low := ((List.range 8).find? fun i => decide (1 ≤ i) && !a.boot.done.testBit i).getD 7
  let b := a.wr R.CFG.BOOT_STAT.STEP low
  if a.ended [1, 2] ∧ !s.ended [1, 2] then b.onBoot fun x => { x with wdogAt := x.wdogAt.or (some s.now) } else b

/-- The rails of each turn of the sequencer. -/
def turnRails (n : Nat) : List Rail :=
  match n with
  | 0 => groupRails 7
  | 1 => groupRails 6
  | 8 => groupRails 4
  | 9 => groupRails 3
  | 10 => groupRails 2
  | 11 => groupRails 1
  | 12 => groupRails 8
  | n => stepRails (n + 4)

/-- Whether a rail feeds a position that the fuses declare: no sled beyond the fused count is powered (R6). -/
def State.railUsed (s : State) (r : Rail) : Bool :=
  match r with
  | .vsled i => s.sledPosition i
  | _ => true

/-- A rail rises; a core domain with its eight phases and the spare, at the park target. -/
def State.railUp (s : State) (r : Rail) : State :=
  let a := s.setRail r true
  match r with
  | .vcore d =>
    ((a.wr (R.PDOM.STAT.PHASES_OK d) 9).onPower fun x =>
      { x with slews := Cells.put ⟨0, 0, 0⟩ x.slews d ⟨parkMv, parkMv, s.now⟩ }).steerDom d
  | _ => a

/-- RAIL_TURN (R442 step 1): at its time a turn checks the rail before it, and raises its own; a thirteenth check ends the
step. -/
def execRailTurn (ok : Bool) (s : State) : Host.Outcome State Fault Refusal :=
  let n := s.boot.turn
  .next (if s.modState ≠ 2 ∨ 13 < n ∨ s.now < s.boot.entered + 156250 * n then s
    else if 1 ≤ n ∧ !ok then
      (s.raise pgPWR .RAIL_UP_FAIL (((turnRails (n - 1)).head?.map railGroup).getD 0)).enterFault
    else
      let a := s.onBoot fun b => { b with turn := n + 1 }
      if n = 13 then a.endStep 1 else ((turnRails n).filter s.railUsed).foldl State.railUp a)

/-! ### Images (R435, R438 to R441) -/

/-- `n` bytes of an image slot from an offset; an erased byte reads 0xFF. -/
def State.image (s : State) (slot a n : Nat) : List Byte :=
  (List.range n).map fun i => Cells.get 0xFF#8 s.boot.images (slot * 2 ^ 25 + a + i)

/-- A header field of `n` bytes. -/
def State.header (s : State) (slot a n : Nat) : Nat := leNat (s.image slot a n)

/-- The number of the first check of R440 that a slot fails, if any. -/
def State.imageFault (s : State) (slot : Nat) : Option Nat :=
  let f := s.fuses
  let key := s.header slot 12 1
  let pub := s.image slot 128 96
  let hash := if key = 0 then f.hash0 else f.hash1
  let len := s.header slot 16 8
  if s.header slot 0 4 ≠ 0x4B57494D ∨ s.header slot 4 4 ≠ 1 then some 1
  else if 1 < key ∨ (key = 0 ∧ f.revoke0) ∨ (Config.sha384 pub).toNat ≠ hash then some 2
  else if !Config.ecdsaOk pub (s.image slot 256 96) (Config.sha384 (s.image slot 0 256)) then some 3
  else if s.header slot 8 1 < f.svn then some 4
  else if !(s.header slot 28 4).testBit f.stepping then some 5
  else if 2 ^ 25 - 1024 < len ∨ (Config.sha384 (s.image slot 0x400 len)).toNat ≠ s.header slot 64 48 then some 6
  else none

/-- The result of a slot in SLOT_STAT. -/
def slotStat (slot : Nat) : Fld := if slot = 0 then R.CFG.SLOT_STAT.A_RESULT else R.CFG.SLOT_STAT.B_RESULT

/-- Fuses are blown from an image that has passed every check (R435). -/
def State.blowFuses (s : State) (slot : Nat) : State :=
  let flags := s.header slot 9 1
  let svn := if flags.testBit 0 then max s.fuses.svn (s.header slot 8 1) else s.fuses.svn
  let rev := s.fuses.revoke0 || (flags.testBit 1 && decide (s.header slot 12 1 = 1))
  ({ s with fuses := { s.fuses with svn := svn, revoke0 := rev } }.wr R.FUSE.SVN svn).flag R.FUSE.KEY_STAT.REVOKE0 rev

/-- A slot is loaded (R440). -/
def State.imageLoad (s : State) (slot : Nat) : State :=
  let other := decide (slot ≠ s.rd R.CFG.BOOT_CTRL.PREFER)
  let a := (((s.wr (slotStat slot) 1).wr R.CFG.BOOT_STAT.SLOT slot).wr R.FUSE.KEY_STAT.KEY_USED (s.header slot 12 1)).blowFuses slot
  let b := if other then (a.wr R.CFG.BOOT_STAT.FALLBACK 1).raise pgCFG .IMAGE_FALLBACK else a
  (b.onBoot fun x => { x with loadAt := some s.now }).endStep 2

/-- The slot whose check completes next: the preferred one, then the other. -/
def State.nextSlotToTry (s : State) : Option Nat :=
  let p := s.rd R.CFG.BOOT_CTRL.PREFER
  if !s.boot.tried.testBit p then some p else if !s.boot.tried.testBit (1 - p) then some (1 - p) else none

/-- IMAGE_CHECK (R440): a slot is loaded or fails; when both have failed the module enters FAULT. -/
def execImageCheck (s : State) : Host.Outcome State Fault Refusal :=
  .next (if s.modState ≠ 2 ∨ s.boot.loadAt.isSome ∨ !s.ended [0] then s
    else
      match s.nextSlotToTry with
      | none => s
      | some slot =>
        let a := (s.onBoot fun b => { b with tried := b.tried ||| 2 ^ slot }).wr (R.CFG.SLOT_VER slot) (s.header slot 24 4)
        match a.imageFault slot with
        | none => a.imageLoad slot
        | some n =>
          let b := a.wr (slotStat slot) (n + 1)
          if b.nextSlotToTry.isNone then (b.raise pgCFG .IMAGE_AUTH).enterFault else b)

/-- FW_START_TIMEOUT (R441): no FW_READY within 10 s of the load. -/
def execFwStartTimeout (s : State) : Host.Outcome State Fault Refusal :=
  .next (match s.boot.loadAt with
    | none => s
    | some t =>
      if s.modState ≠ 2 ∨ s.ended [3] ∨ s.now < t + 10 * Config.ticksPerS then s
      else
        let a := s.wr (slotStat (s.rd R.CFG.BOOT_STAT.SLOT)) 8
        if a.nextSlotToTry.isNone then (a.raise pgCFG .IMAGE_AUTH).enterFault
        else ((a.raise pgCFG .FW_START_TIMEOUT).onBoot fun b => { b with loadAt := none, done := b.done &&& (255 - 4) }).wr
          R.CFG.BOOT_STAT.STEP (if a.ended [1] then 2 else 1))

/-- FW_READY is written 1 (R441): step 3 ends if it is in progress. Open ledgers are journalled (R479). -/
def State.fwReady (s : State) : State :=
  let a := (s.startCard s.lead).wr R.CFG.FW_READY 1
  if a.modState = 2 ∧ a.ended [1, 2] ∧ !a.ended [3] then
    let b := (a.endStep 3).onMgmt fun m => { m with hbAt := a.now, mirrorAt := a.now }
    if ledgerKinds.any fun f => decide (b.rd f = 1) then b.journal jOpen else b
  else a

/-- FW_READY (R441). -/
def execFwReady (p : Path) (s : State) : Host.Outcome State Fault Refusal :=
  .next (s.onWrite p R.CFG.FW_READY.addr 4 none fun s => s.fwReady)

/-! ### Maps and memory (R443 to R445, R268, R279) -/

/-- Whether a field record is taken (R445). -/
def State.recordGood (s : State) (r : SpareRec) : Bool :=
  r.ok && decide (r.serial = s.rd R.FUSE.SERIAL ∧ r.row < 24)

/-- The factory entries of a row. -/
def State.factoryCols (s : State) (r : Nat) : List Nat :=
  (List.range 2).filterMap fun j =>
    let e := Cells.get 0 s.fuses.spares (2 * r + j)
    if e.testBit 6 then some (e % 64) else none

/-- The row map of a row: the union of its factory entries and its valid field records; a retirement, or more than two
failed columns, retires it (R445). -/
def State.mapRow (s : State) (r : Nat) : State :=
  let recs := (s.island.spares.filter fun x => s.recordGood x && decide (x.row = r)).map SpareRec.pcol
  let fac := (s.factoryCols r).eraseDups
  let field := ((recs.filter fun c => decide (c ≠ retiredCol)).eraseDups).filter fun c => !fac.contains c
  let blank := [R.SPARE.ROWMAP.F1 r, R.SPARE.ROWMAP.F1_VALID r, R.SPARE.ROWMAP.F1_FIELD r, R.SPARE.ROWMAP.F2 r,
    R.SPARE.ROWMAP.F2_VALID r, R.SPARE.ROWMAP.F2_FIELD r].foldl (fun u f => u.wr f 0) s
  let a := (fac.take 2).foldl (fun u c => u.addFailed r c false) blank
  let b := (field.take (2 - fac.length)).foldl (fun u c => u.addFailed r c true) a
  if recs.contains retiredCol ∨ 2 < fac.length + field.length then b.markRetired r else b

/-- The spare maps are applied (R445). -/
def State.applyMaps (s : State) : State :=
  let bad := s.island.spares.filter fun r => !s.recordGood r
  let a := (s.wr R.SPARE.RECORDS.USED (s.island.spares.length - bad.length)).wr R.SPARE.RECORDS.BAD bad.length
  (List.range 24).foldl State.mapRow (a.raiseAll pgSPARE (bad.map fun _ => (Err.SPARE_RECORD_BAD, 0)))

/-- A companion position that does not answer its probe (R443): its page type, and its treatment. -/
def companionType (c : Companion) : Nat :=
  match c with
  | .stack _ => PageTy.STACK.code
  | .die _ => PageTy.LINK.code
  | .sled _ => PageTy.FLASH.code
  | .cassette _ => PageTy.PWR.code
  | .card _ => PageTy.MGMT.code

def State.companionOut (s : State) (c : Companion) : State :=
  match c with
  | .stack k => s.wr (R.STACK.STAT.FAILED k) 1
  | .die i => (s.wr R.MOD.IODIE_FAIL (s.rd R.MOD.IODIE_FAIL ||| 2 ^ i.val)).wr R.MOD.STATUS.IODIE_FAILED 1
  | .sled i => s.wr (R.FLASH.SLED_STAT.PRESENT i) 0
  | .cassette i =>
    ((s.wr R.PWR.CASS_MAP.PRESENT (setBit (s.rd R.PWR.CASS_MAP.PRESENT) i false)).onPower fun x =>
      { x with inserted := Cells.put 0 x.inserted i 0, cassNew := setBit x.cassNew i false }).setHealthy (setBit (s.rd R.PWR.CASS_MAP.HEALTHY) i false)
  | .card p => s.wr (cardFld p) 0

/-- Whether the fuses declare a position. -/
def State.declared (s : State) (c : Companion) : Bool :=
  match c with
  | .stack k => s.fitted (pgSTACK k)
  | .die i => s.fitted (pgLINK (4 * i.val))
  | .sled i => s.sledPosition i
  | _ => true

/-- The positions that hold a sled beyond the fused count (R6). -/
def State.extraSleds (s : State) : List Nat := (List.range 4).filter fun i => Cells.get false s.mem.extra i

/-- Step 4: the maps, the positions that do not answer, and the sleds beyond the fused count, which are reported as refused (R6;
DESIGN CHOICE, log entry 66: the spec names no code). -/
def State.stepMaps (s : State) (missing : List Companion) : State :=
  let gone := missing.filter s.declared
  let a := gone.foldl State.companionOut s.applyMaps
  let b := if gone.isEmpty then a
    else (a.wr R.MOD.STATUS.COMPANION_MISSING 1).raiseAll pgMOD (gone.map fun c => (Err.COMPANION_MISSING, companionType c))
  ((((b.raiseAll pgFLASH (s.extraSleds.map fun i => (Err.SLED_REFUSED, i))).endStep 4).onBoot fun x =>
    { x with linksAt := s.now }).afterLoss s)

/-- No context is claimed or has limits (R268, R447). -/
def State.dropClaims (s : State) : State :=
  (List.range 64).foldl (fun u c => [R.QUOTA.CTX_FLAGS.CLAIMED c, R.QUOTA.CTX_LIMIT_BONDED c, R.QUOTA.CTX_LIMIT_STACK c,
    R.QUOTA.CTX_LIMIT_FLASH c, R.QUOTA.CTX_USED_BONDED c, R.QUOTA.CTX_USED_STACK c, R.QUOTA.CTX_USED_FLASH c].foldl
    (fun v f => v.wr f 0) u) s

/-- Step 5 (R268, R279, R442): the bonded tier and the stacks are FREE and zero, but for regions that have failed; the sleds of
this module join, and the claims that they record are the only ones (R447). -/
def State.stepFill (s : State) : State :=
  let tiles := ((List.range 960).filter fun t =>
    !(s.rd R.MOD.RETIRED_ROWS).testBit (t / 40) && !Cells.get false s.mem.gone t).length
  let nstk := ((List.range 32).filter fun k => s.fitted (pgSTACK k) && !s.on (R.STACK.STAT.FAILED k)).length
  let join := fun (u : State) x n => (u.wr (R.QUOTA.TIER_TOTAL x) n).wr (R.QUOTA.TIER_FREE x) n
  let a := join (join s.dropClaims 0 (tiles * bondGrans)) 1 (nstk * stackGrans)
  let own := (List.range 4).filter fun i => s.on (R.FLASH.SLED_STAT.PRESENT i) && !s.on (R.FLASH.SLED_STAT.FOREIGN i)
  (own.foldl (fun u i => (u.rebuildSled i).attached_ i) a).endStep 5

/-- Step 6, which starts as step 4 ends: firmware enables every fitted link whose optic is accepted. It ends once they are up. -/
def State.stepLinks (s : State) : State :=
  let ks := (List.range 48).filter fun k => s.fitted (pgLINK k) && s.on (R.LINK.STAT.OPTIC k)
  ks.foldl State.linkEnable s

/-- Whether every link that step 6 enabled is up. -/
def State.linksUp (s : State) : Bool :=
  (List.range 48).all fun k => !(s.fitted (pgLINK k) && s.on (R.LINK.STAT.OPTIC k)) || s.linkUp k

/-- The registers that Enfleurage clears: those of the step mechanisms with their counters and the peer table (R307), and of the
group entries (R332). -/
def enfKey (k : Nat) : Bool :=
  let a := k / 64
  (pgMOD + 0x200 ≤ a && a < pgMOD + 0x600) || (pgMOD + 0x800 ≤ a && a < pgMOD + 0x1000) ||
    match pageAt a with
    | some (.COLL, _) => decide (0x400 ≤ a % 0x1000 ∧ a % 0x1000 < 0x800)
    | _ => false

/-- The partition of each group entry under the active table, plus 1: a later commit may move it (R332). -/
def State.groupOwners (s : State) : Cells Nat :=
  allGroups.foldl (fun c n => match ownerIn s.act R.MOD.GROUP_RANGE.BASE R.MOD.GROUP_RANGE.COUNT n with
    | some p => Cells.put 0 c n (p + 1)
    | none => c) []

/-- What a pass through Enfleurage clears, besides memory and its claims (R175, R307, R332, R357, R367, R442): signal counters,
the step mechanisms with their checkpoints, group entries, the route table and the broadcast origins; and the module has not
joined. -/
def State.enfClear (s : State) : State :=
  let a := { s with
    regs := { s.regs with cells := Cells.clear s.regs.cells enfKey }
    sig := State.reset.sig
    coll := { State.reset.coll with owners := s.groupOwners }
    nose := { s.nose with runs := [], dups := [] }
    fab := { s.fab with routes := [], origins := [], txns := [], msgs := [], msgSeq := [], bseq := 0 } }
  (a.wr R.MOD.FAB_NODE.JOINED 0).wr R.MOD.FAB_STAT.STATE 0

/-- Step 7: READY. -/
def State.stepReady (s : State) : State := ((s.enfClear.wr R.MOD.STATE 3).wr R.CFG.BOOT_STAT.STEP 0).steer

/-- ENFLEURAGE_STEP (R438, R442): a step that its earlier ones allow. The SFDP table must be readable and give at least
1 Gbit. -/
def execEnfleurageStep (x : EnfStep) (s : State) : Host.Outcome State Fault Refusal :=
  .next (if s.modState ≠ 2 then s
    else
      match x with
      | .sfdp none => (s.raise pgCFG .NOR_SFDP).enterFault
      | .sfdp (some mib) =>
        let a := s.wr R.CFG.CAPS.NOR_MIB mib
        if mib < 128 then (a.raise pgCFG .NOR_SFDP).enterFault else a.endStep 0
      | .maps missing => if s.ended [1, 2, 3] ∧ !s.ended [4] then s.stepMaps missing else s
      | .fill => if s.ended [4] ∧ !s.ended [5] then s.stepFill else s
      | .links => if s.ended [4] ∧ !s.ended [6] then s.stepLinks else s
      | .ready =>
        if s.ended [1, 2, 3, 4, 5] ∧
            (s.linksUp ∨ s.boot.linksAt + s.rd R.CFG.LINK_WAIT * Config.ticksPerMs ≤ s.now) then (s.endStep 6).stepReady
        else s)

/-! ### Partitions (R431, R432) -/

/-- PART_CTRL with OP run. -/
def State.partRun (s : State) (p : Nat) : State :=
  if s.modState ≠ 3 ∨ s.partState p = 0 ∨ s.partHeld p ∨ !s.on R.TB.STAT.SET_DONE then s.raise pgCFG .RUN_REFUSED p
  else if s.holders p ≠ 0 then
    let a := s.clearHolder p holdUser true
    if a.holders p = 0 ∧ a.partState p = 3 then a.setPartState p 4 else a
  else if s.partState p = 3 then s.setPartState p 4
  else s

/-- PART_CTRL with OP quiesce: a defined partition gets the user's holder. -/
def State.partQuiesce (s : State) (p : Nat) : State :=
  if s.modState ≠ 3 ∨ s.partState p = 0 then s else s.setHolder p holdUser

/-- Writes the fields of PART_CTRL. -/
def State.partCtrl (s : State) (p op : Nat) : State := (s.wr R.CFG.PART_CTRL.PART p).wr R.CFG.PART_CTRL.OP op

/-- PART_RUN (R431). -/
def execPartRun (p : Path) (part : Fin 8) (s : State) : Host.Outcome State Fault Refusal :=
  .next (s.onWrite p R.CFG.PART_CTRL.GO.addr 4 (some part.val) fun s => (s.partCtrl part.val 1).partRun part.val)

/-- PART_QUIESCE (R432). -/
def execPartQuiesce (p : Path) (part : Fin 8) (s : State) : Host.Outcome State Fault Refusal :=
  .next (s.onWrite p R.CFG.PART_CTRL.GO.addr 4 (some part.val) fun s => (s.partCtrl part.val 2).partQuiesce part.val)

/-- A partition whose host has not come back is parked once it reads QUIESCE and the module is not shed (R450). It is to leave QUIESCE
for READY, so that it resumes only by an unpark and a run (log entry 113). -/
def State.hostPark (s : State) (p : Nat) : State :=
  if s.host.toPark.testBit p ∧ s.partState p = 5 ∧ !s.shed then
    let a := if (s.rd R.PWR.PARK_STAT.PARKED).testBit p then s else s.parkNow p
    let b := (a.onHost fun h => { h with toPark := setBit h.toPark p false }).onPart fun m =>
      { m with entry := Cells.put 0 m.entry p 3, ran := Cells.put false m.ran p false }
    ((b.bump R.CFG.HOST_PARKS 1).raise pgCFG .HOST_PARKED p).irq pgCFG 3
  else s

/-- QUIESCE_REACHED (R432, R450). -/
def execQuiesceReached (part : Fin 8) (s : State) : Host.Outcome State Fault Refusal :=
  .next (((s.reachQuiesce part.val).showShift).hostPark part.val)

/-- The ticks of a number of seconds. -/
def seconds (n : Nat) : Nat := n * Config.ticksPerS

/-- REATTACH_EXPIRY (R450): the partitions paused by the host loss receive the host holder and are to be parked. -/
def execReattachExpiry (s : State) : Host.Outcome State Fault Refusal :=
  .next (match s.host.lostAt with
    | none => s
    | some t =>
      if s.now < t + seconds (s.rd R.CFG.REATTACH) then s
      else
        let ps := (List.range 8).filter s.host.paused.testBit
        let a := ps.foldl (fun u p => u.setHolder p holdHost) s
        a.onHost fun h => { h with lostAt := none, toPark := h.toPark ||| h.paused })

/-! ### The watchdog (R451) -/

/-- TIMEOUT_S as it acts. -/
def State.wdogSeconds (s : State) : Nat := max 5 (s.rd R.CFG.WDOG_CTRL.TIMEOUT_S)

/-- KICK is written 1: over the sideband path only. -/
def State.kick (s : State) (p : Path) : State :=
  if pathSide p ∧ s.boot.wdogAt.isSome then s.onBoot fun b => { b with wdogAt := some s.now } else s

/-- WDOG_KICK (R451). -/
def execWdogKick (p : Path) (s : State) : Host.Outcome State Fault Refusal :=
  .next (s.onWrite p R.CFG.WDOG_CTRL.KICK.addr 4 none fun s => s.kick p)

/-- WDOG_EXPIRY (R451). -/
def execWdogExpiry (s : State) : Host.Outcome State Fault Refusal :=
  .next (match s.boot.wdogAt with
    | none => s
    | some t =>
      if s.modState = 0 ∨ s.now < t + seconds s.wdogSeconds then s
      else (s.onBoot fun b => { b with wdogAt := none }).orderDrydown pgCFG .WDOG_EXPIRED 0)

/-! ### Pending releases (R453) -/

/-- PREL_CLEAR (R453): every pending release is counted as lost, and every held IN granule goes to FREE. -/
def State.prelClear (s : State) : State :=
  let a := s.island.releases.foldl (fun u r => u.endRelease r.node r.from_ r.src r.dst true) s
  a.fab.held.foldl (fun u g => u.endHeld g false) a

def execPrelClear (p : Path) (s : State) : Host.Outcome State Fault Refusal :=
  .next (s.onWrite p R.CFG.PREL_CLEAR.addr 4 none fun s => s.prelClear)

end Sys2Proof.Machine
end

