-- ==== Sys2Proof/Machine/Host.lean ====
section
/-! DEFINITION. The host's ports: attach, failover and host loss, function level reset, reattach, MSI-X, preferred ports
and the completions of host reads (R450, R495 to R503). -/

namespace Sys2Proof.Machine

/-- The key of a function of a port. -/
def fnKey (port : Port) (fn : Nat) : Nat := portIx port * 16 + fn

/-! ### Ports (R498, R499) -/

/-- The partitions that are defined. -/
def State.partitions (s : State) : List Nat := (List.range 8).filter s.partValid

/-- The port that a partition prefers. -/
def State.preferred (s : State) (p : Nat) : Port := if bitOf (s.rd R.HOST.PART_PORT) p then .b else .a

/-- The serving port of a partition, where no port serves it yet: its preferred port, or the other; 2 is none (R493). -/
def State.servePort (s : State) (p : Nat) : Nat :=
  if s.attached (s.preferred p) then portIx (s.preferred p)
  else if s.attached (otherCard (s.preferred p)) then portIx (otherCard (s.preferred p)) else 2

/-- Partitions that no attached port serves are served anew. -/
def State.serveParts (s : State) : State :=
  (List.range 8).foldl (fun u p =>
    let i := u.rd (R.HOST.PART_SERVE p)
    if (i = 0 ∧ u.attached .a) ∨ (i = 1 ∧ u.attached .b) then u else u.wr (R.HOST.PART_SERVE p) (u.servePort p)) s

/-- A function of a port returns to its reset configuration: its MSI-X table and vectors, FN_CLAIMED and FN_REARM (R503). -/
def State.resetFn (s : State) (port : Port) (fn : Nat) : State :=
  let ofFn := fun k => decide (k / 128 = fnKey port fn)
  { s with
    msix := ⟨Cells.clear s.msix.latch ofFn, Cells.clear s.msix.pba ofFn, Cells.clear s.msix.unmasked ofFn,
      Cells.clear s.msix.table fun k => ofFn (k / 4)⟩
    host := { s.host with claimed := Cells.put 0 s.host.claimed (fnKey port fn) 0, rearm := Cells.put 0 s.host.rearm (fnKey port fn) 0 } }

/-- Whether an entry is a host read of partition `p` that has not been answered. -/
def State.awaitsHost (s : State) (p : Nat) (m : MergeEntry) : Bool :=
  m.issued.isSome && m.words.isNone && m.err.isNone && m.bytes.isEmpty &&
    match m.xfers.head? with
    | some x => decide (s.endOf x.src = .host ∧ x.owner.part = p)
    | none => false

/-- The unanswered host reads of a partition. -/
def State.hostReads (s : State) (p : Nat) : List MergeEntry := s.stream.entries.filter (s.awaitsHost p)

/-- The transfers of a partition that have requests to send. -/
def State.hostReqs (s : State) (p : Nat) : List HostReq := s.host.reqs.filter fun r => decide (r.owner.part = p)

/-- Requests that `c` accepts are neither sent nor outstanding any more. -/
def State.dropReqs (s : State) (c : HostReq → Bool) : State :=
  let keep := fun (l : List HostReq) => l.filter fun r => !c r
  s.onHost fun h => { h with
    reqs := keep h.reqs
    reads := [0, 1].foldl (fun m i => Cells.put [] m i (keep (Cells.get [] m i))) h.reads }

/-- A posted write that has not left ends with its command's error. -/
def State.endWrite (s : State) (r : HostReq) : State :=
  (((s.bump R.HOST.LINK_ENDS 1).raiseFor (some r.owner) pgHOST .HOST_LINK).flightErr (some r.owner) .HOST_LINK).onFlight
    r.owner.queue r.owner.idx fun f => { f with left := f.left - if r.piece then 1 else 0 }

/-- The host transfers of a partition end with HOST_LINK (R501, R503). -/
def State.endHost (s : State) (p : Nat) : State :=
  let a := s.dropReqs fun r => decide (r.owner.part = p)
  let b := ((s.hostReqs p).filter fun r => r.entry.isNone).foldl State.endWrite a
  (s.hostReads p).foldl (fun u m =>
    ((u.bump R.HOST.LINK_ENDS m.xfers.length).raiseFor (m.xfers.head?.map Xfer.owner) pgHOST .HOST_LINK).failFetch m .HOST_LINK) b

/-- The queues of a partition enter or leave host pause (R185). -/
def State.hostPause (s : State) (p : Nat) (b : Bool) : State :=
  (s.queuesOf p).foldl (fun u q =>
    (u.wr (R.CQ.STAT.PAUSE_SRC q) (s.rd (R.CQ.STAT.PAUSE_SRC q) % 2 + (if b then 2 else 0))).showQueue q) s

/-- A host loss (R450, R501). -/
def State.hostLoss (s : State) : State :=
  let ps := s.partitions.filter fun p => !bitOf (s.rd R.CFG.HOST_FREE) p
  let a := (List.range 8).foldl (fun u p => (u.endHost p).wr (R.HOST.PART_SERVE p) 2) s
  let b := (((a.wr R.CFG.HOST_STAT.LOST 1).bump R.CFG.HOST_LOSSES 1).raise pgCFG .HOST_LOST).irq pgCFG 2
  (ps.foldl (fun u p => u.hostPause p true) b).onHost fun h =>
    { h with lostAt := some s.now, paused := ps.foldl (fun m p => m ||| 2 ^ p) 0, moves := 0 }

/-- The requests that are sent again when a port is lost, in the order of issue: the reads that it had not answered, and the last
`resent` posted writes, which its replay buffer still held (R499). -/
def State.lostReqs (s : State) (port : Port) (resent : Nat) : List HostReq :=
  let held := Cells.get [] s.host.held (portIx port)
  (Cells.get [] s.host.reads (portIx port) ++ held.drop (held.length - resent)).mergeSort fun x y => decide (x.id ≤ y.id)

/-- The partitions that a port served move to the other one, and the requests that it had not completed go out again before any new
one (R499). -/
def State.failover (s : State) (port : Port) (resent : Nat) : State :=
  let i := portIx port
  let again := s.lostReqs port resent
  let a := (List.range 8).foldl (fun u p =>
    if u.rd (R.HOST.PART_SERVE p) = i then u.wr (R.HOST.PART_SERVE p) (portIx (otherCard port)) else u) s
  let b := a.onHost fun h => { h with
    reqs := again ++ h.reqs, reads := Cells.put [] h.reads i [], held := Cells.put [] h.held i [] }
  (((b.bump R.HOST.FAILOVERS 1).bump R.HOST.RESENT again.length).raise pgHOST .PORT_DOWN).irq pgHOST 3

/-- A port is no longer attached (R499, R501); `reset` if its functions return to reset configuration (R503). -/
def State.portLost (s : State) (port : Port) (reset : Bool) (resent : Nat) : State :=
  let i := portIx port
  let a := (s.wr (R.HOST.PORT_STAT.ATTACHED i) 0).wr (R.HOST.PORT_STAT.REACH i) 0
  let b := if reset then
      (((List.range 9).foldl (fun u f => u.resetFn port f) a).wr (R.HOST.PORT_STAT.VF_EN i) 0).onHost fun h =>
        { h with cfg := Cells.put PortCfg.reset h.cfg i PortCfg.reset }
    else a
  if !s.attached port then b
  else
    let c := b.irq pgHOST 2
    if c.attached (otherCard port) then c.failover port resent else c.hostLoss

/-- Widths and rates at which a port trains, and the sizes that its functions support (R486). -/
def linkOk (width rate : Nat) : Bool := [1, 2, 4, 8, 16].contains width && decide (1 ≤ rate ∧ rate ≤ 6)
def cfgOk (c : PortCfg) : Bool := [128, 256, 512].contains c.maxPayload && [128, 256, 512, 1024, 2048, 4096].contains c.maxRead

/-- The Vendor ID, the Device IDs of the PF and of a VF, and the class code (R487). -/
def vendorId : Nat := 0x1F5E
def deviceId (fn : Nat) : Nat := if fn = 0 then 0x0960 else 0x0961
def classCode : Nat := 0x120000

/-- The functions that a port presents to the host (R487). -/
def State.present (s : State) (port : Port) (fns : List Nat) : State :=
  fns.foldl (fun u f => u.emit (.function port f vendorId (deviceId f) classCode s.fuses.serial)) s

/-- The functions that a link or VF Enable brings up: PF 0, and VFs 1 to 8. -/
def State.newFns (s : State) (port : Port) (cfg : PortCfg) : List Nat :=
  (if s.on (R.HOST.PORT_STAT.LINK_UP (portIx port)) then [] else [0]) ++
    if cfg.vfEn ∧ !s.on (R.HOST.PORT_STAT.VF_EN (portIx port)) then (List.range 8).map (· + 1) else []

/-- PORT_ATTACH (R486, R487, R498): a port's link is in DL_Active, and the host has configured its functions. The port is attached
where the PF may master the bus and is in D0; otherwise it is not, as with its link down where the PF is in D3hot (R503). -/
def execPortAttach (port : Port) (width rate : Nat) (cfg : PortCfg) (s : State) : Host.Outcome State Fault Refusal :=
  let i := portIx port
  .next (if s.modState = 0 ∨ !linkOk width rate ∨ !cfgOk cfg then s
    else
      let a := (((((s.present port (s.newFns port cfg)).wr (R.HOST.PORT_STAT.LINK_UP i) 1).wr (R.HOST.PORT_STAT.WIDTH i) width).wr
        (R.HOST.PORT_STAT.RATE i) rate).flag (R.HOST.PORT_STAT.VF_EN i) cfg.vfEn).onHost fun h =>
          { h with cfg := Cells.put PortCfg.reset h.cfg i cfg }
      if !cfg.master ∨ cfg.d3 then a.portLost port cfg.d3 0
      else
        let b := a.wr (R.HOST.PORT_STAT.REACH i) (if cfg.vfEn then cfg.vfMaster.toNat else 255)
        if s.attached port then b else ((b.wr (R.HOST.PORT_STAT.ATTACHED i) 1).serveParts).irq pgHOST 2)

/-- PORT_DETACH (R499, R501, R503): a hot reset, a link that goes down, or with `linkUp` a Function Level Reset of the PF. `resent` of
the last posted writes were still in the port's replay buffer. -/
def execPortDetach (port : Port) (linkUp : Bool) (resent : Nat) (s : State) : Host.Outcome State Fault Refusal :=
  let i := portIx port
  .next (if !s.attached port ∧ !s.on (R.HOST.PORT_STAT.LINK_UP i) then s
    else
      let a := s.flag (R.HOST.PORT_STAT.LINK_UP i) linkUp
      (if linkUp then a else (a.wr (R.HOST.PORT_STAT.WIDTH i) 0).wr (R.HOST.PORT_STAT.RATE i) 0).portLost port true resent)

/-- VF_FLR (R503): Function Level Reset of the VF of a partition. -/
def execVfFlr (port : Port) (part : Fin 8) (s : State) : Host.Outcome State Fault Refusal :=
  let p := part.val
  .next (if !s.on (R.HOST.PORT_STAT.VF_EN (portIx port)) then s
    else
      let a := if s.rd (R.HOST.PART_SERVE p) = portIx port then s.endHost p else s
      let b := (a.hostPause p true).onHost fun h => { h with flr := setBit h.flr p true }
      (b.resetFn port (p + 1)).wr (R.HOST.PORT_STAT.REACH (portIx port))
        (setBit (s.rd (R.HOST.PORT_STAT.REACH (portIx port))) p false))

/-! ### Reattach (R502) -/

/-- A partition is claimed: its pause ends and its host holder clears. A parked partition stays parked. -/
def State.claimPart (s : State) (p : Nat) : State :=
  let a := (s.hostPause p false).onHost fun h =>
    { h with paused := setBit h.paused p false, toPark := setBit h.toPark p false, flr := setBit h.flr p false }
  if bitOf (a.holders p) holdHost then a.clearHolder p holdHost false else a

/-- A claim is accepted, of the partitions it names. -/
def State.claimed (s : State) (port : Port) (fn : Nat) (ps : List Nat) : State :=
  let k := fnKey port fn
  let mask := ps.foldl (fun m p => m ||| 2 ^ p) (Cells.get 0 s.host.claimed k)
  (ps.foldl State.claimPart (s.bump R.HOST.CLAIMS 1)).onHost fun h => { h with claimed := Cells.put 0 h.claimed k mask }

/-- A write of FN_CLAIM.CLAIM through a function. -/
def State.claim (s : State) (port : Port) (fn : Nat) : State :=
  if fn = 0 then ((s.wr R.CFG.HOST_STAT.LOST 0).onHost fun h => { h with lostAt := none }).serveParts.claimed port fn (List.range 8)
  else if s.on R.CFG.HOST_STAT.LOST then s.raise pgHOST .CLAIM_REFUSED
  else s.claimed port fn [fn - 1]

/-- Whether a function answers: its port is attached, and a VF needs VF Enable. -/
def State.fnUp (s : State) (port : Port) (fn : Nat) : Bool :=
  s.attached port && (fn = 0 || (s.on (R.HOST.PORT_STAT.VF_EN (portIx port)) && fn ≤ 8))

/-- CLAIM (R502). -/
def execClaim (port : Port) (fn : Fin 9) (s : State) : Host.Outcome State Fault Refusal :=
  .next (if s.modState ≠ 0 ∧ s.fnUp port fn then (s.countRx (.host port fn) 4).claim port fn else s)

/-! ### MSI-X (R496, R497) -/

/-- Whether a source of a vector that a function receives raises. -/
def State.vecRaises (s : State) (port : Port) (fn vec : Nat) : Bool :=
  allPages.any fun pg => decide (vectorOf pg = some vec) && s.raising pg && (s.receivers pg vec).contains (port, fn)

/-- A vector of a function is rearmed: its latch sets again while a source of it raises. -/
def State.rearmVec (s : State) (port : Port) (fn vec : Nat) : State :=
  let a := s.onHost fun h => { h with rearm := Cells.put 0 h.rearm (fnKey port fn) vec }
  if a.vecRaises port fn vec then a.latch port fn vec else a

/-- REARM (R497 step 3): FN_REARM written with a vector and GO. -/
def execRearm (port : Port) (fn : Fin 9) (vec : Fin 128) (s : State) : Host.Outcome State Fault Refusal :=
  .next (if s.modState ≠ 0 ∧ s.fnUp port fn then (s.countRx (.host port fn) 4).rearmVec port fn vec else s)

/-- A vector is unmasked: a set latch sends its message (R497 step 2). -/
def State.unmask (s : State) (port : Port) (fn vec : Nat) : State :=
  let k := vecKey port fn vec
  let a := { s with msix := { s.msix with unmasked := Cells.put false s.msix.unmasked k true } }
  if Cells.get false s.msix.latch k then
    ({ a with msix := { a.msix with latch := Cells.put false a.msix.latch k false,
                                    pba := Cells.put false a.msix.pba k false } }).emit (s.msixMsg port fn vec)
  else a

/-- A vector is masked in its function's MSI-X table. -/
def State.maskVec (s : State) (port : Port) (fn vec : Nat) : State :=
  { s with msix := { s.msix with unmasked := Cells.put false s.msix.unmasked (vecKey port fn vec) false } }

/-- MSIX_UNMASK (R497). -/
def execMsixUnmask (port : Port) (fn : Fin 9) (vec : Fin 128) (s : State) : Host.Outcome State Fault Refusal :=
  .next (if s.modState ≠ 0 ∧ s.fnUp port fn then (s.countRx (.host port fn) 4).unmask port fn vec else s)

/-! ### Preferred ports (R500) -/

/-- HOST.PART_PORT is written: each partition whose preferred port is attached is to move to it. -/
def State.partPort (s : State) (v : Nat) : State :=
  let a := s.wr R.HOST.PART_PORT v
  a.onHost fun h => { h with moves := ((List.range 8).filter fun p => a.attached (a.preferred p)).foldl (fun m p => m ||| 2 ^ p) 0 }

/-- PART_PORT_WRITE (R500). -/
def execPartPortWrite (p : Path) (v : BitVec 8) (s : State) : Host.Outcome State Fault Refusal :=
  .next (s.onWrite p R.HOST.PART_PORT.addr 4 none fun s => s.partPort v.toNat)

/-- PORT_MOVE (R500): a partition with no host transfer outstanding moves to its preferred port, if that is attached. -/
def execPortMove (part : Fin 8) (s : State) : Host.Outcome State Fault Refusal :=
  let p := part.val
  .next (if !bitOf s.host.moves p ∨ !(s.hostReads p).isEmpty ∨ !(s.hostReqs p).isEmpty then s
    else
      let a := s.onHost fun h => { h with moves := setBit h.moves p false }
      if s.attached (s.preferred p) then a.wr (R.HOST.PART_SERVE p) (portIx (s.preferred p)) else a)

/-! ### Completions (R495) -/

/-- Answers that end a read with no error of their own deliver its data (R495); host memory that is not backed answers with an
Unsupported Request. -/
def State.landData (s : State) (m : MergeEntry) (x : Xfer) : State :=
  match s.hostMem [] (adrHost x.src) x.n with
  | some bs => (s.hostBytes x.owner.part x.n false).fetched m x bs
  | none => (s.raiseFor (some x.owner) pgHOST .HOST_UR).failFetch m .HOST_UR

/-- The host answers the read of an entry, all of whose requests have left. -/
def State.hostAnswer (s : State) (m : MergeEntry) (x : Xfer) (h : HostAnswer) : State :=
  let a := s.dropReqs fun r => decide (r.entry = some m.id)
  match s.answerErr x.owner.part h with
  | some er => ((a.logPoison x.owner.part h).raiseFor (some x.owner) pgHOST er).failFetch m er
  | none => (a.countCorrected x.owner.part (if h = .corrected then 1 else 0)).landData m x

/-- HOST_COMPLETION (R495): the host answers the read of an entry, or its answers to other reads of a line become those that are
given. -/
def execHostCompletion (t : HostTarget) (h : HostAnswer) (s : State) : Host.Outcome State Fault Refusal :=
  .next (match t with
    | .line a => s.onHost fun y => { y with answers := Cells.put .data y.answers (a.toNat / 64) h }
    | .entry e id =>
      given (s.entryOf e id) s fun m => given m.xfers.head? s fun x =>
        if s.awaitsHost x.owner.part m ∧ !s.host.reqs.any fun r => decide (r.entry = some id) then s.hostAnswer m x h else s)

end Sys2Proof.Machine
end

