-- ==== Sys2Proof/Machine/Registers.lean ====
section
/-! DEFINITION. The field types: how a write reaches the fields of one register (R41 to R49). -/

namespace Sys2Proof.Machine

/-- The register that starts at BAR0 offset `a` (R37). -/
def regAt (a : Nat) : Option RegRow :=
  (pageAt a).bind fun x => RegRow.lookup (if a % 0x1000 < 0x80 then tabPG (pageBase a) ++ x.1.table x.2 else x.1.table x.2) (a % 0x1000)

/-- A write of `v` to a CT register (R44): COUNT falls by bits 62:0, to 0 with CT_UNDER if they exceed it; bit 63 clears
OVF. -/
def State.ctWrite (s : State) (f : Fld) (v : Nat) : State :=
  let n := v % 2 ^ 63
  let a := if 2 ^ 63 ≤ v then s.wr f.ovf 0 else s
  if s.rd f < n then (a.wr f 0).raise (pageBase f.addr) .CT_UNDER else a.wr f (s.rd f - n)

/-- Whether the fields of type LK take a write: in FUSED and in ENFLEURAGE (R49). -/
def State.unlocked (s : State) : Bool := decide (s.modState = 1 ∨ s.modState = 2)

/-- One field of the register at `a` takes its bits of a write of `v`. -/
def State.writeField (s : State) (a v : Nat) (r : FRow) : State :=
  let f := r.at a
  let x := v / 2 ^ r.lo % 2 ^ r.w
  match r.ty with
  | .RW => s.wr f x
  | .RO | .TG => s
  | .HS => s.wr f (s.rd f - (s.rd f &&& x))
  | .CT => if r.lo = 0 then s.ctWrite f v else s
  | .ST => s.wrShadow f x
  | .LK => if s.unlocked then s.wr f x else s

/-- Whether a write of `v` would change a field of type LK. -/
def State.changesLk (s : State) (a v : Nat) (row : RegRow) : Bool :=
  row.fields.any fun r => decide (r.ty = .LK ∧ s.rd (r.at a) ≠ v / 2 ^ r.lo % 2 ^ r.w)

/-- The register `row` at `a` takes a write of `v`, field by field. -/
def State.writeFields (s : State) (a v : Nat) (row : RegRow) : State := row.fields.foldl (fun u r => u.writeField a v r) s

/-- What a field reads: the active copy of a staged field, or the shadow copy while the page's SHADOW_RD is 1 (R47). -/
def State.readField (s : State) (a : Nat) (r : FRow) : Nat :=
  let f := r.at a
  match r.ty with
  | .ST => if s.on (R.PG.CTRL.SHADOW_RD (pageBase a)) then s.shadow f else s.act f
  | _ => s.rd f

/-- The staged fields of a page. -/
def stagedOf (pg : Nat) : List Fld :=
  match pageAt pg with
  | none => []
  | some (t, i) => (t.table i).flatMap fun row => (List.range row.n1).flatMap fun x => (List.range row.n2).flatMap fun y =>
      (row.fields.filter fun r => decide (r.ty = .ST)).map fun r => r.at (pageBase pg + row.off + x * row.s1 + y * row.s2)

end Sys2Proof.Machine
end

