-- ==== Sys2Proof/Machine/Commit.lean ====
section
/-! DEFINITION. Staged fields and commits (R32, R35, R56 to R63, R73, R169, R170, R331, R332, R346, R452). -/

namespace Sys2Proof.Machine

/-- Changes the commit in progress. -/
def State.onCommit (s : State) (g : CommitSt → CommitSt) : State := { s with commit := g s.commit }

/-! ### The partition table (R32, R34, R35, R63) -/

/-- The maps that assign resources by a nibble, with the number of resources of each. -/
def nibbleMaps : List ((Nat → Fld) × Nat) :=
  [(R.MOD.SILL_ASSIGN, 16), (R.MOD.STACK_ASSIGN, 32), (R.MOD.LINK_ASSIGN, 48), (R.MOD.CQ_ASSIGN, 64),
   (R.MOD.QUOTA_ASSIGN, 64), (R.MOD.COLL_ASSIGN, 16)]

/-- The ranges that assign signal counters and group entries, with the size of each table. -/
def rangeMaps : List ((Nat → Fld) × (Nat → Fld) × Nat) :=
  [(R.MOD.SIG_RANGE.BASE, R.MOD.SIG_RANGE.COUNT, 4096), (R.MOD.GROUP_RANGE.BASE, R.MOD.GROUP_RANGE.COUNT, 256)]

/-- Whether two ranges [a, a+m) and [b, b+n) have an element in common. -/
def overlap (a m b n : Nat) : Bool := decide (m ≠ 0 ∧ n ≠ 0 ∧ a < b + n ∧ b < a + m)

/-- Whether no two of the ranges that partitions have under `base` and `count` overlap. -/
def disjoint (get : Fld → Nat) (ok : Nat → Bool) (base count : Nat → Fld) : Bool :=
  (List.range 8).all fun p => (List.range 8).all fun q =>
    !(decide (p < q) && ok p && ok q && overlap (get (base p)) (get (count p)) (get (base q)) (get (count q)))

/-- Whether the pending partition table and assignments are legal (R63). -/
def State.tableOk (s : State) : Bool :=
  let g := s.pendCopy
  let valid := fun p => decide (g (R.MOD.PART_DEF.VALID p) = 1)
  let first := fun p => g (R.MOD.PART_DEF.FIRST_ROW p)
  let rows := fun p => g (R.MOD.PART_DEF.ROWS p)
  let named := fun v => v = 15 || (v < 8 && valid v)
  let fitted := fun (f : Nat → Fld) (pg : Nat → Nat) n => (List.range n).all fun i => g (f i) = 15 || s.fitted (pg i)
  let kept := fun (f : Nat → Fld) (c : Nat → Bool) => (List.range 64).all fun i => !c i || g (f i) = s.act (f i)
  let stays := fun (b c : Nat → Fld) (n : Nat) (used : Nat → Bool) =>
    (List.range n).all fun i => !used i || decide (ownerIn g b c i = ownerIn s.act b c i)
  (List.range 8).all (fun p => decide (first p + rows p ≤ 24) && (!valid p || (decide (rows p ≠ 0) &&
      (List.range (rows p)).all fun i => !s.rowRetired (first p + i)))) &&
    disjoint g valid R.MOD.PART_DEF.FIRST_ROW R.MOD.PART_DEF.ROWS &&
    nibbleMaps.all (fun x => (List.range x.2).all fun i => named (g (x.1 i))) &&
    fitted R.MOD.STACK_ASSIGN pgSTACK 32 && fitted R.MOD.LINK_ASSIGN pgLINK 48 &&
    rangeMaps.all (fun x => (List.range 8).all (fun p => decide (g (x.1 p) + g (x.2.1 p) ≤ x.2.2)) &&
      disjoint g (fun _ => true) x.1 x.2.1) &&
    kept R.MOD.CQ_ASSIGN (fun q => s.on (R.CQ.STAT.CLAIMED q)) &&
    kept R.MOD.QUOTA_ASSIGN (fun c => s.on (R.QUOTA.CTX_FLAGS.CLAIMED c)) &&
    stays R.MOD.SIG_RANGE.BASE R.MOD.SIG_RANGE.COUNT 4096 (fun c => Cells.get false s.sig.alloc c) &&
    stays R.MOD.GROUP_RANGE.BASE R.MOD.GROUP_RANGE.COUNT 256 s.grpBound

/-- The fields that define a partition. -/
def partFields (p : Nat) : List Fld :=
  [R.MOD.PART_DEF.FIRST_ROW p, R.MOD.PART_DEF.ROWS p, R.MOD.PART_DEF.VALID p]

/-- Whether the rows of a partition differ between two tables. -/
def rowsDiffer (old new : Fld → Nat) (p : Nat) : Bool := (partFields p).any fun f => decide (old f ≠ new f)

/-- Whether the pending table changes the rows or the resources of partition `p` (R35). -/
def State.changes (s : State) (p : Nat) : Bool :=
  rowsDiffer s.act s.pendCopy p ||
    nibbleMaps.any (fun x => (List.range x.2).any fun i =>
      decide (s.act (x.1 i) ≠ s.pendCopy (x.1 i) ∧ (s.act (x.1 i) = p ∨ s.pendCopy (x.1 i) = p))) ||
    rangeMaps.any (fun x => decide (s.act (x.1 p) ≠ s.pendCopy (x.1 p) ∨ s.act (x.2.1 p) ≠ s.pendCopy (x.2.1 p)))

/-- The partitions, defined before the commit, that it affects. -/
def State.affected (s : State) : List Nat := s.partitions.filter s.changes

/-- Whether MOD may not apply: an affected partition is neither in READY nor in QUIESCE (R35). -/
def State.notStopped (s : State) : Bool := s.affected.any fun p => decide (s.partState p ≠ 3 ∧ s.partState p ≠ 5)

/-- Whether a row shift is in progress in a row whose partition the pending table changes (R35). -/
def State.shiftInWay (s : State) : Bool :=
  s.part.shifts.any fun x => decide (partOfRowBy s.act x.row ≠ partOfRowBy s.pendCopy x.row) ||
    (List.range 8).any fun p => decide (partOfRowBy s.pendCopy x.row = some p) && rowsDiffer s.act s.pendCopy p

/-- An entry that comes to a partition other than its last one loses its VALID, SEQ, CHG and ABORT_VALID (R332). -/
def State.ownEntry (s : State) (n : Nat) : State :=
  match ownerIn s.act R.MOD.GROUP_RANGE.BASE R.MOD.GROUP_RANGE.COUNT n with
  | none => s
  | some p =>
    let last := Cells.get 0 s.coll.owners n
    let a := s.onColl fun c => { c with owners := Cells.put 0 c.owners n (p + 1) }
    if last = 0 ∨ last = p + 1 then a
    else
      let g := grpPage n
      let i := grpIdx n
      [R.COLL.GRP_CFG.VALID g i, R.COLL.GRP_SEQ g i, R.COLL.GRP_STAT.CHG g i, R.COLL.GRP_STAT.ABORT_VALID g i].foldl
        (fun u f => u.wr f 0) a

/-- A partition that the table defines anew is in READY, and one that it no longer defines is in no state. A partition whose
rows change leaves park, but not a forced one, which its new rows enter (R402, R414). -/
def State.partTable (s before : State) (p : Nat) : State :=
  if !rowsDiffer before.act s.act p then s
  else
    let a := if before.partValid p = s.partValid p then s
      else (s.setPartState p (if s.partValid p then 3 else 0)).wr (R.CFG.QHOLD p) 0
    if (a.rd R.PWR.PARK_STAT.FORCED).testBit p ∧ s.partValid p then a.gateTiles p
    else
    let f := setBit (a.rd R.PWR.PARK_STAT.FORCED) p false
    ((a.setParked p false).wr R.PWR.PARK_STAT.FORCED f).flag R.PWR.STAT.FORCED_PARK (decide (f ≠ 0))

/-- Whether a page responds: not a link of a failed I/O die, nor a failed stack (R60). -/
def State.responds (s : State) (pg : Nat) : Bool :=
  match pageAt pg with
  | some (.LINK, k) => !bitOf (s.rd R.MOD.IODIE_FAIL) (k / 4)
  | some (.STACK, k) => !s.on (R.STACK.STAT.FAILED k)
  | _ => true

/-- The pages of stacks and links, which may cease to respond. -/
def companionPages : List Nat := (List.range 32).map pgSTACK ++ (List.range 48).map pgLINK

/-- The PG_STAT.PART of stacks and links that respond follows the active assignment; one that does not respond keeps its old
one (R60). -/
def State.showParts (s before : State) : State :=
  (companionPages.filter fun pg => s.responds pg && decide (s.pagePart pg ≠ before.pagePart pg)).foldl
    (fun u pg => u.wr (R.PG.STAT.PART pg) ((s.pagePart pg).getD 15)) s

/-- The active table has changed from the one of `before`: partitions, rows and group entries follow. Rows that come from park
wait for the CLK page (R73). -/
def State.applyTable (s before : State) : State :=
  let a := (List.range 8).foldl (fun u p => u.partTable before p) s
  let gone := (List.range 24).filter fun r => (before.partOfRow r).isSome && (s.partOfRow r).isNone
  let b := gone.foldl State.dropRow a
  ((allGroups.foldl State.ownEntry b).steer.showFrac).showParts before

/-! ### Pages and scopes (R57, R60) -/

/-- The nibble that assigns a stack or a link. -/
def nibbleOf (pg : Nat) : Option Fld :=
  match pageAt pg with
  | some (.STACK, k) => some (R.MOD.STACK_ASSIGN k)
  | some (.LINK, k) => some (R.MOD.LINK_ASSIGN k)
  | _ => none

/-- Whether a page is in a scope (R57, R73), which follows the active assignment. A page that does not respond is not in the
scope of the commit that re-assigns it out of it, which MOD takes part in (R60). -/
def State.inScope (s : State) (parts : Nat) (glob : Bool) (pg : Nat) : Bool :=
  match pageAt pg with
  | none => false
  | some (.CLK, _) => glob || decide (parts ≠ 0)
  | some (t, _) =>
    if t.global then glob
    else
      match s.pagePart pg with
      | none => false
      | some p => parts.testBit p && (s.responds pg || !glob ||
          match nibbleOf pg with
          | some f => decide (s.shadow f < 8) && parts.testBit (s.shadow f)
          | none => true)

/-- Counts the pages of the scope that have not acknowledged. -/
def State.showMissing (s : State) : State :=
  s.wr R.MOD.COMMIT_STAT.MISSING (s.commit.pages.filter fun pg => !s.on (R.PG.STAT.ACKED pg)).length

/-- Keys of the register file that lie in a page. -/
def inPage (pg k : Nat) : Bool := decide (k / 64 / 0x1000 = pg / 0x1000)

/-- A file with the entries of a page replaced by those of another file. -/
def copyPage (dst src : Cells Nat) (c : Nat → Bool) : Cells Nat :=
  (src.filter fun x => c x.1).foldl (fun m x => Cells.insert m x.1 x.2) (Cells.clear dst c)

/-- Which staged fields a page of the scope applies; the CLK page applies its FRAC_P by partition. -/
def fracKey (p k : Nat) : Bool := decide (k = (R.CLK.FRAC_P p).key)

/-- Copies of staged fields move, where `c` says: shadow to pending; active to previous and pending to active; previous to
active (R47, R57, R59). -/
def State.toPending (s : State) (c : Nat → Bool) : State := { s with regs := { s.regs with pend := copyPage s.regs.pend s.regs.shadow c } }
def State.toActive (s : State) (c : Nat → Bool) : State :=
  { s with regs := { s.regs with prev := copyPage s.regs.prev s.regs.act c, act := copyPage s.regs.act s.regs.pend c } }
def State.toPrevious (s : State) (c : Nat → Bool) : State := { s with regs := { s.regs with act := copyPage s.regs.act s.regs.prev c } }

/-- Whether the pending copy of a page is legal (R57 step 2). -/
def State.pageLegal (s : State) (pg : Nat) : Bool :=
  match pageAt pg with
  | some (.MOD, _) => s.tableOk
  | some (.CLK, _) => (List.range 8).all fun p => !s.commit.parts.testBit p ||
      decide (2 ≤ s.pendCopy (R.CLK.FRAC_P p) ∧ s.pendCopy (R.CLK.FRAC_P p) ≤ 16)
  | some (.SILL, e) => decide (1 ≤ s.pendCopy (R.SILL.MERGE_CFG.MAX_JOIN e) ∧ s.pendCopy (R.SILL.MERGE_CFG.MAX_JOIN e) ≤ 64)
  | some (.LINK, k) =>
    let v := [R.LINK.CRED_CFG0.VC0 k, R.LINK.CRED_CFG0.VC1 k, R.LINK.CRED_CFG1.VC2 k, R.LINK.CRED_CFG1.VC3 k,
      R.LINK.CRED_CFG2.VC4 k, R.LINK.CRED_CFG2.VC5 k].map s.pendCopy
    v.all (fun n => decide (64 ≤ n)) && decide (v.sum ≤ 2048)
  | _ => true

/-! ### Work in progress in a page (R57 step 4) -/

/-- Whether a flight is the COMMIT command that requested the commit. -/
def State.isRequester (s : State) (q : Nat) (f : Flight) : Bool := s.commit.byQueue = some (q, f.idx)

/-- Whether a command of partition `p` other than the requesting COMMIT is in progress. -/
def State.partWorks (s : State) (p : Nat) : Bool :=
  (List.range 64).any fun q => (s.q q).flights.any fun f =>
    decide (f.owner.part = p ∨ s.queuePart q = some p) && !s.isRequester q f

/-- Whether a transfer in progress reads stack `k`, or a MOVE has a granule in it. -/
def State.stackWorks (s : State) (k : Nat) : Bool :=
  let on_ := fun a => decide (s.endOf a = .stack k)
  s.stream.entries.any (fun m => m.words.isNone && m.xfers.any fun x => on_ x.src) ||
    s.stream.waiting.any (fun x => on_ x.2.src) || s.stream.moves.any fun m => on_ m.src || on_ m.dst

/-- Whether a command has work in progress in a page. -/
def State.pageWorks (s : State) (pg : Nat) : Bool :=
  match pageAt pg with
  | some (.TILE, t) => !s.tileIdle t
  | some (.CQ, q) => (s.q q).flights.any fun f => !s.isRequester q f
  | some (.SILL, e) => decide (s.rd (R.SILL.STAT.SLOTS_USED e) ≠ 0 ∨ s.rd (R.SILL.STAT.OPEN e) ≠ 0)
  | some (.COLL, g) => s.coll.runs.any fun r => decide (r.eng = g)
  | some (.STACK, k) => s.stackWorks k
  | some (.LINK, k) => ((s.link k).waiting ++ (s.link k).replay).any fun f =>
      decide (f.src = s.rd R.MOD.FAB_NODE.NODE) && match f.body with
        | .readReq _ | .write _ _ _ | .moveData _ _ _ _ | .collData _ _ _ _ => true
        | _ => false
  | _ => false

/-! ### The commit (R57, R62) -/

/-- A commit request is accepted: the next generation is taken, and PENDING sets (R56, R57 step 1). The pages of the scope clear
ACKED and NAKED here, and keep what the last commit left them until then: the spec does not say when they clear (DESIGN CHOICE,
log entry 63). -/
def State.startCommit (s : State) (parts : Nat) (glob : Bool) (by_ : Option (Nat × Nat)) : State :=
  let n := s.rd R.MOD.COMMIT_GEN % 0xFFFFFFFF + 1
  let pages := allPages.filter (s.inScope parts glob)
  let a := pages.foldl (fun u pg => (u.wr (R.PG.STAT.ACKED pg) 0).wr (R.PG.STAT.NAKED pg) 0) s
  let b := { a with commit := ⟨parts, glob, pages, false, 0, none, none, none, false, false, [], 0, by_, []⟩ }
  ((b.wr R.MOD.COMMIT_GEN n).wr R.MOD.COMMIT_STAT.PENDING 1).showMissing

/-- COMMIT_DEADLINE as it acts. -/
def State.deadlineTicks (s : State) : Nat := max 1563 (s.rd R.MOD.COMMIT_DEADLINE)

/-- Queues of a scope show their state anew. -/
def State.showScope (s : State) : State :=
  ((List.range 8).filter s.commit.parts.testBit).foldl (fun u p => (u.queuesOf p).foldl State.showQueue u) s

/-- The scope enters HOLD (R57 step 6), and MOD raises an error for it. -/
def State.hold (s : State) (e : Option Err) : State :=
  let missing := ((s.commit.pages.filter fun pg => !s.on (R.PG.STAT.ACKED pg)).head?.map pgId).getD 0
  let a := (s.wr R.MOD.COMMIT_STAT.HELD 1).wr R.MOD.COMMIT_MISSING missing
  let b := a.onCommit fun c => { c with
    heldAt := c.heldAt.or (some s.time), stop := c.stop.or (some s.time), again := false, deadline := none }
  (match e with
    | some x => b.raise pgMOD x
    | none => b).showScope

/-- The commit is over. -/
def State.endCommit (s : State) (result : Nat) : State :=
  let a := (((s.wr R.MOD.COMMIT_STAT.LAST_RESULT result).wr R.MOD.COMMIT_STAT.PENDING 0).wr R.MOD.COMMIT_STAT.HELD 0).wr
    R.MOD.COMMIT_STAT.MISSING 0
  let b := (a.onCommit fun c => { c with cycleDone := false, stop := none, deadline := none, heldAt := none, again := false })
  b.showScope

/-- Every page of the scope has acknowledged: the generation is applied (R57 step 5), and the COMMIT command that requested
it completes (R170). -/
def State.checkApplied (s : State) : State :=
  if s.on R.MOD.COMMIT_STAT.PENDING ∧ s.commit.pages.all (fun pg => s.on (R.PG.STAT.ACKED pg)) ∧
      (!s.on R.MOD.COMMIT_STAT.HELD ∨ s.commit.again) then
    let a := (s.wr (R.PG.STAGE_GEN pgMOD) (s.rd R.MOD.COMMIT_GEN)).endCommit 1
    match s.commit.byQueue with
    | none => a
    | some (q, i) => (a.onFlight q i fun f => { f with left := f.left - 1 }).settle q i
  else s

/-- A page has applied the generation and acknowledges (R57 step 4). -/
def State.ackPage (s : State) (pg : Nat) : State :=
  let n := s.rd R.MOD.COMMIT_GEN
  let a := (((s.onCommit fun c => { c with oldGen := Cells.put 0 c.oldGen pg (s.rd (R.PG.STAGE_GEN pg)) }).wr
    (R.PG.STAGE_GEN pg) n).wr (R.PG.COMMIT_ACK pg) n).wr (R.PG.STAT.ACKED pg) 1
  (((a.wr (R.PG.IRQ_RAW.COMMIT pg) 1).edge s pg).showMissing).checkApplied

/-- A page refuses the pending copy (R57 step 2). -/
def State.nakPage (s : State) (pg : Nat) : State := (s.wr (R.PG.STAT.NAKED pg) 1).raise pg .STAGE_ILLEGAL

/-- The scope is held for a refusal, which MOD raises unless it has raised its own. -/
def State.refuseCommit (s : State) : State :=
  let own := s.commit.pages.contains pgMOD && s.on (R.PG.STAT.NAKED pgMOD)
  (s.wr R.MOD.COMMIT_STAT.LAST_RESULT 3).hold (if own then none else some .STAGE_ILLEGAL)

/-- The pages of the scope that a commit cycle reaches: those that respond and have not acknowledged. -/
def State.cyclePages (s : State) : List Nat := s.commit.pages.filter fun pg => s.responds pg && !s.on (R.PG.STAT.ACKED pg)

/-- Which staged fields a page takes part with. -/
def State.staged (s : State) (pg k : Nat) : Bool :=
  match pageAt pg with
  | some (.CLK, _) => (List.range 8).any fun p => s.commit.parts.testBit p && fracKey p k
  | _ => inPage pg k

/-- The commit cycle (R57 step 2): the pages copy shadow to pending and check it. -/
def State.commitCycle (s : State) : State :=
  let ps := s.cyclePages
  let a := s.toPending fun k => ps.any fun pg => s.staged pg k
  let bad := ps.filter fun pg => !a.pageLegal pg
  let b := ps.foldl (fun u pg => if bad.contains pg then u.nakPage pg else u.wr (R.PG.STAT.NAKED pg) 0) a
  let t := s.rd R.MOD.COMMIT_EPOCH
  let at_ := max t s.time
  let c := b.onCommit fun c => { c with cycleDone := true, epoch := t }
  if !bad.isEmpty then c.refuseCommit
  else if s.commit.again then (c.onCommit fun x => { x with refused := c.notStopped }).checkApplied
  else
    let d := c.onCommit fun x => { x with deadline := some (at_ + s.deadlineTicks) }
    if t ≤ s.time then (d.onCommit fun x => { x with stop := some s.time, refused := d.notStopped }).showScope else d

/-- COMMIT_CYCLE (R57 step 2): the clk_mgmt cycle after a GO. -/
def execCommitCycle (s : State) : Host.Outcome State Fault Refusal :=
  .next (if s.on R.MOD.COMMIT_STAT.PENDING ∧ !s.commit.cycleDone then s.commitCycle else s)

/-- COMMIT_EPOCH (R57 step 3): at tick T the queues of the scope stop issuing. -/
def execCommitEpoch (s : State) : Host.Outcome State Fault Refusal :=
  .next (if s.on R.MOD.COMMIT_STAT.PENDING ∧ s.commit.cycleDone ∧ s.commit.stop.isNone ∧ s.commit.epoch ≤ s.time then
      (s.onCommit fun c => { c with stop := some s.time, refused := s.notStopped }).showScope
    else s)

/-- COMMIT_DEADLINE (R57 step 6). -/
def execCommitDeadline (s : State) : Host.Outcome State Fault Refusal :=
  .next (match s.commit.deadline with
    | none => s
    | some d =>
      if s.on R.MOD.COMMIT_STAT.PENDING ∧ d ≤ s.time ∧ s.rd R.PWR.STAT.SHED = 0 ∧
          s.commit.pages.any (fun pg => !s.on (R.PG.STAT.ACKED pg)) then s.hold (some .COMMIT_LATE) else s)

/-! ### A page applies (R57 step 4, R73, R346) -/

/-- Whether the page may apply now. -/
def State.mayApply (s : State) (pg : Nat) : Bool :=
  s.on R.MOD.COMMIT_STAT.PENDING && s.commit.cycleDone && s.commit.stop.isSome && s.commit.pages.contains pg &&
    !s.on (R.PG.STAT.ACKED pg) && !s.on (R.PG.STAT.NAKED pg) && s.responds pg && !s.commit.barred.contains pg &&
    !s.pageWorks pg

/-- Rows that the table gives partition `ps` take fraction 2, and rows of those partitions start stepping at this frame
(R73). -/
def State.startRows (s : State) (ps : List Nat) : State := ((ps.foldl State.wakeRows s).retarget ps.contains s.time).showFrac

/-- The CLK page applies the fraction of each partition that has stopped, at a frame boundary, and acknowledges with the
last; rows of partitions outside the scope follow the table from there (R73). -/
def State.applyFrac (s : State) : State :=
  if !s.frameHere then s
  else
    let ps := (List.range 8).filter fun p => s.commit.parts.testBit p && !s.commit.frac.testBit p && !s.partWorks p
    let a := (s.toActive fun k => ps.any fun p => fracKey p k).onCommit fun c => { c with frac := ps.foldl (fun m p => m ||| 2 ^ p) c.frac }
    let b := a.startRows ps
    if (List.range 8).all fun p => !b.commit.parts.testBit p || b.commit.frac.testBit p then
      (b.ackPage pgCLK).startRows (List.range 8)
    else b

/-- MOD applies the partition table, unless a row shift is in its way (R35). A table that the shift has made illegal is
refused. -/
def State.applyMod (s : State) : State :=
  if s.commit.refused ∨ s.shiftInWay then s
  else if !s.tableOk then (s.nakPage pgMOD).refuseCommit
  else
    let a := s.toActive (inPage pgMOD)
    (a.applyTable s).ackPage pgMOD

/-- The shares of a link. -/
def credFields (k : Nat) : List Fld :=
  [R.LINK.CRED_CFG0.VC0 k, R.LINK.CRED_CFG0.VC1 k, R.LINK.CRED_CFG1.VC2 k, R.LINK.CRED_CFG1.VC3 k, R.LINK.CRED_CFG2.VC4 k,
   R.LINK.CRED_CFG2.VC5 k]

/-- Whether the pending copy of a link changes its shares. -/
def State.credChanges (s : State) (k : Nat) : Bool := (credFields k).any fun f => decide (s.pendCopy f ≠ s.act f)

/-- A page applies the generation and acknowledges. A link whose shares change drains first, while it carries traffic or
retrains; one that trains announces them in a further HELLO (R346). A page whose exchange is under way waits for its end. -/
def State.applyPage (s : State) (pg : Nat) : State :=
  match pageAt pg with
  | some (.MOD, _) => s.applyMod
  | some (.CLK, _) => s.applyFrac
  | some (.SILL, e) =>
    let a := s.toActive (inPage pg)
    (a.wr (R.SILL.STAT.MERGE_ON e) (a.act (R.SILL.MERGE_CFG.EN e))).ackPage pg
  | some (.LINK, k) =>
    let d := (s.link k).drain
    if d.sent ∨ d.change then s
    else if s.credChanges k ∧ 3 ≤ s.rd (R.LINK.STAT.STATE k) then
      s.onLink k fun x => { x with drain := { d with on := true, change := true, apply := true } }
    else
      let a := s.toActive (inPage pg)
      (if s.credChanges k ∧ s.rd (R.LINK.STAT.STATE k) = 2 then a.emit (.hello k (a.ownHello k)) else a).ackPage pg
  | _ => (s.toActive (inPage pg)).ackPage pg

/-- PAGE_APPLY (R57 step 4), by the number of the page: its base is 0x1000 times that. -/
def execPageApply (page : Fin 1984) (s : State) : Host.Outcome State Fault Refusal :=
  .next (if s.mayApply (0x1000 * page.val) then s.applyPage (0x1000 * page.val) else s)

/-! ### The exchange of initial credits (R346) -/

/-- Whether every class of a link holds its INIT. -/
def State.drained (s : State) (k : Nat) : Bool :=
  classes.all fun c => decide (s.rd (R.LINK.LED_HELD k c) = s.rd (R.LINK.LED_INIT k c))

/-- Sends CONFIG with this receiver's initial credits; a change of a commit takes effect with it. -/
def State.sendConfig (s : State) (k : Nat) : State :=
  let d := (s.link k).drain
  let a := if d.apply && d.change then s.toActive (inPage (pgLINK k)) else s
  let f := a.ownFrame 0 0 0 0 (.config (classes.map (a.initOf k)))
  (a.onLink k fun x => { x with drain := { d with change := false, sent := true } }).startFrame k f (s.link k).turn

/-- The peer's new initial credits take effect. -/
def State.takeInits (s : State) (k : Nat) (inits : List Nat) : State :=
  classes.foldl (fun v c =>
    let n := inits.getD c 0
    (v.wr (R.LINK.LED_HELD k c) (v.rd (R.LINK.LED_HELD k c) + n - v.rd (R.LINK.LED_INIT k c))).wr (R.LINK.LED_INIT k c) n) s

/-- Whether the LINK page still owes the pending commit its acknowledgement. -/
def State.owesAck (s : State) (pg : Nat) : Bool :=
  s.on R.MOD.COMMIT_STAT.PENDING && s.commit.pages.contains pg && !s.on (R.PG.STAT.ACKED pg) && !s.on (R.PG.STAT.NAKED pg)

/-- Both sides have sent CONFIG: the link resumes and its page acknowledges the commit. Where a rollback has changed the shares
once more, a further exchange follows. -/
def State.endConfig (s : State) (k : Nat) : State :=
  let d := (s.link k).drain
  match d.peer with
  | none => s
  | some inits =>
    if !d.sent then s
    else
      let a := (s.takeInits k inits).onLink k fun x => { x with drain := ⟨d.change, d.change, false, false, none⟩ }
      let b := if d.apply && a.owesAck (pgLINK k) then a.ackPage (pgLINK k) else a
      b.goOn k

/-- CREDIT_DRAIN (R346): every class of a draining link holds its INIT: it sends CONFIG, and resumes once the peer's has come. -/
def execCreditDrain (k : Fin 48) (s : State) : Host.Outcome State Fault Refusal :=
  .next (let d := (s.link k).drain
    if !d.on ∨ d.sent ∨ !s.linkUp k ∨ (s.link k).resend.isSome ∨ !s.drained k ∨ (d.apply ∧ !s.responds (pgLINK k)) then s
    else (s.sendConfig k).endConfig k)

/-- CONFIG (R346): the peer has drained its side and announces its initial credits. This side drains and answers with its own,
unless it has sent it (log entry 92). -/
def execConfigFrame (k : Fin 48) (f : Frame) (s : State) : Host.Outcome State Fault Refusal :=
  .next (match f.body with
    | .config inits => s.takeFrame k f fun u =>
        (u.onLink k fun x => { x with drain := { x.drain with on := true, peer := some inits } }).endConfig k
    | _ => s)

/-! ### RECOMMIT and ROLLBACK (R59) -/

/-- RECOMMIT: the same generation is tried again, with a new deadline. -/
def State.recommit (s : State) : State :=
  s.onCommit fun c => { c with cycleDone := false, again := true, barred := [], heldAt := some s.time, deadline := some (s.time + s.deadlineTicks) }

/-- A page that applied the generation returns to its previous copy. -/
def State.rollPage (s : State) (pg : Nat) : State :=
  let b := match pageAt pg with
    | some (.MOD, _) => (s.toPrevious (inPage pg)).applyTable s
    | some (.CLK, _) => s
    | some (.SILL, e) =>
      let a := s.toPrevious (inPage pg)
      a.wr (R.SILL.STAT.MERGE_ON e) (a.act (R.SILL.MERGE_CFG.EN e))
    | some (.LINK, k) =>
      let a := s.toPrevious (inPage pg)
      let moved := (credFields k).any fun f => decide (a.act f ≠ s.act f)
      if !moved then a
      else if 3 ≤ s.rd (R.LINK.STAT.STATE k) then a.onLink k fun x => { x with drain := { x.drain with on := true, change := true } }
      else if s.rd (R.LINK.STAT.STATE k) = 2 then a.emit (.hello k (a.ownHello k)) else a
    | _ => s.toPrevious (inPage pg)
  let c := (b.wr (R.PG.STAGE_GEN pg) (Cells.get 0 s.commit.oldGen pg)).wr (R.PG.IRQ_RAW.COMMIT pg) 1
  c.edge s pg

/-- A link that has begun to drain for the commit and has not acknowledged goes on without the change; one whose CONFIG has gone
returns to its previous shares by a further exchange. -/
def State.stopDrain (s : State) (pg : Nat) : State :=
  match pageAt pg with
  | some (.LINK, k) =>
    let d := (s.link k).drain
    if !d.apply then s
    else if d.sent then (s.toPrevious (inPage pg)).onLink k fun x => { x with drain := { d with change := true, apply := false } }
    else (s.onLink k fun x => { x with drain := { d with on := d.peer.isSome, change := false, apply := false } }).pump k
  | _ => s

/-- Rows follow the table that stands once more: those in no partition, and those retired, are at park (R32, R73). -/
def State.settleRows (s : State) : State :=
  ((List.range 24).foldl (fun u r => if ((s.partOfRow r).isNone ∨ s.rowRetired r) ∧ (s.rowFrac r).eff ≠ 0 then u.setRow r ⟨0, none⟩ else u)
    s).startRows (List.range 8)

/-- ROLLBACK: the generation is retired, and a COMMIT command that waits on the scope ends with COMMIT_FAILED (R170). -/
def State.rollback (s : State) : State :=
  let done := s.commit.pages.filter fun pg => s.on (R.PG.STAT.ACKED pg)
  let late := s.commit.pages.filter fun pg => !s.on (R.PG.STAT.ACKED pg)
  let f := s.toPrevious fun k => (List.range 8).any fun p => s.commit.frac.testBit p && fracKey p k
  let a := late.foldl State.stopDrain (done.foldl State.rollPage f)
  let b := (a.endCommit 2).settleRows.raise pgMOD .COMMIT_ROLLBACK
  match s.commit.byQueue with
  | none => b
  | some (q, i) =>
    match b.flight q i with
    | none => b
    | some x => b.faultCmd q i x.tag .COMMIT_FAILED true

/-- HOLD_AUTO_EXPIRY (R452): the island rolls a scope back. -/
def execHoldAutoExpiry (s : State) : Host.Outcome State Fault Refusal :=
  .next (match s.commit.heldAt with
    | none => s
    | some t =>
      let n := s.rd R.CFG.HOLD_AUTO
      if s.on R.MOD.COMMIT_STAT.HELD ∧ n ≠ 0 ∧ t + n ≤ s.time then
        ((s.bump R.CFG.AUTO_ROLLBACKS 1).raise pgMOD .HOLD_AUTO_ROLLBACK).rollback
      else s)

/-! ### Requests (R62) -/

/-- A GO of COMMIT_CTRL over a path. -/
def State.commitGo (s : State) (path : Path) (parts : Nat) (glob : Bool) (op : Nat) : State :=
  let pending := s.on R.MOD.COMMIT_STAT.PENDING
  let held := s.on R.MOD.COMMIT_STAT.HELD
  if op = 0 ∧ (pending ∨ held) then s.raise pgMOD .COMMIT_BUSY
  else if op = 0 ∧ parts ≠ 0 ∧ s.rd R.PWR.STAT.SHED ≠ 0 then s.raise pgMOD .COMMIT_BUSY
  else if (op = 1 ∨ op = 2) ∧ !held then s.raise pgMOD .COMMIT_BUSY
  else if op = 3 then s.badAccess path R.MOD.COMMIT_CTRL.GO.addr
  else if parts = 0 ∧ !glob then s
  else
    match op with
    | 0 => s.startCommit parts glob none
    | 1 => s.recommit
    | _ => s.rollback

/-- COMMIT_CTRL is written with GO. With OP 3 nothing changes (R62). -/
def State.commitCtrl (s : State) (path : Path) (parts : Nat) (glob : Bool) (op : Nat) : State :=
  let a := if op = 3 then s else ((s.wr R.MOD.COMMIT_CTRL.SCOPE parts).flag R.MOD.COMMIT_CTRL.GLOBAL glob).wr R.MOD.COMMIT_CTRL.OP op
  a.commitGo path parts glob op

/-- COMMIT_REQUEST, RECOMMIT and ROLLBACK (R57, R59, R62). -/
def execCommitRequest (p : Path) (scope : BitVec 8) (glob : Bool) (s : State) : Host.Outcome State Fault Refusal :=
  .next (s.onWrite p R.MOD.COMMIT_CTRL.GO.addr 4 none fun s => s.commitCtrl p scope.toNat glob 0)
def execRecommit (p : Path) (scope : BitVec 8) (glob : Bool) (s : State) : Host.Outcome State Fault Refusal :=
  .next (s.onWrite p R.MOD.COMMIT_CTRL.GO.addr 4 none fun s => s.commitCtrl p scope.toNat glob 1)
def execRollback (p : Path) (scope : BitVec 8) (glob : Bool) (s : State) : Host.Outcome State Fault Refusal :=
  .next (s.onWrite p R.MOD.COMMIT_CTRL.GO.addr 4 none fun s => s.commitCtrl p scope.toNat glob 2)

/-! ### The COMMIT command (R169, R170) -/

/-- The writes of a COMMIT: offset and value. -/
def commitWrites (e : Nat) : List (Nat × Nat) :=
  ((List.range 5).map fun i => (field e (24 + 8 * i) 31 0, field e (24 + 8 * i) 63 32)).filter fun w => decide (w.1 ≠ 0)

/-- Whether an offset is a target of a COMMIT of partition `p`: a register with staged fields in a page of the partition, or
the partition's fraction. -/
def State.commitTarget (s : State) (p a : Nat) : Bool :=
  match regAt a with
  | none => false
  | some row => row.fields.any (fun f => decide (f.ty = .ST)) &&
      (decide (s.pagePart (pageBase a) = some p) || decide (a = (R.CLK.FRAC_P p).addr))

/-- A COMMIT at HEAD. -/
def State.runCommit (s : State) (q i e : Nat) : State :=
  let p := (s.queuePart q).getD 8
  let ws := commitWrites e
  let ok := bareHeader e && cmdOp e = 0
  match firstErr [errIf (!ok) .CMD_FIELD, s.checkCounters q e, errIf (!ws.all fun w => s.commitTarget p w.1) .COMMIT_TARGET] with
  | some er => s.faultHead q e er
  | none =>
    let a := (s.issue q { s.newFlight q i e [] with left := 1 }).wr R.MOD.COMMIT_EPOCH (field e 16 63 0)
    let b := ws.foldl (fun u w => match regAt w.1 with
      | some row => u.writeFields w.1 w.2 row
      | none => u) a
    b.startCommit (2 ^ p) false (some (q, i))

/-- COMMIT (R169): it waits while a commit is pending or held, and while the module is shed. -/
def execCommitCmd (q : Fin 64) (s : State) : Host.Outcome State Fault Refusal :=
  .next (if s.rd R.PWR.STAT.SHED ≠ 0 then s else s.issueHead q.val (fun e => cmdClass e = clsCommit) fun u i e => u.runCommit q.val i e)

end Sys2Proof.Machine
end

