-- ==== Sys2Proof/Machine/Reads.lean ====
section
/-! DEFINITION. Reads of BAR0: what a register shows, the snapshot shadows, the halves of a 64-bit register, and what a
virtual function sees (R36 to R38, R55, R489). -/

namespace Sys2Proof.Machine

/-! ### Registers that show something else the module holds -/

/-- The low `w` bits of a field that a read path sees in its place (R130). -/
def State.showPath (s : State) (p : Path) (fs : List Fld) : State := fs.foldl (fun u f => u.wr f (s.pathRd p f)) s

/-- The seconds of a count of `limit` seconds that are left since edge `since`. -/
def State.remain (s : State) (limit : Nat) (since : Option Nat) : Nat :=
  match since with
  | none => limit
  | some t => limit - (s.now - t) / Config.ticksPerS

/-- The registers of the SIG page that show a path's results, or the selected counter (R156, R174, R175). -/
def State.showSig (s : State) (p : Path) (a : Nat) : State :=
  if a = R.SIG.QALLOC.GO.addr then s.showPath p [R.SIG.QALLOC.INDEX, R.SIG.QALLOC.FAIL]
  else if a = R.SIG.CALLOC_RES.BASE.addr then s.showPath p [R.SIG.CALLOC_RES.BASE, R.SIG.CALLOC_RES.FAIL]
  else if a = R.SIG.CTR_VAL.VALUE.addr then
    let i := s.rd R.SIG.CTR_SEL.INDEX
    ((s.wr R.SIG.CTR_VAL.VALUE (s.ctr i)).flag R.SIG.CTR_VAL.ALLOC (Cells.get false s.sig.alloc i)).flag R.SIG.CTR_VAL.OVF
      (Cells.get false s.sig.ovf i)
  else s

/-- The registers of the QUOTA page that show a path's results, or a context's partition (R257, R264). -/
def State.showQuota (s : State) (p : Path) (a : Nat) : State :=
  if a = R.QUOTA.OP_RESULT.addr then s.showPath p [R.QUOTA.OP_RESULT]
  else if a = R.QUOTA.CTX_ALLOC.GO.addr then s.showPath p [R.QUOTA.CTX_ALLOC.INDEX, R.QUOTA.CTX_ALLOC.FAIL]
  else if (R.QUOTA.CTX_FLAGS.PART 0).addr ≤ a ∧ a % 0x20 = 0xC then
    let c := (a - (R.QUOTA.CTX_FLAGS.PART 0).addr) / 0x20
    s.wr (R.QUOTA.CTX_FLAGS.PART c) ((s.ctxPart c).getD 15)
  else s

/-- Where a tile lies (R14, R15). -/
def State.showLoc (s : State) (t : Nat) : State :=
  ((s.wr (R.TILE.LOC.PHYS_COL t) (s.tileCol t)).wr (R.TILE.LOC.DOMAIN t) (s.tileDomain t)).flag (R.TILE.LOC.RETIRED t)
    (s.on (R.SPARE.ROWMAP.RETIRED (t / 40)))

/-- The island's ledger of the selected link (R472, R474). -/
def State.showLink (s : State) : State :=
  let x := s.ledgerOf (s.rd R.LEDG.LINK_SEL)
  let a := match x.peer with
    | some n => ((s.wr R.LEDG.LINK_LAST_PEER.NODE n.1).wr R.LEDG.LINK_LAST_PEER.LINK n.2).wr R.LEDG.LINK_LAST_PEER.VALID 1
    | none => s
  ((a.wr R.LEDG.LINK_LAST_TX x.tx).wr R.LEDG.LINK_LAST_RX x.rx).wr R.LEDG.LINK_LOST x.lost

/-- The state with what the register at `a`, of a page's own registers, shows written into its fields. -/
def State.shownBlock (s : State) (p : Path) (a : Nat) : State :=
  match pageAt a with
  | some (.MOD, _) =>
    if a = R.MOD.STATE.addr then s.wr R.MOD.STATE s.modRead
    else if a = (R.MOD.PART_STATE 0).addr then (List.range 8).foldl (fun u q => u.wr (R.MOD.PART_STATE q) (s.partRead q)) s
    else s
  | some (.TB, _) => if a = R.TB.STAT.SYNC.addr then s.showLock else s
  | some (.SIG, _) => s.showSig p a
  | some (.QUOTA, _) => s.showQuota p a
  | some (.CQ, q) => if a = (R.CQ.STAT.STATE q).addr then s.showQueue q else s
  | some (.TILE, t) =>
    if a = (R.TILE.LOC.ROW t).addr then s.showLoc t
    else if a = (R.TILE.WIN_ALLOC.GO t).addr then s.showPath p [R.TILE.WIN_ALLOC.INDEX t, R.TILE.WIN_ALLOC.FAIL t]
    else s
  | some (.PDOM, d) => if a = (R.PDOM.VEFF d).addr then s.wr (R.PDOM.VEFF d) (s.domTarget d) else s
  | some (.CFG, _) =>
    if a = R.CFG.WDOG_STAT.addr then s.wr R.CFG.WDOG_STAT (s.remain s.wdogSeconds s.boot.wdogAt)
    else if a = R.CFG.HOST_STAT.LOST.addr then
      s.wr R.CFG.HOST_STAT.REMAIN_S (if s.host.lostAt.isSome then s.remain (s.rd R.CFG.REATTACH) s.host.lostAt else 0)
    else s
  | some (.MGMT, _) => s.showAges
  | some (.TAG, _) => s.showAges
  | some (.LEDG, _) => s.showLink
  | some (.NOSE, _) => (List.range 8).foldl State.showRuns s
  | _ => s

/-- The value of the register `row` at `a`: its fields; reserved bits read zero (R9). -/
def State.rowValue (s : State) (a : Nat) (row : RegRow) : Nat :=
  row.fields.foldl (fun v r => v + s.readField a r * 2 ^ r.lo) 0

/-- The value of the register that starts at `a`. -/
def State.regValue (s : State) (a : Nat) : Nat :=
  match regAt a with
  | some row => s.rowValue a row
  | none => 0

/-! ### The header (R39, R51, R55) -/

/-- The sources of a page's snapshot shadows: registers, and whether the high half. -/
def snapSources (t : PageTy) (i : Nat) : List (Nat × Bool) :=
  let lo := fun (fs : List Fld) => fs.map fun f => (f.addr, false)
  match t with
  | .CLK => lo [R.CLK.FRAC_EFF 0, R.CLK.FRAC_EFF 4, R.CLK.STATUS.LOCK]
  | .TB => [(R.TB.TIME.addr, false), (R.TB.TIME.addr, true), (R.TB.STAT.SYNC.addr, false)]
  | .TILE => lo [R.TILE.LOC.ROW i, R.TILE.SPAD_STAT.UNSET i, R.TILE.MX_STAT.BUSY i, R.TILE.MX_BUSY i] ++ [((R.TILE.MX_BUSY i).addr, true)]
  | .CQ => lo [R.CQ.HEAD i, R.CQ.DONE i, R.CQ.STAT.STATE i]
  | .SILL => lo [R.SILL.STAT.OPEN i, R.SILL.XFERS i, R.SILL.ENTRIES i, R.SILL.JOINS i, R.SILL.FETCHES i]
  | .QUOTA => lo ((List.range 3).map R.QUOTA.TIER_FREE ++ (List.range 3).map R.QUOTA.TIER_HOME)
  | .STACK => lo [R.STACK.STAT.FAILED i]
  | .COLL => lo [R.COLL.STAT.RUNNING i, R.COLL.BYTES_SENT i, R.COLL.BYTES_RECV i, R.COLL.PEER_WAIT i, R.COLL.TOK_SENT i,
      R.COLL.TOK_RECV i, R.COLL.TOK_RET i, R.COLL.TOK_BOUNCED i]
  | .LINK => lo [R.LINK.STAT.STATE i, R.LINK.TX_CW i, R.LINK.RX_CW i]
  | .NOSE => lo ((List.range 8).map R.NOSE.REPLAY_STAT.PHASE)
  | .PWR => lo [R.PWR.P_MOD, R.PWR.ENV_SET, R.PWR.STAT.SHED]
  | .PDOM => lo [R.PDOM.VOUT.OUT_MV i, R.PDOM.I_AVG.AVG_DA i, R.PDOM.STAT.STATE i]
  | .MGMT => lo [R.MGMT.ROLE.LEAD, R.MGMT.LOAD.SHARE1]
  | .LEDG => lo ([R.LEDG.TOK_SENT, R.LEDG.TOK_RECV, R.LEDG.TOK_RET, R.LEDG.TOK_BOUNCED] ++ (List.range 5).map R.LEDG.EVT_CLASS)
  | .TAG => lo [R.TAG.STAT.QUEUE]
  | .HOST => lo [R.HOST.PORT_STAT.ATTACHED 0, R.HOST.PORT_STAT.ATTACHED 1, R.HOST.PART_SERVE 0]
  | .MOD | .FUSE | .CFG | .SIG | .SPARE | .FLASH => []

/-- The state with the registers as a snapshot froze them. -/
def State.asSnap (s : State) (r : SnapRec) : State := { s with regs := { s.regs with cells := r.cells, act := r.act } }

/-- Whether a page took part in a snapshot: its SNAP_EN was 1, and it had not lost core power in Drydown or in a warm reset's stop, a
tile that of its own domain (R55, R86, R427, R448). -/
def State.tookPart (s : State) (r : SnapRec) (pg : Nat) (t : PageTy) : Bool :=
  let u := s.asSnap r
  let ds := match pageAt pg with
    | some (.TILE, i) => [u.tileDomain i]
    | _ => List.range 84
  u.on (R.PG.CTRL.SNAP_EN pg) && (islandPage t || !r.dry || ds.any fun d => Cells.get false r.rails (5 * 128 + d))

/-- PG_SNAPk of a page, from the last snapshot it took part in. What the snapshot itself wrote into the registers of the
timebase, the queues, the cards, the tag and the Nose is read as it stands there. -/
def State.snapWord (s : State) (pg k : Nat) : Nat :=
  match pageAt pg with
  | none => 0
  | some (t, i) =>
    match s.snap.taken.find? fun r => s.tookPart r pg t with
    | none => 0
    | some r =>
      if k = 15 then r.seq % 2 ^ 32
      else
        match (snapSources t i)[k]? with
        | none => 0
        | some (a, hi) =>
          let u := s.asSnap r
          let v := (match t with
            | .TB | .CQ | .MGMT | .TAG | .NOSE => u
            | _ => u.shownBlock (.sideband .a) a).regValue a
          (if hi then v / 2 ^ 32 else v) % 2 ^ 32

/-- Whether a shadow copy of a page differs from its active copy (PG_STAT.STAGE_DIRTY). -/
def State.stageDirty (s : State) (pg : Nat) : Bool := (stagedOf pg).any fun f => decide (s.shadow f ≠ s.act f)

/-- PG_STAT.PART of a page: 0xF for none. A stack or link shows the last one it took while it responded (R60). -/
def State.statPart (s : State) (pg : Nat) : Nat :=
  match pageAt pg with
  | some (.STACK, _) | some (.LINK, _) => s.rd (R.PG.STAT.PART pg)
  | _ => (s.pagePart pg).getD 15

/-- The pages whose PG_CTRL.EN always reads 1 (R68). -/
def alwaysOn (pg : Nat) : Bool := decide (pg = pgCLK ∨ pg = pgTB)

/-- The state with what the header register at page offset `o` shows written into its fields. -/
def State.shownHeader (s : State) (pg o : Nat) : State :=
  if o = 0x0 then (s.wr (R.PG.ID.TYPE pg) (pgId pg / 65536)).wr (R.PG.ID.INST pg) (pgId pg % 65536)
  else if o = 0x4 then s.wr (R.PG.VER.PROFILES pg) s.fuses.profiles
  else if o = 0x14 then
    let global := match pageAt pg with
      | some (t, _) => t.global
      | none => false
    (((((s.flag (R.PG.STAT.IDLE pg) (!s.pageWorks pg)).flag (R.PG.STAT.FITTED pg) (s.fitted pg)).flag (R.PG.STAT.ENABLED pg)
      (s.on (R.PG.CTRL.EN pg))).flag (R.PG.STAT.STAGE_DIRTY pg) (s.stageDirty pg)).flag (R.PG.STAT.GLOBAL pg)
      global).wr (R.PG.STAT.PART pg) (s.statPart pg)
  else if 0x40 ≤ o then s.wr ⟨pg + o, 0, 32, 0⟩ (s.snapWord pg ((o - 0x40) / 4))
  else s

/-- The state with what the register at `a` shows written into its fields. -/
def State.shown (s : State) (p : Path) (a : Nat) : State :=
  if a % 0x1000 < 0x80 then s.shownHeader (pageBase a) (a % 0x1000) else s.shownBlock p a

/-- The value of the register that starts at `a`, as a path reads it. -/
def State.readReg (s : State) (p : Path) (a : Nat) : Nat := (s.shown p a).regValue a

/-! ### Accesses (R36 to R38, R489) -/

/-- A register of SIG or CFG that serves the requests of every partition, read by VF `v`: its PART, queue or counters are
those of `v` (R489). -/
def State.vfOwn (s : State) (a : Nat) (w : Nat → Nat → Nat) : Option Nat :=
  if a = R.SIG.QALLOC.GO.addr then some (w 2 0)
  else if a = R.SIG.CALLOC.GO.addr then some (w 2 0)
  else if a = R.SIG.QFREE.GO.addr then s.queuePart (w 5 0)
  else if a = R.SIG.CFREE.GO.addr then s.ctrsPart (w 11 0) (sigCount 0 (w 22 16))
  else if a = R.CFG.PART_CTRL.GO.addr then some (w 2 0)
  else none

/-- Whether the page of `a` is module-wide. -/
def globalAt (a : Nat) : Bool :=
  match pageAt a with
  | some (t, _) => t.global
  | none => false

/-- Whether a read of a path at `a` is served (R489). -/
def State.mayRead (s : State) (p : Path) (a : Nat) : Bool :=
  match pathVf p with
  | none => true
  | some v => globalAt a || s.vfWrites v a (s.vfOwn a fun hi lo => bitsOf (s.regValue a) hi lo)

/-- Whether an access is naturally aligned and of 32 or 64 bits (R36). -/
def alignedAccess (a n : Nat) : Bool := decide ((n = 4 ∨ n = 8) ∧ a % n = 0)

/-- Whether the register that starts at `a` has 64 bits. -/
def wideAt (a : Nat) : Bool :=
  match regAt a with
  | some row => row.wide
  | none => false

/-- Payload of register reads of a host port (HOST.TX_BYTES). -/
def State.countTx (s : State) (p : Path) (n : Nat) : State :=
  match p with
  | .host .a _ => s.bump R.HOST.TX_BYTES_A n
  | .host .b _ => s.bump R.HOST.TX_BYTES_B n
  | .sideband _ => s

/-- A read of 32 bits in a fitted page: the low half of a 64-bit register latches the high half, which a read of the high
half returns (R38). -/
def State.read32 (s : State) (p : Path) (a : Nat) : State × Nat :=
  let k := halfKey p (pageBase a)
  if wideAt a then
    let v := s.readReg p a
    ({ s with regs := { s.regs with hold := Cells.put 0 s.regs.hold k (BitVec.ofNat 32 (v / 2 ^ 32)) } }, v % 2 ^ 32)
  else if a % 8 = 4 ∧ wideAt (a - 4) then (s, (Cells.get 0 s.regs.hold k).toNat)
  else (s, s.readReg p a)

/-- The register at `a` as a path reads it: zero where a VF is not served (R489). -/
def State.served (s : State) (p : Path) (a : Nat) : Nat := if s.mayRead p a then s.readReg p a else 0

/-- A read of a path, and the value it returns. Of two registers that one access reads, each is served or not on its own. -/
def State.busRead (s : State) (p : Path) (a n : Nat) : State × Nat :=
  if !alignedAccess a n then (s.when (decide (s.modState ≠ 0)) fun u => u.badAccess p a, 0)
  else if !s.answers p a then (s, 0)
  else
    let t := s.countTx p n
    if !s.fitted a then
      (t, if a % 0x1000 = 0 ∨ a % 0x1000 = 0x14 then t.readReg p a % 2 ^ (8 * n)
        else if a % 0x1000 = 0x10 ∧ n = 8 then t.readReg p (a + 4) * 2 ^ 32 else 0)
    else if n = 8 ∧ !wideAt a then (t, t.served p a + t.served p (a + 4) * 2 ^ 32)
    else if !t.mayRead p a then (t, 0)
    else if n = 4 then t.read32 p a
    else (t, t.readReg p a)

/-- BAD_ACCESS (R36): an access of `n` bytes that is narrower, wider or misaligned has no effect, and a read returns zero;
an access of the right form does nothing here. -/
def execBadAccess (p : Path) (off : BitVec 26) (n : Nat) (write : Bool) (s : State) : Host.Outcome State Fault Refusal :=
  let a := s.when (!alignedAccess off.toNat n && decide (s.modState ≠ 0)) fun u => u.badAccess p off.toNat
  .next (if write || alignedAccess off.toNat n then a else a.emit (.readData p 0))

end Sys2Proof.Machine
end

