-- ==== Sys2Proof/Machine/Bar2.lean ====
section
/-! DEFINITION. BAR2 of the host's functions: doorbell pages, the function page, the MSI-X table and the PBA (R488, R491,
R497); and the reads of a path. -/

namespace Sys2Proof.Machine

/-- The places of BAR2. -/
def barFn : Nat := 0x40000
def barTable : Nat := 0x50000
def barPba : Nat := 0x58000

/-- Whether a page raises as a function sees it: only as a source that it receives (R497). -/
def State.showsRaise (s : State) (port : Port) (fn pg : Nat) : Bool :=
  s.raising pg && (vectorOf pg).any fun v => (s.receivers pg v).contains (port, fn)

/-- A summary word: bit `i` for page `32 * j + i` of `n`. -/
def State.sumWord (s : State) (port : Port) (fn n j : Nat) (pg : Nat → Nat) : Nat :=
  (List.range 32).foldl (fun v i => if 32 * j + i < n ∧ s.showsRaise port fn (pg (32 * j + i)) then v + 2 ^ i else v) 0

/-- A word of the function page (R497). -/
def State.fnWord (s : State) (port : Port) (fn o : Nat) : Nat :=
  if o = 0 then fn + 256 * portIx port
  else if o = 8 then Cells.get 0 s.host.claimed (fnKey port fn)
  else if o = 0x10 then Cells.get 0 s.host.rearm (fnKey port fn)
  else if 0x20 ≤ o ∧ o < 0x30 then
    (List.range 32).foldl (fun v i => if s.vecRaises port fn ((o - 0x20) * 8 + i) then v + 2 ^ i else v) 0
  else if 0x40 ≤ o ∧ o < 0xB8 then s.sumWord port fn 960 ((o - 0x40) / 4) pgTILE
  else if o = 0xC0 ∨ o = 0xC4 then s.sumWord port fn 48 ((o - 0xC0) / 4) pgLINK
  else if o = 0xC8 then s.sumWord port fn 32 0 pgSTACK
  else if 0xD0 ≤ o ∧ o < 0xDC then s.sumWord port fn 84 ((o - 0xD0) / 4) pgPDOM
  else 0

/-- A word of the MSI-X table: the message address, its data and the vector control, whose bit 0 masks (R497). -/
def State.tableWord (s : State) (port : Port) (fn o : Nat) : Nat :=
  let k := vecKey port fn (o / 16)
  if o % 16 = 12 then (if Cells.get false s.msix.unmasked k then 0 else 1) else Cells.get 0 s.msix.table (4 * k + o % 16 / 4)

/-- A word of the PBA: bit `i` for vector `32 * j + i`. -/
def State.pbaWord (s : State) (port : Port) (fn j : Nat) : Nat :=
  (List.range 32).foldl (fun v i => if Cells.get false s.msix.pba (vecKey port fn (32 * j + i)) then v + 2 ^ i else v) 0

/-- A word of a queue's doorbell page (R491). -/
def State.doorWord (s : State) (p : Path) (q o : Nat) : Nat :=
  if o = 0 then s.readReg p (R.CQ.TAIL q).addr
  else if o = 4 then s.readReg p (R.CQ.HEAD q).addr
  else if o = 8 then s.readReg p (R.CQ.DONE q).addr
  else if o = 0xC then s.readReg p (R.CQ.STAT.STATE q).addr
  else 0

/-- The 32-bit word of BAR2 at `a`, as a function reads it; offsets that hold nothing read zero (R491). -/
def State.barWord (s : State) (port : Port) (fn a : Nat) : Nat :=
  if a < barFn then (if s.seesDoorbell fn (a / 0x1000) then s.doorWord (.host port fn) (a / 0x1000) (a % 0x1000) else 0)
  else if a < barFn + 0x1000 then s.fnWord port fn (a - barFn)
  else if barTable ≤ a ∧ a < barTable + 2048 then s.tableWord port fn (a - barTable)
  else if barPba ≤ a ∧ a < barPba + 16 then s.pbaWord port fn ((a - barPba) / 4)
  else 0

/-- Whether BAR2 of a function takes an access of `n` bytes at `a`: as BAR0 does, naturally aligned (DESIGN CHOICE, log entry 121:
the spec gives R36 for BAR0). -/
def State.barOpen (s : State) (p : Path) (a n : Nat) : Bool := s.answers p pgHOST && alignedAccess a n

/-- A read of BAR2. -/
def State.barRead (s : State) (p : Path) (a n : Nat) : State × Nat :=
  match p with
  | .host port fn =>
    if s.barOpen p a n then
      (s.countTx p n, s.barWord port fn a + if n = 8 then 2 ^ 32 * s.barWord port fn (a + 4) else 0)
    else (s, 0)
  | .sideband _ => (s, 0)

/-- A write of a word of the function page: a claim, and a rearm or its VECTOR alone. -/
def State.fnWrite (s : State) (port : Port) (fn o v : Nat) : State :=
  if o = 4 then s.when (v.testBit 31 && s.fnUp port fn) fun u => u.claim port fn
  else if o = 0x10 then
    if v.testBit 31 then s.rearmVec port fn (v % 128)
    else s.onHost fun h => { h with rearm := Cells.put 0 h.rearm (fnKey port fn) (v % 128) }
  else s

/-- A write of a word of the MSI-X table. -/
def State.tableWrite (s : State) (port : Port) (fn o v : Nat) : State :=
  if o % 16 = 12 then (if v.testBit 0 then s.maskVec port fn (o / 16) else s.unmask port fn (o / 16))
  else
    let k := 4 * vecKey port fn (o / 16) + o % 16 / 4
    { s with msix := { s.msix with table := Cells.put 0 s.msix.table k v } }

/-- A 32-bit word of BAR2 is written; the PBA and offsets that hold nothing ignore it. -/
def State.barPut (s : State) (port : Port) (fn a v : Nat) : State :=
  if a < barFn then
    s.when (decide (a % 0x1000 = 0) && s.seesDoorbell fn (a / 0x1000)) fun u => u.tailWrite (a / 0x1000) v
  else if a < barFn + 0x1000 then s.fnWrite port fn (a - barFn) v
  else if barTable ≤ a ∧ a < barTable + 2048 then s.tableWrite port fn (a - barTable) v
  else s

/-- A write of BAR2. -/
def State.barWrite (s : State) (p : Path) (a n v : Nat) : State :=
  match p with
  | .host port fn =>
    if s.barOpen p a n then
      let t := (s.countRx p n).barPut port fn a (v % 2 ^ 32)
      if n = 8 then t.barPut port fn (a + 4) (v / 2 ^ 32) else t
    else s
  | .sideband _ => s

/-- LOW_HALF_READ (R38), and every other read, of 32 bits or of the whole 64, of BAR0 or of BAR2: the value is returned on the path. -/
def execLowHalfRead (p : Path) (off : BitVec 26) (wide bar2 : Bool) (s : State) : Host.Outcome State Fault Refusal :=
  let n := if wide then 8 else 4
  let x := if bar2 then s.barRead p off.toNat n else s.busRead p off.toNat n
  .next (x.1.emit (.readData p (BitVec.ofNat 64 x.2)))

end Sys2Proof.Machine
end

