-- ==== Sys2Proof/Machine/Bus.lean ====
section
/-! DEFINITION. Writes of BAR0: the triggers of every page, fields that a block locks, the write buffers, and block soft
reset (R36 to R53, R68, R129, R152, R175, R233, R254, R283, R308, R332, R382, R404, R489, R529). -/

namespace Sys2Proof.Machine

/-- The index of the register at `a` among `n` at stride `st` from address `base`. -/
def indexOf (a base st n : Nat) : Option Nat :=
  if base ≤ a ∧ (a - base) % st = 0 ∧ (a - base) / st < n then some ((a - base) / st) else none

/-- Whether a written value sets the one-bit field `f`. -/
def sets (v : Nat) (f : Fld) : Bool := v.testBit f.lo

/-! ### Soft reset (R51, R68, R175, R233, R332, R529) -/

/-- A page's own fields that return to reset: RW and HS. -/
def softFields (pg : Nat) : List Fld :=
  match pageAt pg with
  | none => []
  | some (t, i) => ((t.table i).filter fun row => decide (0x80 ≤ row.off)).flatMap fun row => (List.range row.n1).flatMap fun x =>
      (List.range row.n2).flatMap fun y => (row.fields.filter fun r => decide (r.ty = .RW ∨ r.ty = .HS)).map fun r =>
        r.at (pageBase pg + row.off + x * row.s1 + y * row.s2)

/-- Returns fields to their reset values. -/
def State.resetFields (s : State) (fs : List Fld) : State := fs.foldl (fun u f => u.wr f f.rst) s

/-- Whether the partition that owns a page is in QUIESCE or HOLD. -/
def State.ownerStopped (s : State) (pg : Nat) : Bool :=
  match s.pagePart pg with
  | some p => decide (s.partRead p = 5 ∨ s.partRead p = 6)
  | none => false

/-- Whether a soft reset of a page is accepted. -/
def State.softAccepted (s : State) (pg : Nat) : Bool :=
  match pageAt pg with
  | some (.CLK, _) | some (.TB, _) => false
  | some (.TILE, t) => s.tileIdle t && (List.range 16).all fun n => decide (s.rd (R.TILE.SPAD_WIN_SIG.IN_USE t n) = 0)
  | some (.SILL, _) => !s.pageWorks pg
  | some (.COLL, g) => allGroups.all fun n => !s.grpBound n || decide (s.grpEngine n ≠ g)
  | some (.SIG, _) => true
  | some _ => !s.pageWorks pg || s.ownerStopped pg
  | none => false

/-- The page's internal state that a soft reset clears, and the fields whose reset value the fuses, the boot record or the random
source give. The counters that STEPp_NUM mirrors are those of the reset STEPp_CFG (R284). A reset of a tile ends a SPAD_CLEAR that
runs, and the slots it empties keep CELLS, LATENCY, LANES, PROFILE and RECIPE_ID: R529 names neither (DESIGN CHOICE, log entry
98). -/
def State.softInner (s : State) (pg : Nat) : State :=
  match pageAt pg with
  | some (.TILE, t) =>
    let ws := (List.range 16).map (R.TILE.SPAD_WIN_CTRL.STATE t)
    let sl := (List.range 4).map (R.TILE.ACCORD_SLOT.VALID t)
    let mx := [R.TILE.MX_STAT.BUSY t, R.TILE.MX_STAT.PHASE t, R.TILE.MX_STAT.PROFILE t, R.TILE.MX_STAT.PASS t, R.TILE.MX_STAT.EXPBUF_USED t]
    let a := (s.resetFields (ws ++ sl ++ mx)).endClear t
    { a with tile := { a.tile with recipes := (List.range 4).foldl (fun m i => Cells.put [] m (t * 4 + i) []) a.tile.recipes } }
  | some (.MOD, _) => s.mirrorSteps
  | some (.SIG, _) =>
    let fs := [R.SIG.QALLOC.INDEX, R.SIG.QALLOC.FAIL, R.SIG.CALLOC_RES.BASE, R.SIG.CALLOC_RES.FAIL]
    [Path.host .a 0, Path.host .b 0, Path.sideband .a].foldl (fun u p => fs.foldl (fun w f => w.pathWr p f 0) u) s
  | some (.CQ, q) =>
    let a := s.resetFields [R.CQ.HEAD q, R.CQ.DONE q, R.CQ.TAIL q, R.CQ.STAT.EVAL q, R.CQ.STAT.ABANDONING q]
    (a.setQ q { QState.empty with flights := (s.q q).flights }).dropHold q
  | some (.SILL, e) =>
    s.onStream fun m => { m with credits := Cells.clear m.credits fun k => decide (k / 1024 = e) }
  | some (.PWR, _) => s.wr R.PWR.FLOW_MIN s.fuses.flowMin
  | some (.CFG, _) => s.wr R.CFG.BOOT_CTRL.PREFER s.boot.prefer
  | some (.NOSE, _) => s.drawSeed
  | some (.PDOM, _) => s.steer
  | _ => s

/-- The fields that a soft reset keeps: the bonded registers of a TILE page (R529), and bound entries of the group table
that lie in a COLL page. -/
def State.softKept (s : State) (pg : Nat) (f : Fld) : Bool :=
  match pageAt pg with
  | some (.TILE, _) => decide (0x400 ≤ f.addr % 0x1000 ∧ f.addr % 0x1000 < 0x500)
  | some (.COLL, _) => (entryOfOffset f.addr).any s.grpBound
  | _ => false

/-- PG_CTRL.SRST is written 1 (R51). A page of a pending commit that has not acknowledged it can then do so only after a
RECOMMIT. -/
def State.softReset (s : State) (pg : Nat) : State :=
  if !s.softAccepted pg then s.raise pg .SRST_REFUSED
  else
    let a := (s.resetFields ((softFields pg).filter fun f => !s.softKept pg f)).softInner pg
    if s.on R.MOD.COMMIT_STAT.PENDING ∧ s.commit.pages.contains pg ∧ !s.on (R.PG.STAT.ACKED pg) then
      a.onCommit fun c => { c with barred := if c.barred.contains pg then c.barred else pg :: c.barred }
    else a

/-- Whether the Nose area of a partition is in use: its mechanism is active, or a duplicate of it is in progress (R382). -/
def State.areaInUse (s : State) (p : Nat) : Bool := s.stepActive p || s.nose.dups.any fun d => decide (d.owner.part = p)

/-! ### The header -/

/-- PG_CTRL.EN of a page is written. -/
def State.writeEn (s : State) (pg : Nat) (b : Bool) : State :=
  if alwaysOn pg then s
  else if b = s.on (R.PG.CTRL.EN pg) then
    match pageAt pg with
    | some (.LINK, k) => if b then s.linkEnable k else s
    | _ => s
  else
    match pageAt pg with
    | some (.CQ, q) => if b then s.queueEnable q else s.wr (R.PG.CTRL.EN pg) 0
    | some (.LINK, k) => if b then s.linkEnable k else s.linkDisable k
    | _ => s.flag (R.PG.CTRL.EN pg) b

/-- A write of a header register; `d` is the state in which its fields have taken it. -/
def State.writeHeader (s d : State) (pg o v : Nat) : State :=
  if o = 0x10 then
    let a := ((s.wr (R.PG.CTRL.SNAP_EN pg) (v / 4)).wr (R.PG.CTRL.SHADOW_RD pg) (v / 8)).writeEn pg (v.testBit 0)
    if v.testBit 1 then a.softReset pg else a
  else if o = 0x1C then d.edge s pg
  else if o = 0x20 ∧ v.testBit 31 then d.wr (R.PG.ERR_FIRST.MULTI pg) 0
  else d

/-! ### The pages' own registers

In each, `d` is the state in which the register's plain fields have taken the write. -/

/-- A write of a register of MOD with a trigger (R57, R283, R334, R337, R357, R368, R369). -/
def State.writeMod (s d : State) (p : Path) (a v : Nat) : State :=
  if a = R.MOD.COMMIT_CTRL.GO.addr then
    if sets v R.MOD.COMMIT_CTRL.GO then s.commitCtrl p (bitsOf v 7 0) (v.testBit 8) (bitsOf v 13 12) else d
  else if a = R.MOD.FAB_CTRL.JOIN.addr then
    let x := if sets v R.MOD.FAB_CTRL.JOIN then d.join else d
    if sets v R.MOD.FAB_CTRL.LEAVE then x.leave else x
  else if a = R.MOD.ROUTE_SEL.GO.addr then
    if !sets v R.MOD.ROUTE_SEL.GO then d
    else if d.rd R.MOD.ROUTE_SEL.OP = 1 then d.routeRead (d.rd R.MOD.ROUTE_SEL.NODE)
    else if d.rd R.MOD.ROUTE_SEL.OP = 2 then d.routeWrite (d.rd R.MOD.ROUTE_SEL.NODE)
    else d
  else if a = R.MOD.BCAST_CTRL.GO.addr then
    if !sets v R.MOD.BCAST_CTRL.GO then d
    else if d.rd R.MOD.BCAST_CTRL.TYPE = 1 then d.sendSnapBcast (d.rd R.MOD.BCAST_TICK)
    else if d.rd R.MOD.BCAST_CTRL.TYPE = 2 then d.sendEmerg
    else d
  else
    match indexOf a (R.MOD.STEP_CTRL.ENABLE 0).addr 0x40 8, indexOf a (R.MOD.STEP_CFG.MODE 0).addr 0x40 8,
      indexOf a (R.MOD.STEP_PEER.NODE 0 0).addr 4 512 with
    | some q, _, _ =>
      let x := if s.stepActive q then s else d
      let y := if sets v (R.MOD.STEP_CTRL.ENABLE q) then x.stepEnable q else x
      if sets v (R.MOD.STEP_CTRL.DISABLE q) then y.stepDisable q else y
    | _, some q, _ => if s.stepActive q then s else d.mirrorSteps
    | _, _, some k => if s.stepActive (k / 64) then s else d
    | _, _, _ => d

/-- CLK.STEER, which the module clamps (R65), and CLK.EMERG_CTRL (R74, R75). -/
def State.writeClk (_s d : State) (a v : Nat) : State :=
  if a = R.CLK.STEER.addr then d.wr R.CLK.STEER (clampPpb (signed 32 (d.rd R.CLK.STEER)))
  else if a = R.CLK.EMERG_CTRL.GO.addr ∧ sets v R.CLK.EMERG_CTRL.GO then
    let op := d.rd R.CLK.EMERG_CTRL.OP
    if op = 1 ∨ op = 2 then d.emergGo ⟨decide (op = 1), d.rd R.CLK.EMERG_CTRL.FRAC, d.rd R.CLK.EMERG_EPOCH, 0⟩ else d
  else d

/-- TB.SET_CTRL, SNAP_CTRL, SNAP_CMP and PTP_CFG, whose tolerance SYNC follows (R77, R79, R82, R84). -/
def State.writeTb (_s d : State) (a v : Nat) : State :=
  if a = R.TB.SET_CTRL.addr then if v.testBit 0 then d.tbSet else d
  else if a = R.TB.SNAP_CTRL.SW.addr then
    let x := if sets v R.TB.SNAP_CTRL.ARM then d.wr R.TB.SNAP_STAT.ARMED 1 else d
    if sets v R.TB.SNAP_CTRL.SW then x.snapSw none else x
  else if a = R.TB.SNAP_CMP.addr then d.armCmp v
  else if a = R.TB.PTP_CFG.DOMAIN.addr then d.judgeSync
  else d

/-- PWR's triggers and clamps (R411, R412, R414, R415, R417, R426). -/
def State.writePwr (_s d : State) (a v : Nat) : State :=
  let go := v.testBit 31
  if a = R.PWR.ENV_TARGET.addr then d.envWritten true false
  else if a = R.PWR.ENV_RAMP.addr then d.envWritten false true
  else if a = R.PWR.RETAIN_MV.addr then d.steer
  else if !go then d
  else if a = R.PWR.CAP_CFG.RELEASE.addr then d.capRelease
  else if a = R.PWR.SHED_CTRL.GO.addr then
    if d.rd R.PWR.SHED_CTRL.OP = 1 then d.shedGo else if d.rd R.PWR.SHED_CTRL.OP = 2 then d.restoreGo else d
  else if a = R.PWR.PARK_CTRL.GO.addr then
    if d.rd R.PWR.PARK_CTRL.OP = 1 then d.parkGo (d.rd R.PWR.PARK_CTRL.PART)
    else if d.rd R.PWR.PARK_CTRL.OP = 2 then d.unparkGo (d.rd R.PWR.PARK_CTRL.PART) else d
  else if a = R.PWR.DRYDOWN_CTRL.addr then d.orderDrydown pgPWR .DD_REQUESTED 0
  else d

/-- CFG's triggers (R431, R432, R438, R441, R448, R451, R453). -/
def State.writeCfg (_s d : State) (p : Path) (a v : Nat) : State :=
  let go := v.testBit 31
  if a = R.CFG.BOOT_CTRL.PREFER.addr then d.onBoot fun b => { b with prefer := v % 2 }
  else if a = R.CFG.FW_READY.addr then if v.testBit 0 then d.fwReady else d
  else if !go then d
  else if a = R.CFG.RESET_CTRL.GO.addr then if d.rd R.CFG.RESET_CTRL.OP = 1 then d.warmReset else d
  else if a = R.CFG.PART_CTRL.GO.addr then
    if d.rd R.CFG.PART_CTRL.OP = 1 then d.partRun (d.rd R.CFG.PART_CTRL.PART)
    else if d.rd R.CFG.PART_CTRL.OP = 2 then d.partQuiesce (d.rd R.CFG.PART_CTRL.PART) else d
  else if a = R.CFG.WDOG_CTRL.KICK.addr then d.kick p
  else if a = R.CFG.PREL_CLEAR.addr then d.prelClear
  else d

/-- MGMT's registers, of which some ignore writes of a host port (R458, R459, R462, R490); `mb` submits a mailbox
request. -/
def State.writeMgmt (s d : State) (mb : State → State) (p : Path) (a v : Nat) : State :=
  let side := pathSide p
  if a = R.MGMT.HEARTBEAT.addr then if side then s.beat v else s
  else if a = R.MGMT.TAKEOVER_CTRL.addr then if v.testBit 31 then d.planTakeover p else d
  else if (indexOf a (R.MGMT.PORT_ADDR 0).addr 4 2).isSome then if side then d else s
  else if a = R.MGMT.MBOX_CTRL.GO.addr then
    if !sets v R.MGMT.MBOX_CTRL.GO then d
    else if s.rd R.MGMT.MBOX_STAT.STATE = 1 then d.raise pgMGMT .TRIG_BUSY
    else mb d
  else
    match indexOf a (R.MGMT.CTL_ADDR 0).addr 4 8 with
    | some i => if side then d.onMgmt fun m => { m with ctlSeq := Cells.put 0 m.ctlSeq i 0 } else s
    | none => d

/-- An open ledger kind is marked reconciled (R473). -/
def State.ackKind (s : State) (f : Fld) : State := if s.rd f = 1 then s.wr f 3 else s

/-- ACK_OPEN (R473): each kind it names. -/
def State.ackOpen (s : State) (charge token event : Bool) : State :=
  ((s.when charge fun u => u.ackKind R.LEDG.STATE.CHARGE).when token fun u => u.ackKind R.LEDG.STATE.TOKEN).when event
    fun u => u.ackKind R.LEDG.STATE.EVENT

/-- LEDG's triggers (R472, R473). -/
def State.writeLedg (_s d : State) (a v : Nat) : State :=
  if a = R.LEDG.ACK_OPEN.CHARGE.addr then
    d.ackOpen (sets v R.LEDG.ACK_OPEN.CHARGE) (sets v R.LEDG.ACK_OPEN.TOKEN) (sets v R.LEDG.ACK_OPEN.EVENT)
  else if a = R.LEDG.SEAL_CTRL.GO.addr ∧ sets v R.LEDG.SEAL_CTRL.GO then d.seal false
  else d

/-- TAG's registers (R478, R480). -/
def State.writeTag (s d : State) (p : Path) (a v : Nat) : State :=
  if a = R.TAG.RD_ADDR.GO.addr then if v.testBit 31 then d.tagRd (d.rd R.TAG.RD_ADDR.BYTE) else d
  else if a = R.TAG.WR_CTRL.GO.addr ∨ (indexOf a (R.TAG.WR_DATA 0).addr 4 8).isSome then
    if !pathSide p then s.raise pgTAG .MGMT_PATH
    else if a = R.TAG.WR_CTRL.GO.addr ∧ v.testBit 31 then d.tagWr p (d.rd R.TAG.WR_CTRL.AREA)
    else d
  else d

/-- SIG's triggers (R156, R174, R175). -/
def State.writeSig (_s d : State) (p : Path) (a v : Nat) : State :=
  if !v.testBit 31 then d
  else if a = R.SIG.QALLOC.GO.addr then d.qalloc p (d.rd R.SIG.QALLOC.PART)
  else if a = R.SIG.QFREE.GO.addr then d.qfree (d.rd R.SIG.QFREE.INDEX)
  else if a = R.SIG.CALLOC.GO.addr then d.calloc p (d.rd R.SIG.CALLOC.PART) (d.rd R.SIG.CALLOC.COUNT)
  else if a = R.SIG.CFREE.GO.addr then d.cfree (d.rd R.SIG.CFREE.BASE) (d.rd R.SIG.CFREE.COUNT)
  else if a = R.SIG.CTR_SEL.GO.addr then d.ctrOp (d.rd R.SIG.CTR_SEL.INDEX) (d.rd R.SIG.CTR_SEL.OP)
  else d

/-- NOSE's triggers, and its areas, which do not change while they are in use (R382, R396, R398). -/
def State.writeNose (s d : State) (a v : Nat) : State :=
  if a = R.NOSE.KAT_CTRL.GO.addr then
    if sets v R.NOSE.KAT_CTRL.GO then d.fieldTest (d.rd R.NOSE.KAT_CTRL.TEST) (d.rd R.NOSE.KAT_CTRL.PART) else d
  else
    match indexOf a (R.NOSE.REPLAY_CTRL 0).addr 0x40 8, indexOf a (R.NOSE.AREA_BASE 0).addr 0x40 8,
      indexOf a (R.NOSE.AREA_WORDS 0).addr 0x40 8 with
    | some q, _, _ => if v.testBit 0 ∧ d.rd (R.NOSE.REPLAY_STAT.PHASE q) = 4 then d.replayResume q else d
    | _, some q, _ | _, _, some q => if s.areaInUse q then s else d
    | _, _, _ => d

/-- QUOTA's triggers (R257, R258, R264); a GO while a PLACE or RELEASE runs raises TRIG_BUSY, whatever OP holds (R48). -/
def State.writeQuota (s d : State) (p : Path) (a v : Nat) : State :=
  if !v.testBit 31 then d
  else if a = R.QUOTA.OP_CTRL.GO.addr then
    if s.mem.op.isSome then d.raise pgQUOTA .TRIG_BUSY
    else if d.rd R.QUOTA.OP_CTRL.OP = 1 then d.placeOp p (d.rd R.QUOTA.OP_CTRL.CTX)
    else if d.rd R.QUOTA.OP_CTRL.OP = 2 then d.releaseOp p (d.rd R.QUOTA.OP_CTRL.CTX) else d
  else if a = R.QUOTA.CTX_ALLOC.GO.addr then d.ctxAlloc p (d.rd R.QUOTA.CTX_ALLOC.PART)
  else if a = R.QUOTA.CTX_FREE.GO.addr then d.ctxFree (d.rd R.QUOTA.CTX_FREE.INDEX)
  else d

/-- FLASH's triggers; an enabled aperture keeps its place and partition (R23, R254, R281). -/
def State.writeFlash (s d : State) (a v : Nat) : State :=
  if a = R.FLASH.SLED_CTRL.GO.addr then
    let i := d.rd R.FLASH.SLED_CTRL.SLED
    if !v.testBit 31 then d
    else
      match d.rd R.FLASH.SLED_CTRL.OP with
      | 1 => d.sledRelease i
      | 2 => d.sledAttach i
      | 3 => d.sledErase i
      | _ => d
  else
    match indexOf a (R.FLASH.APER_MAP.GRANULE 0).addr 8 192, indexOf a (R.FLASH.APER_CTRL.PART 0).addr 8 192 with
    | some n, _ => if s.on (R.FLASH.APER_CTRL.VALID n) then s else d
    | _, some n =>
      let x := if s.on (R.FLASH.APER_CTRL.VALID n) then s else d
      let y := if sets v (R.FLASH.APER_CTRL.ENABLE n) then x.aperEnable n else x
      if sets v (R.FLASH.APER_CTRL.DISABLE n) then y.aperDisable n else y
    | _, _ => d

/-- A group entry's registers (R308, R310, R316). -/
def State.writeColl (s d : State) (g a v : Nat) : State :=
  match indexOf a (R.COLL.GRP_DESC g 0).addr 0x40 16, indexOf a (R.COLL.GRP_CFG.VALID g 0).addr 0x40 16,
    indexOf a (R.COLL.GRP_CTRL g 0).addr 0x40 16 with
  | some i, _, _ => if s.grpBound (g * 16 + i) then s.raise (pgCOLL g) .GROUP_BUSY (g * 16 + i) else d
  | _, some i, _ => s.groupCfg (g * 16 + i) v
  | _, _, some i => if v.testBit 0 then d.collAbort (g * 16 + i) else d
  | _, _, _ => d

/-- A queue's registers (R152, R153, R155, R184, R185). -/
def State.writeCq (s d : State) (q a v : Nat) : State :=
  if a = (R.CQ.BASE q).addr ∨ a = (R.CQ.SIZE q).addr then
    if s.on (R.PG.CTRL.EN (pgCQ q)) then s.raise (pgCQ q) .QUEUE_BUSY else d
  else if a = (R.CQ.TAIL q).addr then s.tailWrite q v
  else if a = (R.CQ.CTRL.PAUSE q).addr then d.setPause q (v.testBit 0)
  else if a = (R.CQ.RESUME.GO q).addr then if v.testBit 31 then d.resume q (d.rd (R.CQ.RESUME.OP q)) else d
  else d

/-- The window that a register of a TILE page belongs to. -/
def windowAt (t a : Nat) : Option Nat :=
  if (R.TILE.SPAD_WIN_BASE t 0).addr ≤ a ∧ a < (R.TILE.SPAD_WIN_BASE t 16).addr then
    some ((a - (R.TILE.SPAD_WIN_BASE t 0).addr) / 0x10) else none

/-- A tile's registers: a window's fields take writes in allocated alone (R127, R129, R130). -/
def State.writeTile (s d : State) (p : Path) (t : Nat) (a v : Nat) : State :=
  if a = (R.TILE.SPAD_CLEAR_CTRL.GO t).addr then if v.testBit 31 then s.spadClear t (v % 2 ^ 20) else d
  else if a = (R.TILE.WIN_ALLOC.GO t).addr then if v.testBit 31 then d.winAlloc p t else d
  else
    match windowAt t a with
    | none => d
    | some n =>
      let x := if s.rd (R.TILE.SPAD_WIN_CTRL.STATE t n) = 1 then d else s
      if a ≠ (R.TILE.SPAD_WIN_CTRL.STATE t n).addr then x
      else
        let y := if sets v (R.TILE.SPAD_WIN_CTRL.OPEN t n) then x.winOpen t n else x
        let z := if sets v (R.TILE.SPAD_WIN_CTRL.CLOSE t n) then y.winClose t n else y
        if sets v (R.TILE.SPAD_WIN_CTRL.FREE t n) then z.winFree t n else z

/-! ### A write of one register -/

/-- The register `row` at `a` takes a write of `v` on a path. -/
def State.regWrite (s : State) (mb : State → State) (p : Path) (a v : Nat) (row : RegRow) : State :=
  let d := s.writeFields a v row
  let pg := pageBase a
  if a % 0x1000 < 0x80 then s.writeHeader d pg (a % 0x1000) v
  else
    match pageAt a with
    | some (.MOD, _) => s.writeMod d p a v
    | some (.CLK, _) => s.writeClk d a v
    | some (.TB, _) => s.writeTb d a v
    | some (.PWR, _) => s.writePwr d a v
    | some (.CFG, _) => s.writeCfg d p a v
    | some (.MGMT, _) => s.writeMgmt d mb p a v
    | some (.LEDG, _) => s.writeLedg d a v
    | some (.TAG, _) => s.writeTag d p a v
    | some (.SIG, _) => s.writeSig d p a v
    | some (.NOSE, _) => s.writeNose d a v
    | some (.QUOTA, _) => s.writeQuota d p a v
    | some (.FLASH, _) => s.writeFlash d a v
    | some (.COLL, g) => s.writeColl d g a v
    | some (.CQ, q) => s.writeCq d q a v
    | some (.TILE, t) => s.writeTile d p t a v
    | some (.HOST, _) => if a = R.HOST.PART_PORT.addr then s.partPort v else d
    | some (.SPARE, _) =>
      if a = R.SPARE.SHIFT_CTRL.GO.addr ∧ v.testBit 31 then
        d.shiftRequest (d.rd R.SPARE.SHIFT_CTRL.ROW) (d.rd R.SPARE.SHIFT_CTRL.PCOL)
      else d
    | some (.STACK, k) =>
      if a = (R.STACK.SPARE_CTRL.GO k).addr ∧ v.testBit 31 then d.stackSpare k (d.rd (R.STACK.SPARE_CTRL.CHANNEL k)) true else d
    | some (.LINK, k) =>
      if a = (R.LINK.CTRL.RETRAIN k).addr ∧ sets v (R.LINK.CTRL.RETRAIN k) then d.enterRetrain k false else d
    | some (.PDOM, i) => if a = (R.PDOM.VTARGET.OFFSET_MV i).addr then d.steer else d
    | some (.FUSE, _) | some (.SILL, _) => d
    | none => s

/-- Whether a write of `v` would change an RW field of the register `row` at `a`. -/
def State.changesRw (s : State) (a v : Nat) (row : RegRow) : Bool :=
  row.fields.any fun r => decide (r.ty = .RW ∧ s.rd (r.at a) ≠ v / 2 ^ r.lo % 2 ^ r.w)

/-- The error of an access that would write a locked field of the register `row` at `a`, and its SOURCE (R49, R129, R254,
R283, R382). -/
def State.lockErr (s : State) (a v : Nat) (row : RegRow) : Option (Err × Nat) :=
  if !s.unlocked ∧ s.changesLk a v row then some (.LOCKED_WRITE, 0)
  else
    match pageAt a with
    | some (.MOD, _) =>
      match indexOf a (R.MOD.STEP_CTRL.ENABLE 0).addr 0x40 8, indexOf a (R.MOD.STEP_CFG.MODE 0).addr 0x40 8,
        indexOf a (R.MOD.STEP_PEER.NODE 0 0).addr 4 512 with
      | some q, _, _ => if s.stepActive q ∧ s.changesRw a v row then some (.STEP_BUSY, q) else none
      | _, some q, _ => if s.stepActive q then some (.STEP_BUSY, q) else none
      | _, _, some k => if s.stepActive (k / 64) then some (.STEP_BUSY, k / 64) else none
      | _, _, _ => none
    | some (.NOSE, _) =>
      match (indexOf a (R.NOSE.AREA_BASE 0).addr 0x40 8).or (indexOf a (R.NOSE.AREA_WORDS 0).addr 0x40 8) with
      | some q => if s.areaInUse q then some (.NOSE_BUSY, q) else none
      | none => none
    | some (.TILE, t) =>
      match windowAt t a with
      | some n => if s.rd (R.TILE.SPAD_WIN_CTRL.STATE t n) ≠ 1 ∧ s.changesRw a v row then some (.WIN_LOCKED, n) else none
      | none => none
    | some (.FLASH, _) =>
      match indexOf a (R.FLASH.APER_MAP.GRANULE 0).addr 8 192, indexOf a (R.FLASH.APER_CTRL.PART 0).addr 8 192 with
      | some n, _ => if s.on (R.FLASH.APER_CTRL.VALID n) then some (.WIN_LOCKED, n) else none
      | _, some n => if s.on (R.FLASH.APER_CTRL.VALID n) ∧ s.changesRw a v row then some (.WIN_LOCKED, n) else none
      | _, _ => none
    | _ => none

/-- Whether `a` is a window's CTRL, whose triggers change what the window's other registers take. -/
def windowCtrl (a : Nat) : Bool :=
  match pageAt a with
  | some (.TILE, t) => (windowAt t a).any fun n => decide (a = (R.TILE.SPAD_WIN_CTRL.STATE t n).addr)
  | _ => false

/-- The registers of one access take their values together, judged as they stood before it: a window's CTRL acts last. An access
raises the error of a locked field once. -/
def State.regWrites (s : State) (mb : State → State) (p : Path) (ws : List (Nat × Nat)) : State :=
  let rows := ws.filterMap fun w => (regAt w.1).map fun r => (w, r)
  let a := match rows.filterMap fun x => (s.lockErr x.1.1 x.1.2 x.2).map fun e => (x.1.1, e) with
    | [] => s
    | (o, e) :: _ => s.raise (pageBase o) e.1 e.2
  let last := fun (x : (Nat × Nat) × RegRow) => windowCtrl x.1.1
  (rows.filter (fun x => !last x) ++ rows.filter last).foldl (fun u x => u.regWrite mb p x.1.1 x.1.2 x.2) a

/-! ### Accesses (R36 to R38) -/

/-- A write of `n` bytes in a fitted page. The high half of a 64-bit register takes the buffered low half with it, or a low
half of zero. A discarded half raises BAD_ACCESS before the write acts, so that a write of the same access that clears
ERR_FIRST.VALID or ACCESS_ERR.VALID clears what the discard has set: the spec does not say whether the two are one cycle of R43
(DESIGN CHOICE, log entry 96). -/
def State.pageWrite (s : State) (mb : State → State) (p : Path) (a n v : Nat) : State :=
  let pg := pageBase a
  if n = 4 ∧ wideAt a then (s.discardHalf p pg).setHalf p pg (some (a, BitVec.ofNat 32 v))
  else if n = 4 ∧ a % 8 = 4 ∧ wideAt (a - 4) then
    match s.half p pg with
    | some (o, w) =>
      if o = a - 4 then (s.setHalf p pg none).regWrites mb p [(o, v * 2 ^ 32 + w.toNat)]
      else (s.discardHalf p pg).regWrites mb p [(a - 4, v * 2 ^ 32)]
    | none => s.regWrites mb p [(a - 4, v * 2 ^ 32)]
  else if n = 8 ∧ !wideAt a then (s.discardHalf p pg).regWrites mb p [(a, v % 2 ^ 32), (a + 4, v / 2 ^ 32)]
  else (s.discardHalf p pg).regWrites mb p [(a, v)]

/-- Whether a path may write `v` at `a` (R489). -/
def State.mayWrite (s : State) (p : Path) (a v : Nat) : Bool :=
  match pathVf p with
  | some u => s.vfWrites u a (s.vfOwn a fun hi lo => bitsOf v hi lo)
  | none => true

/-- A write of 32 bits, or of a whole register. -/
def State.putPage (s : State) (mb : State → State) (p : Path) (a n v : Nat) : State :=
  s.onPage p a n (s.vfOwn a fun hi lo => bitsOf v hi lo) fun t => t.pageWrite mb p a n v

/-- A write of a path. Of two registers that one access writes, a VF may be denied the one and not the other (R489). -/
def State.busWrite (s : State) (mb : State → State) (p : Path) (a n v : Nat) : State :=
  if !alignedAccess a n then s.when (decide (s.modState ≠ 0)) fun u => u.badAccess p a
  else if n = 8 ∧ !wideAt a ∧ s.mayWrite p a (v % 2 ^ 32) ≠ s.mayWrite p (a + 4) (v / 2 ^ 32) then
    (s.putPage mb p a 4 (v % 2 ^ 32)).putPage mb p (a + 4) 4 (v / 2 ^ 32)
  else s.putPage mb p a n v

/-- SOFT_RESET (R51): SRST is written with the page's other PG_CTRL fields as they are. -/
def execSoftReset (p : Path) (page : Fin 1984) (s : State) : Host.Outcome State Fault Refusal :=
  let pg := 0x1000 * page.val
  .next (s.onWrite p (R.PG.CTRL.SRST pg).addr 4 none fun u => u.softReset pg)

end Sys2Proof.Machine
end

