-- ==== Sys2Proof/Machine/Icord.lean ====
section
/-! DEFINITION. Icord requests and the host's mailbox (R461 to R467). -/

namespace Sys2Proof.Machine

/-- A request of classes 1 to 4 with its body (R463). -/
inductive IcordReq where
  | regRead (offs : List Nat)
  | regWrite (ws : List (Nat × Nat))
  | envelope (target ramp : Nat)
  | shed (op epoch : Nat)
  | fieldTest (test part : Nat)
  | imageWrite (slot off : Nat) (bs : List Byte)
  | imageSelect (slot : Nat)
  | tagRead (off len : Nat)
  | tagWrite (area : Nat) (bs : List Byte)
  | lifeRead (kind idx : Nat)
  | ledgerRead
  | logRead (idx : Nat)
  /-- A TYPE that the table does not list. -/
  | other (type : Nat)
  deriving DecidableEq, Repr

/-- The TYPE of a request. -/
def IcordReq.type (q : IcordReq) : Nat :=
  match q with
  | .regRead _ => 0x10
  | .regWrite _ => 0x11
  | .envelope _ _ => 0x12
  | .shed _ _ => 0x13
  | .fieldTest _ _ => 0x16
  | .imageWrite _ _ _ => 0x20
  | .imageSelect _ => 0x21
  | .tagRead _ _ => 0x22
  | .tagWrite _ _ => 0x23
  | .lifeRead _ _ => 0x24
  | .ledgerRead => 0x25
  | .logRead _ => 0x26
  | .other t => t

/-- The class of a request's TYPE (R463); that of a TYPE the table does not list is a request's of class 2 (log entry 114). -/
def typeClass (type : Nat) : Nat :=
  if type = 0x12 ∨ type = 0x13 then 1
  else if type = 0x22 ∨ type = 0x24 ∨ type = 0x25 then 3
  else if type = 0x20 ∨ type = 0x26 then 4
  else 2

/-- Whether the table lists a TYPE among the requests of a controller. -/
def typeListed (type : Nat) : Bool :=
  [0x10, 0x11, 0x12, 0x13, 0x14, 0x15, 0x16, 0x20, 0x21, 0x22, 0x23, 0x24, 0x25, 0x26].contains type

/-- The request of a command, or one of a TYPE that the table does not list. -/
def reqOf (h : IcordHdr) (q : IcordReq) : IcordReq :=
  match h.type with
  | some t => if typeListed t.toNat then q else .other t.toNat
  | none => q

/-- RETRY_MS of a BUSY answer, if a request is answered so: its class cannot begin it in 10 ms, which a class can whose work got what
it asked for; class 1 always can (R465, R466). -/
def State.busyFor (s : State) (busy : Option Nat) (type : Nat) : Option Nat :=
  if typeClass type ≠ 1 ∧ s.mgmt.unmet.testBit (typeClass type) then busy else none

/-- What a request leads to: the state, the STATUS and the body of the answer (R461). -/
structure IcordReply where
  st     : State
  status : Nat
  body   : IcordBody

/-- The answer BAD. -/
def bad (s : State) : IcordReply := ⟨s, 3, .empty⟩

/-- The answer REFUSED, with the module's error code. -/
def refused (s : State) (code : Nat) : IcordReply := ⟨s, 4, .bytes (leBytes 2 code)⟩

/-- The answer REFUSED where the spec names no error code (log entry 17). -/
def refusedOpen (s : State) : IcordReply := refused s.fresh.2 s.fresh.1

/-! ### What each request does (R463) -/

/-- Registers read on the sideband path, in order. -/
def State.readAll (s : State) (offs : List Nat) : State × List Nat :=
  offs.foldl (fun x o => ((x.1.busRead (.sideband s.lead) o 4).1, x.2 ++ [(x.1.busRead (.sideband s.lead) o 4).2])) (s, [])

/-- The first byte of the 64 KiB block of an image slot that `n` bytes from `off` begin, if they begin one. -/
def blockBegun (off n : Nat) : Option Nat :=
  let b := (off + 65535) / 65536 * 65536
  if b < off + n then some b else none

/-- Bytes are written into an image slot; a write that begins a 64 KiB block erases the block first. -/
def State.programImage (s : State) (slot off : Nat) (bs : List Byte) : State :=
  let base := slot * 2 ^ 25
  s.onBoot fun b =>
    let m := match blockBegun off bs.length with
      | some o => Cells.clear b.images fun k => decide (base + o ≤ k ∧ k < base + o + 65536)
      | none => b.images
    { b with images := bs.zipIdx.foldl (fun u x => Cells.put 0xFF#8 u (base + off + x.2) x.1) m }

/-- Whether a slot is the loaded one. -/
def State.loaded (s : State) (slot : Nat) : Bool := s.boot.loadAt.isSome && decide (s.rd R.CFG.BOOT_STAT.SLOT = slot)

/-- Invalid records among the whole 32-byte slots of `n` bytes of the tag from `a` (R479). -/
def State.badRecords (s : State) (a n : Nat) : Nat :=
  ((List.range (n / 32)).filter fun i => s.badRecord ((a + 31) / 32 * 32 + 32 * i) &&
    decide ((a + 31) / 32 * 32 + 32 * i + 32 ≤ a + n)).length

/-- The 32-bit words that the registers from `a` to `b` show. -/
def State.wordsShown (s : State) (a b : Nat) : List Nat :=
  (List.range ((b - a) / 4)).map fun i =>
    let o := a + 4 * i
    if wideAt o then s.readReg (.sideband s.lead) o % 2 ^ 32
    else if o % 8 = 4 ∧ wideAt (o - 4) then s.readReg (.sideband s.lead) (o - 4) / 2 ^ 32
    else s.readReg (.sideband s.lead) o

/-- Log entries of 48 bytes that an answer of 1,400 bytes carries (R461, R469). -/
def logPerAnswer : Nat := 29

/-- The firmware serves a request; `mb` submits a mailbox request that a register write makes. -/
def State.serve (s : State) (mb : State → State) (q : IcordReq) : IcordReply :=
  match q with
  | .regRead offs => if 64 < offs.length then bad s else ⟨(s.readAll offs).1, 0, .words (s.readAll offs).2⟩
  | .regWrite ws =>
    if 32 < ws.length then bad s else ⟨ws.foldl (fun u w => u.busWrite mb (.sideband s.lead) w.1 4 w.2) s, 0, .empty⟩
  | .envelope target ramp =>
    ⟨(s.busWrite mb (.sideband s.lead) R.PWR.ENV_TARGET.addr 4 target).busWrite mb (.sideband s.lead) R.PWR.ENV_RAMP.addr 4 ramp, 0, .empty⟩
  | .shed op epoch =>
    let a := s.busWrite mb (.sideband s.lead) R.PWR.SHED_EPOCH.addr 8 epoch
    let b := a.onWrite (.sideband s.lead) R.PWR.SHED_CTRL.GO.addr 4 none fun u =>
      let v := u.wr R.PWR.SHED_CTRL.OP op
      if op = 1 then v.shedGo else if op = 2 then v.restoreGo else v
    if op = 2 ∧ s.rd R.PWR.SHED_STAT / 2 ≠ 0 then refused b Err.SHED_REFUSED.code else ⟨b, 0, .empty⟩
  | .fieldTest test part =>
    let a := s.onWrite (.sideband s.lead) R.NOSE.KAT_CTRL.GO.addr 4 none fun u => u.fieldTest test part
    if s.katRefused test part then refused a Err.KAT_REFUSED.code else ⟨a, 0, .empty⟩
  | .imageWrite slot off bs =>
    if 1024 < bs.length ∨ 2 ^ 25 < off + bs.length then bad s
    else if s.loaded slot ∧ s.modState ≠ 8 then refusedOpen s
    else ⟨s.programImage slot off bs, 0, .empty⟩
  | .imageSelect slot =>
    ⟨s.onWrite (.sideband s.lead) R.CFG.BOOT_CTRL.PREFER.addr 4 none fun u =>
      (u.wr R.CFG.BOOT_CTRL.PREFER slot).onBoot fun b => { b with prefer := slot }, 0, .empty⟩
  | .tagRead off len =>
    if 1024 < len ∨ tagBytes < off + len then bad s
    else ⟨s.bump R.TAG.CRC_BAD (s.badRecords off len), 0, .bytes (s.tagRead off len)⟩
  | .tagWrite area bs =>
    if bs.length ≠ 32 then bad s
    else
      let a := (List.range 8).foldl (fun u j => u.busWrite mb (.sideband s.lead) (R.TAG.WR_DATA j).addr 4 (leNat ((bs.drop (4 * j)).take 4))) s
      let b := a.onWrite (.sideband s.lead) R.TAG.WR_CTRL.GO.addr 4 none fun u => u.tagWr (.sideband s.lead) area
      if area ≠ 1 ∧ area ≠ 2 then refused b Err.TAG_AREA.code
      else if tagQueueMax ≤ s.tag.queue.length then refusedOpen b
      else ⟨b, 0, .empty⟩
  | .lifeRead kind idx => ⟨s, 0, .life (((s.flash s.lead).filter fun r => decide (r.kind = kind))[idx]?)⟩
  | .ledgerRead =>
    ⟨s, 0, .words (s.wordsShown pgLEDG (pgLEDG + 0x1000) ++ s.wordsShown R.PWR.QIN54.addr (R.PWR.QRESID.addr + 8))⟩
  | .logRead idx => ⟨s, 0, .log ((s.island.log.drop idx).take logPerAnswer)⟩
  | .other _ => bad s

/-! ### Requests over the management network (R461, R462, R464) -/

/-- Whether a card's port is up. -/
def State.portUp (s : State) (c : Port) : Bool := s.cardUp c && s.on (portFld c)

/-- The controller slot of a source address. -/
def State.ctlSlot (s : State) (addr : Nat) : Option Nat :=
  if addr = 0 then none else (List.range 8).find? fun i => decide (s.rd (R.MGMT.CTL_ADDR i) = addr)

/-- Whether a SEQ exceeds another, as a signed 32-bit difference. -/
def seqAhead (seq last : Nat) : Bool := decide (0 < signed 32 (seq + 2 ^ 32 - last))

/-- Whether a SEQ is ahead of the last one accepted from a slot. -/
def State.seqFresh (s : State) (i seq : Nat) : Bool :=
  match Cells.get 0 s.mgmt.ctlSeq i with
  | 0 => true
  | n + 1 => seqAhead seq n

/-- The last SEQ of a slot becomes that of an accepted request. -/
def State.takeSeq (s : State) (i seq : Nat) : State := s.onMgmt fun m => { m with ctlSeq := Cells.put 0 m.ctlSeq i (seq + 1) }

/-- A list in pieces of `n`. -/
def cutList {α : Type} (n : Nat) (l : List α) : List (List α) :=
  (List.range ((l.length + n - 1) / n)).map fun i => (l.drop (n * i)).take n

/-- The bodies of the datagrams that carry an answer: of at most 1,400 bytes each, as none is fragmented (R461; DESIGN CHOICE, log
entry 114). A record's values may take 8 bytes each. -/
def IcordBody.split (b : IcordBody) : List IcordBody :=
  match b with
  | .words ws => if ws.length ≤ 350 then [b] else (cutList 350 ws).map .words
  | .life (some r) => if r.values.length ≤ 170 then [b] else (cutList 170 r.values).map fun v => .life (some { r with values := v })
  | _ => [b]

/-- An answer leaves through the port the request came in at. -/
def State.reply (s : State) (h : IcordHdr) (type status retry : Nat) (b : IcordBody) : State :=
  b.split.foldl (fun u x => u.emit (.icord h.port (type % 0x80 + 0x80) h.seq.toNat status retry x)) s

/-- The answer DENIED (R462). -/
def State.deny (s : State) (h : IcordHdr) (type : Nat) : State :=
  ((s.bump R.MGMT.ICORD_DENIED 1).raise pgMGMT .ICORD_DENIED).reply h type 2 0 .empty

/-- The answer BUSY, with its RETRY_MS (R466). -/
def retryMs (ms : Nat) : Nat := clampNat 10 10000 ms
def State.answerBusy (s : State) (h : IcordHdr) (type ms : Nat) : State :=
  (s.bump R.MGMT.ICORD_BUSY 1).reply h type 1 (retryMs ms) .empty

/-- Whether the card's resident loader handles requests: in FUSED and FAULT (R454, R463). -/
def State.loader (s : State) : Bool := decide (s.modState = 1 ∨ s.modState = 8)

/-- Whether the loader handles a request. -/
def loaderServes (type : Nat) : Bool := decide (type = 0x10 ∨ type = 0x16 ∨ type = 0x20 ∨ type = 0x21)

/-- The loader's REG_READ reads the FUSE and CFG pages. -/
def loaderReads (q : IcordReq) : Bool :=
  match q with
  | .regRead offs => offs.all fun o => decide (pageBase o = pgFUSE ∨ pageBase o = pgCFG)
  | _ => true

/-- Whether a request of classes 1 to 4 finds someone to handle it: at the lead card's port, the firmware or the loader. -/
def State.handles (s : State) (h : IcordHdr) (type : Nat) : Bool :=
  s.portUp h.port && decide (h.port = s.lead ∧ h.serial.toNat = s.fuses.serial) &&
    (s.firmware || (s.loader && loaderServes type))

/-- A request of classes 1 to 4 arrives (R462, R463, R466). One of another serial, or that nobody handles, has no answer. -/
def State.icordRequest (s : State) (mb : State → State) (h : IcordHdr) (q : IcordReq) : State :=
  if !s.handles h q.type then s
  else
    match s.ctlSlot h.addr.toNat with
    | none => s.deny h q.type
    | some i =>
      if !s.seqFresh i h.seq.toNat then s.deny h q.type
      else
        match s.busyFor h.busy q.type with
        | some ms => s.answerBusy h q.type ms
        | none =>
          let a := s.takeSeq i h.seq.toNat
          let r := if s.firmware || loaderReads q then a.serve mb q else bad a
          r.st.reply h q.type r.status 0 r.body

/-- A datagram of another TYPE than 0x14 and 0x15 does not take the path of class 0 (R464). -/
def oddType (h : IcordHdr) : Bool := h.type.any fun t => !typeListed t.toNat

/-- A request of class 0 arrives at either card's port (R464): the island takes it from a listed controller, answers OK
and acts. From an unlisted one it does not reach the island, and the firmware of the lead's port denies it. -/
def State.classZero (s : State) (h : IcordHdr) (type : Nat) (g : State → State) : State :=
  if !s.portUp h.port ∨ h.serial.toNat ≠ s.fuses.serial ∨ s.modState = 0 then s
  else
    match s.ctlSlot h.addr.toNat with
    | none => if h.port = s.lead ∧ s.firmware then s.deny h type else s
    | some i =>
      if s.seqFresh i h.seq.toNat then g ((s.takeSeq i h.seq.toNat).reply h type 0 0 .empty) else s.deny h type

/-! ### The mailbox (R467) -/

/-- A little-endian word of a mailbox body (log entry 18). -/
def bodyWord (bs : List Byte) (i : Nat) : Nat := leNat ((bs.drop (4 * i)).take 4)

/-- The words of a mailbox body. -/
def bodyWords (bs : List Byte) : List Nat := (List.range (bs.length / 4)).map (bodyWord bs)

/-- Pairs of words. -/
def pairs (ws : List Nat) : List (Nat × Nat) :=
  match ws with
  | o :: v :: r => (o, v) :: pairs r
  | _ => []

/-- The request that a mailbox body of a TYPE spells; none if it is BAD. -/
def parseBody (type : Nat) (bs : List Byte) : Option IcordReq :=
  let w := bodyWord bs
  let n := bs.length
  match type with
  | 0x10 => if n % 4 = 0 ∧ (bodyWords bs).all (fun o => decide (o < 2 ^ 26)) then some (.regRead (bodyWords bs)) else none
  | 0x11 =>
    if n % 8 = 0 ∧ (pairs (bodyWords bs)).all (fun x => decide (x.1 < 2 ^ 26)) then some (.regWrite (pairs (bodyWords bs))) else none
  | 0x12 => if n = 8 ∧ w 0 < 2 ^ 16 ∧ w 1 < 2 ^ 16 then some (.envelope (w 0) (w 1)) else none
  | 0x13 => if n = 12 ∧ w 0 < 4 then some (.shed (w 0) (w 1 + 2 ^ 32 * w 2)) else none
  | 0x16 => if n = 8 ∧ w 0 < 8 ∧ w 1 < 8 then some (.fieldTest (w 0) (w 1)) else none
  | 0x20 => if 8 ≤ n ∧ w 0 < 2 ∧ w 1 < 2 ^ 25 then some (.imageWrite (w 0) (w 1) (bs.drop 8)) else none
  | 0x21 => if n = 4 ∧ w 0 < 2 then some (.imageSelect (w 0)) else none
  | 0x22 => if n = 8 then some (.tagRead (w 0) (w 1)) else none
  | 0x23 => if n = 36 ∧ w 0 < 4 then some (.tagWrite (w 0) (bs.drop 4)) else none
  | 0x24 => if n = 8 then some (.lifeRead (w 0) (w 1)) else none
  | 0x25 => if n = 0 then some .ledgerRead else none
  | 0x26 => if n = 4 then some (.logRead (w 0)) else none
  | _ => none

/-- The bytes that MBOX_REQ holds. -/
def State.mboxBytes (s : State) : List Byte := (List.range 16).flatMap fun j => leBytes 4 (s.rd (R.MGMT.MBOX_REQ j))

/-- Words of a response body appear in MBOX_RESP. -/
def State.respWords (s : State) (ws : List Nat) : State :=
  (ws.take 16).zipIdx.foldl (fun u x => u.wr (R.MGMT.MBOX_RESP x.2) x.1) s

/-- The first 64 bytes of a response body appear in MBOX_RESP; a body whose layout the spec does not give leaves free
words there (log entry 18). -/
def State.respBody (s : State) (b : IcordBody) : State :=
  match b with
  | .empty => s
  | .words ws => s.respWords ws
  | .bytes bs => s.respWords (bodyWords (bs ++ List.replicate ((4 - bs.length % 4) % 4) 0))
  | .log _ | .life _ =>
    (List.range 16).foldl (fun u j => u.fresh.2.wr (R.MGMT.MBOX_RESP j) (u.fresh.1 % 2 ^ 32)) s

/-- The mailbox request that waits is served, if the firmware runs; the request itself may have ended it by a takeover. -/
def State.mboxServe (s : State) (busy : Option Nat) : State :=
  if s.rd R.MGMT.MBOX_STAT.STATE ≠ 1 ∨ !s.firmware then s
  else
    let type := s.rd R.MGMT.MBOX_CTRL.TYPE
    match s.busyFor busy type with
    | some ms => s.mboxDone 1 (retryMs ms)
    | none =>
      match if s.rd R.MGMT.MBOX_CTRL.LEN ≤ 64 then parseBody type (s.mboxBytes.take (s.rd R.MGMT.MBOX_CTRL.LEN)) else none with
      | none => s.mboxDone 3 0
      | some q =>
        let r := s.serve id q
        let a := r.st.respBody r.body
        if a.rd R.MGMT.MBOX_STAT.STATE = 1 then a.mboxDone r.status 0 else a

/-- MBOX_CTRL.GO with no request waiting (R467). -/
def State.mboxGo (s : State) (busy : Option Nat) : State :=
  let type := s.rd R.MGMT.MBOX_CTRL.TYPE
  if type = 0x14 ∨ type = 0x15 then
    ((s.raise pgMGMT .MGMT_PATH).respBody (.bytes (leBytes 2 Err.MGMT_PATH.code))).mboxDone 4 0
  else (s.wr R.MGMT.MBOX_STAT.STATE 1).mboxServe busy

/-- A register write that submits a mailbox request. -/
def mailbox (s : State) : State := s.mboxGo none

/-- MBOX_REQUEST (R466, R467). -/
def execMboxRequest (p : Path) (type len : BitVec 8) (busy : Option Nat) (s : State) : Host.Outcome State Fault Refusal :=
  .next (s.onWrite p R.MGMT.MBOX_CTRL.GO.addr 4 none fun u =>
    let a := (u.wr R.MGMT.MBOX_CTRL.TYPE type.toNat).wr R.MGMT.MBOX_CTRL.LEN len.toNat
    if u.rd R.MGMT.MBOX_STAT.STATE = 1 then a.raise pgMGMT .TRIG_BUSY else a.mboxGo busy)

/-! ### The commands -/

/-- REG_READ (R463). -/
def execRegRead (h : IcordHdr) (offs : List (BitVec 26)) (s : State) : Host.Outcome State Fault Refusal :=
  .next (s.icordRequest mailbox h (reqOf h (.regRead (offs.map BitVec.toNat))))

/-- REG_WRITE (R463). -/
def execRegWrite (h : IcordHdr) (ws : List (BitVec 26 × Word)) (s : State) : Host.Outcome State Fault Refusal :=
  .next (s.icordRequest mailbox h (reqOf h (.regWrite (ws.map fun w => (w.1.toNat, w.2.toNat)))))

/-- ENVELOPE (R463). -/
def execEnvelope (h : IcordHdr) (target ramp : BitVec 16) (s : State) : Host.Outcome State Fault Refusal :=
  .next (s.icordRequest mailbox h (reqOf h (.envelope target.toNat ramp.toNat)))

/-- ICORD_SHED (R463). -/
def execIcordShed (h : IcordHdr) (op : BitVec 2) (epoch : DWord) (s : State) : Host.Outcome State Fault Refusal :=
  .next (s.icordRequest mailbox h (reqOf h (.shed op.toNat epoch.toNat)))

/-- ICORD_FIELD_TEST (R463). -/
def execIcordFieldTest (h : IcordHdr) (test part : BitVec 3) (s : State) : Host.Outcome State Fault Refusal :=
  .next (s.icordRequest mailbox h (reqOf h (.fieldTest test.toNat part.toNat)))

/-- IMAGE_WRITE (R463). -/
def execImageWrite (h : IcordHdr) (slot : Fin 2) (off : BitVec 25) (bs : List Byte) (s : State) :
    Host.Outcome State Fault Refusal :=
  .next (s.icordRequest mailbox h (reqOf h (.imageWrite slot.val off.toNat bs)))

/-- IMAGE_SELECT (R463). -/
def execImageSelect (h : IcordHdr) (slot : Fin 2) (s : State) : Host.Outcome State Fault Refusal :=
  .next (s.icordRequest mailbox h (reqOf h (.imageSelect slot.val)))

/-- TAG_READ (R463). -/
def execTagRead (h : IcordHdr) (off len : BitVec 16) (s : State) : Host.Outcome State Fault Refusal :=
  .next (s.icordRequest mailbox h (reqOf h (.tagRead off.toNat len.toNat)))

/-- TAG_WRITE (R463). -/
def execTagWrite (h : IcordHdr) (area : BitVec 2) (bs : List Byte) (s : State) : Host.Outcome State Fault Refusal :=
  .next (s.icordRequest mailbox h (reqOf h (.tagWrite area.toNat bs)))

/-- LIFE_READ (R463). -/
def execLifeRead (h : IcordHdr) (kind idx : Nat) (s : State) : Host.Outcome State Fault Refusal :=
  .next (s.icordRequest mailbox h (reqOf h (.lifeRead kind idx)))

/-- LEDGER_READ (R463). -/
def execLedgerRead (h : IcordHdr) (s : State) : Host.Outcome State Fault Refusal := .next (s.icordRequest mailbox h (reqOf h .ledgerRead))

/-- LOG_READ (R463). -/
def execLogRead (h : IcordHdr) (idx : Nat) (s : State) : Host.Outcome State Fault Refusal :=
  .next (s.icordRequest mailbox h (reqOf h (.logRead idx)))

/-- POWER_OFF (R464, R426). -/
def execPowerOff (h : IcordHdr) (s : State) : Host.Outcome State Fault Refusal :=
  .next (if oddType h then s.icordRequest mailbox h (reqOf h (.other 0x14)) else s.classZero h 0x14 fun u => u.orderDrydown pgPWR .DD_REQUESTED 0)

/-- ICORD_WARM_RESET (R464, R448). -/
def execIcordWarmReset (h : IcordHdr) (s : State) : Host.Outcome State Fault Refusal :=
  .next (if oddType h then s.icordRequest mailbox h (reqOf h (.other 0x15)) else s.classZero h 0x15 State.warmReset)

/-- A write of a path: the standby's heartbeat in a planned takeover makes it lead, whatever command carries it (R459). -/
def State.pathWrite (s : State) (p : Path) (off n v : Nat) : State :=
  (match p with
   | .sideband c => if off = R.MGMT.HEARTBEAT.addr then s.handover c else s
   | .host _ _ => s).busWrite mailbox p off n v

/-- REGISTER_WRITE (R41): a write of a register, or of a 64-bit register whole, of BAR0 or of BAR2 (R488). -/
def execRegisterWrite (p : Path) (off : BitVec 26) (wide bar2 : Bool) (v : DWord) (s : State) : Host.Outcome State Fault Refusal :=
  let n := if wide then 8 else 4
  let w := if wide then v.toNat else v.toNat % 2 ^ 32
  .next (if bar2 then s.barWrite p off.toNat n w else s.pathWrite p off.toNat n w)

/-- LOW_HALF_WRITE (R38). -/
def execLowHalfWrite (p : Path) (off : BitVec 26) (v : Word) (s : State) : Host.Outcome State Fault Refusal :=
  .next (s.pathWrite p off.toNat 4 v.toNat)

/-- HIGH_HALF_WRITE (R38). -/
def execHighHalfWrite (p : Path) (off : BitVec 26) (v : Word) (s : State) : Host.Outcome State Fault Refusal :=
  .next (s.pathWrite p off.toNat 4 v.toNat)

end Sys2Proof.Machine
end

