-- ==== Sys2Proof/Machine/Service.lean ====
section
/-! DEFINITION. What the island and the firmware do of their own accord: announcements, telemetry, error records, ledger
seals, lifetime records and service (R463, R468 to R476, R484). -/

namespace Sys2Proof.Machine

/-! ### Messages (R463, R468, R469) -/

/-- Whether the lead card's firmware runs and its port is up. -/
def State.sends (s : State) : Bool := s.firmware && s.portUp s.lead

/-- ANNOUNCE (R463). -/
def execAnnounce (s : State) : Host.Outcome State Fault Refusal :=
  .next (if s.sends then
      s.emit (.announce s.fuses.serial (s.regValue R.MOD.VARIANT.STACKS.addr) s.modRead (s.rd R.MOD.FAB_NODE.NODE)
        (s.rd (R.CFG.SLOT_VER (s.rd R.CFG.BOOT_STAT.SLOT))))
    else s)

/-- The report of the class 0 counts of each page, once a second has passed since the last (R371; DESIGN CHOICE, log entry 58: it
leaves with the port hardware's next turn). -/
def State.reportZeros (s : State) : State :=
  if s.now < s.island.zeroAt + Config.ticksPerS then s
  else ({ s with island := { s.island with zeroAt := s.now } }).emit (.classZero s.island.zeros)

/-- The oldest record leaves (R469). -/
def State.sendRecord (s : State) : State :=
  match s.island.queue with
  | [] => s
  | r :: rest =>
    let a := { s with island := { s.island with queue := rest, overflow := 0 } }
    ((a.bump R.MGMT.ERR_SENT 1).recStat).emit (.errorRecord r s.island.overflow)

/-- ERROR_RECORD (R469): the port hardware's turn: the report of class 0 that is due and the oldest record leave through the lead
card's port, firmware or not (R457). -/
def execErrorRecord (s : State) : Host.Outcome State Fault Refusal :=
  .next (if s.portUp s.lead then s.reportZeros.sendRecord else s)

/-! ### Shares of controller time (R465, R468) -/

/-- The minimum shares of classes 1 to 4, in percent of each 10 ms. -/
def classShares : List Nat := [30, 40, 20, 10]

/-- What classes of the shares `l` get of what they ask for, in order: each its share and what the classes above left of theirs,
`carry`. -/
def grants (carry : Nat) (l : List (Nat × Nat)) : List Nat :=
  match l with
  | [] => []
  | (share, asked) :: r =>
    let g := min asked (share + carry)
    g :: grants (share + carry - g) r

/-- What the classes get of 10 ms. -/
def gotOf (w : ClassLoad) : List Nat := grants 0 (classShares.zip [w.c1, w.c2, w.c3, w.c4])

/-- DECIM_LOG2 moves (R468): up after 100 ms in which class 3 did not receive its share, down after a second in which it did. -/
def State.decimate (s : State) : State :=
  let n := s.rd R.MGMT.TELEM_STAT.DECIM_LOG2
  if s.mgmt.short = 10 then
    let a := s.onMgmt fun m => { m with short := 0 }
    if n < 6 then (a.wr R.MGMT.TELEM_STAT.DECIM_LOG2 (n + 1)).wr R.MGMT.TELEM_STAT.DECIMATED 1 else a
  else if s.mgmt.fed = 100 then (s.onMgmt fun m => { m with fed := 0 }).wr R.MGMT.TELEM_STAT.DECIM_LOG2 (n - 1)
  else s

/-- 10 ms of firmware work pass: MGMT.LOAD shows what each class used, and the classes that asked for more are kept. Class 3 receives
its share if it gets what it asks for, as its telemetry is decimated where the share is exceeded (DEDUCED, log entry 117). -/
def State.loadWindow (s : State) (w : ClassLoad) : State :=
  let got := gotOf w
  let a := ([R.MGMT.LOAD.SHARE1, R.MGMT.LOAD.SHARE2, R.MGMT.LOAD.SHARE3, R.MGMT.LOAD.SHARE4].zip got).foldl (fun u x => u.wr x.1 x.2) s
  let unmet := ([w.c1, w.c2, w.c3, w.c4].zip got).zipIdx.foldl (fun m x => if x.1.2 < x.1.1 then setBit m (x.2 + 1) true else m) 0
  (a.onMgmt fun m => { m with
    unmet := unmet
    short := if unmet.testBit 3 then m.short + 1 else 0
    fed := if unmet.testBit 3 then 0 else m.fed + 1 }).decimate

/-! ### Telemetry (R468) -/

/-- The values of a telemetry message at one snapshot, in the order of R468. -/
def State.telemetry (s : State) (x : SnapRec) : List Nat :=
  let u := s.asSnap x
  [x.tick, u.rd R.PWR.P_MOD, u.rd R.PWR.ENV_SET, u.rd R.PWR.CEIL_EFF, u.regValue R.PWR.STAT.SHED.addr] ++
    (List.range 8).map (fun p => u.rd (R.CLK.FRAC_EFF p)) ++
    (List.range 8).flatMap (fun p => [u.rd (R.MOD.STEP_NUM p), u.rd (R.MOD.STEP_FLIPS p)]) ++ [u.hottest] ++
    (([R.LEDG.TOK_SENT, R.LEDG.TOK_RECV, R.LEDG.TOK_RET, R.LEDG.TOK_BOUNCED] ++ (List.range 5).map R.LEDG.EVT_CLASS ++
      (List.range 480).map R.LEDG.EVT).map fun f => u.rd f % 2 ^ 32)

/-- A message leaves with the values of the latest snapshot: in as many datagrams of at most 1,400 bytes as they take, of 8 bytes
for a value (R461; DESIGN CHOICE, log entry 114). -/
def State.sendTelemetry (s : State) (n k : Nat) : State :=
  match s.snap.taken.head? with
  | some x => (cutList 174 (s.telemetry x)).foldl (fun u v => u.emit (.telemetry v n k)) s
  | none => s

/-- TELEMETRY (R465, R468): a period ends, with the load of each 10 ms since the one before; a message leaves at each
2^DECIM_LOG2-th. Its snapshot is one of the software source, whose latching edge is the second (R82); while the trigger is disarmed
that is a missed one, and the message carries the latest there is (DESIGN CHOICE, log entry 115). -/
def execTelemetry (loads : List ClassLoad) (s : State) : Host.Outcome State Fault Refusal :=
  .next (if !s.sends then s
    else
      let a := loads.foldl State.loadWindow s
      if a.rd R.MGMT.TELEM_CFG = 0 then a
      else
        let n := a.rd R.MGMT.TELEM_STAT.DECIM_LOG2
        let k := a.mgmt.skipped
        if 2 ^ n ≤ k + 1 then
          ((a.snapSw none).clkEdge.clkEdge.sendTelemetry n k).onMgmt fun m => { m with skipped := 0 }
        else (a.bump R.MGMT.TELEM_SKIPPED 1).onMgmt fun m => { m with skipped := k + 1 })

/-! ### Ledgers (R472, R473) -/

/-- LEDGER_SEAL (R472): the period ends. -/
def execLedgerSeal (s : State) : Host.Outcome State Fault Refusal :=
  .next (if s.modState = 0 ∨ s.rd R.LEDG.SEAL_CTRL.PERIOD_S = 0 then s else s.seal false)

/-- SEAL_NOW (R472). -/
def execSealNow (p : Path) (s : State) : Host.Outcome State Fault Refusal :=
  .next (s.onWrite p R.LEDG.SEAL_CTRL.GO.addr 4 none fun u => u.seal false)

/-- ACK_OPEN (R473). -/
def execAckOpen (p : Path) (charge token event : Bool) (s : State) : Host.Outcome State Fault Refusal :=
  .next (s.onWrite p R.LEDG.ACK_OPEN.CHARGE.addr 4 none fun u => u.ackOpen charge token event)

/-! ### Lifetime records (R475, R476) -/

/-- The numbers of the kinds of records. -/
def lifeKind (x : LifeInput) : Nat :=
  match x with
  | .powerOn _ => 0
  | .energy => 1
  | .thermal => 2
  | .ageing _ => 3
  | .wear _ _ _ _ _ => 4
  | .insertion _ => 5
  | .event _ => 6

/-- Physical tiles (R14), by row × 42 + physical column. -/
def physTiles : Nat := 1008

/-- The first of the highest values of a list, with its index. -/
def worst (l : List Nat) : Nat × Nat := l.zipIdx.foldl (fun m x => if m.2 < x.1 then (x.2, x.1) else m) (0, 0)

/-- The lower median of a list (log entry 19). -/
def median (l : List Nat) : Nat :=
  (l.filter fun v => decide (l.length ≤ 2 * (l.filter fun w => decide (w ≤ v)).length)).foldl min (l.foldl max 0)

/-- The values of a record: energy in µJ (QIN54 in µC at 12 V). -/
def State.lifeValues (s : State) (x : LifeInput) : List Nat :=
  match x with
  | .powerOn n => [n]
  | .energy => [s.rd R.PWR.QIN54 * 12]
  | .thermal => [s.life.cycles, s.life.maxC, s.life.trips]
  | .ageing l => l
  | .wear i _ _ tb h => [i.val, s.rd (R.FLASH.SLED_STAT.ERASE_MAX i), s.rd (R.FLASH.SLED_STAT.SPARE_PCT i), tb] ++ h
  | .insertion p => [p.val, s.inserts p]
  | .event t => [t]

/-- The seconds of the last record of AON-on time. -/
def State.powerOnSeconds (s : State) : Nat :=
  match (s.flash s.lead).reverse.find? fun r => decide (r.kind = 0) with
  | some r => r.values.headD 0
  | none => 0

/-- The TYPE and payload of the Flacon summary of a record (R479). -/
def State.lifeSummary (s : State) (x : LifeInput) : Option (Nat × List Byte) :=
  match x with
  | .powerOn n => some (0x0101, leBytes 6 n ++ leBytes 6 (s.rd R.PWR.QIN54 * 12 / 3600000000000))
  | .energy => some (0x0101, leBytes 6 s.powerOnSeconds ++ leBytes 6 (s.rd R.PWR.QIN54 * 12 / 3600000000000))
  | .thermal => some (0x0102, leBytes 4 s.life.cycles ++ leBytes 1 s.life.maxC ++ leBytes 2 s.life.trips)
  | .ageing l => some (0x0103, leBytes 6 ((worst l).1 % 1024 + 2 ^ 16 * ((worst l).2 % 2 ^ 26)) ++ leBytes 4 (median l % 2 ^ 26))
  | .wear i _ _ tb _ => some (0x0104 + i, leBytes 2 (s.rd (R.FLASH.SLED_STAT.ERASE_MAX i)) ++
      leBytes 1 (s.rd (R.FLASH.SLED_STAT.SPARE_PCT i)) ++ leBytes 4 tb)
  | .insertion p => some (s.insertSummary p)
  | .event _ => none

/-- Whether the lists of a record are of the form that R475 gives. -/
def lifeFits (x : LifeInput) : Bool :=
  match x with
  | .ageing l => decide (l.length = physTiles)
  | .wear _ _ _ _ h => decide (h.length = 16)
  | _ => true

/-- A sled that is present reports its wear (R282). -/
def State.reportWear (s : State) (x : LifeInput) : State :=
  match x with
  | .wear i spare erase _ _ => if s.on (R.FLASH.SLED_STAT.PRESENT i) then s.showWear i spare erase else s
  | _ => s

/-- The lead card takes a record with its calendar; `sum` if its Flacon summary is due. -/
def State.takeLife (s : State) (x : LifeInput) (sum : Bool) : State :=
  if !s.firmware ∨ !lifeFits x then s
  else
    let r : LifeRec := ⟨lifeKind x, s.lifeValues x, s.time, s.on R.TB.STAT.SET_DONE, s.ptp.utc⟩
    let a := s.setFlash s.lead (s.flash s.lead ++ [r])
    match sum, a.lifeSummary x with
    | true, some y => a.queueTag 1 y.1 y.2
    | _, _ => a

/-- LIFETIME_RECORD (R282, R475): a sled's wear shows as the sled reports it, and the lead card takes a record. A journal event is
journalled where it happens. -/
def execLifetimeRecord (x : LifeInput) (sum : Bool) (s : State) : Host.Outcome State Fault Refusal :=
  .next ((s.reportWear x).takeLife x sum)

/-- The worst ageing of a physical tile of a domain, in ppm. -/
def worstOf (ppm : List Nat) (d : Nat) : Nat :=
  ((domRows d).flatMap fun r => (List.range 3).map fun c => ppm.getD (r * 42 + (d % 14 * 3 + c)) 0).foldl max 0

/-- OFFSET_MV of a domain follows the ageing of its worst tile: +1 mV for each 1,000 ppm, held at the value reached. -/
def State.ageDomain (s : State) (ppm : List Nat) (d : Nat) : State :=
  let old := offsetMv (s.rd (R.PDOM.VTARGET.OFFSET_MV d))
  s.wr (R.PDOM.VTARGET.OFFSET_MV d) (unsigned 8 (min 50 (max old (worstOf ppm d / 1000 : Nat))))

/-- AGEING_OFFSET (R476): once a day, from the ageing of the physical tiles. -/
def execAgeingOffset (ppm : List Nat) (s : State) : Host.Outcome State Fault Refusal :=
  .next (if s.firmware ∧ s.modState ≠ 0 ∧ ppm.length = physTiles then
      ((List.range 84).foldl (fun u d => u.ageDomain ppm d) s).steer
    else s)

/-! ### Service (R484) -/

/-- A number from its bits, the lowest first. -/
def ofBits (l : List Bool) : Nat := l.zipIdx.foldl (fun v x => if x.1 then v + 2 ^ x.2 else v) 0

/-- The REPLACE bits. -/
def State.replaceBits (s : State) : Nat :=
  ofBits [decide (s.rd R.MOD.RETIRED_ROWS ≠ 0), decide (s.rd R.MOD.IODIE_FAIL ≠ 0),
    (List.range 32).any fun k => s.on (R.STACK.STAT.FAILED k), (List.range 84).any fun d => decide (s.rd (R.PDOM.STAT.STATE d) = 4),
    (List.range 84).any fun d => s.on (R.PDOM.STAT.CRACK d)]

/-- The SWAP bits, of which the lowest is bit 8; `optic` if an optic is refused. -/
def State.swapBits (s : State) (optic : Bool) : Nat :=
  ofBits [decide (s.power.cassOff ≠ 0),
    (List.range 4).any fun i => s.on (R.FLASH.SLED_STAT.WORN i),
    optic || (List.range 48).any fun k => decide (s.rd (R.LINK.STAT.STATE k) = 4), !s.on R.MGMT.ROLE.STANDBY_OK]

/-- A bit of SERVICE rises: it is journalled, under a TYPE that the spec does not give (log entry 20). -/
def State.journalBit (s : State) : State := s.fresh.2.journal (s.fresh.1 % 2 ^ 16)

/-- SERVICE_UPDATE (R484): once a second. -/
def execServiceUpdate (opticRefused : Bool) (s : State) : Host.Outcome State Fault Refusal :=
  .next (if !s.firmware then s
    else
      let a := (s.wr R.MGMT.SERVICE.REPLACE s.replaceBits).wr R.MGMT.SERVICE.SWAP (s.swapBits opticRefused)
      let rose := fun (f : Fld) (n : Nat) => (List.range n).filter fun i => (a.rd f).testBit i && !(s.rd f).testBit i
      let k := (rose R.MGMT.SERVICE.REPLACE 5 ++ rose R.MGMT.SERVICE.SWAP 4)
      if k = [] then a else (k.foldl (fun u _ => u.journalBit) a).irq pgMGMT 4)

/-! ### Cards (R29, R460, R477, R482) -/

/-- The event records of the journal, in the order of their SEQ. -/
def State.journalEvents (s : State) : List LifeRec :=
  let rs := (List.range (tagArea 2).2).map (s.slotBytes 2)
  ((rs.filter fun b => recordOk b && decide (recordType b / 256 = 2)).mergeSort fun x y => decide (recordSeq x ≤ recordSeq y)).map fun b =>
    ⟨6, [recordType b], leNat ((b.drop 8).take 8), bitOf (leNat ((b.drop 2).take 1)) 0, none⟩

/-- The insertion counts that the summary of TYPE `0x0101 + j` carries: the first part, and the bytes of each count. -/
def insertFields (j : Nat) : List (Nat × Nat) :=
  if j = 10 then (List.range 4).map (fun i => (18 + i, 2)) ++ [(partCage, 4)] else (List.range 6).map fun i => ((j - 7) * 6 + i, 2)

/-- The insertion records of the latest summary of TYPE `0x0101 + j`. -/
def State.insertEvents (s : State) (j : Nat) : List LifeRec :=
  match s.latestOf 1 [2 * j, 2 * j + 1] with
  | none => []
  | some (i, _) =>
    let b := s.slotBytes 1 i
    (insertFields j).zipIdx.filterMap fun x =>
      let n := leNat ((b.drop (16 + 2 * x.2)).take x.1.2)
      if n = 0 then none else some ⟨5, [x.1.1, n], leNat ((b.drop 8).take 8), bitOf (leNat ((b.drop 2).take 1)) 0, none⟩

/-- A new lead without records rebuilds those of insertions and events from the tag (R477). -/
def State.rebuildLife (s : State) : State :=
  if s.flash s.lead = [] then s.setFlash s.lead ([7, 8, 9, 10].flatMap s.insertEvents ++ s.journalEvents) else s

/-- CARD_INSERT (R29, R460, R477, R482): `ok` if the card is of the class declared, `link` if its Icord port is up, `own` if it is
the card last pulled from this slot, which brings its management flash back; another brings an empty one. A card of another class
stays unpowered and out of use. Beside a lead the card loads its firmware and becomes standby with a MIRROR; alone it becomes lead
(R458; DEDUCED, log entry 95). -/
def execCardInsert (c : Port) (ok link own : Bool) (s : State) : Host.Outcome State Fault Refusal :=
  let alone := !s.on (cardFld (otherCard c))
  .next (if s.on (cardFld c) then s
    else if !ok then (s.countInsert (partCard c)).raise pgMGMT .CARD_REFUSED (portIx c)
    else
      let a := (if own then s else s.setFlash c []).wr (cardFld c) 1
      let b := if s.modState ≠ 0 ∧ s.railOn .bus12 then (a.setRail (.vcard c) true).flag (portFld c) link else a
      let d := if alone then (if c ≠ s.lead then b.takeover else b).rebuildLife else b
      (d.countInsert (partCard c)).stopCard c)

/-! ### Time -/

/-- What happens while no command waits: one clk_tb edge (log entry 1), at which each port sends a request to host memory (R532); a
mailbox request that waited for the firmware to start is served. -/
def State.idle (s : State) : State := ((s.clkEdge.hostTurn .a).hostTurn .b).mboxServe none

end Sys2Proof.Machine
end

