-- ==== Sys2Proof/Machine/Dispatch.lean ====
section
/-! DEFINITION. One arm per command. -/

namespace Sys2Proof.Machine

def exec (i : Instr) (s : State) : Host.Outcome State Fault Refusal :=
  match i with
  | .badAccess p off n write => Sys2Proof.Machine.execBadAccess p off n write s
  | .lowHalfRead p off wide bar2 => Sys2Proof.Machine.execLowHalfRead p off wide bar2 s
  | .lowHalfWrite p off v => Sys2Proof.Machine.execLowHalfWrite p off v s
  | .highHalfWrite p off v => Sys2Proof.Machine.execHighHalfWrite p off v s
  | .registerWrite p off wide bar2 v => Sys2Proof.Machine.execRegisterWrite p off wide bar2 v s
  | .softReset p page => Sys2Proof.Machine.execSoftReset p page s
  | .commitRequest p scope glob => Sys2Proof.Machine.execCommitRequest p scope glob s
  | .commitCycle => Sys2Proof.Machine.execCommitCycle s
  | .commitEpoch => Sys2Proof.Machine.execCommitEpoch s
  | .pageApply page => Sys2Proof.Machine.execPageApply page s
  | .creditDrain k => Sys2Proof.Machine.execCreditDrain k s
  | .commitDeadline => Sys2Proof.Machine.execCommitDeadline s
  | .recommit p scope glob => Sys2Proof.Machine.execRecommit p scope glob s
  | .rollback p scope glob => Sys2Proof.Machine.execRollback p scope glob s
  | .holdAutoExpiry => Sys2Proof.Machine.execHoldAutoExpiry s
  | .referenceOutOfRange ppm => Sys2Proof.Machine.execReferenceOutOfRange ppm s
  | .holdoverEntry absent ticks => Sys2Proof.Machine.execHoldoverEntry absent ticks s
  | .holdoverExit ppm ticks => Sys2Proof.Machine.execHoldoverExit ppm ticks s
  | .pllUnlock => Sys2Proof.Machine.execPllUnlock s
  | .fractionMove p => Sys2Proof.Machine.execFractionMove p s
  | .emergApply p frac => Sys2Proof.Machine.execEmergApply p frac s
  | .emergRelease p => Sys2Proof.Machine.execEmergRelease p s
  | .emergEpoch => Sys2Proof.Machine.execEmergEpoch s
  | .tbSet p => Sys2Proof.Machine.execTbSet p s
  | .ptpSync port m => Sys2Proof.Machine.execPtpSync port m s
  | .ptpDelayResp port domain udp t4 => Sys2Proof.Machine.execPtpDelayResp port domain udp t4 s
  | .ptpAnnounce port m => Sys2Proof.Machine.execPtpAnnounce port m s
  | .syncTimeout => Sys2Proof.Machine.execSyncTimeout s
  | .snapSw p => Sys2Proof.Machine.execSnapSw p s
  | .snapArm p => Sys2Proof.Machine.execSnapArm p s
  | .snapCmpArm p tick => Sys2Proof.Machine.execSnapCmpArm p tick s
  | .snapCmpFire => Sys2Proof.Machine.execSnapCmpFire s
  | .snapErrFire => Sys2Proof.Machine.execSnapErrFire s
  | .snapPin highTicks lowTicks => Sys2Proof.Machine.execSnapPin highTicks lowTicks s
  | .snapFabricFire => Sys2Proof.Machine.execSnapFabricFire s
  | .snapOutRelease => Sys2Proof.Machine.execSnapOutRelease s
  | .yieldCycle t waited => Sys2Proof.Machine.execYieldCycle t waited s
  | .spadClear p t lines => Sys2Proof.Machine.execSpadClear p t lines s
  | .spadClearDone t cycles => Sys2Proof.Machine.execSpadClearDone t cycles s
  | .winAlloc p t => Sys2Proof.Machine.execWinAlloc p t s
  | .winOpen p t n => Sys2Proof.Machine.execWinOpen p t n s
  | .winClose p t n => Sys2Proof.Machine.execWinClose p t n s
  | .winClosingDone t n => Sys2Proof.Machine.execWinClosingDone t n s
  | .winFree p t n => Sys2Proof.Machine.execWinFree p t n s
  | .remoteWrite w t n off words prof cmd => Sys2Proof.Machine.execRemoteWrite w t n off words prof cmd s
  | .remoteWriteLanded w t n => Sys2Proof.Machine.execRemoteWriteLanded w t n s
  | .matmul q => Sys2Proof.Machine.execMatmul q s
  | .anchorOnly q => Sys2Proof.Machine.execAnchorOnly q s
  | .mapCmd q => Sys2Proof.Machine.execMapCmd q s
  | .reduce q => Sys2Proof.Machine.execReduce q s
  | .convert q => Sys2Proof.Machine.execConvert q s
  | .prunedConvert q => Sys2Proof.Machine.execPrunedConvert q s
  | .listBuild q => Sys2Proof.Machine.execListBuild q s
  | .recipeLoad q => Sys2Proof.Machine.execRecipeLoad q s
  | .streamRead q => Sys2Proof.Machine.execStreamRead q s
  | .gatheredRead q => Sys2Proof.Machine.execGatheredRead q s
  | .streamWrite q => Sys2Proof.Machine.execStreamWrite q s
  | .streamMove q => Sys2Proof.Machine.execStreamMove q s
  | .allReduce q => Sys2Proof.Machine.execAllReduce q s
  | .reduceScatter q => Sys2Proof.Machine.execReduceScatter q s
  | .allGather q => Sys2Proof.Machine.execAllGather q s
  | .allToAll q => Sys2Proof.Machine.execAllToAll q s
  | .allToAllUnequal q => Sys2Proof.Machine.execAllToAllUnequal q s
  | .anchorCmd q => Sys2Proof.Machine.execAnchorCmd q s
  | .waitCmd q => Sys2Proof.Machine.execWaitCmd q s
  | .signalAdd q => Sys2Proof.Machine.execSignalAdd q s
  | .signalSet q => Sys2Proof.Machine.execSignalSet q s
  | .signalBound q => Sys2Proof.Machine.execSignalBound q s
  | .commitCmd q => Sys2Proof.Machine.execCommitCmd q s
  | .snapTrigger q => Sys2Proof.Machine.execSnapTrigger q s
  | .snapLoadCmp q => Sys2Proof.Machine.execSnapLoadCmp q s
  | .snapFabricSend q => Sys2Proof.Machine.execSnapFabricSend q s
  | .evalBegin q => Sys2Proof.Machine.execEvalBegin q s
  | .evalEnd q => Sys2Proof.Machine.execEvalEnd q s
  | .commandComplete q ix => Sys2Proof.Machine.execCommandComplete q ix s
  | .queueEnable p q => Sys2Proof.Machine.execQueueEnable p q s
  | .tailWrite p q v doorbell => Sys2Proof.Machine.execTailWrite p q v doorbell s
  | .runAhead q => Sys2Proof.Machine.execRunAhead q s
  | .pause p q b => Sys2Proof.Machine.execPause p q b s
  | .retry p q => Sys2Proof.Machine.execRetry p q s
  | .skip p q => Sys2Proof.Machine.execSkip p q s
  | .skipSignal p q => Sys2Proof.Machine.execSkipSignal p q s
  | .deadlineMiss q ix => Sys2Proof.Machine.execDeadlineMiss q ix s
  | .waitLimit q => Sys2Proof.Machine.execWaitLimit q s
  | .qalloc p part => Sys2Proof.Machine.execQalloc p part s
  | .qfree p q => Sys2Proof.Machine.execQfree p q s
  | .calloc p part count => Sys2Proof.Machine.execCalloc p part count s
  | .cfree p base count => Sys2Proof.Machine.execCfree p base count s
  | .ctrAdd p ix => Sys2Proof.Machine.execCtrAdd p ix s
  | .ctrSet p ix => Sys2Proof.Machine.execCtrSet p ix s
  | .transferAccept e => Sys2Proof.Machine.execTransferAccept e s
  | .fetchIssue e id => Sys2Proof.Machine.execFetchIssue e id s
  | .fetchReturn e id => Sys2Proof.Machine.execFetchReturn e id s
  | .fetchFail e id => Sys2Proof.Machine.execFetchFail e id s
  | .injection e id => Sys2Proof.Machine.execInjection e id s
  | .dropCreditReturn e t => Sys2Proof.Machine.execDropCreditReturn e t s
  | .transferAck e t => Sys2Proof.Machine.execTransferAck e t s
  | .fetchSlow e id => Sys2Proof.Machine.execFetchSlow e id s
  | .place p c => Sys2Proof.Machine.execPlace p c s
  | .placeFillDone g => Sys2Proof.Machine.execPlaceFillDone g s
  | .release p c => Sys2Proof.Machine.execRelease p c s
  | .granuleFree g => Sys2Proof.Machine.execGranuleFree g s
  | .granuleOut q ix => Sys2Proof.Machine.execGranuleOut q ix s
  | .granuleFlip q ix => Sys2Proof.Machine.execGranuleFlip q ix s
  | .ctxAlloc p part => Sys2Proof.Machine.execCtxAlloc p part s
  | .ctxFree p c => Sys2Proof.Machine.execCtxFree p c s
  | .aperEnable p n => Sys2Proof.Machine.execAperEnable p n s
  | .aperDisable p n => Sys2Proof.Machine.execAperDisable p n s
  | .aperDrained n => Sys2Proof.Machine.execAperDrained n s
  | .patrolScrub stack ix met later => Sys2Proof.Machine.execPatrolScrub stack ix met later s
  | .bondedRowSpare t bank => Sys2Proof.Machine.execBondedRowSpare t bank s
  | .bankSpare t bank failed => Sys2Proof.Machine.execBankSpare t bank failed s
  | .stackSpare k ch request => Sys2Proof.Machine.execStackSpare k ch request s
  | .stackSpareDone k => Sys2Proof.Machine.execStackSpareDone k s
  | .sledRelease p ix => Sys2Proof.Machine.execSledRelease p ix s
  | .sledReleaseDone ix => Sys2Proof.Machine.execSledReleaseDone ix s
  | .attach p ix => Sys2Proof.Machine.execAttach p ix s
  | .attachErase p ix => Sys2Proof.Machine.execAttachErase p ix s
  | .sledInsert ix ok foreign sparePct eraseMax records data => Sys2Proof.Machine.execSledInsert ix ok foreign sparePct eraseMax records data s
  | .sledPull ix => Sys2Proof.Machine.execSledPull ix s
  | .stepEnable p part => Sys2Proof.Machine.execStepEnable p part s
  | .stepDisable p part => Sys2Proof.Machine.execStepDisable p part s
  | .stepFlip part => Sys2Proof.Machine.execStepFlip part s
  | .verdictSlow part => Sys2Proof.Machine.execVerdictSlow part s
  | .groupCfgWrite p n v => Sys2Proof.Machine.execGroupCfgWrite p n v s
  | .collAbort p n => Sys2Proof.Machine.execCollAbort p n s
  | .startRecord k f => Sys2Proof.Machine.execStartRecord k f s
  | .abortNotice k f => Sys2Proof.Machine.execAbortNotice k f s
  | .collData k f => Sys2Proof.Machine.execCollData k f s
  | .collAck k f => Sys2Proof.Machine.execCollAck k f s
  | .join p req reqValid => Sys2Proof.Machine.execJoin p req reqValid s
  | .joinMessage k f => Sys2Proof.Machine.execJoinMessage k f s
  | .joinAccept k f => Sys2Proof.Machine.execJoinAccept k f s
  | .joinRefuse k f => Sys2Proof.Machine.execJoinRefuse k f s
  | .leave p => Sys2Proof.Machine.execLeave p s
  | .leaveReceived k f => Sys2Proof.Machine.execLeaveReceived k f s
  | .opticInsert k ok => Sys2Proof.Machine.execOpticInsert k ok s
  | .opticRemove k => Sys2Proof.Machine.execOpticRemove k s
  | .linkEnable p k => Sys2Proof.Machine.execLinkEnable p k s
  | .linkDisable p k => Sys2Proof.Machine.execLinkDisable p k s
  | .readReq k f => Sys2Proof.Machine.execReadReq k f s
  | .readData k f => Sys2Proof.Machine.execReadData k f s
  | .readErr k f => Sys2Proof.Machine.execReadErr k f s
  | .writeFrame k f => Sys2Proof.Machine.execWriteFrame k f s
  | .writeAck k f => Sys2Proof.Machine.execWriteAck k f s
  | .writeErr k f => Sys2Proof.Machine.execWriteErr k f s
  | .moveData k f => Sys2Proof.Machine.execMoveData k f s
  | .unreach k f => Sys2Proof.Machine.execUnreach k f s
  | .msgAck k f => Sys2Proof.Machine.execMsgAck k f s
  | .msgResend node seq => Sys2Proof.Machine.execMsgResend node seq s
  | .hello k h => Sys2Proof.Machine.execHello k h s
  | .configFrame k f => Sys2Proof.Machine.execConfigFrame k f s
  | .ledger k f => Sys2Proof.Machine.execLedger k f s
  | .ledgerTick k corr => Sys2Proof.Machine.execLedgerTick k corr s
  | .credit k c freed => Sys2Proof.Machine.execCredit k c freed s
  | .ack k fseq => Sys2Proof.Machine.execAck k fseq s
  | .nak k fseq lanes => Sys2Proof.Machine.execNak k fseq lanes s
  | .codewordError k e => Sys2Proof.Machine.execCodewordError k e s
  | .nakResend k => Sys2Proof.Machine.execNakResend k s
  | .laneFail k lanes peer => Sys2Proof.Machine.execLaneFail k lanes peer s
  | .linkRetrain p k => Sys2Proof.Machine.execLinkRetrain p k s
  | .retrainComplete k peer => Sys2Proof.Machine.execRetrainComplete k peer s
  | .linkDown k => Sys2Proof.Machine.execLinkDown k s
  | .routeRead p node => Sys2Proof.Machine.execRouteRead p node s
  | .routeWrite p node => Sys2Proof.Machine.execRouteWrite p node s
  | .moveRelease k f => Sys2Proof.Machine.execMoveRelease k f s
  | .releaseQuery k f => Sys2Proof.Machine.execReleaseQuery k f s
  | .snapshotBroadcast k f => Sys2Proof.Machine.execSnapshotBroadcast k f s
  | .emergencyBroadcast k f => Sys2Proof.Machine.execEmergencyBroadcast k f s
  | .bcastSnapshot p => Sys2Proof.Machine.execBcastSnapshot p s
  | .bcastEmergency p frac op => Sys2Proof.Machine.execBcastEmergency p frac op s
  | .verdictClean k f => Sys2Proof.Machine.execVerdictClean k f s
  | .retraction k f => Sys2Proof.Machine.execRetraction k f s
  | .ledgerQuery k f => Sys2Proof.Machine.execLedgerQuery k f s
  | .ledgerReply k f => Sys2Proof.Machine.execLedgerReply k f s
  | .noseDuplicate t q ix err void => Sys2Proof.Machine.execNoseDuplicate t q ix err void s
  | .noseArbiter t q ix err fit void => Sys2Proof.Machine.execNoseArbiter t q ix err fit void s
  | .nosePeriod => Sys2Proof.Machine.execNosePeriod s
  | .localVerdict part => Sys2Proof.Machine.execLocalVerdict part s
  | .verdictWindow part => Sys2Proof.Machine.execVerdictWindow part s
  | .finalVerdict part => Sys2Proof.Machine.execFinalVerdict part s
  | .replayRestore part => Sys2Proof.Machine.execReplayRestore part s
  | .replayResume p part => Sys2Proof.Machine.execReplayResume p part s
  | .fieldTest p test part => Sys2Proof.Machine.execFieldTest p test part s
  | .fieldTestDone failed => Sys2Proof.Machine.execFieldTestDone failed s
  | .powerWindow w => Sys2Proof.Machine.execPowerWindow w s
  | .capRelease p => Sys2Proof.Machine.execCapRelease p s
  | .railFail r => Sys2Proof.Machine.execRailFail r s
  | .cassetteInsert ix ok => Sys2Proof.Machine.execCassetteInsert ix ok s
  | .cassetteHealthy ix mv => Sys2Proof.Machine.execCassetteHealthy ix mv s
  | .cassetteRemove lost removed gained bus => Sys2Proof.Machine.execCassetteRemove lost removed gained bus s
  | .phaseFail d => Sys2Proof.Machine.execPhaseFail d s
  | .domainFault d r => Sys2Proof.Machine.execDomainFault d r s
  | .sensorExclusion d ix reading ticks => Sys2Proof.Machine.execSensorExclusion d ix reading ticks s
  | .droop d min_ ticks => Sys2Proof.Machine.execDroop d min_ ticks s
  | .shed p => Sys2Proof.Machine.execShed p s
  | .shedEpoch => Sys2Proof.Machine.execShedEpoch s
  | .shedFreeze => Sys2Proof.Machine.execShedFreeze s
  | .restore p => Sys2Proof.Machine.execRestore p s
  | .restoreUnfreeze => Sys2Proof.Machine.execRestoreUnfreeze s
  | .park p part => Sys2Proof.Machine.execPark p part s
  | .parkComplete part => Sys2Proof.Machine.execParkComplete part s
  | .unpark p part => Sys2Proof.Machine.execUnpark p part s
  | .selfRefreshReentry t => Sys2Proof.Machine.execSelfRefreshReentry t s
  | .thermalWarn r => Sys2Proof.Machine.execThermalWarn r s
  | .thermCeilStep => Sys2Proof.Machine.execThermCeilStep s
  | .thermalClear settled => Sys2Proof.Machine.execThermalClear settled s
  | .thermalShed r => Sys2Proof.Machine.execThermalShed r s
  | .thermalTrip r => Sys2Proof.Machine.execThermalTrip r s
  | .couplingDisconnect c => Sys2Proof.Machine.execCouplingDisconnect c s
  | .flowLoss fa fb ticks => Sys2Proof.Machine.execFlowLoss fa fb ticks s
  | .flowRestored fa fb ticks => Sys2Proof.Machine.execFlowRestored fa fb ticks s
  | .drydownRequest p => Sys2Proof.Machine.execDrydownRequest p s
  | .drydownStep flushed low stuck holdup => Sys2Proof.Machine.execDrydownStep flushed low stuck holdup s
  | .rackOff ticks => Sys2Proof.Machine.execRackOff ticks s
  | .powerOn ev sram => Sys2Proof.Machine.execPowerOn ev sram s
  | .enfleurageEntry holdup bus12 => Sys2Proof.Machine.execEnfleurageEntry holdup bus12 s
  | .railTurn ok => Sys2Proof.Machine.execRailTurn ok s
  | .imageCheck => Sys2Proof.Machine.execImageCheck s
  | .fwReady p => Sys2Proof.Machine.execFwReady p s
  | .fwStartTimeout => Sys2Proof.Machine.execFwStartTimeout s
  | .enfleurageStep x => Sys2Proof.Machine.execEnfleurageStep x s
  | .partRun p part => Sys2Proof.Machine.execPartRun p part s
  | .partQuiesce p part => Sys2Proof.Machine.execPartQuiesce p part s
  | .quiesceReached part => Sys2Proof.Machine.execQuiesceReached part s
  | .warmReset p => Sys2Proof.Machine.execWarmReset p s
  | .reattachExpiry => Sys2Proof.Machine.execReattachExpiry s
  | .wdogKick p => Sys2Proof.Machine.execWdogKick p s
  | .wdogExpiry => Sys2Proof.Machine.execWdogExpiry s
  | .prelClear p => Sys2Proof.Machine.execPrelClear p s
  | .shiftRequest p row pcol => Sys2Proof.Machine.execShiftRequest p row pcol s
  | .shiftCopyDone row regionLost => Sys2Proof.Machine.execShiftCopyDone row regionLost s
  | .tileFailure row pcol => Sys2Proof.Machine.execTileFailure row pcol s
  | .iodieFail ix => Sys2Proof.Machine.execIodieFail ix s
  | .heartbeat c count both => Sys2Proof.Machine.execHeartbeat c count both s
  | .leadLost why => Sys2Proof.Machine.execLeadLost why s
  | .plannedTakeover p => Sys2Proof.Machine.execPlannedTakeover p s
  | .mirror copied => Sys2Proof.Machine.execMirror copied s
  | .cardInsert c ok link own => Sys2Proof.Machine.execCardInsert c ok link own s
  | .announce => Sys2Proof.Machine.execAnnounce s
  | .errorRecord => Sys2Proof.Machine.execErrorRecord s
  | .telemetry loads => Sys2Proof.Machine.execTelemetry loads s
  | .regRead h offs => Sys2Proof.Machine.execRegRead h offs s
  | .regWrite h ws => Sys2Proof.Machine.execRegWrite h ws s
  | .envelope h target ramp => Sys2Proof.Machine.execEnvelope h target ramp s
  | .icordShed h op epoch => Sys2Proof.Machine.execIcordShed h op epoch s
  | .powerOff h => Sys2Proof.Machine.execPowerOff h s
  | .icordWarmReset h => Sys2Proof.Machine.execIcordWarmReset h s
  | .icordFieldTest h test part => Sys2Proof.Machine.execIcordFieldTest h test part s
  | .imageWrite h slot off bs => Sys2Proof.Machine.execImageWrite h slot off bs s
  | .imageSelect h slot => Sys2Proof.Machine.execImageSelect h slot s
  | .tagRead h off len => Sys2Proof.Machine.execTagRead h off len s
  | .tagWrite h area bs => Sys2Proof.Machine.execTagWrite h area bs s
  | .lifeRead h kind idx => Sys2Proof.Machine.execLifeRead h kind idx s
  | .ledgerRead h => Sys2Proof.Machine.execLedgerRead h s
  | .logRead h idx => Sys2Proof.Machine.execLogRead h idx s
  | .mboxRequest p type len busy => Sys2Proof.Machine.execMboxRequest p type len busy s
  | .ledgerSeal => Sys2Proof.Machine.execLedgerSeal s
  | .sealNow p => Sys2Proof.Machine.execSealNow p s
  | .ackOpen p charge token event => Sys2Proof.Machine.execAckOpen p charge token event s
  | .lifetimeRecord x sum => Sys2Proof.Machine.execLifetimeRecord x sum s
  | .ageingOffset ppm => Sys2Proof.Machine.execAgeingOffset ppm s
  | .serviceUpdate opticRefused => Sys2Proof.Machine.execServiceUpdate opticRefused s
  | .tagRd p byte => Sys2Proof.Machine.execTagRd p byte s
  | .tagWr p area => Sys2Proof.Machine.execTagWr p area s
  | .tagCommitDone ok => Sys2Proof.Machine.execTagCommitDone ok s
  | .rfInventory => Sys2Proof.Machine.execRfInventory s
  | .getSystemInformation => Sys2Proof.Machine.execGetSystemInformation s
  | .readSingleBlock n => Sys2Proof.Machine.execReadSingleBlock n s
  | .readMultipleBlocks n count => Sys2Proof.Machine.execReadMultipleBlocks n count s
  | .writeSingleBlock n v => Sys2Proof.Machine.execWriteSingleBlock n v s
  | .rfSessionEnd fieldLost => Sys2Proof.Machine.execRfSessionEnd fieldLost s
  | .rfHold => Sys2Proof.Machine.execRfHold s
  | .portAttach port width rate cfg => Sys2Proof.Machine.execPortAttach port width rate cfg s
  | .portDetach port linkUp resent => Sys2Proof.Machine.execPortDetach port linkUp resent s
  | .vfFlr port part => Sys2Proof.Machine.execVfFlr port part s
  | .claim port fn => Sys2Proof.Machine.execClaim port fn s
  | .rearm port fn vec => Sys2Proof.Machine.execRearm port fn vec s
  | .msixUnmask port fn vec => Sys2Proof.Machine.execMsixUnmask port fn vec s
  | .partPortWrite p v => Sys2Proof.Machine.execPartPortWrite p v s
  | .portMove part => Sys2Proof.Machine.execPortMove part s
  | .hostCompletion t h => Sys2Proof.Machine.execHostCompletion t h s
  | .trainingComplete k peer => Sys2Proof.Machine.execTrainingComplete k peer s
  | .standbyLost why => Sys2Proof.Machine.execStandbyLost why s
  | .couplingConnect c => Sys2Proof.Machine.execCouplingConnect c s
  | .ptpFollowUp port domain udp t1 => Sys2Proof.Machine.execPtpFollowUp port domain udp t1 s
  | .ptpDelayReq port m => Sys2Proof.Machine.execPtpDelayReq port m s
  | .domainMargin d out min_ idx => Sys2Proof.Machine.execDomainMargin d out min_ idx s
  | .doubledRefresh k tempC => Sys2Proof.Machine.execDoubledRefresh k tempC s

end Sys2Proof.Machine
end

