-- ==== Sys2Proof/Safety.lean ====
section
/-! DEFINITION. What claims mean by a run that goes on, and by a step that leaves things alone. -/

namespace Sys2Proof.Machine

/-- A step goes on to a state that meets `P`. -/
def Goes (s : State) (P : State → Prop) : Prop := ∃ t, step s = .next t ∧ P t

/-- A command goes on to a state that meets `P`. -/
def Runs (c : Instr) (s : State) (P : State → Prop) : Prop := ∃ t, exec c s = .next t ∧ P t

/-- The parts of the state, for frames: the fields of `State`, with the register file split into its copies, and the bytes
and words of the three memories apart from what else their records hold. -/
inductive Part where
  | pending | free | cells | shadow | pend | act | prev | hold | wbuf | commit | clk | ptp | snap | words | tile
  | memBytes | mem | stream | queue | sig | nose | coll | fab | part | tagBytes | tag | pathVal | island | msix | power
  | fuses | boot | mgmt | life | host | out
  deriving DecidableEq, Repr

/-- Whether a part is the same in two states. -/
def Same (p : Part) (s t : State) : Prop :=
  match p with
  | .pending => t.pending = s.pending
  | .free => t.free = s.free
  | .cells => t.regs.cells = s.regs.cells
  | .shadow => t.regs.shadow = s.regs.shadow
  | .pend => t.regs.pend = s.regs.pend
  | .act => t.regs.act = s.regs.act
  | .prev => t.regs.prev = s.regs.prev
  | .hold => t.regs.hold = s.regs.hold
  | .wbuf => t.regs.wbuf = s.regs.wbuf
  | .commit => t.commit = s.commit
  | .clk => t.clk = s.clk
  | .ptp => t.ptp = s.ptp
  | .snap => t.snap = s.snap
  | .words => t.tile.words = s.tile.words
  | .tile => { t.tile with words := s.tile.words } = s.tile
  | .memBytes => t.mem.bytes = s.mem.bytes
  | .mem => { t.mem with bytes := s.mem.bytes } = s.mem
  | .stream => t.stream = s.stream
  | .queue => t.queue = s.queue
  | .sig => t.sig = s.sig
  | .nose => t.nose = s.nose
  | .coll => t.coll = s.coll
  | .fab => t.fab = s.fab
  | .part => t.part = s.part
  | .tagBytes => t.tag.bytes = s.tag.bytes
  | .tag => { t.tag with bytes := s.tag.bytes } = s.tag
  | .pathVal => t.pathVal = s.pathVal
  | .island => t.island = s.island
  | .msix => t.msix = s.msix
  | .power => t.power = s.power
  | .fuses => t.fuses = s.fuses
  | .boot => t.boot = s.boot
  | .mgmt => t.mgmt = s.mgmt
  | .life => t.life = s.life
  | .host => t.host = s.host
  | .out => t.out = s.out

/-- From `s` to `t` at most the parts of `ch` change. -/
structure Alters (ch : List Part) (s t : State) : Prop where
  same : ∀ p, p ∉ ch → Same p s t

/-- Whether every part of `c` is one of `ch`. -/
def Part.le (c ch : List Part) : Bool := c.all ch.contains

/-- The parts that raising an error changes: registers, the record queue, the log and the journal with its free payload,
interrupts, and the first-error snapshot (R53, R371). -/
abbrev Part.err : List Part := [.free, .cells, .snap, .tag, .island, .msix, .out]

/-- A register write of a path at offset `a` reaches its page: the page answers and is fitted, a card that writes is the lead,
and a virtual function may write there; `own` is the partition that a request names (R5, R27, R430, R489). -/
abbrev State.reaches (s : State) (p : Path) (a : Nat) (own : Option Nat) : Prop :=
  s.answers p a = true ∧ s.takesWrites p = true ∧ s.fitted a = true ∧ ((pathVf p).all fun v => s.vfWrites v a own) = true

/-- The state in which a page takes a write of `n` bytes at offset `a`: the payload has been counted, and a low half that
the path had buffered for the page has been discarded (R38). -/
def State.taken (s : State) (p : Path) (a n : Nat) : State := (s.countRx p n).discardHalf p (pageBase a)

/-- From `s` to `t` the error `e` is raised once more: its event counter counts, and saturates (R44, R371). -/
abbrev Raised (e : Err) (s t : State) : Prop := t.rd (R.LEDG.EVT e.index) = min ctMax (s.rd (R.LEDG.EVT e.index) + 1)

/-- From `s` to `t` the counter `f` counts `n` more, and saturates (R44). -/
abbrev Counted (f : Fld) (n : Nat) (s t : State) : Prop := t.rd f = min ctMax (s.rd f + n)

/-- The error of a check's answer, if it is one. -/
abbrev errorOf {β : Type} (x : Except Err β) : Option Err := judged x some fun _ => none

/-- Queue `q` may issue the command with the record `e` that stands at HEAD, and nothing that R174 to R176 name lets it wait. -/
abbrev State.atHead (s : State) (q e : Nat) : Prop :=
  s.mayIssue q = true ∧ s.entryAt q (s.nextIdx q) = some e ∧ s.waitWhy q e = 0

/-- The state in which the command at HEAD of queue `q` is judged: its record has been fetched, and the fetch of one in host memory
is counted there (R154, R493). -/
abbrev State.headFetched (s : State) (q : Nat) : State := s.ringFetch q (s.nextIdx q)

/-- The command at HEAD of queue `q` is not one that has issued already, none that faulted waits for a RESUME, and its
index is not in flight. -/
abbrev State.plainHead (s : State) (q : Nat) : Prop :=
  (s.q q).ahead = [] ∧ (s.q q).faults = [] ∧ ∀ g ∈ (s.q q).flights, g.idx ≠ s.nextIdx q

/-- The command `e` at HEAD of queue `q` issues and completes (R176 to R178): HEAD passes it, ISSUED and COMPLETED count it,
DONE passes it where it is the next to, and its own counter advances, unless the command itself writes that one (`but`). -/
abbrev Completes (q e : Nat) (but : List Nat) (s t : State) : Prop :=
  t.rd (R.CQ.HEAD q) = idxAdd (s.nextIdx q) 1 ∧ Counted (R.CQ.ISSUED q) 1 s t ∧ Counted (R.CQ.COMPLETED q) 1 s t ∧
  (t.q q).flights = (s.q q).flights ∧
  (s.rd (R.CQ.DONE q) = s.nextIdx q → (s.q q).finished = [] → t.rd (R.CQ.DONE q) = idxAdd (s.nextIdx q) 1) ∧
  (cmdDoneEn e = true → cmdDoneCtr e ∉ but → t.ctr (cmdDoneCtr e) = min sigMax (s.ctr (cmdDoneCtr e) + cmdDoneAdd e))

/-- A COMPUTE that has passed its checks issues from `s` into `t` and works in every tile of its set as `work` says: a sample of the
Nose is begun before and ended after, and MX_STAT shows the work last (R182, R384, R140). -/
abbrev Computes (q e : Nat) (x : Work) (work : State → Owner → Nat × Nat × Nat → State) (s t : State) : Prop :=
  let v := (tileSetOf (field e 16 31 0)).tiles
  let f := s.newFlight q (s.nextIdx q) e (v.map Prod.fst)
  t = v.foldl (fun u p =>
    let a := u.beginSample f.owner p.1 p.2.1 p.2.2 x
    ((work a.1 f.owner p).endSample a.2).mxShow p.1 x) (s.issue q f)

/-- A COLLECTIVE at HEAD of queue `q` that passes the checks of R182 and R311: it is `x` on the group `d` with the exchange
table `tab`, its checks leave the state `b`, and its entry is bound or finds a free context (R310). -/
abbrev State.collReady (z : State) (q e : Nat) (x : CollWork) (d : GroupDesc) (tab : List XchgRow × Nat × Nat × Nat)
    (b : State) : Prop :=
  let s := z.headFetched q
  let p := (s.queuePart q).getD 8
  let g := s.groupChecks p x
  let y := g.1.tableCheck (s.newOwner q (s.nextIdx q)) x d
  z.atHead q e ∧ cmdClass e = clsCollective ∧ x = { collOf e with count := x.count } ∧
  firstErr [errIf (!s.collField q e) .CMD_FIELD, s.checkCounters q e, s.checkProfile e] = none ∧
  s.bound q (field e 56 3 0) (collOf e).count 64 = some x.count ∧ x.count ≠ 0 ∧ ¬(x.prof = 1 ∧ (isMx x.fmt = true ∨ x.fmt = 7)) ∧
  g.2.toOption = some d ∧ g.1.collFormat p x d = none ∧ y.2.toOption = some tab ∧ y.1 = b ∧
  (b.grpBound x.grp = true ∨ b.ctxUsed (b.grpEngine x.grp) < 16)

/-- A collective of a node group starts from `b` into `t` (R313 to R316): its entry is stamped with the next SEQ, the command
issues, the entry binds, and this member's part begins. `s` is the state before the checks. -/
abbrev Collective (s : State) (q e : Nat) (x : CollWork) (d : GroupDesc) (tab : List XchgRow × Nat × Nat × Nat)
    (b t : State) : Prop :=
  let c := (b.applyAborts ((s.queuePart q).getD 8) x.grp d).stampEntry x.grp
  let f := c.newFlight q (s.nextIdx q) e []
  t = ((c.issue q f).bind x.grp d).startColl f.owner x d tab

/-- A collective of a node group whose step keeps within its verdict destinations, and that no abort covers once it is stamped. -/
abbrev State.collClear (s : State) (q : Nat) (x : CollWork) (d : GroupDesc) (b : State) : Prop :=
  let c := (b.applyAborts ((s.queuePart q).getD 8) x.grp d).stampEntry x.grp
  d.tile = false ∧ b.destsFull ((s.headFetched q).newOwner q (s.nextIdx q)) d = false ∧ c.seqAborted x.grp = false

/-- The replay of the attempt `r` of a step of partition `p` restores the checkpoint `c` (R396 steps 3 to 5): every counter has the
checkpoint's value, the queues that hold a gate for the step go back to it, the attempt counts up and begins afresh, and no
duplicate of the step is left; then the hook stops for software, or the partition resumes. -/
abbrev Restored (p : Nat) (r : Run) (c : Ckpt) (s t : State) : Prop :=
  let b := s.restoreCkpt c
  ((c.ctrs.map Prod.fst).Nodup → ∀ y ∈ c.ctrs, t.ctr y.1 = y.2) ∧
  (∀ q ∈ s.queuesOf p, ∀ g : Nat,
    ([0, 1].find? fun i => b.on (R.CQ.GATE_STEP.VALID q i) && decide (b.rd (R.CQ.GATE_STEP.STEP q i) = r.step)) = some g →
    t.rd (R.CQ.HEAD q) = b.rd (R.CQ.GATE_IDX q g) % 2 ^ 32 ∧ t.rd (R.CQ.DONE q) = b.rd (R.CQ.GATE_IDX q g) % 2 ^ 32 ∧
    t.rd (R.CQ.FAULT_IDX q) = 0 ∧ t.rd (R.CQ.FAULT_CODE.CODE q) = 0 ∧ (t.q q).faults = []) ∧
  (∀ x ∈ t.nose.runs, x.part = p → x.step = r.step →
    x.att = r.att + 1 ∧ x.closed = none ∧ x.local3 = false ∧ x.held = [] ∧ x.ckpt = r.ckpt) ∧
  (∀ d ∈ t.nose.dups, d.owner.part = p → ∀ y : Nat × Nat, d.owner.step = some y → y.1 < r.step) ∧
  (r.closed.isSome = true → t.rd (R.MOD.STEP_STAT.AWAIT p) = 0) ∧ Counted R.NOSE.REPLAYS 1 s t ∧
  t.rd (R.NOSE.REPLAY_STAT.PHASE p) = (if s.on R.NOSE.REPLAY_CFG.HOOK then 4 else 0) ∧
  (if s.on R.NOSE.REPLAY_CFG.HOOK then Raised .REPLAY_READY s t else bitOf (t.holders p) holdReplay = false)

/-- Frame `f` that arrives on link `k` is the next in order, on its own virtual channel and within the bounds of its type, and
this module takes it (R344, R349, R359). -/
abbrev State.takes (s : State) (k : Nat) (f : Frame) : Prop :=
  s.linkUp k = true ∧ f.vc = f.body.vc ∧ f.layer ≤ 1 ∧ f.body.sizeOk = true ∧ f.fseq = (s.link k).rxSeq ∧ s.takesFrame f = true

/-- A store of `n` bytes at offset `off` is to the byte of memory with the key `a`: one of its offsets lies there. -/
abbrev State.storesTo (s : State) (off n a : Nat) : Prop :=
  ∃ i ∈ List.range n, (s.place (off + i)).toOption.map Place.key = some a

/-- A request of TYPE `type` with the header `h` arrives at the lead card's port for this module, someone handles it, its source
is controller slot `i`, and its SEQ is ahead of the last one accepted from there (R462, R463). -/
abbrev State.hears (s : State) (h : IcordHdr) (type i : Nat) : Prop :=
  oddType h = false ∧ s.handles h type = true ∧ s.ctlSlot h.addr.toNat = some i ∧ s.seqFresh i h.seq.toNat = true

/-- A request of class 0 with the header `h` arrives at a card's port for this module, from controller slot `i`, with a SEQ ahead
of the last one accepted from there (R464). -/
abbrev State.hearsZero (s : State) (h : IcordHdr) (i : Nat) : Prop :=
  oddType h = false ∧ s.modState ≠ 0 ∧ s.portUp h.port = true ∧ h.serial.toNat = s.fuses.serial ∧ s.ctlSlot h.addr.toNat = some i ∧
  s.seqFresh i h.seq.toNat = true

/-- The fields that raising an error in a page changes (R53, R371, R469, R471, R475): the capture, the event counters, and
the counters of the record queue and of the tag's queue. -/
def errFields (pg : Nat) (e : Err) (c : Nat) : List Fld :=
  let cts := [R.LEDG.EVT_CLASS c, R.LEDG.EVT e.index, R.MGMT.ERR_MERGED, R.MGMT.ERRQ_LOG_ONLY, R.TAG.DEFERS]
  [R.PG.ERR_FIRST.VALID pg, R.PG.ERR_FIRST.MULTI pg, R.PG.ERR_FIRST.SOURCE pg, R.PG.ERR_FIRST.CODE pg, R.PG.ERR_COUNT pg,
   R.PG.IRQ_RAW.ERR pg, R.MGMT.ERRQ_STAT.DEPTH, R.MGMT.ERRQ_STAT.MERGING, R.TAG.STAT.QUEUE] ++ cts ++ cts.map Fld.ovf

/-- From `s` to `t` at most the parts of `ch` change, and of the register fields that are not staged at most those of `fs`. -/
def Confined (ch : List Part) (fs : List Fld) (s t : State) : Prop :=
  Alters (.cells :: ch) s t ∧ ∀ g : Fld, g.key ∉ fs.map Fld.key → t.rd g = s.rd g

end Sys2Proof.Machine
end

