-- ==== Sys2Proof/Certificates/Slice0/Obligations.lean ====
section
/-! DEFINITION. The statements for the provers. -/

open Sys2Proof Sys2Proof.Machine

/-! ### A step -/

/-- A step takes the command at the front of the queue and runs it on the state with the queue's rest. With no command waiting
a step goes on, and takes none from the empty queue (log entry 1: what it does is one tick of time, the model's choice). -/
def Obligations.StepTakesTheFrontCommand : Prop :=
  (∀ (c : Instr) (rest : List Instr) (s : State), s.pending = c :: rest →
    step s = exec c { s with pending := rest }) ∧
  (∀ s : State, s.pending = [] → Goes s fun t => t.pending = [])

/-- What the spec gives at the entry to FUSED (R430, R434, R436, R437): the state FUSED, the root PLL locked and the reference
in range, TIME 0, the fuses passed and shown in VARIANT, no commit, no interrupt, no command waiting, every staged register at
its reset value in each copy; the log's presumed values (entry 2) are no part of it. -/
def Obligations.ResetIsTheEntryToFused : Prop :=
  let s := State.reset
  s.modRead = 1 ∧ s.time = 0 ∧ s.on R.CLK.STATUS.LOCK = true ∧ s.on R.CLK.STATUS.REF_OK = true ∧
    s.rd R.MOD.VARIANT.STACKS = 32 ∧ s.rd R.MOD.VARIANT.LINKS = 48 ∧ s.rd R.MOD.VARIANT.FLASH_SLEDS = 4 ∧
    s.rd R.FUSE.CRC = s.fuses.crc ∧ s.pending = [] ∧ s.on R.MOD.COMMIT_STAT.PENDING = false ∧
    s.regs.shadow = [] ∧ s.regs.pend = [] ∧ s.regs.act = [] ∧ s.island.queue = [] ∧ s.out = []

/-- The bytes of the tiers, the scratchpads and the tag are in canonical form: addresses strictly rising, and no byte or word
listed that an unlisted address reads as. -/
def Obligations.ResetMemoryIsCanonical : Prop :=
  Memory.wf State.reset = true

/-- Every step keeps the memories in canonical form. -/
def Obligations.EveryStepKeepsMemoryCanonical : Prop :=
  ∀ s t : State, Memory.wf s = true → step s = .next t → Memory.wf t = true

/-- No step but the load of an image changes a fuse: a step that takes any other command, or none, leaves every fuse as it was. A
load only blows fuses: the minimum security version does not fall, a revoked key stays revoked, and every other fuse is as it
was (R434, R435, R438). The model's reading: log entry 55. -/
def Obligations.EveryStepOnlyBlowsFuses : Prop :=
  (∀ s t : State, step s = .next t → s.pending.head? ≠ some .imageCheck → t.fuses = s.fuses) ∧
  (∀ s t : State, step s = .next t →
    s.fuses.svn ≤ t.fuses.svn ∧ (s.fuses.revoke0 = true → t.fuses.revoke0 = true) ∧
      t.fuses = { s.fuses with svn := t.fuses.svn, revoke0 := t.fuses.revoke0 })

/-- Every command goes on, in every state: none faults and none is refused. The model's reading: log entry 23. -/
def Obligations.EveryCommandGoesOn : Prop :=
  ∀ (c : Instr) (s : State), Runs c s fun _ => True

/-! ### Registers and errors -/

/-- A register write that reaches its page has its payload counted in HOST.RX_BYTES of its port, and nothing else where the
path had buffered no low half for the page (R38). How a write reaches each type of field (R41 to R49): RW and unlocked LK
fields take the bits, RO and TG and locked LK fields keep theirs, HS bits clear where the write has a 1, CT counts fall by
what is written and the OVF bit clears with bit 63, ST fields take the bits into their shadow copy alone. A counter counts,
and saturates with its OVF bit set (R44). LOW_HALF_READ and LOW_HALF_WRITE (R38): a 32-bit read of the low half of a 64-bit
register answers it and holds the high half for the path and page; a 64-bit read answers the whole register and holds nothing;
a 32-bit write of the low half is buffered there, and changes no register. HIGH_HALF_WRITE and REGISTER_WRITE (R38, R41): a
write of the high half applies it as one 64-bit write with the buffered low half, or with zero where none is buffered; a write
of a register that starts nothing applies every field by its type. SOFT_RESET (R51): a block that accepts it takes its RW and
HS fields, beyond the header, to their reset values, and its inner state with them; a commit that waits for the page no longer
applies there. A Sillage engine's credits go too, and a queue's HEAD, DONE and TAIL. A block at work refuses it with
SRST_REFUSED. The model's reading: log entries 24, 27, 28. -/
def Obligations.RegistersTakeWrites : Prop :=
  (∀ (s : State) (p : Path) (a n : Nat), s.half p (pageBase a) = none →
    match p with
    | .sideband _ => s.taken p a n = s
    | .host .a _ => (s.taken p a n).rd R.HOST.RX_BYTES_A = min ctMax (s.rd R.HOST.RX_BYTES_A + n) ∧
        Confined [] [R.HOST.RX_BYTES_A, R.HOST.RX_BYTES_A.ovf] s (s.taken p a n)
    | .host .b _ => (s.taken p a n).rd R.HOST.RX_BYTES_B = min ctMax (s.rd R.HOST.RX_BYTES_B + n) ∧
        Confined [] [R.HOST.RX_BYTES_B, R.HOST.RX_BYTES_B.ovf] s (s.taken p a n)) ∧
  (∀ (s : State) (a v : Nat) (r : FRow),
    let t := s.writeField a v r
    let x := v / 2 ^ r.lo % 2 ^ r.w
    match r.ty with
    | .RW => t.rd (r.at a) = x ∧ Confined [] [r.at a] s t
    | .RO | .TG => t = s
    | .HS => t.rd (r.at a) = (s.rd (r.at a) - (s.rd (r.at a) &&& x)) % 2 ^ r.w ∧ Confined [] [r.at a] s t
    | .CT => (r.lo = 0 ∧ r.w = 63 ∧ s.rd (r.at a) < 2 ^ 63 ∧ v < 2 ^ 63 ∧ v ≤ s.rd (r.at a) →
        t.rd (r.at a) = s.rd (r.at a) - v ∧ Confined [] [r.at a] s t)
    | .ST => t.shadow (r.at a) = x ∧ Alters [.shadow] s t
    | .LK => if s.unlocked then t.rd (r.at a) = x ∧ Confined [] [r.at a] s t else t = s) ∧
  (∀ (s : State) (f : Fld) (n : Nat), f.lo = 0 → f.w = 63 →
    let t := s.bump f n
    t.rd f = min ctMax (s.rd f + n) ∧ t.rd f.ovf = (if ctMax < s.rd f + n then 1 else s.rd f.ovf) ∧
      Confined [] [f, f.ovf] s t) ∧
  (∀ (s : State) (p : Path) (off : BitVec 26), wideAt off.toNat = true → off.toNat % 8 = 0 → s.answers p off.toNat = true →
    s.fitted off.toNat = true → (s.countTx p 4).mayRead p off.toNat = true →
    let u := s.countTx p 4
    let v := u.readReg p off.toNat
    Runs (.lowHalfRead p off false false) s fun t =>
      Cells.get 0 t.regs.hold (halfKey p (pageBase off.toNat)) = BitVec.ofNat 32 (v / 2 ^ 32) ∧
      t.out = s.out ++ [Out.readData p (BitVec.ofNat 64 (v % 2 ^ 32))] ∧ Alters [.hold, .out] u t) ∧
  (∀ (s : State) (p : Path) (off : BitVec 26), wideAt off.toNat = true → off.toNat % 8 = 0 → s.answers p off.toNat = true →
    s.fitted off.toNat = true → (s.countTx p 8).mayRead p off.toNat = true →
    let u := s.countTx p 8
    Runs (.lowHalfRead p off true false) s fun t =>
      t.out = s.out ++ [Out.readData p (BitVec.ofNat 64 (u.readReg p off.toNat))] ∧ Alters [.out] u t) ∧
  (∀ (s : State) (p : Path) (off : BitVec 26) (v : Word), wideAt off.toNat = true → off.toNat % 8 = 0 →
    s.reaches p off.toNat (s.vfOwn off.toNat fun hi lo => bitsOf v.toNat hi lo) →
    let u := s.taken p off.toNat 4
    Runs (.lowHalfWrite p off v) s fun t =>
      t.half p (pageBase off.toNat) = some (off.toNat, v) ∧ t.regs.cells = u.regs.cells ∧ Alters [.wbuf] u t) ∧
  (∀ (s : State) (p : Path) (off : BitVec 26) (v : Word), wideAt (off.toNat - 4) = true → wideAt off.toNat = false →
    off.toNat % 8 = 4 → s.reaches p off.toNat (s.vfOwn off.toNat fun hi lo => bitsOf v.toNat hi lo) →
    let u := s.countRx p 4
    Runs (.highHalfWrite p off v) s fun t =>
      t = (match u.half p (pageBase off.toNat) with
        | some (o, w) =>
          if o = off.toNat - 4 then
            (u.setHalf p (pageBase off.toNat) none).regWrites mailbox p [(o, v.toNat * 2 ^ 32 + w.toNat)]
          else (u.discardHalf p (pageBase off.toNat)).regWrites mailbox p [(off.toNat - 4, v.toNat * 2 ^ 32)]
        | none => u.regWrites mailbox p [(off.toNat - 4, v.toNat * 2 ^ 32)])) ∧
  (∀ (s : State) (p : Path) (off : BitVec 26) (v : DWord) (row : RegRow) (ty : PageTy) (i : Nat),
    regAt off.toNat = some row → row.wide = false → off.toNat % 4 = 0 → pageAt off.toNat = some (ty, i) →
    ty ∈ [PageTy.FUSE, .SILL, .HOST, .PDOM, .LINK, .STACK, .SPARE] → 0x80 ≤ off.toNat % 0x1000 →
    off.toNat ∉ [R.HOST.PART_PORT.addr, (R.PDOM.VTARGET.OFFSET_MV i).addr, (R.LINK.CTRL.RETRAIN i).addr,
      R.SPARE.SHIFT_CTRL.GO.addr, (R.STACK.SPARE_CTRL.GO i).addr] →
    s.reaches p off.toNat none →
    let u := s.taken p off.toNat 4
    (u.unlocked = true ∨ u.changesLk off.toNat (v.toNat % 2 ^ 32) row = false) →
    wideAt (off.toNat - 4) = false →
    Runs (.registerWrite p off false false v) s fun t =>
      t = row.fields.foldl (fun u r => u.writeField off.toNat (v.toNat % 2 ^ 32) r) u ∧ Alters [.cells, .shadow] u t) ∧
  (∀ (s : State) (p : Path) (page : Fin 1984), let pg := 0x1000 * page.val
    s.reaches p (R.PG.CTRL.SRST pg).addr none → let u := s.taken p (R.PG.CTRL.SRST pg).addr 4
    u.softAccepted pg = true → u.on R.MOD.COMMIT_STAT.PENDING = false →
    Runs (.softReset p page) s fun t =>
      t = (((softFields pg).filter fun f => !u.softKept pg f).foldl (fun u f => u.wr f f.rst) u).softInner pg ∧
      Alters [.free, .cells, .stream, .tile, .queue, .pathVal, .power] u t) ∧
  (∀ (s : State) (p : Path) (q : Fin 256), s.reaches p (R.PG.CTRL.SRST (pgCQ q)).addr none →
    let u := s.taken p (R.PG.CTRL.SRST (pgCQ q)).addr 4
    u.softAccepted (pgCQ q) = true → u.on R.MOD.COMMIT_STAT.PENDING = false →
    Runs (.softReset p ⟨0x200 + q.val, by omega⟩) s fun t =>
      t.rd (R.CQ.HEAD q) = 0 ∧ t.rd (R.CQ.DONE q) = 0 ∧ t.rd (R.CQ.TAIL q) = 0 ∧
      t.q q = { QState.empty with flights := (u.q q).flights } ∧ Alters [.cells, .queue] u t) ∧
  (∀ (s : State) (p : Path) (page : Fin 1984), let pg := 0x1000 * page.val
    s.reaches p (R.PG.CTRL.SRST pg).addr none → let u := s.taken p (R.PG.CTRL.SRST pg).addr 4
    u.softAccepted pg = false → pg ∈ allPages →
    Runs (.softReset p page) s fun t =>
      Raised .SRST_REFUSED u t ∧
      Confined Part.err (errFields pg .SRST_REFUSED Err.SRST_REFUSED.cls) u t)

/-- Raising an error (R53, R371, R471): an empty capture takes its code and source with ERR_COUNT 1 and MULTI 0, a full one
keeps its code and source, sets MULTI and counts; the event counters count it; and nothing changes but the fields of
`errFields` and the parts of `Part.err`. BAD_ACCESS (R36): a misaligned access, or one that is neither 32 nor 64 bits wide,
has no effect, reads zero, is recorded in MOD.ACCESS_ERR where that holds none yet, and raises BAD_ACCESS. The model's
reading: log entries 24, 25. -/
def Obligations.ErrorsAreCaptured : Prop :=
  (∀ (s : State) (pg : Nat) (e : Err) (src : Nat), pg ∈ allPages →
    let t := s.raise pg e src
    t.on (R.PG.ERR_FIRST.VALID pg) = true ∧
    (if s.on (R.PG.ERR_FIRST.VALID pg) then
      t.rd (R.PG.ERR_FIRST.CODE pg) = s.rd (R.PG.ERR_FIRST.CODE pg) ∧
        t.rd (R.PG.ERR_FIRST.SOURCE pg) = s.rd (R.PG.ERR_FIRST.SOURCE pg) ∧
        t.on (R.PG.ERR_FIRST.MULTI pg) = true ∧
        t.rd (R.PG.ERR_COUNT pg) = min 0xFFFFFFFF (s.rd (R.PG.ERR_COUNT pg) + 1)
    else
      t.rd (R.PG.ERR_FIRST.CODE pg) = e.code % 2 ^ 16 ∧ t.rd (R.PG.ERR_FIRST.SOURCE pg) = src % 2 ^ 8 ∧
        t.on (R.PG.ERR_FIRST.MULTI pg) = false ∧ t.rd (R.PG.ERR_COUNT pg) = 1 ∧ t.on (R.PG.IRQ_RAW.ERR pg) = true) ∧
    t.rd (R.LEDG.EVT e.index) = min ctMax (s.rd (R.LEDG.EVT e.index) + 1) ∧
    Confined Part.err (errFields pg e e.cls) s t) ∧
  (∀ (s : State) (p : Path) (off : BitVec 26) (n : Nat) (write : Bool), alignedAccess off.toNat n = false → s.modState ≠ 0 →
    Runs (.badAccess p off n write) s fun t =>
      t.on R.MOD.ACCESS_ERR.VALID = true ∧
      (s.on R.MOD.ACCESS_ERR.VALID = false →
        t.rd R.MOD.ACCESS_ERR.PATH = pathIx p ∧ t.rd R.MOD.ACCESS_ERR.OFFSET = off.toNat) ∧
      (s.on R.MOD.ACCESS_ERR.VALID = true →
        t.rd R.MOD.ACCESS_ERR.PATH = s.rd R.MOD.ACCESS_ERR.PATH ∧ t.rd R.MOD.ACCESS_ERR.OFFSET = s.rd R.MOD.ACCESS_ERR.OFFSET) ∧
      (write = false → t.out.getLast? = some (.readData p 0)) ∧
      Raised .BAD_ACCESS s t ∧
      Confined Part.err ([R.MOD.ACCESS_ERR.VALID, R.MOD.ACCESS_ERR.PATH, R.MOD.ACCESS_ERR.OFFSET] ++
        errFields pgMOD .BAD_ACCESS Err.BAD_ACCESS.cls) s t)

/-! ### Commits -/

/-- COMMIT_REQUEST is taken where no commit is pending or held, the scope is not empty, and the module is not shed or the
scope has no partition (R57 step 1): MOD takes the next generation and sets PENDING, and the scope's pages are fixed.
COMMIT_REQUEST while a commit is pending or held raises COMMIT_BUSY and starts none (R57 step 1). COMMIT_CYCLE and
COMMIT_EPOCH (R57 steps 2 and 3): in the commit cycle the scope's pages copy shadow to pending, and T and the deadline are
fixed; at T the scope's queues stop. PAGE_APPLY and CREDIT_DRAIN (R57 step 4, R346): a page that may apply copies active to
previous and pending to active, and acknowledges with the new generation; a link page whose credits change does so once its
credits are home, sends CONFIG with them, and acknowledges once the peer's CONFIG has come too. The model's reading: log entries 29, 30. -/
def Obligations.CommitsAreRequestedAndApplied : Prop :=
  (∀ (s : State) (p : Path) (scope : BitVec 8) (glob : Bool), s.reaches p R.MOD.COMMIT_CTRL.GO.addr none →
    let u := s.taken p R.MOD.COMMIT_CTRL.GO.addr 4
    u.on R.MOD.COMMIT_STAT.PENDING = false → u.on R.MOD.COMMIT_STAT.HELD = false → (scope ≠ 0 ∨ glob = true) →
    (scope = 0 ∨ u.rd R.PWR.STAT.SHED = 0) →
    Runs (.commitRequest p scope glob) s fun t =>
      t.rd R.MOD.COMMIT_GEN = (u.rd R.MOD.COMMIT_GEN % 0xFFFFFFFF + 1) % 2 ^ 32 ∧
      t.on R.MOD.COMMIT_STAT.PENDING = true ∧ t.commit.parts = scope.toNat ∧ t.commit.glob = glob ∧
      t.commit.cycleDone = false ∧ t.commit.stop = none ∧ t.commit.byQueue = none ∧ Alters [.cells, .commit] u t) ∧
  (∀ (s : State) (p : Path) (scope : BitVec 8) (glob : Bool), s.reaches p R.MOD.COMMIT_CTRL.GO.addr none →
    let u := s.taken p R.MOD.COMMIT_CTRL.GO.addr 4
    (u.on R.MOD.COMMIT_STAT.PENDING = true ∨ u.on R.MOD.COMMIT_STAT.HELD = true) →
    Runs (.commitRequest p scope glob) s fun t =>
      t.rd R.MOD.COMMIT_GEN = u.rd R.MOD.COMMIT_GEN ∧
      Raised .COMMIT_BUSY u t ∧
      Confined Part.err ([R.MOD.COMMIT_CTRL.SCOPE, R.MOD.COMMIT_CTRL.GLOBAL, R.MOD.COMMIT_CTRL.OP] ++
        errFields pgMOD .COMMIT_BUSY Err.COMMIT_BUSY.cls) u t) ∧
  (∀ s : State, s.on R.MOD.COMMIT_STAT.PENDING = true → s.commit.cycleDone = false → s.commit.again = false →
    s.time < s.rd R.MOD.COMMIT_EPOCH →
    (∀ pg ∈ s.cyclePages, (s.toPending fun k => s.cyclePages.any fun pg => s.staged pg k).pageLegal pg = true) →
    Runs .commitCycle s fun t =>
      t.regs.pend = copyPage s.regs.pend s.regs.shadow (fun k => s.cyclePages.any fun pg => s.staged pg k) ∧
      t.commit.cycleDone = true ∧ t.commit.epoch = s.rd R.MOD.COMMIT_EPOCH ∧
      t.commit.deadline = some (s.rd R.MOD.COMMIT_EPOCH + s.deadlineTicks) ∧ t.commit.stop = s.commit.stop ∧
      Alters [.cells, .pend, .commit] s t) ∧
  (∀ s : State, s.on R.MOD.COMMIT_STAT.PENDING = true → s.commit.cycleDone = true → s.commit.stop = none →
    s.commit.epoch ≤ s.time →
    Runs .commitEpoch s fun t =>
      t.commit = { s.commit with stop := some s.time, refused := s.notStopped } ∧ Alters [.cells, .commit] s t) ∧
  (∀ (s : State) (page : Fin 1984) (ty : PageTy) (i : Nat), let pg := 0x1000 * page.val
    s.mayApply pg = true → pageAt pg = some (ty, i) → ty ∉ [PageTy.MOD, .CLK, .SILL, .LINK] →
    (∃ x ∈ s.commit.pages, x ∈ allPages ∧ x ≠ pg ∧ s.on (R.PG.STAT.ACKED x) = false) →
    Runs (.pageApply page) s fun t =>
      t.regs.act = copyPage s.regs.act s.regs.pend (inPage pg) ∧ t.regs.prev = copyPage s.regs.prev s.regs.act (inPage pg) ∧
      t.rd (R.PG.STAGE_GEN pg) = s.rd R.MOD.COMMIT_GEN % 2 ^ 32 ∧ t.rd (R.PG.COMMIT_ACK pg) = s.rd R.MOD.COMMIT_GEN % 2 ^ 32 ∧
      t.on (R.PG.STAT.ACKED pg) = true ∧ t.on (R.PG.IRQ_RAW.COMMIT pg) = true ∧
      Alters [.cells, .act, .prev, .commit, .msix, .out] s t) ∧
  (∀ (s : State) (k : Fin 48), (s.link k).drain = ⟨true, true, true, false, none⟩ → s.linkUp k = true →
    (s.link k).resend = none → s.responds (pgLINK k) = true →
    (∀ c ∈ classes, s.rd (R.LINK.LED_HELD k c) = s.rd (R.LINK.LED_INIT k c)) →
    Runs (.creditDrain k) s fun t =>
      t.regs.act = copyPage s.regs.act s.regs.pend (inPage (pgLINK k)) ∧
      t.regs.prev = copyPage s.regs.prev s.regs.act (inPage (pgLINK k)) ∧
      (t.link k).drain = ⟨true, false, true, true, none⟩ ∧
      (∃ f : Frame, (∃ l, f.body = .config l ∧ l.length = 12) ∧ t.out = s.out ++ [Out.frame k f]) ∧
      Alters [.cells, .act, .prev, .fab, .out] s t) ∧
  (∀ (s : State) (k : Fin 48) (l : List Nat), (s.link k).drain = ⟨true, true, true, false, some l⟩ → s.linkUp k = true →
    (s.link k).resend = none → s.responds (pgLINK k) = true → s.owesAck (pgLINK k) = true →
    (∀ c ∈ classes, s.rd (R.LINK.LED_HELD k c) = s.rd (R.LINK.LED_INIT k c)) →
    Runs (.creditDrain k) s fun t =>
      (t.link k).drain = Drain.none ∧ t.on (R.PG.STAT.ACKED (pgLINK k)) = true ∧
      Alters (Part.err ++ [Part.act, Part.prev, Part.commit, Part.queue, Part.sig, Part.nose, Part.fab]) s t)

/-- COMMIT_DEADLINE (R57 step 6): a page that has not acknowledged by S + D puts the scope into HOLD with COMMIT_LATE, the
deadline waiting while the module is shed. RECOMMIT and ROLLBACK in HOLD, and the rollback at the end of HOLD_AUTO (R59,
R452): a recommit tries the same generation again with a new commit cycle and a new deadline; a rollback ends the commit as
rolled back. The model's reading: log entry 29. -/
def Obligations.HoldsBeginAndEnd : Prop :=
  (∀ (s : State) (d : Nat), s.commit.deadline = some d → s.on R.MOD.COMMIT_STAT.PENDING = true → d ≤ s.time →
    s.rd R.PWR.STAT.SHED = 0 → (∃ pg ∈ s.commit.pages, s.on (R.PG.STAT.ACKED pg) = false) →
    Runs .commitDeadline s fun t =>
      t.on R.MOD.COMMIT_STAT.HELD = true ∧
      t.commit = { s.commit with heldAt := s.commit.heldAt.or (some s.time), stop := s.commit.stop.or (some s.time),
                                 again := false, deadline := none } ∧
      Raised .COMMIT_LATE s t ∧
      Alters (Part.err ++ [Part.commit]) s t) ∧
  (∀ (s : State) (p : Path) (scope : BitVec 8) (glob : Bool), s.reaches p R.MOD.COMMIT_CTRL.GO.addr none →
    let u := s.taken p R.MOD.COMMIT_CTRL.GO.addr 4
    u.on R.MOD.COMMIT_STAT.HELD = true → (scope ≠ 0 ∨ glob = true) →
    Runs (.recommit p scope glob) s fun t =>
      t.commit = { u.commit with cycleDone := false, again := true, heldAt := some u.time,
                                 deadline := some (u.time + u.deadlineTicks) } ∧
      Confined [.commit] [R.MOD.COMMIT_CTRL.SCOPE, R.MOD.COMMIT_CTRL.GLOBAL, R.MOD.COMMIT_CTRL.OP] u t) ∧
  (∀ (s : State) (p : Path) (scope : BitVec 8) (glob : Bool), s.reaches p R.MOD.COMMIT_CTRL.GO.addr none →
    let u := s.taken p R.MOD.COMMIT_CTRL.GO.addr 4
    u.on R.MOD.COMMIT_STAT.HELD = true → (scope ≠ 0 ∨ glob = true) → u.commit.byQueue = none →
    Runs (.rollback p scope glob) s fun t =>
      t.rd R.MOD.COMMIT_STAT.LAST_RESULT = 2 ∧ t.on R.MOD.COMMIT_STAT.PENDING = false ∧
      t.on R.MOD.COMMIT_STAT.HELD = false ∧ t.commit.stop = none ∧ t.commit.deadline = none ∧
      Alters (Part.err ++ [Part.act, Part.commit, Part.clk, Part.tile, Part.queue, Part.coll, Part.fab, Part.power, Part.host]) u t) ∧
  (∀ (s : State) (h : Nat), s.commit.heldAt = some h → s.on R.MOD.COMMIT_STAT.HELD = true → s.rd R.CFG.HOLD_AUTO ≠ 0 →
    h + s.rd R.CFG.HOLD_AUTO ≤ s.time → s.commit.byQueue = none →
    Runs .holdAutoExpiry s fun t =>
      t.rd R.MOD.COMMIT_STAT.LAST_RESULT = 2 ∧ t.on R.MOD.COMMIT_STAT.PENDING = false ∧
      t.on R.MOD.COMMIT_STAT.HELD = false ∧ t.commit.stop = none ∧ t.commit.deadline = none ∧
      Alters (Part.err ++ [Part.act, Part.commit, Part.clk, Part.tile, Part.queue, Part.coll, Part.fab, Part.power, Part.host]) s t)

/-! ### Clocks, time and snapshots -/

/-- One clk_tb edge advances TIME by 1, and sets nothing but counters, the deadline of a commit that a shed stalls, and the
engines' turns (R76). TB.SET_CTRL (R77): in FUSED, ENFLEURAGE and READY TIME takes SET_VALUE at the next edge, SET_DONE sets,
and a frame begins there, and a row that is stepping counts its frames on; in every other state the set is refused. The
reference (R66): more than 50 ppm off it raises REF_RANGE and goes on, and REF_OK comes back with it, in holdover too; absent
for less clears REF_OK alone; absent for 16 ticks, or out of range for 1 ms, it raises REF_LOSS and the PLL goes into
holdover; back in range for 1 ms, HOLDOVER clears. Outside OFF, FUSED and DRYDOWN a root PLL that unlocks raises PLL_UNLOCK
and begins the Drydown. The model's reading: log entry 1. -/
def Obligations.TimeGoesOnAndIsSet : Prop :=
  (∀ s : State, s.tick.time = (s.time + 1) % 2 ^ 64 ∧ Alters [.cells, .commit, .clk, .stream] s s.tick ∧
    s.tick.clk = { s.clk with edges := s.clk.edges + 1 } ∧
    s.tick.commit = { s.commit with deadline := if s.rd R.PWR.STAT.SHED ≠ 0 then s.commit.deadline.map (· + 1) else s.commit.deadline }) ∧
  (∀ (s : State) (p : Path), s.reaches p R.TB.SET_CTRL.addr none → let u := s.taken p R.TB.SET_CTRL.addr 4
    u.modRead ∈ [1, 2, 3] →
    Runs (.tbSet p) s fun t =>
      t.time = u.rd R.TB.SET_VALUE % 2 ^ 64 ∧ t.on R.TB.STAT.SET_DONE = true ∧ t.clk.edges = u.clk.edges + 1 ∧
      (∀ r ∈ List.range 24, t.rowFrac r = { u.rowFrac r with due := (u.rowFrac r).due.map (rebaseDue u.time (u.rd R.TB.SET_VALUE)) }) ∧
      t.frameHere = true ∧
      Alters (Part.err ++ [Part.commit, Part.clk, Part.stream, Part.queue, Part.sig, Part.nose]) u t) ∧
  (∀ (s : State) (p : Path), s.reaches p R.TB.SET_CTRL.addr none → let u := s.taken p R.TB.SET_CTRL.addr 4
    u.modRead ∉ [1, 2, 3] →
    Runs (.tbSet p) s fun t =>
      t.time = u.time ∧ Raised .TB_SET_REFUSED u t ∧
      Confined Part.err (errFields pgTB .TB_SET_REFUSED Err.TB_SET_REFUSED.cls) u t) ∧
  (∀ (s : State) (ppm : Nat), 5000 < (signed 16 ppm).natAbs →
    Runs (.referenceOutOfRange ppm) s fun t =>
      t.rd R.CLK.STATUS.REF_PPM = ppm % 2 ^ 16 ∧ t.on R.CLK.STATUS.REF_OK = false ∧ Raised .REF_RANGE s t ∧
      Confined Part.err ([R.CLK.STATUS.REF_PPM, R.CLK.STATUS.REF_OK] ++ errFields pgCLK .REF_RANGE Err.REF_RANGE.cls) s t) ∧
  (∀ (s : State) (ppm : Nat), (signed 16 ppm).natAbs ≤ 5000 →
    Runs (.referenceOutOfRange ppm) s fun t =>
      t.rd R.CLK.STATUS.REF_PPM = ppm % 2 ^ 16 ∧ t.on R.CLK.STATUS.REF_OK = true ∧
      Confined [] [R.CLK.STATUS.REF_PPM, R.CLK.STATUS.REF_OK] s t) ∧
  (∀ (s : State) (absent : Bool) (n : Nat), s.on R.CLK.STATUS.HOLDOVER = false → (if absent then 16 else 156250) ≤ n →
    Runs (.holdoverEntry absent n) s fun t =>
      t.on R.CLK.STATUS.HOLDOVER = true ∧ t.on R.CLK.STATUS.REF_OK = false ∧ t.time = s.time ∧ Raised .REF_LOSS s t ∧
      Confined Part.err ([R.CLK.STATUS.HOLDOVER, R.CLK.STATUS.REF_OK] ++ errFields pgCLK .REF_LOSS Err.REF_LOSS.cls) s t) ∧
  (∀ (s : State) (absent : Bool) (n : Nat), n ≠ 0 → n < (if absent then 16 else 156250) →
    Runs (.holdoverEntry absent n) s fun t =>
      t.on R.CLK.STATUS.REF_OK = false ∧ Confined [] [R.CLK.STATUS.REF_OK] s t) ∧
  (∀ (s : State) (ppm n : Nat), (signed 16 ppm).natAbs ≤ 5000 → 156250 ≤ n →
    Runs (.holdoverExit ppm n) s fun t =>
      t.on R.CLK.STATUS.HOLDOVER = false ∧ t.on R.CLK.STATUS.REF_OK = true ∧ t.rd R.CLK.STATUS.REF_PPM = ppm % 2 ^ 16 ∧
      Confined [] [R.CLK.STATUS.HOLDOVER, R.CLK.STATUS.REF_OK, R.CLK.STATUS.REF_PPM] s t) ∧
  (∀ s : State, 1 < s.modState → s.modState ≠ 7 →
    Runs .pllUnlock s fun t =>
      t.on R.CLK.STATUS.LOCK = false ∧ t.modState = 7 ∧ t.rd R.PWR.DD_LAST.CAUSE = Err.PLL_UNLOCK.code % 2 ^ 16 ∧
      Alters (Part.err ++ [Part.fab, Part.power, Part.life]) s t)

/-- FRACTION_MOVE (R72, R77): every row of the partition that is due moves its fraction by one sixteenth towards the target and is
due again 64 frames later, until it is there; the frame counts once. Emergency fraction changes (R74, R75): a GO whose epoch lies ahead is
pending until TIME reaches it, replacing one that was pending; one whose epoch has passed takes effect with EMERG_LATE; a
release takes effect like an apply, and ends the cap; a fraction outside 2 to 16 is taken as 2. The model's reading: log entry
31. -/
def Obligations.FractionsMove : Prop :=
  (∀ (s : State) (p : Fin 8),
    (∃ r ∈ s.clkRows p, (s.rowFrac r).eff ≠ s.fracTarget p ∧ ((s.rowFrac r).due.any fun d => decide (d ≤ s.time)) = true) →
    Runs (.fractionMove p) s fun t =>
      (∀ r ∈ s.clkRows p, t.rowFrac r =
        match (s.rowFrac r).due with
        | some d =>
          if (s.rowFrac r).eff ≠ s.fracTarget p ∧ d ≤ s.time then
            let e := if (s.rowFrac r).eff < s.fracTarget p then (s.rowFrac r).eff + 1 else (s.rowFrac r).eff - 1
            ⟨e, if e = s.fracTarget p then none else some (d + 128 - d % 2)⟩
          else s.rowFrac r
        | none => s.rowFrac r) ∧
      (∀ r ∈ List.range 24, r ∉ s.clkRows p → t.rowFrac r = s.rowFrac r) ∧
      Counted R.CLK.FRAC_CHANGES 1 s t ∧
      Confined [.clk] ([R.CLK.FRAC_CHANGES, R.CLK.FRAC_CHANGES.ovf] ++ (List.range 8).map R.CLK.FRAC_EFF) s t) ∧
  (∀ (s : State) (p : Path) (f : BitVec 5), s.reaches p R.CLK.EMERG_CTRL.GO.addr none →
    let u := s.taken p R.CLK.EMERG_CTRL.GO.addr 4
    u.time < u.rd R.CLK.EMERG_EPOCH →
    Runs (.emergApply p f) s fun t =>
      t.clk = { u.clk with pending := some ⟨true, if 2 ≤ f.toNat ∧ f.toNat ≤ 16 then f.toNat else 2, u.rd R.CLK.EMERG_EPOCH, 0⟩ } ∧
      t.on R.CLK.EMERG_STAT.PENDING = true ∧ t.rd R.CLK.EMERG_STAT.SOURCE = 0 ∧
      t.rd R.CLK.EMERG_STAT.REPLACED = (if u.clk.pending.isSome then
        min 0xFFFF (u.rd R.CLK.EMERG_STAT.REPLACED + 1) else u.rd R.CLK.EMERG_STAT.REPLACED) ∧
      Confined [.clk] [R.CLK.EMERG_CTRL.FRAC, R.CLK.EMERG_CTRL.OP, R.CLK.EMERG_EPOCH, R.CLK.EMERG_STAT.SOURCE,
        R.CLK.EMERG_STAT.REPLACED, R.CLK.EMERG_STAT.PENDING] u t) ∧
  (∀ (s : State) (p : Path) (f : BitVec 5), s.reaches p R.CLK.EMERG_CTRL.GO.addr none →
    let u := s.taken p R.CLK.EMERG_CTRL.GO.addr 4
    u.rd R.CLK.EMERG_EPOCH ≤ u.time →
    Runs (.emergApply p f) s fun t =>
      t.on R.CLK.EMERG_STAT.ACTIVE = true ∧ t.on R.CLK.EMERG_STAT.LATE = true ∧
      t.clk.frac = (if 2 ≤ f.toNat ∧ f.toNat ≤ 16 then f.toNat else 2) ∧ t.clk.pending = none ∧
      Counted R.CLK.EMERG_COUNT 1 u t ∧ Raised .EMERG_LATE u t ∧ Alters (Part.err ++ [Part.clk]) u t) ∧
  (∀ (s : State) (p : Path), s.reaches p R.CLK.EMERG_CTRL.GO.addr none →
    let u := s.taken p R.CLK.EMERG_CTRL.GO.addr 4
    u.time < u.rd R.CLK.EMERG_EPOCH →
    Runs (.emergRelease p) s fun t =>
      (∃ f : Fin 32, t.clk = { u.clk with pending := some ⟨false, f, u.rd R.CLK.EMERG_EPOCH, 0⟩ }) ∧
      t.on R.CLK.EMERG_STAT.PENDING = true ∧
      Confined [.clk] [R.CLK.EMERG_CTRL.FRAC, R.CLK.EMERG_CTRL.OP, R.CLK.EMERG_EPOCH, R.CLK.EMERG_STAT.SOURCE,
        R.CLK.EMERG_STAT.REPLACED, R.CLK.EMERG_STAT.PENDING] u t) ∧
  (∀ (s : State) (op : EmergOp), s.clk.pending = some op → op.epoch ≤ s.time →
    Runs .emergEpoch s fun t =>
      t.clk.pending = none ∧ t.on R.CLK.EMERG_STAT.PENDING = false ∧ t.on R.CLK.EMERG_STAT.ACTIVE = op.apply ∧
      t.clk.frac = (if op.apply then op.frac else s.clk.frac) ∧
      (op.apply = false → t.clk.capCeil = none ∧ t.clk.daxvo = false ∧ t.rd R.PWR.STAT.CAP_ACTIVE = 0) ∧
      Counted R.CLK.EMERG_COUNT 1 s t ∧
      Confined [.clk] [R.CLK.EMERG_STAT.PENDING, R.CLK.EMERG_STAT.ACTIVE, R.CLK.EMERG_COUNT, R.CLK.EMERG_COUNT.ovf,
        R.PWR.STAT.CAP_ACTIVE] s t)

/-- PTP (R78, R79): a one-step Sync in the module's domain at the slave port is measured at once: OFFSET is the arrival less
the origin less PATH_DELAY, and SYNC says whether it lies within the tolerance; a two-step Sync waits for its Follow_Up, which
is measured the same way, and the 2 s of SYNC count from the Sync. PTP's delay measurement, the choice of the grandmaster and the
loss of Syncs (R78, R79; the comparison of two clocks is log entry 7's): PATH_DELAY is the mean of the two ways; an Announce of
another clock is kept for its sender, and the best of those heard, where no better than it is the module's own clock, gives
GM_IDENTITY and the slave port; PTP_LOCK reads whether one is followed and the servo runs; 2 s without a valid Sync clear SYNC with
PTP_LOSS. A master port sends its Syncs in two steps, answers a Delay_Req with its arrival, and sends on the Announce it
follows, one step further, or its own. The model's reading: log entries 6, 7. -/
def Obligations.PtpMeasuresAndFollows : Prop :=
  (∀ (s : State) (port : Port) (d : Nat) (udp : Bool) (t1 t2 : Nat), s.ptpTaken port d udp = true → s.ptpSlave port = true →
    let off : Int := (t2 : Int) - t1 - s.rd R.TB.PATH_DELAY
    Runs (.ptpSync port (.received d udp false t1 t2)) s fun t =>
      t.rd R.TB.OFFSET = unsigned 32 (max (-2147483648) (min 2147483647 off)) ∧
      t.on R.TB.STAT.SYNC = decide (off.natAbs ≤ max 1 (s.rd R.TB.PTP_CFG.SYNC_TOL) * 6400) ∧
      t.ptp = { s.ptp with t1 := t1, t2 := t2, awaitFu := false, lastSync := some s.now, measured := true } ∧
      (off.natAbs ≤ 1000000000 → t.rd (R.LEDG.EVT Err.TB_OFFSET_LARGE.index) = s.rd (R.LEDG.EVT Err.TB_OFFSET_LARGE.index)) ∧
      (s.leadPresent = false ∨ s.mgmt.servoOff = true ∨ s.on R.CLK.STATUS.HOLDOVER = true → t.rd R.CLK.STEER = s.rd R.CLK.STEER) ∧
      Confined (Part.err ++ [Part.ptp]) ([R.TB.OFFSET, R.TB.STAT.SYNC, R.CLK.STEER] ++
        errFields pgTB .TB_OFFSET_LARGE Err.TB_OFFSET_LARGE.cls) s t) ∧
  (∀ (s : State) (port : Port) (d : Nat) (udp : Bool) (t1 t2 : Nat), s.ptpTaken port d udp = true → s.ptpSlave port = true →
    Runs (.ptpSync port (.received d udp true t1 t2)) s fun t =>
      t.ptp = { s.ptp with t1 := t1, t2 := t2, awaitFu := true, lastSync := some s.now } ∧
      t.on R.TB.STAT.SYNC = (s.ptp.measured &&
        decide ((signed 32 (s.rd R.TB.OFFSET)).natAbs ≤ max 1 (s.rd R.TB.PTP_CFG.SYNC_TOL) * 6400)) ∧
      Confined [.ptp] [R.TB.STAT.SYNC] s t) ∧
  (∀ (s : State) (port : Port) (t1 : Nat), s.ptpMaster port = true →
    Runs (.ptpSync port (.sent t1)) s fun t =>
      t.out = s.out ++ [Out.ptpSync port (s.on R.TB.PTP_CFG.UDP) (s.rd R.TB.PTP_CFG.DOMAIN),
        Out.ptpFollowUp port (s.on R.TB.PTP_CFG.UDP) (s.rd R.TB.PTP_CFG.DOMAIN) t1] ∧ Alters [.out] s t) ∧
  (∀ (s : State) (port : Port) (d : Nat) (udp : Bool) (t1 : Nat), s.ptpTaken port d udp = true → s.ptpSlave port = true → s.ptp.awaitFu = true →
    let off : Int := (s.ptp.t2 : Int) - t1 - s.rd R.TB.PATH_DELAY
    Runs (.ptpFollowUp port d udp t1) s fun t =>
      t.rd R.TB.OFFSET = unsigned 32 (max (-2147483648) (min 2147483647 off)) ∧
      t.on R.TB.STAT.SYNC = (decide (off.natAbs ≤ max 1 (s.rd R.TB.PTP_CFG.SYNC_TOL) * 6400) &&
        s.ptp.lastSync.any fun h => decide (s.now < h + 312500000)) ∧
      t.ptp = { s.ptp with t1 := t1, awaitFu := false, measured := true } ∧
      Confined (Part.err ++ [Part.ptp]) ([R.TB.OFFSET, R.TB.STAT.SYNC, R.CLK.STEER] ++
        errFields pgTB .TB_OFFSET_LARGE Err.TB_OFFSET_LARGE.cls) s t) ∧
  (∀ (s : State) (port : Port) (t3 : Nat), s.ptpSlave port = true →
    Runs (.ptpDelayReq port (.sent t3)) s fun t =>
      t.ptp = { s.ptp with t3 := some t3 } ∧ t.out = s.out ++ [Out.ptpDelayReq port (s.on R.TB.PTP_CFG.UDP) t3] ∧
      Alters [.ptp, .out] s t) ∧
  (∀ (s : State) (port : Port) (d : Nat) (udp : Bool) (clock : DWord) (t4 : Nat), s.ptpTaken port d udp = true →
    s.ptpMaster port = true →
    Runs (.ptpDelayReq port (.received d udp clock t4)) s fun t =>
      t.out = s.out ++ [Out.ptpDelayResp port udp d clock t4] ∧ Alters [.out] s t) ∧
  (∀ (s : State) (port : Port) (d : Nat) (udp : Bool) (t3 t4 : Nat), s.ptp.t3 = some t3 → s.ptpTaken port d udp = true → s.ptpSlave port = true →
    Runs (.ptpDelayResp port d udp t4) s fun t =>
      t.rd R.TB.PATH_DELAY = unsigned 32 ((((s.ptp.t2 : Int) - s.ptp.t1) + ((t4 : Int) - t3)) / 2) ∧
      t.ptp = { s.ptp with t3 := none } ∧ Confined [.ptp] [R.TB.PATH_DELAY] s t) ∧
  (∀ (s : State) (port : Port) (udp : Bool) (a : Announce), s.ptpTaken port a.domain udp = true → s.qualified a = true →
    Runs (.ptpAnnounce port (.received udp a)) s fun t =>
      t.ptp = s.ptp.hear port udp a ∧ ⟨port, udp, a⟩ ∈ t.ptp.heard ∧ t.ptp.utc = some a.utcOffset ∧
      (∀ y ∈ s.ptp.heard, y.ann.sender ≠ a.sender → y ∈ t.ptp.heard) ∧
      (∀ x, t.ptpFollows = some x → t.rd R.TB.GM_IDENTITY = x.1.gmIdentity.toNat ∧ t.on R.TB.STAT.PORT_B = x.2 ∧
        announceBetter s.ptp.own x.1 = false) ∧
      (t.ptpFollows = none → t.rd R.TB.GM_IDENTITY = s.rd R.TB.GM_IDENTITY ∧ t.rd R.TB.STAT.PORT_B = s.rd R.TB.STAT.PORT_B) ∧
      Confined [.ptp] [R.TB.GM_IDENTITY, R.TB.STAT.PORT_B] s t) ∧
  (∀ s : State, s.showLock.on R.TB.STAT.PTP_LOCK = (s.ptpFollows.isSome && s.servoRuns) ∧
    Confined [] [R.TB.STAT.PTP_LOCK] s s.showLock) ∧
  (∀ (s : State) (port : Port), s.ptpMaster port = true →
    let x := match s.ptpFollows with
      | some y => { y.1 with stepsRemoved := y.1.stepsRemoved + 1 }
      | none => s.ptp.own
    Runs (.ptpAnnounce port .sent) s fun t =>
      t.out = s.out ++ [Out.ptpAnnounce port (s.on R.TB.PTP_CFG.UDP)
        { x with domain := s.rd R.TB.PTP_CFG.DOMAIN, sender := s.ptp.own.gmIdentity, senderPort := portIx port + 1 }] ∧
      Alters [.out] s t) ∧
  (∀ (s : State) (h : Nat), s.on R.TB.STAT.SYNC = true → s.ptp.lastSync = some h → h + 312500000 ≤ s.now →
    Runs .syncTimeout s fun t =>
      t.on R.TB.STAT.SYNC = false ∧ t.rd R.CLK.STEER = s.rd R.CLK.STEER ∧ Raised .PTP_LOSS s t ∧
      Confined Part.err (R.TB.STAT.SYNC :: errFields pgTB .PTP_LOSS Err.PTP_LOSS.cls) s t)

/-- Arming (R82, R84): ARM arms the one-shot trigger; a write of SNAP_CMP loads it and arms the compare. A snapshot taken
(R82, R83): the software source is due at the second edge after its write, a pin pulse of 4 ticks at the third edge, the first
error at its second edge, the compare and the fabric value at the first edge after their arming at which TIME has reached
them; while the trigger is armed the sources of one edge give one snapshot with the next SNAP_SEQ at that TIME, and a one-shot
trigger disarms. A source that fires while the one-shot trigger is disarmed takes no snapshot, and counts in SNAP_MISSED
(R84). The model's reading: log entries 12, 26. -/
def Obligations.SnapshotsLatch : Prop :=
  (∀ (s : State) (p : Path), s.reaches p R.TB.SNAP_CTRL.ARM.addr none → let u := s.taken p R.TB.SNAP_CTRL.ARM.addr 4
    Runs (.snapArm p) s fun t => t.on R.TB.SNAP_STAT.ARMED = true ∧ Confined [] [R.TB.SNAP_STAT.ARMED] u t) ∧
  (∀ (s : State) (p : Path) (tick : DWord), s.reaches p R.TB.SNAP_CMP.addr none → let u := s.taken p R.TB.SNAP_CMP.addr 8
    Runs (.snapCmpArm p tick) s fun t =>
      t.rd R.TB.SNAP_CMP = tick.toNat ∧ t.on R.TB.SNAP_STAT.CMP_ARMED = true ∧
      Confined [] [R.TB.SNAP_CMP, R.TB.SNAP_STAT.CMP_ARMED] u t) ∧
  (∀ (s : State) (p : Path), s.reaches p R.TB.SNAP_CTRL.SW.addr none → let u := s.taken p R.TB.SNAP_CTRL.SW.addr 4
    Runs (.snapSw p) s fun t => t.snap = { u.snap with sw := u.snap.sw ++ [(u.now + 2, none)] } ∧ Alters [.snap] u t) ∧
  (∀ (s : State) (hi lo : Nat), 4 ≤ hi → 4 ≤ lo → s.modState ≠ 0 →
    Runs (.snapPin hi lo) s fun t => t.snap = { s.snap with pin := s.snap.pin ++ [s.now + 3] } ∧ Alters [.snap] s t) ∧
  (∀ s : State, let v := s.tick
    v.snapDue &&& v.snapEnabled ≠ 0 → (v.on R.TB.SNAP_CTRL.MODE = true ∨ v.on R.TB.SNAP_STAT.ARMED = true) →
    s.pending = [] → s.rd R.MGMT.MBOX_STAT.STATE ≠ 1 → s.host.reqs = [] →
    Goes s fun t =>
      t.rd R.TB.SNAP_SEQ = (v.rd R.TB.SNAP_SEQ + 1) % 2 ^ 64 ∧ t.rd R.TB.SNAP_TICK = v.time % 2 ^ 64 ∧ t.time = v.time ∧
      t.rd R.TB.SNAP_STAT.SOURCES = (v.snapDue &&& v.snapEnabled) % 2 ^ 5 ∧
      (v.on R.TB.SNAP_CTRL.MODE = false → t.on R.TB.SNAP_STAT.ARMED = false) ∧
      t.snap.taken.head?.map SnapRec.tick = some v.time ∧ t.snap.taken.tail = v.snap.taken ∧
      t.snap.outUntil = some (v.now + 16) ∧
      (t.snap.sw.all fun x => decide (v.now < x.1)) = true ∧ (t.snap.pin.all fun x => decide (v.now < x)) = true ∧
      Alters (Part.err ++ [Part.queue, Part.sig, Part.nose]) v t) ∧
  (∀ s : State, let v := s.tick
    v.on R.TB.SNAP_STAT.CMP_ARMED = true → v.rd R.TB.SNAP_CMP ≤ v.time → v.rd R.TB.SNAP_CTRL.EN_CMP = 1 →
    (v.on R.TB.SNAP_CTRL.MODE = true ∨ v.on R.TB.SNAP_STAT.ARMED = true) →
    Runs .snapCmpFire s fun t =>
      t.rd R.TB.SNAP_SEQ = (v.rd R.TB.SNAP_SEQ + 1) % 2 ^ 64 ∧ t.rd R.TB.SNAP_TICK = v.time % 2 ^ 64 ∧ t.time = v.time ∧
      t.on R.TB.SNAP_STAT.CMP_ARMED = false ∧ t.snap.taken.head?.map SnapRec.tick = some v.time ∧
      t.snap.outUntil = some (v.now + 16) ∧ Alters (Part.err ++ [Part.queue, Part.sig, Part.nose]) v t) ∧
  (∀ s : State, let v := s.tick
    (∃ h ∈ v.snap.errRise, h + 2 ≤ v.now) → v.rd R.TB.SNAP_CTRL.EN_ERR = 1 →
    (v.on R.TB.SNAP_CTRL.MODE = true ∨ v.on R.TB.SNAP_STAT.ARMED = true) →
    Runs .snapErrFire s fun t =>
      t.rd R.TB.SNAP_SEQ = (v.rd R.TB.SNAP_SEQ + 1) % 2 ^ 64 ∧ t.rd R.TB.SNAP_TICK = v.time % 2 ^ 64 ∧ t.time = v.time ∧
      (t.snap.errRise.all fun h => decide (v.now < h + 2)) = true ∧ t.snap.taken.head?.map SnapRec.tick = some v.time ∧
      t.snap.outUntil = some (v.now + 16) ∧ Alters (Part.err ++ [Part.queue, Part.sig, Part.nose]) v t) ∧
  (∀ s : State, let v := s.tick
    v.on R.TB.SNAP_STAT.FAB_ARMED = true → v.rd R.TB.SNAP_FABRIC ≤ v.time → v.rd R.TB.SNAP_CTRL.EN_FABRIC = 1 →
    (v.on R.TB.SNAP_CTRL.MODE = true ∨ v.on R.TB.SNAP_STAT.ARMED = true) →
    Runs .snapFabricFire s fun t =>
      t.rd R.TB.SNAP_SEQ = (v.rd R.TB.SNAP_SEQ + 1) % 2 ^ 64 ∧ t.rd R.TB.SNAP_TICK = v.time % 2 ^ 64 ∧ t.time = v.time ∧
      t.on R.TB.SNAP_STAT.FAB_ARMED = false ∧ t.snap.taken.head?.map SnapRec.tick = some v.time ∧
      t.snap.outUntil = some (v.now + 16) ∧ Alters (Part.err ++ [Part.queue, Part.sig, Part.nose]) v t) ∧
  (∀ (s : State) (h : Nat), s.snap.outUntil = some h → h ≤ s.now →
    Runs .snapOutRelease s fun t =>
      t.snap = { s.snap with outUntil := none } ∧ t.out = s.out ++ [Out.snapOut false] ∧ Alters [.snap, .out] s t) ∧
  (∀ s : State, let v := s.tick
    v.on R.TB.SNAP_STAT.CMP_ARMED = true → v.rd R.TB.SNAP_CMP ≤ v.time → v.rd R.TB.SNAP_CTRL.EN_CMP = 1 →
    v.snap.errRise = [] → v.snap.sw = [] → v.snap.pin = [] → v.on R.TB.SNAP_STAT.FAB_ARMED = false →
    v.on R.TB.SNAP_CTRL.MODE = false → v.on R.TB.SNAP_STAT.ARMED = false →
    Runs .snapCmpFire s fun t =>
      Counted R.TB.SNAP_MISSED 1 v t ∧ t.snap.taken = v.snap.taken ∧ t.on R.TB.SNAP_STAT.CMP_ARMED = false ∧
      Confined [] [R.TB.SNAP_STAT.CMP_ARMED, R.TB.SNAP_MISSED, R.TB.SNAP_MISSED.ovf] v t)

/-! ### Tiles and compute -/

/-- YIELD_CYCLE (R123): an unscheduled access that has waited YIELD_WAIT kept cycles, 0 read as 1, counts one yield.
SPAD_CLEAR (R127): a clear starts on an idle tile where no open or closing window meets the range, else CLEAR_REFUSED is
raised; each kept cycle makes the next 64 lines of the range unwritten and leaves every other line as it was, up to the last.
The model's reading: log entry 32. -/
def Obligations.ScratchpadsAreCleared : Prop :=
  (∀ (s : State) (k : Fin 960) (n : Nat), max 1 (s.rd (R.TILE.SPAD_CTRL.YIELD_WAIT k)) ≤ n →
    Runs (.yieldCycle k n) s fun t =>
      Counted (R.TILE.SPAD_YIELDS k) 1 s t ∧ Confined [] [R.TILE.SPAD_YIELDS k, (R.TILE.SPAD_YIELDS k).ovf] s t) ∧
  (∀ (s : State) (p : Path) (k : Fin 960) (n : BitVec 20), s.reaches p (R.TILE.SPAD_CLEAR_CTRL.GO k).addr none →
    let u := s.taken p (R.TILE.SPAD_CLEAR_CTRL.GO k).addr 4
    u.on (R.TILE.SPAD_STAT.CLEARING k) = false → u.tileIdle k = true → n ≠ 0 →
    (∀ w ∈ List.range 16, 2 ≤ u.rd (R.TILE.SPAD_WIN_CTRL.STATE k w) →
      overlaps (u.rd (R.TILE.SPAD_CLEAR k) * 16) ((u.rd (R.TILE.SPAD_CLEAR k) + n.toNat) * 16)
        (u.rd (R.TILE.SPAD_WIN_BASE k w)) (u.rd (R.TILE.SPAD_WIN_LIMIT k w)) = false) →
    Runs (.spadClear p k n) s fun t =>
      t.on (R.TILE.SPAD_STAT.CLEARING k) = true ∧ Cells.get (0, 0) t.tile.clears k = (u.rd (R.TILE.SPAD_CLEAR k), n.toNat) ∧
      t.tile.written = u.tile.written ∧
      Confined [.tile] [R.TILE.SPAD_CLEAR_CTRL.LINES k, R.TILE.SPAD_STAT.CLEARING k, R.TILE.SPAD_CLEAR_CTRL.GO k] u t) ∧
  (∀ (s : State) (p : Path) (k : Fin 960) (n : BitVec 20) (w : Fin 16), s.reaches p (R.TILE.SPAD_CLEAR_CTRL.GO k).addr none →
    let u := s.taken p (R.TILE.SPAD_CLEAR_CTRL.GO k).addr 4
    u.on (R.TILE.SPAD_STAT.CLEARING k) = false → 2 ≤ u.rd (R.TILE.SPAD_WIN_CTRL.STATE k w) →
    overlaps (u.rd (R.TILE.SPAD_CLEAR k) * 16) ((u.rd (R.TILE.SPAD_CLEAR k) + n.toNat) * 16)
      (u.rd (R.TILE.SPAD_WIN_BASE k w)) (u.rd (R.TILE.SPAD_WIN_LIMIT k w)) = true →
    Runs (.spadClear p k n) s fun t =>
      t.on (R.TILE.SPAD_STAT.CLEARING k) = false ∧ Raised .CLEAR_REFUSED u t ∧
      Confined Part.err (R.TILE.SPAD_CLEAR_CTRL.LINES k :: errFields (pgTILE k) .CLEAR_REFUSED Err.CLEAR_REFUSED.cls) u t) ∧
  (∀ (s : State) (k : Fin 960) (f n c : Nat), s.on (R.TILE.SPAD_STAT.CLEARING k) = true →
    Cells.get (0, 0) s.tile.clears k = (f, n) → n ≤ 64 * c →
    Runs (.spadClearDone k c) s fun t =>
      t.on (R.TILE.SPAD_STAT.CLEARING k) = false ∧ t.on (R.TILE.SPAD_CLEAR_CTRL.GO k) = false ∧
      (∀ l : Nat, t.lineWritten k l = (!decide (f ≤ l ∧ l < f + min n (spadLines - f)) && s.lineWritten k l)) ∧
      Confined [.tile] [R.TILE.SPAD_STAT.CLEARING k, R.TILE.SPAD_CLEAR_CTRL.GO k] s t) ∧
  (∀ (s : State) (k : Fin 960) (f n c : Nat), s.on (R.TILE.SPAD_STAT.CLEARING k) = true →
    Cells.get (0, 0) s.tile.clears k = (f, n) → 64 * c < n →
    Runs (.spadClearDone k c) s fun t =>
      Cells.get (0, 0) t.tile.clears k = (f + 64 * c, n - 64 * c) ∧
      (∀ l : Nat, t.lineWritten k l = (!decide (f ≤ l ∧ l < f + min (64 * c) (spadLines - f)) && s.lineWritten k l)) ∧
      Alters [.tile] s t)

/-- A window's life (R129 to R131): WIN_ALLOC takes the lowest free one or raises WIN_FULL; it opens with legal bounds and no
overlap with an open or closing one; an open one closes, is allocated again when no write is in progress, and is freed. A
remote write (R132, R133, R134): its header is checked against the window, partition first; an admitted write raises IN_USE,
and when its last word lands the words are in the tile from the window's base plus the offset, IN_USE falls, and the window's
counter advances by the lines touched; a write to a window that is not open is refused with WIN_CLOSED. An accumulate window
(R134): the first triple stored to a slot is kept as it is, and a later one of its profile is added to it as one adder stage; each
counts in ACCUM_ADDS. What lands is what has arrived: a write of which a carried seal fails raises SEAL_CARRIED, is counted, and
lands all the same (R374 to R376). The model's reading: log entries 32, 67, 94. -/
def Obligations.WindowsTakeRemoteWrites : Prop :=
  (∀ (s : State) (p : Path) (k : Fin 960) (n : Fin 16), s.reaches p (R.TILE.WIN_ALLOC.GO k).addr none →
    let u := s.taken p (R.TILE.WIN_ALLOC.GO k).addr 4
    u.rd (R.TILE.SPAD_WIN_CTRL.STATE k n) = 0 → (∀ m ∈ List.range n, u.rd (R.TILE.SPAD_WIN_CTRL.STATE k m) ≠ 0) →
    Runs (.winAlloc p k) s fun t =>
      t.rd (R.TILE.SPAD_WIN_CTRL.STATE k n) = 1 ∧ t.pathRd p (R.TILE.WIN_ALLOC.INDEX k) = n ∧
      t.pathRd p (R.TILE.WIN_ALLOC.FAIL k) = 0 ∧ Confined [.pathVal] [R.TILE.SPAD_WIN_CTRL.STATE k n] u t) ∧
  (∀ (s : State) (p : Path) (k : Fin 960), s.reaches p (R.TILE.WIN_ALLOC.GO k).addr none →
    let u := s.taken p (R.TILE.WIN_ALLOC.GO k).addr 4
    (∀ m ∈ List.range 16, u.rd (R.TILE.SPAD_WIN_CTRL.STATE k m) ≠ 0) →
    Runs (.winAlloc p k) s fun t =>
      t.pathRd p (R.TILE.WIN_ALLOC.FAIL k) = 1 ∧ Raised .WIN_FULL u t ∧
      Confined (Part.err ++ [Part.pathVal]) (errFields (pgTILE k) .WIN_FULL Err.WIN_FULL.cls) u t) ∧
  (∀ (s : State) (p : Path) (k : Fin 960) (n : Fin 16), s.reaches p (R.TILE.SPAD_WIN_CTRL.OPEN k n).addr none →
    let u := s.taken p (R.TILE.SPAD_WIN_CTRL.OPEN k n).addr 4
    let b := u.rd (R.TILE.SPAD_WIN_BASE k n)
    let l := u.rd (R.TILE.SPAD_WIN_LIMIT k n)
    u.rd (R.TILE.SPAD_WIN_CTRL.STATE k n) = 1 → b % 16 = 0 → l % 16 = 0 → b < l → l ≤ 10485760 →
    (∀ m ∈ List.range 16, m ≠ n → 2 ≤ u.rd (R.TILE.SPAD_WIN_CTRL.STATE k m) →
      overlaps b l (u.rd (R.TILE.SPAD_WIN_BASE k m)) (u.rd (R.TILE.SPAD_WIN_LIMIT k m)) = false) →
    Runs (.winOpen p k n) s fun t =>
      t.rd (R.TILE.SPAD_WIN_CTRL.STATE k n) = 2 ∧ Confined [] [R.TILE.SPAD_WIN_CTRL.STATE k n] u t) ∧
  (∀ (s : State) (p : Path) (k : Fin 960) (n : Fin 16), s.reaches p (R.TILE.SPAD_WIN_CTRL.CLOSE k n).addr none →
    let u := s.taken p (R.TILE.SPAD_WIN_CTRL.CLOSE k n).addr 4
    u.rd (R.TILE.SPAD_WIN_CTRL.STATE k n) = 2 →
    Runs (.winClose p k n) s fun t =>
      t.rd (R.TILE.SPAD_WIN_CTRL.STATE k n) = 3 ∧ Confined [] [R.TILE.SPAD_WIN_CTRL.STATE k n] u t) ∧
  (∀ (s : State) (k : Fin 960) (n : Fin 16), s.rd (R.TILE.SPAD_WIN_CTRL.STATE k n) = 3 →
    s.rd (R.TILE.SPAD_WIN_SIG.IN_USE k n) = 0 →
    Runs (.winClosingDone k n) s fun t =>
      t.rd (R.TILE.SPAD_WIN_CTRL.STATE k n) = 1 ∧ Confined [] [R.TILE.SPAD_WIN_CTRL.STATE k n] s t) ∧
  (∀ (s : State) (p : Path) (k : Fin 960) (n : Fin 16), s.reaches p (R.TILE.SPAD_WIN_CTRL.FREE k n).addr none →
    let u := s.taken p (R.TILE.SPAD_WIN_CTRL.FREE k n).addr 4
    u.rd (R.TILE.SPAD_WIN_CTRL.STATE k n) = 1 →
    Runs (.winFree p k n) s fun t =>
      t.rd (R.TILE.SPAD_WIN_CTRL.STATE k n) = 0 ∧ Confined [] [R.TILE.SPAD_WIN_CTRL.STATE k n] u t) ∧
  (∀ (s : State) (w : Sender) (k : Fin 960) (n : Fin 16) (off : Nat) (ws : List Word) (prof : Fin 3)
    (c : Option (Nat × Nat)),
    s.senderPart w = s.partOfRow (k.val / 40) → s.rd (R.TILE.SPAD_WIN_CTRL.STATE k n) = 2 → s.admits k n w = true →
    off + ws.length ≤ s.rd (R.TILE.SPAD_WIN_LIMIT k n) - s.rd (R.TILE.SPAD_WIN_BASE k n) →
    (s.rd (R.TILE.SPAD_WIN_CTRL.MODE k n) = 1 → off % 128 = 0 ∧ ws.length % 128 = 0) →
    Runs (.remoteWrite w k n off ws prof c) s fun t =>
      t.tile = { s.tile with landing := s.tile.landing ++ [landingOf k n off ws w (c.bind fun x => s.ownerOf x.1 x.2) prof.val 512] } ∧
      t.rd (R.TILE.SPAD_WIN_SIG.IN_USE k n) = (s.rd (R.TILE.SPAD_WIN_SIG.IN_USE k n) + 1) % 2 ^ 16 ∧
      Confined [.tile] [R.TILE.SPAD_WIN_SIG.IN_USE k n] s t) ∧
  (∀ (s : State) (u : Fin 960) (k : Fin 960) (n : Fin 16) (off : Nat) (ws : List Word) (prof : Fin 3),
    s.partOfRow (u.val / 40) = s.partOfRow (k.val / 40) → s.rd (R.TILE.SPAD_WIN_CTRL.STATE k n) ≠ 2 →
    Runs (.remoteWrite (.tile u) k n off ws prof none) s fun t =>
      t.tile = s.tile ∧ Counted (R.TILE.WIN_REFUSED k) 1 s t ∧ Raised .WIN_CLOSED s t ∧
      Confined Part.err ([R.TILE.WIN_REFUSED k, (R.TILE.WIN_REFUSED k).ovf, R.PG.IRQ_RAW.BLOCK (pgTILE k)] ++
        errFields (pgTILE k) .WIN_CLOSED Err.WIN_CLOSED.cls) s t) ∧
  (∀ (s : State) (w : Sender) (k : Fin 960) (n : Fin 16) (l : Landing),
    (s.tile.landing.find? fun x => decide (x.sender = w ∧ x.tile = k.val ∧ x.win = n.val)) = some l → s.arrived l = true →
    2 ≤ s.rd (R.TILE.SPAD_WIN_CTRL.STATE k n) → s.rd (R.TILE.SPAD_WIN_CTRL.MODE k n) ≠ 1 →
    let a := s.rd (R.TILE.SPAD_WIN_BASE k n) + l.off
    let ws := wordsOfBytes (s.onWire (bytesOfWords l.words)).2
    a + l.words.length ≤ 16777216 →
    Runs (.remoteWriteLanded w k n) s fun t =>
      (∀ i ∈ List.range l.words.length, Cells.get 0 t.tile.words (wordKey k (a + i)) = ws.getD i 0) ∧
      (s.tile.wire = [] → ws = l.words) ∧
      (∀ x : Nat, (x < 16 * (a / 16) ∨ 16 * ((a + l.words.length - 1) / 16 + 1) ≤ x ∨ l.words = []) → x < 16777216 →
        Cells.get 0 t.tile.words (wordKey k x) = Cells.get 0 s.tile.words (wordKey k x)) ∧
      t.tile.landing = s.tile.landing.erase l ∧
      t.rd (R.TILE.SPAD_WIN_SIG.IN_USE k n) = (s.rd (R.TILE.SPAD_WIN_SIG.IN_USE k n) - 1) % 2 ^ 16 ∧
      (s.on (R.TILE.SPAD_WIN_SIG.SIG_EN k n) = true →
        t.ctr (s.rd (R.TILE.SPAD_WIN_SIG.COUNTER k n)) =
          min sigMax (s.ctr (s.rd (R.TILE.SPAD_WIN_SIG.COUNTER k n)) + linesTouched a l.words.length)) ∧
      Alters (Part.err ++ [Part.words, Part.tile, Part.queue, Part.sig, Part.nose]) s t) ∧
  (∀ (s : State) (w : Sender) (k : Fin 960) (n : Fin 16) (l : Landing),
    (s.tile.landing.find? fun x => decide (x.sender = w ∧ x.tile = k.val ∧ x.win = n.val)) = some l → s.arrived l = true →
    2 ≤ s.rd (R.TILE.SPAD_WIN_CTRL.STATE k n) → s.rd (R.TILE.SPAD_WIN_CTRL.MODE k n) ≠ 1 →
    s.on (R.TILE.SPAD_WIN_SIG.SIG_EN k n) = false →
    let bs := (s.onWire (bytesOfWords l.words)).2
    Runs (.remoteWriteLanded w k n) s fun t =>
      (if badSpans l.first bs l.seals = [] then
        t.rd (R.LEDG.EVT Err.SEAL_CARRIED.index) = s.rd (R.LEDG.EVT Err.SEAL_CARRIED.index) ∧
          t.rd R.NOSE.SEAL_FAILS = s.rd R.NOSE.SEAL_FAILS
      else Raised .SEAL_CARRIED s t ∧ Counted R.NOSE.SEAL_FAILS 1 s t) ∧
      t.tile.landing = s.tile.landing.erase l ∧
      t.rd (R.TILE.SPAD_WIN_SIG.IN_USE k n) = (s.rd (R.TILE.SPAD_WIN_SIG.IN_USE k n) - 1) % 2 ^ 16) ∧
  (∀ (s : State) (w : Sender) (k : Fin 960) (n : Fin 16) (l : Landing) (x : Triple),
    (s.tile.landing.find? fun x => decide (x.sender = w ∧ x.tile = k.val ∧ x.win = n.val)) = some l → s.arrived l = true →
    2 ≤ s.rd (R.TILE.SPAD_WIN_CTRL.STATE k n) → s.rd (R.TILE.SPAD_WIN_CTRL.MODE k n) = 1 → l.words.length = 128 →
    s.on (R.TILE.SPAD_WIN_SIG.SIG_EN k n) = false →
    let a := s.rd (R.TILE.SPAD_WIN_BASE k n) + l.off
    let bs := (s.onWire (bytesOfWords l.words)).2
    let new := Triple.ofBytes (bs.take 483)
    badSpans l.first bs l.seals = [] → a % 128 = 0 → a + 128 ≤ 16777216 → new.code ≠ none →
    (if s.lineWritten k (a / 16) then
      profsAgree (Cells.get 0 s.tile.profs (wordKey k a)) l.prof = true ∧
      (s.spadReads l.owner k (wordsFrom a 128)).1 = s ∧
        ((s.spadReads l.owner k (wordsFrom a 128)).2.toOption.bind fun old =>
          (adderStage [Triple.ofBytes ((bytesOfWords old).take 483), new] s.nextSlip).toOption) = some x
    else x = new) →
    Runs (.remoteWriteLanded w k n) s fun t =>
      (∀ i ∈ List.range 128, Cells.get 0 t.tile.words (wordKey k (a + i)) =
        (wordsOfBytes (x.bytes ++ List.replicate 29 0)).getD i 0) ∧
      Cells.get 0 t.tile.profs (wordKey k a) =
        (let had := Cells.get 0 s.tile.profs (wordKey k a)
         if s.lineWritten k (a / 16) = false ∨ had = 0 then l.prof else had) ∧
      Counted (R.TILE.ACCUM_ADDS k) 1 s t ∧ t.tile.landing = s.tile.landing.erase l ∧
      Alters [.cells, .words, .tile] s t)

/-- R125: a write of any word of a tile's scratchpad sets the written bit of its line; where that bit was 0 the other 15 words
of the line become zero, and where it was 1 they keep their values, as do all other lines and their written bits. -/
def Obligations.AFirstWriteFillsItsLine : Prop :=
  ∀ (s : State) (tile w : Nat) (v : Word), w < Config.spadWords →
    let u := s.spadWrite tile w v
    u.lineWritten tile (lineOf w) = true ∧
    (∀ x : Nat, x < Config.spadWords → lineOf x = lineOf w → Cells.get 0 u.tile.words (wordKey tile x) =
      (if x = w then v else if s.lineWritten tile (lineOf w) then Cells.get 0 s.tile.words (wordKey tile x) else 0)) ∧
    (∀ o x : Nat, x < Config.spadWords → (o ≠ tile ∨ lineOf x ≠ lineOf w) →
      Cells.get 0 u.tile.words (wordKey o x) = Cells.get 0 s.tile.words (wordKey o x) ∧
      u.lineWritten o (lineOf x) = s.lineWritten o (lineOf x)) ∧
    Alters [.words, .tile] s u

/-- Every COMPUTE at HEAD that passes the checks of R182 and need not wait issues, and does its operation in every tile of its
set: MATMUL and its anchor-only form, MAP, REDUCE and the list build, CONVERT and the pruned one, RECIPE_LOAD. A command at
HEAD whose check fails does not issue (R176, R182): a COMPUTE ends with the first error, which is recorded as a fault at its
index, nothing of its work begins, and HEAD advances past it. An accepted command is in flight, and counts, and HEAD advances
past it (R176). The model's reading: log entries 33, 34, 35. -/
def Obligations.ComputeCommandsWork : Prop :=
  (∀ (z : State) (q : Fin 64) (e : Nat) (x : Work), z.atHead q e → let s := z.headFetched q
    cmdClass e = clsCompute → cmdOp e = 0 → fieldBit e 32 0 = false →
    (s.computeChecks q e).2.toOption = some x → s.updateWait q e = 0 →
    Runs (.matmul q) z fun t =>
      Computes q e x (fun w o p => w.runMatmul (some o) p.1 x) (s.computeChecks q e).1 t ∧
      Alters (Part.err ++ [Part.words, Part.tile, Part.mem, Part.queue, Part.sig, Part.nose, Part.power, Part.host]) s t) ∧
  (∀ (z : State) (q : Fin 64) (e : Nat) (x : Work), z.atHead q e → let s := z.headFetched q
    cmdClass e = clsCompute → cmdOp e = 0 → fieldBit e 32 0 = true →
    (s.computeChecks q e).2.toOption = some x → s.updateWait q e = 0 →
    Runs (.anchorOnly q) z fun t =>
      Computes q e x (fun w o p => w.runMatmul (some o) p.1 x) (s.computeChecks q e).1 t ∧
      Alters (Part.err ++ [Part.words, Part.tile, Part.mem, Part.queue, Part.sig, Part.nose, Part.power, Part.host]) s t) ∧
  (∀ (z : State) (q : Fin 64) (e : Nat) (x : Work), z.atHead q e → let s := z.headFetched q
    cmdClass e = clsCompute → cmdOp e = 1 →
    (s.computeChecks q e).2.toOption = some x → s.updateWait q e = 0 →
    Runs (.mapCmd q) z fun t =>
      Computes q e x (fun w o p => w.runMap (some o) p.1 p.2.1 p.2.2 x) (s.computeChecks q e).1 t ∧
      Alters (Part.err ++ [Part.words, Part.tile, Part.mem, Part.queue, Part.sig, Part.nose, Part.power, Part.host]) s t) ∧
  (∀ (z : State) (q : Fin 64) (e : Nat) (x : Work), z.atHead q e → let s := z.headFetched q
    cmdClass e = clsCompute → cmdOp e = 2 → z.descFlag0 q e = false →
    (s.computeChecks q e).2.toOption = some x → s.updateWait q e = 0 →
    Runs (.reduce q) z fun t =>
      Computes q e x (fun w o p => w.runReduce (some o) p.1 x) (s.computeChecks q e).1 t ∧
      Alters (Part.err ++ [Part.words, Part.tile, Part.mem, Part.queue, Part.sig, Part.nose, Part.power, Part.host]) s t) ∧
  (∀ (z : State) (q : Fin 64) (e : Nat) (x : Work), z.atHead q e → let s := z.headFetched q
    cmdClass e = clsCompute → cmdOp e = 2 → z.descFlag0 q e = true →
    (s.computeChecks q e).2.toOption = some x → s.updateWait q e = 0 →
    Runs (.listBuild q) z fun t =>
      Computes q e x (fun w o p => w.runList (some o) p.1 x) (s.computeChecks q e).1 t ∧
      Alters (Part.err ++ [Part.words, Part.tile, Part.mem, Part.queue, Part.sig, Part.nose, Part.power, Part.host]) s t) ∧
  (∀ (z : State) (q : Fin 64) (e : Nat) (x : Work), z.atHead q e → let s := z.headFetched q
    cmdClass e = clsCompute → cmdOp e = 3 → z.descFlag0 q e = false →
    (s.computeChecks q e).2.toOption = some x → s.updateWait q e = 0 →
    Runs (.convert q) z fun t =>
      Computes q e x (fun w o p => w.runConvert (some o) p.1 p.2.1 p.2.2 x) (s.computeChecks q e).1 t ∧
      Alters (Part.err ++ [Part.words, Part.tile, Part.mem, Part.queue, Part.sig, Part.nose, Part.power, Part.host]) s t) ∧
  (∀ (z : State) (q : Fin 64) (e : Nat) (x : Work), z.atHead q e → let s := z.headFetched q
    cmdClass e = clsCompute → cmdOp e = 3 → z.descFlag0 q e = true →
    (s.computeChecks q e).2.toOption = some x → s.updateWait q e = 0 →
    Runs (.prunedConvert q) z fun t =>
      Computes q e x (fun w o p => w.runPruned (some o) p.1 p.2.1 p.2.2 x) (s.computeChecks q e).1 t ∧
      Alters (Part.err ++ [Part.words, Part.tile, Part.mem, Part.queue, Part.sig, Part.nose, Part.power, Part.host]) s t) ∧
  (∀ (z : State) (q : Fin 64) (e : Nat) (x : Work), z.atHead q e → let s := z.headFetched q
    cmdClass e = clsCompute → cmdOp e = 4 →
    (s.computeChecks q e).2.toOption = some x → s.updateWait q e = 0 →
    Runs (.recipeLoad q) z fun t =>
      Computes q e x (fun w o p => w.runLoad (some o) p.1 x) (s.computeChecks q e).1 t ∧
      Alters (Part.err ++ [Part.words, Part.tile, Part.mem, Part.queue, Part.sig, Part.nose, Part.power, Part.host]) s t) ∧
  (∀ (z : State) (q : Fin 64) (e : Nat) (er : Err), z.atHead q e → let s := z.headFetched q
    cmdClass e = clsCompute → cmdOp e = 0 →
    fieldBit e 32 0 = false → errorOf (s.computeChecks q e).2 = some er → (s.q q).ahead = [] → (s.q q).faults = [] →
    s.rd (R.CQ.HEAD q) < 2 ^ 32 →
    Runs (.matmul q) z fun t =>
      (t.q q).flights = (s.q q).flights ∧ t.tile.words = s.tile.words ∧
      t.rd (R.CQ.HEAD q) = idxAdd (s.rd (R.CQ.HEAD q)) 1 ∧ t.rd (R.CQ.ISSUED q) = s.rd (R.CQ.ISSUED q) ∧
      t.rd (R.CQ.FAULT_IDX q) = s.rd (R.CQ.HEAD q) ∧ t.rd (R.CQ.FAULT_CODE.CODE q) = er.code % 2 ^ 16 ∧
      t.rd (R.CQ.FAULT_CODE.TAG q) = cmdTag e % 2 ^ 16 ∧ t.faulted q = true ∧
      Alters (Part.err ++ [Part.words, Part.tile, Part.mem, Part.queue, Part.sig, Part.nose, Part.power, Part.host]) s t) ∧
  (∀ (s : State) (q : Fin 64) (f : Flight), (s.q q).ahead = [] → (s.q q).faults = [] →
    let t := s.issue q f
    t.rd (R.CQ.HEAD q) = idxAdd (s.rd (R.CQ.HEAD q)) 1 % 2 ^ 32 ∧ (t.q q).flights = (s.q q).flights ++ [f] ∧
      Counted (R.CQ.ISSUED q) 1 s t ∧ (∀ r : Nat, r < 64 → r ≠ q.val → t.q r = s.q r) ∧
      Confined [.queue] [R.CQ.HEAD q, R.CQ.ISSUED q, (R.CQ.ISSUED q).ovf] s t)

/-- The sum of an output on its grid does not depend on the order of its terms (R101), normalisation keeps the value of an
output and brings planes 0 and 1 into 24 bits (R106), an adder stage that adds right and reports no error gives the exact sums
(R107), and one of which a plane sum is off by no multiple of 255 fails its residue check (R109). An
FP32 word that is no NaN is the rounding of its own value, and every NaN becomes the canonical one (R89, R90, R96). A group of
four keeps exactly two positions, which rank above the others (R242); a list build selects at most k blocks, in ascending
order, every one with a score above +0, and all of them where they are at most k (R248). -/
def Obligations.ArithmeticIsExact : Prop :=
  (∀ (g : Int) (a b : List Val), a.Perm b → gridSum g a = gridSum g b) ∧
  (∀ p : Planes, p.normalise.value = p.value ∧ -8388608 ≤ p.normalise.v0 ∧ p.normalise.v0 ≤ 8388607 ∧
    -8388608 ≤ p.normalise.v1 ∧ p.normalise.v1 ≤ 8388607) ∧
  (∀ (a b x : Triple), a.outs.length = 32 → b.outs.length = 32 → adderStage [a, b] none = .ok x →
    x.code = a.code ∧ x.code = b.code ∧ x.outs.map Planes.value =
      List.zipWith (fun p r : Planes => p.value + r.value) a.outs b.outs ∧ x.outs.all Planes.inRange = true) ∧
  (∀ (a b : Triple) (x : Slip), a.outs.length = 32 → b.outs.length = 32 → a.code ≠ none → b.code = a.code → x.out < 32 →
    x.by_ % 255 ≠ 0 → adderStage [a, b] (some x) = .error .residue) ∧
  (∀ w : BitVec 32, toF32 (f32 w.toNat) = if f32 w.toNat = .nan then 0x7FC00000 else w.toNat) ∧
  (∀ a b c d : Val, (keptOf [a, b, c, d]).length = 2 ∧ (keptOf [a, b, c, d]).Pairwise (· < ·) ∧
    (keptOf [a, b, c, d]).all (· < 4) = true ∧
    (∀ i ∈ keptOf [a, b, c, d], ∀ j ∈ List.range 4, j ∉ keptOf [a, b, c, d] →
      ranksAbove ([a, b, c, d].getD i .nan) i ([a, b, c, d].getD j .nan) j = true)) ∧
  (∀ (k : Nat) (l : List Nat), (selectBlocks k l).length = min k (l.filter activeScore).length ∧
    (selectBlocks k l).Pairwise (· < ·) ∧
    (selectBlocks k l).all (fun i => decide (i < l.length) && activeScore (l.getD i 0)) = true)

/-! ### Queues -/

/-- A STREAM that finds a slot and passes its checks issues (R176): a READ that Sillage carries queues a transfer for every
piece of its rows (R210, R212); a gathered one reads its row list first (R230 to R232); another READ and a WRITE move their
pieces in order (R533), those of a WRITE to another node as slots allow (R181); a MOVE has all its granules to go (R261). A
STREAM that finds no transfer slot waits at HEAD before its checks, and shows it (R176, R181). Run-ahead (R180): the scan
passes over a command at HEAD that it may pass, and issues the STREAM behind it, with HEAD where it was. The model's reading:
log entries 35, 37. -/
def Obligations.StreamsIssueAndWait : Prop :=
  (∀ (z : State) (q : Fin 64) (e : Nat) (x : StreamWork), z.atHead q e → let s := z.headFetched q
    cmdClass e = clsStream → cmdOp e = 0 →
    (streamOf e).gathered = false → (s.streamChecks q e).toOption = some x → s.slotFree q (streamOf e) = true → s.bySillage x = true →
    (∀ g ∈ (s.q q).flights, g.idx ≠ s.nextIdx q) →
    let f := s.newFlight q (s.nextIdx q) e (s.streamTiles x)
    let ps := x.pieces x.starts
    Runs (.streamRead q) z fun t =>
      t.stream.waiting = s.stream.waiting ++ ps.zipIdx.map (fun c => (s.engineFor f.owner.part x x.src c.1.src,
        (⟨s.stream.nextId + c.2, f.owner, if adrSpace x.src = 0 then adrNode x.src * 2 ^ 44 + c.1.src else 2 ^ 60 + c.1.src,
          c.1.n, x.sfmt, x.dfmt, x.dests, adrWin x.dst, adrWord x.dst + c.1.dst / 4, x.profile⟩ : Xfer))) ∧
      t.stream.nextId = s.stream.nextId + ps.length ∧
      (t.q q).flights = (s.q q).flights ++ [{ f with left := ps.length }] ∧
      Alters (Part.err ++ [Part.stream, Part.queue]) s t) ∧
  (∀ (z : State) (q : Fin 64) (e : Nat) (x : StreamWork), z.atHead q e → let s := z.headFetched q
    cmdClass e = clsStream → cmdOp e = 0 →
    (streamOf e).gathered = false → (s.streamChecks q e).toOption = some x → s.slotFree q (streamOf e) = true → s.bySillage x = false →
    let f := s.newFlight q (s.nextIdx q) e (s.streamTiles x)
    Runs (.streamRead q) z fun t =>
      (let u := (s.issue q f).wr (R.CQ.STAT.WAIT_WHY q) 0
       t = if u.endOf x.dst = .node then u.postPieces f.owner x (x.pieces x.starts)
         else u.movePieces f.owner x (x.pieces x.starts)) ∧
      Alters (Part.err ++ [Part.words, Part.tile, Part.memBytes, Part.mem, Part.stream, Part.queue, Part.sig, Part.nose,
        Part.fab, Part.power, Part.host]) s t) ∧
  (∀ (z : State) (q : Fin 64) (e : Nat) (x : StreamWork), z.atHead q e → let s := z.headFetched q
    cmdClass e = clsStream → cmdOp e = 0 →
    (streamOf e).gathered = true → (s.streamChecks q e).toOption = some x → s.slotFree q (streamOf e) = true →
    let f := s.newFlight q (s.nextIdx q) e (s.streamTiles x)
    Runs (.gatheredRead q) z fun t =>
      t = ((s.issue q f).wr (R.CQ.STAT.WAIT_WHY q) 0).gather f.owner x ∧
      Alters (Part.err ++ [Part.words, Part.tile, Part.memBytes, Part.mem, Part.stream, Part.queue, Part.sig, Part.nose,
        Part.fab, Part.power, Part.host]) s t) ∧
  (∀ (z : State) (q : Fin 64) (e : Nat) (x : StreamWork), z.atHead q e → let s := z.headFetched q
    cmdClass e = clsStream → cmdOp e = 1 →
    (s.streamChecks q e).toOption = some x → s.slotFree q (streamOf e) = true →
    let f := s.newFlight q (s.nextIdx q) e (s.streamTiles x)
    Runs (.streamWrite q) z fun t =>
      (let u := (s.issue q f).wr (R.CQ.STAT.WAIT_WHY q) 0
       t = if u.endOf x.dst = .node then u.postPieces f.owner x (x.pieces x.starts)
         else u.movePieces f.owner x (x.pieces x.starts)) ∧
      Alters (Part.err ++ [Part.words, Part.tile, Part.memBytes, Part.mem, Part.stream, Part.queue, Part.sig, Part.nose,
        Part.fab, Part.power, Part.host]) s t) ∧
  (∀ (z : State) (q : Fin 64) (e : Nat) (x : StreamWork), z.atHead q e → let s := z.headFetched q
    cmdClass e = clsStream → cmdOp e = 2 →
    (s.streamChecks q e).toOption = some x → s.slotFree q (streamOf e) = true → (∀ g ∈ (s.q q).flights, g.idx ≠ s.nextIdx q) →
    let f := s.newFlight q (s.nextIdx q) e (s.streamTiles x)
    Runs (.streamMove q) z fun t =>
      t.stream = { s.stream with moves := s.stream.moves ++
        [⟨f.owner, adrOff x.src, bitsOf x.dst 59 0, x.bytes / granBytes, 0, 0, none⟩] } ∧
      (t.q q).flights = (s.q q).flights ++ [{ f with left := x.bytes / granBytes }] ∧
      Alters (Part.err ++ [Part.stream, Part.queue]) s t) ∧
  (∀ (z : State) (q : Fin 64) (e : Nat), z.atHead q e → let s := z.headFetched q
    cmdClass e = clsStream → cmdOp e = 1 →
    s.slotFree q (streamOf e) = false →
    Runs (.streamWrite q) z fun t =>
      t.rd (R.CQ.STAT.WAIT_WHY q) = 3 ∧ t.rd (R.CQ.STAT.STATE q) = 2 ∧
      Confined [] [R.CQ.STAT.WAIT_WHY q, R.CQ.STAT.STATE q] s t) ∧
  (∀ (z : State) (q : Fin 64) (e f : Nat) (x : StreamWork), z.mayIssue q = true → (z.q q).ahead = [] →
    let i := idxAdd (z.nextIdx q) 1
    let s := z.ringFetch q i
    z.nextIdx q ≠ z.rd (R.CQ.TAIL q) → i ≠ z.rd (R.CQ.TAIL q) → i ≠ z.nextIdx q → z.rd (R.CQ.CTRL.RUNAHEAD q) = 2 →
    z.entryAt q (z.nextIdx q) = some e → scanPasses e = true → z.entryAt q i = some f → scanIssues f = true →
    (s.streamChecks q f).toOption = some x → s.slotFree q (streamOf f) = true → s.bySillage x = true → x.gathered = false →
    Runs (.runAhead q) z fun t =>
      t.rd (R.CQ.HEAD q) = s.rd (R.CQ.HEAD q) ∧ (t.q q).ahead = [i] ∧ Counted (R.CQ.ISSUED q) 1 s t ∧
      Counted (R.CQ.RUNAHEAD q) 1 s t ∧ t.stream.waiting.length = s.stream.waiting.length + (x.pieces x.starts).length ∧
      Confined [.stream, .queue] [R.CQ.ISSUED q, (R.CQ.ISSUED q).ovf, R.CQ.RUNAHEAD q, (R.CQ.RUNAHEAD q).ovf] s t)

/-- WAIT and SIGNAL (R167, R168, R173): at HEAD with its conditions held and its checks passed each completes; an ADD adds
every item's value to its counter, saturating, a SET stores it, and a BOUND loads the queue's bound registers. COMMIT as a
command (R169, R170): with legal targets and the module not shed it writes the shadow copies of its registers, sets
COMMIT_EPOCH, and starts a commit of its partition, which the command awaits. SNAP commands (R171): a trigger is a write of
SW, and completes once the second edge has latched; a load sets SNAP_CMP and arms the compare; a fabric send originates a
broadcast snapshot value, which the sender itself takes. Evaluation brackets (R172, R304, R305): EVAL_BEGIN outside a bracket
opens one with its base, or TIME where that is 0, and its identity; EVAL_END with the same identity closes it.
COMMAND_COMPLETE (R177 to R179, R183): a command in flight with nothing of its work left completes: it counts, its counter
advances, and with IRQ its TAG is shown; one whose work met an error ends with a fault instead, and its counter does not
advance. The model's reading: log entries 30, 36. -/
def Obligations.QueueCommandsComplete : Prop :=
  (∀ (z : State) (q : Fin 64) (e : Nat), z.atHead q e → let s := z.headFetched q
    s.plainHead q → cmdClass e = clsWait → bareHeader e = true →
    cmdOp e = 0 → itemsReserved e = true → zeroBytes e 56 59 = true → s.deadlineOk q e = true →
    s.checkCounters q e = none → s.gateStep q e = none →
    Runs (.waitCmd q) z fun t => Completes q e [] s t ∧ Alters (Part.err ++ [Part.queue, Part.sig, Part.nose]) s t) ∧
  (∀ (z : State) (q : Fin 64) (e : Nat), z.atHead q e → let s := z.headFetched q
    s.plainHead q → cmdClass e = clsSignal → bareHeader e = true →
    cmdOp e = 0 → itemsReserved e = true → zeroBytes e 56 63 = true → s.checkCounters q e = none →
    ((cmdItems e).map Prod.fst).Nodup →
    Runs (.signalAdd q) z fun t =>
      Completes q e ((cmdItems e).map Prod.fst) s t ∧
      (∀ x ∈ cmdItems e, (cmdDoneEn e = true → cmdDoneCtr e ≠ x.1) → t.ctr x.1 = min sigMax (s.ctr x.1 + x.2)) ∧
      (∀ c : Nat, c ∉ (cmdItems e).map Prod.fst → (cmdDoneEn e = true → cmdDoneCtr e ≠ c) → t.ctr c = s.ctr c) ∧
      Alters (Part.err ++ [Part.queue, Part.sig, Part.nose]) s t) ∧
  (∀ (z : State) (q : Fin 64) (e : Nat), z.atHead q e → let s := z.headFetched q
    s.plainHead q → cmdClass e = clsSignal → bareHeader e = true →
    cmdOp e = 1 → itemsReserved e = true → zeroBytes e 56 63 = true → s.checkCounters q e = none →
    ((cmdItems e).map Prod.fst).Nodup →
    Runs (.signalSet q) z fun t =>
      Completes q e ((cmdItems e).map Prod.fst) s t ∧
      (∀ x ∈ cmdItems e, (cmdDoneEn e = true → cmdDoneCtr e ≠ x.1) → t.ctr x.1 = x.2) ∧
      (∀ c : Nat, c ∉ (cmdItems e).map Prod.fst → (cmdDoneEn e = true → cmdDoneCtr e ≠ c) → t.ctr c = s.ctr c) ∧
      Alters (Part.err ++ [Part.queue, Part.sig, Part.nose]) s t) ∧
  (∀ (z : State) (q : Fin 64) (e : Nat), z.atHead q e → let s := z.headFetched q
    s.plainHead q → cmdClass e = clsSignal → bareHeader e = true →
    cmdOp e = 2 → itemsReserved e = true → zeroBytes e 56 63 = true → s.checkCounters q e = none →
    (∀ x ∈ cmdItems e, x.1 < 8) → ((cmdItems e).map Prod.fst).Nodup →
    Runs (.signalBound q) z fun t =>
      Completes q e [] s t ∧ (∀ x ∈ cmdItems e, t.rd (R.CQ.BOUND q x.1) = x.2) ∧
      (∀ n ∈ List.range 8, n ∉ (cmdItems e).map Prod.fst → t.rd (R.CQ.BOUND q n) = s.rd (R.CQ.BOUND q n)) ∧
      Alters (Part.err ++ [Part.queue, Part.sig, Part.nose]) s t) ∧
  (∀ (z : State) (q : Fin 64) (e p : Nat), z.atHead q e → let s := z.headFetched q
    s.plainHead q → cmdClass e = clsCommit → z.rd R.PWR.STAT.SHED = 0 →
    s.queuePart q = some p → bareHeader e = true → cmdOp e = 0 → s.checkCounters q e = none →
    (∀ w ∈ commitWrites e, s.commitTarget p w.1 = true) →
    Runs (.commitCmd q) z fun t =>
      t.commit.parts = 2 ^ p ∧ t.commit.glob = false ∧ t.commit.byQueue = some (q.val, s.nextIdx q) ∧ t.commit.stop = none ∧
      t.on R.MOD.COMMIT_STAT.PENDING = true ∧ t.rd R.MOD.COMMIT_EPOCH = field e 16 63 0 ∧
      t.rd R.MOD.COMMIT_GEN = (s.rd R.MOD.COMMIT_GEN % 0xFFFFFFFF + 1) % 2 ^ 32 ∧
      t.regs.shadow = ((commitWrites e).foldl (fun u w => match regAt w.1 with
        | some row => u.writeFields w.1 w.2 row
        | none => u) s).regs.shadow ∧
      (t.q q).flights = (s.q q).flights ++ [{ s.newFlight q (s.nextIdx q) e [] with left := 1 }] ∧
      t.rd (R.CQ.HEAD q) = idxAdd (s.nextIdx q) 1 ∧ Alters (Part.err ++ [Part.shadow, Part.commit, Part.queue]) s t) ∧
  (∀ (z : State) (q : Fin 64) (e : Nat), z.atHead q e → let s := z.headFetched q
    z.serves pgTB = true → s.plainHead q → cmdClass e = clsSnap → cmdOp e = 0 →
    bareHeader e = true → zeroBytes e 24 63 = true → s.checkCounters q e = none →
    Runs (.snapTrigger q) z fun t =>
      t.snap = { s.snap with sw := s.snap.sw ++ [(s.now + 2, some (q.val, s.nextIdx q))] } ∧
      (t.q q).flights = (s.q q).flights ++ [{ s.newFlight q (s.nextIdx q) e [] with left := 1 }] ∧
      t.rd (R.CQ.HEAD q) = idxAdd (s.nextIdx q) 1 % 2 ^ 32 ∧ Counted (R.CQ.ISSUED q) 1 s t ∧
      Confined [.snap, .queue] [R.CQ.HEAD q, R.CQ.ISSUED q, (R.CQ.ISSUED q).ovf] s t) ∧
  (∀ (s : State) (q : Fin 64) (i n : Nat) (f : Flight), s.snap.sw = [(n, some (q.val, i))] → n ≤ s.now →
    s.flight q i = some f → f.left = 1 → f.err = none → (s.q q).flights.Nodup →
    let t := s.fireSnap
    t.snap.sw = [] ∧ t.flight q i = none ∧ Counted (R.CQ.COMPLETED q) 1 s t ∧
    Alters (Part.err ++ [Part.queue, Part.sig, Part.nose]) s t) ∧
  (∀ (z : State) (q : Fin 64) (e : Nat), z.atHead q e → let s := z.headFetched q
    z.serves pgTB = true → s.plainHead q → cmdClass e = clsSnap → cmdOp e = 1 →
    bareHeader e = true → zeroBytes e 24 63 = true → s.checkCounters q e = none →
    Runs (.snapLoadCmp q) z fun t =>
      Completes q e [] s t ∧ t.rd R.TB.SNAP_CMP = field e 16 63 0 ∧ t.on R.TB.SNAP_STAT.CMP_ARMED = true ∧
      Alters (Part.err ++ [Part.queue, Part.sig, Part.nose]) s t) ∧
  (∀ (z : State) (q : Fin 64) (e : Nat), z.atHead q e → let s := z.headFetched q
    s.plainHead q → cmdClass e = clsSnap → cmdOp e = 2 →
    bareHeader e = true → zeroBytes e 24 63 = true → s.checkCounters q e = none →
    Runs (.snapFabricSend q) z fun t =>
      t = ((s.issue q (s.newFlight q (s.nextIdx q) e [])).sendSnapBcast (field e 16 63 0)).settle q (s.nextIdx q) ∧
      Counted (R.CQ.COMPLETED q) 1 s t ∧ t.rd (R.CQ.HEAD q) = idxAdd (s.nextIdx q) 1 ∧
      Alters (Part.err ++ [Part.commit, Part.stream, Part.queue, Part.sig, Part.nose, Part.fab]) s t) ∧
  (∀ (z : State) (q : Fin 64) (e : Nat), z.atHead q e → let s := z.headFetched q
    s.plainHead q → cmdClass e = clsEvalBegin → bareHeader e = true →
    cmdOp e = 0 → zeroBytes e 25 27 = true → zeroBytes e 32 63 = true →
    (field e 24 7 0 = 0 ∨ field e 24 7 0 = 1 ∧ s.stepActive ((s.queuePart q).getD 8) = true) →
    s.checkCounters q e = none → s.on (R.CQ.STAT.EVAL q) = false →
    Runs (.evalBegin q) z fun t =>
      Completes q e [] s t ∧ t.on (R.CQ.STAT.EVAL q) = true ∧ t.rd (R.CQ.EVAL_ID q) = field e 28 31 0 ∧
      t.rd (R.CQ.EVAL_BASE q) = (if field e 16 63 0 = 0 then s.time else field e 16 63 0) % 2 ^ 64 ∧
      (t.q q).bracket.map Prod.fst = some (field e 24 7 0) ∧ Alters (Part.err ++ [Part.queue, Part.sig, Part.nose]) s t) ∧
  (∀ (z : State) (q : Fin 64) (e : Nat), z.atHead q e → let s := z.headFetched q
    s.plainHead q → cmdClass e = clsEvalEnd → bareHeader e = true →
    cmdOp e = 0 → zeroBytes e 16 27 = true → zeroBytes e 32 63 = true → s.checkCounters q e = none →
    s.on (R.CQ.STAT.EVAL q) = true → field e 28 31 0 = s.rd (R.CQ.EVAL_ID q) →
    Runs (.evalEnd q) z fun t =>
      Completes q e [] s t ∧ t.on (R.CQ.STAT.EVAL q) = false ∧ t.on (R.CQ.STAT.ABANDONING q) = false ∧
      (t.q q).bracket = none ∧ Alters (Part.err ++ [Part.queue, Part.sig, Part.nose]) s t) ∧
  (∀ (s : State) (q : Fin 64) (i : Nat) (f : Flight), s.flight q i = some f → f.left = 0 → f.err = none → s.inFrozen q i = false →
    Runs (.commandComplete q i) s fun t =>
      (t.q q).flights = (s.q q).flights.filter (fun g => g.idx ≠ i) ∧ Counted (R.CQ.COMPLETED q) 1 s t ∧
      (∀ x : Nat × Nat, f.done = some x → t.ctr x.1 = min sigMax (s.ctr x.1 + x.2)) ∧ (f.done = none → t.sig = s.sig) ∧
      (f.irq = true → t.rd (R.CQ.LAST_TAG q) = f.tag % 2 ^ 16) ∧
      (s.rd (R.CQ.DONE q) = i → (s.q q).finished = [] → i < 2 ^ 32 → t.rd (R.CQ.DONE q) = idxAdd i 1) ∧
      Alters (Part.err ++ [Part.queue, Part.sig, Part.nose]) s t) ∧
  (∀ (s : State) (q : Fin 64) (i : Nat) (f : Flight) (er : Err), s.flight q i = some f → f.left = 0 → f.err = some er → s.inFrozen q i = false →
    (s.q q).faults = [] → i < 2 ^ 32 → idxBefore i (s.rd (R.CQ.HEAD q)) = true →
    Runs (.commandComplete q i) s fun t =>
      (t.q q).flights = (s.q q).flights.filter (fun g => g.idx ≠ i) ∧ t.faulted q = true ∧ t.sig = s.sig ∧
      t.rd (R.CQ.COMPLETED q) = s.rd (R.CQ.COMPLETED q) ∧ t.rd (R.CQ.FAULT_IDX q) = i ∧
      t.rd (R.CQ.FAULT_CODE.CODE q) = er.code % 2 ^ 16 ∧ t.rd (R.CQ.FAULT_CODE.TAG q) = f.tag % 2 ^ 16 ∧
      Alters (Part.err ++ [Part.queue]) s t)

/-- QUEUE_ENABLE, TAIL_WRITE and PAUSE (R152, R153, R155): a claimed queue with a legal ring is enabled, else QUEUE_PLACE is
raised; a TAIL within the ring is taken; a write of DB_TAIL is one of TAIL, which a VF whose partition does not have the queue
makes in vain (R491); PAUSE stops the queue. QALLOC and QFREE (R156): the lowest unclaimed queue of the
partition is claimed, or QUEUE_FULL is raised; a disabled idle queue is released with its ring, indices and bounds at their
reset values, a busy one is refused. The model's reading: log entry 36. -/
def Obligations.QueuesAreManaged : Prop :=
  (∀ (s : State) (p : Path) (q : Fin 64), s.reaches p (R.PG.CTRL.EN (pgCQ q)).addr none →
    let u := s.taken p (R.PG.CTRL.EN (pgCQ q)).addr 4
    let b := u.rd (R.CQ.BASE q)
    u.on (R.PG.CTRL.EN (pgCQ q)) = false → u.on (R.CQ.STAT.CLAIMED q) = true → b % 64 = 0 →
    (adrSpace b = 0 ∧ u.onNode b = true ∨ adrSpace b = 1) → 6 ≤ u.rd (R.CQ.SIZE q) → u.rd (R.CQ.SIZE q) ≤ 16 →
    Runs (.queueEnable p q) s fun t =>
      t.on (R.PG.CTRL.EN (pgCQ q)) = true ∧ Confined [.queue] [R.PG.CTRL.EN (pgCQ q)] u t) ∧
  (∀ (s : State) (p : Path) (q : Fin 64), s.reaches p (R.PG.CTRL.EN (pgCQ q)).addr none →
    let u := s.taken p (R.PG.CTRL.EN (pgCQ q)).addr 4
    u.on (R.PG.CTRL.EN (pgCQ q)) = false → u.on (R.CQ.STAT.CLAIMED q) = false →
    Runs (.queueEnable p q) s fun t =>
      t.on (R.PG.CTRL.EN (pgCQ q)) = false ∧ Raised .QUEUE_PLACE u t ∧
      Confined Part.err (errFields (pgCQ q) .QUEUE_PLACE Err.QUEUE_PLACE.cls) u t) ∧
  (∀ (s : State) (p : Path) (q : Fin 64) (v : BitVec 32), s.reaches p (R.CQ.TAIL q).addr none →
    let u := s.taken p (R.CQ.TAIL q).addr 4
    idxSub v.toNat (u.lowIndex q) ≤ 2 ^ u.rd (R.CQ.SIZE q) → idxSub v.toNat (u.rd (R.CQ.DONE q)) ≤ 2 ^ u.rd (R.CQ.SIZE q) →
    idxSub v.toNat (u.rd (R.CQ.HEAD q)) ≤ 2 ^ 31 → u.on (R.CQ.STAT.ABANDONING q) = false →
    Runs (.tailWrite p q v false) s fun t => t.rd (R.CQ.TAIL q) = v.toNat ∧ Confined [.queue] [R.CQ.TAIL q] u t) ∧
  (∀ (s : State) (p : Path) (q : Fin 64) (v : BitVec 32), s.reaches p (R.CQ.TAIL q).addr none →
    let u := s.taken p (R.CQ.TAIL q).addr 4
    2 ^ u.rd (R.CQ.SIZE q) < idxSub v.toNat (u.rd (R.CQ.DONE q)) →
    Runs (.tailWrite p q v false) s fun t =>
      t.rd (R.CQ.TAIL q) = u.rd (R.CQ.TAIL q) ∧ Raised .QUEUE_TAIL u t ∧
      Confined Part.err (errFields (pgCQ q) .QUEUE_TAIL Err.QUEUE_TAIL.cls) u t) ∧
  (∀ (s : State) (port : Port) (fn : Nat) (q : Fin 64) (v : BitVec 32), s.answers (.host port fn) (R.CQ.TAIL q).addr = true →
    let u := s.countRx (.host port fn) 4
    Runs (.tailWrite (.host port fn) q v true) s fun t =>
      t = (if fn = 0 ∨ u.queuePart q = some (fn - 1) then u.tailWrite q v.toNat else u) ∧
      Alters (Part.err ++ [Part.queue, Part.sig, Part.nose]) s t) ∧
  (∀ (s : State) (p : Path) (q : Fin 64) (b : Bool), s.reaches p (R.CQ.CTRL.PAUSE q).addr none →
    let u := s.taken p (R.CQ.CTRL.PAUSE q).addr 4
    Runs (.pause p q b) s fun t =>
      t.on (R.CQ.CTRL.PAUSE q) = b ∧ (t.rd (R.CQ.STAT.PAUSE_SRC q) % 2 = if b then 1 else 0) ∧
      Confined [] [R.CQ.CTRL.PAUSE q, R.CQ.STAT.PAUSE_SRC q] u t) ∧
  (∀ (s : State) (p : Path) (part : Fin 8) (n : Nat), s.reaches p R.SIG.QALLOC.GO.addr (some part.val) →
    let u := s.taken p R.SIG.QALLOC.GO.addr 4
    ((u.queuesOf part).find? fun q => !u.on (R.CQ.STAT.CLAIMED q)) = some n →
    Runs (.qalloc p part) s fun t =>
      t.on (R.CQ.STAT.CLAIMED n) = true ∧ t.pathRd p R.SIG.QALLOC.INDEX = n % 2 ^ 6 ∧ t.pathRd p R.SIG.QALLOC.FAIL = 0 ∧
      Confined [.pathVal] [R.SIG.QALLOC.PART, R.CQ.STAT.CLAIMED n] u t) ∧
  (∀ (s : State) (p : Path) (part : Fin 8), s.reaches p R.SIG.QALLOC.GO.addr (some part.val) →
    let u := s.taken p R.SIG.QALLOC.GO.addr 4
    (∀ q ∈ u.queuesOf part, u.on (R.CQ.STAT.CLAIMED q) = true) →
    Runs (.qalloc p part) s fun t =>
      t.pathRd p R.SIG.QALLOC.FAIL = 1 ∧ Raised .QUEUE_FULL u t ∧
      Confined (Part.err ++ [Part.pathVal]) (R.SIG.QALLOC.PART :: errFields pgSIG .QUEUE_FULL Err.QUEUE_FULL.cls) u t) ∧
  (∀ (s : State) (p : Path) (q : Fin 64), s.reaches p R.SIG.QFREE.GO.addr (s.queuePart q) →
    let u := s.taken p R.SIG.QFREE.GO.addr 4
    u.on (R.PG.CTRL.EN (pgCQ q)) = false → (u.q q).flights = [] →
    Runs (.qfree p q) s fun t =>
      t.on (R.CQ.STAT.CLAIMED q) = false ∧ t.rd (R.CQ.BASE q) = 0 ∧ t.rd (R.CQ.SIZE q) = 6 ∧ t.rd (R.CQ.HEAD q) = 0 ∧
      t.rd (R.CQ.TAIL q) = 0 ∧ t.rd (R.CQ.DONE q) = 0 ∧ (∀ n ∈ List.range 8, t.rd (R.CQ.BOUND q n) = 0) ∧
      t.q q = { QState.empty with bracket := (u.q q).bracket, gate := (u.q q).gate } ∧
      Confined [.queue] ([R.SIG.QFREE.INDEX, R.CQ.BASE q, R.CQ.SIZE q, R.CQ.HEAD q, R.CQ.TAIL q, R.CQ.DONE q,
        R.CQ.STAT.CLAIMED q] ++ (List.range 8).map (R.CQ.BOUND q)) u t) ∧
  (∀ (s : State) (p : Path) (q : Fin 64), s.reaches p R.SIG.QFREE.GO.addr (s.queuePart q) →
    let u := s.taken p R.SIG.QFREE.GO.addr 4
    (u.on (R.PG.CTRL.EN (pgCQ q)) = true ∨ (u.q q).flights ≠ []) →
    Runs (.qfree p q) s fun t =>
      Raised .QUEUE_BUSY u t ∧
      Confined Part.err (R.SIG.QFREE.INDEX :: errFields pgSIG .QUEUE_BUSY Err.QUEUE_BUSY.cls) u t)

/-- RESUME (R184) on the first fault: RETRY brings HEAD back to it, SKIP takes the command as completed without its counter,
and SKIP_SIGNAL with it; with no fault it is refused. DEADLINE_MISS and WAIT_LIMIT (R176, R186): a command in flight, or not yet
issued, at its deadline is a miss, counted and shown once; a command that has waited WAIT_LIMIT ticks at HEAD raises WAIT_LIMIT once. The
model's reading: log entry 36. -/
def Obligations.QueueFaultsAndMisses : Prop :=
  (∀ (s : State) (p : Path) (q : Fin 64) (f : FaultRec), s.reaches p (R.CQ.RESUME.GO q).addr none →
    let u := s.taken p (R.CQ.RESUME.GO q).addr 4
    u.firstFault q = some f →
    Runs (.retry p q) s fun t =>
      t.rd (R.CQ.HEAD q) = f.idx % 2 ^ 32 ∧ (t.q q).faults = (u.q q).faults.filter (fun g => g.idx ≠ f.idx) ∧
      Confined [.queue] [R.CQ.RESUME.OP q, R.CQ.HEAD q] u t) ∧
  (∀ (s : State) (p : Path) (q : Fin 64) (f : FaultRec), s.reaches p (R.CQ.RESUME.GO q).addr none →
    let u := s.taken p (R.CQ.RESUME.GO q).addr 4
    u.firstFault q = some f → (u.q q).finished = [] → (u.q q).faults = [f] → u.rd (R.CQ.DONE q) = f.idx → f.idx < 2 ^ 32 →
    Runs (.skip p q) s fun t =>
      t.rd (R.CQ.DONE q) = idxAdd f.idx 1 ∧ t.rd (R.CQ.HEAD q) = u.rd (R.CQ.HEAD q) ∧ (t.q q).faults = [] ∧
      Confined [.queue] [R.CQ.RESUME.OP q, R.CQ.DONE q] u t) ∧
  (∀ (s : State) (p : Path) (q : Fin 64) (f : FaultRec) (e : Nat), s.reaches p (R.CQ.RESUME.GO q).addr none →
    let u := s.taken p (R.CQ.RESUME.GO q).addr 4
    u.firstFault q = some f → (u.q q).finished = [] → (u.q q).faults = [f] → u.rd (R.CQ.DONE q) = f.idx → f.idx < 2 ^ 32 →
    u.entryAt q f.idx = some e → cmdDoneEn e = true →
    Runs (.skipSignal p q) s fun t =>
      t.rd (R.CQ.DONE q) = idxAdd f.idx 1 ∧ (t.q q).faults = [] ∧
      t.ctr (cmdDoneCtr e) = min sigMax (u.ctr (cmdDoneCtr e) + cmdDoneAdd e) ∧
      Alters (Part.err ++ [Part.queue, Part.sig, Part.nose]) u t) ∧
  (∀ (s : State) (p : Path) (q : Fin 64), s.reaches p (R.CQ.RESUME.GO q).addr none →
    let u := s.taken p (R.CQ.RESUME.GO q).addr 4
    u.firstFault q = none →
    Runs (.retry p q) s fun t =>
      Raised .RESUME_REFUSED u t ∧
      Confined Part.err (R.CQ.RESUME.OP q :: errFields (pgCQ q) .RESUME_REFUSED Err.RESUME_REFUSED.cls) u t) ∧
  (∀ (s : State) (q : Fin 64) (i d : Nat) (f : Flight), s.flight q i = some f → f.deadline = some d → d ≤ s.time →
    f.missed = false → s.on (R.CQ.CTRL.MISS_ACT q) = false → s.on (R.CQ.DL_MISS_IDX.VALID q) = false → f.idx = i →
    Runs (.deadlineMiss q i) s fun t =>
      Counted (R.CQ.DL_MISSES q) 1 s t ∧ Raised .DEADLINE_MISS s t ∧ t.rd (R.CQ.DL_MISS_TICK q) = s.time % 2 ^ 64 ∧
      t.rd (R.CQ.DL_MISS_IDX.INDEX q) = i % 2 ^ 31 ∧ t.on (R.CQ.DL_MISS_IDX.VALID q) = true ∧
      (t.flight q i).map Flight.missed = some true ∧ Alters (Part.err ++ [Part.queue]) s t) ∧
  (∀ (s : State) (q : Fin 64) (i d : Nat), s.flight q i = none → s.entryDeadline q i = some d → d ≤ s.time →
    (s.q q).missed.contains i = false → s.yetToIssue q i = true → s.on (R.CQ.CTRL.MISS_ACT q) = false →
    s.on (R.CQ.DL_MISS_IDX.VALID q) = false →
    Runs (.deadlineMiss q i) s fun t =>
      Counted (R.CQ.DL_MISSES q) 1 s t ∧ Raised .DEADLINE_MISS s t ∧ t.rd (R.CQ.DL_MISS_TICK q) = s.time % 2 ^ 64 ∧
      t.rd (R.CQ.DL_MISS_IDX.INDEX q) = i % 2 ^ 31 ∧ t.on (R.CQ.DL_MISS_IDX.VALID q) = true ∧
      (t.q q).missed = (s.q q).missed ++ [i] ∧ Alters (Part.err ++ [Part.queue]) s t) ∧
  (∀ (s : State) (q : Fin 64), s.rd (R.CQ.WAIT_LIMIT q) ≠ 0 → (s.queueStat q).1 = 2 → (s.q q).limited = false →
    (s.q q).since + s.rd (R.CQ.WAIT_LIMIT q) ≤ s.now →
    Runs (.waitLimit q) s fun t =>
      Raised .WAIT_LIMIT s t ∧ (t.q q) = { s.q q with limited := true } ∧
      Confined (Part.err ++ [Part.queue]) (R.PG.IRQ_RAW.BLOCK (pgCQ q) :: errFields (pgCQ q) .WAIT_LIMIT Err.WAIT_LIMIT.cls) s t)

/-- CALLOC, CFREE and CTR_SEL (R173 to R175): the lowest run of free counters of the partition's range is allocated and zero;
a run that no queue waits on and no step mechanism names is freed; a counter is added to, saturating, or set. -/
def Obligations.CountersAreAllocatedFreedAndChanged : Prop :=
  (∀ (s : State) (p : Path) (part : Fin 8) (n : BitVec 7) (b : Nat), s.reaches p R.SIG.CALLOC.GO.addr (some part.val) →
    let u := s.taken p R.SIG.CALLOC.GO.addr 4
    let k := if n = 0 then 1 else min n.toNat 64
    let lo := u.act (R.MOD.SIG_RANGE.BASE part)
    lo ≤ b → b + k ≤ lo + u.act (R.MOD.SIG_RANGE.COUNT part) →
    (∀ i ∈ List.range k, Cells.get false u.sig.alloc (b + i) = false) →
    (∀ j ∈ List.range (b - lo), ∃ i ∈ List.range k, Cells.get false u.sig.alloc (lo + j + i) = true) →
    Runs (.calloc p part n) s fun t =>
      (∀ c : Nat, Cells.get false t.sig.alloc c = (decide (b ≤ c ∧ c < b + k) || Cells.get false u.sig.alloc c)) ∧
      (∀ c : Nat, t.ctr c = if b ≤ c ∧ c < b + k then 0 else u.ctr c) ∧
      t.pathRd p R.SIG.CALLOC_RES.BASE = b % 2 ^ 12 ∧ t.pathRd p R.SIG.CALLOC_RES.FAIL = 0 ∧
      Confined [.sig, .pathVal] ([R.SIG.CALLOC.PART, R.SIG.CALLOC.COUNT] ++ (List.range 8).map R.MOD.STEP_NUM) u t) ∧
  (∀ (s : State) (p : Path) (b : BitVec 12) (n : BitVec 7),
    let k := if n = 0 then 0 else min n.toNat 64
    s.reaches p R.SIG.CFREE.GO.addr (s.ctrsPart b.toNat k) → let u := s.taken p R.SIG.CFREE.GO.addr 4
    (∀ i ∈ List.range k, u.waitedOn (b.toNat + i) = false ∧ u.stepCounter (b.toNat + i) = false) →
    Runs (.cfree p b n) s fun t =>
      (∀ c : Nat, Cells.get false t.sig.alloc c =
        (!decide (b.toNat ≤ c ∧ c < b.toNat + k ∧ c < 4096) && Cells.get false u.sig.alloc c)) ∧
      t.sig.ctr = u.sig.ctr ∧ Confined [.sig] [R.SIG.CFREE.BASE, R.SIG.CFREE.COUNT] u t) ∧
  (∀ (s : State) (p : Path) (i : BitVec 12), s.reaches p R.SIG.CTR_SEL.GO.addr none →
    let u := s.taken p R.SIG.CTR_SEL.GO.addr 4
    Runs (.ctrAdd p i) s fun t =>
      t.ctr i.toNat = min sigMax (u.ctr i.toNat + u.rd R.SIG.CTR_DATA) ∧ Counted R.SIG.ADDS 1 u t ∧
      (sigMax < u.ctr i.toNat + u.rd R.SIG.CTR_DATA →
        Cells.get false t.sig.ovf i.toNat = true ∧ Raised .SIG_OVF u t) ∧
      (∀ c : Nat, c ≠ i.toNat → t.ctr c = u.ctr c) ∧ Alters (Part.err ++ [Part.queue, Part.sig, Part.nose]) u t) ∧
  (∀ (s : State) (p : Path) (i : BitVec 12), s.reaches p R.SIG.CTR_SEL.GO.addr none →
    let u := s.taken p R.SIG.CTR_SEL.GO.addr 4
    Runs (.ctrSet p i) s fun t =>
      t.ctr i.toNat = u.rd R.SIG.CTR_DATA ∧ Cells.get false t.sig.ovf i.toNat = false ∧
      (∀ c : Nat, c ≠ i.toNat → t.ctr c = u.ctr c) ∧ Alters (Part.err ++ [Part.queue, Part.sig, Part.nose]) u t)

/-! ### Sillage -/

/-- TRANSFER_ACCEPT (R213, R217, R232): gathered reads go on in their lists, and the next transfer takes a slot of its queue
and engine; it joins the open entry of its key, or creates one. Fetches (R217, R218, R221, R226): an entry that has waited its
HOLD, or is full, issues one fetch for its transfers; the data returned is converted into its buffer; a fetch that fails ends
every transfer of the entry with SILL_FETCH and shows the first; one outstanding for FETCH_WARN ticks is reported once.
HOST_COMPLETION (R490, R491, R509): the completion of a host fetch, all of whose requests have left, brings its data,
corrected ones being counted; an unsupported request fails it with HOST_UR, poisoned data with HOST_POISON; the answers to the
reads that commands make at issue are given line by line. The model's reading: log entry 37. -/
def Obligations.TransfersMergeFetchAndReturn : Prop :=
  (∀ (s : State) (e : Fin 16) (x : Xfer) (m : MergeEntry), s.engineOpen e = true →
    let u := s.feedGathers e
    u.nextXfer e = some x → u.stream.entries.find? (joins e x) = some m →
    Runs (.transferAccept e) s fun t =>
      t.stream.entries = u.stream.entries.map (fun y =>
        if y.id = m.id then { y with xfers := y.xfers ++ [x], groups := addToGroups x y.groups } else y) ∧
      t.stream.waiting = u.stream.waiting.filter (fun y => y.2.id ≠ x.id) ∧ t.heldBy x.owner.queue = u.heldBy x.owner.queue + 1 ∧
      Counted (R.SILL.XFERS e) 1 u t ∧ Counted (R.SILL.JOINS e) 1 u t ∧
      Confined [.stream] [R.SILL.XFERS e, (R.SILL.XFERS e).ovf, R.SILL.STAT.SLOTS_USED e, R.SILL.JOINS e, (R.SILL.JOINS e).ovf] u t) ∧
  (∀ (s : State) (e : Fin 16) (x : Xfer), s.engineOpen e = true →
    let u := s.feedGathers e
    u.nextXfer e = some x → u.stream.entries.find? (joins e x) = none →
    Runs (.transferAccept e) s fun t =>
      t.stream.entries = u.stream.entries ++ [u.newEntry e x] ∧
      t.stream.waiting = u.stream.waiting.filter (fun y => y.2.id ≠ x.id) ∧ t.heldBy x.owner.queue = u.heldBy x.owner.queue + 1 ∧
      Counted (R.SILL.XFERS e) 1 u t ∧ Counted (R.SILL.ENTRIES e) 1 u t ∧
      Confined [.stream] [R.SILL.XFERS e, (R.SILL.XFERS e).ovf, R.SILL.STAT.SLOTS_USED e, R.SILL.ENTRIES e,
        (R.SILL.ENTRIES e).ovf, R.SILL.STAT.OPEN e] u t) ∧
  (∀ (s : State) (e : Fin 16) (id : Nat) (m : MergeEntry) (x : Xfer), s.entryOf e id = some m → m.issued = none →
    m.xfers.head? = some x → (m.born + m.hold ≤ s.now ∨ m.maxJoin ≤ m.xfers.length) →
    Runs (.fetchIssue e id) s fun t =>
      t = ((((s.bump (R.SILL.FETCHES e) 1).bump (R.SILL.BYTES_FETCHED e) x.n).tally (R.SILL.STAT.OPEN e) (-1)).onEntry id
        fun y => { y with issued := some s.now }).fetchData m x ∧
      Alters (Part.err ++ [Part.mem, Part.stream, Part.nose, Part.fab, Part.power, Part.host]) s t) ∧
  (∀ (s : State) (e : Fin 16) (id : Nat) (m : MergeEntry) (x : Xfer), s.entryOf e id = some m → m.issued.isSome = true →
    m.words = none → m.err = none → m.xfers.head? = some x → m.bytes.length = x.n →
    let bs := (s.onWire m.bytes).2
    badSpans (firstSpan (byteBase x.src)) bs m.seals = [] →
    Runs (.fetchReturn e id) s fun t =>
      t.stream = { s.stream with entries := s.stream.entries.map fun y =>
        if y.id = id then { y with words := some (wordsOfBytes (convertBytes x.sfmt x.dfmt bs)) } else y } ∧
      Alters [.tile, .stream] s t) ∧
  (∀ (s : State) (e : Fin 16) (id : Nat) (m : MergeEntry) (x : Xfer), s.entryOf e id = some m → m.issued.isSome = true →
    m.words = none → m.err = none → m.xfers.head? = some x → m.bytes.length = x.n → s.stream.posts = [] →
    badSpans (firstSpan (byteBase x.src)) (s.onWire m.bytes).2 m.seals ≠ [] →
    Runs (.fetchFail e id) s fun t =>
      t.stream.entries = s.stream.entries.filter (fun y => y.id ≠ m.id) ∧ Raised .SILL_FETCH s t ∧ Raised .SEAL_CARRIED s t ∧
      Counted (R.SILL.FETCH_FAILS m.eng) 1 s t ∧ Counted R.NOSE.SEAL_FAILS 1 s t ∧ t.on (R.SILL.FAIL_INFO.VALID m.eng) = true ∧
      (s.on (R.SILL.FAIL_INFO.VALID m.eng) = false → t.rd (R.SILL.FAIL_INFO.CODE m.eng) = Err.SEAL_CARRIED.code % 2 ^ 16) ∧
      Alters (Part.err ++ [Part.tile, Part.stream, Part.queue, Part.nose]) s t) ∧
  (∀ (s : State) (e : Fin 16) (id : Nat) (m : MergeEntry) (er : Err), s.entryOf e id = some m → m.issued.isSome = true →
    m.words = none → m.err = some er → s.stream.posts = [] →
    Runs (.fetchFail e id) s fun t =>
      t.stream.entries = s.stream.entries.filter (fun y => y.id ≠ m.id) ∧ Raised .SILL_FETCH s t ∧
      Counted (R.SILL.FETCH_FAILS m.eng) 1 s t ∧
      (s.on (R.SILL.FAIL_INFO.VALID m.eng) = false → t.rd (R.SILL.FAIL_INFO.CODE m.eng) = er.code % 2 ^ 16) ∧
      Alters (Part.err ++ [Part.stream, Part.queue, Part.nose]) s t) ∧
  (∀ (s : State) (e : Fin 16) (id n : Nat) (m : MergeEntry), s.entryOf e id = some m → m.issued = some n → m.words = none →
    m.slow = false → s.rd (R.SILL.FETCH_WARN e) ≠ 0 → n + s.rd (R.SILL.FETCH_WARN e) ≤ s.now →
    Runs (.fetchSlow e id) s fun t =>
      t.stream = { s.stream with entries := s.stream.entries.map fun y => if y.id = id then { y with slow := true } else y } ∧
      Raised .FETCH_SLOW s t ∧ Counted (R.SILL.FETCH_SLOW e) 1 s t ∧ Alters (Part.err ++ [Part.stream, Part.nose]) s t) ∧
  (∀ (s : State) (e : Fin 16) (id : Nat) (m : MergeEntry) (x : Xfer) (bs : List Byte), s.entryOf e id = some m →
    m.xfers.head? = some x → s.awaitsHost x.owner.part m = true → (∀ r ∈ s.host.reqs, r.entry ≠ some id) →
    s.hostMem [] (adrHost x.src) x.n = some bs →
    Runs (.hostCompletion (.entry e id) .corrected) s fun t =>
      t.stream = { s.stream with entries := s.stream.entries.map fun y =>
        if y.id = m.id then { y with bytes := bs, seals := sealsOf (firstSpan (byteBase x.src)) bs } else y } ∧
      (∀ port : Port, ∀ r ∈ Cells.get [] t.host.reads (portIx port), r.entry ≠ some m.id) ∧
      Counted R.HOST.CORR_ERRS 1 s t ∧ Alters [.cells, .stream, .host] s t) ∧
  (∀ (s : State) (e : Fin 16) (id : Nat) (m : MergeEntry) (x : Xfer), s.entryOf e id = some m → m.xfers.head? = some x →
    s.awaitsHost x.owner.part m = true → (∀ r ∈ s.host.reqs, r.entry ≠ some id) → s.stream.posts = [] →
    Runs (.hostCompletion (.entry e id) .unsupported) s fun t =>
      t.stream.entries = s.stream.entries.filter (fun y => y.id ≠ m.id) ∧ Raised .HOST_UR s t ∧ Raised .SILL_FETCH s t ∧
      Counted (R.SILL.FETCH_FAILS m.eng) 1 s t ∧ Alters (Part.err ++ [Part.stream, Part.queue, Part.nose, Part.host]) s t) ∧
  (∀ (s : State) (e : Fin 16) (id : Nat) (m : MergeEntry) (x : Xfer), s.entryOf e id = some m → m.xfers.head? = some x →
    s.awaitsHost x.owner.part m = true → (∀ r ∈ s.host.reqs, r.entry ≠ some id) → s.stream.posts = [] →
    Runs (.hostCompletion (.entry e id) .poison) s fun t =>
      t.stream.entries = s.stream.entries.filter (fun y => y.id ≠ m.id) ∧ Raised .HOST_POISON s t ∧ Raised .SILL_FETCH s t ∧
      Counted (R.SILL.FETCH_FAILS m.eng) 1 s t ∧ Alters (Part.err ++ [Part.stream, Part.queue, Part.nose, Part.host]) s t) ∧
  (∀ (s : State) (a : BitVec 60) (h : HostAnswer),
    Runs (.hostCompletion (.line a) h) s fun t =>
      (∀ n : Nat, Cells.get .data t.host.answers n = if n = a.toNat / 64 then h else Cells.get .data s.host.answers n) ∧
      Alters [.host] s t)

/-- INJECTION (R219, R223, R224): a flit of the first group for which the engine has a credit of every destination goes, and takes
one of each; the group ends with its last flit. DROP_CREDIT_RETURN and TRANSFER_ACK (R214, R216, R223): a flit passed on
returns its credit; a destination that has all the flits of a write lands it, after older ones to the same words, and
acknowledges, and the transfer ends with the last of them. The model's reading: log entry 37. -/
def Obligations.FramesAreInjectedAndDropped : Prop :=
  (∀ (s : State) (e : Fin 16) (id : Nat) (m : MergeEntry) (ws : List Word) (g : Group),
    s.entryOf e id = some m → m.words = some ws → (m.groups.find? fun g => s.hasCredits e g.xfers) = some g →
    g.flits + 1 < flitsOf ws.length → g.flits ≠ 0 → (s.groupTiles e g.xfers).Nodup →
    Runs (.injection e id) s fun t =>
      (∀ k ∈ s.groupTiles e g.xfers, Cells.get 0 t.stream.credits (creditKey e k) = Cells.get 0 s.stream.credits (creditKey e k) + 1) ∧
      t.stream.entries = s.stream.entries.map (fun y =>
        if y.id = id then { y with groups := y.groups.map fun z => if z = g then { g with flits := g.flits + 1 } else z } else y) ∧
      Alters [.stream] s t) ∧
  (∀ (s : State) (e : Fin 16) (id : Nat) (m : MergeEntry) (ws : List Word) (g : Group),
    s.entryOf e id = some m → m.words = some ws → (m.groups.find? fun g => s.hasCredits e g.xfers) = some g →
    flitsOf ws.length ≤ g.flits + 1 →
    let g' : Group := { g with flits := g.flits + 1 }
    Runs (.injection e id) s fun t =>
      t = (((if g.flits = 0 then s.openDrops e ws g.xfers else s).sendFlit e g.xfers).onEntry id
        fun y => { y with groups := y.groups.map fun z => if z = g then g' else z }).closeGroup e id g' ∧
      Counted (R.SILL.INJECTIONS e) 1 s t ∧
      Alters (Part.err ++ [Part.tile, Part.mem, Part.stream, Part.queue, Part.nose, Part.fab, Part.power, Part.host]) s t) ∧
  (∀ (s : State) (e : Fin 16) (k : Fin 960) (d : Drop), (s.dropOf e k fun d => decide (d.passed < d.sent)) = some d →
    d.write.isSome = true →
    Runs (.dropCreditReturn e k) s fun t =>
      Cells.get 0 t.stream.credits (creditKey e k) = Cells.get 0 s.stream.credits (creditKey e k) - 1 ∧
      t.stream.drops = s.stream.drops.map (fun y => if y = d then { d with passed := d.passed + 1 } else y) ∧
      Alters [.stream] s t) ∧
  (∀ (s : State) (e : Fin 16) (k : Fin 960) (d : Drop) (l : Landing),
    (s.dropOf e k fun d => (d.write.any fun l => !s.landsLater l) && decide (d.total ≤ d.passed)) = some d → d.write = some l →
    Runs (.transferAck e k) s fun t =>
      t = (if s.tile.landing.contains l then s.landNow l else s).endDrop d ∧
      t.stream.drops = s.stream.drops.erase d ∧
      Alters (Part.err ++ [Part.words, Part.tile, Part.mem, Part.stream, Part.queue, Part.sig, Part.nose, Part.fab, Part.power, Part.host]) s t)

/-! ### Collectives -/

/-- A COLLECTIVE of each operation that passes its checks issues, binds its entry, takes the next SEQ and begins (R310 to
R316); an ANCHOR of a tile group exchanges in every sub-group at once (R312, R321). GROUP_CFG and ABORT (R308, R310, R316): an
unbound entry takes its fields, a bound one with a collective refuses with GROUP_BUSY; ABORT ends the entry's oldest
collective here and notifies the other members. The model's reading: log entries 11, 39, 40. -/
def Obligations.CollectivesAndTheirEntries : Prop :=
  (∀ (s b : State) (q : Fin 64) (e : Nat) (x : CollWork) (d : GroupDesc) (tab : List XchgRow × Nat × Nat × Nat),
    s.collReady q e x d tab b → cmdOp e = 0 → s.collClear q x d b →
    Runs (.allReduce q) s fun t =>
      Collective s q e x d tab b t ∧
      Alters (Part.err ++ [Part.words, Part.tile, Part.memBytes, Part.mem, Part.queue, Part.sig, Part.nose, Part.coll, Part.fab, Part.power, Part.host]) s t) ∧
  (∀ (s b : State) (q : Fin 64) (e : Nat) (x : CollWork) (d : GroupDesc) (tab : List XchgRow × Nat × Nat × Nat),
    s.collReady q e x d tab b → cmdOp e = 1 → s.collClear q x d b →
    Runs (.reduceScatter q) s fun t =>
      Collective s q e x d tab b t ∧
      Alters (Part.err ++ [Part.words, Part.tile, Part.memBytes, Part.mem, Part.queue, Part.sig, Part.nose, Part.coll, Part.fab, Part.power, Part.host]) s t) ∧
  (∀ (s b : State) (q : Fin 64) (e : Nat) (x : CollWork) (d : GroupDesc) (tab : List XchgRow × Nat × Nat × Nat),
    s.collReady q e x d tab b → cmdOp e = 2 → s.collClear q x d b →
    Runs (.allGather q) s fun t =>
      Collective s q e x d tab b t ∧
      Alters (Part.err ++ [Part.words, Part.tile, Part.memBytes, Part.mem, Part.queue, Part.sig, Part.nose, Part.coll, Part.fab, Part.power, Part.host]) s t) ∧
  (∀ (s b : State) (q : Fin 64) (e : Nat) (x : CollWork) (d : GroupDesc) (tab : List XchgRow × Nat × Nat × Nat),
    s.collReady q e x d tab b → cmdOp e = 3 → s.collClear q x d b →
    Runs (.allToAll q) s fun t =>
      Collective s q e x d tab b t ∧
      Alters (Part.err ++ [Part.words, Part.tile, Part.memBytes, Part.mem, Part.queue, Part.sig, Part.nose, Part.coll, Part.fab, Part.power, Part.host]) s t) ∧
  (∀ (s b : State) (q : Fin 64) (e : Nat) (x : CollWork) (d : GroupDesc) (tab : List XchgRow × Nat × Nat × Nat),
    s.collReady q e x d tab b → cmdOp e = 4 → s.collClear q x d b →
    Runs (.allToAllUnequal q) s fun t =>
      Collective s q e x d tab b t ∧
      Alters (Part.err ++ [Part.words, Part.tile, Part.memBytes, Part.mem, Part.queue, Part.sig, Part.nose, Part.coll, Part.fab, Part.power, Part.host]) s t) ∧
  (∀ (s b : State) (q : Fin 64) (e : Nat) (x : CollWork) (d : GroupDesc) (tab : List XchgRow × Nat × Nat × Nat),
    s.collReady q e x d tab b → cmdOp e = 5 → s.collClear q x d b →
    Runs (.anchorCmd q) s fun t =>
      Collective s q e x d tab b t ∧
      Alters (Part.err ++ [Part.words, Part.tile, Part.memBytes, Part.mem, Part.queue, Part.sig, Part.nose, Part.coll, Part.fab, Part.power, Part.host]) s t) ∧
  (∀ (s b : State) (q : Fin 64) (e : Nat) (x : CollWork) (d : GroupDesc) (tab : List XchgRow × Nat × Nat × Nat),
    s.collReady q e x d tab b → cmdOp e = 5 → d.tile = true →
    let f := b.newFlight q (s.nextIdx q) e []
    Runs (.anchorCmd q) s fun t =>
      t = (((b.stampGen x.grp).issue q f).bind x.grp d).startTiles f.owner x d ∧
      Alters (Part.err ++ [Part.words, Part.tile, Part.memBytes, Part.mem, Part.queue, Part.sig, Part.nose, Part.coll, Part.fab, Part.power, Part.host]) s t) ∧
  (∀ (s : State) (p : Path) (n : Fin 256) (v : BitVec 32),
    s.reaches p (R.COLL.GRP_CFG.VALID (grpPage n) (grpIdx n)).addr none →
    let u := s.taken p (R.COLL.GRP_CFG.VALID (grpPage n) (grpIdx n)).addr 4
    let g := grpPage n
    let i := grpIdx n
    u.grpBound n = false →
    Runs (.groupCfgWrite p n v) s fun t =>
      t.rd (R.COLL.GRP_CFG.VALID g i) = bitsOf v.toNat 0 0 ∧ t.rd (R.COLL.GRP_CFG.PIN g i) = bitsOf v.toNat 1 1 ∧
      t.rd (R.COLL.GRP_CFG.ENGINE g i) = bitsOf v.toNat 7 4 ∧ t.rd (R.COLL.GRP_CFG.SHARE g i) = bitsOf v.toNat 15 8 ∧
      t.coll.runs = u.coll.runs ∧
      Confined [.coll] [R.COLL.GRP_CFG.VALID g i, R.COLL.GRP_CFG.PIN g i, R.COLL.GRP_CFG.ENGINE g i, R.COLL.GRP_CFG.SHARE g i] u t) ∧
  (∀ (s : State) (p : Path) (n : Fin 256) (v : BitVec 32),
    s.reaches p (R.COLL.GRP_CFG.VALID (grpPage n) (grpIdx n)).addr none →
    let u := s.taken p (R.COLL.GRP_CFG.VALID (grpPage n) (grpIdx n)).addr 4
    u.grpBound n = true → u.grpRuns n ≠ [] → u.grpValid n = true →
    Runs (.groupCfgWrite p n v) s fun t =>
      Raised .GROUP_BUSY u t ∧ Confined Part.err (errFields (pgCOLL (grpPage n)) .GROUP_BUSY Err.GROUP_BUSY.cls) u t) ∧
  (∀ (s : State) (p : Path) (n : Fin 256) (r : CollRun),
    s.reaches p (R.COLL.GRP_CTRL (grpPage n) (grpIdx n)).addr none →
    let u := s.taken p (R.COLL.GRP_CTRL (grpPage n) (grpIdx n)).addr 4
    (((u.grpRuns n).find? fun r => r.stalled.isSome).or (u.grpRuns n).head?) = some r →
    Runs (.collAbort p n) s fun t =>
      t.coll.runs = u.coll.runs.filter (fun x => !decide (x.entry = r.entry ∧ x.seq = r.seq)) ∧
      t = (u.notify r Err.COLL_ABORTED.code false).abortRun r .COLL_ABORTED ∧ Counted (R.COLL.ABORTS r.eng) 1 u t ∧
      Alters (Part.err ++ [Part.queue, Part.sig, Part.nose, Part.coll, Part.fab]) u t)

/-- What members send each other (R314, R316, R317, R326): a record or data of a collective that this member has not issued is
kept, and acknowledged; one of a collective in progress is compared with its own, or taken, and the work goes on; an abort
notice ends it, or is kept; an acknowledgement ends the frame's wait. The model's reading: log entries 39, 40. -/
def Obligations.MembersExchangeRecordsDataAndAborts : Prop :=
  (∀ (s : State) (k : Fin 48) (f : Frame) (inc seq part : Nat) (r : StartRec), f.body = .msg inc seq part (.start r) →
    s.takes k f → s.receipt f.src inc seq = .take → s.runOfGroup r.group r.seq = none → s.seqIssued part r.group r.seq = false →
    Runs (.startRecord k f) s fun t =>
      t.coll = { s.coll with records := s.coll.records ++ [(part, r)] } ∧ t.receipt f.src inc seq = .again ∧
      Alters [.cells, .coll, .fab, .out] s t) ∧
  (∀ (s : State) (k : Fin 48) (f : Frame) (inc seq part : Nat) (x : StartRec) (r : CollRun),
    f.body = .msg inc seq part (.start x) → s.takes k f → s.receipt f.src inc seq = .take →
    s.runOfGroup x.group x.seq = some r →
    let a := ((s.acceptFrame k f).noteMsg f.src inc seq).compareRec r x
    Runs (.startRecord k f) s fun t =>
      t = ((a.takeEarly a.coll.early).collAdvance r.entry r.seq).ackMsg f seq 0 ∧
      Alters (Part.err ++ [Part.words, Part.tile, Part.memBytes, Part.mem, Part.queue, Part.sig, Part.nose, Part.coll, Part.fab, Part.power, Part.host]) s t) ∧
  (∀ (s : State) (k : Fin 48) (f : Frame) (pos : CollPos) (d : List Byte) (seals : List Word) (n : Nat),
    f.body = .collData pos d seals n → s.takes k f → s.runOfGroup pos.group pos.seq = none →
    (∀ p ∈ List.range 8, s.seqIssued p pos.group pos.seq = false) →
    Runs (.collData k f) s fun t =>
      t.coll = { s.coll with early := s.coll.early ++ [f] } ∧ Alters [.cells, .coll, .fab, .out] s t) ∧
  (∀ (s : State) (k : Fin 48) (f : Frame) (pos : CollPos) (d : List Byte) (seals : List Word) (n : Nat) (r : CollRun),
    f.body = .collData pos d seals n → s.takes k f → s.runOfGroup pos.group pos.seq = some r →
    r.heard.contains pos.rank = true → r.stalled = none → badSpans n d seals = [] →
    Runs (.collData k f) s fun t =>
      t = (s.acceptFrame k f).takeData r f pos d seals n ∧
      Alters (Part.err ++ [Part.words, Part.tile, Part.memBytes, Part.mem, Part.queue, Part.sig, Part.nose, Part.coll, Part.fab, Part.power, Part.host]) s t) ∧
  (∀ (s : State) (k : Fin 48) (f : Frame) (pos : CollPos) (n : Nat) (r : CollRun) (w : Unacked),
    f.body = .collAck pos n → s.takes k f →
    (s.coll.runs.find? fun r => r.unacked.any fun u => decide (u.tag = f.tag)) = some r →
    (r.unacked.find? fun u => decide (u.tag = f.tag)) = some w →
    Runs (.collAck k f) s fun t =>
      t = (((s.acceptFrame k f).takeTxn f.tag).2.onRun r.entry r.seq fun v => { v with
        unacked := v.unacked.filter fun u => decide (u.tag ≠ f.tag),
        ackers := if v.ackers.contains w.rank then v.ackers else v.ackers ++ [w.rank],
        counts := if r.op = 4 ∧ pos.phase = 0 then Cells.put none v.counts w.rank (some n) else v.counts }).collAdvance r.entry r.seq ∧
      Alters (Part.err ++ [Part.words, Part.tile, Part.memBytes, Part.mem, Part.queue, Part.sig, Part.nose, Part.coll, Part.fab, Part.power, Part.host]) s t) ∧
  (∀ (s : State) (k : Fin 48) (f : Frame) (inc seq part g q c : Nat) (rep : Bool), f.body = .msg inc seq part (.abort g q c rep) →
    s.takes k f → s.receipt f.src inc seq = .take → s.runOfGroup g q = none → s.seqIssued part g q = false → rep = false →
    s.entryOfGroup part g = none →
    Runs (.abortNotice k f) s fun t =>
      t.coll = { s.coll with aborts := s.coll.aborts ++ [(part, g, q)] } ∧ Alters [.cells, .coll, .fab, .out] s t) ∧
  (∀ (s : State) (k : Fin 48) (f : Frame) (inc seq part g q c : Nat) (rep : Bool) (r : CollRun),
    f.body = .msg inc seq part (.abort g q c rep) → s.takes k f → s.receipt f.src inc seq = .take →
    s.runOfGroup g q = some r →
    Runs (.abortNotice k f) s fun t =>
      t.coll.runs = s.coll.runs.filter (fun x => !decide (x.entry = r.entry ∧ x.seq = r.seq)) ∧
      Counted (R.COLL.ABORTS r.eng) 1 s t ∧ Alters (Part.err ++ [Part.queue, Part.sig, Part.nose, Part.coll, Part.fab]) s t)

/-- The chunks of a reduction are consecutive, and cover its units (R317). -/
def Obligations.ChunksCoverTheUnits : Prop :=
  ∀ (lo hi m : Nat), lo ≤ hi → 0 < m →
    (chunkOf lo hi m 0).1 = lo ∧ (chunkOf lo hi m (m - 1)).2 = hi ∧
    (∀ c : Nat, (chunkOf lo hi m c).2 = (chunkOf lo hi m (c + 1)).1 ∧ (chunkOf lo hi m c).1 ≤ (chunkOf lo hi m c).2)

/-! ### Memory tiers -/

/-- PLACE, its fill, RELEASE and its end (R256 to R259): granules go FREE to IN, IN to HOME with their bytes as zero, and HOME
to FREE once nothing outstanding reads them; a request that cannot begin says why in OP_RESULT. A MOVE takes its granules OUT
one after the other, the local destinations IN, and flips each pair when its bytes have been copied: the source is FREE, the
destination HOME, and the bytes are the source's (R260 to R262). To another node, the release goes there with the flip. The
model's reading: log entry 38. -/
def Obligations.GranulesArePlacedMovedAndReleased : Prop :=
  (∀ (s : State) (p : Path) (c : Fin 64) (gs : List Nat), s.reaches p R.QUOTA.OP_CTRL.GO.addr none →
    let u := s.taken p R.QUOTA.OP_CTRL.GO.addr 4
    u.mem.op = none → u.opRange = some gs → u.placeRefused c gs = none →
    Runs (.place p c) s fun t =>
      (∀ g ∈ gs, t.gran g = ⟨1, c⟩) ∧ t.mem.op = some ⟨false, c, gs⟩ ∧ t.rd R.QUOTA.OP_CTRL.GO = 1 ∧
      t.pathRd p R.QUOTA.OP_RESULT = 0 ∧ Counted R.QUOTA.PLACES gs.length u t ∧ Alters [.cells, .mem, .pathVal] u t) ∧
  (∀ (s : State) (p : Path) (c : Fin 64) (gs : List Nat) (er : Err), s.reaches p R.QUOTA.OP_CTRL.GO.addr none →
    let u := s.taken p R.QUOTA.OP_CTRL.GO.addr 4
    u.mem.op = none → u.opRange = some gs → u.placeRefused c gs = some er →
    Runs (.place p c) s fun t =>
      t.mem = u.mem ∧ t.pathRd p R.QUOTA.OP_RESULT = er.code ∧ Raised er u t ∧ Alters (Part.err ++ [Part.pathVal]) u t) ∧
  (∀ (s : State) (g : Nat) (o : GranOp), s.mem.op = some o → o.release = false → g ∈ o.left →
    Runs (.placeFillDone g) s fun t =>
      t.gran g = ⟨2, o.ctx⟩ ∧ (∀ a : Nat, Cells.find t.mem.bytes a =
        if g * granBytes ≤ a ∧ a < (g + 1) * granBytes then none else Cells.find s.mem.bytes a) ∧
      (o.left = [g] → t.mem.op = none ∧ t.rd R.QUOTA.OP_CTRL.GO = 0) ∧
      (∀ h ∈ o.left, h ≠ g → t.mem.op = some { o with left := o.left.filter fun x => x ≠ g }) ∧
      Alters [.cells, .memBytes, .mem, .power] s t) ∧
  (∀ (s : State) (p : Path) (c : Fin 64) (gs : List Nat), s.reaches p R.QUOTA.OP_CTRL.GO.addr none →
    let u := s.taken p R.QUOTA.OP_CTRL.GO.addr 4
    u.mem.op = none → u.opRange = some gs → (∀ g ∈ gs, u.gran g = ⟨2, c⟩) →
    Runs (.release p c) s fun t =>
      (∀ g ∈ gs, Cells.get false t.mem.leaving g = true) ∧ t.mem.grans = u.mem.grans ∧ t.mem.op = some ⟨true, c, gs⟩ ∧
      t.rd R.QUOTA.OP_CTRL.GO = 1 ∧ t.pathRd p R.QUOTA.OP_RESULT = 0 ∧
      Confined [.mem, .pathVal] [R.QUOTA.OP_CTRL.CTX, R.QUOTA.OP_CTRL.OP, R.QUOTA.OP_CTRL.GO] u t) ∧
  (∀ (s : State) (g : Nat) (o : GranOp), s.mem.op = some o → o.release = true → g ∈ o.left →
    (s.fetchesAt fun p => decide (p.gran = g)) = [] →
    Runs (.granuleFree g) s fun t =>
      t.gran g = ⟨0, 0⟩ ∧ Cells.get false t.mem.leaving g = false ∧ Counted R.QUOTA.RELEASES 1 s t ∧
      (o.left = [g] → t.mem.op = none ∧ t.rd R.QUOTA.OP_CTRL.GO = 0) ∧ Alters [.cells, .mem] s t) ∧
  (∀ (s : State) (q : Fin 64) (i : Nat) (m : Move) (p d : Place), s.moveOf q i = some m → m.out ≠ m.total →
    m.failed = none → s.queueRoom q = true → s.moveCheck m m.out = none → (s.place (m.from m.out)).toOption = some p → (s.place (m.to m.out)).toOption = some d → s.moveLocal m = true →
    p.gran ≠ d.gran →
    Runs (.granuleOut q i) s fun t =>
      t = ((((s.turnGran (m.from m.out) 3).setMove m { m with out := m.out + 1 }).turnGran (m.to m.out) 1).onStream fun x =>
        { x with posts := x.posts ++ [m.post m.out] }).sendPosts q ∧
      (s.stream.posts = [] → t.gran p.gran = ⟨3, (s.gran p.gran).ctx⟩ ∧ t.gran d.gran = ⟨1, (s.gran d.gran).ctx⟩ ∧
        t.stream.moves = s.stream.moves.map (fun y => if y = m then { m with out := m.out + 1 } else y) ∧
        s.heldBy q < t.heldBy q ∧ Alters [.cells, .mem, .stream] s t)) ∧
  (∀ (s : State) (q : Fin 64) (i : Nat) (m : Move) (p : Place), s.moveOf q i = some m → m.out ≠ m.total →
    m.failed = none → s.queueRoom q = true → (m.flipped < m.out → s.outFails m = false) → s.moveCheck m m.out = none → (s.place (m.from m.out)).toOption = some p → s.moveLocal m = false →
    Runs (.granuleOut q i) s fun t =>
      t = ((s.turnGran (m.from m.out) 3).setMove m { m with out := m.out + 1 }).outRemote m p ∧
      Alters (Part.err ++ [Part.tile, Part.mem, Part.stream, Part.queue, Part.nose, Part.fab, Part.power, Part.host]) s t) ∧
  (∀ (s : State) (q : Fin 64) (i : Nat) (m : Move) (p d : Place), s.moveOf q i = some m → m.flipped < m.out →
    s.stream.posts = [] → (s.mapped (m.from m.flipped)).toOption = some p → (s.mapped (m.to m.flipped)).toOption = some d → s.moveLocal m = true →
    s.checkData (some m.owner) p granBytes = (s, none) → s.wornPlace d = false → p.gran ≠ d.gran →
    p.key % granBytes = 0 → d.key % granBytes = 0 → s.tile.wire = [] →
    Runs (.granuleFlip q i) s fun t =>
      t.gran p.gran = ⟨0, 0⟩ ∧ t.gran d.gran = ⟨2, (s.gran d.gran).ctx⟩ ∧ Counted R.QUOTA.FLIPS 1 s t ∧
      (∀ a : Nat, Cells.get 0 t.mem.bytes a =
        if d.key ≤ a ∧ a < d.key + granBytes then Cells.get 0 s.mem.bytes (p.key + (a - d.key)) else Cells.get 0 s.mem.bytes a) ∧
      Alters (Part.err ++ [Part.memBytes, Part.mem, Part.stream, Part.queue, Part.power]) s t) ∧
  (∀ (s : State) (q : Fin 64) (i : Nat) (m : Move) (p : Place), s.moveOf q i = some m → m.flipped < m.out →
    (s.mapped (m.from m.flipped)).toOption = some p → s.moveLocal m = false →
    (∀ x ∈ s.fab.txns, x.kind ≠ .move m.owner m.flipped) → s.posting m m.flipped = false →
    (∀ y ∈ s.stream.moves, y.failed = none) → s.nodeKind (adrNode m.dst) ≠ 3 →
    Runs (.granuleFlip q i) s fun t =>
      t.gran p.gran = ⟨0, 0⟩ ∧ Counted R.QUOTA.FLIPS 1 s t ∧
      t.island.releases = s.island.releases ++ [⟨s.rd R.MOD.FAB_NODE.NODE, adrNode m.dst, m.from m.flipped, m.to m.flipped, some m.owner⟩] ∧
      t.fab.msgs.length = s.fab.msgs.length + 1 ∧ Alters (Part.err ++ [Part.mem, Part.stream, Part.fab]) s t)

/-- Contexts are claimed with limits of zero and freed when nothing uses them (R264); a claim with none left, and freeing one
in use, are refused. -/
def Obligations.ContextsAreClaimedAndFreed : Prop :=
  (∀ (s : State) (p : Path) (part : Fin 8) (c : Nat), s.reaches p R.QUOTA.CTX_ALLOC.GO.addr none →
    let u := s.taken p R.QUOTA.CTX_ALLOC.GO.addr 4
    ((List.range 64).find? fun c => u.ctxPart c = some part.val && !u.on (R.QUOTA.CTX_FLAGS.CLAIMED c)) = some c →
    Runs (.ctxAlloc p part) s fun t =>
      t.rd (R.QUOTA.CTX_FLAGS.CLAIMED c) = 1 ∧ t.pathRd p R.QUOTA.CTX_ALLOC.INDEX = c ∧ t.pathRd p R.QUOTA.CTX_ALLOC.FAIL = 0 ∧
      t.rd (R.QUOTA.CTX_LIMIT_BONDED c) = 0 ∧ t.rd (R.QUOTA.CTX_LIMIT_STACK c) = 0 ∧ t.rd (R.QUOTA.CTX_LIMIT_FLASH c) = 0 ∧
      Confined [.pathVal] [R.QUOTA.CTX_ALLOC.PART, R.QUOTA.CTX_FLAGS.CLAIMED c, R.QUOTA.CTX_LIMIT_BONDED c,
        R.QUOTA.CTX_LIMIT_STACK c, R.QUOTA.CTX_LIMIT_FLASH c] u t) ∧
  (∀ (s : State) (p : Path) (part : Fin 8), s.reaches p R.QUOTA.CTX_ALLOC.GO.addr none →
    let u := s.taken p R.QUOTA.CTX_ALLOC.GO.addr 4
    ((List.range 64).find? fun c => u.ctxPart c = some part.val && !u.on (R.QUOTA.CTX_FLAGS.CLAIMED c)) = none →
    Runs (.ctxAlloc p part) s fun t =>
      t.pathRd p R.QUOTA.CTX_ALLOC.FAIL = 1 ∧ Raised .CTX_FULL u t ∧
      Confined (Part.err ++ [Part.pathVal]) (R.QUOTA.CTX_ALLOC.PART :: errFields pgQUOTA .CTX_FULL Err.CTX_FULL.cls) u t) ∧
  (∀ (s : State) (p : Path) (c : Fin 64), s.reaches p R.QUOTA.CTX_FREE.GO.addr none →
    let u := s.taken p R.QUOTA.CTX_FREE.GO.addr 4
    u.rd (R.QUOTA.CTX_USED_BONDED c) = 0 → u.rd (R.QUOTA.CTX_USED_STACK c) = 0 → u.rd (R.QUOTA.CTX_USED_FLASH c) = 0 →
    Runs (.ctxFree p c) s fun t =>
      t.rd (R.QUOTA.CTX_FLAGS.CLAIMED c) = 0 ∧
      Confined [] [R.QUOTA.CTX_FREE.INDEX, R.QUOTA.CTX_FLAGS.CLAIMED c] u t) ∧
  (∀ (s : State) (p : Path) (c : Fin 64), s.reaches p R.QUOTA.CTX_FREE.GO.addr none →
    let u := s.taken p R.QUOTA.CTX_FREE.GO.addr 4
    (u.rd (R.QUOTA.CTX_USED_BONDED c) ≠ 0 ∨ u.rd (R.QUOTA.CTX_USED_STACK c) ≠ 0 ∨ u.rd (R.QUOTA.CTX_USED_FLASH c) ≠ 0) →
    Runs (.ctxFree p c) s fun t =>
      t.rd (R.QUOTA.CTX_FLAGS.CLAIMED c) = u.rd (R.QUOTA.CTX_FLAGS.CLAIMED c) ∧ Raised .CTX_BUSY u t ∧
      Confined Part.err (R.QUOTA.CTX_FREE.INDEX :: errFields pgQUOTA .CTX_BUSY Err.CTX_BUSY.cls) u t)

/-- Apertures and sleds (R254, R279, R281, R282): an aperture is enabled onto an attached sled, and closes when it is disabled
and drained; a sled is inserted, attached or erased, and released when it has drained; one beyond the fused count stays
unpowered, and is noted for Enfleurage; one that is pulled is gone. The model's reading: log entry 38. -/
def Obligations.AperturesAndSledsFollowTheirControls : Prop :=
  (∀ (s : State) (p : Path) (n : Fin 192), s.reaches p (R.FLASH.APER_CTRL.ENABLE n).addr none →
    let u := s.taken p (R.FLASH.APER_CTRL.ENABLE n).addr 4
    let sled := u.rd (R.FLASH.APER_MAP.SLED n)
    let g := u.rd (R.FLASH.APER_MAP.GRANULE n)
    u.on (R.FLASH.APER_CTRL.VALID n) = false → u.on (R.FLASH.SLED_STAT.ATTACHED sled) = true →
    u.partValid (u.rd (R.FLASH.APER_CTRL.PART n)) = true →
    (∀ m ∈ List.range 192, m ≠ n → u.on (R.FLASH.APER_CTRL.VALID m) = true → u.rd (R.FLASH.APER_MAP.SLED m) = sled →
      overlaps g (g + aperGrans) (u.rd (R.FLASH.APER_MAP.GRANULE m)) (u.rd (R.FLASH.APER_MAP.GRANULE m) + aperGrans) = false) →
    Runs (.aperEnable p n) s fun t =>
      t.rd (R.FLASH.APER_CTRL.VALID n) = 1 ∧ Confined [] [R.FLASH.APER_CTRL.VALID n] u t) ∧
  (∀ (s : State) (p : Path) (n : Fin 192), s.reaches p (R.FLASH.APER_CTRL.DISABLE n).addr none →
    let u := s.taken p (R.FLASH.APER_CTRL.DISABLE n).addr 4
    u.on (R.FLASH.APER_CTRL.VALID n) = true →
    Runs (.aperDisable p n) s fun t =>
      Cells.get false t.mem.closing (16 + n) = true ∧ t.rd (R.FLASH.APER_CTRL.VALID n) = 1 ∧ Alters [.mem] u t) ∧
  (∀ (s : State) (n : Fin 192), Cells.get false s.mem.closing (16 + n) = true → s.aperBusy n = false →
    Runs (.aperDrained n) s fun t =>
      t.rd (R.FLASH.APER_CTRL.VALID n) = 0 ∧ Cells.get false t.mem.closing (16 + n) = false ∧
      Confined [.mem] [R.FLASH.APER_CTRL.VALID n] s t) ∧
  (∀ (s : State) (p : Path) (i : Fin 4), s.reaches p R.FLASH.SLED_CTRL.GO.addr none →
    let u := s.taken p R.FLASH.SLED_CTRL.GO.addr 4
    u.on (R.FLASH.SLED_STAT.ATTACHED i) = true →
    Runs (.sledRelease p i) s fun t =>
      Cells.get false t.mem.closing i = true ∧ Confined [.mem] [R.FLASH.SLED_CTRL.SLED, R.FLASH.SLED_CTRL.OP] u t) ∧
  (∀ (s : State) (i : Fin 4), Cells.get false s.mem.closing i = true → s.sledBusy i = false →
    (∀ m ∈ s.stream.moves, s.moveOnSled i m = false) → (s.mem.op.any fun o => o.left.any (onSled i)) = false →
    Runs (.sledReleaseDone i) s fun t =>
      t.rd (R.FLASH.SLED_STAT.ATTACHED i) = 0 ∧ t.rd (R.FLASH.SLED_STAT.RELEASED i) = 1 ∧
      Cells.get false t.mem.closing i = false ∧ Alters [.cells, .mem] s t) ∧
  (∀ (s : State) (p : Path) (i : Fin 4), s.reaches p R.FLASH.SLED_CTRL.GO.addr none →
    let u := s.taken p R.FLASH.SLED_CTRL.GO.addr 4
    u.on (R.FLASH.SLED_STAT.PRESENT i) = true → u.on (R.FLASH.SLED_STAT.ATTACHED i) = false →
    u.on (R.FLASH.SLED_STAT.FOREIGN i) = false →
    Runs (.attach p i) s fun t =>
      t.rd (R.FLASH.SLED_STAT.ATTACHED i) = 1 ∧ t.rd (R.FLASH.SLED_STAT.RELEASED i) = 0 ∧
      t.rd (R.QUOTA.TIER_TOTAL 2) = (u.rd (R.QUOTA.TIER_TOTAL 2) + sledGrans) % 2 ^ 32 ∧ Alters (Part.err ++ [Part.mem, Part.fab]) u t) ∧
  (∀ (s : State) (p : Path) (i : Fin 4), s.reaches p R.FLASH.SLED_CTRL.GO.addr none →
    let u := s.taken p R.FLASH.SLED_CTRL.GO.addr 4
    u.on (R.FLASH.SLED_STAT.PRESENT i) = true → u.on (R.FLASH.SLED_STAT.ATTACHED i) = false →
    Runs (.attachErase p i) s fun t =>
      t.rd (R.FLASH.SLED_STAT.ATTACHED i) = 1 ∧ t.rd (R.FLASH.SLED_STAT.FOREIGN i) = 0 ∧
      Cells.get [] t.mem.sledRec i = [] ∧ Counted R.FLASH.TRIMS sledGrans u t ∧
      (∀ a : Nat, (Place.flash i 0).key ≤ a → a < (Place.flash i 0).key + 2 ^ 44 → Cells.find t.mem.bytes a = none) ∧
      Alters (Part.err ++ [Part.memBytes, Part.mem, Part.fab]) u t) ∧
  (∀ (s : State) (p : Path) (i : Fin 4), s.reaches p R.FLASH.SLED_CTRL.GO.addr none →
    let u := s.taken p R.FLASH.SLED_CTRL.GO.addr 4
    (u.on (R.FLASH.SLED_STAT.PRESENT i) = false ∨ u.on (R.FLASH.SLED_STAT.ATTACHED i) = true ∨
      u.on (R.FLASH.SLED_STAT.FOREIGN i) = true) →
    Runs (.attach p i) s fun t =>
      Raised .SLED_REFUSED u t ∧ Confined Part.err ([R.FLASH.SLED_CTRL.SLED, R.FLASH.SLED_CTRL.OP] ++
        errFields pgFLASH .SLED_REFUSED Err.SLED_REFUSED.cls) u t) ∧
  (∀ (s : State) (i : Fin 4) (foreign : Bool) (pct wear : Nat) (recs : List (Nat × Nat × Nat)) (data : List (Nat × List Byte)),
    s.on (R.FLASH.SLED_STAT.PRESENT i) = false → s.sledPosition i = true → 0 < pct →
    Runs (.sledInsert i true foreign pct wear recs data) s fun t =>
      t.rd (R.FLASH.SLED_STAT.PRESENT i) = 1 ∧ t.rd (R.FLASH.SLED_STAT.WORN i) = 0 ∧
      t.rd (R.FLASH.SLED_STAT.FOREIGN i) = foreign.toNat ∧ t.rd (R.FLASH.SLED_STAT.ERASE_MAX i) = min 65535 wear ∧
      Cells.get [] t.mem.sledRec i = recs.filter (fun r => decide (r.1 < sledGrans ∧ r.2.2 < 64)) ∧
      Alters (Part.err ++ [Part.memBytes, Part.mem]) s t) ∧
  (∀ (s : State) (i : Fin 4) (ok foreign : Bool) (pct wear : Nat) (recs : List (Nat × Nat × Nat)) (data : List (Nat × List Byte)),
    s.on (R.FLASH.SLED_STAT.PRESENT i) = false → s.sledPosition i = false →
    Runs (.sledInsert i ok foreign pct wear recs data) s fun t =>
      Cells.get false t.mem.extra i = true ∧ t.regs = s.regs ∧ Alters [.mem] s t) ∧
  (∀ (s : State) (i : Fin 4), s.on (R.FLASH.SLED_STAT.PRESENT i) = true → s.on (R.FLASH.SLED_STAT.ATTACHED i) = false →
    Runs (.sledPull i) s fun t =>
      t.rd (R.FLASH.SLED_STAT.PRESENT i) = 0 ∧ Cells.get [] t.mem.sledRec i = [] ∧
      (∀ a : Nat, (Place.flash i 0).key ≤ a → a < (Place.flash i 0).key + 2 ^ 44 → Cells.find t.mem.bytes a = none) ∧
      t.stream = s.stream ∧ Alters (Part.err ++ [Part.memBytes, Part.mem, Part.stream, Part.queue, Part.nose]) s t) ∧
  (∀ (s : State) (i : Fin 4), s.on (R.FLASH.SLED_STAT.PRESENT i) = true → s.on (R.FLASH.SLED_STAT.ATTACHED i) = true →
    s.stream.posts = [] →
    Runs (.sledPull i) s fun t =>
      t.rd (R.FLASH.SLED_STAT.PRESENT i) = 0 ∧ t.rd (R.FLASH.SLED_STAT.ATTACHED i) = 0 ∧ Cells.get [] t.mem.sledRec i = [] ∧
      (∀ m ∈ t.stream.moves, m ∉ s.stream.moves.filter (s.moveOnSled i)) ∧
      Alters (Part.err ++ [Part.memBytes, Part.mem, Part.stream, Part.queue, Part.nose]) s t)

/-- Scrubbing and sparing (R273, R274, R276 to R278; where errors arise, log entry 104): a patrol poisons the lines whose
uncorrectable errors it meets, and those that arise later await a read; a region spares the rows that are due until no spare
is left; banks and channels that are due are spared while their partition is quiet, and wait for it to become so. The model's
reading: log entry 38. -/
def Obligations.ScrubbingAndSparing : Prop :=
  (∀ (s : State) (stack : Bool) (i : Nat) (met later : Upsets), i < (if stack then 32 else 960) →
    (stack = true → s.on (R.STACK.SCRUB_CTRL.EN i) = true ∧ s.on (R.STACK.STAT.FAILED i) = false) →
    Runs (.patrolScrub stack i met later) s fun t =>
      (∀ o ∈ met.double, (regionKeys stack i).1 + o < (regionKeys stack i).2 →
        (t.poisoned (placeOfKey (((regionKeys stack i).1 + o) / 64 * 64))).isSome = true) ∧
      (∀ o ∈ later.double, (regionKeys stack i).1 + o < (regionKeys stack i).2 →
        Cells.get 0 t.mem.flaws (placeOfKey ((regionKeys stack i).1 + o)).flawKey = 2) ∧
      (stack = false → t.tile.wire = s.tile.wire ++ met.wire ++ later.wire ∧ t.tile.slips = s.tile.slips ++ met.slips ++ later.slips) ∧
      Alters (Part.err ++ [Part.tile, Part.mem, Part.nose]) s t) ∧
  (∀ (s : State) (n : Fin 960) (bank : Fin 16), s.dueRows n bank ≠ [] → s.rd (R.TILE.BOND_STAT.ROWS_SPARED n) < 1023 →
    Runs (.bondedRowSpare n bank) s fun t =>
      t.rd (R.TILE.BOND_STAT.ROWS_SPARED n) = s.rd (R.TILE.BOND_STAT.ROWS_SPARED n) + 1 ∧
      Cells.get 0 t.mem.spared (n * 16 + bank) = Cells.get 0 s.mem.spared (n * 16 + bank) + 1 ∧
      Alters [.free, .cells, .mem, .tag] s t) ∧
  (∀ (s : State) (n : Fin 960) (bank : Fin 16), s.dueRows n bank ≠ [] →
    s.rd (R.TILE.BOND_STAT.ROWS_SPARED n) = 1024 → Cells.get false s.mem.lost n = false →
    Runs (.bondedRowSpare n bank) s fun t =>
      Cells.get false t.mem.lost n = true ∧ t.rd (R.TILE.BOND_STAT.ROWS_SPARED n) = 1024 ∧
      Alters (Part.err ++ [Part.clk, Part.tile, Part.mem, Part.queue, Part.sig, Part.nose, Part.part, Part.power]) s t) ∧
  (∀ (s : State) (n : Fin 960) (bank : Fin 16) (failed : Bool) (p : Nat),
    (failed = true ∨ 128 ≤ Cells.get 0 s.mem.spared (n * 16 + bank)) → s.on (R.TILE.BOND_STAT.BANK_SPARED n) = false →
    s.partOfRow (n / 40) = some p → s.quiet (some p) = false → p < 8 →
    Runs (.bankSpare n bank failed) s fun t =>
      (p, repairBank n bank) ∈ t.part.repairs ∧ t.holders p = (s.holders p ||| 2 ^ holdSparing) % 16 ∧
      t.rd (R.TILE.BOND_STAT.BANK_SPARED n) = s.rd (R.TILE.BOND_STAT.BANK_SPARED n) ∧ Confined [.part] [R.CFG.QHOLD p] s t) ∧
  (∀ (s : State) (n : Fin 960) (bank : Fin 16) (failed : Bool), s.on (R.TILE.BOND_STAT.BANK_SPARED n) = false →
    (failed = true ∨ 128 ≤ Cells.get 0 s.mem.spared (n * 16 + bank)) → s.quiet (s.partOfRow (n / 40)) = true →
    Runs (.bankSpare n bank failed) s fun t =>
      t.rd (R.TILE.BOND_STAT.BANK_SPARED n) = 1 ∧ Cells.get 0 t.mem.spared (n * 16 + bank) = 0 ∧
      (∀ p ∈ List.range 8, s.partOfRow (n / 40) = some p → (p, repairBank n bank) ∉ t.part.repairs) ∧
      Alters [.free, .cells, .mem, .part, .tag] s t) ∧
  (∀ (s : State) (k : Fin 32) (ch : Fin 16), s.fitted (pgSTACK k) = true → s.on (R.STACK.STAT.FAILED k) = false →
    s.on (R.STACK.STAT.SPARING k) = false → s.rd (R.STACK.STAT.SPARE_FOR k) = 31 → s.chanDue k ch = true →
    Cells.get 0 s.mem.sparing k ≠ ch + 1 →
    Runs (.stackSpare k ch none) s fun t =>
      t.rd (R.STACK.STAT.SPARING k) = 1 ∧ Cells.get 0 t.mem.sparing k = ch + 1 ∧ Cells.get [] t.mem.chanErrs (k * 16 + ch) = [] ∧
      Alters [.cells, .mem, .part] s t) ∧
  (∀ (s : State) (p : Path) (k : Fin 32) (ch : Fin 16), s.reaches p (R.STACK.SPARE_CTRL.CHANNEL k).addr none →
    let u := s.taken p (R.STACK.SPARE_CTRL.CHANNEL k).addr 4
    u.on (R.STACK.STAT.FAILED k) = false → (u.on (R.STACK.STAT.SPARING k) = true ∨ u.rd (R.STACK.STAT.SPARE_FOR k) ≠ 31) →
    Runs (.stackSpare k ch (some p)) s fun t =>
      Raised .STACK_SPARE_REFUSED u t ∧ Confined Part.err (R.STACK.SPARE_CTRL.CHANNEL k ::
        errFields (pgSTACK k) .STACK_SPARE_REFUSED Err.STACK_SPARE_REFUSED.cls) u t) ∧
  (∀ (s : State) (k : Fin 32), s.on (R.STACK.STAT.SPARING k) = true →
    s.quiet (nibblePart (s.act (R.MOD.STACK_ASSIGN k))) = true → 0 < Cells.get 0 s.mem.sparing k →
    Cells.get 0 s.mem.sparing k ≤ 16 →
    Runs (.stackSpareDone k) s fun t =>
      t.rd (R.STACK.STAT.SPARING k) = 0 ∧ t.rd (R.STACK.STAT.SPARE_FOR k) + 1 = Cells.get 0 s.mem.sparing k ∧
      Alters [.free, .cells, .mem, .part, .tag] s t) ∧
  (∀ (s : State) (k : Fin 32) (c : Nat), s.fitted (pgSTACK k) = true → c < 256 →
    Runs (.doubledRefresh k c) s fun t =>
      t.rd (R.STACK.STAT.HOT k) = (decide (85 < c)).toNat ∧ t.rd (R.STACK.STAT.TEMP_C k) = c ∧
      Confined [] [R.STACK.STAT.HOT k, R.STACK.STAT.TEMP_C k] s t)

/-! ### Training and checking -/

/-- ENABLE checks the configuration and opens a step (R283); a SIGNAL ADD of 1 to the step counter closes it: the close is
timed and counted, AWAIT sets, the Nose has the step, and the next opens with its checkpoint (R284, R285, R394); a flip advances
the verdict counter: the step awaiting its flip is over, and the peers' verdicts for the next move up (R289); VWARN ticks after
the close VERDICT_SLOW is raised (R301); DISABLE clears the mechanism and abandons a pending flip (R302). The model's reading: log
entries 10, 36. -/
def Obligations.StepsAreEnabledAndFlipped : Prop :=
  (∀ (s : State) (p : Path) (part : Fin 8), s.reaches p (R.MOD.STEP_CTRL.ENABLE part).addr none →
    let u := s.taken p (R.MOD.STEP_CTRL.ENABLE part).addr 4
    u.stepActive part = false → u.stepCfgOk part = true →
    Runs (.stepEnable p part) s fun t =>
      t.rd (R.MOD.STEP_STAT.ACTIVE part) = 1 ∧
      t.rd (R.MOD.STEP_NUM part) = u.ctr (u.rd (R.MOD.STEP_CFG.STEP_CTR part)) % 2 ^ 48 ∧
      t.nose.runs = u.nose.runs.filter (fun r => decide (r.part ≠ part.val)) ++
        [newRun part (u.ctr (u.rd (R.MOD.STEP_CFG.STEP_CTR part))) none] ∧ Alters [.cells, .nose] u t) ∧
  (∀ (s : State) (p : Path) (part : Fin 8), s.reaches p (R.MOD.STEP_CTRL.ENABLE part).addr none →
    let u := s.taken p (R.MOD.STEP_CTRL.ENABLE part).addr 4
    u.stepActive part = false → u.stepCfgOk part = false →
    Runs (.stepEnable p part) s fun t =>
      Raised .STEP_CFG u t ∧ Confined Part.err (errFields pgMOD .STEP_CFG Err.STEP_CFG.cls) u t) ∧
  (∀ (s : State) (p : Path) (part : Fin 8), s.reaches p (R.MOD.STEP_CTRL.DISABLE part).addr none →
    let u := s.taken p (R.MOD.STEP_CTRL.DISABLE part).addr 4
    Runs (.stepDisable p part) s fun t =>
      t.rd (R.MOD.STEP_STAT.ACTIVE part) = 0 ∧ t.rd (R.MOD.STEP_STAT.AWAIT part) = 0 ∧ t.rd (R.MOD.STEP_STAT.HALTED part) = 0 ∧
      t.nose.runs = u.nose.runs.filter (fun r => decide (r.part ≠ part.val)) ∧
      t.nose.dups = u.nose.dups.filter (fun d => decide (d.owner.part ≠ part.val)) ∧
      Alters [.cells, .nose, .part] u t ∧
      (bitOf (u.holders part) holdReplay = false → Confined [.nose] [R.MOD.STEP_STAT.ACTIVE part, R.MOD.STEP_STAT.AWAIT part, R.MOD.STEP_STAT.HALTED part,
        R.MOD.STEP_STAT.SLOW part, R.MOD.STEP_PEER_CLEAN part, R.MOD.STEP_PEER_NEXT part, R.NOSE.REPLAY_STAT.PHASE part,
        R.NOSE.REPLAY_STAT.FAILED part] u t)) ∧
  (∀ (z : State) (q : Fin 64) (e c : Nat) (part : Fin 8), z.atHead q e → let s := z.headFetched q
    s.plainHead q → cmdClass e = clsSignal → bareHeader e = true → cmdOp e = 0 → itemsReserved e = true →
    zeroBytes e 56 63 = true → s.checkCounters q e = none → cmdItems e = [(c, 1)] → cmdDoneEn e = false →
    s.queuePart q = some part.val → s.stepActive part = true → c = s.rd (R.MOD.STEP_CFG.STEP_CTR part) → s.ctr c + 1 ≤ sigMax →
    Runs (.signalAdd q) z fun t =>
      t.ctr c = s.ctr c + 1 ∧ t.rd (R.MOD.STEP_NUM part) = (s.ctr c + 1) % 2 ^ 48 ∧
      t.rd (R.MOD.STEP_CLOSE_TICK part) = s.time % 2 ^ 64 ∧ Counted (R.MOD.STEP_CLOSED part) 1 s t ∧
      t.rd (R.MOD.STEP_STAT.AWAIT part) = 1 ∧
      (∀ r ∈ s.nose.runs, r.part = part → r.step = s.ctr c → { r with closed := some s.time } ∈ t.nose.runs) ∧
      (∃ r ∈ t.nose.runs, r.part = part ∧ r.step = s.ctr c + 1 ∧ r.att = 0 ∧ r.closed = none ∧ r.mark = none ∧ r.ckpt.isSome = true) ∧
      Alters (Part.err ++ [Part.queue, Part.sig, Part.nose]) s t) ∧
  (∀ (s : State) (part : Fin 8), s.mayFlip part = true →
    Runs (.stepFlip part) s fun t =>
      t.rd (R.MOD.STEP_STAT.AWAIT part) = 0 ∧ t.rd (R.MOD.STEP_FLIP_TICK part) = s.time % 2 ^ 64 ∧
      t.rd (R.MOD.STEP_PEER_NEXT part) = 0 ∧
      t.ctr (s.rd (R.MOD.STEP_CFG.VERD_CTR part)) = min sigMax (s.ctr (s.rd (R.MOD.STEP_CFG.VERD_CTR part)) + 1) ∧
      (∀ r ∈ t.nose.runs, r.part = part → r.closed = none) ∧ Alters (Part.err ++ [Part.queue, Part.sig, Part.nose]) s t) ∧
  (∀ (s : State) (part : Fin 8) (r : Run), s.closedRun part = some r → s.rd (R.MOD.STEP_VWARN part) ≠ 0 →
    s.on (R.MOD.STEP_STAT.AWAIT part) = true → r.slow = false →
    s.rd (R.MOD.STEP_CLOSE_TICK part) + s.rd (R.MOD.STEP_VWARN part) ≤ s.time →
    Runs (.verdictSlow part) s fun t =>
      t.rd (R.MOD.STEP_STAT.SLOW part) = 1 ∧ Raised .VERDICT_SLOW s t ∧
      t.nose.runs = s.nose.runs.map (fun x => if x = r then { x with slow := true } else x) ∧
      Confined (.nose :: Part.err) (R.MOD.STEP_STAT.SLOW part :: errFields pgMOD .VERDICT_SLOW Err.VERDICT_SLOW.cls) s t)

/-- A duplicate's outcomes (R384): the checker runs the unit on the copies and compares: a match, a void sample, or a
difference, which the arbiter settles from its own run (`err` is what a tile computes wrong); and the sample's epoch (R380).
Verdicts (R385, R388, R390): the local verdict of a closed step without a mark is clean once its duplicates have outcomes, or
at its window unless STRICT; the final verdict is clean when every source's is, and suspect with any mark: then a replay
begins, unless too many have been made. The model's reading: log entry 41. -/
def Obligations.DuplicatesAndVerdicts : Prop :=
  (∀ (s : State) (n : Fin 960) (q : Fin 64) (i : Nat) (d : Dup) (err : List (Nat × Word)) (void : Bool),
    s.power.frozen = false → s.dupOf n q i = some d → d.found = none → (s.copies d).2 = none →
    Runs (.noseDuplicate n q i err void) s fun t =>
      t.nose.dups = s.nose.dups.erase d ∧ Counted R.NOSE.VOID 1 s t ∧ t.tile.words = s.tile.words ∧
      Alters (Part.err ++ [Part.tile, Part.nose]) s t) ∧
  (∀ (s : State) (n : Fin 960) (q : Fin 64) (i : Nat) (d : Dup) (err : List (Nat × Word)) (c : List Word × List Word),
    s.power.frozen = false → s.dupOf n q i = some d → d.found = none → s.copies d = (s, some c) →
    Runs (.noseDuplicate n q i err true) s fun t =>
      t.nose.dups = s.nose.dups.erase d ∧ Counted R.NOSE.VOID 1 s t ∧ Confined [.nose] [R.NOSE.VOID, R.NOSE.VOID.ovf] s t) ∧
  (∀ (s : State) (n : Fin 960) (q : Fin 64) (i : Nat) (d : Dup) (err : List (Nat × Word)) (c : List Word × List Word),
    s.power.frozen = false → s.dupOf n q i = some d → d.found = none → s.copies d = (s, some c) →
    withErrors (s.unitRun d.tile d.pos d.work d.unit c.1) err = c.2 →
    Runs (.noseDuplicate n q i err false) s fun t =>
      t.nose.dups = s.nose.dups.erase d ∧ Counted R.NOSE.MATCHES 1 s t ∧ Counted (R.TILE.NOSE_DUPS d.checker) 1 s t ∧
      Confined [.words, .tile, .nose]
        [R.NOSE.MATCHES, R.NOSE.MATCHES.ovf, R.TILE.NOSE_DUPS d.checker, (R.TILE.NOSE_DUPS d.checker).ovf] s t) ∧
  (∀ (s : State) (n : Fin 960) (q : Fin 64) (i : Nat) (d : Dup) (err : List (Nat × Word)) (c : List Word × List Word),
    s.power.frozen = false → s.dupOf n q i = some d → d.found = none → s.copies d = (s, some c) →
    let z := withErrors (s.unitRun d.tile d.pos d.work d.unit c.1) err
    let b := d.base + d.unit.opWords + d.unit.outs.length
    z ≠ c.2 → b + z.length ≤ 16777216 →
    Runs (.noseDuplicate n q i err false) s fun t =>
      t.nose.dups = s.nose.dups.map (fun x => if x = d then { x with found := some z } else x) ∧
      (∀ j ∈ List.range z.length, Cells.get 0 t.tile.words (wordKey d.checker (b + j)) = z.getD j 0) ∧
      (∀ k x : Nat, x < 16777216 → (k ≠ d.checker ∨ x < 16 * (b / 16) ∨ 16 * ((b + z.length + 15) / 16) ≤ x) →
        Cells.get 0 t.tile.words (wordKey k x) = Cells.get 0 s.tile.words (wordKey k x)) ∧
      Counted (R.TILE.NOSE_DUPS d.checker) 1 s t ∧
      Confined [.words, .tile, .nose] [R.TILE.NOSE_DUPS d.checker, (R.TILE.NOSE_DUPS d.checker).ovf] s t) ∧
  (∀ (s : State) (n : Fin 960) (q : Fin 64) (i : Nat) (d : Dup) (err : List (Nat × Word)) (f : List Word)
    (c : List Word × List Word), s.power.frozen = false → s.dupOf n q i = some d → d.found = some f → s.copies d = (s, some c) →
    withErrors (((s.endDup d).spadWrites d.arbiter d.base c.1).unitRun d.tile d.pos d.work d.unit c.1) err = c.2 →
    Runs (.noseArbiter n q i err true false) s fun t =>
      t.nose = { s.nose with dups := s.nose.dups.erase d } ∧ Counted R.NOSE.CHECKER_FAULTS 1 s t ∧
      Counted (R.TILE.NOSE_FAULTS d.checker) 1 s t ∧ Counted (R.TILE.NOSE_DUPS d.arbiter) 1 s t ∧
      Raised .NOSE_MISMATCH s t ∧ Alters (Part.err ++ [Part.words, Part.tile, Part.nose]) s t) ∧
  (∀ (s : State) (n : Fin 960) (q : Fin 64) (i : Nat) (d : Dup) (err : List (Nat × Word)) (f : List Word)
    (c : List Word × List Word), s.power.frozen = false → s.dupOf n q i = some d → d.found = some f → s.copies d = (s, some c) →
    withErrors (((s.endDup d).spadWrites d.arbiter d.base c.1).unitRun d.tile d.pos d.work d.unit c.1) err = f → f ≠ c.2 →
    Runs (.noseArbiter n q i err true false) s fun t =>
      t.nose.dups = s.nose.dups.erase d ∧ Counted R.NOSE.ORIG_FAULTS 1 s t ∧ Counted (R.TILE.NOSE_FAULTS d.tile) 1 s t ∧
      Counted (R.TILE.NOSE_DUPS d.arbiter) 1 s t ∧ Raised .NOSE_MISMATCH s t ∧
      (∀ y : Nat × Nat, d.owner.step = some y → s.stepActive d.owner.part = true →
        ∀ r ∈ t.nose.runs, r.part = d.owner.part → r.step = y.1 → r.att = y.2 → r.mark.isSome = true ∧ r.impl.isSome = true) ∧
      Alters (Part.err ++ [Part.words, Part.tile, Part.nose]) s t) ∧
  (∀ (s : State) (n : Fin 960) (q : Fin 64) (i : Nat) (d : Dup) (err : List (Nat × Word)) (fit : Bool) (f : List Word)
    (c : List Word × List Word), s.power.frozen = false → s.dupOf n q i = some d → d.found = some f → s.copies d = (s, some c) →
    let z := withErrors (((s.endDup d).spadWrites d.arbiter d.base c.1).unitRun d.tile d.pos d.work d.unit c.1) err
    (fit = false ∨ (z ≠ f ∧ z ≠ c.2)) →
    Runs (.noseArbiter n q i err fit false) s fun t =>
      t.nose.dups = s.nose.dups.erase d ∧ Counted R.NOSE.UNRESOLVED 1 s t ∧ Raised .NOSE_MISMATCH s t ∧
      (∀ y : Nat × Nat, d.owner.step = some y → s.stepActive d.owner.part = true →
        ∀ r ∈ t.nose.runs, r.part = d.owner.part → r.step = y.1 → r.att = y.2 → r.mark.isSome = true) ∧
      Alters (Part.err ++ [Part.words, Part.tile, Part.nose]) s t) ∧
  (∀ (s : State) (n : Fin 960) (q : Fin 64) (i : Nat) (d : Dup) (err : List (Nat × Word)) (fit : Bool) (f : List Word)
    (c : List Word × List Word), s.power.frozen = false → s.dupOf n q i = some d → d.found = some f → s.copies d = (s, some c) →
    Runs (.noseArbiter n q i err fit true) s fun t =>
      t.nose.dups = s.nose.dups.erase d ∧ Counted R.NOSE.VOID 1 s t ∧ Confined [.nose] [R.NOSE.VOID, R.NOSE.VOID.ovf] s t) ∧
  (∀ (s : State), s.time % max 1 (s.rd R.NOSE.PERIOD) = 0 →
    Runs .nosePeriod s fun t =>
      t.rd R.NOSE.EPOCH = (s.rd R.NOSE.EPOCH + 1) % 2 ^ 64 ∧
      (∀ k : Nat, Cells.find t.nose.chosen k =
        if (s.partOfRow (k / 40)).any s.stepActive then Cells.find s.nose.chosen k else none) ∧
      Confined [.nose] [R.NOSE.EPOCH] s t) ∧
  (∀ (s : State) (part : Fin 8) (r : Run), s.closedRun part = some r → s.replaying r = false → r.local3 = false →
    r.mark = none → s.dupsOf r = [] →
    Runs (.localVerdict part) s fun t =>
      t.nose.runs = s.nose.runs.map (fun x =>
        if x.part = r.part ∧ x.step = r.step then { x with local3 := true, sent3 := true } else x) ∧
      Alters (Part.err ++ [Part.nose, Part.fab]) s t) ∧
  (∀ (s : State) (part : Fin 8) (r : Run), s.closedRun part = some r → s.replaying r = false → r.local3 = false →
    r.mark = none → s.dupsOf r ≠ [] → r.closed.getD 0 + s.rd R.NOSE.VERDICT_CFG.WINDOW ≤ s.time →
    s.on R.NOSE.VERDICT_CFG.STRICT = false →
    Runs (.verdictWindow part) s fun t =>
      t.nose.runs = s.nose.runs.map (fun x =>
        if x.part = r.part ∧ x.step = r.step then { x with local3 := true, sent3 := true } else x) ∧
      t.nose.dups = s.nose.dups.filter (fun d => !(s.dupsOf r).contains d) ∧
      Counted R.NOSE.LATE_CHECKS (s.dupsOf r).length s t ∧ Alters (Part.err ++ [Part.nose, Part.fab]) s t) ∧
  (∀ (s : State) (part : Fin 8) (r : Run), s.closedRun part = some r → s.replaying r = false → r.local3 = false →
    r.mark = none → s.dupsOf r ≠ [] → r.closed.getD 0 + s.rd R.NOSE.VERDICT_CFG.WINDOW ≤ s.time →
    s.on R.NOSE.VERDICT_CFG.STRICT = true → r.late = false →
    Runs (.verdictWindow part) s fun t =>
      t.nose = { s.nose with runs := s.nose.runs.map (fun x =>
        if x.part = r.part ∧ x.step = r.step then { x with late := true } else x) } ∧
      Raised .VERDICT_LATE s t ∧ Confined (.nose :: Part.err) (errFields pgNOSE .VERDICT_LATE Err.VERDICT_LATE.cls) s t) ∧
  (∀ (s : State) (part : Fin 8) (r : Run), (∀ x ∈ s.nose.runs, x.part = part → x.mark = none ∨ s.replaying x = true) →
    s.closedRun part = some r → s.replaying r = false → r.local3 = true → r.final3 = false → (∀ d ∈ s.verdictSources r, d ∈ r.clean) →
    Runs (.finalVerdict part) s fun t =>
      t.nose.runs = s.nose.runs.map (fun x =>
        if x.part = r.part ∧ x.step = r.step then { x with final3 := true } else x) ∧
      Counted R.NOSE.VERDICTS_CLEAN 1 s t ∧ Alters [.cells, .nose] s t) ∧
  (∀ (s : State) (part : Fin 8) (r : Run) (c : Ckpt), s.replaying r = false → r.mark.isSome = true → r.closed.isSome = true →
    s.closedRun part = some r → r.ckpt = some c → r.att + 1 ≤ s.rd R.NOSE.REPLAY_CFG.MAX →
    Runs (.finalVerdict part) s fun t =>
      t.rd (R.NOSE.REPLAY_STAT.PHASE part) = 1 ∧ Counted R.NOSE.VERDICTS_SUSPECT 1 s t ∧
      (∀ x ∈ t.nose.runs, x.part = part → x.step ≠ r.step + 1) ∧
      (∀ x ∈ t.coll.runs, x.owner.part ≠ part) ∧ Alters (Part.err ++ [Part.queue, Part.sig, Part.nose, Part.coll, Part.fab]) s t)

/-- Replays (R395, R396, R397): once the partition's commands have completed, PHASE shows the restore, the step's checkpoint
is restored and its attempt counts up, the hook stops for software or the partition resumes; an implicated tile is shifted out
first, under the sparing holder, and the replay fails where that cannot be done. Field tests (R398): a known-answer test runs
on a quiet partition, or is refused, and shows the tiles that failed it. The model's reading: log entries 42, 94. -/
def Obligations.ReplaysAndFieldTests : Prop :=
  (∀ (s : State) (part : Fin 8) (r : Run) (c : Ckpt), s.replayRun part = some r → r.ckpt = some c →
    s.rd (R.NOSE.REPLAY_STAT.PHASE part) = 1 → s.partBusy part = false →
    (r.impl = none ∨ s.on R.NOSE.REPLAY_CFG.SHIFT = false) →
    Runs (.replayRestore part) s fun t =>
      t.rd (R.NOSE.REPLAY_STAT.PHASE part) = 3 ∧ Confined [] [R.NOSE.REPLAY_STAT.PHASE part] s t) ∧
  (∀ (s : State) (part : Fin 8) (r : Run) (c : Ckpt), s.replayRun part = some r → r.ckpt = some c →
    s.rd (R.NOSE.REPLAY_STAT.PHASE part) = 3 →
    Runs (.replayRestore part) s fun t =>
      Restored part r c s t ∧ Alters (Part.err ++ [Part.queue, Part.sig, Part.nose, Part.part]) s t) ∧
  (∀ (s : State) (part : Fin 8) (r : Run) (c : Ckpt) (x : Nat × Nat), s.replayRun part = some r → r.ckpt = some c →
    s.rd (R.NOSE.REPLAY_STAT.PHASE part) = 1 → s.partBusy part = false → r.impl = some x →
    s.on R.NOSE.REPLAY_CFG.SHIFT = true → (s.failedCols x.1).length < 2 → s.shiftIn x.1 = none →
    (s.failedCols x.1).contains x.2 = false → s.on (R.SPARE.ROWMAP.RETIRED x.1) = false →
    Runs (.replayRestore part) s fun t =>
      t.rd (R.NOSE.REPLAY_STAT.PHASE part) = 2 ∧ bitOf (t.holders part) holdReplay = true ∧
      (∃ y ∈ t.part.shifts, y.row = x.1 ∧ y.pcol = x.2 ∧ y.replay = true) ∧ t.nose = s.nose ∧ Alters [.cells, .part] s t) ∧
  (∀ (s : State) (part : Fin 8) (r : Run) (c : Ckpt) (x : Nat × Nat), s.replayRun part = some r → r.ckpt = some c →
    s.rd (R.NOSE.REPLAY_STAT.PHASE part) = 1 → s.partBusy part = false → r.impl = some x →
    s.on R.NOSE.REPLAY_CFG.SHIFT = true →
    (2 ≤ (s.failedCols x.1).length ∨ (s.shiftIn x.1).isSome = true ∨ (s.failedCols x.1).contains x.2 = true ∨
      s.on (R.SPARE.ROWMAP.RETIRED x.1) = true) →
    Runs (.replayRestore part) s fun t =>
      t.rd (R.NOSE.REPLAY_STAT.PHASE part) = 0 ∧ t.rd (R.NOSE.REPLAY_STAT.FAILED part) = 1 ∧ Raised .REPLAY_FAILED s t ∧
      t.part.shifts = s.part.shifts ∧ t.nose = s.nose ∧ Alters (Part.err ++ [Part.part]) s t) ∧
  (∀ (s : State) (part : Fin 8) (r : Run) (c : Ckpt) (x : Nat × Nat), s.replayRun part = some r → r.ckpt = some c →
    s.rd (R.NOSE.REPLAY_STAT.PHASE part) = 2 → r.impl = some x → s.shiftIn x.1 = none →
    (s.failedCols x.1).contains x.2 = true →
    Runs (.replayRestore part) s fun t =>
      t.rd (R.NOSE.REPLAY_STAT.PHASE part) = 3 ∧ Confined [] [R.NOSE.REPLAY_STAT.PHASE part] s t) ∧
  (∀ (s : State) (part : Fin 8) (r : Run) (c : Ckpt) (x : Nat × Nat), s.replayRun part = some r → r.ckpt = some c →
    s.rd (R.NOSE.REPLAY_STAT.PHASE part) = 2 → r.impl = some x → s.shiftIn x.1 = none →
    (s.failedCols x.1).contains x.2 = false →
    Runs (.replayRestore part) s fun t =>
      t.rd (R.NOSE.REPLAY_STAT.PHASE part) = 0 ∧ t.rd (R.NOSE.REPLAY_STAT.FAILED part) = 1 ∧ Raised .REPLAY_FAILED s t ∧
      Confined Part.err ([R.NOSE.REPLAY_STAT.PHASE part, R.NOSE.REPLAY_STAT.FAILED part, R.PG.IRQ_RAW.BLOCK pgNOSE] ++
        errFields pgNOSE .REPLAY_FAILED Err.REPLAY_FAILED.cls) s t) ∧
  (∀ (s : State) (p : Path) (part : Fin 8), s.reaches p (R.NOSE.REPLAY_CTRL part).addr none →
    let u := s.taken p (R.NOSE.REPLAY_CTRL part).addr 4
    u.rd (R.NOSE.REPLAY_STAT.PHASE part) = 4 →
    Runs (.replayResume p part) s fun t =>
      t.rd (R.NOSE.REPLAY_STAT.PHASE part) = 0 ∧ bitOf (t.holders part) holdReplay = false ∧
      (∀ h : Nat, h < 4 → h ≠ holdReplay → bitOf (t.holders part) h = bitOf (u.holders part) h) ∧
      (u.holders part = 2 ^ holdReplay → u.partState part = 5 →
        t.partState part = (if Cells.get false u.part.ran part then 4 else Cells.get 0 u.part.entry part % 8)) ∧
      Confined [.part] [R.NOSE.REPLAY_STAT.PHASE part, R.CFG.QHOLD part, R.MOD.PART_STATE part] u t) ∧
  (∀ (s : State) (p : Path) (test : BitVec 3) (part : Fin 8), s.reaches p R.NOSE.KAT_CTRL.GO.addr none →
    let u := s.taken p R.NOSE.KAT_CTRL.GO.addr 4
    u.katRefused test.toNat part = false →
    Runs (.fieldTest p test part) s fun t =>
      t.nose = { u.nose with kat := some (test.toNat, part.val) } ∧ t.rd R.NOSE.KAT_STAT.RUNNING = 1 ∧
      t.rd R.NOSE.KAT_CTRL.TEST = test.toNat ∧ t.rd R.NOSE.KAT_CTRL.PART = part ∧
      Confined [.nose] [R.NOSE.KAT_CTRL.TEST, R.NOSE.KAT_CTRL.PART, R.NOSE.KAT_STAT.RUNNING] u t) ∧
  (∀ (s : State) (p : Path) (test : BitVec 3) (part : Fin 8), s.reaches p R.NOSE.KAT_CTRL.GO.addr none →
    let u := s.taken p R.NOSE.KAT_CTRL.GO.addr 4
    (u.partRead part ≠ 5 ∨ u.nose.kat ≠ none ∨ test.toNat = 0 ∨ 4 < test.toNat ∨
      (test.toNat < 4 ∧ u.rd (R.NOSE.AREA_WORDS part) < 65536)) →
    Runs (.fieldTest p test part) s fun t =>
      t.nose = u.nose ∧ Raised .KAT_REFUSED u t ∧ Confined Part.err ([R.NOSE.KAT_CTRL.TEST, R.NOSE.KAT_CTRL.PART] ++
        errFields pgNOSE .KAT_REFUSED Err.KAT_REFUSED.cls) u t) ∧
  (∀ (s : State) (failed : List Nat) (test part : Nat), s.nose.kat = some (test, part) →
    let ts := s.partTiles part
    let b := s.rd (R.NOSE.AREA_BASE part)
    let n := min (s.rd (R.NOSE.AREA_WORDS part)) (Config.spadWords - b)
    Runs (.fieldTestDone failed) s fun t =>
      t.nose = { s.nose with kat := none } ∧ t.rd R.NOSE.KAT_STAT.RUNNING = 0 ∧ t.rd R.NOSE.KAT_STAT.DONE = 1 ∧
      t.rd R.NOSE.KAT_STAT.FAILED = (ts.filter failed.contains).length % 1024 ∧
      (∀ j < 30, ∀ i < 32, bitOf (t.rd (R.NOSE.KAT_FAIL j)) i = (ts.contains (32 * j + i) && failed.contains (32 * j + i))) ∧
      (∀ k ∈ ts, k ∈ failed → ts.count k = 1 → Counted (R.TILE.KAT_FAILS k) 1 s t) ∧
      t.rd (R.LEDG.EVT Err.KAT_FAIL.index) =
        min ctMax (s.rd (R.LEDG.EVT Err.KAT_FAIL.index) + (ts.filter failed.contains).length) ∧
      (test = 4 → ∀ k ∈ ts, ∀ l < spadLines, t.lineWritten k l = false) ∧
      (∀ k x : Nat, x < 16777216 → (k ∉ ts ∨ test = 4 ∨ x < 16 * (b / 16) ∨ 16 * ((b + n + 15) / 16) ≤ x) →
        Cells.get 0 t.tile.words (wordKey k x) = Cells.get 0 s.tile.words (wordKey k x)) ∧
      Alters (Part.err ++ [Part.words, Part.tile, Part.nose]) s t)

/-! ### Daxvo -/

/-- JOIN and LEAVE (R362, R363): a join asks every neighbour, an answer makes this a node of the fabric or refuses it with
JOIN_REFUSED; a joined module passes a neighbour's join on to the registrar; a leave tells the registrar and the neighbours,
and a node that left has no transaction or message left. The model's reading: log entry 46. -/
def Obligations.ModulesJoinAndLeave : Prop :=
  (∀ (s : State) (p : Path) (req : BitVec 16) (v : Bool), s.reaches p R.MOD.FAB_CTRL.JOIN.addr none →
    let u := s.taken p R.MOD.FAB_CTRL.JOIN.addr 4
    u.joined = false →
    Runs (.join p req v) s fun t =>
      t.rd R.MOD.FAB_STAT.STATE = 1 ∧ t.rd R.MOD.FAB_CTRL.REQ_NODE = req.toNat ∧ t.joined = false ∧
      Alters (Part.err ++ [Part.fab]) u t) ∧
  (∀ (s : State) (k : Fin 48) (f : Frame) (inc seq part hall serial : Nat) (req : Option Nat),
    f.body = .msg inc seq part (.join hall req serial none) → s.takes k f →
    let a := s.acceptFrame k f
    Runs (.joinMessage k f) s fun t =>
      t = a.sendMsg none (a.rd R.MOD.FAB_REGISTRAR) 0xFF (.join hall req serial (some k.val)) ∧ Alters (Part.err ++ [Part.fab]) s t) ∧
  (∀ (s : State) (k : Fin 48) (f : Frame) (n inc c q part : Nat), f.body = .msg c q part (.joinAccept n inc none) →
    s.takes k f → s.rd R.MOD.FAB_STAT.STATE = 1 →
    Runs (.joinAccept k f) s fun t =>
      t.rd R.MOD.FAB_NODE.NODE = n % 2 ^ 16 ∧ t.rd R.MOD.FAB_NODE.JOINED = 1 ∧ t.rd R.MOD.FAB_INCARN = inc % 2 ^ 32 ∧
      t.rd R.MOD.FAB_STAT.STATE = 2 ∧ Alters (Part.err ++ [Part.fab]) s t) ∧
  (∀ (s : State) (k : Fin 48) (f : Frame) (inc seq part n i l : Nat), f.body = .msg inc seq part (.joinAccept n i (some l)) →
    s.takes k f → s.receipt f.src inc seq = .take →
    let a := (s.acceptFrame k f).noteMsg f.src inc seq
    Runs (.joinAccept k f) s fun t =>
      t = (a.joinFrame l (.joinAccept n i none)).ackMsg f seq 0 ∧ Alters (Part.err ++ [Part.fab]) s t) ∧
  (∀ (s : State) (k : Fin 48) (f : Frame) (r c q part : Nat), f.body = .msg c q part (.joinRefuse r none) →
    s.takes k f → s.rd R.MOD.FAB_STAT.STATE = 1 →
    Runs (.joinRefuse k f) s fun t =>
      t.rd R.MOD.FAB_STAT.STATE = 3 ∧ t.rd R.MOD.FAB_STAT.REFUSE = r % 8 ∧ t.joined = false ∧ Raised .JOIN_REFUSED s t ∧
      Alters (Part.err ++ [Part.fab]) s t) ∧
  (∀ (s : State) (p : Path), s.reaches p R.MOD.FAB_CTRL.LEAVE.addr none →
    let u := s.taken p R.MOD.FAB_CTRL.LEAVE.addr 4
    u.joined = true → u.rd R.MOD.FAB_STAT.STATE ≠ 4 → u.nodeKind (u.rd R.MOD.FAB_REGISTRAR) ≠ 3 →
    Runs (.leave p) s fun t =>
      t.rd R.MOD.FAB_STAT.STATE = 4 ∧
      (∃ m ∈ t.fab.msgs, m.node = u.rd R.MOD.FAB_REGISTRAR ∧ m.msg = .leave (u.rd R.MOD.FAB_NODE.NODE)) ∧
      Alters (Part.err ++ [Part.fab]) u t) ∧
  (∀ (s : State) (k : Fin 48) (f : Frame) (inc seq part n : Nat), f.body = .msg inc seq part (.leave n) →
    s.takes k f → s.receipt f.src inc seq = .take →
    let a := (s.acceptFrame k f).noteMsg f.src inc seq
    Runs (.leaveReceived k f) s fun t =>
      t = (a.nodeLeft n).ackMsg f seq 0 ∧ Alters (Part.err ++ [Part.tile, Part.mem, Part.stream, Part.queue, Part.sig,
        Part.nose, Part.coll, Part.fab, Part.power, Part.host]) s t)

/-- A link's states (R353 to R356): it trains when its optic is in and it is enabled, HELLO names the neighbour, it carries
traffic on the lanes that work, retrains on a failed lane or a request, and is DOWN with no frame left on it. The model's
reading: log entry 48. -/
def Obligations.LinksGoThroughTheirStates : Prop :=
  (∀ (s : State) (k : Fin 48), s.fitted (pgLINK k) = true → s.rd (R.LINK.STAT.STATE k) = 0 →
    s.on (R.LINK.STAT.OPTIC k) = false →
    Runs (.opticInsert k true) s fun t =>
      t.rd (R.LINK.STAT.OPTIC k) = 1 ∧
      t.rd (R.LINK.STAT.STATE k) = (if s.on (R.PG.CTRL.EN (pgLINK k)) ∧ s.cageOn k = true then 2 else 1) ∧
      Alters (Part.err ++ [Part.fab]) s t) ∧
  (∀ (s : State) (k : Fin 48), s.fitted (pgLINK k) = true → s.rd (R.LINK.STAT.STATE k) = 0 →
    s.on (R.LINK.STAT.OPTIC k) = false →
    Runs (.opticInsert k false) s fun t =>
      t.rd (R.LINK.STAT.OPTIC k) = s.rd (R.LINK.STAT.OPTIC k) ∧ Raised .OPTIC_REFUSED s t ∧
      t.rd (R.LINK.STAT.STATE k) = 0 ∧ t.inserts partCage = s.inserts partCage + 1 ∧ Alters Part.err s t) ∧
  (∀ (s : State) (k : Fin 48), s.on (R.LINK.STAT.OPTIC k) = true →
    Runs (.opticRemove k) s fun t =>
      t.rd (R.LINK.STAT.OPTIC k) = 0 ∧ t.rd (R.LINK.STAT.STATE k) = 0 ∧
      Alters (Part.err ++ [Part.tile, Part.mem, Part.stream, Part.queue, Part.sig, Part.nose, Part.coll, Part.fab, Part.power, Part.host]) s t) ∧
  (∀ (s : State) (p : Path) (k : Fin 48), s.reaches p (R.PG.CTRL.EN (pgLINK k)).addr none →
    let u := s.taken p (R.PG.CTRL.EN (pgLINK k)).addr 4
    u.on (R.LINK.STAT.OPTIC k) = true → u.cageOn k = true → u.rd (R.LINK.STAT.STATE k) = 1 →
    Runs (.linkEnable p k) s fun t =>
      t.rd (R.PG.CTRL.EN (pgLINK k)) = 1 ∧ t.rd (R.LINK.STAT.STATE k) = 2 ∧ (t.link k).txSeq = 0 ∧ (t.link k).rxSeq = 0 ∧
      Alters (Part.err ++ [Part.fab]) u t) ∧
  (∀ (s : State) (p : Path) (k : Fin 48), s.reaches p (R.PG.CTRL.EN (pgLINK k)).addr none →
    let u := s.taken p (R.PG.CTRL.EN (pgLINK k)).addr 4
    (u.on (R.LINK.STAT.OPTIC k) = false ∨ u.cageOn k = false ∨ u.rd (R.LINK.STAT.STATE k) ≠ 1) →
    Runs (.linkEnable p k) s fun t =>
      t.rd (R.PG.CTRL.EN (pgLINK k)) = 1 ∧ Confined [] [R.PG.CTRL.EN (pgLINK k)] u t) ∧
  (∀ (s : State) (p : Path) (k : Fin 48), s.reaches p (R.PG.CTRL.EN (pgLINK k)).addr none →
    let u := (s.taken p (R.PG.CTRL.EN (pgLINK k)).addr 4).wr (R.PG.CTRL.EN (pgLINK k)) 0
    2 ≤ u.rd (R.LINK.STAT.STATE k) →
    Runs (.linkDisable p k) s fun t =>
      t = (u.link k).onIt.foldl (fun v y => v.reroute (u.uncrossed k y.1) y.2) (u.lowered k) ∧
      Alters (Part.err ++ [Part.tile, Part.mem, Part.stream, Part.queue, Part.sig, Part.nose, Part.coll, Part.fab, Part.power, Part.host]) u t) ∧
  (∀ (s : State) (k : Fin 48), 2 ≤ s.rd (R.LINK.STAT.STATE k) →
    let d := s.lowered k
    Runs (.linkDown k) s fun t =>
      t = (s.link k).onIt.foldl (fun v y => v.reroute (s.uncrossed k y.1) y.2) d ∧
      d.rd (R.LINK.STAT.STATE k) = 1 ∧ d.rd (R.LINK.STAT.LANES k) = 0 ∧ Counted (R.LINK.DOWNS k) 1 s d ∧
      (d.link k).replay = [] ∧ (d.link k).waiting = [] ∧ (d.link k).transit = [] ∧ (3 ≤ s.rd (R.LINK.STAT.STATE k) → Raised .LINK_DOWN s d) ∧
      Alters (Part.err ++ [Part.tile, Part.mem, Part.stream, Part.queue, Part.sig, Part.nose, Part.coll, Part.fab, Part.power, Part.host]) s t) ∧
  (∀ (s : State) (k : Fin 48) (h : Hello), s.rd (R.LINK.STAT.STATE k) = 2 →
    h.hall = s.rd R.MOD.FAB_HALL → h.fresh = false →
    Runs (.hello k h) s fun t =>
      t.rd (R.LINK.PEER.NODE k) = h.node % 2 ^ 16 ∧ t.rd (R.LINK.PEER.LINK k) = h.link % 2 ^ 6 ∧
      t.rd (R.LINK.PEER.UNJOINED k) = h.unjoined.toNat ∧ t.rd (R.LINK.PEER.VALID k) = 1 ∧ (t.link k).hello = some h ∧
      (∀ c ∈ List.range 12, t.rd (R.LINK.LED_INIT k c) = h.inits.getD c 0 % 2 ^ 12) ∧
      Confined [.fab] ([R.LINK.PEER.NODE k, R.LINK.PEER.LINK k, R.LINK.PEER.UNJOINED k, R.LINK.PEER.VALID k] ++
        (List.range 12).map (R.LINK.LED_INIT k)) s t) ∧
  (∀ (s : State) (k : Fin 48) (h : Hello), s.rd (R.LINK.STAT.STATE k) = 2 →
    h.hall = s.rd R.MOD.FAB_HALL → h.fresh = true →
    Runs (.hello k h) s fun t =>
      t.rd (R.LINK.PEER.VALID k) = 1 ∧ (t.link k).hello = some h ∧ (t.link k).freed = [] ∧
      (∀ c ∈ classes, t.rd (R.LINK.LED_INIT k c) = h.inits.getD c 0 % 2 ^ 12 ∧ t.rd (R.LINK.LED_SENT k c) = 0 ∧
        t.rd (R.LINK.LED_REFUND k c) = 0 ∧ t.rd (R.LINK.LED_RETURNED k c) = 0 ∧ t.rd (R.LINK.LED_RECEIVED k c) = 0 ∧
        t.rd (R.LINK.LED_FREED k c) = 0 ∧ t.rd (R.LINK.LED_HELD k c) = s.rd (R.LINK.LED_HELD k c)) ∧
      Alters [.cells, .fab] s t) ∧
  (∀ (s : State) (k : Fin 48) (h : Hello), s.rd (R.LINK.STAT.STATE k) = 2 →
    h.hall ≠ s.rd R.MOD.FAB_HALL →
    Runs (.hello k h) s fun t =>
      t = (s.linkDown k).raise (pgLINK k) .HALL_MISMATCH ∧
      Alters (Part.err ++ [Part.tile, Part.mem, Part.stream, Part.queue, Part.sig, Part.nose, Part.coll, Part.fab, Part.power, Part.host]) s t) ∧
  (∀ (s : State) (k : Fin 48) (peer : BitVec 16) (l : Nat × Nat), s.rd (R.LINK.STAT.STATE k) = 2 →
    (s.link k).hello.isSome = true →
    let a := s.onLink k fun x => { x with peerBad := peer.toNat }
    a.lanesFor k = some l →
    Runs (.trainingComplete k peer) s fun t =>
      t.rd (R.LINK.STAT.LANES k) = l.1 ∧ t.rd (R.LINK.STAT.HALF k) = l.2 ∧
      t.rd (R.LINK.STAT.STATE k) = (if l.1 = 16 then 3 else 4) ∧ (l.1 ≠ 16 → Raised .LINK_DEGRADED s t) ∧
      ((s.link k).waiting = [] → (s.link k).resend = none →
        ∀ c ∈ classes, t.rd (R.LINK.LED_HELD k c) = s.rd (R.LINK.LED_INIT k c) % 2 ^ 12) ∧
      Alters (Part.err ++ [Part.fab]) s t) ∧
  (∀ (s : State) (k : Fin 48) (peer : BitVec 16), s.rd (R.LINK.STAT.STATE k) = 2 → (s.link k).hello.isSome = true →
    let a := s.onLink k fun x => { x with peerBad := peer.toNat }
    a.lanesFor k = none →
    Runs (.trainingComplete k peer) s fun t =>
      t = a.linkDown k ∧ Alters (Part.err ++ [Part.tile, Part.mem, Part.stream, Part.queue, Part.sig, Part.nose, Part.coll,
        Part.fab, Part.power, Part.host]) s t) ∧
  (∀ (s : State) (k : Fin 48) (peer : BitVec 16) (l : Nat × Nat), s.rd (R.LINK.STAT.STATE k) = 5 →
    let a := s.onLink k fun x => { x with peerBad := peer.toNat }
    a.retrainLanes k = some l →
    Runs (.retrainComplete k peer) s fun t =>
      t.rd (R.LINK.STAT.LANES k) = l.1 % 32 ∧ t.rd (R.LINK.STAT.STATE k) = (if l.1 = 16 then 3 else 4) ∧
      (t.link k).ledger = false ∧ Alters (Part.err ++ [Part.fab]) s t) ∧
  (∀ (s : State) (k : Fin 48) (peer : BitVec 16), s.rd (R.LINK.STAT.STATE k) = 5 →
    let a := s.onLink k fun x => { x with peerBad := peer.toNat }
    a.retrainLanes k = none →
    Runs (.retrainComplete k peer) s fun t =>
      t = a.linkDown k ∧ Alters (Part.err ++ [Part.tile, Part.mem, Part.stream, Part.queue, Part.sig, Part.nose, Part.coll,
        Part.fab, Part.power, Part.host]) s t) ∧
  (∀ (s : State) (p : Path) (k : Fin 48), s.reaches p (R.LINK.CTRL.RETRAIN k).addr none →
    let u := s.taken p (R.LINK.CTRL.RETRAIN k).addr 4
    u.linkUp k = true →
    Runs (.linkRetrain p k) s fun t =>
      t.rd (R.LINK.STAT.STATE k) = 5 ∧ Counted (R.LINK.RETRAINS k) 1 u t ∧ (t.link k).ledger = false ∧
      Alters (Part.err ++ [Part.fab]) u t) ∧
  (∀ (s : State) (k : Fin 48) (lanes : BitVec 16), s.linkUp k = true → lanes ≠ 0 →
    Runs (.laneFail k lanes false) s fun t =>
      t.rd (R.LINK.LANE_FAIL k) = (s.rd (R.LINK.LANE_FAIL k) ||| lanes.toNat) % 2 ^ 16 ∧ t.rd (R.LINK.STAT.STATE k) = 5 ∧
      Counted (R.LINK.RETRAINS k) 1 s t ∧ (t.link k).discard = true ∧
      ((s.link k).discard = false →
        Out.nak k (s.link k).rxSeq ((s.rd (R.LINK.LANE_FAIL k) ||| lanes.toNat) % 2 ^ 16) ∈ t.out) ∧
      Alters [.cells, .fab, .msix, .out] s t) ∧
  (∀ (s : State) (k : Fin 48) (lanes : BitVec 16), s.linkUp k = true → lanes ≠ 0 →
    Runs (.laneFail k lanes true) s fun t =>
      (t.link k).peerBad = (s.link k).peerBad ||| lanes.toNat ∧ t.rd (R.LINK.STAT.STATE k) = 5 ∧
      t.rd (R.LINK.LANE_FAIL k) = s.rd (R.LINK.LANE_FAIL k) ∧ Alters [.cells, .fab, .msix, .out] s t) ∧
  (∀ (s : State) (k : Fin 48) (lanes : BitVec 16), (s.rd (R.LINK.STAT.STATE k) = 2 ∨ s.rd (R.LINK.STAT.STATE k) = 5) →
    lanes ≠ 0 →
    Runs (.laneFail k lanes false) s fun t =>
      t.rd (R.LINK.LANE_FAIL k) = (s.rd (R.LINK.LANE_FAIL k) ||| lanes.toNat) % 2 ^ 16 ∧
      t.rd (R.LINK.STAT.STATE k) = s.rd (R.LINK.STAT.STATE k) ∧
      bitOf (t.rd (R.PG.IRQ_RAW.BLOCK (pgLINK k))) 2 = true ∧ Alters [.cells, .fab, .msix, .out] s t) ∧
  (∀ (s : State) (k : Fin 48) (lanes : BitVec 16), (s.rd (R.LINK.STAT.STATE k) = 2 ∨ s.rd (R.LINK.STAT.STATE k) = 5) →
    lanes ≠ 0 →
    Runs (.laneFail k lanes true) s fun t =>
      t = s.onLink k fun x => { x with peerBad := x.peerBad ||| lanes.toNat })

/-- Flow and error control (R345 to R352): credits returned let frames leave, an acknowledgement drops what it covers, a NAK
sends again from its frame, an error enters discard and answers with NAK, which also tells the peer the failed lanes, a sideband
unit of no known KIND only counts, LEDGER markers compare the two ends' counts, and CONFIG frames exchange new initial credits
(R346). The model's reading: log entries 48, 91, 92. -/
def Obligations.LinksControlFlowAndErrors : Prop :=
  (∀ (s : State) (k : Fin 48) (c : Fin 12) (freed : Nat), 3 ≤ s.rd (R.LINK.STAT.STATE k) →
    let d := (freed + 2 ^ 24 - Cells.get 0 (s.link k).freed c) % 2 ^ 24
    Runs (.credit k c freed) s fun t =>
      t.rd (R.LINK.LED_RETURNED k c) = (s.rd (R.LINK.LED_RETURNED k c) + d) % 2 ^ 64 ∧
      Cells.get 0 (t.link k).freed c = freed % 2 ^ 24 ∧
      ((s.link k).waiting = [] → (s.link k).resend = none → t.rd (R.LINK.LED_HELD k c) = (s.rd (R.LINK.LED_HELD k c) + d) % 2 ^ 12) ∧
      Alters [.cells, .fab, .out] s t) ∧
  (∀ (s : State) (k : Fin 48) (fseq : Nat), (∃ f ∈ (s.link k).replay, f.fseq = fseq) →
    Runs (.ack k fseq) s fun t =>
      ((s.link k).waiting = [] → (t.link k).replay = ((s.link k).fromSeq fseq).drop 1) ∧ Alters [.cells, .fab, .out] s t) ∧
  (∀ (s : State) (k : Fin 48) (fseq : Nat), (∃ f ∈ (s.link k).replay, f.fseq = fseq) → s.linkUp k = true →
    (s.link k).resend = none →
    (∀ f ∈ (s.link k).replay, f.cls < 12 ∧ s.rd (R.LINK.LED_HELD k f.cls) + (s.link k).held < 4096) →
    Runs (.nak k fseq 0) s fun t =>
      (t.link k).resend = none ∧ Counted (R.LINK.REPLAYS k) ((s.link k).fromSeq fseq).length s t ∧
      Alters [.cells, .fab, .out] s t) ∧
  (∀ (s : State) (k : Fin 48) (fseq : Nat) (lanes : BitVec 16), s.linkUp k = true → lanes ≠ 0 →
    Runs (.nak k fseq lanes) s fun t =>
      (t.link k).peerBad = (s.link k).peerBad ||| lanes.toNat ∧ t.rd (R.LINK.STAT.STATE k) = 5 ∧
      Counted (R.LINK.RETRAINS k) 1 s t ∧ (t.link k).replay = (s.link k).replay ∧ Alters [.cells, .fab, .msix, .out] s t) ∧
  (∀ (s : State) (k : Fin 48) (e : LineError), s.linkUp k = true → (∀ u : BitVec 64, e ≠ .unit u) →
    (∀ h : BitVec 180, e = .header h → headerOk h = false) → (s.link k).discard = false →
    Runs (.codewordError k e) s fun t =>
      (t.link k).discard = true ∧ (t.link k).nakAt = s.now ∧
      t.out = s.out ++ [Out.nak k (s.link k).rxSeq (s.rd (R.LINK.LANE_FAIL k))] ∧
      (e = .uncorrectable → Counted (R.LINK.FEC_UNCORR k) 1 s t) ∧
      (∀ h : BitVec 180, e = .header h → Counted (R.LINK.FRAME_BAD k) 1 s t) ∧ Alters [.cells, .fab, .out] s t) ∧
  (∀ (s : State) (k : Fin 48) (u : BitVec 64), s.linkUp k = true → 6 < (u.extractLsb' 60 4).toNat →
    Runs (.codewordError k (.unit u)) s fun t =>
      Counted (R.LINK.FRAME_BAD k) 1 s t ∧ Confined [] [R.LINK.FRAME_BAD k, (R.LINK.FRAME_BAD k).ovf] s t) ∧
  (∀ (s : State) (k : Fin 48), (s.link k).discard = true → (s.link k).nakAt + 256 ≤ s.now →
    Runs (.nakResend k) s fun t =>
      t.out = s.out ++ [Out.nak k (s.link k).rxSeq (s.rd (R.LINK.LANE_FAIL k))] ∧ (t.link k).nakAt = s.now ∧
      Alters [.fab, .out] s t) ∧
  (∀ (s : State) (k : Fin 48) (f : Frame) (counts : List (Nat × Nat × Nat)), f.body = .ledger counts → s.takes k f →
    s.badClasses k counts = [] →
    let a := s.acceptFrame k f
    Runs (.ledger k f) s fun t =>
      t.rd (R.LINK.STAT.LEDGER_OK k) = 1 ∧ Counted (R.LINK.LEDGER_CHECKS k) 1 a t ∧
      (t.ledgerOf k).counts = s.ledgerCounts k ∧ (t.ledgerOf k).checked = counts ∧
      Confined [.island] [R.LINK.STAT.LEDGER_OK k, R.LINK.LEDGER_CHECKS k, (R.LINK.LEDGER_CHECKS k).ovf] a t) ∧
  (∀ (s : State) (k : Fin 48) (f : Frame) (counts : List (Nat × Nat × Nat)) (c : Nat), f.body = .ledger counts → s.takes k f →
    (s.badClasses k counts).getLast? = some c →
    let a := s.acceptFrame k f
    Runs (.ledger k f) s fun t =>
      t.rd (R.LINK.STAT.LEDGER_OK k) = 0 ∧ t.rd (R.LINK.STAT.LEDGER_CLASS k) = c ∧ Counted (R.LINK.LEDGER_FAILS k) 1 a t ∧
      Raised .CREDIT_LEDGER a t ∧ t.rd (R.LINK.STAT.STATE k) = 5 ∧ (t.link k).ledger = true ∧
      Alters (Part.err ++ [Part.fab]) s t) ∧
  (∀ (s : State) (k : Fin 48) (corr : List Nat), s.linkUp k = true → s.time % ledgerPeriod = 0 →
    (∀ n ∈ corr.take 16, s.rd (R.LINK.LANE_THRESH k) = 0 ∨ n ≤ s.rd (R.LINK.LANE_THRESH k)) →
    Runs (.ledgerTick k corr) s fun t =>
      Counted (R.LINK.FEC_CORR k) (corr.take 16).sum s t ∧ t.rd (R.LINK.STAT.STATE k) = s.rd (R.LINK.STAT.STATE k) ∧
      Alters [.cells, .fab, .msix, .out] s t) ∧
  (∀ (s : State) (k : Fin 48) (f : Frame) (inits : List Nat), f.body = .config inits → s.takes k f →
    (s.link k).drain.sent = false →
    Runs (.configFrame k f) s fun t =>
      (t.link k).drain = { (s.link k).drain with on := true, peer := some inits } ∧
      (∀ c ∈ classes, t.rd (R.LINK.LED_INIT k c) = s.rd (R.LINK.LED_INIT k c)) ∧ Alters [.cells, .fab, .out] s t) ∧
  (∀ (s : State) (k : Fin 48) (f : Frame) (inits : List Nat), f.body = .config inits → s.takes k f →
    (s.link k).drain.sent = true → (s.link k).drain.change = false → (s.link k).drain.apply = false →
    Runs (.configFrame k f) s fun t =>
      (t.link k).drain = Drain.none ∧ (∀ c ∈ classes, t.rd (R.LINK.LED_INIT k c) = inits.getD c 0 % 2 ^ 12) ∧
      ((s.link k).waiting = [] → (s.link k).resend = none → ∀ c ∈ classes, t.rd (R.LINK.LED_HELD k c) =
        (s.rd (R.LINK.LED_HELD k c) + inits.getD c 0 - s.rd (R.LINK.LED_INIT k c)) % 2 ^ 12) ∧
      Alters [.cells, .fab, .out] s t) ∧
  (∀ (s : State) (k : Fin 48) (f : Frame) (inits : List Nat), f.body = .config inits → s.takes k f →
    (s.link k).drain.sent = true → (s.link k).drain.change = false → (s.link k).drain.apply = true →
    s.owesAck (pgLINK k) = true →
    Runs (.configFrame k f) s fun t =>
      (t.link k).drain = Drain.none ∧ t.on (R.PG.STAT.ACKED (pgLINK k)) = true ∧
      Alters (Part.err ++ [Part.commit, Part.queue, Part.sig, Part.nose, Part.fab]) s t) ∧
  (∀ (s : State) (p : Path) (n : BitVec 16), s.reaches p R.MOD.ROUTE_SEL.GO.addr none →
    let u := s.taken p R.MOD.ROUTE_SEL.GO.addr 4
    Runs (.routeRead p n) s fun t =>
      t.rd R.MOD.ROUTE_DATA = u.route n.toNat % 2 ^ 64 ∧
      Confined [] [R.MOD.ROUTE_SEL.NODE, R.MOD.ROUTE_SEL.OP, R.MOD.ROUTE_DATA] u t) ∧
  (∀ (s : State) (p : Path) (n : BitVec 16), s.reaches p R.MOD.ROUTE_SEL.GO.addr none →
    let u := s.taken p R.MOD.ROUTE_SEL.GO.addr 4
    Runs (.routeWrite p n) s fun t =>
      t.fab = { u.fab with routes := Cells.put 0 u.fab.routes n.toNat (u.rd R.MOD.ROUTE_DATA) } ∧
      Confined [.fab] [R.MOD.ROUTE_SEL.NODE, R.MOD.ROUTE_SEL.OP] u t)

/-- Every frame is accepted in order, once, on its own virtual channel (R344, R347, R349, R359): accepted, it is acknowledged
and its buffers are freed; out of order it is discarded with NAK, and an old one is acknowledged again; a frame for another
node is forwarded with one hop less and holds its buffer until it starts, and without hops it ends with ROUTE_LOOP. Broadcasts
(R367 to R369): a new one is recorded, acted on where this module may, and flooded; a late copy is only counted; an emergency
from an origin that is not listed is rejected; an origin's own broadcast takes its next sequence. The model's reading: log
entries 45, 47. -/
def Obligations.FramesAndBroadcasts : Prop :=
  (∀ (s : State) (k : Fin 48) (f : Frame) (n : Nat), f.body = .readReq n → s.linkUp k = true →
    (f.vc ≠ 1 ∨ 1 < f.layer ∨ 4096 < n) →
    (s.link k).discard = false →
    Runs (.readReq k f) s fun t =>
      Counted (R.LINK.FRAME_BAD k) 1 s t ∧ (t.link k).discard = true ∧ t.out = s.out ++ [Out.nak k (s.link k).rxSeq (s.rd (R.LINK.LANE_FAIL k))] ∧
      Confined [.fab, .out] [R.LINK.FRAME_BAD k, (R.LINK.FRAME_BAD k).ovf] s t) ∧
  (∀ (s : State) (k : Fin 48) (f : Frame) (n : Nat), f.body = .readReq n → n ≤ 4096 → s.linkUp k = true → f.vc = 1 →
    f.layer ≤ 1 →
    f.fseq ≠ (s.link k).rxSeq → (s.link k).discard = false → 2048 < ((s.link k).rxSeq + 4096 - f.fseq) % 4096 →
    Runs (.readReq k f) s fun t =>
      (t.link k).discard = true ∧ (t.link k).rxSeq = (s.link k).rxSeq ∧ t.out = s.out ++ [Out.nak k (s.link k).rxSeq (s.rd (R.LINK.LANE_FAIL k))] ∧
      Alters [.fab, .out] s t) ∧
  (∀ (s : State) (k : Fin 48) (f : Frame) (n : Nat), f.body = .readReq n → n ≤ 4096 → s.linkUp k = true → f.vc = 1 →
    f.layer ≤ 1 →
    f.fseq ≠ (s.link k).rxSeq → (s.link k).discard = false → ((s.link k).rxSeq + 4096 - f.fseq) % 4096 ≤ 2048 →
    Runs (.readReq k f) s fun t =>
      t = { s with out := s.out ++ [Out.ack k (((s.link k).rxSeq + 4095) % 4096)] }) ∧
  (∀ (s : State) (k : Fin 48) (f : Frame) (n : Nat), f.body = .readReq n → n ≤ 4096 → s.linkUp k = true → f.vc = 1 →
    f.layer ≤ 1 →
    f.fseq = (s.link k).rxSeq → s.joined = false →
    Runs (.readReq k f) s fun t =>
      (t.link k).rxSeq = ((s.link k).rxSeq + 1) % 4096 ∧ (t.link k).discard = false ∧ t.out = s.out ++ [Out.ack k f.fseq] ∧
      Alters [.cells, .fab, .out] s t) ∧
  (∀ (s : State) (k : Fin 48) (f : Frame) (d : List Byte) (seals : List Word) (i : Nat), f.body = .write d seals i →
    f.body.size ≤ 16512 → s.linkUp k = true → f.vc = 1 → f.layer ≤ 1 → f.fseq = (s.link k).rxSeq → s.joined = false →
    let n := f.body.codewords
    0 < n →
    Runs (.writeFrame k f) s fun t =>
      t.rd (R.LINK.LED_RECEIVED k f.cls) = (s.rd (R.LINK.LED_RECEIVED k f.cls) + n) % 2 ^ 64 ∧
      t.rd (R.LINK.LED_FREED k f.cls) = (s.rd (R.LINK.LED_FREED k f.cls) + n) % 2 ^ 64 ∧ Counted (R.LINK.RX_CW k) n s t ∧
      t.out = s.out ++ [Out.credit k f.cls (t.rd (R.LINK.LED_FREED k f.cls) % 2 ^ 24), .ack k f.fseq] ∧
      (t.link k).rxSeq = ((s.link k).rxSeq + 1) % 4096 ∧ Alters [.cells, .fab, .out] s t) ∧
  (∀ (s : State) (k : Fin 48) (f : Frame) (n : Nat), f.body = .readReq n → n ≤ 4096 → s.linkUp k = true → f.vc = 1 →
    f.layer ≤ 1 →
    f.fseq = (s.link k).rxSeq → s.joined = true → f.dst ≠ s.rd R.MOD.FAB_NODE.NODE →
    let a := s.holdFrame k f
    Runs (.readReq k f) s fun t =>
      t = (if f.hops = 0 then (a.raise pgMOD .ROUTE_LOOP).sendUnreach f .ROUTE_LOOP else a.forward k f) ∧
      Alters (Part.err ++ [Part.fab]) s t) ∧
  (∀ (s : State) (k j : Fin 48) (f : Frame) (d : List Byte) (seals : List Word) (i : Nat), f.body = .write d seals i →
    f.body.size ≤ 16512 → s.linkUp k = true → f.vc = 1 → f.layer ≤ 1 → f.fseq = (s.link k).rxSeq → s.joined = true →
    f.dst ≠ s.rd R.MOD.FAB_NODE.NODE → 0 < f.hops →
    s.chooseWay { f with hops := f.hops - 1 } none = some (j.val, false) → (s.link j).drain.on = true →
    let g := { f with hops := f.hops - 1 }
    Runs (.writeFrame k f) s fun t =>
      t.rd (R.LINK.LED_RECEIVED k f.cls) = (s.rd (R.LINK.LED_RECEIVED k f.cls) + f.body.codewords) % 2 ^ 64 ∧
      t.rd (R.LINK.LED_FREED k f.cls) = s.rd (R.LINK.LED_FREED k f.cls) ∧
      (t.link j).waiting = (s.link j).waiting ++ [g] ∧ (t.link j).transit = (s.link j).transit ++ [(g, (k.val, f.cls))] ∧
      t.out = s.out ++ [Out.ack k f.fseq] ∧ Counted R.MOD.FWD_FRAMES 1 s t ∧ Alters [.cells, .fab, .out] s t) ∧
  (∀ (s : State) (k : Fin 48) (f : Frame) (b : Bcast), f.body = .bcast b → b.kind = 1 → s.takes k f → s.bcastNew b = true →
    Runs (.snapshotBroadcast k f) s fun t =>
      Cells.get none t.fab.origins b.origin = some (b.incarnation, b.seq) ∧
      (s.on R.TB.SNAP_CTRL.EN_FABRIC = true → s.time < b.tick → b.tick < 2 ^ 64 →
        t.rd R.TB.SNAP_FABRIC = b.tick ∧ t.rd R.TB.SNAP_STAT.FAB_ARMED = 1) ∧
      Alters (Part.err ++ [Part.commit, Part.stream, Part.fab]) s t) ∧
  (∀ (s : State) (k : Fin 48) (f : Frame) (b : Bcast), f.body = .bcast b → b.kind = 1 → s.takes k f → s.bcastNew b = false →
    Runs (.snapshotBroadcast k f) s fun t =>
      Counted R.MOD.BCAST_DUP 1 s t ∧ t.fab.origins = s.fab.origins ∧ t.rd R.TB.SNAP_FABRIC = s.rd R.TB.SNAP_FABRIC ∧
      Alters [.cells, .fab, .out] s t) ∧
  (∀ (s : State) (k : Fin 48) (f : Frame) (b : Bcast), f.body = .bcast b → b.kind = 2 → s.takes k f → s.bcastNew b = true →
    (∃ i ∈ List.range 4, s.on (R.MOD.FAB_EMERG_SRC.VALID i) = true ∧ s.rd (R.MOD.FAB_EMERG_SRC.NODE i) = b.origin) →
    Runs (.emergencyBroadcast k f) s fun t =>
      t = (((s.acceptFrame k f).noteBcast b).bcastApply b).flood f (some k) ∧
      Alters (Part.err ++ [Part.commit, Part.clk, Part.stream, Part.fab, Part.power]) s t) ∧
  (∀ (s : State) (k : Fin 48) (f : Frame) (b : Bcast), f.body = .bcast b → b.kind = 2 → s.takes k f → s.bcastNew b = true →
    (∀ i ∈ List.range 4, s.on (R.MOD.FAB_EMERG_SRC.VALID i) = true → s.rd (R.MOD.FAB_EMERG_SRC.NODE i) ≠ b.origin) →
    Runs (.emergencyBroadcast k f) s fun t =>
      Counted R.MOD.BCAST_REJECT 1 s t ∧ Raised .BCAST_REJECTED s t ∧ t.clk = s.clk ∧
      Cells.get none t.fab.origins b.origin = some (b.incarnation, b.seq) ∧
      Alters (Part.err ++ [Part.commit, Part.clk, Part.stream, Part.fab, Part.power]) s t) ∧
  (∀ (s : State) (p : Path), s.reaches p R.MOD.BCAST_CTRL.GO.addr none →
    let u := s.taken p R.MOD.BCAST_CTRL.GO.addr 4
    u.joined = true →
    Runs (.bcastSnapshot p) s fun t =>
      t.fab.bseq = u.fab.bseq + 1 ∧
      Cells.get none t.fab.origins (u.rd R.MOD.FAB_NODE.NODE) = some (u.rd R.MOD.FAB_INCARN, u.fab.bseq + 1) ∧
      (u.on R.TB.SNAP_CTRL.EN_FABRIC = true → u.time < u.rd R.MOD.BCAST_TICK → t.rd R.TB.SNAP_FABRIC = u.rd R.MOD.BCAST_TICK % 2 ^ 64) ∧
      Alters (Part.err ++ [Part.commit, Part.stream, Part.fab]) u t) ∧
  (∀ (s : State) (p : Path) (fr : BitVec 5) (op : BitVec 2), s.reaches p R.MOD.BCAST_CTRL.GO.addr none →
    let u := s.taken p R.MOD.BCAST_CTRL.GO.addr 4
    u.joined = true → (op = 1 ∨ op = 2) → fr ≤ 16 → u.time < u.rd R.MOD.BCAST_TICK → u.rd R.PWR.SHED_STAT ≠ 2 →
    Runs (.bcastEmergency p fr op) s fun t =>
      t.fab.bseq = u.fab.bseq + 1 ∧
      t.clk.pending = some ⟨decide (op = 1), emergFrac fr.toNat, u.rd R.MOD.BCAST_TICK, 2⟩ ∧
      Alters (Part.err ++ [Part.commit, Part.clk, Part.stream, Part.fab, Part.power]) u t)

/-- Requests from other nodes are served and answered, and answers end the transaction they carry (R361, R266, R374, R376): a
read sends the data with its seals or its error; a write stores its bytes where they are whole and nothing else; a granule's
data opens it IN, and returns it HOME where it fails its seal; data that fails its seal ends with SEAL_CARRIED; UNREACH ends
with its code. A local STREAM WRITE stores to the destination bytes of its pieces and to no other byte of memory (R165, R212,
R533). The model's reading: log entry 45. -/
def Obligations.RemoteAccessesAreServed : Prop :=
  (∀ (s : State) (k : Fin 48) (f : Frame) (n : Nat) (bs : List Byte), f.body = .readReq n → s.takes k f →
    let r := (s.acceptFrame k f).memRead none .remote f.offset (4 * n)
    r.2.toOption = some bs →
    Runs (.readReq k f) s fun t =>
      t = r.1.answer f (.readData bs (sealsOf (firstSpan f.offset) bs)) ∧ Alters (Part.err ++ [Part.mem, Part.nose, Part.fab, Part.power]) s t) ∧
  (∀ (s : State) (k : Fin 48) (f : Frame) (n : Nat) (er : Err), f.body = .readReq n → s.takes k f →
    let r := (s.acceptFrame k f).memRead none .remote f.offset (4 * n)
    errorOf r.2 = some er →
    Runs (.readReq k f) s fun t =>
      t = (r.1.countRefused er).answer f (.readErr er.code) ∧ Alters (Part.err ++ [Part.mem, Part.nose, Part.fab, Part.power]) s t) ∧
  (∀ (s : State) (k : Fin 48) (f : Frame) (d : List Byte) (seals : List Word) (tg nd e id : Nat) (m : MergeEntry),
    f.body = .readData d seals → s.takes k f →
    (s.fab.txns.find? fun t => decide (t.tag = f.tag)) = some ⟨tg, nd, .fetch e id⟩ → s.entryOf e id = some m →
    badSpans (firstSpan f.offset) d seals = [] →
    Runs (.readData k f) s fun t =>
      t.stream = { s.stream with entries := s.stream.entries.map fun y => if y.id = id then { y with bytes := d, seals := seals } else y } ∧
      t.fab.txns = s.fab.txns.filter (fun x => decide (x.tag ≠ f.tag)) ∧ Alters [.cells, .stream, .fab, .out] s t) ∧
  (∀ (s : State) (k : Fin 48) (f : Frame) (d : List Byte) (seals : List Word) (tg nd e id : Nat) (m : MergeEntry),
    f.body = .readData d seals → s.takes k f →
    (s.fab.txns.find? fun t => decide (t.tag = f.tag)) = some ⟨tg, nd, .fetch e id⟩ → s.entryOf e id = some m →
    badSpans (firstSpan f.offset) d seals ≠ [] →
    Runs (.readData k f) s fun t =>
      t.stream = { s.stream with entries := s.stream.entries.map fun y =>
        if y.id = id then { y with err := some .SEAL_CARRIED } else y } ∧
      Raised .SEAL_CARRIED s t ∧ Counted R.NOSE.SEAL_FAILS 1 s t ∧ Alters (Part.err ++ [Part.stream, Part.nose, Part.fab]) s t) ∧
  (∀ (s : State) (k : Fin 48) (f : Frame) (c : Nat) (x : Txn), f.body = .readErr c → s.takes k f →
    (s.fab.txns.find? fun t => decide (t.tag = f.tag)) = some x →
    Runs (.readErr k f) s fun t =>
      t = ((s.acceptFrame k f).takeTxn f.tag).2.endTxn x (errOfCode c) false ∧
      Alters (Part.err ++ [Part.tile, Part.mem, Part.stream, Part.queue, Part.sig, Part.nose, Part.coll, Part.fab, Part.power, Part.host]) s t) ∧
  (∀ (s : State) (k : Fin 48) (f : Frame) (c : Nat) (x : Txn), f.body = .writeErr c → s.takes k f →
    (s.fab.txns.find? fun t => decide (t.tag = f.tag)) = some x →
    Runs (.writeErr k f) s fun t =>
      t = ((s.acceptFrame k f).takeTxn f.tag).2.endTxn x (errOfCode c) false ∧
      Alters (Part.err ++ [Part.tile, Part.mem, Part.stream, Part.queue, Part.sig, Part.nose, Part.coll, Part.fab, Part.power, Part.host]) s t) ∧
  (∀ (s : State) (k : Fin 48) (f : Frame) (c : Nat) (x : Txn), f.body = .unreach c → s.takes k f →
    (∀ m ∈ s.fab.msgs, m.tag ≠ f.tag) → (s.fab.txns.find? fun t => decide (t.tag = f.tag)) = some x →
    Runs (.unreach k f) s fun t =>
      t = ((s.acceptFrame k f).takeTxn f.tag).2.endTxn x (errOfCode c) true ∧
      Alters (Part.err ++ [Part.tile, Part.mem, Part.stream, Part.queue, Part.sig, Part.nose, Part.coll, Part.fab, Part.power, Part.host]) s t) ∧
  (∀ (s : State) (k : Fin 48) (f : Frame) (tg nd n : Nat) (o : Owner), f.body = .writeAck → s.takes k f →
    (s.fab.txns.find? fun t => decide (t.tag = f.tag)) = some ⟨tg, nd, .write o n⟩ → s.stream.posts = [] →
    Runs (.writeAck k f) s fun t =>
      t.fab.txns = s.fab.txns.filter (fun x => decide (x.tag ≠ f.tag)) ∧
      (let last := (t.fab.txns.any fun x => decide (x.kind = .write o n)) = false
       (t.q o.queue).flights = (if last then ((s.q o.queue).flights.map fun g =>
         if g.idx = o.idx then { g with left := g.left - 1 } else g) else (s.q o.queue).flights) ∧
       t.stream = if last then { s.stream with held := Cells.put 0 s.stream.held o.queue (Cells.get 0 s.stream.held o.queue - 1) }
         else s.stream) ∧
      Alters [.cells, .stream, .queue, .fab, .out] s t) ∧
  (∀ (s : State) (k : Fin 48) (f : Frame) (d : List Byte) (seals : List Word) (n : Nat), f.body = .write d seals n →
    s.takes k f → s.checkAccess .remote true f.offset d.length = none →
    let x := (s.acceptFrame k f).sealedWrite none .remote f.offset n d (badSpans n d seals)
    Runs (.writeFrame k f) s fun t =>
      t = x.1.answerWrite f x.2 ∧
      (∀ a : Nat, ¬ s.storesTo f.offset d.length a → Cells.find t.mem.bytes a = Cells.find s.mem.bytes a) ∧
      Alters (Part.err ++ [Part.memBytes, Part.mem, Part.nose, Part.fab, Part.power]) s t) ∧
  (∀ (s : State) (k : Fin 48) (f : Frame) (d : List Byte) (seals : List Word) (n pg : Nat) (er : Err), f.body = .write d seals n →
    s.takes k f → s.checkAccess .remote true f.offset d.length = some (er, pg) →
    Runs (.writeFrame k f) s fun t =>
      t = ((s.acceptFrame k f).raise pg er).answerWrite f (some er) ∧ t.mem = s.mem ∧
      Alters (Part.err ++ [Part.memBytes, Part.mem, Part.nose, Part.fab, Part.power]) s t) ∧
  (∀ (s : State) (k : Fin 48) (f : Frame) (d : List Byte) (seals : List Word) (n src : Nat) (p : Place),
    f.body = .moveData d seals n src → s.takes k f → (s.place f.offset).toOption = some p →
    ((s.gran p.gran).st = 1 ∧ Cells.get none s.fab.moveIn p.gran = some (f.src, src) ∨ s.checkPlace .remote true p = none ∧
      ¬ ((s.gran p.gran).st = 2 ∧ Cells.get none s.fab.moveIn p.gran = some (f.src, src) ∧ p.key % granBytes ≠ 0)) →
    badSpans n d seals = [] →
    ((((s.acceptFrame k f).openMove p (f.src, src)).1.writeRuns none (granRuns f.offset d.length) d).2 = none) →
    Runs (.moveData k f) s fun t =>
      t.gran p.gran = { s.gran p.gran with st := 1 } ∧ Cells.get none t.fab.moveIn p.gran = some (f.src, src) ∧
      (∀ a : Nat, ¬ s.storesTo f.offset d.length a → Cells.find t.mem.bytes a = Cells.find s.mem.bytes a) ∧
      Alters (Part.err ++ [Part.memBytes, Part.mem, Part.nose, Part.fab, Part.power]) s t) ∧
  (∀ (s : State) (k : Fin 48) (f : Frame) (d : List Byte) (seals : List Word) (n src : Nat) (p : Place),
    f.body = .moveData d seals n src → s.takes k f → (s.place f.offset).toOption = some p →
    (s.gran p.gran).st = 1 → Cells.get none s.fab.moveIn p.gran = some (f.src, src) → badSpans n d seals ≠ [] →
    Runs (.moveData k f) s fun t =>
      (t.gran p.gran).st = 2 ∧ Raised .SEAL_CARRIED s t ∧
      (∀ a : Nat, ¬ s.storesTo f.offset d.length a → Cells.find t.mem.bytes a = Cells.find s.mem.bytes a) ∧
      Alters (Part.err ++ [Part.memBytes, Part.mem, Part.nose, Part.fab, Part.power]) s t) ∧
  (∀ (z : State) (q : Fin 64) (e : Nat) (x : StreamWork), z.atHead q e → let s := z.headFetched q
    cmdClass e = clsStream → cmdOp e = 1 →
    (s.streamChecks q e).toOption = some x → s.slotFree q (streamOf e) = true →
    Runs (.streamWrite q) z fun t =>
      ∀ a : Nat, (∀ c ∈ x.pieces x.starts, ¬ s.storesTo (adrOff x.dst + c.dst) (x.dstBytes c.n) a) →
        Cells.find t.mem.bytes a = Cells.find s.mem.bytes a)

/-- Messages are taken once and in order, and acknowledged (R365, R366, R387 to R389, R453): a repeated one is only
acknowledged again, one ahead of its turn is dropped. A verdict is recorded, held or stray; a release takes its granule HOME;
queries are answered; an acknowledgement ends its message, and one without an acknowledgement is sent again. The model's
reading: log entry 45. -/
def Obligations.MessagesAreTakenOnceInOrder : Prop :=
  (∀ (s : State) (k : Fin 48) (f : Frame) (inc seq part : Nat) (v : VerdictMsg), f.body = .msg inc seq part (.verdict v) →
    s.takes k f → s.receipt f.src inc seq = .again →
    let a := s.acceptFrame k f
    Runs (.verdictClean k f) s fun t =>
      t = a.answer f (.msgAck seq (if a.fab.refused.contains (f.src, seq) then 1 else 0)) ∧ t.nose = s.nose) ∧
  (∀ (s : State) (k : Fin 48) (f : Frame) (inc seq part : Nat) (v : VerdictMsg), f.body = .msg inc seq part (.verdict v) →
    s.takes k f → s.receipt f.src inc seq = .drop →
    Runs (.verdictClean k f) s fun t => t = s.acceptFrame k f) ∧
  (∀ (s : State) (k : Fin 48) (f : Frame) (inc seq part : Nat) (v : VerdictMsg) (r : Run),
    f.body = .msg inc seq part (.verdict v) → s.takes k f → s.receipt f.src inc seq = .take → s.runOf part v.step = some r →
    v.tag = s.rd (R.NOSE.JOB_TAG part) → v.attempt = r.att →
    Runs (.verdictClean k f) s fun t =>
      t.nose.runs = s.nose.runs.map (fun x => if x.part = part ∧ x.step = v.step then
        { x with clean := (x.clean ++ [(f.src, v.part)]).eraseDups } else x) ∧
      t.receipt f.src inc seq = .again ∧ Alters (Part.err ++ [Part.nose, Part.fab]) s t) ∧
  (∀ (s : State) (k : Fin 48) (f : Frame) (inc seq part : Nat) (v : VerdictMsg) (r : Run),
    f.body = .msg inc seq part (.verdict v) → s.takes k f → s.receipt f.src inc seq = .take → s.runOf part v.step = some r →
    v.tag = s.rd (R.NOSE.JOB_TAG part) → v.attempt = r.att + 1 →
    Runs (.verdictClean k f) s fun t =>
      t.nose.runs = s.nose.runs.map (fun x => if x.part = r.part ∧ x.step = r.step then
        { x with held := x.held ++ [⟨3, f.src, v.part, v.step, v.attempt, v.cause, v.tag⟩] } else x) ∧
      Alters (Part.err ++ [Part.nose, Part.fab]) s t) ∧
  (∀ (s : State) (k : Fin 48) (f : Frame) (inc seq part : Nat) (v : VerdictMsg),
    f.body = .msg inc seq part (.verdict v) → s.takes k f → s.receipt f.src inc seq = .take → s.runOf part v.step = none →
    Runs (.verdictClean k f) s fun t =>
      t.nose = s.nose ∧ Counted R.NOSE.STRAY 1 s t ∧ Alters (Part.err ++ [Part.nose, Part.fab]) s t) ∧
  (∀ (s : State) (k : Fin 48) (f : Frame) (inc seq part : Nat) (v : VerdictMsg) (r : Run),
    f.body = .msg inc seq part (.retract v) → s.takes k f → s.receipt f.src inc seq = .take → s.runOf part v.step = some r →
    v.tag = s.rd (R.NOSE.JOB_TAG part) → v.attempt = r.att → s.stepActive part = true → part < 8 →
    Runs (.retraction k f) s fun t =>
      (∃ x ∈ t.nose.runs, x.part = part ∧ x.step = v.step ∧ x.mark.isSome = true) ∧ Counted R.NOSE.RETRACTS_RECV 1 s t ∧
      Raised .RETRACTED s t ∧ Alters (Part.err ++ [Part.nose, Part.fab]) s t) ∧
  (∀ (s : State) (k : Fin 48) (f : Frame) (inc seq part nd src dst : Nat) (p : Place),
    f.body = .msg inc seq part (.release nd src dst) →
    s.takes k f → s.receipt f.src inc seq = .take → (s.place dst).toOption = some p → (s.gran p.gran).st = 1 →
    Cells.get none s.fab.moveIn p.gran = some (nd, src) →
    Runs (.moveRelease k f) s fun t =>
      t.gran p.gran = { s.gran p.gran with st := 2 } ∧ Cells.get none t.fab.moveIn p.gran = none ∧
      t.receipt f.src inc seq = .again ∧ Alters (Part.err ++ [Part.mem, Part.fab]) s t) ∧
  (∀ (s : State) (k : Fin 48) (f : Frame) (inc seq part nd src dst : Nat) (p : Place),
    f.body = .msg inc seq part (.release nd src dst) →
    s.takes k f → s.receipt f.src inc seq = .take → (s.place dst).toOption = some p →
    ¬((s.gran p.gran).st = 1 ∧ Cells.get none s.fab.moveIn p.gran = some (nd, src)) →
    let a := (s.acceptFrame k f).noteMsg f.src inc seq
    Runs (.moveRelease k f) s fun t =>
      t = a.ackMsg f seq (if (s.gran p.gran).st = 2 then 0 else 1) ∧ t.mem = s.mem) ∧
  (∀ (s : State) (k : Fin 48) (f : Frame) (inc seq part nd src dst : Nat), f.body = .msg inc seq part (.release nd src dst) →
    s.takes k f → s.receipt f.src inc seq = .take → (s.place dst).toOption = none →
    Runs (.moveRelease k f) s fun t =>
      t = ((s.acceptFrame k f).noteMsg f.src inc seq).ackMsg f seq 1 ∧ (f.src, seq) ∈ t.fab.refused) ∧
  (∀ (s : State) (k : Fin 48) (f : Frame) (inc seq part src dst : Nat), f.body = .msg inc seq part (.query src dst) →
    s.takes k f → s.receipt f.src inc seq = .take →
    let a := (s.acceptFrame k f).noteMsg f.src inc seq
    Runs (.releaseQuery k f) s fun t =>
      t = (a.takeQuery f.src src dst).ackMsg f seq 0 ∧
      Alters (Part.err ++ [Part.mem, Part.fab]) s t) ∧
  (∀ (s : State) (k : Fin 48) (f : Frame) (inc seq part dst n : Nat) (home : Bool), f.body = .msg inc seq part (.answer dst home) →
    s.takes k f → s.receipt f.src inc seq = .take → Cells.get none s.fab.moveIn (dst / granBytes) = some (f.src, n) →
    (s.gran (dst / granBytes)).st = 1 →
    Runs (.releaseQuery k f) s fun t =>
      t.gran (dst / granBytes) = (if home then { s.gran (dst / granBytes) with st := 2 } else ⟨0, 0⟩) ∧
      dst / granBytes ∉ t.fab.held ∧ Alters (Part.err ++ [Part.mem, Part.fab]) s t) ∧
  (∀ (s : State) (k : Fin 48) (f : Frame) (inc seq part l mine tx rx : Nat), f.body = .msg inc seq part (.ledgerQuery l mine tx rx) →
    s.takes k f → s.receipt f.src inc seq = .take →
    let a := (s.acceptFrame k f).noteMsg f.src inc seq
    Runs (.ledgerQuery k f) s fun t =>
      t = (a.sendMsg none f.src 0xFF (.ledgerReply mine (s.ledgerOf l).downRx (s.ledgerOf l).downFreed)).ackMsg f seq 0 ∧
      Alters (Part.err ++ [Part.fab]) s t) ∧
  (∀ (s : State) (k : Fin 48) (f : Frame) (inc seq part l rx fr : Nat), f.body = .msg inc seq part (.ledgerReply l rx fr) →
    s.takes k f → s.receipt f.src inc seq = .take →
    Runs (.ledgerReply k f) s fun t =>
      (t.ledgerOf l).answered = true ∧ (t.ledgerOf l).lost = (s.ledgerOf l).atFused.1 - rx ∧
      ((s.ledgerOf l).atFused.1 < rx → Raised .LEDGER_RECON s t) ∧ Alters (Part.err ++ [Part.fab]) s t) ∧
  (∀ (s : State) (k : Fin 48) (f : Frame) (seq c : Nat) (m : OutMsg), f.body = .msgAck seq c → s.takes k f →
    (s.fab.msgs.find? fun m => decide (m.node = f.src ∧ m.seq = seq)) = some m →
    (∀ src ∈ [m.msg], (match src with | .release _ _ _ | .leave _ => false | _ => true) = true) →
    Runs (.msgAck k f) s fun t =>
      t = ((s.acceptFrame k f).onFab fun x => { x with msgs := x.msgs.erase m }).pumpMsgs f.src 16 ∧
      Alters (Part.err ++ [Part.queue, Part.fab]) s t) ∧
  (∀ (s : State) (k : Fin 48) (f : Frame) (seq c nd src dst : Nat) (m : OutMsg), f.body = .msgAck seq c → s.takes k f →
    (s.fab.msgs.find? fun m => decide (m.node = f.src ∧ m.seq = seq)) = some m →
    m.msg = .release nd src dst →
    Runs (.msgAck k f) s fun t =>
      t = (((s.acceptFrame k f).onFab fun x => { x with msgs := x.msgs.erase m }).endRelease f.src nd src dst (c = 1)).pumpMsgs
        f.src 16 ∧
      Alters (Part.err ++ [Part.queue, Part.fab]) s t) ∧
  (∀ (s : State) (k : Fin 48) (f : Frame) (seq c n : Nat) (m : OutMsg), f.body = .msgAck seq c → s.takes k f →
    (s.fab.msgs.find? fun m => decide (m.node = f.src ∧ m.seq = seq)) = some m → m.msg = .leave n →
    f.src = s.rd R.MOD.FAB_REGISTRAR → s.rd R.MOD.FAB_STAT.STATE = 4 →
    Runs (.msgAck k f) s fun t =>
      t.rd R.MOD.FAB_NODE.JOINED = 0 ∧ t.rd R.MOD.FAB_STAT.STATE = 0 ∧ Alters (Part.err ++ [Part.queue, Part.fab]) s t) ∧
  (∀ (s : State) (n : BitVec 16) (seq b : Nat) (m : OutMsg),
    (s.fab.msgs.find? fun m => decide (m.node = n.toNat ∧ m.seq = seq)) = some m → m.sent = some b → s.joined = true →
    b + s.retx ≤ s.now →
    Runs (.msgResend n seq) s fun t =>
      { m with sent := some s.now } ∈ t.fab.msgs ∧ Counted R.MOD.MSG_RESENT 1 s t ∧ Alters [.cells, .fab, .out] s t)

/-! ### Power -/

/-- Every window books its readings (R402, R408); a removed cap lets the fraction go (R417, R418); a cassette counts once it
has soft-started, and one that is lost lowers SUPPLY_CEIL, parks the wafer at two and starts Drydown at one (R403 to R405,
R413). The model's reading: log entries 50, 51, 53. -/
def Obligations.WindowsCapsAndCassettes : Prop :=
  (∀ (s : State) (w : PowerWindow), s.time % windowTicks = 0 → s.modState ≠ 0 →
    Runs (.powerWindow w) s fun t =>
      t.rd R.PWR.P_MOD = w.pMod % 2 ^ 32 ∧ t.rd R.PWR.P_PEAK = w.pPeak % 2 ^ 32 ∧
      t.rd R.PWR.STAT.HOLDUP_OK = w.holdup.toNat ∧ Alters (Part.err ++ [Part.clk, Part.power, Part.life]) s t) ∧
  (∀ (s : State) (p : Path), s.reaches p R.PWR.CAP_CFG.RELEASE.addr none →
    let u := s.taken p R.PWR.CAP_CFG.RELEASE.addr 4
    u.clk.capCeil.isSome = true → u.daxvoEmerg = false →
    Runs (.capRelease p) s fun t =>
      t.clk.capCeil = none ∧ t.rd R.PWR.STAT.CAP_ACTIVE = 0 ∧
      t.clk.pending = some ⟨false, emergFrac (u.rd R.CLK.EMERG_CTRL.FRAC), u.time + 4, 1⟩ ∧ t.power.overs = 0 ∧
      Alters [.cells, .clk, .power] u t) ∧
  (∀ (s : State) (i : Fin 14), (s.rd R.PWR.CASS_MAP.PRESENT).testBit i = false →
    Runs (.cassetteInsert i true) s fun t =>
      t.rd R.PWR.CASS_MAP.PRESENT = (s.rd R.PWR.CASS_MAP.PRESENT ||| 2 ^ i.val) % 2 ^ 14 ∧
      Cells.get 0 t.power.inserted i = s.now + 1 ∧ Confined [.power] [R.PWR.CASS_MAP.PRESENT] s t) ∧
  (∀ (s : State) (i : Fin 14), (s.rd R.PWR.CASS_MAP.PRESENT).testBit i = false →
    Runs (.cassetteInsert i false) s fun t =>
      t.rd R.PWR.CASS_MAP.PRESENT = (s.rd R.PWR.CASS_MAP.PRESENT ||| 2 ^ i.val) % 2 ^ 14 ∧
      t.power.inserted = s.power.inserted ∧ t.power.cassRefused.testBit i = true ∧
      Raised .CASS_REFUSED s t ∧ t.inserts (partCass i) = s.inserts (partCass i) + 1 ∧
      Confined (Part.err ++ [Part.power]) (R.PWR.CASS_MAP.PRESENT :: errFields pgPWR .CASS_REFUSED Err.CASS_REFUSED.cls) s t) ∧
  (∀ (s : State) (i : Fin 14) (mv : Int), 44000 ≤ mv → mv ≤ 60000 → Cells.get 0 s.power.inserted i ≠ 0 → Cells.get 0 s.power.inserted i + softStart ≤ s.now + 1 →
    (s.rd R.PWR.CASS_MAP.HEALTHY).testBit i = false →
    let m := s.rd R.PWR.CASS_MAP.HEALTHY ||| 2 ^ i.val
    Runs (.cassetteHealthy i mv) s fun t =>
      t.rd R.PWR.CASS_MAP.HEALTHY = m % 2 ^ 14 ∧ t.rd R.PWR.STAT.CASS_OK = maskCount 14 m ∧
      t.rd R.PWR.SUPPLY_CEIL = supplyCeil (maskCount 14 m) ∧
      (s.power.cassNew.testBit i = true → t.inserts (partCass i) = s.inserts (partCass i) + 1) ∧
      (s.power.cassNew.testBit i = false → t.inserts (partCass i) = s.inserts (partCass i)) ∧
      Alters (Part.err ++ [Part.power]) s t) ∧
  (∀ (s : State) (i : Fin 14) (mv : Int), (mv < 44000 ∨ 60000 < mv) → Runs (.cassetteHealthy i mv) s fun t => t = s) ∧
  (∀ (s : State) (lost removed gained : BitVec 14) (bus : Option (Nat × Nat)), (bus.any fun b => busOut b.1 b.2) = false →
    let a := s.loseCassettes lost.toNat removed.toNat gained.toNat
    2 < a.healthy →
    Runs (.cassetteRemove lost removed gained bus) s fun t =>
      t = a ∧ (∀ i ∈ List.range 14, (lost ||| removed).toNat.testBit i = true → Cells.get 0 t.power.inserted i = 0) ∧
      t.rd R.PWR.SUPPLY_CEIL = supplyCeil a.healthy ∧ Alters (Part.err ++ [Part.power]) s t) ∧
  (∀ (s : State) (lost removed gained : BitVec 14) (bus : Option (Nat × Nat)), (bus.any fun b => busOut b.1 b.2) = false →
    let a := s.loseCassettes lost.toNat removed.toNat gained.toNat
    a.healthy = 2 → 2 < s.healthy →
    Runs (.cassetteRemove lost removed gained bus) s fun t =>
      t = a.forcedPark ∧ t.rd R.PWR.STAT.FORCED_PARK = ((List.range 8).any s.partValid).toNat ∧
      Alters (Part.err ++ [Part.tile, Part.queue, Part.sig, Part.nose, Part.fab, Part.power, Part.life]) s t) ∧
  (∀ (s : State) (lost removed gained : BitVec 14) (bus : Option (Nat × Nat)), (bus.any fun b => busOut b.1 b.2) = false →
    let a := s.loseCassettes lost.toNat removed.toNat gained.toNat
    a.healthy ≤ 1 → a.healthy < s.healthy → s.modState ≠ 0 → s.modState ≠ 7 →
    Runs (.cassetteRemove lost removed gained bus) s fun t =>
      t.rd R.MOD.STATE = 7 ∧ t.power.dry.isSome = true ∧
      Alters (Part.err ++ [Part.tile, Part.queue, Part.sig, Part.nose, Part.fab, Part.power, Part.life]) s t) ∧
  (∀ (s : State) (lost removed gained : BitVec 14) (mv ticks : Nat),
    (mv = 0 ∨ mv < 44000 ∧ 1562500 ≤ ticks ∨ 60000 < mv ∧ 15625 ≤ ticks) → s.modState ≠ 0 → s.modState ≠ 7 →
    Runs (.cassetteRemove lost removed gained (some (mv, ticks))) s fun t =>
      t.rd R.MOD.STATE = 7 ∧ t.power.dry.isSome = true ∧
      (∀ i ∈ List.range 14, Cells.get 0 t.power.inserted i = 0 ∧
        (Cells.get 0 s.power.inserted i ≠ 0 → (t.rd R.PWR.CASS_MAP.HEALTHY).testBit i = false)) ∧
      Alters (Part.err ++ [Part.fab, Part.power, Part.life]) s t)

/-- R416: at every window boundary, and when SUPPLY_CEIL changes as a cassette becomes healthy or is lost, CEIL_EFF is the
least of ENV_SET + ENV_TOL, SUPPLY_CEIL and THERM_CEIL. -/
def Obligations.TheEffectiveCeilingIsRecomputed : Prop :=
  (∀ (s : State) (w : PowerWindow), s.time % windowTicks = 0 → s.modState ≠ 0 →
    Runs (.powerWindow w) s fun t =>
      t.rd R.PWR.CEIL_EFF =
        min (t.rd R.PWR.ENV_SET + t.rd R.PWR.ENV_TOL) (min (t.rd R.PWR.SUPPLY_CEIL) (t.rd R.PWR.THERM_CEIL)) % 2 ^ 16) ∧
  (∀ (s : State) (i : Fin 14) (mv : Int), 44000 ≤ mv → mv ≤ 60000 → Cells.get 0 s.power.inserted i ≠ 0 →
    Cells.get 0 s.power.inserted i + softStart ≤ s.now + 1 → (s.rd R.PWR.CASS_MAP.HEALTHY).testBit i = false →
    Runs (.cassetteHealthy i mv) s fun t =>
      t.rd R.PWR.CEIL_EFF =
        min (t.rd R.PWR.ENV_SET + t.rd R.PWR.ENV_TOL) (min (t.rd R.PWR.SUPPLY_CEIL) (t.rd R.PWR.THERM_CEIL)) % 2 ^ 16) ∧
  (∀ (s : State) (lost removed gained : BitVec 14) (bus : Option (Nat × Nat)),
    Runs (.cassetteRemove lost removed gained bus) s fun t =>
      t.rd R.PWR.CEIL_EFF =
        min (t.rd R.PWR.ENV_SET + t.rd R.PWR.ENV_TOL) (min (t.rd R.PWR.SUPPLY_CEIL) (t.rd R.PWR.THERM_CEIL)) % 2 ^ 16)

/-- Rails and core domains (R400, R401, R406, R407, R409, R410): a rail that fails is off, whatever the module does next; a
phase failure is spared once; a domain fault switches its rail off and retires its rows; a sensor that reads wrong is
excluded; a droop marks what runs there; a margin lost is raised when it begins. The model's reading: log entries 52, 53. -/
def Obligations.RailsAndDomainsFail : Prop :=
  (∀ (s : State) (r : Rail), s.modState ≠ 0 → s.railOn r = true →
    (∀ d ∈ List.finRange 84, r = .vcore d → s.rd (R.PDOM.STAT.STATE d) ≠ 4) →
    Runs (.railFail r) s fun t =>
      t.railOn r = false ∧ (s.modState = 7 → Raised .DD_RAIL_FAIL s t) ∧
      Alters (Part.err ++ [Part.clk, Part.tile, Part.mem, Part.stream, Part.queue, Part.sig, Part.nose, Part.coll, Part.fab,
        Part.part, Part.power, Part.mgmt, Part.life, Part.host]) s t) ∧
  (∀ (s : State) (d : Fin 84), s.railOn (.vcore d) = true → s.on (R.PDOM.STAT.SPARE_USED d) = false →
    Runs (.phaseFail d) s fun t =>
      t.rd (R.PDOM.STAT.SPARE_USED d) = 1 ∧ t.rd (R.PDOM.STAT.PHASES_OK d) = (s.rd (R.PDOM.STAT.PHASES_OK d) - 1) % 16 ∧
      Counted (R.PDOM.PHASE_FAILS d) 1 s t ∧ Raised .PHASE_SPARED s t ∧
      Confined Part.err ([R.PDOM.STAT.SPARE_USED d, R.PDOM.STAT.PHASES_OK d, R.PDOM.PHASE_FAILS d, (R.PDOM.PHASE_FAILS d).ovf] ++
        errFields (pgPDOM d) .PHASE_SPARED Err.PHASE_SPARED.cls) s t) ∧
  (∀ (s : State) (d : Fin 84), s.railOn (.vcore d) = true → s.on (R.PDOM.STAT.SPARE_USED d) = true →
    s.rd (R.PDOM.STAT.STATE d) ≠ 4 →
    Runs (.phaseFail d) s fun t =>
      t.railOn (.vcore d) = false ∧ t.rd (R.PDOM.STAT.STATE d) = 4 ∧ Raised .DOMAIN_FAULT s t ∧
      Alters (Part.err ++ [Part.clk, Part.tile, Part.mem, Part.queue, Part.sig, Part.nose, Part.part, Part.power]) s t) ∧
  (∀ (s : State) (d : Fin 84) (r : DomainReading), s.railOn (.vcore d) = true → domainFaulty r = true →
    s.rd (R.PDOM.STAT.STATE d) ≠ 4 →
    Runs (.domainFault d r) s fun t =>
      t.railOn (.vcore d) = false ∧ t.rd (R.PDOM.STAT.STATE d) = 4 ∧
      (∀ r ∈ domRows d, t.on (R.SPARE.ROWMAP.RETIRED r) = true) ∧ Raised .DOMAIN_FAULT s t ∧
      Alters (Part.err ++ [Part.clk, Part.tile, Part.mem, Part.queue, Part.sig, Part.nose, Part.part, Part.power]) s t) ∧
  (∀ (s : State) (d : Fin 84) (i : Fin 16) (v n : Nat), s.railOn (.vcore d) = true →
    (s.rd (R.PDOM.SENSOR_EXCL d)).testBit i = false → s.excludes d i v n = true → 12 < (s.validSensors d).length →
    Runs (.sensorExclusion d i v n) s fun t =>
      t.rd (R.PDOM.SENSOR_EXCL d) = (s.rd (R.PDOM.SENSOR_EXCL d) ||| 2 ^ i.val) % 2 ^ 16 ∧
      Counted (R.PDOM.SENSOR_EXCLS d) 1 s t ∧ Raised .SENSOR_EXCLUDED s t ∧
      Confined Part.err ([senseFld d i, R.PDOM.SENSOR_EXCL d, R.PDOM.SENSOR_EXCLS d, (R.PDOM.SENSOR_EXCLS d).ovf] ++
        errFields (pgPDOM d) .SENSOR_EXCLUDED Err.SENSOR_EXCLUDED.cls) s t) ∧
  (∀ (s : State) (d : Fin 84) (v n : Nat), s.railOn (.vcore d) = true →
    v + s.rd (R.PDOM.DROOP_CFG.DROOP_MV d) < s.domTarget d → max 1 (s.rd (R.PDOM.DROOP_CFG.TICKS d)) ≤ n → s.domKeeps d = true →
    Runs (.droop d v n) s fun t =>
      t.rd (R.PDOM.STAT.DROOP d) = 1 ∧ Counted (R.PDOM.DROOPS d) 1 s t ∧ Raised .VDROOP s t ∧
      Alters (Part.err ++ [Part.nose]) s t) ∧
  (∀ (s : State) (d : Fin 84) (v m : Nat) (i : Fin 16), s.railOn (.vcore d) = true →
    let low := decide (900 ≤ v ∧ m + 10 < s.domTarget d)
    Runs (.domainMargin d v m i) s fun t =>
      t.rd (R.PDOM.VOUT.OUT_MV d) = v % 2 ^ 10 ∧ t.rd (R.PDOM.VOUT.MIN_MV d) = m % 2 ^ 10 ∧ t.rd (R.PDOM.VOUT.MIN_IDX d) = i ∧
      t.rd (R.PDOM.STAT.MARGIN d) = low.toNat ∧
      (low = true → s.on (R.PDOM.STAT.MARGIN d) = false → Raised .DOMAIN_MARGIN s t) ∧ Alters Part.err s t)

/-- Sheds and parks (R410 to R414): a shed is ordered for its epoch, takes effect there at fraction 2, and freezes once every
domain has come down; a restore waits for the other sources and unfreezes when the domains are back; a quiet partition parks
and unparks, neither while the module is shed, and regions at park fall back into self-refresh. The model's reading: log entries
13, 49, 111. -/
def Obligations.ShedsAndParks : Prop :=
  (∀ (s : State) (p : Path), s.reaches p R.PWR.SHED_CTRL.GO.addr none →
    let u := s.taken p R.PWR.SHED_CTRL.GO.addr 4
    (u.rd R.PWR.SHED_STAT).testBit 0 = false → u.rd R.PWR.STAT.SHED ≠ 1 → u.rd R.PWR.STAT.SHED ≠ 2 → u.power.shedAt = none →
    u.time < u.rd R.PWR.SHED_EPOCH →
    Runs (.shed p) s fun t =>
      (t.rd R.PWR.SHED_STAT).testBit 0 = true ∧ t.power.shedAt = some (u.rd R.PWR.SHED_EPOCH) ∧
      t.power.freezeAt = some (u.rd R.PWR.SHED_EPOCH + u.rd R.PWR.SHED_DELAY) ∧
      Confined [.power] [R.PWR.SHED_CTRL.OP, R.PWR.SHED_STAT] u t) ∧
  (∀ (s : State) (p : Path), s.reaches p R.PWR.SHED_CTRL.GO.addr none →
    let u := s.taken p R.PWR.SHED_CTRL.GO.addr 4
    (u.rd R.PWR.SHED_STAT).testBit 0 = false → u.rd R.PWR.STAT.SHED ≠ 1 → u.rd R.PWR.STAT.SHED ≠ 2 → u.power.shedAt = none →
    u.rd R.PWR.SHED_EPOCH = 0 →
    Runs (.shed p) s fun t =>
      t.rd R.PWR.STAT.SHED = 1 ∧ Counted R.PWR.SHEDS 1 u t ∧ t.power.shedAt = none ∧
      t.power.freezeAt = some (u.time + u.rd R.PWR.SHED_DELAY) ∧ t.clk.frac = 2 ∧ Alters (Part.err ++ [Part.clk, Part.power]) u t) ∧
  (∀ (s : State) (n : Nat), s.power.shedAt = some n → n ≤ s.time →
    Runs .shedEpoch s fun t =>
      t.rd R.PWR.STAT.SHED = 1 ∧ Counted R.PWR.SHEDS 1 s t ∧ t.power.shedAt = none ∧ t.clk.frac = 2 ∧
      Alters [.cells, .clk, .msix, .power, .out] s t) ∧
  (∀ (s : State) (n : Nat), s.rd R.PWR.STAT.SHED = 1 → s.power.shedAt = none → s.power.freezeAt = some n → n ≤ s.time →
    (∀ r ∈ List.range 24, (s.rowFrac r).eff ≤ 2) →
    Runs .shedFreeze s fun t =>
      t.rd R.PWR.STAT.SHED = 2 ∧ t.power.frozen = true ∧ Alters [.cells, .msix, .power, .out] s t) ∧
  (∀ (s : State) (p : Path), s.reaches p R.PWR.SHED_CTRL.GO.addr none →
    let u := s.taken p R.PWR.SHED_CTRL.GO.addr 4
    u.rd R.PWR.SHED_STAT / 2 = 0 →
    Runs (.restore p) s fun t =>
      t.rd R.PWR.SHED_STAT = 0 ∧ t.power.shedAt = none ∧
      (u.rd R.PWR.STAT.SHED = 1 ∨ u.rd R.PWR.STAT.SHED = 2 → t.rd R.PWR.STAT.SHED = 3) ∧ Alters (Part.err ++ [Part.power]) u t) ∧
  (∀ (s : State) (p : Path), s.reaches p R.PWR.SHED_CTRL.GO.addr none →
    let u := s.taken p R.PWR.SHED_CTRL.GO.addr 4
    u.rd R.PWR.SHED_STAT / 2 ≠ 0 →
    Runs (.restore p) s fun t =>
      Raised .SHED_REFUSED u t ∧ t.power = u.power ∧
      Confined Part.err (R.PWR.SHED_CTRL.OP :: errFields pgPWR .SHED_REFUSED Err.SHED_REFUSED.cls) u t) ∧
  (∀ (s : State), s.rd R.PWR.STAT.SHED = 3 → s.steered = true →
    Runs .restoreUnfreeze s fun t =>
      t.rd R.PWR.STAT.SHED = 0 ∧ t.power.frozen = false ∧ Alters (Part.err ++ [Part.clk, Part.power]) s t) ∧
  (∀ (s : State) (p : Path) (part : Fin 8), s.reaches p R.PWR.PARK_CTRL.GO.addr none →
    let u := s.taken p R.PWR.PARK_CTRL.GO.addr 4
    u.rd R.PWR.STAT.SHED = 0 → u.partRead part = 5 → (u.rd R.PWR.PARK_STAT.PARKED).testBit part = false →
    Runs (.park p part) s fun t =>
      (t.rd R.PWR.PARK_STAT.PARKED).testBit part = true ∧ t.power.parking.testBit part = true ∧
      Alters (Part.err ++ [Part.tile, Part.power]) u t) ∧
  (∀ (s : State) (p : Path) (part : Fin 8), s.reaches p R.PWR.PARK_CTRL.GO.addr none →
    let u := s.taken p R.PWR.PARK_CTRL.GO.addr 4
    u.rd R.PWR.STAT.SHED = 0 → u.partRead part ≠ 5 →
    Runs (.park p part) s fun t =>
      Raised .PARK_REFUSED u t ∧ Confined Part.err ([R.PWR.PARK_CTRL.PART, R.PWR.PARK_CTRL.OP] ++
        errFields pgPWR .PARK_REFUSED Err.PARK_REFUSED.cls) u t) ∧
  (∀ (s : State) (p : Path) (part : Fin 8), s.reaches p R.PWR.PARK_CTRL.GO.addr none →
    let u := s.taken p R.PWR.PARK_CTRL.GO.addr 4
    u.rd R.PWR.STAT.SHED ≠ 0 →
    Runs (.park p part) s fun t =>
      Raised .SHED_REFUSED u t ∧ Confined Part.err ([R.PWR.PARK_CTRL.PART, R.PWR.PARK_CTRL.OP] ++
        errFields pgPWR .SHED_REFUSED Err.SHED_REFUSED.cls) u t) ∧
  (∀ (s : State) (part : Fin 8), s.power.parking.testBit part = true →
    Runs (.parkComplete part) s fun t =>
      t.power.parking.testBit part = false ∧ Counted R.PWR.PARKS 1 s t ∧
      Confined [.power] [R.PWR.PARKS, R.PWR.PARKS.ovf] s t) ∧
  (∀ (s : State) (p : Path) (part : Fin 8), s.reaches p R.PWR.PARK_CTRL.GO.addr none →
    let u := s.taken p R.PWR.PARK_CTRL.GO.addr 4
    u.rd R.PWR.STAT.SHED = 0 → (u.rd R.PWR.PARK_STAT.PARKED).testBit part = true →
    ((u.rd R.PWR.PARK_STAT.FORCED).testBit part = false ∨ 3 ≤ u.healthy) →
    Runs (.unpark p part) s fun t =>
      (t.rd R.PWR.PARK_STAT.PARKED).testBit part = false ∧ (t.rd R.PWR.PARK_STAT.FORCED).testBit part = false ∧
      t.power.parking.testBit part = false ∧ Alters (Part.err ++ [Part.power]) u t) ∧
  (∀ (s : State) (p : Path) (part : Fin 8), s.reaches p R.PWR.PARK_CTRL.GO.addr none →
    let u := s.taken p R.PWR.PARK_CTRL.GO.addr 4
    u.rd R.PWR.STAT.SHED ≠ 0 →
    Runs (.unpark p part) s fun t =>
      Raised .SHED_REFUSED u t ∧ Confined Part.err ([R.PWR.PARK_CTRL.PART, R.PWR.PARK_CTRL.OP] ++
        errFields pgPWR .SHED_REFUSED Err.SHED_REFUSED.cls) u t) ∧
  (∀ (s : State) (p : Path) (part : Fin 8), s.reaches p R.PWR.PARK_CTRL.GO.addr none →
    let u := s.taken p R.PWR.PARK_CTRL.GO.addr 4
    u.rd R.PWR.STAT.SHED = 0 → (u.rd R.PWR.PARK_STAT.PARKED).testBit part = true →
    (u.rd R.PWR.PARK_STAT.FORCED).testBit part = true → u.healthy < 3 →
    Runs (.unpark p part) s fun t =>
      Raised .PARK_REFUSED u t ∧ Confined Part.err ([R.PWR.PARK_CTRL.PART, R.PWR.PARK_CTRL.OP] ++
        errFields pgPWR .PARK_REFUSED Err.PARK_REFUSED.cls) u t) ∧
  (∀ (s : State) (n : Fin 960), Cells.get 0 s.power.awake n ≠ 0 → Cells.get 0 s.power.awake n + 1562 ≤ s.now →
    Runs (.selfRefreshReentry n) s fun t =>
      t = { s with power := { s.power with awake := Cells.put 0 s.power.awake n 0 } })

/-- Temperatures and coolant (R419 to R425): WARN lowers THERM_CEIL step by step, clears when it has settled, a shed reading
orders a shed, a trip starts Drydown; a coupling pair comes and goes; flow that is lost orders a shed and is restored after a
second. The model's reading: log entry 51. -/
def Obligations.ThermalAndFlowLevels : Prop :=
  (∀ (s : State) (r : Reading), s.atWarn r = true → s.rd R.PWR.STAT.THERM = 0 →
    Runs (.thermalWarn r) s fun t =>
      t.rd R.PWR.STAT.THERM = 1 ∧ Counted R.PWR.THERM_WARNS 1 s t ∧
      t.rd R.PWR.THERM_CEIL = (s.rd R.PWR.P_MOD * 9 / 10) % 2 ^ 16 ∧ t.power.warnAt = some s.now ∧ Raised .THERM_WARN s t ∧
      Alters (Part.err ++ [Part.power]) s t) ∧
  (∀ (s : State) (n : Nat), s.power.warnAt = some n → n + ticks100ms ≤ s.now →
    Runs .thermCeilStep s fun t =>
      t.rd R.PWR.THERM_CEIL = (s.rd R.PWR.THERM_CEIL - s.rd R.PWR.THERM_CEIL / 10) % 2 ^ 16 ∧
      t.power = { s.power with warnAt := some s.now } ∧ Confined [.power] [R.PWR.THERM_CEIL] s t) ∧
  (∀ (s : State), s.rd R.PWR.STAT.THERM ≠ 0 →
    Runs (.thermalClear true) s fun t =>
      t.rd R.PWR.STAT.THERM = 0 ∧ t.rd R.PWR.THERM_CEIL = 34000 ∧ (t.rd R.PWR.SHED_STAT).testBit 2 = false ∧
      t.power = { s.power with warnAt := none } ∧ Alters [.cells, .msix, .power, .out] s t) ∧
  (∀ (s : State), s.rd R.PWR.STAT.THERM ≠ 0 →
    Runs (.thermalClear false) s fun t =>
      t.rd R.PWR.STAT.THERM = 1 ∧ t.rd R.PWR.THERM_CEIL = s.rd R.PWR.THERM_CEIL ∧
      (t.rd R.PWR.SHED_STAT).testBit 2 = false ∧ t.power = { s.power with warnAt := none } ∧
      Alters [.cells, .msix, .power, .out] s t) ∧
  (∀ (s : State) (r : Reading), (s.levels r).shed ≤ readingValue r → s.rd R.PWR.STAT.THERM ≠ 2 →
    Runs (.thermalShed r) s fun t =>
      t.rd R.PWR.STAT.THERM = 2 ∧ Raised .THERM_SHED s t ∧ (t.rd R.PWR.SHED_STAT).testBit 2 = true ∧
      Alters (Part.err ++ [Part.clk, Part.power]) s t) ∧
  (∀ (s : State) (r : Reading), s.modState ≠ 0 → s.modState ≠ 7 → (s.levels r).trip ≤ readingValue r →
    Runs (.thermalTrip r) s fun t =>
      t.rd R.MOD.STATE = 7 ∧ t.life.trips = s.life.trips + 1 ∧ Raised .THERM_TRIP s t ∧
      t.rd R.PWR.DD_LAST.CAUSE = Err.THERM_TRIP.code ∧
      (s.rd R.PWR.STAT.THERM ≠ 2 → t.rd R.PWR.STAT.THERM = 2 ∧ (t.rd R.PWR.SHED_STAT).testBit 2 = true ∧
        Raised .THERM_SHED s t) ∧
      Alters (Part.err ++ [Part.clk, Part.fab, Part.power, Part.life]) s t) ∧
  (∀ (s : State) (c : Port), s.on (presentFld c) = true →
    Runs (.couplingDisconnect c) s fun t =>
      t.rd (presentFld c) = 0 ∧ Alters [.free, .cells, .tag] s t) ∧
  (∀ (s : State) (c : Port), s.on (presentFld c) = false →
    Runs (.couplingConnect c) s fun t =>
      t.rd (presentFld c) = 1 ∧ s.inserts (partPair c) + 1 = t.inserts (partPair c) ∧
      Alters [.free, .cells, .tag, .island] s t) ∧
  (∀ (s : State) (fa fb n : Nat), s.on R.PWR.COOL_STAT.FLOW_LOW = false → s.flow fa fb < s.rd R.PWR.FLOW_MIN → ticks100ms ≤ n →
    Runs (.flowLoss fa fb n) s fun t =>
      t.rd R.PWR.COOL_STAT.FLOW_LOW = 1 ∧ Raised .FLOW_LOW s t ∧ (t.rd R.PWR.SHED_STAT).testBit 3 = true ∧
      t.rd (R.PWR.COOL.FLOW 0) = fa % 2 ^ 16 ∧ t.rd (R.PWR.COOL.FLOW 1) = fb % 2 ^ 16 ∧
      Alters (Part.err ++ [Part.clk, Part.power]) s t) ∧
  (∀ (s : State) (fa fb n : Nat), s.on R.PWR.COOL_STAT.FLOW_LOW = true → s.rd R.PWR.FLOW_MIN ≤ s.flow fa fb →
    10 * ticks100ms ≤ n →
    Runs (.flowRestored fa fb n) s fun t =>
      t.rd R.PWR.COOL_STAT.FLOW_LOW = 0 ∧ (t.rd R.PWR.SHED_STAT).testBit 3 = false ∧
      Confined [] [R.PWR.COOL.FLOW 0, R.PWR.COOL.FLOW 1, R.PWR.COOL_STAT.FLOW_LOW, R.PWR.SHED_STAT] s t)

/-- Drydown and power-on (R426 to R430, R437): a cause starts it, one more is only logged, each step comes due in turn, lost
hold-up ends it at once, and OFF ends with power. The model's reading: log entry 53. -/
def Obligations.DrydownRunsItsSteps : Prop :=
  (∀ (s : State) (p : Path), s.reaches p R.PWR.DRYDOWN_CTRL.addr none →
    let u := s.taken p R.PWR.DRYDOWN_CTRL.addr 4
    u.modState ≠ 0 → u.modState ≠ 7 → u.power.dry = none →
    Runs (.drydownRequest p) s fun t =>
      t.rd R.MOD.STATE = 7 ∧ t.power.dry = some ⟨u.now, 1, u.now, false, Err.DD_REQUESTED.code⟩ ∧
      Raised .DD_REQUESTED u t ∧ t.rd R.PWR.DD_LAST.CAUSE = Err.DD_REQUESTED.code ∧ t.rd R.PWR.DD_LAST.STEP = 0 ∧
      t.life.cycles = u.life.cycles + 1 ∧ Alters (Part.err ++ [Part.fab, Part.power, Part.life]) u t) ∧
  (∀ (s : State) (p : Path), s.reaches p R.PWR.DRYDOWN_CTRL.addr none →
    let u := s.taken p R.PWR.DRYDOWN_CTRL.addr 4
    u.modState = 7 →
    Runs (.drydownRequest p) s fun t =>
      t.island = { u.island with log := u.island.log ++ [.start u.time Err.DD_REQUESTED.code] } ∧ Alters [.island] u t) ∧
  (∀ (s : State) (n : Nat), 4 ≤ n → s.modState ≠ 0 → s.modState ≠ 7 →
    Runs (.rackOff n) s fun t =>
      t.rd R.MOD.STATE = 7 ∧ t.power.dry.isSome = true ∧ Raised .DD_REQUESTED s t ∧
      Alters (Part.err ++ [Part.fab, Part.power, Part.life]) s t) ∧
  (∀ (s : State) (d : Drydown) (fl lo ho : Bool) (stuck : BitVec 10), s.power.dry = some d → d.warm = false → ho = true →
    d.next < 16 → s.stepDue d fl lo = true →
    Runs (.drydownStep fl lo stuck ho) s fun t =>
      t.power.dry = some { d with next := d.next + 1, last := s.now } ∧
      t.rd R.PWR.DD_LAST.STEP = ddDone d.next % 16 ∧ (∀ r ∈ stepRails d.next, t.railOn r = false) ∧
      (d.next = 1 → t.power.frozen = true ∧ ∀ i ∈ List.range 4, s.on (R.FLASH.SLED_STAT.ATTACHED i) = true →
        Out.sledFlush i ∈ t.out) ∧
      Alters (Part.err ++ [Part.tile, Part.mem, Part.stream, Part.queue, Part.sig, Part.nose, Part.coll, Part.fab, Part.power, Part.host]) s t) ∧
  (∀ (s : State) (d : Drydown) (fl lo ho : Bool) (stuck : BitVec 10), s.power.dry = some d → d.warm = false → ho = true →
    d.next = 17 → s.stepDue d fl lo = true →
    Runs (.drydownStep fl lo stuck ho) s fun t =>
      t.rd R.MOD.STATE = 0 ∧ t.power.dry = none ∧ t.power.rails = []) ∧
  (∀ (s : State) (d : Drydown) (fl lo : Bool) (stuck : BitVec 10), s.power.dry = some d → d.warm = false →
    s.on R.PWR.DD_LAST.COMPLETE = false →
    Runs (.drydownStep fl lo stuck false) s fun t =>
      t.rd R.MOD.STATE = 0 ∧ t.power.dry = none ∧ t.power.rails = [] ∧
      (∀ x ∈ t.island.seals, x.closed = false) ∧ Confined [.power, .island] [R.MOD.STATE] s t) ∧
  (∀ (s : State) (d : Drydown) (fl lo : Bool) (stuck : BitVec 10), s.power.dry = some d → d.warm = false →
    s.on R.PWR.DD_LAST.COMPLETE = true →
    Runs (.drydownStep fl lo stuck false) s fun t =>
      t.rd R.MOD.STATE = 0 ∧ t.power.dry = none ∧ t.power.rails = [] ∧ Confined [.power] [R.MOD.STATE] s t) ∧
  (∀ (s : State) (d : Drydown) (fl lo ho : Bool) (stuck : BitVec 10), s.power.dry = some d → d.warm = true → d.next = 15 →
    s.stepDue d fl lo = true →
    Runs (.drydownStep fl lo stuck ho) s fun t => t = s.toFused true true) ∧
  (∀ (s : State) (ev : PowerEvent) (sram : Bool), s.modState = 0 →
    (∀ x ∈ [ev], (match x with
      | .bus54 i high => (s.rd R.PWR.CASS_MAP.PRESENT).testBit i && high
      | .rackOff low bus => decide (156250 ≤ low) && bus) = true) →
    Runs (.powerOn ev sram) s fun t =>
      t = s.toFused false sram ∧ t.pending = s.pending ∧ t.fuses = s.fuses ∧
      (s.fuses.seal = s.fuses.crc → t.rd R.MOD.STATE = 1 ∧ t.rd R.FUSE.CRC_STAT = 1))

/-! ### Bring-up and reset -/

/-- From FUSED to READY (R432 to R443): ENFLEURAGE begins when everything it needs is there; the rails rise turn by turn; a
slot's image is loaded when it passes its checks, and the other slot is tried when it does not; firmware that reports in time
ends step 3, and firmware that does not loses its slot; the steps end in order, and READY ends them. A rail or a part that
fails leads to FAULT. The model's reading: log entry 55. -/
def Obligations.BringUpRunsItsSteps : Prop :=
  (∀ (s : State), s.modState = 1 → s.power.dry = none → s.on R.FUSE.CRC_STAT = true → s.on R.CLK.STATUS.LOCK = true →
    s.railOn .bus12 = true → s.on R.CFG.BOOT_CTRL.HOLD_FUSED = false → s.boot.vcardAt + ticks100ms ≤ s.now →
    Runs (.enfleurageEntry true true) s fun t =>
      t.rd R.MOD.STATE = 2 ∧ t.rd R.CFG.BOOT_STAT.STEP = 1 ∧ t.rd R.PWR.STAT.HOLDUP_OK = 1 ∧ t.boot.entered = s.now ∧
      t.boot.turn = 0 ∧ t.boot.done = 0 ∧ t.boot.loadAt = none ∧
      Confined [.boot] [R.PWR.STAT.HOLDUP_OK, R.MOD.STATE, R.CFG.BOOT_STAT.STEP] s t) ∧
  (∀ (s : State) (h b : Bool), s.modState = 1 → s.power.dry = none → (h = false ∨ b = false ∨ s.on R.CLK.STATUS.LOCK = false) →
    Runs (.enfleurageEntry h b) s fun t =>
      t.rd R.PWR.STAT.HOLDUP_OK = h.toNat ∧ Confined [] [R.PWR.STAT.HOLDUP_OK] s t) ∧
  (∀ (s : State), s.modState = 2 → s.boot.turn < 13 → s.boot.entered + 156250 * s.boot.turn ≤ s.now →
    Runs (.railTurn true) s fun t =>
      t.boot = { s.boot with turn := s.boot.turn + 1 } ∧ (∀ r ∈ turnRails s.boot.turn, (∀ i, r = .vsled i → s.sledPosition i = true) → t.railOn r = true) ∧
      (∀ d ∈ List.finRange 84, .vcore d ∈ turnRails s.boot.turn → t.rd (R.PDOM.STAT.PHASES_OK d) = 9) ∧
      Alters (Part.err ++ [Part.power, Part.boot]) s t) ∧
  (∀ (s : State), s.modState = 2 → s.boot.turn = 13 → s.boot.entered + 156250 * 13 ≤ s.now →
    Runs (.railTurn true) s fun t =>
      t.boot.done = s.boot.done ||| 2 ∧ t.boot.turn = 14 ∧ t.power = s.power ∧ Alters (Part.err ++ [Part.power, Part.boot]) s t) ∧
  (∀ (s : State), s.modState = 2 → 1 ≤ s.boot.turn → s.boot.turn ≤ 13 → s.boot.entered + 156250 * s.boot.turn ≤ s.now →
    Runs (.railTurn false) s fun t =>
      t.rd R.MOD.STATE = 8 ∧ t.rd R.CFG.BOOT_STAT.STEP = 0 ∧ Raised .RAIL_UP_FAIL s t ∧ t.boot = s.boot ∧
      Alters (Part.err ++ [Part.power, Part.boot]) s t) ∧
  (∀ (s : State) (slot : Nat), s.modState = 2 → s.boot.loadAt = none → s.ended [0] = true → s.nextSlotToTry = some slot →
    let a := (s.onBoot fun b => { b with tried := b.tried ||| 2 ^ slot }).wr (R.CFG.SLOT_VER slot) (s.header slot 24 4)
    Runs .imageCheck s fun t =>
      (a.imageFault slot = none → t.boot.loadAt = some s.now ∧ t.rd R.CFG.BOOT_STAT.SLOT = slot % 2 ∧
        t.boot.done.testBit 2 = true ∧ t.boot.tried.testBit slot = true) ∧
      (∀ n ∈ List.range 7, a.imageFault slot = some n → a.nextSlotToTry.isSome = true →
        t.rd (slotStat slot) = n + 1 ∧ t.boot = a.boot ∧ t.rd R.MOD.STATE = 2) ∧
      (∀ n ∈ List.range 7, a.imageFault slot = some n → a.nextSlotToTry = none →
        t.rd R.MOD.STATE = 8 ∧ Raised .IMAGE_AUTH s t) ∧ Alters (Part.err ++ [Part.power, Part.fuses, Part.boot]) s t) ∧
  (∀ (s : State) (p : Path), s.reaches p R.CFG.FW_READY.addr none →
    let u := s.taken p R.CFG.FW_READY.addr 4
    u.modState = 2 → u.ended [1, 2] = true → u.ended [3] = false →
    Runs (.fwReady p) s fun t =>
      t.rd R.CFG.FW_READY = 1 ∧ t.boot.done = u.boot.done ||| 8 ∧ t.mgmt.hbAt = u.now ∧ t.mgmt.mirrorAt = u.now ∧
      Alters (Part.err ++ [Part.boot, Part.mgmt]) u t) ∧
  (∀ (s : State) (n : Nat), s.boot.loadAt = some n → s.modState = 2 → s.ended [3] = false →
    n + 10 * Config.ticksPerS ≤ s.now →
    Runs .fwStartTimeout s fun t =>
      t.rd (slotStat (s.rd R.CFG.BOOT_STAT.SLOT)) = 8 ∧
      (s.nextSlotToTry.isSome = true → t.boot.loadAt = none ∧ t.rd R.MOD.STATE = 2 ∧ t.ended [2] = false ∧
        Raised .FW_START_TIMEOUT s t) ∧
      (s.nextSlotToTry = none → t.rd R.MOD.STATE = 8 ∧ Raised .IMAGE_AUTH s t) ∧
      Alters (Part.err ++ [Part.power, Part.boot]) s t) ∧
  (∀ (s : State) (x : EnfStep) (m : Nat), s.modState = 2 → x = .sfdp (some m) → 128 ≤ m →
    Runs (.enfleurageStep x) s fun t =>
      t.rd R.CFG.CAPS.NOR_MIB = m % 2 ^ 16 ∧ t.ended [0] = true ∧ Alters [.cells, .boot] s t) ∧
  (∀ (s : State) (m : Option Nat), s.modState = 2 → (m.all fun n => decide (n < 128)) = true →
    Runs (.enfleurageStep (.sfdp m)) s fun t =>
      t.rd R.MOD.STATE = 8 ∧ Raised .NOR_SFDP s t ∧ Alters (Part.err ++ [Part.power]) s t) ∧
  (∀ (s : State) (l : List Companion), s.modState = 2 → s.ended [1, 2, 3] = true → s.ended [4] = false →
    Runs (.enfleurageStep (.maps l)) s fun t =>
      t = s.stepMaps l ∧ t.ended [4] = true ∧ t.boot.linksAt = s.now ∧
      t.rd (R.LEDG.EVT Err.SLED_REFUSED.index) = min ctMax (s.rd (R.LEDG.EVT Err.SLED_REFUSED.index) + s.extraSleds.length) ∧
      Alters (Part.err ++ [Part.tile, Part.queue, Part.sig, Part.nose, Part.fab, Part.power, Part.boot, Part.life]) s t) ∧
  (∀ (s : State), s.modState = 2 → s.ended [4] = true → s.ended [5] = false →
    Runs (.enfleurageStep .fill) s fun t =>
      t.ended [5] = true ∧
      t.rd (R.QUOTA.TIER_TOTAL 0) = ((List.range 960).filter fun n =>
        !(s.rd R.MOD.RETIRED_ROWS).testBit (n / 40) && !Cells.get false s.mem.gone n).length * bondGrans % 2 ^ 32 ∧
      Alters (Part.err ++ [Part.mem, Part.fab, Part.boot]) s t) ∧
  (∀ (s : State), s.modState = 2 → s.ended [4] = true → s.ended [6] = false →
    Runs (.enfleurageStep .links) s fun t =>
      t.boot = s.boot ∧ t.rd R.CFG.BOOT_STAT.STEP = s.rd R.CFG.BOOT_STAT.STEP ∧
      (∀ k ∈ List.range 48, s.fitted (pgLINK k) = true → s.on (R.LINK.STAT.OPTIC k) = true →
        t.rd (R.PG.CTRL.EN (pgLINK k)) = 1) ∧ Alters [.cells, .fab, .msix, .out] s t) ∧
  (∀ (s : State), s.modState = 2 → s.ended [1, 2, 3, 4, 5] = true →
    (s.linksUp = true ∨ s.boot.linksAt + s.rd R.CFG.LINK_WAIT * Config.ticksPerMs ≤ s.now) →
    Runs (.enfleurageStep .ready) s fun t =>
      t.rd R.MOD.STATE = 3 ∧ t.rd R.CFG.BOOT_STAT.STEP = 0 ∧ t.sig = State.reset.sig ∧ t.nose.runs = [] ∧
      t.fab.routes = [] ∧ t.fab.origins = [] ∧ t.joined = false ∧
      (∀ p ∈ List.range 8, t.rd (R.MOD.STEP_STAT.ACTIVE p) = 0) ∧
      Alters [.cells, .sig, .nose, .coll, .fab, .power, .boot] s t)

/-- RUN, QUIESCE and resets (R27 to R31, R444 to R451): RUN and QUIESCE move a partition, a held one is in QUIESCE when its
work has ended; a warm reset stops and re-enters FUSED; a lost host holds its partitions when REATTACH ends; the watchdog is
kicked over the sideband, and expires into Drydown. The model's reading: log entries 56, 113. -/
def Obligations.PartitionsRunQuiesceAndReset : Prop :=
  (∀ (s : State) (p : Path) (part : Fin 8), s.reaches p R.CFG.PART_CTRL.GO.addr (some part.val) →
    let u := s.taken p R.CFG.PART_CTRL.GO.addr 4
    u.modState = 3 → u.partState part = 3 → u.partHeld part = false → u.on R.TB.STAT.SET_DONE = true → u.holders part = 0 →
    Runs (.partRun p part) s fun t =>
      t.partState part = 4 ∧ Confined [] [R.CFG.PART_CTRL.PART, R.CFG.PART_CTRL.OP, R.MOD.PART_STATE part] u t) ∧
  (∀ (s : State) (p : Path) (part : Fin 8), s.reaches p R.CFG.PART_CTRL.GO.addr (some part.val) →
    let u := s.taken p R.CFG.PART_CTRL.GO.addr 4
    u.modState = 3 → u.partState part = 5 → u.partHeld part = false → u.on R.TB.STAT.SET_DONE = true → u.holders part = 1 →
    Runs (.partRun p part) s fun t =>
      t.partState part = 4 ∧ t.holders part = 0 ∧
      Confined [.part] [R.CFG.PART_CTRL.PART, R.CFG.PART_CTRL.OP, R.MOD.PART_STATE part, R.CFG.QHOLD part] u t) ∧
  (∀ (s : State) (p : Path) (part : Fin 8), s.reaches p R.CFG.PART_CTRL.GO.addr (some part.val) →
    let u := s.taken p R.CFG.PART_CTRL.GO.addr 4
    (u.modState ≠ 3 ∨ u.partState part = 0 ∨ u.partHeld part = true ∨ u.on R.TB.STAT.SET_DONE = false) →
    Runs (.partRun p part) s fun t =>
      t.partState part = u.partState part ∧ Raised .RUN_REFUSED u t ∧
      Confined Part.err ([R.CFG.PART_CTRL.PART, R.CFG.PART_CTRL.OP] ++ errFields pgCFG .RUN_REFUSED Err.RUN_REFUSED.cls) u t) ∧
  (∀ (s : State) (p : Path) (part : Fin 8), s.reaches p R.CFG.PART_CTRL.GO.addr (some part.val) →
    let u := s.taken p R.CFG.PART_CTRL.GO.addr 4
    u.modState = 3 → u.partState part ≠ 0 →
    Runs (.partQuiesce p part) s fun t =>
      t.holders part = (u.holders part ||| 2 ^ holdUser) % 16 ∧ t.partState part = u.partState part ∧
      Confined [.part] [R.CFG.PART_CTRL.PART, R.CFG.PART_CTRL.OP, R.CFG.QHOLD part] u t) ∧
  (∀ (s : State) (part : Fin 8), s.holders part ≠ 0 → (s.partState part = 3 ∨ s.partState part = 4) → s.partBusy part = false →
    Runs (.quiesceReached part) s fun t =>
      t.partState part = 5 ∧
      (s.host.toPark.testBit part = false ∨ s.rd R.PWR.STAT.SHED ≠ 0 →
        Cells.get 0 t.part.entry part = s.partState part ∧ Alters [.cells, .part] s t) ∧
      (s.host.toPark.testBit part = true → s.rd R.PWR.STAT.SHED = 0 →
        (t.rd R.PWR.PARK_STAT.PARKED).testBit part = true ∧ t.host.toPark.testBit part = false ∧
        Counted R.CFG.HOST_PARKS 1 s t ∧ Raised .HOST_PARKED s t ∧
        Cells.get 0 t.part.entry part = 3 ∧ Cells.get false t.part.ran part = false ∧
        Alters (Part.err ++ [Part.tile, Part.part, Part.power, Part.host]) s t)) ∧
  (∀ (s : State) (p : Path), s.reaches p R.CFG.RESET_CTRL.GO.addr none →
    let u := s.taken p R.CFG.RESET_CTRL.GO.addr 4
    u.modState ≠ 0 → u.modState ≠ 7 → u.power.dry = none →
    Runs (.warmReset p) s fun t =>
      t.rd R.MOD.STATE = 1 ∧ t.rd R.CFG.BOOT_STAT.WARM = 1 ∧ t.power.dry = some ⟨u.now, 1, u.now, true, 0⟩ ∧
      Alters (Part.err ++ [Part.fab, Part.power]) u t) ∧
  (∀ (s : State) (n : Nat), s.host.lostAt = some n → n + seconds (s.rd R.CFG.REATTACH) ≤ s.now →
    Runs .reattachExpiry s fun t =>
      t.host = { s.host with lostAt := none, toPark := s.host.toPark ||| s.host.paused } ∧
      (∀ p ∈ List.range 8, s.host.paused.testBit p = true → (t.holders p).testBit holdHost = true) ∧
      Alters [.cells, .part, .host] s t) ∧
  (∀ (s : State) (c : Port), s.reaches (.sideband c) R.CFG.WDOG_CTRL.KICK.addr none → s.boot.wdogAt.isSome = true →
    let u := s.taken (.sideband c) R.CFG.WDOG_CTRL.KICK.addr 4
    Runs (.wdogKick (.sideband c)) s fun t =>
      t.boot = { s.boot with wdogAt := some s.now } ∧ Alters [.boot] u t) ∧
  (∀ (s : State) (h : Port) (fn : Nat), s.reaches (.host h fn) R.CFG.WDOG_CTRL.KICK.addr none →
    Runs (.wdogKick (.host h fn)) s fun t => t = s.taken (.host h fn) R.CFG.WDOG_CTRL.KICK.addr 4) ∧
  (∀ (s : State) (c : Port), c ≠ s.lead →
    Runs (.wdogKick (.sideband c)) s fun t => t = s) ∧
  (∀ (s : State) (n : Nat), s.boot.wdogAt = some n → s.modState ≠ 0 → s.modState ≠ 7 → n + seconds s.wdogSeconds ≤ s.now →
    Runs .wdogExpiry s fun t =>
      t.rd R.MOD.STATE = 7 ∧ t.boot.wdogAt = none ∧ Raised .WDOG_EXPIRED s t ∧
      t.rd R.PWR.DD_LAST.CAUSE = Err.WDOG_EXPIRED.code ∧ Alters (Part.err ++ [Part.fab, Part.power, Part.boot, Part.life]) s t) ∧
  (∀ (s : State) (p : Path), s.reaches p R.CFG.PREL_CLEAR.addr none →
    let u := s.taken p R.CFG.PREL_CLEAR.addr 4
    Runs (.prelClear p) s fun t =>
      t.island.releases = [] ∧ t.fab.held = [] ∧ Alters (Part.err ++ [Part.mem, Part.queue, Part.fab]) u t)

/-- Shifts and failures (R14 to R19): a request or a failed tile begins a shift in a row with fewer than two failed columns,
and retires the row with two; a shift ends with its column failed; an I/O die that fails takes its four links down. The
model's reading: log entry 43. -/
def Obligations.RowsShiftAndRetire : Prop :=
  (∀ (s : State) (p : Path) (row : BitVec 5) (pcol : BitVec 6), s.reaches p R.SPARE.SHIFT_CTRL.GO.addr none →
    let u := s.taken p R.SPARE.SHIFT_CTRL.GO.addr 4
    row < 24 → pcol ≤ 41 → u.shiftIn row.toNat = none → pcol.toNat ∉ u.failedCols row.toNat →
    ((u.rowPart row.toNat).all fun q => decide (u.partRead q = 5)) = true → (u.failedCols row.toNat).length < 2 →
    Runs (.shiftRequest p row pcol) s fun t =>
      (t.part.shifts.map fun y => (y.row, y.pcol, y.replay)) =
        (u.part.shifts.map fun y => (y.row, y.pcol, y.replay)) ++ [(row.toNat, pcol.toNat, false)] ∧
      (∀ q ∈ List.range 8, u.rowPart row.toNat = some q → (t.holders q).testBit holdSparing = true) ∧
      t.rd R.SPARE.SHIFT_STAT.BUSY = 1 ∧ t.rd R.SPARE.SHIFT_STAT.ROW = row.toNat ∧ Alters [.cells, .part] u t) ∧
  (∀ (s : State) (p : Path) (row : BitVec 5) (pcol : BitVec 6), s.reaches p R.SPARE.SHIFT_CTRL.GO.addr none →
    let u := s.taken p R.SPARE.SHIFT_CTRL.GO.addr 4
    row < 24 → pcol ≤ 41 → u.shiftIn row.toNat = none → pcol.toNat ∉ u.failedCols row.toNat →
    ((u.rowPart row.toNat).all fun q => decide (u.partRead q = 5)) = true → 2 ≤ (u.failedCols row.toNat).length →
    Runs (.shiftRequest p row pcol) s fun t =>
      t.on (R.SPARE.ROWMAP.RETIRED row.toNat) = true ∧ Alters (Part.err ++ [Part.clk, Part.tile, Part.mem, Part.queue,
        Part.sig, Part.nose, Part.part, Part.power]) u t) ∧
  (∀ (s : State) (p : Path) (row : BitVec 5) (pcol : BitVec 6), s.reaches p R.SPARE.SHIFT_CTRL.GO.addr none →
    let u := s.taken p R.SPARE.SHIFT_CTRL.GO.addr 4
    (24 ≤ row ∨ 41 < pcol ∨ (u.shiftIn row.toNat).isSome = true ∨ pcol.toNat ∈ u.failedCols row.toNat ∨
      ((u.rowPart row.toNat).any fun q => decide (u.partRead q ≠ 5)) = true) →
    Runs (.shiftRequest p row pcol) s fun t =>
      t.rd R.SPARE.SHIFT_STAT.RESULT = Err.SHIFT_REFUSED.code ∧ Counted R.SPARE.SHIFT_REFUSALS 1 u t ∧
      Raised .SHIFT_REFUSED u t ∧ t.part = u.part ∧ Alters Part.err u t) ∧
  (∀ (s : State) (row : Fin 24) (x : Shift) (lost : Bool), s.shiftIn row = some x → s.quiet (s.rowPart row) = true →
    x.pcol < 42 →
    Runs (.shiftCopyDone row lost) s fun t =>
      t.shiftIn row = none ∧ x.pcol ∈ t.failedCols row ∧ Counted R.SPARE.SHIFTS 1 s t ∧
      t.rd R.SPARE.SHIFT_STAT.RESULT = 0 ∧
      Alters [.free, .cells, .tile, .mem, .part, .tag, .island, .msix, .out] s t) ∧
  (∀ (s : State) (row : Fin 24) (pcol : Fin 42), s.shiftIn row = none → pcol.val ∉ s.failedCols row →
    s.on (R.SPARE.ROWMAP.RETIRED row) = false → (s.failedCols row).length < 2 →
    Runs (.tileFailure row pcol) s fun t =>
      (t.part.shifts.map fun y => (y.row, y.pcol, y.replay)) =
        (s.part.shifts.map fun y => (y.row, y.pcol, y.replay)) ++ [(row.val, pcol.val, false)] ∧
      t.rd R.SPARE.SHIFT_STAT.BUSY = 1 ∧ t.rd R.SPARE.SHIFT_STAT.ROW = row ∧ Alters [.cells, .part] s t) ∧
  (∀ (s : State) (row : Fin 24) (pcol : Fin 42), s.shiftIn row = none → pcol.val ∉ s.failedCols row →
    s.on (R.SPARE.ROWMAP.RETIRED row) = false → 2 ≤ (s.failedCols row).length →
    Runs (.tileFailure row pcol) s fun t =>
      t.on (R.SPARE.ROWMAP.RETIRED row) = true ∧ t.rowParked row = true ∧ (Cells.get ⟨0, none⟩ t.clk.rows row).eff = 0 ∧
      Alters (Part.err ++ [Part.clk, Part.tile, Part.mem, Part.queue, Part.sig, Part.nose, Part.part, Part.power]) s t) ∧
  (∀ (s : State) (i : Fin 12), s.modState ≠ 0 → s.fitted (pgLINK (4 * i.val)) = true →
    (s.rd R.MOD.IODIE_FAIL).testBit i = false →
    let a := (s.wr R.MOD.IODIE_FAIL (s.rd R.MOD.IODIE_FAIL ||| 2 ^ i.val)).wr R.MOD.STATUS.IODIE_FAILED 1
    Runs (.iodieFail i) s fun t =>
      t = (List.range 4).foldl (fun u j => u.linkDown (4 * i.val + j)) a ∧
      Alters (Part.err ++ [Part.tile, Part.mem, Part.stream, Part.queue, Part.sig, Part.nose, Part.coll, Part.fab, Part.power, Part.host]) s t)

/-! ### Management -/

/-- Lead and standby (R27, R456 to R460): the lead's heartbeat is kept, a standby's has no effect, and of two in one cycle card
A's is taken; a lead that goes is followed by the other card, and a planned takeover by the standby's first heartbeat; a mirror
makes a standby good, and a standby that goes is reported. What the lead's card sends (R371, R463, R468, R469): its
announcement, the counts of class 0 once a second, the oldest error record with the records lost before it, and telemetry, of
which it leaves out periods where class 3 exceeds its share, and 10 ms of controller time go to the classes in order. The
model's reading: log entries 57, 58, 64, 95, 114, 115, 117. -/
def Obligations.LeadAndStandby : Prop :=
  (∀ (s : State) (c : Port) (n : BitVec 32), s.cardUp c = true → s.reaches (.sideband c) R.MGMT.HEARTBEAT.addr none →
    s.mgmt.planned = false →
    let u := s.taken (.sideband c) R.MGMT.HEARTBEAT.addr 4
    Runs (.heartbeat c n false) s fun t =>
      t.rd R.MGMT.HEARTBEAT = n.toNat ∧
      t.mgmt = { s.mgmt with hbAt := s.now, servoOff := false, loads := Cells.put 0 s.mgmt.loads (portIx c) 0 } ∧
      Confined [.mgmt] [R.MGMT.HEARTBEAT] u t) ∧
  (∀ (s : State) (c : Port) (n : BitVec 32), c ≠ s.lead → s.mgmt.planned = false →
    Runs (.heartbeat c n false) s fun t => t = s) ∧
  (∀ (s : State) (c : Port) (n : BitVec 32), s.cardUp .a = true → s.cardUp .b = true →
    s.answers (.sideband .a) R.MGMT.HEARTBEAT.addr = true → s.fitted R.MGMT.HEARTBEAT.addr = true →
    let u := s.taken (.sideband .a) R.MGMT.HEARTBEAT.addr 4
    Runs (.heartbeat c n true) s fun t =>
      t.lead = .a ∧ t.on R.MOD.STATUS.LEAD_B = false ∧ t.rd R.MGMT.HEARTBEAT = n.toNat ∧
      t.mgmt = { s.mgmt with hbAt := s.now, servoOff := false, loads := Cells.put 0 s.mgmt.loads 0 0 } ∧
      Confined [.mgmt] [R.MGMT.HEARTBEAT, R.MGMT.ROLE.LEAD, R.MOD.STATUS.LEAD_B] u t) ∧
  (∀ (s : State) (c : Port) (n : BitVec 32), s.cardUp c = true →
    s.answers (.sideband c) R.MGMT.HEARTBEAT.addr = true → s.fitted R.MGMT.HEARTBEAT.addr = true →
    s.mgmt.planned = true → c ≠ s.lead →
    Runs (.heartbeat c n false) s fun t =>
      t.lead = c ∧ t.rd R.MGMT.HEARTBEAT = n.toNat ∧
      t.mgmt = { s.mgmt with
        hbAt := s.now, planned := false, servoOff := false, loads := Cells.put 0 s.mgmt.loads (portIx c) 0 } ∧
      Counted R.MGMT.TAKEOVERS 1 s t ∧ Raised .TAKEOVER s t ∧ Alters (Part.err ++ [Part.wbuf, Part.mgmt]) s t) ∧
  (∀ (s : State) (why : CardLoss), s.modState ≠ 0 → s.on (cardFld (otherCard s.lead)) = true →
    ((why = .removed ∨ why = .reset) ∧ s.on (cardFld s.lead) = true ∨ why = .rail ∧ s.cardUp s.lead = true ∨
      why = .silent ∧ s.on R.CFG.FW_READY = true ∧ s.mgmt.hbAt + ticks20ms ≤ s.now) →
    Runs (.leadLost why) s fun t =>
      t.lead = otherCard s.lead ∧ Counted R.MGMT.TAKEOVERS 1 s t ∧ Raised .TAKEOVER s t ∧
      t.mgmt = { s.mgmt with
        hbAt := s.now, planned := false, servoOff := true
        loads := if why = .reset ∨ why = .silent then Cells.put 0 s.mgmt.loads (portIx s.lead) (s.now + 1) else s.mgmt.loads } ∧
      (why = .removed → t.on (cardFld s.lead) = false) ∧ (why ≠ .silent → t.on R.MGMT.ROLE.STANDBY_OK = false) ∧
      Alters (Part.err ++ [Part.power, Part.mgmt]) s t) ∧
  (∀ (s : State) (why : CardLoss), s.modState ≠ 0 → s.on (cardFld (otherCard s.lead)) = false → s.on (cardFld s.lead) = true →
    (why = .reset ∨ why = .silent ∧ s.on R.CFG.FW_READY = true ∧ s.mgmt.hbAt + ticks20ms ≤ s.now) →
    Runs (.leadLost why) s fun t =>
      t.lead = s.lead ∧ t.firmware = false ∧ t.on (cardFld s.lead) = true ∧ Alters (Part.err ++ [Part.mgmt]) s t) ∧
  (∀ (s : State), s.reaches (.sideband s.lead) R.MGMT.TAKEOVER_CTRL.addr none → s.on R.MGMT.ROLE.STANDBY_OK = true →
    Runs (.plannedTakeover (.sideband s.lead)) s fun t =>
      t.mgmt.planned = true ∧ t.mgmt.servoOff = true ∧ t.lead = s.lead ∧ Alters (Part.err ++ [Part.wbuf, Part.mgmt, Part.life]) s t) ∧
  (∀ (s : State), s.reaches (.sideband s.lead) R.MGMT.TAKEOVER_CTRL.addr none → s.on R.MGMT.ROLE.STANDBY_OK = false →
    Runs (.plannedTakeover (.sideband s.lead)) s fun t =>
      t.mgmt = s.mgmt ∧ Raised .TAKEOVER_REFUSED s t ∧ Alters (Part.err ++ [Part.wbuf, Part.mgmt]) s t) ∧
  (∀ (s : State) (copied : Bool), s.firmware = true → s.cardUp (otherCard s.lead) = true →
    (Cells.get 0 s.mgmt.loads (portIx (otherCard s.lead)) = 0 ∨ copied = true ∨
      Cells.get 0 s.mgmt.loads (portIx (otherCard s.lead)) + ticks120s ≤ s.now + 1) →
    Runs (.mirror copied) s fun t =>
      t.on R.MGMT.ROLE.STANDBY_OK = true ∧ t.on R.MOD.STATUS.STANDBY_OK = true ∧ t.flash (otherCard s.lead) = s.flash s.lead ∧
      t.mgmt = { s.mgmt with mirrorAt := s.now, loads := Cells.put 0 s.mgmt.loads (portIx (otherCard s.lead)) 0 } ∧
      Confined [.mgmt, .life] [R.MGMT.ROLE.STANDBY_OK, R.MOD.STATUS.STANDBY_OK] s t) ∧
  (∀ (s : State), Cells.get 0 s.mgmt.loads (portIx (otherCard s.lead)) ≠ 0 →
    s.now + 1 < Cells.get 0 s.mgmt.loads (portIx (otherCard s.lead)) + ticks120s →
    Runs (.mirror false) s fun t => t = s) ∧
  (∀ (s : State) (why : CardLoss), s.modState ≠ 0 → s.on R.MGMT.ROLE.STANDBY_OK = true →
    let c := otherCard s.lead
    ((why = .removed ∨ why = .reset) ∧ s.on (cardFld c) = true ∨ why = .rail ∧ s.cardUp c = true ∨
      why = .silent ∧ s.mgmt.mirrorAt + ticks20ms < s.now) →
    Runs (.standbyLost why) s fun t =>
      t.on R.MGMT.ROLE.STANDBY_OK = false ∧ t.on R.MOD.STATUS.STANDBY_OK = false ∧ t.lead = s.lead ∧ Raised .STANDBY_LOST s t ∧
      Alters (Part.err ++ [Part.power, Part.mgmt]) s t) ∧
  (∀ (s : State) (c : Port) (link own : Bool), s.on (cardFld c) = false → s.modState ≠ 0 → s.railOn .bus12 = true →
    Runs (.cardInsert c true link own) s fun t =>
      t.on (cardFld c) = true ∧ t.railOn (.vcard c) = true ∧ t.rd (portFld c) = link.toNat ∧
      Cells.get 0 t.mgmt.loads (portIx c) = s.now + 1 ∧ t.on R.MGMT.ROLE.STANDBY_OK = s.on R.MGMT.ROLE.STANDBY_OK ∧
      t.inserts (partCard c) = s.inserts (partCard c) + 1 ∧
      (s.on (cardFld (otherCard c)) = true → t.flash c = if own then s.flash c else []) ∧
      (s.on (cardFld (otherCard c)) = false → t.lead = c ∧ t.flash c =
        if own = true ∧ s.flash c ≠ [] then s.flash c else [7, 8, 9, 10].flatMap s.insertEvents ++ s.journalEvents) ∧
      Alters (Part.err ++ [Part.power, Part.mgmt, Part.life]) s t) ∧
  (∀ (s : State) (c : Port) (link own : Bool), s.on (cardFld c) = false →
    Runs (.cardInsert c false link own) s fun t =>
      Raised .CARD_REFUSED s t ∧ t.inserts (partCard c) = s.inserts (partCard c) + 1 ∧
      Confined Part.err (errFields pgMGMT .CARD_REFUSED Err.CARD_REFUSED.cls) s t) ∧
  (∀ (s : State), s.sends = true →
    Runs .announce s fun t =>
      t = { s with out := s.out ++ [Out.announce s.fuses.serial (s.regValue R.MOD.VARIANT.STACKS.addr) s.modRead
        (s.rd R.MOD.FAB_NODE.NODE) (s.rd (R.CFG.SLOT_VER (s.rd R.CFG.BOOT_STAT.SLOT)))] }) ∧
  (∀ (s : State) (r : ErrRec) (l : List ErrRec), s.island.queue = r :: l → s.portUp s.lead = true →
    s.now < s.island.zeroAt + Config.ticksPerS →
    Runs .errorRecord s fun t =>
      t.island = { s.island with queue := l, overflow := 0 } ∧ t.out = s.out ++ [Out.errorRecord r s.island.overflow] ∧
      Counted R.MGMT.ERR_SENT 1 s t ∧
      Confined [.island, .out] [R.MGMT.ERR_SENT, R.MGMT.ERR_SENT.ovf, R.MGMT.ERRQ_STAT.DEPTH, R.MGMT.ERRQ_STAT.MERGING] s t) ∧
  (∀ (s : State), s.island.queue = [] → s.portUp s.lead = true → s.island.zeroAt + Config.ticksPerS ≤ s.now →
    Runs .errorRecord s fun t =>
      t = { s with island := { s.island with zeroAt := s.now }, out := s.out ++ [Out.classZero s.island.zeros] }) ∧
  (∀ (s : State) (r : ErrRec) (l : List ErrRec), s.island.queue = r :: l → s.portUp s.lead = true →
    s.island.zeroAt + Config.ticksPerS ≤ s.now →
    Runs .errorRecord s fun t =>
      t.island = { s.island with zeroAt := s.now, queue := l, overflow := 0 } ∧
      t.out = s.out ++ [Out.classZero s.island.zeros, Out.errorRecord r s.island.overflow] ∧
      Counted R.MGMT.ERR_SENT 1 s t ∧
      Confined [.island, .out] [R.MGMT.ERR_SENT, R.MGMT.ERR_SENT.ovf, R.MGMT.ERRQ_STAT.DEPTH, R.MGMT.ERRQ_STAT.MERGING] s t) ∧
  (∀ (s : State) (loads : List ClassLoad) (x : SnapRec), s.sends = true → s.rd R.MGMT.TELEM_CFG ≠ 0 →
    let a := loads.foldl State.loadWindow s
    let n := a.rd R.MGMT.TELEM_STAT.DECIM_LOG2
    let b := (a.snapSw none).clkEdge.clkEdge
    2 ^ n ≤ a.mgmt.skipped + 1 → b.snap.taken.head? = some x →
    Runs (.telemetry loads) s fun t =>
      t.mgmt = { a.mgmt with skipped := 0 } ∧
      t.out = b.out ++ (cutList 174 (b.telemetry x)).map (fun v => Out.telemetry v n a.mgmt.skipped) ∧
      Alters (Part.err ++ [Part.commit, Part.clk, Part.stream, Part.queue, Part.sig, Part.nose, Part.mgmt]) s t) ∧
  (∀ (s : State) (loads : List ClassLoad), s.sends = true → s.rd R.MGMT.TELEM_CFG ≠ 0 →
    let a := loads.foldl State.loadWindow s
    a.mgmt.skipped + 1 < 2 ^ a.rd R.MGMT.TELEM_STAT.DECIM_LOG2 →
    Runs (.telemetry loads) s fun t =>
      t.mgmt = { a.mgmt with skipped := a.mgmt.skipped + 1 } ∧ Counted R.MGMT.TELEM_SKIPPED 1 s t ∧ t.out = s.out ∧
      Confined [.mgmt] [R.MGMT.LOAD.SHARE1, R.MGMT.LOAD.SHARE2, R.MGMT.LOAD.SHARE3, R.MGMT.LOAD.SHARE4,
        R.MGMT.TELEM_STAT.DECIM_LOG2, R.MGMT.TELEM_STAT.DECIMATED, R.MGMT.TELEM_SKIPPED, R.MGMT.TELEM_SKIPPED.ovf] s t) ∧
  (∀ (w : ClassLoad), (gotOf w).length = 4 ∧ (gotOf w).sum ≤ 100 ∧
    ∀ x ∈ (gotOf w).zip (classShares.zip [w.c1, w.c2, w.c3, w.c4]), min x.2.1 x.2.2 ≤ x.1 ∧ x.1 ≤ x.2.2) ∧
  (∀ (s : State) (w : ClassLoad), s.sends = true → s.rd R.MGMT.TELEM_CFG = 0 →
    let unmet := decide ((gotOf w).getD 2 0 < w.c3)
    Runs (.telemetry [w]) s fun t =>
      [t.rd R.MGMT.LOAD.SHARE1, t.rd R.MGMT.LOAD.SHARE2, t.rd R.MGMT.LOAD.SHARE3, t.rd R.MGMT.LOAD.SHARE4] = gotOf w ∧
      t.mgmt.unmet.testBit 3 = unmet ∧
      (unmet = true → s.mgmt.short ≠ 9 → t.mgmt.short = s.mgmt.short + 1 ∧ t.mgmt.fed = 0 ∧
        t.rd R.MGMT.TELEM_STAT.DECIM_LOG2 = s.rd R.MGMT.TELEM_STAT.DECIM_LOG2) ∧
      (unmet = true → s.mgmt.short = 9 → t.mgmt.short = 0 ∧
        (s.rd R.MGMT.TELEM_STAT.DECIM_LOG2 < 6 → t.on R.MGMT.TELEM_STAT.DECIMATED = true) ∧
        t.rd R.MGMT.TELEM_STAT.DECIM_LOG2 =
          if s.rd R.MGMT.TELEM_STAT.DECIM_LOG2 < 6 then s.rd R.MGMT.TELEM_STAT.DECIM_LOG2 + 1
          else s.rd R.MGMT.TELEM_STAT.DECIM_LOG2) ∧
      (unmet = false → s.mgmt.fed ≠ 99 → t.mgmt.fed = s.mgmt.fed + 1 ∧ t.mgmt.short = 0 ∧
        t.rd R.MGMT.TELEM_STAT.DECIM_LOG2 = s.rd R.MGMT.TELEM_STAT.DECIM_LOG2) ∧
      (unmet = false → s.mgmt.fed = 99 → t.mgmt.fed = 0 ∧
        t.rd R.MGMT.TELEM_STAT.DECIM_LOG2 = s.rd R.MGMT.TELEM_STAT.DECIM_LOG2 - 1) ∧
      Confined [.mgmt] [R.MGMT.LOAD.SHARE1, R.MGMT.LOAD.SHARE2, R.MGMT.LOAD.SHARE3, R.MGMT.LOAD.SHARE4,
        R.MGMT.TELEM_STAT.DECIM_LOG2, R.MGMT.TELEM_STAT.DECIMATED] s t)

/-- What an accepted request of classes 1 to 4 does (R462, R463): its SEQ becomes the last of its slot, it acts on the
sideband path, and the answer leaves through the port it came in at, with its TYPE + 0x80, its SEQ and STATUS OK, in datagrams
of at most 1,400 bytes. The model's reading: log entries 58, 114. -/
def Obligations.IcordRequestsAreServed : Prop :=
  (∀ (s : State) (h : IcordHdr) (i : Nat) (offs : List (BitVec 26)), s.hears h 0x10 i → s.firmware = true → s.busyFor h.busy 0x10 = none →
    offs.length ≤ 64 →
    let r := (s.takeSeq i h.seq.toNat).readAll (offs.map BitVec.toNat)
    Runs (.regRead h offs) s fun t =>
      t = r.1.emit (.icord h.port 0x90 h.seq.toNat 0 0 (.words r.2)) ∧ r.2.length = offs.length ∧
      Cells.get 0 t.mgmt.ctlSeq i = h.seq.toNat + 1) ∧
  (∀ (s : State) (h : IcordHdr) (i : Nat) (w : BitVec 26 × Word), s.hears h 0x11 i → s.firmware = true → s.busyFor h.busy 0x11 = none →
    let a := (s.takeSeq i h.seq.toNat).busWrite mailbox (.sideband s.lead) w.1.toNat 4 w.2.toNat
    Runs (.regWrite h [w]) s fun t => t = a.emit (.icord h.port 0x91 h.seq.toNat 0 0 .empty)) ∧
  (∀ (s : State) (h : IcordHdr) (i : Nat) (target ramp : BitVec 16), s.hears h 0x12 i → s.firmware = true →
    s.modState ≠ 0 → s.modState ≠ 8 →
    Runs (.envelope h target ramp) s fun t =>
      t.rd R.PWR.ENV_TARGET = target.toNat ∧ t.rd R.PWR.ENV_RAMP = ramp.toNat ∧
      t.out.getLast? = some (.icord h.port 0x92 h.seq.toNat 0 0 .empty)) ∧
  (∀ (s : State) (h : IcordHdr) (i : Nat) (epoch : DWord), s.hears h 0x13 i → s.firmware = true →
    s.modState ≠ 0 → s.modState ≠ 8 →
    Runs (.icordShed h 1 epoch) s fun t =>
      t.rd R.PWR.SHED_EPOCH = epoch.toNat ∧ (t.rd R.PWR.SHED_STAT).testBit 0 = true ∧
      t.out.getLast? = some (.icord h.port 0x93 h.seq.toNat 0 0 .empty)) ∧
  (∀ (s : State) (h : IcordHdr) (i : Nat) (epoch : DWord), s.hears h 0x13 i → s.firmware = true →
    s.modState ≠ 0 → s.modState ≠ 8 → s.rd R.PWR.SHED_STAT / 2 ≠ 0 →
    Runs (.icordShed h 2 epoch) s fun t =>
      Raised .SHED_REFUSED s t ∧ t.rd R.PWR.SHED_STAT = s.rd R.PWR.SHED_STAT ∧
      t.out.getLast? = some (.icord h.port 0x93 h.seq.toNat 4 0 (.bytes (leBytes 2 Err.SHED_REFUSED.code)))) ∧
  (∀ (s : State) (h : IcordHdr) (i : Nat) (test part : BitVec 3), s.hears h 0x16 i → s.firmware = true → s.busyFor h.busy 0x16 = none →
    s.modState ≠ 0 → s.modState ≠ 8 → s.katRefused test.toNat part.toNat = false →
    Runs (.icordFieldTest h test part) s fun t =>
      t.nose.kat = some (test.toNat, part.toNat) ∧ t.rd R.NOSE.KAT_STAT.RUNNING = 1 ∧
      t.out.getLast? = some (.icord h.port 0x96 h.seq.toNat 0 0 .empty) ∧ Alters [.cells, .wbuf, .nose, .mgmt, .out] s t) ∧
  (∀ (s : State) (h : IcordHdr) (i : Nat) (test part : BitVec 3), s.hears h 0x16 i → s.firmware = true → s.busyFor h.busy 0x16 = none →
    s.modState ≠ 0 → s.modState ≠ 8 → s.katRefused test.toNat part.toNat = true →
    Runs (.icordFieldTest h test part) s fun t =>
      Raised .KAT_REFUSED s t ∧ t.nose = s.nose ∧
      t.out.getLast? = some (.icord h.port 0x96 h.seq.toNat 4 0 (.bytes (leBytes 2 Err.KAT_REFUSED.code)))) ∧
  (∀ (s : State) (h : IcordHdr) (i : Nat) (slot : Fin 2) (off : BitVec 25) (bs : List Byte), s.hears h 0x20 i →
    s.firmware = true → s.busyFor h.busy 0x20 = none → bs.length ≤ 1024 → off.toNat + bs.length ≤ 2 ^ 25 →
    (s.loaded slot = false ∨ s.modState = 8) →
    let base := slot.val * 2 ^ 25
    Runs (.imageWrite h slot off bs) s fun t =>
      (∀ k ∈ List.range bs.length, Cells.get 0xFF#8 t.boot.images (base + off.toNat + k) = bs.getD k 0) ∧
      (∀ o : Nat, (o < base + off.toNat ∨ base + off.toNat + bs.length ≤ o) →
        Cells.get 0xFF#8 t.boot.images o = (blockBegun off.toNat bs.length).elim (Cells.get 0xFF#8 s.boot.images o) (fun b =>
          if base + b ≤ o ∧ o < base + b + 65536 then 0xFF#8 else Cells.get 0xFF#8 s.boot.images o)) ∧
      t.out.getLast? = some (.icord h.port 0xA0 h.seq.toNat 0 0 .empty) ∧ Alters [.boot, .mgmt, .out] s t) ∧
  (∀ (s : State) (h : IcordHdr) (i : Nat) (slot : Fin 2), s.hears h 0x21 i → s.firmware = true → s.busyFor h.busy 0x21 = none →
    s.modState ≠ 0 →
    Runs (.imageSelect h slot) s fun t =>
      t.boot = { s.boot with prefer := slot } ∧ t.rd R.CFG.BOOT_CTRL.PREFER = slot ∧
      t.out.getLast? = some (.icord h.port 0xA1 h.seq.toNat 0 0 .empty) ∧ Alters [.cells, .wbuf, .boot, .mgmt, .out] s t) ∧
  (∀ (s : State) (h : IcordHdr) (i : Nat) (off len : BitVec 16), s.hears h 0x22 i → s.firmware = true → s.busyFor h.busy 0x22 = none →
    len.toNat ≤ 1024 → off.toNat + len.toNat ≤ tagBytes →
    Runs (.tagRead h off len) s fun t =>
      t.out = s.out ++ [Out.icord h.port 0xA2 h.seq.toNat 0 0 (.bytes (s.tagRead off.toNat len.toNat))] ∧
      Counted R.TAG.CRC_BAD (s.badRecords off.toNat len.toNat) s t ∧
      Confined [.mgmt, .out] [R.TAG.CRC_BAD, R.TAG.CRC_BAD.ovf] s t) ∧
  (∀ (s : State) (h : IcordHdr) (i : Nat) (area : BitVec 2) (bs : List Byte), s.hears h 0x23 i → s.firmware = true →
    s.busyFor h.busy 0x23 = none → s.modState ≠ 0 → (area = 1 ∨ area = 2) → bs.length = 32 → s.tag.queue.length < tagQueueMax →
    let r : TagRec := ⟨area.toNat, leNat (bs.take 2), leNat ((bs.drop 2).take 1), leNat ((bs.drop 8).take 8),
      (bs.drop 16).take 12, s.now, 0, s.on R.TAG.STAT.RF_SESSION⟩
    Runs (.tagWrite h area bs) s fun t =>
      t.tag.queue = s.tag.queue ++ [r] ∧ t.out.getLast? = some (.icord h.port 0xA3 h.seq.toNat 0 0 .empty)) ∧
  (∀ (s : State) (h : IcordHdr) (i : Nat) (area : BitVec 2) (bs : List Byte), s.hears h 0x23 i → s.firmware = true →
    s.busyFor h.busy 0x23 = none → s.modState ≠ 0 → area ≠ 1 → area ≠ 2 → bs.length = 32 →
    Runs (.tagWrite h area bs) s fun t =>
      Raised .TAG_AREA s t ∧
      t.out.getLast? = some (.icord h.port 0xA3 h.seq.toNat 4 0 (.bytes (leBytes 2 Err.TAG_AREA.code)))) ∧
  (∀ (s : State) (h : IcordHdr) (i kind idx : Nat), s.hears h 0x24 i → s.firmware = true → s.busyFor h.busy 0x24 = none →
    Runs (.lifeRead h kind idx) s fun t =>
      t.out = s.out ++ (IcordBody.split (.life (((s.flash s.lead).filter fun r => decide (r.kind = kind))[idx]?))).map
        (Out.icord h.port 0xA4 h.seq.toNat 0 0) ∧
      Alters [.mgmt, .out] s t) ∧
  (∀ (s : State) (h : IcordHdr) (i : Nat), s.hears h 0x25 i → s.firmware = true → s.busyFor h.busy 0x25 = none →
    Runs (.ledgerRead h) s fun t =>
      t.out = s.out ++ (IcordBody.split (.words (s.wordsShown pgLEDG (pgLEDG + 0x1000) ++
        s.wordsShown R.PWR.QIN54.addr (R.PWR.QRESID.addr + 8)))).map (Out.icord h.port 0xA5 h.seq.toNat 0 0) ∧
      Alters [.mgmt, .out] s t) ∧
  (∀ (ws : List Nat),
    (∀ y ∈ (IcordBody.words ws).split, ∃ v, y = .words v ∧ 4 * v.length ≤ 1400) ∧
    ((IcordBody.words ws).split.flatMap fun y => match y with | .words v => v | _ => []) = ws) ∧
  (∀ (s : State) (h : IcordHdr) (i idx : Nat), s.hears h 0x26 i → s.firmware = true → s.busyFor h.busy 0x26 = none →
    Runs (.logRead h idx) s fun t =>
      t.out = s.out ++ [Out.icord h.port 0xA6 h.seq.toNat 0 0 (.log ((s.island.log.drop idx).take logPerAnswer))] ∧
      Alters [.mgmt, .out] s t)

/-- Requests that are not served (R461 to R466): one for another serial gets no answer; one of an unlisted source, or with a
SEQ that is not ahead, is DENIED; one that is too long, or of a TYPE that is not listed, is BAD; a class that exceeds its
share answers BUSY, with a delay that the firmware may name. Class 0 acts on the island, from any controller. The host's
mailbox (R466, R467): GO while a request waits raises TRIG_BUSY; POWER_OFF and WARM_RESET are refused with MGMT_PATH; a
request waits until firmware runs, and is answered in MBOX_STAT: BAD, BUSY, or served. The model's reading: log entries 18,
58, 114. -/
def Obligations.IcordRequestsAreJudged : Prop :=
  (∀ (s : State) (h : IcordHdr) (slot : Fin 2), h.serial.toNat ≠ s.fuses.serial →
    Runs (.imageSelect h slot) s fun t => t = s) ∧
  (∀ (s : State) (h : IcordHdr) (slot : Fin 2), oddType h = false → s.handles h 0x21 = true → s.ctlSlot h.addr.toNat = none →
    Runs (.imageSelect h slot) s fun t =>
      t.boot = s.boot ∧ t.mgmt = s.mgmt ∧ Counted R.MGMT.ICORD_DENIED 1 s t ∧ Raised .ICORD_DENIED s t ∧
      t.out.getLast? = some (.icord h.port 0xA1 h.seq.toNat 2 0 .empty) ∧
      Confined Part.err (R.MGMT.ICORD_DENIED :: R.MGMT.ICORD_DENIED.ovf :: errFields pgMGMT .ICORD_DENIED Err.ICORD_DENIED.cls) s t) ∧
  (∀ (s : State) (h : IcordHdr) (i : Nat) (w : List (BitVec 26 × Word)), oddType h = false → s.handles h 0x11 = true →
    s.ctlSlot h.addr.toNat = some i → s.seqFresh i h.seq.toNat = false →
    Runs (.regWrite h w) s fun t =>
      t.mgmt = s.mgmt ∧ Counted R.MGMT.ICORD_DENIED 1 s t ∧ Raised .ICORD_DENIED s t ∧
      t.out.getLast? = some (.icord h.port 0x91 h.seq.toNat 2 0 .empty) ∧
      Confined Part.err (R.MGMT.ICORD_DENIED :: R.MGMT.ICORD_DENIED.ovf :: errFields pgMGMT .ICORD_DENIED Err.ICORD_DENIED.cls) s t) ∧
  (∀ (s : State) (h : IcordHdr) (i : Nat) (off len : BitVec 16) (ms : Nat), s.hears h 0x22 i → s.busyFor h.busy 0x22 = some ms →
    Runs (.tagRead h off len) s fun t =>
      t.out = s.out ++ [Out.icord h.port 0xA2 h.seq.toNat 1 (max 10 (min 10000 ms)) .empty] ∧ t.mgmt = s.mgmt ∧
      Counted R.MGMT.ICORD_BUSY 1 s t ∧ Confined [.out] [R.MGMT.ICORD_BUSY, R.MGMT.ICORD_BUSY.ovf] s t) ∧
  (∀ (s : State) (h : IcordHdr) (i : Nat) (off len : BitVec 16), s.hears h 0x22 i → s.busyFor h.busy 0x22 = none →
    (1024 < len.toNat ∨ tagBytes < off.toNat + len.toNat) →
    Runs (.tagRead h off len) s fun t =>
      t.out = s.out ++ [Out.icord h.port 0xA2 h.seq.toNat 3 0 .empty] ∧ Alters [.mgmt, .out] s t) ∧
  (∀ (s : State) (h : IcordHdr) (i : Nat) (off len : BitVec 16) (ms : Nat), s.hears h 0x22 i → h.busy = some ms →
    s.mgmt.unmet.testBit 3 = true →
    Runs (.tagRead h off len) s fun t =>
      t.out = s.out ++ [Out.icord h.port 0xA2 h.seq.toNat 1 (max 10 (min 10000 ms)) .empty]) ∧
  (∀ (s : State) (h : IcordHdr) (i : Nat) (offs : List (BitVec 26)) (x : BitVec 8), h.type = some x → typeListed x.toNat = false →
    s.handles h x.toNat = true → s.ctlSlot h.addr.toNat = some i → s.seqFresh i h.seq.toNat = true →
    s.busyFor h.busy x.toNat = none →
    Runs (.regRead h offs) s fun t =>
      t = (s.takeSeq i h.seq.toNat).emit (.icord h.port (x.toNat % 0x80 + 0x80) h.seq.toNat 3 0 .empty)) ∧
  (∀ (s : State) (h : IcordHdr) (i : Nat), s.hearsZero h i → s.modState ≠ 7 →
    Runs (.powerOff h) s fun t =>
      t.rd R.MOD.STATE = 7 ∧ t.rd R.PWR.DD_LAST.CAUSE = Err.DD_REQUESTED.code ∧ Raised .DD_REQUESTED s t ∧
      .icord h.port 0x94 h.seq.toNat 0 0 .empty ∈ t.out ∧ Cells.get 0 t.mgmt.ctlSeq i = h.seq.toNat + 1 ∧
      Alters (Part.err ++ [Part.fab, Part.power, Part.mgmt, Part.life]) s t) ∧
  (∀ (s : State) (h : IcordHdr) (i : Nat), s.hearsZero h i → s.modState ≠ 7 → s.power.dry = none →
    Runs (.icordWarmReset h) s fun t =>
      t.rd R.MOD.STATE = 1 ∧ t.rd R.CFG.BOOT_STAT.WARM = 1 ∧ t.power.dry = some ⟨s.now, 1, s.now, true, 0⟩ ∧
      .icord h.port 0x95 h.seq.toNat 0 0 .empty ∈ t.out ∧ Alters (Part.err ++ [Part.fab, Part.power, Part.mgmt]) s t) ∧
  (∀ (s : State) (h : IcordHdr) (i : Nat), oddType h = false → s.modState ≠ 0 → s.portUp h.port = true → h.serial.toNat = s.fuses.serial →
    s.ctlSlot h.addr.toNat = some i → s.seqFresh i h.seq.toNat = false →
    Runs (.powerOff h) s fun t =>
      t.rd R.MOD.STATE = s.rd R.MOD.STATE ∧ t.power = s.power ∧ Counted R.MGMT.ICORD_DENIED 1 s t ∧
      t.out.getLast? = some (.icord h.port 0x94 h.seq.toNat 2 0 .empty) ∧
      Confined Part.err (R.MGMT.ICORD_DENIED :: R.MGMT.ICORD_DENIED.ovf :: errFields pgMGMT .ICORD_DENIED Err.ICORD_DENIED.cls) s t) ∧
  (∀ (s : State) (p : Path) (type len : BitVec 8) (busy : Option Nat), s.reaches p R.MGMT.MBOX_CTRL.GO.addr none →
    let u := s.taken p R.MGMT.MBOX_CTRL.GO.addr 4
    u.rd R.MGMT.MBOX_STAT.STATE = 1 →
    Runs (.mboxRequest p type len busy) s fun t =>
      Raised .TRIG_BUSY u t ∧
      Confined Part.err ([R.MGMT.MBOX_CTRL.TYPE, R.MGMT.MBOX_CTRL.LEN] ++ errFields pgMGMT .TRIG_BUSY Err.TRIG_BUSY.cls) u t) ∧
  (∀ (s : State) (p : Path) (type len : BitVec 8) (busy : Option Nat), s.reaches p R.MGMT.MBOX_CTRL.GO.addr none →
    let u := s.taken p R.MGMT.MBOX_CTRL.GO.addr 4
    u.rd R.MGMT.MBOX_STAT.STATE ≠ 1 → (type = 0x14 ∨ type = 0x15) →
    Runs (.mboxRequest p type len busy) s fun t =>
      t.rd R.MGMT.MBOX_STAT.STATE = 2 ∧ t.rd R.MGMT.MBOX_STAT.STATUS = 4 ∧ Raised .MGMT_PATH u t ∧
      t.rd R.MOD.STATE = u.rd R.MOD.STATE ∧ t.rd (R.MGMT.MBOX_RESP 0) = Err.MGMT_PATH.code ∧ Alters Part.err u t) ∧
  (∀ (s : State) (p : Path) (type len : BitVec 8) (busy : Option Nat), s.reaches p R.MGMT.MBOX_CTRL.GO.addr none →
    let u := s.taken p R.MGMT.MBOX_CTRL.GO.addr 4
    u.rd R.MGMT.MBOX_STAT.STATE ≠ 1 → type ≠ 0x14 → type ≠ 0x15 → u.firmware = false →
    Runs (.mboxRequest p type len busy) s fun t =>
      t.rd R.MGMT.MBOX_STAT.STATE = 1 ∧ t.rd R.MGMT.MBOX_CTRL.TYPE = type.toNat ∧ t.rd R.MGMT.MBOX_CTRL.LEN = len.toNat ∧
      Confined [] [R.MGMT.MBOX_CTRL.TYPE, R.MGMT.MBOX_CTRL.LEN, R.MGMT.MBOX_STAT.STATE] u t) ∧
  (∀ (s : State) (p : Path) (type len : BitVec 8) (ms : Nat), s.reaches p R.MGMT.MBOX_CTRL.GO.addr none →
    let u := s.taken p R.MGMT.MBOX_CTRL.GO.addr 4
    u.rd R.MGMT.MBOX_STAT.STATE ≠ 1 → type ∉ [0x12, 0x13, 0x14, 0x15] → u.firmware = true →
    u.mgmt.unmet.testBit (typeClass type.toNat) = true →
    Runs (.mboxRequest p type len (some ms)) s fun t =>
      t.rd R.MGMT.MBOX_STAT.STATE = 2 ∧ t.rd R.MGMT.MBOX_STAT.STATUS = 1 ∧
      t.rd R.MGMT.MBOX_STAT.RETRY_MS = max 10 (min 10000 ms) ∧ Counted R.MGMT.MBOX_BUSY 1 u t ∧
      Alters [.cells, .msix, .out] u t) ∧
  (∀ (s : State) (p : Path) (type len : BitVec 8), s.reaches p R.MGMT.MBOX_CTRL.GO.addr none →
    let u := s.taken p R.MGMT.MBOX_CTRL.GO.addr 4
    u.rd R.MGMT.MBOX_STAT.STATE ≠ 1 → type ≠ 0x14 → type ≠ 0x15 → u.firmware = true →
    (64 < len ∨ parseBody type.toNat (u.mboxBytes.take len.toNat) = none) →
    Runs (.mboxRequest p type len none) s fun t =>
      t.rd R.MGMT.MBOX_STAT.STATE = 2 ∧ t.rd R.MGMT.MBOX_STAT.STATUS = 3 ∧ Alters [.cells, .msix, .out] u t) ∧
  (∀ (s : State) (p : Path) (len : BitVec 8) (slot : Nat), s.reaches p R.MGMT.MBOX_CTRL.GO.addr none →
    let u := s.taken p R.MGMT.MBOX_CTRL.GO.addr 4
    u.rd R.MGMT.MBOX_STAT.STATE ≠ 1 → u.firmware = true → len ≤ 64 →
    parseBody 0x21 (u.mboxBytes.take len.toNat) = some (.imageSelect slot) →
    Runs (.mboxRequest p 0x21 len none) s fun t =>
      t.boot.prefer = slot ∧ t.rd R.MGMT.MBOX_STAT.STATE = 2 ∧ t.rd R.MGMT.MBOX_STAT.STATUS = 0)

/-- Seals (R472): a seal takes the next SEQ and the tick, holds the ledgers as they stand, and the two latest are kept; a
period of 0 seals nothing. The model's reading: log entries 54, 59. -/
def Obligations.LedgersAreSealed : Prop :=
  (∀ (s : State), s.modState ≠ 0 → s.rd R.LEDG.SEAL_CTRL.PERIOD_S ≠ 0 →
    let n := (s.rd R.LEDG.SEAL_SEQ + 1) % 2 ^ 32
    let x : Seal := ⟨n, s.time, false, Cells.clear s.regs.cells fun k => !ledgerKey k, s.island.links, s.island.releases⟩
    Runs .ledgerSeal s fun t =>
      t.island = { s.island with seals := (x :: s.island.seals).take 2 } ∧ t.rd R.LEDG.SEAL_SEQ = n ∧
      t.rd R.LEDG.SEAL_TICK = s.time % 2 ^ 64 ∧ Confined [.island] [R.LEDG.SEAL_SEQ, R.LEDG.SEAL_TICK] s t) ∧
  (∀ (s : State), s.rd R.LEDG.SEAL_CTRL.PERIOD_S = 0 → Runs .ledgerSeal s fun t => t = s) ∧
  (∀ (s : State) (p : Path), s.reaches p R.LEDG.SEAL_CTRL.GO.addr none →
    let u := s.taken p R.LEDG.SEAL_CTRL.GO.addr 4
    let n := (u.rd R.LEDG.SEAL_SEQ + 1) % 2 ^ 32
    let x : Seal := ⟨n, u.time, false, Cells.clear u.regs.cells fun k => !ledgerKey k, u.island.links, u.island.releases⟩
    Runs (.sealNow p) s fun t =>
      t.island = { u.island with seals := (x :: u.island.seals).take 2 } ∧ t.rd R.LEDG.SEAL_SEQ = n ∧
      t.rd R.LEDG.SEAL_TICK = u.time % 2 ^ 64 ∧ Confined [.island] [R.LEDG.SEAL_SEQ, R.LEDG.SEAL_TICK] u t) ∧
  (∀ (s : State) (p : Path) (charge token event : Bool), s.reaches p R.LEDG.ACK_OPEN.CHARGE.addr none →
    let u := s.taken p R.LEDG.ACK_OPEN.CHARGE.addr 4
    Runs (.ackOpen p charge token event) s fun t =>
      t.rd R.LEDG.STATE.CHARGE = (if charge = true ∧ u.rd R.LEDG.STATE.CHARGE = 1 then 3 else u.rd R.LEDG.STATE.CHARGE) ∧
      t.rd R.LEDG.STATE.TOKEN = (if token = true ∧ u.rd R.LEDG.STATE.TOKEN = 1 then 3 else u.rd R.LEDG.STATE.TOKEN) ∧
      t.rd R.LEDG.STATE.EVENT = (if event = true ∧ u.rd R.LEDG.STATE.EVENT = 1 then 3 else u.rd R.LEDG.STATE.EVENT) ∧
      Confined [] [R.LEDG.STATE.CHARGE, R.LEDG.STATE.TOKEN, R.LEDG.STATE.EVENT] u t)

/-- Records of life (R475, R476, R484): a record is taken with its tick, and its Flacon summary is queued when it is due;
ageing raises a domain's offset with its worst tile and never lowers it; SERVICE shows what to replace and to swap. The
model's reading: log entries 20, 59. -/
def Obligations.LifeAndServiceAreKept : Prop :=
  (∀ (s : State) (x : LifeInput), s.firmware = true → lifeFits x = true →
    let u := s.reportWear x
    Runs (.lifetimeRecord x false) s fun t =>
      t.flash s.lead = s.flash s.lead ++ [⟨lifeKind x, u.lifeValues x, s.time, s.on R.TB.STAT.SET_DONE, s.ptp.utc⟩] ∧
      t.flash (otherCard s.lead) = s.flash (otherCard s.lead) ∧ Alters [.life] u t) ∧
  (∀ (s : State) (i : Fin 4) (spare erase tb : Nat) (h : List Nat), s.firmware = true → h.length = 16 →
    s.on (R.FLASH.SLED_STAT.PRESENT i) = true → spare ≤ 100 →
    Runs (.lifetimeRecord (.wear i spare erase tb h) false) s fun t =>
      t.rd (R.FLASH.SLED_STAT.SPARE_PCT i) = spare ∧ t.rd (R.FLASH.SLED_STAT.ERASE_MAX i) = min 0xFFFF erase ∧
      (spare = 0 → s.on (R.FLASH.SLED_STAT.WORN i) = false → t.on (R.FLASH.SLED_STAT.WORN i) = true ∧ Raised .SLED_WORN s t) ∧
      (∃ r ∈ t.flash s.lead, r.kind = 4 ∧ r.values = [i.val, min 0xFFFF erase, spare, tb] ++ h) ∧
      Alters (Part.err ++ [Part.life]) s t) ∧
  (∀ (s : State) (x : LifeInput) (y : Nat × List Byte), s.firmware = true → lifeFits x = true →
    let u := s.reportWear x
    let a := u.setFlash s.lead (s.flash s.lead ++
      [⟨lifeKind x, u.lifeValues x, s.time, s.on R.TB.STAT.SET_DONE, s.ptp.utc⟩])
    a.lifeSummary x = some y → u.tag.queue.length < tagQueueMax →
    Runs (.lifetimeRecord x true) s fun t =>
      t.life = a.life ∧
      t.tag.queue = u.tag.queue ++ [⟨1, y.1, s.rd R.TB.STAT.SET_DONE, s.time, y.2, s.now, 0, s.on R.TAG.STAT.RF_SESSION⟩] ∧
      Confined [.tag, .life] [R.TAG.STAT.QUEUE, R.TAG.DEFERS, R.TAG.DEFERS.ovf] u t) ∧
  (∀ (s : State) (ppm : List Nat) (d : Fin 84), s.firmware = true → s.modState ≠ 0 → ppm.length = physTiles →
    Runs (.ageingOffset ppm) s fun t =>
      offsetMv (t.rd (R.PDOM.VTARGET.OFFSET_MV d)) =
        min 50 (max (offsetMv (s.rd (R.PDOM.VTARGET.OFFSET_MV d))) (worstOf ppm d / 1000 : Nat)) ∧
      Alters [.cells, .power] s t) ∧
  (∀ (s : State) (optic : Bool), s.firmware = true →
    Runs (.serviceUpdate optic) s fun t =>
      t.rd R.MGMT.SERVICE.REPLACE = s.replaceBits % 32 ∧ t.rd R.MGMT.SERVICE.SWAP = s.swapBits optic % 16 ∧
      Alters [.free, .cells, .tag, .msix, .out] s t)

/-- Wired access (R479, R480): RD_ADDR reads the 32 bytes of the tag at its slot; WR_CTRL queues the record that WR_DATA
holds, from the sideband only and for areas 1 and 2; a commit writes the slot that follows the latest, with the next SEQ; one
that does not read back as written is tried three times. The model's reading: log entry 60. -/
def Obligations.WiredRecordsAreCommitted : Prop :=
  (∀ (s : State) (p : Path) (byte : BitVec 13) (j : Fin 8), s.reaches p R.TAG.RD_ADDR.GO.addr none →
    let u := s.taken p R.TAG.RD_ADDR.GO.addr 4
    Runs (.tagRd p byte) s fun t =>
      t.rd R.TAG.RD_ADDR.BYTE = byte.toNat ∧
      t.rd (R.TAG.RD_DATA j) = leNat (s.tagRead (byte.toNat / 32 * 32 + 4 * j) 4) ∧
      Confined [] ([R.TAG.RD_ADDR.BYTE, R.TAG.CRC_BAD, R.TAG.CRC_BAD.ovf] ++ (List.range 8).map R.TAG.RD_DATA) u t) ∧
  (∀ (s : State) (c : Port) (area : BitVec 2), s.reaches (.sideband c) R.TAG.WR_CTRL.GO.addr none → (area = 1 ∨ area = 2) →
    s.tag.queue.length < tagQueueMax →
    let bs := s.wrData
    Runs (.tagWr (.sideband c) area) s fun t =>
      t.tag = { s.tag with queue := s.tag.queue ++ [⟨area.toNat, leNat (bs.take 2), leNat ((bs.drop 2).take 1),
        leNat ((bs.drop 8).take 8), (bs.drop 16).take 12, s.now, 0, s.on R.TAG.STAT.RF_SESSION⟩] } ∧
      Alters [.cells, .wbuf, .tag] s t) ∧
  (∀ (s : State) (c : Port) (area : BitVec 2), s.reaches (.sideband c) R.TAG.WR_CTRL.GO.addr none → area ≠ 1 → area ≠ 2 →
    Runs (.tagWr (.sideband c) area) s fun t => Raised .TAG_AREA s t ∧ Alters (Part.err ++ [Part.wbuf]) s t) ∧
  (∀ (s : State) (port : Port) (fn : Fin 9) (area : BitVec 2), s.reaches (.host port fn) R.TAG.WR_CTRL.GO.addr none →
    Runs (.tagWr (.host port fn) area) s fun t =>
      Raised .MGMT_PATH s t ∧ Alters (Part.err ++ [Part.wbuf]) s t) ∧
  (∀ (s : State) (r : TagRec) (l : List TagRec), s.tag.queue = r :: l → s.tagFree = true → s.modState ≠ 0 →
    let q := s.nextSeq r.area
    Runs (.tagCommitDone true) s fun t =>
      t.tag.queue = l ∧
      t.tag.bytes = Cells.putBytes s.tag.bytes ((tagArea r.area).1 + 32 * s.nextSlot r.area r.type) (recordBytes r q) ∧
      t.rd R.TAG.LAST_SEQ = q % 2 ^ 32 ∧ Counted R.TAG.COMMITS 1 s t ∧ t.on R.TAG.STAT.RF_HELD = false ∧
      (r.area = 3 → t.rd R.PWR.DD_LAST.COMPLETE = 1 ∧ t.rd R.PWR.DD_LAST.STEP = 11) ∧ Alters [.cells, .tagBytes, .tag] s t) ∧
  (∀ (s : State) (r : TagRec) (l : List TagRec), s.tag.queue = r :: l → s.tagFree = true → r.fails < 2 →
    Runs (.tagCommitDone false) s fun t =>
      t.tag.queue = { r with fails := r.fails + 1 } :: l ∧ Counted R.TAG.VERIFY_FAILS 1 s t ∧
      (∀ a : Nat, (a < (tagArea r.area).1 + 32 * s.nextSlot r.area r.type ∨
        (tagArea r.area).1 + 32 * s.nextSlot r.area r.type + 32 ≤ a) → Cells.get 0 t.tag.bytes a = Cells.get 0 s.tag.bytes a) ∧
      Alters [.free, .cells, .tagBytes, .tag] s t) ∧
  (∀ (s : State) (r : TagRec) (l : List TagRec), s.tag.queue = r :: l → s.tagFree = true → 2 ≤ r.fails →
    Runs (.tagCommitDone false) s fun t =>
      Raised .TAG_WRITE_FAIL s t ∧ Counted R.TAG.VERIFY_FAILS 1 s t ∧ Alters (Part.err ++ [Part.tagBytes]) s t)

/-- RF (R478, R481): a command starts or continues a session and is answered; blocks are read anywhere in the tag and written
in the technician log only; a session ends 500 ms after its last command or with the field; a record that has waited 2 s holds
the RF side, which then answers nothing. The model's reading: log entries 15, 60. -/
def Obligations.RfSessionsAreServed : Prop :=
  (∀ (s : State), s.on R.TAG.STAT.RF_HELD = false →
    Runs .rfInventory s fun t =>
      t.out = s.out ++ [Out.rf (.inventory Config.tagUid)] ∧ t.on R.TAG.STAT.RF_SESSION = true ∧
      t.tag = { s.deferQueue.tag with lastRf := some s.now } ∧
      Confined [.tag, .out] [R.TAG.STAT.RF_FIELD, R.TAG.STAT.RF_SESSION, R.TAG.DEFERS, R.TAG.DEFERS.ovf] s t) ∧
  (∀ (s : State), s.on R.TAG.STAT.RF_HELD = false → s.on R.TAG.STAT.RF_SESSION = false →
    Runs .rfInventory s fun t =>
      Counted R.TAG.DEFERS (s.tag.queue.filter fun r => !r.waited).length s t ∧
      t.tag.queue = s.tag.queue.map fun r => { r with waited := true }) ∧
  (∀ (s : State), s.on R.TAG.STAT.RF_HELD = false → s.on R.TAG.STAT.RF_SESSION = true →
    Runs .rfInventory s fun t => t.rd R.TAG.DEFERS = s.rd R.TAG.DEFERS ∧ t.tag.queue = s.tag.queue) ∧
  (∀ (s : State), s.on R.TAG.STAT.RF_HELD = true → Runs .rfInventory s fun t => t = s) ∧
  (∀ (s : State), s.on R.TAG.STAT.RF_HELD = false →
    Runs .getSystemInformation s fun t =>
      t.out = s.out ++ [Out.rf (.info Config.tagUid 2048)] ∧ t.tag = { s.deferQueue.tag with lastRf := some s.now } ∧
      Confined [.tag, .out] [R.TAG.STAT.RF_FIELD, R.TAG.STAT.RF_SESSION, R.TAG.DEFERS, R.TAG.DEFERS.ovf] s t) ∧
  (∀ (s : State) (n : BitVec 16), s.on R.TAG.STAT.RF_HELD = false →
    Runs (.readSingleBlock n) s fun t =>
      t.out = s.out ++ [Out.rf (if n.toNat < 2048 then .blocks (s.tagRead (4 * n.toNat) 4) else .unavailable)] ∧
      t.tag = { s.deferQueue.tag with lastRf := some s.now } ∧
      Confined [.tag, .out] [R.TAG.STAT.RF_FIELD, R.TAG.STAT.RF_SESSION, R.TAG.DEFERS, R.TAG.DEFERS.ovf] s t) ∧
  (∀ (s : State) (n count : BitVec 16), s.on R.TAG.STAT.RF_HELD = false →
    Runs (.readMultipleBlocks n count) s fun t =>
      t.out = s.out ++ [Out.rf (if n.toNat + count.toNat ≤ 2048 then .blocks (s.tagRead (4 * n.toNat) (4 * count.toNat)) else .unavailable)] ∧
      t.tag = { s.deferQueue.tag with lastRf := some s.now } ∧
      Confined [.tag, .out] [R.TAG.STAT.RF_FIELD, R.TAG.STAT.RF_SESSION, R.TAG.DEFERS, R.TAG.DEFERS.ovf] s t) ∧
  (∀ (s : State) (n : BitVec 16) (v : Word), s.on R.TAG.STAT.RF_HELD = false →
    let log := decide (0x1400 ≤ 4 * n.toNat ∧ 4 * n.toNat < 0x1C00)
    Runs (.writeSingleBlock n v) s fun t =>
      t.out = s.out ++ [Out.rf (if log then .written else if n.toNat < 2048 then .locked else .unavailable)] ∧
      t.tag.bytes = (if log then Cells.putBytes s.tag.bytes (4 * n.toNat) (leBytes 4 v.toNat) else s.tag.bytes) ∧
      t.rd R.TAG.RF_REFUSED = (if log = false ∧ n.toNat < 2048 then min ctMax (s.rd R.TAG.RF_REFUSED + 1) else s.rd R.TAG.RF_REFUSED) ∧
      Confined [.tagBytes, .tag, .out] [R.TAG.STAT.RF_FIELD, R.TAG.STAT.RF_SESSION, R.TAG.DEFERS, R.TAG.DEFERS.ovf,
        R.TAG.RF_REFUSED, R.TAG.RF_REFUSED.ovf] s t) ∧
  (∀ (s : State) (lost : Bool), s.on R.TAG.STAT.RF_SESSION = true →
    (lost = true ∨ (s.tag.lastRf.any fun n => decide (n + rfIdle ≤ s.now)) = true) →
    Runs (.rfSessionEnd lost) s fun t =>
      t.on R.TAG.STAT.RF_SESSION = false ∧ t.on R.TAG.STAT.RF_HELD = false ∧ t.tag = { s.tag with lastRf := none } ∧
      (t.rd (R.PG.IRQ_RAW.BLOCK pgTAG)).testBit 1 = true ∧ Alters [.cells, .tag, .msix, .out] s t) ∧
  (∀ (s : State), (∃ r ∈ s.tag.queue, r.since + rfPatience ≤ s.now) → s.on R.TAG.STAT.RF_SESSION = true →
    s.on R.TAG.STAT.RF_HELD = false →
    Runs .rfHold s fun t =>
      t.on R.TAG.STAT.RF_HELD = true ∧ Counted R.TAG.RF_HOLDS 1 s t ∧
      Confined [] [R.TAG.STAT.RF_HELD, R.TAG.RF_HOLDS, R.TAG.RF_HOLDS.ovf] s t)

/-! ### Host -/

/-- Ports and functions (R486 to R493, R497 to R503, R532): a port trains and presents its functions, and attaches and serves the
partitions that prefer it or have none where its PF may master the bus; one that detaches fails over to the other, with the
requests that it had not completed first, or the host is lost; a function's claims and rearmed vectors are its own, and an FLR
pauses its partition's queues; a partition moves to its preferred port when its transfers have ended. BAR2 of a function has the
doorbells that it sees, its function page and its MSI-X table. A port sends one request of a partition a turn. The model's reading: log
entries 61, 119, 120, 121. -/
def Obligations.PortsServeTheirFunctions : Prop :=
  (∀ (s : State) (port : Port) (width rate : Nat) (cfg : PortCfg), s.modState ≠ 0 → s.attached port = false →
    width ∈ [1, 2, 4, 8, 16] → 1 ≤ rate → rate ≤ 6 → cfgOk cfg = true → cfg.master = true → cfg.d3 = false →
    let i := portIx port
    Runs (.portAttach port width rate cfg) s fun t =>
      t.attached port = true ∧ t.on (R.HOST.PORT_STAT.LINK_UP i) = true ∧ t.on (R.HOST.PORT_STAT.VF_EN i) = cfg.vfEn ∧
      t.rd (R.HOST.PORT_STAT.WIDTH i) = width ∧ t.rd (R.HOST.PORT_STAT.RATE i) = rate ∧ t.portCfg port = cfg ∧
      t.rd (R.HOST.PORT_STAT.REACH i) = (if cfg.vfEn then cfg.vfMaster.toNat else 255) ∧
      (s.on (R.HOST.PORT_STAT.LINK_UP i) = false → .function port 0 0x1F5E 0x0960 0x120000 s.fuses.serial ∈ t.out) ∧
      (cfg.vfEn = true → s.on (R.HOST.PORT_STAT.VF_EN i) = false →
        ∀ v ∈ List.range 8, .function port (v + 1) 0x1F5E 0x0961 0x120000 s.fuses.serial ∈ t.out) ∧
      (∀ p ∈ List.range 8, t.rd (R.HOST.PART_SERVE p) =
        (if (s.rd (R.HOST.PART_SERVE p) = 0 ∧ (s.attached .a = true ∨ port = .a)) ∨
          (s.rd (R.HOST.PART_SERVE p) = 1 ∧ (s.attached .b = true ∨ port = .b)) then s.rd (R.HOST.PART_SERVE p)
        else if s.attached (s.preferred p) = true ∨ s.preferred p = port then portIx (s.preferred p)
        else portIx port)) ∧
      Alters [.cells, .msix, .host, .out] s t) ∧
  (∀ (s : State) (port : Port) (width rate : Nat) (cfg : PortCfg), s.modState ≠ 0 → s.attached port = false →
    linkOk width rate = true → cfgOk cfg = true → cfg.master = false →
    Runs (.portAttach port width rate cfg) s fun t =>
      t.attached port = false ∧ t.on (R.HOST.PORT_STAT.LINK_UP (portIx port)) = true ∧
      (∀ p ∈ List.range 8, t.rd (R.HOST.PART_SERVE p) = s.rd (R.HOST.PART_SERVE p)) ∧ Alters [.cells, .msix, .host, .out] s t) ∧
  (∀ (s : State) (port : Port) (resent : Nat), s.attached port = false → s.on (R.HOST.PORT_STAT.LINK_UP (portIx port)) = true →
    Runs (.portDetach port false resent) s fun t =>
      t.on (R.HOST.PORT_STAT.LINK_UP (portIx port)) = false ∧ t.rd (R.HOST.PORT_STAT.WIDTH (portIx port)) = 0 ∧
      t.rd R.HOST.FAILOVERS = s.rd R.HOST.FAILOVERS ∧ Alters [.cells, .msix, .host] s t) ∧
  (∀ (s : State) (port : Port) (up : Bool) (resent : Nat), s.attached port = true → s.attached (otherCard port) = true →
    let i := portIx port
    Runs (.portDetach port up resent) s fun t =>
      t.attached port = false ∧ t.on (R.HOST.PORT_STAT.LINK_UP i) = up ∧ t.rd (R.HOST.PORT_STAT.REACH i) = 0 ∧
      (∀ p ∈ List.range 8, s.rd (R.HOST.PART_SERVE p) = i → t.rd (R.HOST.PART_SERVE p) = portIx (otherCard port)) ∧
      (∀ fn ∈ List.range 9, Cells.get 0 t.host.claimed (fnKey port fn) = 0) ∧
      Counted R.HOST.FAILOVERS 1 s t ∧ Counted R.HOST.RESENT (s.lostReqs port resent).length s t ∧
      t.host.reqs = s.lostReqs port resent ++ s.host.reqs ∧ Cells.get [] t.host.reads i = [] ∧ Raised .PORT_DOWN s t ∧
      t.portCfg port = PortCfg.reset ∧
      Alters (Part.err ++ [Part.host]) s t) ∧
  (∀ (s : State) (port : Port) (up : Bool) (resent : Nat), s.attached port = true → s.attached (otherCard port) = false →
    Runs (.portDetach port up resent) s fun t =>
      t.attached port = false ∧ t.on R.CFG.HOST_STAT.LOST = true ∧ t.host.lostAt = some s.now ∧
      Counted R.CFG.HOST_LOSSES 1 s t ∧ Raised .HOST_LOST s t ∧ (∀ p ∈ List.range 8, t.rd (R.HOST.PART_SERVE p) = 2) ∧
      (∀ p ∈ s.partitions, p < 8 → (s.rd R.CFG.HOST_FREE).testBit p = false → t.host.paused.testBit p = true) ∧
      Alters (Part.err ++ [Part.tile, Part.mem, Part.stream, Part.queue, Part.nose, Part.fab, Part.power, Part.host]) s t) ∧
  (∀ (s : State) (port : Port) (part : Fin 8), s.on (R.HOST.PORT_STAT.VF_EN (portIx port)) = true →
    Runs (.vfFlr port part) s fun t =>
      t.host.flr.testBit part = true ∧ Cells.get 0 t.host.claimed (fnKey port (part.val + 1)) = 0 ∧
      (t.rd (R.HOST.PORT_STAT.REACH (portIx port))).testBit part = false ∧
      (∀ q ∈ s.queuesOf part, q < 64 → t.rd (R.CQ.STAT.PAUSE_SRC q) / 2 % 2 = 1) ∧
      Alters (Part.err ++ [Part.tile, Part.mem, Part.stream, Part.queue, Part.nose, Part.fab, Part.power, Part.host]) s t) ∧
  (∀ (s : State) (port : Port), s.modState ≠ 0 → s.attached port = true →
    Runs (.claim port 0) s fun t =>
      t.on R.CFG.HOST_STAT.LOST = false ∧ t.host.lostAt = none ∧ Counted R.HOST.CLAIMS 1 s t ∧
      Cells.get 0 t.host.claimed (fnKey port 0) = 255 ||| Cells.get 0 s.host.claimed (fnKey port 0) ∧
      Alters (Part.err ++ [Part.part, Part.host]) s t) ∧
  (∀ (s : State) (port : Port) (fn : Fin 9), s.modState ≠ 0 → s.fnUp port fn = true → fn ≠ 0 →
    s.on R.CFG.HOST_STAT.LOST = false →
    Runs (.claim port fn) s fun t =>
      Counted R.HOST.CLAIMS 1 s t ∧
      Cells.get 0 t.host.claimed (fnKey port fn) = 2 ^ (fn.val - 1) ||| Cells.get 0 s.host.claimed (fnKey port fn) ∧
      t.host.flr.testBit (fn.val - 1) = false ∧ Alters (Part.err ++ [Part.part, Part.host]) s t) ∧
  (∀ (s : State) (port : Port) (fn : Fin 9), s.modState ≠ 0 → s.fnUp port fn = true → fn ≠ 0 →
    s.on R.CFG.HOST_STAT.LOST = true →
    Runs (.claim port fn) s fun t =>
      Raised .CLAIM_REFUSED s t ∧ t.host = s.host ∧ Alters (Part.err ++ [Part.part, Part.host]) s t) ∧
  (∀ (s : State) (port : Port) (fn : Fin 9) (vec : Fin 128), s.modState ≠ 0 → s.fnUp port fn = true →
    Runs (.rearm port fn vec) s fun t =>
      t.host = { s.host with rearm := Cells.put 0 s.host.rearm (fnKey port fn) vec } ∧
      (s.vecRaises port fn vec = true → Cells.get false s.msix.unmasked (vecKey port fn vec) = true →
        t.out = s.out ++ [s.msixMsg port fn vec]) ∧
      (s.vecRaises port fn vec = true → Cells.get false s.msix.unmasked (vecKey port fn vec) = false →
        Cells.get false t.msix.pba (vecKey port fn vec) = true ∧ t.out = s.out) ∧
      (s.vecRaises port fn vec = false → t.msix = s.msix ∧ t.out = s.out) ∧
      Confined [.msix, .host, .out] [R.HOST.RX_BYTES_A, R.HOST.RX_BYTES_A.ovf, R.HOST.RX_BYTES_B, R.HOST.RX_BYTES_B.ovf] s t) ∧
  (∀ (s : State) (port : Port) (fn : Fin 9) (vec : Fin 128), s.modState ≠ 0 → s.fnUp port fn = true →
    let k := vecKey port fn vec
    Runs (.msixUnmask port fn vec) s fun t =>
      Cells.get false t.msix.unmasked k = true ∧ Cells.get false t.msix.latch k = false ∧
      t.out = s.out ++ (if Cells.get false s.msix.latch k = true then [s.msixMsg port fn vec] else []) ∧
      Confined [.msix, .out] [R.HOST.RX_BYTES_A, R.HOST.RX_BYTES_A.ovf, R.HOST.RX_BYTES_B, R.HOST.RX_BYTES_B.ovf] s t) ∧
  (∀ (s : State) (p : Path) (v : BitVec 8), s.reaches p R.HOST.PART_PORT.addr none →
    let u := s.taken p R.HOST.PART_PORT.addr 4
    Runs (.partPortWrite p v) s fun t =>
      t.rd R.HOST.PART_PORT = v.toNat ∧
      (∀ q ∈ List.range 8, t.host.moves.testBit q = u.attached (if v.toNat.testBit q then .b else .a)) ∧
      (∀ q ∈ List.range 8, t.rd (R.HOST.PART_SERVE q) = u.rd (R.HOST.PART_SERVE q)) ∧
      Confined [.host] [R.HOST.PART_PORT] u t) ∧
  (∀ (s : State) (part : Fin 8), s.host.moves.testBit part = true → s.hostReads part = [] → s.hostReqs part = [] →
    s.attached (s.preferred part) = true →
    Runs (.portMove part) s fun t =>
      t.rd (R.HOST.PART_SERVE part) = portIx (s.preferred part) ∧ t.host.moves.testBit part = false ∧
      Confined [.host] [R.HOST.PART_SERVE part] s t) ∧
  (∀ (s : State) (port : Port) (fn q : Nat) (v : DWord), q < 64 → s.answers (.host port fn) pgHOST = true →
    Runs (.registerWrite (.host port fn) (BitVec.ofNat 26 (q * 0x1000)) false true v) s fun t =>
      let u := s.countRx (.host port fn) 4
      t = if fn = 0 ∨ s.queuePart q = some (fn - 1) then u.tailWrite q (v.toNat % 2 ^ 32) else u) ∧
  (∀ (s : State) (port : Port) (fn q : Nat), q < 64 → s.answers (.host port fn) pgHOST = true →
    (fn = 0 ∨ s.queuePart q = some (fn - 1)) →
    ∀ x ∈ [(0, (R.CQ.TAIL q).addr), (4, (R.CQ.HEAD q).addr), (8, (R.CQ.DONE q).addr), (12, (R.CQ.STAT.STATE q).addr)],
    Runs (.lowHalfRead (.host port fn) (BitVec.ofNat 26 (q * 0x1000 + x.1)) false true) s fun t =>
      t = (s.countTx (.host port fn) 4).emit (.readData (.host port fn) (BitVec.ofNat 64 (s.readReg (.host port fn) x.2)))) ∧
  (∀ (s : State) (port : Port) (fn : Nat) (a : BitVec 26), s.answers (.host port fn) pgHOST = true → a.toNat % 4 = 0 →
    (a.toNat < 0x40000 ∧ fn ≠ 0 ∧ s.queuePart (a.toNat / 0x1000) ≠ some (fn - 1) ∨ a.toNat < 0x40000 ∧ 0x10 ≤ a.toNat % 0x1000 ∨
      0x58010 ≤ a.toNat) →
    Runs (.lowHalfRead (.host port fn) a false true) s fun t =>
      t = (s.countTx (.host port fn) 4).emit (.readData (.host port fn) 0)) ∧
  (∀ (s : State) (port : Port) (fn : Fin 9), s.answers (.host port fn) pgHOST = true →
    Runs (.lowHalfRead (.host port fn) 0x40000 false true) s fun t =>
      t = (s.countTx (.host port fn) 4).emit (.readData (.host port fn) (BitVec.ofNat 64 (fn.val + 256 * portIx port)))) ∧
  (∀ (s : State) (port : Port) (fn : Fin 9) (k : Fin 960), s.answers (.host port fn) pgHOST = true →
    Runs (.lowHalfRead (.host port fn) (BitVec.ofNat 26 (0x40040 + k.val / 32 * 4)) false true) s fun t =>
      ∃ v : Nat, t = (s.countTx (.host port fn) 4).emit (.readData (.host port fn) (BitVec.ofNat 64 v)) ∧ v < 2 ^ 32 ∧
        v.testBit (k.val % 32) = (s.raising (pgTILE k) &&
          (vectorOf (pgTILE k)).any fun n => (s.receivers (pgTILE k) n).contains (port, fn.val))) ∧
  (∀ (s : State) (port : Port) (fn : Fin 9) (vec : Fin 128) (v : DWord), s.answers (.host port fn) pgHOST = true →
    v.toNat.testBit 0 = true →
    Runs (.registerWrite (.host port fn) (BitVec.ofNat 26 (0x50000 + 16 * vec.val + 12)) false true v) s fun t =>
      Cells.get false t.msix.unmasked (vecKey port fn vec) = false ∧ t.out = s.out ∧ Alters [.cells, .msix] s t) ∧
  (∀ (s : State) (port : Port) (fn : Fin 9) (vec : Fin 128) (i : Fin 3) (v : DWord), s.answers (.host port fn) pgHOST = true →
    Runs (.registerWrite (.host port fn) (BitVec.ofNat 26 (0x50000 + 16 * vec.val + 4 * i.val)) false true v) s fun t =>
      Cells.get 0 t.msix.table (4 * vecKey port fn vec + i.val) = v.toNat % 2 ^ 32 ∧ Alters [.cells, .msix] s t) ∧
  (∀ (s : State) (port : Port) (r : HostReq), s.attached port = true → s.hostUp = true → s.nextReq port = some r →
    let n := nextBytes (s.portCfg port) r
    let t := s.hostTurn port
    n ≤ r.n ∧ Cells.get 0 t.host.turn (portIx port) = r.owner.part + 1 ∧
    (r.entry = none → t.out = s.out ++ [.memWrite port (s.serveFn r.owner.part port) r.addr (r.bytes.take n) r.relaxed]) ∧
    (r.entry.isSome = true → t.out = s.out ++ [.memRead port (s.serveFn r.owner.part port) r.addr n] ∧ t.mem = s.mem ∧
      Cells.get [] t.host.reads (portIx port) = Cells.get [] s.host.reads (portIx port) ++ [{ r with n := n }]) ∧
    t.host.reqs = (s.host.reqs.flatMap fun x => if x = r then reqRest r n else [x]) ∧
    Alters [.cells, .mem, .queue, .host, .out] s t) ∧
  (∀ (c : PortCfg) (r : HostReq), cfgOk c = true →
    let n := nextBytes c r
    n ≤ (if r.entry.isSome then c.maxRead else c.maxPayload) ∧ (0 < n → r.addr / 4096 = (r.addr + n - 1) / 4096)) ∧
  (∀ (s : State), s.pending = [] →
    Goes s fun t => t = ((s.clkEdge.hostTurn .a).hostTurn .b).mboxServe none)

/-! ### The bits of a link -/

/-- What a link's bits spell (R340, R342, R343): the header of a frame whose fields fit reads back as that frame's, holds its
HCRC and is one that the receiver takes; a header received with one bit wrong does not hold its HCRC; the three units of a header
give it back, a unit reads back as itself from its 64 bits, and these travel in four codewords, the highest first; and a codeword
gives back its number, whether it has data, its sideband bits and its flits. -/
def Obligations.LinkBitsReadBack : Prop :=
  (∀ (f : Frame), f.vc = f.body.vc → f.layer < 2 → f.body.lenw ≤ typeLenw f.body.type → f.dst < 2 ^ 16 → f.src < 2 ^ 16 →
    f.offsetField < 2 ^ 44 → f.tag < 2 ^ 16 → f.fseq < 4096 → f.hops < 32 → f.part < 8 →
    let x := headerOf f.header
    headerOk f.header = true ∧ x.vc.toNat = f.vc ∧ x.layer.toNat = f.layer ∧ x.type.toNat = f.body.type ∧
    x.lenw.toNat = f.body.lenw ∧ x.dst.toNat = f.dst ∧ x.src.toNat = f.src ∧ x.offset.toNat = f.offsetField ∧
    x.tag.toNat = f.tag ∧ x.fseq.toNat = f.fseq ∧ x.hops.toNat = f.hops ∧ x.part.toNat = f.part ∧
    f.header.extractLsb' 16 30 = 0) ∧
  (∀ (h : BitVec 180) (i : Fin 180), hcrcOk h = true → hcrcOk (h ^^^ BitVec.twoPow 180 i) = false) ∧
  (∀ (h : BitVec 180), ∃ a b c : BitVec 60, headerUnits h = [.hdr 0 a, .hdr 1 b, .hdr 2 c] ∧ a ++ b ++ c = h) ∧
  (∀ (u : SideUnit), unitOf u.bits = some u) ∧
  (∀ (x : BitVec 64), unitSlice x 0 ++ unitSlice x 1 ++ unitSlice x 2 ++ unitSlice x 3 = x) ∧
  (∀ (n : Nat) (data : Bool) (side : BitVec 16) (bs : List Byte),
    let w := codeword n data side bs
    w.extractLsb' 5137 3 = BitVec.ofNat 3 n ∧ w.extractLsb' 5136 1 = BitVec.ofBool data ∧ w.extractLsb' 5120 16 = side ∧
    ∀ j < 640, w.extractLsb' (8 * j) 8 = bs.getD j 0)
end

