-- ==== Sys2Proof/Laws/Alters.lean ====
section
/-! SUPPORT. What a step alters: composition of `Alters`, and record updates of the state. -/

set_option Elab.async false

namespace Sys2Proof.Machine

theorem Alters.refl (ch) (s : State) : Alters ch s s := ⟨fun p _ => by cases p <;> rfl⟩
theorem Alters.trans {ch} {s t u : State} (h : Alters ch s t) (k : Alters ch t u) : Alters ch s u := by
  refine ⟨fun p hp => ?_⟩; have a := h.same p hp; have b := k.same p hp
  cases p
  case mem => exact Eq.trans (congrArg (fun m => { m with bytes := s.mem.bytes }) b) a
  case tile => exact Eq.trans (congrArg (fun m => { m with words := s.tile.words }) b) a
  case tag => exact Eq.trans (congrArg (fun m => { m with bytes := s.tag.bytes }) b) a
  all_goals exact Eq.trans b a
theorem Alters.then {ch c : List Part} {s t u : State} (h : Alters ch s t) (k : Alters c t u) (hc : ∀ p, p ∈ c → p ∈
    ch) : Alters ch s u :=
  h.trans ⟨fun p hp => k.same p fun q => hp (hc p q)⟩

theorem Part.le_mem {c ch : List Part} (h : Part.le c ch = true) : ∀ p, p ∈ c → p ∈ ch := by
  intro p hp
  have := List.all_eq_true.1 h p hp
  exact List.contains_iff_mem.1 this
theorem Part.le_trans {a b c : List Part} (h : Part.le a b = true) (k : Part.le b c = true) : Part.le a c = true :=
  List.all_eq_true.2 fun p hp => List.contains_iff_mem.2 (Part.le_mem k p (Part.le_mem h p hp))
theorem Alters.ite {ch} {c : Prop} [Decidable c] {s a b : State} (h : Alters ch s a) (k : Alters ch s b) : Alters ch s
    (if c then a else b) := by
  split <;> assumption
theorem Alters.foldl {ch} {α : Type} {g : State → α → State} {l : List α} {s u : State} (h : ∀ v x, Alters ch v (g v
    x)) (k : Alters ch s u) :
    Alters ch s (l.foldl g u) := by
  induction l generalizing u with
  | nil => exact k
  | cons x r ih => exact ih (k.trans (h u x))
theorem Alters.ofChecked {ch} {s g : State} {x : Option Err} {b : Err → State} (h : ∀ e, Alters ch s (b e)) (k :
    Alters ch s g) : Alters ch s (checked x b g) := by
  cases x; exact k; exact h _
theorem Alters.ofChecked1 {ch} {β : Type} {s : State} {g : State × β} {x : Option Err} {b : Err → State × β} (h : ∀ e,
    Alters ch s (b e).1) (k : Alters ch s g.1) : Alters ch s (checked x b g).1 := by
  cases x; exact k; exact h _
theorem Alters.ofJudged {ch} {β : Type} {s : State} {x : Except Err β} {b : Err → State} {g : β → State} (h : ∀ e,
    Alters ch s (b e)) (k : ∀ v, Alters ch s (g v)) : Alters ch s (judged x b g) := by
  cases x; exact h _; exact k _
theorem Alters.ofGiven {ch} {β : Type} {s n : State} {x : Option β} {g : β → State} (h : Alters ch s n) (k : ∀ v,
    Alters ch s (g v)) : Alters ch s (given x n g) := by
  cases x; exact h; exact k _
theorem Alters.ofGiven1 {ch} {α β : Type} {s : State} {n : State × α} {x : Option β} {g : β → State × α} (h : Alters
    ch s n.1) (k : ∀ v, Alters ch s (g v).1) : Alters ch s (given x n g).1 := by
  cases x; exact h; exact k _
theorem Alters.foldl1 {ch} {α β : Type} {g : State × β → α → State × β} {l : List α} {s : State} {u : State × β} (h :
    ∀ v x, Alters ch v.1 (g v x).1) (k : Alters ch s u.1) :
    Alters ch s (l.foldl g u).1 := by
  induction l generalizing u with
  | nil => exact k
  | cons x r ih => exact ih (k.trans (h u x))
theorem Alters.of_pair2 {ch} {α : Type} {s t : State} {r : α} {f : α × State} (e : f = (r, t)) (h : Alters ch s f.2) :
    Alters ch s t := by
  subst e; exact h
theorem Alters.of_pair {ch} {α : Type} {s t : State} {r : α} {f : State × α} (e : f = (t, r)) (h : Alters ch s f.1) :
    Alters ch s t := by
  subst e; exact h
theorem Alters.upd_boot {ch : List Part} {s u : State} {x0} (h : Alters ch s u) (hc : Part.le [.boot] ch = true) :
    Alters ch s { u with boot := x0 } :=
  h.then ⟨fun p hp => by cases p <;> first | rfl | assumption | exact absurd (by decide) hp⟩ (Part.le_mem hc)
theorem Alters.upd_clk {ch : List Part} {s u : State} {x0} (h : Alters ch s u) (hc : Part.le [.clk] ch = true) :
    Alters ch s { u with clk := x0 } :=
  h.then ⟨fun p hp => by cases p <;> first | rfl | assumption | exact absurd (by decide) hp⟩ (Part.le_mem hc)
theorem Alters.upd_coll {ch : List Part} {s u : State} {x0} (h : Alters ch s u) (hc : Part.le [.coll] ch = true) :
    Alters ch s { u with coll := x0 } :=
  h.then ⟨fun p hp => by cases p <;> first | rfl | assumption | exact absurd (by decide) hp⟩ (Part.le_mem hc)
theorem Alters.upd_commit {ch : List Part} {s u : State} {x0} (h : Alters ch s u) (hc : Part.le [.commit] ch = true) :
    Alters ch s { u with commit := x0 } :=
  h.then ⟨fun p hp => by cases p <;> first | rfl | assumption | exact absurd (by decide) hp⟩ (Part.le_mem hc)
theorem Alters.upd_fab {ch : List Part} {s u : State} {x0} (h : Alters ch s u) (hc : Part.le [.fab] ch = true) :
    Alters ch s { u with fab := x0 } :=
  h.then ⟨fun p hp => by cases p <;> first | rfl | assumption | exact absurd (by decide) hp⟩ (Part.le_mem hc)
theorem Alters.upd_free {ch : List Part} {s u : State} {x0} (h : Alters ch s u) (hc : Part.le [.free] ch = true) :
    Alters ch s { u with free := x0 } :=
  h.then ⟨fun p hp => by cases p <;> first | rfl | assumption | exact absurd (by decide) hp⟩ (Part.le_mem hc)
theorem Alters.upd_fuses {ch : List Part} {s u : State} {x0} (h : Alters ch s u) (hc : Part.le [.fuses] ch = true) :
    Alters ch s { u with fuses := x0 } :=
  h.then ⟨fun p hp => by cases p <;> first | rfl | assumption | exact absurd (by decide) hp⟩ (Part.le_mem hc)
theorem Alters.upd_host {ch : List Part} {s u : State} {x0} (h : Alters ch s u) (hc : Part.le [.host] ch = true) :
    Alters ch s { u with host := x0 } :=
  h.then ⟨fun p hp => by cases p <;> first | rfl | assumption | exact absurd (by decide) hp⟩ (Part.le_mem hc)
theorem Alters.upd_island {ch : List Part} {s u : State} {x0} (h : Alters ch s u) (hc : Part.le [.island] ch = true) :
    Alters ch s { u with island := x0 } :=
  h.then ⟨fun p hp => by cases p <;> first | rfl | assumption | exact absurd (by decide) hp⟩ (Part.le_mem hc)
theorem Alters.upd_life {ch : List Part} {s u : State} {x0} (h : Alters ch s u) (hc : Part.le [.life] ch = true) :
    Alters ch s { u with life := x0 } :=
  h.then ⟨fun p hp => by cases p <;> first | rfl | assumption | exact absurd (by decide) hp⟩ (Part.le_mem hc)
theorem Alters.upd_mem {ch : List Part} {s u : State} {x0} (h : Alters ch s u) (hc : Part.le [.mem, .memBytes] ch =
    true) :
    Alters ch s { u with mem := x0 } :=
  h.then ⟨fun p hp => by cases p <;> first | rfl | assumption | exact absurd (by decide) hp⟩ (Part.le_mem hc)
theorem Alters.updR_mem {ch : List Part} {s u : State} {x0} (h : Alters ch s u) (e0 : x0.bytes = u.mem.bytes) (hc :
    Part.le [.mem] ch = true) :
    Alters ch s { u with mem := x0 } :=
  h.then ⟨fun p hp => by cases p <;> first | rfl | assumption | exact absurd (by decide) hp⟩ (Part.le_mem hc)
theorem Alters.upd_mgmt {ch : List Part} {s u : State} {x0} (h : Alters ch s u) (hc : Part.le [.mgmt] ch = true) :
    Alters ch s { u with mgmt := x0 } :=
  h.then ⟨fun p hp => by cases p <;> first | rfl | assumption | exact absurd (by decide) hp⟩ (Part.le_mem hc)
theorem Alters.upd_msix {ch : List Part} {s u : State} {x0} (h : Alters ch s u) (hc : Part.le [.msix] ch = true) :
    Alters ch s { u with msix := x0 } :=
  h.then ⟨fun p hp => by cases p <;> first | rfl | assumption | exact absurd (by decide) hp⟩ (Part.le_mem hc)
theorem Alters.upd_msix_host {ch : List Part} {s u : State} {x0 x1} (h : Alters ch s u) (hc : Part.le [.msix, .host]
    ch = true) :
    Alters ch s { u with msix := x0, host := x1 } :=
  h.then ⟨fun p hp => by cases p <;> first | rfl | assumption | exact absurd (by decide) hp⟩ (Part.le_mem hc)
theorem Alters.upd_nose {ch : List Part} {s u : State} {x0} (h : Alters ch s u) (hc : Part.le [.nose] ch = true) :
    Alters ch s { u with nose := x0 } :=
  h.then ⟨fun p hp => by cases p <;> first | rfl | assumption | exact absurd (by decide) hp⟩ (Part.le_mem hc)
theorem Alters.upd_out {ch : List Part} {s u : State} {x0} (h : Alters ch s u) (hc : Part.le [.out] ch = true) :
    Alters ch s { u with out := x0 } :=
  h.then ⟨fun p hp => by cases p <;> first | rfl | assumption | exact absurd (by decide) hp⟩ (Part.le_mem hc)
theorem Alters.upd_part {ch : List Part} {s u : State} {x0} (h : Alters ch s u) (hc : Part.le [.part] ch = true) :
    Alters ch s { u with part := x0 } :=
  h.then ⟨fun p hp => by cases p <;> first | rfl | assumption | exact absurd (by decide) hp⟩ (Part.le_mem hc)
theorem Alters.upd_pathVal {ch : List Part} {s u : State} {x0} (h : Alters ch s u) (hc : Part.le [.pathVal] ch = true)
    :
    Alters ch s { u with pathVal := x0 } :=
  h.then ⟨fun p hp => by cases p <;> first | rfl | assumption | exact absurd (by decide) hp⟩ (Part.le_mem hc)
theorem Alters.upd_pending_free_regs_mem_fab_tag_island_power_fuses_boot_mgmt_life_out {ch : List Part} {s u : State}
    {x0 x1 x2 x3 x4 x5 x6 x7 x8 x9 x10 x11 x12} (h : Alters ch s u) (hc : Part.le [.pending, .free, .cells, .shadow,
    .pend, .act, .prev, .hold, .wbuf, .mem, .memBytes, .fab, .tag, .tagBytes, .island, .power, .fuses, .boot, .mgmt,
    .life, .out] ch = true) :
    Alters ch s { u with pending := x0, free := x1, regs := x2, mem := x3, fab := x4, tag := x5, island := x6, power := x7, fuses := x8, boot := x9, mgmt := x10, life := x11, out := x12 } :=
  h.then ⟨fun p hp => by cases p <;> first | rfl | assumption | exact absurd (by decide) hp⟩ (Part.le_mem hc)
theorem Alters.updR_pending_free_regs_mem_fab_tag_island_power_fuses_boot_mgmt_life_out {ch : List Part} {s u : State}
    {x0 x1 x2 x3 x4 x5 x6 x7 x8 x9 x10 x11 x12} (h : Alters ch s u) (e3 : x3.bytes = u.mem.bytes) (e5 : x5.bytes =
    u.tag.bytes) (hc : Part.le [.pending, .free, .cells, .shadow, .pend, .act, .prev, .hold, .wbuf, .mem, .fab, .tag,
    .island, .power, .fuses, .boot, .mgmt, .life, .out] ch = true) :
    Alters ch s { u with pending := x0, free := x1, regs := x2, mem := x3, fab := x4, tag := x5, island := x6, power := x7, fuses := x8, boot := x9, mgmt := x10, life := x11, out := x12 } :=
  h.then ⟨fun p hp => by cases p <;> first | rfl | assumption | exact absurd (by decide) hp⟩ (Part.le_mem hc)
theorem Alters.upd_power {ch : List Part} {s u : State} {x0} (h : Alters ch s u) (hc : Part.le [.power] ch = true) :
    Alters ch s { u with power := x0 } :=
  h.then ⟨fun p hp => by cases p <;> first | rfl | assumption | exact absurd (by decide) hp⟩ (Part.le_mem hc)
theorem Alters.upd_ptp {ch : List Part} {s u : State} {x0} (h : Alters ch s u) (hc : Part.le [.ptp] ch = true) :
    Alters ch s { u with ptp := x0 } :=
  h.then ⟨fun p hp => by cases p <;> first | rfl | assumption | exact absurd (by decide) hp⟩ (Part.le_mem hc)
theorem Alters.upd_queue {ch : List Part} {s u : State} {x0} (h : Alters ch s u) (hc : Part.le [.queue] ch = true) :
    Alters ch s { u with queue := x0 } :=
  h.then ⟨fun p hp => by cases p <;> first | rfl | assumption | exact absurd (by decide) hp⟩ (Part.le_mem hc)
theorem Alters.upd_regsact {ch : List Part} {s u : State} {x0} (h : Alters ch s u) (hc : Part.le [.act] ch = true) :
    Alters ch s { u with regs := { u.regs with act := x0 } } :=
  h.then ⟨fun p hp => by cases p <;> first | rfl | assumption | exact absurd (by decide) hp⟩ (Part.le_mem hc)
theorem Alters.upd_regsact_regsprev {ch : List Part} {s u : State} {x0 x1} (h : Alters ch s u) (hc : Part.le [.act,
    .prev] ch = true) :
    Alters ch s { u with regs := { u.regs with act := x0, prev := x1 } } :=
  h.then ⟨fun p hp => by cases p <;> first | rfl | assumption | exact absurd (by decide) hp⟩ (Part.le_mem hc)
theorem Alters.upd_regscells {ch : List Part} {s u : State} {x0} (h : Alters ch s u) (hc : Part.le [.cells] ch = true)
    :
    Alters ch s { u with regs := { u.regs with cells := x0 } } :=
  h.then ⟨fun p hp => by cases p <;> first | rfl | assumption | exact absurd (by decide) hp⟩ (Part.le_mem hc)
theorem Alters.upd_regscells_regsact {ch : List Part} {s u : State} {x0 x1} (h : Alters ch s u) (hc : Part.le [.cells,
    .act] ch = true) :
    Alters ch s { u with regs := { u.regs with cells := x0, act := x1 } } :=
  h.then ⟨fun p hp => by cases p <;> first | rfl | assumption | exact absurd (by decide) hp⟩ (Part.le_mem hc)
theorem Alters.upd_regscells_sig_nose_coll_fab {ch : List Part} {s u : State} {x0 x1 x2 x3 x4} (h : Alters ch s u) (hc : Part.le
    [.cells, .sig, .nose, .coll, .fab] ch = true) :
    Alters ch s { u with regs := { u.regs with cells := x0 }, sig := x1, nose := x2, coll := x3, fab := x4 } :=
  h.then ⟨fun p hp => by cases p <;> first | rfl | assumption | exact absurd (by decide) hp⟩ (Part.le_mem hc)
theorem Alters.upd_regshold {ch : List Part} {s u : State} {x0} (h : Alters ch s u) (hc : Part.le [.hold] ch = true) :
    Alters ch s { u with regs := { u.regs with hold := x0 } } :=
  h.then ⟨fun p hp => by cases p <;> first | rfl | assumption | exact absurd (by decide) hp⟩ (Part.le_mem hc)
theorem Alters.upd_regspend {ch : List Part} {s u : State} {x0} (h : Alters ch s u) (hc : Part.le [.pend] ch = true) :
    Alters ch s { u with regs := { u.regs with pend := x0 } } :=
  h.then ⟨fun p hp => by cases p <;> first | rfl | assumption | exact absurd (by decide) hp⟩ (Part.le_mem hc)
theorem Alters.upd_regsshadow {ch : List Part} {s u : State} {x0} (h : Alters ch s u) (hc : Part.le [.shadow] ch =
    true) :
    Alters ch s { u with regs := { u.regs with shadow := x0 } } :=
  h.then ⟨fun p hp => by cases p <;> first | rfl | assumption | exact absurd (by decide) hp⟩ (Part.le_mem hc)
theorem Alters.upd_regswbuf {ch : List Part} {s u : State} {x0} (h : Alters ch s u) (hc : Part.le [.wbuf] ch = true) :
    Alters ch s { u with regs := { u.regs with wbuf := x0 } } :=
  h.then ⟨fun p hp => by cases p <;> first | rfl | assumption | exact absurd (by decide) hp⟩ (Part.le_mem hc)
theorem Alters.upd_sig {ch : List Part} {s u : State} {x0} (h : Alters ch s u) (hc : Part.le [.sig] ch = true) :
    Alters ch s { u with sig := x0 } :=
  h.then ⟨fun p hp => by cases p <;> first | rfl | assumption | exact absurd (by decide) hp⟩ (Part.le_mem hc)
theorem Alters.upd_snap {ch : List Part} {s u : State} {x0} (h : Alters ch s u) (hc : Part.le [.snap] ch = true) :
    Alters ch s { u with snap := x0 } :=
  h.then ⟨fun p hp => by cases p <;> first | rfl | assumption | exact absurd (by decide) hp⟩ (Part.le_mem hc)
theorem Alters.upd_stream {ch : List Part} {s u : State} {x0} (h : Alters ch s u) (hc : Part.le [.stream] ch = true) :
    Alters ch s { u with stream := x0 } :=
  h.then ⟨fun p hp => by cases p <;> first | rfl | assumption | exact absurd (by decide) hp⟩ (Part.le_mem hc)
theorem Alters.upd_tag {ch : List Part} {s u : State} {x0} (h : Alters ch s u) (hc : Part.le [.tag, .tagBytes] ch =
    true) :
    Alters ch s { u with tag := x0 } :=
  h.then ⟨fun p hp => by cases p <;> first | rfl | assumption | exact absurd (by decide) hp⟩ (Part.le_mem hc)
theorem Alters.updR_tag {ch : List Part} {s u : State} {x0} (h : Alters ch s u) (e0 : x0.bytes = u.tag.bytes) (hc :
    Part.le [.tag] ch = true) :
    Alters ch s { u with tag := x0 } :=
  h.then ⟨fun p hp => by cases p <;> first | rfl | assumption | exact absurd (by decide) hp⟩ (Part.le_mem hc)
theorem Alters.upd_tile {ch : List Part} {s u : State} {x0} (h : Alters ch s u) (hc : Part.le [.tile, .words] ch =
    true) :
    Alters ch s { u with tile := x0 } :=
  h.then ⟨fun p hp => by cases p <;> first | rfl | assumption | exact absurd (by decide) hp⟩ (Part.le_mem hc)
theorem Alters.updR_tile {ch : List Part} {s u : State} {x0} (h : Alters ch s u) (e0 : x0.words = u.tile.words) (hc :
    Part.le [.tile] ch = true) :
    Alters ch s { u with tile := x0 } :=
  h.then ⟨fun p hp => by cases p <;> first | rfl | assumption | exact absurd (by decide) hp⟩ (Part.le_mem hc)

end Sys2Proof.Machine
end

