-- ==== Sys2Proof/Laws/AltersOps.lean ====
section
/-! SUPPORT. What each operation of Machine/Ops.lean alters. -/

-- One closing tactic serves every lemma here; where a goal needs few of its steps the linters name the rest.
set_option linter.all false
set_option Elab.async false

namespace Sys2Proof.Machine

theorem State.wr_alters {s : State} {f : Fld} {v : Nat} {ch : List Part} {s0 : State} (h0 : Alters ch s0 s) (hc :
    Part.le [.cells] ch = true) : Alters ch s0 (State.wr s f v) := by
  unfold State.wr
  try dsimp only
  repeat' (
    first
    | with_reducible (first | exact Alters.refl _ _ | apply Alters.ite | assumption)
    | exact Part.le_trans (by decide) hc
    | (refine (?_ : Part.le _ _ = true); decide)
    | intro _
    | with_reducible (first | rfl)
    | split
    | dsimp only
    | simp only [id_eq]
    | with_reducible (first | apply Alters.upd_regscells)
  )

theorem State.wrShadow_alters {s : State} {f : Fld} {v : Nat} {ch : List Part} {s0 : State} (h0 : Alters ch s0 s) (hc
    : Part.le [.shadow] ch = true) : Alters ch s0 (State.wrShadow s f v) := by
  unfold State.wrShadow
  try dsimp only
  repeat' (
    first
    | with_reducible (first | exact Alters.refl _ _ | apply Alters.ite | assumption)
    | exact Part.le_trans (by decide) hc
    | (refine (?_ : Part.le _ _ = true); decide)
    | intro _
    | with_reducible (first | rfl)
    | split
    | dsimp only
    | simp only [id_eq]
    | with_reducible (first | apply Alters.upd_regsshadow)
  )

theorem State.flag_alters {s : State} {f : Fld} {b : Bool} {ch : List Part} {s0 : State} (h0 : Alters ch s0 s) (hc :
    Part.le [.cells] ch = true) : Alters ch s0 (State.flag s f b) := by
  unfold State.flag
  try dsimp only
  repeat' (
    first
    | with_reducible (first | exact Alters.refl _ _ | apply Alters.ite | assumption | apply State.wr_alters)
    | exact Part.le_trans (by decide) hc
    | (refine (?_ : Part.le _ _ = true); decide)
    | intro _
    | with_reducible (first | rfl)
    | split
    | dsimp only
    | simp only [id_eq]
  )

theorem State.when_alters {s : State} {c : Bool} {g : State → State} {ch : List Part} {s0 : State} (h0 : Alters ch s0
    s) (hg : ∀ {z0} {u0}, Alters ch z0 u0 → Alters ch z0 (g u0)) (hc : Part.le [] ch = true) : Alters ch s0
    (State.when s c g) := by
  unfold State.when
  try dsimp only
  repeat' (
    first
    | with_reducible (first | exact Alters.refl _ _ | apply Alters.ite | assumption | apply hg)
    | exact Part.le_trans (by decide) hc
    | (refine (?_ : Part.le _ _ = true); decide)
    | intro _
    | with_reducible (first | rfl)
    | split
    | dsimp only
    | simp only [id_eq]
  )

theorem State.emit_alters {s : State} {o : Out} {ch : List Part} {s0 : State} (h0 : Alters ch s0 s) (hc : Part.le
    [.out] ch = true) : Alters ch s0 (State.emit s o) := by
  unfold State.emit
  try dsimp only
  repeat' (
    first
    | with_reducible (first | exact Alters.refl _ _ | apply Alters.ite | assumption)
    | exact Part.le_trans (by decide) hc
    | (refine (?_ : Part.le _ _ = true); decide)
    | intro _
    | with_reducible (first | rfl)
    | split
    | dsimp only
    | simp only [id_eq]
    | with_reducible (first | apply Alters.upd_out)
  )

theorem State.fresh_alters {s : State} {ch : List Part} {s0 : State} (h0 : Alters ch s0 s) (hc : Part.le [.free] ch =
    true) : Alters ch s0 (State.fresh s).2 := by
  unfold State.fresh
  try dsimp only
  repeat' (
    first
    | with_reducible (first | exact Alters.refl _ _ | apply Alters.ite | assumption)
    | exact Part.le_trans (by decide) hc
    | (refine (?_ : Part.le _ _ = true); decide)
    | intro _
    | with_reducible (first | rfl)
    | split
    | dsimp only
    | simp only [id_eq]
    | with_reducible (first | apply Alters.upd_free)
  )
theorem State.fresh_altersP {s : State} {t0 r0} (e_ : State.fresh s = (r0, t0)) {ch : List Part} {s0 : State} (h0 :
    Alters ch s0 s) (hc : Part.le [.free] ch = true) : Alters ch s0 t0 := by
  have h := State.fresh_alters (s := s) h0  hc
  rw [e_] at h; exact h

theorem State.bump_alters {s : State} {f : Fld} {n : Nat} {ch : List Part} {s0 : State} (h0 : Alters ch s0 s) (hc :
    Part.le [.cells] ch = true) : Alters ch s0 (State.bump s f n) := by
  unfold State.bump
  try dsimp only
  repeat' (
    first
    | with_reducible (first | exact Alters.refl _ _ | apply Alters.ite | assumption | apply State.wr_alters)
    | exact Part.le_trans (by decide) hc
    | (refine (?_ : Part.le _ _ = true); decide)
    | intro _
    | with_reducible (first | rfl)
    | split
    | dsimp only
    | simp only [id_eq]
  )

theorem State.latch_alters {s : State} {port : Port} {fn vec : Nat} {ch : List Part} {s0 : State} (h0 : Alters ch s0
    s) (hc : Part.le [.msix, .out] ch = true) : Alters ch s0 (State.latch s port fn vec) := by
  unfold State.latch
  try dsimp only
  repeat' (
    first
    | with_reducible (first | exact Alters.refl _ _ | apply Alters.ite | assumption | apply State.emit_alters)
    | exact Part.le_trans (by decide) hc
    | (refine (?_ : Part.le _ _ = true); decide)
    | intro _
    | with_reducible (first | rfl)
    | split
    | dsimp only
    | simp only [id_eq]
    | with_reducible (first | apply Alters.upd_msix)
  )

theorem State.signalPage_alters {s : State} {pg : Nat} {ch : List Part} {s0 : State} (h0 : Alters ch s0 s) (hc :
    Part.le [.msix, .out] ch = true) : Alters ch s0 (State.signalPage s pg) := by
  unfold State.signalPage
  try dsimp only
  repeat' (
    first
    | with_reducible (first | exact Alters.refl _ _ | apply Alters.ite | assumption | apply Alters.foldl |
                            apply State.latch_alters | apply Alters.foldl1)
    | exact Part.le_trans (by decide) hc
    | (refine (?_ : Part.le _ _ = true); decide)
    | intro _
    | with_reducible (first | rfl)
    | split
    | dsimp only
    | simp only [id_eq]
  )

theorem State.edge_alters {s before : State} {pg : Nat} {ch : List Part} {s0 : State} (h0 : Alters ch s0 s) (hc :
    Part.le [.msix, .out] ch = true) : Alters ch s0 (State.edge s before pg) := by
  unfold State.edge
  try dsimp only
  repeat' (
    first
    | with_reducible (first | exact Alters.refl _ _ | apply Alters.ite | assumption | apply State.signalPage_alters)
    | exact Part.le_trans (by decide) hc
    | (refine (?_ : Part.le _ _ = true); decide)
    | intro _
    | with_reducible (first | rfl)
    | split
    | dsimp only
    | simp only [id_eq]
  )

theorem State.irq_alters {s : State} {pg bit : Nat} {ch : List Part} {s0 : State} (h0 : Alters ch s0 s) (hc : Part.le
    [.cells, .msix, .out] ch = true) : Alters ch s0 (State.irq s pg bit) := by
  unfold State.irq
  try dsimp only
  repeat' (
    first
    | with_reducible (first | exact Alters.refl _ _ | apply Alters.ite | assumption | apply State.edge_alters |
                            apply State.wr_alters)
    | exact Part.le_trans (by decide) hc
    | (refine (?_ : Part.le _ _ = true); decide)
    | intro _
    | with_reducible (first | rfl)
    | split
    | dsimp only
    | simp only [id_eq]
  )

theorem State.capture_alters {s : State} {pg n code src : Nat} {ch : List Part} {s0 : State} (h0 : Alters ch s0 s) (hc
    : Part.le [.cells, .snap, .msix, .out] ch = true) : Alters ch s0 (State.capture s pg n code src) := by
  unfold State.capture
  try dsimp only
  repeat' (
    first
    | with_reducible (first | exact Alters.refl _ _ | apply Alters.ite | assumption | apply State.edge_alters |
                            apply State.wr_alters)
    | exact Part.le_trans (by decide) hc
    | (refine (?_ : Part.le _ _ = true); decide)
    | intro _
    | with_reducible (first | rfl)
    | split
    | dsimp only
    | simp only [id_eq]
    | with_reducible (first | apply Alters.upd_snap)
  )

theorem State.enqueue_alters {s : State} {r : ErrRec} {ch : List Part} {s0 : State} (h0 : Alters ch s0 s) (hc :
    Part.le [.cells, .island] ch = true) : Alters ch s0 (State.enqueue s r) := by
  unfold State.enqueue
  try dsimp only
  repeat' (
    first
    | with_reducible (first | exact Alters.refl _ _ | apply Alters.ite | assumption | apply State.bump_alters)
    | exact Part.le_trans (by decide) hc
    | (refine (?_ : Part.le _ _ = true); decide)
    | intro _
    | with_reducible (first | rfl)
    | split
    | dsimp only
    | simp only [id_eq]
    | with_reducible (first | apply Alters.upd_island)
  )

theorem State.recStat_alters {s : State} {ch : List Part} {s0 : State} (h0 : Alters ch s0 s) (hc : Part.le [.cells] ch
    = true) : Alters ch s0 (State.recStat s) := by
  unfold State.recStat
  try dsimp only
  repeat' (
    first
    | with_reducible (first | exact Alters.refl _ _ | apply Alters.ite | assumption | apply State.flag_alters |
                            apply State.wr_alters)
    | exact Part.le_trans (by decide) hc
    | (refine (?_ : Part.le _ _ = true); decide)
    | intro _
    | with_reducible (first | rfl)
    | split
    | dsimp only
    | simp only [id_eq]
  )

theorem State.onTag_alters {s : State} {g : TagSt → TagSt} {ch : List Part} {s0 : State} (h0 : Alters ch s0 s) (hc :
    Part.le [.tag, .tagBytes] ch = true) : Alters ch s0 (State.onTag s g) :=
  Alters.upd_tag h0 hc
theorem State.onTag_altersR {s : State} {g : TagSt → TagSt} {ch : List Part} {s0 : State} (h0 : Alters ch s0 s) (e : ∀
    x, (g x).bytes = x.bytes) (hc : Part.le [.tag] ch = true) : Alters ch s0 (State.onTag s g) :=
  Alters.updR_tag h0 (e _) hc

theorem State.showTag_alters {s : State} {ch : List Part} {s0 : State} (h0 : Alters ch s0 s) (hc : Part.le [.cells] ch
    = true) : Alters ch s0 (State.showTag s) := by
  unfold State.showTag
  try dsimp only
  repeat' (
    first
    | with_reducible (first | exact Alters.refl _ _ | apply Alters.ite | assumption | apply State.wr_alters)
    | exact Part.le_trans (by decide) hc
    | (refine (?_ : Part.le _ _ = true); decide)
    | intro _
    | with_reducible (first | rfl)
    | split
    | dsimp only
    | simp only [id_eq]
  )

theorem State.queueTag_alters {s : State} {area type : Nat} {payload : List Byte} {ch : List Part} {s0 : State} (h0 :
    Alters ch s0 s) (hc : Part.le [.cells, .tag] ch = true) : Alters ch s0 (State.queueTag s area type payload) := by
  unfold State.queueTag
  try dsimp only
  repeat' (
    first
    | with_reducible (first | exact Alters.refl _ _ | apply Alters.ite | assumption | apply State.bump_alters |
                            apply State.onTag_altersR | apply State.showTag_alters)
    | exact Part.le_trans (by decide) hc
    | (refine (?_ : Part.le _ _ = true); decide)
    | intro _
    | with_reducible (first | rfl)
    | split
    | dsimp only
    | simp only [id_eq]
    | with_reducible (first | apply Alters.upd_queue)
  )

theorem State.openBytes_alters {s : State} {n : Nat} {ch : List Part} {s0 : State} (h0 : Alters ch s0 s) (hc : Part.le
    [.free] ch = true) : Alters ch s0 (State.openBytes s n).2 := by
  unfold State.openBytes
  try dsimp only
  repeat' (
    first
    | with_reducible (first | exact Alters.refl _ _ | apply Alters.ite | assumption | apply State.fresh_alters |
                            apply Alters.of_pair2 (by assumption) | apply Alters.of_pair (by assumption))
    | exact Part.le_trans (by decide) hc
    | (refine (?_ : Part.le _ _ = true); decide)
    | intro _
    | with_reducible (first | rfl)
    | split
    | dsimp only
    | simp only [id_eq]
  )
theorem State.openBytes_altersP {s : State} {n : Nat} {t0 r0} (e_ : State.openBytes s n = (r0, t0)) {ch : List Part}
    {s0 : State} (h0 : Alters ch s0 s) (hc : Part.le [.free] ch = true) : Alters ch s0 t0 := by
  have h := State.openBytes_alters (s := s) (n := n) h0  hc
  rw [e_] at h; exact h

theorem State.journal_alters {s : State} {type : Nat} {ch : List Part} {s0 : State} (h0 : Alters ch s0 s) (hc :
    Part.le [.free, .cells, .tag] ch = true) : Alters ch s0 (State.journal s type) := by
  unfold State.journal
  try dsimp only
  repeat' (
    first
    | with_reducible (first | exact Alters.refl _ _ | apply Alters.ite | assumption | apply State.openBytes_alters |
                            apply State.queueTag_alters | apply Alters.of_pair2 (by assumption) |
                            apply Alters.of_pair (by assumption))
    | exact Part.le_trans (by decide) hc
    | (refine (?_ : Part.le _ _ = true); decide)
    | intro _
    | with_reducible (first | rfl)
    | split
    | dsimp only
    | simp only [id_eq]
  )

theorem State.report_alters {s : State} {pg : Nat} {e : Err} {c src step attempt : Nat} {ch : List Part} {s0 : State}
    (h0 : Alters ch s0 s) (hc : Part.le [.free, .cells, .tag, .island] ch = true) : Alters ch s0 (State.report s pg e
    c src step attempt) := by
  unfold State.report
  try dsimp only
  repeat' (
    first
    | with_reducible (first | exact Alters.refl _ _ | apply Alters.ite | assumption | apply State.enqueue_alters |
                            apply State.journal_alters | apply State.recStat_alters)
    | exact Part.le_trans (by decide) hc
    | (refine (?_ : Part.le _ _ = true); decide)
    | intro _
    | with_reducible (first | rfl)
    | split
    | dsimp only
    | simp only [id_eq]
    | with_reducible (first | apply Alters.upd_island)
  )

theorem State.countErr_alters {s : State} {e : Err} {c : Nat} {ch : List Part} {s0 : State} (h0 : Alters ch s0 s) (hc
    : Part.le [.cells] ch = true) : Alters ch s0 (State.countErr s e c) := by
  unfold State.countErr
  try dsimp only
  repeat' (
    first
    | with_reducible (first | exact Alters.refl _ _ | apply Alters.ite | assumption | apply State.bump_alters)
    | exact Part.le_trans (by decide) hc
    | (refine (?_ : Part.le _ _ = true); decide)
    | intro _
    | with_reducible (first | rfl)
    | split
    | dsimp only
    | simp only [id_eq]
  )

theorem State.raiseCls_alters {s : State} {pg : Nat} {e : Err} {c src step attempt : Nat} {ch : List Part} {s0 :
    State} (h0 : Alters ch s0 s) (hc : Part.le Part.err ch = true) : Alters ch s0 (State.raiseCls s pg e c src step
    attempt) := by
  unfold State.raiseCls
  try dsimp only
  repeat' (
    first
    | with_reducible (first | exact Alters.refl _ _ | apply Alters.ite | assumption | apply State.capture_alters |
                            apply State.countErr_alters | apply State.report_alters)
    | exact Part.le_trans (by decide) hc
    | (refine (?_ : Part.le _ _ = true); decide)
    | intro _
    | with_reducible (first | rfl)
    | split
    | dsimp only
    | simp only [id_eq]
  )

theorem State.raiseTag_alters {s : State} {pg : Nat} {e : Err} {src step attempt : Nat} {ch : List Part} {s0 : State}
    (h0 : Alters ch s0 s) (hc : Part.le Part.err ch = true) : Alters ch s0 (State.raiseTag s pg e src step attempt) :=
    by
  unfold State.raiseTag
  try dsimp only
  repeat' (
    first
    | with_reducible (first | exact Alters.refl _ _ | apply Alters.ite | assumption | apply State.raiseCls_alters)
    | exact Part.le_trans (by decide) hc
    | (refine (?_ : Part.le _ _ = true); decide)
    | intro _
    | with_reducible (first | rfl)
    | split
    | dsimp only
    | simp only [id_eq]
  )

theorem State.raise_alters {s : State} {pg : Nat} {e : Err} {src : Nat} {ch : List Part} {s0 : State} (h0 : Alters ch
    s0 s) (hc : Part.le Part.err ch = true) : Alters ch s0 (State.raise s pg e src) := by
  unfold State.raise
  try dsimp only
  repeat' (
    first
    | with_reducible (first | exact Alters.refl _ _ | apply Alters.ite | assumption | apply State.raiseTag_alters)
    | exact Part.le_trans (by decide) hc
    | (refine (?_ : Part.le _ _ = true); decide)
    | intro _
    | with_reducible (first | rfl)
    | split
    | dsimp only
    | simp only [id_eq]
  )

theorem State.raiseAll_alters {s : State} {pg : Nat} {es : List (Err × Nat)} {ch : List Part} {s0 : State} (h0 :
    Alters ch s0 s) (hc : Part.le Part.err ch = true) : Alters ch s0 (State.raiseAll s pg es) := by
  unfold State.raiseAll
  try dsimp only
  repeat' (
    first
    | with_reducible (first | exact Alters.refl _ _ | apply Alters.ite | assumption | apply Alters.foldl |
                            apply State.capture_alters | apply State.countErr_alters | apply State.report_alters |
                            apply Alters.foldl1)
    | exact Part.le_trans (by decide) hc
    | (refine (?_ : Part.le _ _ = true); decide)
    | intro _
    | with_reducible (first | rfl)
    | split
    | dsimp only
    | simp only [id_eq]
  )

end Sys2Proof.Machine
end

