-- ==== Sys2Proof/Laws/AltersAccess.lean ====
section
/-! SUPPORT. What each operation of Machine/Access.lean alters. -/

-- One closing tactic serves every lemma here; where a goal needs few of its steps the linters name the rest.
set_option linter.all false
set_option Elab.async false

namespace Sys2Proof.Machine

theorem State.badAccess_alters {s : State} {p : Path} {off : Nat} {ch : List Part} {s0 : State} (h0 : Alters ch s0 s)
    (hc : Part.le Part.err ch = true) : Alters ch s0 (State.badAccess s p off) := by
  unfold State.badAccess
  try dsimp only
  repeat' (
    first
    | with_reducible (first | exact Alters.refl _ _ | apply Alters.ite | assumption | apply State.raise_alters |
                            apply State.wr_alters)
    | exact Part.le_trans (by decide) hc
    | (refine (?_ : Part.le _ _ = true); decide)
    | intro _
    | with_reducible (first | rfl)
    | split
    | dsimp only
    | simp only [id_eq]
  )

theorem State.setHalf_alters {s : State} {p : Path} {pg : Nat} {h : Option (Nat × Word)} {ch : List Part} {s0 : State}
    (h0 : Alters ch s0 s) (hc : Part.le [.wbuf] ch = true) : Alters ch s0 (State.setHalf s p pg h) := by
  unfold State.setHalf
  try dsimp only
  repeat' (
    first
    | with_reducible (first | exact Alters.refl _ _ | apply Alters.ite | assumption)
    | exact Part.le_trans (by decide) hc
    | (refine (?_ : Part.le _ _ = true); decide)
    | intro _
    | with_reducible (first | rfl)
    | split
    | dsimp only
    | simp only [id_eq]
    | with_reducible (first | apply Alters.upd_regswbuf)
  )

theorem State.discardHalf_alters {s : State} {p : Path} {pg : Nat} {ch : List Part} {s0 : State} (h0 : Alters ch s0 s)
    (hc : Part.le (Part.err ++ [Part.wbuf]) ch = true) : Alters ch s0 (State.discardHalf s p pg) := by
  unfold State.discardHalf
  try dsimp only
  repeat' (
    first
    | with_reducible (first | exact Alters.refl _ _ | apply Alters.ite | assumption | apply State.badAccess_alters |
                            apply State.setHalf_alters)
    | exact Part.le_trans (by decide) hc
    | (refine (?_ : Part.le _ _ = true); decide)
    | intro _
    | with_reducible (first | rfl)
    | split
    | dsimp only
    | simp only [id_eq]
  )

theorem State.vfDenied_alters {s : State} {ch : List Part} {s0 : State} (h0 : Alters ch s0 s) (hc : Part.le Part.err
    ch = true) : Alters ch s0 (State.vfDenied s) := by
  unfold State.vfDenied
  try dsimp only
  repeat' (
    first
    | with_reducible (first | exact Alters.refl _ _ | apply Alters.ite | assumption | apply State.bump_alters |
                            apply State.raise_alters)
    | exact Part.le_trans (by decide) hc
    | (refine (?_ : Part.le _ _ = true); decide)
    | intro _
    | with_reducible (first | rfl)
    | split
    | dsimp only
    | simp only [id_eq]
  )

theorem State.countRx_alters {s : State} {p : Path} {n : Nat} {ch : List Part} {s0 : State} (h0 : Alters ch s0 s) (hc
    : Part.le [.cells] ch = true) : Alters ch s0 (State.countRx s p n) := by
  unfold State.countRx
  try dsimp only
  repeat' (
    first
    | with_reducible (first | exact Alters.refl _ _ | apply Alters.ite | assumption | apply State.bump_alters)
    | exact Part.le_trans (by decide) hc
    | (refine (?_ : Part.le _ _ = true); decide)
    | intro _
    | with_reducible (first | rfl)
    | split
    | dsimp only
    | simp only [id_eq]
  )

theorem State.onPage_alters {s : State} {p : Path} {a n : Nat} {own : Option Nat} {g : State → State} {ch : List Part}
    {s0 : State} (h0 : Alters ch s0 s) (hg : ∀ {z0} {u0}, Alters ch z0 u0 → Alters ch z0 (g u0)) (hc : Part.le
    Part.err ch = true) : Alters ch s0 (State.onPage s p a n own g) := by
  unfold State.onPage
  try dsimp only
  repeat' (
    first
    | with_reducible (first | exact Alters.refl _ _ | apply Alters.ite | assumption | apply hg |
                            apply State.countRx_alters | apply State.vfDenied_alters)
    | exact Part.le_trans (by decide) hc
    | (refine (?_ : Part.le _ _ = true); decide)
    | intro _
    | with_reducible (first | rfl)
    | split
    | dsimp only
    | simp only [id_eq]
  )

theorem State.onWrite_alters {s : State} {p : Path} {a n : Nat} {own : Option Nat} {g : State → State} {ch : List
    Part} {s0 : State} (h0 : Alters ch s0 s) (hg : ∀ {z0} {u0}, Alters ch z0 u0 → Alters ch z0 (g u0)) (hc : Part.le
    (Part.err ++ [Part.wbuf]) ch = true) : Alters ch s0 (State.onWrite s p a n own g) := by
  unfold State.onWrite
  try dsimp only
  repeat' (
    first
    | with_reducible (first | exact Alters.refl _ _ | apply Alters.ite | assumption | apply hg |
                            apply State.discardHalf_alters | apply State.onPage_alters)
    | exact Part.le_trans (by decide) hc
    | (refine (?_ : Part.le _ _ = true); decide)
    | intro _
    | with_reducible (first | rfl)
    | split
    | dsimp only
    | simp only [id_eq]
  )

end Sys2Proof.Machine
end

