-- ==== Sys2Proof/Laws/Cells.lean ====
section
/-! SUPPORT. The sparse files: reading after writing, and the canonical form. -/

namespace Sys2Proof.Machine

variable {α : Type}

theorem Cells.find_drop (m : Cells α) (k j : Nat) : Cells.find (Cells.drop m k) j = if j = k then none else Cells.find m j := by
  induction m with
  | nil => simp [Cells.drop, Cells.find]
  | cons c r ih => obtain ⟨a, v⟩ := c; simp only [Cells.drop]; split <;> simp [Cells.find, ih] <;> grind

theorem Cells.find_insert (m : Cells α) (k j : Nat) (v : α) (h : Cells.find m k = none) :
    Cells.find (Cells.insert m k v) j = if j = k then some v else Cells.find m j := by
  induction m with
  | nil => simp only [Cells.insert, Cells.find]; grind
  | cons c r ih =>
    obtain ⟨a, w⟩ := c
    simp only [Cells.find] at h
    simp only [Cells.insert]
    split <;> simp only [Cells.find] <;> grind

/-- A read after a write: the written value at its key, and what stood before at every other. -/
theorem Cells.get_put [DecidableEq α] (d : α) (m : Cells α) (k j : Nat) (v : α) :
    Cells.get d (Cells.put d m k v) j = if j = k then v else Cells.get d m j := by
  have hd : Cells.find (Cells.drop m k) k = none := by rw [Cells.find_drop]; simp
  simp only [Cells.get, Cells.put]
  split
  · rw [Cells.find_drop]; split <;> simp_all
  · rw [Cells.find_insert _ _ _ _ hd]
    split
    · rfl
    · rw [Cells.find_drop, if_neg ‹_›]

@[simp] theorem Cells.get_put_self [DecidableEq α] (d : α) (m : Cells α) (k : Nat) (v : α) :
    Cells.get d (Cells.put d m k v) k = v := by rw [Cells.get_put, if_pos rfl]

theorem Cells.get_put_ne [DecidableEq α] (d : α) (m : Cells α) {k j : Nat} (v : α) (h : j ≠ k) :
    Cells.get d (Cells.put d m k v) j = Cells.get d m j := by rw [Cells.get_put, if_neg h]

@[simp] theorem Cells.get_nil (d : α) (k : Nat) : Cells.get d [] k = d := rfl

/-- A read after keys were cleared: the unlisted value at the cleared keys. -/
theorem Cells.get_clear (d : α) (m : Cells α) (p : Nat → Bool) (k : Nat) :
    Cells.get d (Cells.clear m p) k = if p k then d else Cells.get d m k := by
  induction m with
  | nil => simp [Cells.clear]
  | cons c r ih =>
    obtain ⟨a, v⟩ := c
    simp only [Cells.clear, Cells.get, List.filter_cons] at ih ⊢
    split <;> simp only [Cells.find] <;> grind

/-! ### The canonical form -/

/-- Keys strictly rising, as a list property. -/
theorem Cells.risingFrom_iff (lo : Nat) (m : Cells α) :
    Cells.risingFrom lo m = true ↔ (∀ c ∈ m, lo < c.1) ∧ m.Pairwise (fun a b => a.1 < b.1) := by
  induction m generalizing lo with
  | nil => simp [Cells.risingFrom]
  | cons c r ih =>
    obtain ⟨a, v⟩ := c
    simp only [Cells.risingFrom, Bool.and_eq_true, decide_eq_true_eq, ih, List.mem_cons, List.pairwise_cons]
    constructor
    · rintro ⟨h, k, p⟩
      exact ⟨fun c hc => hc.elim (fun e => e ▸ h) fun hc => Nat.lt_trans h (k c hc), k, p⟩
    · rintro ⟨h, k, p⟩
      exact ⟨h _ (.inl rfl), k, p⟩

theorem Cells.rising_iff (m : Cells α) : Cells.rising m = true ↔ m.Pairwise (fun a b => a.1 < b.1) := by
  cases m with
  | nil => simp [Cells.rising]
  | cons c r => simp only [Cells.rising, Cells.risingFrom_iff, List.pairwise_cons]

theorem Cells.mem_drop {m : Cells α} {k : Nat} {c : Nat × α} : c ∈ Cells.drop m k ↔ c ∈ m ∧ c.1 ≠ k := by
  induction m with
  | nil => simp [Cells.drop]
  | cons d r ih =>
    obtain ⟨a, v⟩ := d
    simp only [Cells.drop]
    split <;> simp only [List.mem_cons, ih] <;> grind

theorem Cells.mem_insert {m : Cells α} {k : Nat} {v : α} {c : Nat × α} :
    c ∈ Cells.insert m k v ↔ c = (k, v) ∨ c ∈ m := by
  induction m with
  | nil => simp [Cells.insert]
  | cons d r ih =>
    obtain ⟨a, w⟩ := d
    simp only [Cells.insert]
    split <;> simp only [List.mem_cons, ih] <;> grind

theorem Cells.drop_sublist (m : Cells α) (k : Nat) : (Cells.drop m k).Sublist m := by
  induction m with
  | nil => exact .slnil
  | cons d r ih =>
    obtain ⟨a, v⟩ := d
    simp only [Cells.drop]
    split
    · exact ih.cons _
    · exact ih.cons_cons _

theorem Cells.rising_insert {m : Cells α} {k : Nat} (v : α) (h : m.Pairwise (fun a b => a.1 < b.1)) (n : ∀ c ∈ m, c.1 ≠ k) :
    (Cells.insert m k v).Pairwise (fun a b => a.1 < b.1) := by
  induction m with
  | nil => simp [Cells.insert]
  | cons d r ih =>
    obtain ⟨a, w⟩ := d
    obtain ⟨h1, h2⟩ := List.pairwise_cons.1 h
    simp only [Cells.insert]
    split
    · rename_i l
      refine List.pairwise_cons.2 ⟨fun c hc => ?_, h⟩
      rcases List.mem_cons.1 hc with e | hc
      · exact e ▸ l
      · exact Nat.lt_trans l (h1 c hc)
    · rename_i l
      refine List.pairwise_cons.2 ⟨fun c hc => ?_, ih h2 fun c hc => n c (.tail _ hc)⟩
      rcases Cells.mem_insert.1 hc with e | hc
      · have := n (a, w) (.head _)
        subst e; show a < k
        exact Nat.lt_of_le_of_ne (Nat.le_of_not_lt l) this
      · exact h1 c hc

theorem Cells.wf_iff [DecidableEq α] (d : α) (m : Cells α) :
    Cells.wf d m = true ↔ m.Pairwise (fun a b => a.1 < b.1) ∧ ∀ c ∈ m, c.2 ≠ d := by
  simp [Cells.wf, Cells.rising_iff, Cells.tight]

/-- A write keeps the canonical form. -/
theorem Cells.wf_put [DecidableEq α] {d : α} {m : Cells α} (k : Nat) (v : α) (h : Cells.wf d m = true) :
    Cells.wf d (Cells.put d m k v) = true := by
  rw [Cells.wf_iff] at h ⊢
  have hs := h.1.sublist (Cells.drop_sublist m k)
  simp only [Cells.put]
  split
  · exact ⟨hs, fun c hc => h.2 c (Cells.mem_drop.1 hc).1⟩
  · refine ⟨Cells.rising_insert v hs fun c hc => (Cells.mem_drop.1 hc).2, fun c hc => ?_⟩
    rcases Cells.mem_insert.1 hc with e | hc
    · subst e; assumption
    · exact h.2 c (Cells.mem_drop.1 hc).1

/-- Keeping some entries keeps the canonical form. -/
theorem Cells.wf_filter [DecidableEq α] {d : α} {m : Cells α} (p : Nat × α → Bool) (h : Cells.wf d m = true) :
    Cells.wf d (m.filter p) = true := by
  rw [Cells.wf_iff] at h ⊢
  exact ⟨h.1.sublist List.filter_sublist, fun c hc => h.2 c (List.mem_filter.1 hc).1⟩

theorem Cells.wf_clear [DecidableEq α] {d : α} {m : Cells α} (p : Nat → Bool) (h : Cells.wf d m = true) :
    Cells.wf d (Cells.clear m p) = true := Cells.wf_filter _ h

theorem Cells.wf_nil [DecidableEq α] (d : α) : Cells.wf d ([] : Cells α) = true := rfl

theorem Cells.wf_putBytes {m : Cells Byte} (a : Nat) (bs : List Byte) (h : Cells.wf 0 m = true) :
    Cells.wf 0 (Cells.putBytes m a bs) = true := by
  induction bs generalizing m a with
  | nil => exact h
  | cons b r ih => exact ih (a + 1) (Cells.wf_put a b h)

theorem Cells.wf_foldl [DecidableEq α] {β : Type} {d : α} {g : Cells α → β → Cells α} {l : List β} {m : Cells α}
    (k : ∀ u x, Cells.wf d u = true → Cells.wf d (g u x) = true) (h : Cells.wf d m = true) :
    Cells.wf d (l.foldl g m) = true := by
  induction l generalizing m with
  | nil => exact h
  | cons x r ih => exact ih (k m x h)

/-- Bytes written from `a` are read back from there, and every other byte is as it was. -/
theorem Cells.get_putBytes (m : Cells Byte) (a : Nat) (bs : List Byte) (k : Nat) :
    Cells.get 0 (Cells.putBytes m a bs) k = if a ≤ k ∧ k < a + bs.length then bs.getD (k - a) 0 else Cells.get 0 m k := by
  induction bs generalizing m a with
  | nil => simp only [Cells.putBytes, List.length_nil]; rw [if_neg (by omega)]
  | cons b r ih =>
    simp only [Cells.putBytes, ih, List.length_cons, Cells.get_put]
    by_cases h1 : a + 1 ≤ k ∧ k < a + 1 + r.length
    · rw [if_pos h1, if_pos (by omega)]
      obtain ⟨j, rfl⟩ : ∃ j, k = a + 1 + j := ⟨k - (a + 1), by omega⟩
      have : a + 1 + j - a = j + 1 := by omega
      rw [this, List.getD_cons_succ]; congr 1; omega
    · rw [if_neg h1]
      by_cases h2 : k = a
      · subst h2; rw [if_pos rfl, if_pos (by omega)]; simp
      · rw [if_neg h2, if_neg (by omega)]

end Sys2Proof.Machine
end

