-- ==== Sys2Proof/Laws/State.lean ====
section
/-! SUPPORT. One lemma per field of the state per update: what the update leaves alone, and what it writes. -/

namespace Sys2Proof.Machine

/-! ### `State.wr` -/

@[simp] theorem State.wr_pending (s : State) (f : Fld) (v : Nat) : (s.wr f v).pending = s.pending := rfl
@[simp] theorem State.wr_free (s : State) (f : Fld) (v : Nat) : (s.wr f v).free = s.free := rfl
@[simp] theorem State.wr_commit (s : State) (f : Fld) (v : Nat) : (s.wr f v).commit = s.commit := rfl
@[simp] theorem State.wr_clk (s : State) (f : Fld) (v : Nat) : (s.wr f v).clk = s.clk := rfl
@[simp] theorem State.wr_ptp (s : State) (f : Fld) (v : Nat) : (s.wr f v).ptp = s.ptp := rfl
@[simp] theorem State.wr_snap (s : State) (f : Fld) (v : Nat) : (s.wr f v).snap = s.snap := rfl
@[simp] theorem State.wr_tile (s : State) (f : Fld) (v : Nat) : (s.wr f v).tile = s.tile := rfl
@[simp] theorem State.wr_mem (s : State) (f : Fld) (v : Nat) : (s.wr f v).mem = s.mem := rfl
@[simp] theorem State.wr_stream (s : State) (f : Fld) (v : Nat) : (s.wr f v).stream = s.stream := rfl
@[simp] theorem State.wr_queue (s : State) (f : Fld) (v : Nat) : (s.wr f v).queue = s.queue := rfl
@[simp] theorem State.wr_sig (s : State) (f : Fld) (v : Nat) : (s.wr f v).sig = s.sig := rfl
@[simp] theorem State.wr_nose (s : State) (f : Fld) (v : Nat) : (s.wr f v).nose = s.nose := rfl
@[simp] theorem State.wr_coll (s : State) (f : Fld) (v : Nat) : (s.wr f v).coll = s.coll := rfl
@[simp] theorem State.wr_fab (s : State) (f : Fld) (v : Nat) : (s.wr f v).fab = s.fab := rfl
@[simp] theorem State.wr_part (s : State) (f : Fld) (v : Nat) : (s.wr f v).part = s.part := rfl
@[simp] theorem State.wr_tag (s : State) (f : Fld) (v : Nat) : (s.wr f v).tag = s.tag := rfl
@[simp] theorem State.wr_pathVal (s : State) (f : Fld) (v : Nat) : (s.wr f v).pathVal = s.pathVal := rfl
@[simp] theorem State.wr_island (s : State) (f : Fld) (v : Nat) : (s.wr f v).island = s.island := rfl
@[simp] theorem State.wr_msix (s : State) (f : Fld) (v : Nat) : (s.wr f v).msix = s.msix := rfl
@[simp] theorem State.wr_power (s : State) (f : Fld) (v : Nat) : (s.wr f v).power = s.power := rfl
@[simp] theorem State.wr_fuses (s : State) (f : Fld) (v : Nat) : (s.wr f v).fuses = s.fuses := rfl
@[simp] theorem State.wr_boot (s : State) (f : Fld) (v : Nat) : (s.wr f v).boot = s.boot := rfl
@[simp] theorem State.wr_mgmt (s : State) (f : Fld) (v : Nat) : (s.wr f v).mgmt = s.mgmt := rfl
@[simp] theorem State.wr_life (s : State) (f : Fld) (v : Nat) : (s.wr f v).life = s.life := rfl
@[simp] theorem State.wr_host (s : State) (f : Fld) (v : Nat) : (s.wr f v).host = s.host := rfl
@[simp] theorem State.wr_out (s : State) (f : Fld) (v : Nat) : (s.wr f v).out = s.out := rfl
@[simp] theorem State.wr_shadow (s : State) (f : Fld) (v : Nat) : (s.wr f v).regs.shadow = s.regs.shadow := rfl
@[simp] theorem State.wr_pend (s : State) (f : Fld) (v : Nat) : (s.wr f v).regs.pend = s.regs.pend := rfl
@[simp] theorem State.wr_acts (s : State) (f : Fld) (v : Nat) : (s.wr f v).regs.act = s.regs.act := rfl
@[simp] theorem State.wr_prev (s : State) (f : Fld) (v : Nat) : (s.wr f v).regs.prev = s.regs.prev := rfl
@[simp] theorem State.wr_hold (s : State) (f : Fld) (v : Nat) : (s.wr f v).regs.hold = s.regs.hold := rfl
@[simp] theorem State.wr_wbuf (s : State) (f : Fld) (v : Nat) : (s.wr f v).regs.wbuf = s.regs.wbuf := rfl
@[simp] theorem State.act_wr (s : State) (f : Fld) (v : Nat) (x : Fld) : (s.wr f v).act x = s.act x := rfl

/-! ### `State.wrShadow` -/

@[simp] theorem State.wrShadow_pending (s : State) (f : Fld) (v : Nat) : (s.wrShadow f v).pending = s.pending := rfl
@[simp] theorem State.wrShadow_free (s : State) (f : Fld) (v : Nat) : (s.wrShadow f v).free = s.free := rfl
@[simp] theorem State.wrShadow_commit (s : State) (f : Fld) (v : Nat) : (s.wrShadow f v).commit = s.commit := rfl
@[simp] theorem State.wrShadow_clk (s : State) (f : Fld) (v : Nat) : (s.wrShadow f v).clk = s.clk := rfl
@[simp] theorem State.wrShadow_ptp (s : State) (f : Fld) (v : Nat) : (s.wrShadow f v).ptp = s.ptp := rfl
@[simp] theorem State.wrShadow_snap (s : State) (f : Fld) (v : Nat) : (s.wrShadow f v).snap = s.snap := rfl
@[simp] theorem State.wrShadow_tile (s : State) (f : Fld) (v : Nat) : (s.wrShadow f v).tile = s.tile := rfl
@[simp] theorem State.wrShadow_mem (s : State) (f : Fld) (v : Nat) : (s.wrShadow f v).mem = s.mem := rfl
@[simp] theorem State.wrShadow_stream (s : State) (f : Fld) (v : Nat) : (s.wrShadow f v).stream = s.stream := rfl
@[simp] theorem State.wrShadow_queue (s : State) (f : Fld) (v : Nat) : (s.wrShadow f v).queue = s.queue := rfl
@[simp] theorem State.wrShadow_sig (s : State) (f : Fld) (v : Nat) : (s.wrShadow f v).sig = s.sig := rfl
@[simp] theorem State.wrShadow_nose (s : State) (f : Fld) (v : Nat) : (s.wrShadow f v).nose = s.nose := rfl
@[simp] theorem State.wrShadow_coll (s : State) (f : Fld) (v : Nat) : (s.wrShadow f v).coll = s.coll := rfl
@[simp] theorem State.wrShadow_fab (s : State) (f : Fld) (v : Nat) : (s.wrShadow f v).fab = s.fab := rfl
@[simp] theorem State.wrShadow_part (s : State) (f : Fld) (v : Nat) : (s.wrShadow f v).part = s.part := rfl
@[simp] theorem State.wrShadow_tag (s : State) (f : Fld) (v : Nat) : (s.wrShadow f v).tag = s.tag := rfl
@[simp] theorem State.wrShadow_pathVal (s : State) (f : Fld) (v : Nat) : (s.wrShadow f v).pathVal = s.pathVal := rfl
@[simp] theorem State.wrShadow_island (s : State) (f : Fld) (v : Nat) : (s.wrShadow f v).island = s.island := rfl
@[simp] theorem State.wrShadow_msix (s : State) (f : Fld) (v : Nat) : (s.wrShadow f v).msix = s.msix := rfl
@[simp] theorem State.wrShadow_power (s : State) (f : Fld) (v : Nat) : (s.wrShadow f v).power = s.power := rfl
@[simp] theorem State.wrShadow_fuses (s : State) (f : Fld) (v : Nat) : (s.wrShadow f v).fuses = s.fuses := rfl
@[simp] theorem State.wrShadow_boot (s : State) (f : Fld) (v : Nat) : (s.wrShadow f v).boot = s.boot := rfl
@[simp] theorem State.wrShadow_mgmt (s : State) (f : Fld) (v : Nat) : (s.wrShadow f v).mgmt = s.mgmt := rfl
@[simp] theorem State.wrShadow_life (s : State) (f : Fld) (v : Nat) : (s.wrShadow f v).life = s.life := rfl
@[simp] theorem State.wrShadow_host (s : State) (f : Fld) (v : Nat) : (s.wrShadow f v).host = s.host := rfl
@[simp] theorem State.wrShadow_out (s : State) (f : Fld) (v : Nat) : (s.wrShadow f v).out = s.out := rfl
@[simp] theorem State.wrShadow_cells (s : State) (f : Fld) (v : Nat) : (s.wrShadow f v).regs.cells = s.regs.cells := rfl
@[simp] theorem State.wrShadow_pend (s : State) (f : Fld) (v : Nat) : (s.wrShadow f v).regs.pend = s.regs.pend := rfl
@[simp] theorem State.wrShadow_acts (s : State) (f : Fld) (v : Nat) : (s.wrShadow f v).regs.act = s.regs.act := rfl
@[simp] theorem State.wrShadow_prev (s : State) (f : Fld) (v : Nat) : (s.wrShadow f v).regs.prev = s.regs.prev := rfl
@[simp] theorem State.wrShadow_hold (s : State) (f : Fld) (v : Nat) : (s.wrShadow f v).regs.hold = s.regs.hold := rfl
@[simp] theorem State.wrShadow_wbuf (s : State) (f : Fld) (v : Nat) : (s.wrShadow f v).regs.wbuf = s.regs.wbuf := rfl
@[simp] theorem State.rd_wrShadow (s : State) (f : Fld) (v : Nat) (x : Fld) : (s.wrShadow f v).rd x = s.rd x := rfl
@[simp] theorem State.on_wrShadow (s : State) (f : Fld) (v : Nat) (x : Fld) : (s.wrShadow f v).on x = s.on x := rfl
@[simp] theorem State.time_wrShadow (s : State) (f : Fld) (v : Nat) : (s.wrShadow f v).time = s.time := rfl
@[simp] theorem State.act_wrShadow (s : State) (f : Fld) (v : Nat) (x : Fld) : (s.wrShadow f v).act x = s.act x := rfl

/-! ### `State.flag` -/

@[simp] theorem State.flag_pending (s : State) (f : Fld) (b : Bool) : (s.flag f b).pending = s.pending := rfl
@[simp] theorem State.flag_free (s : State) (f : Fld) (b : Bool) : (s.flag f b).free = s.free := rfl
@[simp] theorem State.flag_commit (s : State) (f : Fld) (b : Bool) : (s.flag f b).commit = s.commit := rfl
@[simp] theorem State.flag_clk (s : State) (f : Fld) (b : Bool) : (s.flag f b).clk = s.clk := rfl
@[simp] theorem State.flag_ptp (s : State) (f : Fld) (b : Bool) : (s.flag f b).ptp = s.ptp := rfl
@[simp] theorem State.flag_snap (s : State) (f : Fld) (b : Bool) : (s.flag f b).snap = s.snap := rfl
@[simp] theorem State.flag_tile (s : State) (f : Fld) (b : Bool) : (s.flag f b).tile = s.tile := rfl
@[simp] theorem State.flag_mem (s : State) (f : Fld) (b : Bool) : (s.flag f b).mem = s.mem := rfl
@[simp] theorem State.flag_stream (s : State) (f : Fld) (b : Bool) : (s.flag f b).stream = s.stream := rfl
@[simp] theorem State.flag_queue (s : State) (f : Fld) (b : Bool) : (s.flag f b).queue = s.queue := rfl
@[simp] theorem State.flag_sig (s : State) (f : Fld) (b : Bool) : (s.flag f b).sig = s.sig := rfl
@[simp] theorem State.flag_nose (s : State) (f : Fld) (b : Bool) : (s.flag f b).nose = s.nose := rfl
@[simp] theorem State.flag_coll (s : State) (f : Fld) (b : Bool) : (s.flag f b).coll = s.coll := rfl
@[simp] theorem State.flag_fab (s : State) (f : Fld) (b : Bool) : (s.flag f b).fab = s.fab := rfl
@[simp] theorem State.flag_part (s : State) (f : Fld) (b : Bool) : (s.flag f b).part = s.part := rfl
@[simp] theorem State.flag_tag (s : State) (f : Fld) (b : Bool) : (s.flag f b).tag = s.tag := rfl
@[simp] theorem State.flag_pathVal (s : State) (f : Fld) (b : Bool) : (s.flag f b).pathVal = s.pathVal := rfl
@[simp] theorem State.flag_island (s : State) (f : Fld) (b : Bool) : (s.flag f b).island = s.island := rfl
@[simp] theorem State.flag_msix (s : State) (f : Fld) (b : Bool) : (s.flag f b).msix = s.msix := rfl
@[simp] theorem State.flag_power (s : State) (f : Fld) (b : Bool) : (s.flag f b).power = s.power := rfl
@[simp] theorem State.flag_fuses (s : State) (f : Fld) (b : Bool) : (s.flag f b).fuses = s.fuses := rfl
@[simp] theorem State.flag_boot (s : State) (f : Fld) (b : Bool) : (s.flag f b).boot = s.boot := rfl
@[simp] theorem State.flag_mgmt (s : State) (f : Fld) (b : Bool) : (s.flag f b).mgmt = s.mgmt := rfl
@[simp] theorem State.flag_life (s : State) (f : Fld) (b : Bool) : (s.flag f b).life = s.life := rfl
@[simp] theorem State.flag_host (s : State) (f : Fld) (b : Bool) : (s.flag f b).host = s.host := rfl
@[simp] theorem State.flag_out (s : State) (f : Fld) (b : Bool) : (s.flag f b).out = s.out := rfl
@[simp] theorem State.flag_shadow (s : State) (f : Fld) (b : Bool) : (s.flag f b).regs.shadow = s.regs.shadow := rfl
@[simp] theorem State.flag_pend (s : State) (f : Fld) (b : Bool) : (s.flag f b).regs.pend = s.regs.pend := rfl
@[simp] theorem State.flag_acts (s : State) (f : Fld) (b : Bool) : (s.flag f b).regs.act = s.regs.act := rfl
@[simp] theorem State.flag_prev (s : State) (f : Fld) (b : Bool) : (s.flag f b).regs.prev = s.regs.prev := rfl
@[simp] theorem State.flag_hold (s : State) (f : Fld) (b : Bool) : (s.flag f b).regs.hold = s.regs.hold := rfl
@[simp] theorem State.flag_wbuf (s : State) (f : Fld) (b : Bool) : (s.flag f b).regs.wbuf = s.regs.wbuf := rfl
@[simp] theorem State.act_flag (s : State) (f : Fld) (b : Bool) (x : Fld) : (s.flag f b).act x = s.act x := rfl

/-! ### `State.setHalf` -/

@[simp] theorem State.setHalf_pending (s : State) (p : Path) (pg : Nat) (h : Option (Nat × Word)) : (s.setHalf p pg h).pending = s.pending := rfl
@[simp] theorem State.setHalf_free (s : State) (p : Path) (pg : Nat) (h : Option (Nat × Word)) : (s.setHalf p pg h).free = s.free := rfl
@[simp] theorem State.setHalf_commit (s : State) (p : Path) (pg : Nat) (h : Option (Nat × Word)) : (s.setHalf p pg h).commit = s.commit := rfl
@[simp] theorem State.setHalf_clk (s : State) (p : Path) (pg : Nat) (h : Option (Nat × Word)) : (s.setHalf p pg h).clk = s.clk := rfl
@[simp] theorem State.setHalf_ptp (s : State) (p : Path) (pg : Nat) (h : Option (Nat × Word)) : (s.setHalf p pg h).ptp = s.ptp := rfl
@[simp] theorem State.setHalf_snap (s : State) (p : Path) (pg : Nat) (h : Option (Nat × Word)) : (s.setHalf p pg h).snap = s.snap := rfl
@[simp] theorem State.setHalf_tile (s : State) (p : Path) (pg : Nat) (h : Option (Nat × Word)) : (s.setHalf p pg h).tile = s.tile := rfl
@[simp] theorem State.setHalf_mem (s : State) (p : Path) (pg : Nat) (h : Option (Nat × Word)) : (s.setHalf p pg h).mem = s.mem := rfl
@[simp] theorem State.setHalf_stream (s : State) (p : Path) (pg : Nat) (h : Option (Nat × Word)) : (s.setHalf p pg h).stream = s.stream := rfl
@[simp] theorem State.setHalf_queue (s : State) (p : Path) (pg : Nat) (h : Option (Nat × Word)) : (s.setHalf p pg h).queue = s.queue := rfl
@[simp] theorem State.setHalf_sig (s : State) (p : Path) (pg : Nat) (h : Option (Nat × Word)) : (s.setHalf p pg h).sig = s.sig := rfl
@[simp] theorem State.setHalf_nose (s : State) (p : Path) (pg : Nat) (h : Option (Nat × Word)) : (s.setHalf p pg h).nose = s.nose := rfl
@[simp] theorem State.setHalf_coll (s : State) (p : Path) (pg : Nat) (h : Option (Nat × Word)) : (s.setHalf p pg h).coll = s.coll := rfl
@[simp] theorem State.setHalf_fab (s : State) (p : Path) (pg : Nat) (h : Option (Nat × Word)) : (s.setHalf p pg h).fab = s.fab := rfl
@[simp] theorem State.setHalf_part (s : State) (p : Path) (pg : Nat) (h : Option (Nat × Word)) : (s.setHalf p pg h).part = s.part := rfl
@[simp] theorem State.setHalf_tag (s : State) (p : Path) (pg : Nat) (h : Option (Nat × Word)) : (s.setHalf p pg h).tag = s.tag := rfl
@[simp] theorem State.setHalf_pathVal (s : State) (p : Path) (pg : Nat) (h : Option (Nat × Word)) : (s.setHalf p pg h).pathVal = s.pathVal := rfl
@[simp] theorem State.setHalf_island (s : State) (p : Path) (pg : Nat) (h : Option (Nat × Word)) : (s.setHalf p pg h).island = s.island := rfl
@[simp] theorem State.setHalf_msix (s : State) (p : Path) (pg : Nat) (h : Option (Nat × Word)) : (s.setHalf p pg h).msix = s.msix := rfl
@[simp] theorem State.setHalf_power (s : State) (p : Path) (pg : Nat) (h : Option (Nat × Word)) : (s.setHalf p pg h).power = s.power := rfl
@[simp] theorem State.setHalf_fuses (s : State) (p : Path) (pg : Nat) (h : Option (Nat × Word)) : (s.setHalf p pg h).fuses = s.fuses := rfl
@[simp] theorem State.setHalf_boot (s : State) (p : Path) (pg : Nat) (h : Option (Nat × Word)) : (s.setHalf p pg h).boot = s.boot := rfl
@[simp] theorem State.setHalf_mgmt (s : State) (p : Path) (pg : Nat) (h : Option (Nat × Word)) : (s.setHalf p pg h).mgmt = s.mgmt := rfl
@[simp] theorem State.setHalf_life (s : State) (p : Path) (pg : Nat) (h : Option (Nat × Word)) : (s.setHalf p pg h).life = s.life := rfl
@[simp] theorem State.setHalf_host (s : State) (p : Path) (pg : Nat) (h : Option (Nat × Word)) : (s.setHalf p pg h).host = s.host := rfl
@[simp] theorem State.setHalf_out (s : State) (p : Path) (pg : Nat) (h : Option (Nat × Word)) : (s.setHalf p pg h).out = s.out := rfl
@[simp] theorem State.setHalf_cells (s : State) (p : Path) (pg : Nat) (h : Option (Nat × Word)) : (s.setHalf p pg h).regs.cells = s.regs.cells := rfl
@[simp] theorem State.setHalf_shadow (s : State) (p : Path) (pg : Nat) (h : Option (Nat × Word)) : (s.setHalf p pg h).regs.shadow = s.regs.shadow := rfl
@[simp] theorem State.setHalf_pend (s : State) (p : Path) (pg : Nat) (h : Option (Nat × Word)) : (s.setHalf p pg h).regs.pend = s.regs.pend := rfl
@[simp] theorem State.setHalf_acts (s : State) (p : Path) (pg : Nat) (h : Option (Nat × Word)) : (s.setHalf p pg h).regs.act = s.regs.act := rfl
@[simp] theorem State.setHalf_prev (s : State) (p : Path) (pg : Nat) (h : Option (Nat × Word)) : (s.setHalf p pg h).regs.prev = s.regs.prev := rfl
@[simp] theorem State.setHalf_hold (s : State) (p : Path) (pg : Nat) (h : Option (Nat × Word)) : (s.setHalf p pg h).regs.hold = s.regs.hold := rfl
@[simp] theorem State.rd_setHalf (s : State) (p : Path) (pg : Nat) (h : Option (Nat × Word)) (x : Fld) : (s.setHalf p pg h).rd x = s.rd x := rfl
@[simp] theorem State.on_setHalf (s : State) (p : Path) (pg : Nat) (h : Option (Nat × Word)) (x : Fld) : (s.setHalf p pg h).on x = s.on x := rfl
@[simp] theorem State.time_setHalf (s : State) (p : Path) (pg : Nat) (h : Option (Nat × Word)) : (s.setHalf p pg h).time = s.time := rfl
@[simp] theorem State.act_setHalf (s : State) (p : Path) (pg : Nat) (h : Option (Nat × Word)) (x : Fld) : (s.setHalf p pg h).act x = s.act x := rfl

/-! ### `State.emit` -/

@[simp] theorem State.emit_pending (s : State) (o : Out) : (s.emit o).pending = s.pending := rfl
@[simp] theorem State.emit_free (s : State) (o : Out) : (s.emit o).free = s.free := rfl
@[simp] theorem State.emit_regs (s : State) (o : Out) : (s.emit o).regs = s.regs := rfl
@[simp] theorem State.emit_commit (s : State) (o : Out) : (s.emit o).commit = s.commit := rfl
@[simp] theorem State.emit_clk (s : State) (o : Out) : (s.emit o).clk = s.clk := rfl
@[simp] theorem State.emit_ptp (s : State) (o : Out) : (s.emit o).ptp = s.ptp := rfl
@[simp] theorem State.emit_snap (s : State) (o : Out) : (s.emit o).snap = s.snap := rfl
@[simp] theorem State.emit_tile (s : State) (o : Out) : (s.emit o).tile = s.tile := rfl
@[simp] theorem State.emit_mem (s : State) (o : Out) : (s.emit o).mem = s.mem := rfl
@[simp] theorem State.emit_stream (s : State) (o : Out) : (s.emit o).stream = s.stream := rfl
@[simp] theorem State.emit_queue (s : State) (o : Out) : (s.emit o).queue = s.queue := rfl
@[simp] theorem State.emit_sig (s : State) (o : Out) : (s.emit o).sig = s.sig := rfl
@[simp] theorem State.emit_nose (s : State) (o : Out) : (s.emit o).nose = s.nose := rfl
@[simp] theorem State.emit_coll (s : State) (o : Out) : (s.emit o).coll = s.coll := rfl
@[simp] theorem State.emit_fab (s : State) (o : Out) : (s.emit o).fab = s.fab := rfl
@[simp] theorem State.emit_part (s : State) (o : Out) : (s.emit o).part = s.part := rfl
@[simp] theorem State.emit_tag (s : State) (o : Out) : (s.emit o).tag = s.tag := rfl
@[simp] theorem State.emit_pathVal (s : State) (o : Out) : (s.emit o).pathVal = s.pathVal := rfl
@[simp] theorem State.emit_island (s : State) (o : Out) : (s.emit o).island = s.island := rfl
@[simp] theorem State.emit_msix (s : State) (o : Out) : (s.emit o).msix = s.msix := rfl
@[simp] theorem State.emit_power (s : State) (o : Out) : (s.emit o).power = s.power := rfl
@[simp] theorem State.emit_fuses (s : State) (o : Out) : (s.emit o).fuses = s.fuses := rfl
@[simp] theorem State.emit_boot (s : State) (o : Out) : (s.emit o).boot = s.boot := rfl
@[simp] theorem State.emit_mgmt (s : State) (o : Out) : (s.emit o).mgmt = s.mgmt := rfl
@[simp] theorem State.emit_life (s : State) (o : Out) : (s.emit o).life = s.life := rfl
@[simp] theorem State.emit_host (s : State) (o : Out) : (s.emit o).host = s.host := rfl
@[simp] theorem State.emit_out (s : State) (o : Out) : (s.emit o).out = s.out ++ [o] := rfl
@[simp] theorem State.rd_emit (s : State) (o : Out) (x : Fld) : (s.emit o).rd x = s.rd x := rfl
@[simp] theorem State.on_emit (s : State) (o : Out) (x : Fld) : (s.emit o).on x = s.on x := rfl
@[simp] theorem State.time_emit (s : State) (o : Out) : (s.emit o).time = s.time := rfl
@[simp] theorem State.act_emit (s : State) (o : Out) (x : Fld) : (s.emit o).act x = s.act x := rfl

/-! ### `State.onCommit` -/

@[simp] theorem State.onCommit_pending (s : State) (g : CommitSt → CommitSt) : (s.onCommit g).pending = s.pending := rfl
@[simp] theorem State.onCommit_free (s : State) (g : CommitSt → CommitSt) : (s.onCommit g).free = s.free := rfl
@[simp] theorem State.onCommit_regs (s : State) (g : CommitSt → CommitSt) : (s.onCommit g).regs = s.regs := rfl
@[simp] theorem State.onCommit_clk (s : State) (g : CommitSt → CommitSt) : (s.onCommit g).clk = s.clk := rfl
@[simp] theorem State.onCommit_ptp (s : State) (g : CommitSt → CommitSt) : (s.onCommit g).ptp = s.ptp := rfl
@[simp] theorem State.onCommit_snap (s : State) (g : CommitSt → CommitSt) : (s.onCommit g).snap = s.snap := rfl
@[simp] theorem State.onCommit_tile (s : State) (g : CommitSt → CommitSt) : (s.onCommit g).tile = s.tile := rfl
@[simp] theorem State.onCommit_mem (s : State) (g : CommitSt → CommitSt) : (s.onCommit g).mem = s.mem := rfl
@[simp] theorem State.onCommit_stream (s : State) (g : CommitSt → CommitSt) : (s.onCommit g).stream = s.stream := rfl
@[simp] theorem State.onCommit_queue (s : State) (g : CommitSt → CommitSt) : (s.onCommit g).queue = s.queue := rfl
@[simp] theorem State.onCommit_sig (s : State) (g : CommitSt → CommitSt) : (s.onCommit g).sig = s.sig := rfl
@[simp] theorem State.onCommit_nose (s : State) (g : CommitSt → CommitSt) : (s.onCommit g).nose = s.nose := rfl
@[simp] theorem State.onCommit_coll (s : State) (g : CommitSt → CommitSt) : (s.onCommit g).coll = s.coll := rfl
@[simp] theorem State.onCommit_fab (s : State) (g : CommitSt → CommitSt) : (s.onCommit g).fab = s.fab := rfl
@[simp] theorem State.onCommit_part (s : State) (g : CommitSt → CommitSt) : (s.onCommit g).part = s.part := rfl
@[simp] theorem State.onCommit_tag (s : State) (g : CommitSt → CommitSt) : (s.onCommit g).tag = s.tag := rfl
@[simp] theorem State.onCommit_pathVal (s : State) (g : CommitSt → CommitSt) : (s.onCommit g).pathVal = s.pathVal := rfl
@[simp] theorem State.onCommit_island (s : State) (g : CommitSt → CommitSt) : (s.onCommit g).island = s.island := rfl
@[simp] theorem State.onCommit_msix (s : State) (g : CommitSt → CommitSt) : (s.onCommit g).msix = s.msix := rfl
@[simp] theorem State.onCommit_power (s : State) (g : CommitSt → CommitSt) : (s.onCommit g).power = s.power := rfl
@[simp] theorem State.onCommit_fuses (s : State) (g : CommitSt → CommitSt) : (s.onCommit g).fuses = s.fuses := rfl
@[simp] theorem State.onCommit_boot (s : State) (g : CommitSt → CommitSt) : (s.onCommit g).boot = s.boot := rfl
@[simp] theorem State.onCommit_mgmt (s : State) (g : CommitSt → CommitSt) : (s.onCommit g).mgmt = s.mgmt := rfl
@[simp] theorem State.onCommit_life (s : State) (g : CommitSt → CommitSt) : (s.onCommit g).life = s.life := rfl
@[simp] theorem State.onCommit_host (s : State) (g : CommitSt → CommitSt) : (s.onCommit g).host = s.host := rfl
@[simp] theorem State.onCommit_out (s : State) (g : CommitSt → CommitSt) : (s.onCommit g).out = s.out := rfl
@[simp] theorem State.onCommit_commit (s : State) (g : CommitSt → CommitSt) : (s.onCommit g).commit = g s.commit := rfl
@[simp] theorem State.rd_onCommit (s : State) (g : CommitSt → CommitSt) (x : Fld) : (s.onCommit g).rd x = s.rd x := rfl
@[simp] theorem State.on_onCommit (s : State) (g : CommitSt → CommitSt) (x : Fld) : (s.onCommit g).on x = s.on x := rfl
@[simp] theorem State.time_onCommit (s : State) (g : CommitSt → CommitSt) : (s.onCommit g).time = s.time := rfl
@[simp] theorem State.act_onCommit (s : State) (g : CommitSt → CommitSt) (x : Fld) : (s.onCommit g).act x = s.act x := rfl

/-! ### `State.onMem` -/

@[simp] theorem State.onMem_pending (s : State) (g : MemSt → MemSt) : (s.onMem g).pending = s.pending := rfl
@[simp] theorem State.onMem_free (s : State) (g : MemSt → MemSt) : (s.onMem g).free = s.free := rfl
@[simp] theorem State.onMem_regs (s : State) (g : MemSt → MemSt) : (s.onMem g).regs = s.regs := rfl
@[simp] theorem State.onMem_commit (s : State) (g : MemSt → MemSt) : (s.onMem g).commit = s.commit := rfl
@[simp] theorem State.onMem_clk (s : State) (g : MemSt → MemSt) : (s.onMem g).clk = s.clk := rfl
@[simp] theorem State.onMem_ptp (s : State) (g : MemSt → MemSt) : (s.onMem g).ptp = s.ptp := rfl
@[simp] theorem State.onMem_snap (s : State) (g : MemSt → MemSt) : (s.onMem g).snap = s.snap := rfl
@[simp] theorem State.onMem_tile (s : State) (g : MemSt → MemSt) : (s.onMem g).tile = s.tile := rfl
@[simp] theorem State.onMem_stream (s : State) (g : MemSt → MemSt) : (s.onMem g).stream = s.stream := rfl
@[simp] theorem State.onMem_queue (s : State) (g : MemSt → MemSt) : (s.onMem g).queue = s.queue := rfl
@[simp] theorem State.onMem_sig (s : State) (g : MemSt → MemSt) : (s.onMem g).sig = s.sig := rfl
@[simp] theorem State.onMem_nose (s : State) (g : MemSt → MemSt) : (s.onMem g).nose = s.nose := rfl
@[simp] theorem State.onMem_coll (s : State) (g : MemSt → MemSt) : (s.onMem g).coll = s.coll := rfl
@[simp] theorem State.onMem_fab (s : State) (g : MemSt → MemSt) : (s.onMem g).fab = s.fab := rfl
@[simp] theorem State.onMem_part (s : State) (g : MemSt → MemSt) : (s.onMem g).part = s.part := rfl
@[simp] theorem State.onMem_tag (s : State) (g : MemSt → MemSt) : (s.onMem g).tag = s.tag := rfl
@[simp] theorem State.onMem_pathVal (s : State) (g : MemSt → MemSt) : (s.onMem g).pathVal = s.pathVal := rfl
@[simp] theorem State.onMem_island (s : State) (g : MemSt → MemSt) : (s.onMem g).island = s.island := rfl
@[simp] theorem State.onMem_msix (s : State) (g : MemSt → MemSt) : (s.onMem g).msix = s.msix := rfl
@[simp] theorem State.onMem_power (s : State) (g : MemSt → MemSt) : (s.onMem g).power = s.power := rfl
@[simp] theorem State.onMem_fuses (s : State) (g : MemSt → MemSt) : (s.onMem g).fuses = s.fuses := rfl
@[simp] theorem State.onMem_boot (s : State) (g : MemSt → MemSt) : (s.onMem g).boot = s.boot := rfl
@[simp] theorem State.onMem_mgmt (s : State) (g : MemSt → MemSt) : (s.onMem g).mgmt = s.mgmt := rfl
@[simp] theorem State.onMem_life (s : State) (g : MemSt → MemSt) : (s.onMem g).life = s.life := rfl
@[simp] theorem State.onMem_host (s : State) (g : MemSt → MemSt) : (s.onMem g).host = s.host := rfl
@[simp] theorem State.onMem_out (s : State) (g : MemSt → MemSt) : (s.onMem g).out = s.out := rfl
@[simp] theorem State.onMem_mem (s : State) (g : MemSt → MemSt) : (s.onMem g).mem = g s.mem := rfl
@[simp] theorem State.rd_onMem (s : State) (g : MemSt → MemSt) (x : Fld) : (s.onMem g).rd x = s.rd x := rfl
@[simp] theorem State.on_onMem (s : State) (g : MemSt → MemSt) (x : Fld) : (s.onMem g).on x = s.on x := rfl
@[simp] theorem State.time_onMem (s : State) (g : MemSt → MemSt) : (s.onMem g).time = s.time := rfl
@[simp] theorem State.act_onMem (s : State) (g : MemSt → MemSt) (x : Fld) : (s.onMem g).act x = s.act x := rfl

/-! ### `State.onStream` -/

@[simp] theorem State.onStream_pending (s : State) (g : StreamSt → StreamSt) : (s.onStream g).pending = s.pending := rfl
@[simp] theorem State.onStream_free (s : State) (g : StreamSt → StreamSt) : (s.onStream g).free = s.free := rfl
@[simp] theorem State.onStream_regs (s : State) (g : StreamSt → StreamSt) : (s.onStream g).regs = s.regs := rfl
@[simp] theorem State.onStream_commit (s : State) (g : StreamSt → StreamSt) : (s.onStream g).commit = s.commit := rfl
@[simp] theorem State.onStream_clk (s : State) (g : StreamSt → StreamSt) : (s.onStream g).clk = s.clk := rfl
@[simp] theorem State.onStream_ptp (s : State) (g : StreamSt → StreamSt) : (s.onStream g).ptp = s.ptp := rfl
@[simp] theorem State.onStream_snap (s : State) (g : StreamSt → StreamSt) : (s.onStream g).snap = s.snap := rfl
@[simp] theorem State.onStream_tile (s : State) (g : StreamSt → StreamSt) : (s.onStream g).tile = s.tile := rfl
@[simp] theorem State.onStream_mem (s : State) (g : StreamSt → StreamSt) : (s.onStream g).mem = s.mem := rfl
@[simp] theorem State.onStream_queue (s : State) (g : StreamSt → StreamSt) : (s.onStream g).queue = s.queue := rfl
@[simp] theorem State.onStream_sig (s : State) (g : StreamSt → StreamSt) : (s.onStream g).sig = s.sig := rfl
@[simp] theorem State.onStream_nose (s : State) (g : StreamSt → StreamSt) : (s.onStream g).nose = s.nose := rfl
@[simp] theorem State.onStream_coll (s : State) (g : StreamSt → StreamSt) : (s.onStream g).coll = s.coll := rfl
@[simp] theorem State.onStream_fab (s : State) (g : StreamSt → StreamSt) : (s.onStream g).fab = s.fab := rfl
@[simp] theorem State.onStream_part (s : State) (g : StreamSt → StreamSt) : (s.onStream g).part = s.part := rfl
@[simp] theorem State.onStream_tag (s : State) (g : StreamSt → StreamSt) : (s.onStream g).tag = s.tag := rfl
@[simp] theorem State.onStream_pathVal (s : State) (g : StreamSt → StreamSt) : (s.onStream g).pathVal = s.pathVal := rfl
@[simp] theorem State.onStream_island (s : State) (g : StreamSt → StreamSt) : (s.onStream g).island = s.island := rfl
@[simp] theorem State.onStream_msix (s : State) (g : StreamSt → StreamSt) : (s.onStream g).msix = s.msix := rfl
@[simp] theorem State.onStream_power (s : State) (g : StreamSt → StreamSt) : (s.onStream g).power = s.power := rfl
@[simp] theorem State.onStream_fuses (s : State) (g : StreamSt → StreamSt) : (s.onStream g).fuses = s.fuses := rfl
@[simp] theorem State.onStream_boot (s : State) (g : StreamSt → StreamSt) : (s.onStream g).boot = s.boot := rfl
@[simp] theorem State.onStream_mgmt (s : State) (g : StreamSt → StreamSt) : (s.onStream g).mgmt = s.mgmt := rfl
@[simp] theorem State.onStream_life (s : State) (g : StreamSt → StreamSt) : (s.onStream g).life = s.life := rfl
@[simp] theorem State.onStream_host (s : State) (g : StreamSt → StreamSt) : (s.onStream g).host = s.host := rfl
@[simp] theorem State.onStream_out (s : State) (g : StreamSt → StreamSt) : (s.onStream g).out = s.out := rfl
@[simp] theorem State.onStream_stream (s : State) (g : StreamSt → StreamSt) : (s.onStream g).stream = g s.stream := rfl
@[simp] theorem State.rd_onStream (s : State) (g : StreamSt → StreamSt) (x : Fld) : (s.onStream g).rd x = s.rd x := rfl
@[simp] theorem State.on_onStream (s : State) (g : StreamSt → StreamSt) (x : Fld) : (s.onStream g).on x = s.on x := rfl
@[simp] theorem State.time_onStream (s : State) (g : StreamSt → StreamSt) : (s.onStream g).time = s.time := rfl
@[simp] theorem State.act_onStream (s : State) (g : StreamSt → StreamSt) (x : Fld) : (s.onStream g).act x = s.act x := rfl

/-! ### `State.onNose` -/

@[simp] theorem State.onNose_pending (s : State) (g : NoseSt → NoseSt) : (s.onNose g).pending = s.pending := rfl
@[simp] theorem State.onNose_free (s : State) (g : NoseSt → NoseSt) : (s.onNose g).free = s.free := rfl
@[simp] theorem State.onNose_regs (s : State) (g : NoseSt → NoseSt) : (s.onNose g).regs = s.regs := rfl
@[simp] theorem State.onNose_commit (s : State) (g : NoseSt → NoseSt) : (s.onNose g).commit = s.commit := rfl
@[simp] theorem State.onNose_clk (s : State) (g : NoseSt → NoseSt) : (s.onNose g).clk = s.clk := rfl
@[simp] theorem State.onNose_ptp (s : State) (g : NoseSt → NoseSt) : (s.onNose g).ptp = s.ptp := rfl
@[simp] theorem State.onNose_snap (s : State) (g : NoseSt → NoseSt) : (s.onNose g).snap = s.snap := rfl
@[simp] theorem State.onNose_tile (s : State) (g : NoseSt → NoseSt) : (s.onNose g).tile = s.tile := rfl
@[simp] theorem State.onNose_mem (s : State) (g : NoseSt → NoseSt) : (s.onNose g).mem = s.mem := rfl
@[simp] theorem State.onNose_stream (s : State) (g : NoseSt → NoseSt) : (s.onNose g).stream = s.stream := rfl
@[simp] theorem State.onNose_queue (s : State) (g : NoseSt → NoseSt) : (s.onNose g).queue = s.queue := rfl
@[simp] theorem State.onNose_sig (s : State) (g : NoseSt → NoseSt) : (s.onNose g).sig = s.sig := rfl
@[simp] theorem State.onNose_coll (s : State) (g : NoseSt → NoseSt) : (s.onNose g).coll = s.coll := rfl
@[simp] theorem State.onNose_fab (s : State) (g : NoseSt → NoseSt) : (s.onNose g).fab = s.fab := rfl
@[simp] theorem State.onNose_part (s : State) (g : NoseSt → NoseSt) : (s.onNose g).part = s.part := rfl
@[simp] theorem State.onNose_tag (s : State) (g : NoseSt → NoseSt) : (s.onNose g).tag = s.tag := rfl
@[simp] theorem State.onNose_pathVal (s : State) (g : NoseSt → NoseSt) : (s.onNose g).pathVal = s.pathVal := rfl
@[simp] theorem State.onNose_island (s : State) (g : NoseSt → NoseSt) : (s.onNose g).island = s.island := rfl
@[simp] theorem State.onNose_msix (s : State) (g : NoseSt → NoseSt) : (s.onNose g).msix = s.msix := rfl
@[simp] theorem State.onNose_power (s : State) (g : NoseSt → NoseSt) : (s.onNose g).power = s.power := rfl
@[simp] theorem State.onNose_fuses (s : State) (g : NoseSt → NoseSt) : (s.onNose g).fuses = s.fuses := rfl
@[simp] theorem State.onNose_boot (s : State) (g : NoseSt → NoseSt) : (s.onNose g).boot = s.boot := rfl
@[simp] theorem State.onNose_mgmt (s : State) (g : NoseSt → NoseSt) : (s.onNose g).mgmt = s.mgmt := rfl
@[simp] theorem State.onNose_life (s : State) (g : NoseSt → NoseSt) : (s.onNose g).life = s.life := rfl
@[simp] theorem State.onNose_host (s : State) (g : NoseSt → NoseSt) : (s.onNose g).host = s.host := rfl
@[simp] theorem State.onNose_out (s : State) (g : NoseSt → NoseSt) : (s.onNose g).out = s.out := rfl
@[simp] theorem State.onNose_nose (s : State) (g : NoseSt → NoseSt) : (s.onNose g).nose = g s.nose := rfl
@[simp] theorem State.rd_onNose (s : State) (g : NoseSt → NoseSt) (x : Fld) : (s.onNose g).rd x = s.rd x := rfl
@[simp] theorem State.on_onNose (s : State) (g : NoseSt → NoseSt) (x : Fld) : (s.onNose g).on x = s.on x := rfl
@[simp] theorem State.time_onNose (s : State) (g : NoseSt → NoseSt) : (s.onNose g).time = s.time := rfl
@[simp] theorem State.act_onNose (s : State) (g : NoseSt → NoseSt) (x : Fld) : (s.onNose g).act x = s.act x := rfl

/-! ### `State.onColl` -/

@[simp] theorem State.onColl_pending (s : State) (g : CollSt → CollSt) : (s.onColl g).pending = s.pending := rfl
@[simp] theorem State.onColl_free (s : State) (g : CollSt → CollSt) : (s.onColl g).free = s.free := rfl
@[simp] theorem State.onColl_regs (s : State) (g : CollSt → CollSt) : (s.onColl g).regs = s.regs := rfl
@[simp] theorem State.onColl_commit (s : State) (g : CollSt → CollSt) : (s.onColl g).commit = s.commit := rfl
@[simp] theorem State.onColl_clk (s : State) (g : CollSt → CollSt) : (s.onColl g).clk = s.clk := rfl
@[simp] theorem State.onColl_ptp (s : State) (g : CollSt → CollSt) : (s.onColl g).ptp = s.ptp := rfl
@[simp] theorem State.onColl_snap (s : State) (g : CollSt → CollSt) : (s.onColl g).snap = s.snap := rfl
@[simp] theorem State.onColl_tile (s : State) (g : CollSt → CollSt) : (s.onColl g).tile = s.tile := rfl
@[simp] theorem State.onColl_mem (s : State) (g : CollSt → CollSt) : (s.onColl g).mem = s.mem := rfl
@[simp] theorem State.onColl_stream (s : State) (g : CollSt → CollSt) : (s.onColl g).stream = s.stream := rfl
@[simp] theorem State.onColl_queue (s : State) (g : CollSt → CollSt) : (s.onColl g).queue = s.queue := rfl
@[simp] theorem State.onColl_sig (s : State) (g : CollSt → CollSt) : (s.onColl g).sig = s.sig := rfl
@[simp] theorem State.onColl_nose (s : State) (g : CollSt → CollSt) : (s.onColl g).nose = s.nose := rfl
@[simp] theorem State.onColl_fab (s : State) (g : CollSt → CollSt) : (s.onColl g).fab = s.fab := rfl
@[simp] theorem State.onColl_part (s : State) (g : CollSt → CollSt) : (s.onColl g).part = s.part := rfl
@[simp] theorem State.onColl_tag (s : State) (g : CollSt → CollSt) : (s.onColl g).tag = s.tag := rfl
@[simp] theorem State.onColl_pathVal (s : State) (g : CollSt → CollSt) : (s.onColl g).pathVal = s.pathVal := rfl
@[simp] theorem State.onColl_island (s : State) (g : CollSt → CollSt) : (s.onColl g).island = s.island := rfl
@[simp] theorem State.onColl_msix (s : State) (g : CollSt → CollSt) : (s.onColl g).msix = s.msix := rfl
@[simp] theorem State.onColl_power (s : State) (g : CollSt → CollSt) : (s.onColl g).power = s.power := rfl
@[simp] theorem State.onColl_fuses (s : State) (g : CollSt → CollSt) : (s.onColl g).fuses = s.fuses := rfl
@[simp] theorem State.onColl_boot (s : State) (g : CollSt → CollSt) : (s.onColl g).boot = s.boot := rfl
@[simp] theorem State.onColl_mgmt (s : State) (g : CollSt → CollSt) : (s.onColl g).mgmt = s.mgmt := rfl
@[simp] theorem State.onColl_life (s : State) (g : CollSt → CollSt) : (s.onColl g).life = s.life := rfl
@[simp] theorem State.onColl_host (s : State) (g : CollSt → CollSt) : (s.onColl g).host = s.host := rfl
@[simp] theorem State.onColl_out (s : State) (g : CollSt → CollSt) : (s.onColl g).out = s.out := rfl
@[simp] theorem State.onColl_coll (s : State) (g : CollSt → CollSt) : (s.onColl g).coll = g s.coll := rfl
@[simp] theorem State.rd_onColl (s : State) (g : CollSt → CollSt) (x : Fld) : (s.onColl g).rd x = s.rd x := rfl
@[simp] theorem State.on_onColl (s : State) (g : CollSt → CollSt) (x : Fld) : (s.onColl g).on x = s.on x := rfl
@[simp] theorem State.time_onColl (s : State) (g : CollSt → CollSt) : (s.onColl g).time = s.time := rfl
@[simp] theorem State.act_onColl (s : State) (g : CollSt → CollSt) (x : Fld) : (s.onColl g).act x = s.act x := rfl

/-! ### `State.onFab` -/

@[simp] theorem State.onFab_pending (s : State) (g : FabSt → FabSt) : (s.onFab g).pending = s.pending := rfl
@[simp] theorem State.onFab_free (s : State) (g : FabSt → FabSt) : (s.onFab g).free = s.free := rfl
@[simp] theorem State.onFab_regs (s : State) (g : FabSt → FabSt) : (s.onFab g).regs = s.regs := rfl
@[simp] theorem State.onFab_commit (s : State) (g : FabSt → FabSt) : (s.onFab g).commit = s.commit := rfl
@[simp] theorem State.onFab_clk (s : State) (g : FabSt → FabSt) : (s.onFab g).clk = s.clk := rfl
@[simp] theorem State.onFab_ptp (s : State) (g : FabSt → FabSt) : (s.onFab g).ptp = s.ptp := rfl
@[simp] theorem State.onFab_snap (s : State) (g : FabSt → FabSt) : (s.onFab g).snap = s.snap := rfl
@[simp] theorem State.onFab_tile (s : State) (g : FabSt → FabSt) : (s.onFab g).tile = s.tile := rfl
@[simp] theorem State.onFab_mem (s : State) (g : FabSt → FabSt) : (s.onFab g).mem = s.mem := rfl
@[simp] theorem State.onFab_stream (s : State) (g : FabSt → FabSt) : (s.onFab g).stream = s.stream := rfl
@[simp] theorem State.onFab_queue (s : State) (g : FabSt → FabSt) : (s.onFab g).queue = s.queue := rfl
@[simp] theorem State.onFab_sig (s : State) (g : FabSt → FabSt) : (s.onFab g).sig = s.sig := rfl
@[simp] theorem State.onFab_nose (s : State) (g : FabSt → FabSt) : (s.onFab g).nose = s.nose := rfl
@[simp] theorem State.onFab_coll (s : State) (g : FabSt → FabSt) : (s.onFab g).coll = s.coll := rfl
@[simp] theorem State.onFab_part (s : State) (g : FabSt → FabSt) : (s.onFab g).part = s.part := rfl
@[simp] theorem State.onFab_tag (s : State) (g : FabSt → FabSt) : (s.onFab g).tag = s.tag := rfl
@[simp] theorem State.onFab_pathVal (s : State) (g : FabSt → FabSt) : (s.onFab g).pathVal = s.pathVal := rfl
@[simp] theorem State.onFab_island (s : State) (g : FabSt → FabSt) : (s.onFab g).island = s.island := rfl
@[simp] theorem State.onFab_msix (s : State) (g : FabSt → FabSt) : (s.onFab g).msix = s.msix := rfl
@[simp] theorem State.onFab_power (s : State) (g : FabSt → FabSt) : (s.onFab g).power = s.power := rfl
@[simp] theorem State.onFab_fuses (s : State) (g : FabSt → FabSt) : (s.onFab g).fuses = s.fuses := rfl
@[simp] theorem State.onFab_boot (s : State) (g : FabSt → FabSt) : (s.onFab g).boot = s.boot := rfl
@[simp] theorem State.onFab_mgmt (s : State) (g : FabSt → FabSt) : (s.onFab g).mgmt = s.mgmt := rfl
@[simp] theorem State.onFab_life (s : State) (g : FabSt → FabSt) : (s.onFab g).life = s.life := rfl
@[simp] theorem State.onFab_host (s : State) (g : FabSt → FabSt) : (s.onFab g).host = s.host := rfl
@[simp] theorem State.onFab_out (s : State) (g : FabSt → FabSt) : (s.onFab g).out = s.out := rfl
@[simp] theorem State.onFab_fab (s : State) (g : FabSt → FabSt) : (s.onFab g).fab = g s.fab := rfl
@[simp] theorem State.rd_onFab (s : State) (g : FabSt → FabSt) (x : Fld) : (s.onFab g).rd x = s.rd x := rfl
@[simp] theorem State.on_onFab (s : State) (g : FabSt → FabSt) (x : Fld) : (s.onFab g).on x = s.on x := rfl
@[simp] theorem State.time_onFab (s : State) (g : FabSt → FabSt) : (s.onFab g).time = s.time := rfl
@[simp] theorem State.act_onFab (s : State) (g : FabSt → FabSt) (x : Fld) : (s.onFab g).act x = s.act x := rfl

/-! ### `State.onPart` -/

@[simp] theorem State.onPart_pending (s : State) (g : PartSt → PartSt) : (s.onPart g).pending = s.pending := rfl
@[simp] theorem State.onPart_free (s : State) (g : PartSt → PartSt) : (s.onPart g).free = s.free := rfl
@[simp] theorem State.onPart_regs (s : State) (g : PartSt → PartSt) : (s.onPart g).regs = s.regs := rfl
@[simp] theorem State.onPart_commit (s : State) (g : PartSt → PartSt) : (s.onPart g).commit = s.commit := rfl
@[simp] theorem State.onPart_clk (s : State) (g : PartSt → PartSt) : (s.onPart g).clk = s.clk := rfl
@[simp] theorem State.onPart_ptp (s : State) (g : PartSt → PartSt) : (s.onPart g).ptp = s.ptp := rfl
@[simp] theorem State.onPart_snap (s : State) (g : PartSt → PartSt) : (s.onPart g).snap = s.snap := rfl
@[simp] theorem State.onPart_tile (s : State) (g : PartSt → PartSt) : (s.onPart g).tile = s.tile := rfl
@[simp] theorem State.onPart_mem (s : State) (g : PartSt → PartSt) : (s.onPart g).mem = s.mem := rfl
@[simp] theorem State.onPart_stream (s : State) (g : PartSt → PartSt) : (s.onPart g).stream = s.stream := rfl
@[simp] theorem State.onPart_queue (s : State) (g : PartSt → PartSt) : (s.onPart g).queue = s.queue := rfl
@[simp] theorem State.onPart_sig (s : State) (g : PartSt → PartSt) : (s.onPart g).sig = s.sig := rfl
@[simp] theorem State.onPart_nose (s : State) (g : PartSt → PartSt) : (s.onPart g).nose = s.nose := rfl
@[simp] theorem State.onPart_coll (s : State) (g : PartSt → PartSt) : (s.onPart g).coll = s.coll := rfl
@[simp] theorem State.onPart_fab (s : State) (g : PartSt → PartSt) : (s.onPart g).fab = s.fab := rfl
@[simp] theorem State.onPart_tag (s : State) (g : PartSt → PartSt) : (s.onPart g).tag = s.tag := rfl
@[simp] theorem State.onPart_pathVal (s : State) (g : PartSt → PartSt) : (s.onPart g).pathVal = s.pathVal := rfl
@[simp] theorem State.onPart_island (s : State) (g : PartSt → PartSt) : (s.onPart g).island = s.island := rfl
@[simp] theorem State.onPart_msix (s : State) (g : PartSt → PartSt) : (s.onPart g).msix = s.msix := rfl
@[simp] theorem State.onPart_power (s : State) (g : PartSt → PartSt) : (s.onPart g).power = s.power := rfl
@[simp] theorem State.onPart_fuses (s : State) (g : PartSt → PartSt) : (s.onPart g).fuses = s.fuses := rfl
@[simp] theorem State.onPart_boot (s : State) (g : PartSt → PartSt) : (s.onPart g).boot = s.boot := rfl
@[simp] theorem State.onPart_mgmt (s : State) (g : PartSt → PartSt) : (s.onPart g).mgmt = s.mgmt := rfl
@[simp] theorem State.onPart_life (s : State) (g : PartSt → PartSt) : (s.onPart g).life = s.life := rfl
@[simp] theorem State.onPart_host (s : State) (g : PartSt → PartSt) : (s.onPart g).host = s.host := rfl
@[simp] theorem State.onPart_out (s : State) (g : PartSt → PartSt) : (s.onPart g).out = s.out := rfl
@[simp] theorem State.onPart_part (s : State) (g : PartSt → PartSt) : (s.onPart g).part = g s.part := rfl
@[simp] theorem State.rd_onPart (s : State) (g : PartSt → PartSt) (x : Fld) : (s.onPart g).rd x = s.rd x := rfl
@[simp] theorem State.on_onPart (s : State) (g : PartSt → PartSt) (x : Fld) : (s.onPart g).on x = s.on x := rfl
@[simp] theorem State.time_onPart (s : State) (g : PartSt → PartSt) : (s.onPart g).time = s.time := rfl
@[simp] theorem State.act_onPart (s : State) (g : PartSt → PartSt) (x : Fld) : (s.onPart g).act x = s.act x := rfl

/-! ### `State.onTag` -/

@[simp] theorem State.onTag_pending (s : State) (g : TagSt → TagSt) : (s.onTag g).pending = s.pending := rfl
@[simp] theorem State.onTag_free (s : State) (g : TagSt → TagSt) : (s.onTag g).free = s.free := rfl
@[simp] theorem State.onTag_regs (s : State) (g : TagSt → TagSt) : (s.onTag g).regs = s.regs := rfl
@[simp] theorem State.onTag_commit (s : State) (g : TagSt → TagSt) : (s.onTag g).commit = s.commit := rfl
@[simp] theorem State.onTag_clk (s : State) (g : TagSt → TagSt) : (s.onTag g).clk = s.clk := rfl
@[simp] theorem State.onTag_ptp (s : State) (g : TagSt → TagSt) : (s.onTag g).ptp = s.ptp := rfl
@[simp] theorem State.onTag_snap (s : State) (g : TagSt → TagSt) : (s.onTag g).snap = s.snap := rfl
@[simp] theorem State.onTag_tile (s : State) (g : TagSt → TagSt) : (s.onTag g).tile = s.tile := rfl
@[simp] theorem State.onTag_mem (s : State) (g : TagSt → TagSt) : (s.onTag g).mem = s.mem := rfl
@[simp] theorem State.onTag_stream (s : State) (g : TagSt → TagSt) : (s.onTag g).stream = s.stream := rfl
@[simp] theorem State.onTag_queue (s : State) (g : TagSt → TagSt) : (s.onTag g).queue = s.queue := rfl
@[simp] theorem State.onTag_sig (s : State) (g : TagSt → TagSt) : (s.onTag g).sig = s.sig := rfl
@[simp] theorem State.onTag_nose (s : State) (g : TagSt → TagSt) : (s.onTag g).nose = s.nose := rfl
@[simp] theorem State.onTag_coll (s : State) (g : TagSt → TagSt) : (s.onTag g).coll = s.coll := rfl
@[simp] theorem State.onTag_fab (s : State) (g : TagSt → TagSt) : (s.onTag g).fab = s.fab := rfl
@[simp] theorem State.onTag_part (s : State) (g : TagSt → TagSt) : (s.onTag g).part = s.part := rfl
@[simp] theorem State.onTag_pathVal (s : State) (g : TagSt → TagSt) : (s.onTag g).pathVal = s.pathVal := rfl
@[simp] theorem State.onTag_island (s : State) (g : TagSt → TagSt) : (s.onTag g).island = s.island := rfl
@[simp] theorem State.onTag_msix (s : State) (g : TagSt → TagSt) : (s.onTag g).msix = s.msix := rfl
@[simp] theorem State.onTag_power (s : State) (g : TagSt → TagSt) : (s.onTag g).power = s.power := rfl
@[simp] theorem State.onTag_fuses (s : State) (g : TagSt → TagSt) : (s.onTag g).fuses = s.fuses := rfl
@[simp] theorem State.onTag_boot (s : State) (g : TagSt → TagSt) : (s.onTag g).boot = s.boot := rfl
@[simp] theorem State.onTag_mgmt (s : State) (g : TagSt → TagSt) : (s.onTag g).mgmt = s.mgmt := rfl
@[simp] theorem State.onTag_life (s : State) (g : TagSt → TagSt) : (s.onTag g).life = s.life := rfl
@[simp] theorem State.onTag_host (s : State) (g : TagSt → TagSt) : (s.onTag g).host = s.host := rfl
@[simp] theorem State.onTag_out (s : State) (g : TagSt → TagSt) : (s.onTag g).out = s.out := rfl
@[simp] theorem State.onTag_tag (s : State) (g : TagSt → TagSt) : (s.onTag g).tag = g s.tag := rfl
@[simp] theorem State.rd_onTag (s : State) (g : TagSt → TagSt) (x : Fld) : (s.onTag g).rd x = s.rd x := rfl
@[simp] theorem State.on_onTag (s : State) (g : TagSt → TagSt) (x : Fld) : (s.onTag g).on x = s.on x := rfl
@[simp] theorem State.time_onTag (s : State) (g : TagSt → TagSt) : (s.onTag g).time = s.time := rfl
@[simp] theorem State.act_onTag (s : State) (g : TagSt → TagSt) (x : Fld) : (s.onTag g).act x = s.act x := rfl

/-! ### `State.onIsland` -/

@[simp] theorem State.onIsland_pending (s : State) (g : IslandSt → IslandSt) : (s.onIsland g).pending = s.pending := rfl
@[simp] theorem State.onIsland_free (s : State) (g : IslandSt → IslandSt) : (s.onIsland g).free = s.free := rfl
@[simp] theorem State.onIsland_regs (s : State) (g : IslandSt → IslandSt) : (s.onIsland g).regs = s.regs := rfl
@[simp] theorem State.onIsland_commit (s : State) (g : IslandSt → IslandSt) : (s.onIsland g).commit = s.commit := rfl
@[simp] theorem State.onIsland_clk (s : State) (g : IslandSt → IslandSt) : (s.onIsland g).clk = s.clk := rfl
@[simp] theorem State.onIsland_ptp (s : State) (g : IslandSt → IslandSt) : (s.onIsland g).ptp = s.ptp := rfl
@[simp] theorem State.onIsland_snap (s : State) (g : IslandSt → IslandSt) : (s.onIsland g).snap = s.snap := rfl
@[simp] theorem State.onIsland_tile (s : State) (g : IslandSt → IslandSt) : (s.onIsland g).tile = s.tile := rfl
@[simp] theorem State.onIsland_mem (s : State) (g : IslandSt → IslandSt) : (s.onIsland g).mem = s.mem := rfl
@[simp] theorem State.onIsland_stream (s : State) (g : IslandSt → IslandSt) : (s.onIsland g).stream = s.stream := rfl
@[simp] theorem State.onIsland_queue (s : State) (g : IslandSt → IslandSt) : (s.onIsland g).queue = s.queue := rfl
@[simp] theorem State.onIsland_sig (s : State) (g : IslandSt → IslandSt) : (s.onIsland g).sig = s.sig := rfl
@[simp] theorem State.onIsland_nose (s : State) (g : IslandSt → IslandSt) : (s.onIsland g).nose = s.nose := rfl
@[simp] theorem State.onIsland_coll (s : State) (g : IslandSt → IslandSt) : (s.onIsland g).coll = s.coll := rfl
@[simp] theorem State.onIsland_fab (s : State) (g : IslandSt → IslandSt) : (s.onIsland g).fab = s.fab := rfl
@[simp] theorem State.onIsland_part (s : State) (g : IslandSt → IslandSt) : (s.onIsland g).part = s.part := rfl
@[simp] theorem State.onIsland_tag (s : State) (g : IslandSt → IslandSt) : (s.onIsland g).tag = s.tag := rfl
@[simp] theorem State.onIsland_pathVal (s : State) (g : IslandSt → IslandSt) : (s.onIsland g).pathVal = s.pathVal := rfl
@[simp] theorem State.onIsland_msix (s : State) (g : IslandSt → IslandSt) : (s.onIsland g).msix = s.msix := rfl
@[simp] theorem State.onIsland_power (s : State) (g : IslandSt → IslandSt) : (s.onIsland g).power = s.power := rfl
@[simp] theorem State.onIsland_fuses (s : State) (g : IslandSt → IslandSt) : (s.onIsland g).fuses = s.fuses := rfl
@[simp] theorem State.onIsland_boot (s : State) (g : IslandSt → IslandSt) : (s.onIsland g).boot = s.boot := rfl
@[simp] theorem State.onIsland_mgmt (s : State) (g : IslandSt → IslandSt) : (s.onIsland g).mgmt = s.mgmt := rfl
@[simp] theorem State.onIsland_life (s : State) (g : IslandSt → IslandSt) : (s.onIsland g).life = s.life := rfl
@[simp] theorem State.onIsland_host (s : State) (g : IslandSt → IslandSt) : (s.onIsland g).host = s.host := rfl
@[simp] theorem State.onIsland_out (s : State) (g : IslandSt → IslandSt) : (s.onIsland g).out = s.out := rfl
@[simp] theorem State.onIsland_island (s : State) (g : IslandSt → IslandSt) : (s.onIsland g).island = g s.island := rfl
@[simp] theorem State.rd_onIsland (s : State) (g : IslandSt → IslandSt) (x : Fld) : (s.onIsland g).rd x = s.rd x := rfl
@[simp] theorem State.on_onIsland (s : State) (g : IslandSt → IslandSt) (x : Fld) : (s.onIsland g).on x = s.on x := rfl
@[simp] theorem State.time_onIsland (s : State) (g : IslandSt → IslandSt) : (s.onIsland g).time = s.time := rfl
@[simp] theorem State.act_onIsland (s : State) (g : IslandSt → IslandSt) (x : Fld) : (s.onIsland g).act x = s.act x := rfl

/-! ### `State.onPower` -/

@[simp] theorem State.onPower_pending (s : State) (g : PowerSt → PowerSt) : (s.onPower g).pending = s.pending := rfl
@[simp] theorem State.onPower_free (s : State) (g : PowerSt → PowerSt) : (s.onPower g).free = s.free := rfl
@[simp] theorem State.onPower_regs (s : State) (g : PowerSt → PowerSt) : (s.onPower g).regs = s.regs := rfl
@[simp] theorem State.onPower_commit (s : State) (g : PowerSt → PowerSt) : (s.onPower g).commit = s.commit := rfl
@[simp] theorem State.onPower_clk (s : State) (g : PowerSt → PowerSt) : (s.onPower g).clk = s.clk := rfl
@[simp] theorem State.onPower_ptp (s : State) (g : PowerSt → PowerSt) : (s.onPower g).ptp = s.ptp := rfl
@[simp] theorem State.onPower_snap (s : State) (g : PowerSt → PowerSt) : (s.onPower g).snap = s.snap := rfl
@[simp] theorem State.onPower_tile (s : State) (g : PowerSt → PowerSt) : (s.onPower g).tile = s.tile := rfl
@[simp] theorem State.onPower_mem (s : State) (g : PowerSt → PowerSt) : (s.onPower g).mem = s.mem := rfl
@[simp] theorem State.onPower_stream (s : State) (g : PowerSt → PowerSt) : (s.onPower g).stream = s.stream := rfl
@[simp] theorem State.onPower_queue (s : State) (g : PowerSt → PowerSt) : (s.onPower g).queue = s.queue := rfl
@[simp] theorem State.onPower_sig (s : State) (g : PowerSt → PowerSt) : (s.onPower g).sig = s.sig := rfl
@[simp] theorem State.onPower_nose (s : State) (g : PowerSt → PowerSt) : (s.onPower g).nose = s.nose := rfl
@[simp] theorem State.onPower_coll (s : State) (g : PowerSt → PowerSt) : (s.onPower g).coll = s.coll := rfl
@[simp] theorem State.onPower_fab (s : State) (g : PowerSt → PowerSt) : (s.onPower g).fab = s.fab := rfl
@[simp] theorem State.onPower_part (s : State) (g : PowerSt → PowerSt) : (s.onPower g).part = s.part := rfl
@[simp] theorem State.onPower_tag (s : State) (g : PowerSt → PowerSt) : (s.onPower g).tag = s.tag := rfl
@[simp] theorem State.onPower_pathVal (s : State) (g : PowerSt → PowerSt) : (s.onPower g).pathVal = s.pathVal := rfl
@[simp] theorem State.onPower_island (s : State) (g : PowerSt → PowerSt) : (s.onPower g).island = s.island := rfl
@[simp] theorem State.onPower_msix (s : State) (g : PowerSt → PowerSt) : (s.onPower g).msix = s.msix := rfl
@[simp] theorem State.onPower_fuses (s : State) (g : PowerSt → PowerSt) : (s.onPower g).fuses = s.fuses := rfl
@[simp] theorem State.onPower_boot (s : State) (g : PowerSt → PowerSt) : (s.onPower g).boot = s.boot := rfl
@[simp] theorem State.onPower_mgmt (s : State) (g : PowerSt → PowerSt) : (s.onPower g).mgmt = s.mgmt := rfl
@[simp] theorem State.onPower_life (s : State) (g : PowerSt → PowerSt) : (s.onPower g).life = s.life := rfl
@[simp] theorem State.onPower_host (s : State) (g : PowerSt → PowerSt) : (s.onPower g).host = s.host := rfl
@[simp] theorem State.onPower_out (s : State) (g : PowerSt → PowerSt) : (s.onPower g).out = s.out := rfl
@[simp] theorem State.onPower_power (s : State) (g : PowerSt → PowerSt) : (s.onPower g).power = g s.power := rfl
@[simp] theorem State.rd_onPower (s : State) (g : PowerSt → PowerSt) (x : Fld) : (s.onPower g).rd x = s.rd x := rfl
@[simp] theorem State.on_onPower (s : State) (g : PowerSt → PowerSt) (x : Fld) : (s.onPower g).on x = s.on x := rfl
@[simp] theorem State.time_onPower (s : State) (g : PowerSt → PowerSt) : (s.onPower g).time = s.time := rfl
@[simp] theorem State.act_onPower (s : State) (g : PowerSt → PowerSt) (x : Fld) : (s.onPower g).act x = s.act x := rfl

/-! ### `State.onBoot` -/

@[simp] theorem State.onBoot_pending (s : State) (g : BootSt → BootSt) : (s.onBoot g).pending = s.pending := rfl
@[simp] theorem State.onBoot_free (s : State) (g : BootSt → BootSt) : (s.onBoot g).free = s.free := rfl
@[simp] theorem State.onBoot_regs (s : State) (g : BootSt → BootSt) : (s.onBoot g).regs = s.regs := rfl
@[simp] theorem State.onBoot_commit (s : State) (g : BootSt → BootSt) : (s.onBoot g).commit = s.commit := rfl
@[simp] theorem State.onBoot_clk (s : State) (g : BootSt → BootSt) : (s.onBoot g).clk = s.clk := rfl
@[simp] theorem State.onBoot_ptp (s : State) (g : BootSt → BootSt) : (s.onBoot g).ptp = s.ptp := rfl
@[simp] theorem State.onBoot_snap (s : State) (g : BootSt → BootSt) : (s.onBoot g).snap = s.snap := rfl
@[simp] theorem State.onBoot_tile (s : State) (g : BootSt → BootSt) : (s.onBoot g).tile = s.tile := rfl
@[simp] theorem State.onBoot_mem (s : State) (g : BootSt → BootSt) : (s.onBoot g).mem = s.mem := rfl
@[simp] theorem State.onBoot_stream (s : State) (g : BootSt → BootSt) : (s.onBoot g).stream = s.stream := rfl
@[simp] theorem State.onBoot_queue (s : State) (g : BootSt → BootSt) : (s.onBoot g).queue = s.queue := rfl
@[simp] theorem State.onBoot_sig (s : State) (g : BootSt → BootSt) : (s.onBoot g).sig = s.sig := rfl
@[simp] theorem State.onBoot_nose (s : State) (g : BootSt → BootSt) : (s.onBoot g).nose = s.nose := rfl
@[simp] theorem State.onBoot_coll (s : State) (g : BootSt → BootSt) : (s.onBoot g).coll = s.coll := rfl
@[simp] theorem State.onBoot_fab (s : State) (g : BootSt → BootSt) : (s.onBoot g).fab = s.fab := rfl
@[simp] theorem State.onBoot_part (s : State) (g : BootSt → BootSt) : (s.onBoot g).part = s.part := rfl
@[simp] theorem State.onBoot_tag (s : State) (g : BootSt → BootSt) : (s.onBoot g).tag = s.tag := rfl
@[simp] theorem State.onBoot_pathVal (s : State) (g : BootSt → BootSt) : (s.onBoot g).pathVal = s.pathVal := rfl
@[simp] theorem State.onBoot_island (s : State) (g : BootSt → BootSt) : (s.onBoot g).island = s.island := rfl
@[simp] theorem State.onBoot_msix (s : State) (g : BootSt → BootSt) : (s.onBoot g).msix = s.msix := rfl
@[simp] theorem State.onBoot_power (s : State) (g : BootSt → BootSt) : (s.onBoot g).power = s.power := rfl
@[simp] theorem State.onBoot_fuses (s : State) (g : BootSt → BootSt) : (s.onBoot g).fuses = s.fuses := rfl
@[simp] theorem State.onBoot_mgmt (s : State) (g : BootSt → BootSt) : (s.onBoot g).mgmt = s.mgmt := rfl
@[simp] theorem State.onBoot_life (s : State) (g : BootSt → BootSt) : (s.onBoot g).life = s.life := rfl
@[simp] theorem State.onBoot_host (s : State) (g : BootSt → BootSt) : (s.onBoot g).host = s.host := rfl
@[simp] theorem State.onBoot_out (s : State) (g : BootSt → BootSt) : (s.onBoot g).out = s.out := rfl
@[simp] theorem State.onBoot_boot (s : State) (g : BootSt → BootSt) : (s.onBoot g).boot = g s.boot := rfl
@[simp] theorem State.rd_onBoot (s : State) (g : BootSt → BootSt) (x : Fld) : (s.onBoot g).rd x = s.rd x := rfl
@[simp] theorem State.on_onBoot (s : State) (g : BootSt → BootSt) (x : Fld) : (s.onBoot g).on x = s.on x := rfl
@[simp] theorem State.time_onBoot (s : State) (g : BootSt → BootSt) : (s.onBoot g).time = s.time := rfl
@[simp] theorem State.act_onBoot (s : State) (g : BootSt → BootSt) (x : Fld) : (s.onBoot g).act x = s.act x := rfl

/-! ### `State.onMgmt` -/

@[simp] theorem State.onMgmt_pending (s : State) (g : MgmtSt → MgmtSt) : (s.onMgmt g).pending = s.pending := rfl
@[simp] theorem State.onMgmt_free (s : State) (g : MgmtSt → MgmtSt) : (s.onMgmt g).free = s.free := rfl
@[simp] theorem State.onMgmt_regs (s : State) (g : MgmtSt → MgmtSt) : (s.onMgmt g).regs = s.regs := rfl
@[simp] theorem State.onMgmt_commit (s : State) (g : MgmtSt → MgmtSt) : (s.onMgmt g).commit = s.commit := rfl
@[simp] theorem State.onMgmt_clk (s : State) (g : MgmtSt → MgmtSt) : (s.onMgmt g).clk = s.clk := rfl
@[simp] theorem State.onMgmt_ptp (s : State) (g : MgmtSt → MgmtSt) : (s.onMgmt g).ptp = s.ptp := rfl
@[simp] theorem State.onMgmt_snap (s : State) (g : MgmtSt → MgmtSt) : (s.onMgmt g).snap = s.snap := rfl
@[simp] theorem State.onMgmt_tile (s : State) (g : MgmtSt → MgmtSt) : (s.onMgmt g).tile = s.tile := rfl
@[simp] theorem State.onMgmt_mem (s : State) (g : MgmtSt → MgmtSt) : (s.onMgmt g).mem = s.mem := rfl
@[simp] theorem State.onMgmt_stream (s : State) (g : MgmtSt → MgmtSt) : (s.onMgmt g).stream = s.stream := rfl
@[simp] theorem State.onMgmt_queue (s : State) (g : MgmtSt → MgmtSt) : (s.onMgmt g).queue = s.queue := rfl
@[simp] theorem State.onMgmt_sig (s : State) (g : MgmtSt → MgmtSt) : (s.onMgmt g).sig = s.sig := rfl
@[simp] theorem State.onMgmt_nose (s : State) (g : MgmtSt → MgmtSt) : (s.onMgmt g).nose = s.nose := rfl
@[simp] theorem State.onMgmt_coll (s : State) (g : MgmtSt → MgmtSt) : (s.onMgmt g).coll = s.coll := rfl
@[simp] theorem State.onMgmt_fab (s : State) (g : MgmtSt → MgmtSt) : (s.onMgmt g).fab = s.fab := rfl
@[simp] theorem State.onMgmt_part (s : State) (g : MgmtSt → MgmtSt) : (s.onMgmt g).part = s.part := rfl
@[simp] theorem State.onMgmt_tag (s : State) (g : MgmtSt → MgmtSt) : (s.onMgmt g).tag = s.tag := rfl
@[simp] theorem State.onMgmt_pathVal (s : State) (g : MgmtSt → MgmtSt) : (s.onMgmt g).pathVal = s.pathVal := rfl
@[simp] theorem State.onMgmt_island (s : State) (g : MgmtSt → MgmtSt) : (s.onMgmt g).island = s.island := rfl
@[simp] theorem State.onMgmt_msix (s : State) (g : MgmtSt → MgmtSt) : (s.onMgmt g).msix = s.msix := rfl
@[simp] theorem State.onMgmt_power (s : State) (g : MgmtSt → MgmtSt) : (s.onMgmt g).power = s.power := rfl
@[simp] theorem State.onMgmt_fuses (s : State) (g : MgmtSt → MgmtSt) : (s.onMgmt g).fuses = s.fuses := rfl
@[simp] theorem State.onMgmt_boot (s : State) (g : MgmtSt → MgmtSt) : (s.onMgmt g).boot = s.boot := rfl
@[simp] theorem State.onMgmt_life (s : State) (g : MgmtSt → MgmtSt) : (s.onMgmt g).life = s.life := rfl
@[simp] theorem State.onMgmt_host (s : State) (g : MgmtSt → MgmtSt) : (s.onMgmt g).host = s.host := rfl
@[simp] theorem State.onMgmt_out (s : State) (g : MgmtSt → MgmtSt) : (s.onMgmt g).out = s.out := rfl
@[simp] theorem State.onMgmt_mgmt (s : State) (g : MgmtSt → MgmtSt) : (s.onMgmt g).mgmt = g s.mgmt := rfl
@[simp] theorem State.rd_onMgmt (s : State) (g : MgmtSt → MgmtSt) (x : Fld) : (s.onMgmt g).rd x = s.rd x := rfl
@[simp] theorem State.on_onMgmt (s : State) (g : MgmtSt → MgmtSt) (x : Fld) : (s.onMgmt g).on x = s.on x := rfl
@[simp] theorem State.time_onMgmt (s : State) (g : MgmtSt → MgmtSt) : (s.onMgmt g).time = s.time := rfl
@[simp] theorem State.act_onMgmt (s : State) (g : MgmtSt → MgmtSt) (x : Fld) : (s.onMgmt g).act x = s.act x := rfl

/-! ### `State.onLife` -/

@[simp] theorem State.onLife_pending (s : State) (g : LifeSt → LifeSt) : (s.onLife g).pending = s.pending := rfl
@[simp] theorem State.onLife_free (s : State) (g : LifeSt → LifeSt) : (s.onLife g).free = s.free := rfl
@[simp] theorem State.onLife_regs (s : State) (g : LifeSt → LifeSt) : (s.onLife g).regs = s.regs := rfl
@[simp] theorem State.onLife_commit (s : State) (g : LifeSt → LifeSt) : (s.onLife g).commit = s.commit := rfl
@[simp] theorem State.onLife_clk (s : State) (g : LifeSt → LifeSt) : (s.onLife g).clk = s.clk := rfl
@[simp] theorem State.onLife_ptp (s : State) (g : LifeSt → LifeSt) : (s.onLife g).ptp = s.ptp := rfl
@[simp] theorem State.onLife_snap (s : State) (g : LifeSt → LifeSt) : (s.onLife g).snap = s.snap := rfl
@[simp] theorem State.onLife_tile (s : State) (g : LifeSt → LifeSt) : (s.onLife g).tile = s.tile := rfl
@[simp] theorem State.onLife_mem (s : State) (g : LifeSt → LifeSt) : (s.onLife g).mem = s.mem := rfl
@[simp] theorem State.onLife_stream (s : State) (g : LifeSt → LifeSt) : (s.onLife g).stream = s.stream := rfl
@[simp] theorem State.onLife_queue (s : State) (g : LifeSt → LifeSt) : (s.onLife g).queue = s.queue := rfl
@[simp] theorem State.onLife_sig (s : State) (g : LifeSt → LifeSt) : (s.onLife g).sig = s.sig := rfl
@[simp] theorem State.onLife_nose (s : State) (g : LifeSt → LifeSt) : (s.onLife g).nose = s.nose := rfl
@[simp] theorem State.onLife_coll (s : State) (g : LifeSt → LifeSt) : (s.onLife g).coll = s.coll := rfl
@[simp] theorem State.onLife_fab (s : State) (g : LifeSt → LifeSt) : (s.onLife g).fab = s.fab := rfl
@[simp] theorem State.onLife_part (s : State) (g : LifeSt → LifeSt) : (s.onLife g).part = s.part := rfl
@[simp] theorem State.onLife_tag (s : State) (g : LifeSt → LifeSt) : (s.onLife g).tag = s.tag := rfl
@[simp] theorem State.onLife_pathVal (s : State) (g : LifeSt → LifeSt) : (s.onLife g).pathVal = s.pathVal := rfl
@[simp] theorem State.onLife_island (s : State) (g : LifeSt → LifeSt) : (s.onLife g).island = s.island := rfl
@[simp] theorem State.onLife_msix (s : State) (g : LifeSt → LifeSt) : (s.onLife g).msix = s.msix := rfl
@[simp] theorem State.onLife_power (s : State) (g : LifeSt → LifeSt) : (s.onLife g).power = s.power := rfl
@[simp] theorem State.onLife_fuses (s : State) (g : LifeSt → LifeSt) : (s.onLife g).fuses = s.fuses := rfl
@[simp] theorem State.onLife_boot (s : State) (g : LifeSt → LifeSt) : (s.onLife g).boot = s.boot := rfl
@[simp] theorem State.onLife_mgmt (s : State) (g : LifeSt → LifeSt) : (s.onLife g).mgmt = s.mgmt := rfl
@[simp] theorem State.onLife_host (s : State) (g : LifeSt → LifeSt) : (s.onLife g).host = s.host := rfl
@[simp] theorem State.onLife_out (s : State) (g : LifeSt → LifeSt) : (s.onLife g).out = s.out := rfl
@[simp] theorem State.onLife_life (s : State) (g : LifeSt → LifeSt) : (s.onLife g).life = g s.life := rfl
@[simp] theorem State.rd_onLife (s : State) (g : LifeSt → LifeSt) (x : Fld) : (s.onLife g).rd x = s.rd x := rfl
@[simp] theorem State.on_onLife (s : State) (g : LifeSt → LifeSt) (x : Fld) : (s.onLife g).on x = s.on x := rfl
@[simp] theorem State.time_onLife (s : State) (g : LifeSt → LifeSt) : (s.onLife g).time = s.time := rfl
@[simp] theorem State.act_onLife (s : State) (g : LifeSt → LifeSt) (x : Fld) : (s.onLife g).act x = s.act x := rfl

/-! ### `State.onHost` -/

@[simp] theorem State.onHost_pending (s : State) (g : HostSt → HostSt) : (s.onHost g).pending = s.pending := rfl
@[simp] theorem State.onHost_free (s : State) (g : HostSt → HostSt) : (s.onHost g).free = s.free := rfl
@[simp] theorem State.onHost_regs (s : State) (g : HostSt → HostSt) : (s.onHost g).regs = s.regs := rfl
@[simp] theorem State.onHost_commit (s : State) (g : HostSt → HostSt) : (s.onHost g).commit = s.commit := rfl
@[simp] theorem State.onHost_clk (s : State) (g : HostSt → HostSt) : (s.onHost g).clk = s.clk := rfl
@[simp] theorem State.onHost_ptp (s : State) (g : HostSt → HostSt) : (s.onHost g).ptp = s.ptp := rfl
@[simp] theorem State.onHost_snap (s : State) (g : HostSt → HostSt) : (s.onHost g).snap = s.snap := rfl
@[simp] theorem State.onHost_tile (s : State) (g : HostSt → HostSt) : (s.onHost g).tile = s.tile := rfl
@[simp] theorem State.onHost_mem (s : State) (g : HostSt → HostSt) : (s.onHost g).mem = s.mem := rfl
@[simp] theorem State.onHost_stream (s : State) (g : HostSt → HostSt) : (s.onHost g).stream = s.stream := rfl
@[simp] theorem State.onHost_queue (s : State) (g : HostSt → HostSt) : (s.onHost g).queue = s.queue := rfl
@[simp] theorem State.onHost_sig (s : State) (g : HostSt → HostSt) : (s.onHost g).sig = s.sig := rfl
@[simp] theorem State.onHost_nose (s : State) (g : HostSt → HostSt) : (s.onHost g).nose = s.nose := rfl
@[simp] theorem State.onHost_coll (s : State) (g : HostSt → HostSt) : (s.onHost g).coll = s.coll := rfl
@[simp] theorem State.onHost_fab (s : State) (g : HostSt → HostSt) : (s.onHost g).fab = s.fab := rfl
@[simp] theorem State.onHost_part (s : State) (g : HostSt → HostSt) : (s.onHost g).part = s.part := rfl
@[simp] theorem State.onHost_tag (s : State) (g : HostSt → HostSt) : (s.onHost g).tag = s.tag := rfl
@[simp] theorem State.onHost_pathVal (s : State) (g : HostSt → HostSt) : (s.onHost g).pathVal = s.pathVal := rfl
@[simp] theorem State.onHost_island (s : State) (g : HostSt → HostSt) : (s.onHost g).island = s.island := rfl
@[simp] theorem State.onHost_msix (s : State) (g : HostSt → HostSt) : (s.onHost g).msix = s.msix := rfl
@[simp] theorem State.onHost_power (s : State) (g : HostSt → HostSt) : (s.onHost g).power = s.power := rfl
@[simp] theorem State.onHost_fuses (s : State) (g : HostSt → HostSt) : (s.onHost g).fuses = s.fuses := rfl
@[simp] theorem State.onHost_boot (s : State) (g : HostSt → HostSt) : (s.onHost g).boot = s.boot := rfl
@[simp] theorem State.onHost_mgmt (s : State) (g : HostSt → HostSt) : (s.onHost g).mgmt = s.mgmt := rfl
@[simp] theorem State.onHost_life (s : State) (g : HostSt → HostSt) : (s.onHost g).life = s.life := rfl
@[simp] theorem State.onHost_out (s : State) (g : HostSt → HostSt) : (s.onHost g).out = s.out := rfl
@[simp] theorem State.onHost_host (s : State) (g : HostSt → HostSt) : (s.onHost g).host = g s.host := rfl
@[simp] theorem State.rd_onHost (s : State) (g : HostSt → HostSt) (x : Fld) : (s.onHost g).rd x = s.rd x := rfl
@[simp] theorem State.on_onHost (s : State) (g : HostSt → HostSt) (x : Fld) : (s.onHost g).on x = s.on x := rfl
@[simp] theorem State.time_onHost (s : State) (g : HostSt → HostSt) : (s.onHost g).time = s.time := rfl
@[simp] theorem State.act_onHost (s : State) (g : HostSt → HostSt) (x : Fld) : (s.onHost g).act x = s.act x := rfl

/-! ### `State.setQ` -/

@[simp] theorem State.setQ_pending (s : State) (q : Nat) (v : QState) : (s.setQ q v).pending = s.pending := rfl
@[simp] theorem State.setQ_free (s : State) (q : Nat) (v : QState) : (s.setQ q v).free = s.free := rfl
@[simp] theorem State.setQ_regs (s : State) (q : Nat) (v : QState) : (s.setQ q v).regs = s.regs := rfl
@[simp] theorem State.setQ_commit (s : State) (q : Nat) (v : QState) : (s.setQ q v).commit = s.commit := rfl
@[simp] theorem State.setQ_clk (s : State) (q : Nat) (v : QState) : (s.setQ q v).clk = s.clk := rfl
@[simp] theorem State.setQ_ptp (s : State) (q : Nat) (v : QState) : (s.setQ q v).ptp = s.ptp := rfl
@[simp] theorem State.setQ_snap (s : State) (q : Nat) (v : QState) : (s.setQ q v).snap = s.snap := rfl
@[simp] theorem State.setQ_tile (s : State) (q : Nat) (v : QState) : (s.setQ q v).tile = s.tile := rfl
@[simp] theorem State.setQ_mem (s : State) (q : Nat) (v : QState) : (s.setQ q v).mem = s.mem := rfl
@[simp] theorem State.setQ_stream (s : State) (q : Nat) (v : QState) : (s.setQ q v).stream = s.stream := rfl
@[simp] theorem State.setQ_sig (s : State) (q : Nat) (v : QState) : (s.setQ q v).sig = s.sig := rfl
@[simp] theorem State.setQ_nose (s : State) (q : Nat) (v : QState) : (s.setQ q v).nose = s.nose := rfl
@[simp] theorem State.setQ_coll (s : State) (q : Nat) (v : QState) : (s.setQ q v).coll = s.coll := rfl
@[simp] theorem State.setQ_fab (s : State) (q : Nat) (v : QState) : (s.setQ q v).fab = s.fab := rfl
@[simp] theorem State.setQ_part (s : State) (q : Nat) (v : QState) : (s.setQ q v).part = s.part := rfl
@[simp] theorem State.setQ_tag (s : State) (q : Nat) (v : QState) : (s.setQ q v).tag = s.tag := rfl
@[simp] theorem State.setQ_pathVal (s : State) (q : Nat) (v : QState) : (s.setQ q v).pathVal = s.pathVal := rfl
@[simp] theorem State.setQ_island (s : State) (q : Nat) (v : QState) : (s.setQ q v).island = s.island := rfl
@[simp] theorem State.setQ_msix (s : State) (q : Nat) (v : QState) : (s.setQ q v).msix = s.msix := rfl
@[simp] theorem State.setQ_power (s : State) (q : Nat) (v : QState) : (s.setQ q v).power = s.power := rfl
@[simp] theorem State.setQ_fuses (s : State) (q : Nat) (v : QState) : (s.setQ q v).fuses = s.fuses := rfl
@[simp] theorem State.setQ_boot (s : State) (q : Nat) (v : QState) : (s.setQ q v).boot = s.boot := rfl
@[simp] theorem State.setQ_mgmt (s : State) (q : Nat) (v : QState) : (s.setQ q v).mgmt = s.mgmt := rfl
@[simp] theorem State.setQ_life (s : State) (q : Nat) (v : QState) : (s.setQ q v).life = s.life := rfl
@[simp] theorem State.setQ_host (s : State) (q : Nat) (v : QState) : (s.setQ q v).host = s.host := rfl
@[simp] theorem State.setQ_out (s : State) (q : Nat) (v : QState) : (s.setQ q v).out = s.out := rfl
@[simp] theorem State.rd_setQ (s : State) (q : Nat) (v : QState) (x : Fld) : (s.setQ q v).rd x = s.rd x := rfl
@[simp] theorem State.on_setQ (s : State) (q : Nat) (v : QState) (x : Fld) : (s.setQ q v).on x = s.on x := rfl
@[simp] theorem State.time_setQ (s : State) (q : Nat) (v : QState) : (s.setQ q v).time = s.time := rfl
@[simp] theorem State.act_setQ (s : State) (q : Nat) (v : QState) (x : Fld) : (s.setQ q v).act x = s.act x := rfl

/-! ### `State.pathWr` -/

@[simp] theorem State.pathWr_pending (s : State) (p : Path) (f : Fld) (v : Nat) : (s.pathWr p f v).pending = s.pending := rfl
@[simp] theorem State.pathWr_free (s : State) (p : Path) (f : Fld) (v : Nat) : (s.pathWr p f v).free = s.free := rfl
@[simp] theorem State.pathWr_regs (s : State) (p : Path) (f : Fld) (v : Nat) : (s.pathWr p f v).regs = s.regs := rfl
@[simp] theorem State.pathWr_commit (s : State) (p : Path) (f : Fld) (v : Nat) : (s.pathWr p f v).commit = s.commit := rfl
@[simp] theorem State.pathWr_clk (s : State) (p : Path) (f : Fld) (v : Nat) : (s.pathWr p f v).clk = s.clk := rfl
@[simp] theorem State.pathWr_ptp (s : State) (p : Path) (f : Fld) (v : Nat) : (s.pathWr p f v).ptp = s.ptp := rfl
@[simp] theorem State.pathWr_snap (s : State) (p : Path) (f : Fld) (v : Nat) : (s.pathWr p f v).snap = s.snap := rfl
@[simp] theorem State.pathWr_tile (s : State) (p : Path) (f : Fld) (v : Nat) : (s.pathWr p f v).tile = s.tile := rfl
@[simp] theorem State.pathWr_mem (s : State) (p : Path) (f : Fld) (v : Nat) : (s.pathWr p f v).mem = s.mem := rfl
@[simp] theorem State.pathWr_stream (s : State) (p : Path) (f : Fld) (v : Nat) : (s.pathWr p f v).stream = s.stream := rfl
@[simp] theorem State.pathWr_queue (s : State) (p : Path) (f : Fld) (v : Nat) : (s.pathWr p f v).queue = s.queue := rfl
@[simp] theorem State.pathWr_sig (s : State) (p : Path) (f : Fld) (v : Nat) : (s.pathWr p f v).sig = s.sig := rfl
@[simp] theorem State.pathWr_nose (s : State) (p : Path) (f : Fld) (v : Nat) : (s.pathWr p f v).nose = s.nose := rfl
@[simp] theorem State.pathWr_coll (s : State) (p : Path) (f : Fld) (v : Nat) : (s.pathWr p f v).coll = s.coll := rfl
@[simp] theorem State.pathWr_fab (s : State) (p : Path) (f : Fld) (v : Nat) : (s.pathWr p f v).fab = s.fab := rfl
@[simp] theorem State.pathWr_part (s : State) (p : Path) (f : Fld) (v : Nat) : (s.pathWr p f v).part = s.part := rfl
@[simp] theorem State.pathWr_tag (s : State) (p : Path) (f : Fld) (v : Nat) : (s.pathWr p f v).tag = s.tag := rfl
@[simp] theorem State.pathWr_island (s : State) (p : Path) (f : Fld) (v : Nat) : (s.pathWr p f v).island = s.island := rfl
@[simp] theorem State.pathWr_msix (s : State) (p : Path) (f : Fld) (v : Nat) : (s.pathWr p f v).msix = s.msix := rfl
@[simp] theorem State.pathWr_power (s : State) (p : Path) (f : Fld) (v : Nat) : (s.pathWr p f v).power = s.power := rfl
@[simp] theorem State.pathWr_fuses (s : State) (p : Path) (f : Fld) (v : Nat) : (s.pathWr p f v).fuses = s.fuses := rfl
@[simp] theorem State.pathWr_boot (s : State) (p : Path) (f : Fld) (v : Nat) : (s.pathWr p f v).boot = s.boot := rfl
@[simp] theorem State.pathWr_mgmt (s : State) (p : Path) (f : Fld) (v : Nat) : (s.pathWr p f v).mgmt = s.mgmt := rfl
@[simp] theorem State.pathWr_life (s : State) (p : Path) (f : Fld) (v : Nat) : (s.pathWr p f v).life = s.life := rfl
@[simp] theorem State.pathWr_host (s : State) (p : Path) (f : Fld) (v : Nat) : (s.pathWr p f v).host = s.host := rfl
@[simp] theorem State.pathWr_out (s : State) (p : Path) (f : Fld) (v : Nat) : (s.pathWr p f v).out = s.out := rfl
@[simp] theorem State.rd_pathWr (s : State) (p : Path) (f : Fld) (v : Nat) (x : Fld) : (s.pathWr p f v).rd x = s.rd x := rfl
@[simp] theorem State.on_pathWr (s : State) (p : Path) (f : Fld) (v : Nat) (x : Fld) : (s.pathWr p f v).on x = s.on x := rfl
@[simp] theorem State.time_pathWr (s : State) (p : Path) (f : Fld) (v : Nat) : (s.pathWr p f v).time = s.time := rfl
@[simp] theorem State.act_pathWr (s : State) (p : Path) (f : Fld) (v : Nat) (x : Fld) : (s.pathWr p f v).act x = s.act x := rfl

end Sys2Proof.Machine
end

