-- ==== Sys2Proof/Laws/Registers.lean ====
section
/-! SUPPORT. What each operation over registers does: writing, counting, and the frame of the fields it does not name. -/

namespace Sys2Proof.Machine

/-- A field read after a write: the value held to the width, at the same key. -/
theorem State.rd_wr (s : State) (f g : Fld) (v : Nat) :
    (s.wr f v).rd g = if g.key = f.key then Cells.get g.rst (Cells.put f.rst s.regs.cells f.key (v % 2 ^ f.w)) f.key else s.rd g := by
  unfold State.rd State.wr
  dsimp only
  split
  · rename_i h; rw [h]
  · rename_i h
    simp only [Cells.get, Cells.put]
    split
    · rw [Cells.find_drop, if_neg h]
    · rw [Cells.find_insert, if_neg h, Cells.find_drop, if_neg h]; rw [Cells.find_drop]; simp

@[simp] theorem State.rd_wr_self (s : State) (f : Fld) (v : Nat) : (s.wr f v).rd f = v % 2 ^ f.w := by
  rw [State.rd_wr, if_pos rfl, Cells.get_put_self]

theorem State.rd_wr_ne (s : State) {f g : Fld} (v : Nat) (h : g.key ≠ f.key) : (s.wr f v).rd g = s.rd g := by
  rw [State.rd_wr, if_neg h]

@[simp] theorem State.rd_flag_self (s : State) (f : Fld) (b : Bool) (h : f.w ≠ 0) : (s.flag f b).rd f = if b then 1 else 0 := by
  unfold State.flag
  rw [State.rd_wr_self]
  have : 1 < 2 ^ f.w := Nat.one_lt_two_pow h
  cases b
  · simp
  · simpa using Nat.mod_eq_of_lt this

theorem State.rd_flag_ne (s : State) {f g : Fld} (b : Bool) (h : g.key ≠ f.key) : (s.flag f b).rd g = s.rd g :=
  State.rd_wr_ne s _ h

/-- A counter read after it counted (R44). -/
theorem State.rd_bump_self (s : State) (f : Fld) (n : Nat) (hw : f.w = 63) (hl : f.lo = 0) :
    (s.bump f n).rd f = min ctMax (s.rd f + n) := by
  have hk : f.key ≠ f.ovf.key := by simp only [Fld.key, Fld.ovf, hl]; omega
  unfold State.bump
  split
  · rw [State.rd_wr_ne _ _ hk, State.rd_wr_self, hw]
    rename_i h
    rw [Nat.min_eq_left (Nat.le_of_lt h)]; rfl
  · rw [State.rd_wr_self, hw]
    rename_i h
    rw [Nat.min_eq_right (Nat.le_of_not_lt h), Nat.mod_eq_of_lt]
    exact Nat.lt_of_le_of_lt (Nat.le_of_not_lt h) (by decide)

theorem State.rd_bump_ne (s : State) {f g : Fld} (n : Nat) (h : g.key ≠ f.key) (k : g.key ≠ f.ovf.key) :
    (s.bump f n).rd g = s.rd g := by
  unfold State.bump
  split
  · rw [State.rd_wr_ne _ _ k, State.rd_wr_ne _ _ h]
  · rw [State.rd_wr_ne _ _ h]

@[simp] theorem State.act_bump (s : State) (f : Fld) (n : Nat) (x : Fld) : (s.bump f n).act x = s.act x := by
  unfold State.bump; split <;> rfl

theorem State.when_true (s : State) (g : State → State) : s.when true g = g s := rfl
theorem State.when_false (s : State) (g : State → State) : s.when false g = s := rfl

/-! ### Confined changes -/

theorem Fld.ovf_mem {f : Fld} : f.ovf.key = f.addr * 64 + 63 := rfl

end Sys2Proof.Machine
end

