-- ==== Sys2Proof/Laws/Access.lean ====
section
/-! SUPPORT. Writes that reach their page, and frames of register fields. -/

namespace Sys2Proof.Machine

/-! ### Fields a write of another field leaves alone -/

theorem State.on_wr_ne (s : State) {f g : Fld} (v : Nat) (h : g.key ≠ f.key) : (s.wr f v).on g = s.on g := by
  unfold State.on; rw [State.rd_wr_ne s v h]

theorem State.on_bump_ne (s : State) {f g : Fld} (n : Nat) (h : g.key ≠ f.key) (k : g.key ≠ f.ovf.key) :
    (s.bump f n).on g = s.on g := by
  unfold State.on; rw [State.rd_bump_ne s n h k]

/-- A write that reaches its page is taken there by what the command does. -/
theorem State.onWrite_reaches {s : State} {p : Path} {a n : Nat} {own : Option Nat} {g : State → State}
    (h : s.reaches p a own) : s.onWrite p a n own g = g (s.taken p a n) := by
  obtain ⟨h1, h2, hf, h3⟩ := h
  unfold State.onWrite State.onPage State.taken
  simp only [h1, h2, hf, Bool.not_true, Bool.false_eq_true, or_self, ite_false]
  cases e : pathVf p with
  | none => simp
  | some v => rw [e] at h3; simp only [Option.all_some] at h3; simp [h3]

/-! ### Confined changes -/

theorem Alters.mono {c ch : List Part} {s t : State} (h : Alters c s t) (hc : Part.le c ch = true) : Alters ch s t :=
  (Alters.refl ch s).then h (Part.le_mem hc)

theorem Alters.rd {ch : List Part} {s t : State} (h : Alters ch s t) (hc : Part.cells ∉ ch) (f : Fld) : t.rd f = s.rd f := by
  have : t.regs.cells = s.regs.cells := h.same .cells hc
  unfold State.rd; rw [this]

theorem Confined.refl (ch : List Part) (fs : List Fld) (s : State) : Confined ch fs s s := ⟨.refl _ _, fun _ _ => rfl⟩

theorem Confined.trans {ch : List Part} {fs : List Fld} {s t u : State} (h : Confined ch fs s t) (k : Confined ch fs t u) :
    Confined ch fs s u := ⟨h.1.trans k.1, fun g hg => (k.2 g hg).trans (h.2 g hg)⟩

theorem Confined.mono {c ch : List Part} {fs gs : List Fld} {s t : State} (h : Confined c fs s t)
    (hc : Part.le (.cells :: c) (.cells :: ch) = true) (hf : ∀ f ∈ fs, f.key ∈ gs.map Fld.key) : Confined ch gs s t :=
  ⟨h.1.mono hc, fun g hg => h.2 g fun m => by
    obtain ⟨f, hm, e⟩ := List.mem_map.1 m
    exact hg (e ▸ hf f hm)⟩

/-- An operation that alters no field that is not staged. -/
theorem Confined.alters {c ch : List Part} {fs : List Fld} {s t u : State} (h : Confined ch fs s t) (k : Alters c t u)
    (hn : c.contains .cells = false) (hc : Part.le c (.cells :: ch) = true) : Confined ch fs s u :=
  ⟨h.1.then k (Part.le_mem hc), fun g hg => (k.rd (fun m => by simp_all) g).trans (h.2 g hg)⟩

theorem Confined.wr {ch : List Part} {fs : List Fld} {s t : State} (f : Fld) (v : Nat) (h : Confined ch fs s t)
    (m : f.key ∈ fs.map Fld.key) : Confined ch fs s (t.wr f v) :=
  ⟨State.wr_alters h.1 (by simp [Part.le]), fun g hg => (State.rd_wr_ne (f := f) (g := g) t v fun e : g.key = f.key => hg (by rw [e]; exact m)).trans (h.2 g hg)⟩

theorem Confined.flag {ch : List Part} {fs : List Fld} {s t : State} (f : Fld) (b : Bool) (h : Confined ch fs s t)
    (m : f.key ∈ fs.map Fld.key) : Confined ch fs s (t.flag f b) := h.wr f _ m

theorem Confined.bump {ch : List Part} {fs : List Fld} {s t : State} (f : Fld) (n : Nat) (h : Confined ch fs s t)
    (m : f.key ∈ fs.map Fld.key) (o : f.ovf.key ∈ fs.map Fld.key) : Confined ch fs s (t.bump f n) := by
  unfold State.bump
  split
  · exact (h.wr f _ m).wr f.ovf _ o
  · exact h.wr f _ m

theorem Confined.ite {ch : List Part} {fs : List Fld} {c : Prop} [Decidable c] {s t u : State} (h : Confined ch fs s t)
    (k : Confined ch fs s u) : Confined ch fs s (if c then t else u) := by split <;> assumption

/-- A page's interrupt bit sets (R52), which can signal its vector. -/
theorem Confined.irq {ch : List Part} {fs : List Fld} {s t : State} (pg b : Nat) (h : Confined ch fs s t)
    (m : (R.PG.IRQ_RAW.BLOCK pg).key ∈ fs.map Fld.key) (hc : Part.le [.msix, .out] (.cells :: ch) = true) :
    Confined ch fs s (t.irq pg b) := by
  unfold State.irq
  exact (h.wr _ _ m).alters (c := [.msix, .out]) (State.edge_alters (.refl _ _) (by decide)) rfl hc

/-- Raising an error changes the fields of `errFields` and the parts of `Part.err` alone. -/
theorem Confined.raiseCls {ch : List Part} {fs : List Fld} {s t : State} (pg : Nat) (e : Err) (c src step att : Nat)
    (h : Confined ch fs s t) (m : ∀ f ∈ errFields pg e c, f.key ∈ fs.map Fld.key)
    (hc : Part.le Part.err (.cells :: ch) = true) : Confined ch fs s (t.raiseCls pg e c src step att) := by
  have mem : ∀ f : Fld, f ∈ errFields pg e c → f.key ∈ fs.map Fld.key := m
  refine ⟨State.raiseCls_alters h.1 hc, fun g hg => ?_⟩
  have ne : ∀ f : Fld, f ∈ errFields pg e c → g.key ≠ f.key := fun f hf k => hg (k ▸ mem f hf)
  have w : ∀ (u : State) (f : Fld) (v : Nat), f ∈ errFields pg e c → (u.wr f v).rd g = u.rd g :=
    fun u f v hf => State.rd_wr_ne u v (ne f hf)
  have b : ∀ (u : State) (f : Fld) (n : Nat), f ∈ errFields pg e c → f.ovf ∈ errFields pg e c → (u.bump f n).rd g = u.rd g :=
    fun u f n hf ho => State.rd_bump_ne u n (ne f hf) (ne _ ho)
  rw [← h.2 g hg]
  have cap : ∀ u : State, (u.capture pg 1 e.code src).rd g = u.rd g := by
    intro u
    have z : ∀ (a x : State) (q : Nat), (a.edge x q).rd g = a.rd g := fun a x q =>
      (State.edge_alters (s0 := a) (ch := [.msix, .out]) (.refl _ _) (by decide)).rd (by decide) g
    unfold State.capture
    dsimp only
    split
    · rw [w _ _ _ (by simp [errFields]), w _ _ _ (by simp [errFields])]
    · refine Eq.trans (z _ _ _) ?_
      rw [w _ _ _ (by simp [errFields]), w _ _ _ (by simp [errFields]), w _ _ _ (by simp [errFields]),
        w _ _ _ (by simp [errFields]), w _ _ _ (by simp [errFields]), w _ _ _ (by simp [errFields])]
  have cnt : ∀ u : State, (u.countErr e c).rd g = u.rd g := by
    intro u; unfold State.countErr
    rw [b _ _ _ (by simp [errFields]) (by simp [errFields]), b _ _ _ (by simp [errFields]) (by simp [errFields])]
  have enq : ∀ (u : State) (r : ErrRec), (u.enqueue r).rd g = u.rd g := by
    intro u r
    unfold State.enqueue
    dsimp only
    split
    · split
      · rw [b _ _ _ (by simp [errFields]) (by simp [errFields])]; rfl
      · split <;> rfl
    · split
      · rw [b _ _ _ (by simp [errFields]) (by simp [errFields])]
      · rfl
  have st : ∀ u : State, (u.recStat).rd g = u.rd g := by
    intro u; unfold State.recStat State.flag
    rw [w _ _ _ (by simp [errFields]), w _ _ _ (by simp [errFields])]
  have qt : ∀ (u : State) (a k : Nat) (l : List Byte), (u.queueTag a k l).rd g = u.rd g := by
    intro u a k l
    unfold State.queueTag
    split
    · rfl
    · dsimp only
      unfold State.showTag
      split
      · rw [b _ _ _ (by simp [errFields]) (by simp [errFields]), w _ _ _ (by simp [errFields])]; rfl
      · rw [w _ _ _ (by simp [errFields])]; rfl
  have jr : ∀ (u : State) (k : Nat), (u.journal k).rd g = u.rd g := by
    intro u k
    unfold State.journal
    split
    · exact qt _ _ _ _
    · rfl
  have lg : ∀ (u : State) (i : IslandSt), State.rd { u with island := i } g = u.rd g := fun _ _ => rfl
  have rp : ∀ u : State, (u.report pg e c src step att).rd g = u.rd g := by
    intro u
    have base : ∀ r (z : IslandSt), (if c = 0 then { u with island := z } else (u.enqueue r).recStat).rd g = u.rd g := by
      intro r z; split
      · rfl
      · rw [st, enq]
    have k : ∀ v : State, v.rd g = u.rd g → (if 3 ≤ c then v.journal jError else v).rd g = u.rd g := by
      intro v hv; split
      · rw [jr, hv]
      · exact hv
    refine k _ ?_
    split
    · exact (lg _ _).trans (base _ _)
    · exact base _ _
  unfold State.raiseCls
  rw [rp, cnt, cap]

theorem Confined.raise {ch : List Part} {fs : List Fld} {s t : State} (pg : Nat) (e : Err) (src : Nat)
    (h : Confined ch fs s t) (m : ∀ f ∈ errFields pg e e.cls, f.key ∈ fs.map Fld.key)
    (hc : Part.le Part.err (.cells :: ch) = true) : Confined ch fs s (t.raise pg e src) :=
  h.raiseCls pg e e.cls src 0 0 m hc

end Sys2Proof.Machine
end

