-- ==== Sys2Proof/Laws/AltersMarks.lean ====
section
/-! SUPPORT. What each operation of Machine/Marks.lean alters. -/

-- One closing tactic serves every lemma here; where a goal needs few of its steps the linters name the rest.
set_option linter.all false
set_option Elab.async false

namespace Sys2Proof.Machine

theorem State.mapRuns_alters {s : State} {c : Run → Bool} {g : Run → Run} {ch : List Part} {s0 : State} (h0 : Alters
    ch s0 s) (hc : Part.le [.nose] ch = true) : Alters ch s0 (State.mapRuns s c g) := by
  unfold State.mapRuns
  try dsimp only
  repeat' (
    first
    | with_reducible (first | exact Alters.refl _ _ | apply Alters.ite | assumption)
    | exact Part.le_trans (by decide) hc
    | (refine (?_ : Part.le _ _ = true); decide)
    | intro _
    | with_reducible (first | rfl)
    | split
    | dsimp only
    | simp only [id_eq]
    | with_reducible (first | apply Alters.upd_nose)
  )

theorem State.captureMark_alters {s : State} {p step att code : Nat} {ch : List Part} {s0 : State} (h0 : Alters ch s0
    s) (hc : Part.le [.cells] ch = true) : Alters ch s0 (State.captureMark s p step att code) := by
  unfold State.captureMark
  try dsimp only
  repeat' (
    first
    | with_reducible (first | exact Alters.refl _ _ | apply Alters.ite | assumption | apply State.wr_alters)
    | exact Part.le_trans (by decide) hc
    | (refine (?_ : Part.le _ _ = true); decide)
    | intro _
    | with_reducible (first | rfl)
    | split
    | dsimp only
    | simp only [id_eq]
  )

theorem State.mark_alters {s : State} {p step att code : Nat} {ch : List Part} {s0 : State} (h0 : Alters ch s0 s) (hc
    : Part.le [.cells, .nose] ch = true) : Alters ch s0 (State.mark s p step att code) := by
  unfold State.mark
  try dsimp only
  repeat' (
    first
    | with_reducible (first | exact Alters.refl _ _ | apply Alters.ite | assumption | apply State.bump_alters |
                            apply State.captureMark_alters | apply State.mapRuns_alters)
    | exact Part.le_trans (by decide) hc
    | (refine (?_ : Part.le _ _ = true); decide)
    | intro _
    | with_reducible (first | rfl)
    | split
    | dsimp only
    | simp only [id_eq]
  )

theorem State.raiseFor_alters {s : State} {o : Option Owner} {pg : Nat} {e : Err} {src : Nat} {ch : List Part} {s0 :
    State} (h0 : Alters ch s0 s) (hc : Part.le (Part.err ++ [Part.nose]) ch = true) : Alters ch s0 (State.raiseFor s o pg
    e src) := by
  unfold State.raiseFor
  try dsimp only
  repeat' (
    first
    | with_reducible (first | exact Alters.refl _ _ | apply Alters.ite | assumption | apply State.mark_alters |
                            apply State.raise_alters | apply State.raiseTag_alters)
    | exact Part.le_trans (by decide) hc
    | (refine (?_ : Part.le _ _ = true); decide)
    | intro _
    | with_reducible (first | rfl)
    | split
    | dsimp only
    | simp only [id_eq]
  )

end Sys2Proof.Machine
end

