-- ==== Sys2Proof/Laws/AltersMemory.lean ====
section
/-! SUPPORT. What each operation of Machine/Memory.lean alters. -/

-- One closing tactic serves every lemma here; where a goal needs few of its steps the linters name the rest.
set_option linter.all false
set_option Elab.async false

namespace Sys2Proof.Machine

theorem State.setGran_alters {s : State} {g : Nat} {v : Gran} {ch : List Part} {s0 : State} (h0 : Alters ch s0 s) (hc
    : Part.le [.mem] ch = true) : Alters ch s0 (State.setGran s g v) := by
  unfold State.setGran
  try dsimp only
  repeat' (
    first
    | with_reducible (first | exact Alters.refl _ _ | apply Alters.ite | assumption)
    | exact Part.le_trans (by decide) hc
    | (refine (?_ : Part.le _ _ = true); decide)
    | intro _
    | with_reducible (first | rfl)
    | split
    | dsimp only
    | simp only [id_eq]
    | with_reducible (first | apply Alters.updR_mem)
  )

theorem State.tally_alters {s : State} {f : Fld} {d : Int} {ch : List Part} {s0 : State} (h0 : Alters ch s0 s) (hc :
    Part.le [.cells] ch = true) : Alters ch s0 (State.tally s f d) := by
  unfold State.tally
  try dsimp only
  repeat' (
    first
    | with_reducible (first | exact Alters.refl _ _ | apply Alters.ite | assumption | apply State.wr_alters)
    | exact Part.le_trans (by decide) hc
    | (refine (?_ : Part.le _ _ = true); decide)
    | intro _
    | with_reducible (first | rfl)
    | split
    | dsimp only
    | simp only [id_eq]
  )

theorem State.moveGran_alters {s : State} {g : Nat} {v : Gran} {ch : List Part} {s0 : State} (h0 : Alters ch s0 s) (hc
    : Part.le [.cells, .mem] ch = true) : Alters ch s0 (State.moveGran s g v) := by
  unfold State.moveGran
  try dsimp only
  repeat' (
    first
    | with_reducible (first | exact Alters.refl _ _ | apply Alters.ite | assumption | apply State.setGran_alters |
                            apply State.tally_alters)
    | exact Part.le_trans (by decide) hc
    | (refine (?_ : Part.le _ _ = true); decide)
    | intro _
    | with_reducible (first | rfl)
    | split
    | dsimp only
    | simp only [id_eq]
  )

theorem State.wakeRegion_alters {s : State} {t : Nat} {ch : List Part} {s0 : State} (h0 : Alters ch s0 s) (hc :
    Part.le [.cells, .power] ch = true) : Alters ch s0 (State.wakeRegion s t) := by
  unfold State.wakeRegion
  try dsimp only
  repeat' (
    first
    | with_reducible (first | exact Alters.refl _ _ | apply Alters.ite | assumption | apply State.bump_alters)
    | exact Part.le_trans (by decide) hc
    | (refine (?_ : Part.le _ _ = true); decide)
    | intro _
    | with_reducible (first | rfl)
    | split
    | dsimp only
    | simp only [id_eq]
    | with_reducible (first | apply Alters.upd_power)
  )

theorem State.reach_alters {s : State} {p : Place} {ch : List Part} {s0 : State} (h0 : Alters ch s0 s) (hc : Part.le
    [.cells, .power] ch = true) : Alters ch s0 (State.reach s p) := by
  unfold State.reach
  try dsimp only
  repeat' (
    first
    | with_reducible (first | exact Alters.refl _ _ | apply Alters.ite | assumption |
                          apply State.wakeRegion_alters)
    | exact Part.le_trans (by decide) hc
    | (refine (?_ : Part.le _ _ = true); decide)
    | intro _
    | with_reducible (first | rfl)
    | split
    | dsimp only
    | simp only [id_eq]
  )

theorem State.countBytes_alters {s : State} {p : Place} {write : Bool} {n : Nat} {ch : List Part} {s0 : State} (h0 :
    Alters ch s0 s) (hc : Part.le [.cells, .power] ch = true) : Alters ch s0 (State.countBytes s p write n) := by
  unfold State.countBytes
  try dsimp only
  repeat' (
    first
    | with_reducible (first | exact Alters.refl _ _ | apply Alters.ite | assumption | apply State.bump_alters |
                            apply State.wakeRegion_alters)
    | exact Part.le_trans (by decide) hc
    | (refine (?_ : Part.le _ _ = true); decide)
    | intro _
    | with_reducible (first | rfl)
    | split
    | dsimp only
    | simp only [id_eq]
  )

theorem State.onMem_alters {s : State} {g : MemSt → MemSt} {ch : List Part} {s0 : State} (h0 : Alters ch s0 s) (hc :
    Part.le [.mem, .memBytes] ch = true) : Alters ch s0 (State.onMem s g) :=
  Alters.upd_mem h0 hc
theorem State.onMem_altersR {s : State} {g : MemSt → MemSt} {ch : List Part} {s0 : State} (h0 : Alters ch s0 s) (e : ∀
    x, (g x).bytes = x.bytes) (hc : Part.le [.mem] ch = true) : Alters ch s0 (State.onMem s g) :=
  Alters.updR_mem h0 (e _) hc

theorem State.noteUpset_alters {s : State} {p : Place} {ue : Bool} {ch : List Part} {s0 : State} (h0 : Alters ch s0 s)
    (hc : Part.le [.mem] ch = true) : Alters ch s0 (State.noteUpset s p ue) := by
  unfold State.noteUpset
  try dsimp only
  repeat' (
    first
    | with_reducible (first | exact Alters.refl _ _ | apply Alters.ite | assumption |
                          apply State.onMem_altersR)
    | exact Part.le_trans (by decide) hc
    | (refine (?_ : Part.le _ _ = true); decide)
    | intro _
    | with_reducible (first | rfl)
    | split
    | dsimp only
    | simp only [id_eq]
  )

theorem State.corrected_alters {s : State} {p : Place} {ch : List Part} {s0 : State} (h0 : Alters ch s0 s) (hc :
    Part.le [.cells, .mem] ch = true) : Alters ch s0 (State.corrected s p) := by
  unfold State.corrected
  try dsimp only
  repeat' (
    first
    | with_reducible (first | exact Alters.refl _ _ | apply Alters.ite | assumption |
                          apply State.bump_alters | apply State.noteUpset_alters)
    | exact Part.le_trans (by decide) hc
    | (refine (?_ : Part.le _ _ = true); decide)
    | intro _
    | with_reducible (first | rfl)
    | split
    | dsimp only
    | simp only [id_eq]
  )

theorem State.uncorrected_alters {s : State} {p : Place} {ch : List Part} {s0 : State} (h0 : Alters ch s0 s) (hc :
    Part.le [.cells, .mem] ch = true) : Alters ch s0 (State.uncorrected s p) := by
  unfold State.uncorrected
  try dsimp only
  repeat' (
    first
    | with_reducible (first | exact Alters.refl _ _ | apply Alters.ite | assumption |
                          apply State.bump_alters | apply State.noteUpset_alters | apply State.wr_alters)
    | exact Part.le_trans (by decide) hc
    | (refine (?_ : Part.le _ _ = true); decide)
    | intro _
    | with_reducible (first | rfl)
    | split
    | dsimp only
    | simp only [id_eq]
  )

theorem State.mend_alters {s : State} {p : Place} {ch : List Part} {s0 : State} (h0 : Alters ch s0 s) (hc : Part.le
    [.mem] ch = true) : Alters ch s0 (State.mend s p) := by
  unfold State.mend
  try dsimp only
  repeat' (
    first
    | with_reducible (first | exact Alters.refl _ _ | apply Alters.ite | assumption |
                          apply State.onMem_altersR)
    | exact Part.le_trans (by decide) hc
    | (refine (?_ : Part.le _ _ = true); decide)
    | intro _
    | with_reducible (first | rfl)
    | split
    | dsimp only
    | simp only [id_eq]
  )

theorem State.meetDouble_alters {s : State} {p : Place} {qs : List Place} {ch : List Part} {s0 : State} (h0 : Alters
    ch s0 s) (hc : Part.le [.cells, .mem] ch = true) : Alters ch s0 (State.meetDouble s p qs) := by
  unfold State.meetDouble
  try dsimp only
  repeat' (
    first
    | with_reducible (first | exact Alters.refl _ _ | apply Alters.ite | assumption |
                          apply Alters.foldl | apply State.mend_alters | apply State.onMem_altersR |
                          apply State.uncorrected_alters | apply Alters.foldl1)
    | exact Part.le_trans (by decide) hc
    | (refine (?_ : Part.le _ _ = true); decide)
    | intro _
    | with_reducible (first | rfl)
    | split
    | dsimp only
    | simp only [id_eq]
  )

theorem State.scanLine_alters {s : State} {o : Option Owner} {p : Place} {ch : List Part} {s0 : State} (h0 : Alters ch
    s0 s) (hc : Part.le (Part.err ++ [Part.mem, Part.nose]) ch = true) : Alters ch s0 (State.scanLine s o p).1 := by
  unfold State.scanLine
  try dsimp only
  repeat' (
    first
    | with_reducible (first | exact Alters.refl _ _ | apply Alters.ite | assumption |
                          apply Alters.foldl | apply State.corrected_alters | apply State.meetDouble_alters |
                          apply State.mend_alters | apply State.raiseFor_alters | apply Alters.foldl1)
    | exact Part.le_trans (by decide) hc
    | (refine (?_ : Part.le _ _ = true); decide)
    | intro _
    | with_reducible (first | rfl)
    | split
    | dsimp only
    | simp only [id_eq]
  )
theorem State.scanLine_altersP {s : State} {o : Option Owner} {p : Place} {t0 r0} (e_ : State.scanLine s o p = (t0,
    r0)) {ch : List Part} {s0 : State} (h0 : Alters ch s0 s) (hc : Part.le (Part.err ++ [Part.mem, Part.nose]) ch =
    true) : Alters ch s0 t0 := by
  have h := State.scanLine_alters (s := s) (o := o) (p := p) h0  hc
  rw [e_] at h; exact h

theorem State.scanLines_alters {s : State} {o : Option Owner} {ps : List Place} {ch : List Part} {s0 : State} (h0 :
    Alters ch s0 s) (hc : Part.le (Part.err ++ [Part.mem, Part.nose]) ch = true) : Alters ch s0 (State.scanLines s o ps).1 :=
    by
  induction ps generalizing s o with
  | nil => 
    unfold State.scanLines
    try dsimp only
    repeat' (
    first
    | with_reducible (first | exact Alters.refl _ _ | apply Alters.ite | assumption | apply State.scanLine_alters |
                            apply Alters.of_pair (by assumption))
    | exact Part.le_trans (by decide) hc
    | (refine (?_ : Part.le _ _ = true); decide)
    | intro _
    | with_reducible (first | rfl)
    | split
    | dsimp only
    | simp only [id_eq]
    )
  | cons hd_ tl_ ih_ => 
    unfold State.scanLines
    try dsimp only
    repeat' (
    first
    | with_reducible (first | apply ih_ | exact Alters.refl _ _ | apply Alters.ite | assumption |
                            apply State.scanLine_alters | apply Alters.of_pair (by assumption))
    | exact Part.le_trans (by decide) hc
    | (refine (?_ : Part.le _ _ = true); decide)
    | intro _
    | with_reducible (first | rfl)
    | split
    | dsimp only
    | simp only [id_eq]
    )
theorem State.scanLines_altersP {s : State} {o : Option Owner} {ps : List Place} {t0 r0} (e_ : State.scanLines s o ps
    = (t0, r0)) {ch : List Part} {s0 : State} (h0 : Alters ch s0 s) (hc : Part.le (Part.err ++ [Part.mem, Part.nose]) ch =
    true) : Alters ch s0 t0 := by
  have h := State.scanLines_alters (s := s) (o := o) (ps := ps) h0  hc
  rw [e_] at h; exact h

theorem State.poisonBlock_alters {s : State} {b : Nat} {ch : List Part} {s0 : State} (h0 : Alters ch s0 s) (hc :
    Part.le [.mem] ch = true) : Alters ch s0 (State.poisonBlock s b) := by
  unfold State.poisonBlock
  try dsimp only
  repeat' (
    first
    | with_reducible (first | exact Alters.refl _ _ | apply Alters.ite | assumption |
                          apply State.onMem_altersR)
    | exact Part.le_trans (by decide) hc
    | (refine (?_ : Part.le _ _ = true); decide)
    | intro _
    | with_reducible (first | rfl)
    | split
    | dsimp only
    | simp only [id_eq]
  )

theorem State.sealFail_alters {s : State} {o : Option Owner} {pg : Nat} {e : Err} {ch : List Part} {s0 : State} (h0 :
    Alters ch s0 s) (hc : Part.le (Part.err ++ [Part.nose]) ch = true) : Alters ch s0 (State.sealFail s o pg e) := by
  unfold State.sealFail
  try dsimp only
  repeat' (
    first
    | with_reducible (first | exact Alters.refl _ _ | apply Alters.ite | assumption | apply State.bump_alters |
                            apply State.raiseFor_alters)
    | exact Part.le_trans (by decide) hc
    | (refine (?_ : Part.le _ _ = true); decide)
    | intro _
    | with_reducible (first | rfl)
    | split
    | dsimp only
    | simp only [id_eq]
  )

theorem State.checkData_alters {s : State} {o : Option Owner} {p : Place} {n : Nat} {ch : List Part} {s0 : State} (h0
    : Alters ch s0 s) (hc : Part.le (Part.err ++ [Part.mem, Part.nose]) ch = true) : Alters ch s0 (State.checkData s o p n).1
    := by
  unfold State.checkData
  try dsimp only
  repeat' (
    first
    | with_reducible (first | exact Alters.refl _ _ | apply Alters.ite | assumption | apply State.poisonBlock_alters |
                            apply State.scanLines_alters | apply State.sealFail_alters |
                            apply Alters.of_pair (by assumption))
    | exact Part.le_trans (by decide) hc
    | (refine (?_ : Part.le _ _ = true); decide)
    | intro _
    | with_reducible (first | rfl)
    | split
    | dsimp only
    | simp only [id_eq]
  )
theorem State.checkData_altersP {s : State} {o : Option Owner} {p : Place} {n : Nat} {t0 r0} (e_ : State.checkData s o
    p n = (t0, r0)) {ch : List Part} {s0 : State} (h0 : Alters ch s0 s) (hc : Part.le (Part.err ++ [Part.mem, Part.nose]) ch =
    true) : Alters ch s0 t0 := by
  have h := State.checkData_alters (s := s) (o := o) (p := p) (n := n) h0  hc
  rw [e_] at h; exact h

theorem State.readRuns_alters {s : State} {o : Option Owner} {rs : List (Nat × Nat)} {ch : List Part} {s0 : State} (h0
    : Alters ch s0 s) (hc : Part.le (Part.err ++ [Part.mem, Part.nose, Part.power]) ch = true) : Alters ch s0
    (State.readRuns s o rs).1 := by
  induction rs generalizing s o with
  | nil =>
    unfold State.readRuns
    try dsimp only
    repeat' (
      first
      | with_reducible (first | exact Alters.refl _ _ | apply Alters.ite | assumption |
                            apply State.checkData_alters | apply State.countBytes_alters | apply State.raiseFor_alters |
                            apply State.reach_alters | apply Alters.of_pair (by assumption))
      | exact Part.le_trans (by decide) hc
      | (refine (?_ : Part.le _ _ = true); decide)
      | intro _
      | with_reducible (first | rfl)
      | split
      | dsimp only
      | simp only [id_eq]
    )
  | cons hd_ tl_ ih_ =>
    unfold State.readRuns
    try dsimp only
    repeat' (
      first
      | with_reducible (first | apply ih_ | exact Alters.refl _ _ | apply Alters.ite | assumption |
                            apply State.checkData_alters | apply State.countBytes_alters | apply State.raiseFor_alters |
                            apply State.reach_alters | apply Alters.of_pair (by assumption))
      | exact Part.le_trans (by decide) hc
      | (refine (?_ : Part.le _ _ = true); decide)
      | intro _
      | with_reducible (first | rfl)
      | split
      | dsimp only
      | simp only [id_eq]
    )
theorem State.readRuns_altersP {s : State} {o : Option Owner} {rs : List (Nat × Nat)} {t0 r0} (e_ : State.readRuns s o
    rs = (t0, r0)) {ch : List Part} {s0 : State} (h0 : Alters ch s0 s) (hc : Part.le (Part.err ++ [Part.mem,
    Part.nose, Part.power]) ch = true) : Alters ch s0 t0 := by
  have h := State.readRuns_alters (s := s) (o := o) (rs := rs) h0  hc
  rw [e_] at h; exact h

theorem State.memRead_alters {s : State} {o : Option Owner} {a : Actor} {off n : Nat} {ch : List Part} {s0 : State}
    (h0 : Alters ch s0 s) (hc : Part.le (Part.err ++ [Part.mem, Part.nose, Part.power]) ch = true) : Alters ch s0 (State.memRead s
    o a off n).1 := by
  unfold State.memRead
  try dsimp only
  repeat' (
    first
    | with_reducible (first | exact Alters.refl _ _ | apply Alters.ite | assumption | apply State.raiseFor_alters |
                            apply State.readRuns_alters | apply Alters.of_pair (by assumption))
    | exact Part.le_trans (by decide) hc
    | (refine (?_ : Part.le _ _ = true); decide)
    | intro _
    | with_reducible (first | rfl)
    | split
    | dsimp only
    | simp only [id_eq]
  )
theorem State.memRead_altersP {s : State} {o : Option Owner} {a : Actor} {off n : Nat} {t0 r0} (e_ : State.memRead s o
    a off n = (t0, r0)) {ch : List Part} {s0 : State} (h0 : Alters ch s0 s) (hc : Part.le (Part.err ++ [Part.mem, Part.nose,
    Part.power]) ch = true) : Alters ch s0 t0 := by
  have h := State.memRead_alters (s := s) (o := o) (a := a) (off := off) (n := n) h0  hc
  rw [e_] at h; exact h

theorem State.writeAt_alters {s : State} {p : Place} {bs : List Byte} {ch : List Part} {s0 : State} (h0 : Alters ch s0
    s) (hc : Part.le [.cells, .memBytes, .mem, .power] ch = true) : Alters ch s0 (State.writeAt s p bs) := by
  unfold State.writeAt
  try dsimp only
  repeat' (
    first
    | with_reducible (first | exact Alters.refl _ _ | apply Alters.ite | assumption | apply Alters.foldl |
                            apply State.countBytes_alters | apply Alters.foldl1)
    | exact Part.le_trans (by decide) hc
    | (refine (?_ : Part.le _ _ = true); decide)
    | intro _
    | with_reducible (first | rfl)
    | split
    | dsimp only
    | simp only [id_eq]
    | with_reducible (first | apply Alters.upd_mem)
  )

theorem State.writeRuns_alters {s : State} {o : Option Owner} {rs : List (Nat × Nat)} {bs : List Byte} {ch : List
    Part} {s0 : State} (h0 : Alters ch s0 s) (hc : Part.le (Part.err ++ [Part.memBytes, Part.mem, Part.nose,
    Part.power]) ch = true) : Alters ch s0 (State.writeRuns s o rs bs).1 := by
  induction rs generalizing s o bs with
  | nil =>
    unfold State.writeRuns
    try dsimp only
    repeat' (
      first
      | with_reducible (first | exact Alters.refl _ _ | apply Alters.ite | assumption |
                            apply State.poisonBlock_alters | apply State.raiseFor_alters | apply State.reach_alters |
                            apply State.sealFail_alters | apply State.writeAt_alters)
      | exact Part.le_trans (by decide) hc
      | (refine (?_ : Part.le _ _ = true); decide)
      | intro _
      | with_reducible (first | rfl)
      | split
      | dsimp only
      | simp only [id_eq]
    )
  | cons hd_ tl_ ih_ =>
    unfold State.writeRuns
    try dsimp only
    repeat' (
      first
      | with_reducible (first | apply ih_ | exact Alters.refl _ _ | apply Alters.ite | assumption |
                            apply State.poisonBlock_alters | apply State.raiseFor_alters | apply State.reach_alters |
                            apply State.sealFail_alters | apply State.writeAt_alters)
      | exact Part.le_trans (by decide) hc
      | (refine (?_ : Part.le _ _ = true); decide)
      | intro _
      | with_reducible (first | rfl)
      | split
      | dsimp only
      | simp only [id_eq]
    )
theorem State.writeRuns_altersP {s : State} {o : Option Owner} {rs : List (Nat × Nat)} {bs : List Byte} {t0 r0} (e_ :
    State.writeRuns s o rs bs = (t0, r0)) {ch : List Part} {s0 : State} (h0 : Alters ch s0 s) (hc : Part.le (Part.err
    ++ [Part.memBytes, Part.mem, Part.nose, Part.power]) ch = true) : Alters ch s0 t0 := by
  have h := State.writeRuns_alters (s := s) (o := o) (rs := rs) (bs := bs) h0  hc
  rw [e_] at h; exact h

theorem State.memWrite_alters {s : State} {o : Option Owner} {a : Actor} {off : Nat} {bs : List Byte} {ch : List Part}
    {s0 : State} (h0 : Alters ch s0 s) (hc : Part.le (Part.err ++ [Part.memBytes, Part.mem, Part.nose, Part.power]) ch = true) :
    Alters ch s0 (State.memWrite s o a off bs).1 := by
  unfold State.memWrite
  try dsimp only
  repeat' (
    first
    | with_reducible (first | exact Alters.refl _ _ | apply Alters.ite | assumption | apply State.raiseFor_alters |
                            apply State.writeRuns_alters | apply Alters.of_pair (by assumption))
    | exact Part.le_trans (by decide) hc
    | (refine (?_ : Part.le _ _ = true); decide)
    | intro _
    | with_reducible (first | rfl)
    | split
    | dsimp only
    | simp only [id_eq]
  )
theorem State.memWrite_altersP {s : State} {o : Option Owner} {a : Actor} {off : Nat} {bs : List Byte} {t0 r0} (e_ :
    State.memWrite s o a off bs = (t0, r0)) {ch : List Part} {s0 : State} (h0 : Alters ch s0 s) (hc : Part.le
    (Part.err ++ [Part.memBytes, Part.mem, Part.nose, Part.power]) ch = true) : Alters ch s0 t0 := by
  have h := State.memWrite_alters (s := s) (o := o) (a := a) (off := off) (bs := bs) h0  hc
  rw [e_] at h; exact h

theorem State.fillGran_alters {s : State} {g : Nat} {ch : List Part} {s0 : State} (h0 : Alters ch s0 s) (hc : Part.le
    [.memBytes, .mem] ch = true) : Alters ch s0 (State.fillGran s g) := by
  unfold State.fillGran
  try dsimp only
  repeat' (
    first
    | with_reducible (first | exact Alters.refl _ _ | apply Alters.ite | assumption)
    | exact Part.le_trans (by decide) hc
    | (refine (?_ : Part.le _ _ = true); decide)
    | intro _
    | with_reducible (first | rfl)
    | split
    | dsimp only
    | simp only [id_eq]
    | with_reducible (first | apply Alters.upd_mem)
  )

theorem State.hostWrite_alters {s : State} {a : Nat} {bs : List Byte} {ch : List Part} {s0 : State} (h0 : Alters ch s0
    s) (hc : Part.le [.mem] ch = true) : Alters ch s0 (State.hostWrite s a bs) := by
  induction bs generalizing s a with
  | nil => 
    unfold State.hostWrite
    try dsimp only
    repeat' (
    first
    | with_reducible (first | exact Alters.refl _ _ | apply Alters.ite | assumption)
    | exact Part.le_trans (by decide) hc
    | (refine (?_ : Part.le _ _ = true); decide)
    | intro _
    | with_reducible (first | rfl)
    | split
    | dsimp only
    | simp only [id_eq]
    | with_reducible (first | apply Alters.updR_mem)
    )
  | cons hd_ tl_ ih_ => 
    unfold State.hostWrite
    try dsimp only
    repeat' (
    first
    | with_reducible (first | apply ih_ | exact Alters.refl _ _ | apply Alters.ite | assumption)
    | exact Part.le_trans (by decide) hc
    | (refine (?_ : Part.le _ _ = true); decide)
    | intro _
    | with_reducible (first | rfl)
    | split
    | dsimp only
    | simp only [id_eq]
    | with_reducible (first | apply Alters.updR_mem)
    )

theorem State.hostBytes_alters {s : State} {p n : Nat} {sent : Bool} {ch : List Part} {s0 : State} (h0 : Alters ch s0
    s) (hc : Part.le [.cells] ch = true) : Alters ch s0 (State.hostBytes s p n sent) := by
  unfold State.hostBytes
  try dsimp only
  repeat' (
    first
    | with_reducible (first | exact Alters.refl _ _ | apply Alters.ite | assumption | apply State.bump_alters)
    | exact Part.le_trans (by decide) hc
    | (refine (?_ : Part.le _ _ = true); decide)
    | intro _
    | with_reducible (first | rfl)
    | split
    | dsimp only
    | simp only [id_eq]
  )

theorem State.noteAer_alters {s : State} {port : Port} {e : Nat} {ch : List Part} {s0 : State} (h0 : Alters ch s0 s)
    (hc : Part.le [.host] ch = true) : Alters ch s0 (State.noteAer s port e) := by
  unfold State.noteAer
  try dsimp only
  repeat' (
    first
    | with_reducible (first | exact Alters.refl _ _ | apply Alters.ite | assumption)
    | exact Part.le_trans (by decide) hc
    | (refine (?_ : Part.le _ _ = true); decide)
    | intro _
    | with_reducible (first | rfl)
    | split
    | dsimp only
    | simp only [id_eq]
    | with_reducible (first | apply Alters.upd_host)
  )

theorem State.countCorrected_alters {s : State} {p n : Nat} {ch : List Part} {s0 : State} (h0 : Alters ch s0 s) (hc :
    Part.le [.cells, .host] ch = true) : Alters ch s0 (State.countCorrected s p n) := by
  unfold State.countCorrected
  try dsimp only
  repeat' (
    first
    | with_reducible (first | exact Alters.refl _ _ | apply Alters.ite | assumption |
                          apply State.bump_alters | apply State.noteAer_alters)
    | exact Part.le_trans (by decide) hc
    | (refine (?_ : Part.le _ _ = true); decide)
    | intro _
    | with_reducible (first | rfl)
    | split
    | dsimp only
    | simp only [id_eq]
  )

theorem State.logPoison_alters {s : State} {p : Nat} {h : HostAnswer} {ch : List Part} {s0 : State} (h0 : Alters ch s0
    s) (hc : Part.le [.host] ch = true) : Alters ch s0 (State.logPoison s p h) := by
  unfold State.logPoison
  try dsimp only
  repeat' (
    first
    | with_reducible (first | exact Alters.refl _ _ | apply Alters.ite | assumption |
                          apply State.noteAer_alters)
    | exact Part.le_trans (by decide) hc
    | (refine (?_ : Part.le _ _ = true); decide)
    | intro _
    | with_reducible (first | rfl)
    | split
    | dsimp only
    | simp only [id_eq]
  )

theorem State.hostSeen_alters {s : State} {p a n : Nat} {ch : List Part} {s0 : State} (h0 : Alters ch s0 s) (hc :
    Part.le [.cells, .host, .out] ch = true) : Alters ch s0 (State.hostSeen s p a n) := by
  unfold State.hostSeen
  try dsimp only
  repeat' (
    first
    | with_reducible (first | exact Alters.refl _ _ | apply Alters.ite | assumption |
                          apply Alters.foldl | apply State.countCorrected_alters | apply State.emit_alters |
                          apply State.hostBytes_alters | apply Alters.foldl1)
    | exact Part.le_trans (by decide) hc
    | (refine (?_ : Part.le _ _ = true); decide)
    | intro _
    | with_reducible (first | rfl)
    | split
    | dsimp only
    | simp only [id_eq]
    | with_reducible (first | apply Alters.upd_host)
  )

theorem State.hostFail_alters {s : State} {o : Option Owner} {p a n : Nat} {ch : List Part} {s0 : State} (h0 : Alters
    ch s0 s) (hc : Part.le (Part.err ++ [Part.nose, Part.host]) ch = true) : Alters ch s0 (State.hostFail s o p a n).1
    := by
  unfold State.hostFail
  try dsimp only
  repeat' (
    first
    | with_reducible (first | exact Alters.refl _ _ | apply Alters.ite | assumption |
                          apply Alters.foldl | apply State.bump_alters | apply State.logPoison_alters |
                          apply State.raiseFor_alters | apply Alters.foldl1)
    | exact Part.le_trans (by decide) hc
    | (refine (?_ : Part.le _ _ = true); decide)
    | intro _
    | with_reducible (first | rfl)
    | split
    | dsimp only
    | simp only [id_eq]
  )
theorem State.hostFail_altersP {s : State} {o : Option Owner} {p a n : Nat} {t0 r0} (e_ : State.hostFail s o p a n =
    (t0, r0)) {ch : List Part} {s0 : State} (h0 : Alters ch s0 s) (hc : Part.le (Part.err ++ [Part.nose, Part.host])
    ch = true) : Alters ch s0 t0 := by
  have h := State.hostFail_alters (s := s) (o := o) (p := p) (a := a) (n := n) h0  hc
  rw [e_] at h; exact h

theorem State.hostGet_alters {s : State} {o : Owner} {a n : Nat} {ch : List Part} {s0 : State} (h0 : Alters ch s0 s)
    (hc : Part.le (Part.err ++ [Part.nose, Part.host]) ch = true) : Alters ch s0 (State.hostGet s o a n).1 := by
  unfold State.hostGet
  try dsimp only
  repeat' (
    first
    | with_reducible (first | exact Alters.refl _ _ | apply Alters.ite | assumption |
                          apply State.hostFail_alters | apply State.hostSeen_alters |
                          apply Alters.of_pair (by assumption))
    | exact Part.le_trans (by decide) hc
    | (refine (?_ : Part.le _ _ = true); decide)
    | intro _
    | with_reducible (first | rfl)
    | split
    | dsimp only
    | simp only [id_eq]
  )
theorem State.hostGet_altersP {s : State} {o : Owner} {a n : Nat} {t0 r0} (e_ : State.hostGet s o a n = (t0, r0)) {ch
    : List Part} {s0 : State} (h0 : Alters ch s0 s) (hc : Part.le (Part.err ++ [Part.nose, Part.host]) ch = true) :
    Alters ch s0 t0 := by
  have h := State.hostGet_alters (s := s) (o := o) (a := a) (n := n) h0  hc
  rw [e_] at h; exact h

end Sys2Proof.Machine
end

