-- ==== Sys2Proof/Laws/AltersEntry.lean ====
section
/-! SUPPORT. What each operation of Machine/Entry.lean alters. -/

-- One closing tactic serves every lemma here; where a goal needs few of its steps the linters name the rest.
set_option linter.all false
set_option Elab.async false

namespace Sys2Proof.Machine

theorem State.setQ_alters {s : State} {q : Nat} {v : QState} {ch : List Part} {s0 : State} (h0 : Alters ch s0 s) (hc :
    Part.le [.queue] ch = true) : Alters ch s0 (State.setQ s q v) := by
  unfold State.setQ
  try dsimp only
  repeat' (
    first
    | with_reducible (first | exact Alters.refl _ _ | apply Alters.ite | assumption)
    | exact Part.le_trans (by decide) hc
    | (refine (?_ : Part.le _ _ = true); decide)
    | intro _
    | with_reducible (first | rfl)
    | split
    | dsimp only
    | simp only [id_eq]
    | with_reducible (first | apply Alters.upd_queue)
  )

theorem State.showQueue_alters {s : State} {q : Nat} {ch : List Part} {s0 : State} (h0 : Alters ch s0 s) (hc : Part.le
    [.cells] ch = true) : Alters ch s0 (State.showQueue s q) := by
  unfold State.showQueue
  try dsimp only
  repeat' (
    first
    | with_reducible (first | exact Alters.refl _ _ | apply Alters.ite | assumption | apply State.wr_alters)
    | exact Part.le_trans (by decide) hc
    | (refine (?_ : Part.le _ _ = true); decide)
    | intro _
    | with_reducible (first | rfl)
    | split
    | dsimp only
    | simp only [id_eq]
  )

theorem State.showQueues_alters {s : State} {ch : List Part} {s0 : State} (h0 : Alters ch s0 s) (hc : Part.le [.cells]
    ch = true) : Alters ch s0 (State.showQueues s) := by
  unfold State.showQueues
  try dsimp only
  repeat' (
    first
    | with_reducible (first | exact Alters.refl _ _ | apply Alters.ite | assumption | apply Alters.foldl |
                            apply State.showQueue_alters | apply Alters.foldl1)
    | exact Part.le_trans (by decide) hc
    | (refine (?_ : Part.le _ _ = true); decide)
    | intro _
    | with_reducible (first | rfl)
    | split
    | dsimp only
    | simp only [id_eq]
  )

end Sys2Proof.Machine
end

