-- ==== Sys2Proof/Laws/AltersSignal.lean ====
section
/-! SUPPORT. What each operation of Machine/Signal.lean alters. -/

-- One closing tactic serves every lemma here; where a goal needs few of its steps the linters name the rest.
set_option linter.all false
set_option Elab.async false

namespace Sys2Proof.Machine

theorem State.latchWaiters_alters {s : State} {c : Nat} {ch : List Part} {s0 : State} (h0 : Alters ch s0 s) (hc :
    Part.le [.queue] ch = true) : Alters ch s0 (State.latchWaiters s c) := by
  unfold State.latchWaiters
  try dsimp only
  repeat' (
    first
    | with_reducible (first | exact Alters.refl _ _ | apply Alters.ite | assumption | apply Alters.foldl |
                            apply State.setQ_alters | apply Alters.foldl1)
    | exact Part.le_trans (by decide) hc
    | (refine (?_ : Part.le _ _ = true); decide)
    | intro _
    | with_reducible (first | rfl)
    | split
    | dsimp only
    | simp only [id_eq]
  )

theorem State.putCtr_alters {s : State} {c v : Nat} {ovf : Bool} {ch : List Part} {s0 : State} (h0 : Alters ch s0 s)
    (hc : Part.le [.cells, .queue, .sig] ch = true) : Alters ch s0 (State.putCtr s c v ovf) := by
  unfold State.putCtr
  try dsimp only
  repeat' (
    first
    | with_reducible (first | exact Alters.refl _ _ | apply Alters.ite | assumption | apply State.bump_alters |
                            apply State.latchWaiters_alters)
    | exact Part.le_trans (by decide) hc
    | (refine (?_ : Part.le _ _ = true); decide)
    | intro _
    | with_reducible (first | rfl)
    | split
    | dsimp only
    | simp only [id_eq]
    | with_reducible (first | apply Alters.upd_sig)
  )

theorem State.showRuns_alters {s : State} {p : Nat} {ch : List Part} {s0 : State} (h0 : Alters ch s0 s) (hc : Part.le
    [.cells] ch = true) : Alters ch s0 (State.showRuns s p) := by
  unfold State.showRuns
  try dsimp only
  repeat' (
    first
    | with_reducible (first | exact Alters.refl _ _ | apply Alters.ite | assumption | apply State.flag_alters |
                            apply State.wr_alters)
    | exact Part.le_trans (by decide) hc
    | (refine (?_ : Part.le _ _ = true); decide)
    | intro _
    | with_reducible (first | rfl)
    | split
    | dsimp only
    | simp only [id_eq]
  )

theorem State.closeStep_alters {s : State} {p n : Nat} {ch : List Part} {s0 : State} (h0 : Alters ch s0 s) (hc :
    Part.le [.cells, .nose] ch = true) : Alters ch s0 (State.closeStep s p n) := by
  unfold State.closeStep
  try dsimp only
  repeat' (
    first
    | with_reducible (first | exact Alters.refl _ _ | apply Alters.ite | assumption | apply State.bump_alters |
                            apply State.mapRuns_alters | apply State.showRuns_alters | apply State.wr_alters)
    | exact Part.le_trans (by decide) hc
    | (refine (?_ : Part.le _ _ = true); decide)
    | intro _
    | with_reducible (first | rfl)
    | split
    | dsimp only
    | simp only [id_eq]
    | with_reducible (first | apply Alters.upd_nose)
  )

theorem State.stepJump_alters {s : State} {p : Nat} {ch : List Part} {s0 : State} (h0 : Alters ch s0 s) (hc : Part.le
    Part.err ch = true) : Alters ch s0 (State.stepJump s p) := by
  unfold State.stepJump
  try dsimp only
  repeat' (
    first
    | with_reducible (first | exact Alters.refl _ _ | apply Alters.ite | assumption | apply State.raise_alters |
                            apply State.wr_alters)
    | exact Part.le_trans (by decide) hc
    | (refine (?_ : Part.le _ _ = true); decide)
    | intro _
    | with_reducible (first | rfl)
    | split
    | dsimp only
    | simp only [id_eq]
  )

theorem State.stepChanged_alters {s : State} {p c old new : Nat} {why : CtrCause} {ch : List Part} {s0 : State} (h0 :
    Alters ch s0 s) (hc : Part.le (Part.err ++ [Part.nose]) ch = true) : Alters ch s0 (State.stepChanged s p c old new
    why) := by
  unfold State.stepChanged
  try dsimp only
  repeat' (
    first
    | with_reducible (first | exact Alters.refl _ _ | apply Alters.ite | assumption | apply State.closeStep_alters |
                            apply State.raise_alters | apply State.stepJump_alters | apply State.wr_alters)
    | exact Part.le_trans (by decide) hc
    | (refine (?_ : Part.le _ _ = true); decide)
    | intro _
    | with_reducible (first | rfl)
    | split
    | dsimp only
    | simp only [id_eq]
  )

theorem State.mirrorSteps_alters {s : State} {ch : List Part} {s0 : State} (h0 : Alters ch s0 s) (hc : Part.le
    [.cells] ch = true) : Alters ch s0 (State.mirrorSteps s) := by
  unfold State.mirrorSteps
  try dsimp only
  repeat' (
    first
    | with_reducible (first | exact Alters.refl _ _ | apply Alters.ite | assumption |
                          apply Alters.foldl | apply State.wr_alters | apply Alters.foldl1)
    | exact Part.le_trans (by decide) hc
    | (refine (?_ : Part.le _ _ = true); decide)
    | intro _
    | with_reducible (first | rfl)
    | split
    | dsimp only
    | simp only [id_eq]
  )

theorem State.changeCtr_alters {s : State} {c v : Nat} {ovf : Bool} {why : CtrCause} {ch : List Part} {s0 : State} (h0
    : Alters ch s0 s) (hc : Part.le (Part.err ++ [Part.queue, Part.sig, Part.nose]) ch = true) : Alters ch s0 (State.changeCtr s c
    v ovf why) := by
  unfold State.changeCtr
  try dsimp only
  repeat' (
    first
    | with_reducible (first | exact Alters.refl _ _ | apply Alters.ite | assumption | apply Alters.foldl |
                            apply State.putCtr_alters | apply State.stepChanged_alters | apply Alters.foldl1)
    | exact Part.le_trans (by decide) hc
    | (refine (?_ : Part.le _ _ = true); decide)
    | intro _
    | with_reducible (first | rfl)
    | split
    | dsimp only
    | simp only [id_eq]
  )

theorem State.addCtr_alters {s : State} {c n : Nat} {why : CtrCause} {ch : List Part} {s0 : State} (h0 : Alters ch s0
    s) (hc : Part.le (Part.err ++ [Part.queue, Part.sig, Part.nose]) ch = true) : Alters ch s0 (State.addCtr s c n why) := by
  unfold State.addCtr
  try dsimp only
  repeat' (
    first
    | with_reducible (first | exact Alters.refl _ _ | apply Alters.ite | assumption | apply State.bump_alters |
                            apply State.changeCtr_alters | apply State.raise_alters)
    | exact Part.le_trans (by decide) hc
    | (refine (?_ : Part.le _ _ = true); decide)
    | intro _
    | with_reducible (first | rfl)
    | split
    | dsimp only
    | simp only [id_eq]
  )

theorem State.setCtr_alters {s : State} {c v : Nat} {why : CtrCause} {ch : List Part} {s0 : State} (h0 : Alters ch s0
    s) (hc : Part.le (Part.err ++ [Part.queue, Part.sig, Part.nose]) ch = true) : Alters ch s0 (State.setCtr s c v why) := by
  unfold State.setCtr
  try dsimp only
  repeat' (
    first
    | with_reducible (first | exact Alters.refl _ _ | apply Alters.ite | assumption | apply State.changeCtr_alters)
    | exact Part.le_trans (by decide) hc
    | (refine (?_ : Part.le _ _ = true); decide)
    | intro _
    | with_reducible (first | rfl)
    | split
    | dsimp only
    | simp only [id_eq]
  )

end Sys2Proof.Machine
end

