-- ==== Sys2Proof/Laws/AltersTile.lean ====
section
/-! SUPPORT. What each operation of Machine/Tile.lean alters. -/

-- One closing tactic serves every lemma here; where a goal needs few of its steps the linters name the rest.
set_option linter.all false
set_option Elab.async false

namespace Sys2Proof.Machine

theorem State.openLine_alters {s : State} {t l : Nat} {ch : List Part} {s0 : State} (h0 : Alters ch s0 s) (hc :
    Part.le [.words, .tile] ch = true) : Alters ch s0 (State.openLine s t l) := by
  unfold State.openLine
  try dsimp only
  repeat' (
    first
    | with_reducible (first | exact Alters.refl _ _ | apply Alters.ite | assumption)
    | exact Part.le_trans (by decide) hc
    | (refine (?_ : Part.le _ _ = true); decide)
    | intro _
    | with_reducible (first | rfl)
    | split
    | dsimp only
    | simp only [id_eq]
    | with_reducible (first | apply Alters.upd_tile)
  )

theorem State.spadWrite_alters {s : State} {t w : Nat} {v : Word} {ch : List Part} {s0 : State} (h0 : Alters ch s0 s)
    (hc : Part.le [.words, .tile] ch = true) : Alters ch s0 (State.spadWrite s t w v) := by
  unfold State.spadWrite
  try dsimp only
  repeat' (
    first
    | with_reducible (first | exact Alters.refl _ _ | apply Alters.ite | assumption | apply State.openLine_alters)
    | exact Part.le_trans (by decide) hc
    | (refine (?_ : Part.le _ _ = true); decide)
    | intro _
    | with_reducible (first | rfl)
    | split
    | dsimp only
    | simp only [id_eq]
    | with_reducible (first | apply Alters.upd_tile)
  )

theorem State.spadWrites_alters {s : State} {t w : Nat} {vs : List Word} {ch : List Part} {s0 : State} (h0 : Alters ch
    s0 s) (hc : Part.le [.words, .tile] ch = true) : Alters ch s0 (State.spadWrites s t w vs) := by
  induction vs generalizing s t w with
  | nil => 
    unfold State.spadWrites
    try dsimp only
    repeat' (
    first
    | with_reducible (first | exact Alters.refl _ _ | apply Alters.ite | assumption | apply State.spadWrite_alters)
    | exact Part.le_trans (by decide) hc
    | (refine (?_ : Part.le _ _ = true); decide)
    | intro _
    | with_reducible (first | rfl)
    | split
    | dsimp only
    | simp only [id_eq]
    )
  | cons hd_ tl_ ih_ => 
    unfold State.spadWrites
    try dsimp only
    repeat' (
    first
    | with_reducible (first | apply ih_ | exact Alters.refl _ _ | apply Alters.ite | assumption |
                            apply State.spadWrite_alters)
    | exact Part.le_trans (by decide) hc
    | (refine (?_ : Part.le _ _ = true); decide)
    | intro _
    | with_reducible (first | rfl)
    | split
    | dsimp only
    | simp only [id_eq]
    )

theorem State.poisonEntry_alters {s : State} {t w : Nat} {ch : List Part} {s0 : State} (h0 : Alters ch s0 s) (hc :
    Part.le [.cells, .tile, .msix, .out] ch = true) : Alters ch s0 (State.poisonEntry s t w) := by
  unfold State.poisonEntry
  try dsimp only
  repeat' (
    first
    | with_reducible (first | exact Alters.refl _ _ | apply Alters.ite | assumption | apply State.irq_alters |
                            apply State.wr_alters)
    | exact Part.le_trans (by decide) hc
    | (refine (?_ : Part.le _ _ = true); decide)
    | intro _
    | with_reducible (first | rfl)
    | split
    | dsimp only
    | simp only [id_eq]
    | with_reducible (first | apply Alters.updR_tile)
  )

theorem State.unsetRead_alters {s : State} {t w : Nat} {ch : List Part} {s0 : State} (h0 : Alters ch s0 s) (hc :
    Part.le [.cells, .msix, .out] ch = true) : Alters ch s0 (State.unsetRead s t w) := by
  unfold State.unsetRead
  try dsimp only
  repeat' (
    first
    | with_reducible (first | exact Alters.refl _ _ | apply Alters.ite | assumption | apply State.bump_alters |
                            apply State.irq_alters | apply State.wr_alters)
    | exact Part.le_trans (by decide) hc
    | (refine (?_ : Part.le _ _ = true); decide)
    | intro _
    | with_reducible (first | rfl)
    | split
    | dsimp only
    | simp only [id_eq]
  )

theorem State.spadRead_alters {s : State} {o : Option Owner} {t w : Nat} {ch : List Part} {s0 : State} (h0 : Alters ch
    s0 s) (hc : Part.le (Part.err ++ [Part.tile, Part.nose]) ch = true) : Alters ch s0 (State.spadRead s o t w).1 := by
  unfold State.spadRead
  try dsimp only
  repeat' (
    first
    | with_reducible (first | exact Alters.refl _ _ | apply Alters.ite | assumption | apply State.bump_alters |
                            apply State.poisonEntry_alters | apply State.raiseFor_alters | apply State.unsetRead_alters)
    | exact Part.le_trans (by decide) hc
    | (refine (?_ : Part.le _ _ = true); decide)
    | intro _
    | with_reducible (first | rfl)
    | split
    | dsimp only
    | simp only [id_eq]
    | with_reducible (first | apply Alters.updR_tile)
  )
theorem State.spadRead_altersP {s : State} {o : Option Owner} {t w : Nat} {t0 r0} (e_ : State.spadRead s o t w = (t0,
    r0)) {ch : List Part} {s0 : State} (h0 : Alters ch s0 s) (hc : Part.le (Part.err ++ [Part.tile, Part.nose]) ch = true) :
    Alters ch s0 t0 := by
  have h := State.spadRead_alters (s := s) (o := o) (t := t) (w := w) h0  hc
  rw [e_] at h; exact h

theorem State.spadPut_alters {s : State} {o : Option Owner} {t w : Nat} {vs : List Word} {ch : List Part} {s0 : State}
    (h0 : Alters ch s0 s) (hc : Part.le (Part.err ++ [Part.words, Part.tile, Part.nose]) ch = true) : Alters ch s0
    (State.spadPut s o t w vs).1 := by
  unfold State.spadPut
  try dsimp only
  repeat' (
    first
    | with_reducible (first | exact Alters.refl _ _ | apply Alters.ite | assumption |
                          apply State.raiseFor_alters | apply State.spadWrites_alters)
    | exact Part.le_trans (by decide) hc
    | (refine (?_ : Part.le _ _ = true); decide)
    | intro _
    | with_reducible (first | rfl)
    | split
    | dsimp only
    | simp only [id_eq]
  )
theorem State.spadPut_altersP {s : State} {o : Option Owner} {t w : Nat} {vs : List Word} {t0 r0} (e_ : State.spadPut
    s o t w vs = (t0, r0)) {ch : List Part} {s0 : State} (h0 : Alters ch s0 s) (hc : Part.le (Part.err ++ [Part.words,
    Part.tile, Part.nose]) ch = true) : Alters ch s0 t0 := by
  have h := State.spadPut_alters (s := s) (o := o) (t := t) (w := w) (vs := vs) h0  hc
  rw [e_] at h; exact h

theorem State.spadReads_alters {s : State} {o : Option Owner} {t : Nat} {ws : List Nat} {ch : List Part} {s0 : State}
    (h0 : Alters ch s0 s) (hc : Part.le (Part.err ++ [Part.tile, Part.nose]) ch = true) : Alters ch s0 (State.spadReads s o t
    ws).1 := by
  induction ws generalizing s o t with
  | nil => 
    unfold State.spadReads
    try dsimp only
    repeat' (
    first
    | with_reducible (first | exact Alters.refl _ _ | apply Alters.ite | assumption | apply State.spadRead_alters |
                            apply Alters.of_pair (by assumption))
    | exact Part.le_trans (by decide) hc
    | (refine (?_ : Part.le _ _ = true); decide)
    | intro _
    | with_reducible (first | rfl)
    | split
    | dsimp only
    | simp only [id_eq]
    )
  | cons hd_ tl_ ih_ => 
    unfold State.spadReads
    try dsimp only
    repeat' (
    first
    | with_reducible (first | apply ih_ | exact Alters.refl _ _ | apply Alters.ite | assumption |
                            apply State.spadRead_alters | apply Alters.of_pair (by assumption))
    | exact Part.le_trans (by decide) hc
    | (refine (?_ : Part.le _ _ = true); decide)
    | intro _
    | with_reducible (first | rfl)
    | split
    | dsimp only
    | simp only [id_eq]
    )
theorem State.spadReads_altersP {s : State} {o : Option Owner} {t : Nat} {ws : List Nat} {t0 r0} (e_ : State.spadReads
    s o t ws = (t0, r0)) {ch : List Part} {s0 : State} (h0 : Alters ch s0 s) (hc : Part.le (Part.err ++ [Part.tile,
    Part.nose]) ch = true) : Alters ch s0 t0 := by
  have h := State.spadReads_alters (s := s) (o := o) (t := t) (ws := ws) h0  hc
  rw [e_] at h; exact h

theorem State.onWire_alters {s : State} {bs : List Byte} {ch : List Part} {s0 : State} (h0 : Alters ch s0 s) (hc :
    Part.le [.tile] ch = true) : Alters ch s0 (State.onWire s bs).1 := by
  unfold State.onWire
  try dsimp only
  repeat' (
    first
    | with_reducible (first | exact Alters.refl _ _ | apply Alters.ite | assumption)
    | exact Part.le_trans (by decide) hc
    | (refine (?_ : Part.le _ _ = true); decide)
    | intro _
    | with_reducible (first | rfl)
    | split
    | dsimp only
    | simp only [id_eq]
    | with_reducible (first | apply Alters.updR_tile)
  )
theorem State.onWire_altersP {s : State} {bs : List Byte} {t0 r0} (e_ : State.onWire s bs = (t0, r0)) {ch : List Part}
    {s0 : State} (h0 : Alters ch s0 s) (hc : Part.le [.tile] ch = true) : Alters ch s0 t0 := by
  have h := State.onWire_alters (s := s) (bs := bs) h0  hc
  rw [e_] at h; exact h

theorem State.carry_alters {s : State} {first : Nat} {bs : List Byte} {ch : List Part} {s0 : State} (h0 : Alters ch s0
    s) (hc : Part.le [.tile] ch = true) : Alters ch s0 (State.carry s first bs).1 := by
  unfold State.carry
  try dsimp only
  repeat' (
    first
    | with_reducible (first | exact Alters.refl _ _ | apply Alters.ite | assumption |
                          apply State.onWire_alters | apply Alters.of_pair (by assumption))
    | exact Part.le_trans (by decide) hc
    | (refine (?_ : Part.le _ _ = true); decide)
    | intro _
    | with_reducible (first | rfl)
    | split
    | dsimp only
    | simp only [id_eq]
  )
theorem State.carry_altersP {s : State} {first : Nat} {bs : List Byte} {t0 r0} (e_ : State.carry s first bs = (t0,
    r0)) {ch : List Part} {s0 : State} (h0 : Alters ch s0 s) (hc : Part.le [.tile] ch = true) : Alters ch s0 t0 := by
  have h := State.carry_alters (s := s) (first := first) (bs := bs) h0  hc
  rw [e_] at h; exact h

theorem State.writeSpans_alters {s : State} {o : Option Owner} {pg first : Nat} {d : List Byte} {bad : List (Nat ×
    Nat)} {put : State → Nat → List Byte → State × Option Err} {ch : List Part} {s0 : State} (h0 : Alters ch s0 s)
    (hput : ∀ {z0} {u0 u1 u2}, Alters ch z0 u0 → Alters ch z0 (put u0 u1 u2).1) (hc : Part.le (Part.err ++
    [Part.nose]) ch = true) : Alters ch s0 (State.writeSpans s o pg first d bad put).1 := by
  unfold State.writeSpans
  try dsimp only
  repeat' (
    first
    | with_reducible (first | exact Alters.refl _ _ | apply Alters.ite | assumption |
                          apply Alters.foldl | apply hput | apply State.sealFail_alters | apply Alters.foldl1)
    | exact Part.le_trans (by decide) hc
    | (refine (?_ : Part.le _ _ = true); decide)
    | intro _
    | with_reducible (first | rfl)
    | split
    | dsimp only
    | simp only [id_eq]
  )
theorem State.writeSpans_altersP {s : State} {o : Option Owner} {pg first : Nat} {d : List Byte} {bad : List (Nat ×
    Nat)} {put : State → Nat → List Byte → State × Option Err} {t0 r0} (e_ : State.writeSpans s o pg first d bad put =
    (t0, r0)) {ch : List Part} {s0 : State} (h0 : Alters ch s0 s) (hput : ∀ {z0} {u0 u1 u2}, Alters ch z0 u0 → Alters
    ch z0 (put u0 u1 u2).1) (hc : Part.le (Part.err ++ [Part.nose]) ch = true) : Alters ch s0 t0 := by
  have h := State.writeSpans_alters (s := s) (o := o) (pg := pg) (first := first) (d := d) (bad := bad) (put := put) h0 hput hc
  rw [e_] at h; exact h

theorem State.sealedWrite_alters {s : State} {o : Option Owner} {a : Actor} {off first : Nat} {d : List Byte} {bad :
    List (Nat × Nat)} {ch : List Part} {s0 : State} (h0 : Alters ch s0 s) (hc : Part.le (Part.err ++ [Part.memBytes,
    Part.mem, Part.nose, Part.power]) ch = true) : Alters ch s0 (State.sealedWrite s o a off first d bad).1 := by
  unfold State.sealedWrite
  try dsimp only
  repeat' (
    first
    | with_reducible (first | exact Alters.refl _ _ | apply Alters.ite | assumption |
                          apply State.memWrite_alters | apply State.raiseFor_alters | apply State.writeSpans_alters |
                          apply Alters.of_pair (by assumption))
    | exact Part.le_trans (by decide) hc
    | (refine (?_ : Part.le _ _ = true); decide)
    | intro _
    | with_reducible (first | rfl)
    | split
    | dsimp only
    | simp only [id_eq]
  )
theorem State.sealedWrite_altersP {s : State} {o : Option Owner} {a : Actor} {off first : Nat} {d : List Byte} {bad :
    List (Nat × Nat)} {t0 r0} (e_ : State.sealedWrite s o a off first d bad = (t0, r0)) {ch : List Part} {s0 : State}
    (h0 : Alters ch s0 s) (hc : Part.le (Part.err ++ [Part.memBytes, Part.mem, Part.nose, Part.power]) ch = true) :
    Alters ch s0 t0 := by
  have h := State.sealedWrite_alters (s := s) (o := o) (a := a) (off := off) (first := first) (d := d) (bad := bad) h0  hc
  rw [e_] at h; exact h

theorem State.ranStages_alters {s : State} {n : Nat} {ch : List Part} {s0 : State} (h0 : Alters ch s0 s) (hc : Part.le
    [.tile] ch = true) : Alters ch s0 (State.ranStages s n) := by
  unfold State.ranStages
  try dsimp only
  repeat' (
    first
    | with_reducible (first | exact Alters.refl _ _ | apply Alters.ite | assumption)
    | exact Part.le_trans (by decide) hc
    | (refine (?_ : Part.le _ _ = true); decide)
    | intro _
    | with_reducible (first | rfl)
    | split
    | dsimp only
    | simp only [id_eq]
    | with_reducible (first | apply Alters.updR_tile)
  )

theorem State.clearLines_alters {s : State} {t first n : Nat} {ch : List Part} {s0 : State} (h0 : Alters ch s0 s) (hc
    : Part.le [.tile] ch = true) : Alters ch s0 (State.clearLines s t first n) := by
  unfold State.clearLines
  try dsimp only
  repeat' (
    first
    | with_reducible (first | exact Alters.refl _ _ | apply Alters.ite | assumption)
    | exact Part.le_trans (by decide) hc
    | (refine (?_ : Part.le _ _ = true); decide)
    | intro _
    | with_reducible (first | rfl)
    | split
    | dsimp only
    | simp only [id_eq]
    | with_reducible (first | apply Alters.updR_tile)
  )

theorem execYieldCycle_alters {t : Fin 960} {waited : Nat} {s : State} {t0} (e : execYieldCycle t waited s = .next t0)
    : Alters [.cells] s t0 := by
  unfold execYieldCycle at e
  try dsimp only at e
  repeat' split at e
  all_goals (injection e with e; subst e)
  all_goals try dsimp only
  repeat' (
    first
    | with_reducible (first | exact Alters.refl _ _ | apply Alters.ite | assumption | apply State.bump_alters)
    | exact Alters.refl _ _
    | (refine (?_ : Part.le _ _ = true); decide)
    | intro _
    | with_reducible (first | rfl)
    | split
    | dsimp only
    | simp only [id_eq]
  )

theorem State.setClear_alters {s : State} {t : Nat} {r : Nat × Nat} {ch : List Part} {s0 : State} (h0 : Alters ch s0
    s) (hc : Part.le [.tile] ch = true) : Alters ch s0 (State.setClear s t r) := by
  unfold State.setClear
  try dsimp only
  repeat' (
    first
    | with_reducible (first | exact Alters.refl _ _ | apply Alters.ite | assumption)
    | exact Part.le_trans (by decide) hc
    | (refine (?_ : Part.le _ _ = true); decide)
    | intro _
    | with_reducible (first | rfl)
    | split
    | dsimp only
    | simp only [id_eq]
    | with_reducible (first | apply Alters.updR_tile)
  )

theorem State.spadClear_alters {s : State} {t lines : Nat} {ch : List Part} {s0 : State} (h0 : Alters ch s0 s) (hc :
    Part.le (Part.err ++ [Part.tile]) ch = true) : Alters ch s0 (State.spadClear s t lines) := by
  unfold State.spadClear
  try dsimp only
  repeat' (
    first
    | with_reducible (first | exact Alters.refl _ _ | apply Alters.ite | assumption |
                          apply State.raise_alters | apply State.setClear_alters | apply State.wr_alters)
    | exact Part.le_trans (by decide) hc
    | (refine (?_ : Part.le _ _ = true); decide)
    | intro _
    | with_reducible (first | rfl)
    | split
    | dsimp only
    | simp only [id_eq]
  )

theorem execSpadClear_alters {p : Path} {t : Fin 960} {lines : BitVec 20} {s : State} {t0} (e : execSpadClear p t
    lines s = .next t0) : Alters (Part.err ++ [Part.wbuf, Part.tile]) s t0 := by
  unfold execSpadClear at e
  try dsimp only at e
  repeat' split at e
  all_goals (injection e with e; subst e)
  all_goals try dsimp only
  repeat' (
    first
    | with_reducible (first | exact Alters.refl _ _ | apply Alters.ite | assumption | apply State.onWrite_alters |
                            apply State.spadClear_alters)
    | exact Alters.refl _ _
    | (refine (?_ : Part.le _ _ = true); decide)
    | intro _
    | with_reducible (first | rfl)
    | split
    | dsimp only
    | simp only [id_eq]
  )

theorem State.endClear_alters {s : State} {t : Nat} {ch : List Part} {s0 : State} (h0 : Alters ch s0 s) (hc : Part.le
    [.cells, .tile] ch = true) : Alters ch s0 (State.endClear s t) := by
  unfold State.endClear
  try dsimp only
  repeat' (
    first
    | with_reducible (first | exact Alters.refl _ _ | apply Alters.ite | assumption |
                          apply State.setClear_alters | apply State.wr_alters)
    | exact Part.le_trans (by decide) hc
    | (refine (?_ : Part.le _ _ = true); decide)
    | intro _
    | with_reducible (first | rfl)
    | split
    | dsimp only
    | simp only [id_eq]
  )

theorem State.clearFor_alters {s : State} {t n : Nat} {ch : List Part} {s0 : State} (h0 : Alters ch s0 s) (hc :
    Part.le [.cells, .tile] ch = true) : Alters ch s0 (State.clearFor s t n) := by
  unfold State.clearFor
  try dsimp only
  repeat' (
    first
    | with_reducible (first | exact Alters.refl _ _ | apply Alters.ite | assumption |
                          apply State.clearLines_alters | apply State.endClear_alters | apply State.setClear_alters)
    | exact Part.le_trans (by decide) hc
    | (refine (?_ : Part.le _ _ = true); decide)
    | intro _
    | with_reducible (first | rfl)
    | split
    | dsimp only
    | simp only [id_eq]
  )

theorem execSpadClearDone_alters {t : Fin 960} {cycles : Nat} {s : State} {t0} (e : execSpadClearDone t cycles s =
    .next t0) : Alters [.cells, .tile] s t0 := by
  unfold execSpadClearDone at e
  try dsimp only at e
  repeat' split at e
  all_goals (injection e with e; subst e)
  all_goals try dsimp only
  repeat' (
    first
    | with_reducible (first | exact Alters.refl _ _ | apply Alters.ite | assumption |
                          apply State.clearFor_alters)
    | exact Alters.refl _ _
    | (refine (?_ : Part.le _ _ = true); decide)
    | intro _
    | with_reducible (first | rfl)
    | split
    | dsimp only
    | simp only [id_eq]
  )

theorem State.pathWr_alters {s : State} {p : Path} {f : Fld} {v : Nat} {ch : List Part} {s0 : State} (h0 : Alters ch
    s0 s) (hc : Part.le [.pathVal] ch = true) : Alters ch s0 (State.pathWr s p f v) := by
  unfold State.pathWr
  try dsimp only
  repeat' (
    first
    | with_reducible (first | exact Alters.refl _ _ | apply Alters.ite | assumption)
    | exact Part.le_trans (by decide) hc
    | (refine (?_ : Part.le _ _ = true); decide)
    | intro _
    | with_reducible (first | rfl)
    | split
    | dsimp only
    | simp only [id_eq]
    | with_reducible (first | apply Alters.upd_pathVal)
  )

theorem State.winAlloc_alters {s : State} {p : Path} {t : Nat} {ch : List Part} {s0 : State} (h0 : Alters ch s0 s) (hc
    : Part.le (Part.err ++ [Part.pathVal]) ch = true) : Alters ch s0 (State.winAlloc s p t) := by
  unfold State.winAlloc
  try dsimp only
  repeat' (
    first
    | with_reducible (first | exact Alters.refl _ _ | apply Alters.ite | assumption | apply State.pathWr_alters |
                            apply State.raise_alters | apply State.wr_alters)
    | exact Part.le_trans (by decide) hc
    | (refine (?_ : Part.le _ _ = true); decide)
    | intro _
    | with_reducible (first | rfl)
    | split
    | dsimp only
    | simp only [id_eq]
  )

theorem execWinAlloc_alters {p : Path} {t : Fin 960} {s : State} {t0} (e : execWinAlloc p t s = .next t0) : Alters
    (Part.err ++ [Part.wbuf, Part.pathVal]) s t0 := by
  unfold execWinAlloc at e
  try dsimp only at e
  repeat' split at e
  all_goals (injection e with e; subst e)
  all_goals try dsimp only
  repeat' (
    first
    | with_reducible (first | exact Alters.refl _ _ | apply Alters.ite | assumption | apply State.onWrite_alters |
                            apply State.winAlloc_alters)
    | exact Alters.refl _ _
    | (refine (?_ : Part.le _ _ = true); decide)
    | intro _
    | with_reducible (first | rfl)
    | split
    | dsimp only
    | simp only [id_eq]
  )

theorem State.winOpen_alters {s : State} {t n : Nat} {ch : List Part} {s0 : State} (h0 : Alters ch s0 s) (hc : Part.le
    Part.err ch = true) : Alters ch s0 (State.winOpen s t n) := by
  unfold State.winOpen
  try dsimp only
  repeat' (
    first
    | with_reducible (first | exact Alters.refl _ _ | apply Alters.ite | assumption | apply State.raise_alters |
                            apply State.wr_alters)
    | exact Part.le_trans (by decide) hc
    | (refine (?_ : Part.le _ _ = true); decide)
    | intro _
    | with_reducible (first | rfl)
    | split
    | dsimp only
    | simp only [id_eq]
  )

theorem execWinOpen_alters {p : Path} {t : Fin 960} {n : Fin 16} {s : State} {t0} (e : execWinOpen p t n s = .next t0)
    : Alters (Part.err ++ [Part.wbuf]) s t0 := by
  unfold execWinOpen at e
  try dsimp only at e
  repeat' split at e
  all_goals (injection e with e; subst e)
  all_goals try dsimp only
  repeat' (
    first
    | with_reducible (first | exact Alters.refl _ _ | apply Alters.ite | assumption | apply State.onWrite_alters |
                            apply State.winOpen_alters)
    | exact Alters.refl _ _
    | (refine (?_ : Part.le _ _ = true); decide)
    | intro _
    | with_reducible (first | rfl)
    | split
    | dsimp only
    | simp only [id_eq]
  )

theorem State.winClose_alters {s : State} {t n : Nat} {ch : List Part} {s0 : State} (h0 : Alters ch s0 s) (hc :
    Part.le Part.err ch = true) : Alters ch s0 (State.winClose s t n) := by
  unfold State.winClose
  try dsimp only
  repeat' (
    first
    | with_reducible (first | exact Alters.refl _ _ | apply Alters.ite | assumption | apply State.raise_alters |
                            apply State.wr_alters)
    | exact Part.le_trans (by decide) hc
    | (refine (?_ : Part.le _ _ = true); decide)
    | intro _
    | with_reducible (first | rfl)
    | split
    | dsimp only
    | simp only [id_eq]
  )

theorem execWinClose_alters {p : Path} {t : Fin 960} {n : Fin 16} {s : State} {t0} (e : execWinClose p t n s = .next
    t0) : Alters (Part.err ++ [Part.wbuf]) s t0 := by
  unfold execWinClose at e
  try dsimp only at e
  repeat' split at e
  all_goals (injection e with e; subst e)
  all_goals try dsimp only
  repeat' (
    first
    | with_reducible (first | exact Alters.refl _ _ | apply Alters.ite | assumption | apply State.onWrite_alters |
                            apply State.winClose_alters)
    | exact Alters.refl _ _
    | (refine (?_ : Part.le _ _ = true); decide)
    | intro _
    | with_reducible (first | rfl)
    | split
    | dsimp only
    | simp only [id_eq]
  )

theorem execWinClosingDone_alters {t : Fin 960} {n : Fin 16} {s : State} {t0} (e : execWinClosingDone t n s = .next
    t0) : Alters [.cells] s t0 := by
  unfold execWinClosingDone at e
  try dsimp only at e
  repeat' split at e
  all_goals (injection e with e; subst e)
  all_goals try dsimp only
  repeat' (
    first
    | with_reducible (first | exact Alters.refl _ _ | apply Alters.ite | assumption | apply State.wr_alters)
    | exact Alters.refl _ _
    | (refine (?_ : Part.le _ _ = true); decide)
    | intro _
    | with_reducible (first | rfl)
    | split
    | dsimp only
    | simp only [id_eq]
  )

theorem State.winFree_alters {s : State} {t n : Nat} {ch : List Part} {s0 : State} (h0 : Alters ch s0 s) (hc : Part.le
    Part.err ch = true) : Alters ch s0 (State.winFree s t n) := by
  unfold State.winFree
  try dsimp only
  repeat' (
    first
    | with_reducible (first | exact Alters.refl _ _ | apply Alters.ite | assumption | apply State.raise_alters |
                            apply State.wr_alters)
    | exact Part.le_trans (by decide) hc
    | (refine (?_ : Part.le _ _ = true); decide)
    | intro _
    | with_reducible (first | rfl)
    | split
    | dsimp only
    | simp only [id_eq]
  )

theorem execWinFree_alters {p : Path} {t : Fin 960} {n : Fin 16} {s : State} {t0} (e : execWinFree p t n s = .next t0)
    : Alters (Part.err ++ [Part.wbuf]) s t0 := by
  unfold execWinFree at e
  try dsimp only at e
  repeat' split at e
  all_goals (injection e with e; subst e)
  all_goals try dsimp only
  repeat' (
    first
    | with_reducible (first | exact Alters.refl _ _ | apply Alters.ite | assumption | apply State.onWrite_alters |
                            apply State.winFree_alters)
    | exact Alters.refl _ _
    | (refine (?_ : Part.le _ _ = true); decide)
    | intro _
    | with_reducible (first | rfl)
    | split
    | dsimp only
    | simp only [id_eq]
  )

theorem State.refuseWrite_alters {s : State} {o : Option Owner} {t : Nat} {e : Err} {ch : List Part} {s0 : State} (h0
    : Alters ch s0 s) (hc : Part.le (Part.err ++ [Part.nose]) ch = true) : Alters ch s0 (State.refuseWrite s o t e) := by
  unfold State.refuseWrite
  try dsimp only
  repeat' (
    first
    | with_reducible (first | exact Alters.refl _ _ | apply Alters.ite | assumption | apply State.bump_alters |
                            apply State.irq_alters | apply State.raiseFor_alters)
    | exact Part.le_trans (by decide) hc
    | (refine (?_ : Part.le _ _ = true); decide)
    | intro _
    | with_reducible (first | rfl)
    | split
    | dsimp only
    | simp only [id_eq]
  )

theorem State.sillCount_alters {s : State} {w : Sender} {refused : Bool} {words : Nat} {ch : List Part} {s0 : State}
    (h0 : Alters ch s0 s) (hc : Part.le [.cells] ch = true) : Alters ch s0 (State.sillCount s w refused words) := by
  unfold State.sillCount
  try dsimp only
  repeat' (
    first
    | with_reducible (first | exact Alters.refl _ _ | apply Alters.ite | assumption |
                          apply State.bump_alters)
    | exact Part.le_trans (by decide) hc
    | (refine (?_ : Part.le _ _ = true); decide)
    | intro _
    | with_reducible (first | rfl)
    | split
    | dsimp only
    | simp only [id_eq]
  )

theorem State.flightErr_alters {s : State} {o : Option Owner} {e : Err} {ch : List Part} {s0 : State} (h0 : Alters ch
    s0 s) (hc : Part.le [.queue] ch = true) : Alters ch s0 (State.flightErr s o e) := by
  unfold State.flightErr
  try dsimp only
  repeat' (
    first
    | with_reducible (first | exact Alters.refl _ _ | apply Alters.ite | assumption | apply State.setQ_alters)
    | exact Part.le_trans (by decide) hc
    | (refine (?_ : Part.le _ _ = true); decide)
    | intro _
    | with_reducible (first | rfl)
    | split
    | dsimp only
    | simp only [id_eq]
  )

theorem State.admitWrite_alters {s : State} {l : Landing} {ch : List Part} {s0 : State} (h0 : Alters ch s0 s) (hc :
    Part.le (Part.err ++ [Part.tile, Part.nose]) ch = true) : Alters ch s0 (State.admitWrite s l).1 := by
  unfold State.admitWrite
  try dsimp only
  repeat' (
    first
    | with_reducible (first | exact Alters.refl _ _ | apply Alters.ite | assumption | apply State.refuseWrite_alters |
                            apply State.sillCount_alters | apply State.wr_alters)
    | exact Part.le_trans (by decide) hc
    | (refine (?_ : Part.le _ _ = true); decide)
    | intro _
    | with_reducible (first | rfl)
    | split
    | dsimp only
    | simp only [id_eq]
    | with_reducible (first | apply Alters.updR_tile)
  )
theorem State.admitWrite_altersP {s : State} {l : Landing} {t0 r0} (e_ : State.admitWrite s l = (t0, r0)) {ch : List
    Part} {s0 : State} (h0 : Alters ch s0 s) (hc : Part.le (Part.err ++ [Part.tile, Part.nose]) ch = true) : Alters ch s0 t0
    := by
  have h := State.admitWrite_alters (s := s) (l := l) h0  hc
  rw [e_] at h; exact h

theorem State.tileFail_alters {s : State} {o : Option Owner} {t : Nat} {e : Err} {ch : List Part} {s0 : State} (h0 :
    Alters ch s0 s) (hc : Part.le (Part.err ++ [Part.queue, Part.nose]) ch = true) : Alters ch s0 (State.tileFail s o
    t e) := by
  unfold State.tileFail
  try dsimp only
  repeat' (
    first
    | with_reducible (first | exact Alters.refl _ _ | apply Alters.ite | assumption |
                          apply State.flightErr_alters | apply State.raiseFor_alters)
    | exact Part.le_trans (by decide) hc
    | (refine (?_ : Part.le _ _ = true); decide)
    | intro _
    | with_reducible (first | rfl)
    | split
    | dsimp only
    | simp only [id_eq]
  )

theorem State.putSlot_alters {s : State} {t w p : Nat} {x : Triple} {ch : List Part} {s0 : State} (h0 : Alters ch s0
    s) (hc : Part.le [.cells, .words, .tile] ch = true) : Alters ch s0 (State.putSlot s t w p x) := by
  unfold State.putSlot
  try dsimp only
  repeat' (
    first
    | with_reducible (first | exact Alters.refl _ _ | apply Alters.ite | assumption |
                          apply State.bump_alters | apply State.spadWrites_alters)
    | exact Part.le_trans (by decide) hc
    | (refine (?_ : Part.le _ _ = true); decide)
    | intro _
    | with_reducible (first | rfl)
    | split
    | dsimp only
    | simp only [id_eq]
    | with_reducible (first | apply Alters.updR_tile)
  )

theorem State.accumulate_alters {s : State} {o : Option Owner} {t w p : Nat} {ws : List Word} {ch : List Part} {s0 :
    State} (h0 : Alters ch s0 s) (hc : Part.le (Part.err ++ [Part.words, Part.tile, Part.queue, Part.nose]) ch = true)
    : Alters ch s0 (State.accumulate s o t w p ws) := by
  unfold State.accumulate
  try dsimp only
  repeat' (
    first
    | with_reducible (first | exact Alters.refl _ _ | apply Alters.ite | assumption |
                          apply State.flightErr_alters | apply State.putSlot_alters | apply State.ranStages_alters |
                          apply State.spadReads_alters | apply State.tileFail_alters |
                          apply Alters.of_pair (by assumption))
    | exact Part.le_trans (by decide) hc
    | (refine (?_ : Part.le _ _ = true); decide)
    | intro _
    | with_reducible (first | rfl)
    | split
    | dsimp only
    | simp only [id_eq]
  )

theorem State.accumulates_alters {s : State} {o : Option Owner} {t w p n : Nat} {ws : List Word} {ch : List Part} {s0
    : State} (h0 : Alters ch s0 s) (hc : Part.le (Part.err ++ [Part.words, Part.tile, Part.queue, Part.nose]) ch =
    true) : Alters ch s0 (State.accumulates s o t w p n ws) := by
  induction n generalizing s o t w p ws with
  | zero =>
    unfold State.accumulates
    try dsimp only
    repeat' (
      first
      | with_reducible (first | exact Alters.refl _ _ | apply Alters.ite | assumption |
                            apply State.accumulate_alters)
      | exact Part.le_trans (by decide) hc
      | (refine (?_ : Part.le _ _ = true); decide)
      | intro _
      | with_reducible (first | rfl)
      | split
      | dsimp only
      | simp only [id_eq]
    )
  | succ n_ ih_ =>
    unfold State.accumulates
    try dsimp only
    repeat' (
      first
      | with_reducible (first | apply ih_ | exact Alters.refl _ _ | apply Alters.ite | assumption |
                            apply State.accumulate_alters)
      | exact Part.le_trans (by decide) hc
      | (refine (?_ : Part.le _ _ = true); decide)
      | intro _
      | with_reducible (first | rfl)
      | split
      | dsimp only
      | simp only [id_eq]
    )

theorem State.arrive_alters {s : State} {l : Landing} {ch : List Part} {s0 : State} (h0 : Alters ch s0 s) (hc :
    Part.le (Part.err ++ [Part.tile, Part.queue, Part.nose]) ch = true) : Alters ch s0 (State.arrive s l).1 := by
  unfold State.arrive
  try dsimp only
  repeat' (
    first
    | with_reducible (first | exact Alters.refl _ _ | apply Alters.ite | assumption |
                          apply State.flightErr_alters | apply State.onWire_alters | apply State.sealFail_alters |
                          apply Alters.of_pair (by assumption))
    | exact Part.le_trans (by decide) hc
    | (refine (?_ : Part.le _ _ = true); decide)
    | intro _
    | with_reducible (first | rfl)
    | split
    | dsimp only
    | simp only [id_eq]
  )
theorem State.arrive_altersP {s : State} {l : Landing} {t0 r0} (e_ : State.arrive s l = (t0, r0)) {ch : List Part} {s0
    : State} (h0 : Alters ch s0 s) (hc : Part.le (Part.err ++ [Part.tile, Part.queue, Part.nose]) ch = true) : Alters
    ch s0 t0 := by
  have h := State.arrive_alters (s := s) (l := l) h0  hc
  rw [e_] at h; exact h

theorem State.landWrite_alters {s : State} {l : Landing} {ch : List Part} {s0 : State} (h0 : Alters ch s0 s) (hc :
    Part.le (Part.err ++ [Part.words, Part.tile, Part.queue, Part.sig, Part.nose]) ch = true) : Alters ch s0
    (State.landWrite s l) := by
  unfold State.landWrite
  try dsimp only
  repeat' (
    first
    | with_reducible (first | exact Alters.refl _ _ | apply Alters.ite | assumption |
                          apply State.accumulates_alters | apply State.addCtr_alters | apply State.arrive_alters |
                          apply State.sillCount_alters | apply State.spadWrites_alters | apply State.wr_alters |
                          apply Alters.of_pair (by assumption))
    | exact Part.le_trans (by decide) hc
    | (refine (?_ : Part.le _ _ = true); decide)
    | intro _
    | with_reducible (first | rfl)
    | split
    | dsimp only
    | simp only [id_eq]
  )

theorem State.landNow_alters {s : State} {l : Landing} {ch : List Part} {s0 : State} (h0 : Alters ch s0 s) (hc :
    Part.le (Part.err ++ [Part.words, Part.tile, Part.queue, Part.sig, Part.nose]) ch = true) : Alters ch s0
    (State.landNow s l) := by
  unfold State.landNow
  try dsimp only
  repeat' (
    first
    | with_reducible (first | exact Alters.refl _ _ | apply Alters.ite | assumption |
                          apply State.landWrite_alters)
    | exact Part.le_trans (by decide) hc
    | (refine (?_ : Part.le _ _ = true); decide)
    | intro _
    | with_reducible (first | rfl)
    | split
    | dsimp only
    | simp only [id_eq]
    | with_reducible (first | apply Alters.updR_tile)
  )

theorem State.remoteWrite_alters {s : State} {l : Landing} {ch : List Part} {s0 : State} (h0 : Alters ch s0 s) (hc :
    Part.le (Part.err ++ [Part.words, Part.tile, Part.queue, Part.sig, Part.nose]) ch = true) : Alters ch s0
    (State.remoteWrite s l).1 := by
  unfold State.remoteWrite
  try dsimp only
  repeat' (
    first
    | with_reducible (first | exact Alters.refl _ _ | apply Alters.ite | assumption |
                          apply Alters.foldl | apply State.admitWrite_alters | apply State.landNow_alters |
                          apply Alters.foldl1 | apply Alters.of_pair (by assumption))
    | exact Part.le_trans (by decide) hc
    | (refine (?_ : Part.le _ _ = true); decide)
    | intro _
    | with_reducible (first | rfl)
    | split
    | dsimp only
    | simp only [id_eq]
  )
theorem State.remoteWrite_altersP {s : State} {l : Landing} {t0 r0} (e_ : State.remoteWrite s l = (t0, r0)) {ch : List
    Part} {s0 : State} (h0 : Alters ch s0 s) (hc : Part.le (Part.err ++ [Part.words, Part.tile, Part.queue, Part.sig,
    Part.nose]) ch = true) : Alters ch s0 t0 := by
  have h := State.remoteWrite_alters (s := s) (l := l) h0  hc
  rw [e_] at h; exact h

theorem execRemoteWrite_alters {w : Sender} {t : Fin 960} {n : Fin 16} {off : Nat} {words : List Word} {prof : Fin 3}
    {cmd : Option (Nat × Nat)} {s : State} {t0} (e : execRemoteWrite w t n off words prof cmd s = .next t0) : Alters
    (Part.err ++ [Part.tile, Part.queue, Part.nose]) s t0 := by
  unfold execRemoteWrite at e
  try dsimp only at e
  repeat' split at e
  all_goals (injection e with e; subst e)
  all_goals try dsimp only
  repeat' (
    first
    | with_reducible (first | exact Alters.refl _ _ | apply Alters.ite | assumption |
                          apply State.admitWrite_alters | apply State.flightErr_alters |
                          apply Alters.of_pair (by assumption))
    | exact Alters.refl _ _
    | (refine (?_ : Part.le _ _ = true); decide)
    | intro _
    | with_reducible (first | rfl)
    | split
    | dsimp only
    | simp only [id_eq]
  )

theorem execRemoteWriteLanded_alters {w : Sender} {t : Fin 960} {n : Fin 16} {s : State} {t0} (e :
    execRemoteWriteLanded w t n s = .next t0) : Alters (Part.err ++ [Part.words, Part.tile, Part.queue, Part.sig,
    Part.nose]) s t0 := by
  unfold execRemoteWriteLanded at e
  try dsimp only at e
  repeat' split at e
  all_goals (injection e with e; subst e)
  all_goals try dsimp only
  repeat' (
    first
    | with_reducible (first | exact Alters.refl _ _ | apply Alters.ite | assumption |
                          apply State.landNow_alters)
    | exact Alters.refl _ _
    | (refine (?_ : Part.le _ _ = true); decide)
    | intro _
    | with_reducible (first | rfl)
    | split
    | dsimp only
    | simp only [id_eq]
  )

end Sys2Proof.Machine
end

