-- ==== Sys2Proof/Laws/AltersQueue.lean ====
section
/-! SUPPORT. What each operation of Machine/Queue.lean alters. -/

-- One closing tactic serves every lemma here; where a goal needs few of its steps the linters name the rest.
set_option linter.all false
set_option Elab.async false

namespace Sys2Proof.Machine

theorem State.onQ_alters {s : State} {q : Nat} {g : QState → QState} {ch : List Part} {s0 : State} (h0 : Alters ch s0
    s) (hc : Part.le [.queue] ch = true) : Alters ch s0 (State.onQ s q g) := by
  unfold State.onQ
  try dsimp only
  repeat' (
    first
    | with_reducible (first | exact Alters.refl _ _ | apply Alters.ite | assumption | apply State.setQ_alters)
    | exact Part.le_trans (by decide) hc
    | (refine (?_ : Part.le _ _ = true); decide)
    | intro _
    | with_reducible (first | rfl)
    | split
    | dsimp only
    | simp only [id_eq]
  )

theorem State.freshHead_alters {s : State} {q : Nat} {ch : List Part} {s0 : State} (h0 : Alters ch s0 s) (hc : Part.le
    [.queue] ch = true) : Alters ch s0 (State.freshHead s q) := by
  unfold State.freshHead
  try dsimp only
  repeat' (
    first
    | with_reducible (first | exact Alters.refl _ _ | apply Alters.ite | assumption | apply State.onQ_alters)
    | exact Part.le_trans (by decide) hc
    | (refine (?_ : Part.le _ _ = true); decide)
    | intro _
    | with_reducible (first | rfl)
    | split
    | dsimp only
    | simp only [id_eq]
  )

theorem State.showFault_alters {s : State} {q : Nat} {ch : List Part} {s0 : State} (h0 : Alters ch s0 s) (hc : Part.le
    (Part.err ++ [Part.queue]) ch = true) : Alters ch s0 (State.showFault s q) := by
  unfold State.showFault
  try dsimp only
  repeat' (
    first
    | with_reducible (first | exact Alters.refl _ _ | apply Alters.ite | assumption |
                          apply State.irq_alters | apply State.onQ_alters | apply State.raise_alters |
                          apply State.wr_alters)
    | exact Part.le_trans (by decide) hc
    | (refine (?_ : Part.le _ _ = true); decide)
    | intro _
    | with_reducible (first | rfl)
    | split
    | dsimp only
    | simp only [id_eq]
  )

theorem State.passIssued_alters {s : State} {q n : Nat} {ch : List Part} {s0 : State} (h0 : Alters ch s0 s) (hc :
    Part.le [.cells, .queue] ch = true) : Alters ch s0 (State.passIssued s q n) := by
  induction n generalizing s q with
  | zero =>
    unfold State.passIssued
    try dsimp only
    repeat' (
      first
      | with_reducible (first | exact Alters.refl _ _ | apply Alters.ite | assumption |
                            apply State.onQ_alters | apply State.wr_alters)
      | exact Part.le_trans (by decide) hc
      | (refine (?_ : Part.le _ _ = true); decide)
      | intro _
      | with_reducible (first | rfl)
      | split
      | dsimp only
      | simp only [id_eq]
    )
  | succ n_ ih_ =>
    unfold State.passIssued
    try dsimp only
    repeat' (
      first
      | with_reducible (first | apply ih_ | exact Alters.refl _ _ | apply Alters.ite | assumption |
                            apply State.onQ_alters | apply State.wr_alters)
      | exact Part.le_trans (by decide) hc
      | (refine (?_ : Part.le _ _ = true); decide)
      | intro _
      | with_reducible (first | rfl)
      | split
      | dsimp only
      | simp only [id_eq]
    )

theorem State.passHead_alters {s : State} {q : Nat} {ch : List Part} {s0 : State} (h0 : Alters ch s0 s) (hc : Part.le
    [.cells, .queue] ch = true) : Alters ch s0 (State.passHead s q) := by
  unfold State.passHead
  try dsimp only
  repeat' (
    first
    | with_reducible (first | exact Alters.refl _ _ | apply Alters.ite | assumption |
                          apply State.passIssued_alters | apply State.wr_alters)
    | exact Part.le_trans (by decide) hc
    | (refine (?_ : Part.le _ _ = true); decide)
    | intro _
    | with_reducible (first | rfl)
    | split
    | dsimp only
    | simp only [id_eq]
  )

theorem State.advanceHead_alters {s : State} {q : Nat} {ch : List Part} {s0 : State} (h0 : Alters ch s0 s) (hc :
    Part.le (Part.err ++ [Part.queue]) ch = true) : Alters ch s0 (State.advanceHead s q) := by
  unfold State.advanceHead
  try dsimp only
  repeat' (
    first
    | with_reducible (first | exact Alters.refl _ _ | apply Alters.ite | assumption | apply State.freshHead_alters |
                            apply State.passHead_alters | apply State.showFault_alters)
    | exact Part.le_trans (by decide) hc
    | (refine (?_ : Part.le _ _ = true); decide)
    | intro _
    | with_reducible (first | rfl)
    | split
    | dsimp only
    | simp only [id_eq]
  )

theorem State.goPast_alters {s : State} {q : Nat} {ch : List Part} {s0 : State} (h0 : Alters ch s0 s) (hc : Part.le
    (Part.err ++ [Part.queue]) ch = true) : Alters ch s0 (State.goPast s q) := by
  unfold State.goPast
  try dsimp only
  repeat' (
    first
    | with_reducible (first | exact Alters.refl _ _ | apply Alters.ite | assumption |
                          apply State.freshHead_alters | apply State.passIssued_alters | apply State.showFault_alters)
    | exact Part.le_trans (by decide) hc
    | (refine (?_ : Part.le _ _ = true); decide)
    | intro _
    | with_reducible (first | rfl)
    | split
    | dsimp only
    | simp only [id_eq]
  )

theorem State.passDone_alters {s : State} {q n : Nat} {ch : List Part} {s0 : State} (h0 : Alters ch s0 s) (hc :
    Part.le [.cells, .queue] ch = true) : Alters ch s0 (State.passDone s q n) := by
  induction n generalizing s q with
  | zero => 
    unfold State.passDone
    try dsimp only
    repeat' (
    first
    | with_reducible (first | exact Alters.refl _ _ | apply Alters.ite | assumption | apply State.onQ_alters |
                            apply State.wr_alters)
    | exact Part.le_trans (by decide) hc
    | (refine (?_ : Part.le _ _ = true); decide)
    | intro _
    | with_reducible (first | rfl)
    | split
    | dsimp only
    | simp only [id_eq]
    )
  | succ n_ ih_ => 
    unfold State.passDone
    try dsimp only
    repeat' (
    first
    | with_reducible (first | apply ih_ | exact Alters.refl _ _ | apply Alters.ite | assumption |
                            apply State.onQ_alters | apply State.wr_alters)
    | exact Part.le_trans (by decide) hc
    | (refine (?_ : Part.le _ _ = true); decide)
    | intro _
    | with_reducible (first | rfl)
    | split
    | dsimp only
    | simp only [id_eq]
    )

theorem State.finish_alters {s : State} {q i : Nat} {ch : List Part} {s0 : State} (h0 : Alters ch s0 s) (hc : Part.le
    [.cells, .queue] ch = true) : Alters ch s0 (State.finish s q i) := by
  unfold State.finish
  try dsimp only
  repeat' (
    first
    | with_reducible (first | exact Alters.refl _ _ | apply Alters.ite | assumption | apply State.onQ_alters |
                            apply State.passDone_alters)
    | exact Part.le_trans (by decide) hc
    | (refine (?_ : Part.le _ _ = true); decide)
    | intro _
    | with_reducible (first | rfl)
    | split
    | dsimp only
    | simp only [id_eq]
  )

theorem State.mxIdle_alters {s : State} {t : Nat} {ch : List Part} {s0 : State} (h0 : Alters ch s0 s) (hc : Part.le
    [.cells] ch = true) : Alters ch s0 (State.mxIdle s t) := by
  unfold State.mxIdle
  try dsimp only
  repeat' (
    first
    | with_reducible (first | exact Alters.refl _ _ | apply Alters.ite | assumption | apply State.wr_alters)
    | exact Part.le_trans (by decide) hc
    | (refine (?_ : Part.le _ _ = true); decide)
    | intro _
    | with_reducible (first | rfl)
    | split
    | dsimp only
    | simp only [id_eq]
  )

theorem State.complete_alters {s : State} {q : Nat} {f : Flight} {ch : List Part} {s0 : State} (h0 : Alters ch s0 s)
    (hc : Part.le (Part.err ++ [Part.queue, Part.sig, Part.nose]) ch = true) : Alters ch s0 (State.complete s q f) := by
  unfold State.complete
  try dsimp only
  repeat' (
    first
    | with_reducible (first | exact Alters.refl _ _ | apply Alters.ite | assumption | apply Alters.foldl |
                            apply State.addCtr_alters | apply State.bump_alters | apply State.finish_alters |
                            apply State.irq_alters | apply State.mxIdle_alters | apply State.wr_alters |
                            apply Alters.foldl1)
    | exact Part.le_trans (by decide) hc
    | (refine (?_ : Part.le _ _ = true); decide)
    | intro _
    | with_reducible (first | rfl)
    | split
    | dsimp only
    | simp only [id_eq]
  )

theorem State.faultCmd_alters {s : State} {q i tag : Nat} {e : Err} {own : Bool} {ch : List Part} {s0 : State} (h0 :
    Alters ch s0 s) (hc : Part.le (Part.err ++ [Part.queue]) ch = true) : Alters ch s0 (State.faultCmd s q i tag e own) :=
    by
  unfold State.faultCmd
  try dsimp only
  repeat' (
    first
    | with_reducible (first | exact Alters.refl _ _ | apply Alters.ite | assumption | apply Alters.foldl |
                            apply State.mxIdle_alters | apply State.onQ_alters | apply State.showFault_alters |
                            apply Alters.foldl1)
    | exact Part.le_trans (by decide) hc
    | (refine (?_ : Part.le _ _ = true); decide)
    | intro _
    | with_reducible (first | rfl)
    | split
    | dsimp only
    | simp only [id_eq]
  )

theorem State.faultHeadBy_alters {s : State} {q e : Nat} {err : Err} {own : Bool} {ch : List Part} {s0 : State} (h0 :
    Alters ch s0 s) (hc : Part.le (Part.err ++ [Part.queue]) ch = true) : Alters ch s0 (State.faultHeadBy s q e err
    own) := by
  unfold State.faultHeadBy
  try dsimp only
  repeat' (
    first
    | with_reducible (first | exact Alters.refl _ _ | apply Alters.ite | assumption |
                          apply State.advanceHead_alters | apply State.onQ_alters)
    | exact Part.le_trans (by decide) hc
    | (refine (?_ : Part.le _ _ = true); decide)
    | intro _
    | with_reducible (first | rfl)
    | split
    | dsimp only
    | simp only [id_eq]
  )

theorem State.faultHead_alters {s : State} {q e : Nat} {err : Err} {ch : List Part} {s0 : State} (h0 : Alters ch s0 s)
    (hc : Part.le (Part.err ++ [Part.queue]) ch = true) : Alters ch s0 (State.faultHead s q e err) := by
  unfold State.faultHead
  try dsimp only
  repeat' (
    first
    | with_reducible (first | exact Alters.refl _ _ | apply Alters.ite | assumption |
                          apply State.faultHeadBy_alters)
    | exact Part.le_trans (by decide) hc
    | (refine (?_ : Part.le _ _ = true); decide)
    | intro _
    | with_reducible (first | rfl)
    | split
    | dsimp only
    | simp only [id_eq]
  )

theorem State.faultTile_alters {s : State} {q e t : Nat} {err : Err} {ch : List Part} {s0 : State} (h0 : Alters ch s0
    s) (hc : Part.le (Part.err ++ [Part.queue]) ch = true) : Alters ch s0 (State.faultTile s q e t err) := by
  unfold State.faultTile
  try dsimp only
  repeat' (
    first
    | with_reducible (first | exact Alters.refl _ _ | apply Alters.ite | assumption |
                          apply State.faultHeadBy_alters | apply State.raise_alters)
    | exact Part.le_trans (by decide) hc
    | (refine (?_ : Part.le _ _ = true); decide)
    | intro _
    | with_reducible (first | rfl)
    | split
    | dsimp only
    | simp only [id_eq]
  )

theorem State.issue_alters {s : State} {q : Nat} {f : Flight} {ch : List Part} {s0 : State} (h0 : Alters ch s0 s) (hc
    : Part.le (Part.err ++ [Part.queue]) ch = true) : Alters ch s0 (State.issue s q f) := by
  unfold State.issue
  try dsimp only
  repeat' (
    first
    | with_reducible (first | exact Alters.refl _ _ | apply Alters.ite | assumption | apply State.advanceHead_alters |
                            apply State.bump_alters | apply State.onQ_alters)
    | exact Part.le_trans (by decide) hc
    | (refine (?_ : Part.le _ _ = true); decide)
    | intro _
    | with_reducible (first | rfl)
    | split
    | dsimp only
    | simp only [id_eq]
  )

theorem State.onFlight_alters {s : State} {q i : Nat} {g : Flight → Flight} {ch : List Part} {s0 : State} (h0 : Alters
    ch s0 s) (hc : Part.le [.queue] ch = true) : Alters ch s0 (State.onFlight s q i g) := by
  unfold State.onFlight
  try dsimp only
  repeat' (
    first
    | with_reducible (first | exact Alters.refl _ _ | apply Alters.ite | assumption | apply State.onQ_alters)
    | exact Part.le_trans (by decide) hc
    | (refine (?_ : Part.le _ _ = true); decide)
    | intro _
    | with_reducible (first | rfl)
    | split
    | dsimp only
    | simp only [id_eq]
  )

theorem State.settle_alters {s : State} {q i : Nat} {ch : List Part} {s0 : State} (h0 : Alters ch s0 s) (hc : Part.le
    (Part.err ++ [Part.queue, Part.sig, Part.nose]) ch = true) : Alters ch s0 (State.settle s q i) := by
  unfold State.settle
  try dsimp only
  repeat' (
    first
    | with_reducible (first | exact Alters.refl _ _ | apply Alters.ite | assumption |
                          apply State.complete_alters | apply State.faultCmd_alters)
    | exact Part.le_trans (by decide) hc
    | (refine (?_ : Part.le _ _ = true); decide)
    | intro _
    | with_reducible (first | rfl)
    | split
    | dsimp only
    | simp only [id_eq]
  )

theorem State.endCommands_alters {s : State} {c : Flight → Bool} {e : Err} {ch : List Part} {s0 : State} (h0 : Alters
    ch s0 s) (hc : Part.le (Part.err ++ [Part.queue, Part.sig, Part.nose]) ch = true) : Alters ch s0 (State.endCommands s c e) :=
    by
  unfold State.endCommands
  try dsimp only
  repeat' (
    first
    | with_reducible (first | exact Alters.refl _ _ | apply Alters.ite | assumption | apply Alters.foldl |
                            apply State.flightErr_alters | apply State.settle_alters | apply Alters.foldl1)
    | exact Part.le_trans (by decide) hc
    | (refine (?_ : Part.le _ _ = true); decide)
    | intro _
    | with_reducible (first | rfl)
    | split
    | dsimp only
    | simp only [id_eq]
  )

theorem State.ringFetch_alters {s : State} {q i : Nat} {ch : List Part} {s0 : State} (h0 : Alters ch s0 s) (hc :
    Part.le (Part.err ++ [Part.nose, Part.host]) ch = true) : Alters ch s0 (State.ringFetch s q i) := by
  unfold State.ringFetch
  try dsimp only
  repeat' (
    first
    | with_reducible (first | exact Alters.refl _ _ | apply Alters.ite | assumption |
                          apply State.hostFail_alters | apply State.hostSeen_alters |
                          apply Alters.of_pair (by assumption) | apply Alters.ofGiven)
    | exact Part.le_trans (by decide) hc
    | (refine (?_ : Part.le _ _ = true); decide)
    | intro _
    | with_reducible (first | rfl)
    | split
    | dsimp only
    | simp only [id_eq]
  )

theorem State.issueHead_alters {s : State} {q : Nat} {want : Nat → Bool} {run : State → Nat → Nat → State} {ch : List
    Part} {s0 : State} (h0 : Alters ch s0 s) (hrun : ∀ {z0} {u0 u1 u2}, Alters ch z0 u0 → Alters ch z0 (run u0 u1 u2))
    (hc : Part.le (Part.err ++ [Part.queue, Part.nose, Part.host]) ch = true) : Alters ch s0 (State.issueHead s q want
    run) := by
  unfold State.issueHead
  try dsimp only
  repeat' (
    first
    | with_reducible (first | exact Alters.refl _ _ | apply Alters.ite | assumption | apply hrun |
                          apply State.faultHead_alters | apply State.ringFetch_alters)
    | exact Part.le_trans (by decide) hc
    | (refine (?_ : Part.le _ _ = true); decide)
    | intro _
    | with_reducible (first | rfl)
    | split
    | dsimp only
    | simp only [id_eq]
  )

theorem execCommandComplete_alters {q : Fin 64} {i : Nat} {s : State} {t0} (e : execCommandComplete q i s = .next t0)
    : Alters (Part.err ++ [Part.queue, Part.sig, Part.nose]) s t0 := by
  unfold execCommandComplete at e
  try dsimp only at e
  repeat' split at e
  all_goals (injection e with e; subst e)
  all_goals try dsimp only
  repeat' (
    first
    | with_reducible (first | exact Alters.refl _ _ | apply Alters.ite | assumption | apply State.settle_alters)
    | exact Alters.refl _ _
    | (refine (?_ : Part.le _ _ = true); decide)
    | intro _
    | with_reducible (first | rfl)
    | split
    | dsimp only
    | simp only [id_eq]
  )

theorem State.queueEnable_alters {s : State} {q : Nat} {ch : List Part} {s0 : State} (h0 : Alters ch s0 s) (hc :
    Part.le (Part.err ++ [Part.queue]) ch = true) : Alters ch s0 (State.queueEnable s q) := by
  unfold State.queueEnable
  try dsimp only
  repeat' (
    first
    | with_reducible (first | exact Alters.refl _ _ | apply Alters.ite | assumption | apply State.freshHead_alters |
                            apply State.raise_alters | apply State.wr_alters)
    | exact Part.le_trans (by decide) hc
    | (refine (?_ : Part.le _ _ = true); decide)
    | intro _
    | with_reducible (first | rfl)
    | split
    | dsimp only
    | simp only [id_eq]
  )

theorem execQueueEnable_alters {p : Path} {q : Fin 64} {s : State} {t0} (e : execQueueEnable p q s = .next t0) :
    Alters (Part.err ++ [Part.wbuf, Part.queue]) s t0 := by
  unfold execQueueEnable at e
  try dsimp only at e
  repeat' split at e
  all_goals (injection e with e; subst e)
  all_goals try dsimp only
  repeat' (
    first
    | with_reducible (first | exact Alters.refl _ _ | apply Alters.ite | assumption | apply State.onWrite_alters |
                            apply State.queueEnable_alters)
    | exact Alters.refl _ _
    | (refine (?_ : Part.le _ _ = true); decide)
    | intro _
    | with_reducible (first | rfl)
    | split
    | dsimp only
    | simp only [id_eq]
  )

theorem State.abandonOne_alters {s : State} {q i e : Nat} {ch : List Part} {s0 : State} (h0 : Alters ch s0 s) (hc :
    Part.le (Part.err ++ [Part.queue, Part.sig, Part.nose]) ch = true) : Alters ch s0 (State.abandonOne s q i e) := by
  unfold State.abandonOne
  try dsimp only
  repeat' (
    first
    | with_reducible (first | exact Alters.refl _ _ | apply Alters.ite | assumption |
                          apply State.addCtr_alters | apply State.advanceHead_alters | apply State.bump_alters |
                          apply State.finish_alters | apply State.onQ_alters)
    | exact Part.le_trans (by decide) hc
    | (refine (?_ : Part.le _ _ = true); decide)
    | intro _
    | with_reducible (first | rfl)
    | split
    | dsimp only
    | simp only [id_eq]
  )

theorem State.abandonFrom_alters {s : State} {q i n : Nat} {ch : List Part} {s0 : State} (h0 : Alters ch s0 s) (hc :
    Part.le (Part.err ++ [Part.queue, Part.sig, Part.nose]) ch = true) : Alters ch s0 (State.abandonFrom s q i n) :=
    by
  induction n generalizing s q i with
  | zero =>
    unfold State.abandonFrom
    try dsimp only
    repeat' (
      first
      | with_reducible (first | exact Alters.refl _ _ | apply Alters.ite | assumption |
                            apply State.abandonOne_alters)
      | exact Part.le_trans (by decide) hc
      | (refine (?_ : Part.le _ _ = true); decide)
      | intro _
      | with_reducible (first | rfl)
      | split
      | dsimp only
      | simp only [id_eq]
    )
  | succ n_ ih_ =>
    unfold State.abandonFrom
    try dsimp only
    repeat' (
      first
      | with_reducible (first | apply ih_ | exact Alters.refl _ _ | apply Alters.ite | assumption |
                            apply State.abandonOne_alters)
      | exact Part.le_trans (by decide) hc
      | (refine (?_ : Part.le _ _ = true); decide)
      | intro _
      | with_reducible (first | rfl)
      | split
      | dsimp only
      | simp only [id_eq]
    )

theorem State.abandon_alters {s : State} {q : Nat} {ch : List Part} {s0 : State} (h0 : Alters ch s0 s) (hc : Part.le
    (Part.err ++ [Part.queue, Part.sig, Part.nose]) ch = true) : Alters ch s0 (State.abandon s q) := by
  unfold State.abandon
  try dsimp only
  repeat' (
    first
    | with_reducible (first | exact Alters.refl _ _ | apply Alters.ite | assumption | apply State.abandonFrom_alters)
    | exact Part.le_trans (by decide) hc
    | (refine (?_ : Part.le _ _ = true); decide)
    | intro _
    | with_reducible (first | rfl)
    | split
    | dsimp only
    | simp only [id_eq]
  )

theorem State.tailWrite_alters {s : State} {q v : Nat} {ch : List Part} {s0 : State} (h0 : Alters ch s0 s) (hc :
    Part.le (Part.err ++ [Part.queue, Part.sig, Part.nose]) ch = true) : Alters ch s0 (State.tailWrite s q v) := by
  unfold State.tailWrite
  try dsimp only
  repeat' (
    first
    | with_reducible (first | exact Alters.refl _ _ | apply Alters.ite | assumption | apply State.abandon_alters |
                            apply State.freshHead_alters | apply State.raise_alters | apply State.wr_alters)
    | exact Part.le_trans (by decide) hc
    | (refine (?_ : Part.le _ _ = true); decide)
    | intro _
    | with_reducible (first | rfl)
    | split
    | dsimp only
    | simp only [id_eq]
  )

theorem State.doorbell_alters {s : State} {p : Path} {q v : Nat} {ch : List Part} {s0 : State} (h0 : Alters ch s0 s)
    (hc : Part.le (Part.err ++ [Part.queue, Part.sig, Part.nose]) ch = true) : Alters ch s0 (State.doorbell s p q v)
    := by
  unfold State.doorbell
  try dsimp only
  repeat' (
    first
    | with_reducible (first | exact Alters.refl _ _ | apply Alters.ite | assumption |
                          apply State.countRx_alters | apply State.tailWrite_alters | apply State.when_alters)
    | exact Part.le_trans (by decide) hc
    | (refine (?_ : Part.le _ _ = true); decide)
    | intro _
    | with_reducible (first | rfl)
    | split
    | dsimp only
    | simp only [id_eq]
  )

theorem execTailWrite_alters {p : Path} {q : Fin 64} {v : BitVec 32} {doorbell : Bool} {s : State} {t0} (e :
    execTailWrite p q v doorbell s = .next t0) : Alters (Part.err ++ [Part.wbuf, Part.queue, Part.sig, Part.nose]) s
    t0 := by
  unfold execTailWrite at e
  try dsimp only at e
  repeat' split at e
  all_goals (injection e with e; subst e)
  all_goals try dsimp only
  repeat' (
    first
    | with_reducible (first | exact Alters.refl _ _ | apply Alters.ite | assumption |
                          apply State.doorbell_alters | apply State.onWrite_alters | apply State.tailWrite_alters)
    | exact Alters.refl _ _
    | (refine (?_ : Part.le _ _ = true); decide)
    | intro _
    | with_reducible (first | rfl)
    | split
    | dsimp only
    | simp only [id_eq]
  )

theorem State.setPause_alters {s : State} {q : Nat} {b : Bool} {ch : List Part} {s0 : State} (h0 : Alters ch s0 s) (hc
    : Part.le [.cells] ch = true) : Alters ch s0 (State.setPause s q b) := by
  unfold State.setPause
  try dsimp only
  repeat' (
    first
    | with_reducible (first | exact Alters.refl _ _ | apply Alters.ite | assumption | apply State.flag_alters |
                            apply State.wr_alters)
    | exact Part.le_trans (by decide) hc
    | (refine (?_ : Part.le _ _ = true); decide)
    | intro _
    | with_reducible (first | rfl)
    | split
    | dsimp only
    | simp only [id_eq]
  )

theorem execPause_alters {p : Path} {q : Fin 64} {b : Bool} {s : State} {t0} (e : execPause p q b s = .next t0) :
    Alters (Part.err ++ [Part.wbuf]) s t0 := by
  unfold execPause at e
  try dsimp only at e
  repeat' split at e
  all_goals (injection e with e; subst e)
  all_goals try dsimp only
  repeat' (
    first
    | with_reducible (first | exact Alters.refl _ _ | apply Alters.ite | assumption | apply State.onWrite_alters |
                            apply State.setPause_alters)
    | exact Alters.refl _ _
    | (refine (?_ : Part.le _ _ = true); decide)
    | intro _
    | with_reducible (first | rfl)
    | split
    | dsimp only
    | simp only [id_eq]
  )

theorem State.clearFault_alters {s : State} {q i : Nat} {ch : List Part} {s0 : State} (h0 : Alters ch s0 s) (hc :
    Part.le [.queue] ch = true) : Alters ch s0 (State.clearFault s q i) := by
  unfold State.clearFault
  try dsimp only
  repeat' (
    first
    | with_reducible (first | exact Alters.refl _ _ | apply Alters.ite | assumption | apply State.onQ_alters)
    | exact Part.le_trans (by decide) hc
    | (refine (?_ : Part.le _ _ = true); decide)
    | intro _
    | with_reducible (first | rfl)
    | split
    | dsimp only
    | simp only [id_eq]
  )

theorem State.resume_alters {s : State} {q op : Nat} {ch : List Part} {s0 : State} (h0 : Alters ch s0 s) (hc : Part.le
    (Part.err ++ [Part.queue, Part.sig, Part.nose]) ch = true) : Alters ch s0 (State.resume s q op) := by
  unfold State.resume
  try dsimp only
  repeat' (
    first
    | with_reducible (first | exact Alters.refl _ _ | apply Alters.ite | assumption |
                          apply State.addCtr_alters | apply State.clearFault_alters | apply State.finish_alters |
                          apply State.freshHead_alters | apply State.goPast_alters | apply State.onQ_alters |
                          apply State.raise_alters | apply State.wr_alters)
    | exact Part.le_trans (by decide) hc
    | (refine (?_ : Part.le _ _ = true); decide)
    | intro _
    | with_reducible (first | rfl)
    | split
    | dsimp only
    | simp only [id_eq]
  )

theorem execRetry_alters {p : Path} {q : Fin 64} {s : State} {t0} (e : execRetry p q s = .next t0) : Alters (Part.err
    ++ [Part.wbuf, Part.queue, Part.sig, Part.nose]) s t0 := by
  unfold execRetry at e
  try dsimp only at e
  repeat' split at e
  all_goals (injection e with e; subst e)
  all_goals try dsimp only
  repeat' (
    first
    | with_reducible (first | exact Alters.refl _ _ | apply Alters.ite | assumption | apply State.onWrite_alters |
                            apply State.resume_alters | apply State.wr_alters)
    | exact Alters.refl _ _
    | (refine (?_ : Part.le _ _ = true); decide)
    | intro _
    | with_reducible (first | rfl)
    | split
    | dsimp only
    | simp only [id_eq]
  )

theorem execSkip_alters {p : Path} {q : Fin 64} {s : State} {t0} (e : execSkip p q s = .next t0) : Alters (Part.err ++
    [Part.wbuf, Part.queue, Part.sig, Part.nose]) s t0 := by
  unfold execSkip at e
  try dsimp only at e
  repeat' split at e
  all_goals (injection e with e; subst e)
  all_goals try dsimp only
  repeat' (
    first
    | with_reducible (first | exact Alters.refl _ _ | apply Alters.ite | assumption | apply State.onWrite_alters |
                            apply State.resume_alters | apply State.wr_alters)
    | exact Alters.refl _ _
    | (refine (?_ : Part.le _ _ = true); decide)
    | intro _
    | with_reducible (first | rfl)
    | split
    | dsimp only
    | simp only [id_eq]
  )

theorem execSkipSignal_alters {p : Path} {q : Fin 64} {s : State} {t0} (e : execSkipSignal p q s = .next t0) : Alters
    (Part.err ++ [Part.wbuf, Part.queue, Part.sig, Part.nose]) s t0 := by
  unfold execSkipSignal at e
  try dsimp only at e
  repeat' split at e
  all_goals (injection e with e; subst e)
  all_goals try dsimp only
  repeat' (
    first
    | with_reducible (first | exact Alters.refl _ _ | apply Alters.ite | assumption | apply State.onWrite_alters |
                            apply State.resume_alters | apply State.wr_alters)
    | exact Alters.refl _ _
    | (refine (?_ : Part.le _ _ = true); decide)
    | intro _
    | with_reducible (first | rfl)
    | split
    | dsimp only
    | simp only [id_eq]
  )

theorem State.countMiss_alters {s : State} {q i : Nat} {ch : List Part} {s0 : State} (h0 : Alters ch s0 s) (hc :
    Part.le Part.err ch = true) : Alters ch s0 (State.countMiss s q i) := by
  unfold State.countMiss
  try dsimp only
  repeat' (
    first
    | with_reducible (first | exact Alters.refl _ _ | apply Alters.ite | assumption | apply State.bump_alters |
                            apply State.irq_alters | apply State.raise_alters | apply State.wr_alters)
    | exact Part.le_trans (by decide) hc
    | (refine (?_ : Part.le _ _ = true); decide)
    | intro _
    | with_reducible (first | rfl)
    | split
    | dsimp only
    | simp only [id_eq]
  )

theorem State.missAct_alters {s : State} {q i : Nat} {ch : List Part} {s0 : State} (h0 : Alters ch s0 s) (hc : Part.le
    (Part.err ++ [Part.queue, Part.sig, Part.nose]) ch = true) : Alters ch s0 (State.missAct s q i) := by
  unfold State.missAct
  try dsimp only
  repeat' (
    first
    | with_reducible (first | exact Alters.refl _ _ | apply Alters.ite | assumption |
                          apply State.abandon_alters | apply State.onQ_alters | apply State.wr_alters)
    | exact Part.le_trans (by decide) hc
    | (refine (?_ : Part.le _ _ = true); decide)
    | intro _
    | with_reducible (first | rfl)
    | split
    | dsimp only
    | simp only [id_eq]
  )

theorem State.miss_alters {s : State} {q i : Nat} {ch : List Part} {s0 : State} (h0 : Alters ch s0 s) (hc : Part.le
    (Part.err ++ [Part.queue, Part.sig, Part.nose]) ch = true) : Alters ch s0 (State.miss s q i) := by
  unfold State.miss
  try dsimp only
  repeat' (
    first
    | with_reducible (first | exact Alters.refl _ _ | apply Alters.ite | assumption |
                          apply State.countMiss_alters | apply State.missAct_alters | apply State.onFlight_alters |
                          apply State.onQ_alters)
    | exact Part.le_trans (by decide) hc
    | (refine (?_ : Part.le _ _ = true); decide)
    | intro _
    | with_reducible (first | rfl)
    | split
    | dsimp only
    | simp only [id_eq]
  )

theorem execDeadlineMiss_alters {q : Fin 64} {i : Nat} {s : State} {t0} (e : execDeadlineMiss q i s = .next t0) :
    Alters (Part.err ++ [Part.queue, Part.sig, Part.nose]) s t0 := by
  unfold execDeadlineMiss at e
  try dsimp only at e
  repeat' split at e
  all_goals (injection e with e; subst e)
  all_goals try dsimp only
  repeat' (
    first
    | with_reducible (first | exact Alters.refl _ _ | apply Alters.ite | assumption |
                          apply State.miss_alters)
    | exact Alters.refl _ _
    | (refine (?_ : Part.le _ _ = true); decide)
    | intro _
    | with_reducible (first | rfl)
    | split
    | dsimp only
    | simp only [id_eq]
  )

theorem execWaitLimit_alters {q : Fin 64} {s : State} {t0} (e : execWaitLimit q s = .next t0) : Alters (Part.err ++
    [Part.queue]) s t0 := by
  unfold execWaitLimit at e
  try dsimp only at e
  repeat' split at e
  all_goals (injection e with e; subst e)
  all_goals try dsimp only
  repeat' (
    first
    | with_reducible (first | exact Alters.refl _ _ | apply Alters.ite | assumption | apply State.irq_alters |
                            apply State.onQ_alters | apply State.raise_alters)
    | exact Alters.refl _ _
    | (refine (?_ : Part.le _ _ = true); decide)
    | intro _
    | with_reducible (first | rfl)
    | split
    | dsimp only
    | simp only [id_eq]
  )

theorem State.qalloc_alters {s : State} {p : Path} {part : Nat} {ch : List Part} {s0 : State} (h0 : Alters ch s0 s)
    (hc : Part.le (Part.err ++ [Part.pathVal]) ch = true) : Alters ch s0 (State.qalloc s p part) := by
  unfold State.qalloc
  try dsimp only
  repeat' (
    first
    | with_reducible (first | exact Alters.refl _ _ | apply Alters.ite | assumption | apply State.pathWr_alters |
                            apply State.raise_alters | apply State.wr_alters)
    | exact Part.le_trans (by decide) hc
    | (refine (?_ : Part.le _ _ = true); decide)
    | intro _
    | with_reducible (first | rfl)
    | split
    | dsimp only
    | simp only [id_eq]
  )

theorem execQalloc_alters {p : Path} {part : Fin 8} {s : State} {t0} (e : execQalloc p part s = .next t0) : Alters
    (Part.err ++ [Part.wbuf, Part.pathVal]) s t0 := by
  unfold execQalloc at e
  try dsimp only at e
  repeat' split at e
  all_goals (injection e with e; subst e)
  all_goals try dsimp only
  repeat' (
    first
    | with_reducible (first | exact Alters.refl _ _ | apply Alters.ite | assumption | apply State.onWrite_alters |
                            apply State.qalloc_alters)
    | exact Alters.refl _ _
    | (refine (?_ : Part.le _ _ = true); decide)
    | intro _
    | with_reducible (first | rfl)
    | split
    | dsimp only
    | simp only [id_eq]
  )

theorem State.showHold_alters {s : State} {p : Nat} {ch : List Part} {s0 : State} (h0 : Alters ch s0 s) (hc : Part.le
    [.cells] ch = true) : Alters ch s0 (State.showHold s p) := by
  unfold State.showHold
  try dsimp only
  repeat' (
    first
    | with_reducible (first | exact Alters.refl _ _ | apply Alters.ite | assumption | apply Alters.foldl |
                            apply State.wr_alters | apply Alters.foldl1)
    | exact Part.le_trans (by decide) hc
    | (refine (?_ : Part.le _ _ = true); decide)
    | intro _
    | with_reducible (first | rfl)
    | split
    | dsimp only
    | simp only [id_eq]
  )

theorem State.dropHold_alters {s : State} {q : Nat} {ch : List Part} {s0 : State} (h0 : Alters ch s0 s) (hc : Part.le
    [.cells] ch = true) : Alters ch s0 (State.dropHold s q) := by
  unfold State.dropHold
  try dsimp only
  repeat' (
    first
    | with_reducible (first | exact Alters.refl _ _ | apply Alters.ite | assumption |
                          apply State.showHold_alters)
    | exact Part.le_trans (by decide) hc
    | (refine (?_ : Part.le _ _ = true); decide)
    | intro _
    | with_reducible (first | rfl)
    | split
    | dsimp only
    | simp only [id_eq]
  )

theorem State.qfree_alters {s : State} {q : Nat} {ch : List Part} {s0 : State} (h0 : Alters ch s0 s) (hc : Part.le
    (Part.err ++ [Part.queue]) ch = true) : Alters ch s0 (State.qfree s q) := by
  unfold State.qfree
  try dsimp only
  repeat' (
    first
    | with_reducible (first | exact Alters.refl _ _ | apply Alters.ite | assumption | apply Alters.foldl |
                            apply State.raise_alters | apply State.setQ_alters | apply State.wr_alters |
                            apply Alters.foldl1)
    | exact Part.le_trans (by decide) hc
    | (refine (?_ : Part.le _ _ = true); decide)
    | intro _
    | with_reducible (first | rfl)
    | split
    | dsimp only
    | simp only [id_eq]
  )

theorem execQfree_alters {p : Path} {q : Fin 64} {s : State} {t0} (e : execQfree p q s = .next t0) : Alters (Part.err
    ++ [Part.wbuf, Part.queue]) s t0 := by
  unfold execQfree at e
  try dsimp only at e
  repeat' split at e
  all_goals (injection e with e; subst e)
  all_goals try dsimp only
  repeat' (
    first
    | with_reducible (first | exact Alters.refl _ _ | apply Alters.ite | assumption | apply State.onWrite_alters |
                            apply State.qfree_alters)
    | exact Alters.refl _ _
    | (refine (?_ : Part.le _ _ = true); decide)
    | intro _
    | with_reducible (first | rfl)
    | split
    | dsimp only
    | simp only [id_eq]
  )

theorem State.calloc_alters {s : State} {p : Path} {part count : Nat} {ch : List Part} {s0 : State} (h0 : Alters ch s0
    s) (hc : Part.le (Part.err ++ [Part.sig, Part.pathVal]) ch = true) : Alters ch s0 (State.calloc s p part count) :=
    by
  unfold State.calloc
  try dsimp only
  repeat' (
    first
    | with_reducible (first | exact Alters.refl _ _ | apply Alters.ite | assumption |
                          apply Alters.foldl | apply State.mirrorSteps_alters | apply State.pathWr_alters |
                          apply State.raise_alters | apply State.wr_alters | apply Alters.foldl1)
    | exact Part.le_trans (by decide) hc
    | (refine (?_ : Part.le _ _ = true); decide)
    | intro _
    | with_reducible (first | rfl)
    | split
    | dsimp only
    | simp only [id_eq]
    | with_reducible (first | apply Alters.upd_sig)
  )

theorem execCalloc_alters {p : Path} {part : Fin 8} {count : BitVec 7} {s : State} {t0} (e : execCalloc p part count s
    = .next t0) : Alters (Part.err ++ [Part.wbuf, Part.sig, Part.pathVal]) s t0 := by
  unfold execCalloc at e
  try dsimp only at e
  repeat' split at e
  all_goals (injection e with e; subst e)
  all_goals try dsimp only
  repeat' (
    first
    | with_reducible (first | exact Alters.refl _ _ | apply Alters.ite | assumption | apply State.calloc_alters |
                            apply State.onWrite_alters)
    | exact Alters.refl _ _
    | (refine (?_ : Part.le _ _ = true); decide)
    | intro _
    | with_reducible (first | rfl)
    | split
    | dsimp only
    | simp only [id_eq]
  )

theorem State.cfree_alters {s : State} {base count : Nat} {ch : List Part} {s0 : State} (h0 : Alters ch s0 s) (hc :
    Part.le (Part.err ++ [Part.sig]) ch = true) : Alters ch s0 (State.cfree s base count) := by
  unfold State.cfree
  try dsimp only
  repeat' (
    first
    | with_reducible (first | exact Alters.refl _ _ | apply Alters.ite | assumption | apply Alters.foldl |
                            apply State.raise_alters | apply State.wr_alters | apply Alters.foldl1)
    | exact Part.le_trans (by decide) hc
    | (refine (?_ : Part.le _ _ = true); decide)
    | intro _
    | with_reducible (first | rfl)
    | split
    | dsimp only
    | simp only [id_eq]
    | with_reducible (first | apply Alters.upd_sig)
  )

theorem execCfree_alters {p : Path} {base : BitVec 12} {count : BitVec 7} {s : State} {t0} (e : execCfree p base count
    s = .next t0) : Alters (Part.err ++ [Part.wbuf, Part.sig]) s t0 := by
  unfold execCfree at e
  try dsimp only at e
  repeat' split at e
  all_goals (injection e with e; subst e)
  all_goals try dsimp only
  repeat' (
    first
    | with_reducible (first | exact Alters.refl _ _ | apply Alters.ite | assumption | apply State.cfree_alters |
                            apply State.onWrite_alters)
    | exact Alters.refl _ _
    | (refine (?_ : Part.le _ _ = true); decide)
    | intro _
    | with_reducible (first | rfl)
    | split
    | dsimp only
    | simp only [id_eq]
  )

theorem State.ctrOp_alters {s : State} {i op : Nat} {ch : List Part} {s0 : State} (h0 : Alters ch s0 s) (hc : Part.le
    (Part.err ++ [Part.queue, Part.sig, Part.nose]) ch = true) : Alters ch s0 (State.ctrOp s i op) := by
  unfold State.ctrOp
  try dsimp only
  repeat' (
    first
    | with_reducible (first | exact Alters.refl _ _ | apply Alters.ite | assumption | apply State.addCtr_alters |
                            apply State.setCtr_alters | apply State.wr_alters)
    | exact Part.le_trans (by decide) hc
    | (refine (?_ : Part.le _ _ = true); decide)
    | intro _
    | with_reducible (first | rfl)
    | split
    | dsimp only
    | simp only [id_eq]
  )

theorem execCtrAdd_alters {p : Path} {i : BitVec 12} {s : State} {t0} (e : execCtrAdd p i s = .next t0) : Alters
    (Part.err ++ [Part.wbuf, Part.queue, Part.sig, Part.nose]) s t0 := by
  unfold execCtrAdd at e
  try dsimp only at e
  repeat' split at e
  all_goals (injection e with e; subst e)
  all_goals try dsimp only
  repeat' (
    first
    | with_reducible (first | exact Alters.refl _ _ | apply Alters.ite | assumption | apply State.ctrOp_alters |
                            apply State.onWrite_alters)
    | exact Alters.refl _ _
    | (refine (?_ : Part.le _ _ = true); decide)
    | intro _
    | with_reducible (first | rfl)
    | split
    | dsimp only
    | simp only [id_eq]
  )

theorem execCtrSet_alters {p : Path} {i : BitVec 12} {s : State} {t0} (e : execCtrSet p i s = .next t0) : Alters
    (Part.err ++ [Part.wbuf, Part.queue, Part.sig, Part.nose]) s t0 := by
  unfold execCtrSet at e
  try dsimp only at e
  repeat' split at e
  all_goals (injection e with e; subst e)
  all_goals try dsimp only
  repeat' (
    first
    | with_reducible (first | exact Alters.refl _ _ | apply Alters.ite | assumption | apply State.ctrOp_alters |
                            apply State.onWrite_alters)
    | exact Alters.refl _ _
    | (refine (?_ : Part.le _ _ = true); decide)
    | intro _
    | with_reducible (first | rfl)
    | split
    | dsimp only
    | simp only [id_eq]
  )

end Sys2Proof.Machine
end

