-- ==== Sys2Proof/Laws/AltersHostMem.lean ====
section
/-! SUPPORT. What each operation of Machine/HostMem.lean alters. -/

-- One closing tactic serves every lemma here; where a goal needs few of its steps the linters name the rest.
set_option linter.all false
set_option Elab.async false

namespace Sys2Proof.Machine

theorem State.onHost_alters {s : State} {g : HostSt → HostSt} {ch : List Part} {s0 : State} (h0 : Alters ch s0 s) (hc
    : Part.le [.host] ch = true) : Alters ch s0 (State.onHost s g) := by
  unfold State.onHost
  try dsimp only
  repeat' (
    first
    | with_reducible (first | exact Alters.refl _ _ | apply Alters.ite | assumption)
    | exact Part.le_trans (by decide) hc
    | (refine (?_ : Part.le _ _ = true); decide)
    | intro _
    | with_reducible (first | rfl)
    | split
    | dsimp only
    | simp only [id_eq]
    | with_reducible (first | apply Alters.upd_host)
  )

theorem State.queueReq_alters {s : State} {r : HostReq} {ch : List Part} {s0 : State} (h0 : Alters ch s0 s) (hc :
    Part.le [.host] ch = true) : Alters ch s0 (State.queueReq s r) := by
  unfold State.queueReq
  try dsimp only
  repeat' (
    first
    | with_reducible (first | exact Alters.refl _ _ | apply Alters.ite | assumption |
                          apply State.onHost_alters)
    | exact Part.le_trans (by decide) hc
    | (refine (?_ : Part.le _ _ = true); decide)
    | intro _
    | with_reducible (first | rfl)
    | split
    | dsimp only
    | simp only [id_eq]
  )

theorem State.hostPut_alters {s : State} {o : Owner} {stream : Bool} {a : Nat} {bs : List Byte} {ch : List Part} {s0 :
    State} (h0 : Alters ch s0 s) (hc : Part.le (Part.err ++ [Part.queue, Part.nose, Part.host]) ch = true) : Alters ch
    s0 (State.hostPut s o stream a bs).1 := by
  unfold State.hostPut
  try dsimp only
  repeat' (
    first
    | with_reducible (first | exact Alters.refl _ _ | apply Alters.ite | assumption |
                          apply State.hostFail_alters | apply State.onFlight_alters | apply State.queueReq_alters |
                          apply Alters.of_pair (by assumption))
    | exact Part.le_trans (by decide) hc
    | (refine (?_ : Part.le _ _ = true); decide)
    | intro _
    | with_reducible (first | rfl)
    | split
    | dsimp only
    | simp only [id_eq]
  )
theorem State.hostPut_altersP {s : State} {o : Owner} {stream : Bool} {a : Nat} {bs : List Byte} {t0 r0} (e_ :
    State.hostPut s o stream a bs = (t0, r0)) {ch : List Part} {s0 : State} (h0 : Alters ch s0 s) (hc : Part.le
    (Part.err ++ [Part.queue, Part.nose, Part.host]) ch = true) : Alters ch s0 t0 := by
  have h := State.hostPut_alters (s := s) (o := o) (stream := stream) (a := a) (bs := bs) h0  hc
  rw [e_] at h; exact h

theorem State.hostAsk_alters {s : State} {o : Owner} {entry a n : Nat} {ch : List Part} {s0 : State} (h0 : Alters ch
    s0 s) (hc : Part.le [.host] ch = true) : Alters ch s0 (State.hostAsk s o entry a n) := by
  unfold State.hostAsk
  try dsimp only
  repeat' (
    first
    | with_reducible (first | exact Alters.refl _ _ | apply Alters.ite | assumption |
                          apply State.queueReq_alters)
    | exact Part.le_trans (by decide) hc
    | (refine (?_ : Part.le _ _ = true); decide)
    | intro _
    | with_reducible (first | rfl)
    | split
    | dsimp only
    | simp only [id_eq]
  )

theorem State.readIssue_alters {s : State} {o : Option Owner} {p a n : Nat} {ch : List Part} {s0 : State} (h0 : Alters
    ch s0 s) (hc : Part.le (Part.err ++ [Part.mem, Part.nose, Part.power, Part.host]) ch = true) : Alters ch s0
    (State.readIssue s o p a n).1 := by
  unfold State.readIssue
  try dsimp only
  repeat' (
    first
    | with_reducible (first | exact Alters.refl _ _ | apply Alters.ite | assumption |
                          apply State.hostFail_alters | apply State.hostSeen_alters | apply State.memRead_alters |
                          apply Alters.of_pair (by assumption))
    | exact Part.le_trans (by decide) hc
    | (refine (?_ : Part.le _ _ = true); decide)
    | intro _
    | with_reducible (first | rfl)
    | split
    | dsimp only
    | simp only [id_eq]
  )
theorem State.readIssue_altersP {s : State} {o : Option Owner} {p a n : Nat} {t0 r0} (e_ : State.readIssue s o p a n =
    (t0, r0)) {ch : List Part} {s0 : State} (h0 : Alters ch s0 s) (hc : Part.le (Part.err ++ [Part.mem, Part.nose,
    Part.power, Part.host]) ch = true) : Alters ch s0 t0 := by
  have h := State.readIssue_alters (s := s) (o := o) (p := p) (a := a) (n := n) h0  hc
  rw [e_] at h; exact h

theorem State.sendWrite_alters {s : State} {port : Port} {r : HostReq} {n : Nat} {ch : List Part} {s0 : State} (h0 :
    Alters ch s0 s) (hc : Part.le [.cells, .mem, .queue, .host, .out] ch = true) : Alters ch s0 (State.sendWrite s
    port r n) := by
  unfold State.sendWrite
  try dsimp only
  repeat' (
    first
    | with_reducible (first | exact Alters.refl _ _ | apply Alters.ite | assumption |
                          apply State.emit_alters | apply State.hostBytes_alters | apply State.hostWrite_alters |
                          apply State.onFlight_alters | apply State.onHost_alters)
    | exact Part.le_trans (by decide) hc
    | (refine (?_ : Part.le _ _ = true); decide)
    | intro _
    | with_reducible (first | rfl)
    | split
    | dsimp only
    | simp only [id_eq]
  )

theorem State.sendRead_alters {s : State} {port : Port} {r : HostReq} {n : Nat} {ch : List Part} {s0 : State} (h0 :
    Alters ch s0 s) (hc : Part.le [.host, .out] ch = true) : Alters ch s0 (State.sendRead s port r n) := by
  unfold State.sendRead
  try dsimp only
  repeat' (
    first
    | with_reducible (first | exact Alters.refl _ _ | apply Alters.ite | assumption |
                          apply State.emit_alters | apply State.onHost_alters)
    | exact Part.le_trans (by decide) hc
    | (refine (?_ : Part.le _ _ = true); decide)
    | intro _
    | with_reducible (first | rfl)
    | split
    | dsimp only
    | simp only [id_eq]
  )

theorem State.hostTurn_alters {s : State} {port : Port} {ch : List Part} {s0 : State} (h0 : Alters ch s0 s) (hc :
    Part.le [.cells, .mem, .queue, .host, .out] ch = true) : Alters ch s0 (State.hostTurn s port) := by
  unfold State.hostTurn
  try dsimp only
  repeat' (
    first
    | with_reducible (first | exact Alters.refl _ _ | apply Alters.ite | assumption |
                          apply State.onHost_alters | apply State.sendRead_alters | apply State.sendWrite_alters)
    | exact Part.le_trans (by decide) hc
    | (refine (?_ : Part.le _ _ = true); decide)
    | intro _
    | with_reducible (first | rfl)
    | split
    | dsimp only
    | simp only [id_eq]
  )

end Sys2Proof.Machine
end

