-- ==== Sys2Proof/Laws/AltersLink.lean ====
section
/-! SUPPORT. What each operation of Machine/Link.lean alters. -/

-- One closing tactic serves every lemma here; where a goal needs few of its steps the linters name the rest.
set_option linter.all false
set_option Elab.async false

namespace Sys2Proof.Machine

theorem State.onLink_alters {s : State} {k : Nat} {g : LinkSt → LinkSt} {ch : List Part} {s0 : State} (h0 : Alters ch
    s0 s) (hc : Part.le [.fab] ch = true) : Alters ch s0 (State.onLink s k g) := by
  unfold State.onLink
  try dsimp only
  repeat' (
    first
    | with_reducible (first | exact Alters.refl _ _ | apply Alters.ite | assumption)
    | exact Part.le_trans (by decide) hc
    | (refine (?_ : Part.le _ _ = true); decide)
    | intro _
    | with_reducible (first | rfl)
    | split
    | dsimp only
    | simp only [id_eq]
    | with_reducible (first | apply Alters.upd_fab)
  )

theorem State.tallyUp_alters {s : State} {f : Fld} {n : Nat} {ch : List Part} {s0 : State} (h0 : Alters ch s0 s) (hc :
    Part.le [.cells] ch = true) : Alters ch s0 (State.tallyUp s f n) := by
  unfold State.tallyUp
  try dsimp only
  repeat' (
    first
    | with_reducible (first | exact Alters.refl _ _ | apply Alters.ite | assumption | apply State.wr_alters)
    | exact Part.le_trans (by decide) hc
    | (refine (?_ : Part.le _ _ = true); decide)
    | intro _
    | with_reducible (first | rfl)
    | split
    | dsimp only
    | simp only [id_eq]
  )

theorem State.putFrame_alters {s : State} {k : Nat} {f : Frame} {ch : List Part} {s0 : State} (h0 : Alters ch s0 s)
    (hc : Part.le [.cells, .out] ch = true) : Alters ch s0 (State.putFrame s k f) := by
  unfold State.putFrame
  try dsimp only
  repeat' (
    first
    | with_reducible (first | exact Alters.refl _ _ | apply Alters.ite | assumption | apply State.bump_alters |
                            apply State.emit_alters | apply State.tallyUp_alters | apply State.wr_alters)
    | exact Part.le_trans (by decide) hc
    | (refine (?_ : Part.le _ _ = true); decide)
    | intro _
    | with_reducible (first | rfl)
    | split
    | dsimp only
    | simp only [id_eq]
  )

theorem State.emitCredit_alters {s : State} {k c : Nat} {ch : List Part} {s0 : State} (h0 : Alters ch s0 s) (hc :
    Part.le [.out] ch = true) : Alters ch s0 (State.emitCredit s k c) := by
  unfold State.emitCredit
  try dsimp only
  repeat' (
    first
    | with_reducible (first | exact Alters.refl _ _ | apply Alters.ite | assumption | apply State.emit_alters)
    | exact Part.le_trans (by decide) hc
    | (refine (?_ : Part.le _ _ = true); decide)
    | intro _
    | with_reducible (first | rfl)
    | split
    | dsimp only
    | simp only [id_eq]
  )

theorem State.freeCls_alters {s : State} {k c n : Nat} {ch : List Part} {s0 : State} (h0 : Alters ch s0 s) (hc :
    Part.le [.cells, .out] ch = true) : Alters ch s0 (State.freeCls s k c n) := by
  unfold State.freeCls
  try dsimp only
  repeat' (
    first
    | with_reducible (first | exact Alters.refl _ _ | apply Alters.ite | assumption |
                          apply State.emitCredit_alters | apply State.tallyUp_alters)
    | exact Part.le_trans (by decide) hc
    | (refine (?_ : Part.le _ _ = true); decide)
    | intro _
    | with_reducible (first | rfl)
    | split
    | dsimp only
    | simp only [id_eq]
  )

theorem State.freeTransit_alters {s : State} {k : Nat} {f : Frame} {ch : List Part} {s0 : State} (h0 : Alters ch s0 s)
    (hc : Part.le [.cells, .fab, .out] ch = true) : Alters ch s0 (State.freeTransit s k f) := by
  unfold State.freeTransit
  try dsimp only
  repeat' (
    first
    | with_reducible (first | exact Alters.refl _ _ | apply Alters.ite | assumption |
                          apply State.freeCls_alters | apply State.onLink_alters)
    | exact Part.le_trans (by decide) hc
    | (refine (?_ : Part.le _ _ = true); decide)
    | intro _
    | with_reducible (first | rfl)
    | split
    | dsimp only
    | simp only [id_eq]
  )

theorem State.startFrame_alters {s : State} {k : Nat} {f : Frame} {t : Turn} {ch : List Part} {s0 : State} (h0 :
    Alters ch s0 s) (hc : Part.le [.cells, .fab, .out] ch = true) : Alters ch s0 (State.startFrame s k f t) := by
  unfold State.startFrame
  try dsimp only
  repeat' (
    first
    | with_reducible (first | exact Alters.refl _ _ | apply Alters.ite | assumption |
                          apply State.freeTransit_alters | apply State.onLink_alters | apply State.putFrame_alters)
    | exact Part.le_trans (by decide) hc
    | (refine (?_ : Part.le _ _ = true); decide)
    | intro _
    | with_reducible (first | rfl)
    | split
    | dsimp only
    | simp only [id_eq]
  )

theorem State.pumpN_alters {s : State} {k n : Nat} {ch : List Part} {s0 : State} (h0 : Alters ch s0 s) (hc : Part.le
    [.cells, .fab, .out] ch = true) : Alters ch s0 (State.pumpN s k n) := by
  induction n generalizing s k with
  | zero => 
    unfold State.pumpN
    try dsimp only
    repeat' (
    first
    | with_reducible (first | exact Alters.refl _ _ | apply Alters.ite | assumption | apply State.startFrame_alters)
    | exact Part.le_trans (by decide) hc
    | (refine (?_ : Part.le _ _ = true); decide)
    | intro _
    | with_reducible (first | rfl)
    | split
    | dsimp only
    | simp only [id_eq]
    )
  | succ n_ ih_ => 
    unfold State.pumpN
    try dsimp only
    repeat' (
    first
    | with_reducible (first | apply ih_ | exact Alters.refl _ _ | apply Alters.ite | assumption |
                            apply State.startFrame_alters)
    | exact Part.le_trans (by decide) hc
    | (refine (?_ : Part.le _ _ = true); decide)
    | intro _
    | with_reducible (first | rfl)
    | split
    | dsimp only
    | simp only [id_eq]
    )

theorem State.pump_alters {s : State} {k : Nat} {ch : List Part} {s0 : State} (h0 : Alters ch s0 s) (hc : Part.le
    [.cells, .fab, .out] ch = true) : Alters ch s0 (State.pump s k) := by
  unfold State.pump
  try dsimp only
  repeat' (
    first
    | with_reducible (first | exact Alters.refl _ _ | apply Alters.ite | assumption | apply State.pumpN_alters)
    | exact Part.le_trans (by decide) hc
    | (refine (?_ : Part.le _ _ = true); decide)
    | intro _
    | with_reducible (first | rfl)
    | split
    | dsimp only
    | simp only [id_eq]
  )

theorem State.queueFrom_alters {s : State} {k : Nat} {f : Frame} {held : Option (Nat × Nat)} {ch : List Part} {s0 :
    State} (h0 : Alters ch s0 s) (hc : Part.le [.cells, .fab, .out] ch = true) : Alters ch s0 (State.queueFrom s k f
    held) := by
  unfold State.queueFrom
  try dsimp only
  repeat' (
    first
    | with_reducible (first | exact Alters.refl _ _ | apply Alters.ite | assumption |
                          apply State.onLink_alters | apply State.pump_alters)
    | exact Part.le_trans (by decide) hc
    | (refine (?_ : Part.le _ _ = true); decide)
    | intro _
    | with_reducible (first | rfl)
    | split
    | dsimp only
    | simp only [id_eq]
  )

theorem State.queueFrame_alters {s : State} {k : Nat} {f : Frame} {ch : List Part} {s0 : State} (h0 : Alters ch s0 s)
    (hc : Part.le [.cells, .fab, .out] ch = true) : Alters ch s0 (State.queueFrame s k f) := by
  unfold State.queueFrame
  try dsimp only
  repeat' (
    first
    | with_reducible (first | exact Alters.refl _ _ | apply Alters.ite | assumption |
                          apply State.queueFrom_alters)
    | exact Part.le_trans (by decide) hc
    | (refine (?_ : Part.le _ _ = true); decide)
    | intro _
    | with_reducible (first | rfl)
    | split
    | dsimp only
    | simp only [id_eq]
  )

theorem State.routeFrom_alters {s : State} {f : Frame} {own : Option Nat} {held : Option (Nat × Nat)} {ch : List Part}
    {s0 : State} (h0 : Alters ch s0 s) (hc : Part.le [.cells, .fab, .out] ch = true) : Alters ch s0 (State.routeFrom s
    f own held).1 := by
  unfold State.routeFrom
  try dsimp only
  repeat' (
    first
    | with_reducible (first | exact Alters.refl _ _ | apply Alters.ite | assumption |
                          apply State.queueFrom_alters)
    | exact Part.le_trans (by decide) hc
    | (refine (?_ : Part.le _ _ = true); decide)
    | intro _
    | with_reducible (first | rfl)
    | split
    | dsimp only
    | simp only [id_eq]
  )
theorem State.routeFrom_altersP {s : State} {f : Frame} {own : Option Nat} {held : Option (Nat × Nat)} {t0 r0} (e_ :
    State.routeFrom s f own held = (t0, r0)) {ch : List Part} {s0 : State} (h0 : Alters ch s0 s) (hc : Part.le
    [.cells, .fab, .out] ch = true) : Alters ch s0 t0 := by
  have h := State.routeFrom_alters (s := s) (f := f) (own := own) (held := held) h0  hc
  rw [e_] at h; exact h

theorem State.routeFrame_alters {s : State} {f : Frame} {own : Option Nat} {ch : List Part} {s0 : State} (h0 : Alters
    ch s0 s) (hc : Part.le [.cells, .fab, .out] ch = true) : Alters ch s0 (State.routeFrame s f own).1 := by
  unfold State.routeFrame
  try dsimp only
  repeat' (
    first
    | with_reducible (first | exact Alters.refl _ _ | apply Alters.ite | assumption |
                          apply State.routeFrom_alters | apply Alters.of_pair (by assumption))
    | exact Part.le_trans (by decide) hc
    | (refine (?_ : Part.le _ _ = true); decide)
    | intro _
    | with_reducible (first | rfl)
    | split
    | dsimp only
    | simp only [id_eq]
  )
theorem State.routeFrame_altersP {s : State} {f : Frame} {own : Option Nat} {t0 r0} (e_ : State.routeFrame s f own =
    (t0, r0)) {ch : List Part} {s0 : State} (h0 : Alters ch s0 s) (hc : Part.le [.cells, .fab, .out] ch = true) :
    Alters ch s0 t0 := by
  have h := State.routeFrame_alters (s := s) (f := f) (own := own) h0  hc
  rw [e_] at h; exact h

theorem State.sendUnreach_alters {s : State} {f : Frame} {e : Err} {ch : List Part} {s0 : State} (h0 : Alters ch s0 s)
    (hc : Part.le [.cells, .fab, .out] ch = true) : Alters ch s0 (State.sendUnreach s f e) := by
  unfold State.sendUnreach
  try dsimp only
  repeat' (
    first
    | with_reducible (first | exact Alters.refl _ _ | apply Alters.ite | assumption | apply State.bump_alters |
                            apply State.routeFrame_alters | apply Alters.of_pair (by assumption))
    | exact Part.le_trans (by decide) hc
    | (refine (?_ : Part.le _ _ = true); decide)
    | intro _
    | with_reducible (first | rfl)
    | split
    | dsimp only
    | simp only [id_eq]
  )

theorem State.endTransit_alters {s : State} {f : Frame} {e : Err} {ch : List Part} {s0 : State} (h0 : Alters ch s0 s)
    (hc : Part.le (Part.err ++ [Part.fab]) ch = true) : Alters ch s0 (State.endTransit s f e) := by
  unfold State.endTransit
  try dsimp only
  repeat' (
    first
    | with_reducible (first | exact Alters.refl _ _ | apply Alters.ite | assumption |
                          apply State.bump_alters | apply State.raise_alters | apply State.sendUnreach_alters)
    | exact Part.le_trans (by decide) hc
    | (refine (?_ : Part.le _ _ = true); decide)
    | intro _
    | with_reducible (first | rfl)
    | split
    | dsimp only
    | simp only [id_eq]
  )

theorem State.answerOf_alters {s : State} {f : Frame} {own : Option Nat} {b : Body} {ch : List Part} {s0 : State} (h0
    : Alters ch s0 s) (hc : Part.le [.cells, .fab, .out] ch = true) : Alters ch s0 (State.answerOf s f own b) := by
  unfold State.answerOf
  try dsimp only
  repeat' (
    first
    | with_reducible (first | exact Alters.refl _ _ | apply Alters.ite | assumption |
                          apply State.routeFrame_alters | apply Alters.of_pair (by assumption))
    | exact Part.le_trans (by decide) hc
    | (refine (?_ : Part.le _ _ = true); decide)
    | intro _
    | with_reducible (first | rfl)
    | split
    | dsimp only
    | simp only [id_eq]
  )

theorem State.answer_alters {s : State} {f : Frame} {b : Body} {ch : List Part} {s0 : State} (h0 : Alters ch s0 s) (hc
    : Part.le [.cells, .fab, .out] ch = true) : Alters ch s0 (State.answer s f b) := by
  unfold State.answer
  try dsimp only
  repeat' (
    first
    | with_reducible (first | exact Alters.refl _ _ | apply Alters.ite | assumption |
                          apply State.answerOf_alters)
    | exact Part.le_trans (by decide) hc
    | (refine (?_ : Part.le _ _ = true); decide)
    | intro _
    | with_reducible (first | rfl)
    | split
    | dsimp only
    | simp only [id_eq]
  )

theorem State.request_alters {s : State} {node off part : Nat} {b : Body} {kind : TxnKind} {ch : List Part} {s0 :
    State} (h0 : Alters ch s0 s) (hc : Part.le [.cells, .fab, .out] ch = true) : Alters ch s0 (State.request s node
    off part b kind).1 := by
  unfold State.request
  try dsimp only
  repeat' (
    first
    | with_reducible (first | exact Alters.refl _ _ | apply Alters.ite | assumption | apply State.routeFrame_alters |
                            apply Alters.of_pair (by assumption))
    | exact Part.le_trans (by decide) hc
    | (refine (?_ : Part.le _ _ = true); decide)
    | intro _
    | with_reducible (first | rfl)
    | split
    | dsimp only
    | simp only [id_eq]
    | with_reducible (first | apply Alters.upd_fab)
  )
theorem State.request_altersP {s : State} {node off part : Nat} {b : Body} {kind : TxnKind} {t0 r0} (e_ :
    State.request s node off part b kind = (t0, r0)) {ch : List Part} {s0 : State} (h0 : Alters ch s0 s) (hc : Part.le
    [.cells, .fab, .out] ch = true) : Alters ch s0 t0 := by
  have h := State.request_alters (s := s) (node := node) (off := off) (part := part) (b := b) (kind := kind) h0  hc
  rw [e_] at h; exact h

theorem State.takeTxn_alters {s : State} {tag : Nat} {ch : List Part} {s0 : State} (h0 : Alters ch s0 s) (hc : Part.le
    [.fab] ch = true) : Alters ch s0 (State.takeTxn s tag).2 := by
  unfold State.takeTxn
  try dsimp only
  repeat' (
    first
    | with_reducible (first | exact Alters.refl _ _ | apply Alters.ite | assumption)
    | exact Part.le_trans (by decide) hc
    | (refine (?_ : Part.le _ _ = true); decide)
    | intro _
    | with_reducible (first | rfl)
    | split
    | dsimp only
    | simp only [id_eq]
    | with_reducible (first | apply Alters.upd_fab)
  )
theorem State.takeTxn_altersP {s : State} {tag : Nat} {t0 r0} (e_ : State.takeTxn s tag = (r0, t0)) {ch : List Part}
    {s0 : State} (h0 : Alters ch s0 s) (hc : Part.le [.fab] ch = true) : Alters ch s0 t0 := by
  have h := State.takeTxn_alters (s := s) (tag := tag) h0  hc
  rw [e_] at h; exact h

theorem State.putMsg_alters {s : State} {m : OutMsg} {ch : List Part} {s0 : State} (h0 : Alters ch s0 s) (hc : Part.le
    [.cells, .fab, .out] ch = true) : Alters ch s0 (State.putMsg s m) := by
  unfold State.putMsg
  try dsimp only
  repeat' (
    first
    | with_reducible (first | exact Alters.refl _ _ | apply Alters.ite | assumption | apply State.routeFrame_alters |
                            apply Alters.of_pair (by assumption))
    | exact Part.le_trans (by decide) hc
    | (refine (?_ : Part.le _ _ = true); decide)
    | intro _
    | with_reducible (first | rfl)
    | split
    | dsimp only
    | simp only [id_eq]
  )

theorem State.pumpMsgs_alters {s : State} {node n : Nat} {ch : List Part} {s0 : State} (h0 : Alters ch s0 s) (hc :
    Part.le [.cells, .fab, .out] ch = true) : Alters ch s0 (State.pumpMsgs s node n) := by
  induction n generalizing s node with
  | zero => 
    unfold State.pumpMsgs
    try dsimp only
    repeat' (
    first
    | with_reducible (first | exact Alters.refl _ _ | apply Alters.ite | assumption | apply State.putMsg_alters)
    | exact Part.le_trans (by decide) hc
    | (refine (?_ : Part.le _ _ = true); decide)
    | intro _
    | with_reducible (first | rfl)
    | split
    | dsimp only
    | simp only [id_eq]
    | with_reducible (first | apply Alters.upd_fab)
    )
  | succ n_ ih_ => 
    unfold State.pumpMsgs
    try dsimp only
    repeat' (
    first
    | with_reducible (first | apply ih_ | exact Alters.refl _ _ | apply Alters.ite | assumption |
                            apply State.putMsg_alters)
    | exact Part.le_trans (by decide) hc
    | (refine (?_ : Part.le _ _ = true); decide)
    | intro _
    | with_reducible (first | rfl)
    | split
    | dsimp only
    | simp only [id_eq]
    | with_reducible (first | apply Alters.upd_fab)
    )

theorem State.sendMsg_alters {s : State} {own : Option Nat} {node part : Nat} {m : Message} {ch : List Part} {s0 :
    State} (h0 : Alters ch s0 s) (hc : Part.le (Part.err ++ [Part.fab]) ch = true) : Alters ch s0 (State.sendMsg s own
    node part m) := by
  unfold State.sendMsg
  try dsimp only
  repeat' (
    first
    | with_reducible (first | exact Alters.refl _ _ | apply Alters.ite | assumption |
                          apply State.pumpMsgs_alters | apply State.raise_alters)
    | exact Part.le_trans (by decide) hc
    | (refine (?_ : Part.le _ _ = true); decide)
    | intro _
    | with_reducible (first | rfl)
    | split
    | dsimp only
    | simp only [id_eq]
    | with_reducible (first | apply Alters.upd_fab)
  )

end Sys2Proof.Machine
end

