-- ==== Sys2Proof/Laws/AltersRows.lean ====
section
/-! SUPPORT. What each operation of Machine/Rows.lean alters. -/

-- One closing tactic serves every lemma here; where a goal needs few of its steps the linters name the rest.
set_option linter.all false
set_option Elab.async false

namespace Sys2Proof.Machine

theorem State.putScales_alters {s : State} {t w n : Nat} {touch : Nat → Bool} {f : Nat → Option Nat} {ch : List Part}
    {s0 : State} (h0 : Alters ch s0 s) (hc : Part.le [.words, .tile] ch = true) : Alters ch s0 (State.putScales s t w
    n touch f) := by
  unfold State.putScales
  try dsimp only
  repeat' (
    first
    | with_reducible (first | exact Alters.refl _ _ | apply Alters.ite | assumption | apply Alters.foldl |
                            apply State.spadWrite_alters | apply Alters.foldl1)
    | exact Part.le_trans (by decide) hc
    | (refine (?_ : Part.le _ _ = true); decide)
    | intro _
    | with_reducible (first | rfl)
    | split
    | dsimp only
    | simp only [id_eq]
  )

theorem State.putRow_alters {s : State} {t w code n : Nat} {gs : List (Option (Nat × List Nat))} {ch : List Part} {s0
    : State} (h0 : Alters ch s0 s) (hc : Part.le [.words, .tile] ch = true) : Alters ch s0 (State.putRow s t w code n
    gs) := by
  unfold State.putRow
  try dsimp only
  repeat' (
    first
    | with_reducible (first | exact Alters.refl _ _ | apply Alters.ite | assumption | apply Alters.foldl |
                            apply State.putScales_alters | apply State.spadWrites_alters | apply Alters.foldl1)
    | exact Part.le_trans (by decide) hc
    | (refine (?_ : Part.le _ _ = true); decide)
    | intro _
    | with_reducible (first | rfl)
    | split
    | dsimp only
    | simp only [id_eq]
  )

end Sys2Proof.Machine
end

