-- ==== Sys2Proof/Laws/AltersMatmul.lean ====
section
/-! SUPPORT. What each operation of Machine/Matmul.lean alters. -/

-- One closing tactic serves every lemma here; where a goal needs few of its steps the linters name the rest.
set_option linter.all false
set_option Elab.async false

namespace Sys2Proof.Machine

theorem readAll_alters {α β : Type} {f : State → α → State × Except Err β} {s : State} {l : List α} {ch : List Part}
    {s0 : State} (h0 : Alters ch s0 s) (hf : ∀ {z0} {u0 u1}, Alters ch z0 u0 → Alters ch z0 (f u0 u1).1) (hc : Part.le
    [] ch = true) : Alters ch s0 (readAll f s l).1 := by
  induction l generalizing s with
  | nil => 
    unfold readAll
    try dsimp only
    repeat' (
    first
    | with_reducible (first | exact Alters.refl _ _ | apply Alters.ite | assumption | apply hf |
                            apply Alters.of_pair (by assumption))
    | exact Part.le_trans (by decide) hc
    | (refine (?_ : Part.le _ _ = true); decide)
    | intro _
    | with_reducible (first | rfl)
    | split
    | dsimp only
    | simp only [id_eq]
    )
  | cons hd_ tl_ ih_ => 
    unfold readAll
    try dsimp only
    repeat' (
    first
    | with_reducible (first | apply ih_ | exact Alters.refl _ _ | apply Alters.ite | assumption | apply hf |
                            apply Alters.of_pair (by assumption))
    | exact Part.le_trans (by decide) hc
    | (refine (?_ : Part.le _ _ = true); decide)
    | intro _
    | with_reducible (first | rfl)
    | split
    | dsimp only
    | simp only [id_eq]
    )
theorem readAll_altersP {α β : Type} {f : State → α → State × Except Err β} {s : State} {l : List α} {t0 r0} (e_ :
    readAll f s l = (t0, r0)) {ch : List Part} {s0 : State} (h0 : Alters ch s0 s) (hf : ∀ {z0} {u0 u1}, Alters ch z0
    u0 → Alters ch z0 (f u0 u1).1) (hc : Part.le [] ch = true) : Alters ch s0 t0 := by
  have h := readAll_alters (f := f) (s := s) (l := l) h0 hf hc
  rw [e_] at h; exact h

theorem State.spadByte_alters {s : State} {o : Option Owner} {t b : Nat} {ch : List Part} {s0 : State} (h0 : Alters ch
    s0 s) (hc : Part.le (Part.err ++ [Part.tile, Part.nose]) ch = true) : Alters ch s0 (State.spadByte s o t b).1 := by
  unfold State.spadByte
  try dsimp only
  repeat' (
    first
    | with_reducible (first | exact Alters.refl _ _ | apply Alters.ite | assumption | apply State.spadRead_alters |
                            apply Alters.of_pair (by assumption))
    | exact Part.le_trans (by decide) hc
    | (refine (?_ : Part.le _ _ = true); decide)
    | intro _
    | with_reducible (first | rfl)
    | split
    | dsimp only
    | simp only [id_eq]
  )
theorem State.spadByte_altersP {s : State} {o : Option Owner} {t b : Nat} {t0 r0} (e_ : State.spadByte s o t b = (t0,
    r0)) {ch : List Part} {s0 : State} (h0 : Alters ch s0 s) (hc : Part.le (Part.err ++ [Part.tile, Part.nose]) ch = true) :
    Alters ch s0 t0 := by
  have h := State.spadByte_alters (s := s) (o := o) (t := t) (b := b) h0  hc
  rw [e_] at h; exact h

theorem State.panelRow_alters {s : State} {o : Option Owner} {t : Nat} {p : Operand} {k kb i : Nat} {ch : List Part}
    {s0 : State} (h0 : Alters ch s0 s) (hc : Part.le (Part.err ++ [Part.tile, Part.nose]) ch = true) : Alters ch s0
    (State.panelRow s o t p k kb i).1 := by
  unfold State.panelRow
  try dsimp only
  repeat' (
    first
    | with_reducible (first | exact Alters.refl _ _ | apply Alters.ite | assumption |
                          apply State.spadReads_alters | apply Alters.of_pair (by assumption))
    | exact Part.le_trans (by decide) hc
    | (refine (?_ : Part.le _ _ = true); decide)
    | intro _
    | with_reducible (first | rfl)
    | split
    | dsimp only
    | simp only [id_eq]
  )
theorem State.panelRow_altersP {s : State} {o : Option Owner} {t : Nat} {p : Operand} {k kb i : Nat} {t0 r0} (e_ :
    State.panelRow s o t p k kb i = (t0, r0)) {ch : List Part} {s0 : State} (h0 : Alters ch s0 s) (hc : Part.le
    (Part.err ++ [Part.tile, Part.nose]) ch = true) : Alters ch s0 t0 := by
  have h := State.panelRow_alters (s := s) (o := o) (t := t) (p := p) (k := k) (kb := kb) (i := i) h0  hc
  rw [e_] at h; exact h

theorem State.fetchCycle_alters {s : State} {o : Option Owner} {t : Nat} {ws : List Nat} {ch : List Part} {s0 : State}
    (h0 : Alters ch s0 s) (hc : Part.le (Part.err ++ [Part.tile, Part.nose]) ch = true) : Alters ch s0
    (State.fetchCycle s o t ws).1 := by
  unfold State.fetchCycle
  try dsimp only
  repeat' (
    first
    | with_reducible (first | exact Alters.refl _ _ | apply Alters.ite | assumption |
                          apply State.raiseFor_alters | apply State.spadReads_alters |
                          apply Alters.of_pair (by assumption))
    | exact Part.le_trans (by decide) hc
    | (refine (?_ : Part.le _ _ = true); decide)
    | intro _
    | with_reducible (first | rfl)
    | split
    | dsimp only
    | simp only [id_eq]
  )
theorem State.fetchCycle_altersP {s : State} {o : Option Owner} {t : Nat} {ws : List Nat} {t0 r0} (e_ :
    State.fetchCycle s o t ws = (t0, r0)) {ch : List Part} {s0 : State} (h0 : Alters ch s0 s) (hc : Part.le (Part.err
    ++ [Part.tile, Part.nose]) ch = true) : Alters ch s0 t0 := by
  have h := State.fetchCycle_alters (s := s) (o := o) (t := t) (ws := ws) h0  hc
  rw [e_] at h; exact h

theorem State.fetchSlice_alters {s : State} {o : Option Owner} {t : Nat} {p : Operand} {k tt kb : Nat} {ch : List
    Part} {s0 : State} (h0 : Alters ch s0 s) (hc : Part.le (Part.err ++ [Part.tile, Part.nose]) ch = true) : Alters ch
    s0 (State.fetchSlice s o t p k tt kb).1 := by
  unfold State.fetchSlice
  try dsimp only
  repeat' (
    first
    | with_reducible (first | exact Alters.refl _ _ | apply Alters.ite | assumption |
                          apply State.fetchCycle_alters | apply State.raiseFor_alters | apply readAll_alters |
                          apply Alters.of_pair (by assumption))
    | exact Part.le_trans (by decide) hc
    | (refine (?_ : Part.le _ _ = true); decide)
    | intro _
    | with_reducible (first | rfl)
    | split
    | dsimp only
    | simp only [id_eq]
  )
theorem State.fetchSlice_altersP {s : State} {o : Option Owner} {t : Nat} {p : Operand} {k tt kb : Nat} {t0 r0} (e_ :
    State.fetchSlice s o t p k tt kb = (t0, r0)) {ch : List Part} {s0 : State} (h0 : Alters ch s0 s) (hc : Part.le
    (Part.err ++ [Part.tile, Part.nose]) ch = true) : Alters ch s0 t0 := by
  have h := State.fetchSlice_alters (s := s) (o := o) (t := t) (p := p) (k := k) (tt := tt) (kb := kb) h0  hc
  rw [e_] at h; exact h

theorem State.useCode_alters {s : State} {o : Option Owner} {t : Nat} {x : Work} {b : Nat} {c : Nat × Option Err} {ch
    : List Part} {s0 : State} (h0 : Alters ch s0 s) (hc : Part.le (Part.err ++ [Part.tile, Part.nose]) ch = true) : Alters ch
    s0 (State.useCode s o t x b c).1 := by
  unfold State.useCode
  try dsimp only
  repeat' (
    first
    | with_reducible (first | exact Alters.refl _ _ | apply Alters.ite | assumption | apply State.raiseFor_alters |
                            apply State.spadByte_alters | apply Alters.of_pair (by assumption))
    | exact Part.le_trans (by decide) hc
    | (refine (?_ : Part.le _ _ = true); decide)
    | intro _
    | with_reducible (first | rfl)
    | split
    | dsimp only
    | simp only [id_eq]
  )
theorem State.useCode_altersP {s : State} {o : Option Owner} {t : Nat} {x : Work} {b : Nat} {c : Nat × Option Err} {t0
    r0} (e_ : State.useCode s o t x b c = (t0, r0)) {ch : List Part} {s0 : State} (h0 : Alters ch s0 s) (hc : Part.le
    (Part.err ++ [Part.tile, Part.nose]) ch = true) : Alters ch s0 t0 := by
  have h := State.useCode_alters (s := s) (o := o) (t := t) (x := x) (b := b) (c := c) h0  hc
  rw [e_] at h; exact h

theorem State.putCodes_alters {s : State} {t w : Nat} {cs : List Nat} {ch : List Part} {s0 : State} (h0 : Alters ch s0
    s) (hc : Part.le [.words, .tile] ch = true) : Alters ch s0 (State.putCodes s t w cs) := by
  unfold State.putCodes
  try dsimp only
  repeat' (
    first
    | with_reducible (first | exact Alters.refl _ _ | apply Alters.ite | assumption | apply State.putScales_alters)
    | exact Part.le_trans (by decide) hc
    | (refine (?_ : Part.le _ _ = true); decide)
    | intro _
    | with_reducible (first | rfl)
    | split
    | dsimp only
    | simp only [id_eq]
  )

theorem State.sweep_alters {s : State} {o : Option Owner} {t : Nat} {p : Operand} {k : Nat} {ch : List Part} {s0 :
    State} (h0 : Alters ch s0 s) (hc : Part.le (Part.err ++ [Part.tile, Part.nose]) ch = true) : Alters ch s0
    (State.sweep s o t p k).1 := by
  unfold State.sweep
  try dsimp only
  repeat' (
    first
    | with_reducible (first | exact Alters.refl _ _ | apply Alters.ite | assumption |
                          apply State.fetchSlice_alters | apply readAll_alters | apply Alters.of_pair (by assumption))
    | exact Part.le_trans (by decide) hc
    | (refine (?_ : Part.le _ _ = true); decide)
    | intro _
    | with_reducible (first | rfl)
    | split
    | dsimp only
    | simp only [id_eq]
  )
theorem State.sweep_altersP {s : State} {o : Option Owner} {t : Nat} {p : Operand} {k : Nat} {t0 r0} (e_ : State.sweep
    s o t p k = (t0, r0)) {ch : List Part} {s0 : State} (h0 : Alters ch s0 s) (hc : Part.le (Part.err ++ [Part.tile,
    Part.nose]) ch = true) : Alters ch s0 t0 := by
  have h := State.sweep_alters (s := s) (o := o) (t := t) (p := p) (k := k) h0  hc
  rw [e_] at h; exact h

theorem State.sweepBoth_alters {s : State} {o : Option Owner} {t : Nat} {x : Work} {ch : List Part} {s0 : State} (h0 :
    Alters ch s0 s) (hc : Part.le (Part.err ++ [Part.tile, Part.nose]) ch = true) : Alters ch s0 (State.sweepBoth s o
    t x).1 := by
  unfold State.sweepBoth
  try dsimp only
  repeat' (
    first
    | with_reducible (first | exact Alters.refl _ _ | apply Alters.ite | assumption |
                          apply State.sweep_alters | apply Alters.of_pair (by assumption))
    | exact Part.le_trans (by decide) hc
    | (refine (?_ : Part.le _ _ = true); decide)
    | intro _
    | with_reducible (first | rfl)
    | split
    | dsimp only
    | simp only [id_eq]
  )
theorem State.sweepBoth_altersP {s : State} {o : Option Owner} {t : Nat} {x : Work} {t0 r0} (e_ : State.sweepBoth s o
    t x = (t0, r0)) {ch : List Part} {s0 : State} (h0 : Alters ch s0 s) (hc : Part.le (Part.err ++ [Part.tile,
    Part.nose]) ch = true) : Alters ch s0 t0 := by
  have h := State.sweepBoth_alters (s := s) (o := o) (t := t) (x := x) h0  hc
  rw [e_] at h; exact h

theorem State.anchorPhase_alters {s : State} {o : Option Owner} {t : Nat} {x : Work} {w : Sweep} {p : Nat} {ch : List
    Part} {s0 : State} (h0 : Alters ch s0 s) (hc : Part.le (Part.err ++ [Part.tile, Part.nose]) ch = true) : Alters ch
    s0 (State.anchorPhase s o t x w p).1 := by
  unfold State.anchorPhase
  try dsimp only
  repeat' (
    first
    | with_reducible (first | exact Alters.refl _ _ | apply Alters.ite | assumption |
                          apply State.useCode_alters | apply readAll_alters | apply Alters.of_pair (by assumption))
    | exact Part.le_trans (by decide) hc
    | (refine (?_ : Part.le _ _ = true); decide)
    | intro _
    | with_reducible (first | rfl)
    | split
    | dsimp only
    | simp only [id_eq]
  )
theorem State.anchorPhase_altersP {s : State} {o : Option Owner} {t : Nat} {x : Work} {w : Sweep} {p : Nat} {t0 r0}
    (e_ : State.anchorPhase s o t x w p = (t0, r0)) {ch : List Part} {s0 : State} (h0 : Alters ch s0 s) (hc : Part.le
    (Part.err ++ [Part.tile, Part.nose]) ch = true) : Alters ch s0 t0 := by
  have h := State.anchorPhase_alters (s := s) (o := o) (t := t) (x := x) (w := w) (p := p) h0  hc
  rw [e_] at h; exact h

theorem State.putTriple_alters {s : State} {o : Option Owner} {t : Nat} {x : Work} {win : Option Nat} {w : Nat} {tr :
    Triple} {ch : List Part} {s0 : State} (h0 : Alters ch s0 s) (hc : Part.le (Part.err ++ [Part.words, Part.tile, Part.queue,
    Part.sig, Part.nose]) ch = true) : Alters ch s0 (State.putTriple s o t x win w tr) := by
  unfold State.putTriple
  try dsimp only
  repeat' (
    first
    | with_reducible (first | exact Alters.refl _ _ | apply Alters.ite | assumption | apply State.flightErr_alters |
                            apply State.remoteWrite_alters | apply State.spadWrites_alters |
                            apply Alters.of_pair (by assumption))
    | exact Part.le_trans (by decide) hc
    | (refine (?_ : Part.le _ _ = true); decide)
    | intro _
    | with_reducible (first | rfl)
    | split
    | dsimp only
    | simp only [id_eq]
  )

theorem State.drainItem_alters {s : State} {o : Option Owner} {t : Nat} {x : Work} {win : Option Nat} {i : DrainItem}
    {ch : List Part} {s0 : State} (h0 : Alters ch s0 s) (hc : Part.le (Part.err ++ [Part.words, Part.tile, Part.queue,
    Part.sig, Part.nose]) ch = true) : Alters ch s0 (State.drainItem s o t x win i) := by
  unfold State.drainItem
  try dsimp only
  repeat' (
    first
    | with_reducible (first | exact Alters.refl _ _ | apply Alters.ite | assumption |
                          apply State.putTriple_alters | apply State.spadWrite_alters)
    | exact Part.le_trans (by decide) hc
    | (refine (?_ : Part.le _ _ = true); decide)
    | intro _
    | with_reducible (first | rfl)
    | split
    | dsimp only
    | simp only [id_eq]
  )

theorem State.drainAll_alters {s : State} {o : Option Owner} {t : Nat} {x : Work} {win : Option Nat} {q : List
    DrainItem} {ch : List Part} {s0 : State} (h0 : Alters ch s0 s) (hc : Part.le (Part.err ++ [Part.words, Part.tile,
    Part.queue, Part.sig, Part.nose]) ch = true) : Alters ch s0 (State.drainAll s o t x win q) := by
  unfold State.drainAll
  try dsimp only
  repeat' (
    first
    | with_reducible (first | exact Alters.refl _ _ | apply Alters.ite | assumption |
                          apply Alters.foldl | apply State.drainItem_alters | apply Alters.foldl1)
    | exact Part.le_trans (by decide) hc
    | (refine (?_ : Part.le _ _ = true); decide)
    | intro _
    | with_reducible (first | rfl)
    | split
    | dsimp only
    | simp only [id_eq]
  )

theorem State.drainBlocks_alters {s : State} {o : Option Owner} {t : Nat} {x : Work} {win : Option Nat} {n : Nat} {q :
    List DrainItem} {ch : List Part} {s0 : State} (h0 : Alters ch s0 s) (hc : Part.le (Part.err ++ [Part.words,
    Part.tile, Part.queue, Part.sig, Part.nose]) ch = true) : Alters ch s0 (State.drainBlocks s o t x win n q).1 := by
  induction n generalizing s o t x win q with
  | zero =>
    unfold State.drainBlocks
    try dsimp only
    repeat' (
      first
      | with_reducible (first | exact Alters.refl _ _ | apply Alters.ite | assumption |
                            apply State.drainAll_alters)
      | exact Part.le_trans (by decide) hc
      | (refine (?_ : Part.le _ _ = true); decide)
      | intro _
      | with_reducible (first | rfl)
      | split
      | dsimp only
      | simp only [id_eq]
    )
  | succ n_ ih_ =>
    unfold State.drainBlocks
    try dsimp only
    repeat' (
      first
      | with_reducible (first | apply ih_ | exact Alters.refl _ _ | apply Alters.ite | assumption |
                            apply State.drainAll_alters)
      | exact Part.le_trans (by decide) hc
      | (refine (?_ : Part.le _ _ = true); decide)
      | intro _
      | with_reducible (first | rfl)
      | split
      | dsimp only
      | simp only [id_eq]
    )
theorem State.drainBlocks_altersP {s : State} {o : Option Owner} {t : Nat} {x : Work} {win : Option Nat} {n : Nat} {q
    : List DrainItem} {t0 r0} (e_ : State.drainBlocks s o t x win n q = (t0, r0)) {ch : List Part} {s0 : State} (h0 :
    Alters ch s0 s) (hc : Part.le (Part.err ++ [Part.words, Part.tile, Part.queue, Part.sig, Part.nose]) ch = true) :
    Alters ch s0 t0 := by
  have h := State.drainBlocks_alters (s := s) (o := o) (t := t) (x := x) (win := win) (n := n) (q := q) h0  hc
  rw [e_] at h; exact h

theorem State.passInit_alters {s : State} {o : Option Owner} {t : Nat} {x : Work} {mt nt : Nat} {ch : List Part} {s0 :
    State} (h0 : Alters ch s0 s) (hc : Part.le (Part.err ++ [Part.tile, Part.nose]) ch = true) : Alters ch s0
    (State.passInit s o t x mt nt).1 := by
  unfold State.passInit
  try dsimp only
  repeat' (
    first
    | with_reducible (first | exact Alters.refl _ _ | apply Alters.ite | assumption |
                          apply State.spadReads_alters | apply Alters.of_pair (by assumption))
    | exact Part.le_trans (by decide) hc
    | (refine (?_ : Part.le _ _ = true); decide)
    | intro _
    | with_reducible (first | rfl)
    | split
    | dsimp only
    | simp only [id_eq]
  )
theorem State.passInit_altersP {s : State} {o : Option Owner} {t : Nat} {x : Work} {mt nt : Nat} {t0 r0} (e_ :
    State.passInit s o t x mt nt = (t0, r0)) {ch : List Part} {s0 : State} (h0 : Alters ch s0 s) (hc : Part.le
    (Part.err ++ [Part.tile, Part.nose]) ch = true) : Alters ch s0 t0 := by
  have h := State.passInit_alters (s := s) (o := o) (t := t) (x := x) (mt := mt) (nt := nt) h0  hc
  rw [e_] at h; exact h

theorem State.fetchBlock_alters {s : State} {o : Option Owner} {t : Nat} {x : Work} {j : Nat × Nat} {ch : List Part}
    {s0 : State} (h0 : Alters ch s0 s) (hc : Part.le (Part.err ++ [Part.tile, Part.nose]) ch = true) : Alters ch s0
    (State.fetchBlock s o t x j).1 := by
  unfold State.fetchBlock
  try dsimp only
  repeat' (
    first
    | with_reducible (first | exact Alters.refl _ _ | apply Alters.ite | assumption |
                          apply State.fetchSlice_alters | apply Alters.of_pair (by assumption))
    | exact Part.le_trans (by decide) hc
    | (refine (?_ : Part.le _ _ = true); decide)
    | intro _
    | with_reducible (first | rfl)
    | split
    | dsimp only
    | simp only [id_eq]
  )
theorem State.fetchBlock_altersP {s : State} {o : Option Owner} {t : Nat} {x : Work} {j : Nat × Nat} {t0 r0} (e_ :
    State.fetchBlock s o t x j = (t0, r0)) {ch : List Part} {s0 : State} (h0 : Alters ch s0 s) (hc : Part.le (Part.err
    ++ [Part.tile, Part.nose]) ch = true) : Alters ch s0 t0 := by
  have h := State.fetchBlock_alters (s := s) (o := o) (t := t) (x := x) (j := j) h0  hc
  rw [e_] at h; exact h

theorem State.openPass_alters {s : State} {o : Option Owner} {t : Nat} {x : Work} {w : Sweep} {p : Nat} {ch : List
    Part} {s0 : State} (h0 : Alters ch s0 s) (hc : Part.le (Part.err ++ [Part.tile, Part.nose]) ch = true) : Alters ch
    s0 (State.openPass s o t x w p).1 := by
  unfold State.openPass
  try dsimp only
  repeat' (
    first
    | with_reducible (first | exact Alters.refl _ _ | apply Alters.ite | assumption |
                          apply State.anchorPhase_alters | apply State.passInit_alters |
                          apply Alters.of_pair (by assumption))
    | exact Part.le_trans (by decide) hc
    | (refine (?_ : Part.le _ _ = true); decide)
    | intro _
    | with_reducible (first | rfl)
    | split
    | dsimp only
    | simp only [id_eq]
  )
theorem State.openPass_altersP {s : State} {o : Option Owner} {t : Nat} {x : Work} {w : Sweep} {p : Nat} {t0 r0} (e_ :
    State.openPass s o t x w p = (t0, r0)) {ch : List Part} {s0 : State} (h0 : Alters ch s0 s) (hc : Part.le (Part.err
    ++ [Part.tile, Part.nose]) ch = true) : Alters ch s0 t0 := by
  have h := State.openPass_alters (s := s) (o := o) (t := t) (x := x) (w := w) (p := p) h0  hc
  rw [e_] at h; exact h

theorem State.mmPeriods_alters {s : State} {o : Option Owner} {t : Nat} {x : Work} {win : Option Nat} {w : Sweep} {r :
    MmRun} {cur : Slices} {js : List (Nat × Nat)} {ch : List Part} {s0 : State} (h0 : Alters ch s0 s) (hc : Part.le
    (Part.err ++ [Part.words, Part.tile, Part.queue, Part.sig, Part.nose]) ch = true) : Alters ch s0 (State.mmPeriods
    s o t x win w r cur js).1 := by
  induction js generalizing s o t x win w r cur with
  | nil =>
    unfold State.mmPeriods
    try dsimp only
    repeat' (
      first
      | with_reducible (first | exact Alters.refl _ _ | apply Alters.ite | assumption |
                            apply State.bump_alters | apply State.drainAll_alters | apply State.drainBlocks_alters |
                            apply State.fetchBlock_alters | apply State.openPass_alters |
                            apply Alters.of_pair (by assumption))
      | exact Part.le_trans (by decide) hc
      | (refine (?_ : Part.le _ _ = true); decide)
      | intro _
      | with_reducible (first | rfl)
      | split
      | dsimp only
      | simp only [id_eq]
    )
  | cons hd_ tl_ ih_ =>
    unfold State.mmPeriods
    try dsimp only
    repeat' (
      first
      | with_reducible (first | apply ih_ | exact Alters.refl _ _ | apply Alters.ite | assumption |
                            apply State.bump_alters | apply State.drainAll_alters | apply State.drainBlocks_alters |
                            apply State.fetchBlock_alters | apply State.openPass_alters |
                            apply Alters.of_pair (by assumption))
      | exact Part.le_trans (by decide) hc
      | (refine (?_ : Part.le _ _ = true); decide)
      | intro _
      | with_reducible (first | rfl)
      | split
      | dsimp only
      | simp only [id_eq]
    )
theorem State.mmPeriods_altersP {s : State} {o : Option Owner} {t : Nat} {x : Work} {win : Option Nat} {w : Sweep} {r
    : MmRun} {cur : Slices} {js : List (Nat × Nat)} {t0 r0} (e_ : State.mmPeriods s o t x win w r cur js = (t0, r0))
    {ch : List Part} {s0 : State} (h0 : Alters ch s0 s) (hc : Part.le (Part.err ++ [Part.words, Part.tile, Part.queue,
    Part.sig, Part.nose]) ch = true) : Alters ch s0 t0 := by
  have h := State.mmPeriods_alters (s := s) (o := o) (t := t) (x := x) (win := win) (w := w) (r := r) (cur := cur) (js := js) h0  hc
  rw [e_] at h; exact h

theorem State.mmMultiply_alters {s : State} {o : Option Owner} {t : Nat} {x : Work} {win : Option Nat} {w : Sweep} {cs
    : Codes} {ch : List Part} {s0 : State} (h0 : Alters ch s0 s) (hc : Part.le (Part.err ++ [Part.words, Part.tile,
    Part.queue, Part.sig, Part.nose]) ch = true) : Alters ch s0 (State.mmMultiply s o t x win w cs).1 := by
  unfold State.mmMultiply
  try dsimp only
  repeat' (
    first
    | with_reducible (first | exact Alters.refl _ _ | apply Alters.ite | assumption |
                          apply State.fetchBlock_alters | apply State.mmPeriods_alters |
                          apply Alters.of_pair (by assumption))
    | exact Part.le_trans (by decide) hc
    | (refine (?_ : Part.le _ _ = true); decide)
    | intro _
    | with_reducible (first | rfl)
    | split
    | dsimp only
    | simp only [id_eq]
  )
theorem State.mmMultiply_altersP {s : State} {o : Option Owner} {t : Nat} {x : Work} {win : Option Nat} {w : Sweep}
    {cs : Codes} {t0 r0} (e_ : State.mmMultiply s o t x win w cs = (t0, r0)) {ch : List Part} {s0 : State} (h0 :
    Alters ch s0 s) (hc : Part.le (Part.err ++ [Part.words, Part.tile, Part.queue, Part.sig, Part.nose]) ch = true) :
    Alters ch s0 t0 := by
  have h := State.mmMultiply_alters (s := s) (o := o) (t := t) (x := x) (win := win) (w := w) (cs := cs) h0  hc
  rw [e_] at h; exact h

theorem State.endedBy_alters {r : State × Option Err} {o : Option Owner} {ch : List Part} {s0 : State} (h0 : Alters ch
    s0 r.1) (hc : Part.le [.queue] ch = true) : Alters ch s0 (State.endedBy r o) := by
  unfold State.endedBy
  try dsimp only
  repeat' (
    first
    | with_reducible (first | exact Alters.refl _ _ | apply Alters.ite | assumption |
                          apply State.flightErr_alters)
    | exact Part.le_trans (by decide) hc
    | (refine (?_ : Part.le _ _ = true); decide)
    | intro _
    | with_reducible (first | rfl)
    | split
    | dsimp only
    | simp only [id_eq]
  )

theorem State.runMatmul2_alters {s : State} {o : Option Owner} {t : Nat} {x : Work} {win : Option Nat} {ch : List
    Part} {s0 : State} (h0 : Alters ch s0 s) (hc : Part.le (Part.err ++ [Part.words, Part.tile, Part.queue, Part.sig,
    Part.nose]) ch = true) : Alters ch s0 (State.runMatmul2 s o t x win) := by
  unfold State.runMatmul2
  try dsimp only
  repeat' (
    first
    | with_reducible (first | exact Alters.refl _ _ | apply Alters.ite | assumption |
                          apply State.anchorPhase_alters | apply State.endedBy_alters | apply State.flightErr_alters |
                          apply State.mmMultiply_alters | apply State.putCodes_alters | apply State.sweepBoth_alters |
                          apply readAll_alters | apply Alters.of_pair (by assumption))
    | exact Part.le_trans (by decide) hc
    | (refine (?_ : Part.le _ _ = true); decide)
    | intro _
    | with_reducible (first | rfl)
    | split
    | dsimp only
    | simp only [id_eq]
  )

theorem State.runMatmul_alters {s : State} {o : Option Owner} {t : Nat} {x : Work} {ch : List Part} {s0 : State} (h0 :
    Alters ch s0 s) (hc : Part.le (Part.err ++ [Part.words, Part.tile, Part.queue, Part.sig, Part.nose]) ch = true) :
    Alters ch s0 (State.runMatmul s o t x) := by
  unfold State.runMatmul
  try dsimp only
  repeat' (
    first
    | with_reducible (first | exact Alters.refl _ _ | apply Alters.ite | assumption |
                          apply State.endedBy_alters | apply State.flightErr_alters | apply State.mmMultiply_alters |
                          apply State.raiseFor_alters | apply State.runMatmul2_alters |
                          apply Alters.of_pair (by assumption))
    | exact Part.le_trans (by decide) hc
    | (refine (?_ : Part.le _ _ = true); decide)
    | intro _
    | with_reducible (first | rfl)
    | split
    | dsimp only
    | simp only [id_eq]
  )

end Sys2Proof.Machine
end

