-- ==== Sys2Proof/Laws/AltersVector.lean ====
section
/-! SUPPORT. What each operation of Machine/Vector.lean alters. -/

-- One closing tactic serves every lemma here; where a goal needs few of its steps the linters name the rest.
set_option linter.all false
set_option Elab.async false

namespace Sys2Proof.Machine

theorem State.shortOf_alters {s : State} {o : Option Owner} {t src : Nat} {ch : List Part} {s0 : State} (h0 : Alters
    ch s0 s) (hc : Part.le (Part.err ++ [Part.queue, Part.nose]) ch = true) : Alters ch s0 (State.shortOf s o t src) := by
  unfold State.shortOf
  try dsimp only
  repeat' (
    first
    | with_reducible (first | exact Alters.refl _ _ | apply Alters.ite | assumption | apply State.flightErr_alters |
                            apply State.raiseFor_alters)
    | exact Part.le_trans (by decide) hc
    | (refine (?_ : Part.le _ _ = true); decide)
    | intro _
    | with_reducible (first | rfl)
    | split
    | dsimp only
    | simp only [id_eq]
  )

theorem State.redRow2_alters {s : State} {o : Option Owner} {t : Nat} {x : Work} {win : Option Nat} {r : Nat} {runs :
    List (List Val)} {ch : List Part} {s0 : State} (h0 : Alters ch s0 s) (hc : Part.le (Part.err ++ [Part.words, Part.tile,
    Part.queue, Part.sig, Part.nose]) ch = true) : Alters ch s0 (State.redRow2 s o t x win r runs).1 := by
  unfold State.redRow2
  try dsimp only
  repeat' (
    first
    | with_reducible (first | exact Alters.refl _ _ | apply Alters.ite | assumption | apply Alters.foldl |
                            apply State.putRow_alters | apply State.putTriple_alters | apply State.useCode_alters |
                            apply readAll_alters | apply Alters.foldl1 | apply Alters.of_pair (by assumption))
    | exact Part.le_trans (by decide) hc
    | (refine (?_ : Part.le _ _ = true); decide)
    | intro _
    | with_reducible (first | rfl)
    | split
    | dsimp only
    | simp only [id_eq]
  )
theorem State.redRow2_altersP {s : State} {o : Option Owner} {t : Nat} {x : Work} {win : Option Nat} {r : Nat} {runs :
    List (List Val)} {t0 r0} (e_ : State.redRow2 s o t x win r runs = (t0, r0)) {ch : List Part} {s0 : State} (h0 :
    Alters ch s0 s) (hc : Part.le (Part.err ++ [Part.words, Part.tile, Part.queue, Part.sig, Part.nose]) ch = true) : Alters ch s0 t0 :=
    by
  have h := State.redRow2_alters (s := s) (o := o) (t := t) (x := x) (win := win) (r := r) (runs := runs) h0  hc
  rw [e_] at h; exact h

theorem State.redRow1_alters {s : State} {o : Option Owner} {t : Nat} {x : Work} {r : Nat} {runs : List (List Val)}
    {ch : List Part} {s0 : State} (h0 : Alters ch s0 s) (hc : Part.le (Part.err ++ [Part.words, Part.tile, Part.nose]) ch = true)
    : Alters ch s0 (State.redRow1 s o t x r runs).1 := by
  unfold State.redRow1
  try dsimp only
  repeat' (
    first
    | with_reducible (first | exact Alters.refl _ _ | apply Alters.ite | assumption | apply State.putRow_alters |
                            apply State.spadRead_alters | apply readAll_alters | apply Alters.of_pair (by assumption))
    | exact Part.le_trans (by decide) hc
    | (refine (?_ : Part.le _ _ = true); decide)
    | intro _
    | with_reducible (first | rfl)
    | split
    | dsimp only
    | simp only [id_eq]
  )
theorem State.redRow1_altersP {s : State} {o : Option Owner} {t : Nat} {x : Work} {r : Nat} {runs : List (List Val)}
    {t0 r0} (e_ : State.redRow1 s o t x r runs = (t0, r0)) {ch : List Part} {s0 : State} (h0 : Alters ch s0 s) (hc :
    Part.le (Part.err ++ [Part.words, Part.tile, Part.nose]) ch = true) : Alters ch s0 t0 := by
  have h := State.redRow1_alters (s := s) (o := o) (t := t) (x := x) (r := r) (runs := runs) h0  hc
  rw [e_] at h; exact h

theorem State.redRows_alters {s : State} {o : Option Owner} {t : Nat} {x : Work} {win : Option Nat} {rs : List Nat}
    {codes : List GroupCode} {ch : List Part} {s0 : State} (h0 : Alters ch s0 s) (hc : Part.le (Part.err ++ [Part.words,
    Part.tile, Part.queue, Part.sig, Part.nose]) ch = true) : Alters ch s0 (State.redRows s o t x win rs codes).1 := by
  induction rs generalizing s o t x win codes with
  | nil => 
    unfold State.redRows
    try dsimp only
    repeat' (
    first
    | with_reducible (first | exact Alters.refl _ _ | apply Alters.ite | assumption | apply State.redRow1_alters |
                            apply State.redRow2_alters | apply State.spadReads_alters |
                            apply Alters.of_pair (by assumption))
    | exact Part.le_trans (by decide) hc
    | (refine (?_ : Part.le _ _ = true); decide)
    | intro _
    | with_reducible (first | rfl)
    | split
    | dsimp only
    | simp only [id_eq]
    )
  | cons hd_ tl_ ih_ => 
    unfold State.redRows
    try dsimp only
    repeat' (
    first
    | with_reducible (first | apply ih_ | exact Alters.refl _ _ | apply Alters.ite | assumption |
                            apply State.redRow1_alters | apply State.redRow2_alters | apply State.spadReads_alters |
                            apply Alters.of_pair (by assumption))
    | exact Part.le_trans (by decide) hc
    | (refine (?_ : Part.le _ _ = true); decide)
    | intro _
    | with_reducible (first | rfl)
    | split
    | dsimp only
    | simp only [id_eq]
    )
theorem State.redRows_altersP {s : State} {o : Option Owner} {t : Nat} {x : Work} {win : Option Nat} {rs : List Nat}
    {codes : List GroupCode} {t0 r0} (e_ : State.redRows s o t x win rs codes = (t0, r0)) {ch : List Part} {s0 :
    State} (h0 : Alters ch s0 s) (hc : Part.le (Part.err ++ [Part.words, Part.tile, Part.queue, Part.sig, Part.nose]) ch = true) : Alters
    ch s0 t0 := by
  have h := State.redRows_alters (s := s) (o := o) (t := t) (x := x) (win := win) (rs := rs) (codes := codes) h0  hc
  rw [e_] at h; exact h

theorem State.runReduce_alters {s : State} {o : Option Owner} {t : Nat} {x : Work} {ch : List Part} {s0 : State} (h0 :
    Alters ch s0 s) (hc : Part.le (Part.err ++ [Part.words, Part.tile, Part.queue, Part.sig, Part.nose]) ch = true) : Alters ch s0
    (State.runReduce s o t x) := by
  unfold State.runReduce
  try dsimp only
  repeat' (
    first
    | with_reducible (first | exact Alters.refl _ _ | apply Alters.ite | assumption | apply State.bump_alters |
                            apply State.flightErr_alters | apply State.putCodes_alters | apply State.redRows_alters |
                            apply State.shortOf_alters | apply Alters.of_pair (by assumption))
    | exact Part.le_trans (by decide) hc
    | (refine (?_ : Part.le _ _ = true); decide)
    | intro _
    | with_reducible (first | rfl)
    | split
    | dsimp only
    | simp only [id_eq]
  )

theorem State.slotOut_alters {s : State} {o : Option Owner} {t : Nat} {x : Work} {r g : Nat} {ch : List Part} {s0 :
    State} (h0 : Alters ch s0 s) (hc : Part.le (Part.err ++ [Part.tile, Part.nose]) ch = true) : Alters ch s0 (State.slotOut s
    o t x r g).1 := by
  unfold State.slotOut
  try dsimp only
  repeat' (
    first
    | with_reducible (first | exact Alters.refl _ _ | apply Alters.ite | assumption | apply State.raiseFor_alters |
                            apply State.spadReads_alters | apply Alters.of_pair (by assumption))
    | exact Part.le_trans (by decide) hc
    | (refine (?_ : Part.le _ _ = true); decide)
    | intro _
    | with_reducible (first | rfl)
    | split
    | dsimp only
    | simp only [id_eq]
  )
theorem State.slotOut_altersP {s : State} {o : Option Owner} {t : Nat} {x : Work} {r g : Nat} {t0 r0} (e_ :
    State.slotOut s o t x r g = (t0, r0)) {ch : List Part} {s0 : State} (h0 : Alters ch s0 s) (hc : Part.le (Part.err
    ++ [Part.tile, Part.nose]) ch = true) : Alters ch s0 t0 := by
  have h := State.slotOut_alters (s := s) (o := o) (t := t) (x := x) (r := r) (g := g) h0  hc
  rw [e_] at h; exact h

theorem State.cvtRow_alters {s : State} {o : Option Owner} {t i j : Nat} {x : Work} {r : Nat} {ch : List Part} {s0 :
    State} (h0 : Alters ch s0 s) (hc : Part.le (Part.err ++ [Part.tile, Part.nose]) ch = true) : Alters ch s0 (State.cvtRow s
    o t i j x r).1 := by
  unfold State.cvtRow
  try dsimp only
  repeat' (
    first
    | with_reducible (first | exact Alters.refl _ _ | apply Alters.ite | assumption | apply State.slotOut_alters |
                            apply State.spadReads_alters | apply readAll_alters | apply Alters.of_pair (by assumption))
    | exact Part.le_trans (by decide) hc
    | (refine (?_ : Part.le _ _ = true); decide)
    | intro _
    | with_reducible (first | rfl)
    | split
    | dsimp only
    | simp only [id_eq]
  )
theorem State.cvtRow_altersP {s : State} {o : Option Owner} {t i j : Nat} {x : Work} {r : Nat} {t0 r0} (e_ :
    State.cvtRow s o t i j x r = (t0, r0)) {ch : List Part} {s0 : State} (h0 : Alters ch s0 s) (hc : Part.le (Part.err
    ++ [Part.tile, Part.nose]) ch = true) : Alters ch s0 t0 := by
  have h := State.cvtRow_alters (s := s) (o := o) (t := t) (i := i) (j := j) (x := x) (r := r) h0  hc
  rw [e_] at h; exact h

theorem State.cvtRows_alters {s : State} {o : Option Owner} {t i j : Nat} {x : Work} {rs : List Nat} {ch : List Part}
    {s0 : State} (h0 : Alters ch s0 s) (hc : Part.le (Part.err ++ [Part.words, Part.tile, Part.nose]) ch = true) : Alters ch s0
    (State.cvtRows s o t i j x rs).1 := by
  induction rs generalizing s o t i j x with
  | nil => 
    unfold State.cvtRows
    try dsimp only
    repeat' (
    first
    | with_reducible (first | exact Alters.refl _ _ | apply Alters.ite | assumption | apply State.cvtRow_alters |
                            apply State.putRow_alters | apply Alters.of_pair (by assumption))
    | exact Part.le_trans (by decide) hc
    | (refine (?_ : Part.le _ _ = true); decide)
    | intro _
    | with_reducible (first | rfl)
    | split
    | dsimp only
    | simp only [id_eq]
    )
  | cons hd_ tl_ ih_ => 
    unfold State.cvtRows
    try dsimp only
    repeat' (
    first
    | with_reducible (first | apply ih_ | exact Alters.refl _ _ | apply Alters.ite | assumption |
                            apply State.cvtRow_alters | apply State.putRow_alters | apply Alters.of_pair (by assumption))
    | exact Part.le_trans (by decide) hc
    | (refine (?_ : Part.le _ _ = true); decide)
    | intro _
    | with_reducible (first | rfl)
    | split
    | dsimp only
    | simp only [id_eq]
    )
theorem State.cvtRows_altersP {s : State} {o : Option Owner} {t i j : Nat} {x : Work} {rs : List Nat} {t0 r0} (e_ :
    State.cvtRows s o t i j x rs = (t0, r0)) {ch : List Part} {s0 : State} (h0 : Alters ch s0 s) (hc : Part.le
    (Part.err ++ [Part.words, Part.tile, Part.nose]) ch = true) : Alters ch s0 t0 := by
  have h := State.cvtRows_alters (s := s) (o := o) (t := t) (i := i) (j := j) (x := x) (rs := rs) h0  hc
  rw [e_] at h; exact h

theorem State.runConvert_alters {s : State} {o : Option Owner} {t i j : Nat} {x : Work} {ch : List Part} {s0 : State}
    (h0 : Alters ch s0 s) (hc : Part.le (Part.err ++ [Part.words, Part.tile, Part.queue, Part.nose]) ch = true) : Alters ch s0
    (State.runConvert s o t i j x) := by
  unfold State.runConvert
  try dsimp only
  repeat' (
    first
    | with_reducible (first | exact Alters.refl _ _ | apply Alters.ite | assumption | apply State.bump_alters |
                            apply State.cvtRows_alters | apply State.flightErr_alters | apply State.shortOf_alters |
                            apply Alters.of_pair (by assumption))
    | exact Part.le_trans (by decide) hc
    | (refine (?_ : Part.le _ _ = true); decide)
    | intro _
    | with_reducible (first | rfl)
    | split
    | dsimp only
    | simp only [id_eq]
  )

theorem State.pruneOne_alters {s : State} {o : Option Owner} {t i j : Nat} {x : Work} {kb n : Nat} {ch : List Part}
    {s0 : State} (h0 : Alters ch s0 s) (hc : Part.le (Part.err ++ [Part.words, Part.tile, Part.nose]) ch = true) : Alters ch s0
    (State.pruneOne s o t i j x kb n).1 := by
  unfold State.pruneOne
  try dsimp only
  repeat' (
    first
    | with_reducible (first | exact Alters.refl _ _ | apply Alters.ite | assumption | apply State.panelRow_alters |
                            apply State.putScales_alters | apply State.spadWrite_alters | apply State.spadWrites_alters |
                            apply Alters.of_pair (by assumption))
    | exact Part.le_trans (by decide) hc
    | (refine (?_ : Part.le _ _ = true); decide)
    | intro _
    | with_reducible (first | rfl)
    | split
    | dsimp only
    | simp only [id_eq]
  )
theorem State.pruneOne_altersP {s : State} {o : Option Owner} {t i j : Nat} {x : Work} {kb n : Nat} {t0 r0} (e_ :
    State.pruneOne s o t i j x kb n = (t0, r0)) {ch : List Part} {s0 : State} (h0 : Alters ch s0 s) (hc : Part.le
    (Part.err ++ [Part.words, Part.tile, Part.nose]) ch = true) : Alters ch s0 t0 := by
  have h := State.pruneOne_alters (s := s) (o := o) (t := t) (i := i) (j := j) (x := x) (kb := kb) (n := n) h0  hc
  rw [e_] at h; exact h

theorem State.pruneAll_alters {s : State} {o : Option Owner} {t i j : Nat} {x : Work} {rs : List (Nat × Nat)} {ch :
    List Part} {s0 : State} (h0 : Alters ch s0 s) (hc : Part.le (Part.err ++ [Part.words, Part.tile, Part.nose]) ch = true) :
    Alters ch s0 (State.pruneAll s o t i j x rs).1 := by
  induction rs generalizing s o t i j x with
  | nil => 
    unfold State.pruneAll
    try dsimp only
    repeat' (
    first
    | with_reducible (first | exact Alters.refl _ _ | apply Alters.ite | assumption | apply State.pruneOne_alters |
                            apply Alters.of_pair (by assumption))
    | exact Part.le_trans (by decide) hc
    | (refine (?_ : Part.le _ _ = true); decide)
    | intro _
    | with_reducible (first | rfl)
    | split
    | dsimp only
    | simp only [id_eq]
    )
  | cons hd_ tl_ ih_ => 
    unfold State.pruneAll
    try dsimp only
    repeat' (
    first
    | with_reducible (first | apply ih_ | exact Alters.refl _ _ | apply Alters.ite | assumption |
                            apply State.pruneOne_alters | apply Alters.of_pair (by assumption))
    | exact Part.le_trans (by decide) hc
    | (refine (?_ : Part.le _ _ = true); decide)
    | intro _
    | with_reducible (first | rfl)
    | split
    | dsimp only
    | simp only [id_eq]
    )
theorem State.pruneAll_altersP {s : State} {o : Option Owner} {t i j : Nat} {x : Work} {rs : List (Nat × Nat)} {t0 r0}
    (e_ : State.pruneAll s o t i j x rs = (t0, r0)) {ch : List Part} {s0 : State} (h0 : Alters ch s0 s) (hc : Part.le
    (Part.err ++ [Part.words, Part.tile, Part.nose]) ch = true) : Alters ch s0 t0 := by
  have h := State.pruneAll_alters (s := s) (o := o) (t := t) (i := i) (j := j) (x := x) (rs := rs) h0  hc
  rw [e_] at h; exact h

theorem State.runPruned_alters {s : State} {o : Option Owner} {t i j : Nat} {x : Work} {ch : List Part} {s0 : State}
    (h0 : Alters ch s0 s) (hc : Part.le (Part.err ++ [Part.words, Part.tile, Part.queue, Part.nose]) ch = true) :
    Alters ch s0 (State.runPruned s o t i j x) := by
  unfold State.runPruned
  try dsimp only
  repeat' (
    first
    | with_reducible (first | exact Alters.refl _ _ | apply Alters.ite | assumption |
                          apply State.bump_alters | apply State.flightErr_alters | apply State.pruneAll_alters |
                          apply State.shortOf_alters | apply Alters.of_pair (by assumption))
    | exact Part.le_trans (by decide) hc
    | (refine (?_ : Part.le _ _ = true); decide)
    | intro _
    | with_reducible (first | rfl)
    | split
    | dsimp only
    | simp only [id_eq]
  )

theorem State.runList_alters {s : State} {o : Option Owner} {t : Nat} {x : Work} {ch : List Part} {s0 : State} (h0 :
    Alters ch s0 s) (hc : Part.le (Part.err ++ [Part.words, Part.tile, Part.queue, Part.nose]) ch = true) : Alters ch s0
    (State.runList s o t x) := by
  unfold State.runList
  try dsimp only
  repeat' (
    first
    | with_reducible (first | exact Alters.refl _ _ | apply Alters.ite | assumption | apply State.bump_alters |
                            apply State.flightErr_alters | apply State.raiseFor_alters | apply State.shortOf_alters |
                            apply State.spadReads_alters | apply State.spadWrites_alters |
                            apply Alters.of_pair (by assumption))
    | exact Part.le_trans (by decide) hc
    | (refine (?_ : Part.le _ _ = true); decide)
    | intro _
    | with_reducible (first | rfl)
    | split
    | dsimp only
    | simp only [id_eq]
  )

theorem State.putPort_alters {s : State} {t i j : Nat} {x : Work} {p : Nat × Nat} {vs : List Nat} {ch : List Part} {s0
    : State} (h0 : Alters ch s0 s) (hc : Part.le [.words, .tile] ch = true) : Alters ch s0 (State.putPort s t i j x p
    vs) := by
  unfold State.putPort
  try dsimp only
  repeat' (
    first
    | with_reducible (first | exact Alters.refl _ _ | apply Alters.ite | assumption | apply State.putRow_alters)
    | exact Part.le_trans (by decide) hc
    | (refine (?_ : Part.le _ _ = true); decide)
    | intro _
    | with_reducible (first | rfl)
    | split
    | dsimp only
    | simp only [id_eq]
  )

theorem State.runMap_alters {s : State} {o : Option Owner} {t i j : Nat} {x : Work} {ch : List Part} {s0 : State} (h0
    : Alters ch s0 s) (hc : Part.le (Part.err ++ [Part.words, Part.tile, Part.queue, Part.nose]) ch = true) : Alters ch s0
    (State.runMap s o t i j x) := by
  unfold State.runMap
  try dsimp only
  repeat' (
    first
    | with_reducible (first | exact Alters.refl _ _ | apply Alters.ite | assumption | apply Alters.foldl |
                            apply State.bump_alters | apply State.flightErr_alters | apply State.putPort_alters |
                            apply State.raiseFor_alters | apply State.shortOf_alters | apply State.spadReads_alters |
                            apply readAll_alters | apply Alters.foldl1 | apply Alters.of_pair (by assumption))
    | exact Part.le_trans (by decide) hc
    | (refine (?_ : Part.le _ _ = true); decide)
    | intro _
    | with_reducible (first | rfl)
    | split
    | dsimp only
    | simp only [id_eq]
  )

theorem State.loadSlot_alters {s : State} {t slot : Nat} {ws : List Word} {ch : List Part} {s0 : State} (h0 : Alters
    ch s0 s) (hc : Part.le [.cells, .tile] ch = true) : Alters ch s0 (State.loadSlot s t slot ws) := by
  unfold State.loadSlot
  try dsimp only
  repeat' (
    first
    | with_reducible (first | exact Alters.refl _ _ | apply Alters.ite | assumption | apply State.wr_alters)
    | exact Part.le_trans (by decide) hc
    | (refine (?_ : Part.le _ _ = true); decide)
    | intro _
    | with_reducible (first | rfl)
    | split
    | dsimp only
    | simp only [id_eq]
    | with_reducible (first | apply Alters.updR_tile)
  )

theorem State.runLoad_alters {s : State} {o : Option Owner} {t : Nat} {x : Work} {ch : List Part} {s0 : State} (h0 :
    Alters ch s0 s) (hc : Part.le (Part.err ++ [Part.tile, Part.queue, Part.nose]) ch = true) : Alters ch s0 (State.runLoad s o t
    x) := by
  unfold State.runLoad
  try dsimp only
  repeat' (
    first
    | with_reducible (first | exact Alters.refl _ _ | apply Alters.ite | assumption | apply State.flightErr_alters |
                            apply State.loadSlot_alters | apply State.raiseFor_alters | apply State.shortOf_alters |
                            apply State.spadReads_alters | apply Alters.of_pair (by assumption))
    | exact Part.le_trans (by decide) hc
    | (refine (?_ : Part.le _ _ = true); decide)
    | intro _
    | with_reducible (first | rfl)
    | split
    | dsimp only
    | simp only [id_eq]
  )

end Sys2Proof.Machine
end

