-- ==== Sys2Proof/Laws/AltersUnit.lean ====
section
/-! SUPPORT. What each operation of Machine/Unit.lean alters. -/

-- One closing tactic serves every lemma here; where a goal needs few of its steps the linters name the rest.
set_option linter.all false
set_option Elab.async false

namespace Sys2Proof.Machine

theorem State.runWork_alters {s : State} {o : Option Owner} {t i j : Nat} {x : Work} {ch : List Part} {s0 : State} (h0
    : Alters ch s0 s) (hc : Part.le (Part.err ++ [Part.words, Part.tile, Part.queue, Part.sig, Part.nose]) ch = true)
    : Alters ch s0 (State.runWork s o t i j x) := by
  unfold State.runWork
  try dsimp only
  repeat' (
    first
    | with_reducible (first | exact Alters.refl _ _ | apply Alters.ite | assumption |
                          apply State.runConvert_alters | apply State.runList_alters | apply State.runLoad_alters |
                          apply State.runMap_alters | apply State.runMatmul_alters | apply State.runPruned_alters |
                          apply State.runReduce_alters)
    | exact Part.le_trans (by decide) hc
    | (refine (?_ : Part.le _ _ = true); decide)
    | intro _
    | with_reducible (first | rfl)
    | split
    | dsimp only
    | simp only [id_eq]
  )

theorem State.beginSample_alters {s : State} {o : Owner} {t i j : Nat} {x : Work} {ch : List Part} {s0 : State} (h0 :
    Alters ch s0 s) (hc : Part.le (Part.err ++ [Part.words, Part.tile, Part.queue, Part.nose]) ch = true) : Alters ch
    s0 (State.beginSample s o t i j x).1 := by
  unfold State.beginSample
  try dsimp only
  repeat' (
    first
    | with_reducible (first | exact Alters.refl _ _ | apply Alters.ite | assumption |
                          apply State.bump_alters | apply State.flightErr_alters | apply State.spadReads_alters |
                          apply State.spadWrites_alters | apply Alters.of_pair (by assumption))
    | exact Part.le_trans (by decide) hc
    | (refine (?_ : Part.le _ _ = true); decide)
    | intro _
    | with_reducible (first | rfl)
    | split
    | dsimp only
    | simp only [id_eq]
    | with_reducible (first | apply Alters.upd_nose)
  )
theorem State.beginSample_altersP {s : State} {o : Owner} {t i j : Nat} {x : Work} {t0 r0} (e_ : State.beginSample s o
    t i j x = (t0, r0)) {ch : List Part} {s0 : State} (h0 : Alters ch s0 s) (hc : Part.le (Part.err ++ [Part.words,
    Part.tile, Part.queue, Part.nose]) ch = true) : Alters ch s0 t0 := by
  have h := State.beginSample_alters (s := s) (o := o) (t := t) (i := i) (j := j) (x := x) h0  hc
  rw [e_] at h; exact h

theorem State.drainedOut_alters {s : State} {d : Dup} {ops : List Word} {ch : List Part} {s0 : State} (h0 : Alters ch
    s0 s) (hc : Part.le (Part.err ++ [Part.tile, Part.nose]) ch = true) : Alters ch s0 (State.drainedOut s d ops).1 :=
    by
  unfold State.drainedOut
  try dsimp only
  repeat' (
    first
    | with_reducible (first | exact Alters.refl _ _ | apply Alters.ite | assumption |
                          apply State.spadReads_alters | apply Alters.of_pair (by assumption))
    | exact Part.le_trans (by decide) hc
    | (refine (?_ : Part.le _ _ = true); decide)
    | intro _
    | with_reducible (first | rfl)
    | split
    | dsimp only
    | simp only [id_eq]
  )
theorem State.drainedOut_altersP {s : State} {d : Dup} {ops : List Word} {t0 r0} (e_ : State.drainedOut s d ops = (t0,
    r0)) {ch : List Part} {s0 : State} (h0 : Alters ch s0 s) (hc : Part.le (Part.err ++ [Part.tile, Part.nose]) ch =
    true) : Alters ch s0 t0 := by
  have h := State.drainedOut_alters (s := s) (d := d) (ops := ops) h0  hc
  rw [e_] at h; exact h

theorem State.endSample_alters {s : State} {d : Option Dup} {ch : List Part} {s0 : State} (h0 : Alters ch s0 s) (hc :
    Part.le (Part.err ++ [Part.words, Part.tile, Part.nose]) ch = true) : Alters ch s0 (State.endSample s d) := by
  unfold State.endSample
  try dsimp only
  repeat' (
    first
    | with_reducible (first | exact Alters.refl _ _ | apply Alters.ite | assumption |
                          apply State.bump_alters | apply State.drainedOut_alters | apply State.spadWrites_alters |
                          apply Alters.of_pair (by assumption))
    | exact Part.le_trans (by decide) hc
    | (refine (?_ : Part.le _ _ = true); decide)
    | intro _
    | with_reducible (first | rfl)
    | split
    | dsimp only
    | simp only [id_eq]
    | with_reducible (first | apply Alters.upd_nose)
  )

end Sys2Proof.Machine
end

