-- ==== Sys2Proof/Laws/AltersCompute.lean ====
section
/-! SUPPORT. What each operation of Machine/Compute.lean alters. -/

-- One closing tactic serves every lemma here; where a goal needs few of its steps the linters name the rest.
set_option linter.all false
set_option Elab.async false

namespace Sys2Proof.Machine

theorem State.readDesc_alters {s : State} {q a : Nat} {ch : List Part} {s0 : State} (h0 : Alters ch s0 s) (hc :
    Part.le (Part.err ++ [Part.mem, Part.nose, Part.power, Part.host]) ch = true) : Alters ch s0 (State.readDesc s q
    a).1 := by
  unfold State.readDesc
  try dsimp only
  repeat' (
    first
    | with_reducible (first | exact Alters.refl _ _ | apply Alters.ite | assumption |
                          apply State.readIssue_alters | apply Alters.of_pair (by assumption))
    | exact Part.le_trans (by decide) hc
    | (refine (?_ : Part.le _ _ = true); decide)
    | intro _
    | with_reducible (first | rfl)
    | split
    | dsimp only
    | simp only [id_eq]
  )
theorem State.readDesc_altersP {s : State} {q a : Nat} {t0 r0} (e_ : State.readDesc s q a = (t0, r0)) {ch : List Part}
    {s0 : State} (h0 : Alters ch s0 s) (hc : Part.le (Part.err ++ [Part.mem, Part.nose, Part.power, Part.host]) ch =
    true) : Alters ch s0 t0 := by
  have h := State.readDesc_alters (s := s) (q := q) (a := a) h0  hc
  rw [e_] at h; exact h

theorem State.computeChecks_alters {s : State} {q e : Nat} {ch : List Part} {s0 : State} (h0 : Alters ch s0 s) (hc :
    Part.le (Part.err ++ [Part.mem, Part.nose, Part.power, Part.host]) ch = true) : Alters ch s0 (State.computeChecks
    s q e).1 := by
  unfold State.computeChecks
  try dsimp only
  repeat' (
    first
    | with_reducible (first | exact Alters.refl _ _ | apply Alters.ite | assumption |
                          apply State.readDesc_alters | apply Alters.of_pair (by assumption) | apply Alters.ofChecked |
                          apply Alters.ofChecked1 | apply Alters.ofGiven | apply Alters.ofGiven1)
    | exact Part.le_trans (by decide) hc
    | (refine (?_ : Part.le _ _ = true); decide)
    | intro _
    | with_reducible (first | rfl)
    | split
    | dsimp only
    | simp only [id_eq]
  )
theorem State.computeChecks_altersP {s : State} {q e : Nat} {t0 r0} (e_ : State.computeChecks s q e = (t0, r0)) {ch :
    List Part} {s0 : State} (h0 : Alters ch s0 s) (hc : Part.le (Part.err ++ [Part.mem, Part.nose, Part.power,
    Part.host]) ch = true) : Alters ch s0 t0 := by
  have h := State.computeChecks_alters (s := s) (q := q) (e := e) h0  hc
  rw [e_] at h; exact h

theorem State.mxShow_alters {s : State} {t : Nat} {x : Work} {ch : List Part} {s0 : State} (h0 : Alters ch s0 s) (hc :
    Part.le [.cells] ch = true) : Alters ch s0 (State.mxShow s t x) := by
  unfold State.mxShow
  try dsimp only
  repeat' (
    first
    | with_reducible (first | exact Alters.refl _ _ | apply Alters.ite | assumption | apply State.wr_alters)
    | exact Part.le_trans (by decide) hc
    | (refine (?_ : Part.le _ _ = true); decide)
    | intro _
    | with_reducible (first | rfl)
    | split
    | dsimp only
    | simp only [id_eq]
  )

theorem State.runTile_alters {s : State} {o : Owner} {x : Work} {t i j : Nat} {ch : List Part} {s0 : State} (h0 :
    Alters ch s0 s) (hc : Part.le (Part.err ++ [Part.words, Part.tile, Part.queue, Part.sig, Part.nose]) ch = true) :
    Alters ch s0 (State.runTile s o x t i j) := by
  unfold State.runTile
  try dsimp only
  repeat' (
    first
    | with_reducible (first | exact Alters.refl _ _ | apply Alters.ite | assumption |
                          apply State.beginSample_alters | apply State.endSample_alters | apply State.mxShow_alters |
                          apply State.runWork_alters | apply Alters.of_pair (by assumption))
    | exact Part.le_trans (by decide) hc
    | (refine (?_ : Part.le _ _ = true); decide)
    | intro _
    | with_reducible (first | rfl)
    | split
    | dsimp only
    | simp only [id_eq]
  )

theorem State.faultCompute_alters {s : State} {q e : Nat} {er : Err} {ch : List Part} {s0 : State} (h0 : Alters ch s0
    s) (hc : Part.le (Part.err ++ [Part.queue]) ch = true) : Alters ch s0 (State.faultCompute s q e er) := by
  unfold State.faultCompute
  try dsimp only
  repeat' (
    first
    | with_reducible (first | exact Alters.refl _ _ | apply Alters.ite | assumption |
                          apply State.faultHead_alters | apply State.faultTile_alters)
    | exact Part.le_trans (by decide) hc
    | (refine (?_ : Part.le _ _ = true); decide)
    | intro _
    | with_reducible (first | rfl)
    | split
    | dsimp only
    | simp only [id_eq]
  )

theorem State.runCompute_alters {s : State} {q i e : Nat} {ch : List Part} {s0 : State} (h0 : Alters ch s0 s) (hc :
    Part.le (Part.err ++ [Part.words, Part.tile, Part.mem, Part.queue, Part.sig, Part.nose, Part.power, Part.host]) ch
    = true) : Alters ch s0 (State.runCompute s q i e) := by
  unfold State.runCompute
  try dsimp only
  repeat' (
    first
    | with_reducible (first | exact Alters.refl _ _ | apply Alters.ite | assumption |
                          apply Alters.foldl | apply State.computeChecks_alters | apply State.faultCompute_alters |
                          apply State.issue_alters | apply State.runTile_alters | apply Alters.foldl1 |
                          apply Alters.of_pair (by assumption) | apply Alters.ofJudged)
    | exact Part.le_trans (by decide) hc
    | (refine (?_ : Part.le _ _ = true); decide)
    | intro _
    | with_reducible (first | rfl)
    | split
    | dsimp only
    | simp only [id_eq]
  )

theorem State.issueCompute_alters {s : State} {q op : Nat} {c : Nat → Bool} {ch : List Part} {s0 : State} (h0 : Alters
    ch s0 s) (hc : Part.le (Part.err ++ [Part.words, Part.tile, Part.mem, Part.queue, Part.sig, Part.nose, Part.power,
    Part.host]) ch = true) : Alters ch s0 (State.issueCompute s q op c) := by
  unfold State.issueCompute
  try dsimp only
  repeat' (
    first
    | with_reducible (first | exact Alters.refl _ _ | apply Alters.ite | assumption |
                          apply State.issueHead_alters | apply State.runCompute_alters)
    | exact Part.le_trans (by decide) hc
    | (refine (?_ : Part.le _ _ = true); decide)
    | intro _
    | with_reducible (first | rfl)
    | split
    | dsimp only
    | simp only [id_eq]
  )

theorem execMatmul_alters {q : Fin 64} {s : State} {t0} (e : execMatmul q s = .next t0) : Alters (Part.err ++
    [Part.words, Part.tile, Part.mem, Part.queue, Part.sig, Part.nose, Part.power, Part.host]) s t0 := by
  unfold execMatmul at e
  try dsimp only at e
  repeat' split at e
  all_goals (injection e with e; subst e)
  all_goals try dsimp only
  repeat' (
    first
    | with_reducible (first | exact Alters.refl _ _ | apply Alters.ite | assumption |
                          apply State.issueCompute_alters)
    | exact Alters.refl _ _
    | (refine (?_ : Part.le _ _ = true); decide)
    | intro _
    | with_reducible (first | rfl)
    | split
    | dsimp only
    | simp only [id_eq]
  )

theorem execAnchorOnly_alters {q : Fin 64} {s : State} {t0} (e : execAnchorOnly q s = .next t0) : Alters (Part.err ++
    [Part.words, Part.tile, Part.mem, Part.queue, Part.sig, Part.nose, Part.power, Part.host]) s t0 := by
  unfold execAnchorOnly at e
  try dsimp only at e
  repeat' split at e
  all_goals (injection e with e; subst e)
  all_goals try dsimp only
  repeat' (
    first
    | with_reducible (first | exact Alters.refl _ _ | apply Alters.ite | assumption |
                          apply State.issueCompute_alters)
    | exact Alters.refl _ _
    | (refine (?_ : Part.le _ _ = true); decide)
    | intro _
    | with_reducible (first | rfl)
    | split
    | dsimp only
    | simp only [id_eq]
  )

theorem execMapCmd_alters {q : Fin 64} {s : State} {t0} (e : execMapCmd q s = .next t0) : Alters (Part.err ++
    [Part.words, Part.tile, Part.mem, Part.queue, Part.sig, Part.nose, Part.power, Part.host]) s t0 := by
  unfold execMapCmd at e
  try dsimp only at e
  repeat' split at e
  all_goals (injection e with e; subst e)
  all_goals try dsimp only
  repeat' (
    first
    | with_reducible (first | exact Alters.refl _ _ | apply Alters.ite | assumption |
                          apply State.issueCompute_alters)
    | exact Alters.refl _ _
    | (refine (?_ : Part.le _ _ = true); decide)
    | intro _
    | with_reducible (first | rfl)
    | split
    | dsimp only
    | simp only [id_eq]
  )

theorem execReduce_alters {q : Fin 64} {s : State} {t0} (e : execReduce q s = .next t0) : Alters (Part.err ++
    [Part.words, Part.tile, Part.mem, Part.queue, Part.sig, Part.nose, Part.power, Part.host]) s t0 := by
  unfold execReduce at e
  try dsimp only at e
  repeat' split at e
  all_goals (injection e with e; subst e)
  all_goals try dsimp only
  repeat' (
    first
    | with_reducible (first | exact Alters.refl _ _ | apply Alters.ite | assumption |
                          apply State.issueCompute_alters)
    | exact Alters.refl _ _
    | (refine (?_ : Part.le _ _ = true); decide)
    | intro _
    | with_reducible (first | rfl)
    | split
    | dsimp only
    | simp only [id_eq]
  )

theorem execListBuild_alters {q : Fin 64} {s : State} {t0} (e : execListBuild q s = .next t0) : Alters (Part.err ++
    [Part.words, Part.tile, Part.mem, Part.queue, Part.sig, Part.nose, Part.power, Part.host]) s t0 := by
  unfold execListBuild at e
  try dsimp only at e
  repeat' split at e
  all_goals (injection e with e; subst e)
  all_goals try dsimp only
  repeat' (
    first
    | with_reducible (first | exact Alters.refl _ _ | apply Alters.ite | assumption |
                          apply State.issueCompute_alters)
    | exact Alters.refl _ _
    | (refine (?_ : Part.le _ _ = true); decide)
    | intro _
    | with_reducible (first | rfl)
    | split
    | dsimp only
    | simp only [id_eq]
  )

theorem execConvert_alters {q : Fin 64} {s : State} {t0} (e : execConvert q s = .next t0) : Alters (Part.err ++
    [Part.words, Part.tile, Part.mem, Part.queue, Part.sig, Part.nose, Part.power, Part.host]) s t0 := by
  unfold execConvert at e
  try dsimp only at e
  repeat' split at e
  all_goals (injection e with e; subst e)
  all_goals try dsimp only
  repeat' (
    first
    | with_reducible (first | exact Alters.refl _ _ | apply Alters.ite | assumption |
                          apply State.issueCompute_alters)
    | exact Alters.refl _ _
    | (refine (?_ : Part.le _ _ = true); decide)
    | intro _
    | with_reducible (first | rfl)
    | split
    | dsimp only
    | simp only [id_eq]
  )

theorem execPrunedConvert_alters {q : Fin 64} {s : State} {t0} (e : execPrunedConvert q s = .next t0) : Alters
    (Part.err ++ [Part.words, Part.tile, Part.mem, Part.queue, Part.sig, Part.nose, Part.power, Part.host]) s t0 := by
  unfold execPrunedConvert at e
  try dsimp only at e
  repeat' split at e
  all_goals (injection e with e; subst e)
  all_goals try dsimp only
  repeat' (
    first
    | with_reducible (first | exact Alters.refl _ _ | apply Alters.ite | assumption |
                          apply State.issueCompute_alters)
    | exact Alters.refl _ _
    | (refine (?_ : Part.le _ _ = true); decide)
    | intro _
    | with_reducible (first | rfl)
    | split
    | dsimp only
    | simp only [id_eq]
  )

theorem execRecipeLoad_alters {q : Fin 64} {s : State} {t0} (e : execRecipeLoad q s = .next t0) : Alters (Part.err ++
    [Part.words, Part.tile, Part.mem, Part.queue, Part.sig, Part.nose, Part.power, Part.host]) s t0 := by
  unfold execRecipeLoad at e
  try dsimp only at e
  repeat' split at e
  all_goals (injection e with e; subst e)
  all_goals try dsimp only
  repeat' (
    first
    | with_reducible (first | exact Alters.refl _ _ | apply Alters.ite | assumption |
                          apply State.issueHead_alters | apply State.runCompute_alters)
    | exact Alters.refl _ _
    | (refine (?_ : Part.le _ _ = true); decide)
    | intro _
    | with_reducible (first | rfl)
    | split
    | dsimp only
    | simp only [id_eq]
  )

end Sys2Proof.Machine
end

