-- ==== Sys2Proof/Laws/AltersControl.lean ====
section
/-! SUPPORT. What each operation of Machine/Control.lean alters. -/

-- One closing tactic serves every lemma here; where a goal needs few of its steps the linters name the rest.
set_option linter.all false
set_option Elab.async false

namespace Sys2Proof.Machine

theorem State.issueDone_alters {s : State} {q i e : Nat} {g : State → State} {ch : List Part} {s0 : State} (h0 :
    Alters ch s0 s) (hg : ∀ {z0} {u0}, Alters ch z0 u0 → Alters ch z0 (g u0)) (hc : Part.le (Part.err ++ [Part.queue,
    Part.sig, Part.nose]) ch = true) : Alters ch s0 (State.issueDone s q i e g) := by
  unfold State.issueDone
  try dsimp only
  repeat' (
    first
    | with_reducible (first | exact Alters.refl _ _ | apply Alters.ite | assumption | apply hg |
                            apply State.issue_alters | apply State.settle_alters)
    | exact Part.le_trans (by decide) hc
    | (refine (?_ : Part.le _ _ = true); decide)
    | intro _
    | with_reducible (first | rfl)
    | split
    | dsimp only
    | simp only [id_eq]
  )

theorem State.showRetain_alters {s : State} {q : Nat} {ch : List Part} {s0 : State} (h0 : Alters ch s0 s) (hc :
    Part.le [.cells] ch = true) : Alters ch s0 (State.showRetain s q) := by
  unfold State.showRetain
  try dsimp only
  repeat' (
    first
    | with_reducible (first | exact Alters.refl _ _ | apply Alters.ite | assumption | apply Alters.foldl |
                            apply State.wr_alters | apply Alters.foldl1)
    | exact Part.le_trans (by decide) hc
    | (refine (?_ : Part.le _ _ = true); decide)
    | intro _
    | with_reducible (first | rfl)
    | split
    | dsimp only
    | simp only [id_eq]
  )

theorem State.passGate_alters {s : State} {q i n : Nat} {ch : List Part} {s0 : State} (h0 : Alters ch s0 s) (hc :
    Part.le [.cells, .queue] ch = true) : Alters ch s0 (State.passGate s q i n) := by
  unfold State.passGate
  try dsimp only
  repeat' (
    first
    | with_reducible (first | exact Alters.refl _ _ | apply Alters.ite | assumption | apply State.onQ_alters |
                            apply State.showRetain_alters | apply State.wr_alters)
    | exact Part.le_trans (by decide) hc
    | (refine (?_ : Part.le _ _ = true); decide)
    | intro _
    | with_reducible (first | rfl)
    | split
    | dsimp only
    | simp only [id_eq]
  )

theorem State.runWait_alters {s : State} {q i e : Nat} {ch : List Part} {s0 : State} (h0 : Alters ch s0 s) (hc :
    Part.le (Part.err ++ [Part.queue, Part.sig, Part.nose]) ch = true) : Alters ch s0 (State.runWait s q i e) := by
  unfold State.runWait
  try dsimp only
  repeat' (
    first
    | with_reducible (first | exact Alters.refl _ _ | apply Alters.ite | assumption | apply State.faultHead_alters |
                            apply State.issueDone_alters | apply State.passGate_alters)
    | exact Part.le_trans (by decide) hc
    | (refine (?_ : Part.le _ _ = true); decide)
    | intro _
    | with_reducible (first | rfl)
    | split
    | dsimp only
    | simp only [id_eq]
  )

theorem execWaitCmd_alters {q : Fin 64} {s : State} {t0} (e : execWaitCmd q s = .next t0) : Alters (Part.err ++
    [Part.queue, Part.sig, Part.nose, Part.host]) s t0 := by
  unfold execWaitCmd at e
  try dsimp only at e
  repeat' split at e
  all_goals (injection e with e; subst e)
  all_goals try dsimp only
  repeat' (
    first
    | with_reducible (first | exact Alters.refl _ _ | apply Alters.ite | assumption |
                          apply State.issueHead_alters | apply State.runWait_alters)
    | exact Alters.refl _ _
    | (refine (?_ : Part.le _ _ = true); decide)
    | intro _
    | with_reducible (first | rfl)
    | split
    | dsimp only
    | simp only [id_eq]
  )

theorem State.signalItem_alters {s : State} {q op : Nat} {x : Nat × Nat} {ch : List Part} {s0 : State} (h0 : Alters ch
    s0 s) (hc : Part.le (Part.err ++ [Part.queue, Part.sig, Part.nose]) ch = true) : Alters ch s0 (State.signalItem s q op x) :=
    by
  unfold State.signalItem
  try dsimp only
  repeat' (
    first
    | with_reducible (first | exact Alters.refl _ _ | apply Alters.ite | assumption | apply State.addCtr_alters |
                            apply State.setCtr_alters | apply State.wr_alters)
    | exact Part.le_trans (by decide) hc
    | (refine (?_ : Part.le _ _ = true); decide)
    | intro _
    | with_reducible (first | rfl)
    | split
    | dsimp only
    | simp only [id_eq]
  )

theorem State.takeCkpts_alters {s before : State} {ch : List Part} {s0 : State} (h0 : Alters ch s0 s) (hc : Part.le
    [.nose] ch = true) : Alters ch s0 (State.takeCkpts s before) := by
  unfold State.takeCkpts
  try dsimp only
  repeat' (
    first
    | with_reducible (first | exact Alters.refl _ _ | apply Alters.ite | assumption |
                          apply State.mapRuns_alters)
    | exact Part.le_trans (by decide) hc
    | (refine (?_ : Part.le _ _ = true); decide)
    | intro _
    | with_reducible (first | rfl)
    | split
    | dsimp only
    | simp only [id_eq]
  )

theorem State.runSignal_alters {s : State} {q i e : Nat} {ch : List Part} {s0 : State} (h0 : Alters ch s0 s) (hc :
    Part.le (Part.err ++ [Part.queue, Part.sig, Part.nose]) ch = true) : Alters ch s0 (State.runSignal s q i e) := by
  unfold State.runSignal
  try dsimp only
  repeat' (
    first
    | with_reducible (first | exact Alters.refl _ _ | apply Alters.ite | assumption |
                          apply Alters.foldl | apply State.faultHead_alters | apply State.issueDone_alters |
                          apply State.signalItem_alters | apply State.takeCkpts_alters | apply Alters.foldl1)
    | exact Part.le_trans (by decide) hc
    | (refine (?_ : Part.le _ _ = true); decide)
    | intro _
    | with_reducible (first | rfl)
    | split
    | dsimp only
    | simp only [id_eq]
  )

theorem execSignalAdd_alters {q : Fin 64} {s : State} {t0} (e : execSignalAdd q s = .next t0) : Alters (Part.err ++
    [Part.queue, Part.sig, Part.nose, Part.host]) s t0 := by
  unfold execSignalAdd at e
  try dsimp only at e
  repeat' split at e
  all_goals (injection e with e; subst e)
  all_goals try dsimp only
  repeat' (
    first
    | with_reducible (first | exact Alters.refl _ _ | apply Alters.ite | assumption |
                          apply State.issueHead_alters | apply State.runSignal_alters)
    | exact Alters.refl _ _
    | (refine (?_ : Part.le _ _ = true); decide)
    | intro _
    | with_reducible (first | rfl)
    | split
    | dsimp only
    | simp only [id_eq]
  )

theorem execSignalSet_alters {q : Fin 64} {s : State} {t0} (e : execSignalSet q s = .next t0) : Alters (Part.err ++
    [Part.queue, Part.sig, Part.nose, Part.host]) s t0 := by
  unfold execSignalSet at e
  try dsimp only at e
  repeat' split at e
  all_goals (injection e with e; subst e)
  all_goals try dsimp only
  repeat' (
    first
    | with_reducible (first | exact Alters.refl _ _ | apply Alters.ite | assumption |
                          apply State.issueHead_alters | apply State.runSignal_alters)
    | exact Alters.refl _ _
    | (refine (?_ : Part.le _ _ = true); decide)
    | intro _
    | with_reducible (first | rfl)
    | split
    | dsimp only
    | simp only [id_eq]
  )

theorem execSignalBound_alters {q : Fin 64} {s : State} {t0} (e : execSignalBound q s = .next t0) : Alters (Part.err
    ++ [Part.queue, Part.sig, Part.nose, Part.host]) s t0 := by
  unfold execSignalBound at e
  try dsimp only at e
  repeat' split at e
  all_goals (injection e with e; subst e)
  all_goals try dsimp only
  repeat' (
    first
    | with_reducible (first | exact Alters.refl _ _ | apply Alters.ite | assumption |
                          apply State.issueHead_alters | apply State.runSignal_alters)
    | exact Alters.refl _ _
    | (refine (?_ : Part.le _ _ = true); decide)
    | intro _
    | with_reducible (first | rfl)
    | split
    | dsimp only
    | simp only [id_eq]
  )

theorem State.runEvalBegin_alters {s : State} {q i e : Nat} {ch : List Part} {s0 : State} (h0 : Alters ch s0 s) (hc :
    Part.le (Part.err ++ [Part.queue, Part.sig, Part.nose]) ch = true) : Alters ch s0 (State.runEvalBegin s q i e) := by
  unfold State.runEvalBegin
  try dsimp only
  repeat' (
    first
    | with_reducible (first | exact Alters.refl _ _ | apply Alters.ite | assumption | apply State.faultHead_alters |
                            apply State.issueDone_alters | apply State.onQ_alters | apply State.showHold_alters |
                            apply State.wr_alters)
    | exact Part.le_trans (by decide) hc
    | (refine (?_ : Part.le _ _ = true); decide)
    | intro _
    | with_reducible (first | rfl)
    | split
    | dsimp only
    | simp only [id_eq]
  )

theorem execEvalBegin_alters {q : Fin 64} {s : State} {t0} (e : execEvalBegin q s = .next t0) : Alters (Part.err ++
    [Part.queue, Part.sig, Part.nose, Part.host]) s t0 := by
  unfold execEvalBegin at e
  try dsimp only at e
  repeat' split at e
  all_goals (injection e with e; subst e)
  all_goals try dsimp only
  repeat' (
    first
    | with_reducible (first | exact Alters.refl _ _ | apply Alters.ite | assumption |
                          apply State.issueHead_alters | apply State.runEvalBegin_alters)
    | exact Alters.refl _ _
    | (refine (?_ : Part.le _ _ = true); decide)
    | intro _
    | with_reducible (first | rfl)
    | split
    | dsimp only
    | simp only [id_eq]
  )

theorem State.runEvalEnd_alters {s : State} {q i e : Nat} {ch : List Part} {s0 : State} (h0 : Alters ch s0 s) (hc :
    Part.le (Part.err ++ [Part.queue, Part.sig, Part.nose]) ch = true) : Alters ch s0 (State.runEvalEnd s q i e) := by
  unfold State.runEvalEnd
  try dsimp only
  repeat' (
    first
    | with_reducible (first | exact Alters.refl _ _ | apply Alters.ite | assumption | apply State.faultHead_alters |
                            apply State.issueDone_alters | apply State.onQ_alters | apply State.showHold_alters |
                            apply State.wr_alters)
    | exact Part.le_trans (by decide) hc
    | (refine (?_ : Part.le _ _ = true); decide)
    | intro _
    | with_reducible (first | rfl)
    | split
    | dsimp only
    | simp only [id_eq]
  )

theorem execEvalEnd_alters {q : Fin 64} {s : State} {t0} (e : execEvalEnd q s = .next t0) : Alters (Part.err ++
    [Part.queue, Part.sig, Part.nose, Part.host]) s t0 := by
  unfold execEvalEnd at e
  try dsimp only at e
  repeat' split at e
  all_goals (injection e with e; subst e)
  all_goals try dsimp only
  repeat' (
    first
    | with_reducible (first | exact Alters.refl _ _ | apply Alters.ite | assumption |
                          apply State.issueHead_alters | apply State.runEvalEnd_alters)
    | exact Alters.refl _ _
    | (refine (?_ : Part.le _ _ = true); decide)
    | intro _
    | with_reducible (first | rfl)
    | split
    | dsimp only
    | simp only [id_eq]
  )

end Sys2Proof.Machine
end

