-- ==== Sys2Proof/Laws/AltersStream.lean ====
section
/-! SUPPORT. What each operation of Machine/Stream.lean alters. -/

-- One closing tactic serves every lemma here; where a goal needs few of its steps the linters name the rest.
set_option linter.all false
set_option Elab.async false

namespace Sys2Proof.Machine

theorem State.spadBytes_alters {s : State} {o : Option Owner} {t a n : Nat} {ch : List Part} {s0 : State} (h0 : Alters
    ch s0 s) (hc : Part.le (Part.err ++ [Part.tile, Part.nose]) ch = true) : Alters ch s0 (State.spadBytes s o t a n).1 := by
  unfold State.spadBytes
  try dsimp only
  repeat' (
    first
    | with_reducible (first | exact Alters.refl _ _ | apply Alters.ite | assumption | apply State.spadReads_alters |
                            apply Alters.of_pair (by assumption))
    | exact Part.le_trans (by decide) hc
    | (refine (?_ : Part.le _ _ = true); decide)
    | intro _
    | with_reducible (first | rfl)
    | split
    | dsimp only
    | simp only [id_eq]
  )
theorem State.spadBytes_altersP {s : State} {o : Option Owner} {t a n : Nat} {t0 r0} (e_ : State.spadBytes s o t a n =
    (t0, r0)) {ch : List Part} {s0 : State} (h0 : Alters ch s0 s) (hc : Part.le (Part.err ++ [Part.tile, Part.nose]) ch =
    true) : Alters ch s0 t0 := by
  have h := State.spadBytes_alters (s := s) (o := o) (t := t) (a := a) (n := n) h0  hc
  rw [e_] at h; exact h

theorem State.readPiece_alters {s : State} {o : Owner} {x : StreamWork} {c : Piece} {ch : List Part} {s0 : State} (h0
    : Alters ch s0 s) (hc : Part.le (Part.err ++ [Part.tile, Part.mem, Part.nose, Part.power, Part.host]) ch = true) :
    Alters ch s0 (State.readPiece s o x c).1 := by
  unfold State.readPiece
  try dsimp only
  repeat' (
    first
    | with_reducible (first | exact Alters.refl _ _ | apply Alters.ite | assumption |
                          apply State.hostGet_alters | apply State.memRead_alters | apply State.spadBytes_alters |
                          apply Alters.of_pair (by assumption))
    | exact Part.le_trans (by decide) hc
    | (refine (?_ : Part.le _ _ = true); decide)
    | intro _
    | with_reducible (first | rfl)
    | split
    | dsimp only
    | simp only [id_eq]
  )
theorem State.readPiece_altersP {s : State} {o : Owner} {x : StreamWork} {c : Piece} {t0 r0} (e_ : State.readPiece s o
    x c = (t0, r0)) {ch : List Part} {s0 : State} (h0 : Alters ch s0 s) (hc : Part.le (Part.err ++ [Part.tile,
    Part.mem, Part.nose, Part.power, Part.host]) ch = true) : Alters ch s0 t0 := by
  have h := State.readPiece_alters (s := s) (o := o) (x := x) (c := c) h0  hc
  rw [e_] at h; exact h

theorem State.writePiece_alters {s : State} {o : Owner} {x : StreamWork} {c : Piece} {bs : List Byte} {ch : List Part}
    {s0 : State} (h0 : Alters ch s0 s) (hc : Part.le (Part.err ++ [Part.words, Part.tile, Part.memBytes, Part.mem,
    Part.queue, Part.sig, Part.nose, Part.power, Part.host]) ch = true) : Alters ch s0 (State.writePiece s o x c bs).1
    := by
  unfold State.writePiece
  try dsimp only
  repeat' (
    first
    | with_reducible (first | exact Alters.refl _ _ | apply Alters.ite | assumption |
                          apply State.carry_alters | apply State.hostPut_alters | apply State.remoteWrite_alters |
                          apply State.sealedWrite_alters | apply Alters.of_pair (by assumption))
    | exact Part.le_trans (by decide) hc
    | (refine (?_ : Part.le _ _ = true); decide)
    | intro _
    | with_reducible (first | rfl)
    | split
    | dsimp only
    | simp only [id_eq]
  )
theorem State.writePiece_altersP {s : State} {o : Owner} {x : StreamWork} {c : Piece} {bs : List Byte} {t0 r0} (e_ :
    State.writePiece s o x c bs = (t0, r0)) {ch : List Part} {s0 : State} (h0 : Alters ch s0 s) (hc : Part.le
    (Part.err ++ [Part.words, Part.tile, Part.memBytes, Part.mem, Part.queue, Part.sig, Part.nose, Part.power,
    Part.host]) ch = true) : Alters ch s0 t0 := by
  have h := State.writePiece_alters (s := s) (o := o) (x := x) (c := c) (bs := bs) h0  hc
  rw [e_] at h; exact h

theorem State.movePieces_alters {s : State} {o : Owner} {x : StreamWork} {ps : List Piece} {ch : List Part} {s0 :
    State} (h0 : Alters ch s0 s) (hc : Part.le (Part.err ++ [Part.words, Part.tile, Part.memBytes, Part.mem,
    Part.queue, Part.sig, Part.nose, Part.power, Part.host]) ch = true) : Alters ch s0 (State.movePieces s o x ps) :=
    by
  induction ps generalizing s o x with
  | nil =>
    unfold State.movePieces
    try dsimp only
    repeat' (
      first
      | with_reducible (first | exact Alters.refl _ _ | apply Alters.ite | assumption |
                            apply State.flightErr_alters | apply State.readPiece_alters | apply State.writePiece_alters |
                            apply Alters.of_pair (by assumption))
      | exact Part.le_trans (by decide) hc
      | (refine (?_ : Part.le _ _ = true); decide)
      | intro _
      | with_reducible (first | rfl)
      | split
      | dsimp only
      | simp only [id_eq]
    )
  | cons hd_ tl_ ih_ =>
    unfold State.movePieces
    try dsimp only
    repeat' (
      first
      | with_reducible (first | apply ih_ | exact Alters.refl _ _ | apply Alters.ite | assumption |
                            apply State.flightErr_alters | apply State.readPiece_alters | apply State.writePiece_alters |
                            apply Alters.of_pair (by assumption))
      | exact Part.le_trans (by decide) hc
      | (refine (?_ : Part.le _ _ = true); decide)
      | intro _
      | with_reducible (first | rfl)
      | split
      | dsimp only
      | simp only [id_eq]
    )

theorem State.onStream_alters {s : State} {g : StreamSt → StreamSt} {ch : List Part} {s0 : State} (h0 : Alters ch s0
    s) (hc : Part.le [.stream] ch = true) : Alters ch s0 (State.onStream s g) := by
  unfold State.onStream
  try dsimp only
  repeat' (
    first
    | with_reducible (first | exact Alters.refl _ _ | apply Alters.ite | assumption)
    | exact Part.le_trans (by decide) hc
    | (refine (?_ : Part.le _ _ = true); decide)
    | intro _
    | with_reducible (first | rfl)
    | split
    | dsimp only
    | simp only [id_eq]
    | with_reducible (first | apply Alters.upd_stream)
  )

theorem State.takeSlot_alters {s : State} {q : Nat} {ch : List Part} {s0 : State} (h0 : Alters ch s0 s) (hc : Part.le
    [.stream] ch = true) : Alters ch s0 (State.takeSlot s q) := by
  unfold State.takeSlot
  try dsimp only
  repeat' (
    first
    | with_reducible (first | exact Alters.refl _ _ | apply Alters.ite | assumption |
                          apply State.onStream_alters)
    | exact Part.le_trans (by decide) hc
    | (refine (?_ : Part.le _ _ = true); decide)
    | intro _
    | with_reducible (first | rfl)
    | split
    | dsimp only
    | simp only [id_eq]
  )

theorem State.giveSlots_alters {s : State} {q n : Nat} {ch : List Part} {s0 : State} (h0 : Alters ch s0 s) (hc :
    Part.le [.stream] ch = true) : Alters ch s0 (State.giveSlots s q n) := by
  unfold State.giveSlots
  try dsimp only
  repeat' (
    first
    | with_reducible (first | exact Alters.refl _ _ | apply Alters.ite | assumption |
                          apply State.onStream_alters)
    | exact Part.le_trans (by decide) hc
    | (refine (?_ : Part.le _ _ = true); decide)
    | intro _
    | with_reducible (first | rfl)
    | split
    | dsimp only
    | simp only [id_eq]
  )

theorem State.pieceDone_alters {s : State} {o : Owner} {ch : List Part} {s0 : State} (h0 : Alters ch s0 s) (hc :
    Part.le [.queue] ch = true) : Alters ch s0 (State.pieceDone s o) := by
  unfold State.pieceDone
  try dsimp only
  repeat' (
    first
    | with_reducible (first | exact Alters.refl _ _ | apply Alters.ite | assumption |
                          apply State.onFlight_alters)
    | exact Part.le_trans (by decide) hc
    | (refine (?_ : Part.le _ _ = true); decide)
    | intro _
    | with_reducible (first | rfl)
    | split
    | dsimp only
    | simp only [id_eq]
  )

theorem State.dropPosts_alters {s : State} {o : Owner} {ch : List Part} {s0 : State} (h0 : Alters ch s0 s) (hc :
    Part.le [.stream, .queue] ch = true) : Alters ch s0 (State.dropPosts s o) := by
  unfold State.dropPosts
  try dsimp only
  repeat' (
    first
    | with_reducible (first | exact Alters.refl _ _ | apply Alters.ite | assumption |
                          apply State.onFlight_alters | apply State.onStream_alters)
    | exact Part.le_trans (by decide) hc
    | (refine (?_ : Part.le _ _ = true); decide)
    | intro _
    | with_reducible (first | rfl)
    | split
    | dsimp only
    | simp only [id_eq]
  )

theorem State.setMove_alters {s : State} {m m' : Move} {ch : List Part} {s0 : State} (h0 : Alters ch s0 s) (hc :
    Part.le [.stream] ch = true) : Alters ch s0 (State.setMove s m m') := by
  unfold State.setMove
  try dsimp only
  repeat' (
    first
    | with_reducible (first | exact Alters.refl _ _ | apply Alters.ite | assumption | apply State.onStream_alters)
    | exact Part.le_trans (by decide) hc
    | (refine (?_ : Part.le _ _ = true); decide)
    | intro _
    | with_reducible (first | rfl)
    | split
    | dsimp only
    | simp only [id_eq]
  )

theorem State.turnGran_alters {s : State} {off st : Nat} {ch : List Part} {s0 : State} (h0 : Alters ch s0 s) (hc :
    Part.le [.cells, .mem] ch = true) : Alters ch s0 (State.turnGran s off st) := by
  unfold State.turnGran
  try dsimp only
  repeat' (
    first
    | with_reducible (first | exact Alters.refl _ _ | apply Alters.ite | assumption | apply State.moveGran_alters)
    | exact Part.le_trans (by decide) hc
    | (refine (?_ : Part.le _ _ = true); decide)
    | intro _
    | with_reducible (first | rfl)
    | split
    | dsimp only
    | simp only [id_eq]
  )

theorem State.loseMove_alters {s : State} {m : Move} {e : Err} {ch : List Part} {s0 : State} (h0 : Alters ch s0 s) (hc
    : Part.le [.cells, .mem, .stream, .queue] ch = true) : Alters ch s0 (State.loseMove s m e) := by
  unfold State.loseMove
  try dsimp only
  repeat' (
    first
    | with_reducible (first | exact Alters.refl _ _ | apply Alters.ite | assumption |
                          apply Alters.foldl | apply State.dropPosts_alters | apply State.flightErr_alters |
                          apply State.giveSlots_alters | apply State.onFlight_alters | apply State.onStream_alters |
                          apply State.turnGran_alters | apply Alters.foldl1)
    | exact Part.le_trans (by decide) hc
    | (refine (?_ : Part.le _ _ = true); decide)
    | intro _
    | with_reducible (first | rfl)
    | split
    | dsimp only
    | simp only [id_eq]
  )

theorem State.sendFrames_alters {s : State} {o : Owner} {x : StreamWork} {n off first : Nat} {bs : List Byte} {k :
    Nat} {ch : List Part} {s0 : State} (h0 : Alters ch s0 s) (hc : Part.le (Part.err ++ [Part.nose, Part.fab]) ch =
    true) : Alters ch s0 (State.sendFrames s o x n off first bs k).1 := by
  induction k generalizing s o x n off first bs with
  | zero =>
    unfold State.sendFrames
    try dsimp only
    repeat' (
      first
      | with_reducible (first | exact Alters.refl _ _ | apply Alters.ite | assumption |
                            apply State.raiseFor_alters | apply State.request_alters | apply Alters.of_pair (by assumption))
      | exact Part.le_trans (by decide) hc
      | (refine (?_ : Part.le _ _ = true); decide)
      | intro _
      | with_reducible (first | rfl)
      | split
      | dsimp only
      | simp only [id_eq]
    )
  | succ n_ ih_ =>
    unfold State.sendFrames
    try dsimp only
    repeat' (
      first
      | with_reducible (first | apply ih_ | exact Alters.refl _ _ | apply Alters.ite | assumption |
                            apply State.raiseFor_alters | apply State.request_alters | apply Alters.of_pair (by assumption))
      | exact Part.le_trans (by decide) hc
      | (refine (?_ : Part.le _ _ = true); decide)
      | intro _
      | with_reducible (first | rfl)
      | split
      | dsimp only
      | simp only [id_eq]
    )
theorem State.sendFrames_altersP {s : State} {o : Owner} {x : StreamWork} {n off first : Nat} {bs : List Byte} {k :
    Nat} {t0 r0} (e_ : State.sendFrames s o x n off first bs k = (t0, r0)) {ch : List Part} {s0 : State} (h0 : Alters
    ch s0 s) (hc : Part.le (Part.err ++ [Part.nose, Part.fab]) ch = true) : Alters ch s0 t0 := by
  have h := State.sendFrames_alters (s := s) (o := o) (x := x) (n := n) (off := off) (first := first) (bs := bs) (k := k) h0  hc
  rw [e_] at h; exact h

theorem State.postWrite_alters {s : State} {o : Owner} {x : StreamWork} {c : Piece} {ch : List Part} {s0 : State} (h0
    : Alters ch s0 s) (hc : Part.le (Part.err ++ [Part.tile, Part.mem, Part.stream, Part.nose, Part.fab, Part.power,
    Part.host]) ch = true) : Alters ch s0 (State.postWrite s o x c).1 := by
  unfold State.postWrite
  try dsimp only
  repeat' (
    first
    | with_reducible (first | exact Alters.refl _ _ | apply Alters.ite | assumption |
                          apply State.onStream_alters | apply State.readPiece_alters | apply State.sendFrames_alters |
                          apply Alters.of_pair (by assumption))
    | exact Part.le_trans (by decide) hc
    | (refine (?_ : Part.le _ _ = true); decide)
    | intro _
    | with_reducible (first | rfl)
    | split
    | dsimp only
    | simp only [id_eq]
  )
theorem State.postWrite_altersP {s : State} {o : Owner} {x : StreamWork} {c : Piece} {t0 r0} (e_ : State.postWrite s o
    x c = (t0, r0)) {ch : List Part} {s0 : State} (h0 : Alters ch s0 s) (hc : Part.le (Part.err ++ [Part.tile,
    Part.mem, Part.stream, Part.nose, Part.fab, Part.power, Part.host]) ch = true) : Alters ch s0 t0 := by
  have h := State.postWrite_alters (s := s) (o := o) (x := x) (c := c) h0  hc
  rw [e_] at h; exact h

theorem State.postMove_alters {s : State} {o : Owner} {x : StreamWork} {g : Nat} {c : Piece} {ch : List Part} {s0 :
    State} (h0 : Alters ch s0 s) (hc : Part.le (Part.err ++ [Part.nose, Part.fab]) ch = true) : Alters ch s0
    (State.postMove s o x g c).1 := by
  unfold State.postMove
  try dsimp only
  repeat' (
    first
    | with_reducible (first | exact Alters.refl _ _ | apply Alters.ite | assumption |
                          apply State.raiseFor_alters | apply State.request_alters | apply Alters.of_pair (by assumption))
    | exact Part.le_trans (by decide) hc
    | (refine (?_ : Part.le _ _ = true); decide)
    | intro _
    | with_reducible (first | rfl)
    | split
    | dsimp only
    | simp only [id_eq]
  )
theorem State.postMove_altersP {s : State} {o : Owner} {x : StreamWork} {g : Nat} {c : Piece} {t0 r0} (e_ :
    State.postMove s o x g c = (t0, r0)) {ch : List Part} {s0 : State} (h0 : Alters ch s0 s) (hc : Part.le (Part.err
    ++ [Part.nose, Part.fab]) ch = true) : Alters ch s0 t0 := by
  have h := State.postMove_alters (s := s) (o := o) (x := x) (g := g) (c := c) h0  hc
  rw [e_] at h; exact h

theorem State.postOne_alters {s : State} {p : Post} {c : Piece} {ch : List Part} {s0 : State} (h0 : Alters ch s0 s)
    (hc : Part.le (Part.err ++ [Part.tile, Part.mem, Part.stream, Part.nose, Part.fab, Part.power, Part.host]) ch =
    true) : Alters ch s0 (State.postOne s p c).1 := by
  unfold State.postOne
  try dsimp only
  repeat' (
    first
    | with_reducible (first | exact Alters.refl _ _ | apply Alters.ite | assumption |
                          apply State.postMove_alters | apply State.postWrite_alters |
                          apply Alters.of_pair (by assumption))
    | exact Part.le_trans (by decide) hc
    | (refine (?_ : Part.le _ _ = true); decide)
    | intro _
    | with_reducible (first | rfl)
    | split
    | dsimp only
    | simp only [id_eq]
  )
theorem State.postOne_altersP {s : State} {p : Post} {c : Piece} {t0 r0} (e_ : State.postOne s p c = (t0, r0)) {ch :
    List Part} {s0 : State} (h0 : Alters ch s0 s) (hc : Part.le (Part.err ++ [Part.tile, Part.mem, Part.stream,
    Part.nose, Part.fab, Part.power, Part.host]) ch = true) : Alters ch s0 t0 := by
  have h := State.postOne_alters (s := s) (p := p) (c := c) h0  hc
  rw [e_] at h; exact h

theorem State.moveFails_alters {s : State} {m : Move} {k : Nat} {e : Err} {ch : List Part} {s0 : State} (h0 : Alters
    ch s0 s) (hc : Part.le [.cells, .mem, .stream, .queue] ch = true) : Alters ch s0 (State.moveFails s m k e) := by
  unfold State.moveFails
  try dsimp only
  repeat' (
    first
    | with_reducible (first | exact Alters.refl _ _ | apply Alters.ite | assumption |
                          apply State.loseMove_alters | apply State.onStream_alters | apply State.setMove_alters)
    | exact Part.le_trans (by decide) hc
    | (refine (?_ : Part.le _ _ = true); decide)
    | intro _
    | with_reducible (first | rfl)
    | split
    | dsimp only
    | simp only [id_eq]
  )

theorem State.postFails_alters {s : State} {p : Post} {e : Err} {ch : List Part} {s0 : State} (h0 : Alters ch s0 s)
    (hc : Part.le [.cells, .mem, .stream, .queue] ch = true) : Alters ch s0 (State.postFails s p e) := by
  unfold State.postFails
  try dsimp only
  repeat' (
    first
    | with_reducible (first | exact Alters.refl _ _ | apply Alters.ite | assumption |
                          apply State.dropPosts_alters | apply State.flightErr_alters | apply State.moveFails_alters)
    | exact Part.le_trans (by decide) hc
    | (refine (?_ : Part.le _ _ = true); decide)
    | intro _
    | with_reducible (first | rfl)
    | split
    | dsimp only
    | simp only [id_eq]
  )

theorem State.pumpPosts_alters {s : State} {q n : Nat} {ch : List Part} {s0 : State} (h0 : Alters ch s0 s) (hc :
    Part.le (Part.err ++ [Part.tile, Part.mem, Part.stream, Part.queue, Part.nose, Part.fab, Part.power, Part.host])
    ch = true) : Alters ch s0 (State.pumpPosts s q n) := by
  induction n generalizing s q with
  | zero =>
    unfold State.pumpPosts
    try dsimp only
    repeat' (
      first
      | with_reducible (first | exact Alters.refl _ _ | apply Alters.ite | assumption |
                            apply State.onStream_alters | apply State.postFails_alters | apply State.postOne_alters |
                            apply State.takeSlot_alters | apply Alters.of_pair (by assumption))
      | exact Part.le_trans (by decide) hc
      | (refine (?_ : Part.le _ _ = true); decide)
      | intro _
      | with_reducible (first | rfl)
      | split
      | dsimp only
      | simp only [id_eq]
    )
  | succ n_ ih_ =>
    unfold State.pumpPosts
    try dsimp only
    repeat' (
      first
      | with_reducible (first | apply ih_ | exact Alters.refl _ _ | apply Alters.ite | assumption |
                            apply State.onStream_alters | apply State.postFails_alters | apply State.postOne_alters |
                            apply State.takeSlot_alters | apply Alters.of_pair (by assumption))
      | exact Part.le_trans (by decide) hc
      | (refine (?_ : Part.le _ _ = true); decide)
      | intro _
      | with_reducible (first | rfl)
      | split
      | dsimp only
      | simp only [id_eq]
    )

theorem State.sendPosts_alters {s : State} {q : Nat} {ch : List Part} {s0 : State} (h0 : Alters ch s0 s) (hc : Part.le
    (Part.err ++ [Part.tile, Part.mem, Part.stream, Part.queue, Part.nose, Part.fab, Part.power, Part.host]) ch =
    true) : Alters ch s0 (State.sendPosts s q) := by
  unfold State.sendPosts
  try dsimp only
  repeat' (
    first
    | with_reducible (first | exact Alters.refl _ _ | apply Alters.ite | assumption |
                          apply State.pumpPosts_alters)
    | exact Part.le_trans (by decide) hc
    | (refine (?_ : Part.le _ _ = true); decide)
    | intro _
    | with_reducible (first | rfl)
    | split
    | dsimp only
    | simp only [id_eq]
  )

theorem State.freeSlot_alters {s : State} {q : Nat} {ch : List Part} {s0 : State} (h0 : Alters ch s0 s) (hc : Part.le
    (Part.err ++ [Part.tile, Part.mem, Part.stream, Part.queue, Part.nose, Part.fab, Part.power, Part.host]) ch =
    true) : Alters ch s0 (State.freeSlot s q) := by
  unfold State.freeSlot
  try dsimp only
  repeat' (
    first
    | with_reducible (first | exact Alters.refl _ _ | apply Alters.ite | assumption |
                          apply State.giveSlots_alters | apply State.sendPosts_alters)
    | exact Part.le_trans (by decide) hc
    | (refine (?_ : Part.le _ _ = true); decide)
    | intro _
    | with_reducible (first | rfl)
    | split
    | dsimp only
    | simp only [id_eq]
  )

theorem State.failMove_alters {s : State} {m : Move} {e : Err} {ch : List Part} {s0 : State} (h0 : Alters ch s0 s) (hc
    : Part.le (Part.err ++ [Part.tile, Part.mem, Part.stream, Part.queue, Part.nose, Part.fab, Part.power, Part.host])
    ch = true) : Alters ch s0 (State.failMove s m e) := by
  unfold State.failMove
  try dsimp only
  repeat' (
    first
    | with_reducible (first | exact Alters.refl _ _ | apply Alters.ite | assumption |
                          apply State.loseMove_alters | apply State.sendPosts_alters)
    | exact Part.le_trans (by decide) hc
    | (refine (?_ : Part.le _ _ = true); decide)
    | intro _
    | with_reducible (first | rfl)
    | split
    | dsimp only
    | simp only [id_eq]
  )

theorem State.endFailed_alters {s : State} {o : Owner} {ch : List Part} {s0 : State} (h0 : Alters ch s0 s) (hc :
    Part.le (Part.err ++ [Part.tile, Part.mem, Part.stream, Part.queue, Part.nose, Part.fab, Part.power, Part.host])
    ch = true) : Alters ch s0 (State.endFailed s o) := by
  unfold State.endFailed
  try dsimp only
  repeat' (
    first
    | with_reducible (first | exact Alters.refl _ _ | apply Alters.ite | assumption |
                          apply State.failMove_alters | apply Alters.ofGiven)
    | exact Part.le_trans (by decide) hc
    | (refine (?_ : Part.le _ _ = true); decide)
    | intro _
    | with_reducible (first | rfl)
    | split
    | dsimp only
    | simp only [id_eq]
  )

theorem State.frameDone_alters {s : State} {o : Owner} {n : Nat} {ch : List Part} {s0 : State} (h0 : Alters ch s0 s)
    (hc : Part.le (Part.err ++ [Part.tile, Part.mem, Part.stream, Part.queue, Part.nose, Part.fab, Part.power,
    Part.host]) ch = true) : Alters ch s0 (State.frameDone s o n) := by
  unfold State.frameDone
  try dsimp only
  repeat' (
    first
    | with_reducible (first | exact Alters.refl _ _ | apply Alters.ite | assumption |
                          apply State.freeSlot_alters | apply State.pieceDone_alters)
    | exact Part.le_trans (by decide) hc
    | (refine (?_ : Part.le _ _ = true); decide)
    | intro _
    | with_reducible (first | rfl)
    | split
    | dsimp only
    | simp only [id_eq]
  )

theorem State.postPieces_alters {s : State} {o : Owner} {x : StreamWork} {ps : List Piece} {ch : List Part} {s0 :
    State} (h0 : Alters ch s0 s) (hc : Part.le (Part.err ++ [Part.tile, Part.mem, Part.stream, Part.queue, Part.nose,
    Part.fab, Part.power, Part.host]) ch = true) : Alters ch s0 (State.postPieces s o x ps) := by
  unfold State.postPieces
  try dsimp only
  repeat' (
    first
    | with_reducible (first | exact Alters.refl _ _ | apply Alters.ite | assumption |
                          apply State.onFlight_alters | apply State.onStream_alters | apply State.sendPosts_alters)
    | exact Part.le_trans (by decide) hc
    | (refine (?_ : Part.le _ _ = true); decide)
    | intro _
    | with_reducible (first | rfl)
    | split
    | dsimp only
    | simp only [id_eq]
  )

theorem State.queueXfers_alters {s : State} {o : Owner} {x : StreamWork} {base : Nat} {ps : List Piece} {ch : List
    Part} {s0 : State} (h0 : Alters ch s0 s) (hc : Part.le [.stream, .queue] ch = true) : Alters ch s0
    (State.queueXfers s o x base ps) := by
  unfold State.queueXfers
  try dsimp only
  repeat' (
    first
    | with_reducible (first | exact Alters.refl _ _ | apply Alters.ite | assumption |
                          apply State.onFlight_alters)
    | exact Part.le_trans (by decide) hc
    | (refine (?_ : Part.le _ _ = true); decide)
    | intro _
    | with_reducible (first | rfl)
    | split
    | dsimp only
    | simp only [id_eq]
    | with_reducible (first | apply Alters.upd_stream)
  )

theorem State.gatherFail_alters {s : State} {o : Owner} {x : StreamWork} {e : Err} {ch : List Part} {s0 : State} (h0 :
    Alters ch s0 s) (hc : Part.le (Part.err ++ [Part.queue, Part.nose]) ch = true) : Alters ch s0 (State.gatherFail s
    o x e) := by
  unfold State.gatherFail
  try dsimp only
  repeat' (
    first
    | with_reducible (first | exact Alters.refl _ _ | apply Alters.ite | assumption |
                          apply State.flightErr_alters | apply State.raiseFor_alters)
    | exact Part.le_trans (by decide) hc
    | (refine (?_ : Part.le _ _ = true); decide)
    | intro _
    | with_reducible (first | rfl)
    | split
    | dsimp only
    | simp only [id_eq]
  )

theorem State.gather_alters {s : State} {o : Owner} {x : StreamWork} {ch : List Part} {s0 : State} (h0 : Alters ch s0
    s) (hc : Part.le (Part.err ++ [Part.tile, Part.stream, Part.queue, Part.nose]) ch = true) : Alters ch s0
    (State.gather s o x) := by
  unfold State.gather
  try dsimp only
  repeat' (
    first
    | with_reducible (first | exact Alters.refl _ _ | apply Alters.ite | assumption |
                          apply State.flightErr_alters | apply State.gatherFail_alters | apply State.onFlight_alters |
                          apply State.onStream_alters | apply State.spadReads_alters |
                          apply Alters.of_pair (by assumption))
    | exact Part.le_trans (by decide) hc
    | (refine (?_ : Part.le _ _ = true); decide)
    | intro _
    | with_reducible (first | rfl)
    | split
    | dsimp only
    | simp only [id_eq]
  )

theorem State.endGather_alters {s : State} {g : Gather} {ch : List Part} {s0 : State} (h0 : Alters ch s0 s) (hc :
    Part.le [.stream, .queue] ch = true) : Alters ch s0 (State.endGather s g) := by
  unfold State.endGather
  try dsimp only
  repeat' (
    first
    | with_reducible (first | exact Alters.refl _ _ | apply Alters.ite | assumption |
                          apply State.onFlight_alters | apply State.onStream_alters)
    | exact Part.le_trans (by decide) hc
    | (refine (?_ : Part.le _ _ = true); decide)
    | intro _
    | with_reducible (first | rfl)
    | split
    | dsimp only
    | simp only [id_eq]
  )

theorem State.gatherNext_alters {s : State} {g : Gather} {ch : List Part} {s0 : State} (h0 : Alters ch s0 s) (hc :
    Part.le (Part.err ++ [Part.tile, Part.stream, Part.queue, Part.nose]) ch = true) : Alters ch s0 (State.gatherNext
    s g) := by
  unfold State.gatherNext
  try dsimp only
  repeat' (
    first
    | with_reducible (first | exact Alters.refl _ _ | apply Alters.ite | assumption |
                          apply State.bump_alters | apply State.endGather_alters | apply State.flightErr_alters |
                          apply State.gatherFail_alters | apply State.onStream_alters | apply State.queueXfers_alters |
                          apply State.spadReads_alters | apply Alters.of_pair (by assumption))
    | exact Part.le_trans (by decide) hc
    | (refine (?_ : Part.le _ _ = true); decide)
    | intro _
    | with_reducible (first | rfl)
    | split
    | dsimp only
    | simp only [id_eq]
  )

theorem State.feedGathers_alters {s : State} {e : Nat} {ch : List Part} {s0 : State} (h0 : Alters ch s0 s) (hc :
    Part.le (Part.err ++ [Part.tile, Part.stream, Part.queue, Part.nose]) ch = true) : Alters ch s0 (State.feedGathers
    s e) := by
  unfold State.feedGathers
  try dsimp only
  repeat' (
    first
    | with_reducible (first | exact Alters.refl _ _ | apply Alters.ite | assumption |
                          apply Alters.foldl | apply State.gatherNext_alters | apply Alters.foldl1)
    | exact Part.le_trans (by decide) hc
    | (refine (?_ : Part.le _ _ = true); decide)
    | intro _
    | with_reducible (first | rfl)
    | split
    | dsimp only
    | simp only [id_eq]
  )

theorem State.startMove_alters {s : State} {o : Owner} {x : StreamWork} {ch : List Part} {s0 : State} (h0 : Alters ch
    s0 s) (hc : Part.le [.stream, .queue] ch = true) : Alters ch s0 (State.startMove s o x) := by
  unfold State.startMove
  try dsimp only
  repeat' (
    first
    | with_reducible (first | exact Alters.refl _ _ | apply Alters.ite | assumption |
                          apply State.onFlight_alters)
    | exact Part.le_trans (by decide) hc
    | (refine (?_ : Part.le _ _ = true); decide)
    | intro _
    | with_reducible (first | rfl)
    | split
    | dsimp only
    | simp only [id_eq]
    | with_reducible (first | apply Alters.upd_stream)
  )

theorem State.startStream_alters {s : State} {o : Owner} {x : StreamWork} {ch : List Part} {s0 : State} (h0 : Alters
    ch s0 s) (hc : Part.le (Part.err ++ [Part.words, Part.tile, Part.memBytes, Part.mem, Part.stream, Part.queue,
    Part.sig, Part.nose, Part.fab, Part.power, Part.host]) ch = true) : Alters ch s0 (State.startStream s o x) := by
  unfold State.startStream
  try dsimp only
  repeat' (
    first
    | with_reducible (first | exact Alters.refl _ _ | apply Alters.ite | assumption |
                          apply State.gather_alters | apply State.movePieces_alters | apply State.postPieces_alters |
                          apply State.queueXfers_alters | apply State.startMove_alters)
    | exact Part.le_trans (by decide) hc
    | (refine (?_ : Part.le _ _ = true); decide)
    | intro _
    | with_reducible (first | rfl)
    | split
    | dsimp only
    | simp only [id_eq]
  )

theorem State.runStream_alters {s : State} {q i e : Nat} {ch : List Part} {s0 : State} (h0 : Alters ch s0 s) (hc :
    Part.le (Part.err ++ [Part.words, Part.tile, Part.memBytes, Part.mem, Part.stream, Part.queue, Part.sig,
    Part.nose, Part.fab, Part.power, Part.host]) ch = true) : Alters ch s0 (State.runStream s q i e) := by
  unfold State.runStream
  try dsimp only
  repeat' (
    first
    | with_reducible (first | exact Alters.refl _ _ | apply Alters.ite | assumption |
                          apply State.faultHead_alters | apply State.issue_alters | apply State.startStream_alters |
                          apply State.wr_alters | apply Alters.ofJudged)
    | exact Part.le_trans (by decide) hc
    | (refine (?_ : Part.le _ _ = true); decide)
    | intro _
    | with_reducible (first | rfl)
    | split
    | dsimp only
    | simp only [id_eq]
  )

theorem execStreamRead_alters {q : Fin 64} {s : State} {t0} (e : execStreamRead q s = .next t0) : Alters (Part.err ++
    [Part.words, Part.tile, Part.memBytes, Part.mem, Part.stream, Part.queue, Part.sig, Part.nose, Part.fab,
    Part.power, Part.host]) s t0 := by
  unfold execStreamRead at e
  try dsimp only at e
  repeat' split at e
  all_goals (injection e with e; subst e)
  all_goals try dsimp only
  repeat' (
    first
    | with_reducible (first | exact Alters.refl _ _ | apply Alters.ite | assumption |
                          apply State.issueHead_alters | apply State.runStream_alters)
    | exact Alters.refl _ _
    | (refine (?_ : Part.le _ _ = true); decide)
    | intro _
    | with_reducible (first | rfl)
    | split
    | dsimp only
    | simp only [id_eq]
  )

theorem execGatheredRead_alters {q : Fin 64} {s : State} {t0} (e : execGatheredRead q s = .next t0) : Alters (Part.err
    ++ [Part.words, Part.tile, Part.memBytes, Part.mem, Part.stream, Part.queue, Part.sig, Part.nose, Part.fab,
    Part.power, Part.host]) s t0 := by
  unfold execGatheredRead at e
  try dsimp only at e
  repeat' split at e
  all_goals (injection e with e; subst e)
  all_goals try dsimp only
  repeat' (
    first
    | with_reducible (first | exact Alters.refl _ _ | apply Alters.ite | assumption |
                          apply State.issueHead_alters | apply State.runStream_alters)
    | exact Alters.refl _ _
    | (refine (?_ : Part.le _ _ = true); decide)
    | intro _
    | with_reducible (first | rfl)
    | split
    | dsimp only
    | simp only [id_eq]
  )

theorem execStreamWrite_alters {q : Fin 64} {s : State} {t0} (e : execStreamWrite q s = .next t0) : Alters (Part.err
    ++ [Part.words, Part.tile, Part.memBytes, Part.mem, Part.stream, Part.queue, Part.sig, Part.nose, Part.fab,
    Part.power, Part.host]) s t0 := by
  unfold execStreamWrite at e
  try dsimp only at e
  repeat' split at e
  all_goals (injection e with e; subst e)
  all_goals try dsimp only
  repeat' (
    first
    | with_reducible (first | exact Alters.refl _ _ | apply Alters.ite | assumption |
                          apply State.issueHead_alters | apply State.runStream_alters)
    | exact Alters.refl _ _
    | (refine (?_ : Part.le _ _ = true); decide)
    | intro _
    | with_reducible (first | rfl)
    | split
    | dsimp only
    | simp only [id_eq]
  )

theorem execStreamMove_alters {q : Fin 64} {s : State} {t0} (e : execStreamMove q s = .next t0) : Alters (Part.err ++
    [Part.words, Part.tile, Part.memBytes, Part.mem, Part.stream, Part.queue, Part.sig, Part.nose, Part.fab,
    Part.power, Part.host]) s t0 := by
  unfold execStreamMove at e
  try dsimp only at e
  repeat' split at e
  all_goals (injection e with e; subst e)
  all_goals try dsimp only
  repeat' (
    first
    | with_reducible (first | exact Alters.refl _ _ | apply Alters.ite | assumption |
                          apply State.issueHead_alters | apply State.runStream_alters)
    | exact Alters.refl _ _
    | (refine (?_ : Part.le _ _ = true); decide)
    | intro _
    | with_reducible (first | rfl)
    | split
    | dsimp only
    | simp only [id_eq]
  )

theorem State.issueAhead_alters {s : State} {q i e : Nat} {t0} (x : State.issueAhead s q i e = some t0) {ch : List
    Part} {s0 : State} (h0 : Alters ch s0 s) (hc : Part.le (Part.err ++ [Part.words, Part.tile, Part.memBytes, Part.mem, Part.stream, Part.queue, Part.sig, Part.nose, Part.fab, Part.power, Part.host]) ch = true) : Alters ch s0 t0 := by
  rw [State.issueAhead] at x
  dsimp only at x
  split at x
  · exact absurd x (by simp)
  injection x with x; subst x
  have h0 := State.ringFetch_alters (q := q) (i := i) h0 (Part.le_trans (by decide) hc)
  have hq : Part.le [.queue] ch = true := Part.le_trans (by decide) hc
  have hb : Part.le [.cells] ch = true := Part.le_trans (by decide) hc
  exact Alters.ofJudged (fun _ => State.onQ_alters h0 hq) fun _ =>
    State.startStream_alters (State.bump_alters (State.bump_alters (State.onQ_alters h0 hq) hb) hb) (Part.le_trans (by decide) hc)

theorem State.scanAhead_alters {s : State} {q i n : Nat} {ch : List Part} {s0 : State} (h0 : Alters ch s0 s) (hc : Part.le (Part.err ++ [Part.words, Part.tile, Part.memBytes, Part.mem, Part.stream, Part.queue, Part.sig, Part.nose, Part.fab, Part.power, Part.host]) ch = true) :
    Alters ch s0 (State.scanAhead s q i n) := by
  induction n generalizing s i with
  | zero => exact h0
  | succ n ih =>
    unfold State.scanAhead
    refine Alters.ite h0 (Alters.ite (ih h0) (Alters.ofGiven h0 fun e => Alters.ite (ih h0) (Alters.ite ?_ h0)))
    cases hx : s.issueAhead q i e with
    | none => exact h0
    | some a => exact ih (State.issueAhead_alters hx h0 (Part.le_trans (by decide) hc))

theorem execRunAhead_alters {q : Fin 64} {s : State} {t0} (e : execRunAhead q s = .next t0) : Alters (Part.err ++
    [Part.words, Part.tile, Part.memBytes, Part.mem, Part.stream, Part.queue, Part.sig, Part.nose, Part.fab,
    Part.power, Part.host]) s t0 := by
  unfold execRunAhead at e
  try dsimp only at e
  repeat' split at e
  all_goals (injection e with e; subst e)
  all_goals try dsimp only
  repeat' (
    first
    | with_reducible (first | exact Alters.refl _ _ | apply Alters.ite | assumption |
                          apply State.scanAhead_alters)
    | exact Alters.refl _ _
    | (refine (?_ : Part.le _ _ = true); decide)
    | intro _
    | with_reducible (first | rfl)
    | split
    | dsimp only
    | simp only [id_eq]
  )

end Sys2Proof.Machine
end

