-- ==== Sys2Proof/Laws/AltersTraining.lean ====
section
/-! SUPPORT. What each operation of Machine/Training.lean alters. -/

-- One closing tactic serves every lemma here; where a goal needs few of its steps the linters name the rest.
set_option linter.all false
set_option Elab.async false

namespace Sys2Proof.Machine

theorem State.onNose_alters {s : State} {g : NoseSt → NoseSt} {ch : List Part} {s0 : State} (h0 : Alters ch s0 s) (hc
    : Part.le [.nose] ch = true) : Alters ch s0 (State.onNose s g) := by
  unfold State.onNose
  try dsimp only
  repeat' (
    first
    | with_reducible (first | exact Alters.refl _ _ | apply Alters.ite | assumption)
    | exact Part.le_trans (by decide) hc
    | (refine (?_ : Part.le _ _ = true); decide)
    | intro _
    | with_reducible (first | rfl)
    | split
    | dsimp only
    | simp only [id_eq]
    | with_reducible (first | apply Alters.upd_nose)
  )

theorem State.stepActivate_alters {s : State} {p : Nat} {ch : List Part} {s0 : State} (h0 : Alters ch s0 s) (hc :
    Part.le [.cells, .nose] ch = true) : Alters ch s0 (State.stepActivate s p) := by
  unfold State.stepActivate
  try dsimp only
  repeat' (
    first
    | with_reducible (first | exact Alters.refl _ _ | apply Alters.ite | assumption | apply State.onNose_alters |
                            apply State.showRuns_alters | apply State.wr_alters)
    | exact Part.le_trans (by decide) hc
    | (refine (?_ : Part.le _ _ = true); decide)
    | intro _
    | with_reducible (first | rfl)
    | split
    | dsimp only
    | simp only [id_eq]
  )

theorem State.stepEnable_alters {s : State} {p : Nat} {ch : List Part} {s0 : State} (h0 : Alters ch s0 s) (hc :
    Part.le (Part.err ++ [Part.nose]) ch = true) : Alters ch s0 (State.stepEnable s p) := by
  unfold State.stepEnable
  try dsimp only
  repeat' (
    first
    | with_reducible (first | exact Alters.refl _ _ | apply Alters.ite | assumption | apply State.raise_alters |
                            apply State.stepActivate_alters)
    | exact Part.le_trans (by decide) hc
    | (refine (?_ : Part.le _ _ = true); decide)
    | intro _
    | with_reducible (first | rfl)
    | split
    | dsimp only
    | simp only [id_eq]
  )

theorem execStepEnable_alters {p : Path} {part : Fin 8} {s : State} {t0} (e : execStepEnable p part s = .next t0) :
    Alters (Part.err ++ [Part.wbuf, Part.nose]) s t0 := by
  unfold execStepEnable at e
  try dsimp only at e
  repeat' split at e
  all_goals (injection e with e; subst e)
  all_goals try dsimp only
  repeat' (
    first
    | with_reducible (first | exact Alters.refl _ _ | apply Alters.ite | assumption | apply State.onWrite_alters |
                            apply State.stepEnable_alters)
    | exact Alters.refl _ _
    | (refine (?_ : Part.le _ _ = true); decide)
    | intro _
    | with_reducible (first | rfl)
    | split
    | dsimp only
    | simp only [id_eq]
  )

theorem State.flip_alters {s : State} {p : Nat} {ch : List Part} {s0 : State} (h0 : Alters ch s0 s) (hc : Part.le
    (Part.err ++ [Part.queue, Part.sig, Part.nose]) ch = true) : Alters ch s0 (State.flip s p) := by
  unfold State.flip
  try dsimp only
  repeat' (
    first
    | with_reducible (first | exact Alters.refl _ _ | apply Alters.ite | assumption | apply State.addCtr_alters |
                            apply State.bump_alters | apply State.onNose_alters | apply State.showRuns_alters |
                            apply State.wr_alters)
    | exact Part.le_trans (by decide) hc
    | (refine (?_ : Part.le _ _ = true); decide)
    | intro _
    | with_reducible (first | rfl)
    | split
    | dsimp only
    | simp only [id_eq]
  )

theorem execStepFlip_alters {part : Fin 8} {s : State} {t0} (e : execStepFlip part s = .next t0) : Alters (Part.err ++
    [Part.queue, Part.sig, Part.nose]) s t0 := by
  unfold execStepFlip at e
  try dsimp only at e
  repeat' split at e
  all_goals (injection e with e; subst e)
  all_goals try dsimp only
  repeat' (
    first
    | with_reducible (first | exact Alters.refl _ _ | apply Alters.ite | assumption | apply State.flip_alters)
    | exact Alters.refl _ _
    | (refine (?_ : Part.le _ _ = true); decide)
    | intro _
    | with_reducible (first | rfl)
    | split
    | dsimp only
    | simp only [id_eq]
  )

theorem execVerdictSlow_alters {part : Fin 8} {s : State} {t0} (e : execVerdictSlow part s = .next t0) : Alters
    (Part.err ++ [Part.nose]) s t0 := by
  unfold execVerdictSlow at e
  try dsimp only at e
  repeat' split at e
  all_goals (injection e with e; subst e)
  all_goals try dsimp only
  repeat' (
    first
    | with_reducible (first | exact Alters.refl _ _ | apply Alters.ite | assumption | apply State.mapRuns_alters |
                            apply State.raise_alters | apply State.wr_alters)
    | exact Alters.refl _ _
    | (refine (?_ : Part.le _ _ = true); decide)
    | intro _
    | with_reducible (first | rfl)
    | split
    | dsimp only
    | simp only [id_eq]
  )

theorem State.peerVerdict_alters {s : State} {p k n : Nat} {clean : Bool} {ch : List Part} {s0 : State} (h0 : Alters
    ch s0 s) (hc : Part.le [.cells] ch = true) : Alters ch s0 (State.peerVerdict s p k n clean) := by
  unfold State.peerVerdict
  try dsimp only
  repeat' (
    first
    | with_reducible (first | exact Alters.refl _ _ | apply Alters.ite | assumption | apply State.bump_alters |
                            apply State.wr_alters)
    | exact Part.le_trans (by decide) hc
    | (refine (?_ : Part.le _ _ = true); decide)
    | intro _
    | with_reducible (first | rfl)
    | split
    | dsimp only
    | simp only [id_eq]
  )

end Sys2Proof.Machine
end

