-- ==== Sys2Proof/Laws/AltersColl.lean ====
section
/-! SUPPORT. What each operation of Machine/Coll.lean alters. -/

-- One closing tactic serves every lemma here; where a goal needs few of its steps the linters name the rest.
set_option linter.all false
set_option Elab.async false

namespace Sys2Proof.Machine

theorem State.onColl_alters {s : State} {g : CollSt → CollSt} {ch : List Part} {s0 : State} (h0 : Alters ch s0 s) (hc
    : Part.le [.coll] ch = true) : Alters ch s0 (State.onColl s g) := by
  unfold State.onColl
  try dsimp only
  repeat' (
    first
    | with_reducible (first | exact Alters.refl _ _ | apply Alters.ite | assumption)
    | exact Part.le_trans (by decide) hc
    | (refine (?_ : Part.le _ _ = true); decide)
    | intro _
    | with_reducible (first | rfl)
    | split
    | dsimp only
    | simp only [id_eq]
    | with_reducible (first | apply Alters.upd_coll)
  )

theorem State.showEngine_alters {s : State} {e : Nat} {ch : List Part} {s0 : State} (h0 : Alters ch s0 s) (hc :
    Part.le [.cells] ch = true) : Alters ch s0 (State.showEngine s e) := by
  unfold State.showEngine
  try dsimp only
  repeat' (
    first
    | with_reducible (first | exact Alters.refl _ _ | apply Alters.ite | assumption | apply State.wr_alters)
    | exact Part.le_trans (by decide) hc
    | (refine (?_ : Part.le _ _ = true); decide)
    | intro _
    | with_reducible (first | rfl)
    | split
    | dsimp only
    | simp only [id_eq]
  )

theorem State.showGroup_alters {s : State} {n : Nat} {ch : List Part} {s0 : State} (h0 : Alters ch s0 s) (hc : Part.le
    [.cells] ch = true) : Alters ch s0 (State.showGroup s n) := by
  unfold State.showGroup
  try dsimp only
  repeat' (
    first
    | with_reducible (first | exact Alters.refl _ _ | apply Alters.ite | assumption | apply State.showEngine_alters |
                            apply State.wr_alters)
    | exact Part.le_trans (by decide) hc
    | (refine (?_ : Part.le _ _ = true); decide)
    | intro _
    | with_reducible (first | rfl)
    | split
    | dsimp only
    | simp only [id_eq]
  )

theorem State.unbind_alters {s : State} {n : Nat} {ch : List Part} {s0 : State} (h0 : Alters ch s0 s) (hc : Part.le
    [.cells] ch = true) : Alters ch s0 (State.unbind s n) := by
  unfold State.unbind
  try dsimp only
  repeat' (
    first
    | with_reducible (first | exact Alters.refl _ _ | apply Alters.ite | assumption | apply State.showEngine_alters |
                            apply State.wr_alters)
    | exact Part.le_trans (by decide) hc
    | (refine (?_ : Part.le _ _ = true); decide)
    | intro _
    | with_reducible (first | rfl)
    | split
    | dsimp only
    | simp only [id_eq]
  )

theorem State.settleGroup_alters {s : State} {n : Nat} {ch : List Part} {s0 : State} (h0 : Alters ch s0 s) (hc :
    Part.le [.cells] ch = true) : Alters ch s0 (State.settleGroup s n) := by
  unfold State.settleGroup
  try dsimp only
  repeat' (
    first
    | with_reducible (first | exact Alters.refl _ _ | apply Alters.ite | assumption | apply State.showGroup_alters |
                            apply State.unbind_alters)
    | exact Part.le_trans (by decide) hc
    | (refine (?_ : Part.le _ _ = true); decide)
    | intro _
    | with_reducible (first | rfl)
    | split
    | dsimp only
    | simp only [id_eq]
  )

theorem State.groupCfg_alters {s : State} {n v : Nat} {ch : List Part} {s0 : State} (h0 : Alters ch s0 s) (hc :
    Part.le (Part.err ++ [Part.coll]) ch = true) : Alters ch s0 (State.groupCfg s n v) := by
  unfold State.groupCfg
  try dsimp only
  repeat' (
    first
    | with_reducible (first | exact Alters.refl _ _ | apply Alters.ite | assumption | apply State.onColl_alters |
                            apply State.raise_alters | apply State.unbind_alters | apply State.wr_alters)
    | exact Part.le_trans (by decide) hc
    | (refine (?_ : Part.le _ _ = true); decide)
    | intro _
    | with_reducible (first | rfl)
    | split
    | dsimp only
    | simp only [id_eq]
  )

theorem execGroupCfgWrite_alters {p : Path} {n : Fin 256} {v : BitVec 32} {s : State} {t0} (e : execGroupCfgWrite p n
    v s = .next t0) : Alters (Part.err ++ [Part.wbuf, Part.coll]) s t0 := by
  unfold execGroupCfgWrite at e
  try dsimp only at e
  repeat' split at e
  all_goals (injection e with e; subst e)
  all_goals try dsimp only
  repeat' (
    first
    | with_reducible (first | exact Alters.refl _ _ | apply Alters.ite | assumption | apply State.groupCfg_alters |
                            apply State.onWrite_alters)
    | exact Alters.refl _ _
    | (refine (?_ : Part.le _ _ = true); decide)
    | intro _
    | with_reducible (first | rfl)
    | split
    | dsimp only
    | simp only [id_eq]
  )

theorem State.readGroup_alters {s : State} {p a : Nat} {ch : List Part} {s0 : State} (h0 : Alters ch s0 s) (hc :
    Part.le (Part.err ++ [Part.mem, Part.nose, Part.power, Part.host]) ch = true) : Alters ch s0 (State.readGroup s p
    a).1 := by
  unfold State.readGroup
  try dsimp only
  repeat' (
    first
    | with_reducible (first | exact Alters.refl _ _ | apply Alters.ite | assumption |
                          apply State.readIssue_alters | apply Alters.of_pair (by assumption))
    | exact Part.le_trans (by decide) hc
    | (refine (?_ : Part.le _ _ = true); decide)
    | intro _
    | with_reducible (first | rfl)
    | split
    | dsimp only
    | simp only [id_eq]
  )
theorem State.readGroup_altersP {s : State} {p a : Nat} {t0 r0} (e_ : State.readGroup s p a = (t0, r0)) {ch : List
    Part} {s0 : State} (h0 : Alters ch s0 s) (hc : Part.le (Part.err ++ [Part.mem, Part.nose, Part.power, Part.host])
    ch = true) : Alters ch s0 t0 := by
  have h := State.readGroup_alters (s := s) (p := p) (a := a) h0  hc
  rw [e_] at h; exact h

theorem State.collRead_alters {s : State} {o : Owner} {a off n : Nat} {ch : List Part} {s0 : State} (h0 : Alters ch s0
    s) (hc : Part.le (Part.err ++ [Part.tile, Part.mem, Part.nose, Part.power, Part.host]) ch = true) : Alters ch s0
    (State.collRead s o a off n).1 := by
  unfold State.collRead
  try dsimp only
  repeat' (
    first
    | with_reducible (first | exact Alters.refl _ _ | apply Alters.ite | assumption |
                          apply State.hostGet_alters | apply State.memRead_alters | apply State.spadBytes_alters |
                          apply Alters.of_pair (by assumption))
    | exact Part.le_trans (by decide) hc
    | (refine (?_ : Part.le _ _ = true); decide)
    | intro _
    | with_reducible (first | rfl)
    | split
    | dsimp only
    | simp only [id_eq]
  )
theorem State.collRead_altersP {s : State} {o : Owner} {a off n : Nat} {t0 r0} (e_ : State.collRead s o a off n = (t0,
    r0)) {ch : List Part} {s0 : State} (h0 : Alters ch s0 s) (hc : Part.le (Part.err ++ [Part.tile, Part.mem,
    Part.nose, Part.power, Part.host]) ch = true) : Alters ch s0 t0 := by
  have h := State.collRead_alters (s := s) (o := o) (a := a) (off := off) (n := n) h0  hc
  rw [e_] at h; exact h

theorem State.localPut_alters {s : State} {o : Owner} {t w : Nat} {ws : List Word} {ch : List Part} {s0 : State} (h0 :
    Alters ch s0 s) (hc : Part.le (Part.err ++ [Part.words, Part.tile, Part.nose]) ch = true) : Alters ch s0
    (State.localPut s o t w ws).1 := by
  unfold State.localPut
  try dsimp only
  repeat' (
    first
    | with_reducible (first | exact Alters.refl _ _ | apply Alters.ite | assumption |
                          apply State.carry_alters | apply State.sealFail_alters | apply State.spadPut_alters |
                          apply Alters.of_pair (by assumption))
    | exact Part.le_trans (by decide) hc
    | (refine (?_ : Part.le _ _ = true); decide)
    | intro _
    | with_reducible (first | rfl)
    | split
    | dsimp only
    | simp only [id_eq]
  )
theorem State.localPut_altersP {s : State} {o : Owner} {t w : Nat} {ws : List Word} {t0 r0} (e_ : State.localPut s o t
    w ws = (t0, r0)) {ch : List Part} {s0 : State} (h0 : Alters ch s0 s) (hc : Part.le (Part.err ++ [Part.words,
    Part.tile, Part.nose]) ch = true) : Alters ch s0 t0 := by
  have h := State.localPut_alters (s := s) (o := o) (t := t) (w := w) (ws := ws) h0  hc
  rw [e_] at h; exact h

theorem State.collWrite_alters {s : State} {o : Owner} {eng prof a off : Nat} {bs : List Byte} {ch : List Part} {s0 :
    State} (h0 : Alters ch s0 s) (hc : Part.le (Part.err ++ [Part.words, Part.tile, Part.memBytes, Part.mem,
    Part.queue, Part.sig, Part.nose, Part.power, Part.host]) ch = true) : Alters ch s0 (State.collWrite s o eng prof a
    off bs).1 := by
  unfold State.collWrite
  try dsimp only
  repeat' (
    first
    | with_reducible (first | exact Alters.refl _ _ | apply Alters.ite | assumption |
                          apply State.carry_alters | apply State.hostPut_alters | apply State.localPut_alters |
                          apply State.remoteWrite_alters | apply State.sealedWrite_alters |
                          apply Alters.of_pair (by assumption))
    | exact Part.le_trans (by decide) hc
    | (refine (?_ : Part.le _ _ = true); decide)
    | intro _
    | with_reducible (first | rfl)
    | split
    | dsimp only
    | simp only [id_eq]
  )
theorem State.collWrite_altersP {s : State} {o : Owner} {eng prof a off : Nat} {bs : List Byte} {t0 r0} (e_ :
    State.collWrite s o eng prof a off bs = (t0, r0)) {ch : List Part} {s0 : State} (h0 : Alters ch s0 s) (hc :
    Part.le (Part.err ++ [Part.words, Part.tile, Part.memBytes, Part.mem, Part.queue, Part.sig, Part.nose, Part.power,
    Part.host]) ch = true) : Alters ch s0 t0 := by
  have h := State.collWrite_alters (s := s) (o := o) (eng := eng) (prof := prof) (a := a) (off := off) (bs := bs) h0  hc
  rw [e_] at h; exact h

theorem State.onRun_alters {s : State} {n seq : Nat} {g : CollRun → CollRun} {ch : List Part} {s0 : State} (h0 :
    Alters ch s0 s) (hc : Part.le [.coll] ch = true) : Alters ch s0 (State.onRun s n seq g) := by
  unfold State.onRun
  try dsimp only
  repeat' (
    first
    | with_reducible (first | exact Alters.refl _ _ | apply Alters.ite | assumption | apply State.onColl_alters)
    | exact Part.le_trans (by decide) hc
    | (refine (?_ : Part.le _ _ = true); decide)
    | intro _
    | with_reducible (first | rfl)
    | split
    | dsimp only
    | simp only [id_eq]
  )

theorem State.dropRun_alters {s : State} {r : CollRun} {err : Option Err} {ch : List Part} {s0 : State} (h0 : Alters
    ch s0 s) (hc : Part.le [.cells, .queue, .coll, .fab] ch = true) : Alters ch s0 (State.dropRun s r err) := by
  unfold State.dropRun
  try dsimp only
  repeat' (
    first
    | with_reducible (first | exact Alters.refl _ _ | apply Alters.ite | assumption | apply State.onColl_alters |
                            apply State.onFlight_alters | apply State.settleGroup_alters)
    | exact Part.le_trans (by decide) hc
    | (refine (?_ : Part.le _ _ = true); decide)
    | intro _
    | with_reducible (first | rfl)
    | split
    | dsimp only
    | simp only [id_eq]
    | with_reducible (first | apply Alters.upd_fab)
  )

theorem State.endRun_alters {s : State} {r : CollRun} {e : Err} {ch : List Part} {s0 : State} (h0 : Alters ch s0 s)
    (hc : Part.le (Part.err ++ [Part.queue, Part.sig, Part.nose, Part.coll, Part.fab]) ch = true) : Alters ch s0 (State.endRun s r e) :=
    by
  unfold State.endRun
  try dsimp only
  repeat' (
    first
    | with_reducible (first | exact Alters.refl _ _ | apply Alters.ite | assumption | apply State.dropRun_alters |
                            apply State.settle_alters)
    | exact Part.le_trans (by decide) hc
    | (refine (?_ : Part.le _ _ = true); decide)
    | intro _
    | with_reducible (first | rfl)
    | split
    | dsimp only
    | simp only [id_eq]
  )

theorem State.notify_alters {s : State} {r : CollRun} {code : Nat} {replay : Bool} {ch : List Part} {s0 : State} (h0 :
    Alters ch s0 s) (hc : Part.le (Part.err ++ [Part.fab]) ch = true) : Alters ch s0 (State.notify s r code replay) := by
  unfold State.notify
  try dsimp only
  repeat' (
    first
    | with_reducible (first | exact Alters.refl _ _ | apply Alters.ite | assumption | apply Alters.foldl |
                            apply State.sendMsg_alters | apply Alters.foldl1)
    | exact Part.le_trans (by decide) hc
    | (refine (?_ : Part.le _ _ = true); decide)
    | intro _
    | with_reducible (first | rfl)
    | split
    | dsimp only
    | simp only [id_eq]
  )

theorem State.abortRun_alters {s : State} {r : CollRun} {code : Err} {ch : List Part} {s0 : State} (h0 : Alters ch s0
    s) (hc : Part.le (Part.err ++ [Part.queue, Part.sig, Part.nose, Part.coll, Part.fab]) ch = true) : Alters ch s0 (State.abortRun s r
    code) := by
  unfold State.abortRun
  try dsimp only
  repeat' (
    first
    | with_reducible (first | exact Alters.refl _ _ | apply Alters.ite | assumption | apply State.bump_alters |
                            apply State.endRun_alters | apply State.raiseFor_alters)
    | exact Part.le_trans (by decide) hc
    | (refine (?_ : Part.le _ _ = true); decide)
    | intro _
    | with_reducible (first | rfl)
    | split
    | dsimp only
    | simp only [id_eq]
  )

theorem State.failRun_alters {s : State} {r : CollRun} {e : Err} {ch : List Part} {s0 : State} (h0 : Alters ch s0 s)
    (hc : Part.le (Part.err ++ [Part.queue, Part.sig, Part.nose, Part.coll, Part.fab]) ch = true) : Alters ch s0 (State.failRun s r e) :=
    by
  unfold State.failRun
  try dsimp only
  repeat' (
    first
    | with_reducible (first | exact Alters.refl _ _ | apply Alters.ite | assumption | apply State.endRun_alters |
                            apply State.irq_alters | apply State.notify_alters | apply State.raiseFor_alters |
                            apply State.sealFail_alters)
    | exact Part.le_trans (by decide) hc
    | (refine (?_ : Part.le _ _ = true); decide)
    | intro _
    | with_reducible (first | rfl)
    | split
    | dsimp only
    | simp only [id_eq]
  )

theorem State.sendData_alters {s : State} {r : CollRun} {ph st dst at_ : Nat} {bs : List Byte} {ch : List Part} {s0 :
    State} (h0 : Alters ch s0 s) (hc : Part.le [.cells, .coll, .fab, .out] ch = true) : Alters ch s0 (State.sendData s
    r ph st dst at_ bs).1 := by
  unfold State.sendData
  try dsimp only
  repeat' (
    first
    | with_reducible (first | exact Alters.refl _ _ | apply Alters.ite | assumption |
                          apply Alters.foldl | apply State.bump_alters | apply State.onRun_alters |
                          apply State.request_alters | apply Alters.foldl1 | apply Alters.of_pair (by assumption))
    | exact Part.le_trans (by decide) hc
    | (refine (?_ : Part.le _ _ = true); decide)
    | intro _
    | with_reducible (first | rfl)
    | split
    | dsimp only
    | simp only [id_eq]
  )
theorem State.sendData_altersP {s : State} {r : CollRun} {ph st dst at_ : Nat} {bs : List Byte} {t0 r0} (e_ :
    State.sendData s r ph st dst at_ bs = (t0, r0)) {ch : List Part} {s0 : State} (h0 : Alters ch s0 s) (hc : Part.le
    [.cells, .coll, .fab, .out] ch = true) : Alters ch s0 t0 := by
  have h := State.sendData_alters (s := s) (r := r) (ph := ph) (st := st) (dst := dst) (at_ := at_) (bs := bs) h0  hc
  rw [e_] at h; exact h

theorem State.putCount_alters {s : State} {r : CollRun} {a j v : Nat} {ch : List Part} {s0 : State} (h0 : Alters ch s0
    s) (hc : Part.le (Part.err ++ [Part.words, Part.tile, Part.memBytes, Part.mem, Part.queue, Part.sig, Part.nose,
    Part.power, Part.host]) ch = true) : Alters ch s0 (State.putCount s r a j v).1 := by
  unfold State.putCount
  try dsimp only
  repeat' (
    first
    | with_reducible (first | exact Alters.refl _ _ | apply Alters.ite | assumption |
                          apply State.collWrite_alters | apply Alters.of_pair (by assumption))
    | exact Part.le_trans (by decide) hc
    | (refine (?_ : Part.le _ _ = true); decide)
    | intro _
    | with_reducible (first | rfl)
    | split
    | dsimp only
    | simp only [id_eq]
  )
theorem State.putCount_altersP {s : State} {r : CollRun} {a j v : Nat} {t0 r0} (e_ : State.putCount s r a j v = (t0,
    r0)) {ch : List Part} {s0 : State} (h0 : Alters ch s0 s) (hc : Part.le (Part.err ++ [Part.words, Part.tile,
    Part.memBytes, Part.mem, Part.queue, Part.sig, Part.nose, Part.power, Part.host]) ch = true) : Alters ch s0 t0 :=
    by
  have h := State.putCount_alters (s := s) (r := r) (a := a) (j := j) (v := v) h0  hc
  rw [e_] at h; exact h

theorem andThen_alters {x : State × Option Err} {g : State → State × Option Err} {ch : List Part} {s0 : State} (h0 :
    Alters ch s0 x.1) (hg : ∀ {z0} {u0}, Alters ch z0 u0 → Alters ch z0 (g u0).1) : Alters ch s0 (andThen x g).1 := by
  unfold andThen
  split
  · exact hg h0
  · exact h0

theorem State.noteErr_alters {x : State × Option Err} {o : Owner} {ch : List Part} {s0 : State} (h0 : Alters ch s0
    x.1) (hc : Part.le [.queue] ch = true) : Alters ch s0 (State.noteErr x o) := by
  unfold State.noteErr
  split
  · exact h0
  · exact State.flightErr_alters h0 hc

theorem State.takeTokens_alters {s : State} {r : CollRun} {j : Nat} {bs : List Byte} {ch : List Part} {s0 : State} (h0
    : Alters ch s0 s) (hc : Part.le (Part.err ++ [Part.words, Part.tile, Part.memBytes, Part.mem, Part.queue,
    Part.sig, Part.nose, Part.coll, Part.fab, Part.power, Part.host]) ch = true) : Alters ch s0 (State.takeTokens s r
    j bs).1 := by
  unfold State.takeTokens
  try dsimp only
  repeat' (
    first
    | with_reducible (first | exact Alters.refl _ _ | apply Alters.ite | assumption |
                          apply State.bump_alters | apply State.collWrite_alters | apply State.noteErr_alters |
                          apply State.putCount_alters | apply State.sendData_alters | apply andThen_alters |
                          apply Alters.of_pair (by assumption))
    | exact Part.le_trans (by decide) hc
    | (refine (?_ : Part.le _ _ = true); decide)
    | intro _
    | with_reducible (first | rfl)
    | split
    | dsimp only
    | simp only [id_eq]
  )
theorem State.takeTokens_altersP {s : State} {r : CollRun} {j : Nat} {bs : List Byte} {t0 r0} (e_ : State.takeTokens s
    r j bs = (t0, r0)) {ch : List Part} {s0 : State} (h0 : Alters ch s0 s) (hc : Part.le (Part.err ++ [Part.words,
    Part.tile, Part.memBytes, Part.mem, Part.queue, Part.sig, Part.nose, Part.coll, Part.fab, Part.power, Part.host])
    ch = true) : Alters ch s0 t0 := by
  have h := State.takeTokens_alters (s := s) (r := r) (j := j) (bs := bs) h0  hc
  rw [e_] at h; exact h

theorem State.takeSpill_alters {s : State} {r : CollRun} {j a : Nat} {bs : List Byte} {ch : List Part} {s0 : State}
    (h0 : Alters ch s0 s) (hc : Part.le (Part.err ++ [Part.words, Part.tile, Part.memBytes, Part.mem, Part.queue,
    Part.sig, Part.nose, Part.power, Part.host]) ch = true) : Alters ch s0 (State.takeSpill s r j a bs) := by
  unfold State.takeSpill
  try dsimp only
  repeat' (
    first
    | with_reducible (first | exact Alters.refl _ _ | apply Alters.ite | assumption |
                          apply State.bump_alters | apply State.collWrite_alters | apply State.noteErr_alters |
                          apply State.putCount_alters | apply andThen_alters | apply Alters.of_pair (by assumption))
    | exact Part.le_trans (by decide) hc
    | (refine (?_ : Part.le _ _ = true); decide)
    | intro _
    | with_reducible (first | rfl)
    | split
    | dsimp only
    | simp only [id_eq]
  )

theorem State.ownBlock_alters {s : State} {r : CollRun} {ch : List Part} {s0 : State} (h0 : Alters ch s0 s) (hc :
    Part.le (Part.err ++ [Part.words, Part.tile, Part.memBytes, Part.mem, Part.queue, Part.sig, Part.nose, Part.power,
    Part.host]) ch = true) : Alters ch s0 (State.ownBlock s r) := by
  unfold State.ownBlock
  try dsimp only
  repeat' (
    first
    | with_reducible (first | exact Alters.refl _ _ | apply Alters.ite | assumption |
                          apply State.bump_alters | apply State.collWrite_alters | apply State.noteErr_alters |
                          apply State.putCount_alters | apply State.takeSpill_alters | apply andThen_alters |
                          apply Alters.of_pair (by assumption))
    | exact Part.le_trans (by decide) hc
    | (refine (?_ : Part.le _ _ = true); decide)
    | intro _
    | with_reducible (first | rfl)
    | split
    | dsimp only
    | simp only [id_eq]
  )

theorem State.finishRun_alters {s : State} {r : CollRun} {ch : List Part} {s0 : State} (h0 : Alters ch s0 s) (hc :
    Part.le (Part.err ++ [Part.words, Part.tile, Part.memBytes, Part.mem, Part.queue, Part.sig, Part.nose, Part.coll,
    Part.fab, Part.power, Part.host]) ch = true) : Alters ch s0 (State.finishRun s r) := by
  unfold State.finishRun
  try dsimp only
  repeat' (
    first
    | with_reducible (first | exact Alters.refl _ _ | apply Alters.ite | assumption |
                          apply State.bump_alters | apply State.collWrite_alters | apply State.dropRun_alters |
                          apply State.noteErr_alters | apply Alters.of_pair (by assumption))
    | exact Part.le_trans (by decide) hc
    | (refine (?_ : Part.le _ _ = true); decide)
    | intro _
    | with_reducible (first | rfl)
    | split
    | dsimp only
    | simp only [id_eq]
  )

/-- What a collective's step leaves is confined to the parts of `ch`. -/
def CollStep.keeps (ch : List Part) (s0 : State) (x : CollStep) : Prop :=
  match x with
  | .wait => True
  | .go t => Alters ch s0 t
  | .done t => Alters ch s0 t
theorem CollStep.keeps_wait {ch : List Part} {s0 : State} : CollStep.keeps ch s0 .wait := trivial
theorem CollStep.keeps_go {ch : List Part} {s0 t : State} (h : Alters ch s0 t) : CollStep.keeps ch s0 (.go t) := h
theorem CollStep.keeps_done {ch : List Part} {s0 t : State} (h : Alters ch s0 t) : CollStep.keeps ch s0 (.done t) := h
theorem CollStep.keeps_ite {ch : List Part} {s0 : State} {c : Prop} [Decidable c] {x y : CollStep}
    (h : CollStep.keeps ch s0 x) (k : CollStep.keeps ch s0 y) : CollStep.keeps ch s0 (if c then x else y) := by
  split <;> assumption

theorem State.collAct_alters {s : State} {r : CollRun} {a : CollAct} {ch : List Part} {s0 : State} (h0 : Alters ch s0
    s) (hc : Part.le (Part.err ++ [Part.words, Part.tile, Part.memBytes, Part.mem, Part.queue, Part.sig, Part.nose, Part.coll, Part.fab, Part.power, Part.host]) ch = true) : CollStep.keeps ch s0 (State.collAct s r a) := by
  unfold State.collAct
  cases a <;> dsimp only <;>
  repeat' (
    first
    | with_reducible (first | exact CollStep.keeps_wait | apply CollStep.keeps_ite | apply CollStep.keeps_go |
                            apply CollStep.keeps_done | exact Alters.refl _ _ | apply Alters.ite | assumption | apply State.bump_alters |
                            apply State.endRun_alters | apply State.failRun_alters | apply State.onRun_alters |
                            apply State.sendData_alters | apply State.takeSpill_alters | apply State.takeTokens_alters |
                            apply State.ownBlock_alters | apply State.ranStages_alters | apply Alters.of_pair (by assumption))
    | exact Part.le_trans (by decide) hc
    | (refine (?_ : Part.le _ _ = true); decide)
    | intro _
    | split
    | dsimp only
  )

theorem State.collGo_alters {s : State} {n seq fuel : Nat} {ch : List Part} {s0 : State} (h0 : Alters ch s0 s) (hc : Part.le (Part.err ++ [Part.words, Part.tile, Part.memBytes, Part.mem, Part.queue, Part.sig, Part.nose, Part.coll, Part.fab, Part.power, Part.host]) ch = true) :
    Alters ch s0 (State.collGo s n seq fuel) := by
  induction fuel generalizing s with
  | zero => exact h0
  | succ fuel ih =>
    unfold State.collGo
    split
    · exact h0
    · refine Alters.ite h0 ?_
      split
      · exact Alters.ite (State.finishRun_alters h0 (Part.le_trans (by decide) hc)) h0
      · rename_i a _ _
        have k : ∀ r : CollRun, CollStep.keeps ch s0 (s.collAct r a) := fun r => State.collAct_alters h0 (Part.le_trans (by decide) hc)
        split
        · exact h0
        · rename_i u hx; exact (show CollStep.keeps ch s0 (.done u) from hx ▸ k _)
        · rename_i u hx; exact ih (State.onRun_alters (show CollStep.keeps ch s0 (.go u) from hx ▸ k _) (Part.le_trans (by decide) hc))

theorem State.collAdvance_alters {s : State} {n seq : Nat} {ch : List Part} {s0 : State} (h0 : Alters ch s0 s) (hc :
    Part.le (Part.err ++ [Part.words, Part.tile, Part.memBytes, Part.mem, Part.queue, Part.sig, Part.nose, Part.coll,
    Part.fab, Part.power, Part.host]) ch = true) : Alters ch s0 (State.collAdvance s n seq) := by
  unfold State.collAdvance
  try dsimp only
  repeat' (
    first
    | with_reducible (first | exact Alters.refl _ _ | apply Alters.ite | assumption |
                          apply State.collGo_alters)
    | exact Part.le_trans (by decide) hc
    | (refine (?_ : Part.le _ _ = true); decide)
    | intro _
    | with_reducible (first | rfl)
    | split
    | dsimp only
    | simp only [id_eq]
  )

theorem State.stallRun_alters {s : State} {r : CollRun} {rank : Nat} {e : Err} {ch : List Part} {s0 : State} (h0 :
    Alters ch s0 s) (hc : Part.le (Part.err ++ [Part.nose, Part.coll]) ch = true) : Alters ch s0 (State.stallRun s r rank e)
    := by
  unfold State.stallRun
  try dsimp only
  repeat' (
    first
    | with_reducible (first | exact Alters.refl _ _ | apply Alters.ite | assumption | apply State.bump_alters |
                            apply State.irq_alters | apply State.onRun_alters | apply State.raiseFor_alters |
                            apply State.showGroup_alters | apply State.wr_alters)
    | exact Part.le_trans (by decide) hc
    | (refine (?_ : Part.le _ _ = true); decide)
    | intro _
    | with_reducible (first | rfl)
    | split
    | dsimp only
    | simp only [id_eq]
  )

theorem State.compareRec_alters {s : State} {r : CollRun} {x : StartRec} {ch : List Part} {s0 : State} (h0 : Alters ch
    s0 s) (hc : Part.le (Part.err ++ [Part.nose, Part.coll]) ch = true) : Alters ch s0 (State.compareRec s r x) := by
  unfold State.compareRec
  try dsimp only
  repeat' (
    first
    | with_reducible (first | exact Alters.refl _ _ | apply Alters.ite | assumption |
                          apply State.onRun_alters | apply State.stallRun_alters)
    | exact Part.le_trans (by decide) hc
    | (refine (?_ : Part.le _ _ = true); decide)
    | intro _
    | with_reducible (first | rfl)
    | split
    | dsimp only
    | simp only [id_eq]
  )

theorem State.takeData_alters {s : State} {r : CollRun} {f : Frame} {pos : CollPos} {d : List Byte} {seals : List
    Word} {first : Nat} {ch : List Part} {s0 : State} (h0 : Alters ch s0 s) (hc : Part.le (Part.err ++ [Part.words,
    Part.tile, Part.memBytes, Part.mem, Part.queue, Part.sig, Part.nose, Part.coll, Part.fab, Part.power, Part.host])
    ch = true) : Alters ch s0 (State.takeData s r f pos d seals first) := by
  unfold State.takeData
  try dsimp only
  repeat' (
    first
    | with_reducible (first | exact Alters.refl _ _ | apply Alters.ite | assumption |
                          apply State.answerOf_alters | apply State.bump_alters | apply State.collAdvance_alters |
                          apply State.failRun_alters | apply State.onRun_alters)
    | exact Part.le_trans (by decide) hc
    | (refine (?_ : Part.le _ _ = true); decide)
    | intro _
    | with_reducible (first | rfl)
    | split
    | dsimp only
    | simp only [id_eq]
  )

theorem State.collData_alters {s : State} {f : Frame} {pos : CollPos} {d : List Byte} {seals : List Word} {first :
    Nat} {ch : List Part} {s0 : State} (h0 : Alters ch s0 s) (hc : Part.le (Part.err ++ [Part.words, Part.tile,
    Part.memBytes, Part.mem, Part.queue, Part.sig, Part.nose, Part.coll, Part.fab, Part.power, Part.host]) ch = true)
    : Alters ch s0 (State.collData s f pos d seals first) := by
  unfold State.collData
  try dsimp only
  repeat' (
    first
    | with_reducible (first | exact Alters.refl _ _ | apply Alters.ite | assumption |
                          apply State.onColl_alters | apply State.takeData_alters)
    | exact Part.le_trans (by decide) hc
    | (refine (?_ : Part.le _ _ = true); decide)
    | intro _
    | with_reducible (first | rfl)
    | split
    | dsimp only
    | simp only [id_eq]
  )

theorem State.takeEarly_alters {s : State} {fs : List Frame} {ch : List Part} {s0 : State} (h0 : Alters ch s0 s) (hc :
    Part.le (Part.err ++ [Part.words, Part.tile, Part.memBytes, Part.mem, Part.queue, Part.sig, Part.nose, Part.coll,
    Part.fab, Part.power, Part.host]) ch = true) : Alters ch s0 (State.takeEarly s fs) := by
  induction fs generalizing s with
  | nil =>
    unfold State.takeEarly
    try dsimp only
    repeat' (
      first
      | with_reducible (first | exact Alters.refl _ _ | apply Alters.ite | assumption |
                            apply State.onColl_alters | apply State.takeData_alters)
      | exact Part.le_trans (by decide) hc
      | (refine (?_ : Part.le _ _ = true); decide)
      | intro _
      | with_reducible (first | rfl)
      | split
      | dsimp only
      | simp only [id_eq]
    )
  | cons hd_ tl_ ih_ =>
    unfold State.takeEarly
    try dsimp only
    repeat' (
      first
      | with_reducible (first | apply ih_ | exact Alters.refl _ _ | apply Alters.ite | assumption |
                            apply State.onColl_alters | apply State.takeData_alters)
      | exact Part.le_trans (by decide) hc
      | (refine (?_ : Part.le _ _ = true); decide)
      | intro _
      | with_reducible (first | rfl)
      | split
      | dsimp only
      | simp only [id_eq]
    )

theorem State.startRecord_alters {s : State} {p : Nat} {x : StartRec} {ch : List Part} {s0 : State} (h0 : Alters ch s0
    s) (hc : Part.le (Part.err ++ [Part.words, Part.tile, Part.memBytes, Part.mem, Part.queue, Part.sig, Part.nose,
    Part.coll, Part.fab, Part.power, Part.host]) ch = true) : Alters ch s0 (State.startRecord s p x) := by
  unfold State.startRecord
  try dsimp only
  repeat' (
    first
    | with_reducible (first | exact Alters.refl _ _ | apply Alters.ite | assumption |
                          apply State.collAdvance_alters | apply State.compareRec_alters | apply State.onColl_alters |
                          apply State.takeEarly_alters)
    | exact Part.le_trans (by decide) hc
    | (refine (?_ : Part.le _ _ = true); decide)
    | intro _
    | with_reducible (first | rfl)
    | split
    | dsimp only
    | simp only [id_eq]
  )

theorem State.collAck_alters {s : State} {tag : Nat} {pos : CollPos} {acc : Nat} {ch : List Part} {s0 : State} (h0 :
    Alters ch s0 s) (hc : Part.le (Part.err ++ [Part.words, Part.tile, Part.memBytes, Part.mem, Part.queue, Part.sig,
    Part.nose, Part.coll, Part.fab, Part.power, Part.host]) ch = true) : Alters ch s0 (State.collAck s tag pos acc) :=
    by
  unfold State.collAck
  try dsimp only
  repeat' (
    first
    | with_reducible (first | exact Alters.refl _ _ | apply Alters.ite | assumption |
                          apply State.collAdvance_alters | apply State.onRun_alters | apply State.takeTxn_alters |
                          apply Alters.of_pair2 (by assumption))
    | exact Part.le_trans (by decide) hc
    | (refine (?_ : Part.le _ _ = true); decide)
    | intro _
    | with_reducible (first | rfl)
    | split
    | dsimp only
    | simp only [id_eq]
  )

theorem State.noteAbort_alters {s : State} {n seq : Nat} {ch : List Part} {s0 : State} (h0 : Alters ch s0 s) (hc :
    Part.le [.cells] ch = true) : Alters ch s0 (State.noteAbort s n seq) := by
  unfold State.noteAbort
  try dsimp only
  repeat' (
    first
    | with_reducible (first | exact Alters.refl _ _ | apply Alters.ite | assumption | apply State.wr_alters)
    | exact Part.le_trans (by decide) hc
    | (refine (?_ : Part.le _ _ = true); decide)
    | intro _
    | with_reducible (first | rfl)
    | split
    | dsimp only
    | simp only [id_eq]
  )

theorem State.abortNotice_alters {s : State} {p id seq code : Nat} {replay : Bool} {ch : List Part} {s0 : State} (h0 :
    Alters ch s0 s) (hc : Part.le (Part.err ++ [Part.queue, Part.sig, Part.nose, Part.coll, Part.fab]) ch = true) : Alters ch s0
    (State.abortNotice s p id seq code replay) := by
  unfold State.abortNotice
  try dsimp only
  repeat' (
    first
    | with_reducible (first | exact Alters.refl _ _ | apply Alters.ite | assumption | apply State.abortRun_alters |
                            apply State.irq_alters | apply State.noteAbort_alters | apply State.onColl_alters)
    | exact Part.le_trans (by decide) hc
    | (refine (?_ : Part.le _ _ = true); decide)
    | intro _
    | with_reducible (first | rfl)
    | split
    | dsimp only
    | simp only [id_eq]
  )

theorem State.collAbort_alters {s : State} {n : Nat} {ch : List Part} {s0 : State} (h0 : Alters ch s0 s) (hc : Part.le
    (Part.err ++ [Part.queue, Part.sig, Part.nose, Part.coll, Part.fab]) ch = true) : Alters ch s0 (State.collAbort s n) := by
  unfold State.collAbort
  try dsimp only
  repeat' (
    first
    | with_reducible (first | exact Alters.refl _ _ | apply Alters.ite | assumption | apply State.abortRun_alters |
                            apply State.notify_alters)
    | exact Part.le_trans (by decide) hc
    | (refine (?_ : Part.le _ _ = true); decide)
    | intro _
    | with_reducible (first | rfl)
    | split
    | dsimp only
    | simp only [id_eq]
  )

theorem execCollAbort_alters {p : Path} {n : Fin 256} {s : State} {t0} (e : execCollAbort p n s = .next t0) : Alters
    (Part.err ++ [Part.wbuf, Part.queue, Part.sig, Part.nose, Part.coll, Part.fab]) s t0 := by
  unfold execCollAbort at e
  try dsimp only at e
  repeat' split at e
  all_goals (injection e with e; subst e)
  all_goals try dsimp only
  repeat' (
    first
    | with_reducible (first | exact Alters.refl _ _ | apply Alters.ite | assumption | apply State.collAbort_alters |
                            apply State.onWrite_alters)
    | exact Alters.refl _ _
    | (refine (?_ : Part.le _ _ = true); decide)
    | intro _
    | with_reducible (first | rfl)
    | split
    | dsimp only
    | simp only [id_eq]
  )

theorem State.replayAborts_alters {s : State} {p : Nat} {ch : List Part} {s0 : State} (h0 : Alters ch s0 s) (hc :
    Part.le (Part.err ++ [Part.queue, Part.sig, Part.nose, Part.coll, Part.fab]) ch = true) : Alters ch s0 (State.replayAborts s p) := by
  unfold State.replayAborts
  try dsimp only
  repeat' (
    first
    | with_reducible (first | exact Alters.refl _ _ | apply Alters.ite | assumption | apply Alters.foldl |
                            apply State.abortRun_alters | apply State.notify_alters | apply Alters.foldl1)
    | exact Part.le_trans (by decide) hc
    | (refine (?_ : Part.le _ _ = true); decide)
    | intro _
    | with_reducible (first | rfl)
    | split
    | dsimp only
    | simp only [id_eq]
  )

theorem State.leaveColl_alters {s : State} {node : Nat} {ch : List Part} {s0 : State} (h0 : Alters ch s0 s) (hc :
    Part.le (Part.err ++ [Part.queue, Part.sig, Part.nose, Part.coll, Part.fab]) ch = true) : Alters ch s0 (State.leaveColl s node) := by
  unfold State.leaveColl
  try dsimp only
  repeat' (
    first
    | with_reducible (first | exact Alters.refl _ _ | apply Alters.ite | assumption | apply Alters.foldl |
                            apply State.endRun_alters | apply Alters.foldl1)
    | exact Part.le_trans (by decide) hc
    | (refine (?_ : Part.le _ _ = true); decide)
    | intro _
    | with_reducible (first | rfl)
    | split
    | dsimp only
    | simp only [id_eq]
  )

theorem State.stampGen_alters {s : State} {n : Nat} {ch : List Part} {s0 : State} (h0 : Alters ch s0 s) (hc : Part.le
    [.cells, .coll] ch = true) : Alters ch s0 (State.stampGen s n) := by
  unfold State.stampGen
  try dsimp only
  repeat' (
    first
    | with_reducible (first | exact Alters.refl _ _ | apply Alters.ite | assumption |
                          apply State.onColl_alters | apply State.wr_alters)
    | exact Part.le_trans (by decide) hc
    | (refine (?_ : Part.le _ _ = true); decide)
    | intro _
    | with_reducible (first | rfl)
    | split
    | dsimp only
    | simp only [id_eq]
  )

theorem State.stampEntry_alters {s : State} {n : Nat} {ch : List Part} {s0 : State} (h0 : Alters ch s0 s) (hc :
    Part.le [.cells, .coll] ch = true) : Alters ch s0 (State.stampEntry s n) := by
  unfold State.stampEntry
  try dsimp only
  repeat' (
    first
    | with_reducible (first | exact Alters.refl _ _ | apply Alters.ite | assumption |
                          apply State.stampGen_alters | apply State.wr_alters)
    | exact Part.le_trans (by decide) hc
    | (refine (?_ : Part.le _ _ = true); decide)
    | intro _
    | with_reducible (first | rfl)
    | split
    | dsimp only
    | simp only [id_eq]
  )

theorem State.sendRetract_alters {s : State} {r : Run} {d : Nat × Nat} {ch : List Part} {s0 : State} (h0 : Alters ch
    s0 s) (hc : Part.le (Part.err ++ [Part.fab]) ch = true) : Alters ch s0 (State.sendRetract s r d) := by
  unfold State.sendRetract
  try dsimp only
  repeat' (
    first
    | with_reducible (first | exact Alters.refl _ _ | apply Alters.ite | assumption |
                          apply State.bump_alters | apply State.sendMsg_alters)
    | exact Part.le_trans (by decide) hc
    | (refine (?_ : Part.le _ _ = true); decide)
    | intro _
    | with_reducible (first | rfl)
    | split
    | dsimp only
    | simp only [id_eq]
  )

theorem State.addDests_alters {s : State} {o : Owner} {d : GroupDesc} {ch : List Part} {s0 : State} (h0 : Alters ch s0
    s) (hc : Part.le (Part.err ++ [Part.nose, Part.fab]) ch = true) : Alters ch s0 (State.addDests s o d) := by
  unfold State.addDests
  try dsimp only
  repeat' (
    first
    | with_reducible (first | exact Alters.refl _ _ | apply Alters.ite | assumption |
                          apply Alters.foldl | apply State.mapRuns_alters | apply State.sendRetract_alters |
                          apply State.showRuns_alters | apply Alters.foldl1)
    | exact Part.le_trans (by decide) hc
    | (refine (?_ : Part.le _ _ = true); decide)
    | intro _
    | with_reducible (first | rfl)
    | split
    | dsimp only
    | simp only [id_eq]
  )

theorem State.bind_alters {s : State} {n : Nat} {d : GroupDesc} {ch : List Part} {s0 : State} (h0 : Alters ch s0 s)
    (hc : Part.le [.cells, .coll] ch = true) : Alters ch s0 (State.bind s n d) := by
  unfold State.bind
  try dsimp only
  repeat' (
    first
    | with_reducible (first | exact Alters.refl _ _ | apply Alters.ite | assumption | apply State.onColl_alters |
                            apply State.wr_alters)
    | exact Part.le_trans (by decide) hc
    | (refine (?_ : Part.le _ _ = true); decide)
    | intro _
    | with_reducible (first | rfl)
    | split
    | dsimp only
    | simp only [id_eq]
  )

theorem State.applyAborts_alters {s : State} {p n : Nat} {d : GroupDesc} {ch : List Part} {s0 : State} (h0 : Alters ch
    s0 s) (hc : Part.le [.cells, .coll] ch = true) : Alters ch s0 (State.applyAborts s p n d) := by
  unfold State.applyAborts
  try dsimp only
  repeat' (
    first
    | with_reducible (first | exact Alters.refl _ _ | apply Alters.ite | assumption | apply Alters.foldl |
                            apply State.noteAbort_alters | apply State.onColl_alters | apply Alters.foldl1)
    | exact Part.le_trans (by decide) hc
    | (refine (?_ : Part.le _ _ = true); decide)
    | intro _
    | with_reducible (first | rfl)
    | split
    | dsimp only
    | simp only [id_eq]
  )

theorem State.ownBytes_alters {s : State} {o : Owner} {x : CollWork} {d : GroupDesc} {rows : List XchgRow} {ch : List
    Part} {s0 : State} (h0 : Alters ch s0 s) (hc : Part.le (Part.err ++ [Part.tile, Part.mem, Part.nose, Part.power,
    Part.host]) ch = true) : Alters ch s0 (State.ownBytes s o x d rows).1 := by
  unfold State.ownBytes
  try dsimp only
  repeat' (
    first
    | with_reducible (first | exact Alters.refl _ _ | apply Alters.ite | assumption |
                          apply Alters.foldl | apply State.collRead_alters | apply Alters.foldl1 |
                          apply Alters.of_pair (by assumption))
    | exact Part.le_trans (by decide) hc
    | (refine (?_ : Part.le _ _ = true); decide)
    | intro _
    | with_reducible (first | rfl)
    | split
    | dsimp only
    | simp only [id_eq]
  )
theorem State.ownBytes_altersP {s : State} {o : Owner} {x : CollWork} {d : GroupDesc} {rows : List XchgRow} {t0 r0}
    (e_ : State.ownBytes s o x d rows = (t0, r0)) {ch : List Part} {s0 : State} (h0 : Alters ch s0 s) (hc : Part.le
    (Part.err ++ [Part.tile, Part.mem, Part.nose, Part.power, Part.host]) ch = true) : Alters ch s0 t0 := by
  have h := State.ownBytes_alters (s := s) (o := o) (x := x) (d := d) (rows := rows) h0  hc
  rw [e_] at h; exact h

theorem State.startColl_alters {s : State} {o : Owner} {x : CollWork} {d : GroupDesc} {tab : List XchgRow × Nat × Nat
    × Nat} {ch : List Part} {s0 : State} (h0 : Alters ch s0 s) (hc : Part.le (Part.err ++ [Part.words, Part.tile,
    Part.memBytes, Part.mem, Part.queue, Part.sig, Part.nose, Part.coll, Part.fab, Part.power, Part.host]) ch = true)
    : Alters ch s0 (State.startColl s o x d tab) := by
  unfold State.startColl
  try dsimp only
  repeat' (
    first
    | with_reducible (first | exact Alters.refl _ _ | apply Alters.ite | assumption |
                          apply Alters.foldl | apply State.addDests_alters | apply State.carry_alters |
                          apply State.collAdvance_alters | apply State.compareRec_alters | apply State.failRun_alters |
                          apply State.flightErr_alters | apply State.onColl_alters | apply State.onFlight_alters |
                          apply State.ownBytes_alters | apply State.raiseFor_alters | apply State.sendMsg_alters |
                          apply State.settleGroup_alters | apply State.showGroup_alters | apply State.takeEarly_alters |
                          apply Alters.foldl1 | apply Alters.of_pair (by assumption))
    | exact Part.le_trans (by decide) hc
    | (refine (?_ : Part.le _ _ = true); decide)
    | intro _
    | with_reducible (first | rfl)
    | split
    | dsimp only
    | simp only [id_eq]
  )

theorem State.maxCodes_alters {s : State} {o : Owner} {eng a n : Nat} {ts : List Nat} {acc : List Byte} {ch : List
    Part} {s0 : State} (h0 : Alters ch s0 s) (hc : Part.le (Part.err ++ [Part.tile, Part.nose]) ch = true) : Alters ch
    s0 (State.maxCodes s o eng a n ts acc).1 := by
  induction ts generalizing s o eng a n acc with
  | nil =>
    unfold State.maxCodes
    try dsimp only
    repeat' (
      first
      | with_reducible (first | exact Alters.refl _ _ | apply Alters.ite | assumption |
                            apply State.carry_alters | apply State.sealFail_alters | apply State.spadBytes_alters |
                            apply Alters.of_pair (by assumption))
      | exact Part.le_trans (by decide) hc
      | (refine (?_ : Part.le _ _ = true); decide)
      | intro _
      | with_reducible (first | rfl)
      | split
      | dsimp only
      | simp only [id_eq]
    )
  | cons hd_ tl_ ih_ =>
    unfold State.maxCodes
    try dsimp only
    repeat' (
      first
      | with_reducible (first | apply ih_ | exact Alters.refl _ _ | apply Alters.ite | assumption |
                            apply State.carry_alters | apply State.sealFail_alters | apply State.spadBytes_alters |
                            apply Alters.of_pair (by assumption))
      | exact Part.le_trans (by decide) hc
      | (refine (?_ : Part.le _ _ = true); decide)
      | intro _
      | with_reducible (first | rfl)
      | split
      | dsimp only
      | simp only [id_eq]
    )
theorem State.maxCodes_altersP {s : State} {o : Owner} {eng a n : Nat} {ts : List Nat} {acc : List Byte} {t0 r0} (e_ :
    State.maxCodes s o eng a n ts acc = (t0, r0)) {ch : List Part} {s0 : State} (h0 : Alters ch s0 s) (hc : Part.le
    (Part.err ++ [Part.tile, Part.nose]) ch = true) : Alters ch s0 t0 := by
  have h := State.maxCodes_alters (s := s) (o := o) (eng := eng) (a := a) (n := n) (ts := ts) (acc := acc) h0  hc
  rw [e_] at h; exact h

theorem State.anchorGroup_alters {s : State} {o : Owner} {eng : Nat} {x : CollWork} {ts : List Nat} {ch : List Part}
    {s0 : State} (h0 : Alters ch s0 s) (hc : Part.le (Part.err ++ [Part.words, Part.tile, Part.queue, Part.sig,
    Part.nose]) ch = true) : Alters ch s0 (State.anchorGroup s o eng x ts) := by
  unfold State.anchorGroup
  try dsimp only
  repeat' (
    first
    | with_reducible (first | exact Alters.refl _ _ | apply Alters.ite | assumption |
                          apply Alters.foldl | apply State.bump_alters | apply State.flightErr_alters |
                          apply State.localPut_alters | apply State.maxCodes_alters | apply State.noteErr_alters |
                          apply State.remoteWrite_alters | apply Alters.foldl1 | apply Alters.of_pair (by assumption))
    | exact Part.le_trans (by decide) hc
    | (refine (?_ : Part.le _ _ = true); decide)
    | intro _
    | with_reducible (first | rfl)
    | split
    | dsimp only
    | simp only [id_eq]
  )

theorem State.startTiles_alters {s : State} {o : Owner} {x : CollWork} {d : GroupDesc} {ch : List Part} {s0 : State}
    (h0 : Alters ch s0 s) (hc : Part.le (Part.err ++ [Part.words, Part.tile, Part.queue, Part.sig, Part.nose]) ch = true) : Alters ch s0
    (State.startTiles s o x d) := by
  unfold State.startTiles
  try dsimp only
  repeat' (
    first
    | with_reducible (first | exact Alters.refl _ _ | apply Alters.ite | assumption | apply Alters.foldl |
                            apply State.anchorGroup_alters | apply State.bump_alters | apply State.settleGroup_alters |
                            apply Alters.foldl1)
    | exact Part.le_trans (by decide) hc
    | (refine (?_ : Part.le _ _ = true); decide)
    | intro _
    | with_reducible (first | rfl)
    | split
    | dsimp only
    | simp only [id_eq]
  )

theorem State.groupChecks_alters {s : State} {p : Nat} {x : CollWork} {ch : List Part} {s0 : State} (h0 : Alters ch s0
    s) (hc : Part.le (Part.err ++ [Part.mem, Part.nose, Part.power, Part.host]) ch = true) : Alters ch s0
    (State.groupChecks s p x).1 := by
  unfold State.groupChecks
  try dsimp only
  repeat' (
    first
    | with_reducible (first | exact Alters.refl _ _ | apply Alters.ite | assumption |
                          apply State.readGroup_alters | apply Alters.of_pair (by assumption))
    | exact Part.le_trans (by decide) hc
    | (refine (?_ : Part.le _ _ = true); decide)
    | intro _
    | with_reducible (first | rfl)
    | split
    | dsimp only
    | simp only [id_eq]
  )
theorem State.groupChecks_altersP {s : State} {p : Nat} {x : CollWork} {t0 r0} (e_ : State.groupChecks s p x = (t0,
    r0)) {ch : List Part} {s0 : State} (h0 : Alters ch s0 s) (hc : Part.le (Part.err ++ [Part.mem, Part.nose,
    Part.power, Part.host]) ch = true) : Alters ch s0 t0 := by
  have h := State.groupChecks_alters (s := s) (p := p) (x := x) h0  hc
  rw [e_] at h; exact h

theorem State.tableCheck_alters {s : State} {o : Owner} {x : CollWork} {d : GroupDesc} {ch : List Part} {s0 : State}
    (h0 : Alters ch s0 s) (hc : Part.le (Part.err ++ [Part.tile, Part.mem, Part.nose, Part.power, Part.host]) ch =
    true) : Alters ch s0 (State.tableCheck s o x d).1 := by
  unfold State.tableCheck
  try dsimp only
  repeat' (
    first
    | with_reducible (first | exact Alters.refl _ _ | apply Alters.ite | assumption |
                          apply State.collRead_alters | apply Alters.of_pair (by assumption))
    | exact Part.le_trans (by decide) hc
    | (refine (?_ : Part.le _ _ = true); decide)
    | intro _
    | with_reducible (first | rfl)
    | split
    | dsimp only
    | simp only [id_eq]
  )
theorem State.tableCheck_altersP {s : State} {o : Owner} {x : CollWork} {d : GroupDesc} {t0 r0} (e_ : State.tableCheck
    s o x d = (t0, r0)) {ch : List Part} {s0 : State} (h0 : Alters ch s0 s) (hc : Part.le (Part.err ++ [Part.tile,
    Part.mem, Part.nose, Part.power, Part.host]) ch = true) : Alters ch s0 t0 := by
  have h := State.tableCheck_alters (s := s) (o := o) (x := x) (d := d) h0  hc
  rw [e_] at h; exact h

theorem State.beginColl_alters {b : State} {p : Nat} {o : Owner} {q i e : Nat} {x : CollWork} {d : GroupDesc} {tab :
    List XchgRow × Nat × Nat × Nat} {ch : List Part} {s0 : State} (h0 : Alters ch s0 b) (hc : Part.le (Part.err ++
    [Part.words, Part.tile, Part.memBytes, Part.mem, Part.queue, Part.sig, Part.nose, Part.coll, Part.fab, Part.power,
    Part.host]) ch = true) : Alters ch s0 (State.beginColl b p o q i e x d tab) := by
  unfold State.beginColl
  try dsimp only
  repeat' (
    first
    | with_reducible (first | exact Alters.refl _ _ | apply Alters.ite | assumption |
                          apply State.applyAborts_alters | apply State.bind_alters | apply State.bump_alters |
                          apply State.faultHead_alters | apply State.issue_alters | apply State.stampEntry_alters |
                          apply State.stampGen_alters | apply State.startColl_alters | apply State.startTiles_alters)
    | exact Part.le_trans (by decide) hc
    | (refine (?_ : Part.le _ _ = true); decide)
    | intro _
    | with_reducible (first | rfl)
    | split
    | dsimp only
    | simp only [id_eq]
  )

theorem State.runColl_alters {s : State} {q i e : Nat} {ch : List Part} {s0 : State} (h0 : Alters ch s0 s) (hc :
    Part.le (Part.err ++ [Part.words, Part.tile, Part.memBytes, Part.mem, Part.queue, Part.sig, Part.nose, Part.coll,
    Part.fab, Part.power, Part.host]) ch = true) : Alters ch s0 (State.runColl s q i e) := by
  unfold State.runColl
  try dsimp only
  repeat' (
    first
    | with_reducible (first | exact Alters.refl _ _ | apply Alters.ite | assumption |
                          apply State.beginColl_alters | apply State.faultHead_alters | apply State.groupChecks_alters |
                          apply State.tableCheck_alters | apply Alters.of_pair (by assumption) | apply Alters.ofChecked |
                          apply Alters.ofJudged | apply Alters.ofGiven)
    | exact Part.le_trans (by decide) hc
    | (refine (?_ : Part.le _ _ = true); decide)
    | intro _
    | with_reducible (first | rfl)
    | split
    | dsimp only
    | simp only [id_eq]
  )

theorem State.issueColl_alters {s : State} {q : Nat} {c : Nat → Bool} {ch : List Part} {s0 : State} (h0 : Alters ch s0
    s) (hc : Part.le (Part.err ++ [Part.words, Part.tile, Part.memBytes, Part.mem, Part.queue, Part.sig, Part.nose,
    Part.coll, Part.fab, Part.power, Part.host]) ch = true) : Alters ch s0 (State.issueColl s q c) := by
  unfold State.issueColl
  try dsimp only
  repeat' (
    first
    | with_reducible (first | exact Alters.refl _ _ | apply Alters.ite | assumption |
                          apply State.issueHead_alters | apply State.runColl_alters)
    | exact Part.le_trans (by decide) hc
    | (refine (?_ : Part.le _ _ = true); decide)
    | intro _
    | with_reducible (first | rfl)
    | split
    | dsimp only
    | simp only [id_eq]
  )

theorem execAllReduce_alters {q : Fin 64} {s : State} {t0} (e : execAllReduce q s = .next t0) : Alters (Part.err ++
    [Part.words, Part.tile, Part.memBytes, Part.mem, Part.queue, Part.sig, Part.nose, Part.coll, Part.fab, Part.power,
    Part.host]) s t0 := by
  unfold execAllReduce at e
  try dsimp only at e
  repeat' split at e
  all_goals (injection e with e; subst e)
  all_goals try dsimp only
  repeat' (
    first
    | with_reducible (first | exact Alters.refl _ _ | apply Alters.ite | assumption |
                          apply State.issueColl_alters)
    | exact Alters.refl _ _
    | (refine (?_ : Part.le _ _ = true); decide)
    | intro _
    | with_reducible (first | rfl)
    | split
    | dsimp only
    | simp only [id_eq]
  )

theorem execReduceScatter_alters {q : Fin 64} {s : State} {t0} (e : execReduceScatter q s = .next t0) : Alters
    (Part.err ++ [Part.words, Part.tile, Part.memBytes, Part.mem, Part.queue, Part.sig, Part.nose, Part.coll,
    Part.fab, Part.power, Part.host]) s t0 := by
  unfold execReduceScatter at e
  try dsimp only at e
  repeat' split at e
  all_goals (injection e with e; subst e)
  all_goals try dsimp only
  repeat' (
    first
    | with_reducible (first | exact Alters.refl _ _ | apply Alters.ite | assumption |
                          apply State.issueColl_alters)
    | exact Alters.refl _ _
    | (refine (?_ : Part.le _ _ = true); decide)
    | intro _
    | with_reducible (first | rfl)
    | split
    | dsimp only
    | simp only [id_eq]
  )

theorem execAllGather_alters {q : Fin 64} {s : State} {t0} (e : execAllGather q s = .next t0) : Alters (Part.err ++
    [Part.words, Part.tile, Part.memBytes, Part.mem, Part.queue, Part.sig, Part.nose, Part.coll, Part.fab, Part.power,
    Part.host]) s t0 := by
  unfold execAllGather at e
  try dsimp only at e
  repeat' split at e
  all_goals (injection e with e; subst e)
  all_goals try dsimp only
  repeat' (
    first
    | with_reducible (first | exact Alters.refl _ _ | apply Alters.ite | assumption |
                          apply State.issueColl_alters)
    | exact Alters.refl _ _
    | (refine (?_ : Part.le _ _ = true); decide)
    | intro _
    | with_reducible (first | rfl)
    | split
    | dsimp only
    | simp only [id_eq]
  )

theorem execAllToAll_alters {q : Fin 64} {s : State} {t0} (e : execAllToAll q s = .next t0) : Alters (Part.err ++
    [Part.words, Part.tile, Part.memBytes, Part.mem, Part.queue, Part.sig, Part.nose, Part.coll, Part.fab, Part.power,
    Part.host]) s t0 := by
  unfold execAllToAll at e
  try dsimp only at e
  repeat' split at e
  all_goals (injection e with e; subst e)
  all_goals try dsimp only
  repeat' (
    first
    | with_reducible (first | exact Alters.refl _ _ | apply Alters.ite | assumption |
                          apply State.issueColl_alters)
    | exact Alters.refl _ _
    | (refine (?_ : Part.le _ _ = true); decide)
    | intro _
    | with_reducible (first | rfl)
    | split
    | dsimp only
    | simp only [id_eq]
  )

theorem execAllToAllUnequal_alters {q : Fin 64} {s : State} {t0} (e : execAllToAllUnequal q s = .next t0) : Alters
    (Part.err ++ [Part.words, Part.tile, Part.memBytes, Part.mem, Part.queue, Part.sig, Part.nose, Part.coll,
    Part.fab, Part.power, Part.host]) s t0 := by
  unfold execAllToAllUnequal at e
  try dsimp only at e
  repeat' split at e
  all_goals (injection e with e; subst e)
  all_goals try dsimp only
  repeat' (
    first
    | with_reducible (first | exact Alters.refl _ _ | apply Alters.ite | assumption |
                          apply State.issueColl_alters)
    | exact Alters.refl _ _
    | (refine (?_ : Part.le _ _ = true); decide)
    | intro _
    | with_reducible (first | rfl)
    | split
    | dsimp only
    | simp only [id_eq]
  )

theorem execAnchorCmd_alters {q : Fin 64} {s : State} {t0} (e : execAnchorCmd q s = .next t0) : Alters (Part.err ++
    [Part.words, Part.tile, Part.memBytes, Part.mem, Part.queue, Part.sig, Part.nose, Part.coll, Part.fab, Part.power,
    Part.host]) s t0 := by
  unfold execAnchorCmd at e
  try dsimp only at e
  repeat' split at e
  all_goals (injection e with e; subst e)
  all_goals try dsimp only
  repeat' (
    first
    | with_reducible (first | exact Alters.refl _ _ | apply Alters.ite | assumption |
                          apply State.issueColl_alters)
    | exact Alters.refl _ _
    | (refine (?_ : Part.le _ _ = true); decide)
    | intro _
    | with_reducible (first | rfl)
    | split
    | dsimp only
    | simp only [id_eq]
  )

end Sys2Proof.Machine
end

