-- ==== Sys2Proof/Laws/AltersSillage.lean ====
section
/-! SUPPORT. What each operation of Machine/Sillage.lean alters. -/

-- One closing tactic serves every lemma here; where a goal needs few of its steps the linters name the rest.
set_option linter.all false
set_option Elab.async false

namespace Sys2Proof.Machine

theorem State.accept_alters {s : State} {e : Nat} {x : Xfer} {ch : List Part} {s0 : State} (h0 : Alters ch s0 s) (hc :
    Part.le [.cells, .stream] ch = true) : Alters ch s0 (State.accept s e x) := by
  unfold State.accept
  try dsimp only
  repeat' (
    first
    | with_reducible (first | exact Alters.refl _ _ | apply Alters.ite | assumption |
                          apply State.bump_alters | apply State.onStream_alters | apply State.takeSlot_alters |
                          apply State.tally_alters)
    | exact Part.le_trans (by decide) hc
    | (refine (?_ : Part.le _ _ = true); decide)
    | intro _
    | with_reducible (first | rfl)
    | split
    | dsimp only
    | simp only [id_eq]
  )

theorem execTransferAccept_alters {e : Fin 16} {s : State} {t0} (e : execTransferAccept e s = .next t0) : Alters
    (Part.err ++ [Part.tile, Part.stream, Part.queue, Part.nose]) s t0 := by
  unfold execTransferAccept at e
  try dsimp only at e
  repeat' split at e
  all_goals (injection e with e; subst e)
  all_goals try dsimp only
  repeat' (
    first
    | with_reducible (first | exact Alters.refl _ _ | apply Alters.ite | assumption |
                          apply State.accept_alters | apply State.feedGathers_alters)
    | exact Alters.refl _ _
    | (refine (?_ : Part.le _ _ = true); decide)
    | intro _
    | with_reducible (first | rfl)
    | split
    | dsimp only
    | simp only [id_eq]
  )

theorem State.xferDone_alters {s : State} {e : Nat} {x : Xfer} {ch : List Part} {s0 : State} (h0 : Alters ch s0 s) (hc
    : Part.le (Part.err ++ [Part.tile, Part.mem, Part.stream, Part.queue, Part.nose, Part.fab, Part.power, Part.host])
    ch = true) : Alters ch s0 (State.xferDone s e x) := by
  unfold State.xferDone
  try dsimp only
  repeat' (
    first
    | with_reducible (first | exact Alters.refl _ _ | apply Alters.ite | assumption |
                          apply State.freeSlot_alters | apply State.pieceDone_alters | apply State.tally_alters)
    | exact Part.le_trans (by decide) hc
    | (refine (?_ : Part.le _ _ = true); decide)
    | intro _
    | with_reducible (first | rfl)
    | split
    | dsimp only
    | simp only [id_eq]
  )

theorem State.endDrop_alters {s : State} {d : Drop} {ch : List Part} {s0 : State} (h0 : Alters ch s0 s) (hc : Part.le
    (Part.err ++ [Part.tile, Part.mem, Part.stream, Part.queue, Part.nose, Part.fab, Part.power, Part.host]) ch =
    true) : Alters ch s0 (State.endDrop s d) := by
  unfold State.endDrop
  try dsimp only
  repeat' (
    first
    | with_reducible (first | exact Alters.refl _ _ | apply Alters.ite | assumption |
                          apply State.onStream_alters | apply State.xferDone_alters)
    | exact Part.le_trans (by decide) hc
    | (refine (?_ : Part.le _ _ = true); decide)
    | intro _
    | with_reducible (first | rfl)
    | split
    | dsimp only
    | simp only [id_eq]
  )

theorem State.onEntry_alters {s : State} {id : Nat} {g : MergeEntry → MergeEntry} {ch : List Part} {s0 : State} (h0 :
    Alters ch s0 s) (hc : Part.le [.stream] ch = true) : Alters ch s0 (State.onEntry s id g) := by
  unfold State.onEntry
  try dsimp only
  repeat' (
    first
    | with_reducible (first | exact Alters.refl _ _ | apply Alters.ite | assumption | apply State.onStream_alters)
    | exact Part.le_trans (by decide) hc
    | (refine (?_ : Part.le _ _ = true); decide)
    | intro _
    | with_reducible (first | rfl)
    | split
    | dsimp only
    | simp only [id_eq]
  )

theorem State.fetched_alters {s : State} {m : MergeEntry} {x : Xfer} {bs : List Byte} {ch : List Part} {s0 : State}
    (h0 : Alters ch s0 s) (hc : Part.le [.stream] ch = true) : Alters ch s0 (State.fetched s m x bs) := by
  unfold State.fetched
  try dsimp only
  repeat' (
    first
    | with_reducible (first | exact Alters.refl _ _ | apply Alters.ite | assumption |
                          apply State.onEntry_alters)
    | exact Part.le_trans (by decide) hc
    | (refine (?_ : Part.le _ _ = true); decide)
    | intro _
    | with_reducible (first | rfl)
    | split
    | dsimp only
    | simp only [id_eq]
  )

theorem State.fetchData_alters {s : State} {m : MergeEntry} {x : Xfer} {ch : List Part} {s0 : State} (h0 : Alters ch
    s0 s) (hc : Part.le (Part.err ++ [Part.mem, Part.stream, Part.nose, Part.fab, Part.power, Part.host]) ch = true) :
    Alters ch s0 (State.fetchData s m x) := by
  unfold State.fetchData
  try dsimp only
  repeat' (
    first
    | with_reducible (first | exact Alters.refl _ _ | apply Alters.ite | assumption |
                          apply State.bump_alters | apply State.fetched_alters | apply State.hostAsk_alters |
                          apply State.hostFail_alters | apply State.memRead_alters | apply State.onEntry_alters |
                          apply State.raiseFor_alters | apply State.request_alters | apply Alters.of_pair (by assumption))
    | exact Part.le_trans (by decide) hc
    | (refine (?_ : Part.le _ _ = true); decide)
    | intro _
    | with_reducible (first | rfl)
    | split
    | dsimp only
    | simp only [id_eq]
  )

theorem execFetchIssue_alters {e : Fin 16} {id : Nat} {s : State} {t0} (e : execFetchIssue e id s = .next t0) : Alters
    (Part.err ++ [Part.mem, Part.stream, Part.nose, Part.fab, Part.power, Part.host]) s t0 := by
  unfold execFetchIssue at e
  try dsimp only at e
  repeat' split at e
  all_goals (injection e with e; subst e)
  all_goals try dsimp only
  repeat' (
    first
    | with_reducible (first | exact Alters.refl _ _ | apply Alters.ite | assumption |
                          apply State.bump_alters | apply State.fetchData_alters | apply State.onEntry_alters |
                          apply State.tally_alters)
    | exact Alters.refl _ _
    | (refine (?_ : Part.le _ _ = true); decide)
    | intro _
    | with_reducible (first | rfl)
    | split
    | dsimp only
    | simp only [id_eq]
  )

theorem State.markOwners_alters {s : State} {er : Err} {xs : List Xfer} {ch : List Part} {s0 : State} (h0 : Alters ch
    s0 s) (hc : Part.le [.cells, .nose] ch = true) : Alters ch s0 (State.markOwners s er xs) := by
  unfold State.markOwners
  try dsimp only
  repeat' (
    first
    | with_reducible (first | exact Alters.refl _ _ | apply Alters.ite | assumption | apply Alters.foldl |
                            apply State.mark_alters | apply Alters.foldl1)
    | exact Part.le_trans (by decide) hc
    | (refine (?_ : Part.le _ _ = true); decide)
    | intro _
    | with_reducible (first | rfl)
    | split
    | dsimp only
    | simp only [id_eq]
  )

theorem State.failFetch_alters {s : State} {m : MergeEntry} {er : Err} {ch : List Part} {s0 : State} (h0 : Alters ch
    s0 s) (hc : Part.le (Part.err ++ [Part.tile, Part.mem, Part.stream, Part.queue, Part.nose, Part.fab, Part.power,
    Part.host]) ch = true) : Alters ch s0 (State.failFetch s m er) := by
  unfold State.failFetch
  try dsimp only
  repeat' (
    first
    | with_reducible (first | exact Alters.refl _ _ | apply Alters.ite | assumption |
                          apply Alters.foldl | apply State.bump_alters | apply State.flightErr_alters |
                          apply State.irq_alters | apply State.markOwners_alters | apply State.onStream_alters |
                          apply State.raiseFor_alters | apply State.wr_alters | apply State.xferDone_alters |
                          apply Alters.foldl1)
    | exact Part.le_trans (by decide) hc
    | (refine (?_ : Part.le _ _ = true); decide)
    | intro _
    | with_reducible (first | rfl)
    | split
    | dsimp only
    | simp only [id_eq]
  )

theorem State.fetchArrives_alters {s : State} {m : MergeEntry} {x : Xfer} {ch : List Part} {s0 : State} (h0 : Alters
    ch s0 s) (hc : Part.le [.tile] ch = true) : Alters ch s0 (State.fetchArrives s m x).1 := by
  unfold State.fetchArrives
  try dsimp only
  repeat' (
    first
    | with_reducible (first | exact Alters.refl _ _ | apply Alters.ite | assumption |
                          apply State.onWire_alters | apply Alters.of_pair (by assumption))
    | exact Part.le_trans (by decide) hc
    | (refine (?_ : Part.le _ _ = true); decide)
    | intro _
    | with_reducible (first | rfl)
    | split
    | dsimp only
    | simp only [id_eq]
  )
theorem State.fetchArrives_altersP {s : State} {m : MergeEntry} {x : Xfer} {t0 r0} (e_ : State.fetchArrives s m x =
    (t0, r0)) {ch : List Part} {s0 : State} (h0 : Alters ch s0 s) (hc : Part.le [.tile] ch = true) : Alters ch s0 t0
    := by
  have h := State.fetchArrives_alters (s := s) (m := m) (x := x) h0  hc
  rw [e_] at h; exact h

theorem State.sealFetch_alters {s : State} {m : MergeEntry} {x : Xfer} {ch : List Part} {s0 : State} (h0 : Alters ch
    s0 s) (hc : Part.le (Part.err ++ [Part.tile, Part.mem, Part.stream, Part.queue, Part.nose, Part.fab, Part.power,
    Part.host]) ch = true) : Alters ch s0 (State.sealFetch s m x) := by
  unfold State.sealFetch
  try dsimp only
  repeat' (
    first
    | with_reducible (first | exact Alters.refl _ _ | apply Alters.ite | assumption |
                          apply State.failFetch_alters | apply State.sealFail_alters)
    | exact Part.le_trans (by decide) hc
    | (refine (?_ : Part.le _ _ = true); decide)
    | intro _
    | with_reducible (first | rfl)
    | split
    | dsimp only
    | simp only [id_eq]
  )

theorem execFetchReturn_alters {e : Fin 16} {id : Nat} {s : State} {t0} (e : execFetchReturn e id s = .next t0) :
    Alters (Part.err ++ [Part.tile, Part.mem, Part.stream, Part.queue, Part.nose, Part.fab, Part.power, Part.host]) s
    t0 := by
  unfold execFetchReturn at e
  try dsimp only at e
  repeat' split at e
  all_goals (injection e with e; subst e)
  all_goals try dsimp only
  repeat' (
    first
    | with_reducible (first | exact Alters.refl _ _ | apply Alters.ite | assumption |
                          apply State.failFetch_alters | apply State.fetchArrives_alters | apply State.onEntry_alters |
                          apply State.sealFetch_alters | apply Alters.of_pair (by assumption))
    | exact Alters.refl _ _
    | (refine (?_ : Part.le _ _ = true); decide)
    | intro _
    | with_reducible (first | rfl)
    | split
    | dsimp only
    | simp only [id_eq]
  )

theorem execFetchFail_alters {e : Fin 16} {id : Nat} {s : State} {t0} (e : execFetchFail e id s = .next t0) : Alters
    (Part.err ++ [Part.tile, Part.mem, Part.stream, Part.queue, Part.nose, Part.fab, Part.power, Part.host]) s t0 :=
    by
  unfold execFetchFail at e
  try dsimp only at e
  repeat' split at e
  all_goals (injection e with e; subst e)
  all_goals try dsimp only
  repeat' (
    first
    | with_reducible (first | exact Alters.refl _ _ | apply Alters.ite | assumption |
                          apply State.failFetch_alters | apply State.fetchArrives_alters | apply State.sealFetch_alters |
                          apply Alters.of_pair (by assumption))
    | exact Alters.refl _ _
    | (refine (?_ : Part.le _ _ = true); decide)
    | intro _
    | with_reducible (first | rfl)
    | split
    | dsimp only
    | simp only [id_eq]
  )

theorem execFetchSlow_alters {e : Fin 16} {id : Nat} {s : State} {t0} (e : execFetchSlow e id s = .next t0) : Alters
    (Part.err ++ [Part.stream, Part.nose]) s t0 := by
  unfold execFetchSlow at e
  try dsimp only at e
  repeat' split at e
  all_goals (injection e with e; subst e)
  all_goals try dsimp only
  repeat' (
    first
    | with_reducible (first | exact Alters.refl _ _ | apply Alters.ite | assumption | apply State.bump_alters |
                            apply State.irq_alters | apply State.onEntry_alters | apply State.raiseFor_alters)
    | exact Alters.refl _ _
    | (refine (?_ : Part.le _ _ = true); decide)
    | intro _
    | with_reducible (first | rfl)
    | split
    | dsimp only
    | simp only [id_eq]
  )

theorem State.openDrop_alters {s : State} {e : Nat} {ws : List Word} {x : Xfer} {t : Nat} {ch : List Part} {s0 :
    State} (h0 : Alters ch s0 s) (hc : Part.le (Part.err ++ [Part.tile, Part.stream, Part.queue, Part.nose]) ch = true) : Alters ch s0
    (State.openDrop s e ws x t) := by
  unfold State.openDrop
  try dsimp only
  repeat' (
    first
    | with_reducible (first | exact Alters.refl _ _ | apply Alters.ite | assumption | apply State.admitWrite_alters |
                            apply State.flightErr_alters | apply State.onStream_alters |
                            apply Alters.of_pair (by assumption))
    | exact Part.le_trans (by decide) hc
    | (refine (?_ : Part.le _ _ = true); decide)
    | intro _
    | with_reducible (first | rfl)
    | split
    | dsimp only
    | simp only [id_eq]
  )

theorem State.openDrops_alters {s : State} {e : Nat} {ws : List Word} {g : List Xfer} {ch : List Part} {s0 : State}
    (h0 : Alters ch s0 s) (hc : Part.le (Part.err ++ [Part.tile, Part.stream, Part.queue, Part.nose]) ch = true) : Alters ch s0
    (State.openDrops s e ws g) := by
  unfold State.openDrops
  try dsimp only
  repeat' (
    first
    | with_reducible (first | exact Alters.refl _ _ | apply Alters.ite | assumption | apply Alters.foldl |
                            apply State.openDrop_alters | apply Alters.foldl1)
    | exact Part.le_trans (by decide) hc
    | (refine (?_ : Part.le _ _ = true); decide)
    | intro _
    | with_reducible (first | rfl)
    | split
    | dsimp only
    | simp only [id_eq]
  )

theorem State.sendFlit_alters {s : State} {e : Nat} {g : List Xfer} {ch : List Part} {s0 : State} (h0 : Alters ch s0
    s) (hc : Part.le [.stream] ch = true) : Alters ch s0 (State.sendFlit s e g) := by
  unfold State.sendFlit
  try dsimp only
  repeat' (
    first
    | with_reducible (first | exact Alters.refl _ _ | apply Alters.ite | assumption | apply Alters.foldl |
                            apply State.onStream_alters | apply Alters.foldl1)
    | exact Part.le_trans (by decide) hc
    | (refine (?_ : Part.le _ _ = true); decide)
    | intro _
    | with_reducible (first | rfl)
    | split
    | dsimp only
    | simp only [id_eq]
  )

theorem State.closeGroup_alters {s : State} {e id : Nat} {g : Group} {ch : List Part} {s0 : State} (h0 : Alters ch s0
    s) (hc : Part.le (Part.err ++ [Part.tile, Part.mem, Part.stream, Part.queue, Part.nose, Part.fab, Part.power,
    Part.host]) ch = true) : Alters ch s0 (State.closeGroup s e id g) := by
  unfold State.closeGroup
  try dsimp only
  repeat' (
    first
    | with_reducible (first | exact Alters.refl _ _ | apply Alters.ite | assumption |
                          apply Alters.foldl | apply State.bump_alters | apply State.onEntry_alters |
                          apply State.onStream_alters | apply State.xferDone_alters | apply Alters.foldl1)
    | exact Part.le_trans (by decide) hc
    | (refine (?_ : Part.le _ _ = true); decide)
    | intro _
    | with_reducible (first | rfl)
    | split
    | dsimp only
    | simp only [id_eq]
  )

theorem State.injectFlit_alters {s : State} {e id : Nat} {ws : List Word} {g : Group} {ch : List Part} {s0 : State}
    (h0 : Alters ch s0 s) (hc : Part.le (Part.err ++ [Part.tile, Part.mem, Part.stream, Part.queue, Part.nose,
    Part.fab, Part.power, Part.host]) ch = true) : Alters ch s0 (State.injectFlit s e id ws g) := by
  unfold State.injectFlit
  try dsimp only
  repeat' (
    first
    | with_reducible (first | exact Alters.refl _ _ | apply Alters.ite | assumption |
                          apply State.closeGroup_alters | apply State.onEntry_alters | apply State.openDrops_alters |
                          apply State.sendFlit_alters)
    | exact Part.le_trans (by decide) hc
    | (refine (?_ : Part.le _ _ = true); decide)
    | intro _
    | with_reducible (first | rfl)
    | split
    | dsimp only
    | simp only [id_eq]
  )

theorem execInjection_alters {e : Fin 16} {id : Nat} {s : State} {t0} (e : execInjection e id s = .next t0) : Alters
    (Part.err ++ [Part.tile, Part.mem, Part.stream, Part.queue, Part.nose, Part.fab, Part.power, Part.host]) s t0 :=
    by
  unfold execInjection at e
  try dsimp only at e
  repeat' split at e
  all_goals (injection e with e; subst e)
  all_goals try dsimp only
  repeat' (
    first
    | with_reducible (first | exact Alters.refl _ _ | apply Alters.ite | assumption |
                          apply State.injectFlit_alters)
    | exact Alters.refl _ _
    | (refine (?_ : Part.le _ _ = true); decide)
    | intro _
    | with_reducible (first | rfl)
    | split
    | dsimp only
    | simp only [id_eq]
  )

theorem execDropCreditReturn_alters {e : Fin 16} {t : Fin 960} {s : State} {t0} (e : execDropCreditReturn e t s =
    .next t0) : Alters (Part.err ++ [Part.tile, Part.mem, Part.stream, Part.queue, Part.nose, Part.fab, Part.power,
    Part.host]) s t0 := by
  unfold execDropCreditReturn at e
  try dsimp only at e
  repeat' split at e
  all_goals (injection e with e; subst e)
  all_goals try dsimp only
  repeat' (
    first
    | with_reducible (first | exact Alters.refl _ _ | apply Alters.ite | assumption |
                          apply State.endDrop_alters | apply State.onStream_alters)
    | exact Alters.refl _ _
    | (refine (?_ : Part.le _ _ = true); decide)
    | intro _
    | with_reducible (first | rfl)
    | split
    | dsimp only
    | simp only [id_eq]
  )

theorem execTransferAck_alters {e : Fin 16} {t : Fin 960} {s : State} {t0} (e : execTransferAck e t s = .next t0) :
    Alters (Part.err ++ [Part.words, Part.tile, Part.mem, Part.stream, Part.queue, Part.sig, Part.nose, Part.fab,
    Part.power, Part.host]) s t0 := by
  unfold execTransferAck at e
  try dsimp only at e
  repeat' split at e
  all_goals (injection e with e; subst e)
  all_goals try dsimp only
  repeat' (
    first
    | with_reducible (first | exact Alters.refl _ _ | apply Alters.ite | assumption |
                          apply State.endDrop_alters | apply State.landNow_alters)
    | exact Alters.refl _ _
    | (refine (?_ : Part.le _ _ = true); decide)
    | intro _
    | with_reducible (first | rfl)
    | split
    | dsimp only
    | simp only [id_eq]
  )

end Sys2Proof.Machine
end

