-- ==== Sys2Proof/Laws/AltersShift.lean ====
section
/-! SUPPORT. What each operation of Machine/Shift.lean alters. -/

-- One closing tactic serves every lemma here; where a goal needs few of its steps the linters name the rest.
set_option linter.all false
set_option Elab.async false

namespace Sys2Proof.Machine

theorem State.opDrop_alters {s : State} {c : Nat → Bool} {ch : List Part} {s0 : State} (h0 : Alters ch s0 s) (hc :
    Part.le [.cells, .mem] ch = true) : Alters ch s0 (State.opDrop s c) := by
  unfold State.opDrop
  try dsimp only
  repeat' (
    first
    | with_reducible (first | exact Alters.refl _ _ | apply Alters.ite | assumption |
                          apply State.onMem_altersR | apply State.wr_alters)
    | exact Part.le_trans (by decide) hc
    | (refine (?_ : Part.le _ _ = true); decide)
    | intro _
    | with_reducible (first | rfl)
    | split
    | dsimp only
    | simp only [id_eq]
  )

theorem State.dropGrans_alters {s : State} {x n : Nat} {c : Nat → Bool} {ch : List Part} {s0 : State} (h0 : Alters ch
    s0 s) (hc : Part.le [.cells, .mem] ch = true) : Alters ch s0 (State.dropGrans s x n c) := by
  unfold State.dropGrans
  try dsimp only
  repeat' (
    first
    | with_reducible (first | exact Alters.refl _ _ | apply Alters.ite | assumption |
                          apply Alters.foldl | apply State.bump_alters | apply State.moveGran_alters |
                          apply State.opDrop_alters | apply State.tally_alters | apply Alters.foldl1)
    | exact Part.le_trans (by decide) hc
    | (refine (?_ : Part.le _ _ = true); decide)
    | intro _
    | with_reducible (first | rfl)
    | split
    | dsimp only
    | simp only [id_eq]
  )

theorem State.dropRegion_alters {s : State} {t : Nat} {ch : List Part} {s0 : State} (h0 : Alters ch s0 s) (hc :
    Part.le [.cells, .mem] ch = true) : Alters ch s0 (State.dropRegion s t) := by
  unfold State.dropRegion
  try dsimp only
  repeat' (
    first
    | with_reducible (first | exact Alters.refl _ _ | apply Alters.ite | assumption |
                          apply State.dropGrans_alters | apply State.onMem_altersR)
    | exact Part.le_trans (by decide) hc
    | (refine (?_ : Part.le _ _ = true); decide)
    | intro _
    | with_reducible (first | rfl)
    | split
    | dsimp only
    | simp only [id_eq]
  )

theorem State.addFailed_alters {s : State} {r pcol : Nat} {field : Bool} {ch : List Part} {s0 : State} (h0 : Alters ch
    s0 s) (hc : Part.le [.cells] ch = true) : Alters ch s0 (State.addFailed s r pcol field) := by
  unfold State.addFailed
  try dsimp only
  repeat' (
    first
    | with_reducible (first | exact Alters.refl _ _ | apply Alters.ite | assumption | apply State.flag_alters |
                            apply State.wr_alters)
    | exact Part.le_trans (by decide) hc
    | (refine (?_ : Part.le _ _ = true); decide)
    | intro _
    | with_reducible (first | rfl)
    | split
    | dsimp only
    | simp only [id_eq]
  )

theorem State.onIsland_alters {s : State} {g : IslandSt → IslandSt} {ch : List Part} {s0 : State} (h0 : Alters ch s0
    s) (hc : Part.le [.island] ch = true) : Alters ch s0 (State.onIsland s g) := by
  unfold State.onIsland
  try dsimp only
  repeat' (
    first
    | with_reducible (first | exact Alters.refl _ _ | apply Alters.ite | assumption)
    | exact Part.le_trans (by decide) hc
    | (refine (?_ : Part.le _ _ = true); decide)
    | intro _
    | with_reducible (first | rfl)
    | split
    | dsimp only
    | simp only [id_eq]
    | with_reducible (first | apply Alters.upd_island)
  )

theorem State.countInsert_alters {s : State} {part : Nat} {ch : List Part} {s0 : State} (h0 : Alters ch s0 s) (hc :
    Part.le [.free, .cells, .tag, .island] ch = true) : Alters ch s0 (State.countInsert s part) := by
  unfold State.countInsert
  try dsimp only
  repeat' (
    first
    | with_reducible (first | exact Alters.refl _ _ | apply Alters.ite | assumption | apply State.journal_alters |
                            apply State.onIsland_alters | apply State.queueTag_alters)
    | exact Part.le_trans (by decide) hc
    | (refine (?_ : Part.le _ _ = true); decide)
    | intro _
    | with_reducible (first | rfl)
    | split
    | dsimp only
    | simp only [id_eq]
  )

theorem State.spareRecord_alters {s : State} {r pcol : Nat} {ch : List Part} {s0 : State} (h0 : Alters ch s0 s) (hc :
    Part.le [.free, .cells, .tag, .island] ch = true) : Alters ch s0 (State.spareRecord s r pcol) := by
  unfold State.spareRecord
  try dsimp only
  repeat' (
    first
    | with_reducible (first | exact Alters.refl _ _ | apply Alters.ite | assumption | apply Alters.foldl |
                            apply State.journal_alters | apply State.onIsland_alters | apply State.wr_alters |
                            apply Alters.foldl1)
    | exact Part.le_trans (by decide) hc
    | (refine (?_ : Part.le _ _ = true); decide)
    | intro _
    | with_reducible (first | rfl)
    | split
    | dsimp only
    | simp only [id_eq]
  )

theorem State.markRetired_alters {s : State} {r : Nat} {ch : List Part} {s0 : State} (h0 : Alters ch s0 s) (hc :
    Part.le [.cells] ch = true) : Alters ch s0 (State.markRetired s r) := by
  unfold State.markRetired
  try dsimp only
  repeat' (
    first
    | with_reducible (first | exact Alters.refl _ _ | apply Alters.ite | assumption | apply State.wr_alters)
    | exact Part.le_trans (by decide) hc
    | (refine (?_ : Part.le _ _ = true); decide)
    | intro _
    | with_reducible (first | rfl)
    | split
    | dsimp only
    | simp only [id_eq]
  )

theorem State.onPower_alters {s : State} {g : PowerSt → PowerSt} {ch : List Part} {s0 : State} (h0 : Alters ch s0 s)
    (hc : Part.le [.power] ch = true) : Alters ch s0 (State.onPower s g) := by
  unfold State.onPower
  try dsimp only
  repeat' (
    first
    | with_reducible (first | exact Alters.refl _ _ | apply Alters.ite | assumption)
    | exact Part.le_trans (by decide) hc
    | (refine (?_ : Part.le _ _ = true); decide)
    | intro _
    | with_reducible (first | rfl)
    | split
    | dsimp only
    | simp only [id_eq]
    | with_reducible (first | apply Alters.upd_power)
  )

theorem State.gateTile_alters {s : State} {t : Nat} {ch : List Part} {s0 : State} (h0 : Alters ch s0 s) (hc : Part.le
    [.cells, .tile, .power] ch = true) : Alters ch s0 (State.gateTile s t) := by
  unfold State.gateTile
  try dsimp only
  repeat' (
    first
    | with_reducible (first | exact Alters.refl _ _ | apply Alters.ite | assumption | apply Alters.foldl |
                            apply State.clearLines_alters | apply State.onPower_alters | apply State.wr_alters |
                            apply Alters.foldl1)
    | exact Part.le_trans (by decide) hc
    | (refine (?_ : Part.le _ _ = true); decide)
    | intro _
    | with_reducible (first | rfl)
    | split
    | dsimp only
    | simp only [id_eq]
  )

theorem State.dropRow_alters {s : State} {r : Nat} {ch : List Part} {s0 : State} (h0 : Alters ch s0 s) (hc : Part.le
    [.cells, .clk, .tile, .power] ch = true) : Alters ch s0 (State.dropRow s r) := by
  unfold State.dropRow
  try dsimp only
  repeat' (
    first
    | with_reducible (first | exact Alters.refl _ _ | apply Alters.ite | assumption |
                          apply Alters.foldl | apply State.gateTile_alters | apply Alters.foldl1)
    | exact Part.le_trans (by decide) hc
    | (refine (?_ : Part.le _ _ = true); decide)
    | intro _
    | with_reducible (first | rfl)
    | split
    | dsimp only
    | simp only [id_eq]
    | with_reducible (first | apply Alters.upd_clk)
  )

theorem State.retireRow_alters {s : State} {r : Nat} {ch : List Part} {s0 : State} (h0 : Alters ch s0 s) (hc : Part.le
    (Part.err ++ [Part.clk, Part.tile, Part.mem, Part.queue, Part.sig, Part.nose, Part.power]) ch = true) : Alters ch
    s0 (State.retireRow s r) := by
  unfold State.retireRow
  try dsimp only
  repeat' (
    first
    | with_reducible (first | exact Alters.refl _ _ | apply Alters.ite | assumption |
                          apply Alters.foldl | apply State.dropRegion_alters | apply State.dropRow_alters |
                          apply State.endCommands_alters | apply State.markRetired_alters | apply State.raise_alters |
                          apply State.spareRecord_alters | apply Alters.foldl1)
    | exact Part.le_trans (by decide) hc
    | (refine (?_ : Part.le _ _ = true); decide)
    | intro _
    | with_reducible (first | rfl)
    | split
    | dsimp only
    | simp only [id_eq]
  )

theorem State.writeShadows_alters {s : State} {ch : List Part} {s0 : State} (h0 : Alters ch s0 s) (hc : Part.le
    [.part] ch = true) : Alters ch s0 (State.writeShadows s) := by
  unfold State.writeShadows
  try dsimp only
  repeat' (
    first
    | with_reducible (first | exact Alters.refl _ _ | apply Alters.ite | assumption |
                          apply State.onPart_alters)
    | exact Part.le_trans (by decide) hc
    | (refine (?_ : Part.le _ _ = true); decide)
    | intro _
    | with_reducible (first | rfl)
    | split
    | dsimp only
    | simp only [id_eq]
  )

theorem State.showShift_alters {s : State} {ch : List Part} {s0 : State} (h0 : Alters ch s0 s) (hc : Part.le [.cells,
    .part] ch = true) : Alters ch s0 (State.showShift s) := by
  unfold State.showShift
  try dsimp only
  repeat' (
    first
    | with_reducible (first | exact Alters.refl _ _ | apply Alters.ite | assumption |
                          apply State.wr_alters | apply State.writeShadows_alters)
    | exact Part.le_trans (by decide) hc
    | (refine (?_ : Part.le _ _ = true); decide)
    | intro _
    | with_reducible (first | rfl)
    | split
    | dsimp only
    | simp only [id_eq]
  )

theorem State.shiftRefused_alters {s : State} {ch : List Part} {s0 : State} (h0 : Alters ch s0 s) (hc : Part.le
    Part.err ch = true) : Alters ch s0 (State.shiftRefused s) := by
  unfold State.shiftRefused
  try dsimp only
  repeat' (
    first
    | with_reducible (first | exact Alters.refl _ _ | apply Alters.ite | assumption | apply State.bump_alters |
                            apply State.irq_alters | apply State.raise_alters | apply State.wr_alters)
    | exact Part.le_trans (by decide) hc
    | (refine (?_ : Part.le _ _ = true); decide)
    | intro _
    | with_reducible (first | rfl)
    | split
    | dsimp only
    | simp only [id_eq]
  )

theorem State.beginShift_alters {s : State} {r pcol : Nat} {replay : Bool} {ch : List Part} {s0 : State} (h0 : Alters
    ch s0 s) (hc : Part.le [.cells, .part] ch = true) : Alters ch s0 (State.beginShift s r pcol replay) := by
  unfold State.beginShift
  try dsimp only
  repeat' (
    first
    | with_reducible (first | exact Alters.refl _ _ | apply Alters.ite | assumption | apply State.beginRepair_alters |
                            apply State.onPart_alters | apply State.showShift_alters)
    | exact Part.le_trans (by decide) hc
    | (refine (?_ : Part.le _ _ = true); decide)
    | intro _
    | with_reducible (first | rfl)
    | split
    | dsimp only
    | simp only [id_eq]
  )

theorem State.endShift_alters {s : State} {x : Shift} {ch : List Part} {s0 : State} (h0 : Alters ch s0 s) (hc :
    Part.le [.cells, .part] ch = true) : Alters ch s0 (State.endShift s x) := by
  unfold State.endShift
  try dsimp only
  repeat' (
    first
    | with_reducible (first | exact Alters.refl _ _ | apply Alters.ite | assumption | apply State.endRepair_alters |
                            apply State.onPart_alters | apply State.showShift_alters)
    | exact Part.le_trans (by decide) hc
    | (refine (?_ : Part.le _ _ = true); decide)
    | intro _
    | with_reducible (first | rfl)
    | split
    | dsimp only
    | simp only [id_eq]
  )

theorem State.shiftRequest_alters {s : State} {r pcol : Nat} {ch : List Part} {s0 : State} (h0 : Alters ch s0 s) (hc :
    Part.le (Part.err ++ [Part.clk, Part.tile, Part.mem, Part.queue, Part.sig, Part.nose, Part.part, Part.power]) ch =
    true) : Alters ch s0 (State.shiftRequest s r pcol) := by
  unfold State.shiftRequest
  try dsimp only
  repeat' (
    first
    | with_reducible (first | exact Alters.refl _ _ | apply Alters.ite | assumption |
                          apply State.beginShift_alters | apply State.retireRow_alters | apply State.shiftRefused_alters)
    | exact Part.le_trans (by decide) hc
    | (refine (?_ : Part.le _ _ = true); decide)
    | intro _
    | with_reducible (first | rfl)
    | split
    | dsimp only
    | simp only [id_eq]
  )

theorem execShiftRequest_alters {p : Path} {row : BitVec 5} {pcol : BitVec 6} {s : State} {t0} (e : execShiftRequest p
    row pcol s = .next t0) : Alters (Part.err ++ [Part.wbuf, Part.clk, Part.tile, Part.mem, Part.queue, Part.sig,
    Part.nose, Part.part, Part.power]) s t0 := by
  unfold execShiftRequest at e
  try dsimp only at e
  repeat' split at e
  all_goals (injection e with e; subst e)
  all_goals try dsimp only
  repeat' (
    first
    | with_reducible (first | exact Alters.refl _ _ | apply Alters.ite | assumption |
                          apply State.onWrite_alters | apply State.shiftRequest_alters | apply State.wr_alters)
    | exact Alters.refl _ _
    | (refine (?_ : Part.le _ _ = true); decide)
    | intro _
    | with_reducible (first | rfl)
    | split
    | dsimp only
    | simp only [id_eq]
  )

theorem State.ownShift_alters {s : State} {r pcol : Nat} {replay : Bool} {ch : List Part} {s0 : State} (h0 : Alters ch
    s0 s) (hc : Part.le [.cells, .part] ch = true) : Alters ch s0 (State.ownShift s r pcol replay) := by
  unfold State.ownShift
  try dsimp only
  repeat' (
    first
    | with_reducible (first | exact Alters.refl _ _ | apply Alters.ite | assumption | apply State.beginShift_alters)
    | exact Part.le_trans (by decide) hc
    | (refine (?_ : Part.le _ _ = true); decide)
    | intro _
    | with_reducible (first | rfl)
    | split
    | dsimp only
    | simp only [id_eq]
  )

theorem State.moveStats_alters {s : State} {r k : Nat} {ch : List Part} {s0 : State} (h0 : Alters ch s0 s) (hc :
    Part.le [.cells] ch = true) : Alters ch s0 (State.moveStats s r k) := by
  unfold State.moveStats
  try dsimp only
  repeat' (
    first
    | with_reducible (first | exact Alters.refl _ _ | apply Alters.ite | assumption |
                          apply Alters.foldl | apply State.wr_alters | apply Alters.foldl1)
    | exact Part.le_trans (by decide) hc
    | (refine (?_ : Part.le _ _ = true); decide)
    | intro _
    | with_reducible (first | rfl)
    | split
    | dsimp only
    | simp only [id_eq]
  )

theorem State.moveRegions_alters {s : State} {r k : Nat} {ch : List Part} {s0 : State} (h0 : Alters ch s0 s) (hc :
    Part.le [.cells, .mem] ch = true) : Alters ch s0 (State.moveRegions s r k) := by
  unfold State.moveRegions
  try dsimp only
  repeat' (
    first
    | with_reducible (first | exact Alters.refl _ _ | apply Alters.ite | assumption |
                          apply State.moveStats_alters | apply State.onMem_altersR)
    | exact Part.le_trans (by decide) hc
    | (refine (?_ : Part.le _ _ = true); decide)
    | intro _
    | with_reducible (first | rfl)
    | split
    | dsimp only
    | simp only [id_eq]
  )

theorem State.shiftDone_alters {s : State} {x : Shift} {regionLost : Bool} {ch : List Part} {s0 : State} (h0 : Alters
    ch s0 s) (hc : Part.le [.free, .cells, .tile, .mem, .part, .tag, .island, .msix, .out] ch = true) : Alters ch s0
    (State.shiftDone s x regionLost) := by
  unfold State.shiftDone
  try dsimp only
  repeat' (
    first
    | with_reducible (first | exact Alters.refl _ _ | apply Alters.ite | assumption |
                          apply State.addFailed_alters | apply State.bump_alters | apply State.clearLines_alters |
                          apply State.dropRegion_alters | apply State.endShift_alters | apply State.irq_alters |
                          apply State.moveRegions_alters | apply State.spareRecord_alters | apply State.wr_alters)
    | exact Part.le_trans (by decide) hc
    | (refine (?_ : Part.le _ _ = true); decide)
    | intro _
    | with_reducible (first | rfl)
    | split
    | dsimp only
    | simp only [id_eq]
  )

theorem execShiftCopyDone_alters {row : Fin 24} {regionLost : Bool} {s : State} {t0} (e : execShiftCopyDone row
    regionLost s = .next t0) : Alters [.free, .cells, .tile, .mem, .part, .tag, .island, .msix, .out] s t0 := by
  unfold execShiftCopyDone at e
  try dsimp only at e
  repeat' split at e
  all_goals (injection e with e; subst e)
  all_goals try dsimp only
  repeat' (
    first
    | with_reducible (first | exact Alters.refl _ _ | apply Alters.ite | assumption | apply State.shiftDone_alters)
    | exact Alters.refl _ _
    | (refine (?_ : Part.le _ _ = true); decide)
    | intro _
    | with_reducible (first | rfl)
    | split
    | dsimp only
    | simp only [id_eq]
  )

theorem State.abortShift_alters {s : State} {x : Shift} {ch : List Part} {s0 : State} (h0 : Alters ch s0 s) (hc :
    Part.le (Part.err ++ [Part.part]) ch = true) : Alters ch s0 (State.abortShift s x) := by
  unfold State.abortShift
  try dsimp only
  repeat' (
    first
    | with_reducible (first | exact Alters.refl _ _ | apply Alters.ite | assumption | apply State.bump_alters |
                            apply State.endShift_alters | apply State.irq_alters | apply State.raise_alters |
                            apply State.wr_alters)
    | exact Part.le_trans (by decide) hc
    | (refine (?_ : Part.le _ _ = true); decide)
    | intro _
    | with_reducible (first | rfl)
    | split
    | dsimp only
    | simp only [id_eq]
  )

theorem State.tileFailed_alters {s : State} {r pcol : Nat} {ch : List Part} {s0 : State} (h0 : Alters ch s0 s) (hc :
    Part.le (Part.err ++ [Part.clk, Part.tile, Part.mem, Part.queue, Part.sig, Part.nose, Part.part, Part.power]) ch =
    true) : Alters ch s0 (State.tileFailed s r pcol) := by
  unfold State.tileFailed
  try dsimp only
  repeat' (
    first
    | with_reducible (first | exact Alters.refl _ _ | apply Alters.ite | assumption |
                          apply State.abortShift_alters | apply State.ownShift_alters | apply State.retireRow_alters)
    | exact Part.le_trans (by decide) hc
    | (refine (?_ : Part.le _ _ = true); decide)
    | intro _
    | with_reducible (first | rfl)
    | split
    | dsimp only
    | simp only [id_eq]
  )

theorem execTileFailure_alters {row : Fin 24} {pcol : Fin 42} {s : State} {t0} (e : execTileFailure row pcol s = .next
    t0) : Alters (Part.err ++ [Part.clk, Part.tile, Part.mem, Part.queue, Part.sig, Part.nose, Part.part, Part.power])
    s t0 := by
  unfold execTileFailure at e
  try dsimp only at e
  repeat' split at e
  all_goals (injection e with e; subst e)
  all_goals try dsimp only
  repeat' (
    first
    | with_reducible (first | exact Alters.refl _ _ | apply Alters.ite | assumption |
                          apply State.tileFailed_alters)
    | exact Alters.refl _ _
    | (refine (?_ : Part.le _ _ = true); decide)
    | intro _
    | with_reducible (first | rfl)
    | split
    | dsimp only
    | simp only [id_eq]
  )

end Sys2Proof.Machine
end

