-- ==== Sys2Proof/Laws/AltersNose.lean ====
section
/-! SUPPORT. What each operation of Machine/Nose.lean alters. -/

-- One closing tactic serves every lemma here; where a goal needs few of its steps the linters name the rest.
set_option linter.all false
set_option Elab.async false

namespace Sys2Proof.Machine

theorem State.endDup_alters {s : State} {d : Dup} {ch : List Part} {s0 : State} (h0 : Alters ch s0 s) (hc : Part.le
    [.nose] ch = true) : Alters ch s0 (State.endDup s d) := by
  unfold State.endDup
  try dsimp only
  repeat' (
    first
    | with_reducible (first | exact Alters.refl _ _ | apply Alters.ite | assumption | apply State.onNose_alters)
    | exact Part.le_trans (by decide) hc
    | (refine (?_ : Part.le _ _ = true); decide)
    | intro _
    | with_reducible (first | rfl)
    | split
    | dsimp only
    | simp only [id_eq]
  )

theorem State.implicate_alters {s : State} {d : Dup} {t role : Nat} {ch : List Part} {s0 : State} (h0 : Alters ch s0
    s) (hc : Part.le [.cells] ch = true) : Alters ch s0 (State.implicate s d t role) := by
  unfold State.implicate
  try dsimp only
  repeat' (
    first
    | with_reducible (first | exact Alters.refl _ _ | apply Alters.ite | assumption | apply State.bump_alters |
                            apply State.wr_alters)
    | exact Part.le_trans (by decide) hc
    | (refine (?_ : Part.le _ _ = true); decide)
    | intro _
    | with_reducible (first | rfl)
    | split
    | dsimp only
    | simp only [id_eq]
  )

theorem State.copies_alters {s : State} {d : Dup} {ch : List Part} {s0 : State} (h0 : Alters ch s0 s) (hc : Part.le
    (Part.err ++ [Part.tile, Part.nose]) ch = true) : Alters ch s0 (State.copies s d).1 := by
  unfold State.copies
  try dsimp only
  repeat' (
    first
    | with_reducible (first | exact Alters.refl _ _ | apply Alters.ite | assumption |
                          apply State.spadReads_alters | apply Alters.of_pair (by assumption))
    | exact Part.le_trans (by decide) hc
    | (refine (?_ : Part.le _ _ = true); decide)
    | intro _
    | with_reducible (first | rfl)
    | split
    | dsimp only
    | simp only [id_eq]
  )
theorem State.copies_altersP {s : State} {d : Dup} {t0 r0} (e_ : State.copies s d = (t0, r0)) {ch : List Part} {s0 :
    State} (h0 : Alters ch s0 s) (hc : Part.le (Part.err ++ [Part.tile, Part.nose]) ch = true) : Alters ch s0 t0 := by
  have h := State.copies_alters (s := s) (d := d) h0  hc
  rw [e_] at h; exact h

theorem State.runDup_alters {s : State} {d : Dup} {u : Nat} {ops : List Word} {err : List (Nat × Word)} {ch : List
    Part} {s0 : State} (h0 : Alters ch s0 s) (hc : Part.le [.cells, .words, .tile] ch = true) : Alters ch s0
    (State.runDup s d u ops err).1 := by
  unfold State.runDup
  try dsimp only
  repeat' (
    first
    | with_reducible (first | exact Alters.refl _ _ | apply Alters.ite | assumption |
                          apply State.bump_alters | apply State.spadWrites_alters)
    | exact Part.le_trans (by decide) hc
    | (refine (?_ : Part.le _ _ = true); decide)
    | intro _
    | with_reducible (first | rfl)
    | split
    | dsimp only
    | simp only [id_eq]
  )
theorem State.runDup_altersP {s : State} {d : Dup} {u : Nat} {ops : List Word} {err : List (Nat × Word)} {t0 r0} (e_ :
    State.runDup s d u ops err = (t0, r0)) {ch : List Part} {s0 : State} (h0 : Alters ch s0 s) (hc : Part.le [.cells,
    .words, .tile] ch = true) : Alters ch s0 t0 := by
  have h := State.runDup_alters (s := s) (d := d) (u := u) (ops := ops) (err := err) h0  hc
  rw [e_] at h; exact h

theorem execNoseDuplicate_alters {t : Fin 960} {q : Fin 64} {i : Nat} {err : List (Nat × Word)} {void : Bool} {s :
    State} {t0} (e : execNoseDuplicate t q i err void s = .next t0) : Alters (Part.err ++ [Part.words, Part.tile,
    Part.nose]) s t0 := by
  unfold execNoseDuplicate at e
  try dsimp only at e
  repeat' split at e
  all_goals (injection e with e; subst e)
  all_goals try dsimp only
  repeat' (
    first
    | with_reducible (first | exact Alters.refl _ _ | apply Alters.ite | assumption |
                          apply State.bump_alters | apply State.copies_alters | apply State.endDup_alters |
                          apply State.onNose_alters | apply State.runDup_alters | apply Alters.of_pair (by assumption))
    | exact Alters.refl _ _
    | (refine (?_ : Part.le _ _ = true); decide)
    | intro _
    | with_reducible (first | rfl)
    | split
    | dsimp only
    | simp only [id_eq]
  )

theorem State.mismatch_alters {s : State} {d : Dup} {original : Bool} {ch : List Part} {s0 : State} (h0 : Alters ch s0
    s) (hc : Part.le (Part.err ++ [Part.nose]) ch = true) : Alters ch s0 (State.mismatch s d original) := by
  unfold State.mismatch
  try dsimp only
  repeat' (
    first
    | with_reducible (first | exact Alters.refl _ _ | apply Alters.ite | assumption | apply State.mapRuns_alters |
                            apply State.raiseFor_alters)
    | exact Part.le_trans (by decide) hc
    | (refine (?_ : Part.le _ _ = true); decide)
    | intro _
    | with_reducible (first | rfl)
    | split
    | dsimp only
    | simp only [id_eq]
  )

theorem State.settleDup_alters {s : State} {d : Dup} {g c z : List Word} {ch : List Part} {s0 : State} (h0 : Alters ch
    s0 s) (hc : Part.le (Part.err ++ [Part.nose]) ch = true) : Alters ch s0 (State.settleDup s d g c z) := by
  unfold State.settleDup
  try dsimp only
  repeat' (
    first
    | with_reducible (first | exact Alters.refl _ _ | apply Alters.ite | assumption |
                          apply State.bump_alters | apply State.implicate_alters | apply State.mismatch_alters |
                          apply State.raiseCls_alters)
    | exact Part.le_trans (by decide) hc
    | (refine (?_ : Part.le _ _ = true); decide)
    | intro _
    | with_reducible (first | rfl)
    | split
    | dsimp only
    | simp only [id_eq]
  )

theorem execNoseArbiter_alters {t : Fin 960} {q : Fin 64} {i : Nat} {err : List (Nat × Word)} {fit void : Bool} {s :
    State} {t0} (e : execNoseArbiter t q i err fit void s = .next t0) : Alters (Part.err ++ [Part.words, Part.tile,
    Part.nose]) s t0 := by
  unfold execNoseArbiter at e
  try dsimp only at e
  repeat' split at e
  all_goals (injection e with e; subst e)
  all_goals try dsimp only
  repeat' (
    first
    | with_reducible (first | exact Alters.refl _ _ | apply Alters.ite | assumption |
                          apply State.bump_alters | apply State.copies_alters | apply State.endDup_alters |
                          apply State.mismatch_alters | apply State.runDup_alters | apply State.settleDup_alters |
                          apply State.spadWrites_alters | apply Alters.of_pair (by assumption))
    | exact Alters.refl _ _
    | (refine (?_ : Part.le _ _ = true); decide)
    | intro _
    | with_reducible (first | rfl)
    | split
    | dsimp only
    | simp only [id_eq]
  )

theorem execNosePeriod_alters {s : State} {t0} (e : execNosePeriod s = .next t0) : Alters [.cells, .nose] s t0 := by
  unfold execNosePeriod at e
  try dsimp only at e
  repeat' split at e
  all_goals (injection e with e; subst e)
  all_goals try dsimp only
  repeat' (
    first
    | with_reducible (first | exact Alters.refl _ _ | apply Alters.ite | assumption | apply State.onNose_alters |
                            apply State.wr_alters)
    | exact Alters.refl _ _
    | (refine (?_ : Part.le _ _ = true); decide)
    | intro _
    | with_reducible (first | rfl)
    | split
    | dsimp only
    | simp only [id_eq]
  )

theorem State.onAttempt_alters {s : State} {r : Run} {g : Run → Run} {ch : List Part} {s0 : State} (h0 : Alters ch s0
    s) (hc : Part.le [.nose] ch = true) : Alters ch s0 (State.onAttempt s r g) := by
  unfold State.onAttempt
  try dsimp only
  repeat' (
    first
    | with_reducible (first | exact Alters.refl _ _ | apply Alters.ite | assumption | apply State.mapRuns_alters)
    | exact Part.le_trans (by decide) hc
    | (refine (?_ : Part.le _ _ = true); decide)
    | intro _
    | with_reducible (first | rfl)
    | split
    | dsimp only
    | simp only [id_eq]
  )

theorem State.sendVerdicts_alters {s : State} {r : Run} {clean : Bool} {ch : List Part} {s0 : State} (h0 : Alters ch
    s0 s) (hc : Part.le (Part.err ++ [Part.fab]) ch = true) : Alters ch s0 (State.sendVerdicts s r clean) := by
  unfold State.sendVerdicts
  try dsimp only
  repeat' (
    first
    | with_reducible (first | exact Alters.refl _ _ | apply Alters.ite | assumption |
                          apply Alters.foldl | apply State.sendMsg_alters | apply State.sendRetract_alters |
                          apply Alters.foldl1)
    | exact Part.le_trans (by decide) hc
    | (refine (?_ : Part.le _ _ = true); decide)
    | intro _
    | with_reducible (first | rfl)
    | split
    | dsimp only
    | simp only [id_eq]
  )

theorem State.postLocal_alters {s : State} {r : Run} {ch : List Part} {s0 : State} (h0 : Alters ch s0 s) (hc : Part.le
    (Part.err ++ [Part.nose, Part.fab]) ch = true) : Alters ch s0 (State.postLocal s r) := by
  unfold State.postLocal
  try dsimp only
  repeat' (
    first
    | with_reducible (first | exact Alters.refl _ _ | apply Alters.ite | assumption | apply State.onAttempt_alters |
                            apply State.sendVerdicts_alters | apply State.showRuns_alters)
    | exact Part.le_trans (by decide) hc
    | (refine (?_ : Part.le _ _ = true); decide)
    | intro _
    | with_reducible (first | rfl)
    | split
    | dsimp only
    | simp only [id_eq]
  )

theorem execLocalVerdict_alters {part : Fin 8} {s : State} {t0} (e : execLocalVerdict part s = .next t0) : Alters
    (Part.err ++ [Part.nose, Part.fab]) s t0 := by
  unfold execLocalVerdict at e
  try dsimp only at e
  repeat' split at e
  all_goals (injection e with e; subst e)
  all_goals try dsimp only
  repeat' (
    first
    | with_reducible (first | exact Alters.refl _ _ | apply Alters.ite | assumption |
                          apply State.postLocal_alters)
    | exact Alters.refl _ _
    | (refine (?_ : Part.le _ _ = true); decide)
    | intro _
    | with_reducible (first | rfl)
    | split
    | dsimp only
    | simp only [id_eq]
  )

theorem execVerdictWindow_alters {part : Fin 8} {s : State} {t0} (e : execVerdictWindow part s = .next t0) : Alters
    (Part.err ++ [Part.nose, Part.fab]) s t0 := by
  unfold execVerdictWindow at e
  try dsimp only at e
  repeat' split at e
  all_goals (injection e with e; subst e)
  all_goals try dsimp only
  repeat' (
    first
    | with_reducible (first | exact Alters.refl _ _ | apply Alters.ite | assumption |
                          apply State.bump_alters | apply State.onAttempt_alters | apply State.onNose_alters |
                          apply State.postLocal_alters | apply State.raise_alters)
    | exact Alters.refl _ _
    | (refine (?_ : Part.le _ _ = true); decide)
    | intro _
    | with_reducible (first | rfl)
    | split
    | dsimp only
    | simp only [id_eq]
  )

theorem State.dropGates_alters {s : State} {p n : Nat} {ch : List Part} {s0 : State} (h0 : Alters ch s0 s) (hc :
    Part.le [.cells] ch = true) : Alters ch s0 (State.dropGates s p n) := by
  unfold State.dropGates
  try dsimp only
  repeat' (
    first
    | with_reducible (first | exact Alters.refl _ _ | apply Alters.ite | assumption | apply Alters.foldl |
                            apply State.showRetain_alters | apply State.wr_alters | apply Alters.foldl1)
    | exact Part.le_trans (by decide) hc
    | (refine (?_ : Part.le _ _ = true); decide)
    | intro _
    | with_reducible (first | rfl)
    | split
    | dsimp only
    | simp only [id_eq]
  )

theorem State.replayFail_alters {s : State} {p : Nat} {ch : List Part} {s0 : State} (h0 : Alters ch s0 s) (hc :
    Part.le Part.err ch = true) : Alters ch s0 (State.replayFail s p) := by
  unfold State.replayFail
  try dsimp only
  repeat' (
    first
    | with_reducible (first | exact Alters.refl _ _ | apply Alters.ite | assumption | apply State.irq_alters |
                            apply State.raise_alters | apply State.wr_alters)
    | exact Part.le_trans (by decide) hc
    | (refine (?_ : Part.le _ _ = true); decide)
    | intro _
    | with_reducible (first | rfl)
    | split
    | dsimp only
    | simp only [id_eq]
  )

theorem State.suspect_alters {s : State} {r : Run} {ch : List Part} {s0 : State} (h0 : Alters ch s0 s) (hc : Part.le
    (Part.err ++ [Part.queue, Part.sig, Part.nose, Part.coll, Part.fab]) ch = true) : Alters ch s0 (State.suspect s r) := by
  unfold State.suspect
  try dsimp only
  repeat' (
    first
    | with_reducible (first | exact Alters.refl _ _ | apply Alters.ite | assumption | apply State.bump_alters |
                            apply State.dropGates_alters | apply State.irq_alters | apply State.onAttempt_alters |
                            apply State.onNose_alters | apply State.replayAborts_alters | apply State.replayFail_alters |
                            apply State.sendVerdicts_alters | apply State.wr_alters)
    | exact Part.le_trans (by decide) hc
    | (refine (?_ : Part.le _ _ = true); decide)
    | intro _
    | with_reducible (first | rfl)
    | split
    | dsimp only
    | simp only [id_eq]
  )

theorem execFinalVerdict_alters {part : Fin 8} {s : State} {t0} (e : execFinalVerdict part s = .next t0) : Alters
    (Part.err ++ [Part.queue, Part.sig, Part.nose, Part.coll, Part.fab]) s t0 := by
  unfold execFinalVerdict at e
  try dsimp only at e
  repeat' split at e
  all_goals (injection e with e; subst e)
  all_goals try dsimp only
  repeat' (
    first
    | with_reducible (first | exact Alters.refl _ _ | apply Alters.ite | assumption |
                          apply State.bump_alters | apply State.onAttempt_alters | apply State.showRuns_alters |
                          apply State.suspect_alters)
    | exact Alters.refl _ _
    | (refine (?_ : Part.le _ _ = true); decide)
    | intro _
    | with_reducible (first | rfl)
    | split
    | dsimp only
    | simp only [id_eq]
  )

theorem State.applyVerdict_alters {s : State} {p : Nat} {v : Verdict} {ch : List Part} {s0 : State} (h0 : Alters ch s0
    s) (hc : Part.le (Part.err ++ [Part.nose]) ch = true) : Alters ch s0 (State.applyVerdict s p v) := by
  unfold State.applyVerdict
  try dsimp only
  repeat' (
    first
    | with_reducible (first | exact Alters.refl _ _ | apply Alters.ite | assumption | apply State.bump_alters |
                            apply State.mapRuns_alters | apply State.mark_alters | apply State.peerVerdict_alters |
                            apply State.raiseTag_alters | apply State.showRuns_alters)
    | exact Part.le_trans (by decide) hc
    | (refine (?_ : Part.le _ _ = true); decide)
    | intro _
    | with_reducible (first | rfl)
    | split
    | dsimp only
    | simp only [id_eq]
  )

theorem State.verdictMsg_alters {s : State} {p : Nat} {v : Verdict} {ch : List Part} {s0 : State} (h0 : Alters ch s0
    s) (hc : Part.le (Part.err ++ [Part.nose]) ch = true) : Alters ch s0 (State.verdictMsg s p v) := by
  unfold State.verdictMsg
  try dsimp only
  repeat' (
    first
    | with_reducible (first | exact Alters.refl _ _ | apply Alters.ite | assumption | apply State.applyVerdict_alters |
                            apply State.bump_alters | apply State.onAttempt_alters)
    | exact Part.le_trans (by decide) hc
    | (refine (?_ : Part.le _ _ = true); decide)
    | intro _
    | with_reducible (first | rfl)
    | split
    | dsimp only
    | simp only [id_eq]
  )

theorem State.restoreCkpt_alters {s : State} {c : Ckpt} {ch : List Part} {s0 : State} (h0 : Alters ch s0 s) (hc :
    Part.le (Part.err ++ [Part.queue, Part.sig, Part.nose]) ch = true) : Alters ch s0 (State.restoreCkpt s c) := by
  unfold State.restoreCkpt
  try dsimp only
  repeat' (
    first
    | with_reducible (first | exact Alters.refl _ _ | apply Alters.ite | assumption | apply Alters.foldl |
                            apply State.setCtr_alters | apply State.wr_alters | apply Alters.foldl1)
    | exact Part.le_trans (by decide) hc
    | (refine (?_ : Part.le _ _ = true); decide)
    | intro _
    | with_reducible (first | rfl)
    | split
    | dsimp only
    | simp only [id_eq]
  )

theorem State.rewindQueue_alters {s : State} {q n : Nat} {ch : List Part} {s0 : State} (h0 : Alters ch s0 s) (hc :
    Part.le [.cells, .queue] ch = true) : Alters ch s0 (State.rewindQueue s q n) := by
  unfold State.rewindQueue
  try dsimp only
  repeat' (
    first
    | with_reducible (first | exact Alters.refl _ _ | apply Alters.ite | assumption |
                          apply Alters.foldl | apply State.freshHead_alters | apply State.onQ_alters |
                          apply State.wr_alters | apply Alters.foldl1)
    | exact Part.le_trans (by decide) hc
    | (refine (?_ : Part.le _ _ = true); decide)
    | intro _
    | with_reducible (first | rfl)
    | split
    | dsimp only
    | simp only [id_eq]
  )

theorem State.replayResume_alters {s : State} {p : Nat} {ch : List Part} {s0 : State} (h0 : Alters ch s0 s) (hc :
    Part.le [.cells, .part] ch = true) : Alters ch s0 (State.replayResume s p) := by
  unfold State.replayResume
  try dsimp only
  repeat' (
    first
    | with_reducible (first | exact Alters.refl _ _ | apply Alters.ite | assumption | apply State.clearHolder_alters |
                            apply State.wr_alters)
    | exact Part.le_trans (by decide) hc
    | (refine (?_ : Part.le _ _ = true); decide)
    | intro _
    | with_reducible (first | rfl)
    | split
    | dsimp only
    | simp only [id_eq]
  )

theorem State.replayRestore_alters {s : State} {r : Run} {c : Ckpt} {ch : List Part} {s0 : State} (h0 : Alters ch s0
    s) (hc : Part.le (Part.err ++ [Part.queue, Part.sig, Part.nose, Part.part]) ch = true) : Alters ch s0 (State.replayRestore s r c)
    := by
  unfold State.replayRestore
  try dsimp only
  repeat' (
    first
    | with_reducible (first | exact Alters.refl _ _ | apply Alters.ite | assumption | apply Alters.foldl |
                            apply State.applyVerdict_alters | apply State.bump_alters | apply State.irq_alters |
                            apply State.onNose_alters | apply State.raise_alters | apply State.replayResume_alters |
                            apply State.restoreCkpt_alters | apply State.rewindQueue_alters |
                            apply State.showRuns_alters | apply State.wr_alters | apply Alters.foldl1)
    | exact Part.le_trans (by decide) hc
    | (refine (?_ : Part.le _ _ = true); decide)
    | intro _
    | with_reducible (first | rfl)
    | split
    | dsimp only
    | simp only [id_eq]
  )

theorem State.replayShift_alters {s : State} {p : Nat} {x : Nat × Nat} {ch : List Part} {s0 : State} (h0 : Alters ch
    s0 s) (hc : Part.le (Part.err ++ [Part.part]) ch = true) : Alters ch s0 (State.replayShift s p x) := by
  unfold State.replayShift
  try dsimp only
  repeat' (
    first
    | with_reducible (first | exact Alters.refl _ _ | apply Alters.ite | assumption | apply State.ownShift_alters |
                            apply State.reachQuiesce_alters | apply State.replayFail_alters |
                            apply State.setHolder_alters | apply State.shiftRefused_alters | apply State.wr_alters)
    | exact Part.le_trans (by decide) hc
    | (refine (?_ : Part.le _ _ = true); decide)
    | intro _
    | with_reducible (first | rfl)
    | split
    | dsimp only
    | simp only [id_eq]
  )

theorem execReplayRestore_alters {part : Fin 8} {s : State} {t0} (e : execReplayRestore part s = .next t0) : Alters
    (Part.err ++ [Part.queue, Part.sig, Part.nose, Part.part]) s t0 := by
  unfold execReplayRestore at e
  try dsimp only at e
  repeat' split at e
  all_goals (injection e with e; subst e)
  all_goals try dsimp only
  repeat' (
    first
    | with_reducible (first | exact Alters.refl _ _ | apply Alters.ite | assumption |
                          apply State.replayFail_alters | apply State.replayRestore_alters |
                          apply State.replayShift_alters | apply State.wr_alters)
    | exact Alters.refl _ _
    | (refine (?_ : Part.le _ _ = true); decide)
    | intro _
    | with_reducible (first | rfl)
    | split
    | dsimp only
    | simp only [id_eq]
  )

theorem execReplayResume_alters {p : Path} {part : Fin 8} {s : State} {t0} (e : execReplayResume p part s = .next t0)
    : Alters (Part.err ++ [Part.wbuf, Part.part]) s t0 := by
  unfold execReplayResume at e
  injection e with e; subst e
  exact State.onWrite_alters (Alters.refl _ _) (fun h => Alters.ite (State.replayResume_alters h (by decide)) h) (by decide)

theorem State.stepDisable_alters {s : State} {p : Nat} {ch : List Part} {s0 : State} (h0 : Alters ch s0 s) (hc :
    Part.le [.cells, .nose, .part] ch = true) : Alters ch s0 (State.stepDisable s p) := by
  unfold State.stepDisable
  try dsimp only
  repeat' (
    first
    | with_reducible (first | exact Alters.refl _ _ | apply Alters.ite | assumption |
                          apply Alters.foldl | apply State.clearHolder_alters | apply State.onNose_alters |
                          apply State.wr_alters | apply Alters.foldl1)
    | exact Part.le_trans (by decide) hc
    | (refine (?_ : Part.le _ _ = true); decide)
    | intro _
    | with_reducible (first | rfl)
    | split
    | dsimp only
    | simp only [id_eq]
  )

theorem execStepDisable_alters {p : Path} {part : Fin 8} {s : State} {t0} (e : execStepDisable p part s = .next t0) :
    Alters (Part.err ++ [Part.wbuf, Part.nose, Part.part]) s t0 := by
  unfold execStepDisable at e
  try dsimp only at e
  repeat' split at e
  all_goals (injection e with e; subst e)
  all_goals try dsimp only
  repeat' (
    first
    | with_reducible (first | exact Alters.refl _ _ | apply Alters.ite | assumption |
                          apply State.onWrite_alters | apply State.stepDisable_alters)
    | exact Alters.refl _ _
    | (refine (?_ : Part.le _ _ = true); decide)
    | intro _
    | with_reducible (first | rfl)
    | split
    | dsimp only
    | simp only [id_eq]
  )

theorem State.fieldTest_alters {s : State} {test part : Nat} {ch : List Part} {s0 : State} (h0 : Alters ch s0 s) (hc :
    Part.le (Part.err ++ [Part.nose]) ch = true) : Alters ch s0 (State.fieldTest s test part) := by
  unfold State.fieldTest
  try dsimp only
  repeat' (
    first
    | with_reducible (first | exact Alters.refl _ _ | apply Alters.ite | assumption | apply State.onNose_alters |
                            apply State.raise_alters | apply State.wr_alters)
    | exact Part.le_trans (by decide) hc
    | (refine (?_ : Part.le _ _ = true); decide)
    | intro _
    | with_reducible (first | rfl)
    | split
    | dsimp only
    | simp only [id_eq]
  )

theorem execFieldTest_alters {p : Path} {test : BitVec 3} {part : Fin 8} {s : State} {t0} (e : execFieldTest p test
    part s = .next t0) : Alters (Part.err ++ [Part.wbuf, Part.nose]) s t0 := by
  unfold execFieldTest at e
  try dsimp only at e
  repeat' split at e
  all_goals (injection e with e; subst e)
  all_goals try dsimp only
  repeat' (
    first
    | with_reducible (first | exact Alters.refl _ _ | apply Alters.ite | assumption | apply State.fieldTest_alters |
                            apply State.onWrite_alters)
    | exact Alters.refl _ _
    | (refine (?_ : Part.le _ _ = true); decide)
    | intro _
    | with_reducible (first | rfl)
    | split
    | dsimp only
    | simp only [id_eq]
  )

theorem State.katTraces_alters {s : State} {test part : Nat} {ch : List Part} {s0 : State} (h0 : Alters ch s0 s) (hc :
    Part.le [.free, .words, .tile] ch = true) : Alters ch s0 (State.katTraces s test part) := by
  unfold State.katTraces
  try dsimp only
  repeat' (
    first
    | with_reducible (first | exact Alters.refl _ _ | apply Alters.ite | assumption |
                          apply Alters.foldl | apply State.clearLines_alters | apply State.spadWrites_alters |
                          apply Alters.foldl1)
    | exact Part.le_trans (by decide) hc
    | (refine (?_ : Part.le _ _ = true); decide)
    | intro _
    | with_reducible (first | rfl)
    | split
    | dsimp only
    | simp only [id_eq]
    | with_reducible (first | apply Alters.upd_free)
  )

theorem execFieldTestDone_alters {failed : List Nat} {s : State} {t0} (e : execFieldTestDone failed s = .next t0) :
    Alters (Part.err ++ [Part.words, Part.tile, Part.nose]) s t0 := by
  unfold execFieldTestDone at e
  try dsimp only at e
  repeat' split at e
  all_goals (injection e with e; subst e)
  all_goals try dsimp only
  repeat' (
    first
    | with_reducible (first | exact Alters.refl _ _ | apply Alters.ite | assumption |
                          apply Alters.foldl | apply State.bump_alters | apply State.irq_alters |
                          apply State.katTraces_alters | apply State.onNose_alters | apply State.raiseAll_alters |
                          apply State.wr_alters | apply Alters.foldl1)
    | exact Alters.refl _ _
    | (refine (?_ : Part.le _ _ = true); decide)
    | intro _
    | with_reducible (first | rfl)
    | split
    | dsimp only
    | simp only [id_eq]
  )

end Sys2Proof.Machine
end

