-- ==== Sys2Proof/Laws/AltersTiers.lean ====
section
/-! SUPPORT. What each operation of Machine/Tiers.lean alters. -/

-- One closing tactic serves every lemma here; where a goal needs few of its steps the linters name the rest.
set_option linter.all false
set_option Elab.async false

namespace Sys2Proof.Machine

theorem State.opResult_alters {s : State} {p : Path} {e : Option Err} {ch : List Part} {s0 : State} (h0 : Alters ch s0
    s) (hc : Part.le (Part.err ++ [Part.pathVal]) ch = true) : Alters ch s0 (State.opResult s p e) := by
  unfold State.opResult
  try dsimp only
  repeat' (
    first
    | with_reducible (first | exact Alters.refl _ _ | apply Alters.ite | assumption | apply State.pathWr_alters |
                            apply State.raise_alters)
    | exact Part.le_trans (by decide) hc
    | (refine (?_ : Part.le _ _ = true); decide)
    | intro _
    | with_reducible (first | rfl)
    | split
    | dsimp only
    | simp only [id_eq]
  )

theorem State.startOp_alters {s : State} {p : Path} {o : GranOp} {ch : List Part} {s0 : State} (h0 : Alters ch s0 s)
    (hc : Part.le (Part.err ++ [Part.mem, Part.pathVal]) ch = true) : Alters ch s0 (State.startOp s p o) := by
  unfold State.startOp
  try dsimp only
  repeat' (
    first
    | with_reducible (first | exact Alters.refl _ _ | apply Alters.ite | assumption | apply State.onMem_altersR |
                            apply State.opResult_alters | apply State.wr_alters)
    | exact Part.le_trans (by decide) hc
    | (refine (?_ : Part.le _ _ = true); decide)
    | intro _
    | with_reducible (first | rfl)
    | split
    | dsimp only
    | simp only [id_eq]
  )

theorem State.placeOp_alters {s : State} {p : Path} {c : Nat} {ch : List Part} {s0 : State} (h0 : Alters ch s0 s) (hc
    : Part.le (Part.err ++ [Part.mem, Part.pathVal]) ch = true) : Alters ch s0 (State.placeOp s p c) := by
  unfold State.placeOp
  try dsimp only
  repeat' (
    first
    | with_reducible (first | exact Alters.refl _ _ | apply Alters.ite | assumption | apply Alters.foldl |
                            apply State.bump_alters | apply State.moveGran_alters | apply State.opResult_alters |
                            apply State.startOp_alters | apply Alters.foldl1)
    | exact Part.le_trans (by decide) hc
    | (refine (?_ : Part.le _ _ = true); decide)
    | intro _
    | with_reducible (first | rfl)
    | split
    | dsimp only
    | simp only [id_eq]
  )

theorem execPlace_alters {p : Path} {c : Fin 64} {s : State} {t0} (e : execPlace p c s = .next t0) : Alters (Part.err
    ++ [Part.wbuf, Part.mem, Part.pathVal]) s t0 := by
  unfold execPlace at e
  try dsimp only at e
  repeat' split at e
  all_goals (injection e with e; subst e)
  all_goals try dsimp only
  repeat' (
    first
    | with_reducible (first | exact Alters.refl _ _ | apply Alters.ite | assumption | apply State.onWrite_alters |
                            apply State.placeOp_alters | apply State.wr_alters)
    | exact Alters.refl _ _
    | (refine (?_ : Part.le _ _ = true); decide)
    | intro _
    | with_reducible (first | rfl)
    | split
    | dsimp only
    | simp only [id_eq]
  )

theorem State.opDone_alters {s : State} {g : Nat} {ch : List Part} {s0 : State} (h0 : Alters ch s0 s) (hc : Part.le
    [.cells, .mem] ch = true) : Alters ch s0 (State.opDone s g) := by
  unfold State.opDone
  try dsimp only
  repeat' (
    first
    | with_reducible (first | exact Alters.refl _ _ | apply Alters.ite | assumption |
                          apply State.onMem_altersR | apply State.wr_alters)
    | exact Part.le_trans (by decide) hc
    | (refine (?_ : Part.le _ _ = true); decide)
    | intro _
    | with_reducible (first | rfl)
    | split
    | dsimp only
    | simp only [id_eq]
  )

theorem State.countFillAt_alters {s : State} {p : Place} {ch : List Part} {s0 : State} (h0 : Alters ch s0 s) (hc :
    Part.le [.cells, .power] ch = true) : Alters ch s0 (State.countFillAt s p) := by
  unfold State.countFillAt
  try dsimp only
  repeat' (
    first
    | with_reducible (first | exact Alters.refl _ _ | apply Alters.ite | assumption | apply State.bump_alters |
                            apply State.countBytes_alters)
    | exact Part.le_trans (by decide) hc
    | (refine (?_ : Part.le _ _ = true); decide)
    | intro _
    | with_reducible (first | rfl)
    | split
    | dsimp only
    | simp only [id_eq]
  )

theorem State.countFill_alters {s : State} {g : Nat} {ch : List Part} {s0 : State} (h0 : Alters ch s0 s) (hc : Part.le
    [.cells, .power] ch = true) : Alters ch s0 (State.countFill s g) := by
  unfold State.countFill
  try dsimp only
  repeat' (
    first
    | with_reducible (first | exact Alters.refl _ _ | apply Alters.ite | assumption | apply State.countFillAt_alters)
    | exact Part.le_trans (by decide) hc
    | (refine (?_ : Part.le _ _ = true); decide)
    | intro _
    | with_reducible (first | rfl)
    | split
    | dsimp only
    | simp only [id_eq]
  )

theorem execPlaceFillDone_alters {g : Nat} {s : State} {t0} (e : execPlaceFillDone g s = .next t0) : Alters [.cells,
    .memBytes, .mem, .power] s t0 := by
  unfold execPlaceFillDone at e
  try dsimp only at e
  repeat' split at e
  all_goals (injection e with e; subst e)
  all_goals try dsimp only
  repeat' (
    first
    | with_reducible (first | exact Alters.refl _ _ | apply Alters.ite | assumption |
                          apply State.countFill_alters | apply State.fillGran_alters | apply State.moveGran_alters |
                          apply State.opDone_alters)
    | exact Alters.refl _ _
    | (refine (?_ : Part.le _ _ = true); decide)
    | intro _
    | with_reducible (first | rfl)
    | split
    | dsimp only
    | simp only [id_eq]
  )

theorem State.releaseOp_alters {s : State} {p : Path} {c : Nat} {ch : List Part} {s0 : State} (h0 : Alters ch s0 s)
    (hc : Part.le (Part.err ++ [Part.mem, Part.pathVal]) ch = true) : Alters ch s0 (State.releaseOp s p c) := by
  unfold State.releaseOp
  try dsimp only
  repeat' (
    first
    | with_reducible (first | exact Alters.refl _ _ | apply Alters.ite | assumption | apply Alters.foldl |
                            apply State.onMem_altersR | apply State.opResult_alters | apply State.startOp_alters |
                            apply Alters.foldl1)
    | exact Part.le_trans (by decide) hc
    | (refine (?_ : Part.le _ _ = true); decide)
    | intro _
    | with_reducible (first | rfl)
    | split
    | dsimp only
    | simp only [id_eq]
  )

theorem execRelease_alters {p : Path} {c : Fin 64} {s : State} {t0} (e : execRelease p c s = .next t0) : Alters
    (Part.err ++ [Part.wbuf, Part.mem, Part.pathVal]) s t0 := by
  unfold execRelease at e
  try dsimp only at e
  repeat' split at e
  all_goals (injection e with e; subst e)
  all_goals try dsimp only
  repeat' (
    first
    | with_reducible (first | exact Alters.refl _ _ | apply Alters.ite | assumption | apply State.onWrite_alters |
                            apply State.releaseOp_alters | apply State.wr_alters)
    | exact Alters.refl _ _
    | (refine (?_ : Part.le _ _ = true); decide)
    | intro _
    | with_reducible (first | rfl)
    | split
    | dsimp only
    | simp only [id_eq]
  )

theorem execGranuleFree_alters {g : Nat} {s : State} {t0} (e : execGranuleFree g s = .next t0) : Alters [.cells, .mem]
    s t0 := by
  unfold execGranuleFree at e
  try dsimp only at e
  repeat' split at e
  all_goals (injection e with e; subst e)
  all_goals try dsimp only
  repeat' (
    first
    | with_reducible (first | exact Alters.refl _ _ | apply Alters.ite | assumption |
                          apply State.bump_alters | apply State.moveGran_alters | apply State.onMem_altersR |
                          apply State.opDone_alters)
    | exact Alters.refl _ _
    | (refine (?_ : Part.le _ _ = true); decide)
    | intro _
    | with_reducible (first | rfl)
    | split
    | dsimp only
    | simp only [id_eq]
  )

theorem State.outRemote_alters {a : State} {m : Move} {p : Place} {ch : List Part} {s0 : State} (h0 : Alters ch s0 a)
    (hc : Part.le (Part.err ++ [Part.tile, Part.mem, Part.stream, Part.queue, Part.nose, Part.fab, Part.power,
    Part.host]) ch = true) : Alters ch s0 (State.outRemote a m p) := by
  unfold State.outRemote
  try dsimp only
  repeat' (
    first
    | with_reducible (first | exact Alters.refl _ _ | apply Alters.ite | assumption |
                          apply State.checkData_alters | apply State.countBytes_alters | apply State.failMove_alters |
                          apply State.onStream_alters | apply State.sendPosts_alters |
                          apply Alters.of_pair (by assumption) | apply Alters.ofGiven)
    | exact Part.le_trans (by decide) hc
    | (refine (?_ : Part.le _ _ = true); decide)
    | intro _
    | with_reducible (first | rfl)
    | split
    | dsimp only
    | simp only [id_eq]
  )

theorem State.outGranule_alters {s : State} {q : Nat} {m : Move} {ch : List Part} {s0 : State} (h0 : Alters ch s0 s)
    (hc : Part.le (Part.err ++ [Part.tile, Part.mem, Part.stream, Part.queue, Part.nose, Part.fab, Part.power,
    Part.host]) ch = true) : Alters ch s0 (State.outGranule s q m) := by
  unfold State.outGranule
  try dsimp only
  repeat' (
    first
    | with_reducible (first | exact Alters.refl _ _ | apply Alters.ite | assumption |
                          apply State.failMove_alters | apply State.onStream_alters | apply State.outRemote_alters |
                          apply State.raiseFor_alters | apply State.sendPosts_alters | apply State.setMove_alters |
                          apply State.turnGran_alters | apply Alters.ofJudged | apply Alters.ofGiven)
    | exact Part.le_trans (by decide) hc
    | (refine (?_ : Part.le _ _ = true); decide)
    | intro _
    | with_reducible (first | rfl)
    | split
    | dsimp only
    | simp only [id_eq]
  )

theorem execGranuleOut_alters {q : Fin 64} {i : Nat} {s : State} {t0} (e : execGranuleOut q i s = .next t0) : Alters
    (Part.err ++ [Part.tile, Part.mem, Part.stream, Part.queue, Part.nose, Part.fab, Part.power, Part.host]) s t0 :=
    by
  unfold execGranuleOut at e
  try dsimp only at e
  repeat' split at e
  all_goals (injection e with e; subst e)
  all_goals try dsimp only
  repeat' (
    first
    | with_reducible (first | exact Alters.refl _ _ | apply Alters.ite | assumption |
                          apply State.outGranule_alters | apply Alters.ofGiven)
    | exact Alters.refl _ _
    | (refine (?_ : Part.le _ _ = true); decide)
    | intro _
    | with_reducible (first | rfl)
    | split
    | dsimp only
    | simp only [id_eq]
  )

theorem State.copyPieces_alters {s : State} {o : Owner} {p d : Place} {ps : List Piece} {ch : List Part} {s0 : State}
    (h0 : Alters ch s0 s) (hc : Part.le (Part.err ++ [Part.tile, Part.memBytes, Part.mem, Part.nose]) ch = true) :
    Alters ch s0 (State.copyPieces s o p d ps).1 := by
  induction ps generalizing s o p d with
  | nil =>
    unfold State.copyPieces
    try dsimp only
    repeat' (
      first
      | with_reducible (first | exact Alters.refl _ _ | apply Alters.ite | assumption |
                            apply State.carry_alters | apply State.onMem_alters | apply State.writeSpans_alters |
                            apply Alters.of_pair (by assumption))
      | exact Part.le_trans (by decide) hc
      | (refine (?_ : Part.le _ _ = true); decide)
      | intro _
      | with_reducible (first | rfl)
      | split
      | dsimp only
      | simp only [id_eq]
    )
  | cons hd_ tl_ ih_ =>
    unfold State.copyPieces
    try dsimp only
    repeat' (
      first
      | with_reducible (first | apply ih_ | exact Alters.refl _ _ | apply Alters.ite | assumption |
                            apply State.carry_alters | apply State.onMem_alters | apply State.writeSpans_alters |
                            apply Alters.of_pair (by assumption))
      | exact Part.le_trans (by decide) hc
      | (refine (?_ : Part.le _ _ = true); decide)
      | intro _
      | with_reducible (first | rfl)
      | split
      | dsimp only
      | simp only [id_eq]
    )
theorem State.copyPieces_altersP {s : State} {o : Owner} {p d : Place} {ps : List Piece} {t0 r0} (e_ :
    State.copyPieces s o p d ps = (t0, r0)) {ch : List Part} {s0 : State} (h0 : Alters ch s0 s) (hc : Part.le
    (Part.err ++ [Part.tile, Part.memBytes, Part.mem, Part.nose]) ch = true) : Alters ch s0 t0 := by
  have h := State.copyPieces_alters (s := s) (o := o) (p := p) (d := d) (ps := ps) h0  hc
  rw [e_] at h; exact h

theorem State.flipSource_alters {s : State} {m : Move} {ch : List Part} {s0 : State} (h0 : Alters ch s0 s) (hc :
    Part.le [.cells, .mem, .stream] ch = true) : Alters ch s0 (State.flipSource s m) := by
  unfold State.flipSource
  try dsimp only
  repeat' (
    first
    | with_reducible (first | exact Alters.refl _ _ | apply Alters.ite | assumption | apply State.bump_alters |
                            apply State.setMove_alters | apply State.turnGran_alters)
    | exact Part.le_trans (by decide) hc
    | (refine (?_ : Part.le _ _ = true); decide)
    | intro _
    | with_reducible (first | rfl)
    | split
    | dsimp only
    | simp only [id_eq]
  )

theorem State.endMove_alters {s : State} {m : Move} {ch : List Part} {s0 : State} (h0 : Alters ch s0 s) (hc : Part.le
    [.stream] ch = true) : Alters ch s0 (State.endMove s m) := by
  unfold State.endMove
  try dsimp only
  repeat' (
    first
    | with_reducible (first | exact Alters.refl _ _ | apply Alters.ite | assumption | apply State.onStream_alters)
    | exact Part.le_trans (by decide) hc
    | (refine (?_ : Part.le _ _ = true); decide)
    | intro _
    | with_reducible (first | rfl)
    | split
    | dsimp only
    | simp only [id_eq]
  )

theorem State.flipDone_alters {s : State} {m : Move} {ch : List Part} {s0 : State} (h0 : Alters ch s0 s) (hc : Part.le
    [.cells, .mem, .stream, .queue] ch = true) : Alters ch s0 (State.flipDone s m) := by
  unfold State.flipDone
  try dsimp only
  repeat' (
    first
    | with_reducible (first | exact Alters.refl _ _ | apply Alters.ite | assumption |
                          apply State.endMove_alters | apply State.flipSource_alters | apply State.giveSlots_alters |
                          apply State.onStream_alters | apply State.pieceDone_alters | apply State.turnGran_alters)
    | exact Part.le_trans (by decide) hc
    | (refine (?_ : Part.le _ _ = true); decide)
    | intro _
    | with_reducible (first | rfl)
    | split
    | dsimp only
    | simp only [id_eq]
  )

theorem State.flipCopy_alters {a : State} {m : Move} {p d : Place} {ch : List Part} {s0 : State} (h0 : Alters ch s0 a)
    (hc : Part.le (Part.err ++ [Part.tile, Part.memBytes, Part.mem, Part.stream, Part.queue, Part.nose, Part.fab,
    Part.power, Part.host]) ch = true) : Alters ch s0 (State.flipCopy a m p d) := by
  unfold State.flipCopy
  try dsimp only
  repeat' (
    first
    | with_reducible (first | exact Alters.refl _ _ | apply Alters.ite | assumption |
                          apply State.copyPieces_alters | apply State.countBytes_alters | apply State.failMove_alters |
                          apply State.fillGran_alters | apply State.flipDone_alters | apply State.raiseFor_alters |
                          apply State.sendPosts_alters | apply Alters.of_pair (by assumption) | apply Alters.ofGiven)
    | exact Part.le_trans (by decide) hc
    | (refine (?_ : Part.le _ _ = true); decide)
    | intro _
    | with_reducible (first | rfl)
    | split
    | dsimp only
    | simp only [id_eq]
  )

theorem State.flipLocal_alters {s : State} {m : Move} {p : Place} {ch : List Part} {s0 : State} (h0 : Alters ch s0 s)
    (hc : Part.le (Part.err ++ [Part.tile, Part.memBytes, Part.mem, Part.stream, Part.queue, Part.nose, Part.fab,
    Part.power, Part.host]) ch = true) : Alters ch s0 (State.flipLocal s m p) := by
  unfold State.flipLocal
  try dsimp only
  repeat' (
    first
    | with_reducible (first | exact Alters.refl _ _ | apply Alters.ite | assumption |
                          apply State.checkData_alters | apply State.failMove_alters | apply State.flipCopy_alters |
                          apply State.raiseFor_alters | apply Alters.of_pair (by assumption) | apply Alters.ofJudged |
                          apply Alters.ofGiven)
    | exact Part.le_trans (by decide) hc
    | (refine (?_ : Part.le _ _ = true); decide)
    | intro _
    | with_reducible (first | rfl)
    | split
    | dsimp only
    | simp only [id_eq]
  )

theorem State.flipRemote_alters {s : State} {m : Move} {ch : List Part} {s0 : State} (h0 : Alters ch s0 s) (hc :
    Part.le (Part.err ++ [Part.tile, Part.mem, Part.stream, Part.queue, Part.nose, Part.fab, Part.power, Part.host])
    ch = true) : Alters ch s0 (State.flipRemote s m) := by
  unfold State.flipRemote
  try dsimp only
  repeat' (
    first
    | with_reducible (first | exact Alters.refl _ _ | apply Alters.ite | assumption |
                          apply State.endFailed_alters | apply State.endMove_alters | apply State.flipSource_alters |
                          apply State.sendMsg_alters | apply State.wr_alters)
    | exact Part.le_trans (by decide) hc
    | (refine (?_ : Part.le _ _ = true); decide)
    | intro _
    | with_reducible (first | rfl)
    | split
    | dsimp only
    | simp only [id_eq]
    | with_reducible (first | apply Alters.upd_island)
  )

theorem State.flipGranule_alters {s : State} {m : Move} {ch : List Part} {s0 : State} (h0 : Alters ch s0 s) (hc :
    Part.le (Part.err ++ [Part.tile, Part.memBytes, Part.mem, Part.stream, Part.queue, Part.nose, Part.fab,
    Part.power, Part.host]) ch = true) : Alters ch s0 (State.flipGranule s m) := by
  unfold State.flipGranule
  try dsimp only
  repeat' (
    first
    | with_reducible (first | exact Alters.refl _ _ | apply Alters.ite | assumption |
                          apply State.failMove_alters | apply State.flipLocal_alters | apply State.flipRemote_alters |
                          apply State.raiseFor_alters | apply Alters.ofJudged)
    | exact Part.le_trans (by decide) hc
    | (refine (?_ : Part.le _ _ = true); decide)
    | intro _
    | with_reducible (first | rfl)
    | split
    | dsimp only
    | simp only [id_eq]
  )

theorem execGranuleFlip_alters {q : Fin 64} {i : Nat} {s : State} {t0} (e : execGranuleFlip q i s = .next t0) : Alters
    (Part.err ++ [Part.tile, Part.memBytes, Part.mem, Part.stream, Part.queue, Part.nose, Part.fab, Part.power,
    Part.host]) s t0 := by
  unfold execGranuleFlip at e
  try dsimp only at e
  repeat' split at e
  all_goals (injection e with e; subst e)
  all_goals try dsimp only
  repeat' (
    first
    | with_reducible (first | exact Alters.refl _ _ | apply Alters.ite | assumption |
                          apply State.flipGranule_alters | apply Alters.ofGiven)
    | exact Alters.refl _ _
    | (refine (?_ : Part.le _ _ = true); decide)
    | intro _
    | with_reducible (first | rfl)
    | split
    | dsimp only
    | simp only [id_eq]
  )

theorem State.ctxAlloc_alters {s : State} {p : Path} {part : Nat} {ch : List Part} {s0 : State} (h0 : Alters ch s0 s)
    (hc : Part.le (Part.err ++ [Part.pathVal]) ch = true) : Alters ch s0 (State.ctxAlloc s p part) := by
  unfold State.ctxAlloc
  try dsimp only
  repeat' (
    first
    | with_reducible (first | exact Alters.refl _ _ | apply Alters.ite | assumption | apply Alters.foldl |
                            apply State.pathWr_alters | apply State.raise_alters | apply State.wr_alters |
                            apply Alters.foldl1)
    | exact Part.le_trans (by decide) hc
    | (refine (?_ : Part.le _ _ = true); decide)
    | intro _
    | with_reducible (first | rfl)
    | split
    | dsimp only
    | simp only [id_eq]
  )

theorem execCtxAlloc_alters {p : Path} {part : Fin 8} {s : State} {t0} (e : execCtxAlloc p part s = .next t0) : Alters
    (Part.err ++ [Part.wbuf, Part.pathVal]) s t0 := by
  unfold execCtxAlloc at e
  try dsimp only at e
  repeat' split at e
  all_goals (injection e with e; subst e)
  all_goals try dsimp only
  repeat' (
    first
    | with_reducible (first | exact Alters.refl _ _ | apply Alters.ite | assumption | apply State.ctxAlloc_alters |
                            apply State.onWrite_alters)
    | exact Alters.refl _ _
    | (refine (?_ : Part.le _ _ = true); decide)
    | intro _
    | with_reducible (first | rfl)
    | split
    | dsimp only
    | simp only [id_eq]
  )

theorem State.ctxFree_alters {s : State} {c : Nat} {ch : List Part} {s0 : State} (h0 : Alters ch s0 s) (hc : Part.le
    Part.err ch = true) : Alters ch s0 (State.ctxFree s c) := by
  unfold State.ctxFree
  try dsimp only
  repeat' (
    first
    | with_reducible (first | exact Alters.refl _ _ | apply Alters.ite | assumption | apply State.raise_alters |
                            apply State.wr_alters)
    | exact Part.le_trans (by decide) hc
    | (refine (?_ : Part.le _ _ = true); decide)
    | intro _
    | with_reducible (first | rfl)
    | split
    | dsimp only
    | simp only [id_eq]
  )

theorem execCtxFree_alters {p : Path} {c : Fin 64} {s : State} {t0} (e : execCtxFree p c s = .next t0) : Alters
    (Part.err ++ [Part.wbuf]) s t0 := by
  unfold execCtxFree at e
  try dsimp only at e
  repeat' split at e
  all_goals (injection e with e; subst e)
  all_goals try dsimp only
  repeat' (
    first
    | with_reducible (first | exact Alters.refl _ _ | apply Alters.ite | assumption | apply State.ctxFree_alters |
                            apply State.onWrite_alters)
    | exact Alters.refl _ _
    | (refine (?_ : Part.le _ _ = true); decide)
    | intro _
    | with_reducible (first | rfl)
    | split
    | dsimp only
    | simp only [id_eq]
  )

theorem State.aperEnable_alters {s : State} {n : Nat} {ch : List Part} {s0 : State} (h0 : Alters ch s0 s) (hc :
    Part.le Part.err ch = true) : Alters ch s0 (State.aperEnable s n) := by
  unfold State.aperEnable
  try dsimp only
  repeat' (
    first
    | with_reducible (first | exact Alters.refl _ _ | apply Alters.ite | assumption | apply State.raise_alters |
                            apply State.wr_alters)
    | exact Part.le_trans (by decide) hc
    | (refine (?_ : Part.le _ _ = true); decide)
    | intro _
    | with_reducible (first | rfl)
    | split
    | dsimp only
    | simp only [id_eq]
  )

theorem execAperEnable_alters {p : Path} {n : Fin 192} {s : State} {t0} (e : execAperEnable p n s = .next t0) : Alters
    (Part.err ++ [Part.wbuf]) s t0 := by
  unfold execAperEnable at e
  try dsimp only at e
  repeat' split at e
  all_goals (injection e with e; subst e)
  all_goals try dsimp only
  repeat' (
    first
    | with_reducible (first | exact Alters.refl _ _ | apply Alters.ite | assumption | apply State.aperEnable_alters |
                            apply State.onWrite_alters)
    | exact Alters.refl _ _
    | (refine (?_ : Part.le _ _ = true); decide)
    | intro _
    | with_reducible (first | rfl)
    | split
    | dsimp only
    | simp only [id_eq]
  )

theorem State.aperDisable_alters {s : State} {n : Nat} {ch : List Part} {s0 : State} (h0 : Alters ch s0 s) (hc :
    Part.le [.mem] ch = true) : Alters ch s0 (State.aperDisable s n) := by
  unfold State.aperDisable
  try dsimp only
  repeat' (
    first
    | with_reducible (first | exact Alters.refl _ _ | apply Alters.ite | assumption | apply State.onMem_altersR)
    | exact Part.le_trans (by decide) hc
    | (refine (?_ : Part.le _ _ = true); decide)
    | intro _
    | with_reducible (first | rfl)
    | split
    | dsimp only
    | simp only [id_eq]
  )

theorem execAperDisable_alters {p : Path} {n : Fin 192} {s : State} {t0} (e : execAperDisable p n s = .next t0) :
    Alters (Part.err ++ [Part.wbuf, Part.mem]) s t0 := by
  unfold execAperDisable at e
  try dsimp only at e
  repeat' split at e
  all_goals (injection e with e; subst e)
  all_goals try dsimp only
  repeat' (
    first
    | with_reducible (first | exact Alters.refl _ _ | apply Alters.ite | assumption | apply State.aperDisable_alters |
                            apply State.onWrite_alters)
    | exact Alters.refl _ _
    | (refine (?_ : Part.le _ _ = true); decide)
    | intro _
    | with_reducible (first | rfl)
    | split
    | dsimp only
    | simp only [id_eq]
  )

theorem execAperDrained_alters {n : Fin 192} {s : State} {t0} (e : execAperDrained n s = .next t0) : Alters [.cells,
    .mem] s t0 := by
  unfold execAperDrained at e
  try dsimp only at e
  repeat' split at e
  all_goals (injection e with e; subst e)
  all_goals try dsimp only
  repeat' (
    first
    | with_reducible (first | exact Alters.refl _ _ | apply Alters.ite | assumption | apply State.onMem_altersR |
                            apply State.wr_alters)
    | exact Alters.refl _ _
    | (refine (?_ : Part.le _ _ = true); decide)
    | intro _
    | with_reducible (first | rfl)
    | split
    | dsimp only
    | simp only [id_eq]
  )

theorem State.markFlaws_alters {s : State} {lo v : Nat} {offs : List Nat} {ch : List Part} {s0 : State} (h0 : Alters
    ch s0 s) (hc : Part.le [.mem] ch = true) : Alters ch s0 (State.markFlaws s lo v offs) := by
  unfold State.markFlaws
  try dsimp only
  repeat' (
    first
    | with_reducible (first | exact Alters.refl _ _ | apply Alters.ite | assumption |
                          apply Alters.foldl | apply State.onMem_altersR | apply Alters.foldl1)
    | exact Part.le_trans (by decide) hc
    | (refine (?_ : Part.le _ _ = true); decide)
    | intro _
    | with_reducible (first | rfl)
    | split
    | dsimp only
    | simp only [id_eq]
  )

theorem State.flawWords_alters {s : State} {t : Nat} {ws : List (Nat × Nat)} {ch : List Part} {s0 : State} (h0 :
    Alters ch s0 s) (hc : Part.le [.tile] ch = true) : Alters ch s0 (State.flawWords s t ws) := by
  unfold State.flawWords
  try dsimp only
  repeat' (
    first
    | with_reducible (first | exact Alters.refl _ _ | apply Alters.ite | assumption |
                          apply Alters.foldl | apply Alters.foldl1)
    | exact Part.le_trans (by decide) hc
    | (refine (?_ : Part.le _ _ = true); decide)
    | intro _
    | with_reducible (first | rfl)
    | split
    | dsimp only
    | simp only [id_eq]
    | with_reducible (first | apply Alters.updR_tile)
  )

theorem State.flawWays_alters {s : State} {x : Upsets} {ch : List Part} {s0 : State} (h0 : Alters ch s0 s) (hc :
    Part.le [.tile] ch = true) : Alters ch s0 (State.flawWays s x) := by
  unfold State.flawWays
  try dsimp only
  repeat' (
    first
    | with_reducible (first | exact Alters.refl _ _ | apply Alters.ite | assumption)
    | exact Part.le_trans (by decide) hc
    | (refine (?_ : Part.le _ _ = true); decide)
    | intro _
    | with_reducible (first | rfl)
    | split
    | dsimp only
    | simp only [id_eq]
    | with_reducible (first | apply Alters.updR_tile)
  )

theorem State.upset_alters {s : State} {stack : Bool} {i : Nat} {x : Upsets} {ch : List Part} {s0 : State} (h0 :
    Alters ch s0 s) (hc : Part.le [.tile, .mem] ch = true) : Alters ch s0 (State.upset s stack i x) := by
  unfold State.upset
  try dsimp only
  repeat' (
    first
    | with_reducible (first | exact Alters.refl _ _ | apply Alters.ite | assumption |
                          apply Alters.foldl | apply State.flawWays_alters | apply State.flawWords_alters |
                          apply State.markFlaws_alters | apply State.onMem_altersR | apply Alters.foldl1)
    | exact Part.le_trans (by decide) hc
    | (refine (?_ : Part.le _ _ = true); decide)
    | intro _
    | with_reducible (first | rfl)
    | split
    | dsimp only
    | simp only [id_eq]
  )

theorem State.scrub_alters {s : State} {lo hi : Nat} {ch : List Part} {s0 : State} (h0 : Alters ch s0 s) (hc : Part.le
    (Part.err ++ [Part.mem, Part.nose]) ch = true) : Alters ch s0 (State.scrub s lo hi) := by
  unfold State.scrub
  try dsimp only
  repeat' (
    first
    | with_reducible (first | exact Alters.refl _ _ | apply Alters.ite | assumption |
                          apply Alters.foldl | apply State.poisonBlock_alters | apply State.scanLine_alters |
                          apply State.sealFail_alters | apply Alters.foldl1 | apply Alters.of_pair (by assumption))
    | exact Part.le_trans (by decide) hc
    | (refine (?_ : Part.le _ _ = true); decide)
    | intro _
    | with_reducible (first | rfl)
    | split
    | dsimp only
    | simp only [id_eq]
  )

theorem execPatrolScrub_alters {stack : Bool} {i : Nat} {met later : Upsets} {s : State} {t0} (e : execPatrolScrub
    stack i met later s = .next t0) : Alters (Part.err ++ [Part.tile, Part.mem, Part.nose]) s t0 := by
  unfold execPatrolScrub at e
  try dsimp only at e
  repeat' split at e
  all_goals (injection e with e; subst e)
  all_goals try dsimp only
  repeat' (
    first
    | with_reducible (first | exact Alters.refl _ _ | apply Alters.ite | assumption |
                          apply State.bump_alters | apply State.scrub_alters | apply State.upset_alters)
    | exact Alters.refl _ _
    | (refine (?_ : Part.le _ _ = true); decide)
    | intro _
    | with_reducible (first | rfl)
    | split
    | dsimp only
    | simp only [id_eq]
  )

theorem State.sparesOut_alters {s : State} {t : Nat} {ch : List Part} {s0 : State} (h0 : Alters ch s0 s) (hc : Part.le
    (Part.err ++ [Part.clk, Part.tile, Part.mem, Part.queue, Part.sig, Part.nose, Part.part, Part.power]) ch = true) :
    Alters ch s0 (State.sparesOut s t) := by
  unfold State.sparesOut
  try dsimp only
  repeat' (
    first
    | with_reducible (first | exact Alters.refl _ _ | apply Alters.ite | assumption |
                          apply State.onMem_altersR | apply State.raise_alters | apply State.tileFailed_alters)
    | exact Part.le_trans (by decide) hc
    | (refine (?_ : Part.le _ _ = true); decide)
    | intro _
    | with_reducible (first | rfl)
    | split
    | dsimp only
    | simp only [id_eq]
  )

theorem State.spareRow_alters {s : State} {t bank r : Nat} {ch : List Part} {s0 : State} (h0 : Alters ch s0 s) (hc :
    Part.le [.free, .cells, .mem, .tag] ch = true) : Alters ch s0 (State.spareRow s t bank r) := by
  unfold State.spareRow
  try dsimp only
  repeat' (
    first
    | with_reducible (first | exact Alters.refl _ _ | apply Alters.ite | assumption |
                          apply State.journal_alters | apply State.onMem_altersR | apply State.wr_alters)
    | exact Part.le_trans (by decide) hc
    | (refine (?_ : Part.le _ _ = true); decide)
    | intro _
    | with_reducible (first | rfl)
    | split
    | dsimp only
    | simp only [id_eq]
  )

theorem execBondedRowSpare_alters {t : Fin 960} {bank : Fin 16} {s : State} {t0} (e : execBondedRowSpare t bank s =
    .next t0) : Alters (Part.err ++ [Part.clk, Part.tile, Part.mem, Part.queue, Part.sig, Part.nose, Part.part,
    Part.power]) s t0 := by
  unfold execBondedRowSpare at e
  try dsimp only at e
  repeat' split at e
  all_goals (injection e with e; subst e)
  all_goals try dsimp only
  repeat' (
    first
    | with_reducible (first | exact Alters.refl _ _ | apply Alters.ite | assumption |
                          apply State.spareRow_alters | apply State.sparesOut_alters)
    | exact Alters.refl _ _
    | (refine (?_ : Part.le _ _ = true); decide)
    | intro _
    | with_reducible (first | rfl)
    | split
    | dsimp only
    | simp only [id_eq]
  )

theorem State.bankDone_alters {s : State} {t bank : Nat} {p : Option Nat} {ch : List Part} {s0 : State} (h0 : Alters
    ch s0 s) (hc : Part.le [.free, .cells, .mem, .part, .tag] ch = true) : Alters ch s0 (State.bankDone s t bank p) :=
    by
  unfold State.bankDone
  try dsimp only
  repeat' (
    first
    | with_reducible (first | exact Alters.refl _ _ | apply Alters.ite | assumption |
                          apply State.endRepair_alters | apply State.journal_alters | apply State.onMem_altersR |
                          apply State.wr_alters)
    | exact Part.le_trans (by decide) hc
    | (refine (?_ : Part.le _ _ = true); decide)
    | intro _
    | with_reducible (first | rfl)
    | split
    | dsimp only
    | simp only [id_eq]
  )

theorem execBankSpare_alters {t : Fin 960} {bank : Fin 16} {failed : Bool} {s : State} {t0} (e : execBankSpare t bank
    failed s = .next t0) : Alters (Part.err ++ [Part.clk, Part.tile, Part.mem, Part.queue, Part.sig, Part.nose,
    Part.part, Part.power]) s t0 := by
  unfold execBankSpare at e
  try dsimp only at e
  repeat' split at e
  all_goals (injection e with e; subst e)
  all_goals try dsimp only
  repeat' (
    first
    | with_reducible (first | exact Alters.refl _ _ | apply Alters.ite | assumption |
                          apply State.bankDone_alters | apply State.beginRepair_alters | apply State.sparesOut_alters)
    | exact Alters.refl _ _
    | (refine (?_ : Part.le _ _ = true); decide)
    | intro _
    | with_reducible (first | rfl)
    | split
    | dsimp only
    | simp only [id_eq]
  )

theorem State.failStack_alters {s : State} {k : Nat} {ch : List Part} {s0 : State} (h0 : Alters ch s0 s) (hc : Part.le
    (Part.err ++ [Part.mem]) ch = true) : Alters ch s0 (State.failStack s k) := by
  unfold State.failStack
  try dsimp only
  repeat' (
    first
    | with_reducible (first | exact Alters.refl _ _ | apply Alters.ite | assumption | apply State.dropGrans_alters |
                            apply State.raise_alters | apply State.wr_alters)
    | exact Part.le_trans (by decide) hc
    | (refine (?_ : Part.le _ _ = true); decide)
    | intro _
    | with_reducible (first | rfl)
    | split
    | dsimp only
    | simp only [id_eq]
  )

theorem State.stackSpare_alters {s : State} {k c_ : Nat} {requested : Bool} {ch : List Part} {s0 : State} (h0 : Alters
    ch s0 s) (hc : Part.le (Part.err ++ [Part.mem, Part.part]) ch = true) : Alters ch s0 (State.stackSpare s k c_
    requested) := by
  unfold State.stackSpare
  try dsimp only
  repeat' (
    first
    | with_reducible (first | exact Alters.refl _ _ | apply Alters.ite | assumption |
                          apply State.beginRepair_alters | apply State.failStack_alters | apply State.onMem_altersR |
                          apply State.raise_alters | apply State.wr_alters)
    | exact Part.le_trans (by decide) hc
    | (refine (?_ : Part.le _ _ = true); decide)
    | intro _
    | with_reducible (first | rfl)
    | split
    | dsimp only
    | simp only [id_eq]
  )

theorem execStackSpare_alters {k : Fin 32} {c_ : Fin 16} {request : Option Path} {s : State} {t0} (e : execStackSpare
    k c_ request s = .next t0) : Alters (Part.err ++ [Part.wbuf, Part.mem, Part.part]) s t0 := by
  unfold execStackSpare at e
  try dsimp only at e
  repeat' split at e
  all_goals (injection e with e; subst e)
  all_goals try dsimp only
  repeat' (
    first
    | with_reducible (first | exact Alters.refl _ _ | apply Alters.ite | assumption |
                          apply State.onWrite_alters | apply State.stackSpare_alters)
    | exact Alters.refl _ _
    | (refine (?_ : Part.le _ _ = true); decide)
    | intro _
    | with_reducible (first | rfl)
    | split
    | dsimp only
    | simp only [id_eq]
  )

theorem execStackSpareDone_alters {k : Fin 32} {s : State} {t0} (e : execStackSpareDone k s = .next t0) : Alters
    [.free, .cells, .mem, .part, .tag] s t0 := by
  unfold execStackSpareDone at e
  try dsimp only at e
  repeat' split at e
  all_goals (injection e with e; subst e)
  all_goals try dsimp only
  repeat' (
    first
    | with_reducible (first | exact Alters.refl _ _ | apply Alters.ite | assumption |
                          apply State.endRepair_alters | apply State.journal_alters | apply State.onMem_altersR |
                          apply State.wr_alters)
    | exact Alters.refl _ _
    | (refine (?_ : Part.le _ _ = true); decide)
    | intro _
    | with_reducible (first | rfl)
    | split
    | dsimp only
    | simp only [id_eq]
  )

theorem State.stackTemp_alters {s : State} {k c : Nat} {ch : List Part} {s0 : State} (h0 : Alters ch s0 s) (hc :
    Part.le [.cells] ch = true) : Alters ch s0 (State.stackTemp s k c) := by
  unfold State.stackTemp
  try dsimp only
  repeat' (
    first
    | with_reducible (first | exact Alters.refl _ _ | apply Alters.ite | assumption |
                          apply State.flag_alters | apply State.wr_alters)
    | exact Part.le_trans (by decide) hc
    | (refine (?_ : Part.le _ _ = true); decide)
    | intro _
    | with_reducible (first | rfl)
    | split
    | dsimp only
    | simp only [id_eq]
  )

theorem execDoubledRefresh_alters {k : Fin 32} {tempC : Nat} {s : State} {t0} (e : execDoubledRefresh k tempC s =
    .next t0) : Alters [.cells] s t0 := by
  unfold execDoubledRefresh at e
  try dsimp only at e
  repeat' split at e
  all_goals (injection e with e; subst e)
  all_goals try dsimp only
  repeat' (
    first
    | with_reducible (first | exact Alters.refl _ _ | apply Alters.ite | assumption |
                          apply State.stackTemp_alters)
    | exact Alters.refl _ _
    | (refine (?_ : Part.le _ _ = true); decide)
    | intro _
    | with_reducible (first | rfl)
    | split
    | dsimp only
    | simp only [id_eq]
  )

theorem State.detach_alters {s : State} {i : Nat} {ch : List Part} {s0 : State} (h0 : Alters ch s0 s) (hc : Part.le
    [.cells, .mem] ch = true) : Alters ch s0 (State.detach s i) := by
  unfold State.detach
  try dsimp only
  repeat' (
    first
    | with_reducible (first | exact Alters.refl _ _ | apply Alters.ite | assumption | apply State.dropGrans_alters |
                            apply State.onMem_altersR | apply State.wr_alters)
    | exact Part.le_trans (by decide) hc
    | (refine (?_ : Part.le _ _ = true); decide)
    | intro _
    | with_reducible (first | rfl)
    | split
    | dsimp only
    | simp only [id_eq]
  )

theorem State.sledRelease_alters {s : State} {i : Nat} {ch : List Part} {s0 : State} (h0 : Alters ch s0 s) (hc :
    Part.le (Part.err ++ [Part.mem]) ch = true) : Alters ch s0 (State.sledRelease s i) := by
  unfold State.sledRelease
  try dsimp only
  repeat' (
    first
    | with_reducible (first | exact Alters.refl _ _ | apply Alters.ite | assumption | apply State.onMem_altersR |
                            apply State.raise_alters)
    | exact Part.le_trans (by decide) hc
    | (refine (?_ : Part.le _ _ = true); decide)
    | intro _
    | with_reducible (first | rfl)
    | split
    | dsimp only
    | simp only [id_eq]
  )

theorem State.sledCtrl_alters {s : State} {i op : Nat} {ch : List Part} {s0 : State} (h0 : Alters ch s0 s) (hc :
    Part.le [.cells] ch = true) : Alters ch s0 (State.sledCtrl s i op) := by
  unfold State.sledCtrl
  try dsimp only
  repeat' (
    first
    | with_reducible (first | exact Alters.refl _ _ | apply Alters.ite | assumption | apply State.wr_alters)
    | exact Part.le_trans (by decide) hc
    | (refine (?_ : Part.le _ _ = true); decide)
    | intro _
    | with_reducible (first | rfl)
    | split
    | dsimp only
    | simp only [id_eq]
  )

theorem execSledRelease_alters {p : Path} {i : Fin 4} {s : State} {t0} (e : execSledRelease p i s = .next t0) : Alters
    (Part.err ++ [Part.wbuf, Part.mem]) s t0 := by
  unfold execSledRelease at e
  try dsimp only at e
  repeat' split at e
  all_goals (injection e with e; subst e)
  all_goals try dsimp only
  repeat' (
    first
    | with_reducible (first | exact Alters.refl _ _ | apply Alters.ite | assumption | apply State.onWrite_alters |
                            apply State.sledCtrl_alters | apply State.sledRelease_alters)
    | exact Alters.refl _ _
    | (refine (?_ : Part.le _ _ = true); decide)
    | intro _
    | with_reducible (first | rfl)
    | split
    | dsimp only
    | simp only [id_eq]
  )

theorem execSledReleaseDone_alters {i : Fin 4} {s : State} {t0} (e : execSledReleaseDone i s = .next t0) : Alters
    [.cells, .mem] s t0 := by
  unfold execSledReleaseDone at e
  try dsimp only at e
  repeat' split at e
  all_goals (injection e with e; subst e)
  all_goals try dsimp only
  repeat' (
    first
    | with_reducible (first | exact Alters.refl _ _ | apply Alters.ite | assumption | apply State.detach_alters |
                            apply State.wr_alters)
    | exact Alters.refl _ _
    | (refine (?_ : Part.le _ _ = true); decide)
    | intro _
    | with_reducible (first | rfl)
    | split
    | dsimp only
    | simp only [id_eq]
  )

theorem State.sendQuery_alters {s : State} {g : Nat} {ch : List Part} {s0 : State} (h0 : Alters ch s0 s) (hc : Part.le
    (Part.err ++ [Part.fab]) ch = true) : Alters ch s0 (State.sendQuery s g) := by
  unfold State.sendQuery
  try dsimp only
  repeat' (
    first
    | with_reducible (first | exact Alters.refl _ _ | apply Alters.ite | assumption | apply State.sendMsg_alters)
    | exact Part.le_trans (by decide) hc
    | (refine (?_ : Part.le _ _ = true); decide)
    | intro _
    | with_reducible (first | rfl)
    | split
    | dsimp only
    | simp only [id_eq]
  )

theorem State.holdGran_alters {s : State} {g : Nat} {ch : List Part} {s0 : State} (h0 : Alters ch s0 s) (hc : Part.le
    (Part.err ++ [Part.fab]) ch = true) : Alters ch s0 (State.holdGran s g) := by
  unfold State.holdGran
  try dsimp only
  repeat' (
    first
    | with_reducible (first | exact Alters.refl _ _ | apply Alters.ite | assumption | apply State.sendQuery_alters |
                            apply State.wr_alters)
    | exact Part.le_trans (by decide) hc
    | (refine (?_ : Part.le _ _ = true); decide)
    | intro _
    | with_reducible (first | rfl)
    | split
    | dsimp only
    | simp only [id_eq]
    | with_reducible (first | apply Alters.upd_fab)
  )

theorem State.takeRecord_alters {s : State} {i : Nat} {r : Nat × Nat × Nat} {ch : List Part} {s0 : State} (h0 : Alters
    ch s0 s) (hc : Part.le (Part.err ++ [Part.mem, Part.fab]) ch = true) : Alters ch s0 (State.takeRecord s i r) := by
  unfold State.takeRecord
  try dsimp only
  repeat' (
    first
    | with_reducible (first | exact Alters.refl _ _ | apply Alters.ite | assumption | apply State.holdGran_alters |
                            apply State.moveGran_alters)
    | exact Part.le_trans (by decide) hc
    | (refine (?_ : Part.le _ _ = true); decide)
    | intro _
    | with_reducible (first | rfl)
    | split
    | dsimp only
    | simp only [id_eq]
  )

theorem State.rebuildSled_alters {s : State} {i : Nat} {ch : List Part} {s0 : State} (h0 : Alters ch s0 s) (hc :
    Part.le (Part.err ++ [Part.mem, Part.fab]) ch = true) : Alters ch s0 (State.rebuildSled s i) := by
  unfold State.rebuildSled
  try dsimp only
  repeat' (
    first
    | with_reducible (first | exact Alters.refl _ _ | apply Alters.ite | assumption | apply Alters.foldl |
                            apply State.takeRecord_alters | apply State.tally_alters | apply State.wr_alters |
                            apply Alters.foldl1)
    | exact Part.le_trans (by decide) hc
    | (refine (?_ : Part.le _ _ = true); decide)
    | intro _
    | with_reducible (first | rfl)
    | split
    | dsimp only
    | simp only [id_eq]
  )

theorem State.attached__alters {s : State} {i : Nat} {ch : List Part} {s0 : State} (h0 : Alters ch s0 s) (hc : Part.le
    [.cells] ch = true) : Alters ch s0 (State.attached_ s i) := by
  unfold State.attached_
  try dsimp only
  repeat' (
    first
    | with_reducible (first | exact Alters.refl _ _ | apply Alters.ite | assumption | apply State.wr_alters)
    | exact Part.le_trans (by decide) hc
    | (refine (?_ : Part.le _ _ = true); decide)
    | intro _
    | with_reducible (first | rfl)
    | split
    | dsimp only
    | simp only [id_eq]
  )

theorem State.sledAttach_alters {s : State} {i : Nat} {ch : List Part} {s0 : State} (h0 : Alters ch s0 s) (hc :
    Part.le (Part.err ++ [Part.mem, Part.fab]) ch = true) : Alters ch s0 (State.sledAttach s i) := by
  unfold State.sledAttach
  try dsimp only
  repeat' (
    first
    | with_reducible (first | exact Alters.refl _ _ | apply Alters.ite | assumption | apply State.attached__alters |
                            apply State.raise_alters | apply State.rebuildSled_alters)
    | exact Part.le_trans (by decide) hc
    | (refine (?_ : Part.le _ _ = true); decide)
    | intro _
    | with_reducible (first | rfl)
    | split
    | dsimp only
    | simp only [id_eq]
  )

theorem execAttach_alters {p : Path} {i : Fin 4} {s : State} {t0} (e : execAttach p i s = .next t0) : Alters (Part.err
    ++ [Part.wbuf, Part.mem, Part.fab]) s t0 := by
  unfold execAttach at e
  try dsimp only at e
  repeat' split at e
  all_goals (injection e with e; subst e)
  all_goals try dsimp only
  repeat' (
    first
    | with_reducible (first | exact Alters.refl _ _ | apply Alters.ite | assumption | apply State.onWrite_alters |
                            apply State.sledAttach_alters | apply State.sledCtrl_alters)
    | exact Alters.refl _ _
    | (refine (?_ : Part.le _ _ = true); decide)
    | intro _
    | with_reducible (first | rfl)
    | split
    | dsimp only
    | simp only [id_eq]
  )

theorem State.clearSled_alters {s : State} {i : Nat} {ch : List Part} {s0 : State} (h0 : Alters ch s0 s) (hc : Part.le
    [.memBytes, .mem] ch = true) : Alters ch s0 (State.clearSled s i) := by
  unfold State.clearSled
  try dsimp only
  repeat' (
    first
    | with_reducible (first | exact Alters.refl _ _ | apply Alters.ite | assumption | apply State.onMem_alters)
    | exact Part.le_trans (by decide) hc
    | (refine (?_ : Part.le _ _ = true); decide)
    | intro _
    | with_reducible (first | rfl)
    | split
    | dsimp only
    | simp only [id_eq]
  )

theorem State.sledErase_alters {s : State} {i : Nat} {ch : List Part} {s0 : State} (h0 : Alters ch s0 s) (hc : Part.le
    (Part.err ++ [Part.memBytes, Part.mem, Part.fab]) ch = true) : Alters ch s0 (State.sledErase s i) := by
  unfold State.sledErase
  try dsimp only
  repeat' (
    first
    | with_reducible (first | exact Alters.refl _ _ | apply Alters.ite | assumption | apply State.attached__alters |
                            apply State.bump_alters | apply State.clearSled_alters | apply State.onMem_altersR |
                            apply State.raise_alters | apply State.rebuildSled_alters | apply State.wr_alters)
    | exact Part.le_trans (by decide) hc
    | (refine (?_ : Part.le _ _ = true); decide)
    | intro _
    | with_reducible (first | rfl)
    | split
    | dsimp only
    | simp only [id_eq]
  )

theorem execAttachErase_alters {p : Path} {i : Fin 4} {s : State} {t0} (e : execAttachErase p i s = .next t0) : Alters
    (Part.err ++ [Part.wbuf, Part.memBytes, Part.mem, Part.fab]) s t0 := by
  unfold execAttachErase at e
  try dsimp only at e
  repeat' split at e
  all_goals (injection e with e; subst e)
  all_goals try dsimp only
  repeat' (
    first
    | with_reducible (first | exact Alters.refl _ _ | apply Alters.ite | assumption | apply State.onWrite_alters |
                            apply State.sledCtrl_alters | apply State.sledErase_alters)
    | exact Alters.refl _ _
    | (refine (?_ : Part.le _ _ = true); decide)
    | intro _
    | with_reducible (first | rfl)
    | split
    | dsimp only
    | simp only [id_eq]
  )

theorem State.showWear_alters {s : State} {i sparePct eraseMax : Nat} {ch : List Part} {s0 : State} (h0 : Alters ch s0
    s) (hc : Part.le Part.err ch = true) : Alters ch s0 (State.showWear s i sparePct eraseMax) := by
  unfold State.showWear
  try dsimp only
  repeat' (
    first
    | with_reducible (first | exact Alters.refl _ _ | apply Alters.ite | assumption | apply State.raise_alters |
                            apply State.wr_alters)
    | exact Part.le_trans (by decide) hc
    | (refine (?_ : Part.le _ _ = true); decide)
    | intro _
    | with_reducible (first | rfl)
    | split
    | dsimp only
    | simp only [id_eq]
  )

theorem execSledInsert_alters {i : Fin 4} {ok foreign : Bool} {sparePct eraseMax : Nat} {records : List (Nat × Nat ×
    Nat)} {data : List (Nat × List Byte)} {s : State} {t0} (e : execSledInsert i ok foreign sparePct eraseMax records
    data s = .next t0) : Alters (Part.err ++ [Part.memBytes, Part.mem]) s t0 := by
  unfold execSledInsert at e
  try dsimp only at e
  repeat' split at e
  all_goals (injection e with e; subst e)
  all_goals try dsimp only
  repeat' (
    first
    | with_reducible (first | exact Alters.refl _ _ | apply Alters.ite | assumption |
                          apply Alters.foldl | apply State.clearSled_alters | apply State.countInsert_alters |
                          apply State.flag_alters | apply State.onMem_alters | apply State.onMem_altersR |
                          apply State.raise_alters | apply State.showWear_alters | apply State.wr_alters |
                          apply Alters.foldl1)
    | exact Alters.refl _ _
    | (refine (?_ : Part.le _ _ = true); decide)
    | intro _
    | with_reducible (first | rfl)
    | split
    | dsimp only
    | simp only [id_eq]
  )

theorem State.sledLost_alters {s : State} {i : Nat} {ch : List Part} {s0 : State} (h0 : Alters ch s0 s) (hc : Part.le
    (Part.err ++ [Part.tile, Part.mem, Part.stream, Part.queue, Part.nose, Part.fab, Part.power, Part.host]) ch =
    true) : Alters ch s0 (State.sledLost s i) := by
  unfold State.sledLost
  try dsimp only
  repeat' (
    first
    | with_reducible (first | exact Alters.refl _ _ | apply Alters.ite | assumption |
                          apply Alters.foldl | apply State.bump_alters | apply State.detach_alters |
                          apply State.failFetch_alters | apply State.failMove_alters | apply State.raiseFor_alters |
                          apply Alters.foldl1)
    | exact Part.le_trans (by decide) hc
    | (refine (?_ : Part.le _ _ = true); decide)
    | intro _
    | with_reducible (first | rfl)
    | split
    | dsimp only
    | simp only [id_eq]
  )

theorem execSledPull_alters {i : Fin 4} {s : State} {t0} (e : execSledPull i s = .next t0) : Alters (Part.err ++
    [Part.tile, Part.memBytes, Part.mem, Part.stream, Part.queue, Part.nose, Part.fab, Part.power, Part.host]) s t0 :=
    by
  unfold execSledPull at e
  try dsimp only at e
  repeat' split at e
  all_goals (injection e with e; subst e)
  all_goals try dsimp only
  repeat' (
    first
    | with_reducible (first | exact Alters.refl _ _ | apply Alters.ite | assumption |
                          apply Alters.foldl | apply State.clearSled_alters | apply State.journal_alters |
                          apply State.onMem_altersR | apply State.sledLost_alters | apply State.wr_alters |
                          apply Alters.foldl1)
    | exact Alters.refl _ _
    | (refine (?_ : Part.le _ _ = true); decide)
    | intro _
    | with_reducible (first | rfl)
    | split
    | dsimp only
    | simp only [id_eq]
  )

end Sys2Proof.Machine
end

