-- ==== Sys2Proof/Laws/AltersFrames.lean ====
section
/-! SUPPORT. What each operation of Machine/Frames.lean alters. -/

-- One closing tactic serves every lemma here; where a goal needs few of its steps the linters name the rest.
set_option linter.all false
set_option Elab.async false

namespace Sys2Proof.Machine

theorem State.onFab_alters {s : State} {g : FabSt → FabSt} {ch : List Part} {s0 : State} (h0 : Alters ch s0 s) (hc :
    Part.le [.fab] ch = true) : Alters ch s0 (State.onFab s g) := by
  unfold State.onFab
  try dsimp only
  repeat' (
    first
    | with_reducible (first | exact Alters.refl _ _ | apply Alters.ite | assumption)
    | exact Part.le_trans (by decide) hc
    | (refine (?_ : Part.le _ _ = true); decide)
    | intro _
    | with_reducible (first | rfl)
    | split
    | dsimp only
    | simp only [id_eq]
    | with_reducible (first | apply Alters.upd_fab)
  )

theorem State.enterDiscard_alters {s : State} {k : Nat} {ch : List Part} {s0 : State} (h0 : Alters ch s0 s) (hc :
    Part.le [.fab, .out] ch = true) : Alters ch s0 (State.enterDiscard s k) := by
  unfold State.enterDiscard
  try dsimp only
  repeat' (
    first
    | with_reducible (first | exact Alters.refl _ _ | apply Alters.ite | assumption | apply State.emit_alters |
                            apply State.onLink_alters)
    | exact Part.le_trans (by decide) hc
    | (refine (?_ : Part.le _ _ = true); decide)
    | intro _
    | with_reducible (first | rfl)
    | split
    | dsimp only
    | simp only [id_eq]
  )

theorem State.receiveFrame_alters {s : State} {k : Nat} {f : Frame} {ch : List Part} {s0 : State} (h0 : Alters ch s0
    s) (hc : Part.le [.cells, .fab] ch = true) : Alters ch s0 (State.receiveFrame s k f) := by
  unfold State.receiveFrame
  try dsimp only
  repeat' (
    first
    | with_reducible (first | exact Alters.refl _ _ | apply Alters.ite | assumption |
                          apply State.bump_alters | apply State.onLink_alters | apply State.tallyUp_alters)
    | exact Part.le_trans (by decide) hc
    | (refine (?_ : Part.le _ _ = true); decide)
    | intro _
    | with_reducible (first | rfl)
    | split
    | dsimp only
    | simp only [id_eq]
  )

theorem State.acceptFrame_alters {s : State} {k : Nat} {f : Frame} {ch : List Part} {s0 : State} (h0 : Alters ch s0 s)
    (hc : Part.le [.cells, .fab, .out] ch = true) : Alters ch s0 (State.acceptFrame s k f) := by
  unfold State.acceptFrame
  try dsimp only
  repeat' (
    first
    | with_reducible (first | exact Alters.refl _ _ | apply Alters.ite | assumption |
                          apply State.emit_alters | apply State.freeCls_alters | apply State.receiveFrame_alters)
    | exact Part.le_trans (by decide) hc
    | (refine (?_ : Part.le _ _ = true); decide)
    | intro _
    | with_reducible (first | rfl)
    | split
    | dsimp only
    | simp only [id_eq]
  )

theorem State.holdFrame_alters {s : State} {k : Nat} {f : Frame} {ch : List Part} {s0 : State} (h0 : Alters ch s0 s)
    (hc : Part.le [.cells, .fab, .out] ch = true) : Alters ch s0 (State.holdFrame s k f) := by
  unfold State.holdFrame
  try dsimp only
  repeat' (
    first
    | with_reducible (first | exact Alters.refl _ _ | apply Alters.ite | assumption |
                          apply State.emit_alters | apply State.receiveFrame_alters)
    | exact Part.le_trans (by decide) hc
    | (refine (?_ : Part.le _ _ = true); decide)
    | intro _
    | with_reducible (first | rfl)
    | split
    | dsimp only
    | simp only [id_eq]
  )

theorem State.forward_alters {s : State} {k : Nat} {f : Frame} {ch : List Part} {s0 : State} (h0 : Alters ch s0 s) (hc
    : Part.le (Part.err ++ [Part.fab]) ch = true) : Alters ch s0 (State.forward s k f) := by
  unfold State.forward
  try dsimp only
  repeat' (
    first
    | with_reducible (first | exact Alters.refl _ _ | apply Alters.ite | assumption |
                          apply State.bump_alters | apply State.endTransit_alters | apply State.freeCls_alters |
                          apply State.routeFrom_alters | apply Alters.of_pair (by assumption))
    | exact Part.le_trans (by decide) hc
    | (refine (?_ : Part.le _ _ = true); decide)
    | intro _
    | with_reducible (first | rfl)
    | split
    | dsimp only
    | simp only [id_eq]
  )

theorem State.takeFrame_alters {s : State} {k : Nat} {f : Frame} {own : State → State} {ch : List Part} {s0 : State}
    (h0 : Alters ch s0 s) (hown : ∀ {z0} {u0}, Alters ch z0 u0 → Alters ch z0 (own u0)) (hc : Part.le (Part.err ++
    [Part.fab]) ch = true) : Alters ch s0 (State.takeFrame s k f own) := by
  unfold State.takeFrame
  try dsimp only
  repeat' (
    first
    | with_reducible (first | exact Alters.refl _ _ | apply Alters.ite | assumption | apply hown |
                          apply State.acceptFrame_alters | apply State.bump_alters | apply State.emit_alters |
                          apply State.enterDiscard_alters | apply State.forward_alters | apply State.holdFrame_alters)
    | exact Part.le_trans (by decide) hc
    | (refine (?_ : Part.le _ _ = true); decide)
    | intro _
    | with_reducible (first | rfl)
    | split
    | dsimp only
    | simp only [id_eq]
  )

theorem State.countRefused_alters {s : State} {e : Err} {ch : List Part} {s0 : State} (h0 : Alters ch s0 s) (hc :
    Part.le [.cells] ch = true) : Alters ch s0 (State.countRefused s e) := by
  unfold State.countRefused
  try dsimp only
  repeat' (
    first
    | with_reducible (first | exact Alters.refl _ _ | apply Alters.ite | assumption | apply State.bump_alters)
    | exact Part.le_trans (by decide) hc
    | (refine (?_ : Part.le _ _ = true); decide)
    | intro _
    | with_reducible (first | rfl)
    | split
    | dsimp only
    | simp only [id_eq]
  )

theorem State.serveRead_alters {s : State} {f : Frame} {words : Nat} {ch : List Part} {s0 : State} (h0 : Alters ch s0
    s) (hc : Part.le (Part.err ++ [Part.mem, Part.nose, Part.fab, Part.power]) ch = true) : Alters ch s0 (State.serveRead s f words)
    := by
  unfold State.serveRead
  try dsimp only
  repeat' (
    first
    | with_reducible (first | exact Alters.refl _ _ | apply Alters.ite | assumption | apply State.answer_alters |
                            apply State.countRefused_alters | apply State.memRead_alters |
                            apply Alters.of_pair (by assumption))
    | exact Part.le_trans (by decide) hc
    | (refine (?_ : Part.le _ _ = true); decide)
    | intro _
    | with_reducible (first | rfl)
    | split
    | dsimp only
    | simp only [id_eq]
  )

theorem State.answerWrite_alters {s : State} {f : Frame} {e : Option Err} {ch : List Part} {s0 : State} (h0 : Alters
    ch s0 s) (hc : Part.le [.cells, .fab, .out] ch = true) : Alters ch s0 (State.answerWrite s f e) := by
  unfold State.answerWrite
  try dsimp only
  repeat' (
    first
    | with_reducible (first | exact Alters.refl _ _ | apply Alters.ite | assumption | apply State.answer_alters |
                            apply State.countRefused_alters)
    | exact Part.le_trans (by decide) hc
    | (refine (?_ : Part.le _ _ = true); decide)
    | intro _
    | with_reducible (first | rfl)
    | split
    | dsimp only
    | simp only [id_eq]
  )

theorem State.serveWrite_alters {s : State} {f : Frame} {d : List Byte} {seals : List Word} {first : Nat} {ch : List
    Part} {s0 : State} (h0 : Alters ch s0 s) (hc : Part.le (Part.err ++ [Part.memBytes, Part.mem, Part.nose, Part.fab,
    Part.power]) ch = true) : Alters ch s0 (State.serveWrite s f d seals first) := by
  unfold State.serveWrite
  try dsimp only
  repeat' (
    first
    | with_reducible (first | exact Alters.refl _ _ | apply Alters.ite | assumption |
                          apply State.answerWrite_alters | apply State.sealedWrite_alters |
                          apply Alters.of_pair (by assumption))
    | exact Part.le_trans (by decide) hc
    | (refine (?_ : Part.le _ _ = true); decide)
    | intro _
    | with_reducible (first | rfl)
    | split
    | dsimp only
    | simp only [id_eq]
  )

theorem State.openMove_alters {s : State} {p : Place} {src : Nat × Nat} {ch : List Part} {s0 : State} (h0 : Alters ch
    s0 s) (hc : Part.le (Part.err ++ [Part.mem, Part.fab]) ch = true) : Alters ch s0 (State.openMove s p src).1 := by
  unfold State.openMove
  try dsimp only
  repeat' (
    first
    | with_reducible (first | exact Alters.refl _ _ | apply Alters.ite | assumption | apply State.moveGran_alters |
                            apply State.onFab_alters | apply State.raise_alters)
    | exact Part.le_trans (by decide) hc
    | (refine (?_ : Part.le _ _ = true); decide)
    | intro _
    | with_reducible (first | rfl)
    | split
    | dsimp only
    | simp only [id_eq]
  )
theorem State.openMove_altersP {s : State} {p : Place} {src : Nat × Nat} {t0 r0} (e_ : State.openMove s p src = (t0,
    r0)) {ch : List Part} {s0 : State} (h0 : Alters ch s0 s) (hc : Part.le (Part.err ++ [Part.mem, Part.fab]) ch = true) :
    Alters ch s0 t0 := by
  have h := State.openMove_alters (s := s) (p := p) (src := src) h0  hc
  rw [e_] at h; exact h

theorem State.closeMove_alters {s : State} {p : Place} {src : Nat × Nat} {ch : List Part} {s0 : State} (h0 : Alters ch
    s0 s) (hc : Part.le [.cells, .mem] ch = true) : Alters ch s0 (State.closeMove s p src) := by
  unfold State.closeMove
  try dsimp only
  repeat' (
    first
    | with_reducible (first | exact Alters.refl _ _ | apply Alters.ite | assumption |
                          apply Alters.foldl | apply State.moveGran_alters | apply Alters.foldl1)
    | exact Part.le_trans (by decide) hc
    | (refine (?_ : Part.le _ _ = true); decide)
    | intro _
    | with_reducible (first | rfl)
    | split
    | dsimp only
    | simp only [id_eq]
  )

theorem State.serveMove_alters {s : State} {f : Frame} {d : List Byte} {seals : List Word} {first src : Nat} {ch :
    List Part} {s0 : State} (h0 : Alters ch s0 s) (hc : Part.le (Part.err ++ [Part.memBytes, Part.mem, Part.nose,
    Part.fab, Part.power]) ch = true) : Alters ch s0 (State.serveMove s f d seals first src) := by
  unfold State.serveMove
  try dsimp only
  repeat' (
    first
    | with_reducible (first | exact Alters.refl _ _ | apply Alters.ite | assumption |
                          apply State.answerWrite_alters | apply State.closeMove_alters | apply State.openMove_alters |
                          apply State.raise_alters | apply State.writeRuns_alters | apply State.writeSpans_alters |
                          apply Alters.of_pair (by assumption))
    | exact Part.le_trans (by decide) hc
    | (refine (?_ : Part.le _ _ = true); decide)
    | intro _
    | with_reducible (first | rfl)
    | split
    | dsimp only
    | simp only [id_eq]
  )

theorem State.markOwner_alters {s : State} {o : Owner} {e : Err} {ch : List Part} {s0 : State} (h0 : Alters ch s0 s)
    (hc : Part.le [.cells, .nose] ch = true) : Alters ch s0 (State.markOwner s o e) := by
  unfold State.markOwner
  try dsimp only
  repeat' (
    first
    | with_reducible (first | exact Alters.refl _ _ | apply Alters.ite | assumption | apply State.mark_alters)
    | exact Part.le_trans (by decide) hc
    | (refine (?_ : Part.le _ _ = true); decide)
    | intro _
    | with_reducible (first | rfl)
    | split
    | dsimp only
    | simp only [id_eq]
  )

theorem State.endTxn_alters {s : State} {t : Txn} {e : Err} {raised : Bool} {ch : List Part} {s0 : State} (h0 : Alters
    ch s0 s) (hc : Part.le (Part.err ++ [Part.tile, Part.mem, Part.stream, Part.queue, Part.sig, Part.nose, Part.coll,
    Part.fab, Part.power, Part.host]) ch = true) : Alters ch s0 (State.endTxn s t e raised) := by
  unfold State.endTxn
  try dsimp only
  repeat' (
    first
    | with_reducible (first | exact Alters.refl _ _ | apply Alters.ite | assumption |
                          apply State.dropPosts_alters | apply State.endRun_alters | apply State.flightErr_alters |
                          apply State.frameDone_alters | apply State.freeSlot_alters | apply State.markOwner_alters |
                          apply State.moveFails_alters | apply State.onEntry_alters | apply State.raiseFor_alters)
    | exact Part.le_trans (by decide) hc
    | (refine (?_ : Part.le _ _ = true); decide)
    | intro _
    | with_reducible (first | rfl)
    | split
    | dsimp only
    | simp only [id_eq]
  )

theorem State.endTag_alters {s : State} {tag : Nat} {e : Err} {raised : Bool} {ch : List Part} {s0 : State} (h0 :
    Alters ch s0 s) (hc : Part.le (Part.err ++ [Part.tile, Part.mem, Part.stream, Part.queue, Part.sig, Part.nose,
    Part.coll, Part.fab, Part.power, Part.host]) ch = true) : Alters ch s0 (State.endTag s tag e raised) := by
  unfold State.endTag
  try dsimp only
  repeat' (
    first
    | with_reducible (first | exact Alters.refl _ _ | apply Alters.ite | assumption |
                          apply State.endTxn_alters | apply State.takeTxn_alters | apply Alters.of_pair2 (by assumption))
    | exact Part.le_trans (by decide) hc
    | (refine (?_ : Part.le _ _ = true); decide)
    | intro _
    | with_reducible (first | rfl)
    | split
    | dsimp only
    | simp only [id_eq]
  )

theorem State.takeReadData_alters {s : State} {f : Frame} {d : List Byte} {seals : List Word} {ch : List Part} {s0 :
    State} (h0 : Alters ch s0 s) (hc : Part.le (Part.err ++ [Part.stream, Part.nose, Part.fab]) ch = true) : Alters ch s0
    (State.takeReadData s f d seals) := by
  unfold State.takeReadData
  try dsimp only
  repeat' (
    first
    | with_reducible (first | exact Alters.refl _ _ | apply Alters.ite | assumption | apply State.onEntry_alters |
                            apply State.sealFail_alters | apply State.takeTxn_alters |
                            apply Alters.of_pair2 (by assumption) | apply Alters.of_pair (by assumption))
    | exact Part.le_trans (by decide) hc
    | (refine (?_ : Part.le _ _ = true); decide)
    | intro _
    | with_reducible (first | rfl)
    | split
    | dsimp only
    | simp only [id_eq]
  )

theorem State.takeWriteAck_alters {s : State} {tag : Nat} {ch : List Part} {s0 : State} (h0 : Alters ch s0 s) (hc :
    Part.le (Part.err ++ [Part.tile, Part.mem, Part.stream, Part.queue, Part.nose, Part.fab, Part.power, Part.host])
    ch = true) : Alters ch s0 (State.takeWriteAck s tag) := by
  unfold State.takeWriteAck
  try dsimp only
  repeat' (
    first
    | with_reducible (first | exact Alters.refl _ _ | apply Alters.ite | assumption |
                          apply State.frameDone_alters | apply State.freeSlot_alters | apply State.takeTxn_alters |
                          apply Alters.of_pair2 (by assumption))
    | exact Part.le_trans (by decide) hc
    | (refine (?_ : Part.le _ _ = true); decide)
    | intro _
    | with_reducible (first | rfl)
    | split
    | dsimp only
    | simp only [id_eq]
  )

theorem State.reconcile_alters {s : State} {f : Fld} {c : Bool} {ch : List Part} {s0 : State} (h0 : Alters ch s0 s)
    (hc : Part.le [.cells] ch = true) : Alters ch s0 (State.reconcile s f c) := by
  unfold State.reconcile
  try dsimp only
  repeat' (
    first
    | with_reducible (first | exact Alters.refl _ _ | apply Alters.ite | assumption | apply State.wr_alters)
    | exact Part.le_trans (by decide) hc
    | (refine (?_ : Part.le _ _ = true); decide)
    | intro _
    | with_reducible (first | rfl)
    | split
    | dsimp only
    | simp only [id_eq]
  )

theorem State.movesSettled_alters {s : State} {ch : List Part} {s0 : State} (h0 : Alters ch s0 s) (hc : Part.le
    [.cells] ch = true) : Alters ch s0 (State.movesSettled s) := by
  unfold State.movesSettled
  try dsimp only
  repeat' (
    first
    | with_reducible (first | exact Alters.refl _ _ | apply Alters.ite | assumption | apply State.reconcile_alters)
    | exact Part.le_trans (by decide) hc
    | (refine (?_ : Part.le _ _ = true); decide)
    | intro _
    | with_reducible (first | rfl)
    | split
    | dsimp only
    | simp only [id_eq]
  )

theorem State.linksSettled_alters {s : State} {ch : List Part} {s0 : State} (h0 : Alters ch s0 s) (hc : Part.le
    [.cells] ch = true) : Alters ch s0 (State.linksSettled s) := by
  unfold State.linksSettled
  try dsimp only
  repeat' (
    first
    | with_reducible (first | exact Alters.refl _ _ | apply Alters.ite | assumption | apply State.reconcile_alters)
    | exact Part.le_trans (by decide) hc
    | (refine (?_ : Part.le _ _ = true); decide)
    | intro _
    | with_reducible (first | rfl)
    | split
    | dsimp only
    | simp only [id_eq]
  )

theorem State.takeUnreach_alters {s : State} {tag code : Nat} {ch : List Part} {s0 : State} (h0 : Alters ch s0 s) (hc
    : Part.le (Part.err ++ [Part.tile, Part.mem, Part.stream, Part.queue, Part.sig, Part.nose, Part.coll, Part.fab,
    Part.power, Part.host]) ch = true) : Alters ch s0 (State.takeUnreach s tag code) := by
  unfold State.takeUnreach
  try dsimp only
  repeat' (
    first
    | with_reducible (first | exact Alters.refl _ _ | apply Alters.ite | assumption |
                          apply State.endTag_alters | apply State.linksSettled_alters | apply State.onIsland_alters)
    | exact Part.le_trans (by decide) hc
    | (refine (?_ : Part.le _ _ = true); decide)
    | intro _
    | with_reducible (first | rfl)
    | split
    | dsimp only
    | simp only [id_eq]
  )

theorem execReadReq_alters {k : Fin 48} {f : Frame} {s : State} {t0} (e : execReadReq k f s = .next t0) : Alters
    (Part.err ++ [Part.mem, Part.nose, Part.fab, Part.power]) s t0 := by
  unfold execReadReq at e
  try dsimp only at e
  repeat' split at e
  all_goals (injection e with e; subst e)
  all_goals try dsimp only
  repeat' (
    first
    | with_reducible (first | exact Alters.refl _ _ | apply Alters.ite | assumption | apply State.serveRead_alters |
                            apply State.takeFrame_alters)
    | exact Alters.refl _ _
    | (refine (?_ : Part.le _ _ = true); decide)
    | intro _
    | with_reducible (first | rfl)
    | split
    | dsimp only
    | simp only [id_eq]
  )

theorem execReadData_alters {k : Fin 48} {f : Frame} {s : State} {t0} (e : execReadData k f s = .next t0) : Alters
    (Part.err ++ [Part.stream, Part.nose, Part.fab]) s t0 := by
  unfold execReadData at e
  try dsimp only at e
  repeat' split at e
  all_goals (injection e with e; subst e)
  all_goals try dsimp only
  repeat' (
    first
    | with_reducible (first | exact Alters.refl _ _ | apply Alters.ite | assumption | apply State.takeFrame_alters |
                            apply State.takeReadData_alters)
    | exact Alters.refl _ _
    | (refine (?_ : Part.le _ _ = true); decide)
    | intro _
    | with_reducible (first | rfl)
    | split
    | dsimp only
    | simp only [id_eq]
  )

theorem execReadErr_alters {k : Fin 48} {f : Frame} {s : State} {t0} (e : execReadErr k f s = .next t0) : Alters
    (Part.err ++ [Part.tile, Part.mem, Part.stream, Part.queue, Part.sig, Part.nose, Part.coll, Part.fab, Part.power,
    Part.host]) s t0 := by
  unfold execReadErr at e
  try dsimp only at e
  repeat' split at e
  all_goals (injection e with e; subst e)
  all_goals try dsimp only
  repeat' (
    first
    | with_reducible (first | exact Alters.refl _ _ | apply Alters.ite | assumption |
                          apply State.endTag_alters | apply State.takeFrame_alters)
    | exact Alters.refl _ _
    | (refine (?_ : Part.le _ _ = true); decide)
    | intro _
    | with_reducible (first | rfl)
    | split
    | dsimp only
    | simp only [id_eq]
  )

theorem execWriteFrame_alters {k : Fin 48} {f : Frame} {s : State} {t0} (e : execWriteFrame k f s = .next t0) : Alters
    (Part.err ++ [Part.memBytes, Part.mem, Part.nose, Part.fab, Part.power]) s t0 := by
  unfold execWriteFrame at e
  try dsimp only at e
  repeat' split at e
  all_goals (injection e with e; subst e)
  all_goals try dsimp only
  repeat' (
    first
    | with_reducible (first | exact Alters.refl _ _ | apply Alters.ite | assumption | apply State.serveWrite_alters |
                            apply State.takeFrame_alters)
    | exact Alters.refl _ _
    | (refine (?_ : Part.le _ _ = true); decide)
    | intro _
    | with_reducible (first | rfl)
    | split
    | dsimp only
    | simp only [id_eq]
  )

theorem execWriteAck_alters {k : Fin 48} {f : Frame} {s : State} {t0} (e : execWriteAck k f s = .next t0) : Alters
    (Part.err ++ [Part.tile, Part.mem, Part.stream, Part.queue, Part.nose, Part.fab, Part.power, Part.host]) s t0 :=
    by
  unfold execWriteAck at e
  try dsimp only at e
  repeat' split at e
  all_goals (injection e with e; subst e)
  all_goals try dsimp only
  repeat' (
    first
    | with_reducible (first | exact Alters.refl _ _ | apply Alters.ite | assumption |
                          apply State.takeFrame_alters | apply State.takeWriteAck_alters)
    | exact Alters.refl _ _
    | (refine (?_ : Part.le _ _ = true); decide)
    | intro _
    | with_reducible (first | rfl)
    | split
    | dsimp only
    | simp only [id_eq]
  )

theorem execWriteErr_alters {k : Fin 48} {f : Frame} {s : State} {t0} (e : execWriteErr k f s = .next t0) : Alters
    (Part.err ++ [Part.tile, Part.mem, Part.stream, Part.queue, Part.sig, Part.nose, Part.coll, Part.fab, Part.power,
    Part.host]) s t0 := by
  unfold execWriteErr at e
  try dsimp only at e
  repeat' split at e
  all_goals (injection e with e; subst e)
  all_goals try dsimp only
  repeat' (
    first
    | with_reducible (first | exact Alters.refl _ _ | apply Alters.ite | assumption |
                          apply State.endTag_alters | apply State.takeFrame_alters)
    | exact Alters.refl _ _
    | (refine (?_ : Part.le _ _ = true); decide)
    | intro _
    | with_reducible (first | rfl)
    | split
    | dsimp only
    | simp only [id_eq]
  )

theorem execMoveData_alters {k : Fin 48} {f : Frame} {s : State} {t0} (e : execMoveData k f s = .next t0) : Alters
    (Part.err ++ [Part.memBytes, Part.mem, Part.nose, Part.fab, Part.power]) s t0 := by
  unfold execMoveData at e
  try dsimp only at e
  repeat' split at e
  all_goals (injection e with e; subst e)
  all_goals try dsimp only
  repeat' (
    first
    | with_reducible (first | exact Alters.refl _ _ | apply Alters.ite | assumption | apply State.serveMove_alters |
                            apply State.takeFrame_alters)
    | exact Alters.refl _ _
    | (refine (?_ : Part.le _ _ = true); decide)
    | intro _
    | with_reducible (first | rfl)
    | split
    | dsimp only
    | simp only [id_eq]
  )

theorem execUnreach_alters {k : Fin 48} {f : Frame} {s : State} {t0} (e : execUnreach k f s = .next t0) : Alters
    (Part.err ++ [Part.tile, Part.mem, Part.stream, Part.queue, Part.sig, Part.nose, Part.coll, Part.fab, Part.power,
    Part.host]) s t0 := by
  unfold execUnreach at e
  try dsimp only at e
  repeat' split at e
  all_goals (injection e with e; subst e)
  all_goals try dsimp only
  repeat' (
    first
    | with_reducible (first | exact Alters.refl _ _ | apply Alters.ite | assumption |
                          apply State.takeFrame_alters | apply State.takeUnreach_alters)
    | exact Alters.refl _ _
    | (refine (?_ : Part.le _ _ = true); decide)
    | intro _
    | with_reducible (first | rfl)
    | split
    | dsimp only
    | simp only [id_eq]
  )

theorem execCollData_alters {k : Fin 48} {f : Frame} {s : State} {t0} (e : execCollData k f s = .next t0) : Alters
    (Part.err ++ [Part.words, Part.tile, Part.memBytes, Part.mem, Part.queue, Part.sig, Part.nose, Part.coll,
    Part.fab, Part.power, Part.host]) s t0 := by
  unfold execCollData at e
  try dsimp only at e
  repeat' split at e
  all_goals (injection e with e; subst e)
  all_goals try dsimp only
  repeat' (
    first
    | with_reducible (first | exact Alters.refl _ _ | apply Alters.ite | assumption |
                          apply State.collData_alters | apply State.takeFrame_alters)
    | exact Alters.refl _ _
    | (refine (?_ : Part.le _ _ = true); decide)
    | intro _
    | with_reducible (first | rfl)
    | split
    | dsimp only
    | simp only [id_eq]
  )

theorem execCollAck_alters {k : Fin 48} {f : Frame} {s : State} {t0} (e : execCollAck k f s = .next t0) : Alters
    (Part.err ++ [Part.words, Part.tile, Part.memBytes, Part.mem, Part.queue, Part.sig, Part.nose, Part.coll,
    Part.fab, Part.power, Part.host]) s t0 := by
  unfold execCollAck at e
  try dsimp only at e
  repeat' split at e
  all_goals (injection e with e; subst e)
  all_goals try dsimp only
  repeat' (
    first
    | with_reducible (first | exact Alters.refl _ _ | apply Alters.ite | assumption |
                          apply State.collAck_alters | apply State.takeFrame_alters)
    | exact Alters.refl _ _
    | (refine (?_ : Part.le _ _ = true); decide)
    | intro _
    | with_reducible (first | rfl)
    | split
    | dsimp only
    | simp only [id_eq]
  )

end Sys2Proof.Machine
end

