-- ==== Sys2Proof/Laws/AltersClock.lean ====
section
/-! SUPPORT. What each operation of Machine/Clock.lean alters. -/

-- One closing tactic serves every lemma here; where a goal needs few of its steps the linters name the rest.
set_option linter.all false
set_option Elab.async false

namespace Sys2Proof.Machine

theorem State.setRow_alters {s : State} {r : Nat} {f : RowFrac} {ch : List Part} {s0 : State} (h0 : Alters ch s0 s)
    (hc : Part.le [.clk] ch = true) : Alters ch s0 (State.setRow s r f) := by
  unfold State.setRow
  try dsimp only
  repeat' (
    first
    | with_reducible (first | exact Alters.refl _ _ | apply Alters.ite | assumption)
    | exact Part.le_trans (by decide) hc
    | (refine (?_ : Part.le _ _ = true); decide)
    | intro _
    | with_reducible (first | rfl)
    | split
    | dsimp only
    | simp only [id_eq]
    | with_reducible (first | apply Alters.upd_clk)
  )

theorem State.showFrac_alters {s : State} {ch : List Part} {s0 : State} (h0 : Alters ch s0 s) (hc : Part.le [.cells]
    ch = true) : Alters ch s0 (State.showFrac s) := by
  unfold State.showFrac
  try dsimp only
  repeat' (
    first
    | with_reducible (first | exact Alters.refl _ _ | apply Alters.ite | assumption | apply Alters.foldl |
                            apply State.wr_alters | apply Alters.foldl1)
    | exact Part.le_trans (by decide) hc
    | (refine (?_ : Part.le _ _ = true); decide)
    | intro _
    | with_reducible (first | rfl)
    | split
    | dsimp only
    | simp only [id_eq]
  )

theorem State.retarget_alters {s : State} {ok : Nat → Bool} {t : Nat} {ch : List Part} {s0 : State} (h0 : Alters ch s0
    s) (hc : Part.le [.clk] ch = true) : Alters ch s0 (State.retarget s ok t) := by
  unfold State.retarget
  try dsimp only
  repeat' (
    first
    | with_reducible (first | exact Alters.refl _ _ | apply Alters.ite | assumption |
                          apply Alters.foldl | apply State.setRow_alters | apply Alters.foldl1)
    | exact Part.le_trans (by decide) hc
    | (refine (?_ : Part.le _ _ = true); decide)
    | intro _
    | with_reducible (first | rfl)
    | split
    | dsimp only
    | simp only [id_eq]
  )

theorem State.wakeRows_alters {s : State} {p : Nat} {ch : List Part} {s0 : State} (h0 : Alters ch s0 s) (hc : Part.le
    [.clk] ch = true) : Alters ch s0 (State.wakeRows s p) := by
  unfold State.wakeRows
  try dsimp only
  repeat' (
    first
    | with_reducible (first | exact Alters.refl _ _ | apply Alters.ite | assumption | apply Alters.foldl |
                            apply State.setRow_alters | apply Alters.foldl1)
    | exact Part.le_trans (by decide) hc
    | (refine (?_ : Part.le _ _ = true); decide)
    | intro _
    | with_reducible (first | rfl)
    | split
    | dsimp only
    | simp only [id_eq]
  )

theorem State.moveRows_alters {s : State} {p : Nat} {ch : List Part} {s0 : State} (h0 : Alters ch s0 s) (hc : Part.le
    [.clk] ch = true) : Alters ch s0 (State.moveRows s p).1 := by
  unfold State.moveRows
  try dsimp only
  repeat' (
    first
    | with_reducible (first | exact Alters.refl _ _ | apply Alters.ite | assumption | apply Alters.foldl |
                            apply State.setRow_alters | apply Alters.foldl1)
    | exact Part.le_trans (by decide) hc
    | (refine (?_ : Part.le _ _ = true); decide)
    | intro _
    | with_reducible (first | rfl)
    | split
    | dsimp only
    | simp only [id_eq]
  )
theorem State.moveRows_altersP {s : State} {p : Nat} {t0 r0} (e_ : State.moveRows s p = (t0, r0)) {ch : List Part} {s0
    : State} (h0 : Alters ch s0 s) (hc : Part.le [.clk] ch = true) : Alters ch s0 t0 := by
  have h := State.moveRows_alters (s := s) (p := p) h0  hc
  rw [e_] at h; exact h

theorem execFractionMove_alters {p : Fin 8} {s : State} {t0} (e : execFractionMove p s = .next t0) : Alters [.cells,
    .clk] s t0 := by
  unfold execFractionMove at e
  try dsimp only at e
  repeat' split at e
  all_goals (injection e with e; subst e)
  all_goals try dsimp only
  repeat' (
    first
    | with_reducible (first | exact Alters.refl _ _ | apply Alters.ite | assumption | apply State.bump_alters |
                            apply State.moveRows_alters | apply State.showFrac_alters |
                            apply Alters.of_pair (by assumption))
    | exact Alters.refl _ _
    | (refine (?_ : Part.le _ _ = true); decide)
    | intro _
    | with_reducible (first | rfl)
    | split
    | dsimp only
    | simp only [id_eq]
  )

theorem State.emergEffect_alters {s : State} {op : EmergOp} {t : Nat} {ch : List Part} {s0 : State} (h0 : Alters ch s0
    s) (hc : Part.le [.cells, .clk] ch = true) : Alters ch s0 (State.emergEffect s op t) := by
  unfold State.emergEffect
  try dsimp only
  repeat' (
    first
    | with_reducible (first | exact Alters.refl _ _ | apply Alters.ite | assumption | apply State.bump_alters |
                            apply State.flag_alters | apply State.retarget_alters | apply State.when_alters |
                            apply State.wr_alters)
    | exact Part.le_trans (by decide) hc
    | (refine (?_ : Part.le _ _ = true); decide)
    | intro _
    | with_reducible (first | rfl)
    | split
    | dsimp only
    | simp only [id_eq]
    | with_reducible (first | apply Alters.upd_clk)
  )

theorem State.emergLoad_alters {s : State} {op : EmergOp} {ch : List Part} {s0 : State} (h0 : Alters ch s0 s) (hc :
    Part.le [.cells] ch = true) : Alters ch s0 (State.emergLoad s op) := by
  unfold State.emergLoad
  try dsimp only
  repeat' (
    first
    | with_reducible (first | exact Alters.refl _ _ | apply Alters.ite | assumption | apply State.wr_alters)
    | exact Part.le_trans (by decide) hc
    | (refine (?_ : Part.le _ _ = true); decide)
    | intro _
    | with_reducible (first | rfl)
    | split
    | dsimp only
    | simp only [id_eq]
  )

theorem State.emergGo_alters {s : State} {op : EmergOp} {ch : List Part} {s0 : State} (h0 : Alters ch s0 s) (hc :
    Part.le (Part.err ++ [Part.clk]) ch = true) : Alters ch s0 (State.emergGo s op) := by
  unfold State.emergGo
  try dsimp only
  repeat' (
    first
    | with_reducible (first | exact Alters.refl _ _ | apply Alters.ite | assumption | apply State.emergEffect_alters |
                            apply State.emergLoad_alters | apply State.flag_alters | apply State.raise_alters |
                            apply State.wr_alters)
    | exact Part.le_trans (by decide) hc
    | (refine (?_ : Part.le _ _ = true); decide)
    | intro _
    | with_reducible (first | rfl)
    | split
    | dsimp only
    | simp only [id_eq]
    | with_reducible (first | apply Alters.upd_clk)
  )

theorem execEmergApply_alters {p : Path} {frac : BitVec 5} {s : State} {t0} (e : execEmergApply p frac s = .next t0) :
    Alters (Part.err ++ [Part.wbuf, Part.clk]) s t0 := by
  unfold execEmergApply at e
  try dsimp only at e
  repeat' split at e
  all_goals (injection e with e; subst e)
  all_goals try dsimp only
  repeat' (
    first
    | with_reducible (first | exact Alters.refl _ _ | apply Alters.ite | assumption | apply State.emergGo_alters |
                            apply State.onWrite_alters)
    | exact Alters.refl _ _
    | (refine (?_ : Part.le _ _ = true); decide)
    | intro _
    | with_reducible (first | rfl)
    | split
    | dsimp only
    | simp only [id_eq]
  )

theorem execEmergRelease_alters {p : Path} {s : State} {t0} (e : execEmergRelease p s = .next t0) : Alters (Part.err
    ++ [Part.wbuf, Part.clk]) s t0 := by
  unfold execEmergRelease at e
  try dsimp only at e
  repeat' split at e
  all_goals (injection e with e; subst e)
  all_goals try dsimp only
  repeat' (
    first
    | with_reducible (first | exact Alters.refl _ _ | apply Alters.ite | assumption | apply State.emergGo_alters |
                            apply State.onWrite_alters)
    | exact Alters.refl _ _
    | (refine (?_ : Part.le _ _ = true); decide)
    | intro _
    | with_reducible (first | rfl)
    | split
    | dsimp only
    | simp only [id_eq]
  )

theorem execEmergEpoch_alters {s : State} {t0} (e : execEmergEpoch s = .next t0) : Alters [.cells, .clk] s t0 := by
  unfold execEmergEpoch at e
  try dsimp only at e
  repeat' split at e
  all_goals (injection e with e; subst e)
  all_goals try dsimp only
  repeat' (
    first
    | with_reducible (first | exact Alters.refl _ _ | apply Alters.ite | assumption | apply State.emergEffect_alters)
    | exact Alters.refl _ _
    | (refine (?_ : Part.le _ _ = true); decide)
    | intro _
    | with_reducible (first | rfl)
    | split
    | dsimp only
    | simp only [id_eq]
  )

theorem execReferenceOutOfRange_alters {ppm : Nat} {s : State} {t0} (e : execReferenceOutOfRange ppm s = .next t0) :
    Alters Part.err s t0 := by
  unfold execReferenceOutOfRange at e
  try dsimp only at e
  repeat' split at e
  all_goals (injection e with e; subst e)
  all_goals try dsimp only
  repeat' (
    first
    | with_reducible (first | exact Alters.refl _ _ | apply Alters.ite | assumption | apply State.raise_alters |
                            apply State.wr_alters)
    | exact Alters.refl _ _
    | (refine (?_ : Part.le _ _ = true); decide)
    | intro _
    | with_reducible (first | rfl)
    | split
    | dsimp only
    | simp only [id_eq]
  )

theorem execHoldoverEntry_alters {absent : Bool} {ticks : Nat} {s : State} {t0} (e : execHoldoverEntry absent ticks s
    = .next t0) : Alters Part.err s t0 := by
  unfold execHoldoverEntry at e
  try dsimp only at e
  repeat' split at e
  all_goals (injection e with e; subst e)
  all_goals try dsimp only
  repeat' (
    first
    | with_reducible (first | exact Alters.refl _ _ | apply Alters.ite | assumption |
                          apply State.raise_alters | apply State.when_alters | apply State.wr_alters)
    | exact Alters.refl _ _
    | (refine (?_ : Part.le _ _ = true); decide)
    | intro _
    | with_reducible (first | rfl)
    | split
    | dsimp only
    | simp only [id_eq]
  )

theorem execHoldoverExit_alters {ppm ticks : Nat} {s : State} {t0} (e : execHoldoverExit ppm ticks s = .next t0) :
    Alters [.cells] s t0 := by
  unfold execHoldoverExit at e
  try dsimp only at e
  repeat' split at e
  all_goals (injection e with e; subst e)
  all_goals try dsimp only
  repeat' (
    first
    | with_reducible (first | exact Alters.refl _ _ | apply Alters.ite | assumption |
                          apply State.wr_alters)
    | exact Alters.refl _ _
    | (refine (?_ : Part.le _ _ = true); decide)
    | intro _
    | with_reducible (first | rfl)
    | split
    | dsimp only
    | simp only [id_eq]
  )

theorem State.showLock_alters {s : State} {ch : List Part} {s0 : State} (h0 : Alters ch s0 s) (hc : Part.le [.cells]
    ch = true) : Alters ch s0 (State.showLock s) := by
  unfold State.showLock
  try dsimp only
  repeat' (
    first
    | with_reducible (first | exact Alters.refl _ _ | apply Alters.ite | assumption |
                          apply State.flag_alters)
    | exact Part.le_trans (by decide) hc
    | (refine (?_ : Part.le _ _ = true); decide)
    | intro _
    | with_reducible (first | rfl)
    | split
    | dsimp only
    | simp only [id_eq]
  )

theorem State.servo_alters {s : State} {ch : List Part} {s0 : State} (h0 : Alters ch s0 s) (hc : Part.le [.free,
    .cells] ch = true) : Alters ch s0 (State.servo s) := by
  unfold State.servo
  try dsimp only
  repeat' (
    first
    | with_reducible (first | exact Alters.refl _ _ | apply Alters.ite | assumption | apply State.fresh_alters |
                            apply State.wr_alters | apply Alters.of_pair2 (by assumption) |
                            apply Alters.of_pair (by assumption))
    | exact Part.le_trans (by decide) hc
    | (refine (?_ : Part.le _ _ = true); decide)
    | intro _
    | with_reducible (first | rfl)
    | split
    | dsimp only
    | simp only [id_eq]
  )

theorem State.judgeSync_alters {s : State} {ch : List Part} {s0 : State} (h0 : Alters ch s0 s) (hc : Part.le [.cells]
    ch = true) : Alters ch s0 (State.judgeSync s) := by
  unfold State.judgeSync
  try dsimp only
  repeat' (
    first
    | with_reducible (first | exact Alters.refl _ _ | apply Alters.ite | assumption |
                          apply State.flag_alters)
    | exact Part.le_trans (by decide) hc
    | (refine (?_ : Part.le _ _ = true); decide)
    | intro _
    | with_reducible (first | rfl)
    | split
    | dsimp only
    | simp only [id_eq]
  )

theorem State.onPtp_alters {s : State} {g : PtpSt → PtpSt} {ch : List Part} {s0 : State} (h0 : Alters ch s0 s) (hc :
    Part.le [.ptp] ch = true) : Alters ch s0 (State.onPtp s g) := by
  unfold State.onPtp
  try dsimp only
  repeat' (
    first
    | with_reducible (first | exact Alters.refl _ _ | apply Alters.ite | assumption)
    | exact Part.le_trans (by decide) hc
    | (refine (?_ : Part.le _ _ = true); decide)
    | intro _
    | with_reducible (first | rfl)
    | split
    | dsimp only
    | simp only [id_eq]
    | with_reducible (first | apply Alters.upd_ptp)
  )

theorem State.ptpMeasure_alters {s : State} {t1 t2 : Nat} {ch : List Part} {s0 : State} (h0 : Alters ch s0 s) (hc :
    Part.le (Part.err ++ [Part.ptp]) ch = true) : Alters ch s0 (State.ptpMeasure s t1 t2) := by
  unfold State.ptpMeasure
  try dsimp only
  repeat' (
    first
    | with_reducible (first | exact Alters.refl _ _ | apply Alters.ite | assumption |
                          apply State.judgeSync_alters | apply State.onPtp_alters | apply State.raise_alters |
                          apply State.servo_alters | apply State.wr_alters)
    | exact Part.le_trans (by decide) hc
    | (refine (?_ : Part.le _ _ = true); decide)
    | intro _
    | with_reducible (first | rfl)
    | split
    | dsimp only
    | simp only [id_eq]
  )

theorem execPtpSync_alters {port : Port} {m : PtpSync} {s : State} {t0} (e : execPtpSync port m s = .next t0) : Alters
    (Part.err ++ [Part.ptp]) s t0 := by
  unfold execPtpSync at e
  try dsimp only at e
  repeat' split at e
  all_goals (injection e with e; subst e)
  all_goals try dsimp only
  repeat' (
    first
    | with_reducible (first | exact Alters.refl _ _ | apply Alters.ite | assumption |
                          apply State.emit_alters | apply State.judgeSync_alters | apply State.onPtp_alters |
                          apply State.ptpMeasure_alters)
    | exact Alters.refl _ _
    | (refine (?_ : Part.le _ _ = true); decide)
    | intro _
    | with_reducible (first | rfl)
    | split
    | dsimp only
    | simp only [id_eq]
  )

theorem execPtpFollowUp_alters {port : Port} {domain : Nat} {udp : Bool} {t1 : Nat} {s : State} {t0} (e :
    execPtpFollowUp port domain udp t1 s = .next t0) : Alters (Part.err ++ [Part.ptp]) s t0 := by
  unfold execPtpFollowUp at e
  try dsimp only at e
  repeat' split at e
  all_goals (injection e with e; subst e)
  all_goals try dsimp only
  repeat' (
    first
    | with_reducible (first | exact Alters.refl _ _ | apply Alters.ite | assumption |
                          apply State.onPtp_alters | apply State.ptpMeasure_alters)
    | exact Alters.refl _ _
    | (refine (?_ : Part.le _ _ = true); decide)
    | intro _
    | with_reducible (first | rfl)
    | split
    | dsimp only
    | simp only [id_eq]
  )

theorem execPtpDelayReq_alters {port : Port} {m : PtpDelayReq} {s : State} {t0} (e : execPtpDelayReq port m s = .next
    t0) : Alters [.ptp, .out] s t0 := by
  unfold execPtpDelayReq at e
  try dsimp only at e
  repeat' split at e
  all_goals (injection e with e; subst e)
  all_goals try dsimp only
  repeat' (
    first
    | with_reducible (first | exact Alters.refl _ _ | apply Alters.ite | assumption |
                          apply State.emit_alters | apply State.onPtp_alters)
    | exact Alters.refl _ _
    | (refine (?_ : Part.le _ _ = true); decide)
    | intro _
    | with_reducible (first | rfl)
    | split
    | dsimp only
    | simp only [id_eq]
  )

theorem execPtpDelayResp_alters {port : Port} {domain : Nat} {udp : Bool} {t4 : Nat} {s : State} {t0} (e :
    execPtpDelayResp port domain udp t4 s = .next t0) : Alters [.cells, .ptp] s t0 := by
  unfold execPtpDelayResp at e
  try dsimp only at e
  repeat' split at e
  all_goals (injection e with e; subst e)
  all_goals try dsimp only
  repeat' (
    first
    | with_reducible (first | exact Alters.refl _ _ | apply Alters.ite | assumption |
                          apply State.onPtp_alters | apply State.wr_alters)
    | exact Alters.refl _ _
    | (refine (?_ : Part.le _ _ = true); decide)
    | intro _
    | with_reducible (first | rfl)
    | split
    | dsimp only
    | simp only [id_eq]
  )

theorem execPtpAnnounce_alters {port : Port} {m : PtpAnnounce} {s : State} {t0} (e : execPtpAnnounce port m s = .next
    t0) : Alters [.cells, .ptp, .out] s t0 := by
  unfold execPtpAnnounce at e
  try dsimp only at e
  repeat' split at e
  all_goals (injection e with e; subst e)
  all_goals try dsimp only
  repeat' (
    first
    | with_reducible (first | exact Alters.refl _ _ | apply Alters.ite | assumption |
                          apply State.emit_alters | apply State.flag_alters | apply State.onPtp_alters |
                          apply State.wr_alters | apply Alters.ofGiven)
    | exact Alters.refl _ _
    | (refine (?_ : Part.le _ _ = true); decide)
    | intro _
    | with_reducible (first | rfl)
    | split
    | dsimp only
    | simp only [id_eq]
  )

theorem execSyncTimeout_alters {s : State} {t0} (e : execSyncTimeout s = .next t0) : Alters Part.err s t0 := by
  unfold execSyncTimeout at e
  try dsimp only at e
  repeat' split at e
  all_goals (injection e with e; subst e)
  all_goals try dsimp only
  repeat' (
    first
    | with_reducible (first | exact Alters.refl _ _ | apply Alters.ite | assumption | apply State.raise_alters |
                            apply State.wr_alters)
    | exact Alters.refl _ _
    | (refine (?_ : Part.le _ _ = true); decide)
    | intro _
    | with_reducible (first | rfl)
    | split
    | dsimp only
    | simp only [id_eq]
  )

end Sys2Proof.Machine
end

