-- ==== Sys2Proof/Laws/AltersSnap.lean ====
section
/-! SUPPORT. What each operation of Machine/Snap.lean alters. -/

-- One closing tactic serves every lemma here; where a goal needs few of its steps the linters name the rest.
set_option linter.all false
set_option Elab.async false

namespace Sys2Proof.Machine

theorem State.onSnap_alters {s : State} {g : SnapSt → SnapSt} {ch : List Part} {s0 : State} (h0 : Alters ch s0 s) (hc
    : Part.le [.snap] ch = true) : Alters ch s0 (State.onSnap s g) := by
  unfold State.onSnap
  try dsimp only
  repeat' (
    first
    | with_reducible (first | exact Alters.refl _ _ | apply Alters.ite | assumption)
    | exact Part.le_trans (by decide) hc
    | (refine (?_ : Part.le _ _ = true); decide)
    | intro _
    | with_reducible (first | rfl)
    | split
    | dsimp only
    | simp only [id_eq]
    | with_reducible (first | apply Alters.upd_snap)
  )

theorem State.consumeSnap_alters {s : State} {ch : List Part} {s0 : State} (h0 : Alters ch s0 s) (hc : Part.le
    [.cells, .snap] ch = true) : Alters ch s0 (State.consumeSnap s) := by
  unfold State.consumeSnap
  try dsimp only
  repeat' (
    first
    | with_reducible (first | exact Alters.refl _ _ | apply Alters.ite | assumption |
                          apply State.onSnap_alters | apply State.wr_alters)
    | exact Part.le_trans (by decide) hc
    | (refine (?_ : Part.le _ _ = true); decide)
    | intro _
    | with_reducible (first | rfl)
    | split
    | dsimp only
    | simp only [id_eq]
  )

theorem State.snapCmds_alters {s : State} {xs : List (Nat × Option (Nat × Nat))} {ch : List Part} {s0 : State} (h0 :
    Alters ch s0 s) (hc : Part.le (Part.err ++ [Part.queue, Part.sig, Part.nose]) ch = true) : Alters ch s0
    (State.snapCmds s xs) := by
  unfold State.snapCmds
  try dsimp only
  repeat' (
    first
    | with_reducible (first | exact Alters.refl _ _ | apply Alters.ite | assumption |
                          apply Alters.foldl | apply State.onFlight_alters | apply State.settle_alters |
                          apply Alters.foldl1)
    | exact Part.le_trans (by decide) hc
    | (refine (?_ : Part.le _ _ = true); decide)
    | intro _
    | with_reducible (first | rfl)
    | split
    | dsimp only
    | simp only [id_eq]
  )

theorem State.showAges_alters {s : State} {ch : List Part} {s0 : State} (h0 : Alters ch s0 s) (hc : Part.le [.cells]
    ch = true) : Alters ch s0 (State.showAges s) := by
  unfold State.showAges
  try dsimp only
  repeat' (
    first
    | with_reducible (first | exact Alters.refl _ _ | apply Alters.ite | assumption |
                          apply Alters.foldl | apply State.wr_alters | apply Alters.foldl1)
    | exact Part.le_trans (by decide) hc
    | (refine (?_ : Part.le _ _ = true); decide)
    | intro _
    | with_reducible (first | rfl)
    | split
    | dsimp only
    | simp only [id_eq]
  )

theorem State.takeSnap_alters {s : State} {m : Nat} {ch : List Part} {s0 : State} (h0 : Alters ch s0 s) (hc : Part.le
    [.cells, .snap, .out] ch = true) : Alters ch s0 (State.takeSnap s m) := by
  unfold State.takeSnap
  try dsimp only
  repeat' (
    first
    | with_reducible (first | exact Alters.refl _ _ | apply Alters.ite | assumption |
                          apply Alters.foldl | apply State.emit_alters | apply State.onSnap_alters |
                          apply State.showAges_alters | apply State.showLock_alters | apply State.showQueues_alters |
                          apply State.showRuns_alters | apply State.wr_alters | apply Alters.foldl1)
    | exact Part.le_trans (by decide) hc
    | (refine (?_ : Part.le _ _ = true); decide)
    | intro _
    | with_reducible (first | rfl)
    | split
    | dsimp only
    | simp only [id_eq]
  )

theorem State.fireSnap_alters {s : State} {ch : List Part} {s0 : State} (h0 : Alters ch s0 s) (hc : Part.le (Part.err
    ++ [Part.queue, Part.sig, Part.nose]) ch = true) : Alters ch s0 (State.fireSnap s) := by
  unfold State.fireSnap
  try dsimp only
  repeat' (
    first
    | with_reducible (first | exact Alters.refl _ _ | apply Alters.ite | assumption |
                          apply State.bump_alters | apply State.consumeSnap_alters | apply State.snapCmds_alters |
                          apply State.takeSnap_alters)
    | exact Part.le_trans (by decide) hc
    | (refine (?_ : Part.le _ _ = true); decide)
    | intro _
    | with_reducible (first | rfl)
    | split
    | dsimp only
    | simp only [id_eq]
  )

theorem State.clkEdge_alters {s : State} {ch : List Part} {s0 : State} (h0 : Alters ch s0 s) (hc : Part.le (Part.err
    ++ [Part.commit, Part.clk, Part.stream, Part.queue, Part.sig, Part.nose]) ch = true) : Alters ch s0 (State.clkEdge
    s) := by
  unfold State.clkEdge
  try dsimp only
  repeat' (
    first
    | with_reducible (first | exact Alters.refl _ _ | apply Alters.ite | assumption |
                          apply State.fireSnap_alters | apply State.tick_alters)
    | exact Part.le_trans (by decide) hc
    | (refine (?_ : Part.le _ _ = true); decide)
    | intro _
    | with_reducible (first | rfl)
    | split
    | dsimp only
    | simp only [id_eq]
  )

theorem State.tbSet_alters {s : State} {ch : List Part} {s0 : State} (h0 : Alters ch s0 s) (hc : Part.le (Part.err ++
    [Part.commit, Part.clk, Part.stream, Part.queue, Part.sig, Part.nose]) ch = true) : Alters ch s0 (State.tbSet s)
    := by
  unfold State.tbSet
  try dsimp only
  repeat' (
    first
    | with_reducible (first | exact Alters.refl _ _ | apply Alters.ite | assumption |
                          apply Alters.foldl | apply State.edgeTo_alters | apply State.fireSnap_alters |
                          apply State.raise_alters | apply State.setRow_alters | apply State.wr_alters |
                          apply Alters.foldl1 | apply Alters.ofGiven)
    | exact Part.le_trans (by decide) hc
    | (refine (?_ : Part.le _ _ = true); decide)
    | intro _
    | with_reducible (first | rfl)
    | split
    | dsimp only
    | simp only [id_eq]
    | with_reducible (first | apply Alters.upd_clk)
  )

theorem execTbSet_alters {p : Path} {s : State} {t0} (e : execTbSet p s = .next t0) : Alters (Part.err ++ [Part.wbuf,
    Part.commit, Part.clk, Part.stream, Part.queue, Part.sig, Part.nose]) s t0 := by
  unfold execTbSet at e
  try dsimp only at e
  repeat' split at e
  all_goals (injection e with e; subst e)
  all_goals try dsimp only
  repeat' (
    first
    | with_reducible (first | exact Alters.refl _ _ | apply Alters.ite | assumption |
                          apply State.onWrite_alters | apply State.tbSet_alters)
    | exact Alters.refl _ _
    | (refine (?_ : Part.le _ _ = true); decide)
    | intro _
    | with_reducible (first | rfl)
    | split
    | dsimp only
    | simp only [id_eq]
  )

theorem State.snapSw_alters {s : State} {cmd : Option (Nat × Nat)} {ch : List Part} {s0 : State} (h0 : Alters ch s0 s)
    (hc : Part.le [.snap] ch = true) : Alters ch s0 (State.snapSw s cmd) := by
  unfold State.snapSw
  try dsimp only
  repeat' (
    first
    | with_reducible (first | exact Alters.refl _ _ | apply Alters.ite | assumption |
                          apply State.onSnap_alters)
    | exact Part.le_trans (by decide) hc
    | (refine (?_ : Part.le _ _ = true); decide)
    | intro _
    | with_reducible (first | rfl)
    | split
    | dsimp only
    | simp only [id_eq]
  )

theorem execSnapSw_alters {p : Path} {s : State} {t0} (e : execSnapSw p s = .next t0) : Alters (Part.err ++
    [Part.wbuf]) s t0 := by
  unfold execSnapSw at e
  try dsimp only at e
  repeat' split at e
  all_goals (injection e with e; subst e)
  all_goals try dsimp only
  repeat' (
    first
    | with_reducible (first | exact Alters.refl _ _ | apply Alters.ite | assumption |
                          apply State.onWrite_alters | apply State.snapSw_alters)
    | exact Alters.refl _ _
    | (refine (?_ : Part.le _ _ = true); decide)
    | intro _
    | with_reducible (first | rfl)
    | split
    | dsimp only
    | simp only [id_eq]
  )

theorem execSnapArm_alters {p : Path} {s : State} {t0} (e : execSnapArm p s = .next t0) : Alters (Part.err ++ [Part.wbuf])
    s t0 := by
  unfold execSnapArm at e
  try dsimp only at e
  repeat' split at e
  all_goals (injection e with e; subst e)
  all_goals try dsimp only
  repeat' (
    first
    | with_reducible (first | exact Alters.refl _ _ | apply Alters.ite | assumption | apply State.onWrite_alters |
                            apply State.wr_alters)
    | exact Alters.refl _ _
    | (refine (?_ : Part.le _ _ = true); decide)
    | intro _
    | with_reducible (first | rfl)
    | split
    | dsimp only
    | simp only [id_eq]
  )

theorem State.armCmp_alters {s : State} {tick : Nat} {ch : List Part} {s0 : State} (h0 : Alters ch s0 s) (hc : Part.le
    [.cells] ch = true) : Alters ch s0 (State.armCmp s tick) := by
  unfold State.armCmp
  try dsimp only
  repeat' (
    first
    | with_reducible (first | exact Alters.refl _ _ | apply Alters.ite | assumption | apply State.wr_alters)
    | exact Part.le_trans (by decide) hc
    | (refine (?_ : Part.le _ _ = true); decide)
    | intro _
    | with_reducible (first | rfl)
    | split
    | dsimp only
    | simp only [id_eq]
  )

theorem execSnapCmpArm_alters {p : Path} {tick : DWord} {s : State} {t0} (e : execSnapCmpArm p tick s = .next t0) :
    Alters (Part.err ++ [Part.wbuf]) s t0 := by
  unfold execSnapCmpArm at e
  try dsimp only at e
  repeat' split at e
  all_goals (injection e with e; subst e)
  all_goals try dsimp only
  repeat' (
    first
    | with_reducible (first | exact Alters.refl _ _ | apply Alters.ite | assumption | apply State.armCmp_alters |
                            apply State.onWrite_alters)
    | exact Alters.refl _ _
    | (refine (?_ : Part.le _ _ = true); decide)
    | intro _
    | with_reducible (first | rfl)
    | split
    | dsimp only
    | simp only [id_eq]
  )

theorem State.sourceEdge_alters {s : State} {k : Nat} {ch : List Part} {s0 : State} (h0 : Alters ch s0 s) (hc :
    Part.le (Part.err ++ [Part.commit, Part.clk, Part.stream, Part.queue, Part.sig, Part.nose]) ch = true) : Alters ch
    s0 (State.sourceEdge s k) := by
  unfold State.sourceEdge
  try dsimp only
  repeat' (
    first
    | with_reducible (first | exact Alters.refl _ _ | apply Alters.ite | assumption |
                          apply State.clkEdge_alters | apply State.tick_alters)
    | exact Part.le_trans (by decide) hc
    | (refine (?_ : Part.le _ _ = true); decide)
    | intro _
    | with_reducible (first | rfl)
    | split
    | dsimp only
    | simp only [id_eq]
  )

theorem execSnapCmpFire_alters {s : State} {t0} (e : execSnapCmpFire s = .next t0) : Alters (Part.err ++ [Part.commit,
    Part.clk, Part.stream, Part.queue, Part.sig, Part.nose]) s t0 := by
  unfold execSnapCmpFire at e
  try dsimp only at e
  repeat' split at e
  all_goals (injection e with e; subst e)
  all_goals try dsimp only
  repeat' (
    first
    | with_reducible (first | exact Alters.refl _ _ | apply Alters.ite | assumption |
                          apply State.sourceEdge_alters)
    | exact Alters.refl _ _
    | (refine (?_ : Part.le _ _ = true); decide)
    | intro _
    | with_reducible (first | rfl)
    | split
    | dsimp only
    | simp only [id_eq]
  )

theorem execSnapErrFire_alters {s : State} {t0} (e : execSnapErrFire s = .next t0) : Alters (Part.err ++ [Part.commit,
    Part.clk, Part.stream, Part.queue, Part.sig, Part.nose]) s t0 := by
  unfold execSnapErrFire at e
  try dsimp only at e
  repeat' split at e
  all_goals (injection e with e; subst e)
  all_goals try dsimp only
  repeat' (
    first
    | with_reducible (first | exact Alters.refl _ _ | apply Alters.ite | assumption |
                          apply State.sourceEdge_alters)
    | exact Alters.refl _ _
    | (refine (?_ : Part.le _ _ = true); decide)
    | intro _
    | with_reducible (first | rfl)
    | split
    | dsimp only
    | simp only [id_eq]
  )

theorem execSnapFabricFire_alters {s : State} {t0} (e : execSnapFabricFire s = .next t0) : Alters (Part.err ++
    [Part.commit, Part.clk, Part.stream, Part.queue, Part.sig, Part.nose]) s t0 := by
  unfold execSnapFabricFire at e
  try dsimp only at e
  repeat' split at e
  all_goals (injection e with e; subst e)
  all_goals try dsimp only
  repeat' (
    first
    | with_reducible (first | exact Alters.refl _ _ | apply Alters.ite | assumption |
                          apply State.sourceEdge_alters)
    | exact Alters.refl _ _
    | (refine (?_ : Part.le _ _ = true); decide)
    | intro _
    | with_reducible (first | rfl)
    | split
    | dsimp only
    | simp only [id_eq]
  )

theorem execSnapPin_alters {highTicks lowTicks : Nat} {s : State} {t0} (e : execSnapPin highTicks lowTicks s = .next
    t0) : Alters [.snap] s t0 := by
  unfold execSnapPin at e
  try dsimp only at e
  repeat' split at e
  all_goals (injection e with e; subst e)
  all_goals try dsimp only
  repeat' (
    first
    | with_reducible (first | exact Alters.refl _ _ | apply Alters.ite | assumption |
                          apply State.onSnap_alters)
    | exact Alters.refl _ _
    | (refine (?_ : Part.le _ _ = true); decide)
    | intro _
    | with_reducible (first | rfl)
    | split
    | dsimp only
    | simp only [id_eq]
  )

theorem execSnapOutRelease_alters {s : State} {t0} (e : execSnapOutRelease s = .next t0) : Alters [.snap, .out] s t0
    := by
  unfold execSnapOutRelease at e
  try dsimp only at e
  repeat' split at e
  all_goals (injection e with e; subst e)
  all_goals try dsimp only
  repeat' (
    first
    | with_reducible (first | exact Alters.refl _ _ | apply Alters.ite | assumption |
                          apply State.emit_alters | apply State.onSnap_alters)
    | exact Alters.refl _ _
    | (refine (?_ : Part.le _ _ = true); decide)
    | intro _
    | with_reducible (first | rfl)
    | split
    | dsimp only
    | simp only [id_eq]
  )

theorem State.loadFabricSnap_alters {s : State} {tick : Nat} {ch : List Part} {s0 : State} (h0 : Alters ch s0 s) (hc :
    Part.le Part.err ch = true) : Alters ch s0 (State.loadFabricSnap s tick) := by
  unfold State.loadFabricSnap
  try dsimp only
  repeat' (
    first
    | with_reducible (first | exact Alters.refl _ _ | apply Alters.ite | assumption |
                          apply State.raise_alters | apply State.wr_alters)
    | exact Part.le_trans (by decide) hc
    | (refine (?_ : Part.le _ _ = true); decide)
    | intro _
    | with_reducible (first | rfl)
    | split
    | dsimp only
    | simp only [id_eq]
  )

theorem execSnapTrigger_alters {q : Fin 64} {s : State} {t0} (e : execSnapTrigger q s = .next t0) : Alters (Part.err
    ++ [Part.queue, Part.nose, Part.host]) s t0 := by
  unfold execSnapTrigger at e
  try dsimp only at e
  repeat' split at e
  all_goals (injection e with e; subst e)
  all_goals try dsimp only
  repeat' (
    first
    | with_reducible (first | exact Alters.refl _ _ | apply Alters.ite | assumption |
                          apply State.faultHead_alters | apply State.issueHead_alters | apply State.issue_alters |
                          apply State.snapSw_alters | apply Alters.ofChecked)
    | exact Alters.refl _ _
    | (refine (?_ : Part.le _ _ = true); decide)
    | intro _
    | with_reducible (first | rfl)
    | split
    | dsimp only
    | simp only [id_eq]
  )

theorem execSnapLoadCmp_alters {q : Fin 64} {s : State} {t0} (e : execSnapLoadCmp q s = .next t0) : Alters (Part.err
    ++ [Part.queue, Part.sig, Part.nose, Part.host]) s t0 := by
  unfold execSnapLoadCmp at e
  try dsimp only at e
  repeat' split at e
  all_goals (injection e with e; subst e)
  all_goals try dsimp only
  repeat' (
    first
    | with_reducible (first | exact Alters.refl _ _ | apply Alters.ite | assumption |
                          apply State.armCmp_alters | apply State.faultHead_alters | apply State.issueDone_alters |
                          apply State.issueHead_alters | apply Alters.ofChecked)
    | exact Alters.refl _ _
    | (refine (?_ : Part.le _ _ = true); decide)
    | intro _
    | with_reducible (first | rfl)
    | split
    | dsimp only
    | simp only [id_eq]
  )

end Sys2Proof.Machine
end

