-- ==== Sys2Proof/Laws/AltersDaxvo.lean ====
section
/-! SUPPORT. What each operation of Machine/Daxvo.lean alters. -/

-- One closing tactic serves every lemma here; where a goal needs few of its steps the linters name the rest.
set_option linter.all false
set_option Elab.async false

namespace Sys2Proof.Machine

theorem State.setLinkState_alters {s : State} {k v : Nat} {ch : List Part} {s0 : State} (h0 : Alters ch s0 s) (hc :
    Part.le [.cells, .msix, .out] ch = true) : Alters ch s0 (State.setLinkState s k v) := by
  unfold State.setLinkState
  try dsimp only
  repeat' (
    first
    | with_reducible (first | exact Alters.refl _ _ | apply Alters.ite | assumption | apply State.irq_alters |
                            apply State.wr_alters)
    | exact Part.le_trans (by decide) hc
    | (refine (?_ : Part.le _ _ = true); decide)
    | intro _
    | with_reducible (first | rfl)
    | split
    | dsimp only
    | simp only [id_eq]
  )

theorem State.onLedger_alters {s : State} {k : Nat} {g : LinkLedger → LinkLedger} {ch : List Part} {s0 : State} (h0 :
    Alters ch s0 s) (hc : Part.le [.island] ch = true) : Alters ch s0 (State.onLedger s k g) := by
  unfold State.onLedger
  try dsimp only
  repeat' (
    first
    | with_reducible (first | exact Alters.refl _ _ | apply Alters.ite | assumption | apply State.onIsland_alters)
    | exact Part.le_trans (by decide) hc
    | (refine (?_ : Part.le _ _ = true); decide)
    | intro _
    | with_reducible (first | rfl)
    | split
    | dsimp only
    | simp only [id_eq]
  )

theorem State.reroute_alters {s : State} {f : Frame} {held : Option (Nat × Nat)} {ch : List Part} {s0 : State} (h0 :
    Alters ch s0 s) (hc : Part.le (Part.err ++ [Part.tile, Part.mem, Part.stream, Part.queue, Part.sig, Part.nose,
    Part.coll, Part.fab, Part.power, Part.host]) ch = true) : Alters ch s0 (State.reroute s f held) := by
  unfold State.reroute
  try dsimp only
  repeat' (
    first
    | with_reducible (first | exact Alters.refl _ _ | apply Alters.ite | assumption |
                          apply State.bump_alters | apply State.endTag_alters | apply State.endTransit_alters |
                          apply State.freeCls_alters | apply State.routeFrom_alters |
                          apply Alters.of_pair (by assumption))
    | exact Part.le_trans (by decide) hc
    | (refine (?_ : Part.le _ _ = true); decide)
    | intro _
    | with_reducible (first | rfl)
    | split
    | dsimp only
    | simp only [id_eq]
  )

theorem State.lowered_alters {s : State} {k : Nat} {ch : List Part} {s0 : State} (h0 : Alters ch s0 s) (hc : Part.le
    (Part.err ++ [Part.fab]) ch = true) : Alters ch s0 (State.lowered s k) := by
  unfold State.lowered
  try dsimp only
  repeat' (
    first
    | with_reducible (first | exact Alters.refl _ _ | apply Alters.ite | assumption | apply State.bump_alters |
                            apply State.onLedger_alters | apply State.onLink_alters | apply State.raise_alters |
                            apply State.setLinkState_alters | apply State.wr_alters)
    | exact Part.le_trans (by decide) hc
    | (refine (?_ : Part.le _ _ = true); decide)
    | intro _
    | with_reducible (first | rfl)
    | split
    | dsimp only
    | simp only [id_eq]
  )

theorem State.linkDown_alters {s : State} {k : Nat} {ch : List Part} {s0 : State} (h0 : Alters ch s0 s) (hc : Part.le
    (Part.err ++ [Part.tile, Part.mem, Part.stream, Part.queue, Part.sig, Part.nose, Part.coll, Part.fab, Part.power,
    Part.host]) ch = true) : Alters ch s0 (State.linkDown s k) := by
  unfold State.linkDown
  try dsimp only
  repeat' (
    first
    | with_reducible (first | exact Alters.refl _ _ | apply Alters.ite | assumption |
                          apply Alters.foldl | apply State.lowered_alters | apply State.reroute_alters |
                          apply Alters.foldl1)
    | exact Part.le_trans (by decide) hc
    | (refine (?_ : Part.le _ _ = true); decide)
    | intro _
    | with_reducible (first | rfl)
    | split
    | dsimp only
    | simp only [id_eq]
  )

theorem State.linkCarries_alters {s : State} {k : Nat} {lanes half : Nat} {ch : List Part} {s0 : State} (h0 : Alters
    ch s0 s) (hc : Part.le (Part.err ++ [Part.fab]) ch = true) : Alters ch s0 (State.linkCarries s k lanes half) := by
  unfold State.linkCarries
  try dsimp only
  repeat' (
    first
    | with_reducible (first | exact Alters.refl _ _ | apply Alters.ite | assumption |
                          apply State.bump_alters | apply State.onLink_alters | apply State.raise_alters |
                          apply State.setLinkState_alters | apply State.wr_alters)
    | exact Part.le_trans (by decide) hc
    | (refine (?_ : Part.le _ _ = true); decide)
    | intro _
    | with_reducible (first | rfl)
    | split
    | dsimp only
    | simp only [id_eq]
  )

theorem State.enterRetrain_alters {s : State} {k : Nat} {ledger : Bool} {ch : List Part} {s0 : State} (h0 : Alters ch
    s0 s) (hc : Part.le [.cells, .fab, .msix, .out] ch = true) : Alters ch s0 (State.enterRetrain s k ledger) := by
  unfold State.enterRetrain
  try dsimp only
  repeat' (
    first
    | with_reducible (first | exact Alters.refl _ _ | apply Alters.ite | assumption | apply State.bump_alters |
                            apply State.onLink_alters | apply State.setLinkState_alters)
    | exact Part.le_trans (by decide) hc
    | (refine (?_ : Part.le _ _ = true); decide)
    | intro _
    | with_reducible (first | rfl)
    | split
    | dsimp only
    | simp only [id_eq]
  )

theorem State.initHeld_alters {s : State} {k : Nat} {ch : List Part} {s0 : State} (h0 : Alters ch s0 s) (hc : Part.le
    [.cells] ch = true) : Alters ch s0 (State.initHeld s k) := by
  unfold State.initHeld
  try dsimp only
  repeat' (
    first
    | with_reducible (first | exact Alters.refl _ _ | apply Alters.ite | assumption | apply Alters.foldl |
                            apply State.wr_alters | apply Alters.foldl1)
    | exact Part.le_trans (by decide) hc
    | (refine (?_ : Part.le _ _ = true); decide)
    | intro _
    | with_reducible (first | rfl)
    | split
    | dsimp only
    | simp only [id_eq]
  )

theorem State.linkTrain_alters {s : State} {k : Nat} {ch : List Part} {s0 : State} (h0 : Alters ch s0 s) (hc : Part.le
    [.cells, .fab, .msix, .out] ch = true) : Alters ch s0 (State.linkTrain s k) := by
  unfold State.linkTrain
  try dsimp only
  repeat' (
    first
    | with_reducible (first | exact Alters.refl _ _ | apply Alters.ite | assumption | apply State.emit_alters |
                            apply State.onLink_alters | apply State.setLinkState_alters | apply State.wr_alters)
    | exact Part.le_trans (by decide) hc
    | (refine (?_ : Part.le _ _ = true); decide)
    | intro _
    | with_reducible (first | rfl)
    | split
    | dsimp only
    | simp only [id_eq]
  )

theorem State.markerCredits_alters {s : State} {k : Nat} {ch : List Part} {s0 : State} (h0 : Alters ch s0 s) (hc :
    Part.le [.out] ch = true) : Alters ch s0 (State.markerCredits s k) := by
  unfold State.markerCredits
  try dsimp only
  repeat' (
    first
    | with_reducible (first | exact Alters.refl _ _ | apply Alters.ite | assumption | apply Alters.foldl |
                            apply State.emitCredit_alters | apply Alters.foldl1)
    | exact Part.le_trans (by decide) hc
    | (refine (?_ : Part.le _ _ = true); decide)
    | intro _
    | with_reducible (first | rfl)
    | split
    | dsimp only
    | simp only [id_eq]
  )

theorem State.sendAgain_alters {s : State} {k : Nat} {f : Frame} {ch : List Part} {s0 : State} (h0 : Alters ch s0 s)
    (hc : Part.le [.cells, .out] ch = true) : Alters ch s0 (State.sendAgain s k f) := by
  unfold State.sendAgain
  try dsimp only
  repeat' (
    first
    | with_reducible (first | exact Alters.refl _ _ | apply Alters.ite | assumption | apply State.bump_alters |
                            apply State.markerCredits_alters | apply State.putFrame_alters)
    | exact Part.le_trans (by decide) hc
    | (refine (?_ : Part.le _ _ = true); decide)
    | intro _
    | with_reducible (first | rfl)
    | split
    | dsimp only
    | simp only [id_eq]
  )

theorem State.sendEach_alters {s : State} {k : Nat} {fs : List Frame} {ch : List Part} {s0 : State} (h0 : Alters ch s0
    s) (hc : Part.le [.cells, .fab, .out] ch = true) : Alters ch s0 (State.sendEach s k fs) := by
  induction fs generalizing s k with
  | nil =>
    unfold State.sendEach
    try dsimp only
    repeat' (
      first
      | with_reducible (first | exact Alters.refl _ _ | apply Alters.ite | assumption |
                            apply State.onLink_alters | apply State.sendAgain_alters)
      | exact Part.le_trans (by decide) hc
      | (refine (?_ : Part.le _ _ = true); decide)
      | intro _
      | with_reducible (first | rfl)
      | split
      | dsimp only
      | simp only [id_eq]
    )
  | cons hd_ tl_ ih_ =>
    unfold State.sendEach
    try dsimp only
    repeat' (
      first
      | with_reducible (first | apply ih_ | exact Alters.refl _ _ | apply Alters.ite | assumption |
                            apply State.onLink_alters | apply State.sendAgain_alters)
      | exact Part.le_trans (by decide) hc
      | (refine (?_ : Part.le _ _ = true); decide)
      | intro _
      | with_reducible (first | rfl)
      | split
      | dsimp only
      | simp only [id_eq]
    )

theorem State.resendFrames_alters {s : State} {k : Nat} {ch : List Part} {s0 : State} (h0 : Alters ch s0 s) (hc :
    Part.le [.cells, .fab, .out] ch = true) : Alters ch s0 (State.resendFrames s k) := by
  unfold State.resendFrames
  try dsimp only
  repeat' (
    first
    | with_reducible (first | exact Alters.refl _ _ | apply Alters.ite | assumption |
                          apply State.sendEach_alters)
    | exact Part.le_trans (by decide) hc
    | (refine (?_ : Part.le _ _ = true); decide)
    | intro _
    | with_reducible (first | rfl)
    | split
    | dsimp only
    | simp only [id_eq]
  )

theorem State.refundFrom_alters {s : State} {k q : Nat} {ch : List Part} {s0 : State} (h0 : Alters ch s0 s) (hc :
    Part.le [.cells, .fab] ch = true) : Alters ch s0 (State.refundFrom s k q) := by
  unfold State.refundFrom
  try dsimp only
  repeat' (
    first
    | with_reducible (first | exact Alters.refl _ _ | apply Alters.ite | assumption | apply Alters.foldl |
                            apply State.onLink_alters | apply State.tallyUp_alters | apply State.wr_alters |
                            apply Alters.foldl1)
    | exact Part.le_trans (by decide) hc
    | (refine (?_ : Part.le _ _ = true); decide)
    | intro _
    | with_reducible (first | rfl)
    | split
    | dsimp only
    | simp only [id_eq]
  )

theorem State.goOn_alters {s : State} {k : Nat} {ch : List Part} {s0 : State} (h0 : Alters ch s0 s) (hc : Part.le
    [.cells, .fab, .out] ch = true) : Alters ch s0 (State.goOn s k) := by
  unfold State.goOn
  try dsimp only
  repeat' (
    first
    | with_reducible (first | exact Alters.refl _ _ | apply Alters.ite | assumption |
                          apply State.pump_alters | apply State.resendFrames_alters)
    | exact Part.le_trans (by decide) hc
    | (refine (?_ : Part.le _ _ = true); decide)
    | intro _
    | with_reducible (first | rfl)
    | split
    | dsimp only
    | simp only [id_eq]
  )

theorem execCredit_alters {k : Fin 48} {c : Fin 12} {freed : Nat} {s : State} {t0} (e : execCredit k c freed s = .next
    t0) : Alters [.cells, .fab, .out] s t0 := by
  unfold execCredit at e
  try dsimp only at e
  repeat' split at e
  all_goals (injection e with e; subst e)
  all_goals try dsimp only
  repeat' (
    first
    | with_reducible (first | exact Alters.refl _ _ | apply Alters.ite | assumption |
                          apply State.goOn_alters | apply State.onLink_alters | apply State.tallyUp_alters |
                          apply State.wr_alters)
    | exact Alters.refl _ _
    | (refine (?_ : Part.le _ _ = true); decide)
    | intro _
    | with_reducible (first | rfl)
    | split
    | dsimp only
    | simp only [id_eq]
  )

theorem execAck_alters {k : Fin 48} {fseq : Nat} {s : State} {t0} (e : execAck k fseq s = .next t0) : Alters [.cells,
    .fab, .out] s t0 := by
  unfold execAck at e
  try dsimp only at e
  repeat' split at e
  all_goals (injection e with e; subst e)
  all_goals try dsimp only
  repeat' (
    first
    | with_reducible (first | exact Alters.refl _ _ | apply Alters.ite | assumption | apply State.onLink_alters |
                            apply State.pump_alters)
    | exact Alters.refl _ _
    | (refine (?_ : Part.le _ _ = true); decide)
    | intro _
    | with_reducible (first | rfl)
    | split
    | dsimp only
    | simp only [id_eq]
  )

theorem State.peerLanes_alters {s : State} {k lanes : Nat} {ch : List Part} {s0 : State} (h0 : Alters ch s0 s) (hc :
    Part.le [.cells, .fab, .msix, .out] ch = true) : Alters ch s0 (State.peerLanes s k lanes) := by
  unfold State.peerLanes
  try dsimp only
  repeat' (
    first
    | with_reducible (first | exact Alters.refl _ _ | apply Alters.ite | assumption |
                          apply State.enterRetrain_alters | apply State.onLink_alters)
    | exact Part.le_trans (by decide) hc
    | (refine (?_ : Part.le _ _ = true); decide)
    | intro _
    | with_reducible (first | rfl)
    | split
    | dsimp only
    | simp only [id_eq]
  )

theorem execNak_alters {k : Fin 48} {fseq : Nat} {lanes : BitVec 16} {s : State} {t0} (e : execNak k fseq lanes s =
    .next t0) : Alters [.cells, .fab, .msix, .out] s t0 := by
  unfold execNak at e
  try dsimp only at e
  repeat' split at e
  all_goals (injection e with e; subst e)
  all_goals try dsimp only
  repeat' (
    first
    | with_reducible (first | exact Alters.refl _ _ | apply Alters.ite | assumption |
                          apply State.goOn_alters | apply State.peerLanes_alters | apply State.refundFrom_alters)
    | exact Alters.refl _ _
    | (refine (?_ : Part.le _ _ = true); decide)
    | intro _
    | with_reducible (first | rfl)
    | split
    | dsimp only
    | simp only [id_eq]
  )

theorem execCodewordError_alters {k : Fin 48} {e : LineError} {s : State} {t0} (e : execCodewordError k e s = .next
    t0) : Alters [.cells, .fab, .out] s t0 := by
  unfold execCodewordError at e
  try dsimp only at e
  repeat' split at e
  all_goals (injection e with e; subst e)
  all_goals try dsimp only
  repeat' (
    first
    | with_reducible (first | exact Alters.refl _ _ | apply Alters.ite | assumption | apply State.bump_alters |
                            apply State.enterDiscard_alters)
    | exact Alters.refl _ _
    | (refine (?_ : Part.le _ _ = true); decide)
    | intro _
    | with_reducible (first | rfl)
    | split
    | dsimp only
    | simp only [id_eq]
  )

theorem execNakResend_alters {k : Fin 48} {s : State} {t0} (e : execNakResend k s = .next t0) : Alters [.fab, .out] s
    t0 := by
  unfold execNakResend at e
  try dsimp only at e
  repeat' split at e
  all_goals (injection e with e; subst e)
  all_goals try dsimp only
  repeat' (
    first
    | with_reducible (first | exact Alters.refl _ _ | apply Alters.ite | assumption | apply State.emit_alters |
                            apply State.onLink_alters)
    | exact Alters.refl _ _
    | (refine (?_ : Part.le _ _ = true); decide)
    | intro _
    | with_reducible (first | rfl)
    | split
    | dsimp only
    | simp only [id_eq]
  )

theorem execOpticInsert_alters {k : Fin 48} {ok : Bool} {s : State} {t0} (e : execOpticInsert k ok s = .next t0) :
    Alters (Part.err ++ [Part.fab]) s t0 := by
  unfold execOpticInsert at e
  try dsimp only at e
  repeat' split at e
  all_goals (injection e with e; subst e)
  all_goals try dsimp only
  repeat' (
    first
    | with_reducible (first | exact Alters.refl _ _ | apply Alters.ite | assumption | apply State.countInsert_alters |
                            apply State.linkTrain_alters | apply State.raise_alters | apply State.setLinkState_alters |
                            apply State.wr_alters)
    | exact Alters.refl _ _
    | (refine (?_ : Part.le _ _ = true); decide)
    | intro _
    | with_reducible (first | rfl)
    | split
    | dsimp only
    | simp only [id_eq]
  )

theorem execOpticRemove_alters {k : Fin 48} {s : State} {t0} (e : execOpticRemove k s = .next t0) : Alters (Part.err
    ++ [Part.tile, Part.mem, Part.stream, Part.queue, Part.sig, Part.nose, Part.coll, Part.fab, Part.power,
    Part.host]) s t0 := by
  unfold execOpticRemove at e
  try dsimp only at e
  repeat' split at e
  all_goals (injection e with e; subst e)
  all_goals try dsimp only
  repeat' (
    first
    | with_reducible (first | exact Alters.refl _ _ | apply Alters.ite | assumption |
                          apply State.journal_alters | apply State.linkDown_alters | apply State.setLinkState_alters |
                          apply State.wr_alters)
    | exact Alters.refl _ _
    | (refine (?_ : Part.le _ _ = true); decide)
    | intro _
    | with_reducible (first | rfl)
    | split
    | dsimp only
    | simp only [id_eq]
  )

theorem State.linkEnable_alters {s : State} {k : Nat} {ch : List Part} {s0 : State} (h0 : Alters ch s0 s) (hc :
    Part.le [.cells, .fab, .msix, .out] ch = true) : Alters ch s0 (State.linkEnable s k) := by
  unfold State.linkEnable
  try dsimp only
  repeat' (
    first
    | with_reducible (first | exact Alters.refl _ _ | apply Alters.ite | assumption | apply State.linkTrain_alters |
                            apply State.wr_alters)
    | exact Part.le_trans (by decide) hc
    | (refine (?_ : Part.le _ _ = true); decide)
    | intro _
    | with_reducible (first | rfl)
    | split
    | dsimp only
    | simp only [id_eq]
  )

theorem execLinkEnable_alters {p : Path} {k : Fin 48} {s : State} {t0} (e : execLinkEnable p k s = .next t0) : Alters
    (Part.err ++ [Part.wbuf, Part.fab]) s t0 := by
  unfold execLinkEnable at e
  try dsimp only at e
  repeat' split at e
  all_goals (injection e with e; subst e)
  all_goals try dsimp only
  repeat' (
    first
    | with_reducible (first | exact Alters.refl _ _ | apply Alters.ite | assumption | apply State.linkEnable_alters |
                            apply State.onWrite_alters)
    | exact Alters.refl _ _
    | (refine (?_ : Part.le _ _ = true); decide)
    | intro _
    | with_reducible (first | rfl)
    | split
    | dsimp only
    | simp only [id_eq]
  )

theorem State.linkDisable_alters {s : State} {k : Nat} {ch : List Part} {s0 : State} (h0 : Alters ch s0 s) (hc :
    Part.le (Part.err ++ [Part.tile, Part.mem, Part.stream, Part.queue, Part.sig, Part.nose, Part.coll, Part.fab,
    Part.power, Part.host]) ch = true) : Alters ch s0 (State.linkDisable s k) := by
  unfold State.linkDisable
  try dsimp only
  repeat' (
    first
    | with_reducible (first | exact Alters.refl _ _ | apply Alters.ite | assumption |
                          apply State.linkDown_alters | apply State.wr_alters)
    | exact Part.le_trans (by decide) hc
    | (refine (?_ : Part.le _ _ = true); decide)
    | intro _
    | with_reducible (first | rfl)
    | split
    | dsimp only
    | simp only [id_eq]
  )

theorem execLinkDisable_alters {p : Path} {k : Fin 48} {s : State} {t0} (e : execLinkDisable p k s = .next t0) :
    Alters (Part.err ++ [Part.wbuf, Part.tile, Part.mem, Part.stream, Part.queue, Part.sig, Part.nose, Part.coll,
    Part.fab, Part.power, Part.host]) s t0 := by
  unfold execLinkDisable at e
  try dsimp only at e
  repeat' split at e
  all_goals (injection e with e; subst e)
  all_goals try dsimp only
  repeat' (
    first
    | with_reducible (first | exact Alters.refl _ _ | apply Alters.ite | assumption |
                          apply State.linkDisable_alters | apply State.onWrite_alters)
    | exact Alters.refl _ _
    | (refine (?_ : Part.le _ _ = true); decide)
    | intro _
    | with_reducible (first | rfl)
    | split
    | dsimp only
    | simp only [id_eq]
  )

theorem State.afreshLink_alters {s : State} {k : Nat} {ch : List Part} {s0 : State} (h0 : Alters ch s0 s) (hc :
    Part.le [.cells, .fab] ch = true) : Alters ch s0 (State.afreshLink s k) := by
  unfold State.afreshLink
  try dsimp only
  repeat' (
    first
    | with_reducible (first | exact Alters.refl _ _ | apply Alters.ite | assumption |
                          apply Alters.foldl | apply State.onLink_alters | apply State.wr_alters | apply Alters.foldl1)
    | exact Part.le_trans (by decide) hc
    | (refine (?_ : Part.le _ _ = true); decide)
    | intro _
    | with_reducible (first | rfl)
    | split
    | dsimp only
    | simp only [id_eq]
  )

theorem execHello_alters {k : Fin 48} {h : Hello} {s : State} {t0} (e : execHello k h s = .next t0) : Alters (Part.err
    ++ [Part.tile, Part.mem, Part.stream, Part.queue, Part.sig, Part.nose, Part.coll, Part.fab, Part.power,
    Part.host]) s t0 := by
  unfold execHello at e
  try dsimp only at e
  repeat' split at e
  all_goals (injection e with e; subst e)
  all_goals try dsimp only
  repeat' (
    first
    | with_reducible (first | exact Alters.refl _ _ | apply Alters.ite | assumption |
                          apply Alters.foldl | apply State.afreshLink_alters | apply State.flag_alters |
                          apply State.linkDown_alters | apply State.onLink_alters | apply State.raise_alters |
                          apply State.when_alters | apply State.wr_alters | apply Alters.foldl1)
    | exact Alters.refl _ _
    | (refine (?_ : Part.le _ _ = true); decide)
    | intro _
    | with_reducible (first | rfl)
    | split
    | dsimp only
    | simp only [id_eq]
  )

theorem execTrainingComplete_alters {k : Fin 48} {peer : BitVec 16} {s : State} {t0} (e : execTrainingComplete k peer
    s = .next t0) : Alters (Part.err ++ [Part.tile, Part.mem, Part.stream, Part.queue, Part.sig, Part.nose, Part.coll,
    Part.fab, Part.power, Part.host]) s t0 := by
  unfold execTrainingComplete at e
  try dsimp only at e
  repeat' split at e
  all_goals (injection e with e; subst e)
  all_goals try dsimp only
  repeat' (
    first
    | with_reducible (first | exact Alters.refl _ _ | apply Alters.ite | assumption |
                          apply State.goOn_alters | apply State.initHeld_alters | apply State.linkCarries_alters |
                          apply State.linkDown_alters | apply State.onLink_alters)
    | exact Alters.refl _ _
    | (refine (?_ : Part.le _ _ = true); decide)
    | intro _
    | with_reducible (first | rfl)
    | split
    | dsimp only
    | simp only [id_eq]
  )

theorem State.lanesFail_alters {s : State} {k lanes : Nat} {ch : List Part} {s0 : State} (h0 : Alters ch s0 s) (hc :
    Part.le [.cells, .fab, .msix, .out] ch = true) : Alters ch s0 (State.lanesFail s k lanes) := by
  unfold State.lanesFail
  try dsimp only
  repeat' (
    first
    | with_reducible (first | exact Alters.refl _ _ | apply Alters.ite | assumption |
                          apply State.enterDiscard_alters | apply State.enterRetrain_alters | apply State.irq_alters |
                          apply State.wr_alters)
    | exact Part.le_trans (by decide) hc
    | (refine (?_ : Part.le _ _ = true); decide)
    | intro _
    | with_reducible (first | rfl)
    | split
    | dsimp only
    | simp only [id_eq]
  )

theorem execLaneFail_alters {k : Fin 48} {lanes : BitVec 16} {peer : Bool} {s : State} {t0} (e : execLaneFail k lanes
    peer s = .next t0) : Alters [.cells, .fab, .msix, .out] s t0 := by
  unfold execLaneFail at e
  try dsimp only at e
  repeat' split at e
  all_goals (injection e with e; subst e)
  all_goals try dsimp only
  repeat' (
    first
    | with_reducible (first | exact Alters.refl _ _ | apply Alters.ite | assumption |
                          apply State.lanesFail_alters | apply State.peerLanes_alters)
    | exact Alters.refl _ _
    | (refine (?_ : Part.le _ _ = true); decide)
    | intro _
    | with_reducible (first | rfl)
    | split
    | dsimp only
    | simp only [id_eq]
  )

theorem execLinkRetrain_alters {p : Path} {k : Fin 48} {s : State} {t0} (e : execLinkRetrain p k s = .next t0) :
    Alters (Part.err ++ [Part.wbuf, Part.fab]) s t0 := by
  unfold execLinkRetrain at e
  try dsimp only at e
  repeat' split at e
  all_goals (injection e with e; subst e)
  all_goals try dsimp only
  repeat' (
    first
    | with_reducible (first | exact Alters.refl _ _ | apply Alters.ite | assumption | apply State.enterRetrain_alters |
                            apply State.onWrite_alters)
    | exact Alters.refl _ _
    | (refine (?_ : Part.le _ _ = true); decide)
    | intro _
    | with_reducible (first | rfl)
    | split
    | dsimp only
    | simp only [id_eq]
  )

theorem execRetrainComplete_alters {k : Fin 48} {peer : BitVec 16} {s : State} {t0} (e : execRetrainComplete k peer s
    = .next t0) : Alters (Part.err ++ [Part.tile, Part.mem, Part.stream, Part.queue, Part.sig, Part.nose, Part.coll,
    Part.fab, Part.power, Part.host]) s t0 := by
  unfold execRetrainComplete at e
  try dsimp only at e
  repeat' split at e
  all_goals (injection e with e; subst e)
  all_goals try dsimp only
  repeat' (
    first
    | with_reducible (first | exact Alters.refl _ _ | apply Alters.ite | assumption |
                          apply State.goOn_alters | apply State.initHeld_alters | apply State.linkCarries_alters |
                          apply State.linkDown_alters | apply State.onLink_alters | apply State.refundFrom_alters)
    | exact Alters.refl _ _
    | (refine (?_ : Part.le _ _ = true); decide)
    | intro _
    | with_reducible (first | rfl)
    | split
    | dsimp only
    | simp only [id_eq]
  )

theorem execLinkDown_alters {k : Fin 48} {s : State} {t0} (e : execLinkDown k s = .next t0) : Alters (Part.err ++
    [Part.tile, Part.mem, Part.stream, Part.queue, Part.sig, Part.nose, Part.coll, Part.fab, Part.power, Part.host]) s
    t0 := by
  unfold execLinkDown at e
  try dsimp only at e
  repeat' split at e
  all_goals (injection e with e; subst e)
  all_goals try dsimp only
  repeat' (
    first
    | with_reducible (first | exact Alters.refl _ _ | apply Alters.ite | assumption |
                          apply State.linkDown_alters)
    | exact Alters.refl _ _
    | (refine (?_ : Part.le _ _ = true); decide)
    | intro _
    | with_reducible (first | rfl)
    | split
    | dsimp only
    | simp only [id_eq]
  )

theorem execLedgerTick_alters {k : Fin 48} {corr : List Nat} {s : State} {t0} (e : execLedgerTick k corr s = .next t0)
    : Alters [.cells, .fab, .msix, .out] s t0 := by
  unfold execLedgerTick at e
  try dsimp only at e
  repeat' split at e
  all_goals (injection e with e; subst e)
  all_goals try dsimp only
  repeat' (
    first
    | with_reducible (first | exact Alters.refl _ _ | apply Alters.ite | assumption |
                          apply Alters.foldl | apply State.bump_alters | apply State.lanesFail_alters |
                          apply State.markerCredits_alters | apply State.queueFrame_alters | apply Alters.foldl1)
    | exact Alters.refl _ _
    | (refine (?_ : Part.le _ _ = true); decide)
    | intro _
    | with_reducible (first | rfl)
    | split
    | dsimp only
    | simp only [id_eq]
  )

theorem State.checkLedger_alters {s before : State} {k : Nat} {counts : List (Nat × Nat × Nat)} {ch : List Part} {s0 :
    State} (h0 : Alters ch s0 s) (hc : Part.le (Part.err ++ [Part.fab]) ch = true) : Alters ch s0 (State.checkLedger s
    before k counts) := by
  unfold State.checkLedger
  try dsimp only
  repeat' (
    first
    | with_reducible (first | exact Alters.refl _ _ | apply Alters.ite | assumption |
                          apply State.bump_alters | apply State.enterRetrain_alters | apply State.irq_alters |
                          apply State.onLedger_alters | apply State.raise_alters | apply State.wr_alters)
    | exact Part.le_trans (by decide) hc
    | (refine (?_ : Part.le _ _ = true); decide)
    | intro _
    | with_reducible (first | rfl)
    | split
    | dsimp only
    | simp only [id_eq]
  )

theorem execLedger_alters {k : Fin 48} {f : Frame} {s : State} {t0} (e : execLedger k f s = .next t0) : Alters
    (Part.err ++ [Part.fab]) s t0 := by
  unfold execLedger at e
  try dsimp only at e
  repeat' split at e
  all_goals (injection e with e; subst e)
  all_goals try dsimp only
  repeat' (
    first
    | with_reducible (first | exact Alters.refl _ _ | apply Alters.ite | assumption | apply State.checkLedger_alters |
                            apply State.takeFrame_alters)
    | exact Alters.refl _ _
    | (refine (?_ : Part.le _ _ = true); decide)
    | intro _
    | with_reducible (first | rfl)
    | split
    | dsimp only
    | simp only [id_eq]
  )

theorem State.routeSel_alters {s : State} {n op : Nat} {ch : List Part} {s0 : State} (h0 : Alters ch s0 s) (hc :
    Part.le [.cells] ch = true) : Alters ch s0 (State.routeSel s n op) := by
  unfold State.routeSel
  try dsimp only
  repeat' (
    first
    | with_reducible (first | exact Alters.refl _ _ | apply Alters.ite | assumption | apply State.wr_alters)
    | exact Part.le_trans (by decide) hc
    | (refine (?_ : Part.le _ _ = true); decide)
    | intro _
    | with_reducible (first | rfl)
    | split
    | dsimp only
    | simp only [id_eq]
  )

theorem State.routeRead_alters {s : State} {n : Nat} {ch : List Part} {s0 : State} (h0 : Alters ch s0 s) (hc : Part.le
    [.cells] ch = true) : Alters ch s0 (State.routeRead s n) := by
  unfold State.routeRead
  try dsimp only
  repeat' (
    first
    | with_reducible (first | exact Alters.refl _ _ | apply Alters.ite | assumption | apply State.routeSel_alters |
                            apply State.wr_alters)
    | exact Part.le_trans (by decide) hc
    | (refine (?_ : Part.le _ _ = true); decide)
    | intro _
    | with_reducible (first | rfl)
    | split
    | dsimp only
    | simp only [id_eq]
  )

theorem State.routeWrite_alters {s : State} {n : Nat} {ch : List Part} {s0 : State} (h0 : Alters ch s0 s) (hc :
    Part.le [.cells, .fab] ch = true) : Alters ch s0 (State.routeWrite s n) := by
  unfold State.routeWrite
  try dsimp only
  repeat' (
    first
    | with_reducible (first | exact Alters.refl _ _ | apply Alters.ite | assumption | apply State.onFab_alters |
                            apply State.routeSel_alters)
    | exact Part.le_trans (by decide) hc
    | (refine (?_ : Part.le _ _ = true); decide)
    | intro _
    | with_reducible (first | rfl)
    | split
    | dsimp only
    | simp only [id_eq]
  )

theorem execRouteRead_alters {p : Path} {node : BitVec 16} {s : State} {t0} (e : execRouteRead p node s = .next t0) :
    Alters (Part.err ++ [Part.wbuf]) s t0 := by
  unfold execRouteRead at e
  try dsimp only at e
  repeat' split at e
  all_goals (injection e with e; subst e)
  all_goals try dsimp only
  repeat' (
    first
    | with_reducible (first | exact Alters.refl _ _ | apply Alters.ite | assumption | apply State.onWrite_alters |
                            apply State.routeRead_alters)
    | exact Alters.refl _ _
    | (refine (?_ : Part.le _ _ = true); decide)
    | intro _
    | with_reducible (first | rfl)
    | split
    | dsimp only
    | simp only [id_eq]
  )

theorem execRouteWrite_alters {p : Path} {node : BitVec 16} {s : State} {t0} (e : execRouteWrite p node s = .next t0)
    : Alters (Part.err ++ [Part.wbuf, Part.fab]) s t0 := by
  unfold execRouteWrite at e
  try dsimp only at e
  repeat' split at e
  all_goals (injection e with e; subst e)
  all_goals try dsimp only
  repeat' (
    first
    | with_reducible (first | exact Alters.refl _ _ | apply Alters.ite | assumption | apply State.onWrite_alters |
                            apply State.routeWrite_alters)
    | exact Alters.refl _ _
    | (refine (?_ : Part.le _ _ = true); decide)
    | intro _
    | with_reducible (first | rfl)
    | split
    | dsimp only
    | simp only [id_eq]
  )

end Sys2Proof.Machine
end

