-- ==== Sys2Proof/Laws/AltersMessage.lean ====
section
/-! SUPPORT. What each operation of Machine/Message.lean alters. -/

-- One closing tactic serves every lemma here; where a goal needs few of its steps the linters name the rest.
set_option linter.all false
set_option Elab.async false

namespace Sys2Proof.Machine

theorem State.ackMsg_alters {s : State} {f : Frame} {seq answer : Nat} {ch : List Part} {s0 : State} (h0 : Alters ch
    s0 s) (hc : Part.le [.cells, .fab, .out] ch = true) : Alters ch s0 (State.ackMsg s f seq answer) := by
  unfold State.ackMsg
  try dsimp only
  repeat' (
    first
    | with_reducible (first | exact Alters.refl _ _ | apply Alters.ite | assumption |
                          apply State.answer_alters | apply State.onFab_alters)
    | exact Part.le_trans (by decide) hc
    | (refine (?_ : Part.le _ _ = true); decide)
    | intro _
    | with_reducible (first | rfl)
    | split
    | dsimp only
    | simp only [id_eq]
  )

theorem State.noteMsg_alters {s : State} {node inc seq : Nat} {ch : List Part} {s0 : State} (h0 : Alters ch s0 s) (hc
    : Part.le [.fab] ch = true) : Alters ch s0 (State.noteMsg s node inc seq) := by
  unfold State.noteMsg
  try dsimp only
  repeat' (
    first
    | with_reducible (first | exact Alters.refl _ _ | apply Alters.ite | assumption |
                          apply State.onFab_alters)
    | exact Part.le_trans (by decide) hc
    | (refine (?_ : Part.le _ _ = true); decide)
    | intro _
    | with_reducible (first | rfl)
    | split
    | dsimp only
    | simp only [id_eq]
  )

theorem State.takeMsg_alters {s : State} {f : Frame} {inc seq : Nat} {act : State → State × Nat} {ch : List Part} {s0
    : State} (h0 : Alters ch s0 s) (hact : ∀ {z0} {u0}, Alters ch z0 u0 → Alters ch z0 (act u0).1) (hc : Part.le
    [.cells, .fab, .out] ch = true) : Alters ch s0 (State.takeMsg s f inc seq act) := by
  unfold State.takeMsg
  try dsimp only
  repeat' (
    first
    | with_reducible (first | exact Alters.refl _ _ | apply Alters.ite | assumption | apply hact |
                            apply State.ackMsg_alters | apply State.answer_alters | apply State.noteMsg_alters |
                            apply Alters.of_pair (by assumption))
    | exact Part.le_trans (by decide) hc
    | (refine (?_ : Part.le _ _ = true); decide)
    | intro _
    | with_reducible (first | rfl)
    | split
    | dsimp only
    | simp only [id_eq]
  )

theorem State.msgFrame_alters {s : State} {k : Nat} {f : Frame} {inc seq : Nat} {act : State → State × Nat} {ch : List
    Part} {s0 : State} (h0 : Alters ch s0 s) (hact : ∀ {z0} {u0}, Alters ch z0 u0 → Alters ch z0 (act u0).1) (hc :
    Part.le (Part.err ++ [Part.fab]) ch = true) : Alters ch s0 (State.msgFrame s k f inc seq act) := by
  unfold State.msgFrame
  try dsimp only
  repeat' (
    first
    | with_reducible (first | exact Alters.refl _ _ | apply Alters.ite | assumption | apply hact |
                            apply State.takeFrame_alters | apply State.takeMsg_alters |
                            apply Alters.of_pair (by assumption))
    | exact Part.le_trans (by decide) hc
    | (refine (?_ : Part.le _ _ = true); decide)
    | intro _
    | with_reducible (first | rfl)
    | split
    | dsimp only
    | simp only [id_eq]
  )

theorem plain_alters {g : State → State} {s : State} {ch : List Part} {s0 : State} (h0 : Alters ch s0 s) (hg : ∀ {z0}
    {u0}, Alters ch z0 u0 → Alters ch z0 (g u0)) (hc : Part.le [] ch = true) : Alters ch s0 (plain g s).1 := by
  unfold plain
  try dsimp only
  repeat' (
    first
    | with_reducible (first | exact Alters.refl _ _ | apply Alters.ite | assumption | apply hg)
    | exact Part.le_trans (by decide) hc
    | (refine (?_ : Part.le _ _ = true); decide)
    | intro _
    | with_reducible (first | rfl)
    | split
    | dsimp only
    | simp only [id_eq]
  )
theorem plain_altersP {g : State → State} {s : State} {t0 r0} (e_ : plain g s = (t0, r0)) {ch : List Part} {s0 :
    State} (h0 : Alters ch s0 s) (hg : ∀ {z0} {u0}, Alters ch z0 u0 → Alters ch z0 (g u0)) (hc : Part.le [] ch = true)
    : Alters ch s0 t0 := by
  have h := plain_alters (g := g) (s := s) h0 hg hc
  rw [e_] at h; exact h

theorem execStartRecord_alters {k : Fin 48} {f : Frame} {s : State} {t0} (e : execStartRecord k f s = .next t0) :
    Alters (Part.err ++ [Part.words, Part.tile, Part.memBytes, Part.mem, Part.queue, Part.sig, Part.nose, Part.coll,
    Part.fab, Part.power, Part.host]) s t0 := by
  unfold execStartRecord at e
  try dsimp only at e
  repeat' split at e
  all_goals (injection e with e; subst e)
  all_goals try dsimp only
  repeat' (
    first
    | with_reducible (first | exact Alters.refl _ _ | apply Alters.ite | assumption |
                          apply State.msgFrame_alters | apply State.startRecord_alters | apply plain_alters |
                          apply Alters.of_pair (by assumption))
    | exact Alters.refl _ _
    | (refine (?_ : Part.le _ _ = true); decide)
    | intro _
    | with_reducible (first | rfl)
    | split
    | dsimp only
    | simp only [id_eq]
  )

theorem execAbortNotice_alters {k : Fin 48} {f : Frame} {s : State} {t0} (e : execAbortNotice k f s = .next t0) :
    Alters (Part.err ++ [Part.queue, Part.sig, Part.nose, Part.coll, Part.fab]) s t0 := by
  unfold execAbortNotice at e
  try dsimp only at e
  repeat' split at e
  all_goals (injection e with e; subst e)
  all_goals try dsimp only
  repeat' (
    first
    | with_reducible (first | exact Alters.refl _ _ | apply Alters.ite | assumption | apply State.abortNotice_alters |
                            apply State.msgFrame_alters | apply plain_alters | apply Alters.of_pair (by assumption))
    | exact Alters.refl _ _
    | (refine (?_ : Part.le _ _ = true); decide)
    | intro _
    | with_reducible (first | rfl)
    | split
    | dsimp only
    | simp only [id_eq]
  )

theorem execVerdictClean_alters {k : Fin 48} {f : Frame} {s : State} {t0} (e : execVerdictClean k f s = .next t0) :
    Alters (Part.err ++ [Part.nose, Part.fab]) s t0 := by
  unfold execVerdictClean at e
  try dsimp only at e
  repeat' split at e
  all_goals (injection e with e; subst e)
  all_goals try dsimp only
  repeat' (
    first
    | with_reducible (first | exact Alters.refl _ _ | apply Alters.ite | assumption | apply State.msgFrame_alters |
                            apply State.verdictMsg_alters | apply plain_alters | apply Alters.of_pair (by assumption))
    | exact Alters.refl _ _
    | (refine (?_ : Part.le _ _ = true); decide)
    | intro _
    | with_reducible (first | rfl)
    | split
    | dsimp only
    | simp only [id_eq]
  )

theorem execRetraction_alters {k : Fin 48} {f : Frame} {s : State} {t0} (e : execRetraction k f s = .next t0) : Alters
    (Part.err ++ [Part.nose, Part.fab]) s t0 := by
  unfold execRetraction at e
  try dsimp only at e
  repeat' split at e
  all_goals (injection e with e; subst e)
  all_goals try dsimp only
  repeat' (
    first
    | with_reducible (first | exact Alters.refl _ _ | apply Alters.ite | assumption | apply State.msgFrame_alters |
                            apply State.verdictMsg_alters | apply plain_alters | apply Alters.of_pair (by assumption))
    | exact Alters.refl _ _
    | (refine (?_ : Part.le _ _ = true); decide)
    | intro _
    | with_reducible (first | rfl)
    | split
    | dsimp only
    | simp only [id_eq]
  )

theorem State.dropHeld_alters {s : State} {g : Nat} {ch : List Part} {s0 : State} (h0 : Alters ch s0 s) (hc : Part.le
    [.cells, .fab] ch = true) : Alters ch s0 (State.dropHeld s g) := by
  unfold State.dropHeld
  try dsimp only
  repeat' (
    first
    | with_reducible (first | exact Alters.refl _ _ | apply Alters.ite | assumption | apply State.movesSettled_alters |
                            apply State.onFab_alters | apply State.wr_alters)
    | exact Part.le_trans (by decide) hc
    | (refine (?_ : Part.le _ _ = true); decide)
    | intro _
    | with_reducible (first | rfl)
    | split
    | dsimp only
    | simp only [id_eq]
  )

theorem State.endHeld_alters {s : State} {g : Nat} {home : Bool} {ch : List Part} {s0 : State} (h0 : Alters ch s0 s)
    (hc : Part.le [.cells, .mem, .fab] ch = true) : Alters ch s0 (State.endHeld s g home) := by
  unfold State.endHeld
  try dsimp only
  repeat' (
    first
    | with_reducible (first | exact Alters.refl _ _ | apply Alters.ite | assumption | apply State.dropHeld_alters |
                            apply State.moveGran_alters)
    | exact Part.le_trans (by decide) hc
    | (refine (?_ : Part.le _ _ = true); decide)
    | intro _
    | with_reducible (first | rfl)
    | split
    | dsimp only
    | simp only [id_eq]
  )

theorem State.takeRelease_alters {s : State} {node src dst : Nat} {ch : List Part} {s0 : State} (h0 : Alters ch s0 s)
    (hc : Part.le [.cells, .mem, .fab] ch = true) : Alters ch s0 (State.takeRelease s node src dst).1 := by
  unfold State.takeRelease
  try dsimp only
  repeat' (
    first
    | with_reducible (first | exact Alters.refl _ _ | apply Alters.ite | assumption | apply State.endHeld_alters)
    | exact Part.le_trans (by decide) hc
    | (refine (?_ : Part.le _ _ = true); decide)
    | intro _
    | with_reducible (first | rfl)
    | split
    | dsimp only
    | simp only [id_eq]
  )
theorem State.takeRelease_altersP {s : State} {node src dst : Nat} {t0 r0} (e_ : State.takeRelease s node src dst =
    (t0, r0)) {ch : List Part} {s0 : State} (h0 : Alters ch s0 s) (hc : Part.le [.cells, .mem, .fab] ch = true) :
    Alters ch s0 t0 := by
  have h := State.takeRelease_alters (s := s) (node := node) (src := src) (dst := dst) h0  hc
  rw [e_] at h; exact h

theorem execMoveRelease_alters {k : Fin 48} {f : Frame} {s : State} {t0} (e : execMoveRelease k f s = .next t0) :
    Alters (Part.err ++ [Part.mem, Part.fab]) s t0 := by
  unfold execMoveRelease at e
  try dsimp only at e
  repeat' split at e
  all_goals (injection e with e; subst e)
  all_goals try dsimp only
  repeat' (
    first
    | with_reducible (first | exact Alters.refl _ _ | apply Alters.ite | assumption | apply State.msgFrame_alters |
                            apply State.takeRelease_alters | apply Alters.of_pair (by assumption))
    | exact Alters.refl _ _
    | (refine (?_ : Part.le _ _ = true); decide)
    | intro _
    | with_reducible (first | rfl)
    | split
    | dsimp only
    | simp only [id_eq]
  )

theorem State.takeQuery_alters {s : State} {node src dst : Nat} {ch : List Part} {s0 : State} (h0 : Alters ch s0 s)
    (hc : Part.le (Part.err ++ [Part.fab]) ch = true) : Alters ch s0 (State.takeQuery s node src dst) := by
  unfold State.takeQuery
  try dsimp only
  repeat' (
    first
    | with_reducible (first | exact Alters.refl _ _ | apply Alters.ite | assumption | apply State.sendMsg_alters)
    | exact Part.le_trans (by decide) hc
    | (refine (?_ : Part.le _ _ = true); decide)
    | intro _
    | with_reducible (first | rfl)
    | split
    | dsimp only
    | simp only [id_eq]
  )

theorem State.takeAnswer_alters {s : State} {node dst : Nat} {home : Bool} {ch : List Part} {s0 : State} (h0 : Alters
    ch s0 s) (hc : Part.le [.cells, .mem, .fab] ch = true) : Alters ch s0 (State.takeAnswer s node dst home) := by
  unfold State.takeAnswer
  try dsimp only
  repeat' (
    first
    | with_reducible (first | exact Alters.refl _ _ | apply Alters.ite | assumption | apply State.endHeld_alters)
    | exact Part.le_trans (by decide) hc
    | (refine (?_ : Part.le _ _ = true); decide)
    | intro _
    | with_reducible (first | rfl)
    | split
    | dsimp only
    | simp only [id_eq]
  )

theorem execReleaseQuery_alters {k : Fin 48} {f : Frame} {s : State} {t0} (e : execReleaseQuery k f s = .next t0) :
    Alters (Part.err ++ [Part.mem, Part.fab]) s t0 := by
  unfold execReleaseQuery at e
  try dsimp only at e
  repeat' split at e
  all_goals (injection e with e; subst e)
  all_goals try dsimp only
  repeat' (
    first
    | with_reducible (first | exact Alters.refl _ _ | apply Alters.ite | assumption | apply State.msgFrame_alters |
                            apply State.takeAnswer_alters | apply State.takeQuery_alters | apply plain_alters |
                            apply Alters.of_pair (by assumption))
    | exact Alters.refl _ _
    | (refine (?_ : Part.le _ _ = true); decide)
    | intro _
    | with_reducible (first | rfl)
    | split
    | dsimp only
    | simp only [id_eq]
  )

theorem State.moveLost_alters {s : State} {ch : List Part} {s0 : State} (h0 : Alters ch s0 s) (hc : Part.le Part.err
    ch = true) : Alters ch s0 (State.moveLost s) := by
  unfold State.moveLost
  try dsimp only
  repeat' (
    first
    | with_reducible (first | exact Alters.refl _ _ | apply Alters.ite | assumption | apply State.bump_alters |
                            apply State.irq_alters | apply State.raise_alters)
    | exact Part.le_trans (by decide) hc
    | (refine (?_ : Part.le _ _ = true); decide)
    | intro _
    | with_reducible (first | rfl)
    | split
    | dsimp only
    | simp only [id_eq]
  )

theorem State.endRelease_alters {s : State} {node from_ src dst : Nat} {lost : Bool} {ch : List Part} {s0 : State} (h0
    : Alters ch s0 s) (hc : Part.le (Part.err ++ [Part.queue]) ch = true) : Alters ch s0 (State.endRelease s node
    from_ src dst lost) := by
  unfold State.endRelease
  try dsimp only
  repeat' (
    first
    | with_reducible (first | exact Alters.refl _ _ | apply Alters.ite | assumption |
                          apply State.moveLost_alters | apply State.movesSettled_alters | apply State.onIsland_alters |
                          apply State.pieceDone_alters | apply State.when_alters | apply State.wr_alters)
    | exact Part.le_trans (by decide) hc
    | (refine (?_ : Part.le _ _ = true); decide)
    | intro _
    | with_reducible (first | rfl)
    | split
    | dsimp only
    | simp only [id_eq]
  )

theorem State.left_alters {s : State} {node : Nat} {ch : List Part} {s0 : State} (h0 : Alters ch s0 s) (hc : Part.le
    [.cells] ch = true) : Alters ch s0 (State.left s node) := by
  unfold State.left
  try dsimp only
  repeat' (
    first
    | with_reducible (first | exact Alters.refl _ _ | apply Alters.ite | assumption | apply State.wr_alters)
    | exact Part.le_trans (by decide) hc
    | (refine (?_ : Part.le _ _ = true); decide)
    | intro _
    | with_reducible (first | rfl)
    | split
    | dsimp only
    | simp only [id_eq]
  )

theorem State.takeMsgAck_alters {s : State} {node seq answer : Nat} {ch : List Part} {s0 : State} (h0 : Alters ch s0
    s) (hc : Part.le (Part.err ++ [Part.queue, Part.fab]) ch = true) : Alters ch s0 (State.takeMsgAck s node seq answer) := by
  unfold State.takeMsgAck
  try dsimp only
  repeat' (
    first
    | with_reducible (first | exact Alters.refl _ _ | apply Alters.ite | assumption | apply State.endRelease_alters |
                            apply State.left_alters | apply State.onFab_alters | apply State.pumpMsgs_alters)
    | exact Part.le_trans (by decide) hc
    | (refine (?_ : Part.le _ _ = true); decide)
    | intro _
    | with_reducible (first | rfl)
    | split
    | dsimp only
    | simp only [id_eq]
  )

theorem execMsgAck_alters {k : Fin 48} {f : Frame} {s : State} {t0} (e : execMsgAck k f s = .next t0) : Alters
    (Part.err ++ [Part.queue, Part.fab]) s t0 := by
  unfold execMsgAck at e
  try dsimp only at e
  repeat' split at e
  all_goals (injection e with e; subst e)
  all_goals try dsimp only
  repeat' (
    first
    | with_reducible (first | exact Alters.refl _ _ | apply Alters.ite | assumption | apply State.takeFrame_alters |
                            apply State.takeMsgAck_alters)
    | exact Alters.refl _ _
    | (refine (?_ : Part.le _ _ = true); decide)
    | intro _
    | with_reducible (first | rfl)
    | split
    | dsimp only
    | simp only [id_eq]
  )

theorem execMsgResend_alters {node : BitVec 16} {seq : Nat} {s : State} {t0} (e : execMsgResend node seq s = .next t0)
    : Alters [.cells, .fab, .out] s t0 := by
  unfold execMsgResend at e
  try dsimp only at e
  repeat' split at e
  all_goals (injection e with e; subst e)
  all_goals try dsimp only
  repeat' (
    first
    | with_reducible (first | exact Alters.refl _ _ | apply Alters.ite | assumption | apply State.bump_alters |
                            apply State.onFab_alters | apply State.putMsg_alters)
    | exact Alters.refl _ _
    | (refine (?_ : Part.le _ _ = true); decide)
    | intro _
    | with_reducible (first | rfl)
    | split
    | dsimp only
    | simp only [id_eq]
  )

theorem State.joinFrame_alters {s : State} {k : Nat} {m : Message} {ch : List Part} {s0 : State} (h0 : Alters ch s0 s)
    (hc : Part.le [.cells, .fab, .out] ch = true) : Alters ch s0 (State.joinFrame s k m) := by
  unfold State.joinFrame
  try dsimp only
  repeat' (
    first
    | with_reducible (first | exact Alters.refl _ _ | apply Alters.ite | assumption | apply State.queueFrame_alters)
    | exact Part.le_trans (by decide) hc
    | (refine (?_ : Part.le _ _ = true); decide)
    | intro _
    | with_reducible (first | rfl)
    | split
    | dsimp only
    | simp only [id_eq]
  )

theorem State.join_alters {s : State} {ch : List Part} {s0 : State} (h0 : Alters ch s0 s) (hc : Part.le [.cells, .fab,
    .out] ch = true) : Alters ch s0 (State.join s) := by
  unfold State.join
  try dsimp only
  repeat' (
    first
    | with_reducible (first | exact Alters.refl _ _ | apply Alters.ite | assumption | apply Alters.foldl |
                            apply State.joinFrame_alters | apply State.wr_alters | apply Alters.foldl1)
    | exact Part.le_trans (by decide) hc
    | (refine (?_ : Part.le _ _ = true); decide)
    | intro _
    | with_reducible (first | rfl)
    | split
    | dsimp only
    | simp only [id_eq]
  )

theorem execJoin_alters {p : Path} {req : BitVec 16} {reqValid : Bool} {s : State} {t0} (e : execJoin p req reqValid s
    = .next t0) : Alters (Part.err ++ [Part.wbuf, Part.fab]) s t0 := by
  unfold execJoin at e
  try dsimp only at e
  repeat' split at e
  all_goals (injection e with e; subst e)
  all_goals try dsimp only
  repeat' (
    first
    | with_reducible (first | exact Alters.refl _ _ | apply Alters.ite | assumption | apply State.flag_alters |
                            apply State.join_alters | apply State.onWrite_alters | apply State.wr_alters)
    | exact Alters.refl _ _
    | (refine (?_ : Part.le _ _ = true); decide)
    | intro _
    | with_reducible (first | rfl)
    | split
    | dsimp only
    | simp only [id_eq]
  )

theorem execJoinMessage_alters {k : Fin 48} {f : Frame} {s : State} {t0} (e : execJoinMessage k f s = .next t0) :
    Alters (Part.err ++ [Part.fab]) s t0 := by
  unfold execJoinMessage at e
  try dsimp only at e
  repeat' split at e
  all_goals (injection e with e; subst e)
  all_goals try dsimp only
  repeat' (
    first
    | with_reducible (first | exact Alters.refl _ _ | apply Alters.ite | assumption | apply State.msgFrame_alters |
                            apply State.sendMsg_alters | apply State.takeFrame_alters | apply plain_alters |
                            apply Alters.of_pair (by assumption))
    | exact Alters.refl _ _
    | (refine (?_ : Part.le _ _ = true); decide)
    | intro _
    | with_reducible (first | rfl)
    | split
    | dsimp only
    | simp only [id_eq]
  )

theorem State.afterJoin_alters {s : State} {ch : List Part} {s0 : State} (h0 : Alters ch s0 s) (hc : Part.le (Part.err
    ++ [Part.fab]) ch = true) : Alters ch s0 (State.afterJoin s) := by
  unfold State.afterJoin
  try dsimp only
  repeat' (
    first
    | with_reducible (first | exact Alters.refl _ _ | apply Alters.ite | assumption | apply Alters.foldl |
                            apply State.linksSettled_alters | apply State.onLedger_alters | apply State.sendMsg_alters |
                            apply State.sendQuery_alters | apply State.wr_alters | apply Alters.foldl1)
    | exact Part.le_trans (by decide) hc
    | (refine (?_ : Part.le _ _ = true); decide)
    | intro _
    | with_reducible (first | rfl)
    | split
    | dsimp only
    | simp only [id_eq]
  )

theorem State.renumber_alters {s : State} {ch : List Part} {s0 : State} (h0 : Alters ch s0 s) (hc : Part.le [.cells,
    .fab, .out] ch = true) : Alters ch s0 (State.renumber s) := by
  unfold State.renumber
  try dsimp only
  repeat' (
    first
    | with_reducible (first | exact Alters.refl _ _ | apply Alters.ite | assumption |
                          apply Alters.foldl | apply State.onFab_alters | apply State.pumpMsgs_alters |
                          apply Alters.foldl1)
    | exact Part.le_trans (by decide) hc
    | (refine (?_ : Part.le _ _ = true); decide)
    | intro _
    | with_reducible (first | rfl)
    | split
    | dsimp only
    | simp only [id_eq]
  )

theorem State.joinAccept_alters {s : State} {node inc : Nat} {ch : List Part} {s0 : State} (h0 : Alters ch s0 s) (hc :
    Part.le (Part.err ++ [Part.fab]) ch = true) : Alters ch s0 (State.joinAccept s node inc) := by
  unfold State.joinAccept
  try dsimp only
  repeat' (
    first
    | with_reducible (first | exact Alters.refl _ _ | apply Alters.ite | assumption |
                          apply State.afterJoin_alters | apply State.renumber_alters | apply State.wr_alters)
    | exact Part.le_trans (by decide) hc
    | (refine (?_ : Part.le _ _ = true); decide)
    | intro _
    | with_reducible (first | rfl)
    | split
    | dsimp only
    | simp only [id_eq]
  )

theorem execJoinAccept_alters {k : Fin 48} {f : Frame} {s : State} {t0} (e : execJoinAccept k f s = .next t0) : Alters
    (Part.err ++ [Part.fab]) s t0 := by
  unfold execJoinAccept at e
  try dsimp only at e
  repeat' split at e
  all_goals (injection e with e; subst e)
  all_goals try dsimp only
  repeat' (
    first
    | with_reducible (first | exact Alters.refl _ _ | apply Alters.ite | assumption | apply State.joinAccept_alters |
                            apply State.joinFrame_alters | apply State.msgFrame_alters | apply State.takeFrame_alters |
                            apply plain_alters | apply Alters.of_pair (by assumption))
    | exact Alters.refl _ _
    | (refine (?_ : Part.le _ _ = true); decide)
    | intro _
    | with_reducible (first | rfl)
    | split
    | dsimp only
    | simp only [id_eq]
  )

theorem State.joinRefuse_alters {s : State} {reason : Nat} {ch : List Part} {s0 : State} (h0 : Alters ch s0 s) (hc :
    Part.le Part.err ch = true) : Alters ch s0 (State.joinRefuse s reason) := by
  unfold State.joinRefuse
  try dsimp only
  repeat' (
    first
    | with_reducible (first | exact Alters.refl _ _ | apply Alters.ite | assumption | apply State.raise_alters |
                            apply State.wr_alters)
    | exact Part.le_trans (by decide) hc
    | (refine (?_ : Part.le _ _ = true); decide)
    | intro _
    | with_reducible (first | rfl)
    | split
    | dsimp only
    | simp only [id_eq]
  )

theorem execJoinRefuse_alters {k : Fin 48} {f : Frame} {s : State} {t0} (e : execJoinRefuse k f s = .next t0) : Alters
    (Part.err ++ [Part.fab]) s t0 := by
  unfold execJoinRefuse at e
  try dsimp only at e
  repeat' split at e
  all_goals (injection e with e; subst e)
  all_goals try dsimp only
  repeat' (
    first
    | with_reducible (first | exact Alters.refl _ _ | apply Alters.ite | assumption | apply State.joinFrame_alters |
                            apply State.joinRefuse_alters | apply State.msgFrame_alters | apply State.takeFrame_alters |
                            apply plain_alters | apply Alters.of_pair (by assumption))
    | exact Alters.refl _ _
    | (refine (?_ : Part.le _ _ = true); decide)
    | intro _
    | with_reducible (first | rfl)
    | split
    | dsimp only
    | simp only [id_eq]
  )

theorem State.leave_alters {s : State} {ch : List Part} {s0 : State} (h0 : Alters ch s0 s) (hc : Part.le (Part.err ++
    [Part.fab]) ch = true) : Alters ch s0 (State.leave s) := by
  unfold State.leave
  try dsimp only
  repeat' (
    first
    | with_reducible (first | exact Alters.refl _ _ | apply Alters.ite | assumption | apply Alters.foldl |
                            apply State.sendMsg_alters | apply State.wr_alters | apply Alters.foldl1)
    | exact Part.le_trans (by decide) hc
    | (refine (?_ : Part.le _ _ = true); decide)
    | intro _
    | with_reducible (first | rfl)
    | split
    | dsimp only
    | simp only [id_eq]
  )

theorem execLeave_alters {p : Path} {s : State} {t0} (e : execLeave p s = .next t0) : Alters (Part.err ++ [Part.wbuf,
    Part.fab]) s t0 := by
  unfold execLeave at e
  try dsimp only at e
  repeat' split at e
  all_goals (injection e with e; subst e)
  all_goals try dsimp only
  repeat' (
    first
    | with_reducible (first | exact Alters.refl _ _ | apply Alters.ite | assumption | apply State.leave_alters |
                            apply State.onWrite_alters)
    | exact Alters.refl _ _
    | (refine (?_ : Part.le _ _ = true); decide)
    | intro _
    | with_reducible (first | rfl)
    | split
    | dsimp only
    | simp only [id_eq]
  )

theorem State.nodeLeft_alters {s : State} {node : Nat} {ch : List Part} {s0 : State} (h0 : Alters ch s0 s) (hc :
    Part.le (Part.err ++ [Part.tile, Part.mem, Part.stream, Part.queue, Part.sig, Part.nose, Part.coll, Part.fab,
    Part.power, Part.host]) ch = true) : Alters ch s0 (State.nodeLeft s node) := by
  unfold State.nodeLeft
  try dsimp only
  repeat' (
    first
    | with_reducible (first | exact Alters.refl _ _ | apply Alters.ite | assumption |
                          apply Alters.foldl | apply State.bump_alters | apply State.endTxn_alters |
                          apply State.leaveColl_alters | apply State.onFab_alters | apply Alters.foldl1)
    | exact Part.le_trans (by decide) hc
    | (refine (?_ : Part.le _ _ = true); decide)
    | intro _
    | with_reducible (first | rfl)
    | split
    | dsimp only
    | simp only [id_eq]
  )

theorem execLeaveReceived_alters {k : Fin 48} {f : Frame} {s : State} {t0} (e : execLeaveReceived k f s = .next t0) :
    Alters (Part.err ++ [Part.tile, Part.mem, Part.stream, Part.queue, Part.sig, Part.nose, Part.coll, Part.fab,
    Part.power, Part.host]) s t0 := by
  unfold execLeaveReceived at e
  try dsimp only at e
  repeat' split at e
  all_goals (injection e with e; subst e)
  all_goals try dsimp only
  repeat' (
    first
    | with_reducible (first | exact Alters.refl _ _ | apply Alters.ite | assumption |
                          apply State.msgFrame_alters | apply State.nodeLeft_alters | apply plain_alters |
                          apply Alters.of_pair (by assumption))
    | exact Alters.refl _ _
    | (refine (?_ : Part.le _ _ = true); decide)
    | intro _
    | with_reducible (first | rfl)
    | split
    | dsimp only
    | simp only [id_eq]
  )

theorem execLedgerQuery_alters {k : Fin 48} {f : Frame} {s : State} {t0} (e : execLedgerQuery k f s = .next t0) :
    Alters (Part.err ++ [Part.fab]) s t0 := by
  unfold execLedgerQuery at e
  try dsimp only at e
  repeat' split at e
  all_goals (injection e with e; subst e)
  all_goals try dsimp only
  repeat' (
    first
    | with_reducible (first | exact Alters.refl _ _ | apply Alters.ite | assumption | apply State.msgFrame_alters |
                            apply State.sendMsg_alters | apply plain_alters | apply Alters.of_pair (by assumption))
    | exact Alters.refl _ _
    | (refine (?_ : Part.le _ _ = true); decide)
    | intro _
    | with_reducible (first | rfl)
    | split
    | dsimp only
    | simp only [id_eq]
  )

theorem State.ledgerReply_alters {s : State} {l received : Nat} {ch : List Part} {s0 : State} (h0 : Alters ch s0 s)
    (hc : Part.le Part.err ch = true) : Alters ch s0 (State.ledgerReply s l received) := by
  unfold State.ledgerReply
  try dsimp only
  repeat' (
    first
    | with_reducible (first | exact Alters.refl _ _ | apply Alters.ite | assumption | apply State.linksSettled_alters |
                            apply State.onLedger_alters | apply State.raise_alters)
    | exact Part.le_trans (by decide) hc
    | (refine (?_ : Part.le _ _ = true); decide)
    | intro _
    | with_reducible (first | rfl)
    | split
    | dsimp only
    | simp only [id_eq]
  )

theorem execLedgerReply_alters {k : Fin 48} {f : Frame} {s : State} {t0} (e : execLedgerReply k f s = .next t0) :
    Alters (Part.err ++ [Part.fab]) s t0 := by
  unfold execLedgerReply at e
  try dsimp only at e
  repeat' split at e
  all_goals (injection e with e; subst e)
  all_goals try dsimp only
  repeat' (
    first
    | with_reducible (first | exact Alters.refl _ _ | apply Alters.ite | assumption | apply State.ledgerReply_alters |
                            apply State.msgFrame_alters | apply plain_alters | apply Alters.of_pair (by assumption))
    | exact Alters.refl _ _
    | (refine (?_ : Part.le _ _ = true); decide)
    | intro _
    | with_reducible (first | rfl)
    | split
    | dsimp only
    | simp only [id_eq]
  )

theorem State.noteBcast_alters {s : State} {b : Bcast} {ch : List Part} {s0 : State} (h0 : Alters ch s0 s) (hc :
    Part.le [.fab] ch = true) : Alters ch s0 (State.noteBcast s b) := by
  unfold State.noteBcast
  try dsimp only
  repeat' (
    first
    | with_reducible (first | exact Alters.refl _ _ | apply Alters.ite | assumption | apply State.onFab_alters)
    | exact Part.le_trans (by decide) hc
    | (refine (?_ : Part.le _ _ = true); decide)
    | intro _
    | with_reducible (first | rfl)
    | split
    | dsimp only
    | simp only [id_eq]
  )

theorem State.flood_alters {s : State} {f : Frame} {but : Option Nat} {ch : List Part} {s0 : State} (h0 : Alters ch s0
    s) (hc : Part.le [.cells, .fab, .out] ch = true) : Alters ch s0 (State.flood s f but) := by
  unfold State.flood
  try dsimp only
  repeat' (
    first
    | with_reducible (first | exact Alters.refl _ _ | apply Alters.ite | assumption | apply Alters.foldl |
                            apply State.queueFrame_alters | apply Alters.foldl1)
    | exact Part.le_trans (by decide) hc
    | (refine (?_ : Part.le _ _ = true); decide)
    | intro _
    | with_reducible (first | rfl)
    | split
    | dsimp only
    | simp only [id_eq]
  )

theorem State.bcastSnap_alters {s : State} {b : Bcast} {ch : List Part} {s0 : State} (h0 : Alters ch s0 s) (hc :
    Part.le Part.err ch = true) : Alters ch s0 (State.bcastSnap s b) := by
  unfold State.bcastSnap
  try dsimp only
  repeat' (
    first
    | with_reducible (first | exact Alters.refl _ _ | apply Alters.ite | assumption |
                          apply State.bump_alters | apply State.loadFabricSnap_alters)
    | exact Part.le_trans (by decide) hc
    | (refine (?_ : Part.le _ _ = true); decide)
    | intro _
    | with_reducible (first | rfl)
    | split
    | dsimp only
    | simp only [id_eq]
  )

theorem State.bcastApply_alters {s : State} {b : Bcast} {ch : List Part} {s0 : State} (h0 : Alters ch s0 s) (hc :
    Part.le (Part.err ++ [Part.clk, Part.power]) ch = true) : Alters ch s0 (State.bcastApply s b) := by
  unfold State.bcastApply
  try dsimp only
  repeat' (
    first
    | with_reducible (first | exact Alters.refl _ _ | apply Alters.ite | assumption |
                          apply State.daxvoShed_alters | apply State.emergGo_alters)
    | exact Part.le_trans (by decide) hc
    | (refine (?_ : Part.le _ _ = true); decide)
    | intro _
    | with_reducible (first | rfl)
    | split
    | dsimp only
    | simp only [id_eq]
  )

theorem State.bcastEmerg_alters {s : State} {b : Bcast} {ch : List Part} {s0 : State} (h0 : Alters ch s0 s) (hc :
    Part.le (Part.err ++ [Part.clk, Part.power]) ch = true) : Alters ch s0 (State.bcastEmerg s b) := by
  unfold State.bcastEmerg
  try dsimp only
  repeat' (
    first
    | with_reducible (first | exact Alters.refl _ _ | apply Alters.ite | assumption |
                          apply State.bcastApply_alters | apply State.bump_alters | apply State.raise_alters)
    | exact Part.le_trans (by decide) hc
    | (refine (?_ : Part.le _ _ = true); decide)
    | intro _
    | with_reducible (first | rfl)
    | split
    | dsimp only
    | simp only [id_eq]
  )

theorem State.takeBcast_alters {s : State} {k : Nat} {f : Frame} {b : Bcast} {act : State → State} {ch : List Part}
    {s0 : State} (h0 : Alters ch s0 s) (hact : ∀ {z0} {u0}, Alters ch z0 u0 → Alters ch z0 (act u0)) (hc : Part.le
    (Part.err ++ [Part.fab]) ch = true) : Alters ch s0 (State.takeBcast s k f b act) := by
  unfold State.takeBcast
  try dsimp only
  repeat' (
    first
    | with_reducible (first | exact Alters.refl _ _ | apply Alters.ite | assumption | apply hact |
                            apply State.bump_alters | apply State.flood_alters | apply State.noteBcast_alters |
                            apply State.takeFrame_alters)
    | exact Part.le_trans (by decide) hc
    | (refine (?_ : Part.le _ _ = true); decide)
    | intro _
    | with_reducible (first | rfl)
    | split
    | dsimp only
    | simp only [id_eq]
  )

theorem execSnapshotBroadcast_alters {k : Fin 48} {f : Frame} {s : State} {t0} (e : execSnapshotBroadcast k f s =
    .next t0) : Alters (Part.err ++ [Part.fab]) s t0 := by
  unfold execSnapshotBroadcast at e
  try dsimp only at e
  repeat' split at e
  all_goals (injection e with e; subst e)
  all_goals try dsimp only
  repeat' (
    first
    | with_reducible (first | exact Alters.refl _ _ | apply Alters.ite | assumption |
                          apply State.bcastSnap_alters | apply State.takeBcast_alters)
    | exact Alters.refl _ _
    | (refine (?_ : Part.le _ _ = true); decide)
    | intro _
    | with_reducible (first | rfl)
    | split
    | dsimp only
    | simp only [id_eq]
  )

theorem execEmergencyBroadcast_alters {k : Fin 48} {f : Frame} {s : State} {t0} (e : execEmergencyBroadcast k f s =
    .next t0) : Alters (Part.err ++ [Part.clk, Part.fab, Part.power]) s t0 := by
  unfold execEmergencyBroadcast at e
  try dsimp only at e
  repeat' split at e
  all_goals (injection e with e; subst e)
  all_goals try dsimp only
  repeat' (
    first
    | with_reducible (first | exact Alters.refl _ _ | apply Alters.ite | assumption |
                          apply State.bcastEmerg_alters | apply State.takeBcast_alters)
    | exact Alters.refl _ _
    | (refine (?_ : Part.le _ _ = true); decide)
    | intro _
    | with_reducible (first | rfl)
    | split
    | dsimp only
    | simp only [id_eq]
  )

theorem State.originate_alters {s : State} {kind tick frac op : Nat} {ch : List Part} {s0 : State} (h0 : Alters ch s0
    s) (hc : Part.le [.cells, .fab, .out] ch = true) : Alters ch s0 (State.originate s kind tick frac op) := by
  unfold State.originate
  try dsimp only
  repeat' (
    first
    | with_reducible (first | exact Alters.refl _ _ | apply Alters.ite | assumption | apply State.flood_alters |
                            apply State.noteBcast_alters | apply State.onFab_alters)
    | exact Part.le_trans (by decide) hc
    | (refine (?_ : Part.le _ _ = true); decide)
    | intro _
    | with_reducible (first | rfl)
    | split
    | dsimp only
    | simp only [id_eq]
  )

theorem State.sendSnapBcast_alters {s : State} {tick : Nat} {ch : List Part} {s0 : State} (h0 : Alters ch s0 s) (hc :
    Part.le (Part.err ++ [Part.fab]) ch = true) : Alters ch s0 (State.sendSnapBcast s tick) := by
  unfold State.sendSnapBcast
  try dsimp only
  repeat' (
    first
    | with_reducible (first | exact Alters.refl _ _ | apply Alters.ite | assumption |
                          apply State.bcastSnap_alters | apply State.originate_alters)
    | exact Part.le_trans (by decide) hc
    | (refine (?_ : Part.le _ _ = true); decide)
    | intro _
    | with_reducible (first | rfl)
    | split
    | dsimp only
    | simp only [id_eq]
  )

theorem execBcastSnapshot_alters {p : Path} {s : State} {t0} (e : execBcastSnapshot p s = .next t0) : Alters (Part.err
    ++ [Part.wbuf, Part.fab]) s t0 := by
  unfold execBcastSnapshot at e
  try dsimp only at e
  repeat' split at e
  all_goals (injection e with e; subst e)
  all_goals try dsimp only
  repeat' (
    first
    | with_reducible (first | exact Alters.refl _ _ | apply Alters.ite | assumption |
                          apply State.onWrite_alters | apply State.sendSnapBcast_alters | apply State.wr_alters)
    | exact Alters.refl _ _
    | (refine (?_ : Part.le _ _ = true); decide)
    | intro _
    | with_reducible (first | rfl)
    | split
    | dsimp only
    | simp only [id_eq]
  )

theorem State.sendEmerg_alters {s : State} {ch : List Part} {s0 : State} (h0 : Alters ch s0 s) (hc : Part.le (Part.err
    ++ [Part.clk, Part.fab, Part.power]) ch = true) : Alters ch s0 (State.sendEmerg s) := by
  unfold State.sendEmerg
  try dsimp only
  repeat' (
    first
    | with_reducible (first | exact Alters.refl _ _ | apply Alters.ite | assumption |
                          apply State.bcastApply_alters | apply State.originate_alters)
    | exact Part.le_trans (by decide) hc
    | (refine (?_ : Part.le _ _ = true); decide)
    | intro _
    | with_reducible (first | rfl)
    | split
    | dsimp only
    | simp only [id_eq]
  )

theorem execBcastEmergency_alters {p : Path} {frac : BitVec 5} {op : BitVec 2} {s : State} {t0} (e :
    execBcastEmergency p frac op s = .next t0) : Alters (Part.err ++ [Part.wbuf, Part.clk, Part.fab, Part.power]) s t0
    := by
  unfold execBcastEmergency at e
  try dsimp only at e
  repeat' split at e
  all_goals (injection e with e; subst e)
  all_goals try dsimp only
  repeat' (
    first
    | with_reducible (first | exact Alters.refl _ _ | apply Alters.ite | assumption |
                          apply State.onWrite_alters | apply State.sendEmerg_alters | apply State.wr_alters)
    | exact Alters.refl _ _
    | (refine (?_ : Part.le _ _ = true); decide)
    | intro _
    | with_reducible (first | rfl)
    | split
    | dsimp only
    | simp only [id_eq]
  )

theorem execSnapFabricSend_alters {q : Fin 64} {s : State} {t0} (e : execSnapFabricSend q s = .next t0) : Alters
    (Part.err ++ [Part.queue, Part.sig, Part.nose, Part.fab, Part.host]) s t0 := by
  unfold execSnapFabricSend at e
  try dsimp only at e
  repeat' split at e
  all_goals (injection e with e; subst e)
  all_goals try dsimp only
  repeat' (
    first
    | with_reducible (first | exact Alters.refl _ _ | apply Alters.ite | assumption |
                          apply State.faultHead_alters | apply State.issueDone_alters | apply State.issueHead_alters |
                          apply State.sendSnapBcast_alters | apply Alters.ofChecked)
    | exact Alters.refl _ _
    | (refine (?_ : Part.le _ _ = true); decide)
    | intro _
    | with_reducible (first | rfl)
    | split
    | dsimp only
    | simp only [id_eq]
  )

end Sys2Proof.Machine
end

