-- ==== Sys2Proof/Laws/AltersFlacon.lean ====
section
/-! SUPPORT. What each operation of Machine/Flacon.lean alters. -/

-- One closing tactic serves every lemma here; where a goal needs few of its steps the linters name the rest.
set_option linter.all false
set_option Elab.async false

namespace Sys2Proof.Machine

theorem State.tagPut_alters {s : State} {a : Nat} {bs : List Byte} {ch : List Part} {s0 : State} (h0 : Alters ch s0 s)
    (hc : Part.le [.tagBytes, .tag] ch = true) : Alters ch s0 (State.tagPut s a bs) := by
  unfold State.tagPut
  try dsimp only
  repeat' (
    first
    | with_reducible (first | exact Alters.refl _ _ | apply Alters.ite | assumption | apply State.onTag_alters)
    | exact Part.le_trans (by decide) hc
    | (refine (?_ : Part.le _ _ = true); decide)
    | intro _
    | with_reducible (first | rfl)
    | split
    | dsimp only
    | simp only [id_eq]
  )

theorem State.tagCommit_alters {s : State} {r : TagRec} {ch : List Part} {s0 : State} (h0 : Alters ch s0 s) (hc :
    Part.le [.cells, .tagBytes, .tag] ch = true) : Alters ch s0 (State.tagCommit s r) := by
  unfold State.tagCommit
  try dsimp only
  repeat' (
    first
    | with_reducible (first | exact Alters.refl _ _ | apply Alters.ite | assumption | apply State.bump_alters |
                            apply State.tagPut_alters | apply State.wr_alters)
    | exact Part.le_trans (by decide) hc
    | (refine (?_ : Part.le _ _ = true); decide)
    | intro _
    | with_reducible (first | rfl)
    | split
    | dsimp only
    | simp only [id_eq]
  )

theorem State.tagSpoil_alters {s : State} {r : TagRec} {ch : List Part} {s0 : State} (h0 : Alters ch s0 s) (hc :
    Part.le [.free, .tagBytes, .tag] ch = true) : Alters ch s0 (State.tagSpoil s r) := by
  unfold State.tagSpoil
  try dsimp only
  repeat' (
    first
    | with_reducible (first | exact Alters.refl _ _ | apply Alters.ite | assumption | apply State.openBytes_alters |
                            apply State.tagPut_alters | apply Alters.of_pair2 (by assumption) |
                            apply Alters.of_pair (by assumption))
    | exact Part.le_trans (by decide) hc
    | (refine (?_ : Part.le _ _ = true); decide)
    | intro _
    | with_reducible (first | rfl)
    | split
    | dsimp only
    | simp only [id_eq]
  )

theorem State.popTag_alters {s : State} {ch : List Part} {s0 : State} (h0 : Alters ch s0 s) (hc : Part.le [.cells,
    .tag] ch = true) : Alters ch s0 (State.popTag s) := by
  unfold State.popTag
  try dsimp only
  repeat' (
    first
    | with_reducible (first | exact Alters.refl _ _ | apply Alters.ite | assumption | apply State.onTag_altersR |
                            apply State.showTag_alters)
    | exact Part.le_trans (by decide) hc
    | (refine (?_ : Part.le _ _ = true); decide)
    | intro _
    | with_reducible (first | rfl)
    | split
    | dsimp only
    | simp only [id_eq]
    | with_reducible (first | apply Alters.upd_queue)
  )

theorem State.lastRecordDone_alters {s : State} {area : Nat} {ch : List Part} {s0 : State} (h0 : Alters ch s0 s) (hc :
    Part.le [.cells] ch = true) : Alters ch s0 (State.lastRecordDone s area) := by
  unfold State.lastRecordDone
  try dsimp only
  repeat' (
    first
    | with_reducible (first | exact Alters.refl _ _ | apply Alters.ite | assumption | apply State.wr_alters)
    | exact Part.le_trans (by decide) hc
    | (refine (?_ : Part.le _ _ = true); decide)
    | intro _
    | with_reducible (first | rfl)
    | split
    | dsimp only
    | simp only [id_eq]
  )

theorem execTagCommitDone_alters {ok : Bool} {s : State} {t0} (e : execTagCommitDone ok s = .next t0) : Alters
    (Part.err ++ [Part.tagBytes]) s t0 := by
  unfold execTagCommitDone at e
  try dsimp only at e
  repeat' split at e
  all_goals (injection e with e; subst e)
  all_goals try dsimp only
  repeat' (
    first
    | with_reducible (first | exact Alters.refl _ _ | apply Alters.ite | assumption | apply State.bump_alters |
                            apply State.irq_alters | apply State.lastRecordDone_alters | apply State.onTag_altersR |
                            apply State.popTag_alters | apply State.raise_alters | apply State.tagCommit_alters |
                            apply State.tagSpoil_alters | apply State.wr_alters)
    | exact Alters.refl _ _
    | (refine (?_ : Part.le _ _ = true); decide)
    | intro _
    | with_reducible (first | rfl)
    | split
    | dsimp only
    | simp only [id_eq]
    | with_reducible (first | apply Alters.upd_queue)
  )

theorem State.tagRd_alters {s : State} {byte : Nat} {ch : List Part} {s0 : State} (h0 : Alters ch s0 s) (hc : Part.le
    [.cells] ch = true) : Alters ch s0 (State.tagRd s byte) := by
  unfold State.tagRd
  try dsimp only
  repeat' (
    first
    | with_reducible (first | exact Alters.refl _ _ | apply Alters.ite | assumption | apply Alters.foldl |
                            apply State.bump_alters | apply State.wr_alters | apply Alters.foldl1)
    | exact Part.le_trans (by decide) hc
    | (refine (?_ : Part.le _ _ = true); decide)
    | intro _
    | with_reducible (first | rfl)
    | split
    | dsimp only
    | simp only [id_eq]
  )

theorem execTagRd_alters {p : Path} {byte : BitVec 13} {s : State} {t0} (e : execTagRd p byte s = .next t0) : Alters
    (Part.err ++ [Part.wbuf]) s t0 := by
  unfold execTagRd at e
  try dsimp only at e
  repeat' split at e
  all_goals (injection e with e; subst e)
  all_goals try dsimp only
  repeat' (
    first
    | with_reducible (first | exact Alters.refl _ _ | apply Alters.ite | assumption | apply State.onWrite_alters |
                            apply State.tagRd_alters)
    | exact Alters.refl _ _
    | (refine (?_ : Part.le _ _ = true); decide)
    | intro _
    | with_reducible (first | rfl)
    | split
    | dsimp only
    | simp only [id_eq]
  )

theorem State.tagQueue_alters {s : State} {area : Nat} {bs : List Byte} {ch : List Part} {s0 : State} (h0 : Alters ch
    s0 s) (hc : Part.le Part.err ch = true) : Alters ch s0 (State.tagQueue s area bs) := by
  unfold State.tagQueue
  try dsimp only
  repeat' (
    first
    | with_reducible (first | exact Alters.refl _ _ | apply Alters.ite | assumption | apply State.bump_alters |
                            apply State.onTag_altersR | apply State.raise_alters | apply State.showTag_alters)
    | exact Part.le_trans (by decide) hc
    | (refine (?_ : Part.le _ _ = true); decide)
    | intro _
    | with_reducible (first | rfl)
    | split
    | dsimp only
    | simp only [id_eq]
    | with_reducible (first | apply Alters.upd_queue)
  )

theorem State.tagWr_alters {s : State} {p : Path} {area : Nat} {ch : List Part} {s0 : State} (h0 : Alters ch s0 s) (hc
    : Part.le Part.err ch = true) : Alters ch s0 (State.tagWr s p area) := by
  unfold State.tagWr
  try dsimp only
  repeat' (
    first
    | with_reducible (first | exact Alters.refl _ _ | apply Alters.ite | assumption | apply State.raise_alters |
                            apply State.tagQueue_alters | apply State.wr_alters)
    | exact Part.le_trans (by decide) hc
    | (refine (?_ : Part.le _ _ = true); decide)
    | intro _
    | with_reducible (first | rfl)
    | split
    | dsimp only
    | simp only [id_eq]
  )

theorem execTagWr_alters {p : Path} {area : BitVec 2} {s : State} {t0} (e : execTagWr p area s = .next t0) : Alters
    (Part.err ++ [Part.wbuf]) s t0 := by
  unfold execTagWr at e
  try dsimp only at e
  repeat' split at e
  all_goals (injection e with e; subst e)
  all_goals try dsimp only
  repeat' (
    first
    | with_reducible (first | exact Alters.refl _ _ | apply Alters.ite | assumption | apply State.onWrite_alters |
                            apply State.tagWr_alters)
    | exact Alters.refl _ _
    | (refine (?_ : Part.le _ _ = true); decide)
    | intro _
    | with_reducible (first | rfl)
    | split
    | dsimp only
    | simp only [id_eq]
  )

theorem State.deferQueue_alters {s : State} {ch : List Part} {s0 : State} (h0 : Alters ch s0 s) (hc : Part.le [.cells,
    .tag] ch = true) : Alters ch s0 (State.deferQueue s) := by
  unfold State.deferQueue
  try dsimp only
  repeat' (
    first
    | with_reducible (first | exact Alters.refl _ _ | apply Alters.ite | assumption |
                          apply State.bump_alters | apply State.onTag_altersR)
    | exact Part.le_trans (by decide) hc
    | (refine (?_ : Part.le _ _ = true); decide)
    | intro _
    | with_reducible (first | rfl)
    | split
    | dsimp only
    | simp only [id_eq]
  )

theorem State.rfCommand_alters {s : State} {g : State → State × RfReply} {ch : List Part} {s0 : State} (h0 : Alters ch
    s0 s) (hg : ∀ {z0} {u0}, Alters ch z0 u0 → Alters ch z0 (g u0).1) (hc : Part.le [.cells, .tag, .out] ch = true) :
    Alters ch s0 (State.rfCommand s g) := by
  unfold State.rfCommand
  try dsimp only
  repeat' (
    first
    | with_reducible (first | exact Alters.refl _ _ | apply Alters.ite | assumption | apply hg |
                          apply State.deferQueue_alters | apply State.emit_alters | apply State.onTag_altersR |
                          apply State.wr_alters)
    | exact Part.le_trans (by decide) hc
    | (refine (?_ : Part.le _ _ = true); decide)
    | intro _
    | with_reducible (first | rfl)
    | split
    | dsimp only
    | simp only [id_eq]
  )

theorem execRfInventory_alters {s : State} {t0} (e : execRfInventory s = .next t0) : Alters [.cells, .tag, .out] s t0
    := by
  unfold execRfInventory at e
  try dsimp only at e
  repeat' split at e
  all_goals (injection e with e; subst e)
  all_goals try dsimp only
  repeat' (
    first
    | with_reducible (first | exact Alters.refl _ _ | apply Alters.ite | assumption | apply State.rfCommand_alters)
    | exact Alters.refl _ _
    | (refine (?_ : Part.le _ _ = true); decide)
    | intro _
    | with_reducible (first | rfl)
    | split
    | dsimp only
    | simp only [id_eq]
  )

theorem execGetSystemInformation_alters {s : State} {t0} (e : execGetSystemInformation s = .next t0) : Alters [.cells,
    .tag, .out] s t0 := by
  unfold execGetSystemInformation at e
  try dsimp only at e
  repeat' split at e
  all_goals (injection e with e; subst e)
  all_goals try dsimp only
  repeat' (
    first
    | with_reducible (first | exact Alters.refl _ _ | apply Alters.ite | assumption | apply State.rfCommand_alters)
    | exact Alters.refl _ _
    | (refine (?_ : Part.le _ _ = true); decide)
    | intro _
    | with_reducible (first | rfl)
    | split
    | dsimp only
    | simp only [id_eq]
  )

theorem State.rfRead_alters {s : State} {n count : Nat} {ch : List Part} {s0 : State} (h0 : Alters ch s0 s) (hc :
    Part.le [] ch = true) : Alters ch s0 (State.rfRead s n count).1 := by
  unfold State.rfRead
  try dsimp only
  repeat' (
    first
    | with_reducible (first | exact Alters.refl _ _ | apply Alters.ite | assumption)
    | exact Part.le_trans (by decide) hc
    | (refine (?_ : Part.le _ _ = true); decide)
    | intro _
    | with_reducible (first | rfl)
    | split
    | dsimp only
    | simp only [id_eq]
  )
theorem State.rfRead_altersP {s : State} {n count : Nat} {t0 r0} (e_ : State.rfRead s n count = (t0, r0)) {ch : List
    Part} {s0 : State} (h0 : Alters ch s0 s) (hc : Part.le [] ch = true) : Alters ch s0 t0 := by
  have h := State.rfRead_alters (s := s) (n := n) (count := count) h0  hc
  rw [e_] at h; exact h

theorem execReadSingleBlock_alters {n : BitVec 16} {s : State} {t0} (e : execReadSingleBlock n s = .next t0) : Alters
    [.cells, .tag, .out] s t0 := by
  unfold execReadSingleBlock at e
  try dsimp only at e
  repeat' split at e
  all_goals (injection e with e; subst e)
  all_goals try dsimp only
  repeat' (
    first
    | with_reducible (first | exact Alters.refl _ _ | apply Alters.ite | assumption | apply State.rfCommand_alters |
                            apply State.rfRead_alters | apply Alters.of_pair (by assumption))
    | exact Alters.refl _ _
    | (refine (?_ : Part.le _ _ = true); decide)
    | intro _
    | with_reducible (first | rfl)
    | split
    | dsimp only
    | simp only [id_eq]
  )

theorem execReadMultipleBlocks_alters {n count : BitVec 16} {s : State} {t0} (e : execReadMultipleBlocks n count s =
    .next t0) : Alters [.cells, .tag, .out] s t0 := by
  unfold execReadMultipleBlocks at e
  try dsimp only at e
  repeat' split at e
  all_goals (injection e with e; subst e)
  all_goals try dsimp only
  repeat' (
    first
    | with_reducible (first | exact Alters.refl _ _ | apply Alters.ite | assumption | apply State.rfCommand_alters |
                            apply State.rfRead_alters | apply Alters.of_pair (by assumption))
    | exact Alters.refl _ _
    | (refine (?_ : Part.le _ _ = true); decide)
    | intro _
    | with_reducible (first | rfl)
    | split
    | dsimp only
    | simp only [id_eq]
  )

theorem execWriteSingleBlock_alters {n : BitVec 16} {v : Word} {s : State} {t0} (e : execWriteSingleBlock n v s =
    .next t0) : Alters [.cells, .tagBytes, .tag, .out] s t0 := by
  unfold execWriteSingleBlock at e
  try dsimp only at e
  repeat' split at e
  all_goals (injection e with e; subst e)
  all_goals try dsimp only
  repeat' (
    first
    | with_reducible (first | exact Alters.refl _ _ | apply Alters.ite | assumption | apply State.bump_alters |
                            apply State.rfCommand_alters | apply State.tagPut_alters)
    | exact Alters.refl _ _
    | (refine (?_ : Part.le _ _ = true); decide)
    | intro _
    | with_reducible (first | rfl)
    | split
    | dsimp only
    | simp only [id_eq]
  )

theorem execRfSessionEnd_alters {fieldLost : Bool} {s : State} {t0} (e : execRfSessionEnd fieldLost s = .next t0) :
    Alters [.cells, .tag, .msix, .out] s t0 := by
  unfold execRfSessionEnd at e
  try dsimp only at e
  repeat' split at e
  all_goals (injection e with e; subst e)
  all_goals try dsimp only
  repeat' (
    first
    | with_reducible (first | exact Alters.refl _ _ | apply Alters.ite | assumption | apply State.irq_alters |
                            apply State.onTag_altersR | apply State.wr_alters)
    | exact Alters.refl _ _
    | (refine (?_ : Part.le _ _ = true); decide)
    | intro _
    | with_reducible (first | rfl)
    | split
    | dsimp only
    | simp only [id_eq]
  )

theorem execRfHold_alters {s : State} {t0} (e : execRfHold s = .next t0) : Alters [.cells] s t0 := by
  unfold execRfHold at e
  try dsimp only at e
  repeat' split at e
  all_goals (injection e with e; subst e)
  all_goals try dsimp only
  repeat' (
    first
    | with_reducible (first | exact Alters.refl _ _ | apply Alters.ite | assumption | apply State.bump_alters |
                            apply State.wr_alters)
    | exact Alters.refl _ _
    | (refine (?_ : Part.le _ _ = true); decide)
    | intro _
    | with_reducible (first | rfl)
    | split
    | dsimp only
    | simp only [id_eq]
  )

end Sys2Proof.Machine
end

