-- ==== Sys2Proof/Laws/AltersLead.lean ====
section
/-! SUPPORT. What each operation of Machine/Lead.lean alters. -/

-- One closing tactic serves every lemma here; where a goal needs few of its steps the linters name the rest.
set_option linter.all false
set_option Elab.async false

namespace Sys2Proof.Machine

theorem State.onMgmt_alters {s : State} {g : MgmtSt → MgmtSt} {ch : List Part} {s0 : State} (h0 : Alters ch s0 s) (hc
    : Part.le [.mgmt] ch = true) : Alters ch s0 (State.onMgmt s g) := by
  unfold State.onMgmt
  try dsimp only
  repeat' (
    first
    | with_reducible (first | exact Alters.refl _ _ | apply Alters.ite | assumption)
    | exact Part.le_trans (by decide) hc
    | (refine (?_ : Part.le _ _ = true); decide)
    | intro _
    | with_reducible (first | rfl)
    | split
    | dsimp only
    | simp only [id_eq]
    | with_reducible (first | apply Alters.upd_mgmt)
  )

theorem State.stopCard_alters {s : State} {c : Port} {ch : List Part} {s0 : State} (h0 : Alters ch s0 s) (hc : Part.le
    [.mgmt] ch = true) : Alters ch s0 (State.stopCard s c) := by
  unfold State.stopCard
  try dsimp only
  repeat' (
    first
    | with_reducible (first | exact Alters.refl _ _ | apply Alters.ite | assumption |
                          apply State.onMgmt_alters)
    | exact Part.le_trans (by decide) hc
    | (refine (?_ : Part.le _ _ = true); decide)
    | intro _
    | with_reducible (first | rfl)
    | split
    | dsimp only
    | simp only [id_eq]
  )

theorem State.startCard_alters {s : State} {c : Port} {ch : List Part} {s0 : State} (h0 : Alters ch s0 s) (hc :
    Part.le [.mgmt] ch = true) : Alters ch s0 (State.startCard s c) := by
  unfold State.startCard
  try dsimp only
  repeat' (
    first
    | with_reducible (first | exact Alters.refl _ _ | apply Alters.ite | assumption |
                          apply State.onMgmt_alters)
    | exact Part.le_trans (by decide) hc
    | (refine (?_ : Part.le _ _ = true); decide)
    | intro _
    | with_reducible (first | rfl)
    | split
    | dsimp only
    | simp only [id_eq]
  )

theorem State.setFlash_alters {s : State} {c : Port} {l : List LifeRec} {ch : List Part} {s0 : State} (h0 : Alters ch
    s0 s) (hc : Part.le [.life] ch = true) : Alters ch s0 (State.setFlash s c l) := by
  unfold State.setFlash
  try dsimp only
  repeat' (
    first
    | with_reducible (first | exact Alters.refl _ _ | apply Alters.ite | assumption)
    | exact Part.le_trans (by decide) hc
    | (refine (?_ : Part.le _ _ = true); decide)
    | intro _
    | with_reducible (first | rfl)
    | split
    | dsimp only
    | simp only [id_eq]
    | with_reducible (first | apply Alters.upd_life)
  )

theorem State.setStandby_alters {s : State} {b : Bool} {ch : List Part} {s0 : State} (h0 : Alters ch s0 s) (hc :
    Part.le [.cells] ch = true) : Alters ch s0 (State.setStandby s b) := by
  unfold State.setStandby
  try dsimp only
  repeat' (
    first
    | with_reducible (first | exact Alters.refl _ _ | apply Alters.ite | assumption | apply State.flag_alters)
    | exact Part.le_trans (by decide) hc
    | (refine (?_ : Part.le _ _ = true); decide)
    | intro _
    | with_reducible (first | rfl)
    | split
    | dsimp only
    | simp only [id_eq]
  )

theorem State.standbyFell_alters {s : State} {ch : List Part} {s0 : State} (h0 : Alters ch s0 s) (hc : Part.le
    Part.err ch = true) : Alters ch s0 (State.standbyFell s) := by
  unfold State.standbyFell
  try dsimp only
  repeat' (
    first
    | with_reducible (first | exact Alters.refl _ _ | apply Alters.ite | assumption | apply State.raise_alters |
                            apply State.setStandby_alters)
    | exact Part.le_trans (by decide) hc
    | (refine (?_ : Part.le _ _ = true); decide)
    | intro _
    | with_reducible (first | rfl)
    | split
    | dsimp only
    | simp only [id_eq]
  )

theorem State.mboxDone_alters {s : State} {status retry : Nat} {ch : List Part} {s0 : State} (h0 : Alters ch s0 s) (hc
    : Part.le [.cells, .msix, .out] ch = true) : Alters ch s0 (State.mboxDone s status retry) := by
  unfold State.mboxDone
  try dsimp only
  repeat' (
    first
    | with_reducible (first | exact Alters.refl _ _ | apply Alters.ite | assumption | apply State.bump_alters |
                            apply State.irq_alters | apply State.wr_alters)
    | exact Part.le_trans (by decide) hc
    | (refine (?_ : Part.le _ _ = true); decide)
    | intro _
    | with_reducible (first | rfl)
    | split
    | dsimp only
    | simp only [id_eq]
  )

theorem State.servoGone_alters {s : State} {ch : List Part} {s0 : State} (h0 : Alters ch s0 s) (hc : Part.le [.mgmt]
    ch = true) : Alters ch s0 (State.servoGone s) := by
  unfold State.servoGone
  try dsimp only
  repeat' (
    first
    | with_reducible (first | exact Alters.refl _ _ | apply Alters.ite | assumption |
                          apply State.onMgmt_alters)
    | exact Part.le_trans (by decide) hc
    | (refine (?_ : Part.le _ _ = true); decide)
    | intro _
    | with_reducible (first | rfl)
    | split
    | dsimp only
    | simp only [id_eq]
  )

theorem State.takeover_alters {s : State} {ch : List Part} {s0 : State} (h0 : Alters ch s0 s) (hc : Part.le (Part.err
    ++ [Part.mgmt]) ch = true) : Alters ch s0 (State.takeover s) := by
  unfold State.takeover
  try dsimp only
  repeat' (
    first
    | with_reducible (first | exact Alters.refl _ _ | apply Alters.ite | assumption | apply State.bump_alters |
                            apply State.flag_alters | apply State.irq_alters | apply State.journal_alters |
                            apply State.mboxDone_alters | apply State.onMgmt_alters | apply State.raise_alters)
    | exact Part.le_trans (by decide) hc
    | (refine (?_ : Part.le _ _ = true); decide)
    | intro _
    | with_reducible (first | rfl)
    | split
    | dsimp only
    | simp only [id_eq]
  )

theorem State.cardOff_alters {s : State} {c : Port} {ch : List Part} {s0 : State} (h0 : Alters ch s0 s) (hc : Part.le
    [.cells, .power] ch = true) : Alters ch s0 (State.cardOff s c) := by
  unfold State.cardOff
  try dsimp only
  repeat' (
    first
    | with_reducible (first | exact Alters.refl _ _ | apply Alters.ite | assumption | apply State.setRail_alters |
                            apply State.wr_alters)
    | exact Part.le_trans (by decide) hc
    | (refine (?_ : Part.le _ _ = true); decide)
    | intro _
    | with_reducible (first | rfl)
    | split
    | dsimp only
    | simp only [id_eq]
  )

theorem State.cardOut_alters {s : State} {c : Port} {ch : List Part} {s0 : State} (h0 : Alters ch s0 s) (hc : Part.le
    [.cells, .power] ch = true) : Alters ch s0 (State.cardOut s c) := by
  unfold State.cardOut
  try dsimp only
  repeat' (
    first
    | with_reducible (first | exact Alters.refl _ _ | apply Alters.ite | assumption | apply State.cardOff_alters |
                            apply State.wr_alters)
    | exact Part.le_trans (by decide) hc
    | (refine (?_ : Part.le _ _ = true); decide)
    | intro _
    | with_reducible (first | rfl)
    | split
    | dsimp only
    | simp only [id_eq]
  )

theorem State.leadGone_alters {s : State} {g : State → State} {ch : List Part} {s0 : State} (h0 : Alters ch s0 s) (hg
    : ∀ {z0} {u0}, Alters ch z0 u0 → Alters ch z0 (g u0)) (hc : Part.le (Part.err ++ [Part.mgmt]) ch = true) : Alters
    ch s0 (State.leadGone s g) := by
  unfold State.leadGone
  try dsimp only
  repeat' (
    first
    | with_reducible (first | exact Alters.refl _ _ | apply Alters.ite | assumption | apply hg |
                          apply State.servoGone_alters | apply State.standbyFell_alters | apply State.takeover_alters)
    | exact Part.le_trans (by decide) hc
    | (refine (?_ : Part.le _ _ = true); decide)
    | intro _
    | with_reducible (first | rfl)
    | split
    | dsimp only
    | simp only [id_eq]
  )

theorem execLeadLost_alters {why : CardLoss} {s : State} {t0} (e : execLeadLost why s = .next t0) : Alters (Part.err
    ++ [Part.power, Part.mgmt]) s t0 := by
  unfold execLeadLost at e
  try dsimp only at e
  repeat' split at e
  all_goals (injection e with e; subst e)
  all_goals try dsimp only
  repeat' (
    first
    | with_reducible (first | exact Alters.refl _ _ | apply Alters.ite | assumption |
                          apply State.cardOff_alters | apply State.cardOut_alters | apply State.journal_alters |
                          apply State.leadGone_alters | apply State.servoGone_alters | apply State.stopCard_alters |
                          apply State.takeover_alters)
    | exact Alters.refl _ _
    | (refine (?_ : Part.le _ _ = true); decide)
    | intro _
    | with_reducible (first | rfl)
    | split
    | dsimp only
    | simp only [id_eq]
  )

theorem execStandbyLost_alters {why : CardLoss} {s : State} {t0} (e : execStandbyLost why s = .next t0) : Alters
    (Part.err ++ [Part.power, Part.mgmt]) s t0 := by
  unfold execStandbyLost at e
  try dsimp only at e
  repeat' split at e
  all_goals (injection e with e; subst e)
  all_goals try dsimp only
  repeat' (
    first
    | with_reducible (first | exact Alters.refl _ _ | apply Alters.ite | assumption |
                          apply State.cardOff_alters | apply State.cardOut_alters | apply State.journal_alters |
                          apply State.standbyFell_alters | apply State.stopCard_alters)
    | exact Alters.refl _ _
    | (refine (?_ : Part.le _ _ = true); decide)
    | intro _
    | with_reducible (first | rfl)
    | split
    | dsimp only
    | simp only [id_eq]
  )

theorem State.handover_alters {s : State} {c : Port} {ch : List Part} {s0 : State} (h0 : Alters ch s0 s) (hc : Part.le
    (Part.err ++ [Part.mgmt]) ch = true) : Alters ch s0 (State.handover s c) := by
  unfold State.handover
  try dsimp only
  repeat' (
    first
    | with_reducible (first | exact Alters.refl _ _ | apply Alters.ite | assumption |
                          apply State.takeover_alters)
    | exact Part.le_trans (by decide) hc
    | (refine (?_ : Part.le _ _ = true); decide)
    | intro _
    | with_reducible (first | rfl)
    | split
    | dsimp only
    | simp only [id_eq]
  )

theorem State.beat_alters {s : State} {count : Nat} {ch : List Part} {s0 : State} (h0 : Alters ch s0 s) (hc : Part.le
    [.cells, .mgmt] ch = true) : Alters ch s0 (State.beat s count) := by
  unfold State.beat
  try dsimp only
  repeat' (
    first
    | with_reducible (first | exact Alters.refl _ _ | apply Alters.ite | assumption |
                          apply State.onMgmt_alters | apply State.startCard_alters | apply State.wr_alters)
    | exact Part.le_trans (by decide) hc
    | (refine (?_ : Part.le _ _ = true); decide)
    | intro _
    | with_reducible (first | rfl)
    | split
    | dsimp only
    | simp only [id_eq]
  )

theorem State.grantA_alters {s : State} {ch : List Part} {s0 : State} (h0 : Alters ch s0 s) (hc : Part.le [.cells] ch
    = true) : Alters ch s0 (State.grantA s) := by
  unfold State.grantA
  try dsimp only
  repeat' (
    first
    | with_reducible (first | exact Alters.refl _ _ | apply Alters.ite | assumption |
                          apply State.flag_alters)
    | exact Part.le_trans (by decide) hc
    | (refine (?_ : Part.le _ _ = true); decide)
    | intro _
    | with_reducible (first | rfl)
    | split
    | dsimp only
    | simp only [id_eq]
  )

theorem execHeartbeat_alters {c : Port} {count : BitVec 32} {both : Bool} {s : State} {t0} (e : execHeartbeat c count
    both s = .next t0) : Alters (Part.err ++ [Part.wbuf, Part.mgmt]) s t0 := by
  unfold execHeartbeat at e
  try dsimp only at e
  repeat' split at e
  all_goals (injection e with e; subst e)
  all_goals try dsimp only
  repeat' (
    first
    | with_reducible (first | exact Alters.refl _ _ | apply Alters.ite | assumption |
                          apply State.beat_alters | apply State.grantA_alters | apply State.handover_alters |
                          apply State.onWrite_alters)
    | exact Alters.refl _ _
    | (refine (?_ : Part.le _ _ = true); decide)
    | intro _
    | with_reducible (first | rfl)
    | split
    | dsimp only
    | simp only [id_eq]
  )

theorem State.mirror_alters {s : State} {copied : Bool} {ch : List Part} {s0 : State} (h0 : Alters ch s0 s) (hc :
    Part.le [.cells, .mgmt, .life] ch = true) : Alters ch s0 (State.mirror s copied) := by
  unfold State.mirror
  try dsimp only
  repeat' (
    first
    | with_reducible (first | exact Alters.refl _ _ | apply Alters.ite | assumption |
                          apply State.onMgmt_alters | apply State.setFlash_alters | apply State.setStandby_alters |
                          apply State.startCard_alters)
    | exact Part.le_trans (by decide) hc
    | (refine (?_ : Part.le _ _ = true); decide)
    | intro _
    | with_reducible (first | rfl)
    | split
    | dsimp only
    | simp only [id_eq]
  )

theorem execMirror_alters {copied : Bool} {s : State} {t0} (e : execMirror copied s = .next t0) : Alters [.cells,
    .mgmt, .life] s t0 := by
  unfold execMirror at e
  try dsimp only at e
  repeat' split at e
  all_goals (injection e with e; subst e)
  all_goals try dsimp only
  repeat' (
    first
    | with_reducible (first | exact Alters.refl _ _ | apply Alters.ite | assumption |
                          apply State.mirror_alters)
    | exact Alters.refl _ _
    | (refine (?_ : Part.le _ _ = true); decide)
    | intro _
    | with_reducible (first | rfl)
    | split
    | dsimp only
    | simp only [id_eq]
  )

theorem State.planTakeover_alters {s : State} {p : Path} {ch : List Part} {s0 : State} (h0 : Alters ch s0 s) (hc :
    Part.le (Part.err ++ [Part.mgmt, Part.life]) ch = true) : Alters ch s0 (State.planTakeover s p) := by
  unfold State.planTakeover
  try dsimp only
  repeat' (
    first
    | with_reducible (first | exact Alters.refl _ _ | apply Alters.ite | assumption |
                          apply State.mirror_alters | apply State.onMgmt_alters | apply State.raise_alters)
    | exact Part.le_trans (by decide) hc
    | (refine (?_ : Part.le _ _ = true); decide)
    | intro _
    | with_reducible (first | rfl)
    | split
    | dsimp only
    | simp only [id_eq]
  )

theorem execPlannedTakeover_alters {p : Path} {s : State} {t0} (e : execPlannedTakeover p s = .next t0) : Alters
    (Part.err ++ [Part.wbuf, Part.mgmt, Part.life]) s t0 := by
  unfold execPlannedTakeover at e
  try dsimp only at e
  repeat' split at e
  all_goals (injection e with e; subst e)
  all_goals try dsimp only
  repeat' (
    first
    | with_reducible (first | exact Alters.refl _ _ | apply Alters.ite | assumption |
                          apply State.onWrite_alters | apply State.planTakeover_alters)
    | exact Alters.refl _ _
    | (refine (?_ : Part.le _ _ = true); decide)
    | intro _
    | with_reducible (first | rfl)
    | split
    | dsimp only
    | simp only [id_eq]
  )

end Sys2Proof.Machine
end

