-- ==== Sys2Proof/Laws/AltersFused.lean ====
section
/-! SUPPORT. What each operation of Machine/Fused.lean alters. -/

-- One closing tactic serves every lemma here; where a goal needs few of its steps the linters name the rest.
set_option linter.all false
set_option Elab.async false

namespace Sys2Proof.Machine

theorem State.showFuses_alters {s : State} {ch : List Part} {s0 : State} (h0 : Alters ch s0 s) (hc : Part.le [.cells]
    ch = true) : Alters ch s0 (State.showFuses s) := by
  unfold State.showFuses
  try dsimp only
  repeat' (
    first
    | with_reducible (first | exact Alters.refl _ _ | apply Alters.ite | assumption | apply Alters.foldl |
                            apply State.addFailed_alters | apply State.wr_alters | apply Alters.foldl1)
    | exact Part.le_trans (by decide) hc
    | (refine (?_ : Part.le _ _ = true); decide)
    | intro _
    | with_reducible (first | rfl)
    | split
    | dsimp only
    | simp only [id_eq]
  )

theorem State.seal_alters {s : State} {closed : Bool} {ch : List Part} {s0 : State} (h0 : Alters ch s0 s) (hc :
    Part.le [.cells, .island] ch = true) : Alters ch s0 (State.seal s closed) := by
  unfold State.seal
  try dsimp only
  repeat' (
    first
    | with_reducible (first | exact Alters.refl _ _ | apply Alters.ite | assumption | apply Alters.foldl |
                            apply State.onIsland_alters | apply State.wr_alters | apply Alters.foldl1)
    | exact Part.le_trans (by decide) hc
    | (refine (?_ : Part.le _ _ = true); decide)
    | intro _
    | with_reducible (first | rfl)
    | split
    | dsimp only
    | simp only [id_eq]
  )

theorem State.openKind_alters {s : State} {i : Nat} {ch : List Part} {s0 : State} (h0 : Alters ch s0 s) (hc : Part.le
    Part.err ch = true) : Alters ch s0 (State.openKind s i) := by
  unfold State.openKind
  try dsimp only
  repeat' (
    first
    | with_reducible (first | exact Alters.refl _ _ | apply Alters.ite | assumption | apply State.raise_alters |
                            apply State.wr_alters)
    | exact Part.le_trans (by decide) hc
    | (refine (?_ : Part.le _ _ = true); decide)
    | intro _
    | with_reducible (first | rfl)
    | split
    | dsimp only
    | simp only [id_eq]
  )

theorem State.fusedBase_alters {s : State} {warm ledger : Bool} {ch : List Part} {s0 : State} (h0 : Alters ch s0 s)
    (hc : Part.le [.cells, .shadow, .pend, .act, .prev, .hold, .wbuf, .commit, .clk, .ptp, .snap, .words, .tile,
    .memBytes, .mem, .stream, .queue, .sig, .nose, .coll, .fab, .part, .tag, .pathVal, .island, .msix, .power, .boot,
    .mgmt, .host] ch = true) : Alters ch s0 (State.fusedBase s warm ledger) :=
  h0.then ⟨fun p hp => by cases p <;> first | rfl | exact absurd (by decide) hp⟩ (Part.le_mem hc)

theorem State.fromSeal_alters {s : State} {x : Seal} {ch : List Part} {s0 : State} (h0 : Alters ch s0 s) (hc : Part.le
    [.cells] ch = true) : Alters ch s0 (State.fromSeal s x) := by
  unfold State.fromSeal
  try dsimp only
  repeat' (
    first
    | with_reducible (first | exact Alters.refl _ _ | apply Alters.ite | assumption | apply Alters.foldl |
                            apply Alters.foldl1)
    | exact Part.le_trans (by decide) hc
    | (refine (?_ : Part.le _ _ = true); decide)
    | intro _
    | with_reducible (first | rfl)
    | split
    | dsimp only
    | simp only [id_eq]
    | with_reducible (first | apply Alters.upd_regscells)
  )

theorem State.restoreLedger_alters {s : State} {last : Option Seal} {ch : List Part} {s0 : State} (h0 : Alters ch s0
    s) (hc : Part.le Part.err ch = true) : Alters ch s0 (State.restoreLedger s last) := by
  unfold State.restoreLedger
  try dsimp only
  repeat' (
    first
    | with_reducible (first | exact Alters.refl _ _ | apply Alters.ite | assumption |
                          apply Alters.foldl | apply State.fromSeal_alters | apply State.openKind_alters |
                          apply State.wr_alters | apply Alters.foldl1)
    | exact Part.le_trans (by decide) hc
    | (refine (?_ : Part.le _ _ = true); decide)
    | intro _
    | with_reducible (first | rfl)
    | split
    | dsimp only
    | simp only [id_eq]
  )

theorem State.enterFault_alters {s : State} {ch : List Part} {s0 : State} (h0 : Alters ch s0 s) (hc : Part.le [.cells,
    .power] ch = true) : Alters ch s0 (State.enterFault s) := by
  unfold State.enterFault
  try dsimp only
  repeat' (
    first
    | with_reducible (first | exact Alters.refl _ _ | apply Alters.ite | assumption | apply State.onPower_alters |
                            apply State.wr_alters)
    | exact Part.le_trans (by decide) hc
    | (refine (?_ : Part.le _ _ = true); decide)
    | intro _
    | with_reducible (first | rfl)
    | split
    | dsimp only
    | simp only [id_eq]
  )

theorem State.showCages_alters {s : State} {ch : List Part} {s0 : State} (h0 : Alters ch s0 s) (hc : Part.le [.cells]
    ch = true) : Alters ch s0 (State.showCages s) := by
  unfold State.showCages
  try dsimp only
  repeat' (
    first
    | with_reducible (first | exact Alters.refl _ _ | apply Alters.ite | assumption | apply Alters.foldl |
                            apply State.wr_alters | apply Alters.foldl1)
    | exact Part.le_trans (by decide) hc
    | (refine (?_ : Part.le _ _ = true); decide)
    | intro _
    | with_reducible (first | rfl)
    | split
    | dsimp only
    | simp only [id_eq]
  )

theorem State.drawSeed_alters {s : State} {ch : List Part} {s0 : State} (h0 : Alters ch s0 s) (hc :
    Part.le [.free, .cells] ch = true) : Alters ch s0 (State.drawSeed s) := by
  unfold State.drawSeed
  exact State.wr_alters (State.fresh_alters h0 (Part.le_trans (by decide) hc)) (Part.le_trans (by decide) hc)

theorem State.toFused_alters {s : State} {warm sram : Bool} {ch : List Part} {s0 : State} (h0 : Alters ch s0 s) (hc :
    Part.le (Part.err ++ [Part.shadow, Part.pend, Part.act, Part.prev, Part.hold, Part.wbuf, Part.commit, Part.clk,
    Part.ptp, Part.words, Part.tile, Part.memBytes, Part.mem, Part.stream, Part.queue, Part.sig, Part.nose, Part.coll,
    Part.fab, Part.part, Part.pathVal, Part.power, Part.boot, Part.mgmt, Part.host]) ch = true) : Alters ch s0
    (State.toFused s warm sram) := by
  unfold State.toFused
  try dsimp only
  repeat' (
    first
    | with_reducible (first | exact Alters.refl _ _ | apply Alters.ite | assumption |
                          apply State.drawSeed_alters | apply State.enterFault_alters | apply State.flag_alters |
                          apply State.fusedBase_alters | apply State.openKind_alters | apply State.raise_alters |
                          apply State.restoreLedger_alters | apply State.showCages_alters | apply State.showCeil_alters |
                          apply State.showFuses_alters | apply State.showTag_alters | apply State.wr_alters)
    | exact Part.le_trans (by decide) hc
    | (refine (?_ : Part.le _ _ = true); decide)
    | intro _
    | with_reducible (first | rfl)
    | split
    | dsimp only
    | simp only [id_eq]
  )

end Sys2Proof.Machine
end

