-- ==== Sys2Proof/Laws/AltersDrydown.lean ====
section
/-! SUPPORT. What each operation of Machine/Drydown.lean alters. -/

-- One closing tactic serves every lemma here; where a goal needs few of its steps the linters name the rest.
set_option linter.all false
set_option Elab.async false

namespace Sys2Proof.Machine

theorem State.logEntry_alters {s : State} {e : LogEntry} {ch : List Part} {s0 : State} (h0 : Alters ch s0 s) (hc :
    Part.le [.island] ch = true) : Alters ch s0 (State.logEntry s e) := by
  unfold State.logEntry
  try dsimp only
  repeat' (
    first
    | with_reducible (first | exact Alters.refl _ _ | apply Alters.ite | assumption | apply State.onIsland_alters)
    | exact Part.le_trans (by decide) hc
    | (refine (?_ : Part.le _ _ = true); decide)
    | intro _
    | with_reducible (first | rfl)
    | split
    | dsimp only
    | simp only [id_eq]
  )

theorem State.onLife_alters {s : State} {g : LifeSt → LifeSt} {ch : List Part} {s0 : State} (h0 : Alters ch s0 s) (hc
    : Part.le [.life] ch = true) : Alters ch s0 (State.onLife s g) := by
  unfold State.onLife
  try dsimp only
  repeat' (
    first
    | with_reducible (first | exact Alters.refl _ _ | apply Alters.ite | assumption)
    | exact Part.le_trans (by decide) hc
    | (refine (?_ : Part.le _ _ = true); decide)
    | intro _
    | with_reducible (first | rfl)
    | split
    | dsimp only
    | simp only [id_eq]
    | with_reducible (first | apply Alters.upd_life)
  )

theorem State.beginDrydown_alters {s : State} {cause : Nat} {ch : List Part} {s0 : State} (h0 : Alters ch s0 s) (hc :
    Part.le (Part.err ++ [Part.fab, Part.power, Part.life]) ch = true) : Alters ch s0 (State.beginDrydown s cause) := by
  unfold State.beginDrydown
  try dsimp only
  repeat' (
    first
    | with_reducible (first | exact Alters.refl _ _ | apply Alters.ite | assumption | apply State.journal_alters |
                            apply State.leave_alters | apply State.onLife_alters | apply State.onPower_alters |
                            apply State.wr_alters)
    | exact Part.le_trans (by decide) hc
    | (refine (?_ : Part.le _ _ = true); decide)
    | intro _
    | with_reducible (first | rfl)
    | split
    | dsimp only
    | simp only [id_eq]
  )

theorem State.startDrydown_alters {s : State} {cause : Nat} {ch : List Part} {s0 : State} (h0 : Alters ch s0 s) (hc :
    Part.le (Part.err ++ [Part.fab, Part.power, Part.life]) ch = true) : Alters ch s0 (State.startDrydown s cause) := by
  unfold State.startDrydown
  try dsimp only
  repeat' (
    first
    | with_reducible (first | exact Alters.refl _ _ | apply Alters.ite | assumption | apply State.beginDrydown_alters |
                            apply State.logEntry_alters)
    | exact Part.le_trans (by decide) hc
    | (refine (?_ : Part.le _ _ = true); decide)
    | intro _
    | with_reducible (first | rfl)
    | split
    | dsimp only
    | simp only [id_eq]
  )

theorem State.orderDrydown_alters {s : State} {pg : Nat} {e : Err} {src : Nat} {ch : List Part} {s0 : State} (h0 :
    Alters ch s0 s) (hc : Part.le (Part.err ++ [Part.fab, Part.power, Part.life]) ch = true) : Alters ch s0 (State.orderDrydown s
    pg e src) := by
  unfold State.orderDrydown
  try dsimp only
  repeat' (
    first
    | with_reducible (first | exact Alters.refl _ _ | apply Alters.ite | assumption | apply State.raise_alters |
                            apply State.startDrydown_alters)
    | exact Part.le_trans (by decide) hc
    | (refine (?_ : Part.le _ _ = true); decide)
    | intro _
    | with_reducible (first | rfl)
    | split
    | dsimp only
    | simp only [id_eq]
  )

theorem State.powerDrydown_alters {s : State} {ch : List Part} {s0 : State} (h0 : Alters ch s0 s) (hc : Part.le
    (Part.err ++ [Part.fab, Part.power, Part.life]) ch = true) : Alters ch s0 (State.powerDrydown s) := by
  unfold State.powerDrydown
  try dsimp only
  repeat' (
    first
    | with_reducible (first | exact Alters.refl _ _ | apply Alters.ite | assumption | apply State.fresh_alters |
                            apply State.startDrydown_alters | apply Alters.of_pair2 (by assumption) |
                            apply Alters.of_pair (by assumption))
    | exact Part.le_trans (by decide) hc
    | (refine (?_ : Part.le _ _ = true); decide)
    | intro _
    | with_reducible (first | rfl)
    | split
    | dsimp only
    | simp only [id_eq]
  )

theorem execDrydownRequest_alters {p : Path} {s : State} {t0} (e : execDrydownRequest p s = .next t0) : Alters
    (Part.err ++ [Part.wbuf, Part.fab, Part.power, Part.life]) s t0 := by
  unfold execDrydownRequest at e
  try dsimp only at e
  repeat' split at e
  all_goals (injection e with e; subst e)
  all_goals try dsimp only
  repeat' (
    first
    | with_reducible (first | exact Alters.refl _ _ | apply Alters.ite | assumption | apply State.onWrite_alters |
                            apply State.orderDrydown_alters)
    | exact Alters.refl _ _
    | (refine (?_ : Part.le _ _ = true); decide)
    | intro _
    | with_reducible (first | rfl)
    | split
    | dsimp only
    | simp only [id_eq]
  )

theorem execRackOff_alters {ticks : Nat} {s : State} {t0} (e : execRackOff ticks s = .next t0) : Alters (Part.err ++
    [Part.fab, Part.power, Part.life]) s t0 := by
  unfold execRackOff at e
  try dsimp only at e
  repeat' split at e
  all_goals (injection e with e; subst e)
  all_goals try dsimp only
  repeat' (
    first
    | with_reducible (first | exact Alters.refl _ _ | apply Alters.ite | assumption | apply State.orderDrydown_alters)
    | exact Alters.refl _ _
    | (refine (?_ : Part.le _ _ = true); decide)
    | intro _
    | with_reducible (first | rfl)
    | split
    | dsimp only
    | simp only [id_eq]
  )

theorem execPllUnlock_alters {s : State} {t0} (e : execPllUnlock s = .next t0) : Alters (Part.err ++ [Part.fab, Part.power,
    Part.life]) s t0 := by
  unfold execPllUnlock at e
  try dsimp only at e
  repeat' split at e
  all_goals (injection e with e; subst e)
  all_goals try dsimp only
  repeat' (
    first
    | with_reducible (first | exact Alters.refl _ _ | apply Alters.ite | assumption | apply State.orderDrydown_alters |
                            apply State.wr_alters)
    | exact Alters.refl _ _
    | (refine (?_ : Part.le _ _ = true); decide)
    | intro _
    | with_reducible (first | rfl)
    | split
    | dsimp only
    | simp only [id_eq]
  )

theorem execThermalTrip_alters {r : Reading} {s : State} {t0} (e : execThermalTrip r s = .next t0) : Alters (Part.err
    ++ [Part.clk, Part.fab, Part.power, Part.life]) s t0 := by
  unfold execThermalTrip at e
  try dsimp only at e
  repeat' split at e
  all_goals (injection e with e; subst e)
  all_goals try dsimp only
  repeat' (
    first
    | with_reducible (first | exact Alters.refl _ _ | apply Alters.ite | assumption |
                          apply State.enterShed_alters | apply State.onLife_alters | apply State.orderDrydown_alters |
                          apply State.showReading_alters)
    | exact Alters.refl _ _
    | (refine (?_ : Part.le _ _ = true); decide)
    | intro _
    | with_reducible (first | rfl)
    | split
    | dsimp only
    | simp only [id_eq]
  )

theorem State.afterLoss_alters {s before : State} {ch : List Part} {s0 : State} (h0 : Alters ch s0 s) (hc : Part.le
    (Part.err ++ [Part.tile, Part.queue, Part.sig, Part.nose, Part.fab, Part.power, Part.life]) ch = true) : Alters ch
    s0 (State.afterLoss s before) := by
  unfold State.afterLoss
  try dsimp only
  repeat' (
    first
    | with_reducible (first | exact Alters.refl _ _ | apply Alters.ite | assumption |
                          apply State.forcedPark_alters | apply State.powerDrydown_alters)
    | exact Part.le_trans (by decide) hc
    | (refine (?_ : Part.le _ _ = true); decide)
    | intro _
    | with_reducible (first | rfl)
    | split
    | dsimp only
    | simp only [id_eq]
  )

theorem execCassetteRemove_alters {lost removed gained : BitVec 14} {bus : Option (Nat × Nat)} {s : State} {t0} (e :
    execCassetteRemove lost removed gained bus s = .next t0) : Alters (Part.err ++ [Part.tile, Part.queue, Part.sig,
    Part.nose, Part.fab, Part.power, Part.life]) s t0 := by
  unfold execCassetteRemove at e
  try dsimp only at e
  repeat' split at e
  all_goals (injection e with e; subst e)
  all_goals try dsimp only
  repeat' (
    first
    | with_reducible (first | exact Alters.refl _ _ | apply Alters.ite | assumption |
                          apply State.afterLoss_alters | apply State.loseCassettes_alters |
                          apply State.powerDrydown_alters)
    | exact Alters.refl _ _
    | (refine (?_ : Part.le _ _ = true); decide)
    | intro _
    | with_reducible (first | rfl)
    | split
    | dsimp only
    | simp only [id_eq]
  )

theorem State.tilesOff_alters {s : State} {d : Nat} {ch : List Part} {s0 : State} (h0 : Alters ch s0 s) (hc : Part.le
    [.cells, .tile, .stream] ch = true) : Alters ch s0 (State.tilesOff s d) := by
  unfold State.tilesOff
  try dsimp only
  repeat' (
    first
    | with_reducible (first | exact Alters.refl _ _ | apply Alters.ite | assumption | apply State.onStream_alters |
                            apply State.wr_alters)
    | exact Part.le_trans (by decide) hc
    | (refine (?_ : Part.le _ _ = true); decide)
    | intro _
    | with_reducible (first | rfl)
    | split
    | dsimp only
    | simp only [id_eq]
    | with_reducible (first | apply Alters.updR_tile)
  )

theorem State.railDown_alters {s : State} {r : Rail} {ch : List Part} {s0 : State} (h0 : Alters ch s0 s) (hc : Part.le
    (Part.err ++ [Part.tile, Part.mem, Part.stream, Part.queue, Part.sig, Part.nose, Part.coll, Part.fab, Part.power,
    Part.host]) ch = true) : Alters ch s0 (State.railDown s r) := by
  unfold State.railDown
  try dsimp only
  repeat' (
    first
    | with_reducible (first | exact Alters.refl _ _ | apply Alters.ite | assumption |
                          apply State.linkDown_alters | apply State.setRail_alters | apply State.tilesOff_alters)
    | exact Part.le_trans (by decide) hc
    | (refine (?_ : Part.le _ _ = true); decide)
    | intro _
    | with_reducible (first | rfl)
    | split
    | dsimp only
    | simp only [id_eq]
  )

theorem State.ddRail_alters {s : State} {r : Rail} {ch : List Part} {s0 : State} (h0 : Alters ch s0 s) (hc : Part.le
    [.cells] ch = true) : Alters ch s0 (State.ddRail s r) := by
  unfold State.ddRail
  try dsimp only
  repeat' (
    first
    | with_reducible (first | exact Alters.refl _ _ | apply Alters.ite | assumption | apply State.wr_alters)
    | exact Part.le_trans (by decide) hc
    | (refine (?_ : Part.le _ _ = true); decide)
    | intro _
    | with_reducible (first | rfl)
    | split
    | dsimp only
    | simp only [id_eq]
  )

theorem State.crowbar_alters {s : State} {r : Rail} {ch : List Part} {s0 : State} (h0 : Alters ch s0 s) (hc : Part.le
    (Part.err ++ [Part.tile, Part.mem, Part.stream, Part.queue, Part.sig, Part.nose, Part.coll, Part.fab, Part.power,
    Part.host]) ch = true) : Alters ch s0 (State.crowbar s r) := by
  unfold State.crowbar
  try dsimp only
  repeat' (
    first
    | with_reducible (first | exact Alters.refl _ _ | apply Alters.ite | assumption |
                          apply Alters.foldl | apply State.ddRail_alters | apply State.railDown_alters |
                          apply Alters.foldl1)
    | exact Part.le_trans (by decide) hc
    | (refine (?_ : Part.le _ _ = true); decide)
    | intro _
    | with_reducible (first | rfl)
    | split
    | dsimp only
    | simp only [id_eq]
  )

theorem State.iodieFail_alters {s : State} {i : Fin 12} {ch : List Part} {s0 : State} (h0 : Alters ch s0 s) (hc :
    Part.le (Part.err ++ [Part.tile, Part.mem, Part.stream, Part.queue, Part.sig, Part.nose, Part.coll, Part.fab,
    Part.power, Part.host]) ch = true) : Alters ch s0 (State.iodieFail s i) := by
  unfold State.iodieFail
  try dsimp only
  repeat' (
    first
    | with_reducible (first | exact Alters.refl _ _ | apply Alters.ite | assumption |
                          apply Alters.foldl | apply State.linkDown_alters | apply State.wr_alters | apply Alters.foldl1)
    | exact Part.le_trans (by decide) hc
    | (refine (?_ : Part.le _ _ = true); decide)
    | intro _
    | with_reducible (first | rfl)
    | split
    | dsimp only
    | simp only [id_eq]
  )

theorem execIodieFail_alters {i : Fin 12} {s : State} {t0} (e : execIodieFail i s = .next t0) : Alters (Part.err ++
    [Part.tile, Part.mem, Part.stream, Part.queue, Part.sig, Part.nose, Part.coll, Part.fab, Part.power, Part.host]) s
    t0 := by
  unfold execIodieFail at e
  try dsimp only at e
  repeat' split at e
  all_goals (injection e with e; subst e)
  all_goals try dsimp only
  repeat' (
    first
    | with_reducible (first | exact Alters.refl _ _ | apply Alters.ite | assumption |
                          apply State.iodieFail_alters)
    | exact Alters.refl _ _
    | (refine (?_ : Part.le _ _ = true); decide)
    | intro _
    | with_reducible (first | rfl)
    | split
    | dsimp only
    | simp only [id_eq]
  )

theorem State.edgeFails_alters {s : State} {e : Nat} {ch : List Part} {s0 : State} (h0 : Alters ch s0 s) (hc : Part.le
    (Part.err ++ [Part.mem]) ch = true) : Alters ch s0 (State.edgeFails s e) := by
  unfold State.edgeFails
  try dsimp only
  repeat' (
    first
    | with_reducible (first | exact Alters.refl _ _ | apply Alters.ite | assumption | apply Alters.foldl |
                            apply State.failStack_alters | apply Alters.foldl1)
    | exact Part.le_trans (by decide) hc
    | (refine (?_ : Part.le _ _ = true); decide)
    | intro _
    | with_reducible (first | rfl)
    | split
    | dsimp only
    | simp only [id_eq]
  )

theorem State.railFails_alters {s : State} {r : Rail} {ch : List Part} {s0 : State} (h0 : Alters ch s0 s) (hc :
    Part.le (Part.err ++ [Part.clk, Part.tile, Part.mem, Part.stream, Part.queue, Part.sig, Part.nose, Part.coll,
    Part.fab, Part.part, Part.power, Part.mgmt, Part.life, Part.host]) ch = true) : Alters ch s0 (State.railFails s r)
    := by
  unfold State.railFails
  try dsimp only
  repeat' (
    first
    | with_reducible (first | exact Alters.refl _ _ | apply Alters.ite | assumption |
                          apply Alters.foldl | apply State.cardOff_alters | apply State.crowbar_alters |
                          apply State.domainFault_alters | apply State.edgeFails_alters | apply State.iodieFail_alters |
                          apply State.leadGone_alters | apply State.powerDrydown_alters | apply State.railDown_alters |
                          apply State.sledLost_alters | apply State.standbyFell_alters | apply Alters.foldl1)
    | exact Part.le_trans (by decide) hc
    | (refine (?_ : Part.le _ _ = true); decide)
    | intro _
    | with_reducible (first | rfl)
    | split
    | dsimp only
    | simp only [id_eq]
  )

theorem execRailFail_alters {r : Rail} {s : State} {t0} (e : execRailFail r s = .next t0) : Alters (Part.err ++
    [Part.clk, Part.tile, Part.mem, Part.stream, Part.queue, Part.sig, Part.nose, Part.coll, Part.fab, Part.part,
    Part.power, Part.mgmt, Part.life, Part.host]) s t0 := by
  unfold execRailFail at e
  try dsimp only at e
  repeat' split at e
  all_goals (injection e with e; subst e)
  all_goals try dsimp only
  repeat' (
    first
    | with_reducible (first | exact Alters.refl _ _ | apply Alters.ite | assumption |
                          apply State.crowbar_alters | apply State.powerDrydown_alters | apply State.railFails_alters |
                          apply State.raise_alters)
    | exact Alters.refl _ _
    | (refine (?_ : Part.le _ _ = true); decide)
    | intro _
    | with_reducible (first | rfl)
    | split
    | dsimp only
    | simp only [id_eq]
  )

theorem State.stepOff_alters {s : State} {n stuck : Nat} {ch : List Part} {s0 : State} (h0 : Alters ch s0 s) (hc :
    Part.le (Part.err ++ [Part.tile, Part.mem, Part.stream, Part.queue, Part.sig, Part.nose, Part.coll, Part.fab,
    Part.power, Part.host]) ch = true) : Alters ch s0 (State.stepOff s n stuck) := by
  unfold State.stepOff
  try dsimp only
  repeat' (
    first
    | with_reducible (first | exact Alters.refl _ _ | apply Alters.ite | assumption |
                          apply Alters.foldl | apply State.ddRail_alters | apply State.logEntry_alters |
                          apply State.railDown_alters | apply Alters.foldl1)
    | exact Part.le_trans (by decide) hc
    | (refine (?_ : Part.le _ _ = true); decide)
    | intro _
    | with_reducible (first | rfl)
    | split
    | dsimp only
    | simp only [id_eq]
  )

theorem State.lastRecords_alters {s : State} {cause : Nat} {ch : List Part} {s0 : State} (h0 : Alters ch s0 s) (hc :
    Part.le [.free, .cells, .tagBytes, .tag, .island] ch = true) : Alters ch s0 (State.lastRecords s cause) := by
  unfold State.lastRecords
  try dsimp only
  repeat' (
    first
    | with_reducible (first | exact Alters.refl _ _ | apply Alters.ite | assumption | apply State.lastRecordDone_alters |
                            apply State.logEntry_alters | apply State.openBytes_alters | apply State.queueTag_alters |
                            apply State.seal_alters | apply State.tagCommit_alters |
                            apply Alters.of_pair2 (by assumption) | apply Alters.of_pair (by assumption))
    | exact Part.le_trans (by decide) hc
    | (refine (?_ : Part.le _ _ = true); decide)
    | intro _
    | with_reducible (first | rfl)
    | split
    | dsimp only
    | simp only [id_eq]
  )

theorem State.enterOff_alters {s : State} {ch : List Part} {s0 : State} (h0 : Alters ch s0 s) (hc : Part.le [.cells,
    .power] ch = true) : Alters ch s0 (State.enterOff s) := by
  unfold State.enterOff
  try dsimp only
  repeat' (
    first
    | with_reducible (first | exact Alters.refl _ _ | apply Alters.ite | assumption | apply State.onPower_alters |
                            apply State.wr_alters)
    | exact Part.le_trans (by decide) hc
    | (refine (?_ : Part.le _ _ = true); decide)
    | intro _
    | with_reducible (first | rfl)
    | split
    | dsimp only
    | simp only [id_eq]
  )

theorem State.flushSleds_alters {s : State} {ch : List Part} {s0 : State} (h0 : Alters ch s0 s) (hc : Part.le [.out]
    ch = true) : Alters ch s0 (State.flushSleds s) := by
  unfold State.flushSleds
  try dsimp only
  repeat' (
    first
    | with_reducible (first | exact Alters.refl _ _ | apply Alters.ite | assumption |
                          apply Alters.foldl | apply State.emit_alters | apply Alters.foldl1)
    | exact Part.le_trans (by decide) hc
    | (refine (?_ : Part.le _ _ = true); decide)
    | intro _
    | with_reducible (first | rfl)
    | split
    | dsimp only
    | simp only [id_eq]
  )

theorem State.stepActs_alters {s : State} {d : Drydown} {ch : List Part} {s0 : State} (h0 : Alters ch s0 s) (hc :
    Part.le [.free, .cells, .tagBytes, .tag, .island, .power, .out] ch = true) : Alters ch s0 (State.stepActs s d) :=
    by
  unfold State.stepActs
  try dsimp only
  repeat' (
    first
    | with_reducible (first | exact Alters.refl _ _ | apply Alters.ite | assumption |
                          apply State.enterOff_alters | apply State.flushSleds_alters | apply State.lastRecords_alters |
                          apply State.onPower_alters)
    | exact Part.le_trans (by decide) hc
    | (refine (?_ : Part.le _ _ = true); decide)
    | intro _
    | with_reducible (first | rfl)
    | split
    | dsimp only
    | simp only [id_eq]
  )

theorem State.holdupLost_alters {s : State} {ch : List Part} {s0 : State} (h0 : Alters ch s0 s) (hc : Part.le [.cells,
    .island, .power] ch = true) : Alters ch s0 (State.holdupLost s) := by
  unfold State.holdupLost
  try dsimp only
  repeat' (
    first
    | with_reducible (first | exact Alters.refl _ _ | apply Alters.ite | assumption | apply State.enterOff_alters |
                            apply State.onIsland_alters)
    | exact Part.le_trans (by decide) hc
    | (refine (?_ : Part.le _ _ = true); decide)
    | intro _
    | with_reducible (first | rfl)
    | split
    | dsimp only
    | simp only [id_eq]
  )

theorem State.dryStep_alters {s : State} {d : Drydown} {stuck : Nat} {ch : List Part} {s0 : State} (h0 : Alters ch s0
    s) (hc : Part.le (Part.err ++ [Part.shadow, Part.pend, Part.act, Part.prev, Part.hold, Part.wbuf, Part.commit, Part.clk, Part.ptp, Part.words, Part.tile,
    Part.memBytes, Part.mem, Part.stream, Part.queue, Part.sig, Part.nose, Part.coll, Part.fab, Part.part, Part.tagBytes, Part.pathVal, Part.power, Part.boot, Part.mgmt,
    Part.host]) ch = true) : Alters ch s0 (State.dryStep s d stuck) := by
  unfold State.dryStep
  try dsimp only
  repeat' (
    first
    | with_reducible (first | exact Alters.refl _ _ | apply Alters.ite | assumption | apply State.onPower_alters |
                            apply State.stepActs_alters | apply State.stepOff_alters | apply State.toFused_alters |
                            apply State.wr_alters)
    | exact Part.le_trans (by decide) hc
    | (refine (?_ : Part.le _ _ = true); decide)
    | intro _
    | with_reducible (first | rfl)
    | split
    | dsimp only
    | simp only [id_eq]
  )

theorem execDrydownStep_alters {flushed low : Bool} {stuck : BitVec 10} {holdup : Bool} {s : State} {t0} (e :
    execDrydownStep flushed low stuck holdup s = .next t0) : Alters (Part.err ++ [Part.shadow, Part.pend, Part.act,
    Part.prev, Part.hold, Part.wbuf, Part.commit, Part.clk, Part.ptp, Part.words, Part.tile, Part.memBytes, Part.mem,
    Part.stream, Part.queue, Part.sig, Part.nose, Part.coll, Part.fab, Part.part, Part.tagBytes, Part.pathVal,
    Part.power, Part.boot, Part.mgmt, Part.host]) s t0 := by
  unfold execDrydownStep at e
  try dsimp only at e
  repeat' split at e
  all_goals (injection e with e; subst e)
  all_goals try dsimp only
  repeat' (
    first
    | with_reducible (first | exact Alters.refl _ _ | apply Alters.ite | assumption |
                          apply State.dryStep_alters | apply State.enterOff_alters | apply State.holdupLost_alters)
    | exact Alters.refl _ _
    | (refine (?_ : Part.le _ _ = true); decide)
    | intro _
    | with_reducible (first | rfl)
    | split
    | dsimp only
    | simp only [id_eq]
  )

theorem State.warmReset_alters {s : State} {ch : List Part} {s0 : State} (h0 : Alters ch s0 s) (hc : Part.le (Part.err
    ++ [Part.fab, Part.power]) ch = true) : Alters ch s0 (State.warmReset s) := by
  unfold State.warmReset
  try dsimp only
  repeat' (
    first
    | with_reducible (first | exact Alters.refl _ _ | apply Alters.ite | assumption | apply State.journal_alters |
                            apply State.leave_alters | apply State.onPower_alters | apply State.wr_alters)
    | exact Part.le_trans (by decide) hc
    | (refine (?_ : Part.le _ _ = true); decide)
    | intro _
    | with_reducible (first | rfl)
    | split
    | dsimp only
    | simp only [id_eq]
  )

theorem execWarmReset_alters {p : Path} {s : State} {t0} (e : execWarmReset p s = .next t0) : Alters (Part.err ++
    [Part.wbuf, Part.fab, Part.power]) s t0 := by
  unfold execWarmReset at e
  try dsimp only at e
  repeat' split at e
  all_goals (injection e with e; subst e)
  all_goals try dsimp only
  repeat' (
    first
    | with_reducible (first | exact Alters.refl _ _ | apply Alters.ite | assumption | apply State.onWrite_alters |
                            apply State.warmReset_alters | apply State.wr_alters)
    | exact Alters.refl _ _
    | (refine (?_ : Part.le _ _ = true); decide)
    | intro _
    | with_reducible (first | rfl)
    | split
    | dsimp only
    | simp only [id_eq]
  )

theorem execPowerOn_alters {ev : PowerEvent} {sram : Bool} {s : State} {t0} (e : execPowerOn ev sram s = .next t0) :
    Alters (Part.err ++ [Part.shadow, Part.pend, Part.act, Part.prev, Part.hold, Part.wbuf, Part.commit, Part.clk, Part.ptp, Part.words, Part.tile, Part.memBytes,
    Part.mem, Part.stream, Part.queue, Part.sig, Part.nose, Part.coll, Part.fab, Part.part, Part.pathVal, Part.power, Part.boot, Part.mgmt, Part.host]) s t0 := by
  unfold execPowerOn at e
  try dsimp only at e
  repeat' split at e
  all_goals (injection e with e; subst e)
  all_goals try dsimp only
  repeat' (
    first
    | with_reducible (first | exact Alters.refl _ _ | apply Alters.ite | assumption | apply State.toFused_alters)
    | exact Alters.refl _ _
    | (refine (?_ : Part.le _ _ = true); decide)
    | intro _
    | with_reducible (first | rfl)
    | split
    | dsimp only
    | simp only [id_eq]
  )

end Sys2Proof.Machine
end

