-- ==== Sys2Proof/Laws/AltersBringup.lean ====
section
/-! SUPPORT. What each operation of Machine/Bringup.lean alters. -/

-- One closing tactic serves every lemma here; where a goal needs few of its steps the linters name the rest.
set_option linter.all false
set_option Elab.async false

namespace Sys2Proof.Machine

theorem State.onBoot_alters {s : State} {g : BootSt → BootSt} {ch : List Part} {s0 : State} (h0 : Alters ch s0 s) (hc
    : Part.le [.boot] ch = true) : Alters ch s0 (State.onBoot s g) := by
  unfold State.onBoot
  try dsimp only
  repeat' (
    first
    | with_reducible (first | exact Alters.refl _ _ | apply Alters.ite | assumption)
    | exact Part.le_trans (by decide) hc
    | (refine (?_ : Part.le _ _ = true); decide)
    | intro _
    | with_reducible (first | rfl)
    | split
    | dsimp only
    | simp only [id_eq]
    | with_reducible (first | apply Alters.upd_boot)
  )

theorem execEnfleurageEntry_alters {holdup bus12 : Bool} {s : State} {t0} (e : execEnfleurageEntry holdup bus12 s =
    .next t0) : Alters [.cells, .boot] s t0 := by
  unfold execEnfleurageEntry at e
  try dsimp only at e
  repeat' split at e
  all_goals (injection e with e; subst e)
  all_goals try dsimp only
  repeat' (
    first
    | with_reducible (first | exact Alters.refl _ _ | apply Alters.ite | assumption | apply State.flag_alters |
                            apply State.onBoot_alters | apply State.wr_alters)
    | exact Alters.refl _ _
    | (refine (?_ : Part.le _ _ = true); decide)
    | intro _
    | with_reducible (first | rfl)
    | split
    | dsimp only
    | simp only [id_eq]
  )

theorem State.endStep_alters {s : State} {n : Nat} {ch : List Part} {s0 : State} (h0 : Alters ch s0 s) (hc : Part.le
    [.cells, .boot] ch = true) : Alters ch s0 (State.endStep s n) := by
  unfold State.endStep
  try dsimp only
  repeat' (
    first
    | with_reducible (first | exact Alters.refl _ _ | apply Alters.ite | assumption | apply State.onBoot_alters |
                            apply State.wr_alters)
    | exact Part.le_trans (by decide) hc
    | (refine (?_ : Part.le _ _ = true); decide)
    | intro _
    | with_reducible (first | rfl)
    | split
    | dsimp only
    | simp only [id_eq]
  )

theorem State.railUp_alters {s : State} {r : Rail} {ch : List Part} {s0 : State} (h0 : Alters ch s0 s) (hc : Part.le
    [.cells, .power] ch = true) : Alters ch s0 (State.railUp s r) := by
  unfold State.railUp
  try dsimp only
  repeat' (
    first
    | with_reducible (first | exact Alters.refl _ _ | apply Alters.ite | assumption | apply State.onPower_alters |
                            apply State.setRail_alters | apply State.steerDom_alters | apply State.wr_alters)
    | exact Part.le_trans (by decide) hc
    | (refine (?_ : Part.le _ _ = true); decide)
    | intro _
    | with_reducible (first | rfl)
    | split
    | dsimp only
    | simp only [id_eq]
  )

theorem execRailTurn_alters {ok : Bool} {s : State} {t0} (e : execRailTurn ok s = .next t0) : Alters (Part.err ++
    [Part.power, Part.boot]) s t0 := by
  unfold execRailTurn at e
  try dsimp only at e
  repeat' split at e
  all_goals (injection e with e; subst e)
  all_goals try dsimp only
  repeat' (
    first
    | with_reducible (first | exact Alters.refl _ _ | apply Alters.ite | assumption | apply Alters.foldl |
                            apply State.endStep_alters | apply State.enterFault_alters | apply State.onBoot_alters |
                            apply State.railUp_alters | apply State.raise_alters | apply Alters.foldl1)
    | exact Alters.refl _ _
    | (refine (?_ : Part.le _ _ = true); decide)
    | intro _
    | with_reducible (first | rfl)
    | split
    | dsimp only
    | simp only [id_eq]
  )

theorem State.blowFuses_alters {s : State} {slot : Nat} {ch : List Part} {s0 : State} (h0 : Alters ch s0 s) (hc :
    Part.le [.cells, .fuses] ch = true) : Alters ch s0 (State.blowFuses s slot) :=
  State.flag_alters (State.wr_alters (Alters.upd_fuses h0 (Part.le_trans (by decide) hc)) (Part.le_trans (by decide) hc)) (Part.le_trans (by decide) hc)

theorem State.imageLoad_alters {s : State} {slot : Nat} {ch : List Part} {s0 : State} (h0 : Alters ch s0 s) (hc :
    Part.le (Part.err ++ [Part.fuses, Part.boot]) ch = true) : Alters ch s0 (State.imageLoad s slot) := by
  unfold State.imageLoad
  try dsimp only
  repeat' (
    first
    | with_reducible (first | exact Alters.refl _ _ | apply Alters.ite | assumption | apply State.blowFuses_alters |
                            apply State.endStep_alters | apply State.onBoot_alters | apply State.raise_alters |
                            apply State.wr_alters)
    | exact Part.le_trans (by decide) hc
    | (refine (?_ : Part.le _ _ = true); decide)
    | intro _
    | with_reducible (first | rfl)
    | split
    | dsimp only
    | simp only [id_eq]
  )

theorem execImageCheck_alters {s : State} {t0} (e : execImageCheck s = .next t0) : Alters (Part.err ++ [Part.power,
    Part.fuses, Part.boot]) s t0 := by
  unfold execImageCheck at e
  try dsimp only at e
  repeat' split at e
  all_goals (injection e with e; subst e)
  all_goals try dsimp only
  repeat' (
    first
    | with_reducible (first | exact Alters.refl _ _ | apply Alters.ite | assumption | apply State.enterFault_alters |
                            apply State.imageLoad_alters | apply State.onBoot_alters | apply State.raise_alters |
                            apply State.wr_alters)
    | exact Alters.refl _ _
    | (refine (?_ : Part.le _ _ = true); decide)
    | intro _
    | with_reducible (first | rfl)
    | split
    | dsimp only
    | simp only [id_eq]
  )

theorem execFwStartTimeout_alters {s : State} {t0} (e : execFwStartTimeout s = .next t0) : Alters (Part.err ++
    [Part.power, Part.boot]) s t0 := by
  unfold execFwStartTimeout at e
  try dsimp only at e
  repeat' split at e
  all_goals (injection e with e; subst e)
  all_goals try dsimp only
  repeat' (
    first
    | with_reducible (first | exact Alters.refl _ _ | apply Alters.ite | assumption | apply State.enterFault_alters |
                            apply State.onBoot_alters | apply State.raise_alters | apply State.wr_alters)
    | exact Alters.refl _ _
    | (refine (?_ : Part.le _ _ = true); decide)
    | intro _
    | with_reducible (first | rfl)
    | split
    | dsimp only
    | simp only [id_eq]
  )

theorem State.fwReady_alters {s : State} {ch : List Part} {s0 : State} (h0 : Alters ch s0 s) (hc : Part.le [.free,
    .cells, .tag, .boot, .mgmt] ch = true) : Alters ch s0 (State.fwReady s) := by
  unfold State.fwReady
  try dsimp only
  repeat' (
    first
    | with_reducible (first | exact Alters.refl _ _ | apply Alters.ite | assumption |
                          apply State.endStep_alters | apply State.journal_alters | apply State.onMgmt_alters |
                          apply State.startCard_alters | apply State.wr_alters)
    | exact Part.le_trans (by decide) hc
    | (refine (?_ : Part.le _ _ = true); decide)
    | intro _
    | with_reducible (first | rfl)
    | split
    | dsimp only
    | simp only [id_eq]
  )

theorem execFwReady_alters {p : Path} {s : State} {t0} (e : execFwReady p s = .next t0) : Alters (Part.err ++ [Part.wbuf,
    Part.boot, Part.mgmt]) s t0 := by
  unfold execFwReady at e
  try dsimp only at e
  repeat' split at e
  all_goals (injection e with e; subst e)
  all_goals try dsimp only
  repeat' (
    first
    | with_reducible (first | exact Alters.refl _ _ | apply Alters.ite | assumption | apply State.fwReady_alters |
                            apply State.onWrite_alters)
    | exact Alters.refl _ _
    | (refine (?_ : Part.le _ _ = true); decide)
    | intro _
    | with_reducible (first | rfl)
    | split
    | dsimp only
    | simp only [id_eq]
  )

theorem State.mapRow_alters {s : State} {r : Nat} {ch : List Part} {s0 : State} (h0 : Alters ch s0 s) (hc : Part.le
    [.cells] ch = true) : Alters ch s0 (State.mapRow s r) := by
  unfold State.mapRow
  try dsimp only
  repeat' (
    first
    | with_reducible (first | exact Alters.refl _ _ | apply Alters.ite | assumption | apply Alters.foldl |
                            apply State.addFailed_alters | apply State.markRetired_alters | apply State.wr_alters |
                            apply Alters.foldl1)
    | exact Part.le_trans (by decide) hc
    | (refine (?_ : Part.le _ _ = true); decide)
    | intro _
    | with_reducible (first | rfl)
    | split
    | dsimp only
    | simp only [id_eq]
  )

theorem State.applyMaps_alters {s : State} {ch : List Part} {s0 : State} (h0 : Alters ch s0 s) (hc : Part.le Part.err
    ch = true) : Alters ch s0 (State.applyMaps s) := by
  unfold State.applyMaps
  try dsimp only
  repeat' (
    first
    | with_reducible (first | exact Alters.refl _ _ | apply Alters.ite | assumption |
                          apply Alters.foldl | apply State.mapRow_alters | apply State.raiseAll_alters |
                          apply State.wr_alters | apply Alters.foldl1)
    | exact Part.le_trans (by decide) hc
    | (refine (?_ : Part.le _ _ = true); decide)
    | intro _
    | with_reducible (first | rfl)
    | split
    | dsimp only
    | simp only [id_eq]
  )

theorem State.companionOut_alters {s : State} {c : Companion} {ch : List Part} {s0 : State} (h0 : Alters ch s0 s) (hc
    : Part.le (Part.err ++ [Part.power]) ch = true) : Alters ch s0 (State.companionOut s c) := by
  unfold State.companionOut
  try dsimp only
  repeat' (
    first
    | with_reducible (first | exact Alters.refl _ _ | apply Alters.ite | assumption | apply State.onPower_alters |
                            apply State.setHealthy_alters | apply State.wr_alters)
    | exact Part.le_trans (by decide) hc
    | (refine (?_ : Part.le _ _ = true); decide)
    | intro _
    | with_reducible (first | rfl)
    | split
    | dsimp only
    | simp only [id_eq]
  )

theorem State.stepMaps_alters {s : State} {missing : List Companion} {ch : List Part} {s0 : State} (h0 : Alters ch s0
    s) (hc : Part.le (Part.err ++ [Part.tile, Part.queue, Part.sig, Part.nose, Part.fab, Part.power, Part.boot,
    Part.life]) ch = true) : Alters ch s0 (State.stepMaps s missing) := by
  unfold State.stepMaps
  try dsimp only
  repeat' (
    first
    | with_reducible (first | exact Alters.refl _ _ | apply Alters.ite | assumption |
                          apply Alters.foldl | apply State.afterLoss_alters | apply State.applyMaps_alters |
                          apply State.companionOut_alters | apply State.endStep_alters | apply State.onBoot_alters |
                          apply State.raiseAll_alters | apply State.wr_alters | apply Alters.foldl1)
    | exact Part.le_trans (by decide) hc
    | (refine (?_ : Part.le _ _ = true); decide)
    | intro _
    | with_reducible (first | rfl)
    | split
    | dsimp only
    | simp only [id_eq]
  )

theorem State.dropClaims_alters {s : State} {ch : List Part} {s0 : State} (h0 : Alters ch s0 s) (hc : Part.le [.cells]
    ch = true) : Alters ch s0 (State.dropClaims s) := by
  unfold State.dropClaims
  try dsimp only
  repeat' (
    first
    | with_reducible (first | exact Alters.refl _ _ | apply Alters.ite | assumption |
                          apply Alters.foldl | apply State.wr_alters | apply Alters.foldl1)
    | exact Part.le_trans (by decide) hc
    | (refine (?_ : Part.le _ _ = true); decide)
    | intro _
    | with_reducible (first | rfl)
    | split
    | dsimp only
    | simp only [id_eq]
  )

theorem State.stepFill_alters {s : State} {ch : List Part} {s0 : State} (h0 : Alters ch s0 s) (hc : Part.le (Part.err
    ++ [Part.mem, Part.fab, Part.boot]) ch = true) : Alters ch s0 (State.stepFill s) := by
  unfold State.stepFill
  try dsimp only
  repeat' (
    first
    | with_reducible (first | exact Alters.refl _ _ | apply Alters.ite | assumption |
                          apply Alters.foldl | apply State.attached__alters | apply State.dropClaims_alters |
                          apply State.endStep_alters | apply State.rebuildSled_alters | apply State.wr_alters |
                          apply Alters.foldl1)
    | exact Part.le_trans (by decide) hc
    | (refine (?_ : Part.le _ _ = true); decide)
    | intro _
    | with_reducible (first | rfl)
    | split
    | dsimp only
    | simp only [id_eq]
  )

theorem State.stepLinks_alters {s : State} {ch : List Part} {s0 : State} (h0 : Alters ch s0 s) (hc : Part.le [.cells,
    .fab, .msix, .out] ch = true) : Alters ch s0 (State.stepLinks s) := by
  unfold State.stepLinks
  try dsimp only
  repeat' (
    first
    | with_reducible (first | exact Alters.refl _ _ | apply Alters.ite | assumption |
                          apply Alters.foldl | apply State.linkEnable_alters | apply Alters.foldl1)
    | exact Part.le_trans (by decide) hc
    | (refine (?_ : Part.le _ _ = true); decide)
    | intro _
    | with_reducible (first | rfl)
    | split
    | dsimp only
    | simp only [id_eq]
  )

theorem State.enfClear_alters {s : State} {ch : List Part} {s0 : State} (h0 : Alters ch s0 s) (hc : Part.le [.cells,
    .sig, .nose, .coll, .fab] ch = true) : Alters ch s0 (State.enfClear s) := by
  unfold State.enfClear
  try dsimp only
  repeat' (
    first
    | with_reducible (first | exact Alters.refl _ _ | apply Alters.ite | assumption |
                          apply State.wr_alters)
    | exact Part.le_trans (by decide) hc
    | (refine (?_ : Part.le _ _ = true); decide)
    | intro _
    | with_reducible (first | rfl)
    | split
    | dsimp only
    | simp only [id_eq]
    | with_reducible (first | apply Alters.upd_regscells_sig_nose_coll_fab)
  )

theorem State.stepReady_alters {s : State} {ch : List Part} {s0 : State} (h0 : Alters ch s0 s) (hc : Part.le [.cells,
    .sig, .nose, .coll, .fab, .power] ch = true) : Alters ch s0 (State.stepReady s) := by
  unfold State.stepReady
  try dsimp only
  repeat' (
    first
    | with_reducible (first | exact Alters.refl _ _ | apply Alters.ite | assumption |
                          apply State.enfClear_alters | apply State.steer_alters | apply State.wr_alters)
    | exact Part.le_trans (by decide) hc
    | (refine (?_ : Part.le _ _ = true); decide)
    | intro _
    | with_reducible (first | rfl)
    | split
    | dsimp only
    | simp only [id_eq]
  )

theorem execEnfleurageStep_alters {x : EnfStep} {s : State} {t0} (e : execEnfleurageStep x s = .next t0) : Alters
    (Part.err ++ [Part.tile, Part.mem, Part.queue, Part.sig, Part.nose, Part.coll, Part.fab, Part.power, Part.boot,
    Part.life]) s t0 := by
  unfold execEnfleurageStep at e
  try dsimp only at e
  repeat' split at e
  all_goals (injection e with e; subst e)
  all_goals try dsimp only
  repeat' (
    first
    | with_reducible (first | exact Alters.refl _ _ | apply Alters.ite | assumption |
                          apply State.endStep_alters | apply State.enterFault_alters | apply State.raise_alters |
                          apply State.stepFill_alters | apply State.stepLinks_alters | apply State.stepMaps_alters |
                          apply State.stepReady_alters | apply State.wr_alters)
    | exact Alters.refl _ _
    | (refine (?_ : Part.le _ _ = true); decide)
    | intro _
    | with_reducible (first | rfl)
    | split
    | dsimp only
    | simp only [id_eq]
  )

theorem State.partRun_alters {s : State} {p : Nat} {ch : List Part} {s0 : State} (h0 : Alters ch s0 s) (hc : Part.le
    (Part.err ++ [Part.part]) ch = true) : Alters ch s0 (State.partRun s p) := by
  unfold State.partRun
  try dsimp only
  repeat' (
    first
    | with_reducible (first | exact Alters.refl _ _ | apply Alters.ite | assumption | apply State.clearHolder_alters |
                            apply State.raise_alters | apply State.setPartState_alters)
    | exact Part.le_trans (by decide) hc
    | (refine (?_ : Part.le _ _ = true); decide)
    | intro _
    | with_reducible (first | rfl)
    | split
    | dsimp only
    | simp only [id_eq]
  )

theorem State.partQuiesce_alters {s : State} {p : Nat} {ch : List Part} {s0 : State} (h0 : Alters ch s0 s) (hc :
    Part.le [.cells, .part] ch = true) : Alters ch s0 (State.partQuiesce s p) := by
  unfold State.partQuiesce
  try dsimp only
  repeat' (
    first
    | with_reducible (first | exact Alters.refl _ _ | apply Alters.ite | assumption | apply State.setHolder_alters)
    | exact Part.le_trans (by decide) hc
    | (refine (?_ : Part.le _ _ = true); decide)
    | intro _
    | with_reducible (first | rfl)
    | split
    | dsimp only
    | simp only [id_eq]
  )

theorem State.partCtrl_alters {s : State} {p op : Nat} {ch : List Part} {s0 : State} (h0 : Alters ch s0 s) (hc :
    Part.le [.cells] ch = true) : Alters ch s0 (State.partCtrl s p op) := by
  unfold State.partCtrl
  try dsimp only
  repeat' (
    first
    | with_reducible (first | exact Alters.refl _ _ | apply Alters.ite | assumption | apply State.wr_alters)
    | exact Part.le_trans (by decide) hc
    | (refine (?_ : Part.le _ _ = true); decide)
    | intro _
    | with_reducible (first | rfl)
    | split
    | dsimp only
    | simp only [id_eq]
  )

theorem execPartRun_alters {p : Path} {part : Fin 8} {s : State} {t0} (e : execPartRun p part s = .next t0) : Alters
    (Part.err ++ [Part.wbuf, Part.part]) s t0 := by
  unfold execPartRun at e
  try dsimp only at e
  repeat' split at e
  all_goals (injection e with e; subst e)
  all_goals try dsimp only
  repeat' (
    first
    | with_reducible (first | exact Alters.refl _ _ | apply Alters.ite | assumption | apply State.onWrite_alters |
                            apply State.partCtrl_alters | apply State.partRun_alters)
    | exact Alters.refl _ _
    | (refine (?_ : Part.le _ _ = true); decide)
    | intro _
    | with_reducible (first | rfl)
    | split
    | dsimp only
    | simp only [id_eq]
  )

theorem execPartQuiesce_alters {p : Path} {part : Fin 8} {s : State} {t0} (e : execPartQuiesce p part s = .next t0) :
    Alters (Part.err ++ [Part.wbuf, Part.part]) s t0 := by
  unfold execPartQuiesce at e
  try dsimp only at e
  repeat' split at e
  all_goals (injection e with e; subst e)
  all_goals try dsimp only
  repeat' (
    first
    | with_reducible (first | exact Alters.refl _ _ | apply Alters.ite | assumption | apply State.onWrite_alters |
                            apply State.partCtrl_alters | apply State.partQuiesce_alters)
    | exact Alters.refl _ _
    | (refine (?_ : Part.le _ _ = true); decide)
    | intro _
    | with_reducible (first | rfl)
    | split
    | dsimp only
    | simp only [id_eq]
  )

theorem State.hostPark_alters {s : State} {p : Nat} {ch : List Part} {s0 : State} (h0 : Alters ch s0 s) (hc : Part.le
    (Part.err ++ [Part.tile, Part.part, Part.power, Part.host]) ch = true) : Alters ch s0 (State.hostPark s p) := by
  unfold State.hostPark
  try dsimp only
  repeat' (
    first
    | with_reducible (first | exact Alters.refl _ _ | apply Alters.ite | assumption |
                          apply State.bump_alters | apply State.irq_alters | apply State.onHost_alters |
                          apply State.onPart_alters | apply State.parkNow_alters | apply State.raise_alters)
    | exact Part.le_trans (by decide) hc
    | (refine (?_ : Part.le _ _ = true); decide)
    | intro _
    | with_reducible (first | rfl)
    | split
    | dsimp only
    | simp only [id_eq]
  )

theorem execQuiesceReached_alters {part : Fin 8} {s : State} {t0} (e : execQuiesceReached part s = .next t0) : Alters
    (Part.err ++ [Part.tile, Part.part, Part.power, Part.host]) s t0 := by
  unfold execQuiesceReached at e
  try dsimp only at e
  repeat' split at e
  all_goals (injection e with e; subst e)
  all_goals try dsimp only
  repeat' (
    first
    | with_reducible (first | exact Alters.refl _ _ | apply Alters.ite | assumption | apply State.hostPark_alters |
                            apply State.reachQuiesce_alters | apply State.showShift_alters)
    | exact Alters.refl _ _
    | (refine (?_ : Part.le _ _ = true); decide)
    | intro _
    | with_reducible (first | rfl)
    | split
    | dsimp only
    | simp only [id_eq]
  )

theorem execReattachExpiry_alters {s : State} {t0} (e : execReattachExpiry s = .next t0) : Alters [.cells, .part,
    .host] s t0 := by
  unfold execReattachExpiry at e
  try dsimp only at e
  repeat' split at e
  all_goals (injection e with e; subst e)
  all_goals try dsimp only
  repeat' (
    first
    | with_reducible (first | exact Alters.refl _ _ | apply Alters.ite | assumption | apply Alters.foldl |
                            apply State.onHost_alters | apply State.setHolder_alters | apply Alters.foldl1)
    | exact Alters.refl _ _
    | (refine (?_ : Part.le _ _ = true); decide)
    | intro _
    | with_reducible (first | rfl)
    | split
    | dsimp only
    | simp only [id_eq]
  )

theorem State.kick_alters {s : State} {p : Path} {ch : List Part} {s0 : State} (h0 : Alters ch s0 s) (hc : Part.le
    [.boot] ch = true) : Alters ch s0 (State.kick s p) := by
  unfold State.kick
  try dsimp only
  repeat' (
    first
    | with_reducible (first | exact Alters.refl _ _ | apply Alters.ite | assumption | apply State.onBoot_alters)
    | exact Part.le_trans (by decide) hc
    | (refine (?_ : Part.le _ _ = true); decide)
    | intro _
    | with_reducible (first | rfl)
    | split
    | dsimp only
    | simp only [id_eq]
  )

theorem execWdogKick_alters {p : Path} {s : State} {t0} (e : execWdogKick p s = .next t0) : Alters (Part.err ++
    [Part.wbuf, Part.boot]) s t0 := by
  unfold execWdogKick at e
  try dsimp only at e
  repeat' split at e
  all_goals (injection e with e; subst e)
  all_goals try dsimp only
  repeat' (
    first
    | with_reducible (first | exact Alters.refl _ _ | apply Alters.ite | assumption | apply State.kick_alters |
                            apply State.onWrite_alters)
    | exact Alters.refl _ _
    | (refine (?_ : Part.le _ _ = true); decide)
    | intro _
    | with_reducible (first | rfl)
    | split
    | dsimp only
    | simp only [id_eq]
  )

theorem execWdogExpiry_alters {s : State} {t0} (e : execWdogExpiry s = .next t0) : Alters (Part.err ++ [Part.fab, Part.power,
    Part.boot, Part.life]) s t0 := by
  unfold execWdogExpiry at e
  try dsimp only at e
  repeat' split at e
  all_goals (injection e with e; subst e)
  all_goals try dsimp only
  repeat' (
    first
    | with_reducible (first | exact Alters.refl _ _ | apply Alters.ite | assumption | apply State.onBoot_alters |
                            apply State.orderDrydown_alters)
    | exact Alters.refl _ _
    | (refine (?_ : Part.le _ _ = true); decide)
    | intro _
    | with_reducible (first | rfl)
    | split
    | dsimp only
    | simp only [id_eq]
  )

theorem State.prelClear_alters {s : State} {ch : List Part} {s0 : State} (h0 : Alters ch s0 s) (hc : Part.le (Part.err
    ++ [Part.mem, Part.queue, Part.fab]) ch = true) : Alters ch s0 (State.prelClear s) := by
  unfold State.prelClear
  try dsimp only
  repeat' (
    first
    | with_reducible (first | exact Alters.refl _ _ | apply Alters.ite | assumption | apply Alters.foldl |
                            apply State.endHeld_alters | apply State.endRelease_alters | apply Alters.foldl1)
    | exact Part.le_trans (by decide) hc
    | (refine (?_ : Part.le _ _ = true); decide)
    | intro _
    | with_reducible (first | rfl)
    | split
    | dsimp only
    | simp only [id_eq]
  )

theorem execPrelClear_alters {p : Path} {s : State} {t0} (e : execPrelClear p s = .next t0) : Alters (Part.err ++
    [Part.wbuf, Part.mem, Part.queue, Part.fab]) s t0 := by
  unfold execPrelClear at e
  try dsimp only at e
  repeat' split at e
  all_goals (injection e with e; subst e)
  all_goals try dsimp only
  repeat' (
    first
    | with_reducible (first | exact Alters.refl _ _ | apply Alters.ite | assumption | apply State.onWrite_alters |
                            apply State.prelClear_alters)
    | exact Alters.refl _ _
    | (refine (?_ : Part.le _ _ = true); decide)
    | intro _
    | with_reducible (first | rfl)
    | split
    | dsimp only
    | simp only [id_eq]
  )

end Sys2Proof.Machine
end

