-- ==== Sys2Proof/Laws/AltersHost.lean ====
section
/-! SUPPORT. What each operation of Machine/Host.lean alters. -/

-- One closing tactic serves every lemma here; where a goal needs few of its steps the linters name the rest.
set_option linter.all false
set_option Elab.async false

namespace Sys2Proof.Machine

theorem State.serveParts_alters {s : State} {ch : List Part} {s0 : State} (h0 : Alters ch s0 s) (hc : Part.le [.cells]
    ch = true) : Alters ch s0 (State.serveParts s) := by
  unfold State.serveParts
  try dsimp only
  repeat' (
    first
    | with_reducible (first | exact Alters.refl _ _ | apply Alters.ite | assumption | apply Alters.foldl |
                            apply State.wr_alters | apply Alters.foldl1)
    | exact Part.le_trans (by decide) hc
    | (refine (?_ : Part.le _ _ = true); decide)
    | intro _
    | with_reducible (first | rfl)
    | split
    | dsimp only
    | simp only [id_eq]
  )

theorem State.resetFn_alters {s : State} {port : Port} {fn : Nat} {ch : List Part} {s0 : State} (h0 : Alters ch s0 s)
    (hc : Part.le [.msix, .host] ch = true) : Alters ch s0 (State.resetFn s port fn) := by
  unfold State.resetFn
  try dsimp only
  repeat' (
    first
    | with_reducible (first | exact Alters.refl _ _ | apply Alters.ite | assumption)
    | exact Part.le_trans (by decide) hc
    | (refine (?_ : Part.le _ _ = true); decide)
    | intro _
    | with_reducible (first | rfl)
    | split
    | dsimp only
    | simp only [id_eq]
    | with_reducible (first | apply Alters.upd_msix_host)
  )

theorem State.dropReqs_alters {s : State} {c : HostReq → Bool} {ch : List Part} {s0 : State} (h0 : Alters ch s0 s) (hc
    : Part.le [.host] ch = true) : Alters ch s0 (State.dropReqs s c) := by
  unfold State.dropReqs
  try dsimp only
  repeat' (
    first
    | with_reducible (first | exact Alters.refl _ _ | apply Alters.ite | assumption |
                          apply Alters.foldl | apply State.onHost_alters | apply Alters.foldl1)
    | exact Part.le_trans (by decide) hc
    | (refine (?_ : Part.le _ _ = true); decide)
    | intro _
    | with_reducible (first | rfl)
    | split
    | dsimp only
    | simp only [id_eq]
  )

theorem State.endWrite_alters {s : State} {r : HostReq} {ch : List Part} {s0 : State} (h0 : Alters ch s0 s) (hc :
    Part.le (Part.err ++ [Part.queue, Part.nose]) ch = true) : Alters ch s0 (State.endWrite s r) := by
  unfold State.endWrite
  try dsimp only
  repeat' (
    first
    | with_reducible (first | exact Alters.refl _ _ | apply Alters.ite | assumption |
                          apply State.bump_alters | apply State.flightErr_alters | apply State.onFlight_alters |
                          apply State.raiseFor_alters)
    | exact Part.le_trans (by decide) hc
    | (refine (?_ : Part.le _ _ = true); decide)
    | intro _
    | with_reducible (first | rfl)
    | split
    | dsimp only
    | simp only [id_eq]
  )

theorem State.endHost_alters {s : State} {p : Nat} {ch : List Part} {s0 : State} (h0 : Alters ch s0 s) (hc : Part.le
    (Part.err ++ [Part.tile, Part.mem, Part.stream, Part.queue, Part.nose, Part.fab, Part.power, Part.host]) ch =
    true) : Alters ch s0 (State.endHost s p) := by
  unfold State.endHost
  try dsimp only
  repeat' (
    first
    | with_reducible (first | exact Alters.refl _ _ | apply Alters.ite | assumption |
                          apply Alters.foldl | apply State.bump_alters | apply State.dropReqs_alters |
                          apply State.endWrite_alters | apply State.failFetch_alters | apply State.raiseFor_alters |
                          apply Alters.foldl1)
    | exact Part.le_trans (by decide) hc
    | (refine (?_ : Part.le _ _ = true); decide)
    | intro _
    | with_reducible (first | rfl)
    | split
    | dsimp only
    | simp only [id_eq]
  )

theorem State.hostPause_alters {s : State} {p : Nat} {b : Bool} {ch : List Part} {s0 : State} (h0 : Alters ch s0 s)
    (hc : Part.le [.cells] ch = true) : Alters ch s0 (State.hostPause s p b) := by
  unfold State.hostPause
  try dsimp only
  repeat' (
    first
    | with_reducible (first | exact Alters.refl _ _ | apply Alters.ite | assumption | apply Alters.foldl |
                            apply State.showQueue_alters | apply State.wr_alters | apply Alters.foldl1)
    | exact Part.le_trans (by decide) hc
    | (refine (?_ : Part.le _ _ = true); decide)
    | intro _
    | with_reducible (first | rfl)
    | split
    | dsimp only
    | simp only [id_eq]
  )

theorem State.hostLoss_alters {s : State} {ch : List Part} {s0 : State} (h0 : Alters ch s0 s) (hc : Part.le (Part.err
    ++ [Part.tile, Part.mem, Part.stream, Part.queue, Part.nose, Part.fab, Part.power, Part.host]) ch = true) : Alters
    ch s0 (State.hostLoss s) := by
  unfold State.hostLoss
  try dsimp only
  repeat' (
    first
    | with_reducible (first | exact Alters.refl _ _ | apply Alters.ite | assumption |
                          apply Alters.foldl | apply State.bump_alters | apply State.endHost_alters |
                          apply State.hostPause_alters | apply State.irq_alters | apply State.onHost_alters |
                          apply State.raise_alters | apply State.wr_alters | apply Alters.foldl1)
    | exact Part.le_trans (by decide) hc
    | (refine (?_ : Part.le _ _ = true); decide)
    | intro _
    | with_reducible (first | rfl)
    | split
    | dsimp only
    | simp only [id_eq]
  )

theorem State.failover_alters {s : State} {port : Port} {resent : Nat} {ch : List Part} {s0 : State} (h0 : Alters ch
    s0 s) (hc : Part.le (Part.err ++ [Part.host]) ch = true) : Alters ch s0 (State.failover s port resent) := by
  unfold State.failover
  try dsimp only
  repeat' (
    first
    | with_reducible (first | exact Alters.refl _ _ | apply Alters.ite | assumption |
                          apply Alters.foldl | apply State.bump_alters | apply State.irq_alters |
                          apply State.onHost_alters | apply State.raise_alters | apply State.wr_alters |
                          apply Alters.foldl1)
    | exact Part.le_trans (by decide) hc
    | (refine (?_ : Part.le _ _ = true); decide)
    | intro _
    | with_reducible (first | rfl)
    | split
    | dsimp only
    | simp only [id_eq]
  )

theorem State.portLost_alters {s : State} {port : Port} {reset : Bool} {resent : Nat} {ch : List Part} {s0 : State}
    (h0 : Alters ch s0 s) (hc : Part.le (Part.err ++ [Part.tile, Part.mem, Part.stream, Part.queue, Part.nose,
    Part.fab, Part.power, Part.host]) ch = true) : Alters ch s0 (State.portLost s port reset resent) := by
  unfold State.portLost
  try dsimp only
  repeat' (
    first
    | with_reducible (first | exact Alters.refl _ _ | apply Alters.ite | assumption |
                          apply Alters.foldl | apply State.failover_alters | apply State.hostLoss_alters |
                          apply State.irq_alters | apply State.onHost_alters | apply State.resetFn_alters |
                          apply State.wr_alters | apply Alters.foldl1)
    | exact Part.le_trans (by decide) hc
    | (refine (?_ : Part.le _ _ = true); decide)
    | intro _
    | with_reducible (first | rfl)
    | split
    | dsimp only
    | simp only [id_eq]
  )

theorem State.present_alters {s : State} {port : Port} {fns : List Nat} {ch : List Part} {s0 : State} (h0 : Alters ch
    s0 s) (hc : Part.le [.out] ch = true) : Alters ch s0 (State.present s port fns) := by
  unfold State.present
  try dsimp only
  repeat' (
    first
    | with_reducible (first | exact Alters.refl _ _ | apply Alters.ite | assumption |
                          apply Alters.foldl | apply State.emit_alters | apply Alters.foldl1)
    | exact Part.le_trans (by decide) hc
    | (refine (?_ : Part.le _ _ = true); decide)
    | intro _
    | with_reducible (first | rfl)
    | split
    | dsimp only
    | simp only [id_eq]
  )

theorem execPortAttach_alters {port : Port} {width rate : Nat} {cfg : PortCfg} {s : State} {t0} (e : execPortAttach
    port width rate cfg s = .next t0) : Alters (Part.err ++ [Part.tile, Part.mem, Part.stream, Part.queue, Part.nose,
    Part.fab, Part.power, Part.host]) s t0 := by
  unfold execPortAttach at e
  try dsimp only at e
  repeat' split at e
  all_goals (injection e with e; subst e)
  all_goals try dsimp only
  repeat' (
    first
    | with_reducible (first | exact Alters.refl _ _ | apply Alters.ite | assumption |
                          apply State.flag_alters | apply State.irq_alters | apply State.onHost_alters |
                          apply State.portLost_alters | apply State.present_alters | apply State.serveParts_alters |
                          apply State.wr_alters)
    | exact Alters.refl _ _
    | (refine (?_ : Part.le _ _ = true); decide)
    | intro _
    | with_reducible (first | rfl)
    | split
    | dsimp only
    | simp only [id_eq]
  )

theorem execPortDetach_alters {port : Port} {linkUp : Bool} {resent : Nat} {s : State} {t0} (e : execPortDetach port
    linkUp resent s = .next t0) : Alters (Part.err ++ [Part.tile, Part.mem, Part.stream, Part.queue, Part.nose,
    Part.fab, Part.power, Part.host]) s t0 := by
  unfold execPortDetach at e
  try dsimp only at e
  repeat' split at e
  all_goals (injection e with e; subst e)
  all_goals try dsimp only
  repeat' (
    first
    | with_reducible (first | exact Alters.refl _ _ | apply Alters.ite | assumption |
                          apply State.flag_alters | apply State.portLost_alters | apply State.wr_alters)
    | exact Alters.refl _ _
    | (refine (?_ : Part.le _ _ = true); decide)
    | intro _
    | with_reducible (first | rfl)
    | split
    | dsimp only
    | simp only [id_eq]
  )

theorem execVfFlr_alters {port : Port} {part : Fin 8} {s : State} {t0} (e : execVfFlr port part s = .next t0) : Alters
    (Part.err ++ [Part.tile, Part.mem, Part.stream, Part.queue, Part.nose, Part.fab, Part.power, Part.host]) s t0 :=
    by
  unfold execVfFlr at e
  try dsimp only at e
  repeat' split at e
  all_goals (injection e with e; subst e)
  all_goals try dsimp only
  repeat' (
    first
    | with_reducible (first | exact Alters.refl _ _ | apply Alters.ite | assumption |
                          apply State.endHost_alters | apply State.hostPause_alters | apply State.onHost_alters |
                          apply State.resetFn_alters | apply State.wr_alters)
    | exact Alters.refl _ _
    | (refine (?_ : Part.le _ _ = true); decide)
    | intro _
    | with_reducible (first | rfl)
    | split
    | dsimp only
    | simp only [id_eq]
  )

theorem State.claimPart_alters {s : State} {p : Nat} {ch : List Part} {s0 : State} (h0 : Alters ch s0 s) (hc : Part.le
    [.cells, .part, .host] ch = true) : Alters ch s0 (State.claimPart s p) := by
  unfold State.claimPart
  try dsimp only
  repeat' (
    first
    | with_reducible (first | exact Alters.refl _ _ | apply Alters.ite | assumption | apply State.clearHolder_alters |
                            apply State.hostPause_alters | apply State.onHost_alters)
    | exact Part.le_trans (by decide) hc
    | (refine (?_ : Part.le _ _ = true); decide)
    | intro _
    | with_reducible (first | rfl)
    | split
    | dsimp only
    | simp only [id_eq]
  )

theorem State.claimed_alters {s : State} {port : Port} {fn : Nat} {ps : List Nat} {ch : List Part} {s0 : State} (h0 :
    Alters ch s0 s) (hc : Part.le [.cells, .part, .host] ch = true) : Alters ch s0 (State.claimed s port fn ps) := by
  unfold State.claimed
  try dsimp only
  repeat' (
    first
    | with_reducible (first | exact Alters.refl _ _ | apply Alters.ite | assumption | apply Alters.foldl |
                            apply State.bump_alters | apply State.claimPart_alters | apply State.onHost_alters |
                            apply Alters.foldl1)
    | exact Part.le_trans (by decide) hc
    | (refine (?_ : Part.le _ _ = true); decide)
    | intro _
    | with_reducible (first | rfl)
    | split
    | dsimp only
    | simp only [id_eq]
  )

theorem State.claim_alters {s : State} {port : Port} {fn : Nat} {ch : List Part} {s0 : State} (h0 : Alters ch s0 s)
    (hc : Part.le (Part.err ++ [Part.part, Part.host]) ch = true) : Alters ch s0 (State.claim s port fn) := by
  unfold State.claim
  try dsimp only
  repeat' (
    first
    | with_reducible (first | exact Alters.refl _ _ | apply Alters.ite | assumption | apply State.claimed_alters |
                            apply State.onHost_alters | apply State.raise_alters | apply State.serveParts_alters |
                            apply State.wr_alters)
    | exact Part.le_trans (by decide) hc
    | (refine (?_ : Part.le _ _ = true); decide)
    | intro _
    | with_reducible (first | rfl)
    | split
    | dsimp only
    | simp only [id_eq]
  )

theorem execClaim_alters {port : Port} {fn : Fin 9} {s : State} {t0} (e : execClaim port fn s = .next t0) : Alters
    (Part.err ++ [Part.part, Part.host]) s t0 := by
  unfold execClaim at e
  try dsimp only at e
  repeat' split at e
  all_goals (injection e with e; subst e)
  all_goals try dsimp only
  repeat' (
    first
    | with_reducible (first | exact Alters.refl _ _ | apply Alters.ite | assumption | apply State.claim_alters |
                            apply State.countRx_alters)
    | exact Alters.refl _ _
    | (refine (?_ : Part.le _ _ = true); decide)
    | intro _
    | with_reducible (first | rfl)
    | split
    | dsimp only
    | simp only [id_eq]
  )

theorem State.rearmVec_alters {s : State} {port : Port} {fn vec : Nat} {ch : List Part} {s0 : State} (h0 : Alters ch
    s0 s) (hc : Part.le [.msix, .host, .out] ch = true) : Alters ch s0 (State.rearmVec s port fn vec) := by
  unfold State.rearmVec
  try dsimp only
  repeat' (
    first
    | with_reducible (first | exact Alters.refl _ _ | apply Alters.ite | assumption | apply State.latch_alters |
                            apply State.onHost_alters)
    | exact Part.le_trans (by decide) hc
    | (refine (?_ : Part.le _ _ = true); decide)
    | intro _
    | with_reducible (first | rfl)
    | split
    | dsimp only
    | simp only [id_eq]
  )

theorem execRearm_alters {port : Port} {fn : Fin 9} {vec : Fin 128} {s : State} {t0} (e : execRearm port fn vec s =
    .next t0) : Alters [.cells, .msix, .host, .out] s t0 := by
  unfold execRearm at e
  try dsimp only at e
  repeat' split at e
  all_goals (injection e with e; subst e)
  all_goals try dsimp only
  repeat' (
    first
    | with_reducible (first | exact Alters.refl _ _ | apply Alters.ite | assumption | apply State.countRx_alters |
                            apply State.rearmVec_alters)
    | exact Alters.refl _ _
    | (refine (?_ : Part.le _ _ = true); decide)
    | intro _
    | with_reducible (first | rfl)
    | split
    | dsimp only
    | simp only [id_eq]
  )

theorem State.unmask_alters {s : State} {port : Port} {fn vec : Nat} {ch : List Part} {s0 : State} (h0 : Alters ch s0
    s) (hc : Part.le [.msix, .out] ch = true) : Alters ch s0 (State.unmask s port fn vec) := by
  unfold State.unmask
  try dsimp only
  repeat' (
    first
    | with_reducible (first | exact Alters.refl _ _ | apply Alters.ite | assumption |
                          apply State.emit_alters)
    | exact Part.le_trans (by decide) hc
    | (refine (?_ : Part.le _ _ = true); decide)
    | intro _
    | with_reducible (first | rfl)
    | split
    | dsimp only
    | simp only [id_eq]
    | with_reducible (first | apply Alters.upd_msix)
  )

theorem State.maskVec_alters {s : State} {port : Port} {fn vec : Nat} {ch : List Part} {s0 : State} (h0 : Alters ch s0
    s) (hc : Part.le [.msix] ch = true) : Alters ch s0 (State.maskVec s port fn vec) := by
  unfold State.maskVec
  try dsimp only
  repeat' (
    first
    | with_reducible (first | exact Alters.refl _ _ | apply Alters.ite | assumption)
    | exact Part.le_trans (by decide) hc
    | (refine (?_ : Part.le _ _ = true); decide)
    | intro _
    | with_reducible (first | rfl)
    | split
    | dsimp only
    | simp only [id_eq]
    | with_reducible (first | apply Alters.upd_msix)
  )

theorem execMsixUnmask_alters {port : Port} {fn : Fin 9} {vec : Fin 128} {s : State} {t0} (e : execMsixUnmask port fn
    vec s = .next t0) : Alters [.cells, .msix, .out] s t0 := by
  unfold execMsixUnmask at e
  try dsimp only at e
  repeat' split at e
  all_goals (injection e with e; subst e)
  all_goals try dsimp only
  repeat' (
    first
    | with_reducible (first | exact Alters.refl _ _ | apply Alters.ite | assumption | apply State.countRx_alters |
                            apply State.unmask_alters)
    | exact Alters.refl _ _
    | (refine (?_ : Part.le _ _ = true); decide)
    | intro _
    | with_reducible (first | rfl)
    | split
    | dsimp only
    | simp only [id_eq]
  )

theorem State.partPort_alters {s : State} {v : Nat} {ch : List Part} {s0 : State} (h0 : Alters ch s0 s) (hc : Part.le
    [.cells, .host] ch = true) : Alters ch s0 (State.partPort s v) := by
  unfold State.partPort
  try dsimp only
  repeat' (
    first
    | with_reducible (first | exact Alters.refl _ _ | apply Alters.ite | assumption | apply Alters.foldl |
                            apply State.onHost_alters | apply State.wr_alters | apply Alters.foldl1)
    | exact Part.le_trans (by decide) hc
    | (refine (?_ : Part.le _ _ = true); decide)
    | intro _
    | with_reducible (first | rfl)
    | split
    | dsimp only
    | simp only [id_eq]
  )

theorem execPartPortWrite_alters {p : Path} {v : BitVec 8} {s : State} {t0} (e : execPartPortWrite p v s = .next t0) :
    Alters (Part.err ++ [Part.wbuf, Part.host]) s t0 := by
  unfold execPartPortWrite at e
  try dsimp only at e
  repeat' split at e
  all_goals (injection e with e; subst e)
  all_goals try dsimp only
  repeat' (
    first
    | with_reducible (first | exact Alters.refl _ _ | apply Alters.ite | assumption | apply State.onWrite_alters |
                            apply State.partPort_alters)
    | exact Alters.refl _ _
    | (refine (?_ : Part.le _ _ = true); decide)
    | intro _
    | with_reducible (first | rfl)
    | split
    | dsimp only
    | simp only [id_eq]
  )

theorem execPortMove_alters {part : Fin 8} {s : State} {t0} (e : execPortMove part s = .next t0) : Alters [.cells,
    .host] s t0 := by
  unfold execPortMove at e
  try dsimp only at e
  repeat' split at e
  all_goals (injection e with e; subst e)
  all_goals try dsimp only
  repeat' (
    first
    | with_reducible (first | exact Alters.refl _ _ | apply Alters.ite | assumption | apply State.onHost_alters |
                            apply State.wr_alters)
    | exact Alters.refl _ _
    | (refine (?_ : Part.le _ _ = true); decide)
    | intro _
    | with_reducible (first | rfl)
    | split
    | dsimp only
    | simp only [id_eq]
  )

theorem State.landData_alters {s : State} {m : MergeEntry} {x : Xfer} {ch : List Part} {s0 : State} (h0 : Alters ch s0
    s) (hc : Part.le (Part.err ++ [Part.tile, Part.mem, Part.stream, Part.queue, Part.nose, Part.fab, Part.power,
    Part.host]) ch = true) : Alters ch s0 (State.landData s m x) := by
  unfold State.landData
  try dsimp only
  repeat' (
    first
    | with_reducible (first | exact Alters.refl _ _ | apply Alters.ite | assumption |
                          apply State.failFetch_alters | apply State.fetched_alters | apply State.hostBytes_alters |
                          apply State.raiseFor_alters)
    | exact Part.le_trans (by decide) hc
    | (refine (?_ : Part.le _ _ = true); decide)
    | intro _
    | with_reducible (first | rfl)
    | split
    | dsimp only
    | simp only [id_eq]
  )

theorem State.hostAnswer_alters {s : State} {m : MergeEntry} {x : Xfer} {h : HostAnswer} {ch : List Part} {s0 : State}
    (h0 : Alters ch s0 s) (hc : Part.le (Part.err ++ [Part.tile, Part.mem, Part.stream, Part.queue, Part.nose,
    Part.fab, Part.power, Part.host]) ch = true) : Alters ch s0 (State.hostAnswer s m x h) := by
  unfold State.hostAnswer
  try dsimp only
  repeat' (
    first
    | with_reducible (first | exact Alters.refl _ _ | apply Alters.ite | assumption |
                          apply State.countCorrected_alters | apply State.dropReqs_alters | apply State.failFetch_alters |
                          apply State.landData_alters | apply State.logPoison_alters | apply State.raiseFor_alters)
    | exact Part.le_trans (by decide) hc
    | (refine (?_ : Part.le _ _ = true); decide)
    | intro _
    | with_reducible (first | rfl)
    | split
    | dsimp only
    | simp only [id_eq]
  )

theorem execHostCompletion_alters {t : HostTarget} {h : HostAnswer} {s : State} {t0} (e : execHostCompletion t h s =
    .next t0) : Alters (Part.err ++ [Part.tile, Part.mem, Part.stream, Part.queue, Part.nose, Part.fab, Part.power,
    Part.host]) s t0 := by
  unfold execHostCompletion at e
  try dsimp only at e
  repeat' split at e
  all_goals (injection e with e; subst e)
  all_goals try dsimp only
  repeat' (
    first
    | with_reducible (first | exact Alters.refl _ _ | apply Alters.ite | assumption |
                          apply State.hostAnswer_alters | apply State.onHost_alters | apply Alters.ofGiven)
    | exact Alters.refl _ _
    | (refine (?_ : Part.le _ _ = true); decide)
    | intro _
    | with_reducible (first | rfl)
    | split
    | dsimp only
    | simp only [id_eq]
  )

end Sys2Proof.Machine
end

