-- ==== Sys2Proof/Laws/AltersCommit.lean ====
section
/-! SUPPORT. What each operation of Machine/Commit.lean alters. -/

-- One closing tactic serves every lemma here; where a goal needs few of its steps the linters name the rest.
set_option linter.all false
set_option Elab.async false

namespace Sys2Proof.Machine

theorem State.onCommit_alters {s : State} {g : CommitSt → CommitSt} {ch : List Part} {s0 : State} (h0 : Alters ch s0
    s) (hc : Part.le [.commit] ch = true) : Alters ch s0 (State.onCommit s g) := by
  unfold State.onCommit
  try dsimp only
  repeat' (
    first
    | with_reducible (first | exact Alters.refl _ _ | apply Alters.ite | assumption)
    | exact Part.le_trans (by decide) hc
    | (refine (?_ : Part.le _ _ = true); decide)
    | intro _
    | with_reducible (first | rfl)
    | split
    | dsimp only
    | simp only [id_eq]
    | with_reducible (first | apply Alters.upd_commit)
  )

theorem State.ownEntry_alters {s : State} {n : Nat} {ch : List Part} {s0 : State} (h0 : Alters ch s0 s) (hc : Part.le
    [.cells, .coll] ch = true) : Alters ch s0 (State.ownEntry s n) := by
  unfold State.ownEntry
  try dsimp only
  repeat' (
    first
    | with_reducible (first | exact Alters.refl _ _ | apply Alters.ite | assumption | apply Alters.foldl |
                            apply State.onColl_alters | apply State.wr_alters | apply Alters.foldl1)
    | exact Part.le_trans (by decide) hc
    | (refine (?_ : Part.le _ _ = true); decide)
    | intro _
    | with_reducible (first | rfl)
    | split
    | dsimp only
    | simp only [id_eq]
  )

theorem State.partTable_alters {s before : State} {p : Nat} {ch : List Part} {s0 : State} (h0 : Alters ch s0 s) (hc :
    Part.le [.cells, .tile, .power] ch = true) : Alters ch s0 (State.partTable s before p) := by
  unfold State.partTable
  try dsimp only
  repeat' (
    first
    | with_reducible (first | exact Alters.refl _ _ | apply Alters.ite | assumption |
                          apply State.flag_alters | apply State.gateTiles_alters | apply State.setParked_alters |
                          apply State.setPartState_alters | apply State.wr_alters)
    | exact Part.le_trans (by decide) hc
    | (refine (?_ : Part.le _ _ = true); decide)
    | intro _
    | with_reducible (first | rfl)
    | split
    | dsimp only
    | simp only [id_eq]
  )

theorem State.showParts_alters {s before : State} {ch : List Part} {s0 : State} (h0 : Alters ch s0 s) (hc : Part.le
    [.cells] ch = true) : Alters ch s0 (State.showParts s before) := by
  unfold State.showParts
  try dsimp only
  repeat' (
    first
    | with_reducible (first | exact Alters.refl _ _ | apply Alters.ite | assumption |
                          apply Alters.foldl | apply State.wr_alters | apply Alters.foldl1)
    | exact Part.le_trans (by decide) hc
    | (refine (?_ : Part.le _ _ = true); decide)
    | intro _
    | with_reducible (first | rfl)
    | split
    | dsimp only
    | simp only [id_eq]
  )

theorem State.applyTable_alters {s before : State} {ch : List Part} {s0 : State} (h0 : Alters ch s0 s) (hc : Part.le
    [.cells, .clk, .tile, .coll, .power] ch = true) : Alters ch s0 (State.applyTable s before) := by
  unfold State.applyTable
  try dsimp only
  repeat' (
    first
    | with_reducible (first | exact Alters.refl _ _ | apply Alters.ite | assumption |
                          apply Alters.foldl | apply State.dropRow_alters | apply State.ownEntry_alters |
                          apply State.partTable_alters | apply State.showFrac_alters | apply State.showParts_alters |
                          apply State.steer_alters | apply Alters.foldl1)
    | exact Part.le_trans (by decide) hc
    | (refine (?_ : Part.le _ _ = true); decide)
    | intro _
    | with_reducible (first | rfl)
    | split
    | dsimp only
    | simp only [id_eq]
  )

theorem State.showMissing_alters {s : State} {ch : List Part} {s0 : State} (h0 : Alters ch s0 s) (hc : Part.le
    [.cells] ch = true) : Alters ch s0 (State.showMissing s) := by
  unfold State.showMissing
  try dsimp only
  repeat' (
    first
    | with_reducible (first | exact Alters.refl _ _ | apply Alters.ite | assumption | apply State.wr_alters)
    | exact Part.le_trans (by decide) hc
    | (refine (?_ : Part.le _ _ = true); decide)
    | intro _
    | with_reducible (first | rfl)
    | split
    | dsimp only
    | simp only [id_eq]
  )

theorem State.toPending_alters {s : State} {c : Nat → Bool} {ch : List Part} {s0 : State} (h0 : Alters ch s0 s) (hc :
    Part.le [.pend] ch = true) : Alters ch s0 (State.toPending s c) := by
  unfold State.toPending
  try dsimp only
  repeat' (
    first
    | with_reducible (first | exact Alters.refl _ _ | apply Alters.ite | assumption)
    | exact Part.le_trans (by decide) hc
    | (refine (?_ : Part.le _ _ = true); decide)
    | intro _
    | with_reducible (first | rfl)
    | split
    | dsimp only
    | simp only [id_eq]
    | with_reducible (first | apply Alters.upd_regspend)
  )

theorem State.toActive_alters {s : State} {c : Nat → Bool} {ch : List Part} {s0 : State} (h0 : Alters ch s0 s) (hc :
    Part.le [.act, .prev] ch = true) : Alters ch s0 (State.toActive s c) := by
  unfold State.toActive
  try dsimp only
  repeat' (
    first
    | with_reducible (first | exact Alters.refl _ _ | apply Alters.ite | assumption)
    | exact Part.le_trans (by decide) hc
    | (refine (?_ : Part.le _ _ = true); decide)
    | intro _
    | with_reducible (first | rfl)
    | split
    | dsimp only
    | simp only [id_eq]
    | with_reducible (first | apply Alters.upd_regsact_regsprev)
  )

theorem State.toPrevious_alters {s : State} {c : Nat → Bool} {ch : List Part} {s0 : State} (h0 : Alters ch s0 s) (hc :
    Part.le [.act] ch = true) : Alters ch s0 (State.toPrevious s c) := by
  unfold State.toPrevious
  try dsimp only
  repeat' (
    first
    | with_reducible (first | exact Alters.refl _ _ | apply Alters.ite | assumption)
    | exact Part.le_trans (by decide) hc
    | (refine (?_ : Part.le _ _ = true); decide)
    | intro _
    | with_reducible (first | rfl)
    | split
    | dsimp only
    | simp only [id_eq]
    | with_reducible (first | apply Alters.upd_regsact)
  )

theorem State.startCommit_alters {s : State} {parts : Nat} {glob : Bool} {by_ : Option (Nat × Nat)} {ch : List Part}
    {s0 : State} (h0 : Alters ch s0 s) (hc : Part.le [.cells, .commit] ch = true) : Alters ch s0 (State.startCommit s
    parts glob by_) := by
  unfold State.startCommit
  try dsimp only
  repeat' (
    first
    | with_reducible (first | exact Alters.refl _ _ | apply Alters.ite | assumption | apply Alters.foldl |
                            apply State.showMissing_alters | apply State.wr_alters | apply Alters.foldl1)
    | exact Part.le_trans (by decide) hc
    | (refine (?_ : Part.le _ _ = true); decide)
    | intro _
    | with_reducible (first | rfl)
    | split
    | dsimp only
    | simp only [id_eq]
    | with_reducible (first | apply Alters.upd_commit)
  )

theorem State.showScope_alters {s : State} {ch : List Part} {s0 : State} (h0 : Alters ch s0 s) (hc : Part.le [.cells]
    ch = true) : Alters ch s0 (State.showScope s) := by
  unfold State.showScope
  try dsimp only
  repeat' (
    first
    | with_reducible (first | exact Alters.refl _ _ | apply Alters.ite | assumption | apply Alters.foldl |
                            apply State.showQueue_alters | apply Alters.foldl1)
    | exact Part.le_trans (by decide) hc
    | (refine (?_ : Part.le _ _ = true); decide)
    | intro _
    | with_reducible (first | rfl)
    | split
    | dsimp only
    | simp only [id_eq]
  )

theorem State.hold_alters {s : State} {e : Option Err} {ch : List Part} {s0 : State} (h0 : Alters ch s0 s) (hc :
    Part.le (Part.err ++ [Part.commit]) ch = true) : Alters ch s0 (State.hold s e) := by
  unfold State.hold
  try dsimp only
  repeat' (
    first
    | with_reducible (first | exact Alters.refl _ _ | apply Alters.ite | assumption | apply State.onCommit_alters |
                            apply State.raise_alters | apply State.showScope_alters | apply State.wr_alters)
    | exact Part.le_trans (by decide) hc
    | (refine (?_ : Part.le _ _ = true); decide)
    | intro _
    | with_reducible (first | rfl)
    | split
    | dsimp only
    | simp only [id_eq]
  )

theorem State.endCommit_alters {s : State} {result : Nat} {ch : List Part} {s0 : State} (h0 : Alters ch s0 s) (hc :
    Part.le [.cells, .commit] ch = true) : Alters ch s0 (State.endCommit s result) := by
  unfold State.endCommit
  try dsimp only
  repeat' (
    first
    | with_reducible (first | exact Alters.refl _ _ | apply Alters.ite | assumption | apply State.onCommit_alters |
                            apply State.showScope_alters | apply State.wr_alters)
    | exact Part.le_trans (by decide) hc
    | (refine (?_ : Part.le _ _ = true); decide)
    | intro _
    | with_reducible (first | rfl)
    | split
    | dsimp only
    | simp only [id_eq]
  )

theorem State.checkApplied_alters {s : State} {ch : List Part} {s0 : State} (h0 : Alters ch s0 s) (hc : Part.le
    (Part.err ++ [Part.commit, Part.queue, Part.sig, Part.nose]) ch = true) : Alters ch s0 (State.checkApplied s) :=
    by
  unfold State.checkApplied
  try dsimp only
  repeat' (
    first
    | with_reducible (first | exact Alters.refl _ _ | apply Alters.ite | assumption |
                          apply State.endCommit_alters | apply State.onFlight_alters | apply State.settle_alters |
                          apply State.wr_alters)
    | exact Part.le_trans (by decide) hc
    | (refine (?_ : Part.le _ _ = true); decide)
    | intro _
    | with_reducible (first | rfl)
    | split
    | dsimp only
    | simp only [id_eq]
  )

theorem State.ackPage_alters {s : State} {pg : Nat} {ch : List Part} {s0 : State} (h0 : Alters ch s0 s) (hc : Part.le
    (Part.err ++ [Part.commit, Part.queue, Part.sig, Part.nose]) ch = true) : Alters ch s0 (State.ackPage s pg) := by
  unfold State.ackPage
  try dsimp only
  repeat' (
    first
    | with_reducible (first | exact Alters.refl _ _ | apply Alters.ite | assumption | apply State.checkApplied_alters |
                            apply State.edge_alters | apply State.onCommit_alters | apply State.showMissing_alters |
                            apply State.wr_alters)
    | exact Part.le_trans (by decide) hc
    | (refine (?_ : Part.le _ _ = true); decide)
    | intro _
    | with_reducible (first | rfl)
    | split
    | dsimp only
    | simp only [id_eq]
  )

theorem State.nakPage_alters {s : State} {pg : Nat} {ch : List Part} {s0 : State} (h0 : Alters ch s0 s) (hc : Part.le
    Part.err ch = true) : Alters ch s0 (State.nakPage s pg) := by
  unfold State.nakPage
  try dsimp only
  repeat' (
    first
    | with_reducible (first | exact Alters.refl _ _ | apply Alters.ite | assumption | apply State.raise_alters |
                            apply State.wr_alters)
    | exact Part.le_trans (by decide) hc
    | (refine (?_ : Part.le _ _ = true); decide)
    | intro _
    | with_reducible (first | rfl)
    | split
    | dsimp only
    | simp only [id_eq]
  )

theorem State.refuseCommit_alters {s : State} {ch : List Part} {s0 : State} (h0 : Alters ch s0 s) (hc : Part.le
    (Part.err ++ [Part.commit]) ch = true) : Alters ch s0 (State.refuseCommit s) := by
  unfold State.refuseCommit
  try dsimp only
  repeat' (
    first
    | with_reducible (first | exact Alters.refl _ _ | apply Alters.ite | assumption | apply State.hold_alters |
                            apply State.wr_alters)
    | exact Part.le_trans (by decide) hc
    | (refine (?_ : Part.le _ _ = true); decide)
    | intro _
    | with_reducible (first | rfl)
    | split
    | dsimp only
    | simp only [id_eq]
  )

theorem State.commitCycle_alters {s : State} {ch : List Part} {s0 : State} (h0 : Alters ch s0 s) (hc : Part.le
    (Part.err ++ [Part.pend, Part.commit, Part.queue, Part.sig, Part.nose]) ch = true) : Alters ch s0
    (State.commitCycle s) := by
  unfold State.commitCycle
  try dsimp only
  repeat' (
    first
    | with_reducible (first | exact Alters.refl _ _ | apply Alters.ite | assumption |
                          apply Alters.foldl | apply State.checkApplied_alters | apply State.nakPage_alters |
                          apply State.onCommit_alters | apply State.refuseCommit_alters | apply State.showScope_alters |
                          apply State.toPending_alters | apply State.wr_alters | apply Alters.foldl1)
    | exact Part.le_trans (by decide) hc
    | (refine (?_ : Part.le _ _ = true); decide)
    | intro _
    | with_reducible (first | rfl)
    | split
    | dsimp only
    | simp only [id_eq]
  )

theorem execCommitCycle_alters {s : State} {t0} (e : execCommitCycle s = .next t0) : Alters (Part.err ++ [Part.pend,
    Part.commit, Part.queue, Part.sig, Part.nose]) s t0 := by
  unfold execCommitCycle at e
  try dsimp only at e
  repeat' split at e
  all_goals (injection e with e; subst e)
  all_goals try dsimp only
  repeat' (
    first
    | with_reducible (first | exact Alters.refl _ _ | apply Alters.ite | assumption | apply State.commitCycle_alters)
    | exact Alters.refl _ _
    | (refine (?_ : Part.le _ _ = true); decide)
    | intro _
    | with_reducible (first | rfl)
    | split
    | dsimp only
    | simp only [id_eq]
  )

theorem execCommitEpoch_alters {s : State} {t0} (e : execCommitEpoch s = .next t0) : Alters [.cells, .commit] s t0 :=
    by
  unfold execCommitEpoch at e
  try dsimp only at e
  repeat' split at e
  all_goals (injection e with e; subst e)
  all_goals try dsimp only
  repeat' (
    first
    | with_reducible (first | exact Alters.refl _ _ | apply Alters.ite | assumption |
                          apply State.onCommit_alters | apply State.showScope_alters)
    | exact Alters.refl _ _
    | (refine (?_ : Part.le _ _ = true); decide)
    | intro _
    | with_reducible (first | rfl)
    | split
    | dsimp only
    | simp only [id_eq]
  )

theorem execCommitDeadline_alters {s : State} {t0} (e : execCommitDeadline s = .next t0) : Alters (Part.err ++
    [Part.commit]) s t0 := by
  unfold execCommitDeadline at e
  try dsimp only at e
  repeat' split at e
  all_goals (injection e with e; subst e)
  all_goals try dsimp only
  repeat' (
    first
    | with_reducible (first | exact Alters.refl _ _ | apply Alters.ite | assumption | apply State.hold_alters)
    | exact Alters.refl _ _
    | (refine (?_ : Part.le _ _ = true); decide)
    | intro _
    | with_reducible (first | rfl)
    | split
    | dsimp only
    | simp only [id_eq]
  )

theorem State.startRows_alters {s : State} {ps : List Nat} {ch : List Part} {s0 : State} (h0 : Alters ch s0 s) (hc :
    Part.le [.cells, .clk] ch = true) : Alters ch s0 (State.startRows s ps) := by
  unfold State.startRows
  try dsimp only
  repeat' (
    first
    | with_reducible (first | exact Alters.refl _ _ | apply Alters.ite | assumption |
                          apply Alters.foldl | apply State.retarget_alters | apply State.showFrac_alters |
                          apply State.wakeRows_alters | apply Alters.foldl1)
    | exact Part.le_trans (by decide) hc
    | (refine (?_ : Part.le _ _ = true); decide)
    | intro _
    | with_reducible (first | rfl)
    | split
    | dsimp only
    | simp only [id_eq]
  )

theorem State.applyFrac_alters {s : State} {ch : List Part} {s0 : State} (h0 : Alters ch s0 s) (hc : Part.le (Part.err
    ++ [Part.act, Part.prev, Part.commit, Part.clk, Part.queue, Part.sig, Part.nose]) ch = true) : Alters ch s0
    (State.applyFrac s) := by
  unfold State.applyFrac
  try dsimp only
  repeat' (
    first
    | with_reducible (first | exact Alters.refl _ _ | apply Alters.ite | assumption |
                          apply Alters.foldl | apply State.ackPage_alters | apply State.onCommit_alters |
                          apply State.startRows_alters | apply State.toActive_alters | apply Alters.foldl1)
    | exact Part.le_trans (by decide) hc
    | (refine (?_ : Part.le _ _ = true); decide)
    | intro _
    | with_reducible (first | rfl)
    | split
    | dsimp only
    | simp only [id_eq]
  )

theorem State.applyMod_alters {s : State} {ch : List Part} {s0 : State} (h0 : Alters ch s0 s) (hc : Part.le (Part.err
    ++ [Part.act, Part.prev, Part.commit, Part.clk, Part.tile, Part.queue, Part.sig, Part.nose, Part.coll, Part.power]) ch = true) : Alters ch s0
    (State.applyMod s) := by
  unfold State.applyMod
  try dsimp only
  repeat' (
    first
    | with_reducible (first | exact Alters.refl _ _ | apply Alters.ite | assumption | apply State.ackPage_alters |
                            apply State.applyTable_alters | apply State.nakPage_alters |
                            apply State.refuseCommit_alters | apply State.toActive_alters)
    | exact Part.le_trans (by decide) hc
    | (refine (?_ : Part.le _ _ = true); decide)
    | intro _
    | with_reducible (first | rfl)
    | split
    | dsimp only
    | simp only [id_eq]
  )

theorem State.applyPage_alters {s : State} {pg : Nat} {ch : List Part} {s0 : State} (h0 : Alters ch s0 s) (hc :
    Part.le (Part.err ++ [Part.act, Part.prev, Part.commit, Part.clk, Part.tile, Part.queue, Part.sig, Part.nose,
    Part.coll, Part.fab, Part.power]) ch = true) : Alters ch s0 (State.applyPage s pg) := by
  unfold State.applyPage
  try dsimp only
  repeat' (
    first
    | with_reducible (first | exact Alters.refl _ _ | apply Alters.ite | assumption |
                          apply State.ackPage_alters | apply State.applyFrac_alters | apply State.applyMod_alters |
                          apply State.emit_alters | apply State.onLink_alters | apply State.toActive_alters |
                          apply State.wr_alters)
    | exact Part.le_trans (by decide) hc
    | (refine (?_ : Part.le _ _ = true); decide)
    | intro _
    | with_reducible (first | rfl)
    | split
    | dsimp only
    | simp only [id_eq]
  )

theorem execPageApply_alters {page : Fin 1984} {s : State} {t0} (e : execPageApply page s = .next t0) : Alters
    (Part.err ++ [Part.act, Part.prev, Part.commit, Part.clk, Part.tile, Part.queue, Part.sig, Part.nose, Part.coll, Part.fab, Part.power]) s t0 := by
  unfold execPageApply at e
  try dsimp only at e
  repeat' split at e
  all_goals (injection e with e; subst e)
  all_goals try dsimp only
  repeat' (
    first
    | with_reducible (first | exact Alters.refl _ _ | apply Alters.ite | assumption | apply State.applyPage_alters)
    | exact Alters.refl _ _
    | (refine (?_ : Part.le _ _ = true); decide)
    | intro _
    | with_reducible (first | rfl)
    | split
    | dsimp only
    | simp only [id_eq]
  )

theorem State.sendConfig_alters {s : State} {k : Nat} {ch : List Part} {s0 : State} (h0 : Alters ch s0 s) (hc :
    Part.le [.cells, .act, .prev, .fab, .out] ch = true) : Alters ch s0 (State.sendConfig s k) := by
  unfold State.sendConfig
  try dsimp only
  repeat' (
    first
    | with_reducible (first | exact Alters.refl _ _ | apply Alters.ite | assumption |
                          apply State.onLink_alters | apply State.startFrame_alters | apply State.toActive_alters)
    | exact Part.le_trans (by decide) hc
    | (refine (?_ : Part.le _ _ = true); decide)
    | intro _
    | with_reducible (first | rfl)
    | split
    | dsimp only
    | simp only [id_eq]
  )

theorem State.takeInits_alters {s : State} {k : Nat} {inits : List Nat} {ch : List Part} {s0 : State} (h0 : Alters ch
    s0 s) (hc : Part.le [.cells] ch = true) : Alters ch s0 (State.takeInits s k inits) := by
  unfold State.takeInits
  try dsimp only
  repeat' (
    first
    | with_reducible (first | exact Alters.refl _ _ | apply Alters.ite | assumption |
                          apply Alters.foldl | apply State.wr_alters | apply Alters.foldl1)
    | exact Part.le_trans (by decide) hc
    | (refine (?_ : Part.le _ _ = true); decide)
    | intro _
    | with_reducible (first | rfl)
    | split
    | dsimp only
    | simp only [id_eq]
  )

theorem State.endConfig_alters {s : State} {k : Nat} {ch : List Part} {s0 : State} (h0 : Alters ch s0 s) (hc : Part.le
    (Part.err ++ [Part.commit, Part.queue, Part.sig, Part.nose, Part.fab]) ch = true) : Alters ch s0 (State.endConfig
    s k) := by
  unfold State.endConfig
  try dsimp only
  repeat' (
    first
    | with_reducible (first | exact Alters.refl _ _ | apply Alters.ite | assumption |
                          apply State.ackPage_alters | apply State.goOn_alters | apply State.onLink_alters |
                          apply State.takeInits_alters)
    | exact Part.le_trans (by decide) hc
    | (refine (?_ : Part.le _ _ = true); decide)
    | intro _
    | with_reducible (first | rfl)
    | split
    | dsimp only
    | simp only [id_eq]
  )

theorem execCreditDrain_alters {k : Fin 48} {s : State} {t0} (e : execCreditDrain k s = .next t0) : Alters (Part.err
    ++ [Part.act, Part.prev, Part.commit, Part.queue, Part.sig, Part.nose, Part.fab]) s t0 := by
  unfold execCreditDrain at e
  try dsimp only at e
  repeat' split at e
  all_goals (injection e with e; subst e)
  all_goals try dsimp only
  repeat' (
    first
    | with_reducible (first | exact Alters.refl _ _ | apply Alters.ite | assumption |
                          apply State.endConfig_alters | apply State.sendConfig_alters)
    | exact Alters.refl _ _
    | (refine (?_ : Part.le _ _ = true); decide)
    | intro _
    | with_reducible (first | rfl)
    | split
    | dsimp only
    | simp only [id_eq]
  )

theorem execConfigFrame_alters {k : Fin 48} {f : Frame} {s : State} {t0} (e : execConfigFrame k f s = .next t0) :
    Alters (Part.err ++ [Part.commit, Part.queue, Part.sig, Part.nose, Part.fab]) s t0 := by
  unfold execConfigFrame at e
  try dsimp only at e
  repeat' split at e
  all_goals (injection e with e; subst e)
  all_goals try dsimp only
  repeat' (
    first
    | with_reducible (first | exact Alters.refl _ _ | apply Alters.ite | assumption |
                          apply State.endConfig_alters | apply State.onLink_alters | apply State.takeFrame_alters)
    | exact Alters.refl _ _
    | (refine (?_ : Part.le _ _ = true); decide)
    | intro _
    | with_reducible (first | rfl)
    | split
    | dsimp only
    | simp only [id_eq]
  )

theorem State.recommit_alters {s : State} {ch : List Part} {s0 : State} (h0 : Alters ch s0 s) (hc : Part.le [.commit]
    ch = true) : Alters ch s0 (State.recommit s) := by
  unfold State.recommit
  try dsimp only
  repeat' (
    first
    | with_reducible (first | exact Alters.refl _ _ | apply Alters.ite | assumption | apply State.onCommit_alters)
    | exact Part.le_trans (by decide) hc
    | (refine (?_ : Part.le _ _ = true); decide)
    | intro _
    | with_reducible (first | rfl)
    | split
    | dsimp only
    | simp only [id_eq]
  )

theorem State.rollPage_alters {s : State} {pg : Nat} {ch : List Part} {s0 : State} (h0 : Alters ch s0 s) (hc : Part.le
    [.cells, .act, .clk, .tile, .coll, .fab, .msix, .power, .out] ch = true) : Alters ch s0 (State.rollPage s pg) :=
    by
  unfold State.rollPage
  try dsimp only
  repeat' (
    first
    | with_reducible (first | exact Alters.refl _ _ | apply Alters.ite | assumption |
                          apply State.applyTable_alters | apply State.edge_alters | apply State.emit_alters |
                          apply State.onLink_alters | apply State.toPrevious_alters | apply State.wr_alters)
    | exact Part.le_trans (by decide) hc
    | (refine (?_ : Part.le _ _ = true); decide)
    | intro _
    | with_reducible (first | rfl)
    | split
    | dsimp only
    | simp only [id_eq]
  )

theorem State.stopDrain_alters {s : State} {pg : Nat} {ch : List Part} {s0 : State} (h0 : Alters ch s0 s) (hc :
    Part.le [.cells, .act, .fab, .out] ch = true) : Alters ch s0 (State.stopDrain s pg) := by
  unfold State.stopDrain
  try dsimp only
  repeat' (
    first
    | with_reducible (first | exact Alters.refl _ _ | apply Alters.ite | assumption |
                          apply State.onLink_alters | apply State.pump_alters | apply State.toPrevious_alters)
    | exact Part.le_trans (by decide) hc
    | (refine (?_ : Part.le _ _ = true); decide)
    | intro _
    | with_reducible (first | rfl)
    | split
    | dsimp only
    | simp only [id_eq]
  )

theorem State.settleRows_alters {s : State} {ch : List Part} {s0 : State} (h0 : Alters ch s0 s) (hc : Part.le [.cells,
    .clk] ch = true) : Alters ch s0 (State.settleRows s) := by
  unfold State.settleRows
  try dsimp only
  repeat' (
    first
    | with_reducible (first | exact Alters.refl _ _ | apply Alters.ite | assumption |
                          apply Alters.foldl | apply State.setRow_alters | apply State.startRows_alters |
                          apply Alters.foldl1)
    | exact Part.le_trans (by decide) hc
    | (refine (?_ : Part.le _ _ = true); decide)
    | intro _
    | with_reducible (first | rfl)
    | split
    | dsimp only
    | simp only [id_eq]
  )

theorem State.rollback_alters {s : State} {ch : List Part} {s0 : State} (h0 : Alters ch s0 s) (hc : Part.le (Part.err
    ++ [Part.act, Part.commit, Part.clk, Part.tile, Part.queue, Part.coll, Part.fab, Part.power]) ch = true) : Alters
    ch s0 (State.rollback s) := by
  unfold State.rollback
  try dsimp only
  repeat' (
    first
    | with_reducible (first | exact Alters.refl _ _ | apply Alters.ite | assumption |
                          apply Alters.foldl | apply State.endCommit_alters | apply State.faultCmd_alters |
                          apply State.raise_alters | apply State.rollPage_alters | apply State.settleRows_alters |
                          apply State.stopDrain_alters | apply State.toPrevious_alters | apply Alters.foldl1)
    | exact Part.le_trans (by decide) hc
    | (refine (?_ : Part.le _ _ = true); decide)
    | intro _
    | with_reducible (first | rfl)
    | split
    | dsimp only
    | simp only [id_eq]
  )

theorem execHoldAutoExpiry_alters {s : State} {t0} (e : execHoldAutoExpiry s = .next t0) : Alters (Part.err ++ [Part.act,
    Part.commit, Part.clk, Part.tile, Part.queue, Part.coll, Part.fab, Part.power]) s t0 := by
  unfold execHoldAutoExpiry at e
  try dsimp only at e
  repeat' split at e
  all_goals (injection e with e; subst e)
  all_goals try dsimp only
  repeat' (
    first
    | with_reducible (first | exact Alters.refl _ _ | apply Alters.ite | assumption | apply State.bump_alters |
                            apply State.raise_alters | apply State.rollback_alters)
    | exact Alters.refl _ _
    | (refine (?_ : Part.le _ _ = true); decide)
    | intro _
    | with_reducible (first | rfl)
    | split
    | dsimp only
    | simp only [id_eq]
  )

theorem State.commitGo_alters {s : State} {path : Path} {parts : Nat} {glob : Bool} {op : Nat} {ch : List Part} {s0 :
    State} (h0 : Alters ch s0 s) (hc : Part.le (Part.err ++ [Part.act, Part.commit, Part.clk, Part.tile, Part.queue, Part.coll, Part.fab, Part.power])
    ch = true) : Alters ch s0 (State.commitGo s path parts glob op) := by
  unfold State.commitGo
  try dsimp only
  repeat' (
    first
    | with_reducible (first | exact Alters.refl _ _ | apply Alters.ite | assumption | apply State.badAccess_alters |
                            apply State.raise_alters | apply State.recommit_alters | apply State.rollback_alters |
                            apply State.startCommit_alters)
    | exact Part.le_trans (by decide) hc
    | (refine (?_ : Part.le _ _ = true); decide)
    | intro _
    | with_reducible (first | rfl)
    | split
    | dsimp only
    | simp only [id_eq]
  )

theorem State.commitCtrl_alters {s : State} {path : Path} {parts : Nat} {glob : Bool} {op : Nat} {ch : List Part} {s0
    : State} (h0 : Alters ch s0 s) (hc : Part.le (Part.err ++ [Part.act, Part.commit, Part.clk, Part.tile, Part.queue, Part.coll, Part.fab,
    Part.power]) ch = true) : Alters ch s0 (State.commitCtrl s path parts glob op) := by
  unfold State.commitCtrl
  try dsimp only
  repeat' (
    first
    | with_reducible (first | exact Alters.refl _ _ | apply Alters.ite | assumption | apply State.commitGo_alters |
                            apply State.flag_alters | apply State.wr_alters)
    | exact Part.le_trans (by decide) hc
    | (refine (?_ : Part.le _ _ = true); decide)
    | intro _
    | with_reducible (first | rfl)
    | split
    | dsimp only
    | simp only [id_eq]
  )

theorem execCommitRequest_alters {p : Path} {scope : BitVec 8} {glob : Bool} {s : State} {t0} (e : execCommitRequest p
    scope glob s = .next t0) : Alters (Part.err ++ [Part.act, Part.wbuf, Part.commit, Part.clk, Part.tile, Part.queue, Part.coll, Part.fab, Part.power]) s
    t0 := by
  unfold execCommitRequest at e
  try dsimp only at e
  repeat' split at e
  all_goals (injection e with e; subst e)
  all_goals try dsimp only
  repeat' (
    first
    | with_reducible (first | exact Alters.refl _ _ | apply Alters.ite | assumption | apply State.commitCtrl_alters |
                            apply State.onWrite_alters)
    | exact Alters.refl _ _
    | (refine (?_ : Part.le _ _ = true); decide)
    | intro _
    | with_reducible (first | rfl)
    | split
    | dsimp only
    | simp only [id_eq]
  )

theorem execRecommit_alters {p : Path} {scope : BitVec 8} {glob : Bool} {s : State} {t0} (e : execRecommit p scope
    glob s = .next t0) : Alters (Part.err ++ [Part.act, Part.wbuf, Part.commit, Part.clk, Part.tile, Part.queue, Part.coll, Part.fab, Part.power]) s t0 :=
    by
  unfold execRecommit at e
  try dsimp only at e
  repeat' split at e
  all_goals (injection e with e; subst e)
  all_goals try dsimp only
  repeat' (
    first
    | with_reducible (first | exact Alters.refl _ _ | apply Alters.ite | assumption | apply State.commitCtrl_alters |
                            apply State.onWrite_alters)
    | exact Alters.refl _ _
    | (refine (?_ : Part.le _ _ = true); decide)
    | intro _
    | with_reducible (first | rfl)
    | split
    | dsimp only
    | simp only [id_eq]
  )

theorem execRollback_alters {p : Path} {scope : BitVec 8} {glob : Bool} {s : State} {t0} (e : execRollback p scope
    glob s = .next t0) : Alters (Part.err ++ [Part.act, Part.wbuf, Part.commit, Part.clk, Part.tile, Part.queue, Part.coll, Part.fab, Part.power]) s t0 :=
    by
  unfold execRollback at e
  try dsimp only at e
  repeat' split at e
  all_goals (injection e with e; subst e)
  all_goals try dsimp only
  repeat' (
    first
    | with_reducible (first | exact Alters.refl _ _ | apply Alters.ite | assumption | apply State.commitCtrl_alters |
                            apply State.onWrite_alters)
    | exact Alters.refl _ _
    | (refine (?_ : Part.le _ _ = true); decide)
    | intro _
    | with_reducible (first | rfl)
    | split
    | dsimp only
    | simp only [id_eq]
  )

theorem State.runCommit_alters {s : State} {q i e : Nat} {ch : List Part} {s0 : State} (h0 : Alters ch s0 s) (hc :
    Part.le (Part.err ++ [Part.shadow, Part.commit, Part.queue]) ch = true) : Alters ch s0 (State.runCommit s q i e) := by
  unfold State.runCommit
  try dsimp only
  repeat' (
    first
    | with_reducible (first | exact Alters.refl _ _ | apply Alters.ite | assumption | apply Alters.foldl |
                            apply State.faultHead_alters | apply State.issue_alters | apply State.startCommit_alters |
                            apply State.wr_alters | apply State.writeFields_alters | apply Alters.foldl1)
    | exact Part.le_trans (by decide) hc
    | (refine (?_ : Part.le _ _ = true); decide)
    | intro _
    | with_reducible (first | rfl)
    | split
    | dsimp only
    | simp only [id_eq]
  )

theorem execCommitCmd_alters {q : Fin 64} {s : State} {t0} (e : execCommitCmd q s = .next t0) : Alters (Part.err ++
    [Part.shadow, Part.commit, Part.queue, Part.nose, Part.host]) s t0 := by
  unfold execCommitCmd at e
  try dsimp only at e
  repeat' split at e
  all_goals (injection e with e; subst e)
  all_goals try dsimp only
  repeat' (
    first
    | with_reducible (first | exact Alters.refl _ _ | apply Alters.ite | assumption |
                          apply State.issueHead_alters | apply State.runCommit_alters)
    | exact Alters.refl _ _
    | (refine (?_ : Part.le _ _ = true); decide)
    | intro _
    | with_reducible (first | rfl)
    | split
    | dsimp only
    | simp only [id_eq]
  )

end Sys2Proof.Machine
end

