-- ==== Sys2Proof/Laws/AltersBar2.lean ====
section
/-! SUPPORT. What each operation of Machine/Bar2.lean alters. -/

-- One closing tactic serves every lemma here; where a goal needs few of its steps the linters name the rest.
set_option linter.all false
set_option Elab.async false

namespace Sys2Proof.Machine

theorem State.barRead_alters {s : State} {p : Path} {a n : Nat} {ch : List Part} {s0 : State} (h0 : Alters ch s0 s)
    (hc : Part.le [.cells] ch = true) : Alters ch s0 (State.barRead s p a n).1 := by
  unfold State.barRead
  try dsimp only
  repeat' (
    first
    | with_reducible (first | exact Alters.refl _ _ | apply Alters.ite | assumption |
                          apply State.countTx_alters)
    | exact Part.le_trans (by decide) hc
    | (refine (?_ : Part.le _ _ = true); decide)
    | intro _
    | with_reducible (first | rfl)
    | split
    | dsimp only
    | simp only [id_eq]
  )
theorem State.barRead_altersP {s : State} {p : Path} {a n : Nat} {t0 r0} (e_ : State.barRead s p a n = (t0, r0)) {ch :
    List Part} {s0 : State} (h0 : Alters ch s0 s) (hc : Part.le [.cells] ch = true) : Alters ch s0 t0 := by
  have h := State.barRead_alters (s := s) (p := p) (a := a) (n := n) h0  hc
  rw [e_] at h; exact h

theorem State.fnWrite_alters {s : State} {port : Port} {fn o v : Nat} {ch : List Part} {s0 : State} (h0 : Alters ch s0
    s) (hc : Part.le (Part.err ++ [Part.part, Part.host]) ch = true) : Alters ch s0 (State.fnWrite s port fn o v) :=
    by
  unfold State.fnWrite
  try dsimp only
  repeat' (
    first
    | with_reducible (first | exact Alters.refl _ _ | apply Alters.ite | assumption |
                          apply State.claim_alters | apply State.onHost_alters | apply State.rearmVec_alters |
                          apply State.when_alters)
    | exact Part.le_trans (by decide) hc
    | (refine (?_ : Part.le _ _ = true); decide)
    | intro _
    | with_reducible (first | rfl)
    | split
    | dsimp only
    | simp only [id_eq]
  )

theorem State.tableWrite_alters {s : State} {port : Port} {fn o v : Nat} {ch : List Part} {s0 : State} (h0 : Alters ch
    s0 s) (hc : Part.le [.msix, .out] ch = true) : Alters ch s0 (State.tableWrite s port fn o v) := by
  unfold State.tableWrite
  try dsimp only
  repeat' (
    first
    | with_reducible (first | exact Alters.refl _ _ | apply Alters.ite | assumption |
                          apply State.maskVec_alters | apply State.unmask_alters)
    | exact Part.le_trans (by decide) hc
    | (refine (?_ : Part.le _ _ = true); decide)
    | intro _
    | with_reducible (first | rfl)
    | split
    | dsimp only
    | simp only [id_eq]
    | with_reducible (first | apply Alters.upd_msix)
  )

theorem State.barPut_alters {s : State} {port : Port} {fn a v : Nat} {ch : List Part} {s0 : State} (h0 : Alters ch s0
    s) (hc : Part.le (Part.err ++ [Part.queue, Part.sig, Part.nose, Part.part, Part.host]) ch = true) : Alters ch s0
    (State.barPut s port fn a v) := by
  unfold State.barPut
  try dsimp only
  repeat' (
    first
    | with_reducible (first | exact Alters.refl _ _ | apply Alters.ite | assumption |
                          apply State.fnWrite_alters | apply State.tableWrite_alters | apply State.tailWrite_alters |
                          apply State.when_alters)
    | exact Part.le_trans (by decide) hc
    | (refine (?_ : Part.le _ _ = true); decide)
    | intro _
    | with_reducible (first | rfl)
    | split
    | dsimp only
    | simp only [id_eq]
  )

theorem State.barWrite_alters {s : State} {p : Path} {a n v : Nat} {ch : List Part} {s0 : State} (h0 : Alters ch s0 s)
    (hc : Part.le (Part.err ++ [Part.queue, Part.sig, Part.nose, Part.part, Part.host]) ch = true) : Alters ch s0
    (State.barWrite s p a n v) := by
  unfold State.barWrite
  try dsimp only
  repeat' (
    first
    | with_reducible (first | exact Alters.refl _ _ | apply Alters.ite | assumption |
                          apply State.barPut_alters | apply State.countRx_alters)
    | exact Part.le_trans (by decide) hc
    | (refine (?_ : Part.le _ _ = true); decide)
    | intro _
    | with_reducible (first | rfl)
    | split
    | dsimp only
    | simp only [id_eq]
  )

theorem execLowHalfRead_alters {p : Path} {off : BitVec 26} {wide bar2 : Bool} {s : State} {t0} (e : execLowHalfRead p
    off wide bar2 s = .next t0) : Alters (Part.err ++ [Part.hold]) s t0 := by
  unfold execLowHalfRead at e
  try dsimp only at e
  repeat' split at e
  all_goals (injection e with e; subst e)
  all_goals try dsimp only
  repeat' (
    first
    | with_reducible (first | exact Alters.refl _ _ | apply Alters.ite | assumption |
                          apply State.barRead_alters | apply State.busRead_alters | apply State.emit_alters |
                          apply Alters.of_pair (by assumption))
    | exact Alters.refl _ _
    | (refine (?_ : Part.le _ _ = true); decide)
    | intro _
    | with_reducible (first | rfl)
    | split
    | dsimp only
    | simp only [id_eq]
  )

end Sys2Proof.Machine
end

