-- ==== Sys2Proof/Laws/AltersBus.lean ====
section
/-! SUPPORT. What each operation of Machine/Bus.lean alters. -/

-- One closing tactic serves every lemma here; where a goal needs few of its steps the linters name the rest.
set_option linter.all false
set_option Elab.async false

namespace Sys2Proof.Machine

theorem State.resetFields_alters {s : State} {fs : List Fld} {ch : List Part} {s0 : State} (h0 : Alters ch s0 s) (hc :
    Part.le [.cells] ch = true) : Alters ch s0 (State.resetFields s fs) := by
  unfold State.resetFields
  try dsimp only
  repeat' (
    first
    | with_reducible (first | exact Alters.refl _ _ | apply Alters.ite | assumption | apply Alters.foldl |
                            apply State.wr_alters | apply Alters.foldl1)
    | exact Part.le_trans (by decide) hc
    | (refine (?_ : Part.le _ _ = true); decide)
    | intro _
    | with_reducible (first | rfl)
    | split
    | dsimp only
    | simp only [id_eq]
  )

theorem State.softInner_alters {s : State} {pg : Nat} {ch : List Part} {s0 : State} (h0 : Alters ch s0 s) (hc :
    Part.le [.free, .cells, .tile, .stream, .queue, .pathVal, .power] ch = true) : Alters ch s0 (State.softInner s pg)
    := by
  unfold State.softInner
  try dsimp only
  repeat' (
    first
    | with_reducible (first | exact Alters.refl _ _ | apply Alters.ite | assumption |
                          apply Alters.foldl | apply State.drawSeed_alters | apply State.dropHold_alters |
                          apply State.endClear_alters | apply State.mirrorSteps_alters | apply State.onStream_alters |
                          apply State.pathWr_alters | apply State.resetFields_alters | apply State.setQ_alters |
                          apply State.steer_alters | apply State.wr_alters | apply Alters.foldl1)
    | exact Part.le_trans (by decide) hc
    | (refine (?_ : Part.le _ _ = true); decide)
    | intro _
    | with_reducible (first | rfl)
    | split
    | dsimp only
    | simp only [id_eq]
    | with_reducible (first | apply Alters.updR_tile)
  )

theorem State.softReset_alters {s : State} {pg : Nat} {ch : List Part} {s0 : State} (h0 : Alters ch s0 s) (hc :
    Part.le (Part.err ++ [Part.commit, Part.tile, Part.stream, Part.queue, Part.pathVal, Part.power]) ch = true) :
    Alters ch s0 (State.softReset s pg) := by
  unfold State.softReset
  try dsimp only
  repeat' (
    first
    | with_reducible (first | exact Alters.refl _ _ | apply Alters.ite | assumption |
                          apply State.onCommit_alters | apply State.raise_alters | apply State.resetFields_alters |
                          apply State.softInner_alters)
    | exact Part.le_trans (by decide) hc
    | (refine (?_ : Part.le _ _ = true); decide)
    | intro _
    | with_reducible (first | rfl)
    | split
    | dsimp only
    | simp only [id_eq]
  )

theorem State.writeEn_alters {s : State} {pg : Nat} {b : Bool} {ch : List Part} {s0 : State} (h0 : Alters ch s0 s) (hc
    : Part.le (Part.err ++ [Part.tile, Part.mem, Part.stream, Part.queue, Part.sig, Part.nose, Part.coll, Part.fab,
    Part.power, Part.host]) ch = true) : Alters ch s0 (State.writeEn s pg b) := by
  unfold State.writeEn
  try dsimp only
  repeat' (
    first
    | with_reducible (first | exact Alters.refl _ _ | apply Alters.ite | assumption |
                          apply State.flag_alters | apply State.linkDisable_alters | apply State.linkEnable_alters |
                          apply State.queueEnable_alters | apply State.wr_alters)
    | exact Part.le_trans (by decide) hc
    | (refine (?_ : Part.le _ _ = true); decide)
    | intro _
    | with_reducible (first | rfl)
    | split
    | dsimp only
    | simp only [id_eq]
  )

theorem State.writeHeader_alters {s d : State} {pg o v : Nat} {ch : List Part} {s0 : State} (h0 : Alters ch s0 d) (h1
    : Alters ch s0 s) (hc : Part.le (Part.err ++ [Part.commit, Part.tile, Part.mem, Part.stream, Part.queue, Part.sig,
    Part.nose, Part.coll, Part.fab, Part.pathVal, Part.power, Part.host]) ch = true) : Alters ch s0 (State.writeHeader
    s d pg o v) := by
  unfold State.writeHeader
  try dsimp only
  repeat' (
    first
    | with_reducible (first | exact Alters.refl _ _ | apply Alters.ite | assumption |
                          apply State.edge_alters | apply State.softReset_alters | apply State.wr_alters |
                          apply State.writeEn_alters)
    | exact Part.le_trans (by decide) hc
    | (refine (?_ : Part.le _ _ = true); decide)
    | intro _
    | with_reducible (first | rfl)
    | split
    | dsimp only
    | simp only [id_eq]
  )

theorem State.writeMod_alters {s d : State} {p : Path} {a v : Nat} {ch : List Part} {s0 : State} (h0 : Alters ch s0 d)
    (h1 : Alters ch s0 s) (hc : Part.le (Part.err ++ [Part.act, Part.commit, Part.clk, Part.tile, Part.queue,
    Part.nose, Part.coll, Part.fab, Part.part, Part.power]) ch = true) : Alters ch s0 (State.writeMod s d p a v) := by
  unfold State.writeMod
  try dsimp only
  repeat' (
    first
    | with_reducible (first | exact Alters.refl _ _ | apply Alters.ite | assumption |
                          apply State.commitCtrl_alters | apply State.join_alters | apply State.leave_alters |
                          apply State.mirrorSteps_alters | apply State.routeRead_alters | apply State.routeWrite_alters |
                          apply State.sendEmerg_alters | apply State.sendSnapBcast_alters |
                          apply State.stepDisable_alters | apply State.stepEnable_alters)
    | exact Part.le_trans (by decide) hc
    | (refine (?_ : Part.le _ _ = true); decide)
    | intro _
    | with_reducible (first | rfl)
    | split
    | dsimp only
    | simp only [id_eq]
  )

theorem State.writeClk_alters {_s d : State} {a v : Nat} {ch : List Part} {s0 : State} (h0 : Alters ch s0 d) (h1 :
    Alters ch s0 _s) (hc : Part.le (Part.err ++ [Part.clk]) ch = true) : Alters ch s0 (State.writeClk _s d a v) := by
  unfold State.writeClk
  try dsimp only
  repeat' (
    first
    | with_reducible (first | exact Alters.refl _ _ | apply Alters.ite | assumption | apply State.emergGo_alters |
                            apply State.wr_alters)
    | exact Part.le_trans (by decide) hc
    | (refine (?_ : Part.le _ _ = true); decide)
    | intro _
    | with_reducible (first | rfl)
    | split
    | dsimp only
    | simp only [id_eq]
  )

theorem State.writeTb_alters {_s d : State} {a v : Nat} {ch : List Part} {s0 : State} (h0 : Alters ch s0 d) (h1 :
    Alters ch s0 _s) (hc : Part.le (Part.err ++ [Part.commit, Part.clk, Part.stream, Part.queue, Part.sig, Part.nose])
    ch = true) : Alters ch s0 (State.writeTb _s d a v) := by
  unfold State.writeTb
  try dsimp only
  repeat' (
    first
    | with_reducible (first | exact Alters.refl _ _ | apply Alters.ite | assumption |
                          apply State.armCmp_alters | apply State.judgeSync_alters | apply State.snapSw_alters |
                          apply State.tbSet_alters | apply State.wr_alters)
    | exact Part.le_trans (by decide) hc
    | (refine (?_ : Part.le _ _ = true); decide)
    | intro _
    | with_reducible (first | rfl)
    | split
    | dsimp only
    | simp only [id_eq]
  )

theorem State.writePwr_alters {_s d : State} {a v : Nat} {ch : List Part} {s0 : State} (h0 : Alters ch s0 d) (h1 :
    Alters ch s0 _s) (hc : Part.le (Part.err ++ [Part.clk, Part.tile, Part.fab, Part.power, Part.life]) ch = true) :
    Alters ch s0 (State.writePwr _s d a v) := by
  unfold State.writePwr
  try dsimp only
  repeat' (
    first
    | with_reducible (first | exact Alters.refl _ _ | apply Alters.ite | assumption |
                          apply State.capRelease_alters | apply State.envWritten_alters |
                          apply State.orderDrydown_alters | apply State.parkGo_alters | apply State.restoreGo_alters |
                          apply State.shedGo_alters | apply State.steer_alters | apply State.unparkGo_alters)
    | exact Part.le_trans (by decide) hc
    | (refine (?_ : Part.le _ _ = true); decide)
    | intro _
    | with_reducible (first | rfl)
    | split
    | dsimp only
    | simp only [id_eq]
  )

theorem State.writeCfg_alters {_s d : State} {p : Path} {a v : Nat} {ch : List Part} {s0 : State} (h0 : Alters ch s0
    d) (h1 : Alters ch s0 _s) (hc : Part.le (Part.err ++ [Part.mem, Part.queue, Part.fab, Part.part, Part.power, Part.boot, Part.mgmt]) ch = true)
    : Alters ch s0 (State.writeCfg _s d p a v) := by
  unfold State.writeCfg
  try dsimp only
  repeat' (
    first
    | with_reducible (first | exact Alters.refl _ _ | apply Alters.ite | assumption | apply State.fwReady_alters |
                            apply State.kick_alters | apply State.onBoot_alters | apply State.partQuiesce_alters |
                            apply State.partRun_alters | apply State.prelClear_alters | apply State.warmReset_alters)
    | exact Part.le_trans (by decide) hc
    | (refine (?_ : Part.le _ _ = true); decide)
    | intro _
    | with_reducible (first | rfl)
    | split
    | dsimp only
    | simp only [id_eq]
  )

theorem State.writeMgmt_alters {s d : State} {mb : State → State} {p : Path} {a v : Nat} {ch : List Part} {s0 : State}
    (h0 : Alters ch s0 d) (h1 : Alters ch s0 s) (hmb : ∀ {z0} {u0}, Alters ch z0 u0 → Alters ch z0 (mb u0)) (hc :
    Part.le (Part.err ++ [Part.mgmt, Part.life]) ch = true) : Alters ch s0 (State.writeMgmt s d mb p a v) := by
  unfold State.writeMgmt
  try dsimp only
  repeat' (
    first
    | with_reducible (first | exact Alters.refl _ _ | apply Alters.ite | assumption | apply hmb |
                          apply State.beat_alters | apply State.onMgmt_alters | apply State.planTakeover_alters |
                          apply State.raise_alters)
    | exact Part.le_trans (by decide) hc
    | (refine (?_ : Part.le _ _ = true); decide)
    | intro _
    | with_reducible (first | rfl)
    | split
    | dsimp only
    | simp only [id_eq]
  )

theorem State.ackKind_alters {s : State} {f : Fld} {ch : List Part} {s0 : State} (h0 : Alters ch s0 s) (hc : Part.le
    [.cells] ch = true) : Alters ch s0 (State.ackKind s f) := by
  unfold State.ackKind
  try dsimp only
  repeat' (
    first
    | with_reducible (first | exact Alters.refl _ _ | apply Alters.ite | assumption | apply State.wr_alters)
    | exact Part.le_trans (by decide) hc
    | (refine (?_ : Part.le _ _ = true); decide)
    | intro _
    | with_reducible (first | rfl)
    | split
    | dsimp only
    | simp only [id_eq]
  )

theorem State.ackOpen_alters {s : State} {charge token event : Bool} {ch : List Part} {s0 : State} (h0 : Alters ch s0
    s) (hc : Part.le [.cells] ch = true) : Alters ch s0 (State.ackOpen s charge token event) := by
  unfold State.ackOpen
  try dsimp only
  repeat' (
    first
    | with_reducible (first | exact Alters.refl _ _ | apply Alters.ite | assumption | apply State.ackKind_alters |
                            apply State.when_alters)
    | exact Part.le_trans (by decide) hc
    | (refine (?_ : Part.le _ _ = true); decide)
    | intro _
    | with_reducible (first | rfl)
    | split
    | dsimp only
    | simp only [id_eq]
  )

theorem State.writeLedg_alters {_s d : State} {a v : Nat} {ch : List Part} {s0 : State} (h0 : Alters ch s0 d) (h1 :
    Alters ch s0 _s) (hc : Part.le [.cells, .island] ch = true) : Alters ch s0 (State.writeLedg _s d a v) := by
  unfold State.writeLedg
  try dsimp only
  repeat' (
    first
    | with_reducible (first | exact Alters.refl _ _ | apply Alters.ite | assumption | apply State.ackOpen_alters |
                            apply State.seal_alters)
    | exact Part.le_trans (by decide) hc
    | (refine (?_ : Part.le _ _ = true); decide)
    | intro _
    | with_reducible (first | rfl)
    | split
    | dsimp only
    | simp only [id_eq]
  )

theorem State.writeTag_alters {s d : State} {p : Path} {a v : Nat} {ch : List Part} {s0 : State} (h0 : Alters ch s0 d)
    (h1 : Alters ch s0 s) (hc : Part.le Part.err ch = true) : Alters ch s0 (State.writeTag s d p a v) := by
  unfold State.writeTag
  try dsimp only
  repeat' (
    first
    | with_reducible (first | exact Alters.refl _ _ | apply Alters.ite | assumption | apply State.raise_alters |
                            apply State.tagRd_alters | apply State.tagWr_alters)
    | exact Part.le_trans (by decide) hc
    | (refine (?_ : Part.le _ _ = true); decide)
    | intro _
    | with_reducible (first | rfl)
    | split
    | dsimp only
    | simp only [id_eq]
  )

theorem State.writeSig_alters {_s d : State} {p : Path} {a v : Nat} {ch : List Part} {s0 : State} (h0 : Alters ch s0
    d) (h1 : Alters ch s0 _s) (hc : Part.le (Part.err ++ [Part.queue, Part.sig, Part.nose, Part.pathVal]) ch = true) : Alters ch s0
    (State.writeSig _s d p a v) := by
  unfold State.writeSig
  try dsimp only
  repeat' (
    first
    | with_reducible (first | exact Alters.refl _ _ | apply Alters.ite | assumption | apply State.calloc_alters |
                            apply State.cfree_alters | apply State.ctrOp_alters | apply State.qalloc_alters |
                            apply State.qfree_alters)
    | exact Part.le_trans (by decide) hc
    | (refine (?_ : Part.le _ _ = true); decide)
    | intro _
    | with_reducible (first | rfl)
    | split
    | dsimp only
    | simp only [id_eq]
  )

theorem State.writeNose_alters {s d : State} {a v : Nat} {ch : List Part} {s0 : State} (h0 : Alters ch s0 d) (h1 :
    Alters ch s0 s) (hc : Part.le (Part.err ++ [Part.nose, Part.part]) ch = true) : Alters ch s0 (State.writeNose s d a v) :=
    by
  unfold State.writeNose
  try dsimp only
  repeat' (
    first
    | with_reducible (first | exact Alters.refl _ _ | apply Alters.ite | assumption | apply State.fieldTest_alters |
                            apply State.replayResume_alters)
    | exact Part.le_trans (by decide) hc
    | (refine (?_ : Part.le _ _ = true); decide)
    | intro _
    | with_reducible (first | rfl)
    | split
    | dsimp only
    | simp only [id_eq]
  )

theorem State.writeQuota_alters {s d : State} {p : Path} {a v : Nat} {ch : List Part} {s0 : State} (h0 : Alters ch s0
    d) (h1 : Alters ch s0 s) (hc : Part.le (Part.err ++ [Part.mem, Part.pathVal]) ch = true) : Alters ch s0
    (State.writeQuota s d p a v) := by
  unfold State.writeQuota
  try dsimp only
  repeat' (
    first
    | with_reducible (first | exact Alters.refl _ _ | apply Alters.ite | assumption |
                          apply State.ctxAlloc_alters | apply State.ctxFree_alters | apply State.placeOp_alters |
                          apply State.raise_alters | apply State.releaseOp_alters)
    | exact Part.le_trans (by decide) hc
    | (refine (?_ : Part.le _ _ = true); decide)
    | intro _
    | with_reducible (first | rfl)
    | split
    | dsimp only
    | simp only [id_eq]
  )

theorem State.writeFlash_alters {s d : State} {a v : Nat} {ch : List Part} {s0 : State} (h0 : Alters ch s0 d) (h1 :
    Alters ch s0 s) (hc : Part.le (Part.err ++ [Part.memBytes, Part.mem, Part.fab]) ch = true) : Alters ch s0 (State.writeFlash s
    d a v) := by
  unfold State.writeFlash
  try dsimp only
  repeat' (
    first
    | with_reducible (first | exact Alters.refl _ _ | apply Alters.ite | assumption | apply State.aperDisable_alters |
                            apply State.aperEnable_alters | apply State.sledAttach_alters |
                            apply State.sledErase_alters | apply State.sledRelease_alters)
    | exact Part.le_trans (by decide) hc
    | (refine (?_ : Part.le _ _ = true); decide)
    | intro _
    | with_reducible (first | rfl)
    | split
    | dsimp only
    | simp only [id_eq]
  )

theorem State.writeColl_alters {s d : State} {g a v : Nat} {ch : List Part} {s0 : State} (h0 : Alters ch s0 d) (h1 :
    Alters ch s0 s) (hc : Part.le (Part.err ++ [Part.queue, Part.sig, Part.nose, Part.coll, Part.fab]) ch = true) : Alters ch s0
    (State.writeColl s d g a v) := by
  unfold State.writeColl
  try dsimp only
  repeat' (
    first
    | with_reducible (first | exact Alters.refl _ _ | apply Alters.ite | assumption | apply State.collAbort_alters |
                            apply State.groupCfg_alters | apply State.raise_alters)
    | exact Part.le_trans (by decide) hc
    | (refine (?_ : Part.le _ _ = true); decide)
    | intro _
    | with_reducible (first | rfl)
    | split
    | dsimp only
    | simp only [id_eq]
  )

theorem State.writeCq_alters {s d : State} {q a v : Nat} {ch : List Part} {s0 : State} (h0 : Alters ch s0 d) (h1 :
    Alters ch s0 s) (hc : Part.le (Part.err ++ [Part.queue, Part.sig, Part.nose]) ch = true) : Alters ch s0 (State.writeCq s d q a
    v) := by
  unfold State.writeCq
  try dsimp only
  repeat' (
    first
    | with_reducible (first | exact Alters.refl _ _ | apply Alters.ite | assumption | apply State.raise_alters |
                            apply State.resume_alters | apply State.setPause_alters | apply State.tailWrite_alters)
    | exact Part.le_trans (by decide) hc
    | (refine (?_ : Part.le _ _ = true); decide)
    | intro _
    | with_reducible (first | rfl)
    | split
    | dsimp only
    | simp only [id_eq]
  )

theorem State.writeTile_alters {s d : State} {p : Path} {t : Nat} {a v : Nat} {ch : List Part} {s0 : State} (h0 :
    Alters ch s0 d) (h1 : Alters ch s0 s) (hc : Part.le (Part.err ++ [Part.tile, Part.pathVal]) ch = true) : Alters ch s0
    (State.writeTile s d p t a v) := by
  unfold State.writeTile
  try dsimp only
  repeat' (
    first
    | with_reducible (first | exact Alters.refl _ _ | apply Alters.ite | assumption | apply State.spadClear_alters |
                            apply State.winAlloc_alters | apply State.winClose_alters | apply State.winFree_alters |
                            apply State.winOpen_alters)
    | exact Part.le_trans (by decide) hc
    | (refine (?_ : Part.le _ _ = true); decide)
    | intro _
    | with_reducible (first | rfl)
    | split
    | dsimp only
    | simp only [id_eq]
  )

theorem State.regWrite_alters {s : State} {mb : State → State} {p : Path} {a v : Nat} {row : RegRow} {ch : List Part}
    {s0 : State} (h0 : Alters ch s0 s) (hmb : ∀ {z0} {u0}, Alters ch z0 u0 → Alters ch z0 (mb u0)) (hc : Part.le
    (Part.err ++ [Part.shadow, Part.act, Part.commit, Part.clk, Part.tile, Part.memBytes, Part.mem, Part.stream, Part.queue, Part.sig, Part.nose, Part.coll, Part.fab,
    Part.part, Part.pathVal, Part.power, Part.boot, Part.mgmt, Part.life, Part.host]) ch = true) : Alters ch s0 (State.regWrite s mb p a v row) :=
    by
  unfold State.regWrite
  try dsimp only
  repeat' (
    first
    | with_reducible (first | exact Alters.refl _ _ | apply Alters.ite | assumption | apply hmb |
                            apply State.enterRetrain_alters | apply State.partPort_alters |
                            apply State.shiftRequest_alters | apply State.stackSpare_alters | apply State.steer_alters |
                            apply State.writeCfg_alters | apply State.writeClk_alters | apply State.writeColl_alters |
                            apply State.writeCq_alters | apply State.writeFields_alters | apply State.writeFlash_alters |
                            apply State.writeHeader_alters | apply State.writeLedg_alters |
                            apply State.writeMgmt_alters | apply State.writeMod_alters | apply State.writeNose_alters |
                            apply State.writePwr_alters | apply State.writeQuota_alters | apply State.writeSig_alters |
                            apply State.writeTag_alters | apply State.writeTb_alters | apply State.writeTile_alters)
    | exact Part.le_trans (by decide) hc
    | (refine (?_ : Part.le _ _ = true); decide)
    | intro _
    | with_reducible (first | rfl)
    | split
    | dsimp only
    | simp only [id_eq]
  )

theorem State.regWrites_alters {s : State} {mb : State → State} {p : Path} {ws : List (Nat × Nat)} {ch : List Part}
    {s0 : State} (h0 : Alters ch s0 s) (hmb : ∀ {z0} {u0}, Alters ch z0 u0 → Alters ch z0 (mb u0)) (hc : Part.le
    (Part.err ++ [Part.shadow, Part.act, Part.commit, Part.clk, Part.tile, Part.memBytes, Part.mem, Part.stream, Part.queue, Part.sig, Part.nose, Part.coll, Part.fab,
    Part.part, Part.pathVal, Part.power, Part.boot, Part.mgmt, Part.life, Part.host]) ch = true) : Alters ch s0 (State.regWrites s mb p ws) := by
  unfold State.regWrites
  try dsimp only
  repeat' (
    first
    | with_reducible (first | exact Alters.refl _ _ | apply Alters.ite | assumption | apply Alters.foldl | apply hmb |
                            apply State.raise_alters | apply State.regWrite_alters | apply Alters.foldl1)
    | exact Part.le_trans (by decide) hc
    | (refine (?_ : Part.le _ _ = true); decide)
    | intro _
    | with_reducible (first | rfl)
    | split
    | dsimp only
    | simp only [id_eq]
  )

theorem State.pageWrite_alters {s : State} {mb : State → State} {p : Path} {a n v : Nat} {ch : List Part} {s0 : State}
    (h0 : Alters ch s0 s) (hmb : ∀ {z0} {u0}, Alters ch z0 u0 → Alters ch z0 (mb u0)) (hc : Part.le (Part.err ++
    [Part.shadow, Part.act, Part.wbuf, Part.commit, Part.clk, Part.tile, Part.memBytes, Part.mem, Part.stream, Part.queue, Part.sig, Part.nose, Part.coll, Part.fab, Part.part,
    Part.pathVal, Part.power, Part.boot, Part.mgmt, Part.life, Part.host]) ch = true) : Alters ch s0 (State.pageWrite s mb p a n v) := by
  unfold State.pageWrite
  try dsimp only
  repeat' (
    first
    | with_reducible (first | exact Alters.refl _ _ | apply Alters.ite | assumption | apply hmb |
                            apply State.discardHalf_alters | apply State.regWrites_alters | apply State.setHalf_alters)
    | exact Part.le_trans (by decide) hc
    | (refine (?_ : Part.le _ _ = true); decide)
    | intro _
    | with_reducible (first | rfl)
    | split
    | dsimp only
    | simp only [id_eq]
  )

theorem State.putPage_alters {s : State} {mb : State → State} {p : Path} {a n v : Nat} {ch : List Part} {s0 : State}
    (h0 : Alters ch s0 s) (hmb : ∀ {z0} {u0}, Alters ch z0 u0 → Alters ch z0 (mb u0)) (hc : Part.le (Part.err ++
    [Part.shadow, Part.act, Part.wbuf, Part.commit, Part.clk, Part.tile, Part.memBytes, Part.mem, Part.stream,
    Part.queue, Part.sig, Part.nose, Part.coll, Part.fab, Part.part, Part.pathVal, Part.power, Part.boot, Part.mgmt,
    Part.life, Part.host]) ch = true) : Alters ch s0 (State.putPage s mb p a n v) := by
  unfold State.putPage
  try dsimp only
  repeat' (
    first
    | with_reducible (first | exact Alters.refl _ _ | apply Alters.ite | assumption | apply hmb |
                          apply State.onPage_alters | apply State.pageWrite_alters)
    | exact Part.le_trans (by decide) hc
    | (refine (?_ : Part.le _ _ = true); decide)
    | intro _
    | with_reducible (first | rfl)
    | split
    | dsimp only
    | simp only [id_eq]
  )

theorem State.busWrite_alters {s : State} {mb : State → State} {p : Path} {a n v : Nat} {ch : List Part} {s0 : State}
    (h0 : Alters ch s0 s) (hmb : ∀ {z0} {u0}, Alters ch z0 u0 → Alters ch z0 (mb u0)) (hc : Part.le (Part.err ++
    [Part.shadow, Part.act, Part.wbuf, Part.commit, Part.clk, Part.tile, Part.memBytes, Part.mem, Part.stream,
    Part.queue, Part.sig, Part.nose, Part.coll, Part.fab, Part.part, Part.pathVal, Part.power, Part.boot, Part.mgmt,
    Part.life, Part.host]) ch = true) : Alters ch s0 (State.busWrite s mb p a n v) := by
  unfold State.busWrite
  try dsimp only
  repeat' (
    first
    | with_reducible (first | exact Alters.refl _ _ | apply Alters.ite | assumption | apply hmb |
                          apply State.badAccess_alters | apply State.putPage_alters | apply State.when_alters)
    | exact Part.le_trans (by decide) hc
    | (refine (?_ : Part.le _ _ = true); decide)
    | intro _
    | with_reducible (first | rfl)
    | split
    | dsimp only
    | simp only [id_eq]
  )

theorem execSoftReset_alters {p : Path} {page : Fin 1984} {s : State} {t0} (e : execSoftReset p page s = .next t0) :
    Alters (Part.err ++ [Part.wbuf, Part.commit, Part.tile, Part.stream, Part.queue, Part.pathVal, Part.power]) s t0
    := by
  unfold execSoftReset at e
  try dsimp only at e
  repeat' split at e
  all_goals (injection e with e; subst e)
  all_goals try dsimp only
  repeat' (
    first
    | with_reducible (first | exact Alters.refl _ _ | apply Alters.ite | assumption |
                          apply State.onWrite_alters | apply State.softReset_alters)
    | exact Alters.refl _ _
    | (refine (?_ : Part.le _ _ = true); decide)
    | intro _
    | with_reducible (first | rfl)
    | split
    | dsimp only
    | simp only [id_eq]
  )

end Sys2Proof.Machine
end

