-- ==== Sys2Proof/Laws/AltersIcord.lean ====
section
/-! SUPPORT. What each operation of Machine/Icord.lean alters. -/

-- One closing tactic serves every lemma here; where a goal needs few of its steps the linters name the rest.
set_option linter.all false
set_option Elab.async false

namespace Sys2Proof.Machine

theorem bad_alters {s : State} {ch : List Part} {s0 : State} (h0 : Alters ch s0 s) (hc : Part.le [] ch = true) :
    Alters ch s0 (bad s).st := by
  unfold bad
  try dsimp only
  repeat' (
    first
    | with_reducible (first | exact Alters.refl _ _ | apply Alters.ite | assumption)
    | exact Part.le_trans (by decide) hc
    | (refine (?_ : Part.le _ _ = true); decide)
    | intro _
    | with_reducible (first | rfl)
    | split
    | dsimp only
    | simp only [id_eq]
  )

theorem refused_alters {s : State} {code : Nat} {ch : List Part} {s0 : State} (h0 : Alters ch s0 s) (hc : Part.le []
    ch = true) : Alters ch s0 (refused s code).st := by
  unfold refused
  try dsimp only
  repeat' (
    first
    | with_reducible (first | exact Alters.refl _ _ | apply Alters.ite | assumption)
    | exact Part.le_trans (by decide) hc
    | (refine (?_ : Part.le _ _ = true); decide)
    | intro _
    | with_reducible (first | rfl)
    | split
    | dsimp only
    | simp only [id_eq]
  )

theorem refusedOpen_alters {s : State} {ch : List Part} {s0 : State} (h0 : Alters ch s0 s) (hc : Part.le [.free] ch =
    true) : Alters ch s0 (refusedOpen s).st := by
  unfold refusedOpen
  try dsimp only
  repeat' (
    first
    | with_reducible (first | exact Alters.refl _ _ | apply Alters.ite | assumption | apply State.fresh_alters |
                            apply refused_alters | apply Alters.of_pair2 (by assumption) |
                            apply Alters.of_pair (by assumption))
    | exact Part.le_trans (by decide) hc
    | (refine (?_ : Part.le _ _ = true); decide)
    | intro _
    | with_reducible (first | rfl)
    | split
    | dsimp only
    | simp only [id_eq]
  )

theorem State.readAll_alters {s : State} {offs : List Nat} {ch : List Part} {s0 : State} (h0 : Alters ch s0 s) (hc :
    Part.le (Part.err ++ [Part.hold]) ch = true) : Alters ch s0 (State.readAll s offs).1 := by
  unfold State.readAll
  try dsimp only
  repeat' (
    first
    | with_reducible (first | exact Alters.refl _ _ | apply Alters.ite | assumption |
                          apply Alters.foldl | apply State.busRead_alters | apply Alters.foldl1 |
                          apply Alters.of_pair (by assumption))
    | exact Part.le_trans (by decide) hc
    | (refine (?_ : Part.le _ _ = true); decide)
    | intro _
    | with_reducible (first | rfl)
    | split
    | dsimp only
    | simp only [id_eq]
  )
theorem State.readAll_altersP {s : State} {offs : List Nat} {t0 r0} (e_ : State.readAll s offs = (t0, r0)) {ch : List
    Part} {s0 : State} (h0 : Alters ch s0 s) (hc : Part.le (Part.err ++ [Part.hold]) ch = true) : Alters ch s0 t0 :=
    by
  have h := State.readAll_alters (s := s) (offs := offs) h0  hc
  rw [e_] at h; exact h

theorem State.programImage_alters {s : State} {slot off : Nat} {bs : List Byte} {ch : List Part} {s0 : State} (h0 :
    Alters ch s0 s) (hc : Part.le [.boot] ch = true) : Alters ch s0 (State.programImage s slot off bs) := by
  unfold State.programImage
  try dsimp only
  repeat' (
    first
    | with_reducible (first | exact Alters.refl _ _ | apply Alters.ite | assumption | apply Alters.foldl |
                            apply State.onBoot_alters | apply Alters.foldl1)
    | exact Part.le_trans (by decide) hc
    | (refine (?_ : Part.le _ _ = true); decide)
    | intro _
    | with_reducible (first | rfl)
    | split
    | dsimp only
    | simp only [id_eq]
  )

theorem State.serve_alters {s : State} {mb : State → State} {q : IcordReq} {ch : List Part} {s0 : State} (h0 : Alters
    ch s0 s) (hmb : ∀ {z0} {u0}, Alters ch z0 u0 → Alters ch z0 (mb u0)) (hc : Part.le (Part.err ++ [Part.shadow, Part.act,
    Part.hold, Part.wbuf, Part.commit, Part.clk, Part.tile, Part.memBytes, Part.mem, Part.stream, Part.queue, Part.sig, Part.nose, Part.coll, Part.fab, Part.part, Part.pathVal,
    Part.power, Part.boot, Part.mgmt, Part.life, Part.host]) ch = true) : Alters ch s0 (State.serve s mb q).st := by
  unfold State.serve
  try dsimp only
  repeat' (
    first
    | with_reducible (first | exact Alters.refl _ _ | apply Alters.ite | assumption | apply Alters.foldl | apply hmb |
                            apply State.bump_alters | apply State.busWrite_alters | apply State.fieldTest_alters |
                            apply State.onBoot_alters | apply State.onWrite_alters | apply State.programImage_alters |
                            apply State.readAll_alters | apply State.restoreGo_alters | apply State.shedGo_alters |
                            apply State.tagWr_alters | apply State.wr_alters | apply bad_alters | apply refused_alters |
                            apply refusedOpen_alters | apply Alters.foldl1 | apply Alters.of_pair (by assumption))
    | exact Part.le_trans (by decide) hc
    | (refine (?_ : Part.le _ _ = true); decide)
    | intro _
    | with_reducible (first | rfl)
    | split
    | dsimp only
    | simp only [id_eq]
  )

theorem State.takeSeq_alters {s : State} {i seq : Nat} {ch : List Part} {s0 : State} (h0 : Alters ch s0 s) (hc :
    Part.le [.mgmt] ch = true) : Alters ch s0 (State.takeSeq s i seq) := by
  unfold State.takeSeq
  try dsimp only
  repeat' (
    first
    | with_reducible (first | exact Alters.refl _ _ | apply Alters.ite | assumption | apply State.onMgmt_alters)
    | exact Part.le_trans (by decide) hc
    | (refine (?_ : Part.le _ _ = true); decide)
    | intro _
    | with_reducible (first | rfl)
    | split
    | dsimp only
    | simp only [id_eq]
  )

theorem State.reply_alters {s : State} {h : IcordHdr} {type status retry : Nat} {b : IcordBody} {ch : List Part} {s0 :
    State} (h0 : Alters ch s0 s) (hc : Part.le [.out] ch = true) : Alters ch s0 (State.reply s h type status retry b)
    := by
  unfold State.reply
  try dsimp only
  repeat' (
    first
    | with_reducible (first | exact Alters.refl _ _ | apply Alters.ite | assumption |
                          apply Alters.foldl | apply State.emit_alters | apply Alters.foldl1)
    | exact Part.le_trans (by decide) hc
    | (refine (?_ : Part.le _ _ = true); decide)
    | intro _
    | with_reducible (first | rfl)
    | split
    | dsimp only
    | simp only [id_eq]
  )

theorem State.deny_alters {s : State} {h : IcordHdr} {type : Nat} {ch : List Part} {s0 : State} (h0 : Alters ch s0 s)
    (hc : Part.le Part.err ch = true) : Alters ch s0 (State.deny s h type) := by
  unfold State.deny
  try dsimp only
  repeat' (
    first
    | with_reducible (first | exact Alters.refl _ _ | apply Alters.ite | assumption | apply State.bump_alters |
                            apply State.raise_alters | apply State.reply_alters)
    | exact Part.le_trans (by decide) hc
    | (refine (?_ : Part.le _ _ = true); decide)
    | intro _
    | with_reducible (first | rfl)
    | split
    | dsimp only
    | simp only [id_eq]
  )

theorem State.answerBusy_alters {s : State} {h : IcordHdr} {type ms : Nat} {ch : List Part} {s0 : State} (h0 : Alters
    ch s0 s) (hc : Part.le [.cells, .out] ch = true) : Alters ch s0 (State.answerBusy s h type ms) := by
  unfold State.answerBusy
  try dsimp only
  repeat' (
    first
    | with_reducible (first | exact Alters.refl _ _ | apply Alters.ite | assumption | apply State.bump_alters |
                            apply State.reply_alters)
    | exact Part.le_trans (by decide) hc
    | (refine (?_ : Part.le _ _ = true); decide)
    | intro _
    | with_reducible (first | rfl)
    | split
    | dsimp only
    | simp only [id_eq]
  )

theorem State.icordRequest_alters {s : State} {mb : State → State} {h : IcordHdr} {q : IcordReq} {ch : List Part} {s0
    : State} (h0 : Alters ch s0 s) (hmb : ∀ {z0} {u0}, Alters ch z0 u0 → Alters ch z0 (mb u0)) (hc : Part.le (Part.err
    ++ [Part.shadow, Part.act, Part.hold, Part.wbuf, Part.commit, Part.clk, Part.tile, Part.memBytes, Part.mem, Part.stream, Part.queue, Part.sig, Part.nose, Part.coll, Part.fab,
    Part.part, Part.pathVal, Part.power, Part.boot, Part.mgmt, Part.life, Part.host]) ch = true) : Alters ch s0 (State.icordRequest s mb h q) :=
    by
  unfold State.icordRequest
  try dsimp only
  repeat' (
    first
    | with_reducible (first | exact Alters.refl _ _ | apply Alters.ite | assumption | apply hmb |
                            apply State.answerBusy_alters | apply State.deny_alters | apply State.reply_alters |
                            apply State.serve_alters | apply State.takeSeq_alters | apply bad_alters)
    | exact Part.le_trans (by decide) hc
    | (refine (?_ : Part.le _ _ = true); decide)
    | intro _
    | with_reducible (first | rfl)
    | split
    | dsimp only
    | simp only [id_eq]
  )

theorem State.classZero_alters {s : State} {h : IcordHdr} {type : Nat} {g : State → State} {ch : List Part} {s0 :
    State} (h0 : Alters ch s0 s) (hg : ∀ {z0} {u0}, Alters ch z0 u0 → Alters ch z0 (g u0)) (hc : Part.le (Part.err ++
    [Part.mgmt]) ch = true) : Alters ch s0 (State.classZero s h type g) := by
  unfold State.classZero
  try dsimp only
  repeat' (
    first
    | with_reducible (first | exact Alters.refl _ _ | apply Alters.ite | assumption | apply hg |
                            apply State.deny_alters | apply State.reply_alters | apply State.takeSeq_alters)
    | exact Part.le_trans (by decide) hc
    | (refine (?_ : Part.le _ _ = true); decide)
    | intro _
    | with_reducible (first | rfl)
    | split
    | dsimp only
    | simp only [id_eq]
  )

theorem State.respWords_alters {s : State} {ws : List Nat} {ch : List Part} {s0 : State} (h0 : Alters ch s0 s) (hc :
    Part.le [.cells] ch = true) : Alters ch s0 (State.respWords s ws) := by
  unfold State.respWords
  try dsimp only
  repeat' (
    first
    | with_reducible (first | exact Alters.refl _ _ | apply Alters.ite | assumption | apply Alters.foldl |
                            apply State.wr_alters | apply Alters.foldl1)
    | exact Part.le_trans (by decide) hc
    | (refine (?_ : Part.le _ _ = true); decide)
    | intro _
    | with_reducible (first | rfl)
    | split
    | dsimp only
    | simp only [id_eq]
  )

theorem State.respBody_alters {s : State} {b : IcordBody} {ch : List Part} {s0 : State} (h0 : Alters ch s0 s) (hc :
    Part.le [.free, .cells] ch = true) : Alters ch s0 (State.respBody s b) := by
  unfold State.respBody
  try dsimp only
  repeat' (
    first
    | with_reducible (first | exact Alters.refl _ _ | apply Alters.ite | assumption | apply Alters.foldl |
                            apply State.fresh_alters | apply State.respWords_alters | apply State.wr_alters |
                            apply Alters.foldl1 | apply Alters.of_pair2 (by assumption) |
                            apply Alters.of_pair (by assumption))
    | exact Part.le_trans (by decide) hc
    | (refine (?_ : Part.le _ _ = true); decide)
    | intro _
    | with_reducible (first | rfl)
    | split
    | dsimp only
    | simp only [id_eq]
  )

theorem State.mboxServe_alters {s : State} {busy : Option Nat} {ch : List Part} {s0 : State} (h0 : Alters ch s0 s) (hc
    : Part.le (Part.err ++ [Part.shadow, Part.act, Part.hold, Part.wbuf, Part.commit, Part.clk, Part.tile, Part.memBytes, Part.mem, Part.stream, Part.queue, Part.sig,
    Part.nose, Part.coll, Part.fab, Part.part, Part.pathVal, Part.power, Part.boot, Part.mgmt, Part.life, Part.host]) ch = true) : Alters ch s0
    (State.mboxServe s busy) := by
  unfold State.mboxServe
  try dsimp only
  repeat' (
    first
    | with_reducible (first | exact Alters.refl _ _ | apply Alters.ite | assumption | apply State.mboxDone_alters |
                            apply State.respBody_alters | apply State.serve_alters)
    | exact Part.le_trans (by decide) hc
    | (refine (?_ : Part.le _ _ = true); decide)
    | intro _
    | with_reducible (first | rfl)
    | split
    | dsimp only
    | simp only [id_eq]
  )

theorem State.mboxGo_alters {s : State} {busy : Option Nat} {ch : List Part} {s0 : State} (h0 : Alters ch s0 s) (hc :
    Part.le (Part.err ++ [Part.shadow, Part.act, Part.hold, Part.wbuf, Part.commit, Part.clk, Part.tile, Part.memBytes, Part.mem, Part.stream, Part.queue, Part.sig,
    Part.nose, Part.coll, Part.fab, Part.part, Part.pathVal, Part.power, Part.boot, Part.mgmt, Part.life, Part.host]) ch = true) : Alters ch s0 (State.mboxGo
    s busy) := by
  unfold State.mboxGo
  try dsimp only
  repeat' (
    first
    | with_reducible (first | exact Alters.refl _ _ | apply Alters.ite | assumption | apply State.mboxDone_alters |
                            apply State.mboxServe_alters | apply State.raise_alters | apply State.respBody_alters |
                            apply State.wr_alters)
    | exact Part.le_trans (by decide) hc
    | (refine (?_ : Part.le _ _ = true); decide)
    | intro _
    | with_reducible (first | rfl)
    | split
    | dsimp only
    | simp only [id_eq]
  )

theorem mailbox_alters {s : State} {ch : List Part} {s0 : State} (h0 : Alters ch s0 s) (hc : Part.le (Part.err ++
    [Part.shadow, Part.act, Part.hold, Part.wbuf, Part.commit, Part.clk, Part.tile, Part.memBytes, Part.mem, Part.stream, Part.queue, Part.sig, Part.nose, Part.coll, Part.fab,
    Part.part, Part.pathVal, Part.power, Part.boot, Part.mgmt, Part.life, Part.host]) ch = true) : Alters ch s0 (mailbox s) := by
  unfold mailbox
  try dsimp only
  repeat' (
    first
    | with_reducible (first | exact Alters.refl _ _ | apply Alters.ite | assumption | apply State.mboxGo_alters)
    | exact Part.le_trans (by decide) hc
    | (refine (?_ : Part.le _ _ = true); decide)
    | intro _
    | with_reducible (first | rfl)
    | split
    | dsimp only
    | simp only [id_eq]
  )

theorem execMboxRequest_alters {p : Path} {type len : BitVec 8} {busy : Option Nat} {s : State} {t0} (e :
    execMboxRequest p type len busy s = .next t0) : Alters (Part.err ++ [Part.shadow, Part.act, Part.hold, Part.wbuf, Part.commit, Part.clk,
    Part.tile, Part.memBytes, Part.mem, Part.stream, Part.queue, Part.sig, Part.nose, Part.coll, Part.fab, Part.part, Part.pathVal, Part.power, Part.boot, Part.mgmt, Part.life,
    Part.host]) s t0 := by
  unfold execMboxRequest at e
  try dsimp only at e
  repeat' split at e
  all_goals (injection e with e; subst e)
  all_goals try dsimp only
  repeat' (
    first
    | with_reducible (first | exact Alters.refl _ _ | apply Alters.ite | assumption | apply State.mboxGo_alters |
                            apply State.onWrite_alters | apply State.raise_alters | apply State.wr_alters)
    | exact Alters.refl _ _
    | (refine (?_ : Part.le _ _ = true); decide)
    | intro _
    | with_reducible (first | rfl)
    | split
    | dsimp only
    | simp only [id_eq]
  )

theorem execRegRead_alters {h : IcordHdr} {offs : List (BitVec 26)} {s : State} {t0} (e : execRegRead h offs s = .next
    t0) : Alters (Part.err ++ [Part.shadow, Part.act, Part.hold, Part.wbuf, Part.commit, Part.clk, Part.tile, Part.memBytes, Part.mem, Part.stream, Part.queue,
    Part.sig, Part.nose, Part.coll, Part.fab, Part.part, Part.pathVal, Part.power, Part.boot, Part.mgmt, Part.life, Part.host]) s t0 := by
  unfold execRegRead at e
  try dsimp only at e
  repeat' split at e
  all_goals (injection e with e; subst e)
  all_goals try dsimp only
  repeat' (
    first
    | with_reducible (first | exact Alters.refl _ _ | apply Alters.ite | assumption | apply State.icordRequest_alters |
                            apply mailbox_alters)
    | exact Alters.refl _ _
    | (refine (?_ : Part.le _ _ = true); decide)
    | intro _
    | with_reducible (first | rfl)
    | split
    | dsimp only
    | simp only [id_eq]
  )

theorem execRegWrite_alters {h : IcordHdr} {ws : List (BitVec 26 × Word)} {s : State} {t0} (e : execRegWrite h ws s =
    .next t0) : Alters (Part.err ++ [Part.shadow, Part.act, Part.hold, Part.wbuf, Part.commit, Part.clk, Part.tile, Part.memBytes, Part.mem, Part.stream,
    Part.queue, Part.sig, Part.nose, Part.coll, Part.fab, Part.part, Part.pathVal, Part.power, Part.boot, Part.mgmt, Part.life, Part.host]) s t0 := by
  unfold execRegWrite at e
  try dsimp only at e
  repeat' split at e
  all_goals (injection e with e; subst e)
  all_goals try dsimp only
  repeat' (
    first
    | with_reducible (first | exact Alters.refl _ _ | apply Alters.ite | assumption | apply State.icordRequest_alters |
                            apply mailbox_alters)
    | exact Alters.refl _ _
    | (refine (?_ : Part.le _ _ = true); decide)
    | intro _
    | with_reducible (first | rfl)
    | split
    | dsimp only
    | simp only [id_eq]
  )

theorem execEnvelope_alters {h : IcordHdr} {target ramp : BitVec 16} {s : State} {t0} (e : execEnvelope h target ramp
    s = .next t0) : Alters (Part.err ++ [Part.shadow, Part.act, Part.hold, Part.wbuf, Part.commit, Part.clk, Part.tile, Part.memBytes, Part.mem, Part.stream,
    Part.queue, Part.sig, Part.nose, Part.coll, Part.fab, Part.part, Part.pathVal, Part.power, Part.boot, Part.mgmt, Part.life, Part.host]) s t0 := by
  unfold execEnvelope at e
  try dsimp only at e
  repeat' split at e
  all_goals (injection e with e; subst e)
  all_goals try dsimp only
  repeat' (
    first
    | with_reducible (first | exact Alters.refl _ _ | apply Alters.ite | assumption | apply State.icordRequest_alters |
                            apply mailbox_alters)
    | exact Alters.refl _ _
    | (refine (?_ : Part.le _ _ = true); decide)
    | intro _
    | with_reducible (first | rfl)
    | split
    | dsimp only
    | simp only [id_eq]
  )

theorem execIcordShed_alters {h : IcordHdr} {op : BitVec 2} {epoch : DWord} {s : State} {t0} (e : execIcordShed h op
    epoch s = .next t0) : Alters (Part.err ++ [Part.shadow, Part.act, Part.hold, Part.wbuf, Part.commit, Part.clk, Part.tile, Part.memBytes, Part.mem,
    Part.stream, Part.queue, Part.sig, Part.nose, Part.coll, Part.fab, Part.part, Part.pathVal, Part.power, Part.boot, Part.mgmt, Part.life, Part.host]) s t0 := by
  unfold execIcordShed at e
  try dsimp only at e
  repeat' split at e
  all_goals (injection e with e; subst e)
  all_goals try dsimp only
  repeat' (
    first
    | with_reducible (first | exact Alters.refl _ _ | apply Alters.ite | assumption | apply State.icordRequest_alters |
                            apply mailbox_alters)
    | exact Alters.refl _ _
    | (refine (?_ : Part.le _ _ = true); decide)
    | intro _
    | with_reducible (first | rfl)
    | split
    | dsimp only
    | simp only [id_eq]
  )

theorem execIcordFieldTest_alters {h : IcordHdr} {test part : BitVec 3} {s : State} {t0} (e : execIcordFieldTest h
    test part s = .next t0) : Alters (Part.err ++ [Part.shadow, Part.act, Part.hold, Part.wbuf, Part.commit, Part.clk, Part.tile, Part.memBytes, Part.mem,
    Part.stream, Part.queue, Part.sig, Part.nose, Part.coll, Part.fab, Part.part, Part.pathVal, Part.power, Part.boot, Part.mgmt, Part.life, Part.host]) s t0 := by
  unfold execIcordFieldTest at e
  try dsimp only at e
  repeat' split at e
  all_goals (injection e with e; subst e)
  all_goals try dsimp only
  repeat' (
    first
    | with_reducible (first | exact Alters.refl _ _ | apply Alters.ite | assumption | apply State.icordRequest_alters |
                            apply mailbox_alters)
    | exact Alters.refl _ _
    | (refine (?_ : Part.le _ _ = true); decide)
    | intro _
    | with_reducible (first | rfl)
    | split
    | dsimp only
    | simp only [id_eq]
  )

theorem execImageWrite_alters {h : IcordHdr} {slot : Fin 2} {off : BitVec 25} {bs : List Byte} {s : State} {t0} (e :
    execImageWrite h slot off bs s = .next t0) : Alters (Part.err ++ [Part.shadow, Part.act, Part.hold, Part.wbuf, Part.commit, Part.clk,
    Part.tile, Part.memBytes, Part.mem, Part.stream, Part.queue, Part.sig, Part.nose, Part.coll, Part.fab, Part.part, Part.pathVal, Part.power, Part.boot, Part.mgmt, Part.life,
    Part.host]) s t0 := by
  unfold execImageWrite at e
  try dsimp only at e
  repeat' split at e
  all_goals (injection e with e; subst e)
  all_goals try dsimp only
  repeat' (
    first
    | with_reducible (first | exact Alters.refl _ _ | apply Alters.ite | assumption | apply State.icordRequest_alters |
                            apply mailbox_alters)
    | exact Alters.refl _ _
    | (refine (?_ : Part.le _ _ = true); decide)
    | intro _
    | with_reducible (first | rfl)
    | split
    | dsimp only
    | simp only [id_eq]
  )

theorem execImageSelect_alters {h : IcordHdr} {slot : Fin 2} {s : State} {t0} (e : execImageSelect h slot s = .next
    t0) : Alters (Part.err ++ [Part.shadow, Part.act, Part.hold, Part.wbuf, Part.commit, Part.clk, Part.tile, Part.memBytes, Part.mem, Part.stream, Part.queue,
    Part.sig, Part.nose, Part.coll, Part.fab, Part.part, Part.pathVal, Part.power, Part.boot, Part.mgmt, Part.life, Part.host]) s t0 := by
  unfold execImageSelect at e
  try dsimp only at e
  repeat' split at e
  all_goals (injection e with e; subst e)
  all_goals try dsimp only
  repeat' (
    first
    | with_reducible (first | exact Alters.refl _ _ | apply Alters.ite | assumption | apply State.icordRequest_alters |
                            apply mailbox_alters)
    | exact Alters.refl _ _
    | (refine (?_ : Part.le _ _ = true); decide)
    | intro _
    | with_reducible (first | rfl)
    | split
    | dsimp only
    | simp only [id_eq]
  )

theorem execTagRead_alters {h : IcordHdr} {off len : BitVec 16} {s : State} {t0} (e : execTagRead h off len s = .next
    t0) : Alters (Part.err ++ [Part.shadow, Part.act, Part.hold, Part.wbuf, Part.commit, Part.clk, Part.tile, Part.memBytes, Part.mem, Part.stream, Part.queue,
    Part.sig, Part.nose, Part.coll, Part.fab, Part.part, Part.pathVal, Part.power, Part.boot, Part.mgmt, Part.life, Part.host]) s t0 := by
  unfold execTagRead at e
  try dsimp only at e
  repeat' split at e
  all_goals (injection e with e; subst e)
  all_goals try dsimp only
  repeat' (
    first
    | with_reducible (first | exact Alters.refl _ _ | apply Alters.ite | assumption | apply State.icordRequest_alters |
                            apply mailbox_alters)
    | exact Alters.refl _ _
    | (refine (?_ : Part.le _ _ = true); decide)
    | intro _
    | with_reducible (first | rfl)
    | split
    | dsimp only
    | simp only [id_eq]
  )

theorem execTagWrite_alters {h : IcordHdr} {area : BitVec 2} {bs : List Byte} {s : State} {t0} (e : execTagWrite h
    area bs s = .next t0) : Alters (Part.err ++ [Part.shadow, Part.act, Part.hold, Part.wbuf, Part.commit, Part.clk, Part.tile, Part.memBytes, Part.mem,
    Part.stream, Part.queue, Part.sig, Part.nose, Part.coll, Part.fab, Part.part, Part.pathVal, Part.power, Part.boot, Part.mgmt, Part.life, Part.host]) s t0 := by
  unfold execTagWrite at e
  try dsimp only at e
  repeat' split at e
  all_goals (injection e with e; subst e)
  all_goals try dsimp only
  repeat' (
    first
    | with_reducible (first | exact Alters.refl _ _ | apply Alters.ite | assumption | apply State.icordRequest_alters |
                            apply mailbox_alters)
    | exact Alters.refl _ _
    | (refine (?_ : Part.le _ _ = true); decide)
    | intro _
    | with_reducible (first | rfl)
    | split
    | dsimp only
    | simp only [id_eq]
  )

theorem execLifeRead_alters {h : IcordHdr} {kind idx : Nat} {s : State} {t0} (e : execLifeRead h kind idx s = .next
    t0) : Alters (Part.err ++ [Part.shadow, Part.act, Part.hold, Part.wbuf, Part.commit, Part.clk, Part.tile, Part.memBytes, Part.mem, Part.stream, Part.queue,
    Part.sig, Part.nose, Part.coll, Part.fab, Part.part, Part.pathVal, Part.power, Part.boot, Part.mgmt, Part.life, Part.host]) s t0 := by
  unfold execLifeRead at e
  try dsimp only at e
  repeat' split at e
  all_goals (injection e with e; subst e)
  all_goals try dsimp only
  repeat' (
    first
    | with_reducible (first | exact Alters.refl _ _ | apply Alters.ite | assumption | apply State.icordRequest_alters |
                            apply mailbox_alters)
    | exact Alters.refl _ _
    | (refine (?_ : Part.le _ _ = true); decide)
    | intro _
    | with_reducible (first | rfl)
    | split
    | dsimp only
    | simp only [id_eq]
  )

theorem execLedgerRead_alters {h : IcordHdr} {s : State} {t0} (e : execLedgerRead h s = .next t0) : Alters (Part.err
    ++ [Part.shadow, Part.act, Part.hold, Part.wbuf, Part.commit, Part.clk, Part.tile, Part.memBytes, Part.mem, Part.stream, Part.queue, Part.sig, Part.nose, Part.coll, Part.fab,
    Part.part, Part.pathVal, Part.power, Part.boot, Part.mgmt, Part.life, Part.host]) s t0 := by
  unfold execLedgerRead at e
  try dsimp only at e
  repeat' split at e
  all_goals (injection e with e; subst e)
  all_goals try dsimp only
  repeat' (
    first
    | with_reducible (first | exact Alters.refl _ _ | apply Alters.ite | assumption | apply State.icordRequest_alters |
                            apply mailbox_alters)
    | exact Alters.refl _ _
    | (refine (?_ : Part.le _ _ = true); decide)
    | intro _
    | with_reducible (first | rfl)
    | split
    | dsimp only
    | simp only [id_eq]
  )

theorem execLogRead_alters {h : IcordHdr} {idx : Nat} {s : State} {t0} (e : execLogRead h idx s = .next t0) : Alters
    (Part.err ++ [Part.shadow, Part.act, Part.hold, Part.wbuf, Part.commit, Part.clk, Part.tile, Part.memBytes, Part.mem, Part.stream, Part.queue, Part.sig, Part.nose,
    Part.coll, Part.fab, Part.part, Part.pathVal, Part.power, Part.boot, Part.mgmt, Part.life, Part.host]) s t0 := by
  unfold execLogRead at e
  try dsimp only at e
  repeat' split at e
  all_goals (injection e with e; subst e)
  all_goals try dsimp only
  repeat' (
    first
    | with_reducible (first | exact Alters.refl _ _ | apply Alters.ite | assumption | apply State.icordRequest_alters |
                            apply mailbox_alters)
    | exact Alters.refl _ _
    | (refine (?_ : Part.le _ _ = true); decide)
    | intro _
    | with_reducible (first | rfl)
    | split
    | dsimp only
    | simp only [id_eq]
  )

theorem execPowerOff_alters {h : IcordHdr} {s : State} {t0} (e : execPowerOff h s = .next t0) : Alters (Part.err ++
    [Part.shadow, Part.act, Part.hold, Part.wbuf, Part.commit, Part.clk, Part.tile, Part.memBytes, Part.mem,
    Part.stream, Part.queue, Part.sig, Part.nose, Part.coll, Part.fab, Part.part, Part.pathVal, Part.power, Part.boot,
    Part.mgmt, Part.life, Part.host]) s t0 := by
  unfold execPowerOff at e
  try dsimp only at e
  repeat' split at e
  all_goals (injection e with e; subst e)
  all_goals try dsimp only
  repeat' (
    first
    | with_reducible (first | exact Alters.refl _ _ | apply Alters.ite | assumption |
                          apply State.classZero_alters | apply State.icordRequest_alters |
                          apply State.orderDrydown_alters | apply mailbox_alters)
    | exact Alters.refl _ _
    | (refine (?_ : Part.le _ _ = true); decide)
    | intro _
    | with_reducible (first | rfl)
    | split
    | dsimp only
    | simp only [id_eq]
  )

theorem execIcordWarmReset_alters {h : IcordHdr} {s : State} {t0} (e : execIcordWarmReset h s = .next t0) : Alters
    (Part.err ++ [Part.shadow, Part.act, Part.hold, Part.wbuf, Part.commit, Part.clk, Part.tile, Part.memBytes,
    Part.mem, Part.stream, Part.queue, Part.sig, Part.nose, Part.coll, Part.fab, Part.part, Part.pathVal, Part.power,
    Part.boot, Part.mgmt, Part.life, Part.host]) s t0 := by
  unfold execIcordWarmReset at e
  try dsimp only at e
  repeat' split at e
  all_goals (injection e with e; subst e)
  all_goals try dsimp only
  repeat' (
    first
    | with_reducible (first | exact Alters.refl _ _ | apply Alters.ite | assumption |
                          apply State.classZero_alters | apply State.icordRequest_alters | apply State.warmReset_alters |
                          apply mailbox_alters)
    | exact Alters.refl _ _
    | (refine (?_ : Part.le _ _ = true); decide)
    | intro _
    | with_reducible (first | rfl)
    | split
    | dsimp only
    | simp only [id_eq]
  )

theorem State.pathWrite_alters {s : State} {p : Path} {off n v : Nat} {ch : List Part} {s0 : State} (h0 : Alters ch s0
    s) (hc : Part.le (Part.err ++ [Part.shadow, Part.act, Part.hold, Part.wbuf, Part.commit, Part.clk, Part.tile,
    Part.memBytes, Part.mem, Part.stream, Part.queue, Part.sig, Part.nose, Part.coll, Part.fab, Part.part,
    Part.pathVal, Part.power, Part.boot, Part.mgmt, Part.life, Part.host]) ch = true) : Alters ch s0 (State.pathWrite
    s p off n v) := by
  unfold State.pathWrite
  try dsimp only
  repeat' (
    first
    | with_reducible (first | exact Alters.refl _ _ | apply Alters.ite | assumption |
                          apply State.busWrite_alters | apply State.handover_alters | apply mailbox_alters)
    | exact Part.le_trans (by decide) hc
    | (refine (?_ : Part.le _ _ = true); decide)
    | intro _
    | with_reducible (first | rfl)
    | split
    | dsimp only
    | simp only [id_eq]
  )

theorem execRegisterWrite_alters {p : Path} {off : BitVec 26} {wide bar2 : Bool} {v : DWord} {s : State} {t0} (e :
    execRegisterWrite p off wide bar2 v s = .next t0) : Alters (Part.err ++ [Part.shadow, Part.act, Part.hold,
    Part.wbuf, Part.commit, Part.clk, Part.tile, Part.memBytes, Part.mem, Part.stream, Part.queue, Part.sig,
    Part.nose, Part.coll, Part.fab, Part.part, Part.pathVal, Part.power, Part.boot, Part.mgmt, Part.life, Part.host])
    s t0 := by
  unfold execRegisterWrite at e
  try dsimp only at e
  repeat' split at e
  all_goals (injection e with e; subst e)
  all_goals try dsimp only
  repeat' (
    first
    | with_reducible (first | exact Alters.refl _ _ | apply Alters.ite | assumption |
                          apply State.barWrite_alters | apply State.pathWrite_alters)
    | exact Alters.refl _ _
    | (refine (?_ : Part.le _ _ = true); decide)
    | intro _
    | with_reducible (first | rfl)
    | split
    | dsimp only
    | simp only [id_eq]
  )

theorem execLowHalfWrite_alters {p : Path} {off : BitVec 26} {v : Word} {s : State} {t0} (e : execLowHalfWrite p off v
    s = .next t0) : Alters (Part.err ++ [Part.shadow, Part.act, Part.hold, Part.wbuf, Part.commit, Part.clk,
    Part.tile, Part.memBytes, Part.mem, Part.stream, Part.queue, Part.sig, Part.nose, Part.coll, Part.fab, Part.part,
    Part.pathVal, Part.power, Part.boot, Part.mgmt, Part.life, Part.host]) s t0 := by
  unfold execLowHalfWrite at e
  try dsimp only at e
  repeat' split at e
  all_goals (injection e with e; subst e)
  all_goals try dsimp only
  repeat' (
    first
    | with_reducible (first | exact Alters.refl _ _ | apply Alters.ite | assumption |
                          apply State.pathWrite_alters)
    | exact Alters.refl _ _
    | (refine (?_ : Part.le _ _ = true); decide)
    | intro _
    | with_reducible (first | rfl)
    | split
    | dsimp only
    | simp only [id_eq]
  )

theorem execHighHalfWrite_alters {p : Path} {off : BitVec 26} {v : Word} {s : State} {t0} (e : execHighHalfWrite p off
    v s = .next t0) : Alters (Part.err ++ [Part.shadow, Part.act, Part.hold, Part.wbuf, Part.commit, Part.clk,
    Part.tile, Part.memBytes, Part.mem, Part.stream, Part.queue, Part.sig, Part.nose, Part.coll, Part.fab, Part.part,
    Part.pathVal, Part.power, Part.boot, Part.mgmt, Part.life, Part.host]) s t0 := by
  unfold execHighHalfWrite at e
  try dsimp only at e
  repeat' split at e
  all_goals (injection e with e; subst e)
  all_goals try dsimp only
  repeat' (
    first
    | with_reducible (first | exact Alters.refl _ _ | apply Alters.ite | assumption |
                          apply State.pathWrite_alters)
    | exact Alters.refl _ _
    | (refine (?_ : Part.le _ _ = true); decide)
    | intro _
    | with_reducible (first | rfl)
    | split
    | dsimp only
    | simp only [id_eq]
  )

end Sys2Proof.Machine
end

