-- ==== Sys2Proof/Laws/Commit.lean ====
section
/-! SUPPORT. The state of the queues as shown leaves every field below the command queue pages alone. -/

namespace Sys2Proof.Machine

theorem State.showQueue_rd {s : State} {q : Nat} {g : Fld} (h : g.key < 0x200000 * 64) : (s.showQueue q).rd g = s.rd g := by
  unfold State.showQueue
  dsimp only
  rw [State.rd_wr_ne, State.rd_wr_ne] <;> simp only [Fld.key, R.CQ.STAT.STATE, R.CQ.STAT.WAIT_WHY, pgCQ] at * <;> omega

theorem State.foldl_rd {α : Type} {f : State → α → State} {g : Fld} {l : List α} {s : State}
    (h : ∀ u x, (f u x).rd g = u.rd g) : (l.foldl f s).rd g = s.rd g := by
  induction l generalizing s with
  | nil => rfl
  | cons x r ih => exact (ih (s := f s x)).trans (h s x)

theorem State.showScope_rd {s : State} {g : Fld} (h : g.key < 0x200000 * 64) : (s.showScope).rd g = s.rd g := by
  unfold State.showScope
  exact State.foldl_rd fun u p => State.foldl_rd fun v q => State.showQueue_rd h

end Sys2Proof.Machine
end

