-- ==== Sys2Proof/Laws/Data.lean ====
section
/-! SUPPORT. What a read of data does where nothing is poisoned, flawed or of a bad seal (R277, R376). -/

namespace Sys2Proof.Machine

/-- A line is read as it stands. -/
theorem State.scanLine_clean {s : State} (o : Option Owner) (p : Place) (hp : s.mem.poison = []) (hb : s.mem.blkBad = [])
    (hf : s.mem.flaws = []) : s.scanLine o p = (s, none) := by
  have h : ∀ k, k ≠ 0 → s.flawed p k = [] := fun k hk => by
    simp [State.flawed, hf, Cells.get, Cells.find, Ne.symm hk]
  simp [State.scanLine, State.poisoned, hp, hb, Cells.get, Cells.find, h]

/-- So are lines in turn. -/
theorem State.scanLines_clean {s : State} (o : Option Owner) (ps : List Place) (hp : s.mem.poison = []) (hb : s.mem.blkBad = [])
    (hf : s.mem.flaws = []) : s.scanLines o ps = (s, none) := by
  induction ps with
  | nil => rfl
  | cons p r ih => simp [State.scanLines, State.scanLine_clean o p hp hb hf, ih]

/-- A check of data finds nothing and changes nothing. -/
theorem State.checkData_clean {s : State} (o : Option Owner) (p : Place) (n : Nat) (hp : s.mem.poison = []) (hb : s.mem.blkBad = [])
    (hf : s.mem.flaws = []) (hs : s.mem.badSeal = []) : s.checkData o p n = (s, none) := by
  have h : ∀ l : List Nat, l.find? (fun _ => false) = none := fun l => List.find?_eq_none.2 (by simp)
  simp [State.checkData, State.scanLines_clean o _ hp hb hf, hs, Cells.get, Cells.find, h]

end Sys2Proof.Machine
end

