-- ==== Sys2Proof/Laws/Memory.lean ====
section
/-! SUPPORT. Every operation keeps the memories in canonical form. -/

-- One closing tactic serves every lemma here; where a goal needs few of its steps the linters name the rest.
set_option linter.all false

namespace Sys2Proof.Machine

set_option Elab.async false

/-- The memories are in canonical form. -/
structure Wf (s : State) : Prop where
  wf : Memory.wf s = true

theorem Wf.iff {s : State} :
    Wf s ↔ Cells.wf 0 s.mem.bytes = true ∧ Cells.wf 0 s.tile.words = true ∧ Cells.wf 0 s.tag.bytes = true := by
  constructor
  · intro h; have := h.wf; simpa [Memory.wf, and_assoc] using this
  · intro h; exact ⟨by simpa [Memory.wf, and_assoc] using h⟩

theorem Wf.congr {s t : State} (h : Wf s) (a : t.mem.bytes = s.mem.bytes) (b : t.tile.words = s.tile.words)
    (c : t.tag.bytes = s.tag.bytes) : Wf t := by
  rw [Wf.iff] at h ⊢; rw [a, b, c]; exact h

theorem Wf.alters {ch : List Part} {s t : State} (h : Wf s) (k : Alters ch s t)
    (n : (ch.contains .memBytes || ch.contains .words || ch.contains .tagBytes) = false) : Wf t := by
  simp only [Bool.or_eq_false_iff] at n
  have q : ∀ p, ch.contains p = false → p ∉ ch := fun p e m => by simp_all
  exact h.congr (k.same .memBytes (q _ n.1.1)) (k.same .words (q _ n.1.2)) (k.same .tagBytes (q _ n.2))

theorem Wf.ite {c : Prop} [Decidable c] {a b : State} (h : Wf a) (k : Wf b) : Wf (if c then a else b) := by
  split <;> assumption
theorem Wf.foldl {α : Type} {g : State → α → State} {l : List α} {u : State} (h : ∀ v x, Wf v → Wf (g v x)) (k : Wf u) :
    Wf (l.foldl g u) := by
  induction l generalizing u with
  | nil => exact k
  | cons x r ih => exact ih (h u x k)
theorem Wf.foldl1 {α β : Type} {g : State × β → α → State × β} {l : List α} {u : State × β}
    (h : ∀ v x, Wf v.1 → Wf (g v x).1) (k : Wf u.1) : Wf (l.foldl g u).1 := by
  induction l generalizing u with
  | nil => exact k
  | cons x r ih => exact ih (h u x k)
theorem Wf.of_pair {α : Type} {t : State} {r : α} {f : State × α} (e : f = (t, r)) (h : Wf f.1) : Wf t := by subst e; exact h
theorem Wf.of_pair2 {α : Type} {t : State} {r : α} {f : α × State} (e : f = (r, t)) (h : Wf f.2) : Wf t := by subst e; exact h
theorem Wf.ofChecked {g : State} {x : Option Err} {b : Err → State} (h : ∀ e, Wf (b e)) (k : Wf g) : Wf (checked x b g) := by
  cases x; exact k; exact h _
theorem Wf.ofChecked1 {β : Type} {g : State × β} {x : Option Err} {b : Err → State × β} (h : ∀ e, Wf (b e).1) (k : Wf g.1) :
    Wf (checked x b g).1 := by
  cases x; exact k; exact h _
theorem Wf.ofJudged {β : Type} {x : Except Err β} {b : Err → State} {g : β → State} (h : ∀ e, Wf (b e)) (k : ∀ v, Wf (g v)) :
    Wf (judged x b g) := by
  cases x; exact h _; exact k _
theorem Wf.ofGiven {β : Type} {n : State} {x : Option β} {g : β → State} (h : Wf n) (k : ∀ v, Wf (g v)) : Wf (given x n g) := by
  cases x; exact h; exact k _
theorem Wf.ofGiven1 {α β : Type} {n : State × α} {x : Option β} {g : β → State × α} (h : Wf n.1) (k : ∀ v, Wf (g v).1) :
    Wf (given x n g).1 := by
  cases x; exact h; exact k _
theorem State.onMem_wfR {s : State} {g : MemSt → MemSt} (h0 : Wf s) (e : ∀ x, (g x).bytes = x.bytes) : Wf (State.onMem s g) :=
  h0.congr (e _) rfl rfl
theorem State.onTag_wfR {s : State} {g : TagSt → TagSt} (h0 : Wf s) (e : ∀ x, (g x).bytes = x.bytes) : Wf (State.onTag s g) :=
  h0.congr rfl rfl (e _)

theorem Wf.upd_queue {u : State} {x0} (h : Wf u)  : Wf { u with queue := x0 } := h.congr rfl rfl rfl
theorem Wf.upd_tile {u : State} {x0} (h : Wf u) (e0 : x0.words = u.tile.words) : Wf { u with tile := x0 } := h.congr rfl e0 rfl
theorem Wf.upd_free {u : State} {x0} (h : Wf u) : Wf { u with free := x0 } := h.congr rfl rfl rfl
theorem Wf.upd_nose {u : State} {x0} (h : Wf u) : Wf { u with nose := x0 } := h.congr rfl rfl rfl
theorem Wf.upd_stream {u : State} {x0} (h : Wf u) : Wf { u with stream := x0 } := h.congr rfl rfl rfl
theorem Wf.upd_coll {u : State} {x0} (h : Wf u) : Wf { u with coll := x0 } := h.congr rfl rfl rfl
theorem Wf.upd_island {u : State} {x0} (h : Wf u) : Wf { u with island := x0 } := h.congr rfl rfl rfl

theorem State.countBytes_wf {s : State} {p : Place} {write : Bool} {n : Nat} (h0 : Wf s) : Wf (State.countBytes s p
    write n) :=
  .alters h0 (State.countBytes_alters (ch := [.cells, .power]) (.refl _ _) rfl) rfl

theorem State.writeAt_wf {s : State} {p : Place} {bs : List Byte} (h0 : Wf s) : Wf (State.writeAt s p bs) := by
  unfold State.writeAt
  refine State.countBytes_wf (Wf.iff.2 ?_)
  obtain ⟨a, b, c⟩ := Wf.iff.1 h0
  exact ⟨Cells.wf_putBytes _ _ a, b, c⟩

theorem State.poisonBlock_wf {s : State} {b : Nat} (h0 : Wf s) : Wf (State.poisonBlock s b) :=
  .alters h0 (State.poisonBlock_alters (ch := [.mem]) (.refl _ _) rfl) rfl

theorem State.raiseFor_wf {s : State} {o : Option Owner} {pg : Nat} {e : Err} {src : Nat} (h0 : Wf s) : Wf
    (State.raiseFor s o pg e src) :=
  .alters h0 (State.raiseFor_alters (ch := (Part.err ++ [Part.nose])) (.refl _ _) rfl) rfl

theorem State.reach_wf {s : State} {p : Place} (h0 : Wf s) : Wf (State.reach s p) :=
  .alters h0 (State.reach_alters (ch := [.cells, .power]) (.refl _ _) rfl) rfl

theorem State.sealFail_wf {s : State} {o : Option Owner} {pg : Nat} {e : Err} (h0 : Wf s) : Wf (State.sealFail s o pg
    e) :=
  .alters h0 (State.sealFail_alters (ch := (Part.err ++ [Part.nose])) (.refl _ _) rfl) rfl

theorem State.writeRuns_wf {s : State} {o : Option Owner} {rs : List (Nat × Nat)} {bs : List Byte} (h0 : Wf s) : Wf
    (State.writeRuns s o rs bs).1 := by
  induction rs generalizing s o bs with
  | nil =>
    unfold State.writeRuns
    try dsimp only
    repeat' (
      first
      | intro _
      | with_reducible (first | assumption | apply Wf.ite | apply State.poisonBlock_wf |
                              apply State.raiseFor_wf | apply State.reach_wf | apply State.sealFail_wf |
                              apply State.writeAt_wf | rfl)
      | split
      | dsimp only
      | simp only [id_eq]
    )
  | cons hd_ tl_ ih_ =>
    unfold State.writeRuns
    try dsimp only
    repeat' (
      first
      | with_reducible (first | apply ih_)
      | intro _
      | with_reducible (first | assumption | apply Wf.ite | apply State.poisonBlock_wf |
                              apply State.raiseFor_wf | apply State.reach_wf | apply State.sealFail_wf |
                              apply State.writeAt_wf | rfl)
      | split
      | dsimp only
      | simp only [id_eq]
    )

theorem State.memWrite_wf {s : State} {o : Option Owner} {a : Actor} {off : Nat} {bs : List Byte} (h0 : Wf s) : Wf
    (State.memWrite s o a off bs).1 := by
  unfold State.memWrite
  try dsimp only
  repeat' (
    first
    | intro _
    | with_reducible (first | assumption | apply Wf.ite | apply State.raiseFor_wf |
                            apply State.writeRuns_wf | apply Wf.of_pair (by assumption) | rfl)
    | split
    | dsimp only
    | simp only [id_eq]
  )

theorem State.fillGran_wf {s : State} {g : Nat} (h0 : Wf s) : Wf (State.fillGran s g) := by
  obtain ⟨a, b, c⟩ := Wf.iff.1 h0
  refine Wf.iff.2 ⟨?_, b, c⟩
  unfold State.fillGran; dsimp only; exact Cells.wf_clear _ a

theorem State.openLine_wf {s : State} {t l : Nat} (h0 : Wf s) : Wf (State.openLine s t l) := by
  unfold State.openLine
  refine Wf.ite h0 ?_
  obtain ⟨a, b, c⟩ := Wf.iff.1 h0
  refine Wf.iff.2 ⟨a, ?_, c⟩
  dsimp only; exact Cells.wf_clear _ b

theorem State.spadWrite_wf {s : State} {t w : Nat} {v : Word} (h0 : Wf s) : Wf (State.spadWrite s t w v) := by
  obtain ⟨a, b, c⟩ := Wf.iff.1 (State.openLine_wf (t := t) (l := lineOf w) h0)
  exact Wf.iff.2 ⟨a, Cells.wf_put _ _ b, c⟩

theorem State.spadWrites_wf {s : State} {t w : Nat} {vs : List Word} (h0 : Wf s) : Wf (State.spadWrites s t w vs) :=
    by
  induction vs generalizing s t w with
  | nil =>
    unfold State.spadWrites
    try dsimp only
    repeat' (
      first
      | intro _
      | with_reducible (first | assumption | apply Wf.ite | apply State.spadWrite_wf | rfl)
      | split
      | dsimp only
      | simp only [id_eq]
    )
  | cons hd_ tl_ ih_ =>
    unfold State.spadWrites
    try dsimp only
    repeat' (
      first
      | with_reducible (first | apply ih_)
      | intro _
      | with_reducible (first | assumption | apply Wf.ite | apply State.spadWrite_wf | rfl)
      | split
      | dsimp only
      | simp only [id_eq]
    )

theorem State.spadPut_wf {s : State} {o : Option Owner} {t w : Nat} {vs : List Word} (h0 : Wf s) : Wf (State.spadPut s
    o t w vs).1 := by
  unfold State.spadPut
  try dsimp only
  repeat' (
    first
    | intro _
    | with_reducible (first | assumption | apply Wf.ite | apply State.raiseFor_wf |
                            apply State.spadWrites_wf | rfl)
    | split
    | dsimp only
    | simp only [id_eq]
  )

theorem State.writeSpans_wf {s : State} {o : Option Owner} {pg first : Nat} {d : List Byte} {bad : List (Nat × Nat)}
    {put : State → Nat → List Byte → State × Option Err} (h0 : Wf s) (hput : ∀ {u0 u1 u2}, Wf u0 → Wf (put u0 u1
    u2).1) : Wf (State.writeSpans s o pg first d bad put).1 := by
  unfold State.writeSpans
  try dsimp only
  repeat' (
    first
    | intro _
    | with_reducible (first | assumption | apply Wf.ite | apply Wf.foldl | apply hput |
                            apply State.sealFail_wf | apply Wf.foldl1 | apply Wf.of_pair (by assumption) | rfl)
    | split
    | dsimp only
    | simp only [id_eq]
  )

theorem State.sealedWrite_wf {s : State} {o : Option Owner} {a : Actor} {off first : Nat} {d : List Byte} {bad : List
    (Nat × Nat)} (h0 : Wf s) : Wf (State.sealedWrite s o a off first d bad).1 := by
  unfold State.sealedWrite
  try dsimp only
  repeat' (
    first
    | intro _
    | with_reducible (first | assumption | apply Wf.ite | apply State.memWrite_wf |
                            apply State.raiseFor_wf | apply State.writeSpans_wf | apply Wf.of_pair (by assumption) | rfl)
    | split
    | dsimp only
    | simp only [id_eq]
  )

theorem State.bump_wf {s : State} {f : Fld} {n : Nat} (h0 : Wf s) : Wf (State.bump s f n) :=
  .alters h0 (State.bump_alters (ch := [.cells]) (.refl _ _) rfl) rfl

theorem State.putSlot_wf {s : State} {t w p : Nat} {x : Triple} (h0 : Wf s) : Wf (State.putSlot s t w p x) := by
  unfold State.putSlot
  try dsimp only
  repeat' (
    first
    | intro _
    | with_reducible (first | assumption | apply Wf.ite | apply State.bump_wf |
                            apply State.spadWrites_wf | rfl)
    | split
    | dsimp only
    | simp only [id_eq]
    | with_reducible (first | apply Wf.upd_tile | apply Wf.upd_nose | apply Wf.upd_stream | apply Wf.upd_coll | apply Wf.upd_queue | apply Wf.upd_island | apply Wf.upd_free)
  )

theorem State.flightErr_wf {s : State} {o : Option Owner} {e : Err} (h0 : Wf s) : Wf (State.flightErr s o e) :=
  .alters h0 (State.flightErr_alters (ch := [.queue]) (.refl _ _) rfl) rfl

theorem State.ranStages_wf {s : State} {n : Nat} (h0 : Wf s) : Wf (State.ranStages s n) :=
  .alters h0 (State.ranStages_alters (ch := [.tile]) (.refl _ _) rfl) rfl

theorem State.spadReads_wf {s : State} {o : Option Owner} {t : Nat} {ws : List Nat} (h0 : Wf s) : Wf (State.spadReads
    s o t ws).1 :=
  .alters h0 (State.spadReads_alters (ch := (Part.err ++ [Part.tile, Part.nose])) (.refl _ _) rfl) rfl

theorem State.tileFail_wf {s : State} {o : Option Owner} {t : Nat} {e : Err} (h0 : Wf s) : Wf (State.tileFail s o t e)
    :=
  .alters h0 (State.tileFail_alters (ch := (Part.err ++ [Part.queue, Part.nose])) (.refl _ _) rfl) rfl

theorem State.accumulate_wf {s : State} {o : Option Owner} {t w p : Nat} {ws : List Word} (h0 : Wf s) : Wf
    (State.accumulate s o t w p ws) := by
  unfold State.accumulate
  try dsimp only
  repeat' (
    first
    | intro _
    | with_reducible (first | assumption | apply Wf.ite | apply State.flightErr_wf |
                            apply State.putSlot_wf | apply State.ranStages_wf | apply State.spadReads_wf |
                            apply State.tileFail_wf | apply Wf.of_pair (by assumption) | rfl)
    | split
    | dsimp only
    | simp only [id_eq]
  )

theorem State.accumulates_wf {s : State} {o : Option Owner} {t w p n : Nat} {ws : List Word} (h0 : Wf s) : Wf
    (State.accumulates s o t w p n ws) := by
  induction n generalizing s o t w p ws with
  | zero =>
    unfold State.accumulates
    try dsimp only
    repeat' (
      first
      | intro _
      | with_reducible (first | assumption | apply Wf.ite | apply State.accumulate_wf | rfl)
      | split
      | dsimp only
      | simp only [id_eq]
    )
  | succ n_ ih_ =>
    unfold State.accumulates
    try dsimp only
    repeat' (
      first
      | with_reducible (first | apply ih_)
      | intro _
      | with_reducible (first | assumption | apply Wf.ite | apply State.accumulate_wf | rfl)
      | split
      | dsimp only
      | simp only [id_eq]
    )

theorem State.addCtr_wf {s : State} {c n : Nat} {why : CtrCause} (h0 : Wf s) : Wf (State.addCtr s c n why) :=
  .alters h0 (State.addCtr_alters (ch := (Part.err ++ [Part.queue, Part.sig, Part.nose])) (.refl _ _) rfl) rfl

theorem State.arrive_wf {s : State} {l : Landing} (h0 : Wf s) : Wf (State.arrive s l).1 :=
  .alters h0 (State.arrive_alters (ch := (Part.err ++ [Part.tile, Part.queue, Part.nose])) (.refl _ _) rfl) rfl

theorem State.sillCount_wf {s : State} {w : Sender} {refused : Bool} {words : Nat} (h0 : Wf s) : Wf (State.sillCount s
    w refused words) :=
  .alters h0 (State.sillCount_alters (ch := [.cells]) (.refl _ _) rfl) rfl

theorem State.wr_wf {s : State} {f : Fld} {v : Nat} (h0 : Wf s) : Wf (State.wr s f v) :=
  .alters h0 (State.wr_alters (ch := [.cells]) (.refl _ _) rfl) rfl

theorem State.landWrite_wf {s : State} {l : Landing} (h0 : Wf s) : Wf (State.landWrite s l) := by
  unfold State.landWrite
  try dsimp only
  repeat' (
    first
    | intro _
    | with_reducible (first | assumption | apply Wf.ite | apply State.accumulates_wf |
                            apply State.addCtr_wf | apply State.arrive_wf | apply State.sillCount_wf |
                            apply State.spadWrites_wf | apply State.wr_wf | apply Wf.of_pair (by assumption) | rfl)
    | split
    | dsimp only
    | simp only [id_eq]
  )

theorem State.landNow_wf {s : State} {l : Landing} (h0 : Wf s) : Wf (State.landNow s l) := by
  unfold State.landNow
  try dsimp only
  repeat' (
    first
    | intro _
    | with_reducible (first | assumption | apply Wf.ite | apply State.landWrite_wf | rfl)
    | split
    | dsimp only
    | simp only [id_eq]
    | with_reducible (first | apply Wf.upd_tile | apply Wf.upd_nose | apply Wf.upd_stream | apply Wf.upd_coll | apply Wf.upd_queue | apply Wf.upd_island | apply Wf.upd_free)
  )

theorem State.admitWrite_wf {s : State} {l : Landing} (h0 : Wf s) : Wf (State.admitWrite s l).1 :=
  .alters h0 (State.admitWrite_alters (ch := (Part.err ++ [Part.tile, Part.nose])) (.refl _ _) rfl) rfl

theorem State.remoteWrite_wf {s : State} {l : Landing} (h0 : Wf s) : Wf (State.remoteWrite s l).1 := by
  unfold State.remoteWrite
  try dsimp only
  repeat' (
    first
    | intro _
    | with_reducible (first | assumption | apply Wf.ite | apply Wf.foldl |
                            apply State.admitWrite_wf | apply State.landNow_wf | apply Wf.foldl1 |
                            apply Wf.of_pair (by assumption) | rfl)
    | split
    | dsimp only
    | simp only [id_eq]
  )

theorem execRemoteWriteLanded_wf {w : Sender} {t : Fin 960} {n : Fin 16} {s : State} {t0} (e : execRemoteWriteLanded w
    t n s = .next t0) (h0 : Wf s) : Wf t0 := by
  unfold execRemoteWriteLanded at e
  try dsimp only at e
  repeat' split at e
  all_goals (injection e with e; subst e)
  all_goals try dsimp only
  repeat' (
    first
    | intro _
    | with_reducible (first | assumption | apply Wf.ite | apply State.landNow_wf | rfl)
    | split
    | dsimp only
    | simp only [id_eq]
  )

theorem State.putScales_wf {s : State} {t w n : Nat} {touch : Nat → Bool} {f : Nat → Option Nat} (h0 : Wf s) : Wf
    (State.putScales s t w n touch f) := by
  unfold State.putScales
  try dsimp only
  repeat' (
    first
    | intro _
    | with_reducible (first | assumption | apply Wf.ite | apply Wf.foldl |
                            apply State.spadWrite_wf | apply Wf.foldl1 | rfl)
    | split
    | dsimp only
    | simp only [id_eq]
  )

theorem State.putRow_wf {s : State} {t w code n : Nat} {gs : List (Option (Nat × List Nat))} (h0 : Wf s) : Wf
    (State.putRow s t w code n gs) := by
  unfold State.putRow
  try dsimp only
  repeat' (
    first
    | intro _
    | with_reducible (first | assumption | apply Wf.ite | apply Wf.foldl |
                            apply State.putScales_wf | apply State.spadWrites_wf | apply Wf.foldl1 | rfl)
    | split
    | dsimp only
    | simp only [id_eq]
  )

theorem State.putCodes_wf {s : State} {t w : Nat} {cs : List Nat} (h0 : Wf s) : Wf (State.putCodes s t w cs) := by
  unfold State.putCodes
  try dsimp only
  repeat' (
    first
    | intro _
    | with_reducible (first | assumption | apply Wf.ite | apply State.putScales_wf | rfl)
    | split
    | dsimp only
    | simp only [id_eq]
  )

theorem State.putTriple_wf {s : State} {o : Option Owner} {t : Nat} {x : Work} {win : Option Nat} {w : Nat} {tr :
    Triple} (h0 : Wf s) : Wf (State.putTriple s o t x win w tr) := by
  unfold State.putTriple
  try dsimp only
  repeat' (
    first
    | intro _
    | with_reducible (first | assumption | apply Wf.ite | apply State.flightErr_wf |
                            apply State.remoteWrite_wf | apply State.spadWrites_wf | apply Wf.of_pair (by assumption) | rfl)
    | split
    | dsimp only
    | simp only [id_eq]
  )

theorem State.drainItem_wf {s : State} {o : Option Owner} {t : Nat} {x : Work} {win : Option Nat} {i : DrainItem} (h0
    : Wf s) : Wf (State.drainItem s o t x win i) := by
  unfold State.drainItem
  try dsimp only
  repeat' (
    first
    | intro _
    | with_reducible (first | assumption | apply Wf.ite | apply State.putTriple_wf |
                            apply State.spadWrite_wf | rfl)
    | split
    | dsimp only
    | simp only [id_eq]
  )

theorem State.drainAll_wf {s : State} {o : Option Owner} {t : Nat} {x : Work} {win : Option Nat} {q : List DrainItem}
    (h0 : Wf s) : Wf (State.drainAll s o t x win q) := by
  unfold State.drainAll
  try dsimp only
  repeat' (
    first
    | intro _
    | with_reducible (first | assumption | apply Wf.ite | apply Wf.foldl |
                            apply State.drainItem_wf | apply Wf.foldl1 | rfl)
    | split
    | dsimp only
    | simp only [id_eq]
  )

theorem State.drainBlocks_wf {s : State} {o : Option Owner} {t : Nat} {x : Work} {win : Option Nat} {n : Nat} {q :
    List DrainItem} (h0 : Wf s) : Wf (State.drainBlocks s o t x win n q).1 := by
  induction n generalizing s o t x win q with
  | zero =>
    unfold State.drainBlocks
    try dsimp only
    repeat' (
      first
      | intro _
      | with_reducible (first | assumption | apply Wf.ite | apply State.drainAll_wf | rfl)
      | split
      | dsimp only
      | simp only [id_eq]
    )
  | succ n_ ih_ =>
    unfold State.drainBlocks
    try dsimp only
    repeat' (
      first
      | with_reducible (first | apply ih_)
      | intro _
      | with_reducible (first | assumption | apply Wf.ite | apply State.drainAll_wf | rfl)
      | split
      | dsimp only
      | simp only [id_eq]
    )

theorem State.fetchBlock_wf {s : State} {o : Option Owner} {t : Nat} {x : Work} {j : Nat × Nat} (h0 : Wf s) : Wf
    (State.fetchBlock s o t x j).1 :=
  .alters h0 (State.fetchBlock_alters (ch := (Part.err ++ [Part.tile, Part.nose])) (.refl _ _) rfl) rfl

theorem State.openPass_wf {s : State} {o : Option Owner} {t : Nat} {x : Work} {w : Sweep} {p : Nat} (h0 : Wf s) : Wf
    (State.openPass s o t x w p).1 :=
  .alters h0 (State.openPass_alters (ch := (Part.err ++ [Part.tile, Part.nose])) (.refl _ _) rfl) rfl

theorem State.mmPeriods_wf {s : State} {o : Option Owner} {t : Nat} {x : Work} {win : Option Nat} {w : Sweep} {r :
    MmRun} {cur : Slices} {js : List (Nat × Nat)} (h0 : Wf s) : Wf (State.mmPeriods s o t x win w r cur js).1 := by
  induction js generalizing s o t x win w r cur with
  | nil =>
    unfold State.mmPeriods
    try dsimp only
    repeat' (
      first
      | intro _
      | with_reducible (first | assumption | apply Wf.ite | apply State.bump_wf |
                              apply State.drainAll_wf | apply State.drainBlocks_wf | apply State.fetchBlock_wf |
                              apply State.openPass_wf | apply Wf.of_pair (by assumption) | rfl)
      | split
      | dsimp only
      | simp only [id_eq]
    )
  | cons hd_ tl_ ih_ =>
    unfold State.mmPeriods
    try dsimp only
    repeat' (
      first
      | with_reducible (first | apply ih_)
      | intro _
      | with_reducible (first | assumption | apply Wf.ite | apply State.bump_wf |
                              apply State.drainAll_wf | apply State.drainBlocks_wf | apply State.fetchBlock_wf |
                              apply State.openPass_wf | apply Wf.of_pair (by assumption) | rfl)
      | split
      | dsimp only
      | simp only [id_eq]
    )

theorem State.mmMultiply_wf {s : State} {o : Option Owner} {t : Nat} {x : Work} {win : Option Nat} {w : Sweep} {cs :
    Codes} (h0 : Wf s) : Wf (State.mmMultiply s o t x win w cs).1 := by
  unfold State.mmMultiply
  try dsimp only
  repeat' (
    first
    | intro _
    | with_reducible (first | assumption | apply Wf.ite | apply State.fetchBlock_wf |
                            apply State.mmPeriods_wf | apply Wf.of_pair (by assumption) | rfl)
    | split
    | dsimp only
    | simp only [id_eq]
  )

theorem State.anchorPhase_wf {s : State} {o : Option Owner} {t : Nat} {x : Work} {w : Sweep} {p : Nat} (h0 : Wf s) :
    Wf (State.anchorPhase s o t x w p).1 :=
  .alters h0 (State.anchorPhase_alters (ch := (Part.err ++ [Part.tile, Part.nose])) (.refl _ _) rfl) rfl

theorem State.endedBy_wf {r : State × Option Err} {o : Option Owner} (h0 : Wf r.1) : Wf (State.endedBy r o) :=
  .alters h0 (State.endedBy_alters (ch := [.queue]) (.refl _ _) rfl) rfl

theorem State.sweepBoth_wf {s : State} {o : Option Owner} {t : Nat} {x : Work} (h0 : Wf s) : Wf (State.sweepBoth s o t
    x).1 :=
  .alters h0 (State.sweepBoth_alters (ch := (Part.err ++ [Part.tile, Part.nose])) (.refl _ _) rfl) rfl

theorem readAll_wf {α β : Type} {f : State → α → State × Except Err β} {s : State} {l : List α} (h0 : Wf s) (hf : ∀
    {u0 u1}, Wf u0 → Wf (f u0 u1).1) : Wf (readAll f s l).1 := by
  induction l generalizing s with
  | nil =>
    unfold readAll
    try dsimp only
    repeat' (
      first
      | intro _
      | with_reducible (first | assumption | apply Wf.ite | apply hf |
                              apply Wf.of_pair (by assumption) | rfl)
      | split
      | dsimp only
      | simp only [id_eq]
    )
  | cons hd_ tl_ ih_ =>
    unfold readAll
    try dsimp only
    repeat' (
      first
      | with_reducible (first | apply ih_)
      | intro _
      | with_reducible (first | assumption | apply Wf.ite | apply hf |
                              apply Wf.of_pair (by assumption) | rfl)
      | split
      | dsimp only
      | simp only [id_eq]
    )

theorem State.runMatmul2_wf {s : State} {o : Option Owner} {t : Nat} {x : Work} {win : Option Nat} (h0 : Wf s) : Wf
    (State.runMatmul2 s o t x win) := by
  unfold State.runMatmul2
  try dsimp only
  repeat' (
    first
    | intro _
    | with_reducible (first | assumption | apply Wf.ite | apply State.anchorPhase_wf |
                            apply State.endedBy_wf | apply State.flightErr_wf | apply State.mmMultiply_wf |
                            apply State.putCodes_wf | apply State.sweepBoth_wf | apply readAll_wf |
                            apply Wf.of_pair (by assumption) | rfl)
    | split
    | dsimp only
    | simp only [id_eq]
  )

theorem State.runMatmul_wf {s : State} {o : Option Owner} {t : Nat} {x : Work} (h0 : Wf s) : Wf (State.runMatmul s o t
    x) := by
  unfold State.runMatmul
  try dsimp only
  repeat' (
    first
    | intro _
    | with_reducible (first | assumption | apply Wf.ite | apply State.endedBy_wf |
                            apply State.flightErr_wf | apply State.mmMultiply_wf | apply State.raiseFor_wf |
                            apply State.runMatmul2_wf | apply Wf.of_pair (by assumption) | rfl)
    | split
    | dsimp only
    | simp only [id_eq]
  )

theorem State.useCode_wf {s : State} {o : Option Owner} {t : Nat} {x : Work} {b : Nat} {c : Nat × Option Err} (h0 : Wf
    s) : Wf (State.useCode s o t x b c).1 :=
  .alters h0 (State.useCode_alters (ch := (Part.err ++ [Part.tile, Part.nose])) (.refl _ _) rfl) rfl

theorem State.redRow2_wf {s : State} {o : Option Owner} {t : Nat} {x : Work} {win : Option Nat} {r : Nat} {runs : List
    (List Val)} (h0 : Wf s) : Wf (State.redRow2 s o t x win r runs).1 := by
  unfold State.redRow2
  try dsimp only
  repeat' (
    first
    | intro _
    | with_reducible (first | assumption | apply Wf.ite | apply Wf.foldl | apply State.putRow_wf |
                            apply State.putTriple_wf | apply State.useCode_wf | apply readAll_wf | apply Wf.foldl1 |
                            apply Wf.of_pair (by assumption) | rfl)
    | split
    | dsimp only
    | simp only [id_eq]
  )

theorem State.spadRead_wf {s : State} {o : Option Owner} {t w : Nat} (h0 : Wf s) : Wf (State.spadRead s o t w).1 :=
  .alters h0 (State.spadRead_alters (ch := (Part.err ++ [Part.tile, Part.nose])) (.refl _ _) rfl) rfl

theorem State.redRow1_wf {s : State} {o : Option Owner} {t : Nat} {x : Work} {r : Nat} {runs : List (List Val)} (h0 :
    Wf s) : Wf (State.redRow1 s o t x r runs).1 := by
  unfold State.redRow1
  try dsimp only
  repeat' (
    first
    | intro _
    | with_reducible (first | assumption | apply Wf.ite | apply State.putRow_wf |
                            apply State.spadRead_wf | apply readAll_wf | apply Wf.of_pair (by assumption) | rfl)
    | split
    | dsimp only
    | simp only [id_eq]
  )

theorem State.redRows_wf {s : State} {o : Option Owner} {t : Nat} {x : Work} {win : Option Nat} {rs : List Nat} {codes
    : List GroupCode} (h0 : Wf s) : Wf (State.redRows s o t x win rs codes).1 := by
  induction rs generalizing s o t x win codes with
  | nil =>
    unfold State.redRows
    try dsimp only
    repeat' (
      first
      | intro _
      | with_reducible (first | assumption | apply Wf.ite | apply State.redRow1_wf |
                              apply State.redRow2_wf | apply State.spadReads_wf | apply Wf.of_pair (by assumption) | rfl)
      | split
      | dsimp only
      | simp only [id_eq]
    )
  | cons hd_ tl_ ih_ =>
    unfold State.redRows
    try dsimp only
    repeat' (
      first
      | with_reducible (first | apply ih_)
      | intro _
      | with_reducible (first | assumption | apply Wf.ite | apply State.redRow1_wf |
                              apply State.redRow2_wf | apply State.spadReads_wf | apply Wf.of_pair (by assumption) | rfl)
      | split
      | dsimp only
      | simp only [id_eq]
    )

theorem State.shortOf_wf {s : State} {o : Option Owner} {t src : Nat} (h0 : Wf s) : Wf (State.shortOf s o t src) :=
  .alters h0 (State.shortOf_alters (ch := (Part.err ++ [Part.queue, Part.nose])) (.refl _ _) rfl) rfl

theorem State.runReduce_wf {s : State} {o : Option Owner} {t : Nat} {x : Work} (h0 : Wf s) : Wf (State.runReduce s o t
    x) := by
  unfold State.runReduce
  try dsimp only
  repeat' (
    first
    | intro _
    | with_reducible (first | assumption | apply Wf.ite | apply State.bump_wf |
                            apply State.flightErr_wf | apply State.putCodes_wf | apply State.redRows_wf |
                            apply State.shortOf_wf | apply Wf.of_pair (by assumption) | rfl)
    | split
    | dsimp only
    | simp only [id_eq]
  )

theorem State.cvtRow_wf {s : State} {o : Option Owner} {t i j : Nat} {x : Work} {r : Nat} (h0 : Wf s) : Wf
    (State.cvtRow s o t i j x r).1 :=
  .alters h0 (State.cvtRow_alters (ch := (Part.err ++ [Part.tile, Part.nose])) (.refl _ _) rfl) rfl

theorem State.cvtRows_wf {s : State} {o : Option Owner} {t i j : Nat} {x : Work} {rs : List Nat} (h0 : Wf s) : Wf
    (State.cvtRows s o t i j x rs).1 := by
  induction rs generalizing s o t i j x with
  | nil =>
    unfold State.cvtRows
    try dsimp only
    repeat' (
      first
      | intro _
      | with_reducible (first | assumption | apply Wf.ite | apply State.cvtRow_wf |
                              apply State.putRow_wf | apply Wf.of_pair (by assumption) | rfl)
      | split
      | dsimp only
      | simp only [id_eq]
    )
  | cons hd_ tl_ ih_ =>
    unfold State.cvtRows
    try dsimp only
    repeat' (
      first
      | with_reducible (first | apply ih_)
      | intro _
      | with_reducible (first | assumption | apply Wf.ite | apply State.cvtRow_wf |
                              apply State.putRow_wf | apply Wf.of_pair (by assumption) | rfl)
      | split
      | dsimp only
      | simp only [id_eq]
    )

theorem State.runConvert_wf {s : State} {o : Option Owner} {t i j : Nat} {x : Work} (h0 : Wf s) : Wf (State.runConvert
    s o t i j x) := by
  unfold State.runConvert
  try dsimp only
  repeat' (
    first
    | intro _
    | with_reducible (first | assumption | apply Wf.ite | apply State.bump_wf |
                            apply State.cvtRows_wf | apply State.flightErr_wf | apply State.shortOf_wf |
                            apply Wf.of_pair (by assumption) | rfl)
    | split
    | dsimp only
    | simp only [id_eq]
  )

theorem State.panelRow_wf {s : State} {o : Option Owner} {t : Nat} {p : Operand} {k kb i : Nat} (h0 : Wf s) : Wf
    (State.panelRow s o t p k kb i).1 :=
  .alters h0 (State.panelRow_alters (ch := (Part.err ++ [Part.tile, Part.nose])) (.refl _ _) rfl) rfl

theorem State.pruneOne_wf {s : State} {o : Option Owner} {t i j : Nat} {x : Work} {kb n : Nat} (h0 : Wf s) : Wf
    (State.pruneOne s o t i j x kb n).1 := by
  unfold State.pruneOne
  try dsimp only
  repeat' (
    first
    | intro _
    | with_reducible (first | assumption | apply Wf.ite | apply State.panelRow_wf |
                            apply State.putScales_wf | apply State.spadWrite_wf | apply State.spadWrites_wf |
                            apply Wf.of_pair (by assumption) | rfl)
    | split
    | dsimp only
    | simp only [id_eq]
  )

theorem State.pruneAll_wf {s : State} {o : Option Owner} {t i j : Nat} {x : Work} {rs : List (Nat × Nat)} (h0 : Wf s)
    : Wf (State.pruneAll s o t i j x rs).1 := by
  induction rs generalizing s o t i j x with
  | nil =>
    unfold State.pruneAll
    try dsimp only
    repeat' (
      first
      | intro _
      | with_reducible (first | assumption | apply Wf.ite | apply State.pruneOne_wf |
                              apply Wf.of_pair (by assumption) | rfl)
      | split
      | dsimp only
      | simp only [id_eq]
    )
  | cons hd_ tl_ ih_ =>
    unfold State.pruneAll
    try dsimp only
    repeat' (
      first
      | with_reducible (first | apply ih_)
      | intro _
      | with_reducible (first | assumption | apply Wf.ite | apply State.pruneOne_wf |
                              apply Wf.of_pair (by assumption) | rfl)
      | split
      | dsimp only
      | simp only [id_eq]
    )

theorem State.runPruned_wf {s : State} {o : Option Owner} {t i j : Nat} {x : Work} (h0 : Wf s) : Wf (State.runPruned s
    o t i j x) := by
  unfold State.runPruned
  try dsimp only
  repeat' (
    first
    | intro _
    | with_reducible (first | assumption | apply Wf.ite | apply State.bump_wf |
                            apply State.flightErr_wf | apply State.pruneAll_wf | apply State.shortOf_wf |
                            apply Wf.of_pair (by assumption) | rfl)
    | split
    | dsimp only
    | simp only [id_eq]
  )

theorem State.runList_wf {s : State} {o : Option Owner} {t : Nat} {x : Work} (h0 : Wf s) : Wf (State.runList s o t x)
    := by
  unfold State.runList
  try dsimp only
  repeat' (
    first
    | intro _
    | with_reducible (first | assumption | apply Wf.ite | apply State.bump_wf |
                            apply State.flightErr_wf | apply State.raiseFor_wf | apply State.shortOf_wf |
                            apply State.spadReads_wf | apply State.spadWrites_wf | apply Wf.of_pair (by assumption) | rfl)
    | split
    | dsimp only
    | simp only [id_eq]
  )

theorem State.putPort_wf {s : State} {t i j : Nat} {x : Work} {p : Nat × Nat} {vs : List Nat} (h0 : Wf s) : Wf
    (State.putPort s t i j x p vs) := by
  unfold State.putPort
  try dsimp only
  repeat' (
    first
    | intro _
    | with_reducible (first | assumption | apply Wf.ite | apply State.putRow_wf | rfl)
    | split
    | dsimp only
    | simp only [id_eq]
  )

theorem State.runMap_wf {s : State} {o : Option Owner} {t i j : Nat} {x : Work} (h0 : Wf s) : Wf (State.runMap s o t i
    j x) := by
  unfold State.runMap
  try dsimp only
  repeat' (
    first
    | intro _
    | with_reducible (first | assumption | apply Wf.ite | apply Wf.foldl | apply State.bump_wf |
                            apply State.flightErr_wf | apply State.putPort_wf | apply State.raiseFor_wf |
                            apply State.shortOf_wf | apply State.spadReads_wf | apply readAll_wf | apply Wf.foldl1 |
                            apply Wf.of_pair (by assumption) | rfl)
    | split
    | dsimp only
    | simp only [id_eq]
  )

theorem State.runLoad_wf {s : State} {o : Option Owner} {t : Nat} {x : Work} (h0 : Wf s) : Wf (State.runLoad s o t x)
    :=
  .alters h0 (State.runLoad_alters (ch := (Part.err ++ [Part.tile, Part.queue, Part.nose])) (.refl _ _) rfl) rfl

theorem State.runWork_wf {s : State} {o : Option Owner} {t i j : Nat} {x : Work} (h0 : Wf s) : Wf (State.runWork s o t
    i j x) := by
  unfold State.runWork
  try dsimp only
  repeat' (
    first
    | intro _
    | with_reducible (first | assumption | apply Wf.ite | apply State.runConvert_wf |
                            apply State.runList_wf | apply State.runLoad_wf | apply State.runMap_wf |
                            apply State.runMatmul_wf | apply State.runPruned_wf | apply State.runReduce_wf | rfl)
    | split
    | dsimp only
    | simp only [id_eq]
  )

theorem State.beginSample_wf {s : State} {o : Owner} {t i j : Nat} {x : Work} (h0 : Wf s) : Wf (State.beginSample s o
    t i j x).1 := by
  unfold State.beginSample
  try dsimp only
  repeat' (
    first
    | intro _
    | with_reducible (first | assumption | apply Wf.ite | apply State.bump_wf |
                            apply State.flightErr_wf | apply State.spadReads_wf | apply State.spadWrites_wf |
                            apply Wf.of_pair (by assumption) | rfl)
    | split
    | dsimp only
    | simp only [id_eq]
    | with_reducible (first | apply Wf.upd_tile | apply Wf.upd_nose | apply Wf.upd_stream | apply Wf.upd_coll | apply Wf.upd_queue | apply Wf.upd_island | apply Wf.upd_free)
  )

theorem State.drainedOut_wf {s : State} {d : Dup} {ops : List Word} (h0 : Wf s) : Wf (State.drainedOut s d ops).1 :=
  .alters h0 (State.drainedOut_alters (ch := (Part.err ++ [Part.tile, Part.nose])) (.refl _ _) rfl) rfl

theorem State.endSample_wf {s : State} {d : Option Dup} (h0 : Wf s) : Wf (State.endSample s d) := by
  unfold State.endSample
  try dsimp only
  repeat' (
    first
    | intro _
    | with_reducible (first | assumption | apply Wf.ite | apply State.bump_wf |
                            apply State.drainedOut_wf | apply State.spadWrites_wf | apply Wf.of_pair (by assumption) | rfl)
    | split
    | dsimp only
    | simp only [id_eq]
    | with_reducible (first | apply Wf.upd_tile | apply Wf.upd_nose | apply Wf.upd_stream | apply Wf.upd_coll | apply Wf.upd_queue | apply Wf.upd_island | apply Wf.upd_free)
  )

theorem State.mxShow_wf {s : State} {t : Nat} {x : Work} (h0 : Wf s) : Wf (State.mxShow s t x) :=
  .alters h0 (State.mxShow_alters (ch := [.cells]) (.refl _ _) rfl) rfl

theorem State.runTile_wf {s : State} {o : Owner} {x : Work} {t i j : Nat} (h0 : Wf s) : Wf (State.runTile s o x t i j)
    := by
  unfold State.runTile
  try dsimp only
  repeat' (
    first
    | intro _
    | with_reducible (first | assumption | apply Wf.ite | apply State.beginSample_wf |
                            apply State.endSample_wf | apply State.mxShow_wf | apply State.runWork_wf |
                            apply Wf.of_pair (by assumption) | rfl)
    | split
    | dsimp only
    | simp only [id_eq]
  )

theorem State.computeChecks_wf {s : State} {q e : Nat} (h0 : Wf s) : Wf (State.computeChecks s q e).1 :=
  .alters h0 (State.computeChecks_alters (ch := (Part.err ++ [Part.mem, Part.nose, Part.power, Part.host])) (.refl _ _) rfl) rfl

theorem State.faultCompute_wf {s : State} {q e : Nat} {er : Err} (h0 : Wf s) : Wf (State.faultCompute s q e er) :=
  .alters h0 (State.faultCompute_alters (ch := (Part.err ++ [Part.queue])) (.refl _ _) rfl) rfl

theorem State.issue_wf {s : State} {q : Nat} {f : Flight} (h0 : Wf s) : Wf (State.issue s q f) :=
  .alters h0 (State.issue_alters (ch := (Part.err ++ [Part.queue])) (.refl _ _) rfl) rfl

theorem State.runCompute_wf {s : State} {q i e : Nat} (h0 : Wf s) : Wf (State.runCompute s q i e) := by
  unfold State.runCompute
  try dsimp only
  repeat' (
    first
    | intro _
    | with_reducible (first | assumption | apply Wf.ite | apply Wf.foldl |
                            apply State.computeChecks_wf | apply State.faultCompute_wf | apply State.issue_wf |
                            apply State.runTile_wf | apply Wf.foldl1 | apply Wf.of_pair (by assumption) |
                            apply Wf.ofJudged | rfl)
    | split
    | dsimp only
    | simp only [id_eq]
  )

theorem State.faultHead_wf {s : State} {q e : Nat} {err : Err} (h0 : Wf s) : Wf (State.faultHead s q e err) :=
  .alters h0 (State.faultHead_alters (ch := (Part.err ++ [Part.queue])) (.refl _ _) rfl) rfl

theorem State.ringFetch_wf {s : State} {q i : Nat} (h0 : Wf s) : Wf (State.ringFetch s q i) :=
  .alters h0 (State.ringFetch_alters (ch := (Part.err ++ [Part.nose, Part.host])) (.refl _ _) rfl) rfl

theorem State.issueHead_wf {s : State} {q : Nat} {want : Nat → Bool} {run : State → Nat → Nat → State} (h0 : Wf s)
    (hrun : ∀ {u0 u1 u2}, Wf u0 → Wf (run u0 u1 u2)) : Wf (State.issueHead s q want run) := by
  unfold State.issueHead
  try dsimp only
  repeat' (
    first
    | intro _
    | with_reducible (first | assumption | apply Wf.ite | apply hrun | apply State.faultHead_wf |
                            apply State.ringFetch_wf | rfl)
    | split
    | dsimp only
    | simp only [id_eq]
  )

theorem State.issueCompute_wf {s : State} {q op : Nat} {c : Nat → Bool} (h0 : Wf s) : Wf (State.issueCompute s q op c)
    := by
  unfold State.issueCompute
  try dsimp only
  repeat' (
    first
    | intro _
    | with_reducible (first | assumption | apply Wf.ite | apply State.issueHead_wf |
                            apply State.runCompute_wf | rfl)
    | split
    | dsimp only
    | simp only [id_eq]
  )

theorem execMatmul_wf {q : Fin 64} {s : State} {t0} (e : execMatmul q s = .next t0) (h0 : Wf s) : Wf t0 := by
  unfold execMatmul at e
  try dsimp only at e
  repeat' split at e
  all_goals (injection e with e; subst e)
  all_goals try dsimp only
  repeat' (
    first
    | intro _
    | with_reducible (first | assumption | apply Wf.ite | apply State.issueCompute_wf | rfl)
    | split
    | dsimp only
    | simp only [id_eq]
  )

theorem execAnchorOnly_wf {q : Fin 64} {s : State} {t0} (e : execAnchorOnly q s = .next t0) (h0 : Wf s) : Wf t0 := by
  unfold execAnchorOnly at e
  try dsimp only at e
  repeat' split at e
  all_goals (injection e with e; subst e)
  all_goals try dsimp only
  repeat' (
    first
    | intro _
    | with_reducible (first | assumption | apply Wf.ite | apply State.issueCompute_wf | rfl)
    | split
    | dsimp only
    | simp only [id_eq]
  )

theorem execMapCmd_wf {q : Fin 64} {s : State} {t0} (e : execMapCmd q s = .next t0) (h0 : Wf s) : Wf t0 := by
  unfold execMapCmd at e
  try dsimp only at e
  repeat' split at e
  all_goals (injection e with e; subst e)
  all_goals try dsimp only
  repeat' (
    first
    | intro _
    | with_reducible (first | assumption | apply Wf.ite | apply State.issueCompute_wf | rfl)
    | split
    | dsimp only
    | simp only [id_eq]
  )

theorem execReduce_wf {q : Fin 64} {s : State} {t0} (e : execReduce q s = .next t0) (h0 : Wf s) : Wf t0 := by
  unfold execReduce at e
  try dsimp only at e
  repeat' split at e
  all_goals (injection e with e; subst e)
  all_goals try dsimp only
  repeat' (
    first
    | intro _
    | with_reducible (first | assumption | apply Wf.ite | apply State.issueCompute_wf | rfl)
    | split
    | dsimp only
    | simp only [id_eq]
  )

theorem execListBuild_wf {q : Fin 64} {s : State} {t0} (e : execListBuild q s = .next t0) (h0 : Wf s) : Wf t0 := by
  unfold execListBuild at e
  try dsimp only at e
  repeat' split at e
  all_goals (injection e with e; subst e)
  all_goals try dsimp only
  repeat' (
    first
    | intro _
    | with_reducible (first | assumption | apply Wf.ite | apply State.issueCompute_wf | rfl)
    | split
    | dsimp only
    | simp only [id_eq]
  )

theorem execConvert_wf {q : Fin 64} {s : State} {t0} (e : execConvert q s = .next t0) (h0 : Wf s) : Wf t0 := by
  unfold execConvert at e
  try dsimp only at e
  repeat' split at e
  all_goals (injection e with e; subst e)
  all_goals try dsimp only
  repeat' (
    first
    | intro _
    | with_reducible (first | assumption | apply Wf.ite | apply State.issueCompute_wf | rfl)
    | split
    | dsimp only
    | simp only [id_eq]
  )

theorem execPrunedConvert_wf {q : Fin 64} {s : State} {t0} (e : execPrunedConvert q s = .next t0) (h0 : Wf s) : Wf t0
    := by
  unfold execPrunedConvert at e
  try dsimp only at e
  repeat' split at e
  all_goals (injection e with e; subst e)
  all_goals try dsimp only
  repeat' (
    first
    | intro _
    | with_reducible (first | assumption | apply Wf.ite | apply State.issueCompute_wf | rfl)
    | split
    | dsimp only
    | simp only [id_eq]
  )

theorem execRecipeLoad_wf {q : Fin 64} {s : State} {t0} (e : execRecipeLoad q s = .next t0) (h0 : Wf s) : Wf t0 := by
  unfold execRecipeLoad at e
  try dsimp only at e
  repeat' split at e
  all_goals (injection e with e; subst e)
  all_goals try dsimp only
  repeat' (
    first
    | intro _
    | with_reducible (first | assumption | apply Wf.ite | apply State.issueHead_wf |
                            apply State.runCompute_wf | rfl)
    | split
    | dsimp only
    | simp only [id_eq]
  )

theorem State.carry_wf {s : State} {first : Nat} {bs : List Byte} (h0 : Wf s) : Wf (State.carry s first bs).1 :=
  .alters h0 (State.carry_alters (ch := [.tile]) (.refl _ _) rfl) rfl

theorem State.hostPut_wf {s : State} {o : Owner} {stream : Bool} {a : Nat} {bs : List Byte} (h0 : Wf s) : Wf
    (State.hostPut s o stream a bs).1 :=
  .alters h0 (State.hostPut_alters (ch := (Part.err ++ [Part.queue, Part.nose, Part.host])) (.refl _ _) rfl) rfl

theorem State.writePiece_wf {s : State} {o : Owner} {x : StreamWork} {c : Piece} {bs : List Byte} (h0 : Wf s) : Wf
    (State.writePiece s o x c bs).1 := by
  unfold State.writePiece
  try dsimp only
  repeat' (
    first
    | intro _
    | with_reducible (first | assumption | apply Wf.ite | apply State.carry_wf |
                            apply State.hostPut_wf | apply State.remoteWrite_wf | apply State.sealedWrite_wf |
                            apply Wf.of_pair (by assumption) | rfl)
    | split
    | dsimp only
    | simp only [id_eq]
  )

theorem State.readPiece_wf {s : State} {o : Owner} {x : StreamWork} {c : Piece} (h0 : Wf s) : Wf (State.readPiece s o
    x c).1 :=
  .alters h0 (State.readPiece_alters (ch := (Part.err ++ [Part.tile, Part.mem, Part.nose, Part.power, Part.host])) (.refl _ _) rfl) rfl

theorem State.movePieces_wf {s : State} {o : Owner} {x : StreamWork} {ps : List Piece} (h0 : Wf s) : Wf
    (State.movePieces s o x ps) := by
  induction ps generalizing s o x with
  | nil =>
    unfold State.movePieces
    try dsimp only
    repeat' (
      first
      | intro _
      | with_reducible (first | assumption | apply Wf.ite | apply State.flightErr_wf |
                              apply State.readPiece_wf | apply State.writePiece_wf | apply Wf.of_pair (by assumption) | rfl)
      | split
      | dsimp only
      | simp only [id_eq]
    )
  | cons hd_ tl_ ih_ =>
    unfold State.movePieces
    try dsimp only
    repeat' (
      first
      | with_reducible (first | apply ih_)
      | intro _
      | with_reducible (first | assumption | apply Wf.ite | apply State.flightErr_wf |
                              apply State.readPiece_wf | apply State.writePiece_wf | apply Wf.of_pair (by assumption) | rfl)
      | split
      | dsimp only
      | simp only [id_eq]
    )

theorem State.gather_wf {s : State} {o : Owner} {x : StreamWork} (h0 : Wf s) : Wf (State.gather s o x) :=
  .alters h0 (State.gather_alters (ch := (Part.err ++ [Part.tile, Part.stream, Part.queue, Part.nose])) (.refl _ _) rfl) rfl

theorem State.postPieces_wf {s : State} {o : Owner} {x : StreamWork} {ps : List Piece} (h0 : Wf s) : Wf
    (State.postPieces s o x ps) :=
  .alters h0 (State.postPieces_alters (ch := (Part.err ++ [Part.tile, Part.mem, Part.stream, Part.queue, Part.nose, Part.fab, Part.power, Part.host])) (.refl _ _) rfl) rfl

theorem State.queueXfers_wf {s : State} {o : Owner} {x : StreamWork} {base : Nat} {ps : List Piece} (h0 : Wf s) : Wf
    (State.queueXfers s o x base ps) :=
  .alters h0 (State.queueXfers_alters (ch := [.stream, .queue]) (.refl _ _) rfl) rfl

theorem State.startMove_wf {s : State} {o : Owner} {x : StreamWork} (h0 : Wf s) : Wf (State.startMove s o x) :=
  .alters h0 (State.startMove_alters (ch := [.stream, .queue]) (.refl _ _) rfl) rfl

theorem State.startStream_wf {s : State} {o : Owner} {x : StreamWork} (h0 : Wf s) : Wf (State.startStream s o x) := by
  unfold State.startStream
  try dsimp only
  repeat' (
    first
    | intro _
    | with_reducible (first | assumption | apply Wf.ite | apply State.gather_wf |
                            apply State.movePieces_wf | apply State.postPieces_wf | apply State.queueXfers_wf |
                            apply State.startMove_wf | rfl)
    | split
    | dsimp only
    | simp only [id_eq]
  )

theorem State.runStream_wf {s : State} {q i e : Nat} (h0 : Wf s) : Wf (State.runStream s q i e) := by
  unfold State.runStream
  try dsimp only
  repeat' (
    first
    | intro _
    | with_reducible (first | assumption | apply Wf.ite | apply State.faultHead_wf |
                            apply State.issue_wf | apply State.startStream_wf | apply State.wr_wf | apply Wf.ofJudged | rfl)
    | split
    | dsimp only
    | simp only [id_eq]
  )

theorem execStreamRead_wf {q : Fin 64} {s : State} {t0} (e : execStreamRead q s = .next t0) (h0 : Wf s) : Wf t0 := by
  unfold execStreamRead at e
  try dsimp only at e
  repeat' split at e
  all_goals (injection e with e; subst e)
  all_goals try dsimp only
  repeat' (
    first
    | intro _
    | with_reducible (first | assumption | apply Wf.ite | apply State.issueHead_wf |
                            apply State.runStream_wf | rfl)
    | split
    | dsimp only
    | simp only [id_eq]
  )

theorem execGatheredRead_wf {q : Fin 64} {s : State} {t0} (e : execGatheredRead q s = .next t0) (h0 : Wf s) : Wf t0 :=
    by
  unfold execGatheredRead at e
  try dsimp only at e
  repeat' split at e
  all_goals (injection e with e; subst e)
  all_goals try dsimp only
  repeat' (
    first
    | intro _
    | with_reducible (first | assumption | apply Wf.ite | apply State.issueHead_wf |
                            apply State.runStream_wf | rfl)
    | split
    | dsimp only
    | simp only [id_eq]
  )

theorem execStreamWrite_wf {q : Fin 64} {s : State} {t0} (e : execStreamWrite q s = .next t0) (h0 : Wf s) : Wf t0 :=
    by
  unfold execStreamWrite at e
  try dsimp only at e
  repeat' split at e
  all_goals (injection e with e; subst e)
  all_goals try dsimp only
  repeat' (
    first
    | intro _
    | with_reducible (first | assumption | apply Wf.ite | apply State.issueHead_wf |
                            apply State.runStream_wf | rfl)
    | split
    | dsimp only
    | simp only [id_eq]
  )

theorem execStreamMove_wf {q : Fin 64} {s : State} {t0} (e : execStreamMove q s = .next t0) (h0 : Wf s) : Wf t0 := by
  unfold execStreamMove at e
  try dsimp only at e
  repeat' split at e
  all_goals (injection e with e; subst e)
  all_goals try dsimp only
  repeat' (
    first
    | intro _
    | with_reducible (first | assumption | apply Wf.ite | apply State.issueHead_wf |
                            apply State.runStream_wf | rfl)
    | split
    | dsimp only
    | simp only [id_eq]
  )

theorem State.onQ_wf {s : State} {q : Nat} {g : QState → QState} (h0 : Wf s) : Wf (State.onQ s q g) :=
  .alters h0 (State.onQ_alters (ch := [.queue]) (.refl _ _) rfl) rfl

theorem State.issueAhead_wf {s : State} {q i e : Nat} {t0} (x : State.issueAhead s q i e = some t0) (h0 : Wf s) : Wf
    t0 := by
  rw [State.issueAhead] at x
  dsimp only at x
  split at x
  · exact absurd x (by simp)
  injection x with x; subst x
  have h0 := State.ringFetch_wf (q := q) (i := i) h0
  exact Wf.ofJudged (fun _ => State.onQ_wf h0) fun _ => State.startStream_wf (State.bump_wf (State.bump_wf (State.onQ_wf h0)))

theorem State.scanAhead_wf {s : State} {q i n : Nat} (h0 : Wf s) : Wf (State.scanAhead s q i n) := by
  induction n generalizing s i with
  | zero => exact h0
  | succ n ih =>
    unfold State.scanAhead
    refine Wf.ite h0 (Wf.ite (ih h0) (Wf.ofGiven h0 fun e => Wf.ite (ih h0) (Wf.ite ?_ h0)))
    cases hx : s.issueAhead q i e with
    | none => exact h0
    | some a => exact ih (State.issueAhead_wf hx h0)

theorem execRunAhead_wf {q : Fin 64} {s : State} {t0} (e : execRunAhead q s = .next t0) (h0 : Wf s) : Wf t0 := by
  unfold execRunAhead at e
  try dsimp only at e
  repeat' split at e
  all_goals (injection e with e; subst e)
  all_goals try dsimp only
  repeat' (
    first
    | intro _
    | with_reducible (first | assumption | apply Wf.ite | apply State.scanAhead_wf | rfl)
    | split
    | dsimp only
    | simp only [id_eq]
  )

theorem State.localPut_wf {s : State} {o : Owner} {t w : Nat} {ws : List Word} (h0 : Wf s) : Wf (State.localPut s o t
    w ws).1 := by
  unfold State.localPut
  try dsimp only
  repeat' (
    first
    | intro _
    | with_reducible (first | assumption | apply Wf.ite | apply State.carry_wf |
                            apply State.sealFail_wf | apply State.spadPut_wf | apply Wf.of_pair (by assumption) | rfl)
    | split
    | dsimp only
    | simp only [id_eq]
  )

theorem State.collWrite_wf {s : State} {o : Owner} {eng prof a off : Nat} {bs : List Byte} (h0 : Wf s) : Wf
    (State.collWrite s o eng prof a off bs).1 := by
  unfold State.collWrite
  try dsimp only
  repeat' (
    first
    | intro _
    | with_reducible (first | assumption | apply Wf.ite | apply State.carry_wf |
                            apply State.hostPut_wf | apply State.localPut_wf | apply State.remoteWrite_wf |
                            apply State.sealedWrite_wf | apply Wf.of_pair (by assumption) | rfl)
    | split
    | dsimp only
    | simp only [id_eq]
  )

theorem State.putCount_wf {s : State} {r : CollRun} {a j v : Nat} (h0 : Wf s) : Wf (State.putCount s r a j v).1 := by
  unfold State.putCount
  try dsimp only
  repeat' (
    first
    | intro _
    | with_reducible (first | assumption | apply Wf.ite | apply State.collWrite_wf |
                            apply Wf.of_pair (by assumption) | rfl)
    | split
    | dsimp only
    | simp only [id_eq]
  )

theorem State.noteErr_wf {x : State × Option Err} {o : Owner} (h0 : Wf x.1) : Wf (State.noteErr x o) := by
  unfold State.noteErr
  split
  · exact h0
  · exact State.flightErr_wf h0

theorem State.sendData_wf {s : State} {r : CollRun} {ph st dst at_ : Nat} {bs : List Byte} (h0 : Wf s) : Wf
    (State.sendData s r ph st dst at_ bs).1 :=
  .alters h0 (State.sendData_alters (ch := [.cells, .coll, .fab, .out]) (.refl _ _) rfl) rfl

theorem andThen_wf {x : State × Option Err} {g : State → State × Option Err} (h0 : Wf x.1) (hg : ∀ {u0}, Wf u0 → Wf (g
    u0).1) :
    Wf (andThen x g).1 := by
  unfold andThen
  split
  · exact hg h0
  · exact h0

theorem State.takeTokens_wf {s : State} {r : CollRun} {j : Nat} {bs : List Byte} (h0 : Wf s) : Wf (State.takeTokens s
    r j bs).1 := by
  unfold State.takeTokens
  try dsimp only
  repeat' (
    first
    | intro _
    | with_reducible (first | assumption | apply Wf.ite | apply State.bump_wf |
                            apply State.collWrite_wf | apply State.noteErr_wf | apply State.putCount_wf |
                            apply State.sendData_wf | apply andThen_wf | apply Wf.of_pair (by assumption) | rfl)
    | split
    | dsimp only
    | simp only [id_eq]
  )

theorem State.takeSpill_wf {s : State} {r : CollRun} {j a : Nat} {bs : List Byte} (h0 : Wf s) : Wf (State.takeSpill s
    r j a bs) := by
  unfold State.takeSpill
  try dsimp only
  repeat' (
    first
    | intro _
    | with_reducible (first | assumption | apply Wf.ite | apply State.bump_wf |
                            apply State.collWrite_wf | apply State.noteErr_wf | apply State.putCount_wf | apply andThen_wf |
                            apply Wf.of_pair (by assumption) | rfl)
    | split
    | dsimp only
    | simp only [id_eq]
  )

theorem State.ownBlock_wf {s : State} {r : CollRun} (h0 : Wf s) : Wf (State.ownBlock s r) := by
  unfold State.ownBlock
  try dsimp only
  repeat' (
    first
    | intro _
    | with_reducible (first | assumption | apply Wf.ite | apply State.bump_wf |
                            apply State.collWrite_wf | apply State.noteErr_wf | apply State.putCount_wf |
                            apply State.takeSpill_wf | apply andThen_wf | apply Wf.of_pair (by assumption) | rfl)
    | split
    | dsimp only
    | simp only [id_eq]
  )

theorem State.dropRun_wf {s : State} {r : CollRun} {err : Option Err} (h0 : Wf s) : Wf (State.dropRun s r err) :=
  .alters h0 (State.dropRun_alters (ch := [.cells, .queue, .coll, .fab]) (.refl _ _) rfl) rfl

theorem State.finishRun_wf {s : State} {r : CollRun} (h0 : Wf s) : Wf (State.finishRun s r) := by
  unfold State.finishRun
  try dsimp only
  repeat' (
    first
    | intro _
    | with_reducible (first | assumption | apply Wf.ite | apply State.bump_wf |
                            apply State.collWrite_wf | apply State.dropRun_wf | apply State.noteErr_wf |
                            apply Wf.of_pair (by assumption) | rfl)
    | split
    | dsimp only
    | simp only [id_eq]
  )

theorem State.endRun_wf {s : State} {r : CollRun} {e : Err} (h0 : Wf s) : Wf (State.endRun s r e) :=
  .alters h0 (State.endRun_alters (ch := (Part.err ++ [Part.queue, Part.sig, Part.nose, Part.coll, Part.fab])) (.refl _ _) rfl) rfl

theorem State.failRun_wf {s : State} {r : CollRun} {e : Err} (h0 : Wf s) : Wf (State.failRun s r e) :=
  .alters h0 (State.failRun_alters (ch := (Part.err ++ [Part.queue, Part.sig, Part.nose, Part.coll, Part.fab])) (.refl _ _) rfl) rfl

theorem State.onRun_wf {s : State} {n seq : Nat} {g : CollRun → CollRun} (h0 : Wf s) : Wf (State.onRun s n seq g) :=
  .alters h0 (State.onRun_alters (ch := [.coll]) (.refl _ _) rfl) rfl

/-- What a collective's step leaves is in canonical form. -/
def CollStep.wf (x : CollStep) : Prop :=
  match x with
  | .wait => True
  | .go t => Wf t
  | .done t => Wf t
theorem CollStep.wf_wait : CollStep.wf .wait := trivial
theorem CollStep.wf_go {t : State} (h : Wf t) : CollStep.wf (.go t) := h
theorem CollStep.wf_done {t : State} (h : Wf t) : CollStep.wf (.done t) := h
theorem CollStep.wf_ite {c : Prop} [Decidable c] {x y : CollStep} (h : CollStep.wf x) (k : CollStep.wf y) :
    CollStep.wf (if c then x else y) := by
  split <;> assumption
theorem State.collAct_wf {s : State} {r : CollRun} {a : CollAct} (h0 : Wf s) : CollStep.wf (State.collAct s r a) := by
  unfold State.collAct
  cases a <;> dsimp only <;>
  repeat' (
    first
    | with_reducible (first | exact CollStep.wf_wait | apply CollStep.wf_ite | apply CollStep.wf_go | apply CollStep.wf_done |
                            assumption | apply Wf.ite | apply State.bump_wf | apply State.endRun_wf |
                            apply State.failRun_wf | apply State.onRun_wf | apply State.sendData_wf |
                            apply State.takeSpill_wf | apply State.takeTokens_wf | apply State.ownBlock_wf | apply State.ranStages_wf |
                            apply Wf.of_pair (by assumption))
    | intro _
    | split
    | dsimp only
  )

theorem State.collGo_wf {s : State} {n seq fuel : Nat} (h0 : Wf s) : Wf (State.collGo s n seq fuel) := by
  induction fuel generalizing s with
  | zero => exact h0
  | succ fuel ih =>
    unfold State.collGo
    split
    · exact h0
    · refine Wf.ite h0 ?_
      split
      · exact Wf.ite (State.finishRun_wf h0) h0
      · rename_i a _ _
        have k : ∀ r : CollRun, CollStep.wf (s.collAct r a) := fun r => State.collAct_wf h0
        split
        · exact h0
        · rename_i u hx; exact (show CollStep.wf (.done u) from hx ▸ k _)
        · rename_i u hx; exact ih (State.onRun_wf (show CollStep.wf (.go u) from hx ▸ k _))

theorem State.collAdvance_wf {s : State} {n seq : Nat} (h0 : Wf s) : Wf (State.collAdvance s n seq) := by
  unfold State.collAdvance
  try dsimp only
  repeat' (
    first
    | intro _
    | with_reducible (first | assumption | apply Wf.ite | apply State.collGo_wf | rfl)
    | split
    | dsimp only
    | simp only [id_eq]
  )

theorem State.answerOf_wf {s : State} {f : Frame} {own : Option Nat} {b : Body} (h0 : Wf s) : Wf (State.answerOf s f
    own b) :=
  .alters h0 (State.answerOf_alters (ch := [.cells, .fab, .out]) (.refl _ _) rfl) rfl

theorem State.takeData_wf {s : State} {r : CollRun} {f : Frame} {pos : CollPos} {d : List Byte} {seals : List Word}
    {first : Nat} (h0 : Wf s) : Wf (State.takeData s r f pos d seals first) := by
  unfold State.takeData
  try dsimp only
  repeat' (
    first
    | intro _
    | with_reducible (first | assumption | apply Wf.ite | apply State.answerOf_wf |
                            apply State.bump_wf | apply State.collAdvance_wf | apply State.failRun_wf |
                            apply State.onRun_wf | rfl)
    | split
    | dsimp only
    | simp only [id_eq]
  )

theorem State.onColl_wf {s : State} {g : CollSt → CollSt} (h0 : Wf s) : Wf (State.onColl s g) :=
  .alters h0 (State.onColl_alters (ch := [.coll]) (.refl _ _) rfl) rfl

theorem State.collData_wf {s : State} {f : Frame} {pos : CollPos} {d : List Byte} {seals : List Word} {first : Nat}
    (h0 : Wf s) : Wf (State.collData s f pos d seals first) := by
  unfold State.collData
  try dsimp only
  repeat' (
    first
    | intro _
    | with_reducible (first | assumption | apply Wf.ite | apply State.onColl_wf |
                            apply State.takeData_wf | rfl)
    | split
    | dsimp only
    | simp only [id_eq]
  )

theorem State.takeEarly_wf {s : State} {fs : List Frame} (h0 : Wf s) : Wf (State.takeEarly s fs) := by
  induction fs generalizing s with
  | nil =>
    unfold State.takeEarly
    try dsimp only
    repeat' (
      first
      | intro _
      | with_reducible (first | assumption | apply Wf.ite | apply State.onColl_wf |
                              apply State.takeData_wf | rfl)
      | split
      | dsimp only
      | simp only [id_eq]
    )
  | cons hd_ tl_ ih_ =>
    unfold State.takeEarly
    try dsimp only
    repeat' (
      first
      | with_reducible (first | apply ih_)
      | intro _
      | with_reducible (first | assumption | apply Wf.ite | apply State.onColl_wf |
                              apply State.takeData_wf | rfl)
      | split
      | dsimp only
      | simp only [id_eq]
    )

theorem State.compareRec_wf {s : State} {r : CollRun} {x : StartRec} (h0 : Wf s) : Wf (State.compareRec s r x) :=
  .alters h0 (State.compareRec_alters (ch := (Part.err ++ [Part.nose, Part.coll])) (.refl _ _) rfl) rfl

theorem State.startRecord_wf {s : State} {p : Nat} {x : StartRec} (h0 : Wf s) : Wf (State.startRecord s p x) := by
  unfold State.startRecord
  try dsimp only
  repeat' (
    first
    | intro _
    | with_reducible (first | assumption | apply Wf.ite | apply State.collAdvance_wf |
                            apply State.compareRec_wf | apply State.onColl_wf | apply State.takeEarly_wf | rfl)
    | split
    | dsimp only
    | simp only [id_eq]
  )

theorem State.takeTxn_wf {s : State} {tag : Nat} (h0 : Wf s) : Wf (State.takeTxn s tag).2 :=
  .alters h0 (State.takeTxn_alters (ch := [.fab]) (.refl _ _) rfl) rfl

theorem State.collAck_wf {s : State} {tag : Nat} {pos : CollPos} {acc : Nat} (h0 : Wf s) : Wf (State.collAck s tag pos
    acc) := by
  unfold State.collAck
  try dsimp only
  repeat' (
    first
    | intro _
    | with_reducible (first | assumption | apply Wf.ite | apply State.collAdvance_wf |
                            apply State.onRun_wf | apply State.takeTxn_wf | apply Wf.of_pair2 (by assumption) | rfl)
    | split
    | dsimp only
    | simp only [id_eq]
  )

theorem State.addDests_wf {s : State} {o : Owner} {d : GroupDesc} (h0 : Wf s) : Wf (State.addDests s o d) :=
  .alters h0 (State.addDests_alters (ch := (Part.err ++ [Part.nose, Part.fab])) (.refl _ _) rfl) rfl

theorem State.onFlight_wf {s : State} {q i : Nat} {g : Flight → Flight} (h0 : Wf s) : Wf (State.onFlight s q i g) :=
  .alters h0 (State.onFlight_alters (ch := [.queue]) (.refl _ _) rfl) rfl

theorem State.ownBytes_wf {s : State} {o : Owner} {x : CollWork} {d : GroupDesc} {rows : List XchgRow} (h0 : Wf s) :
    Wf (State.ownBytes s o x d rows).1 :=
  .alters h0 (State.ownBytes_alters (ch := (Part.err ++ [Part.tile, Part.mem, Part.nose, Part.power, Part.host])) (.refl _ _) rfl) rfl

theorem State.sendMsg_wf {s : State} {own : Option Nat} {node part : Nat} {m : Message} (h0 : Wf s) : Wf
    (State.sendMsg s own node part m) :=
  .alters h0 (State.sendMsg_alters (ch := (Part.err ++ [Part.fab])) (.refl _ _) rfl) rfl

theorem State.settleGroup_wf {s : State} {n : Nat} (h0 : Wf s) : Wf (State.settleGroup s n) :=
  .alters h0 (State.settleGroup_alters (ch := [.cells]) (.refl _ _) rfl) rfl

theorem State.showGroup_wf {s : State} {n : Nat} (h0 : Wf s) : Wf (State.showGroup s n) :=
  .alters h0 (State.showGroup_alters (ch := [.cells]) (.refl _ _) rfl) rfl

theorem State.startColl_wf {s : State} {o : Owner} {x : CollWork} {d : GroupDesc} {tab : List XchgRow × Nat × Nat ×
    Nat} (h0 : Wf s) : Wf (State.startColl s o x d tab) := by
  unfold State.startColl
  try dsimp only
  repeat' (
    first
    | intro _
    | with_reducible (first | assumption | apply Wf.ite | apply Wf.foldl | apply State.addDests_wf |
                            apply State.carry_wf | apply State.collAdvance_wf | apply State.compareRec_wf |
                            apply State.failRun_wf | apply State.flightErr_wf | apply State.onColl_wf |
                            apply State.onFlight_wf | apply State.ownBytes_wf | apply State.raiseFor_wf |
                            apply State.sendMsg_wf | apply State.settleGroup_wf | apply State.showGroup_wf |
                            apply State.takeEarly_wf | apply Wf.foldl1 | apply Wf.of_pair (by assumption) | rfl)
    | split
    | dsimp only
    | simp only [id_eq]
  )

theorem State.maxCodes_wf {s : State} {o : Owner} {eng a n : Nat} {ts : List Nat} {acc : List Byte} (h0 : Wf s) : Wf
    (State.maxCodes s o eng a n ts acc).1 :=
  .alters h0 (State.maxCodes_alters (ch := (Part.err ++ [Part.tile, Part.nose])) (.refl _ _) rfl) rfl

theorem State.anchorGroup_wf {s : State} {o : Owner} {eng : Nat} {x : CollWork} {ts : List Nat} (h0 : Wf s) : Wf
    (State.anchorGroup s o eng x ts) := by
  unfold State.anchorGroup
  try dsimp only
  repeat' (
    first
    | intro _
    | with_reducible (first | assumption | apply Wf.ite | apply Wf.foldl | apply State.bump_wf |
                            apply State.flightErr_wf | apply State.localPut_wf | apply State.maxCodes_wf |
                            apply State.noteErr_wf | apply State.remoteWrite_wf | apply Wf.foldl1 |
                            apply Wf.of_pair (by assumption) | rfl)
    | split
    | dsimp only
    | simp only [id_eq]
  )

theorem State.startTiles_wf {s : State} {o : Owner} {x : CollWork} {d : GroupDesc} (h0 : Wf s) : Wf (State.startTiles
    s o x d) := by
  unfold State.startTiles
  try dsimp only
  repeat' (
    first
    | intro _
    | with_reducible (first | assumption | apply Wf.ite | apply Wf.foldl |
                            apply State.anchorGroup_wf | apply State.bump_wf | apply State.settleGroup_wf |
                            apply Wf.foldl1 | rfl)
    | split
    | dsimp only
    | simp only [id_eq]
  )

theorem State.applyAborts_wf {s : State} {p n : Nat} {d : GroupDesc} (h0 : Wf s) : Wf (State.applyAborts s p n d) :=
  .alters h0 (State.applyAborts_alters (ch := [.cells, .coll]) (.refl _ _) rfl) rfl

theorem State.bind_wf {s : State} {n : Nat} {d : GroupDesc} (h0 : Wf s) : Wf (State.bind s n d) :=
  .alters h0 (State.bind_alters (ch := [.cells, .coll]) (.refl _ _) rfl) rfl

theorem State.stampEntry_wf {s : State} {n : Nat} (h0 : Wf s) : Wf (State.stampEntry s n) :=
  .alters h0 (State.stampEntry_alters (ch := [.cells, .coll]) (.refl _ _) rfl) rfl

theorem State.stampGen_wf {s : State} {n : Nat} (h0 : Wf s) : Wf (State.stampGen s n) :=
  .alters h0 (State.stampGen_alters (ch := [.cells, .coll]) (.refl _ _) rfl) rfl

theorem State.beginColl_wf {b : State} {p : Nat} {o : Owner} {q i e : Nat} {x : CollWork} {d : GroupDesc} {tab : List
    XchgRow × Nat × Nat × Nat} (h0 : Wf b) : Wf (State.beginColl b p o q i e x d tab) := by
  unfold State.beginColl
  try dsimp only
  repeat' (
    first
    | intro _
    | with_reducible (first | assumption | apply Wf.ite | apply State.applyAborts_wf |
                            apply State.bind_wf | apply State.bump_wf | apply State.faultHead_wf | apply State.issue_wf |
                            apply State.stampEntry_wf | apply State.stampGen_wf | apply State.startColl_wf |
                            apply State.startTiles_wf | rfl)
    | split
    | dsimp only
    | simp only [id_eq]
  )

theorem State.groupChecks_wf {s : State} {p : Nat} {x : CollWork} (h0 : Wf s) : Wf (State.groupChecks s p x).1 :=
  .alters h0 (State.groupChecks_alters (ch := (Part.err ++ [Part.mem, Part.nose, Part.power, Part.host])) (.refl _ _) rfl) rfl

theorem State.tableCheck_wf {s : State} {o : Owner} {x : CollWork} {d : GroupDesc} (h0 : Wf s) : Wf (State.tableCheck
    s o x d).1 :=
  .alters h0 (State.tableCheck_alters (ch := (Part.err ++ [Part.tile, Part.mem, Part.nose, Part.power, Part.host])) (.refl _ _) rfl) rfl

theorem State.runColl_wf {s : State} {q i e : Nat} (h0 : Wf s) : Wf (State.runColl s q i e) := by
  unfold State.runColl
  try dsimp only
  repeat' (
    first
    | intro _
    | with_reducible (first | assumption | apply Wf.ite | apply State.beginColl_wf |
                            apply State.faultHead_wf | apply State.groupChecks_wf | apply State.tableCheck_wf |
                            apply Wf.of_pair (by assumption) | apply Wf.ofChecked | apply Wf.ofJudged | apply Wf.ofGiven |
                            rfl)
    | split
    | dsimp only
    | simp only [id_eq]
  )

theorem State.issueColl_wf {s : State} {q : Nat} {c : Nat → Bool} (h0 : Wf s) : Wf (State.issueColl s q c) := by
  unfold State.issueColl
  try dsimp only
  repeat' (
    first
    | intro _
    | with_reducible (first | assumption | apply Wf.ite | apply State.issueHead_wf |
                            apply State.runColl_wf | rfl)
    | split
    | dsimp only
    | simp only [id_eq]
  )

theorem execAllReduce_wf {q : Fin 64} {s : State} {t0} (e : execAllReduce q s = .next t0) (h0 : Wf s) : Wf t0 := by
  unfold execAllReduce at e
  try dsimp only at e
  repeat' split at e
  all_goals (injection e with e; subst e)
  all_goals try dsimp only
  repeat' (
    first
    | intro _
    | with_reducible (first | assumption | apply Wf.ite | apply State.issueColl_wf | rfl)
    | split
    | dsimp only
    | simp only [id_eq]
  )

theorem execReduceScatter_wf {q : Fin 64} {s : State} {t0} (e : execReduceScatter q s = .next t0) (h0 : Wf s) : Wf t0
    := by
  unfold execReduceScatter at e
  try dsimp only at e
  repeat' split at e
  all_goals (injection e with e; subst e)
  all_goals try dsimp only
  repeat' (
    first
    | intro _
    | with_reducible (first | assumption | apply Wf.ite | apply State.issueColl_wf | rfl)
    | split
    | dsimp only
    | simp only [id_eq]
  )

theorem execAllGather_wf {q : Fin 64} {s : State} {t0} (e : execAllGather q s = .next t0) (h0 : Wf s) : Wf t0 := by
  unfold execAllGather at e
  try dsimp only at e
  repeat' split at e
  all_goals (injection e with e; subst e)
  all_goals try dsimp only
  repeat' (
    first
    | intro _
    | with_reducible (first | assumption | apply Wf.ite | apply State.issueColl_wf | rfl)
    | split
    | dsimp only
    | simp only [id_eq]
  )

theorem execAllToAll_wf {q : Fin 64} {s : State} {t0} (e : execAllToAll q s = .next t0) (h0 : Wf s) : Wf t0 := by
  unfold execAllToAll at e
  try dsimp only at e
  repeat' split at e
  all_goals (injection e with e; subst e)
  all_goals try dsimp only
  repeat' (
    first
    | intro _
    | with_reducible (first | assumption | apply Wf.ite | apply State.issueColl_wf | rfl)
    | split
    | dsimp only
    | simp only [id_eq]
  )

theorem execAllToAllUnequal_wf {q : Fin 64} {s : State} {t0} (e : execAllToAllUnequal q s = .next t0) (h0 : Wf s) : Wf
    t0 := by
  unfold execAllToAllUnequal at e
  try dsimp only at e
  repeat' split at e
  all_goals (injection e with e; subst e)
  all_goals try dsimp only
  repeat' (
    first
    | intro _
    | with_reducible (first | assumption | apply Wf.ite | apply State.issueColl_wf | rfl)
    | split
    | dsimp only
    | simp only [id_eq]
  )

theorem execAnchorCmd_wf {q : Fin 64} {s : State} {t0} (e : execAnchorCmd q s = .next t0) (h0 : Wf s) : Wf t0 := by
  unfold execAnchorCmd at e
  try dsimp only at e
  repeat' split at e
  all_goals (injection e with e; subst e)
  all_goals try dsimp only
  repeat' (
    first
    | intro _
    | with_reducible (first | assumption | apply Wf.ite | apply State.issueColl_wf | rfl)
    | split
    | dsimp only
    | simp only [id_eq]
  )

theorem State.endDrop_wf {s : State} {d : Drop} (h0 : Wf s) : Wf (State.endDrop s d) :=
  .alters h0 (State.endDrop_alters (ch := (Part.err ++ [Part.tile, Part.mem, Part.stream, Part.queue, Part.nose, Part.fab, Part.power, Part.host])) (.refl _ _) rfl) rfl

theorem execTransferAck_wf {e : Fin 16} {t : Fin 960} {s : State} {t0} (e : execTransferAck e t s = .next t0) (h0 : Wf
    s) : Wf t0 := by
  unfold execTransferAck at e
  try dsimp only at e
  repeat' split at e
  all_goals (injection e with e; subst e)
  all_goals try dsimp only
  repeat' (
    first
    | intro _
    | with_reducible (first | assumption | apply Wf.ite | apply State.endDrop_wf |
                            apply State.landNow_wf | rfl)
    | split
    | dsimp only
    | simp only [id_eq]
  )

theorem State.runDup_wf {s : State} {d : Dup} {u : Nat} {ops : List Word} {err : List (Nat × Word)} (h0 : Wf s) : Wf
    (State.runDup s d u ops err).1 := by
  unfold State.runDup
  try dsimp only
  repeat' (
    first
    | intro _
    | with_reducible (first | assumption | apply Wf.ite | apply State.bump_wf |
                            apply State.spadWrites_wf | rfl)
    | split
    | dsimp only
    | simp only [id_eq]
  )

theorem State.copies_wf {s : State} {d : Dup} (h0 : Wf s) : Wf (State.copies s d).1 :=
  .alters h0 (State.copies_alters (ch := (Part.err ++ [Part.tile, Part.nose])) (.refl _ _) rfl) rfl

theorem State.endDup_wf {s : State} {d : Dup} (h0 : Wf s) : Wf (State.endDup s d) :=
  .alters h0 (State.endDup_alters (ch := [.nose]) (.refl _ _) rfl) rfl

theorem State.onNose_wf {s : State} {g : NoseSt → NoseSt} (h0 : Wf s) : Wf (State.onNose s g) :=
  .alters h0 (State.onNose_alters (ch := [.nose]) (.refl _ _) rfl) rfl

theorem execNoseDuplicate_wf {t : Fin 960} {q : Fin 64} {i : Nat} {err : List (Nat × Word)} {void : Bool} {s : State}
    {t0} (e : execNoseDuplicate t q i err void s = .next t0) (h0 : Wf s) : Wf t0 := by
  unfold execNoseDuplicate at e
  try dsimp only at e
  repeat' split at e
  all_goals (injection e with e; subst e)
  all_goals try dsimp only
  repeat' (
    first
    | intro _
    | with_reducible (first | assumption | apply Wf.ite | apply State.bump_wf |
                            apply State.copies_wf | apply State.endDup_wf | apply State.onNose_wf | apply State.runDup_wf |
                            apply Wf.of_pair (by assumption) | rfl)
    | split
    | dsimp only
    | simp only [id_eq]
  )

theorem State.mismatch_wf {s : State} {d : Dup} {original : Bool} (h0 : Wf s) : Wf (State.mismatch s d original) :=
  .alters h0 (State.mismatch_alters (ch := (Part.err ++ [Part.nose])) (.refl _ _) rfl) rfl

theorem State.settleDup_wf {s : State} {d : Dup} {g c z : List Word} (h0 : Wf s) : Wf (State.settleDup s d g c z) :=
  .alters h0 (State.settleDup_alters (ch := (Part.err ++ [Part.nose])) (.refl _ _) rfl) rfl

theorem execNoseArbiter_wf {t : Fin 960} {q : Fin 64} {i : Nat} {err : List (Nat × Word)} {fit void : Bool} {s :
    State} {t0} (e : execNoseArbiter t q i err fit void s = .next t0) (h0 : Wf s) : Wf t0 := by
  unfold execNoseArbiter at e
  try dsimp only at e
  repeat' split at e
  all_goals (injection e with e; subst e)
  all_goals try dsimp only
  repeat' (
    first
    | intro _
    | with_reducible (first | assumption | apply Wf.ite | apply State.bump_wf |
                            apply State.copies_wf | apply State.endDup_wf | apply State.mismatch_wf |
                            apply State.runDup_wf | apply State.settleDup_wf | apply State.spadWrites_wf |
                            apply Wf.of_pair (by assumption) | rfl)
    | split
    | dsimp only
    | simp only [id_eq]
  )

theorem State.clearLines_wf {s : State} {t first n : Nat} (h0 : Wf s) : Wf (State.clearLines s t first n) :=
  .alters h0 (State.clearLines_alters (ch := [.tile]) (.refl _ _) rfl) rfl

theorem State.katTraces_wf {s : State} {test part : Nat} (h0 : Wf s) : Wf (State.katTraces s test part) := by
  unfold State.katTraces
  try dsimp only
  repeat' (
    first
    | intro _
    | with_reducible (first | assumption | apply Wf.ite | apply Wf.foldl |
                            apply State.clearLines_wf | apply State.spadWrites_wf | apply Wf.foldl1 | rfl)
    | split
    | dsimp only
    | simp only [id_eq]
    | with_reducible (first | apply Wf.upd_tile | apply Wf.upd_nose | apply Wf.upd_stream | apply Wf.upd_coll | apply Wf.upd_queue | apply Wf.upd_island | apply Wf.upd_free)
  )

theorem State.irq_wf {s : State} {pg bit : Nat} (h0 : Wf s) : Wf (State.irq s pg bit) :=
  .alters h0 (State.irq_alters (ch := [.cells, .msix, .out]) (.refl _ _) rfl) rfl

theorem State.raiseAll_wf {s : State} {pg : Nat} {es : List (Err × Nat)} (h0 : Wf s) : Wf (State.raiseAll s pg es) :=
  .alters h0 (State.raiseAll_alters (ch := Part.err) (.refl _ _) rfl) rfl

theorem execFieldTestDone_wf {failed : List Nat} {s : State} {t0} (e : execFieldTestDone failed s = .next t0) (h0 : Wf
    s) : Wf t0 := by
  unfold execFieldTestDone at e
  try dsimp only at e
  repeat' split at e
  all_goals (injection e with e; subst e)
  all_goals try dsimp only
  repeat' (
    first
    | intro _
    | with_reducible (first | assumption | apply Wf.ite | apply Wf.foldl | apply State.bump_wf |
                            apply State.irq_wf | apply State.katTraces_wf | apply State.onNose_wf |
                            apply State.raiseAll_wf | apply State.wr_wf | apply Wf.foldl1 | rfl)
    | split
    | dsimp only
    | simp only [id_eq]
  )

theorem State.countFill_wf {s : State} {g : Nat} (h0 : Wf s) : Wf (State.countFill s g) :=
  .alters h0 (State.countFill_alters (ch := [.cells, .power]) (.refl _ _) rfl) rfl

theorem State.moveGran_wf {s : State} {g : Nat} {v : Gran} (h0 : Wf s) : Wf (State.moveGran s g v) :=
  .alters h0 (State.moveGran_alters (ch := [.cells, .mem]) (.refl _ _) rfl) rfl

theorem State.opDone_wf {s : State} {g : Nat} (h0 : Wf s) : Wf (State.opDone s g) :=
  .alters h0 (State.opDone_alters (ch := [.cells, .mem]) (.refl _ _) rfl) rfl

theorem execPlaceFillDone_wf {g : Nat} {s : State} {t0} (e : execPlaceFillDone g s = .next t0) (h0 : Wf s) : Wf t0 :=
    by
  unfold execPlaceFillDone at e
  try dsimp only at e
  repeat' split at e
  all_goals (injection e with e; subst e)
  all_goals try dsimp only
  repeat' (
    first
    | intro _
    | with_reducible (first | assumption | apply Wf.ite | apply State.countFill_wf |
                            apply State.fillGran_wf | apply State.moveGran_wf | apply State.opDone_wf | rfl)
    | split
    | dsimp only
    | simp only [id_eq]
  )

theorem copyCells_wf {m : Cells Byte} {a b n : Nat} (h : Cells.wf 0 m = true) : Cells.wf 0 (copyCells m a b n) = true :=
  Cells.wf_foldl (fun _ _ => Cells.wf_put _ _) (Cells.wf_clear _ h)
theorem State.copyPieces_wf {s : State} {o : Owner} {p d : Place} {ps : List Piece} (h0 : Wf s) : Wf (State.copyPieces
    s o p d ps).1 := by
  induction ps generalizing s with
  | nil => exact h0
  | cons c r ih =>
    unfold State.copyPieces
    dsimp only
    split
    · refine ih ?_
      obtain ⟨x, y, z⟩ := Wf.iff.1 h0
      exact Wf.iff.2 ⟨copyCells_wf x, y, z⟩
    · have k := State.writeSpans_wf (o := some o) (pg := d.page) (first := 512)
        (d := (s.carry 512 (Cells.bytes s.mem.bytes (p.key + c.src) c.n)).2.1)
        (bad := (s.carry 512 (Cells.bytes s.mem.bytes (p.key + c.src) c.n)).2.2)
        (put := fun u x bs => (u.onMem fun m => { m with bytes := Cells.putBytes m.bytes (d.key + c.dst + x) bs }, none))
        (State.carry_wf (first := 512) (bs := Cells.bytes s.mem.bytes (p.key + c.src) c.n) h0) fun {u _ _} hu => by
          obtain ⟨x, y, z⟩ := Wf.iff.1 hu
          exact Wf.iff.2 ⟨Cells.wf_putBytes _ _ x, y, z⟩
      split <;> rename_i e <;> rw [e] at k
      · exact k
      · exact ih k

theorem State.failMove_wf {s : State} {m : Move} {e : Err} (h0 : Wf s) : Wf (State.failMove s m e) :=
  .alters h0 (State.failMove_alters (ch := (Part.err ++ [Part.tile, Part.mem, Part.stream, Part.queue, Part.nose, Part.fab, Part.power, Part.host])) (.refl _ _) rfl) rfl

theorem State.sendPosts_wf {s : State} {q : Nat} (h0 : Wf s) : Wf (State.sendPosts s q) :=
  .alters h0 (State.sendPosts_alters (ch := (Part.err ++ [Part.tile, Part.mem, Part.stream, Part.queue, Part.nose, Part.fab, Part.power, Part.host])) (.refl _ _) rfl) rfl

theorem State.flipDone_wf {s : State} {m : Move} (h0 : Wf s) : Wf (State.flipDone s m) :=
  .alters h0 (State.flipDone_alters (ch := [.cells, .mem, .stream, .queue]) (.refl _ _) rfl) rfl

theorem State.flipCopy_wf {a : State} {m : Move} {p d : Place} (h0 : Wf a) : Wf (State.flipCopy a m p d) := by
  unfold State.flipCopy
  dsimp only
  have k := State.copyPieces_wf (o := m.owner) (p := p) (d := d) (ps := granPieces) (State.fillGran_wf (g := d.gran) h0)
  refine Wf.ite (State.failMove_wf (State.raiseFor_wf h0)) (Wf.ofGiven ?_ fun _ => State.failMove_wf k)
  exact State.sendPosts_wf (State.flipDone_wf (State.countBytes_wf (State.countBytes_wf k)))

theorem State.checkData_wf {s : State} {o : Option Owner} {p : Place} {n : Nat} (h0 : Wf s) : Wf (State.checkData s o
    p n).1 :=
  .alters h0 (State.checkData_alters (ch := (Part.err ++ [Part.mem, Part.nose])) (.refl _ _) rfl) rfl

theorem State.flipLocal_wf {s : State} {m : Move} {p : Place} (h0 : Wf s) : Wf (State.flipLocal s m p) := by
  unfold State.flipLocal
  have h1 : Wf (s.checkData (some m.owner) p granBytes).1 := State.checkData_wf h0
  exact Wf.ofGiven (Wf.ofJudged (fun _ => State.failMove_wf (State.raiseFor_wf h1))
    fun _ => State.flipCopy_wf h1) fun _ => State.failMove_wf h1

theorem State.flipRemote_wf {s : State} {m : Move} (h0 : Wf s) : Wf (State.flipRemote s m) :=
  .alters h0 (State.flipRemote_alters (ch := (Part.err ++ [Part.tile, Part.mem, Part.stream, Part.queue, Part.nose, Part.fab, Part.power, Part.host])) (.refl _ _) rfl) rfl

theorem State.flipGranule_wf {s : State} {m : Move} (h0 : Wf s) : Wf (State.flipGranule s m) := by
  unfold State.flipGranule
  try dsimp only
  repeat' (
    first
    | intro _
    | with_reducible (first | assumption | apply Wf.ite | apply State.failMove_wf |
                            apply State.flipLocal_wf | apply State.flipRemote_wf | apply State.raiseFor_wf |
                            apply Wf.ofJudged | rfl)
    | split
    | dsimp only
    | simp only [id_eq]
  )

theorem execGranuleFlip_wf {q : Fin 64} {i : Nat} {s : State} {t0} (e : execGranuleFlip q i s = .next t0) (h0 : Wf s)
    : Wf t0 := by
  unfold execGranuleFlip at e
  try dsimp only at e
  repeat' split at e
  all_goals (injection e with e; subst e)
  all_goals try dsimp only
  repeat' (
    first
    | intro _
    | with_reducible (first | assumption | apply Wf.ite | apply State.flipGranule_wf |
                            apply Wf.ofGiven | rfl)
    | split
    | dsimp only
    | simp only [id_eq]
  )

theorem State.clearSled_wf {s : State} {i : Nat} (h0 : Wf s) : Wf (State.clearSled s i) := by
  obtain ⟨a, b, c⟩ := Wf.iff.1 h0
  refine Wf.iff.2 ⟨?_, b, c⟩
  unfold State.clearSled; dsimp only [State.onMem]; exact Cells.wf_clear _ a

theorem State.attached__wf {s : State} {i : Nat} (h0 : Wf s) : Wf (State.attached_ s i) :=
  .alters h0 (State.attached__alters (ch := [.cells]) (.refl _ _) rfl) rfl

theorem State.raise_wf {s : State} {pg : Nat} {e : Err} {src : Nat} (h0 : Wf s) : Wf (State.raise s pg e src) :=
  .alters h0 (State.raise_alters (ch := Part.err) (.refl _ _) rfl) rfl

theorem State.rebuildSled_wf {s : State} {i : Nat} (h0 : Wf s) : Wf (State.rebuildSled s i) :=
  .alters h0 (State.rebuildSled_alters (ch := (Part.err ++ [Part.mem, Part.fab])) (.refl _ _) rfl) rfl

theorem State.sledErase_wf {s : State} {i : Nat} (h0 : Wf s) : Wf (State.sledErase s i) := by
  unfold State.sledErase
  try dsimp only
  repeat' (
    first
    | intro _
    | with_reducible (first | assumption | apply Wf.ite | apply State.attached__wf |
                            apply State.bump_wf | apply State.clearSled_wf | apply State.onMem_wfR | apply State.raise_wf |
                            apply State.rebuildSled_wf | apply State.wr_wf | rfl)
    | split
    | dsimp only
    | simp only [id_eq]
  )

theorem State.discardHalf_wf {s : State} {p : Path} {pg : Nat} (h0 : Wf s) : Wf (State.discardHalf s p pg) :=
  .alters h0 (State.discardHalf_alters (ch := (Part.err ++ [Part.wbuf])) (.refl _ _) rfl) rfl

theorem State.countRx_wf {s : State} {p : Path} {n : Nat} (h0 : Wf s) : Wf (State.countRx s p n) :=
  .alters h0 (State.countRx_alters (ch := [.cells]) (.refl _ _) rfl) rfl

theorem State.vfDenied_wf {s : State} (h0 : Wf s) : Wf (State.vfDenied s) :=
  .alters h0 (State.vfDenied_alters (ch := Part.err) (.refl _ _) rfl) rfl

theorem State.onPage_wf {s : State} {p : Path} {a n : Nat} {own : Option Nat} {g : State → State} (h0 : Wf s) (hg : ∀
    {u0}, Wf u0 → Wf (g u0)) : Wf (State.onPage s p a n own g) := by
  unfold State.onPage
  try dsimp only
  repeat' (
    first
    | intro _
    | with_reducible (first | assumption | apply Wf.ite | apply hg | apply State.countRx_wf |
                            apply State.vfDenied_wf | rfl)
    | split
    | dsimp only
    | simp only [id_eq]
  )

theorem State.onWrite_wf {s : State} {p : Path} {a n : Nat} {own : Option Nat} {g : State → State} (h0 : Wf s) (hg : ∀
    {u0}, Wf u0 → Wf (g u0)) : Wf (State.onWrite s p a n own g) := by
  unfold State.onWrite
  try dsimp only
  repeat' (
    first
    | intro _
    | with_reducible (first | assumption | apply Wf.ite | apply hg | apply State.discardHalf_wf |
                            apply State.onPage_wf | rfl)
    | split
    | dsimp only
    | simp only [id_eq]
  )

theorem State.sledCtrl_wf {s : State} {i op : Nat} (h0 : Wf s) : Wf (State.sledCtrl s i op) :=
  .alters h0 (State.sledCtrl_alters (ch := [.cells]) (.refl _ _) rfl) rfl

theorem execAttachErase_wf {p : Path} {i : Fin 4} {s : State} {t0} (e : execAttachErase p i s = .next t0) (h0 : Wf s)
    : Wf t0 := by
  unfold execAttachErase at e
  try dsimp only at e
  repeat' split at e
  all_goals (injection e with e; subst e)
  all_goals try dsimp only
  repeat' (
    first
    | intro _
    | with_reducible (first | assumption | apply Wf.ite | apply State.onWrite_wf |
                            apply State.sledCtrl_wf | apply State.sledErase_wf | rfl)
    | split
    | dsimp only
    | simp only [id_eq]
  )

theorem State.countInsert_wf {s : State} {part : Nat} (h0 : Wf s) : Wf (State.countInsert s part) :=
  .alters h0 (State.countInsert_alters (ch := [.free, .cells, .tag, .island]) (.refl _ _) rfl) rfl

theorem State.showWear_wf {s : State} {i sparePct eraseMax : Nat} (h0 : Wf s) : Wf (State.showWear s i sparePct
    eraseMax) :=
  .alters h0 (State.showWear_alters (ch := Part.err) (.refl _ _) rfl) rfl

theorem State.flag_wf {s : State} {f : Fld} {b : Bool} (h0 : Wf s) : Wf (State.flag s f b) :=
  .alters h0 (State.flag_alters (ch := [.cells]) (.refl _ _) rfl) rfl

theorem execSledInsert_wf {ix : Fin 4} {ok foreign : Bool} {sparePct eraseMax : Nat} {records : List (Nat × Nat ×
    Nat)}
    {data : List (Nat × List Byte)} {s : State} {t0}
    (e : execSledInsert ix ok foreign sparePct eraseMax records data s = .next t0) (h0 : Wf s) : Wf t0 := by
  unfold execSledInsert at e
  injection e with e; subst e
  refine Wf.ite h0 (Wf.ite (State.onMem_wfR h0 fun _ => rfl) (Wf.ite (State.raise_wf h0) ?_))
  refine State.countInsert_wf (State.showWear_wf (State.wr_wf (State.flag_wf (State.wr_wf ?_))))
  obtain ⟨a, b, c⟩ := Wf.iff.1 (State.clearSled_wf (i := ix.val) h0)
  refine Wf.iff.2 ⟨?_, b, c⟩
  dsimp only [State.onMem]
  refine Cells.wf_foldl (fun u x h => ?_) a
  split
  · exact Cells.wf_putBytes _ _ h
  · exact h

theorem State.journal_wf {s : State} {type : Nat} (h0 : Wf s) : Wf (State.journal s type) :=
  .alters h0 (State.journal_alters (ch := [.free, .cells, .tag]) (.refl _ _) rfl) rfl

theorem State.sledLost_wf {s : State} {i : Nat} (h0 : Wf s) : Wf (State.sledLost s i) :=
  .alters h0 (State.sledLost_alters (ch := (Part.err ++ [Part.tile, Part.mem, Part.stream, Part.queue, Part.nose, Part.fab, Part.power, Part.host])) (.refl _ _) rfl) rfl

theorem execSledPull_wf {i : Fin 4} {s : State} {t0} (e : execSledPull i s = .next t0) (h0 : Wf s) : Wf t0 := by
  unfold execSledPull at e
  try dsimp only at e
  repeat' split at e
  all_goals (injection e with e; subst e)
  all_goals try dsimp only
  repeat' (
    first
    | intro _
    | with_reducible (first | assumption | apply Wf.ite | apply Wf.foldl |
                            apply State.clearSled_wf | apply State.journal_wf | apply State.onMem_wfR |
                            apply State.sledLost_wf | apply State.wr_wf | apply Wf.foldl1 | rfl)
    | split
    | dsimp only
    | simp only [id_eq]
  )

theorem State.answerWrite_wf {s : State} {f : Frame} {e : Option Err} (h0 : Wf s) : Wf (State.answerWrite s f e) :=
  .alters h0 (State.answerWrite_alters (ch := [.cells, .fab, .out]) (.refl _ _) rfl) rfl

theorem State.serveWrite_wf {s : State} {f : Frame} {d : List Byte} {seals : List Word} {first : Nat} (h0 : Wf s) : Wf
    (State.serveWrite s f d seals first) := by
  unfold State.serveWrite
  try dsimp only
  repeat' (
    first
    | intro _
    | with_reducible (first | assumption | apply Wf.ite | apply State.answerWrite_wf |
                            apply State.sealedWrite_wf | apply Wf.of_pair (by assumption) | rfl)
    | split
    | dsimp only
    | simp only [id_eq]
  )

theorem State.closeMove_wf {s : State} {p : Place} {src : Nat × Nat} (h0 : Wf s) : Wf (State.closeMove s p src) :=
  .alters h0 (State.closeMove_alters (ch := [.cells, .mem]) (.refl _ _) rfl) rfl

theorem State.openMove_wf {s : State} {p : Place} {src : Nat × Nat} (h0 : Wf s) : Wf (State.openMove s p src).1 :=
  .alters h0 (State.openMove_alters (ch := (Part.err ++ [Part.mem, Part.fab])) (.refl _ _) rfl) rfl

theorem State.serveMove_wf {s : State} {f : Frame} {d : List Byte} {seals : List Word} {first src : Nat} (h0 : Wf s) :
    Wf (State.serveMove s f d seals first src) := by
  unfold State.serveMove
  try dsimp only
  repeat' (
    first
    | intro _
    | with_reducible (first | assumption | apply Wf.ite | apply State.answerWrite_wf |
                            apply State.closeMove_wf | apply State.openMove_wf | apply State.raise_wf |
                            apply State.writeRuns_wf | apply State.writeSpans_wf | apply Wf.of_pair (by assumption) | rfl)
    | split
    | dsimp only
    | simp only [id_eq]
  )

theorem State.acceptFrame_wf {s : State} {k : Nat} {f : Frame} (h0 : Wf s) : Wf (State.acceptFrame s k f) :=
  .alters h0 (State.acceptFrame_alters (ch := [.cells, .fab, .out]) (.refl _ _) rfl) rfl

theorem State.emit_wf {s : State} {o : Out} (h0 : Wf s) : Wf (State.emit s o) :=
  .alters h0 (State.emit_alters (ch := [.out]) (.refl _ _) rfl) rfl

theorem State.enterDiscard_wf {s : State} {k : Nat} (h0 : Wf s) : Wf (State.enterDiscard s k) :=
  .alters h0 (State.enterDiscard_alters (ch := [.fab, .out]) (.refl _ _) rfl) rfl

theorem State.forward_wf {s : State} {k : Nat} {f : Frame} (h0 : Wf s) : Wf (State.forward s k f) :=
  .alters h0 (State.forward_alters (ch := (Part.err ++ [Part.fab])) (.refl _ _) rfl) rfl

theorem State.holdFrame_wf {s : State} {k : Nat} {f : Frame} (h0 : Wf s) : Wf (State.holdFrame s k f) :=
  .alters h0 (State.holdFrame_alters (ch := [.cells, .fab, .out]) (.refl _ _) rfl) rfl

theorem State.takeFrame_wf {s : State} {k : Nat} {f : Frame} {own : State → State} (h0 : Wf s) (hown : ∀ {u0}, Wf u0 →
    Wf (own u0)) : Wf (State.takeFrame s k f own) := by
  unfold State.takeFrame
  try dsimp only
  repeat' (
    first
    | intro _
    | with_reducible (first | assumption | apply Wf.ite | apply hown | apply State.acceptFrame_wf |
                            apply State.bump_wf | apply State.emit_wf | apply State.enterDiscard_wf |
                            apply State.forward_wf | apply State.holdFrame_wf | rfl)
    | split
    | dsimp only
    | simp only [id_eq]
  )

theorem execWriteFrame_wf {k : Fin 48} {f : Frame} {s : State} {t0} (e : execWriteFrame k f s = .next t0) (h0 : Wf s)
    : Wf t0 := by
  unfold execWriteFrame at e
  try dsimp only at e
  repeat' split at e
  all_goals (injection e with e; subst e)
  all_goals try dsimp only
  repeat' (
    first
    | intro _
    | with_reducible (first | assumption | apply Wf.ite | apply State.serveWrite_wf |
                            apply State.takeFrame_wf | rfl)
    | split
    | dsimp only
    | simp only [id_eq]
  )

theorem execMoveData_wf {k : Fin 48} {f : Frame} {s : State} {t0} (e : execMoveData k f s = .next t0) (h0 : Wf s) : Wf
    t0 := by
  unfold execMoveData at e
  try dsimp only at e
  repeat' split at e
  all_goals (injection e with e; subst e)
  all_goals try dsimp only
  repeat' (
    first
    | intro _
    | with_reducible (first | assumption | apply Wf.ite | apply State.serveMove_wf |
                            apply State.takeFrame_wf | rfl)
    | split
    | dsimp only
    | simp only [id_eq]
  )

theorem execCollData_wf {k : Fin 48} {f : Frame} {s : State} {t0} (e : execCollData k f s = .next t0) (h0 : Wf s) : Wf
    t0 := by
  unfold execCollData at e
  try dsimp only at e
  repeat' split at e
  all_goals (injection e with e; subst e)
  all_goals try dsimp only
  repeat' (
    first
    | intro _
    | with_reducible (first | assumption | apply Wf.ite | apply State.collData_wf |
                            apply State.takeFrame_wf | rfl)
    | split
    | dsimp only
    | simp only [id_eq]
  )

theorem execCollAck_wf {k : Fin 48} {f : Frame} {s : State} {t0} (e : execCollAck k f s = .next t0) (h0 : Wf s) : Wf
    t0 := by
  unfold execCollAck at e
  try dsimp only at e
  repeat' split at e
  all_goals (injection e with e; subst e)
  all_goals try dsimp only
  repeat' (
    first
    | intro _
    | with_reducible (first | assumption | apply Wf.ite | apply State.collAck_wf |
                            apply State.takeFrame_wf | rfl)
    | split
    | dsimp only
    | simp only [id_eq]
  )

theorem State.ackMsg_wf {s : State} {f : Frame} {seq answer : Nat} (h0 : Wf s) : Wf (State.ackMsg s f seq answer) :=
  .alters h0 (State.ackMsg_alters (ch := [.cells, .fab, .out]) (.refl _ _) rfl) rfl

theorem State.answer_wf {s : State} {f : Frame} {b : Body} (h0 : Wf s) : Wf (State.answer s f b) :=
  .alters h0 (State.answer_alters (ch := [.cells, .fab, .out]) (.refl _ _) rfl) rfl

theorem State.noteMsg_wf {s : State} {node inc seq : Nat} (h0 : Wf s) : Wf (State.noteMsg s node inc seq) :=
  .alters h0 (State.noteMsg_alters (ch := [.fab]) (.refl _ _) rfl) rfl

theorem State.takeMsg_wf {s : State} {f : Frame} {inc seq : Nat} {act : State → State × Nat} (h0 : Wf s) (hact : ∀
    {u0}, Wf u0 → Wf (act u0).1) : Wf (State.takeMsg s f inc seq act) := by
  unfold State.takeMsg
  try dsimp only
  repeat' (
    first
    | intro _
    | with_reducible (first | assumption | apply Wf.ite | apply hact | apply State.ackMsg_wf |
                            apply State.answer_wf | apply State.noteMsg_wf | apply Wf.of_pair (by assumption) | rfl)
    | split
    | dsimp only
    | simp only [id_eq]
  )

theorem State.msgFrame_wf {s : State} {k : Nat} {f : Frame} {inc seq : Nat} {act : State → State × Nat} (h0 : Wf s)
    (hact : ∀ {u0}, Wf u0 → Wf (act u0).1) : Wf (State.msgFrame s k f inc seq act) := by
  unfold State.msgFrame
  try dsimp only
  repeat' (
    first
    | intro _
    | with_reducible (first | assumption | apply Wf.ite | apply hact | apply State.takeFrame_wf |
                            apply State.takeMsg_wf | apply Wf.of_pair (by assumption) | rfl)
    | split
    | dsimp only
    | simp only [id_eq]
  )

theorem plain_wf {g : State → State} {s : State} (h0 : Wf s) (hg : ∀ {u0}, Wf u0 → Wf (g u0)) : Wf (plain g s).1 := by
  unfold plain
  try dsimp only
  repeat' (
    first
    | intro _
    | with_reducible (first | assumption | apply Wf.ite | apply hg | rfl)
    | split
    | dsimp only
    | simp only [id_eq]
  )

theorem execStartRecord_wf {k : Fin 48} {f : Frame} {s : State} {t0} (e : execStartRecord k f s = .next t0) (h0 : Wf
    s) : Wf t0 := by
  unfold execStartRecord at e
  try dsimp only at e
  repeat' split at e
  all_goals (injection e with e; subst e)
  all_goals try dsimp only
  repeat' (
    first
    | intro _
    | with_reducible (first | assumption | apply Wf.ite | apply State.msgFrame_wf |
                            apply State.startRecord_wf | apply plain_wf | apply Wf.of_pair (by assumption) | rfl)
    | split
    | dsimp only
    | simp only [id_eq]
  )

theorem State.tagPut_wf {s : State} {a : Nat} {bs : List Byte} (h0 : Wf s) : Wf (State.tagPut s a bs) := by
  obtain ⟨x, y, z⟩ := Wf.iff.1 h0
  exact Wf.iff.2 ⟨x, y, Cells.wf_putBytes _ _ z⟩

theorem State.tagCommit_wf {s : State} {r : TagRec} (h0 : Wf s) : Wf (State.tagCommit s r) := by
  unfold State.tagCommit
  try dsimp only
  repeat' (
    first
    | intro _
    | with_reducible (first | assumption | apply Wf.ite | apply State.bump_wf |
                            apply State.tagPut_wf | apply State.wr_wf | rfl)
    | split
    | dsimp only
    | simp only [id_eq]
  )

theorem State.openBytes_wf {s : State} {n : Nat} (h0 : Wf s) : Wf (State.openBytes s n).2 :=
  .alters h0 (State.openBytes_alters (ch := [.free]) (.refl _ _) rfl) rfl

theorem State.tagSpoil_wf {s : State} {r : TagRec} (h0 : Wf s) : Wf (State.tagSpoil s r) := by
  unfold State.tagSpoil
  try dsimp only
  repeat' (
    first
    | intro _
    | with_reducible (first | assumption | apply Wf.ite | apply State.openBytes_wf |
                            apply State.tagPut_wf | apply Wf.of_pair2 (by assumption) | rfl)
    | split
    | dsimp only
    | simp only [id_eq]
  )

theorem State.lastRecordDone_wf {s : State} {area : Nat} (h0 : Wf s) : Wf (State.lastRecordDone s area) :=
  .alters h0 (State.lastRecordDone_alters (ch := [.cells]) (.refl _ _) rfl) rfl

theorem State.popTag_wf {s : State} (h0 : Wf s) : Wf (State.popTag s) :=
  .alters h0 (State.popTag_alters (ch := [.cells, .tag]) (.refl _ _) rfl) rfl

theorem execTagCommitDone_wf {ok : Bool} {s : State} {t0} (e : execTagCommitDone ok s = .next t0) (h0 : Wf s) : Wf t0
    := by
  unfold execTagCommitDone at e
  try dsimp only at e
  repeat' split at e
  all_goals (injection e with e; subst e)
  all_goals try dsimp only
  repeat' (
    first
    | intro _
    | with_reducible (first | assumption | apply Wf.ite | apply State.bump_wf | apply State.irq_wf |
                            apply State.lastRecordDone_wf | apply State.onTag_wfR | apply State.popTag_wf |
                            apply State.raise_wf | apply State.tagCommit_wf | apply State.tagSpoil_wf | apply State.wr_wf |
                            rfl)
    | split
    | dsimp only
    | simp only [id_eq]
  )

theorem State.deferQueue_wf {s : State} (h0 : Wf s) : Wf (State.deferQueue s) :=
  .alters h0 (State.deferQueue_alters (ch := [.cells, .tag]) (.refl _ _) rfl) rfl

theorem State.rfCommand_wf {s : State} {g : State → State × RfReply} (h0 : Wf s) (hg : ∀ {u0}, Wf u0 → Wf (g u0).1) :
    Wf (State.rfCommand s g) := by
  unfold State.rfCommand
  try dsimp only
  repeat' (
    first
    | intro _
    | with_reducible (first | assumption | apply Wf.ite | apply hg | apply State.deferQueue_wf |
                            apply State.emit_wf | apply State.onTag_wfR | apply State.wr_wf |
                            apply Wf.of_pair (by assumption) | rfl)
    | split
    | dsimp only
    | simp only [id_eq]
  )

theorem execWriteSingleBlock_wf {n : BitVec 16} {v : Word} {s : State} {t0} (e : execWriteSingleBlock n v s = .next
    t0) (h0 : Wf s) : Wf t0 := by
  unfold execWriteSingleBlock at e
  try dsimp only at e
  repeat' split at e
  all_goals (injection e with e; subst e)
  all_goals try dsimp only
  repeat' (
    first
    | intro _
    | with_reducible (first | assumption | apply Wf.ite | apply State.bump_wf |
                            apply State.rfCommand_wf | apply State.tagPut_wf | rfl)
    | split
    | dsimp only
    | simp only [id_eq]
  )

theorem State.fusedBase_wf {s : State} {warm ledger : Bool} (h0 : Wf s) : Wf (State.fusedBase s warm ledger) := by
  obtain ⟨a, _, c⟩ := Wf.iff.1 h0
  refine Wf.iff.2 ⟨?_, rfl, c⟩
  unfold State.fusedBase; dsimp only [State.fusedMem]; exact Cells.wf_clear _ a

theorem State.drawSeed_wf {s : State} (h0 : Wf s) : Wf (State.drawSeed s) :=
  .alters h0 (State.drawSeed_alters (ch := [.free, .cells]) (.refl _ _) rfl) rfl

theorem State.enterFault_wf {s : State} (h0 : Wf s) : Wf (State.enterFault s) :=
  .alters h0 (State.enterFault_alters (ch := [.cells, .power]) (.refl _ _) rfl) rfl

theorem State.openKind_wf {s : State} {i : Nat} (h0 : Wf s) : Wf (State.openKind s i) :=
  .alters h0 (State.openKind_alters (ch := Part.err) (.refl _ _) rfl) rfl

theorem State.restoreLedger_wf {s : State} {last : Option Seal} (h0 : Wf s) : Wf (State.restoreLedger s last) :=
  .alters h0 (State.restoreLedger_alters (ch := Part.err) (.refl _ _) rfl) rfl

theorem State.showCages_wf {s : State} (h0 : Wf s) : Wf (State.showCages s) :=
  .alters h0 (State.showCages_alters (ch := [.cells]) (.refl _ _) rfl) rfl

theorem State.showCeil_wf {s : State} (h0 : Wf s) : Wf (State.showCeil s) :=
  .alters h0 (State.showCeil_alters (ch := [.cells]) (.refl _ _) rfl) rfl

theorem State.showFuses_wf {s : State} (h0 : Wf s) : Wf (State.showFuses s) :=
  .alters h0 (State.showFuses_alters (ch := [.cells]) (.refl _ _) rfl) rfl

theorem State.showTag_wf {s : State} (h0 : Wf s) : Wf (State.showTag s) :=
  .alters h0 (State.showTag_alters (ch := [.cells]) (.refl _ _) rfl) rfl

theorem State.toFused_wf {s : State} {warm sram : Bool} (h0 : Wf s) : Wf (State.toFused s warm sram) := by
  unfold State.toFused
  try dsimp only
  repeat' (
    first
    | intro _
    | with_reducible (first | assumption | apply Wf.ite | apply State.drawSeed_wf |
                            apply State.enterFault_wf | apply State.flag_wf | apply State.fusedBase_wf |
                            apply State.openKind_wf | apply State.raise_wf | apply State.restoreLedger_wf |
                            apply State.showCages_wf | apply State.showCeil_wf | apply State.showFuses_wf |
                            apply State.showTag_wf | apply State.wr_wf | rfl)
    | split
    | dsimp only
    | simp only [id_eq]
  )

theorem State.logEntry_wf {s : State} {e : LogEntry} (h0 : Wf s) : Wf (State.logEntry s e) :=
  .alters h0 (State.logEntry_alters (ch := [.island]) (.refl _ _) rfl) rfl

theorem State.queueTag_wf {s : State} {area type : Nat} {payload : List Byte} (h0 : Wf s) : Wf (State.queueTag s area
    type payload) :=
  .alters h0 (State.queueTag_alters (ch := [.cells, .tag]) (.refl _ _) rfl) rfl

theorem State.seal_wf {s : State} {closed : Bool} (h0 : Wf s) : Wf (State.seal s closed) :=
  .alters h0 (State.seal_alters (ch := [.cells, .island]) (.refl _ _) rfl) rfl

theorem State.lastRecords_wf {s : State} {cause : Nat} (h0 : Wf s) : Wf (State.lastRecords s cause) := by
  unfold State.lastRecords
  try dsimp only
  repeat' (
    first
    | intro _
    | with_reducible (first | assumption | apply Wf.ite | apply State.lastRecordDone_wf |
                            apply State.logEntry_wf | apply State.openBytes_wf | apply State.queueTag_wf |
                            apply State.seal_wf | apply State.tagCommit_wf | apply Wf.of_pair2 (by assumption) | rfl)
    | split
    | dsimp only
    | simp only [id_eq]
  )

theorem State.enterOff_wf {s : State} (h0 : Wf s) : Wf (State.enterOff s) :=
  .alters h0 (State.enterOff_alters (ch := [.cells, .power]) (.refl _ _) rfl) rfl

theorem State.flushSleds_wf {s : State} (h0 : Wf s) : Wf (State.flushSleds s) :=
  .alters h0 (State.flushSleds_alters (ch := [.out]) (.refl _ _) rfl) rfl

theorem State.onPower_wf {s : State} {g : PowerSt → PowerSt} (h0 : Wf s) : Wf (State.onPower s g) :=
  .alters h0 (State.onPower_alters (ch := [.power]) (.refl _ _) rfl) rfl

theorem State.stepActs_wf {s : State} {d : Drydown} (h0 : Wf s) : Wf (State.stepActs s d) := by
  unfold State.stepActs
  try dsimp only
  repeat' (
    first
    | intro _
    | with_reducible (first | assumption | apply Wf.ite | apply State.enterOff_wf |
                            apply State.flushSleds_wf | apply State.lastRecords_wf | apply State.onPower_wf | rfl)
    | split
    | dsimp only
    | simp only [id_eq]
  )

theorem State.stepOff_wf {s : State} {n stuck : Nat} (h0 : Wf s) : Wf (State.stepOff s n stuck) :=
  .alters h0 (State.stepOff_alters (ch := (Part.err ++ [Part.tile, Part.mem, Part.stream, Part.queue, Part.sig, Part.nose, Part.coll, Part.fab, Part.power, Part.host])) (.refl _ _) rfl) rfl

theorem State.dryStep_wf {s : State} {d : Drydown} {stuck : Nat} (h0 : Wf s) : Wf (State.dryStep s d stuck) := by
  unfold State.dryStep
  try dsimp only
  repeat' (
    first
    | intro _
    | with_reducible (first | assumption | apply Wf.ite | apply State.onPower_wf |
                            apply State.stepActs_wf | apply State.stepOff_wf | apply State.toFused_wf | apply State.wr_wf |
                            rfl)
    | split
    | dsimp only
    | simp only [id_eq]
  )

theorem State.holdupLost_wf {s : State} (h0 : Wf s) : Wf (State.holdupLost s) :=
  .alters h0 (State.holdupLost_alters (ch := [.cells, .island, .power]) (.refl _ _) rfl) rfl

theorem execDrydownStep_wf {flushed low : Bool} {stuck : BitVec 10} {holdup : Bool} {s : State} {t0} (e :
    execDrydownStep flushed low stuck holdup s = .next t0) (h0 : Wf s) : Wf t0 := by
  unfold execDrydownStep at e
  try dsimp only at e
  repeat' split at e
  all_goals (injection e with e; subst e)
  all_goals try dsimp only
  repeat' (
    first
    | intro _
    | with_reducible (first | assumption | apply Wf.ite | apply State.dryStep_wf |
                            apply State.enterOff_wf | apply State.holdupLost_wf | rfl)
    | split
    | dsimp only
    | simp only [id_eq]
  )

theorem execPowerOn_wf {ev : PowerEvent} {sram : Bool} {s : State} {t0} (e : execPowerOn ev sram s = .next t0) (h0 :
    Wf s) : Wf t0 := by
  unfold execPowerOn at e
  try dsimp only at e
  repeat' split at e
  all_goals (injection e with e; subst e)
  all_goals try dsimp only
  repeat' (
    first
    | intro _
    | with_reducible (first | assumption | apply Wf.ite | apply State.toFused_wf | rfl)
    | split
    | dsimp only
    | simp only [id_eq]
  )

theorem State.aperDisable_wf {s : State} {n : Nat} (h0 : Wf s) : Wf (State.aperDisable s n) :=
  .alters h0 (State.aperDisable_alters (ch := [.mem]) (.refl _ _) rfl) rfl

theorem State.aperEnable_wf {s : State} {n : Nat} (h0 : Wf s) : Wf (State.aperEnable s n) :=
  .alters h0 (State.aperEnable_alters (ch := Part.err) (.refl _ _) rfl) rfl

theorem State.sledAttach_wf {s : State} {i : Nat} (h0 : Wf s) : Wf (State.sledAttach s i) :=
  .alters h0 (State.sledAttach_alters (ch := (Part.err ++ [Part.mem, Part.fab])) (.refl _ _) rfl) rfl

theorem State.sledRelease_wf {s : State} {i : Nat} (h0 : Wf s) : Wf (State.sledRelease s i) :=
  .alters h0 (State.sledRelease_alters (ch := (Part.err ++ [Part.mem])) (.refl _ _) rfl) rfl

theorem State.writeFlash_wf {s d : State} {a v : Nat} (h0 : Wf d) (h1 : Wf s) : Wf (State.writeFlash s d a v) := by
  unfold State.writeFlash
  try dsimp only
  repeat' (
    first
    | intro _
    | with_reducible (first | assumption | apply Wf.ite | apply State.aperDisable_wf |
                            apply State.aperEnable_wf | apply State.sledAttach_wf | apply State.sledErase_wf |
                            apply State.sledRelease_wf | rfl)
    | split
    | dsimp only
    | simp only [id_eq]
  )

theorem State.enterRetrain_wf {s : State} {k : Nat} {ledger : Bool} (h0 : Wf s) : Wf (State.enterRetrain s k ledger)
    :=
  .alters h0 (State.enterRetrain_alters (ch := [.cells, .fab, .msix, .out]) (.refl _ _) rfl) rfl

theorem State.partPort_wf {s : State} {v : Nat} (h0 : Wf s) : Wf (State.partPort s v) :=
  .alters h0 (State.partPort_alters (ch := [.cells, .host]) (.refl _ _) rfl) rfl

theorem State.shiftRequest_wf {s : State} {r pcol : Nat} (h0 : Wf s) : Wf (State.shiftRequest s r pcol) :=
  .alters h0 (State.shiftRequest_alters (ch := (Part.err ++ [Part.clk, Part.tile, Part.mem, Part.queue, Part.sig, Part.nose, Part.part, Part.power])) (.refl _ _) rfl) rfl

theorem State.stackSpare_wf {s : State} {k c_ : Nat} {requested : Bool} (h0 : Wf s) : Wf (State.stackSpare s k c_
    requested) :=
  .alters h0 (State.stackSpare_alters (ch := (Part.err ++ [Part.mem, Part.part])) (.refl _ _) rfl) rfl

theorem State.steer_wf {s : State} (h0 : Wf s) : Wf (State.steer s) :=
  .alters h0 (State.steer_alters (ch := [.cells, .power]) (.refl _ _) rfl) rfl

theorem State.fwReady_wf {s : State} (h0 : Wf s) : Wf (State.fwReady s) :=
  .alters h0 (State.fwReady_alters (ch := [.free, .cells, .tag, .boot, .mgmt]) (.refl _ _) rfl) rfl

theorem State.kick_wf {s : State} {p : Path} (h0 : Wf s) : Wf (State.kick s p) :=
  .alters h0 (State.kick_alters (ch := [.boot]) (.refl _ _) rfl) rfl

theorem State.onBoot_wf {s : State} {g : BootSt → BootSt} (h0 : Wf s) : Wf (State.onBoot s g) :=
  .alters h0 (State.onBoot_alters (ch := [.boot]) (.refl _ _) rfl) rfl

theorem State.partQuiesce_wf {s : State} {p : Nat} (h0 : Wf s) : Wf (State.partQuiesce s p) :=
  .alters h0 (State.partQuiesce_alters (ch := [.cells, .part]) (.refl _ _) rfl) rfl

theorem State.partRun_wf {s : State} {p : Nat} (h0 : Wf s) : Wf (State.partRun s p) :=
  .alters h0 (State.partRun_alters (ch := (Part.err ++ [Part.part])) (.refl _ _) rfl) rfl

theorem State.prelClear_wf {s : State} (h0 : Wf s) : Wf (State.prelClear s) :=
  .alters h0 (State.prelClear_alters (ch := (Part.err ++ [Part.mem, Part.queue, Part.fab])) (.refl _ _) rfl) rfl

theorem State.warmReset_wf {s : State} (h0 : Wf s) : Wf (State.warmReset s) :=
  .alters h0 (State.warmReset_alters (ch := (Part.err ++ [Part.fab, Part.power])) (.refl _ _) rfl) rfl

theorem State.writeCfg_wf {_s d : State} {p : Path} {a v : Nat} (h0 : Wf d) (h1 : Wf _s) : Wf (State.writeCfg _s d p a
    v) := by
  unfold State.writeCfg
  try dsimp only
  repeat' (
    first
    | intro _
    | with_reducible (first | assumption | apply Wf.ite | apply State.fwReady_wf |
                            apply State.kick_wf | apply State.onBoot_wf | apply State.partQuiesce_wf |
                            apply State.partRun_wf | apply State.prelClear_wf | apply State.warmReset_wf | rfl)
    | split
    | dsimp only
    | simp only [id_eq]
  )

theorem State.emergGo_wf {s : State} {op : EmergOp} (h0 : Wf s) : Wf (State.emergGo s op) :=
  .alters h0 (State.emergGo_alters (ch := (Part.err ++ [Part.clk])) (.refl _ _) rfl) rfl

theorem State.writeClk_wf {_s d : State} {a v : Nat} (h0 : Wf d) (h1 : Wf _s) : Wf (State.writeClk _s d a v) := by
  unfold State.writeClk
  try dsimp only
  repeat' (
    first
    | intro _
    | with_reducible (first | assumption | apply Wf.ite | apply State.emergGo_wf |
                            apply State.wr_wf | rfl)
    | split
    | dsimp only
    | simp only [id_eq]
  )

theorem State.collAbort_wf {s : State} {n : Nat} (h0 : Wf s) : Wf (State.collAbort s n) :=
  .alters h0 (State.collAbort_alters (ch := (Part.err ++ [Part.queue, Part.sig, Part.nose, Part.coll, Part.fab])) (.refl _ _) rfl) rfl

theorem State.groupCfg_wf {s : State} {n v : Nat} (h0 : Wf s) : Wf (State.groupCfg s n v) :=
  .alters h0 (State.groupCfg_alters (ch := (Part.err ++ [Part.coll])) (.refl _ _) rfl) rfl

theorem State.writeColl_wf {s d : State} {g a v : Nat} (h0 : Wf d) (h1 : Wf s) : Wf (State.writeColl s d g a v) := by
  unfold State.writeColl
  try dsimp only
  repeat' (
    first
    | intro _
    | with_reducible (first | assumption | apply Wf.ite | apply State.collAbort_wf |
                            apply State.groupCfg_wf | apply State.raise_wf | rfl)
    | split
    | dsimp only
    | simp only [id_eq]
  )

theorem State.resume_wf {s : State} {q op : Nat} (h0 : Wf s) : Wf (State.resume s q op) :=
  .alters h0 (State.resume_alters (ch := (Part.err ++ [Part.queue, Part.sig, Part.nose])) (.refl _ _) rfl) rfl

theorem State.setPause_wf {s : State} {q : Nat} {b : Bool} (h0 : Wf s) : Wf (State.setPause s q b) :=
  .alters h0 (State.setPause_alters (ch := [.cells]) (.refl _ _) rfl) rfl

theorem State.tailWrite_wf {s : State} {q v : Nat} (h0 : Wf s) : Wf (State.tailWrite s q v) :=
  .alters h0 (State.tailWrite_alters (ch := (Part.err ++ [Part.queue, Part.sig, Part.nose])) (.refl _ _) rfl) rfl

theorem State.writeCq_wf {s d : State} {q a v : Nat} (h0 : Wf d) (h1 : Wf s) : Wf (State.writeCq s d q a v) := by
  unfold State.writeCq
  try dsimp only
  repeat' (
    first
    | intro _
    | with_reducible (first | assumption | apply Wf.ite | apply State.raise_wf |
                            apply State.resume_wf | apply State.setPause_wf | apply State.tailWrite_wf | rfl)
    | split
    | dsimp only
    | simp only [id_eq]
  )

theorem State.writeFields_wf {s : State} {a v : Nat} {row : RegRow} (h0 : Wf s) : Wf (State.writeFields s a v row) :=
  .alters h0 (State.writeFields_alters (ch := (Part.err ++ [Part.shadow])) (.refl _ _) rfl) rfl

theorem State.edge_wf {s before : State} {pg : Nat} (h0 : Wf s) : Wf (State.edge s before pg) :=
  .alters h0 (State.edge_alters (ch := [.msix, .out]) (.refl _ _) rfl) rfl

theorem State.softReset_wf {s : State} {pg : Nat} (h0 : Wf s) : Wf (State.softReset s pg) :=
  .alters h0 (State.softReset_alters (ch := (Part.err ++ [Part.commit, Part.tile, Part.stream, Part.queue, Part.pathVal, Part.power])) (.refl _ _) rfl) rfl

theorem State.writeEn_wf {s : State} {pg : Nat} {b : Bool} (h0 : Wf s) : Wf (State.writeEn s pg b) :=
  .alters h0 (State.writeEn_alters (ch := (Part.err ++ [Part.tile, Part.mem, Part.stream, Part.queue, Part.sig, Part.nose, Part.coll, Part.fab, Part.power, Part.host])) (.refl _ _) rfl) rfl

theorem State.writeHeader_wf {s d : State} {pg o v : Nat} (h0 : Wf d) (h1 : Wf s) : Wf (State.writeHeader s d pg o v)
    := by
  unfold State.writeHeader
  try dsimp only
  repeat' (
    first
    | intro _
    | with_reducible (first | assumption | apply Wf.ite | apply State.edge_wf |
                            apply State.softReset_wf | apply State.wr_wf | apply State.writeEn_wf | rfl)
    | split
    | dsimp only
    | simp only [id_eq]
  )

theorem State.ackOpen_wf {s : State} {charge token event : Bool} (h0 : Wf s) : Wf (State.ackOpen s charge token event)
    :=
  .alters h0 (State.ackOpen_alters (ch := [.cells]) (.refl _ _) rfl) rfl

theorem State.writeLedg_wf {_s d : State} {a v : Nat} (h0 : Wf d) (h1 : Wf _s) : Wf (State.writeLedg _s d a v) := by
  unfold State.writeLedg
  try dsimp only
  repeat' (
    first
    | intro _
    | with_reducible (first | assumption | apply Wf.ite | apply State.ackOpen_wf |
                            apply State.seal_wf | rfl)
    | split
    | dsimp only
    | simp only [id_eq]
  )

theorem State.beat_wf {s : State} {count : Nat} (h0 : Wf s) : Wf (State.beat s count) :=
  .alters h0 (State.beat_alters (ch := [.cells, .mgmt]) (.refl _ _) rfl) rfl

theorem State.onMgmt_wf {s : State} {g : MgmtSt → MgmtSt} (h0 : Wf s) : Wf (State.onMgmt s g) :=
  .alters h0 (State.onMgmt_alters (ch := [.mgmt]) (.refl _ _) rfl) rfl

theorem State.planTakeover_wf {s : State} {p : Path} (h0 : Wf s) : Wf (State.planTakeover s p) :=
  .alters h0 (State.planTakeover_alters (ch := (Part.err ++ [Part.mgmt, Part.life])) (.refl _ _) rfl) rfl

theorem State.writeMgmt_wf {s d : State} {mb : State → State} {p : Path} {a v : Nat} (h0 : Wf d) (h1 : Wf s) (hmb : ∀
    {u0}, Wf u0 → Wf (mb u0)) : Wf (State.writeMgmt s d mb p a v) := by
  unfold State.writeMgmt
  try dsimp only
  repeat' (
    first
    | intro _
    | with_reducible (first | assumption | apply Wf.ite | apply hmb | apply State.beat_wf |
                            apply State.onMgmt_wf | apply State.planTakeover_wf | apply State.raise_wf | rfl)
    | split
    | dsimp only
    | simp only [id_eq]
  )

theorem State.commitCtrl_wf {s : State} {path : Path} {parts : Nat} {glob : Bool} {op : Nat} (h0 : Wf s) : Wf
    (State.commitCtrl s path parts glob op) :=
  .alters h0 (State.commitCtrl_alters (ch := (Part.err ++ [Part.act, Part.commit, Part.clk, Part.tile, Part.queue, Part.coll, Part.fab, Part.power])) (.refl _ _) rfl) rfl

theorem State.join_wf {s : State} (h0 : Wf s) : Wf (State.join s) :=
  .alters h0 (State.join_alters (ch := [.cells, .fab, .out]) (.refl _ _) rfl) rfl

theorem State.leave_wf {s : State} (h0 : Wf s) : Wf (State.leave s) :=
  .alters h0 (State.leave_alters (ch := (Part.err ++ [Part.fab])) (.refl _ _) rfl) rfl

theorem State.mirrorSteps_wf {s : State} (h0 : Wf s) : Wf (State.mirrorSteps s) :=
  .alters h0 (State.mirrorSteps_alters (ch := [.cells]) (.refl _ _) rfl) rfl

theorem State.routeRead_wf {s : State} {n : Nat} (h0 : Wf s) : Wf (State.routeRead s n) :=
  .alters h0 (State.routeRead_alters (ch := [.cells]) (.refl _ _) rfl) rfl

theorem State.routeWrite_wf {s : State} {n : Nat} (h0 : Wf s) : Wf (State.routeWrite s n) :=
  .alters h0 (State.routeWrite_alters (ch := [.cells, .fab]) (.refl _ _) rfl) rfl

theorem State.sendEmerg_wf {s : State} (h0 : Wf s) : Wf (State.sendEmerg s) :=
  .alters h0 (State.sendEmerg_alters (ch := (Part.err ++ [Part.clk, Part.fab, Part.power])) (.refl _ _) rfl) rfl

theorem State.sendSnapBcast_wf {s : State} {tick : Nat} (h0 : Wf s) : Wf (State.sendSnapBcast s tick) :=
  .alters h0 (State.sendSnapBcast_alters (ch := (Part.err ++ [Part.fab])) (.refl _ _) rfl) rfl

theorem State.stepDisable_wf {s : State} {p : Nat} (h0 : Wf s) : Wf (State.stepDisable s p) :=
  .alters h0 (State.stepDisable_alters (ch := [.cells, .nose, .part]) (.refl _ _) rfl) rfl

theorem State.stepEnable_wf {s : State} {p : Nat} (h0 : Wf s) : Wf (State.stepEnable s p) :=
  .alters h0 (State.stepEnable_alters (ch := (Part.err ++ [Part.nose])) (.refl _ _) rfl) rfl

theorem State.writeMod_wf {s d : State} {p : Path} {a v : Nat} (h0 : Wf d) (h1 : Wf s) : Wf (State.writeMod s d p a v)
    := by
  unfold State.writeMod
  try dsimp only
  repeat' (
    first
    | intro _
    | with_reducible (first | assumption | apply Wf.ite | apply State.commitCtrl_wf |
                            apply State.join_wf | apply State.leave_wf | apply State.mirrorSteps_wf |
                            apply State.routeRead_wf | apply State.routeWrite_wf | apply State.sendEmerg_wf |
                            apply State.sendSnapBcast_wf | apply State.stepDisable_wf | apply State.stepEnable_wf | rfl)
    | split
    | dsimp only
    | simp only [id_eq]
  )

theorem State.fieldTest_wf {s : State} {test part : Nat} (h0 : Wf s) : Wf (State.fieldTest s test part) :=
  .alters h0 (State.fieldTest_alters (ch := (Part.err ++ [Part.nose])) (.refl _ _) rfl) rfl

theorem State.replayResume_wf {s : State} {p : Nat} (h0 : Wf s) : Wf (State.replayResume s p) :=
  .alters h0 (State.replayResume_alters (ch := [.cells, .part]) (.refl _ _) rfl) rfl

theorem State.writeNose_wf {s d : State} {a v : Nat} (h0 : Wf d) (h1 : Wf s) : Wf (State.writeNose s d a v) := by
  unfold State.writeNose
  try dsimp only
  repeat' (
    first
    | intro _
    | with_reducible (first | assumption | apply Wf.ite | apply State.fieldTest_wf |
                            apply State.replayResume_wf | rfl)
    | split
    | dsimp only
    | simp only [id_eq]
  )

theorem State.capRelease_wf {s : State} (h0 : Wf s) : Wf (State.capRelease s) :=
  .alters h0 (State.capRelease_alters (ch := (Part.err ++ [Part.clk, Part.power])) (.refl _ _) rfl) rfl

theorem State.envWritten_wf {s : State} {target ramp : Bool} (h0 : Wf s) : Wf (State.envWritten s target ramp) :=
  .alters h0 (State.envWritten_alters (ch := Part.err) (.refl _ _) rfl) rfl

theorem State.orderDrydown_wf {s : State} {pg : Nat} {e : Err} {src : Nat} (h0 : Wf s) : Wf (State.orderDrydown s pg e
    src) :=
  .alters h0 (State.orderDrydown_alters (ch := (Part.err ++ [Part.fab, Part.power, Part.life])) (.refl _ _) rfl) rfl

theorem State.parkGo_wf {s : State} {p : Nat} (h0 : Wf s) : Wf (State.parkGo s p) :=
  .alters h0 (State.parkGo_alters (ch := (Part.err ++ [Part.tile, Part.power])) (.refl _ _) rfl) rfl

theorem State.restoreGo_wf {s : State} (h0 : Wf s) : Wf (State.restoreGo s) :=
  .alters h0 (State.restoreGo_alters (ch := (Part.err ++ [Part.power])) (.refl _ _) rfl) rfl

theorem State.shedGo_wf {s : State} (h0 : Wf s) : Wf (State.shedGo s) :=
  .alters h0 (State.shedGo_alters (ch := [.cells, .clk, .msix, .power, .out]) (.refl _ _) rfl) rfl

theorem State.unparkGo_wf {s : State} {p : Nat} (h0 : Wf s) : Wf (State.unparkGo s p) :=
  .alters h0 (State.unparkGo_alters (ch := (Part.err ++ [Part.power])) (.refl _ _) rfl) rfl

theorem State.writePwr_wf {_s d : State} {a v : Nat} (h0 : Wf d) (h1 : Wf _s) : Wf (State.writePwr _s d a v) := by
  unfold State.writePwr
  try dsimp only
  repeat' (
    first
    | intro _
    | with_reducible (first | assumption | apply Wf.ite | apply State.capRelease_wf |
                            apply State.envWritten_wf | apply State.orderDrydown_wf | apply State.parkGo_wf |
                            apply State.restoreGo_wf | apply State.shedGo_wf | apply State.steer_wf |
                            apply State.unparkGo_wf | rfl)
    | split
    | dsimp only
    | simp only [id_eq]
  )

theorem State.ctxAlloc_wf {s : State} {p : Path} {part : Nat} (h0 : Wf s) : Wf (State.ctxAlloc s p part) :=
  .alters h0 (State.ctxAlloc_alters (ch := (Part.err ++ [Part.pathVal])) (.refl _ _) rfl) rfl

theorem State.ctxFree_wf {s : State} {c : Nat} (h0 : Wf s) : Wf (State.ctxFree s c) :=
  .alters h0 (State.ctxFree_alters (ch := Part.err) (.refl _ _) rfl) rfl

theorem State.placeOp_wf {s : State} {p : Path} {c : Nat} (h0 : Wf s) : Wf (State.placeOp s p c) :=
  .alters h0 (State.placeOp_alters (ch := (Part.err ++ [Part.mem, Part.pathVal])) (.refl _ _) rfl) rfl

theorem State.releaseOp_wf {s : State} {p : Path} {c : Nat} (h0 : Wf s) : Wf (State.releaseOp s p c) :=
  .alters h0 (State.releaseOp_alters (ch := (Part.err ++ [Part.mem, Part.pathVal])) (.refl _ _) rfl) rfl

theorem State.writeQuota_wf {s d : State} {p : Path} {a v : Nat} (h0 : Wf d) (h1 : Wf s) : Wf (State.writeQuota s d p
    a v) := by
  unfold State.writeQuota
  try dsimp only
  repeat' (
    first
    | intro _
    | with_reducible (first | assumption | apply Wf.ite | apply State.ctxAlloc_wf |
                            apply State.ctxFree_wf | apply State.placeOp_wf | apply State.raise_wf |
                            apply State.releaseOp_wf | rfl)
    | split
    | dsimp only
    | simp only [id_eq]
  )

theorem State.calloc_wf {s : State} {p : Path} {part count : Nat} (h0 : Wf s) : Wf (State.calloc s p part count) :=
  .alters h0 (State.calloc_alters (ch := (Part.err ++ [Part.sig, Part.pathVal])) (.refl _ _) rfl) rfl

theorem State.cfree_wf {s : State} {base count : Nat} (h0 : Wf s) : Wf (State.cfree s base count) :=
  .alters h0 (State.cfree_alters (ch := (Part.err ++ [Part.sig])) (.refl _ _) rfl) rfl

theorem State.ctrOp_wf {s : State} {i op : Nat} (h0 : Wf s) : Wf (State.ctrOp s i op) :=
  .alters h0 (State.ctrOp_alters (ch := (Part.err ++ [Part.queue, Part.sig, Part.nose])) (.refl _ _) rfl) rfl

theorem State.qalloc_wf {s : State} {p : Path} {part : Nat} (h0 : Wf s) : Wf (State.qalloc s p part) :=
  .alters h0 (State.qalloc_alters (ch := (Part.err ++ [Part.pathVal])) (.refl _ _) rfl) rfl

theorem State.qfree_wf {s : State} {q : Nat} (h0 : Wf s) : Wf (State.qfree s q) :=
  .alters h0 (State.qfree_alters (ch := (Part.err ++ [Part.queue])) (.refl _ _) rfl) rfl

theorem State.writeSig_wf {_s d : State} {p : Path} {a v : Nat} (h0 : Wf d) (h1 : Wf _s) : Wf (State.writeSig _s d p a
    v) := by
  unfold State.writeSig
  try dsimp only
  repeat' (
    first
    | intro _
    | with_reducible (first | assumption | apply Wf.ite | apply State.calloc_wf |
                            apply State.cfree_wf | apply State.ctrOp_wf | apply State.qalloc_wf | apply State.qfree_wf |
                            rfl)
    | split
    | dsimp only
    | simp only [id_eq]
  )

theorem State.tagRd_wf {s : State} {byte : Nat} (h0 : Wf s) : Wf (State.tagRd s byte) :=
  .alters h0 (State.tagRd_alters (ch := [.cells]) (.refl _ _) rfl) rfl

theorem State.tagWr_wf {s : State} {p : Path} {area : Nat} (h0 : Wf s) : Wf (State.tagWr s p area) :=
  .alters h0 (State.tagWr_alters (ch := Part.err) (.refl _ _) rfl) rfl

theorem State.writeTag_wf {s d : State} {p : Path} {a v : Nat} (h0 : Wf d) (h1 : Wf s) : Wf (State.writeTag s d p a v)
    := by
  unfold State.writeTag
  try dsimp only
  repeat' (
    first
    | intro _
    | with_reducible (first | assumption | apply Wf.ite | apply State.raise_wf |
                            apply State.tagRd_wf | apply State.tagWr_wf | rfl)
    | split
    | dsimp only
    | simp only [id_eq]
  )

theorem State.armCmp_wf {s : State} {tick : Nat} (h0 : Wf s) : Wf (State.armCmp s tick) :=
  .alters h0 (State.armCmp_alters (ch := [.cells]) (.refl _ _) rfl) rfl

theorem State.judgeSync_wf {s : State} (h0 : Wf s) : Wf (State.judgeSync s) :=
  .alters h0 (State.judgeSync_alters (ch := [.cells]) (.refl _ _) rfl) rfl

theorem State.snapSw_wf {s : State} {cmd : Option (Nat × Nat)} (h0 : Wf s) : Wf (State.snapSw s cmd) :=
  .alters h0 (State.snapSw_alters (ch := [.snap]) (.refl _ _) rfl) rfl

theorem State.tbSet_wf {s : State} (h0 : Wf s) : Wf (State.tbSet s) :=
  .alters h0 (State.tbSet_alters (ch := (Part.err ++ [Part.commit, Part.clk, Part.stream, Part.queue, Part.sig, Part.nose])) (.refl _ _) rfl) rfl

theorem State.writeTb_wf {_s d : State} {a v : Nat} (h0 : Wf d) (h1 : Wf _s) : Wf (State.writeTb _s d a v) := by
  unfold State.writeTb
  try dsimp only
  repeat' (
    first
    | intro _
    | with_reducible (first | assumption | apply Wf.ite | apply State.armCmp_wf |
                            apply State.judgeSync_wf | apply State.snapSw_wf | apply State.tbSet_wf | apply State.wr_wf |
                            rfl)
    | split
    | dsimp only
    | simp only [id_eq]
  )

theorem State.spadClear_wf {s : State} {t lines : Nat} (h0 : Wf s) : Wf (State.spadClear s t lines) :=
  .alters h0 (State.spadClear_alters (ch := (Part.err ++ [Part.tile])) (.refl _ _) rfl) rfl

theorem State.winAlloc_wf {s : State} {p : Path} {t : Nat} (h0 : Wf s) : Wf (State.winAlloc s p t) :=
  .alters h0 (State.winAlloc_alters (ch := (Part.err ++ [Part.pathVal])) (.refl _ _) rfl) rfl

theorem State.winClose_wf {s : State} {t n : Nat} (h0 : Wf s) : Wf (State.winClose s t n) :=
  .alters h0 (State.winClose_alters (ch := Part.err) (.refl _ _) rfl) rfl

theorem State.winFree_wf {s : State} {t n : Nat} (h0 : Wf s) : Wf (State.winFree s t n) :=
  .alters h0 (State.winFree_alters (ch := Part.err) (.refl _ _) rfl) rfl

theorem State.winOpen_wf {s : State} {t n : Nat} (h0 : Wf s) : Wf (State.winOpen s t n) :=
  .alters h0 (State.winOpen_alters (ch := Part.err) (.refl _ _) rfl) rfl

theorem State.writeTile_wf {s d : State} {p : Path} {t : Nat} {a v : Nat} (h0 : Wf d) (h1 : Wf s) : Wf
    (State.writeTile s d p t a v) := by
  unfold State.writeTile
  try dsimp only
  repeat' (
    first
    | intro _
    | with_reducible (first | assumption | apply Wf.ite | apply State.spadClear_wf |
                            apply State.winAlloc_wf | apply State.winClose_wf | apply State.winFree_wf |
                            apply State.winOpen_wf | rfl)
    | split
    | dsimp only
    | simp only [id_eq]
  )

theorem State.regWrite_wf {s : State} {mb : State → State} {p : Path} {a v : Nat} {row : RegRow} (h0 : Wf s) (hmb : ∀
    {u0}, Wf u0 → Wf (mb u0)) : Wf (State.regWrite s mb p a v row) := by
  unfold State.regWrite
  try dsimp only
  repeat' (
    first
    | intro _
    | with_reducible (first | assumption | apply Wf.ite | apply hmb | apply State.enterRetrain_wf |
                            apply State.partPort_wf | apply State.shiftRequest_wf | apply State.stackSpare_wf |
                            apply State.steer_wf | apply State.writeCfg_wf | apply State.writeClk_wf |
                            apply State.writeColl_wf | apply State.writeCq_wf | apply State.writeFields_wf |
                            apply State.writeFlash_wf | apply State.writeHeader_wf | apply State.writeLedg_wf |
                            apply State.writeMgmt_wf | apply State.writeMod_wf | apply State.writeNose_wf |
                            apply State.writePwr_wf | apply State.writeQuota_wf | apply State.writeSig_wf |
                            apply State.writeTag_wf | apply State.writeTb_wf | apply State.writeTile_wf | rfl)
    | split
    | dsimp only
    | simp only [id_eq]
  )

theorem State.regWrites_wf {s : State} {mb : State → State} {p : Path} {ws : List (Nat × Nat)} (h0 : Wf s) (hmb : ∀
    {u0}, Wf u0 → Wf (mb u0)) : Wf (State.regWrites s mb p ws) := by
  unfold State.regWrites
  try dsimp only
  repeat' (
    first
    | intro _
    | with_reducible (first | assumption | apply Wf.ite | apply Wf.foldl | apply hmb |
                            apply State.raise_wf | apply State.regWrite_wf | apply Wf.foldl1 | rfl)
    | split
    | dsimp only
    | simp only [id_eq]
  )

theorem State.setHalf_wf {s : State} {p : Path} {pg : Nat} {h : Option (Nat × Word)} (h0 : Wf s) : Wf (State.setHalf s
    p pg h) :=
  .alters h0 (State.setHalf_alters (ch := [.wbuf]) (.refl _ _) rfl) rfl

theorem State.pageWrite_wf {s : State} {mb : State → State} {p : Path} {a n v : Nat} (h0 : Wf s) (hmb : ∀ {u0}, Wf u0
    → Wf (mb u0)) : Wf (State.pageWrite s mb p a n v) := by
  unfold State.pageWrite
  try dsimp only
  repeat' (
    first
    | intro _
    | with_reducible (first | assumption | apply Wf.ite | apply hmb | apply State.discardHalf_wf |
                            apply State.regWrites_wf | apply State.setHalf_wf | rfl)
    | split
    | dsimp only
    | simp only [id_eq]
  )

theorem State.putPage_wf {s : State} {mb : State → State} {p : Path} {a n v : Nat} (h0 : Wf s) (hmb : ∀ {u0}, Wf u0 →
    Wf (mb u0)) : Wf (State.putPage s mb p a n v) := by
  unfold State.putPage
  try dsimp only
  repeat' (
    first
    | intro _
    | with_reducible (first | assumption | apply Wf.ite | apply hmb | apply State.onPage_wf |
                            apply State.pageWrite_wf | rfl)
    | split
    | dsimp only
    | simp only [id_eq]
  )

theorem State.badAccess_wf {s : State} {p : Path} {off : Nat} (h0 : Wf s) : Wf (State.badAccess s p off) :=
  .alters h0 (State.badAccess_alters (ch := Part.err) (.refl _ _) rfl) rfl

theorem State.when_wf {s : State} {c : Bool} {g : State → State} (h0 : Wf s) (hg : ∀ {u0}, Wf u0 → Wf (g u0)) : Wf
    (State.when s c g) := by
  unfold State.when
  try dsimp only
  repeat' (
    first
    | intro _
    | with_reducible (first | assumption | apply Wf.ite | apply hg | rfl)
    | split
    | dsimp only
    | simp only [id_eq]
  )

theorem State.busWrite_wf {s : State} {mb : State → State} {p : Path} {a n v : Nat} (h0 : Wf s) (hmb : ∀ {u0}, Wf u0 →
    Wf (mb u0)) : Wf (State.busWrite s mb p a n v) := by
  unfold State.busWrite
  try dsimp only
  repeat' (
    first
    | intro _
    | with_reducible (first | assumption | apply Wf.ite | apply hmb | apply State.badAccess_wf |
                            apply State.putPage_wf | apply State.when_wf | rfl)
    | split
    | dsimp only
    | simp only [id_eq]
  )

theorem State.programImage_wf {s : State} {slot off : Nat} {bs : List Byte} (h0 : Wf s) : Wf (State.programImage s
    slot off bs) :=
  .alters h0 (State.programImage_alters (ch := [.boot]) (.refl _ _) rfl) rfl

theorem State.readAll_wf {s : State} {offs : List Nat} (h0 : Wf s) : Wf (State.readAll s offs).1 :=
  .alters h0 (State.readAll_alters (ch := (Part.err ++ [Part.hold])) (.refl _ _) rfl) rfl

theorem bad_wf {s : State} (h0 : Wf s) : Wf (bad s).st :=
  .alters h0 (bad_alters (ch := []) (.refl _ _) rfl) rfl

theorem refused_wf {s : State} {code : Nat} (h0 : Wf s) : Wf (refused s code).st :=
  .alters h0 (refused_alters (ch := []) (.refl _ _) rfl) rfl

theorem refusedOpen_wf {s : State} (h0 : Wf s) : Wf (refusedOpen s).st :=
  .alters h0 (refusedOpen_alters (ch := [.free]) (.refl _ _) rfl) rfl

theorem State.serve_wf {s : State} {mb : State → State} {q : IcordReq} (h0 : Wf s) (hmb : ∀ {u0}, Wf u0 → Wf (mb u0))
    : Wf (State.serve s mb q).st := by
  unfold State.serve
  try dsimp only
  repeat' (
    first
    | intro _
    | with_reducible (first | assumption | apply Wf.ite | apply Wf.foldl | apply hmb |
                            apply State.bump_wf | apply State.busWrite_wf | apply State.fieldTest_wf |
                            apply State.onBoot_wf | apply State.onWrite_wf | apply State.programImage_wf |
                            apply State.readAll_wf | apply State.restoreGo_wf | apply State.shedGo_wf |
                            apply State.tagWr_wf | apply State.wr_wf | apply bad_wf | apply refused_wf |
                            apply refusedOpen_wf | apply Wf.foldl1 | apply Wf.of_pair (by assumption) | rfl)
    | split
    | dsimp only
    | simp only [id_eq]
  )

theorem State.answerBusy_wf {s : State} {h : IcordHdr} {type ms : Nat} (h0 : Wf s) : Wf (State.answerBusy s h type ms)
    :=
  .alters h0 (State.answerBusy_alters (ch := [.cells, .out]) (.refl _ _) rfl) rfl

theorem State.deny_wf {s : State} {h : IcordHdr} {type : Nat} (h0 : Wf s) : Wf (State.deny s h type) :=
  .alters h0 (State.deny_alters (ch := Part.err) (.refl _ _) rfl) rfl

theorem State.reply_wf {s : State} {h : IcordHdr} {type status retry : Nat} {b : IcordBody} (h0 : Wf s) : Wf
    (State.reply s h type status retry b) :=
  .alters h0 (State.reply_alters (ch := [.out]) (.refl _ _) rfl) rfl

theorem State.takeSeq_wf {s : State} {i seq : Nat} (h0 : Wf s) : Wf (State.takeSeq s i seq) :=
  .alters h0 (State.takeSeq_alters (ch := [.mgmt]) (.refl _ _) rfl) rfl

theorem State.icordRequest_wf {s : State} {mb : State → State} {h : IcordHdr} {q : IcordReq} (h0 : Wf s) (hmb : ∀
    {u0}, Wf u0 → Wf (mb u0)) : Wf (State.icordRequest s mb h q) := by
  unfold State.icordRequest
  try dsimp only
  repeat' (
    first
    | intro _
    | with_reducible (first | assumption | apply Wf.ite | apply hmb | apply State.answerBusy_wf |
                            apply State.deny_wf | apply State.reply_wf | apply State.serve_wf | apply State.takeSeq_wf |
                            apply bad_wf | rfl)
    | split
    | dsimp only
    | simp only [id_eq]
  )

theorem State.mboxDone_wf {s : State} {status retry : Nat} (h0 : Wf s) : Wf (State.mboxDone s status retry) :=
  .alters h0 (State.mboxDone_alters (ch := [.cells, .msix, .out]) (.refl _ _) rfl) rfl

theorem State.respBody_wf {s : State} {b : IcordBody} (h0 : Wf s) : Wf (State.respBody s b) :=
  .alters h0 (State.respBody_alters (ch := [.free, .cells]) (.refl _ _) rfl) rfl

theorem State.mboxServe_wf {s : State} {busy : Option Nat} (h0 : Wf s) : Wf (State.mboxServe s busy) := by
  unfold State.mboxServe
  try dsimp only
  repeat' (
    first
    | intro _
    | with_reducible (first | assumption | apply Wf.ite | apply State.mboxDone_wf |
                            apply State.respBody_wf | apply State.serve_wf | rfl)
    | split
    | dsimp only
    | simp only [id_eq]
  )

theorem State.mboxGo_wf {s : State} {busy : Option Nat} (h0 : Wf s) : Wf (State.mboxGo s busy) := by
  unfold State.mboxGo
  try dsimp only
  repeat' (
    first
    | intro _
    | with_reducible (first | assumption | apply Wf.ite | apply State.mboxDone_wf |
                            apply State.mboxServe_wf | apply State.raise_wf | apply State.respBody_wf | apply State.wr_wf |
                            rfl)
    | split
    | dsimp only
    | simp only [id_eq]
  )

theorem mailbox_wf {s : State} (h0 : Wf s) : Wf (mailbox s) := by
  unfold mailbox
  try dsimp only
  repeat' (
    first
    | intro _
    | with_reducible (first | assumption | apply Wf.ite | apply State.mboxGo_wf | rfl)
    | split
    | dsimp only
    | simp only [id_eq]
  )

theorem execMboxRequest_wf {p : Path} {type len : BitVec 8} {busy : Option Nat} {s : State} {t0} (e : execMboxRequest
    p type len busy s = .next t0) (h0 : Wf s) : Wf t0 := by
  unfold execMboxRequest at e
  try dsimp only at e
  repeat' split at e
  all_goals (injection e with e; subst e)
  all_goals try dsimp only
  repeat' (
    first
    | intro _
    | with_reducible (first | assumption | apply Wf.ite | apply State.mboxGo_wf |
                            apply State.onWrite_wf | apply State.raise_wf | apply State.wr_wf | rfl)
    | split
    | dsimp only
    | simp only [id_eq]
  )

theorem execRegRead_wf {h : IcordHdr} {offs : List (BitVec 26)} {s : State} {t0} (e : execRegRead h offs s = .next t0)
    (h0 : Wf s) : Wf t0 := by
  unfold execRegRead at e
  try dsimp only at e
  repeat' split at e
  all_goals (injection e with e; subst e)
  all_goals try dsimp only
  repeat' (
    first
    | intro _
    | with_reducible (first | assumption | apply Wf.ite | apply State.icordRequest_wf |
                            apply mailbox_wf | rfl)
    | split
    | dsimp only
    | simp only [id_eq]
  )

theorem execRegWrite_wf {h : IcordHdr} {ws : List (BitVec 26 × Word)} {s : State} {t0} (e : execRegWrite h ws s =
    .next t0) (h0 : Wf s) : Wf t0 := by
  unfold execRegWrite at e
  try dsimp only at e
  repeat' split at e
  all_goals (injection e with e; subst e)
  all_goals try dsimp only
  repeat' (
    first
    | intro _
    | with_reducible (first | assumption | apply Wf.ite | apply State.icordRequest_wf |
                            apply mailbox_wf | rfl)
    | split
    | dsimp only
    | simp only [id_eq]
  )

theorem execEnvelope_wf {h : IcordHdr} {target ramp : BitVec 16} {s : State} {t0} (e : execEnvelope h target ramp s =
    .next t0) (h0 : Wf s) : Wf t0 := by
  unfold execEnvelope at e
  try dsimp only at e
  repeat' split at e
  all_goals (injection e with e; subst e)
  all_goals try dsimp only
  repeat' (
    first
    | intro _
    | with_reducible (first | assumption | apply Wf.ite | apply State.icordRequest_wf |
                            apply mailbox_wf | rfl)
    | split
    | dsimp only
    | simp only [id_eq]
  )

theorem execIcordShed_wf {h : IcordHdr} {op : BitVec 2} {epoch : DWord} {s : State} {t0} (e : execIcordShed h op epoch
    s = .next t0) (h0 : Wf s) : Wf t0 := by
  unfold execIcordShed at e
  try dsimp only at e
  repeat' split at e
  all_goals (injection e with e; subst e)
  all_goals try dsimp only
  repeat' (
    first
    | intro _
    | with_reducible (first | assumption | apply Wf.ite | apply State.icordRequest_wf |
                            apply mailbox_wf | rfl)
    | split
    | dsimp only
    | simp only [id_eq]
  )

theorem execIcordFieldTest_wf {h : IcordHdr} {test part : BitVec 3} {s : State} {t0} (e : execIcordFieldTest h test
    part s = .next t0) (h0 : Wf s) : Wf t0 := by
  unfold execIcordFieldTest at e
  try dsimp only at e
  repeat' split at e
  all_goals (injection e with e; subst e)
  all_goals try dsimp only
  repeat' (
    first
    | intro _
    | with_reducible (first | assumption | apply Wf.ite | apply State.icordRequest_wf |
                            apply mailbox_wf | rfl)
    | split
    | dsimp only
    | simp only [id_eq]
  )

theorem execImageWrite_wf {h : IcordHdr} {slot : Fin 2} {off : BitVec 25} {bs : List Byte} {s : State} {t0} (e :
    execImageWrite h slot off bs s = .next t0) (h0 : Wf s) : Wf t0 := by
  unfold execImageWrite at e
  try dsimp only at e
  repeat' split at e
  all_goals (injection e with e; subst e)
  all_goals try dsimp only
  repeat' (
    first
    | intro _
    | with_reducible (first | assumption | apply Wf.ite | apply State.icordRequest_wf |
                            apply mailbox_wf | rfl)
    | split
    | dsimp only
    | simp only [id_eq]
  )

theorem execImageSelect_wf {h : IcordHdr} {slot : Fin 2} {s : State} {t0} (e : execImageSelect h slot s = .next t0)
    (h0 : Wf s) : Wf t0 := by
  unfold execImageSelect at e
  try dsimp only at e
  repeat' split at e
  all_goals (injection e with e; subst e)
  all_goals try dsimp only
  repeat' (
    first
    | intro _
    | with_reducible (first | assumption | apply Wf.ite | apply State.icordRequest_wf |
                            apply mailbox_wf | rfl)
    | split
    | dsimp only
    | simp only [id_eq]
  )

theorem execTagRead_wf {h : IcordHdr} {off len : BitVec 16} {s : State} {t0} (e : execTagRead h off len s = .next t0)
    (h0 : Wf s) : Wf t0 := by
  unfold execTagRead at e
  try dsimp only at e
  repeat' split at e
  all_goals (injection e with e; subst e)
  all_goals try dsimp only
  repeat' (
    first
    | intro _
    | with_reducible (first | assumption | apply Wf.ite | apply State.icordRequest_wf |
                            apply mailbox_wf | rfl)
    | split
    | dsimp only
    | simp only [id_eq]
  )

theorem execTagWrite_wf {h : IcordHdr} {area : BitVec 2} {bs : List Byte} {s : State} {t0} (e : execTagWrite h area bs
    s = .next t0) (h0 : Wf s) : Wf t0 := by
  unfold execTagWrite at e
  try dsimp only at e
  repeat' split at e
  all_goals (injection e with e; subst e)
  all_goals try dsimp only
  repeat' (
    first
    | intro _
    | with_reducible (first | assumption | apply Wf.ite | apply State.icordRequest_wf |
                            apply mailbox_wf | rfl)
    | split
    | dsimp only
    | simp only [id_eq]
  )

theorem execLifeRead_wf {h : IcordHdr} {kind idx : Nat} {s : State} {t0} (e : execLifeRead h kind idx s = .next t0)
    (h0 : Wf s) : Wf t0 := by
  unfold execLifeRead at e
  try dsimp only at e
  repeat' split at e
  all_goals (injection e with e; subst e)
  all_goals try dsimp only
  repeat' (
    first
    | intro _
    | with_reducible (first | assumption | apply Wf.ite | apply State.icordRequest_wf |
                            apply mailbox_wf | rfl)
    | split
    | dsimp only
    | simp only [id_eq]
  )

theorem execLedgerRead_wf {h : IcordHdr} {s : State} {t0} (e : execLedgerRead h s = .next t0) (h0 : Wf s) : Wf t0 :=
    by
  unfold execLedgerRead at e
  try dsimp only at e
  repeat' split at e
  all_goals (injection e with e; subst e)
  all_goals try dsimp only
  repeat' (
    first
    | intro _
    | with_reducible (first | assumption | apply Wf.ite | apply State.icordRequest_wf |
                            apply mailbox_wf | rfl)
    | split
    | dsimp only
    | simp only [id_eq]
  )

theorem execLogRead_wf {h : IcordHdr} {idx : Nat} {s : State} {t0} (e : execLogRead h idx s = .next t0) (h0 : Wf s) :
    Wf t0 := by
  unfold execLogRead at e
  try dsimp only at e
  repeat' split at e
  all_goals (injection e with e; subst e)
  all_goals try dsimp only
  repeat' (
    first
    | intro _
    | with_reducible (first | assumption | apply Wf.ite | apply State.icordRequest_wf |
                            apply mailbox_wf | rfl)
    | split
    | dsimp only
    | simp only [id_eq]
  )

theorem State.classZero_wf {s : State} {h : IcordHdr} {type : Nat} {g : State → State} (h0 : Wf s) (hg : ∀ {u0}, Wf u0
    → Wf (g u0)) : Wf (State.classZero s h type g) := by
  unfold State.classZero
  try dsimp only
  repeat' (
    first
    | intro _
    | with_reducible (first | assumption | apply Wf.ite | apply hg | apply State.deny_wf |
                            apply State.reply_wf | apply State.takeSeq_wf | rfl)
    | split
    | dsimp only
    | simp only [id_eq]
  )

theorem execPowerOff_wf {h : IcordHdr} {s : State} {t0} (e : execPowerOff h s = .next t0) (h0 : Wf s) : Wf t0 := by
  unfold execPowerOff at e
  try dsimp only at e
  repeat' split at e
  all_goals (injection e with e; subst e)
  all_goals try dsimp only
  repeat' (
    first
    | intro _
    | with_reducible (first | assumption | apply Wf.ite | apply State.classZero_wf |
                            apply State.icordRequest_wf | apply State.orderDrydown_wf | apply mailbox_wf | rfl)
    | split
    | dsimp only
    | simp only [id_eq]
  )

theorem execIcordWarmReset_wf {h : IcordHdr} {s : State} {t0} (e : execIcordWarmReset h s = .next t0) (h0 : Wf s) : Wf
    t0 := by
  unfold execIcordWarmReset at e
  try dsimp only at e
  repeat' split at e
  all_goals (injection e with e; subst e)
  all_goals try dsimp only
  repeat' (
    first
    | intro _
    | with_reducible (first | assumption | apply Wf.ite | apply State.classZero_wf |
                            apply State.icordRequest_wf | apply State.warmReset_wf | apply mailbox_wf | rfl)
    | split
    | dsimp only
    | simp only [id_eq]
  )

theorem State.handover_wf {s : State} {c : Port} (h0 : Wf s) : Wf (State.handover s c) :=
  .alters h0 (State.handover_alters (ch := (Part.err ++ [Part.mgmt])) (.refl _ _) rfl) rfl

theorem State.pathWrite_wf {s : State} {p : Path} {off n v : Nat} (h0 : Wf s) : Wf (State.pathWrite s p off n v) := by
  unfold State.pathWrite
  try dsimp only
  repeat' (
    first
    | intro _
    | with_reducible (first | assumption | apply Wf.ite | apply State.busWrite_wf |
                            apply State.handover_wf | apply mailbox_wf | rfl)
    | split
    | dsimp only
    | simp only [id_eq]
  )

theorem State.barWrite_wf {s : State} {p : Path} {a n v : Nat} (h0 : Wf s) : Wf (State.barWrite s p a n v) :=
  .alters h0 (State.barWrite_alters (ch := (Part.err ++ [Part.queue, Part.sig, Part.nose, Part.part, Part.host])) (.refl _ _) rfl) rfl

theorem execRegisterWrite_wf {p : Path} {off : BitVec 26} {wide bar2 : Bool} {v : DWord} {s : State} {t0} (e :
    execRegisterWrite p off wide bar2 v s = .next t0) (h0 : Wf s) : Wf t0 := by
  unfold execRegisterWrite at e
  try dsimp only at e
  repeat' split at e
  all_goals (injection e with e; subst e)
  all_goals try dsimp only
  repeat' (
    first
    | intro _
    | with_reducible (first | assumption | apply Wf.ite | apply State.barWrite_wf |
                            apply State.pathWrite_wf | rfl)
    | split
    | dsimp only
    | simp only [id_eq]
  )

theorem execLowHalfWrite_wf {p : Path} {off : BitVec 26} {v : Word} {s : State} {t0} (e : execLowHalfWrite p off v s =
    .next t0) (h0 : Wf s) : Wf t0 := by
  unfold execLowHalfWrite at e
  try dsimp only at e
  repeat' split at e
  all_goals (injection e with e; subst e)
  all_goals try dsimp only
  repeat' (
    first
    | intro _
    | with_reducible (first | assumption | apply Wf.ite | apply State.pathWrite_wf | rfl)
    | split
    | dsimp only
    | simp only [id_eq]
  )

theorem execHighHalfWrite_wf {p : Path} {off : BitVec 26} {v : Word} {s : State} {t0} (e : execHighHalfWrite p off v s
    = .next t0) (h0 : Wf s) : Wf t0 := by
  unfold execHighHalfWrite at e
  try dsimp only at e
  repeat' split at e
  all_goals (injection e with e; subst e)
  all_goals try dsimp only
  repeat' (
    first
    | intro _
    | with_reducible (first | assumption | apply Wf.ite | apply State.pathWrite_wf | rfl)
    | split
    | dsimp only
    | simp only [id_eq]
  )

theorem State.clkEdge_wf {s : State} (h0 : Wf s) : Wf (State.clkEdge s) :=
  .alters h0 (State.clkEdge_alters (ch := (Part.err ++ [Part.commit, Part.clk, Part.stream, Part.queue, Part.sig, Part.nose])) (.refl _ _) rfl) rfl

theorem State.hostTurn_wf {s : State} {port : Port} (h0 : Wf s) : Wf (State.hostTurn s port) :=
  .alters h0 (State.hostTurn_alters (ch := [.cells, .mem, .queue, .host, .out]) (.refl _ _) rfl) rfl

theorem State.idle_wf {s : State} (h0 : Wf s) : Wf (State.idle s) := by
  unfold State.idle
  try dsimp only
  repeat' (
    first
    | intro _
    | with_reducible (first | assumption | apply Wf.ite | apply State.clkEdge_wf |
                            apply State.hostTurn_wf | apply State.mboxServe_wf | rfl)
    | split
    | dsimp only
    | simp only [id_eq]
  )

end Sys2Proof.Machine
end

