-- ==== Sys2Proof/WellFormed.lean ====
section
/-! DEFINITION. Which commands are well formed: the operands that a port could carry. A command that is not well formed is
run all the same, and is answered or ignored as its rule says. -/

namespace Sys2Proof

/-- Whether the lists of a command have the lengths that its rule allows: the bodies of Icord requests (R463), the physical
tiles and a sled's histogram (R475, R476), a domain's sensors (R405), the cassettes and domains of a power window (R408).
Other commands carry operands of their fields' own widths. -/
def WellFormed (i : Instr) : Bool :=
  match i with
  | .regRead _ offs => decide (offs.length ≤ 64)
  | .regWrite _ ws => decide (ws.length ≤ 32)
  | .imageWrite _ _ off bs => decide (bs.length ≤ 1024 ∧ off.toNat + bs.length ≤ 2 ^ 25)
  | .tagRead _ off len => decide (len.toNat ≤ 1024 ∧ off.toNat + len.toNat ≤ 8192)
  | .tagWrite _ _ bs => decide (bs.length = 32)
  | .mboxRequest _ _ len _ => decide (len.toNat ≤ 64)
  | .lifetimeRecord (.ageing l) _ => decide (l.length = 1008)
  | .lifetimeRecord (.wear _ _ _ _ h) _ => decide (h.length = 16)
  | .ageingOffset l => decide (l.length = 1008)
  | .powerWindow w => decide (w.cass.length = 14 ∧ w.doms.length = 84 ∧ w.acc.length = 5)
  | .badAccess _ off n _ => decide (off.toNat % n ≠ 0 ∨ n ≠ 4 ∧ n ≠ 8)
  | _ => true

end Sys2Proof
end

