-- ==== Sys2Proof/Tests/Slice0.lean ====
section
/-! SUPPORT. Small tests: ill-formed commands, single steps, and for each statement with hypotheses a state and operands that
meet them. -/

set_option Elab.async false
set_option linter.all false

namespace Sys2Proof.Tests

open Sys2Proof Sys2Proof.Machine

/-! ### Commands that are not well formed -/

/-- A header of a request, for the tests below. -/
def hdrT : IcordHdr := ⟨.a, 0, 0x55, 7, none, none⟩

theorem test_regRead_too_long : WellFormed (.regRead hdrT (List.replicate 65 0)) = false := by decide
theorem test_regWrite_too_long : WellFormed (.regWrite hdrT (List.replicate 33 (0, 0))) = false := by decide
theorem test_imageWrite_outside : WellFormed (.imageWrite hdrT 1 0x1FFFFFF [0, 0]) = false := by decide
theorem test_tagRead_outside : WellFormed (.tagRead hdrT 8000 256) = false := by decide
theorem test_tagWrite_short : WellFormed (.tagWrite hdrT 1 [0]) = false := by decide
theorem test_mboxRequest_too_long : WellFormed (.mboxRequest (.sideband .a) 0x10 65 none) = false := by decide
theorem test_ageing_record_short : WellFormed (.lifetimeRecord (.ageing [1]) true) = false := by decide
theorem test_wear_record_short : WellFormed (.lifetimeRecord (.wear 1 5 7 9 []) true) = false := by decide
theorem test_ageingOffset_short : WellFormed (.ageingOffset [1]) = false := by decide
theorem test_powerWindow_short : WellFormed (.powerWindow ⟨900, 1000, [], [], [], 3, true, []⟩) = false := by decide
theorem test_badAccess_aligned : WellFormed (.badAccess (.sideband .a) 0x1000 4 true) = false := by decide
theorem test_regRead_well_formed : WellFormed (.regRead hdrT [0]) = true := by decide

/-! ### Values the spec gives -/

/-- The check value of R372. -/
theorem test_seal_of_check_string :
    sealOf [0x31, 0x32, 0x33, 0x34, 0x35, 0x36, 0x37, 0x38, 0x39] = 0xE3069283 := by decide +kernel

/-- The fuses of the reset state carry their own CRC (R430). -/
theorem test_fuse_crc : State.reset.rd R.FUSE.CRC = Fuses.reset.crc := by decide +kernel

/-- SUPPLY_CEIL for 14, 11, 3, 2 and 1 healthy cassettes (R401). -/
theorem test_supply_ceil :
    [14, 11, 3, 2, 1].map supplyCeil = [34000, 30000, 6000, 3000, 0] := by decide

/-- Reading levels of the inlet at grade C (R421). -/
theorem test_inlet_warns : (readingLevels (.inlet .a 0) false).warn = 41 := by decide

/-- An idle step is one tick of TIME (R76). -/
theorem test_idle_step_ticks : (match step State.reset with | .next t => t.time | _ => 0) = 1 := by decide +kernel

/-- A technician's block is written, a journal block is locked (R478). -/
theorem test_rf_write_areas :
    (match execWriteSingleBlock 0x500 1 State.reset with | .next t => t.out | _ => []) = [.rf .written] ∧
    (match execWriteSingleBlock 0x140 1 State.reset with | .next t => t.out | _ => []) = [.rf .locked] := by decide +kernel


/-! ### States that meet the statements' premises -/

/-- `s` at tick `n`, with as many edges counted. -/
def later (n : Nat) (s : State) : State :=
  let a := s.wr R.TB.TIME n
  { a with clk := { a.clk with edges := n } }

/-- `s` with `v` in the active copy of the staged field `f`. -/
def setAct (s : State) (f : Fld) (v : Nat) : State :=
  { s with regs := { s.regs with act := Cells.put f.rst s.regs.act f.key v } }

/-- A state whose partition 1 has row 1, due to move to fraction 16. -/
def inPart : State :=
  setAct (setAct (setAct State.reset (R.MOD.PART_DEF.VALID 1) 1) (R.MOD.PART_DEF.FIRST_ROW 1) 1) (R.MOD.PART_DEF.ROWS 1) 1

/-- A master is heard on port A, which is the slave port. -/
def annT : Announce := ⟨0, 1, 2, 3, 4, 5, 6, 7, 8, 9, 37⟩
def ptpUp : State := { State.reset.wr R.TB.PTP_CFG.PORT_EN 3 with ptp := { State.reset.ptp with heard := [⟨.a, false, annT⟩] } }

/-- A state with an emergency release pending whose epoch has come. -/
def emergDue : State := { State.reset with clk := { State.reset.clk with pending := some ⟨false, 3, 0, 0⟩ } }

/-- A state whose tile 3 has window 2 open, 64 words from word 256. -/
def openWin : State :=
  ((State.reset.wr (R.TILE.SPAD_WIN_CTRL.STATE 3 2) 2).wr (R.TILE.SPAD_WIN_BASE 3 2) 256).wr (R.TILE.SPAD_WIN_LIMIT 3 2) 320

/-- `s` with one write of `ws` admitted to window 2 of tile 3. -/
def landing (s : State) (ws : List Word) : State := { s with tile := { s.tile with landing := [⟨3, 2, 0, ws, .tile 5, none, 0, 512, sealsOf 512 (bytesOfWords ws)⟩] } }
def landing1 : State := landing (openWin.wr (R.TILE.SPAD_WIN_SIG.SIG_EN 3 2) 1) [1, 2, 3]

/-- A triple of zeros, as the 128 words of its slot, waits for an accumulate window. -/
def landing2 : State :=
  landing (openWin.wr (R.TILE.SPAD_WIN_CTRL.MODE 3 2) 1) (List.replicate 128 0)

/-- The oldest write that has been admitted and has not landed. -/
def headLanding (s : State) : Landing := s.tile.landing.headD ⟨0, 0, 0, [], .tile 0, none, 0, 0, []⟩

/-- The seals of bytes match them. -/
theorem badSpans_sealsOf (f : Nat) (bs : List Byte) : badSpans f bs (sealsOf f bs) = [] := by
  unfold badSpans
  rw [List.map_eq_nil_iff, List.filter_eq_nil_iff]
  intro x hx
  have h := List.mem_zipIdx' hx
  have e : (sealsOf f bs)[x.2]? = some (sealOf ((bs.drop x.1.1).take x.1.2)) := by
    rw [sealsOf, List.getElem?_map, List.getElem?_eq_getElem h.1, ← h.2]
    rfl
  exact fun c => of_decide_eq_true c e

theorem landing_seals (s : State) (ws : List Word) :
    badSpans (headLanding (landing s ws)).first (bytesOfWords (headLanding (landing s ws)).words) (headLanding (landing s ws)).seals = [] :=
  badSpans_sealsOf 512 (bytesOfWords ws)

theorem landing2_wire (bs : List Byte) : (landing2.onWire bs).2 = bs := rfl

theorem landing2_seals : badSpans (headLanding landing2).first (landing2.onWire (bytesOfWords (headLanding landing2).words)).2
    (headLanding landing2).seals = [] := by
  rw [landing2_wire]
  exact landing_seals _ _

/-- A clear of line 16 of tile 3 is in progress. -/
def clearing1 : State :=
  let u := (openWin.spadWrites 3 250 [7, 7, 7, 7, 7, 7, 7]).wr (R.TILE.SPAD_STAT.CLEARING 3) 1
  { u with tile := { u.tile with clears := Cells.put (0, 0) u.tile.clears 3 (16, 1) } }

/-- Host memory with the bytes of `v` at `a`. -/
def hostBytes (s : State) (a n v : Nat) : State :=
  let h := s.mem.host
  { s with mem := { s.mem with
    host := (h.filter fun c => decide (c.1 < a)) ++ (List.range n).map (fun i => (a + i, BitVec.ofNat 8 (v / 256 ^ i))) ++
      h.filter fun c => decide (a + n ≤ c.1) } }

/-- A record with the value `x.2` from byte `x.1` of each item. -/
def record (l : List (Nat × Nat)) : Nat := l.foldl (fun a x => a + x.2 * 256 ^ x.1) 0

/-- The module runs, with partition 1 of row 1, and queue 5 in it, its ring of 64 entries at host byte 0x1000;
counters 3 and 4 are allocated. -/
def running : State :=
  let s := setAct (setAct (inPart.wr R.MOD.STATE 3) (R.MOD.CQ_ASSIGN 5) 1) (R.MOD.SIG_RANGE.COUNT 1) 64
  let a := (((s.wr (R.MOD.PART_STATE 1) 4).wr (R.HOST.PORT_STAT.ATTACHED 0) 1).wr (R.PG.CTRL.EN (pgCQ 5)) 1).wr (R.CQ.STAT.CLAIMED 5) 1
  let b := (a.wr (R.CQ.BASE 5) (2 ^ 60 + 0x1000)).wr (R.PG.VER.PROFILES pgMOD) 3
  { b with sig := { b.sig with alloc := Cells.put false (Cells.put false b.sig.alloc 3 true) 4 true } }

/-- `running` with the command `e` at the head of queue 5, and the descriptor `d` at host byte 0x2000. -/
def queued (e d : Nat) : State := hostBytes (hostBytes (running.wr (R.CQ.TAIL 5) 1) 0x1000 64 e) 0x2000 128 d

/-- A COMPUTE of operation `op` with CFLAGS `c`, profile `p`, on tile 40, whose descriptor is at host byte 0x2000. -/
def mmCmd (op c : Nat) (p : Nat := 2) : Nat := record [(0, 1 + 16 * p + 256 * op), (2, 7), (16, 40), (24, 2 ^ 60 + 0x2000), (32, c)]

/-- A descriptor: formats, flags, bounds and the places of its arrays. -/
def desc (a b o fl m n k : Nat) : Nat :=
  record [(0, 0x43445331), (4, a), (5, b), (6, o), (7, fl), (8, m), (12, n), (16, k), (24, k), (48, 8192)]
def matmulDesc : Nat := desc 1 1 0 0 1 1 1
def anchorOnlyDesc : Nat := desc 1 1 0 0 1 1 1
def mapCmdDesc : Nat := desc 0 255 0 0 1 1 1
def reduceDesc : Nat := desc 0 255 0 0 1 1 1
def listBuildDesc : Nat := desc 0 255 8 1 1 1 1
def convertDesc : Nat := desc 0 255 1 0 1 1 1
def prunedConvertDesc : Nat := desc 1 255 1 1 1 1 1
def recipeLoadDesc : Nat := desc 0 255 0 0 1 1 1

/-- The work of the command at the head of queue 5. -/
def workAt (s : State) (e : Nat) : Work :=
  match (s.computeChecks 5 e).2 with
  | .ok x => x
  | .error _ => workOf 0 0

/-- A recipe of one cell and no port stands in slot 0 of tile 40. -/
def withRecipe (s : State) : State :=
  { s.wr (R.TILE.ACCORD_SLOT.VALID 40 0) 1 with
    tile := { s.tile with recipes := Cells.put [] s.tile.recipes 160 (List.replicate 16 1) } }

/-- A STREAM of operation `op` and KIND `kind`: its addresses, rows, bytes and source stride. -/
def stCmd (op kind src dst rows bytes stride : Nat) : Nat :=
  record [(0, 2 + 256 * op), (16, src), (24, dst), (32, rows), (36, bytes), (40, stride), (52, 0xFFFF), (55, 16 * kind)]

/-- Sillage engine 0 belongs to partition 1 and is supplied. -/
def engined (s : State) : State :=
  let u := setAct s (R.MOD.SILL_ASSIGN 0) 1
  { u with power := { u.power with rails := Cells.put false u.power.rails 512 true } }

/-- The STREAM of the command `e` of queue 5. -/
def streamAt (s : State) (e : Nat) : StreamWork := ((s.streamChecks 5 e).toOption).getD (streamOf e)

/-- Queue 5 holds every transfer slot it may. -/
def noSlot (s : State) : State := { s with stream := { s.stream with held := Cells.put 0 s.stream.held 5 9999 } }

/-- A COMPUTE stands at HEAD of queue 5, a STREAM behind it, and the scan looks at two commands. -/
def aheadState : State :=
  ((engined (hostBytes (queued (mmCmd 0 0) matmulDesc) 0x1040 64
    (stCmd 0 0 (2 ^ 60 + 0x8000) (3 * 2 ^ 60 + 40 * 2 ^ 48) 2 20000 64))).wr (R.CQ.TAIL 5) 2).wr (R.CQ.CTRL.RUNAHEAD 5) 2

/-- Commands of the other classes: a WAIT, a SIGNAL on items 3 and 4, a COMMIT, a SNAP and an evaluation marker. -/
def waitE : Nat := record [(0, 4), (2, 9), (4, 0x8000 + 3), (14, 2)]
def sigE (op : Nat) : Nat := record [(0, 5 + 256 * op), (16, 2 ^ 63 + 3 * 2 ^ 48 + 7), (24, 2 ^ 63 + 4 * 2 ^ 48 + 8)]
def commitE : Nat := record [(0, 6), (16, 900)]
def snapE (op : Nat) : Nat := record [(0, 7 + 256 * op), (16, 500)]
def evE (cls id : Nat) : Nat := record [(0, cls), (28, id)]

/-- Command 3 of queue 5 is in flight with nothing of its work left; it met the error `er`, if any. -/
def inFlight (er : Option Err) : State :=
  let s := (running.wr (R.CQ.HEAD 5) 4).wr (R.CQ.DONE 5) 3
  s.onQ 5 fun v => { v with flights := [{ s.newFlight 5 3 waitE [] with err := er }] }
def lateFlight : State :=
  let s := running.wr (R.CQ.HEAD 5) 4
  s.onQ 5 fun v => { v with flights := [{ s.newFlight 5 3 waitE [] with deadline := some 0 }] }

/-- Queue 5 is faulted at command 3. -/
def faultedQ : State :=
  ((queued 0 0).wr (R.CQ.HEAD 5) 4 |>.wr (R.CQ.DONE 5) 3 |> fun s => hostBytes s 0x10C0 64 waitE).onQ 5 fun v =>
    { v with faults := [⟨3, .MEM_UE, 7, false, true⟩] }

/-- Command 3 of queue 5 is a SNAP that fires at edge 0. -/
def snapping : State :=
  let s := running.onQ 5 fun v => { v with flights := [{ running.newFlight 5 3 waitE [] with left := 1 }] }
  { s with snap := ⟨[], [], [(0, some (5, 3))], [], none⟩ }

/-- Behind the command at HEAD of queue 5, in a bracket, stands a WAIT whose deadline has passed. -/
def lateEntry : State :=
  let s := hostBytes (queued (mmCmd 0 0) matmulDesc) 0x1040 64 (waitE + record [(60, 5)])
  later 9 (((s.wr (R.CQ.TAIL 5) 2).wr (R.CQ.STAT.EVAL 5) 1).wr (R.CQ.CTRL.RT 5) 1)

/-- The command at HEAD of queue 5 waits for counter 3 to reach 5, and WAIT_LIMIT is 2. -/
def longWait : State := (later 9 ((queued (record [(0, 4), (4, 2 ^ 31 + 3 * 2 ^ 16), (8, 5)]) 0).wr (R.CQ.WAIT_LIMIT 5) 2))

/-- A transfer of 128 bytes from host byte 0x8000 to window 0 of tile 40; an entry for it; an engine that accepts it. -/
def xfer0 : Xfer := ⟨7, ⟨5, 3, 1, none⟩, 2 ^ 60 + 0x8000, 128, 0xFF, 0xFF, [40], 0, 0, 0⟩
def mergeAt (issued : Option Nat) : MergeEntry :=
  ⟨8, 0, [xfer0], [⟨[xfer0], 0⟩], 0, 0, 4, issued, false, [], [], none, none⟩
def accepting (l : List MergeEntry) : State :=
  let s := engined running
  { s with stream := { s.stream with waiting := [(0, xfer0)], entries := l } }

/-- One flit of a write from engine 0 stands at tile 40. -/
def drop0 : Drop := ⟨0, 40, xfer0, some ⟨40, 0, 0, [1], .sillage 0, none, 0, 0, []⟩, 1, 1, 0⟩
def dropping : State :=
  { running with stream := { running.stream with drops := [drop0], credits := Cells.put 0 running.stream.credits 40 1 } }

/-- A COLLECTIVE of operation `op` on entry 0. -/
def collE (op fmt prof count : Nat) (src : Nat := 2 ^ 60 + 0x8000) : Nat :=
  record ([(0, 3 + 16 * prof + 256 * op), (2, 7), (20, fmt), (24, src), (32, if op = 5 ∧ 2 ^ 61 ≤ src then 3 * 2 ^ 60 + 40 * 2 ^ 48 else 2 ^ 60 + 0x9000),
    (40, count)] ++ if op = 4 then [(48, 2 ^ 60 + 0x3000)] else [])

/-- Entry 0 and engine 0 belong to partition 1, and entry 0 is defined with the descriptor at host byte 0x2000. -/
def groupsUp (s : State) : State :=
  let u := setAct (setAct (setAct s (R.MOD.GROUP_RANGE.COUNT 1) 1) (R.MOD.GROUP_RANGE.BASE 1) 0) (R.MOD.COLL_ASSIGN 0) 1
  (u.wr (R.COLL.GRP_CFG.VALID 0 0) 1).wr (R.COLL.GRP_DESC 0 0) (2 ^ 60 + 0x2000)

/-- A group of nodes 9 and 0, and an exchange table of zeros. -/
def groupRec : Nat := record [(0, 0x47525031), (8, 9), (12, 2), (16, 1), (64, 2 ^ 31 + 2 ^ 16 + 9), (68, 2 ^ 31 + 2 ^ 16)]
def groupBytes (v n : Nat) : List Byte := (List.range n).map fun i => BitVec.ofNat 8 (v / 256 ^ i)
def groupD : GroupDesc := groupDesc (groupBytes groupRec 72)
def grouped (e : Nat) : State :=
  hostBytes (hostBytes (groupsUp (queued e groupRec)) 0x3000 96 (record [(0, 0x58434731), (4, 2)])) 0x8000 256 0
def tabOf (op : Nat) : List XchgRow × Nat × Nat × Nat :=
  if op = 4 then ([⟨0, 0, 0, 0⟩, ⟨0, 0, 0, 0⟩], 0, 0, 0) else ([], 0, 0, 0)

/-- The state after the checks of the COLLECTIVE `e` of queue 5 on the group `d`. -/
def checked (s : State) (e : Nat) (d : GroupDesc) : State :=
  let u := s.headFetched 5
  ((u.groupChecks 1 (collOf e)).1.tableCheck (u.newOwner 5 0) (collOf e) d).1
/-- A tile group of one sub-group of two tiles, 40 and 41. -/
def tileRec : Nat := record [(0, 0x47525031), (4, 1), (24, 40 + 2 ^ 15), (28, 1), (29, 2)]
def tileD : GroupDesc := groupDesc (groupBytes tileRec 64)
def tiled : State := groupsUp (queued (collE 5 255 1 32 (2 * 2 ^ 60 + 40 * 2 ^ 48)) tileRec)

/-- A collective on entry 0, the fourth of group 9, that waits for rank 0's data. -/
def run0 : CollRun :=
  ⟨0, 0, ⟨5, 3, 1, none⟩, groupD, 2, 255, 32, 1, 2 ^ 60 + 0x8000, 2 ^ 60 + 0x9000, 4, 0, [], [], none, [], [], 1, 0,
    [.take 0], [], [], [], [], 0, 0, 0⟩
def runningWith (r : CollRun) (s : State) : State :=
  let u := s.onQ 5 fun v => { v with flights := [{ s.newFlight 5 3 waitE [] with left := 1 }] }
  { (groupsUp u).wr (R.COLL.GRP_STAT.STATE 0 0) 2 with
    coll := { s.coll with runs := [r], descs := Cells.put none s.coll.descs 0 (some groupD) } }
def withRun : State := runningWith run0 running

/-- Node 0 has joined, and link 0 runs; a frame from node 9 in partition 1. -/
def linked : State := (running.wr R.MOD.FAB_NODE.JOINED 1).wr (R.LINK.STAT.STATE 0) 3
def frameOf (b : Body) : Frame := ⟨b.vc, 0, 0, 9, 0, 0, 0, 0, 1, b⟩
/-- Frames for node 3 go over link 5, which drains. -/
def routedAway : State :=
  let s := (linked.wr (R.LINK.STAT.STATE 5) 3).onLink 5 fun x => { x with drain := { x.drain with on := true } }
  s.onFab fun x => { x with routes := [(3, 2240120197)] }
def startR : StartRec := ⟨9, 0, 4, 0, 2, 255, 32, 1, 2, 0, 0⟩
def pos0 : CollPos := ⟨9, 4, 0, 0, 0, 0, 2⟩
def linkedRun : State := runningWith run0 linked
def heardRun : State := runningWith { run0 with heard := [0] } linked
def ackedRun : State := runningWith { run0 with unacked := [⟨0, 0, 0, 0, 0⟩] } linked

/-- A bonded granule of tile 40, in partition 1, whose context 0 is claimed with a limit of 9. -/
def placedG : Nat := (Place.bond 40 0).gran
def placing : State :=
  let s := ((setAct running (R.MOD.QUOTA_ASSIGN 0) 1).wr (R.QUOTA.CTX_FLAGS.CLAIMED 0) 1).wr (R.QUOTA.CTX_LIMIT_BONDED 0) 9
  (s.wr R.QUOTA.OP_ADDR (40 * bondBytes)).wr R.QUOTA.OP_SIZE 1
def placed (o : GranOp) : State :=
  (placing.moveGran placedG ⟨if o.release then 2 else 1, 0⟩).onMem fun m => { m with op := some o }
def homed : State := placing.moveGran placedG ⟨2, 0⟩

/-- A MOVE of one granule of tile 40 to stack 0, in which `o` granules are OUT and `f` flipped. -/
def move0 (o f : Nat) : Move := ⟨⟨5, 3, 1, none⟩, 40 * bondBytes, stackBase, 1, o, f, none⟩
def movingTo (node o f : Nat) : State :=
  let s := setAct ((setAct (inFlight none) (R.MOD.QUOTA_ASSIGN 0) 1).moveGran placedG ⟨if o = 0 then 2 else 3, 0⟩) (R.MOD.STACK_ASSIGN 0) 1
  let u := s.moveGran (Place.stack 0 0).gran ⟨if o = 0 then 2 else 1, 0⟩
  { u with stream := { u.stream with moves := [{ move0 o f with dst := node * 2 ^ 44 + stackBase }] } }
def moving (o f : Nat) : State := movingTo 0 o f

/-- A DRAM row of tile 40's region has met an uncorrectable error. -/
def rowBad : State := { State.reset with mem := { State.reset.mem with rowErrs := [(40, [(0, 0, true)])] } }
theorem rowBad_due (s : State) (h : Cells.get [] s.mem.rowErrs 40 = [(0, 0, true)]) :
    s.dueRows 40 (Config.bondBank 0 % 16) ≠ [] := by
  simp [State.dueRows, State.rowDue, h, List.eraseDups, List.eraseDupsBy, List.eraseDupsBy.loop]

/-- A sled is present at position 0. -/
def sledIn : State := inPart.wr (R.FLASH.SLED_STAT.PRESENT 0) 1

/-- Partition 1's mechanism may be enabled, on counters 3 and 4; or it is active, with the attempts `l`. -/
def stepUp : State :=
  ((running.wr (R.MOD.STEP_CFG.MODE 1) 2).wr (R.MOD.STEP_CFG.STEP_CTR 1) 3).wr (R.MOD.STEP_CFG.VERD_CTR 1) 4
def stepping (l : List Run) : State :=
  let s := (later 9 ((stepUp.wr (R.MOD.STEP_STAT.ACTIVE 1) 1).wr (R.MOD.STEP_STAT.AWAIT 1) 1))
  { s with nose := { s.nose with runs := l } }
/-- A SIGNAL that adds 1 to counter 3 stands at HEAD of queue 5 of an active mechanism. -/
def closeE : Nat := record [(0, 5), (16, 2 ^ 63 + 3 * 2 ^ 48 + 1)]
def closing1 : State :=
  let s := (stepping [newRun 1 0 none]).wr (R.MOD.STEP_STAT.AWAIT 1) 0
  hostBytes (s.wr (R.CQ.TAIL 5) 1) 0x1000 64 closeE
def closed1 : Run := { newRun 1 4 none with closed := some 0 }
def ckpt0 : Ckpt := ⟨[], [], []⟩
def marked1 (c : Option Ckpt) : Run := { closed1 with mark := some (0x703, 1), ckpt := c, sent4 := true }

/-- A duplicate of command 3 of queue 5 on tile 40, of one output word; and one whose checker has differed. -/
def dup0 : Dup :=
  ⟨⟨5, 3, 1, some (4, 0)⟩, 40, 50, 60, (0, 0), workOf 0 0, ⟨[], [], [(160, 0)], [], []⟩, 0, wordSeals [0], none⟩
def dupF : Dup := { dup0 with found := some [6] }
def duped (d : Dup) : State :=
  let s := stepping [closed1]
  { s.spadWrites 50 0 [0] with nose := { s.nose with dups := [d] } }
def lateDup (strict : Nat) : State :=
  ((duped dup0).wr R.NOSE.VERDICT_CFG.WINDOW 2).wr R.NOSE.VERDICT_CFG.STRICT strict

/-- A replay in a phase, without HOOK. -/
def replaying1 (ph shift : Nat) (impl : Option (Nat × Nat)) : State :=
  let s := stepping [{ marked1 (some ckpt0) with impl := impl }]
  (((s.wr (R.NOSE.REPLAY_STAT.PHASE 1) ph).wr R.NOSE.REPLAY_CFG.SHIFT shift).wr R.NOSE.REPLAY_CFG.HOOK 0).wr (R.CFG.QHOLD 1) 1

/-- Node 0 asks to join over link 0; link 0 in a state, its cage on and its optic in; with a HELLO; with frames to replay. -/
def joining : State := (State.reset.wr R.MOD.FAB_STAT.STATE 1).wr (R.LINK.STAT.STATE 0) 3
def optical (st : Nat) : State :=
  let s := (State.reset.wr (R.LINK.STAT.OPTIC 0) 1).wr (R.LINK.STAT.STATE 0) st
  { s with power := { s.power with rails := Cells.put false (Cells.put false s.power.rails 128 true) 256 true } }
def trained : State := (optical 2).onLink 0 fun x => { x with hello := some ⟨9, 5, false, 0, [], false⟩ }
def replayed : State :=
  (optical 3).onLink 0 fun x => { x with replay := [3, 4, 5].map fun n => { frameOf .writeAck with fseq := n } }

/-- Another node may reach granule 0 of tile 40 for reading or writing; it is HOME, or IN. -/
def remote (rd wr inn : Nat) : State :=
  let s := ((linked.wr (R.QUOTA.CTX_FLAGS.REMOTE_RD 0) rd).wr (R.QUOTA.CTX_FLAGS.REMOTE_WR 0) wr)
  (setAct s (R.MOD.QUOTA_ASSIGN 0) 1).moveGran placedG ⟨if inn = 1 then 1 else 2, 0⟩

/-- A fetch, or a write, from node 9 awaits its answer. -/
def fetching : State :=
  let s := accepting [mergeAt (some 0)]
  { (s.wr R.MOD.FAB_NODE.JOINED 1).wr (R.LINK.STAT.STATE 0) 3 with fab := { s.fab with txns := [⟨0, 9, .fetch 0 8⟩] } }
def writing : State :=
  let s := inFlight none
  { (s.wr R.MOD.FAB_NODE.JOINED 1).wr (R.LINK.STAT.STATE 0) 3 with fab := { s.fab with txns := [⟨0, 9, .write ⟨5, 3, 1, none⟩ 0⟩] } }

/-- Partition 1 awaits its verdict on a joined node; a verdict of node 9's partition 2. -/
def linkedStep : State := ((stepping [closed1]).wr R.MOD.FAB_NODE.JOINED 1).wr (R.LINK.STAT.STATE 0) 3
def verdict1 : VerdictMsg := ⟨4, 0, 2, 0, 0, 0⟩

/-- A message to node 9 that has been sent at tick 0. -/
def unackedMsg (m : Message) : OutMsg := ⟨9, none, 1, 33, 255, m, some 0⟩
def unacked (m : Message) : State := { linked with fab := { linked.fab with msgs := [unackedMsg m] } }

/-- `s` with the rails of `l` on; the module in RUN with partition 1 parked or in QUIESCE. -/
def railed (s : State) (l : List Rail) : State :=
  { s with power := { s.power with rails := l.foldl (fun m r => Cells.put false m (railKey r) true) s.power.rails } }
def quiesced : State := (inPart.wr R.MOD.STATE 3).wr (R.MOD.PART_STATE 1) 5
/-- Four cassettes are healthy. -/
def cass4 : State :=
  let s := (((State.reset.wr R.MOD.STATE 3).wr R.PWR.CASS_MAP.PRESENT 15).wr R.PWR.CASS_MAP.HEALTHY 15).wr R.PWR.STAT.CASS_OK 4
  { s with power := { s.power with inserted := [(0, 1), (1, 1), (2, 1), (3, 1)] } }
/-- The module is in Drydown at a step. -/
def drying (n : Nat) (warm : Bool) : State :=
  let s := (later 90000000000 (State.reset.wr R.MOD.STATE 7))
  { s with power := { s.power with dry := some ⟨0, n, 0, warm, 0⟩ } }
/-- Domain 5 is on at 800 mV, with a row of it at work. -/
def drooping : State :=
  let s := railed inPart [.vcore 5]
  { s with power := { s.power with slews := [(5, ⟨800, 800, 0⟩)] }, clk := { s.clk with rows := [(1, ⟨16, some 16⟩)] } }
/-- ENFLEURAGE at a turn of the rails, with the steps of a mask ended. -/
def enfleuring (turn done : Nat) : State :=
  let s := (later 90000000000 (State.reset.wr R.MOD.STATE 2))
  { s with boot := { s.boot with turn := turn, done := done } }
/-- READY, both cards are up, A leads, and firmware runs. -/
def carded : State :=
  let s := ((((State.reset.wr R.MOD.STATE 3).wr R.MGMT.ROLE.A_PRESENT 1).wr R.MGMT.ROLE.B_PRESENT 1).wr R.CFG.FW_READY 1).wr
    R.MGMT.PORT_STAT.LINK_A 1
  railed (s.onBoot fun b => { b with done := 15 }) [.vcard .a, .vcard .b]
def errRec0 : ErrRec := ⟨1, .TAKEOVER_REFUSED, 1, 0, 0, 0, 0, 0, 0, 1⟩
/-- Telemetry is due once a window; and the snapshot that it is of. -/
def telling : State := carded.wr R.MGMT.TELEM_CFG 1
def toldOf : SnapRec :=
  (((State.loadWindow telling ⟨90, 20, 5, 1⟩).snapSw none).clkEdge.clkEdge.snap.taken.head?).getD ⟨0, 0, false, [], [], []⟩
/-- Controller 0x55 is in slot 2. -/
def listening : State := carded.wr (R.MGMT.CTL_ADDR 2) 0x55
/-- A request of that controller at card A's port. -/
def hdr0 : IcordHdr := ⟨.a, 0, 0x55, 7, none, none⟩
/-- A journal record that has waited since reset. -/
def rec0 : TagRec := ⟨2, 0x0202, 1, 5, [1, 2, 3], 0, 0, false⟩
/-- `running` with both ports attached and their functions enabled. -/
def twoPorts : State :=
  ((running.wr (R.HOST.PORT_STAT.ATTACHED 1) 1).wr (R.HOST.PORT_STAT.VF_EN 0) 1).wr (R.HOST.PORT_STAT.VF_EN 1) 1
/-- A write of three bytes for queue 5 of partition 1 that waits to be sent. -/
def hostReq0 : HostReq := ⟨⟨5, 3, 1, none⟩, 0, 2 ^ 60 + 0x7FFE, 3, none, [1, 2, 3], false, false⟩
/-- READY, with partition 1 ready and a commit epoch ahead. -/
def calm : State := (((inPart.wr R.MOD.STATE 3).wr (R.MOD.PART_STATE 1) 3).wr R.MOD.COMMIT_EPOCH 50)
/-- A commit of partition 1 is pending. -/
def committing : State :=
  { calm.wr R.MOD.COMMIT_STAT.PENDING 1 with commit := { calm.commit with parts := 2, pages := [pgTILE 40, pgTILE 41] } }
/-- The commit cycle has taken place. -/
def cycled : State :=
  { committing with commit := { committing.commit with cycleDone := true, epoch := 50, deadline := some 156300 } }
/-- The commit epoch has come. -/
def stopped : State :=
  { (later 60 cycled) with commit := { cycled.commit with stop := some 60 } }
/-- A page has missed the deadline. -/
def held : State :=
  { ((later 160000 stopped)).wr R.MOD.COMMIT_STAT.HELD 1 with commit := { stopped.commit with heldAt := some 160000, deadline := none } }
/-- Link 5 drains to change its credits, all of which are home. -/
def draining : State :=
  let s := { stopped.wr (R.LINK.STAT.STATE 5) 3 with commit := { stopped.commit with pages := pgLINK 5 :: stopped.commit.pages } }
  s.onLink 5 fun l => { l with drain := ⟨true, true, true, false, none⟩ }
/-- Link 0 has sent its CONFIG for a commit that waits for the peer's, and its page owes an answer. -/
def configuring : State :=
  let s := { linked.wr R.MOD.COMMIT_STAT.PENDING 1 with commit := { linked.commit with pages := [pgLINK 0] } }
  s.onLink 0 fun x => { x with drain := ⟨true, false, true, true, none⟩ }
/-- A command in flight. -/
def flight0 : Flight := State.reset.newFlight 5 0 0 []
/-- Thirty-two outputs of one unit, with agreeing anchors. -/
def tri (n : Int) : Triple := ⟨(1, 1, 1), List.replicate 32 ⟨n, 0, 0⟩⟩

/-! ### Witnesses of the statements, in their order -/

theorem witness_StepTakesTheFrontCommand :
    (∃ (c : Instr) (rest : List Instr) (s : State),
      s.pending = c :: rest) ∧
    (∃ (s : State),
      s.pending = []) :=
  ⟨⟨.tagCommitDone true, [], { State.reset with pending := [.tagCommitDone true] }, by decide +kernel⟩,
   ⟨State.reset, by decide +kernel⟩⟩

theorem witness_EveryStepKeepsMemoryCanonical :
    (∃ (s : State) (t : State),
      Memory.wf s = true ∧
      step s = .next t) :=
  ⟨State.reset, State.reset.idle, by decide +kernel, rfl⟩

theorem witness_EveryStepOnlyBlowsFuses :
    (∃ (s : State) (t : State),
      step s = .next t ∧
      s.pending.head? ≠ some .imageCheck) ∧
    (∃ (s : State) (t : State),
      step s = .next t) :=
  ⟨⟨State.reset, State.reset.idle, rfl, by decide +kernel⟩,
   ⟨State.reset, State.reset.idle, rfl⟩⟩

theorem witness_RegistersTakeWrites :
    (∃ (s : State) (p : Path) (a : Nat) (n : Nat),
      s.half p (pageBase a) = none) ∧
    (∃ (s : State) (f : Fld) (n : Nat),
      f.lo = 0 ∧
      f.w = 63) ∧
    (∃ (s : State) (p : Path) (off : BitVec 26),
      wideAt off.toNat = true ∧
      off.toNat % 8 = 0 ∧
      s.answers p off.toNat = true ∧
      s.fitted off.toNat = true ∧
      (s.countTx p 4).mayRead p off.toNat = true) ∧
    (∃ (s : State) (p : Path) (off : BitVec 26),
      wideAt off.toNat = true ∧
      off.toNat % 8 = 0 ∧
      s.answers p off.toNat = true ∧
      s.fitted off.toNat = true ∧
      (s.countTx p 8).mayRead p off.toNat = true) ∧
    (∃ (s : State) (p : Path) (off : BitVec 26) (v : Word),
      wideAt off.toNat = true ∧
      off.toNat % 8 = 0 ∧
      (s.reaches p off.toNat (s.vfOwn off.toNat fun hi lo => bitsOf v.toNat hi lo))) ∧
    (∃ (s : State) (p : Path) (off : BitVec 26) (v : Word),
      wideAt (off.toNat - 4) = true ∧
      wideAt off.toNat = false ∧
      off.toNat % 8 = 4 ∧
      (s.reaches p off.toNat (s.vfOwn off.toNat fun hi lo => bitsOf v.toNat hi lo))) ∧
    (∃ (s : State) (p : Path) (off : BitVec 26) (v : DWord) (row : RegRow) (ty : PageTy) (i : Nat),
      regAt off.toNat = some row ∧
      row.wide = false ∧
      off.toNat % 4 = 0 ∧
      pageAt off.toNat = some (ty, i) ∧
      ty ∈ [PageTy.FUSE, .SILL, .HOST, .PDOM, .LINK, .STACK, .SPARE] ∧
      0x80 ≤ off.toNat % 0x1000 ∧
      off.toNat ∉ [R.HOST.PART_PORT.addr, (R.PDOM.VTARGET.OFFSET_MV i).addr, (R.LINK.CTRL.RETRAIN i).addr, R.SPARE.SHIFT_CTRL.GO.addr, (R.STACK.SPARE_CTRL.GO i).addr] ∧
      s.reaches p off.toNat none ∧
      let u := s.taken p off.toNat 4
      (u.unlocked = true ∨ u.changesLk off.toNat (v.toNat % 2 ^ 32) row = false) ∧
      wideAt (off.toNat - 4) = false) ∧
    (∃ (s : State) (p : Path) (page : Fin 1984),
      let pg := 0x1000 * page.val
      s.reaches p (R.PG.CTRL.SRST pg).addr none ∧
      let u := s.taken p (R.PG.CTRL.SRST pg).addr 4
      u.softAccepted pg = true ∧
      u.on R.MOD.COMMIT_STAT.PENDING = false) ∧
    (∃ (s : State) (p : Path) (q : Fin 256),
      s.reaches p (R.PG.CTRL.SRST (pgCQ q)).addr none ∧
      let u := s.taken p (R.PG.CTRL.SRST (pgCQ q)).addr 4
      u.softAccepted (pgCQ q) = true ∧
      u.on R.MOD.COMMIT_STAT.PENDING = false) ∧
    (∃ (s : State) (p : Path) (page : Fin 1984),
      let pg := 0x1000 * page.val
      s.reaches p (R.PG.CTRL.SRST pg).addr none ∧
      let u := s.taken p (R.PG.CTRL.SRST pg).addr 4
      u.softAccepted pg = false ∧
      pg ∈ allPages) :=
  ⟨⟨State.reset, .host .a 0, 0x3090, 4, by decide +kernel⟩,
   ⟨State.reset, R.MGMT.ERR_SENT, 3, by decide +kernel⟩,
   ⟨State.reset, (.sideband .a), BitVec.ofNat 26 R.TB.TIME.addr, by decide +kernel⟩,
   ⟨State.reset, (.sideband .a), BitVec.ofNat 26 R.TB.TIME.addr, by decide +kernel⟩,
   ⟨State.reset, (.sideband .a), BitVec.ofNat 26 R.MOD.COMMIT_EPOCH.addr, 5, by decide +kernel⟩,
   ⟨State.reset, (.sideband .a), BitVec.ofNat 26 (R.MOD.COMMIT_EPOCH.addr + 4), 5, by decide +kernel⟩,
   ⟨State.reset, (.sideband .a), BitVec.ofNat 26 (R.LINK.LANE_THRESH 1).addr, 5, (regAt (R.LINK.LANE_THRESH 1).addr).getD ⟨0, 0, 0, 0, 0, false, []⟩, .LINK, 1, by decide +kernel⟩,
   ⟨State.reset, (.sideband .a), 3, by decide +kernel⟩,
   ⟨State.reset, (.sideband .a), 3, by decide +kernel⟩,
   ⟨State.reset, (.sideband .a), 1, by decide +kernel⟩⟩

theorem witness_ErrorsAreCaptured :
    (∃ (s : State) (pg : Nat) (e : Err) (src : Nat),
      pg ∈ allPages) ∧
    (∃ (s : State) (p : Path) (off : BitVec 26) (n : Nat) (write : Bool),
      alignedAccess off.toNat n = false ∧
      s.modState ≠ 0) :=
  ⟨⟨State.reset, pgTAG, .TAG_AREA, 0, by decide +kernel⟩,
   ⟨State.reset, (.sideband .a), 3, 4, false, by decide +kernel⟩⟩

theorem witness_CommitsAreRequestedAndApplied :
    (∃ (s : State) (p : Path) (scope : BitVec 8) (glob : Bool),
      s.reaches p R.MOD.COMMIT_CTRL.GO.addr none ∧
      let u := s.taken p R.MOD.COMMIT_CTRL.GO.addr 4
      u.on R.MOD.COMMIT_STAT.PENDING = false ∧
      u.on R.MOD.COMMIT_STAT.HELD = false ∧
      (scope ≠ 0 ∨ glob = true) ∧
      (scope = 0 ∨ u.rd R.PWR.STAT.SHED = 0)) ∧
    (∃ (s : State) (p : Path) (scope : BitVec 8) (glob : Bool),
      s.reaches p R.MOD.COMMIT_CTRL.GO.addr none ∧
      let u := s.taken p R.MOD.COMMIT_CTRL.GO.addr 4
      (u.on R.MOD.COMMIT_STAT.PENDING = true ∨ u.on R.MOD.COMMIT_STAT.HELD = true)) ∧
    (∃ (s : State),
      s.on R.MOD.COMMIT_STAT.PENDING = true ∧
      s.commit.cycleDone = false ∧
      s.commit.again = false ∧
      s.time < s.rd R.MOD.COMMIT_EPOCH ∧
      (∀ pg ∈ s.cyclePages, (s.toPending fun k => s.cyclePages.any fun pg => s.staged pg k).pageLegal pg = true)) ∧
    (∃ (s : State),
      s.on R.MOD.COMMIT_STAT.PENDING = true ∧
      s.commit.cycleDone = true ∧
      s.commit.stop = none ∧
      s.commit.epoch ≤ s.time) ∧
    (∃ (s : State) (page : Fin 1984) (ty : PageTy) (i : Nat),
      let pg := 0x1000 * page.val
      s.mayApply pg = true ∧
      pageAt pg = some (ty, i) ∧
      ty ∉ [PageTy.MOD, .CLK, .SILL, .LINK] ∧
      (∃ x ∈ s.commit.pages, x ∈ allPages ∧ x ≠ pg ∧ s.on (R.PG.STAT.ACKED x) = false)) ∧
    (∃ (s : State) (k : Fin 48),
      (s.link k).drain = ⟨true, true, true, false, none⟩ ∧
      s.linkUp k = true ∧
      (s.link k).resend = none ∧
      s.responds (pgLINK k) = true ∧
      (∀ c ∈ classes, s.rd (R.LINK.LED_HELD k c) = s.rd (R.LINK.LED_INIT k c))) ∧
    (∃ (s : State) (k : Fin 48) (l : List Nat),
      (s.link k).drain = ⟨true, true, true, false, some l⟩ ∧
      s.linkUp k = true ∧
      (s.link k).resend = none ∧
      s.responds (pgLINK k) = true ∧
      s.owesAck (pgLINK k) = true ∧
      (∀ c ∈ classes, s.rd (R.LINK.LED_HELD k c) = s.rd (R.LINK.LED_INIT k c))) :=
  ⟨⟨calm, (.sideband .a), 2, false, by decide +kernel⟩,
   ⟨committing, (.sideband .a), 2, false, by decide +kernel⟩,
   ⟨committing, by decide +kernel⟩,
   ⟨(later 60 cycled), by decide +kernel⟩,
   ⟨stopped, 1064, .TILE, 40, by decide +kernel⟩,
   ⟨draining, 5, by decide +kernel⟩,
   ⟨draining.onLink 5 fun l => { l with drain := { l.drain with peer := some [7] } }, 5, [7], by decide +kernel⟩⟩

theorem witness_HoldsBeginAndEnd :
    (∃ (s : State) (d : Nat),
      s.commit.deadline = some d ∧
      s.on R.MOD.COMMIT_STAT.PENDING = true ∧
      d ≤ s.time ∧
      s.rd R.PWR.STAT.SHED = 0 ∧
      (∃ pg ∈ s.commit.pages, s.on (R.PG.STAT.ACKED pg) = false)) ∧
    (∃ (s : State) (p : Path) (scope : BitVec 8) (glob : Bool),
      s.reaches p R.MOD.COMMIT_CTRL.GO.addr none ∧
      let u := s.taken p R.MOD.COMMIT_CTRL.GO.addr 4
      u.on R.MOD.COMMIT_STAT.HELD = true ∧
      (scope ≠ 0 ∨ glob = true)) ∧
    (∃ (s : State) (p : Path) (scope : BitVec 8) (glob : Bool),
      s.reaches p R.MOD.COMMIT_CTRL.GO.addr none ∧
      let u := s.taken p R.MOD.COMMIT_CTRL.GO.addr 4
      u.on R.MOD.COMMIT_STAT.HELD = true ∧
      (scope ≠ 0 ∨ glob = true) ∧
      u.commit.byQueue = none) ∧
    (∃ (s : State) (h : Nat),
      s.commit.heldAt = some h ∧
      s.on R.MOD.COMMIT_STAT.HELD = true ∧
      s.rd R.CFG.HOLD_AUTO ≠ 0 ∧
      h + s.rd R.CFG.HOLD_AUTO ≤ s.time ∧
      s.commit.byQueue = none) :=
  ⟨⟨(later 160000 stopped), (stopped.commit.deadline.getD 0), by decide +kernel⟩,
   ⟨held, (.sideband .a), 2, false, by decide +kernel⟩,
   ⟨held, (.sideband .a), 2, false, by decide +kernel⟩,
   ⟨(later 300000 (held.wr R.CFG.HOLD_AUTO 10)), (held.commit.heldAt.getD 0), by decide +kernel⟩⟩

theorem witness_TimeGoesOnAndIsSet :
    (∃ (s : State) (p : Path),
      s.reaches p R.TB.SET_CTRL.addr none ∧
      let u := s.taken p R.TB.SET_CTRL.addr 4
      u.modRead ∈ [1, 2, 3]) ∧
    (∃ (s : State) (p : Path),
      s.reaches p R.TB.SET_CTRL.addr none ∧
      let u := s.taken p R.TB.SET_CTRL.addr 4
      u.modRead ∉ [1, 2, 3]) ∧
    (∃ (s : State) (ppm : Nat),
      5000 < (signed 16 ppm).natAbs) ∧
    (∃ (s : State) (ppm : Nat),
      (signed 16 ppm).natAbs ≤ 5000) ∧
    (∃ (s : State) (absent : Bool) (n : Nat),
      s.on R.CLK.STATUS.HOLDOVER = false ∧
      ((if absent then 16 else 156250) ≤ n)) ∧
    (∃ (s : State) (absent : Bool) (n : Nat),
      n ≠ 0 ∧
      (n < (if absent then 16 else 156250))) ∧
    (∃ (s : State) (ppm : Nat) (n : Nat),
      (signed 16 ppm).natAbs ≤ 5000 ∧
      156250 ≤ n) ∧
    (∃ (s : State),
      1 < s.modState ∧
      s.modState ≠ 7) :=
  ⟨⟨State.reset.wr R.TB.SET_VALUE 77, (.sideband .a), by decide +kernel⟩,
   ⟨State.reset.wr R.MOD.STATE 5, (.sideband .a), by decide +kernel⟩,
   ⟨State.reset, 60000, by decide +kernel⟩,
   ⟨State.reset, 0, by decide +kernel⟩,
   ⟨State.reset, true, 16, by decide +kernel⟩,
   ⟨State.reset, true, 15, by decide +kernel⟩,
   ⟨State.reset.wr R.CLK.STATUS.HOLDOVER 1, 65000, 156250, by decide +kernel⟩,
   ⟨State.reset.wr R.MOD.STATE 3, by decide +kernel⟩⟩

theorem witness_FractionsMove :
    (∃ (s : State) (p : Fin 8),
      (∃ r ∈ s.clkRows p, (s.rowFrac r).eff ≠ s.fracTarget p ∧ ((s.rowFrac r).due.any fun d => decide (d ≤ s.time)) = true)) ∧
    (∃ (s : State) (p : Path) (f : BitVec 5),
      s.reaches p R.CLK.EMERG_CTRL.GO.addr none ∧
      let u := s.taken p R.CLK.EMERG_CTRL.GO.addr 4
      u.time < u.rd R.CLK.EMERG_EPOCH) ∧
    (∃ (s : State) (p : Path) (f : BitVec 5),
      s.reaches p R.CLK.EMERG_CTRL.GO.addr none ∧
      let u := s.taken p R.CLK.EMERG_CTRL.GO.addr 4
      u.rd R.CLK.EMERG_EPOCH ≤ u.time) ∧
    (∃ (s : State) (p : Path),
      s.reaches p R.CLK.EMERG_CTRL.GO.addr none ∧
      let u := s.taken p R.CLK.EMERG_CTRL.GO.addr 4
      u.time < u.rd R.CLK.EMERG_EPOCH) ∧
    (∃ (s : State) (op : EmergOp),
      s.clk.pending = some op ∧
      op.epoch ≤ s.time) :=
  ⟨⟨{ inPart with clk := { inPart.clk with rows := [(1, ⟨3, some 0⟩)] } }, 1, by decide +kernel⟩,
   ⟨State.reset.wr R.CLK.EMERG_EPOCH 9, (.sideband .a), 1, by decide +kernel⟩,
   ⟨State.reset, (.sideband .a), 7, by decide +kernel⟩,
   ⟨State.reset.wr R.CLK.EMERG_EPOCH 9, (.sideband .a), by decide +kernel⟩,
   ⟨emergDue, ⟨false, 3, 0, 0⟩, by decide +kernel⟩⟩

theorem witness_PtpMeasuresAndFollows :
    (∃ (s : State) (port : Port) (d : Nat) (udp : Bool) (t1 : Nat) (t2 : Nat),
      s.ptpTaken port d udp = true ∧
      s.ptpSlave port = true) ∧
    (∃ (s : State) (port : Port) (d : Nat) (udp : Bool) (t1 : Nat) (t2 : Nat),
      s.ptpTaken port d udp = true ∧
      s.ptpSlave port = true) ∧
    (∃ (s : State) (port : Port) (t1 : Nat),
      s.ptpMaster port = true) ∧
    (∃ (s : State) (port : Port) (d : Nat) (udp : Bool) (t1 : Nat),
      s.ptpTaken port d udp = true ∧
      s.ptpSlave port = true ∧
      s.ptp.awaitFu = true) ∧
    (∃ (s : State) (port : Port) (t3 : Nat),
      s.ptpSlave port = true) ∧
    (∃ (s : State) (port : Port) (d : Nat) (udp : Bool) (clock : DWord) (t4 : Nat),
      s.ptpTaken port d udp = true ∧
      s.ptpMaster port = true) ∧
    (∃ (s : State) (port : Port) (d : Nat) (udp : Bool) (t3 : Nat) (t4 : Nat),
      s.ptp.t3 = some t3 ∧
      s.ptpTaken port d udp = true ∧
      s.ptpSlave port = true) ∧
    (∃ (s : State) (port : Port) (udp : Bool) (a : Announce),
      s.ptpTaken port a.domain udp = true ∧
      s.qualified a = true) ∧
    (∃ (s : State) (port : Port),
      s.ptpMaster port = true) ∧
    (∃ (s : State) (h : Nat),
      s.on R.TB.STAT.SYNC = true ∧
      s.ptp.lastSync = some h ∧
      h + 312500000 ≤ s.now) :=
  ⟨⟨ptpUp, .a, 0, false, 1000, 5000, by decide +kernel⟩,
   ⟨ptpUp, .a, 0, false, 1000, 5000, by decide +kernel⟩,
   ⟨ptpUp, .b, 1000, by decide +kernel⟩,
   ⟨{ ptpUp with ptp := { ptpUp.ptp with awaitFu := true, t2 := 40 } }, .a, 0, false, 10, by decide +kernel⟩,
   ⟨ptpUp, .a, 8, by decide +kernel⟩,
   ⟨ptpUp, .b, 0, false, 6, 8, by decide +kernel⟩,
   ⟨{ ptpUp with ptp := { ptpUp.ptp with t3 := some 3 } }, .a, 0, false, 3, 10, by decide +kernel⟩,
   ⟨ptpUp, .a, false, annT, by decide +kernel⟩,
   ⟨ptpUp, .b, by decide +kernel⟩,
   ⟨{ (later 400000000 (State.reset.wr R.TB.STAT.SYNC 1)) with ptp := { State.reset.ptp with lastSync := some 7 } }, 7, by decide +kernel⟩⟩

theorem witness_SnapshotsLatch :
    (∃ (s : State) (p : Path),
      s.reaches p R.TB.SNAP_CTRL.ARM.addr none) ∧
    (∃ (s : State) (p : Path) (tick : DWord),
      s.reaches p R.TB.SNAP_CMP.addr none) ∧
    (∃ (s : State) (p : Path),
      s.reaches p R.TB.SNAP_CTRL.SW.addr none) ∧
    (∃ (s : State) (hi : Nat) (lo : Nat),
      4 ≤ hi ∧
      4 ≤ lo ∧
      s.modState ≠ 0) ∧
    (∃ (s : State),
      let v := s.tick
      v.snapDue &&& v.snapEnabled ≠ 0 ∧
      (v.on R.TB.SNAP_CTRL.MODE = true ∨ v.on R.TB.SNAP_STAT.ARMED = true) ∧
      s.pending = [] ∧
      s.rd R.MGMT.MBOX_STAT.STATE ≠ 1 ∧
      s.host.reqs = []) ∧
    (∃ (s : State),
      let v := s.tick
      v.on R.TB.SNAP_STAT.CMP_ARMED = true ∧
      v.rd R.TB.SNAP_CMP ≤ v.time ∧
      v.rd R.TB.SNAP_CTRL.EN_CMP = 1 ∧
      (v.on R.TB.SNAP_CTRL.MODE = true ∨ v.on R.TB.SNAP_STAT.ARMED = true)) ∧
    (∃ (s : State),
      let v := s.tick
      (∃ h ∈ v.snap.errRise, h + 2 ≤ v.now) ∧
      v.rd R.TB.SNAP_CTRL.EN_ERR = 1 ∧
      (v.on R.TB.SNAP_CTRL.MODE = true ∨ v.on R.TB.SNAP_STAT.ARMED = true)) ∧
    (∃ (s : State),
      let v := s.tick
      v.on R.TB.SNAP_STAT.FAB_ARMED = true ∧
      v.rd R.TB.SNAP_FABRIC ≤ v.time ∧
      v.rd R.TB.SNAP_CTRL.EN_FABRIC = 1 ∧
      (v.on R.TB.SNAP_CTRL.MODE = true ∨ v.on R.TB.SNAP_STAT.ARMED = true)) ∧
    (∃ (s : State) (h : Nat),
      s.snap.outUntil = some h ∧
      h ≤ s.now) ∧
    (∃ (s : State),
      let v := s.tick
      v.on R.TB.SNAP_STAT.CMP_ARMED = true ∧
      v.rd R.TB.SNAP_CMP ≤ v.time ∧
      v.rd R.TB.SNAP_CTRL.EN_CMP = 1 ∧
      v.snap.errRise = [] ∧
      v.snap.sw = [] ∧
      v.snap.pin = [] ∧
      v.on R.TB.SNAP_STAT.FAB_ARMED = false ∧
      v.on R.TB.SNAP_CTRL.MODE = false ∧
      v.on R.TB.SNAP_STAT.ARMED = false) :=
  ⟨⟨State.reset.wr R.TB.SNAP_STAT.ARMED 0, (.sideband .a), by decide +kernel⟩,
   ⟨State.reset, .host .a 0, 9, by decide +kernel⟩,
   ⟨State.reset, (.sideband .a), by decide +kernel⟩,
   ⟨State.reset.wr R.TB.SNAP_CTRL.EN_PIN 1, 4, 5, by decide +kernel⟩,
   ⟨(State.reset.wr R.TB.SNAP_STAT.CMP_ARMED 1).wr R.TB.SNAP_CTRL.EN_CMP 1, by decide +kernel⟩,
   ⟨(State.reset.wr R.TB.SNAP_STAT.CMP_ARMED 1).wr R.TB.SNAP_CTRL.EN_CMP 1, by decide +kernel⟩,
   ⟨{ (later 9 State.reset).wr R.TB.SNAP_CTRL.EN_ERR 1 with snap := ⟨[], [7], [], [], none⟩ }, by decide +kernel⟩,
   ⟨(State.reset.wr R.TB.SNAP_STAT.FAB_ARMED 1).wr R.TB.SNAP_CTRL.EN_FABRIC 1, by decide +kernel⟩,
   ⟨{ State.reset with snap := ⟨[], [], [], [], some 0⟩ }, 0, by decide +kernel⟩,
   ⟨((State.reset.wr R.TB.SNAP_STAT.CMP_ARMED 1).wr R.TB.SNAP_CTRL.EN_CMP 1).wr R.TB.SNAP_STAT.ARMED 0, by decide +kernel⟩⟩

theorem witness_ScratchpadsAreCleared :
    (∃ (s : State) (k : Fin 960) (n : Nat),
      max 1 (s.rd (R.TILE.SPAD_CTRL.YIELD_WAIT k)) ≤ n) ∧
    (∃ (s : State) (p : Path) (k : Fin 960) (n : BitVec 20),
      s.reaches p (R.TILE.SPAD_CLEAR_CTRL.GO k).addr none ∧
      let u := s.taken p (R.TILE.SPAD_CLEAR_CTRL.GO k).addr 4
      u.on (R.TILE.SPAD_STAT.CLEARING k) = false ∧
      u.tileIdle k = true ∧
      n ≠ 0 ∧
      (∀ w ∈ List.range 16, 2 ≤ u.rd (R.TILE.SPAD_WIN_CTRL.STATE k w) → overlaps (u.rd (R.TILE.SPAD_CLEAR k) * 16) ((u.rd (R.TILE.SPAD_CLEAR k) + n.toNat) * 16) (u.rd (R.TILE.SPAD_WIN_BASE k w)) (u.rd (R.TILE.SPAD_WIN_LIMIT k w)) = false)) ∧
    (∃ (s : State) (p : Path) (k : Fin 960) (n : BitVec 20) (w : Fin 16),
      s.reaches p (R.TILE.SPAD_CLEAR_CTRL.GO k).addr none ∧
      let u := s.taken p (R.TILE.SPAD_CLEAR_CTRL.GO k).addr 4
      u.on (R.TILE.SPAD_STAT.CLEARING k) = false ∧
      2 ≤ u.rd (R.TILE.SPAD_WIN_CTRL.STATE k w) ∧
      overlaps (u.rd (R.TILE.SPAD_CLEAR k) * 16) ((u.rd (R.TILE.SPAD_CLEAR k) + n.toNat) * 16) (u.rd (R.TILE.SPAD_WIN_BASE k w)) (u.rd (R.TILE.SPAD_WIN_LIMIT k w)) = true) ∧
    (∃ (s : State) (k : Fin 960) (f : Nat) (n : Nat) (c : Nat),
      s.on (R.TILE.SPAD_STAT.CLEARING k) = true ∧
      Cells.get (0, 0) s.tile.clears k = (f, n) ∧
      n ≤ 64 * c) ∧
    (∃ (s : State) (k : Fin 960) (f : Nat) (n : Nat) (c : Nat),
      s.on (R.TILE.SPAD_STAT.CLEARING k) = true ∧
      Cells.get (0, 0) s.tile.clears k = (f, n) ∧
      64 * c < n) :=
  ⟨⟨State.reset, 3, 64, by decide +kernel⟩,
   ⟨State.reset, (.sideband .a), 3, 7, by decide +kernel⟩,
   ⟨openWin, (.sideband .a), 3, 20, 2, by decide +kernel⟩,
   ⟨clearing1, 3, 16, 1, 1, by decide +kernel⟩,
   ⟨clearing1, 3, 16, 1, 0, by decide +kernel⟩⟩

theorem witness_WindowsTakeRemoteWrites :
    (∃ (s : State) (p : Path) (k : Fin 960) (n : Fin 16),
      s.reaches p (R.TILE.WIN_ALLOC.GO k).addr none ∧
      let u := s.taken p (R.TILE.WIN_ALLOC.GO k).addr 4
      u.rd (R.TILE.SPAD_WIN_CTRL.STATE k n) = 0 ∧
      (∀ m ∈ List.range n, u.rd (R.TILE.SPAD_WIN_CTRL.STATE k m) ≠ 0)) ∧
    (∃ (s : State) (p : Path) (k : Fin 960),
      s.reaches p (R.TILE.WIN_ALLOC.GO k).addr none ∧
      let u := s.taken p (R.TILE.WIN_ALLOC.GO k).addr 4
      (∀ m ∈ List.range 16, u.rd (R.TILE.SPAD_WIN_CTRL.STATE k m) ≠ 0)) ∧
    (∃ (s : State) (p : Path) (k : Fin 960) (n : Fin 16),
      s.reaches p (R.TILE.SPAD_WIN_CTRL.OPEN k n).addr none ∧
      let u := s.taken p (R.TILE.SPAD_WIN_CTRL.OPEN k n).addr 4
      let b := u.rd (R.TILE.SPAD_WIN_BASE k n)
      let l := u.rd (R.TILE.SPAD_WIN_LIMIT k n)
      u.rd (R.TILE.SPAD_WIN_CTRL.STATE k n) = 1 ∧
      b % 16 = 0 ∧
      l % 16 = 0 ∧
      b < l ∧
      l ≤ 10485760 ∧
      (∀ m ∈ List.range 16, m ≠ n → 2 ≤ u.rd (R.TILE.SPAD_WIN_CTRL.STATE k m) → overlaps b l (u.rd (R.TILE.SPAD_WIN_BASE k m)) (u.rd (R.TILE.SPAD_WIN_LIMIT k m)) = false)) ∧
    (∃ (s : State) (p : Path) (k : Fin 960) (n : Fin 16),
      s.reaches p (R.TILE.SPAD_WIN_CTRL.CLOSE k n).addr none ∧
      let u := s.taken p (R.TILE.SPAD_WIN_CTRL.CLOSE k n).addr 4
      u.rd (R.TILE.SPAD_WIN_CTRL.STATE k n) = 2) ∧
    (∃ (s : State) (k : Fin 960) (n : Fin 16),
      s.rd (R.TILE.SPAD_WIN_CTRL.STATE k n) = 3 ∧
      s.rd (R.TILE.SPAD_WIN_SIG.IN_USE k n) = 0) ∧
    (∃ (s : State) (p : Path) (k : Fin 960) (n : Fin 16),
      s.reaches p (R.TILE.SPAD_WIN_CTRL.FREE k n).addr none ∧
      let u := s.taken p (R.TILE.SPAD_WIN_CTRL.FREE k n).addr 4
      u.rd (R.TILE.SPAD_WIN_CTRL.STATE k n) = 1) ∧
    (∃ (s : State) (w : Sender) (k : Fin 960) (n : Fin 16) (off : Nat) (ws : List Word) (prof : Fin 3) (c : Option (Nat × Nat)),
      s.senderPart w = s.partOfRow (k.val / 40) ∧
      s.rd (R.TILE.SPAD_WIN_CTRL.STATE k n) = 2 ∧
      s.admits k n w = true ∧
      off + ws.length ≤ s.rd (R.TILE.SPAD_WIN_LIMIT k n) - s.rd (R.TILE.SPAD_WIN_BASE k n) ∧
      (s.rd (R.TILE.SPAD_WIN_CTRL.MODE k n) = 1 → off % 128 = 0 ∧ ws.length % 128 = 0)) ∧
    (∃ (s : State) (u : Fin 960) (k : Fin 960) (n : Fin 16) (off : Nat) (ws : List Word) (prof : Fin 3),
      s.partOfRow (u.val / 40) = s.partOfRow (k.val / 40) ∧
      s.rd (R.TILE.SPAD_WIN_CTRL.STATE k n) ≠ 2) ∧
    (∃ (s : State) (w : Sender) (k : Fin 960) (n : Fin 16) (l : Landing),
      ((s.tile.landing.find? fun x => decide (x.sender = w ∧ x.tile = k.val ∧ x.win = n.val)) = some l) ∧
      s.arrived l = true ∧
      2 ≤ s.rd (R.TILE.SPAD_WIN_CTRL.STATE k n) ∧
      s.rd (R.TILE.SPAD_WIN_CTRL.MODE k n) ≠ 1 ∧
      let a := s.rd (R.TILE.SPAD_WIN_BASE k n) + l.off
      let ws := wordsOfBytes (s.onWire (bytesOfWords l.words)).2
      a + l.words.length ≤ 16777216) ∧
    (∃ (s : State) (w : Sender) (k : Fin 960) (n : Fin 16) (l : Landing),
      ((s.tile.landing.find? fun x => decide (x.sender = w ∧ x.tile = k.val ∧ x.win = n.val)) = some l) ∧
      s.arrived l = true ∧
      2 ≤ s.rd (R.TILE.SPAD_WIN_CTRL.STATE k n) ∧
      s.rd (R.TILE.SPAD_WIN_CTRL.MODE k n) ≠ 1 ∧
      s.on (R.TILE.SPAD_WIN_SIG.SIG_EN k n) = false) ∧
    (∃ (s : State) (w : Sender) (k : Fin 960) (n : Fin 16) (l : Landing) (x : Triple),
      ((s.tile.landing.find? fun x => decide (x.sender = w ∧ x.tile = k.val ∧ x.win = n.val)) = some l) ∧
      s.arrived l = true ∧
      2 ≤ s.rd (R.TILE.SPAD_WIN_CTRL.STATE k n) ∧
      s.rd (R.TILE.SPAD_WIN_CTRL.MODE k n) = 1 ∧
      l.words.length = 128 ∧
      s.on (R.TILE.SPAD_WIN_SIG.SIG_EN k n) = false ∧
      let a := s.rd (R.TILE.SPAD_WIN_BASE k n) + l.off
      let bs := (s.onWire (bytesOfWords l.words)).2
      let new := Triple.ofBytes (bs.take 483)
      badSpans l.first bs l.seals = [] ∧
      a % 128 = 0 ∧
      a + 128 ≤ 16777216 ∧
      new.code ≠ none ∧
      (if s.lineWritten k (a / 16) then profsAgree (Cells.get 0 s.tile.profs (wordKey k a)) l.prof = true ∧ (s.spadReads l.owner k (wordsFrom a 128)).1 = s ∧ ((s.spadReads l.owner k (wordsFrom a 128)).2.toOption.bind fun old => (adderStage [Triple.ofBytes ((bytesOfWords old).take 483), new] s.nextSlip).toOption) = some x else x = new)) :=
  ⟨⟨openWin, (.sideband .a), 3, 0, by decide +kernel⟩,
   ⟨(List.range 16).foldl (fun s n => s.wr (R.TILE.SPAD_WIN_CTRL.STATE 3 n) 1) State.reset, (.sideband .a), 3, by decide +kernel⟩,
   ⟨openWin.wr (R.TILE.SPAD_WIN_CTRL.STATE 3 2) 1, (.sideband .a), 3, 2, by decide +kernel⟩,
   ⟨openWin, (.sideband .a), 3, 2, by decide +kernel⟩,
   ⟨openWin.wr (R.TILE.SPAD_WIN_CTRL.STATE 3 2) 3, 3, 2, by decide +kernel⟩,
   ⟨openWin.wr (R.TILE.SPAD_WIN_CTRL.STATE 3 2) 1, (.sideband .a), 3, 2, by decide +kernel⟩,
   ⟨openWin, .tile 5, 3, 2, 4, [1, 2, 3], 0, none, by decide +kernel⟩,
   ⟨State.reset, 5, 3, 2, 4, [1, 2, 3], 0, by decide +kernel⟩,
   ⟨landing1, .tile 5, 3, 2, headLanding landing1, by decide +kernel⟩,
   ⟨landing openWin [1, 2, 3], .tile 5, 3, 2, headLanding (landing openWin [1, 2, 3]), by decide +kernel⟩,
   ⟨landing2, .tile 5, 3, 2, headLanding landing2, Triple.ofBytes ((bytesOfWords (headLanding landing2).words).take 483), rfl, by decide +kernel, by decide +kernel, by decide +kernel, by decide +kernel, by decide +kernel, landing2_seals, by decide +kernel⟩⟩

theorem witness_AFirstWriteFillsItsLine :
    (∃ (s : State) (tile : Nat) (w : Nat) (v : Word),
      w < Config.spadWords) :=
  ⟨State.reset, 3, 20, 9, by decide +kernel⟩

theorem witness_ComputeCommandsWork :
    (∃ (z : State) (q : Fin 64) (e : Nat) (x : Work),
      z.atHead q e ∧
      let s := z.headFetched q
      cmdClass e = clsCompute ∧
      cmdOp e = 0 ∧
      fieldBit e 32 0 = false ∧
      (s.computeChecks q e).2.toOption = some x ∧
      s.updateWait q e = 0) ∧
    (∃ (z : State) (q : Fin 64) (e : Nat) (x : Work),
      z.atHead q e ∧
      let s := z.headFetched q
      cmdClass e = clsCompute ∧
      cmdOp e = 0 ∧
      fieldBit e 32 0 = true ∧
      (s.computeChecks q e).2.toOption = some x ∧
      s.updateWait q e = 0) ∧
    (∃ (z : State) (q : Fin 64) (e : Nat) (x : Work),
      z.atHead q e ∧
      let s := z.headFetched q
      cmdClass e = clsCompute ∧
      cmdOp e = 1 ∧
      (s.computeChecks q e).2.toOption = some x ∧
      s.updateWait q e = 0) ∧
    (∃ (z : State) (q : Fin 64) (e : Nat) (x : Work),
      z.atHead q e ∧
      let s := z.headFetched q
      cmdClass e = clsCompute ∧
      cmdOp e = 2 ∧
      z.descFlag0 q e = false ∧
      (s.computeChecks q e).2.toOption = some x ∧
      s.updateWait q e = 0) ∧
    (∃ (z : State) (q : Fin 64) (e : Nat) (x : Work),
      z.atHead q e ∧
      let s := z.headFetched q
      cmdClass e = clsCompute ∧
      cmdOp e = 2 ∧
      z.descFlag0 q e = true ∧
      (s.computeChecks q e).2.toOption = some x ∧
      s.updateWait q e = 0) ∧
    (∃ (z : State) (q : Fin 64) (e : Nat) (x : Work),
      z.atHead q e ∧
      let s := z.headFetched q
      cmdClass e = clsCompute ∧
      cmdOp e = 3 ∧
      z.descFlag0 q e = false ∧
      (s.computeChecks q e).2.toOption = some x ∧
      s.updateWait q e = 0) ∧
    (∃ (z : State) (q : Fin 64) (e : Nat) (x : Work),
      z.atHead q e ∧
      let s := z.headFetched q
      cmdClass e = clsCompute ∧
      cmdOp e = 3 ∧
      z.descFlag0 q e = true ∧
      (s.computeChecks q e).2.toOption = some x ∧
      s.updateWait q e = 0) ∧
    (∃ (z : State) (q : Fin 64) (e : Nat) (x : Work),
      z.atHead q e ∧
      let s := z.headFetched q
      cmdClass e = clsCompute ∧
      cmdOp e = 4 ∧
      (s.computeChecks q e).2.toOption = some x ∧
      s.updateWait q e = 0) ∧
    (∃ (z : State) (q : Fin 64) (e : Nat) (er : Err),
      z.atHead q e ∧
      let s := z.headFetched q
      cmdClass e = clsCompute ∧
      cmdOp e = 0 ∧
      fieldBit e 32 0 = false ∧
      errorOf (s.computeChecks q e).2 = some er ∧
      (s.q q).ahead = [] ∧
      (s.q q).faults = [] ∧
      s.rd (R.CQ.HEAD q) < 2 ^ 32) ∧
    (∃ (s : State) (q : Fin 64) (f : Flight),
      (s.q q).ahead = [] ∧
      (s.q q).faults = []) :=
  ⟨⟨queued (mmCmd 0 0) matmulDesc, 5, mmCmd 0 0, workAt (queued (mmCmd 0 0) matmulDesc) (mmCmd 0 0), by decide +kernel⟩,
   ⟨queued (mmCmd 0 1) anchorOnlyDesc, 5, mmCmd 0 1, workAt (queued (mmCmd 0 1) anchorOnlyDesc) (mmCmd 0 1), by decide +kernel⟩,
   ⟨withRecipe (queued (mmCmd 1 0) mapCmdDesc), 5, mmCmd 1 0, workAt (withRecipe (queued (mmCmd 1 0) mapCmdDesc)) (mmCmd 1 0), by decide +kernel⟩,
   ⟨queued (mmCmd 2 0) reduceDesc, 5, mmCmd 2 0, workAt (queued (mmCmd 2 0) reduceDesc) (mmCmd 2 0), by decide +kernel⟩,
   ⟨queued (mmCmd 2 0) listBuildDesc, 5, mmCmd 2 0, workAt (queued (mmCmd 2 0) listBuildDesc) (mmCmd 2 0), by decide +kernel⟩,
   ⟨queued (mmCmd 3 0) convertDesc, 5, mmCmd 3 0, workAt (queued (mmCmd 3 0) convertDesc) (mmCmd 3 0), by decide +kernel⟩,
   ⟨queued (mmCmd 3 0) prunedConvertDesc, 5, mmCmd 3 0, workAt (queued (mmCmd 3 0) prunedConvertDesc) (mmCmd 3 0), by decide +kernel⟩,
   ⟨queued (mmCmd 4 0) recipeLoadDesc, 5, mmCmd 4 0, workAt (queued (mmCmd 4 0) recipeLoadDesc) (mmCmd 4 0), by decide +kernel⟩,
   ⟨queued (mmCmd 0 0) 0, 5, mmCmd 0 0, .CMD_FIELD, by decide +kernel⟩,
   ⟨State.reset, 5, flight0, by decide +kernel⟩⟩

theorem witness_ArithmeticIsExact :
    (∃ (g : Int) (a : List Val) (b : List Val),
      a.Perm b) ∧
    (∃ (a : Triple) (b : Triple) (x : Triple),
      a.outs.length = 32 ∧
      b.outs.length = 32 ∧
      adderStage [a, b] none = .ok x) ∧
    (∃ (a : Triple) (b : Triple) (x : Slip),
      a.outs.length = 32 ∧
      b.outs.length = 32 ∧
      a.code ≠ none ∧
      b.code = a.code ∧
      x.out < 32 ∧
      x.by_ % 255 ≠ 0) :=
  ⟨⟨1, [.nan, .nan], [.nan, .nan], by decide +kernel⟩,
   ⟨tri 1, tri 2, tri 3, by decide +kernel, by decide +kernel, by rfl⟩,
   ⟨tri 1, tri 2, ⟨3, 0, 1⟩, by decide +kernel⟩⟩

theorem witness_StreamsIssueAndWait :
    (∃ (z : State) (q : Fin 64) (e : Nat) (x : StreamWork),
      z.atHead q e ∧
      let s := z.headFetched q
      cmdClass e = clsStream ∧
      cmdOp e = 0 ∧
      (streamOf e).gathered = false ∧
      (s.streamChecks q e).toOption = some x ∧
      s.slotFree q (streamOf e) = true ∧
      s.bySillage x = true ∧
      (∀ g ∈ (s.q q).flights, g.idx ≠ s.nextIdx q)) ∧
    (∃ (z : State) (q : Fin 64) (e : Nat) (x : StreamWork),
      z.atHead q e ∧
      let s := z.headFetched q
      cmdClass e = clsStream ∧
      cmdOp e = 0 ∧
      (streamOf e).gathered = false ∧
      (s.streamChecks q e).toOption = some x ∧
      s.slotFree q (streamOf e) = true ∧
      s.bySillage x = false) ∧
    (∃ (z : State) (q : Fin 64) (e : Nat) (x : StreamWork),
      z.atHead q e ∧
      let s := z.headFetched q
      cmdClass e = clsStream ∧
      cmdOp e = 0 ∧
      (streamOf e).gathered = true ∧
      (s.streamChecks q e).toOption = some x ∧
      s.slotFree q (streamOf e) = true) ∧
    (∃ (z : State) (q : Fin 64) (e : Nat) (x : StreamWork),
      z.atHead q e ∧
      let s := z.headFetched q
      cmdClass e = clsStream ∧
      cmdOp e = 1 ∧
      (s.streamChecks q e).toOption = some x ∧
      s.slotFree q (streamOf e) = true) ∧
    (∃ (z : State) (q : Fin 64) (e : Nat) (x : StreamWork),
      z.atHead q e ∧
      let s := z.headFetched q
      cmdClass e = clsStream ∧
      cmdOp e = 2 ∧
      (s.streamChecks q e).toOption = some x ∧
      s.slotFree q (streamOf e) = true ∧
      (∀ g ∈ (s.q q).flights, g.idx ≠ s.nextIdx q)) ∧
    (∃ (z : State) (q : Fin 64) (e : Nat),
      z.atHead q e ∧
      let s := z.headFetched q
      cmdClass e = clsStream ∧
      cmdOp e = 1 ∧
      s.slotFree q (streamOf e) = false) ∧
    (∃ (z : State) (q : Fin 64) (e : Nat) (f : Nat) (x : StreamWork),
      z.mayIssue q = true ∧
      (z.q q).ahead = [] ∧
      let i := idxAdd (z.nextIdx q) 1
      let s := z.ringFetch q i
      z.nextIdx q ≠ z.rd (R.CQ.TAIL q) ∧
      i ≠ z.rd (R.CQ.TAIL q) ∧
      i ≠ z.nextIdx q ∧
      z.rd (R.CQ.CTRL.RUNAHEAD q) = 2 ∧
      z.entryAt q (z.nextIdx q) = some e ∧
      scanPasses e = true ∧
      z.entryAt q i = some f ∧
      scanIssues f = true ∧
      (s.streamChecks q f).toOption = some x ∧
      s.slotFree q (streamOf f) = true ∧
      s.bySillage x = true ∧
      x.gathered = false) :=
  ⟨⟨engined (queued (stCmd 0 0 (2 ^ 60 + 0x8000) (3 * 2 ^ 60 + 40 * 2 ^ 48) 2 20000 64) 0), 5, stCmd 0 0 (2 ^ 60 + 0x8000) (3 * 2 ^ 60 + 40 * 2 ^ 48) 2 20000 64, streamAt (engined (queued (stCmd 0 0 (2 ^ 60 + 0x8000) (3 * 2 ^ 60 + 40 * 2 ^ 48) 2 20000 64) 0)) (stCmd 0 0 (2 ^ 60 + 0x8000) (3 * 2 ^ 60 + 40 * 2 ^ 48) 2 20000 64), by decide +kernel⟩,
   ⟨queued (stCmd 0 2 (40 * 1610612736) (3 * 2 ^ 60 + 40 * 2 ^ 48) 1 64 0) 0, 5, stCmd 0 2 (40 * 1610612736) (3 * 2 ^ 60 + 40 * 2 ^ 48) 1 64 0, streamAt (queued (stCmd 0 2 (40 * 1610612736) (3 * 2 ^ 60 + 40 * 2 ^ 48) 1 64 0) 0) (stCmd 0 2 (40 * 1610612736) (3 * 2 ^ 60 + 40 * 2 ^ 48) 1 64 0), by decide +kernel⟩,
   ⟨engined (queued (stCmd 0 1 (2 * 2 ^ 60 + 40 * 2 ^ 48) (3 * 2 ^ 60 + 40 * 2 ^ 48) 1 64 0) 0), 5, stCmd 0 1 (2 * 2 ^ 60 + 40 * 2 ^ 48) (3 * 2 ^ 60 + 40 * 2 ^ 48) 1 64 0, streamAt (engined (queued (stCmd 0 1 (2 * 2 ^ 60 + 40 * 2 ^ 48) (3 * 2 ^ 60 + 40 * 2 ^ 48) 1 64 0) 0)) (stCmd 0 1 (2 * 2 ^ 60 + 40 * 2 ^ 48) (3 * 2 ^ 60 + 40 * 2 ^ 48) 1 64 0), by decide +kernel⟩,
   ⟨queued (stCmd 1 2 (2 * 2 ^ 60 + 40 * 2 ^ 48) (40 * 1610612736) 1 64 0) 0, 5, stCmd 1 2 (2 * 2 ^ 60 + 40 * 2 ^ 48) (40 * 1610612736) 1 64 0, streamAt (queued (stCmd 1 2 (2 * 2 ^ 60 + 40 * 2 ^ 48) (40 * 1610612736) 1 64 0) 0) (stCmd 1 2 (2 * 2 ^ 60 + 40 * 2 ^ 48) (40 * 1610612736) 1 64 0), by decide +kernel⟩,
   ⟨queued (stCmd 2 0 0 2097152 1 4194304 0) 0, 5, stCmd 2 0 0 2097152 1 4194304 0, streamAt (queued (stCmd 2 0 0 2097152 1 4194304 0) 0) (stCmd 2 0 0 2097152 1 4194304 0), by decide +kernel⟩,
   ⟨noSlot (queued (stCmd 1 2 (2 * 2 ^ 60 + 40 * 2 ^ 48) (40 * 1610612736) 1 64 0) 0), 5, stCmd 1 2 (2 * 2 ^ 60 + 40 * 2 ^ 48) (40 * 1610612736) 1 64 0, by decide +kernel⟩,
   ⟨aheadState, 5, mmCmd 0 0, stCmd 0 0 (2 ^ 60 + 0x8000) (3 * 2 ^ 60 + 40 * 2 ^ 48) 2 20000 64, streamAt aheadState (stCmd 0 0 (2 ^ 60 + 0x8000) (3 * 2 ^ 60 + 40 * 2 ^ 48) 2 20000 64), by decide +kernel⟩⟩

theorem witness_QueueCommandsComplete :
    (∃ (z : State) (q : Fin 64) (e : Nat),
      z.atHead q e ∧
      let s := z.headFetched q
      s.plainHead q ∧
      cmdClass e = clsWait ∧
      bareHeader e = true ∧
      cmdOp e = 0 ∧
      itemsReserved e = true ∧
      zeroBytes e 56 59 = true ∧
      s.deadlineOk q e = true ∧
      s.checkCounters q e = none ∧
      s.gateStep q e = none) ∧
    (∃ (z : State) (q : Fin 64) (e : Nat),
      z.atHead q e ∧
      let s := z.headFetched q
      s.plainHead q ∧
      cmdClass e = clsSignal ∧
      bareHeader e = true ∧
      cmdOp e = 0 ∧
      itemsReserved e = true ∧
      zeroBytes e 56 63 = true ∧
      s.checkCounters q e = none ∧
      ((cmdItems e).map Prod.fst).Nodup) ∧
    (∃ (z : State) (q : Fin 64) (e : Nat),
      z.atHead q e ∧
      let s := z.headFetched q
      s.plainHead q ∧
      cmdClass e = clsSignal ∧
      bareHeader e = true ∧
      cmdOp e = 1 ∧
      itemsReserved e = true ∧
      zeroBytes e 56 63 = true ∧
      s.checkCounters q e = none ∧
      ((cmdItems e).map Prod.fst).Nodup) ∧
    (∃ (z : State) (q : Fin 64) (e : Nat),
      z.atHead q e ∧
      let s := z.headFetched q
      s.plainHead q ∧
      cmdClass e = clsSignal ∧
      bareHeader e = true ∧
      cmdOp e = 2 ∧
      itemsReserved e = true ∧
      zeroBytes e 56 63 = true ∧
      s.checkCounters q e = none ∧
      (∀ x ∈ cmdItems e, x.1 < 8) ∧
      ((cmdItems e).map Prod.fst).Nodup) ∧
    (∃ (z : State) (q : Fin 64) (e : Nat) (p : Nat),
      z.atHead q e ∧
      let s := z.headFetched q
      s.plainHead q ∧
      cmdClass e = clsCommit ∧
      z.rd R.PWR.STAT.SHED = 0 ∧
      s.queuePart q = some p ∧
      bareHeader e = true ∧
      cmdOp e = 0 ∧
      s.checkCounters q e = none ∧
      (∀ w ∈ commitWrites e, s.commitTarget p w.1 = true)) ∧
    (∃ (z : State) (q : Fin 64) (e : Nat),
      z.atHead q e ∧
      let s := z.headFetched q
      z.serves pgTB = true ∧
      s.plainHead q ∧
      cmdClass e = clsSnap ∧
      cmdOp e = 0 ∧
      bareHeader e = true ∧
      zeroBytes e 24 63 = true ∧
      s.checkCounters q e = none) ∧
    (∃ (s : State) (q : Fin 64) (i : Nat) (n : Nat) (f : Flight),
      s.snap.sw = [(n, some (q.val, i))] ∧
      n ≤ s.now ∧
      s.flight q i = some f ∧
      f.left = 1 ∧
      f.err = none ∧
      (s.q q).flights.Nodup) ∧
    (∃ (z : State) (q : Fin 64) (e : Nat),
      z.atHead q e ∧
      let s := z.headFetched q
      z.serves pgTB = true ∧
      s.plainHead q ∧
      cmdClass e = clsSnap ∧
      cmdOp e = 1 ∧
      bareHeader e = true ∧
      zeroBytes e 24 63 = true ∧
      s.checkCounters q e = none) ∧
    (∃ (z : State) (q : Fin 64) (e : Nat),
      z.atHead q e ∧
      let s := z.headFetched q
      s.plainHead q ∧
      cmdClass e = clsSnap ∧
      cmdOp e = 2 ∧
      bareHeader e = true ∧
      zeroBytes e 24 63 = true ∧
      s.checkCounters q e = none) ∧
    (∃ (z : State) (q : Fin 64) (e : Nat),
      z.atHead q e ∧
      let s := z.headFetched q
      s.plainHead q ∧
      cmdClass e = clsEvalBegin ∧
      bareHeader e = true ∧
      cmdOp e = 0 ∧
      zeroBytes e 25 27 = true ∧
      zeroBytes e 32 63 = true ∧
      (field e 24 7 0 = 0 ∨ field e 24 7 0 = 1 ∧ s.stepActive ((s.queuePart q).getD 8) = true) ∧
      s.checkCounters q e = none ∧
      s.on (R.CQ.STAT.EVAL q) = false) ∧
    (∃ (z : State) (q : Fin 64) (e : Nat),
      z.atHead q e ∧
      let s := z.headFetched q
      s.plainHead q ∧
      cmdClass e = clsEvalEnd ∧
      bareHeader e = true ∧
      cmdOp e = 0 ∧
      zeroBytes e 16 27 = true ∧
      zeroBytes e 32 63 = true ∧
      s.checkCounters q e = none ∧
      s.on (R.CQ.STAT.EVAL q) = true ∧
      field e 28 31 0 = s.rd (R.CQ.EVAL_ID q)) ∧
    (∃ (s : State) (q : Fin 64) (i : Nat) (f : Flight),
      s.flight q i = some f ∧
      f.left = 0 ∧
      f.err = none ∧
      s.inFrozen q i = false) ∧
    (∃ (s : State) (q : Fin 64) (i : Nat) (f : Flight) (er : Err),
      s.flight q i = some f ∧
      f.left = 0 ∧
      f.err = some er ∧
      s.inFrozen q i = false ∧
      (s.q q).faults = [] ∧
      i < 2 ^ 32 ∧
      idxBefore i (s.rd (R.CQ.HEAD q)) = true) :=
  ⟨⟨queued waitE 0, 5, waitE, by decide +kernel⟩,
   ⟨queued (sigE 0) 0, 5, sigE 0, by decide +kernel⟩,
   ⟨queued (sigE 1) 0, 5, sigE 1, by decide +kernel⟩,
   ⟨queued (sigE 2) 0, 5, sigE 2, by decide +kernel⟩,
   ⟨queued commitE 0, 5, commitE, 1, by decide +kernel⟩,
   ⟨queued (snapE 0) 0, 5, snapE 0, by decide +kernel⟩,
   ⟨snapping, 5, 3, 0, { running.newFlight 5 3 waitE [] with left := 1 }, by decide +kernel⟩,
   ⟨queued (snapE 1) 0, 5, snapE 1, by decide +kernel⟩,
   ⟨queued (snapE 2) 0, 5, snapE 2, by decide +kernel⟩,
   ⟨queued (evE 8 0) 0, 5, evE 8 0, by decide +kernel⟩,
   ⟨((queued (evE 9 7) 0).wr (R.CQ.STAT.EVAL 5) 1).wr (R.CQ.EVAL_ID 5) 7, 5, evE 9 7, by decide +kernel⟩,
   ⟨inFlight none, 5, 3, (inFlight none).q 5 |>.flights.headD (State.reset.newFlight 0 0 0 []), by decide +kernel⟩,
   ⟨inFlight (some .MEM_UE), 5, 3, (inFlight (some .MEM_UE)).q 5 |>.flights.headD (State.reset.newFlight 0 0 0 []), .MEM_UE, by decide +kernel⟩⟩

theorem witness_QueuesAreManaged :
    (∃ (s : State) (p : Path) (q : Fin 64),
      s.reaches p (R.PG.CTRL.EN (pgCQ q)).addr none ∧
      let u := s.taken p (R.PG.CTRL.EN (pgCQ q)).addr 4
      let b := u.rd (R.CQ.BASE q)
      u.on (R.PG.CTRL.EN (pgCQ q)) = false ∧
      u.on (R.CQ.STAT.CLAIMED q) = true ∧
      b % 64 = 0 ∧
      (adrSpace b = 0 ∧ u.onNode b = true ∨ adrSpace b = 1) ∧
      6 ≤ u.rd (R.CQ.SIZE q) ∧
      u.rd (R.CQ.SIZE q) ≤ 16) ∧
    (∃ (s : State) (p : Path) (q : Fin 64),
      s.reaches p (R.PG.CTRL.EN (pgCQ q)).addr none ∧
      let u := s.taken p (R.PG.CTRL.EN (pgCQ q)).addr 4
      u.on (R.PG.CTRL.EN (pgCQ q)) = false ∧
      u.on (R.CQ.STAT.CLAIMED q) = false) ∧
    (∃ (s : State) (p : Path) (q : Fin 64) (v : BitVec 32),
      s.reaches p (R.CQ.TAIL q).addr none ∧
      let u := s.taken p (R.CQ.TAIL q).addr 4
      idxSub v.toNat (u.lowIndex q) ≤ 2 ^ u.rd (R.CQ.SIZE q) ∧
      idxSub v.toNat (u.rd (R.CQ.DONE q)) ≤ 2 ^ u.rd (R.CQ.SIZE q) ∧
      idxSub v.toNat (u.rd (R.CQ.HEAD q)) ≤ 2 ^ 31 ∧
      u.on (R.CQ.STAT.ABANDONING q) = false) ∧
    (∃ (s : State) (p : Path) (q : Fin 64) (v : BitVec 32),
      s.reaches p (R.CQ.TAIL q).addr none ∧
      let u := s.taken p (R.CQ.TAIL q).addr 4
      2 ^ u.rd (R.CQ.SIZE q) < idxSub v.toNat (u.rd (R.CQ.DONE q))) ∧
    (∃ (s : State) (port : Port) (fn : Nat) (q : Fin 64) (v : BitVec 32),
      s.answers (.host port fn) (R.CQ.TAIL q).addr = true) ∧
    (∃ (s : State) (p : Path) (q : Fin 64) (b : Bool),
      s.reaches p (R.CQ.CTRL.PAUSE q).addr none) ∧
    (∃ (s : State) (p : Path) (part : Fin 8) (n : Nat),
      s.reaches p R.SIG.QALLOC.GO.addr (some part.val) ∧
      let u := s.taken p R.SIG.QALLOC.GO.addr 4
      (((u.queuesOf part).find? fun q => !u.on (R.CQ.STAT.CLAIMED q)) = some n)) ∧
    (∃ (s : State) (p : Path) (part : Fin 8),
      s.reaches p R.SIG.QALLOC.GO.addr (some part.val) ∧
      let u := s.taken p R.SIG.QALLOC.GO.addr 4
      (∀ q ∈ u.queuesOf part, u.on (R.CQ.STAT.CLAIMED q) = true)) ∧
    (∃ (s : State) (p : Path) (q : Fin 64),
      s.reaches p R.SIG.QFREE.GO.addr (s.queuePart q) ∧
      let u := s.taken p R.SIG.QFREE.GO.addr 4
      u.on (R.PG.CTRL.EN (pgCQ q)) = false ∧
      (u.q q).flights = []) ∧
    (∃ (s : State) (p : Path) (q : Fin 64),
      s.reaches p R.SIG.QFREE.GO.addr (s.queuePart q) ∧
      let u := s.taken p R.SIG.QFREE.GO.addr 4
      (u.on (R.PG.CTRL.EN (pgCQ q)) = true ∨ (u.q q).flights ≠ [])) :=
  ⟨⟨running.wr (R.PG.CTRL.EN (pgCQ 5)) 0, (.sideband .a), 5, by decide +kernel⟩,
   ⟨State.reset, (.sideband .a), 5, by decide +kernel⟩,
   ⟨running, (.sideband .a), 5, 64, by decide +kernel⟩,
   ⟨running, (.sideband .a), 5, 65, by decide +kernel⟩,
   ⟨running.wr (R.HOST.PORT_STAT.VF_EN 0) 1, .a, 2, 5, 1, by decide +kernel⟩,
   ⟨running, (.sideband .a), 5, true, by decide +kernel⟩,
   ⟨running.wr (R.CQ.STAT.CLAIMED 5) 0, (.sideband .a), 1, 5, by decide +kernel⟩,
   ⟨running, (.sideband .a), 1, by decide +kernel⟩,
   ⟨running.wr (R.PG.CTRL.EN (pgCQ 5)) 0, (.sideband .a), 5, by decide +kernel⟩,
   ⟨running, (.sideband .a), 5, by decide +kernel⟩⟩

theorem witness_QueueFaultsAndMisses :
    (∃ (s : State) (p : Path) (q : Fin 64) (f : FaultRec),
      s.reaches p (R.CQ.RESUME.GO q).addr none ∧
      let u := s.taken p (R.CQ.RESUME.GO q).addr 4
      u.firstFault q = some f) ∧
    (∃ (s : State) (p : Path) (q : Fin 64) (f : FaultRec),
      s.reaches p (R.CQ.RESUME.GO q).addr none ∧
      let u := s.taken p (R.CQ.RESUME.GO q).addr 4
      u.firstFault q = some f ∧
      (u.q q).finished = [] ∧
      (u.q q).faults = [f] ∧
      u.rd (R.CQ.DONE q) = f.idx ∧
      f.idx < 2 ^ 32) ∧
    (∃ (s : State) (p : Path) (q : Fin 64) (f : FaultRec) (e : Nat),
      s.reaches p (R.CQ.RESUME.GO q).addr none ∧
      let u := s.taken p (R.CQ.RESUME.GO q).addr 4
      u.firstFault q = some f ∧
      (u.q q).finished = [] ∧
      (u.q q).faults = [f] ∧
      u.rd (R.CQ.DONE q) = f.idx ∧
      f.idx < 2 ^ 32 ∧
      u.entryAt q f.idx = some e ∧
      cmdDoneEn e = true) ∧
    (∃ (s : State) (p : Path) (q : Fin 64),
      s.reaches p (R.CQ.RESUME.GO q).addr none ∧
      let u := s.taken p (R.CQ.RESUME.GO q).addr 4
      u.firstFault q = none) ∧
    (∃ (s : State) (q : Fin 64) (i : Nat) (d : Nat) (f : Flight),
      s.flight q i = some f ∧
      f.deadline = some d ∧
      d ≤ s.time ∧
      f.missed = false ∧
      s.on (R.CQ.CTRL.MISS_ACT q) = false ∧
      s.on (R.CQ.DL_MISS_IDX.VALID q) = false ∧
      f.idx = i) ∧
    (∃ (s : State) (q : Fin 64) (i : Nat) (d : Nat),
      s.flight q i = none ∧
      s.entryDeadline q i = some d ∧
      d ≤ s.time ∧
      (s.q q).missed.contains i = false ∧
      s.yetToIssue q i = true ∧
      s.on (R.CQ.CTRL.MISS_ACT q) = false ∧
      s.on (R.CQ.DL_MISS_IDX.VALID q) = false) ∧
    (∃ (s : State) (q : Fin 64),
      s.rd (R.CQ.WAIT_LIMIT q) ≠ 0 ∧
      (s.queueStat q).1 = 2 ∧
      (s.q q).limited = false ∧
      (s.q q).since + s.rd (R.CQ.WAIT_LIMIT q) ≤ s.now) :=
  ⟨⟨faultedQ, (.sideband .a), 5, ⟨3, .MEM_UE, 7, false, true⟩, by decide +kernel⟩,
   ⟨faultedQ, (.sideband .a), 5, ⟨3, .MEM_UE, 7, false, true⟩, by decide +kernel⟩,
   ⟨faultedQ, (.sideband .a), 5, ⟨3, .MEM_UE, 7, false, true⟩, waitE, by decide +kernel⟩,
   ⟨running, (.sideband .a), 5, by decide +kernel⟩,
   ⟨lateFlight, 5, 3, 0, lateFlight.q 5 |>.flights.headD (State.reset.newFlight 0 0 0 []), by decide +kernel⟩,
   ⟨lateEntry, 5, 1, 5, by decide +kernel⟩,
   ⟨longWait, 5, by decide +kernel⟩⟩

theorem witness_CountersAreAllocatedFreedAndChanged :
    (∃ (s : State) (p : Path) (part : Fin 8) (n : BitVec 7) (b : Nat),
      s.reaches p R.SIG.CALLOC.GO.addr (some part.val) ∧
      let u := s.taken p R.SIG.CALLOC.GO.addr 4
      let k := if n = 0 then 1 else min n.toNat 64
      let lo := u.act (R.MOD.SIG_RANGE.BASE part)
      lo ≤ b ∧
      b + k ≤ lo + u.act (R.MOD.SIG_RANGE.COUNT part) ∧
      (∀ i ∈ List.range k, Cells.get false u.sig.alloc (b + i) = false) ∧
      (∀ j ∈ List.range (b - lo), ∃ i ∈ List.range k, Cells.get false u.sig.alloc (lo + j + i) = true)) ∧
    (∃ (s : State) (p : Path) (b : BitVec 12) (n : BitVec 7),
      let k := if n = 0 then 0 else min n.toNat 64
      s.reaches p R.SIG.CFREE.GO.addr (s.ctrsPart b.toNat k) ∧
      let u := s.taken p R.SIG.CFREE.GO.addr 4
      (∀ i ∈ List.range k, u.waitedOn (b.toNat + i) = false ∧ u.stepCounter (b.toNat + i) = false)) ∧
    (∃ (s : State) (p : Path) (i : BitVec 12),
      s.reaches p R.SIG.CTR_SEL.GO.addr none) ∧
    (∃ (s : State) (p : Path) (i : BitVec 12),
      s.reaches p R.SIG.CTR_SEL.GO.addr none) :=
  ⟨⟨running, (.sideband .a), 1, 3, 0, by decide +kernel⟩,
   ⟨running, (.sideband .a), 1, 3, by decide +kernel⟩,
   ⟨running.wr R.SIG.CTR_DATA (2 ^ 48 - 1) |>.putCtr 9 4 false, (.sideband .a), 9, by decide +kernel⟩,
   ⟨running.wr R.SIG.CTR_DATA 77, (.sideband .a), 9, by decide +kernel⟩⟩

theorem witness_TransfersMergeFetchAndReturn :
    (∃ (s : State) (e : Fin 16) (x : Xfer) (m : MergeEntry),
      s.engineOpen e = true ∧
      let u := s.feedGathers e
      u.nextXfer e = some x ∧
      u.stream.entries.find? (joins e x) = some m) ∧
    (∃ (s : State) (e : Fin 16) (x : Xfer),
      s.engineOpen e = true ∧
      let u := s.feedGathers e
      u.nextXfer e = some x ∧
      u.stream.entries.find? (joins e x) = none) ∧
    (∃ (s : State) (e : Fin 16) (id : Nat) (m : MergeEntry) (x : Xfer),
      s.entryOf e id = some m ∧
      m.issued = none ∧
      m.xfers.head? = some x ∧
      (m.born + m.hold ≤ s.now ∨ m.maxJoin ≤ m.xfers.length)) ∧
    (∃ (s : State) (e : Fin 16) (id : Nat) (m : MergeEntry) (x : Xfer),
      s.entryOf e id = some m ∧
      m.issued.isSome = true ∧
      m.words = none ∧
      m.err = none ∧
      m.xfers.head? = some x ∧
      m.bytes.length = x.n ∧
      let bs := (s.onWire m.bytes).2
      badSpans (firstSpan (byteBase x.src)) bs m.seals = []) ∧
    (∃ (s : State) (e : Fin 16) (id : Nat) (m : MergeEntry) (x : Xfer),
      s.entryOf e id = some m ∧
      m.issued.isSome = true ∧
      m.words = none ∧
      m.err = none ∧
      m.xfers.head? = some x ∧
      m.bytes.length = x.n ∧
      s.stream.posts = [] ∧
      badSpans (firstSpan (byteBase x.src)) (s.onWire m.bytes).2 m.seals ≠ []) ∧
    (∃ (s : State) (e : Fin 16) (id : Nat) (m : MergeEntry) (er : Err),
      s.entryOf e id = some m ∧
      m.issued.isSome = true ∧
      m.words = none ∧
      m.err = some er ∧
      s.stream.posts = []) ∧
    (∃ (s : State) (e : Fin 16) (id : Nat) (n : Nat) (m : MergeEntry),
      s.entryOf e id = some m ∧
      m.issued = some n ∧
      m.words = none ∧
      m.slow = false ∧
      s.rd (R.SILL.FETCH_WARN e) ≠ 0 ∧
      n + s.rd (R.SILL.FETCH_WARN e) ≤ s.now) ∧
    (∃ (s : State) (e : Fin 16) (id : Nat) (m : MergeEntry) (x : Xfer) (bs : List Byte),
      s.entryOf e id = some m ∧
      m.xfers.head? = some x ∧
      s.awaitsHost x.owner.part m = true ∧
      (∀ r ∈ s.host.reqs, r.entry ≠ some id) ∧
      s.hostMem [] (adrHost x.src) x.n = some bs) ∧
    (∃ (s : State) (e : Fin 16) (id : Nat) (m : MergeEntry) (x : Xfer),
      s.entryOf e id = some m ∧
      m.xfers.head? = some x ∧
      s.awaitsHost x.owner.part m = true ∧
      (∀ r ∈ s.host.reqs, r.entry ≠ some id) ∧
      s.stream.posts = []) ∧
    (∃ (s : State) (e : Fin 16) (id : Nat) (m : MergeEntry) (x : Xfer),
      s.entryOf e id = some m ∧
      m.xfers.head? = some x ∧
      s.awaitsHost x.owner.part m = true ∧
      (∀ r ∈ s.host.reqs, r.entry ≠ some id) ∧
      s.stream.posts = []) :=
  ⟨⟨accepting [mergeAt none], 0, xfer0, mergeAt none, by decide +kernel⟩,
   ⟨accepting [], 0, xfer0, by decide +kernel⟩,
   ⟨accepting [mergeAt none], 0, 8, mergeAt none, xfer0, by decide +kernel⟩,
   ⟨accepting [{ mergeAt (some 0) with xfers := [{ xfer0 with n := 2 }], bytes := [5, 5], seals := sealsOf (firstSpan (byteBase xfer0.src)) [5, 5] }], 0, 8, { mergeAt (some 0) with xfers := [{ xfer0 with n := 2 }], bytes := [5, 5], seals := sealsOf (firstSpan (byteBase xfer0.src)) [5, 5] }, { xfer0 with n := 2 }, by decide +kernel⟩,
   ⟨accepting [{ mergeAt (some 0) with xfers := [{ xfer0 with n := 2 }], bytes := [5, 5], seals := [1] }], 0, 8, { mergeAt (some 0) with xfers := [{ xfer0 with n := 2 }], bytes := [5, 5], seals := [1] }, { xfer0 with n := 2 }, by decide +kernel⟩,
   ⟨accepting [{ mergeAt (some 0) with err := some .MEM_UE }], 0, 8, { mergeAt (some 0) with err := some .MEM_UE }, .MEM_UE, by decide +kernel⟩,
   ⟨later (2 ^ 40) (accepting [mergeAt (some 0)]), 0, 8, 0, mergeAt (some 0), by decide +kernel⟩,
   ⟨hostBytes (accepting [{ mergeAt (some 0) with xfers := [{ xfer0 with n := 2 }] }]) 0x8000 2 5, 0, 8, { mergeAt (some 0) with xfers := [{ xfer0 with n := 2 }] }, { xfer0 with n := 2 }, [5, 0], by decide +kernel⟩,
   ⟨accepting [mergeAt (some 0)], 0, 8, mergeAt (some 0), xfer0, by decide +kernel⟩,
   ⟨accepting [mergeAt (some 0)], 0, 8, mergeAt (some 0), xfer0, by decide +kernel⟩⟩

theorem witness_FramesAreInjectedAndDropped :
    (∃ (s : State) (e : Fin 16) (id : Nat) (m : MergeEntry) (ws : List Word) (g : Group),
      s.entryOf e id = some m ∧
      m.words = some ws ∧
      ((m.groups.find? fun g => s.hasCredits e g.xfers) = some g) ∧
      g.flits + 1 < flitsOf ws.length ∧
      g.flits ≠ 0 ∧
      (s.groupTiles e g.xfers).Nodup) ∧
    (∃ (s : State) (e : Fin 16) (id : Nat) (m : MergeEntry) (ws : List Word) (g : Group),
      s.entryOf e id = some m ∧
      m.words = some ws ∧
      ((m.groups.find? fun g => s.hasCredits e g.xfers) = some g) ∧
      flitsOf ws.length ≤ g.flits + 1) ∧
    (∃ (s : State) (e : Fin 16) (k : Fin 960) (d : Drop),
      ((s.dropOf e k fun d => decide (d.passed < d.sent)) = some d) ∧
      d.write.isSome = true) ∧
    (∃ (s : State) (e : Fin 16) (k : Fin 960) (d : Drop) (l : Landing),
      ((s.dropOf e k fun d => (d.write.any fun l => !s.landsLater l) && decide (d.total ≤ d.passed)) = some d) ∧
      d.write = some l) :=
  ⟨⟨accepting [{ mergeAt (some 0) with words := some (List.replicate 96 5), groups := [⟨[xfer0], 1⟩] }], 0, 8, { mergeAt (some 0) with words := some (List.replicate 96 5), groups := [⟨[xfer0], 1⟩] }, List.replicate 96 5, ⟨[xfer0], 1⟩, by decide +kernel⟩,
   ⟨accepting [{ mergeAt (some 0) with words := some (List.replicate 32 5) }], 0, 8, { mergeAt (some 0) with words := some (List.replicate 32 5) }, List.replicate 32 5, ⟨[xfer0], 0⟩, by decide +kernel⟩,
   ⟨dropping, 0, 40, drop0, by decide +kernel⟩,
   ⟨{ dropping with stream := { dropping.stream with drops := [{ drop0 with passed := 1 }] } }, 0, 40, { drop0 with passed := 1 }, ⟨40, 0, 0, [1], .sillage 0, none, 0, 0, []⟩, by decide +kernel⟩⟩

theorem witness_CollectivesAndTheirEntries :
    (∃ (s : State) (b : State) (q : Fin 64) (e : Nat) (x : CollWork) (d : GroupDesc) (tab : List XchgRow × Nat × Nat × Nat),
      s.collReady q e x d tab b ∧
      cmdOp e = 0 ∧
      s.collClear q x d b) ∧
    (∃ (s : State) (b : State) (q : Fin 64) (e : Nat) (x : CollWork) (d : GroupDesc) (tab : List XchgRow × Nat × Nat × Nat),
      s.collReady q e x d tab b ∧
      cmdOp e = 1 ∧
      s.collClear q x d b) ∧
    (∃ (s : State) (b : State) (q : Fin 64) (e : Nat) (x : CollWork) (d : GroupDesc) (tab : List XchgRow × Nat × Nat × Nat),
      s.collReady q e x d tab b ∧
      cmdOp e = 2 ∧
      s.collClear q x d b) ∧
    (∃ (s : State) (b : State) (q : Fin 64) (e : Nat) (x : CollWork) (d : GroupDesc) (tab : List XchgRow × Nat × Nat × Nat),
      s.collReady q e x d tab b ∧
      cmdOp e = 3 ∧
      s.collClear q x d b) ∧
    (∃ (s : State) (b : State) (q : Fin 64) (e : Nat) (x : CollWork) (d : GroupDesc) (tab : List XchgRow × Nat × Nat × Nat),
      s.collReady q e x d tab b ∧
      cmdOp e = 4 ∧
      s.collClear q x d b) ∧
    (∃ (s : State) (b : State) (q : Fin 64) (e : Nat) (x : CollWork) (d : GroupDesc) (tab : List XchgRow × Nat × Nat × Nat),
      s.collReady q e x d tab b ∧
      cmdOp e = 5 ∧
      s.collClear q x d b) ∧
    (∃ (s : State) (b : State) (q : Fin 64) (e : Nat) (x : CollWork) (d : GroupDesc) (tab : List XchgRow × Nat × Nat × Nat),
      s.collReady q e x d tab b ∧
      cmdOp e = 5 ∧
      d.tile = true) ∧
    (∃ (s : State) (p : Path) (n : Fin 256) (v : BitVec 32),
      s.reaches p (R.COLL.GRP_CFG.VALID (grpPage n) (grpIdx n)).addr none ∧
      let u := s.taken p (R.COLL.GRP_CFG.VALID (grpPage n) (grpIdx n)).addr 4
      let g := grpPage n
      let i := grpIdx n
      u.grpBound n = false) ∧
    (∃ (s : State) (p : Path) (n : Fin 256) (v : BitVec 32),
      s.reaches p (R.COLL.GRP_CFG.VALID (grpPage n) (grpIdx n)).addr none ∧
      let u := s.taken p (R.COLL.GRP_CFG.VALID (grpPage n) (grpIdx n)).addr 4
      u.grpBound n = true ∧
      u.grpRuns n ≠ [] ∧
      u.grpValid n = true) ∧
    (∃ (s : State) (p : Path) (n : Fin 256) (r : CollRun),
      s.reaches p (R.COLL.GRP_CTRL (grpPage n) (grpIdx n)).addr none ∧
      let u := s.taken p (R.COLL.GRP_CTRL (grpPage n) (grpIdx n)).addr 4
      ((((u.grpRuns n).find? fun r => r.stalled.isSome).or (u.grpRuns n).head?) = some r)) :=
  ⟨⟨grouped (collE 0 0 1 32), checked (grouped (collE 0 0 1 32)) (collE 0 0 1 32) groupD, 5, collE 0 0 1 32, collOf (collE 0 0 1 32), groupD, tabOf 0, by decide +kernel⟩,
   ⟨grouped (collE 1 0 1 32), checked (grouped (collE 1 0 1 32)) (collE 1 0 1 32) groupD, 5, collE 1 0 1 32, collOf (collE 1 0 1 32), groupD, tabOf 1, by decide +kernel⟩,
   ⟨grouped (collE 2 255 1 32), checked (grouped (collE 2 255 1 32)) (collE 2 255 1 32) groupD, 5, collE 2 255 1 32, collOf (collE 2 255 1 32), groupD, tabOf 2, by decide +kernel⟩,
   ⟨grouped (collE 3 255 1 32), checked (grouped (collE 3 255 1 32)) (collE 3 255 1 32) groupD, 5, collE 3 255 1 32, collOf (collE 3 255 1 32), groupD, tabOf 3, by decide +kernel⟩,
   ⟨grouped (collE 4 255 1 32), checked (grouped (collE 4 255 1 32)) (collE 4 255 1 32) groupD, 5, collE 4 255 1 32, collOf (collE 4 255 1 32), groupD, tabOf 4, by decide +kernel⟩,
   ⟨grouped (collE 5 255 2 32), checked (grouped (collE 5 255 2 32)) (collE 5 255 2 32) groupD, 5, collE 5 255 2 32, collOf (collE 5 255 2 32), groupD, tabOf 5, by decide +kernel⟩,
   ⟨tiled, checked tiled (collE 5 255 1 32 (2 * 2 ^ 60 + 40 * 2 ^ 48)) tileD, 5, collE 5 255 1 32 (2 * 2 ^ 60 + 40 * 2 ^ 48), collOf (collE 5 255 1 32 (2 * 2 ^ 60 + 40 * 2 ^ 48)), tileD, ([], 0, 0, 0), by decide +kernel⟩,
   ⟨State.reset, (.sideband .a), 17, 0x0131, by decide +kernel⟩,
   ⟨withRun, (.sideband .a), 0, 0, by decide +kernel⟩,
   ⟨withRun, (.sideband .a), 0, run0, by decide +kernel⟩⟩

theorem witness_MembersExchangeRecordsDataAndAborts :
    (∃ (s : State) (k : Fin 48) (f : Frame) (inc : Nat) (seq : Nat) (part : Nat) (r : StartRec),
      f.body = .msg inc seq part (.start r) ∧
      s.takes k f ∧
      s.receipt f.src inc seq = .take ∧
      s.runOfGroup r.group r.seq = none ∧
      s.seqIssued part r.group r.seq = false) ∧
    (∃ (s : State) (k : Fin 48) (f : Frame) (inc : Nat) (seq : Nat) (part : Nat) (x : StartRec) (r : CollRun),
      f.body = .msg inc seq part (.start x) ∧
      s.takes k f ∧
      s.receipt f.src inc seq = .take ∧
      s.runOfGroup x.group x.seq = some r) ∧
    (∃ (s : State) (k : Fin 48) (f : Frame) (pos : CollPos) (d : List Byte) (seals : List Word) (n : Nat),
      f.body = .collData pos d seals n ∧
      s.takes k f ∧
      s.runOfGroup pos.group pos.seq = none ∧
      (∀ p ∈ List.range 8, s.seqIssued p pos.group pos.seq = false)) ∧
    (∃ (s : State) (k : Fin 48) (f : Frame) (pos : CollPos) (d : List Byte) (seals : List Word) (n : Nat) (r : CollRun),
      f.body = .collData pos d seals n ∧
      s.takes k f ∧
      s.runOfGroup pos.group pos.seq = some r ∧
      r.heard.contains pos.rank = true ∧
      r.stalled = none ∧
      badSpans n d seals = []) ∧
    (∃ (s : State) (k : Fin 48) (f : Frame) (pos : CollPos) (n : Nat) (r : CollRun) (w : Unacked),
      f.body = .collAck pos n ∧
      s.takes k f ∧
      ((s.coll.runs.find? fun r => r.unacked.any fun u => decide (u.tag = f.tag)) = some r) ∧
      ((r.unacked.find? fun u => decide (u.tag = f.tag)) = some w)) ∧
    (∃ (s : State) (k : Fin 48) (f : Frame) (inc : Nat) (seq : Nat) (part : Nat) (g : Nat) (q : Nat) (c : Nat) (rep : Bool),
      f.body = .msg inc seq part (.abort g q c rep) ∧
      s.takes k f ∧
      s.receipt f.src inc seq = .take ∧
      s.runOfGroup g q = none ∧
      s.seqIssued part g q = false ∧
      rep = false ∧
      s.entryOfGroup part g = none) ∧
    (∃ (s : State) (k : Fin 48) (f : Frame) (inc : Nat) (seq : Nat) (part : Nat) (g : Nat) (q : Nat) (c : Nat) (rep : Bool) (r : CollRun),
      f.body = .msg inc seq part (.abort g q c rep) ∧
      s.takes k f ∧
      s.receipt f.src inc seq = .take ∧
      s.runOfGroup g q = some r) :=
  ⟨⟨linked, 0, frameOf (.msg 1 1 1 (.start startR)), 1, 1, 1, startR, by decide +kernel⟩,
   ⟨linkedRun, 0, frameOf (.msg 1 1 1 (.start startR)), 1, 1, 1, startR, run0, by decide +kernel⟩,
   ⟨linked, 0, frameOf (.collData pos0 [1, 2] (sealsOf 512 [1, 2]) 512), pos0, [1, 2], sealsOf 512 [1, 2], 512, by decide +kernel⟩,
   ⟨heardRun, 0, frameOf (.collData pos0 [1, 2] (sealsOf 512 [1, 2]) 512), pos0, [1, 2], sealsOf 512 [1, 2], 512, { run0 with heard := [0] }, by decide +kernel⟩,
   ⟨ackedRun, 0, frameOf (.collAck pos0 3), pos0, 3, { run0 with unacked := [⟨0, 0, 0, 0, 0⟩] }, ⟨0, 0, 0, 0, 0⟩, by decide +kernel⟩,
   ⟨linked, 0, frameOf (.msg 1 1 1 (.abort 9 4 7 false)), 1, 1, 1, 9, 4, 7, false, by decide +kernel⟩,
   ⟨linkedRun, 0, frameOf (.msg 1 1 1 (.abort 9 4 7 false)), 1, 1, 1, 9, 4, 7, false, run0, by decide +kernel⟩⟩

theorem witness_ChunksCoverTheUnits :
    (∃ (lo : Nat) (hi : Nat) (m : Nat),
      lo ≤ hi ∧
      0 < m) :=
  ⟨0, 10, 3, by decide +kernel⟩

theorem witness_GranulesArePlacedMovedAndReleased :
    (∃ (s : State) (p : Path) (c : Fin 64) (gs : List Nat),
      s.reaches p R.QUOTA.OP_CTRL.GO.addr none ∧
      let u := s.taken p R.QUOTA.OP_CTRL.GO.addr 4
      u.mem.op = none ∧
      u.opRange = some gs ∧
      u.placeRefused c gs = none) ∧
    (∃ (s : State) (p : Path) (c : Fin 64) (gs : List Nat) (er : Err),
      s.reaches p R.QUOTA.OP_CTRL.GO.addr none ∧
      let u := s.taken p R.QUOTA.OP_CTRL.GO.addr 4
      u.mem.op = none ∧
      u.opRange = some gs ∧
      u.placeRefused c gs = some er) ∧
    (∃ (s : State) (g : Nat) (o : GranOp),
      s.mem.op = some o ∧
      o.release = false ∧
      g ∈ o.left) ∧
    (∃ (s : State) (p : Path) (c : Fin 64) (gs : List Nat),
      s.reaches p R.QUOTA.OP_CTRL.GO.addr none ∧
      let u := s.taken p R.QUOTA.OP_CTRL.GO.addr 4
      u.mem.op = none ∧
      u.opRange = some gs ∧
      (∀ g ∈ gs, u.gran g = ⟨2, c⟩)) ∧
    (∃ (s : State) (g : Nat) (o : GranOp),
      s.mem.op = some o ∧
      o.release = true ∧
      g ∈ o.left ∧
      ((s.fetchesAt fun p => decide (p.gran = g)) = [])) ∧
    (∃ (s : State) (q : Fin 64) (i : Nat) (m : Move) (p : Place) (d : Place),
      s.moveOf q i = some m ∧
      m.out ≠ m.total ∧
      m.failed = none ∧
      s.queueRoom q = true ∧
      s.moveCheck m m.out = none ∧
      (s.place (m.from m.out)).toOption = some p ∧
      (s.place (m.to m.out)).toOption = some d ∧
      s.moveLocal m = true ∧
      p.gran ≠ d.gran) ∧
    (∃ (s : State) (q : Fin 64) (i : Nat) (m : Move) (p : Place),
      s.moveOf q i = some m ∧
      m.out ≠ m.total ∧
      m.failed = none ∧
      s.queueRoom q = true ∧
      (m.flipped < m.out → s.outFails m = false) ∧
      s.moveCheck m m.out = none ∧
      (s.place (m.from m.out)).toOption = some p ∧
      s.moveLocal m = false) ∧
    (∃ (s : State) (q : Fin 64) (i : Nat) (m : Move) (p : Place) (d : Place),
      s.moveOf q i = some m ∧
      m.flipped < m.out ∧
      s.stream.posts = [] ∧
      (s.mapped (m.from m.flipped)).toOption = some p ∧
      (s.mapped (m.to m.flipped)).toOption = some d ∧
      s.moveLocal m = true ∧
      s.checkData (some m.owner) p granBytes = (s, none) ∧
      s.wornPlace d = false ∧
      p.gran ≠ d.gran ∧
      p.key % granBytes = 0 ∧
      d.key % granBytes = 0 ∧
      s.tile.wire = []) ∧
    (∃ (s : State) (q : Fin 64) (i : Nat) (m : Move) (p : Place),
      s.moveOf q i = some m ∧
      m.flipped < m.out ∧
      (s.mapped (m.from m.flipped)).toOption = some p ∧
      s.moveLocal m = false ∧
      (∀ x ∈ s.fab.txns, x.kind ≠ .move m.owner m.flipped) ∧
      s.posting m m.flipped = false ∧
      (∀ y ∈ s.stream.moves, y.failed = none) ∧
      s.nodeKind (adrNode m.dst) ≠ 3) :=
  ⟨⟨placing, (.sideband .a), 0, [placedG], by decide +kernel⟩,
   ⟨placing, (.sideband .a), 9, [placedG], .PLACE_CTX, by decide +kernel⟩,
   ⟨placed ⟨false, 0, [placedG]⟩, placedG, ⟨false, 0, [placedG]⟩, by decide +kernel⟩,
   ⟨homed, (.sideband .a), 0, [placedG], by decide +kernel⟩,
   ⟨placed ⟨true, 0, [placedG]⟩, placedG, ⟨true, 0, [placedG]⟩, by decide +kernel⟩,
   ⟨moving 0 0, 5, 3, move0 0 0, .bond 40 0, .stack 0 0, by decide +kernel⟩,
   ⟨movingTo 9 0 0, 5, 3, { move0 0 0 with dst := 9 * 2 ^ 44 + stackBase }, .bond 40 0, by decide +kernel⟩,
   ⟨moving 1 0, 5, 3, move0 1 0, .bond 40 0, .stack 0 0, by decide +kernel, by decide +kernel, by decide +kernel, by decide +kernel, by decide +kernel, by decide +kernel,
    State.checkData_clean _ _ _ (by decide +kernel) (by decide +kernel) (by decide +kernel) (by decide +kernel), by decide +kernel, by decide +kernel⟩,
   ⟨movingTo 9 1 0, 5, 3, { move0 1 0 with dst := 9 * 2 ^ 44 + stackBase }, .bond 40 0, by decide +kernel⟩⟩

theorem witness_ContextsAreClaimedAndFreed :
    (∃ (s : State) (p : Path) (part : Fin 8) (c : Nat),
      s.reaches p R.QUOTA.CTX_ALLOC.GO.addr none ∧
      let u := s.taken p R.QUOTA.CTX_ALLOC.GO.addr 4
      (((List.range 64).find? fun c => u.ctxPart c = some part.val && !u.on (R.QUOTA.CTX_FLAGS.CLAIMED c)) = some c)) ∧
    (∃ (s : State) (p : Path) (part : Fin 8),
      s.reaches p R.QUOTA.CTX_ALLOC.GO.addr none ∧
      let u := s.taken p R.QUOTA.CTX_ALLOC.GO.addr 4
      (((List.range 64).find? fun c => u.ctxPart c = some part.val && !u.on (R.QUOTA.CTX_FLAGS.CLAIMED c)) = none)) ∧
    (∃ (s : State) (p : Path) (c : Fin 64),
      s.reaches p R.QUOTA.CTX_FREE.GO.addr none ∧
      let u := s.taken p R.QUOTA.CTX_FREE.GO.addr 4
      u.rd (R.QUOTA.CTX_USED_BONDED c) = 0 ∧
      u.rd (R.QUOTA.CTX_USED_STACK c) = 0 ∧
      u.rd (R.QUOTA.CTX_USED_FLASH c) = 0) ∧
    (∃ (s : State) (p : Path) (c : Fin 64),
      s.reaches p R.QUOTA.CTX_FREE.GO.addr none ∧
      let u := s.taken p R.QUOTA.CTX_FREE.GO.addr 4
      (u.rd (R.QUOTA.CTX_USED_BONDED c) ≠ 0 ∨ u.rd (R.QUOTA.CTX_USED_STACK c) ≠ 0 ∨ u.rd (R.QUOTA.CTX_USED_FLASH c) ≠ 0)) :=
  ⟨⟨setAct State.reset (R.MOD.QUOTA_ASSIGN 7) 1, (.sideband .a), 1, 7, by decide +kernel⟩,
   ⟨State.reset, (.sideband .a), 1, by decide +kernel⟩,
   ⟨State.reset, (.sideband .a), 7, by decide +kernel⟩,
   ⟨State.reset.wr (usedField 1 7) 3, (.sideband .a), 7, by decide +kernel⟩⟩

theorem witness_AperturesAndSledsFollowTheirControls :
    (∃ (s : State) (p : Path) (n : Fin 192),
      s.reaches p (R.FLASH.APER_CTRL.ENABLE n).addr none ∧
      let u := s.taken p (R.FLASH.APER_CTRL.ENABLE n).addr 4
      let sled := u.rd (R.FLASH.APER_MAP.SLED n)
      let g := u.rd (R.FLASH.APER_MAP.GRANULE n)
      u.on (R.FLASH.APER_CTRL.VALID n) = false ∧
      u.on (R.FLASH.SLED_STAT.ATTACHED sled) = true ∧
      u.partValid (u.rd (R.FLASH.APER_CTRL.PART n)) = true ∧
      (∀ m ∈ List.range 192, m ≠ n → u.on (R.FLASH.APER_CTRL.VALID m) = true → u.rd (R.FLASH.APER_MAP.SLED m) = sled → overlaps g (g + aperGrans) (u.rd (R.FLASH.APER_MAP.GRANULE m)) (u.rd (R.FLASH.APER_MAP.GRANULE m) + aperGrans) = false)) ∧
    (∃ (s : State) (p : Path) (n : Fin 192),
      s.reaches p (R.FLASH.APER_CTRL.DISABLE n).addr none ∧
      let u := s.taken p (R.FLASH.APER_CTRL.DISABLE n).addr 4
      u.on (R.FLASH.APER_CTRL.VALID n) = true) ∧
    (∃ (s : State) (n : Fin 192),
      Cells.get false s.mem.closing (16 + n) = true ∧
      s.aperBusy n = false) ∧
    (∃ (s : State) (p : Path) (i : Fin 4),
      s.reaches p R.FLASH.SLED_CTRL.GO.addr none ∧
      let u := s.taken p R.FLASH.SLED_CTRL.GO.addr 4
      u.on (R.FLASH.SLED_STAT.ATTACHED i) = true) ∧
    (∃ (s : State) (i : Fin 4),
      Cells.get false s.mem.closing i = true ∧
      s.sledBusy i = false ∧
      (∀ m ∈ s.stream.moves, s.moveOnSled i m = false) ∧
      ((s.mem.op.any fun o => o.left.any (onSled i)) = false)) ∧
    (∃ (s : State) (p : Path) (i : Fin 4),
      s.reaches p R.FLASH.SLED_CTRL.GO.addr none ∧
      let u := s.taken p R.FLASH.SLED_CTRL.GO.addr 4
      u.on (R.FLASH.SLED_STAT.PRESENT i) = true ∧
      u.on (R.FLASH.SLED_STAT.ATTACHED i) = false ∧
      u.on (R.FLASH.SLED_STAT.FOREIGN i) = false) ∧
    (∃ (s : State) (p : Path) (i : Fin 4),
      s.reaches p R.FLASH.SLED_CTRL.GO.addr none ∧
      let u := s.taken p R.FLASH.SLED_CTRL.GO.addr 4
      u.on (R.FLASH.SLED_STAT.PRESENT i) = true ∧
      u.on (R.FLASH.SLED_STAT.ATTACHED i) = false) ∧
    (∃ (s : State) (p : Path) (i : Fin 4),
      s.reaches p R.FLASH.SLED_CTRL.GO.addr none ∧
      let u := s.taken p R.FLASH.SLED_CTRL.GO.addr 4
      (u.on (R.FLASH.SLED_STAT.PRESENT i) = false ∨ u.on (R.FLASH.SLED_STAT.ATTACHED i) = true ∨ u.on (R.FLASH.SLED_STAT.FOREIGN i) = true)) ∧
    (∃ (s : State) (i : Fin 4) (foreign : Bool) (pct : Nat) (wear : Nat) (recs : List (Nat × Nat × Nat)) (data : List (Nat × List Byte)),
      s.on (R.FLASH.SLED_STAT.PRESENT i) = false ∧
      s.sledPosition i = true ∧
      0 < pct) ∧
    (∃ (s : State) (i : Fin 4) (ok : Bool) (foreign : Bool) (pct : Nat) (wear : Nat) (recs : List (Nat × Nat × Nat)) (data : List (Nat × List Byte)),
      s.on (R.FLASH.SLED_STAT.PRESENT i) = false ∧
      s.sledPosition i = false) ∧
    (∃ (s : State) (i : Fin 4),
      s.on (R.FLASH.SLED_STAT.PRESENT i) = true ∧
      s.on (R.FLASH.SLED_STAT.ATTACHED i) = false) ∧
    (∃ (s : State) (i : Fin 4),
      s.on (R.FLASH.SLED_STAT.PRESENT i) = true ∧
      s.on (R.FLASH.SLED_STAT.ATTACHED i) = true ∧
      s.stream.posts = []) :=
  ⟨⟨sledIn.wr (R.FLASH.SLED_STAT.ATTACHED 0) 1 |>.wr (R.FLASH.APER_CTRL.PART 9) 1, (.sideband .a), 9, by decide +kernel⟩,
   ⟨sledIn.wr (R.FLASH.APER_CTRL.VALID 9) 1, (.sideband .a), 9, by decide +kernel⟩,
   ⟨(sledIn.wr (R.FLASH.APER_CTRL.VALID 9) 1).onMem fun m => { m with closing := [(25, true)] }, 9, by decide +kernel⟩,
   ⟨sledIn.wr (R.FLASH.SLED_STAT.ATTACHED 0) 1, (.sideband .a), 0, by decide +kernel⟩,
   ⟨(sledIn.wr (R.FLASH.SLED_STAT.ATTACHED 0) 1).onMem fun m => { m with closing := [(0, true)] }, 0, by decide +kernel⟩,
   ⟨sledIn, (.sideband .a), 0, by decide +kernel⟩,
   ⟨sledIn.wr (R.FLASH.SLED_STAT.FOREIGN 0) 1, (.sideband .a), 0, by decide +kernel⟩,
   ⟨sledIn.wr (R.FLASH.SLED_STAT.FOREIGN 0) 1, (.sideband .a), 0, by decide +kernel⟩,
   ⟨sledIn.wr (R.FLASH.SLED_STAT.PRESENT 0) 0, 0, true, 90, 70000, [(3, 2, 1)], [(5, [1, 2])], by decide +kernel⟩,
   ⟨State.reset.wr R.MOD.VARIANT.FLASH_SLEDS 2, 3, true, false, 90, 7, [], [], by decide +kernel⟩,
   ⟨sledIn, 0, by decide +kernel⟩,
   ⟨sledIn.wr (R.FLASH.SLED_STAT.ATTACHED 0) 1, 0, by decide +kernel⟩⟩

theorem witness_ScrubbingAndSparing :
    (∃ (s : State) (stack : Bool) (i : Nat) (met : Upsets) (later : Upsets),
      (i < (if stack then 32 else 960)) ∧
      (stack = true → s.on (R.STACK.SCRUB_CTRL.EN i) = true ∧ s.on (R.STACK.STAT.FAILED i) = false)) ∧
    (∃ (s : State) (n : Fin 960) (bank : Fin 16),
      s.dueRows n bank ≠ [] ∧
      s.rd (R.TILE.BOND_STAT.ROWS_SPARED n) < 1023) ∧
    (∃ (s : State) (n : Fin 960) (bank : Fin 16),
      s.dueRows n bank ≠ [] ∧
      s.rd (R.TILE.BOND_STAT.ROWS_SPARED n) = 1024 ∧
      Cells.get false s.mem.lost n = false) ∧
    (∃ (s : State) (n : Fin 960) (bank : Fin 16) (failed : Bool) (p : Nat),
      (failed = true ∨ 128 ≤ Cells.get 0 s.mem.spared (n * 16 + bank)) ∧
      s.on (R.TILE.BOND_STAT.BANK_SPARED n) = false ∧
      s.partOfRow (n / 40) = some p ∧
      s.quiet (some p) = false ∧
      p < 8) ∧
    (∃ (s : State) (n : Fin 960) (bank : Fin 16) (failed : Bool),
      s.on (R.TILE.BOND_STAT.BANK_SPARED n) = false ∧
      (failed = true ∨ 128 ≤ Cells.get 0 s.mem.spared (n * 16 + bank)) ∧
      s.quiet (s.partOfRow (n / 40)) = true) ∧
    (∃ (s : State) (k : Fin 32) (ch : Fin 16),
      s.fitted (pgSTACK k) = true ∧
      s.on (R.STACK.STAT.FAILED k) = false ∧
      s.on (R.STACK.STAT.SPARING k) = false ∧
      s.rd (R.STACK.STAT.SPARE_FOR k) = 31 ∧
      s.chanDue k ch = true ∧
      Cells.get 0 s.mem.sparing k ≠ ch + 1) ∧
    (∃ (s : State) (p : Path) (k : Fin 32) (ch : Fin 16),
      s.reaches p (R.STACK.SPARE_CTRL.CHANNEL k).addr none ∧
      let u := s.taken p (R.STACK.SPARE_CTRL.CHANNEL k).addr 4
      u.on (R.STACK.STAT.FAILED k) = false ∧
      (u.on (R.STACK.STAT.SPARING k) = true ∨ u.rd (R.STACK.STAT.SPARE_FOR k) ≠ 31)) ∧
    (∃ (s : State) (k : Fin 32),
      s.on (R.STACK.STAT.SPARING k) = true ∧
      s.quiet (nibblePart (s.act (R.MOD.STACK_ASSIGN k))) = true ∧
      0 < Cells.get 0 s.mem.sparing k ∧
      Cells.get 0 s.mem.sparing k ≤ 16) ∧
    (∃ (s : State) (k : Fin 32) (c : Nat),
      s.fitted (pgSTACK k) = true ∧
      c < 256) :=
  ⟨⟨State.reset.wr (R.STACK.SCRUB_CTRL.EN 0) 1, true, 0, ⟨[64], [640], [1024], [], [], []⟩, ⟨[], [], [], [(7, 3)], [], []⟩, by decide +kernel⟩,
   ⟨rowBad, 40, ⟨Config.bondBank 0 % 16, Nat.mod_lt _ (by decide)⟩, rowBad_due _ (by decide +kernel), by decide +kernel⟩,
   ⟨rowBad.wr (R.TILE.BOND_STAT.ROWS_SPARED 40) 1024, 40, ⟨Config.bondBank 0 % 16, Nat.mod_lt _ (by decide)⟩, rowBad_due _ (by decide +kernel), by decide +kernel, by decide +kernel⟩,
   ⟨inPart.wr (R.MOD.PART_STATE 1) 4, 40, 3, true, 1, by decide +kernel⟩,
   ⟨inPart, 40, 3, true, by decide +kernel⟩,
   ⟨{ State.reset with mem := { State.reset.mem with chanErrs := [(52, [(0, true), (0, true)])] } }, 3, 4, by decide +kernel⟩,
   ⟨State.reset.wr (R.STACK.STAT.SPARING 3) 1, (.sideband .a), 3, 4, by decide +kernel⟩,
   ⟨(State.reset.wr (R.STACK.STAT.SPARING 3) 1).onMem fun m => { m with sparing := [(3, 5)] }, 3, by decide +kernel⟩,
   ⟨State.reset, 3, 86, by decide +kernel⟩⟩

theorem witness_StepsAreEnabledAndFlipped :
    (∃ (s : State) (p : Path) (part : Fin 8),
      s.reaches p (R.MOD.STEP_CTRL.ENABLE part).addr none ∧
      let u := s.taken p (R.MOD.STEP_CTRL.ENABLE part).addr 4
      u.stepActive part = false ∧
      u.stepCfgOk part = true) ∧
    (∃ (s : State) (p : Path) (part : Fin 8),
      s.reaches p (R.MOD.STEP_CTRL.ENABLE part).addr none ∧
      let u := s.taken p (R.MOD.STEP_CTRL.ENABLE part).addr 4
      u.stepActive part = false ∧
      u.stepCfgOk part = false) ∧
    (∃ (s : State) (p : Path) (part : Fin 8),
      s.reaches p (R.MOD.STEP_CTRL.DISABLE part).addr none) ∧
    (∃ (z : State) (q : Fin 64) (e : Nat) (c : Nat) (part : Fin 8),
      z.atHead q e ∧
      let s := z.headFetched q
      s.plainHead q ∧
      cmdClass e = clsSignal ∧
      bareHeader e = true ∧
      cmdOp e = 0 ∧
      itemsReserved e = true ∧
      zeroBytes e 56 63 = true ∧
      s.checkCounters q e = none ∧
      cmdItems e = [(c, 1)] ∧
      cmdDoneEn e = false ∧
      s.queuePart q = some part.val ∧
      s.stepActive part = true ∧
      c = s.rd (R.MOD.STEP_CFG.STEP_CTR part) ∧
      s.ctr c + 1 ≤ sigMax) ∧
    (∃ (s : State) (part : Fin 8),
      s.mayFlip part = true) ∧
    (∃ (s : State) (part : Fin 8) (r : Run),
      s.closedRun part = some r ∧
      s.rd (R.MOD.STEP_VWARN part) ≠ 0 ∧
      s.on (R.MOD.STEP_STAT.AWAIT part) = true ∧
      r.slow = false ∧
      s.rd (R.MOD.STEP_CLOSE_TICK part) + s.rd (R.MOD.STEP_VWARN part) ≤ s.time) :=
  ⟨⟨stepUp, (.sideband .a), 1, by decide +kernel⟩,
   ⟨State.reset, (.sideband .a), 1, by decide +kernel⟩,
   ⟨stepping [closed1], (.sideband .a), 1, by decide +kernel⟩,
   ⟨closing1, 5, closeE, 3, 1, by decide +kernel⟩,
   ⟨(stepping [{ closed1 with final3 := true }]).wr (R.MOD.STEP_CFG.VERD_CTR 1) 4, 1, by decide +kernel⟩,
   ⟨(stepping [closed1]).wr (R.MOD.STEP_VWARN 1) 2, 1, closed1, by decide +kernel⟩⟩

theorem witness_DuplicatesAndVerdicts :
    (∃ (s : State) (n : Fin 960) (q : Fin 64) (i : Nat) (d : Dup) (err : List (Nat × Word)) (void : Bool),
      s.power.frozen = false ∧
      s.dupOf n q i = some d ∧
      d.found = none ∧
      (s.copies d).2 = none) ∧
    (∃ (s : State) (n : Fin 960) (q : Fin 64) (i : Nat) (d : Dup) (err : List (Nat × Word)) (c : List Word × List Word),
      s.power.frozen = false ∧
      s.dupOf n q i = some d ∧
      d.found = none ∧
      s.copies d = (s, some c)) ∧
    (∃ (s : State) (n : Fin 960) (q : Fin 64) (i : Nat) (d : Dup) (err : List (Nat × Word)) (c : List Word × List Word),
      s.power.frozen = false ∧
      s.dupOf n q i = some d ∧
      d.found = none ∧
      s.copies d = (s, some c) ∧
      withErrors (s.unitRun d.tile d.pos d.work d.unit c.1) err = c.2) ∧
    (∃ (s : State) (n : Fin 960) (q : Fin 64) (i : Nat) (d : Dup) (err : List (Nat × Word)) (c : List Word × List Word),
      s.power.frozen = false ∧
      s.dupOf n q i = some d ∧
      d.found = none ∧
      s.copies d = (s, some c) ∧
      let z := withErrors (s.unitRun d.tile d.pos d.work d.unit c.1) err
      let b := d.base + d.unit.opWords + d.unit.outs.length
      z ≠ c.2 ∧
      b + z.length ≤ 16777216) ∧
    (∃ (s : State) (n : Fin 960) (q : Fin 64) (i : Nat) (d : Dup) (err : List (Nat × Word)) (f : List Word) (c : List Word × List Word),
      s.power.frozen = false ∧
      s.dupOf n q i = some d ∧
      d.found = some f ∧
      s.copies d = (s, some c) ∧
      withErrors (((s.endDup d).spadWrites d.arbiter d.base c.1).unitRun d.tile d.pos d.work d.unit c.1) err = c.2) ∧
    (∃ (s : State) (n : Fin 960) (q : Fin 64) (i : Nat) (d : Dup) (err : List (Nat × Word)) (f : List Word) (c : List Word × List Word),
      s.power.frozen = false ∧
      s.dupOf n q i = some d ∧
      d.found = some f ∧
      s.copies d = (s, some c) ∧
      withErrors (((s.endDup d).spadWrites d.arbiter d.base c.1).unitRun d.tile d.pos d.work d.unit c.1) err = f ∧
      f ≠ c.2) ∧
    (∃ (s : State) (n : Fin 960) (q : Fin 64) (i : Nat) (d : Dup) (err : List (Nat × Word)) (fit : Bool) (f : List Word) (c : List Word × List Word),
      s.power.frozen = false ∧
      s.dupOf n q i = some d ∧
      d.found = some f ∧
      s.copies d = (s, some c) ∧
      let z := withErrors (((s.endDup d).spadWrites d.arbiter d.base c.1).unitRun d.tile d.pos d.work d.unit c.1) err
      (fit = false ∨ (z ≠ f ∧ z ≠ c.2))) ∧
    (∃ (s : State) (n : Fin 960) (q : Fin 64) (i : Nat) (d : Dup) (err : List (Nat × Word)) (fit : Bool) (f : List Word) (c : List Word × List Word),
      s.power.frozen = false ∧
      s.dupOf n q i = some d ∧
      d.found = some f ∧
      s.copies d = (s, some c)) ∧
    (∃ (s : State),
      s.time % max 1 (s.rd R.NOSE.PERIOD) = 0) ∧
    (∃ (s : State) (part : Fin 8) (r : Run),
      s.closedRun part = some r ∧
      s.replaying r = false ∧
      r.local3 = false ∧
      r.mark = none ∧
      s.dupsOf r = []) ∧
    (∃ (s : State) (part : Fin 8) (r : Run),
      s.closedRun part = some r ∧
      s.replaying r = false ∧
      r.local3 = false ∧
      r.mark = none ∧
      s.dupsOf r ≠ [] ∧
      r.closed.getD 0 + s.rd R.NOSE.VERDICT_CFG.WINDOW ≤ s.time ∧
      s.on R.NOSE.VERDICT_CFG.STRICT = false) ∧
    (∃ (s : State) (part : Fin 8) (r : Run),
      s.closedRun part = some r ∧
      s.replaying r = false ∧
      r.local3 = false ∧
      r.mark = none ∧
      s.dupsOf r ≠ [] ∧
      r.closed.getD 0 + s.rd R.NOSE.VERDICT_CFG.WINDOW ≤ s.time ∧
      s.on R.NOSE.VERDICT_CFG.STRICT = true ∧
      r.late = false) ∧
    (∃ (s : State) (part : Fin 8) (r : Run),
      (∀ x ∈ s.nose.runs, x.part = part → x.mark = none ∨ s.replaying x = true) ∧
      s.closedRun part = some r ∧
      s.replaying r = false ∧
      r.local3 = true ∧
      r.final3 = false ∧
      (∀ d ∈ s.verdictSources r, d ∈ r.clean)) ∧
    (∃ (s : State) (part : Fin 8) (r : Run) (c : Ckpt),
      s.replaying r = false ∧
      r.mark.isSome = true ∧
      r.closed.isSome = true ∧
      s.closedRun part = some r ∧
      r.ckpt = some c ∧
      r.att + 1 ≤ s.rd R.NOSE.REPLAY_CFG.MAX) :=
  ⟨⟨duped { dup0 with seals := [7] }, 40, 5, 3, { dup0 with seals := [7] }, [], true, by decide +kernel⟩,
   ⟨duped dup0, 40, 5, 3, dup0, [], ([], [0]), by decide +kernel⟩,
   ⟨duped dup0, 40, 5, 3, dup0, [], ([], [0]), by decide +kernel⟩,
   ⟨duped dup0, 40, 5, 3, dup0, [(0, 5)], ([], [0]), by decide +kernel⟩,
   ⟨duped dupF, 40, 5, 3, dupF, [], [6], ([], [0]), by decide +kernel⟩,
   ⟨duped dupF, 40, 5, 3, dupF, [(0, 6)], [6], ([], [0]), by decide +kernel⟩,
   ⟨duped dupF, 40, 5, 3, dupF, [(0, 7)], true, [6], ([], [0]), by decide +kernel⟩,
   ⟨duped dupF, 40, 5, 3, dupF, [(0, 7)], true, [6], ([], [0]), by decide +kernel⟩,
   ⟨{ State.reset with nose := { State.reset.nose with chosen := [(40, 2)] } }, by decide +kernel⟩,
   ⟨stepping [closed1], 1, closed1, by decide +kernel⟩,
   ⟨lateDup 0, 1, closed1, by decide +kernel⟩,
   ⟨lateDup 1, 1, closed1, by decide +kernel⟩,
   ⟨stepping [{ closed1 with local3 := true }], 1, { closed1 with local3 := true }, by decide +kernel⟩,
   ⟨(stepping [{ marked1 (some ckpt0) with sent4 := false }]).wr R.NOSE.REPLAY_CFG.MAX 3, 1, { marked1 (some ckpt0) with sent4 := false }, ckpt0, by decide +kernel⟩⟩

theorem witness_ReplaysAndFieldTests :
    (∃ (s : State) (part : Fin 8) (r : Run) (c : Ckpt),
      s.replayRun part = some r ∧
      r.ckpt = some c ∧
      s.rd (R.NOSE.REPLAY_STAT.PHASE part) = 1 ∧
      s.partBusy part = false ∧
      (r.impl = none ∨ s.on R.NOSE.REPLAY_CFG.SHIFT = false)) ∧
    (∃ (s : State) (part : Fin 8) (r : Run) (c : Ckpt),
      s.replayRun part = some r ∧
      r.ckpt = some c ∧
      s.rd (R.NOSE.REPLAY_STAT.PHASE part) = 3) ∧
    (∃ (s : State) (part : Fin 8) (r : Run) (c : Ckpt) (x : Nat × Nat),
      s.replayRun part = some r ∧
      r.ckpt = some c ∧
      s.rd (R.NOSE.REPLAY_STAT.PHASE part) = 1 ∧
      s.partBusy part = false ∧
      r.impl = some x ∧
      s.on R.NOSE.REPLAY_CFG.SHIFT = true ∧
      (s.failedCols x.1).length < 2 ∧
      s.shiftIn x.1 = none ∧
      (s.failedCols x.1).contains x.2 = false ∧
      s.on (R.SPARE.ROWMAP.RETIRED x.1) = false) ∧
    (∃ (s : State) (part : Fin 8) (r : Run) (c : Ckpt) (x : Nat × Nat),
      s.replayRun part = some r ∧
      r.ckpt = some c ∧
      s.rd (R.NOSE.REPLAY_STAT.PHASE part) = 1 ∧
      s.partBusy part = false ∧
      r.impl = some x ∧
      s.on R.NOSE.REPLAY_CFG.SHIFT = true ∧
      (2 ≤ (s.failedCols x.1).length ∨ (s.shiftIn x.1).isSome = true ∨ (s.failedCols x.1).contains x.2 = true ∨ s.on (R.SPARE.ROWMAP.RETIRED x.1) = true)) ∧
    (∃ (s : State) (part : Fin 8) (r : Run) (c : Ckpt) (x : Nat × Nat),
      s.replayRun part = some r ∧
      r.ckpt = some c ∧
      s.rd (R.NOSE.REPLAY_STAT.PHASE part) = 2 ∧
      r.impl = some x ∧
      s.shiftIn x.1 = none ∧
      (s.failedCols x.1).contains x.2 = true) ∧
    (∃ (s : State) (part : Fin 8) (r : Run) (c : Ckpt) (x : Nat × Nat),
      s.replayRun part = some r ∧
      r.ckpt = some c ∧
      s.rd (R.NOSE.REPLAY_STAT.PHASE part) = 2 ∧
      r.impl = some x ∧
      s.shiftIn x.1 = none ∧
      (s.failedCols x.1).contains x.2 = false) ∧
    (∃ (s : State) (p : Path) (part : Fin 8),
      s.reaches p (R.NOSE.REPLAY_CTRL part).addr none ∧
      let u := s.taken p (R.NOSE.REPLAY_CTRL part).addr 4
      u.rd (R.NOSE.REPLAY_STAT.PHASE part) = 4) ∧
    (∃ (s : State) (p : Path) (test : BitVec 3) (part : Fin 8),
      s.reaches p R.NOSE.KAT_CTRL.GO.addr none ∧
      let u := s.taken p R.NOSE.KAT_CTRL.GO.addr 4
      u.katRefused test.toNat part = false) ∧
    (∃ (s : State) (p : Path) (test : BitVec 3) (part : Fin 8),
      s.reaches p R.NOSE.KAT_CTRL.GO.addr none ∧
      let u := s.taken p R.NOSE.KAT_CTRL.GO.addr 4
      (u.partRead part ≠ 5 ∨ u.nose.kat ≠ none ∨ test.toNat = 0 ∨ 4 < test.toNat ∨ (test.toNat < 4 ∧ u.rd (R.NOSE.AREA_WORDS part) < 65536))) ∧
    (∃ (s : State) (failed : List Nat) (test : Nat) (part : Nat),
      s.nose.kat = some (test, part)) :=
  ⟨⟨replaying1 1 0 none, 1, marked1 (some ckpt0), ckpt0, by decide +kernel⟩,
   ⟨replaying1 3 0 none, 1, marked1 (some ckpt0), ckpt0, by decide +kernel⟩,
   ⟨replaying1 1 1 (some (1, 3)), 1, { marked1 (some ckpt0) with impl := some (1, 3) }, ckpt0, (1, 3), by decide +kernel⟩,
   ⟨(replaying1 1 1 (some (1, 3))).addFailed 1 3 true, 1, { marked1 (some ckpt0) with impl := some (1, 3) }, ckpt0, (1, 3), by decide +kernel⟩,
   ⟨(replaying1 2 1 (some (1, 3))).addFailed 1 3 true, 1, { marked1 (some ckpt0) with impl := some (1, 3) }, ckpt0, (1, 3), by decide +kernel⟩,
   ⟨replaying1 2 1 (some (1, 3)), 1, { marked1 (some ckpt0) with impl := some (1, 3) }, ckpt0, (1, 3), by decide +kernel⟩,
   ⟨replaying1 4 0 none, (.sideband .a), 1, by decide +kernel⟩,
   ⟨inPart.wr (R.MOD.PART_STATE 1) 5, (.sideband .a), 4, 1, by decide +kernel⟩,
   ⟨inPart, (.sideband .a), 4, 1, by decide +kernel⟩,
   ⟨{ inPart with nose := { inPart.nose with kat := some (4, 1) } }, [41, 900], 4, 1, by decide +kernel⟩⟩

theorem witness_ModulesJoinAndLeave :
    (∃ (s : State) (p : Path) (req : BitVec 16) (v : Bool),
      s.reaches p R.MOD.FAB_CTRL.JOIN.addr none ∧
      let u := s.taken p R.MOD.FAB_CTRL.JOIN.addr 4
      u.joined = false) ∧
    (∃ (s : State) (k : Fin 48) (f : Frame) (inc : Nat) (seq : Nat) (part : Nat) (hall : Nat) (serial : Nat) (req : Option Nat),
      f.body = .msg inc seq part (.join hall req serial none) ∧
      s.takes k f) ∧
    (∃ (s : State) (k : Fin 48) (f : Frame) (n : Nat) (inc : Nat) (c : Nat) (q : Nat) (part : Nat),
      f.body = .msg c q part (.joinAccept n inc none) ∧
      s.takes k f ∧
      s.rd R.MOD.FAB_STAT.STATE = 1) ∧
    (∃ (s : State) (k : Fin 48) (f : Frame) (inc : Nat) (seq : Nat) (part : Nat) (n : Nat) (i : Nat) (l : Nat),
      f.body = .msg inc seq part (.joinAccept n i (some l)) ∧
      s.takes k f ∧
      s.receipt f.src inc seq = .take) ∧
    (∃ (s : State) (k : Fin 48) (f : Frame) (r : Nat) (c : Nat) (q : Nat) (part : Nat),
      f.body = .msg c q part (.joinRefuse r none) ∧
      s.takes k f ∧
      s.rd R.MOD.FAB_STAT.STATE = 1) ∧
    (∃ (s : State) (p : Path),
      s.reaches p R.MOD.FAB_CTRL.LEAVE.addr none ∧
      let u := s.taken p R.MOD.FAB_CTRL.LEAVE.addr 4
      u.joined = true ∧
      u.rd R.MOD.FAB_STAT.STATE ≠ 4 ∧
      u.nodeKind (u.rd R.MOD.FAB_REGISTRAR) ≠ 3) ∧
    (∃ (s : State) (k : Fin 48) (f : Frame) (inc : Nat) (seq : Nat) (part : Nat) (n : Nat),
      f.body = .msg inc seq part (.leave n) ∧
      s.takes k f ∧
      s.receipt f.src inc seq = .take) :=
  ⟨⟨State.reset, (.sideband .a), 7, true, by decide +kernel⟩,
   ⟨linked, 0, frameOf (.msg 0 0 0xFF (.join 3 none 77 none)), 0, 0, 255, 3, 77, none, by decide +kernel⟩,
   ⟨joining, 0, frameOf (.msg 0 0 0xFF (.joinAccept 21 4 none)), 21, 4, 0, 0, 255, by decide +kernel⟩,
   ⟨linked, 0, frameOf (.msg 1 1 0xFF (.joinAccept 21 4 (some 0))), 1, 1, 255, 21, 4, 0, by decide +kernel⟩,
   ⟨joining, 0, frameOf (.msg 0 0 0xFF (.joinRefuse 2 none)), 2, 0, 0, 255, by decide +kernel⟩,
   ⟨linked, (.sideband .a), by decide +kernel⟩,
   ⟨linked, 0, frameOf (.msg 1 1 0xFF (.leave 9)), 1, 1, 255, 9, by decide +kernel⟩⟩

theorem witness_LinksGoThroughTheirStates :
    (∃ (s : State) (k : Fin 48),
      s.fitted (pgLINK k) = true ∧
      s.rd (R.LINK.STAT.STATE k) = 0 ∧
      s.on (R.LINK.STAT.OPTIC k) = false) ∧
    (∃ (s : State) (k : Fin 48),
      s.fitted (pgLINK k) = true ∧
      s.rd (R.LINK.STAT.STATE k) = 0 ∧
      s.on (R.LINK.STAT.OPTIC k) = false) ∧
    (∃ (s : State) (k : Fin 48),
      s.on (R.LINK.STAT.OPTIC k) = true) ∧
    (∃ (s : State) (p : Path) (k : Fin 48),
      s.reaches p (R.PG.CTRL.EN (pgLINK k)).addr none ∧
      let u := s.taken p (R.PG.CTRL.EN (pgLINK k)).addr 4
      u.on (R.LINK.STAT.OPTIC k) = true ∧
      u.cageOn k = true ∧
      u.rd (R.LINK.STAT.STATE k) = 1) ∧
    (∃ (s : State) (p : Path) (k : Fin 48),
      s.reaches p (R.PG.CTRL.EN (pgLINK k)).addr none ∧
      let u := s.taken p (R.PG.CTRL.EN (pgLINK k)).addr 4
      (u.on (R.LINK.STAT.OPTIC k) = false ∨ u.cageOn k = false ∨ u.rd (R.LINK.STAT.STATE k) ≠ 1)) ∧
    (∃ (s : State) (p : Path) (k : Fin 48),
      s.reaches p (R.PG.CTRL.EN (pgLINK k)).addr none ∧
      let u := (s.taken p (R.PG.CTRL.EN (pgLINK k)).addr 4).wr (R.PG.CTRL.EN (pgLINK k)) 0
      2 ≤ u.rd (R.LINK.STAT.STATE k)) ∧
    (∃ (s : State) (k : Fin 48),
      2 ≤ s.rd (R.LINK.STAT.STATE k)) ∧
    (∃ (s : State) (k : Fin 48) (h : Hello),
      s.rd (R.LINK.STAT.STATE k) = 2 ∧
      h.hall = s.rd R.MOD.FAB_HALL ∧
      h.fresh = false) ∧
    (∃ (s : State) (k : Fin 48) (h : Hello),
      s.rd (R.LINK.STAT.STATE k) = 2 ∧
      h.hall = s.rd R.MOD.FAB_HALL ∧
      h.fresh = true) ∧
    (∃ (s : State) (k : Fin 48) (h : Hello),
      s.rd (R.LINK.STAT.STATE k) = 2 ∧
      h.hall ≠ s.rd R.MOD.FAB_HALL) ∧
    (∃ (s : State) (k : Fin 48) (peer : BitVec 16) (l : Nat × Nat),
      s.rd (R.LINK.STAT.STATE k) = 2 ∧
      (s.link k).hello.isSome = true ∧
      let a := s.onLink k fun x => { x with peerBad := peer.toNat }
      a.lanesFor k = some l) ∧
    (∃ (s : State) (k : Fin 48) (peer : BitVec 16),
      s.rd (R.LINK.STAT.STATE k) = 2 ∧
      (s.link k).hello.isSome = true ∧
      let a := s.onLink k fun x => { x with peerBad := peer.toNat }
      a.lanesFor k = none) ∧
    (∃ (s : State) (k : Fin 48) (peer : BitVec 16) (l : Nat × Nat),
      s.rd (R.LINK.STAT.STATE k) = 5 ∧
      let a := s.onLink k fun x => { x with peerBad := peer.toNat }
      a.retrainLanes k = some l) ∧
    (∃ (s : State) (k : Fin 48) (peer : BitVec 16),
      s.rd (R.LINK.STAT.STATE k) = 5 ∧
      let a := s.onLink k fun x => { x with peerBad := peer.toNat }
      a.retrainLanes k = none) ∧
    (∃ (s : State) (p : Path) (k : Fin 48),
      s.reaches p (R.LINK.CTRL.RETRAIN k).addr none ∧
      let u := s.taken p (R.LINK.CTRL.RETRAIN k).addr 4
      u.linkUp k = true) ∧
    (∃ (s : State) (k : Fin 48) (lanes : BitVec 16),
      s.linkUp k = true ∧
      lanes ≠ 0) ∧
    (∃ (s : State) (k : Fin 48) (lanes : BitVec 16),
      s.linkUp k = true ∧
      lanes ≠ 0) ∧
    (∃ (s : State) (k : Fin 48) (lanes : BitVec 16),
      (s.rd (R.LINK.STAT.STATE k) = 2 ∨ s.rd (R.LINK.STAT.STATE k) = 5) ∧
      lanes ≠ 0) ∧
    (∃ (s : State) (k : Fin 48) (lanes : BitVec 16),
      (s.rd (R.LINK.STAT.STATE k) = 2 ∨ s.rd (R.LINK.STAT.STATE k) = 5) ∧
      lanes ≠ 0) :=
  ⟨⟨State.reset, 3, by decide +kernel⟩,
   ⟨State.reset, 3, by decide +kernel⟩,
   ⟨optical 3, 0, by decide +kernel⟩,
   ⟨optical 1, (.sideband .a), 0, by decide +kernel⟩,
   ⟨State.reset, (.sideband .a), 0, by decide +kernel⟩,
   ⟨optical 3, (.sideband .a), 0, by decide +kernel⟩,
   ⟨optical 3, 0, by decide +kernel⟩,
   ⟨optical 2, 0, ⟨9, 5, false, 0, [7, 8], false⟩, by decide +kernel⟩,
   ⟨optical 2, 0, ⟨9, 5, false, 0, [7, 8], true⟩, by decide +kernel⟩,
   ⟨optical 2, 0, ⟨9, 5, false, 6, [7, 8], false⟩, by decide +kernel⟩,
   ⟨trained, 0, 0x0F00, (8, 0), by decide +kernel⟩,
   ⟨trained, 0, 0x0F01, by decide +kernel⟩,
   ⟨optical 5, 0, 0, (16, 0), by decide +kernel⟩,
   ⟨optical 5, 0, 0x0F01, by decide +kernel⟩,
   ⟨optical 3, (.sideband .a), 0, by decide +kernel⟩,
   ⟨optical 3, 0, 0x30, by decide +kernel⟩,
   ⟨optical 3, 0, 0x30, by decide +kernel⟩,
   ⟨optical 2, 0, 0x30, by decide +kernel⟩,
   ⟨optical 5, 0, 0x30, by decide +kernel⟩⟩

theorem witness_LinksControlFlowAndErrors :
    (∃ (s : State) (k : Fin 48) (c : Fin 12) (freed : Nat),
      3 ≤ s.rd (R.LINK.STAT.STATE k)) ∧
    (∃ (s : State) (k : Fin 48) (fseq : Nat),
      (∃ f ∈ (s.link k).replay, f.fseq = fseq)) ∧
    (∃ (s : State) (k : Fin 48) (fseq : Nat),
      (∃ f ∈ (s.link k).replay, f.fseq = fseq) ∧
      s.linkUp k = true ∧
      (s.link k).resend = none ∧
      (∀ f ∈ (s.link k).replay, f.cls < 12 ∧ s.rd (R.LINK.LED_HELD k f.cls) + (s.link k).held < 4096)) ∧
    (∃ (s : State) (k : Fin 48) (fseq : Nat) (lanes : BitVec 16),
      s.linkUp k = true ∧
      lanes ≠ 0) ∧
    (∃ (s : State) (k : Fin 48) (e : LineError),
      s.linkUp k = true ∧
      (∀ u : BitVec 64, e ≠ .unit u) ∧
      (∀ h : BitVec 180, e = .header h → headerOk h = false) ∧
      (s.link k).discard = false) ∧
    (∃ (s : State) (k : Fin 48) (u : BitVec 64),
      s.linkUp k = true ∧
      6 < (u.extractLsb' 60 4).toNat) ∧
    (∃ (s : State) (k : Fin 48),
      (s.link k).discard = true ∧
      (s.link k).nakAt + 256 ≤ s.now) ∧
    (∃ (s : State) (k : Fin 48) (f : Frame) (counts : List (Nat × Nat × Nat)),
      f.body = .ledger counts ∧
      s.takes k f ∧
      s.badClasses k counts = []) ∧
    (∃ (s : State) (k : Fin 48) (f : Frame) (counts : List (Nat × Nat × Nat)) (c : Nat),
      f.body = .ledger counts ∧
      s.takes k f ∧
      (s.badClasses k counts).getLast? = some c) ∧
    (∃ (s : State) (k : Fin 48) (corr : List Nat),
      s.linkUp k = true ∧
      s.time % ledgerPeriod = 0 ∧
      (∀ n ∈ corr.take 16, s.rd (R.LINK.LANE_THRESH k) = 0 ∨ n ≤ s.rd (R.LINK.LANE_THRESH k))) ∧
    (∃ (s : State) (k : Fin 48) (f : Frame) (inits : List Nat),
      f.body = .config inits ∧
      s.takes k f ∧
      (s.link k).drain.sent = false) ∧
    (∃ (s : State) (k : Fin 48) (f : Frame) (inits : List Nat),
      f.body = .config inits ∧
      s.takes k f ∧
      (s.link k).drain.sent = true ∧
      (s.link k).drain.change = false ∧
      (s.link k).drain.apply = false) ∧
    (∃ (s : State) (k : Fin 48) (f : Frame) (inits : List Nat),
      f.body = .config inits ∧
      s.takes k f ∧
      (s.link k).drain.sent = true ∧
      (s.link k).drain.change = false ∧
      (s.link k).drain.apply = true ∧
      s.owesAck (pgLINK k) = true) ∧
    (∃ (s : State) (p : Path) (n : BitVec 16),
      s.reaches p R.MOD.ROUTE_SEL.GO.addr none) ∧
    (∃ (s : State) (p : Path) (n : BitVec 16),
      s.reaches p R.MOD.ROUTE_SEL.GO.addr none) :=
  ⟨⟨optical 3, 0, 4, 70, by decide +kernel⟩,
   ⟨replayed, 0, 4, by decide +kernel⟩,
   ⟨replayed, 0, 4, by decide +kernel⟩,
   ⟨replayed, 0, 4, 5, by decide +kernel⟩,
   ⟨optical 3, 0, .uncorrectable, by decide +kernel, fun _ h => LineError.noConfusion h, fun _ h => LineError.noConfusion h, by decide +kernel⟩,
   ⟨optical 3, 0, 0xF000000000000000, by decide +kernel⟩,
   ⟨(later 300 ((optical 3).onLink 0 fun x => { x with discard := true, rxSeq := 7 })), 0, by decide +kernel⟩,
   ⟨linked, 0, frameOf (.ledger []), [], by decide +kernel⟩,
   ⟨linked, 0, frameOf (.ledger [(9, 0, 0)]), [(9, 0, 0)], 0, by decide +kernel⟩,
   ⟨optical 3, 0, [1, 2], by decide +kernel⟩,
   ⟨linked, 0, frameOf (.config [5, 6]), [5, 6], by decide +kernel⟩,
   ⟨linked.onLink 0 fun x => { x with drain := ⟨true, false, false, true, none⟩ }, 0, frameOf (.config [7]), [7], by decide +kernel⟩,
   ⟨configuring, 0, frameOf (.config [7]), [7], by decide +kernel⟩,
   ⟨{ State.reset with fab := { State.reset.fab with routes := [(9, 77)] } }, (.sideband .a), 9, by decide +kernel⟩,
   ⟨State.reset.wr R.MOD.ROUTE_DATA 77, (.sideband .a), 9, by decide +kernel⟩⟩

theorem witness_FramesAndBroadcasts :
    (∃ (s : State) (k : Fin 48) (f : Frame) (n : Nat),
      f.body = .readReq n ∧
      s.linkUp k = true ∧
      (f.vc ≠ 1 ∨ 1 < f.layer ∨ 4096 < n) ∧
      (s.link k).discard = false) ∧
    (∃ (s : State) (k : Fin 48) (f : Frame) (n : Nat),
      f.body = .readReq n ∧
      n ≤ 4096 ∧
      s.linkUp k = true ∧
      f.vc = 1 ∧
      f.layer ≤ 1 ∧
      f.fseq ≠ (s.link k).rxSeq ∧
      (s.link k).discard = false ∧
      2048 < ((s.link k).rxSeq + 4096 - f.fseq) % 4096) ∧
    (∃ (s : State) (k : Fin 48) (f : Frame) (n : Nat),
      f.body = .readReq n ∧
      n ≤ 4096 ∧
      s.linkUp k = true ∧
      f.vc = 1 ∧
      f.layer ≤ 1 ∧
      f.fseq ≠ (s.link k).rxSeq ∧
      (s.link k).discard = false ∧
      ((s.link k).rxSeq + 4096 - f.fseq) % 4096 ≤ 2048) ∧
    (∃ (s : State) (k : Fin 48) (f : Frame) (n : Nat),
      f.body = .readReq n ∧
      n ≤ 4096 ∧
      s.linkUp k = true ∧
      f.vc = 1 ∧
      f.layer ≤ 1 ∧
      f.fseq = (s.link k).rxSeq ∧
      s.joined = false) ∧
    (∃ (s : State) (k : Fin 48) (f : Frame) (d : List Byte) (seals : List Word) (i : Nat),
      f.body = .write d seals i ∧
      f.body.size ≤ 16512 ∧
      s.linkUp k = true ∧
      f.vc = 1 ∧
      f.layer ≤ 1 ∧
      f.fseq = (s.link k).rxSeq ∧
      s.joined = false ∧
      let n := f.body.codewords
      0 < n) ∧
    (∃ (s : State) (k : Fin 48) (f : Frame) (n : Nat),
      f.body = .readReq n ∧
      n ≤ 4096 ∧
      s.linkUp k = true ∧
      f.vc = 1 ∧
      f.layer ≤ 1 ∧
      f.fseq = (s.link k).rxSeq ∧
      s.joined = true ∧
      f.dst ≠ s.rd R.MOD.FAB_NODE.NODE) ∧
    (∃ (s : State) (k : Fin 48) (j : Fin 48) (f : Frame) (d : List Byte) (seals : List Word) (i : Nat),
      f.body = .write d seals i ∧
      f.body.size ≤ 16512 ∧
      s.linkUp k = true ∧
      f.vc = 1 ∧
      f.layer ≤ 1 ∧
      f.fseq = (s.link k).rxSeq ∧
      s.joined = true ∧
      f.dst ≠ s.rd R.MOD.FAB_NODE.NODE ∧
      0 < f.hops ∧
      s.chooseWay { f with hops := f.hops - 1 } none = some (j.val, false) ∧
      (s.link j).drain.on = true) ∧
    (∃ (s : State) (k : Fin 48) (f : Frame) (b : Bcast),
      f.body = .bcast b ∧
      b.kind = 1 ∧
      s.takes k f ∧
      s.bcastNew b = true) ∧
    (∃ (s : State) (k : Fin 48) (f : Frame) (b : Bcast),
      f.body = .bcast b ∧
      b.kind = 1 ∧
      s.takes k f ∧
      s.bcastNew b = false) ∧
    (∃ (s : State) (k : Fin 48) (f : Frame) (b : Bcast),
      f.body = .bcast b ∧
      b.kind = 2 ∧
      s.takes k f ∧
      s.bcastNew b = true ∧
      (∃ i ∈ List.range 4, s.on (R.MOD.FAB_EMERG_SRC.VALID i) = true ∧ s.rd (R.MOD.FAB_EMERG_SRC.NODE i) = b.origin)) ∧
    (∃ (s : State) (k : Fin 48) (f : Frame) (b : Bcast),
      f.body = .bcast b ∧
      b.kind = 2 ∧
      s.takes k f ∧
      s.bcastNew b = true ∧
      (∀ i ∈ List.range 4, s.on (R.MOD.FAB_EMERG_SRC.VALID i) = true → s.rd (R.MOD.FAB_EMERG_SRC.NODE i) ≠ b.origin)) ∧
    (∃ (s : State) (p : Path),
      s.reaches p R.MOD.BCAST_CTRL.GO.addr none ∧
      let u := s.taken p R.MOD.BCAST_CTRL.GO.addr 4
      u.joined = true) ∧
    (∃ (s : State) (p : Path) (fr : BitVec 5) (op : BitVec 2),
      s.reaches p R.MOD.BCAST_CTRL.GO.addr none ∧
      let u := s.taken p R.MOD.BCAST_CTRL.GO.addr 4
      u.joined = true ∧
      (op = 1 ∨ op = 2) ∧
      fr ≤ 16 ∧
      u.time < u.rd R.MOD.BCAST_TICK ∧
      u.rd R.PWR.SHED_STAT ≠ 2) :=
  ⟨⟨linked, 0, { frameOf (.readReq 4) with vc := 3 }, 4, by decide +kernel⟩,
   ⟨linked, 0, { frameOf (.readReq 4) with fseq := 2 }, 4, by decide +kernel⟩,
   ⟨linked.onLink 0 fun x => { x with rxSeq := 5 }, 0, { frameOf (.readReq 4) with fseq := 2 }, 4, by decide +kernel⟩,
   ⟨optical 3, 0, frameOf (.readReq 4), 4, by decide +kernel⟩,
   ⟨optical 3, 0, frameOf (.write [1, 2] (sealsOf 512 [1, 2]) 512), [1, 2], sealsOf 512 [1, 2], 512, by decide +kernel⟩,
   ⟨linked, 0, { frameOf (.readReq 4) with dst := 3 }, 4, by decide +kernel⟩,
   ⟨routedAway, 0, 5, { frameOf (.write [1, 2] (sealsOf 512 [1, 2]) 512) with dst := 3, hops := 4 }, [1, 2], sealsOf 512 [1, 2], 512, by decide +kernel⟩,
   ⟨linked.wr R.TB.SNAP_CTRL.EN_FABRIC 1, 0, frameOf (.bcast ⟨1, 9, 1, 700, 0, 0, 1⟩), ⟨1, 9, 1, 700, 0, 0, 1⟩, by decide +kernel⟩,
   ⟨linked.noteBcast ⟨1, 9, 1, 700, 0, 0, 1⟩, 0, frameOf (.bcast ⟨1, 9, 1, 700, 0, 0, 1⟩), ⟨1, 9, 1, 700, 0, 0, 1⟩, by decide +kernel⟩,
   ⟨(linked.wr (R.MOD.FAB_EMERG_SRC.VALID 2) 1).wr (R.MOD.FAB_EMERG_SRC.NODE 2) 9, 0, frameOf (.bcast ⟨2, 9, 1, 700, 4, 1, 1⟩), ⟨2, 9, 1, 700, 4, 1, 1⟩, by decide +kernel⟩,
   ⟨linked, 0, frameOf (.bcast ⟨2, 9, 1, 700, 4, 1, 1⟩), ⟨2, 9, 1, 700, 4, 1, 1⟩, by decide +kernel⟩,
   ⟨(linked.wr R.TB.SNAP_CTRL.EN_FABRIC 1).wr R.MOD.BCAST_TICK 700, (.sideband .a), by decide +kernel⟩,
   ⟨linked.wr R.MOD.BCAST_TICK 700, (.sideband .a), 3, 1, by decide +kernel⟩⟩

theorem witness_RemoteAccessesAreServed :
    (∃ (s : State) (k : Fin 48) (f : Frame) (n : Nat) (bs : List Byte),
      f.body = .readReq n ∧
      s.takes k f ∧
      let r := (s.acceptFrame k f).memRead none .remote f.offset (4 * n)
      r.2.toOption = some bs) ∧
    (∃ (s : State) (k : Fin 48) (f : Frame) (n : Nat) (er : Err),
      f.body = .readReq n ∧
      s.takes k f ∧
      let r := (s.acceptFrame k f).memRead none .remote f.offset (4 * n)
      errorOf r.2 = some er) ∧
    (∃ (s : State) (k : Fin 48) (f : Frame) (d : List Byte) (seals : List Word) (tg : Nat) (nd : Nat) (e : Nat) (id : Nat) (m : MergeEntry),
      f.body = .readData d seals ∧
      s.takes k f ∧
      ((s.fab.txns.find? fun t => decide (t.tag = f.tag)) = some ⟨tg, nd, .fetch e id⟩) ∧
      s.entryOf e id = some m ∧
      badSpans (firstSpan f.offset) d seals = []) ∧
    (∃ (s : State) (k : Fin 48) (f : Frame) (d : List Byte) (seals : List Word) (tg : Nat) (nd : Nat) (e : Nat) (id : Nat) (m : MergeEntry),
      f.body = .readData d seals ∧
      s.takes k f ∧
      ((s.fab.txns.find? fun t => decide (t.tag = f.tag)) = some ⟨tg, nd, .fetch e id⟩) ∧
      s.entryOf e id = some m ∧
      badSpans (firstSpan f.offset) d seals ≠ []) ∧
    (∃ (s : State) (k : Fin 48) (f : Frame) (c : Nat) (x : Txn),
      f.body = .readErr c ∧
      s.takes k f ∧
      ((s.fab.txns.find? fun t => decide (t.tag = f.tag)) = some x)) ∧
    (∃ (s : State) (k : Fin 48) (f : Frame) (c : Nat) (x : Txn),
      f.body = .writeErr c ∧
      s.takes k f ∧
      ((s.fab.txns.find? fun t => decide (t.tag = f.tag)) = some x)) ∧
    (∃ (s : State) (k : Fin 48) (f : Frame) (c : Nat) (x : Txn),
      f.body = .unreach c ∧
      s.takes k f ∧
      (∀ m ∈ s.fab.msgs, m.tag ≠ f.tag) ∧
      ((s.fab.txns.find? fun t => decide (t.tag = f.tag)) = some x)) ∧
    (∃ (s : State) (k : Fin 48) (f : Frame) (tg : Nat) (nd : Nat) (n : Nat) (o : Owner),
      f.body = .writeAck ∧
      s.takes k f ∧
      ((s.fab.txns.find? fun t => decide (t.tag = f.tag)) = some ⟨tg, nd, .write o n⟩) ∧
      s.stream.posts = []) ∧
    (∃ (s : State) (k : Fin 48) (f : Frame) (d : List Byte) (seals : List Word) (n : Nat),
      f.body = .write d seals n ∧
      s.takes k f ∧
      s.checkAccess .remote true f.offset d.length = none) ∧
    (∃ (s : State) (k : Fin 48) (f : Frame) (d : List Byte) (seals : List Word) (n : Nat) (pg : Nat) (er : Err),
      f.body = .write d seals n ∧
      s.takes k f ∧
      s.checkAccess .remote true f.offset d.length = some (er, pg)) ∧
    (∃ (s : State) (k : Fin 48) (f : Frame) (d : List Byte) (seals : List Word) (n : Nat) (src : Nat) (p : Place),
      f.body = .moveData d seals n src ∧
      s.takes k f ∧
      (s.place f.offset).toOption = some p ∧
      ((s.gran p.gran).st = 1 ∧ Cells.get none s.fab.moveIn p.gran = some (f.src, src) ∨ s.checkPlace .remote true p = none ∧ ¬ ((s.gran p.gran).st = 2 ∧ Cells.get none s.fab.moveIn p.gran = some (f.src, src) ∧ p.key % granBytes ≠ 0)) ∧
      badSpans n d seals = [] ∧
      ((((s.acceptFrame k f).openMove p (f.src, src)).1.writeRuns none (granRuns f.offset d.length) d).2 = none)) ∧
    (∃ (s : State) (k : Fin 48) (f : Frame) (d : List Byte) (seals : List Word) (n : Nat) (src : Nat) (p : Place),
      f.body = .moveData d seals n src ∧
      s.takes k f ∧
      (s.place f.offset).toOption = some p ∧
      (s.gran p.gran).st = 1 ∧
      Cells.get none s.fab.moveIn p.gran = some (f.src, src) ∧
      badSpans n d seals ≠ []) ∧
    (∃ (z : State) (q : Fin 64) (e : Nat) (x : StreamWork),
      z.atHead q e ∧
      let s := z.headFetched q
      cmdClass e = clsStream ∧
      cmdOp e = 1 ∧
      (s.streamChecks q e).toOption = some x ∧
      s.slotFree q (streamOf e) = true) :=
  ⟨⟨remote 1 1 0, 0, { frameOf (.readReq 4) with offset := 40 * bondBytes }, 4, List.replicate 16 0, by decide +kernel⟩,
   ⟨remote 0 0 0, 0, { frameOf (.readReq 4) with offset := 40 * bondBytes }, 4, .REMOTE_DENIED, by decide +kernel⟩,
   ⟨fetching, 0, frameOf (.readData [1, 2] (sealsOf 512 [1, 2])), [1, 2], sealsOf 512 [1, 2], 0, 9, 0, 8, mergeAt (some 0), by decide +kernel⟩,
   ⟨fetching, 0, frameOf (.readData [1, 2] [7]), [1, 2], [7], 0, 9, 0, 8, mergeAt (some 0), by decide +kernel⟩,
   ⟨fetching, 0, frameOf (.readErr Err.NO_HOME.code), Err.NO_HOME.code, ⟨0, 9, .fetch 0 8⟩, by decide +kernel⟩,
   ⟨writing, 0, frameOf (.writeErr Err.NO_HOME.code), Err.NO_HOME.code, ⟨0, 9, .write ⟨5, 3, 1, none⟩ 0⟩, by decide +kernel⟩,
   ⟨writing, 0, frameOf (.unreach Err.ROUTE_LOOP.code), Err.ROUTE_LOOP.code, ⟨0, 9, .write ⟨5, 3, 1, none⟩ 0⟩, by decide +kernel⟩,
   ⟨writing, 0, frameOf .writeAck, 0, 9, 0, ⟨5, 3, 1, none⟩, by decide +kernel⟩,
   ⟨remote 1 1 0, 0, { frameOf (.write [1, 2] (sealsOf 512 [1, 2]) 512) with offset := 40 * bondBytes }, [1, 2], sealsOf 512 [1, 2], 512, by decide +kernel⟩,
   ⟨remote 1 0 0, 0, { frameOf (.write [1, 2] (sealsOf 512 [1, 2]) 512) with offset := 40 * bondBytes }, [1, 2], sealsOf 512 [1, 2], 512, pgQUOTA, .REMOTE_DENIED, by decide +kernel⟩,
   ⟨(remote 1 1 1).onFab fun x => { x with moveIn := [(placedG, some (9, 4096))] }, 0, { frameOf (.moveData [1, 2] (sealsOf 512 [1, 2]) 512 4096) with offset := 40 * bondBytes }, [1, 2], sealsOf 512 [1, 2], 512, 4096, .bond 40 0, by decide +kernel⟩,
   ⟨(remote 1 1 1).onFab fun x => { x with moveIn := [(placedG, some (9, 4096))] }, 0, { frameOf (.moveData [1, 2] [7] 512 4096) with offset := 40 * bondBytes }, [1, 2], [7], 512, 4096, .bond 40 0, by decide +kernel⟩,
   ⟨queued (stCmd 1 2 (2 * 2 ^ 60 + 40 * 2 ^ 48) (40 * 1610612736) 1 64 0) 0, 5, stCmd 1 2 (2 * 2 ^ 60 + 40 * 2 ^ 48) (40 * 1610612736) 1 64 0, streamAt (queued (stCmd 1 2 (2 * 2 ^ 60 + 40 * 2 ^ 48) (40 * 1610612736) 1 64 0) 0) (stCmd 1 2 (2 * 2 ^ 60 + 40 * 2 ^ 48) (40 * 1610612736) 1 64 0), by decide +kernel⟩⟩

theorem witness_MessagesAreTakenOnceInOrder :
    (∃ (s : State) (k : Fin 48) (f : Frame) (inc : Nat) (seq : Nat) (part : Nat) (v : VerdictMsg),
      f.body = .msg inc seq part (.verdict v) ∧
      s.takes k f ∧
      s.receipt f.src inc seq = .again) ∧
    (∃ (s : State) (k : Fin 48) (f : Frame) (inc : Nat) (seq : Nat) (part : Nat) (v : VerdictMsg),
      f.body = .msg inc seq part (.verdict v) ∧
      s.takes k f ∧
      s.receipt f.src inc seq = .drop) ∧
    (∃ (s : State) (k : Fin 48) (f : Frame) (inc : Nat) (seq : Nat) (part : Nat) (v : VerdictMsg) (r : Run),
      f.body = .msg inc seq part (.verdict v) ∧
      s.takes k f ∧
      s.receipt f.src inc seq = .take ∧
      s.runOf part v.step = some r ∧
      v.tag = s.rd (R.NOSE.JOB_TAG part) ∧
      v.attempt = r.att) ∧
    (∃ (s : State) (k : Fin 48) (f : Frame) (inc : Nat) (seq : Nat) (part : Nat) (v : VerdictMsg) (r : Run),
      f.body = .msg inc seq part (.verdict v) ∧
      s.takes k f ∧
      s.receipt f.src inc seq = .take ∧
      s.runOf part v.step = some r ∧
      v.tag = s.rd (R.NOSE.JOB_TAG part) ∧
      v.attempt = r.att + 1) ∧
    (∃ (s : State) (k : Fin 48) (f : Frame) (inc : Nat) (seq : Nat) (part : Nat) (v : VerdictMsg),
      f.body = .msg inc seq part (.verdict v) ∧
      s.takes k f ∧
      s.receipt f.src inc seq = .take ∧
      s.runOf part v.step = none) ∧
    (∃ (s : State) (k : Fin 48) (f : Frame) (inc : Nat) (seq : Nat) (part : Nat) (v : VerdictMsg) (r : Run),
      f.body = .msg inc seq part (.retract v) ∧
      s.takes k f ∧
      s.receipt f.src inc seq = .take ∧
      s.runOf part v.step = some r ∧
      v.tag = s.rd (R.NOSE.JOB_TAG part) ∧
      v.attempt = r.att ∧
      s.stepActive part = true ∧
      part < 8) ∧
    (∃ (s : State) (k : Fin 48) (f : Frame) (inc : Nat) (seq : Nat) (part : Nat) (nd : Nat) (src : Nat) (dst : Nat) (p : Place),
      f.body = .msg inc seq part (.release nd src dst) ∧
      s.takes k f ∧
      s.receipt f.src inc seq = .take ∧
      (s.place dst).toOption = some p ∧
      (s.gran p.gran).st = 1 ∧
      Cells.get none s.fab.moveIn p.gran = some (nd, src)) ∧
    (∃ (s : State) (k : Fin 48) (f : Frame) (inc : Nat) (seq : Nat) (part : Nat) (nd : Nat) (src : Nat) (dst : Nat) (p : Place),
      f.body = .msg inc seq part (.release nd src dst) ∧
      s.takes k f ∧
      s.receipt f.src inc seq = .take ∧
      (s.place dst).toOption = some p ∧
      ¬((s.gran p.gran).st = 1 ∧ Cells.get none s.fab.moveIn p.gran = some (nd, src))) ∧
    (∃ (s : State) (k : Fin 48) (f : Frame) (inc : Nat) (seq : Nat) (part : Nat) (nd : Nat) (src : Nat) (dst : Nat),
      f.body = .msg inc seq part (.release nd src dst) ∧
      s.takes k f ∧
      s.receipt f.src inc seq = .take ∧
      (s.place dst).toOption = none) ∧
    (∃ (s : State) (k : Fin 48) (f : Frame) (inc : Nat) (seq : Nat) (part : Nat) (src : Nat) (dst : Nat),
      f.body = .msg inc seq part (.query src dst) ∧
      s.takes k f ∧
      s.receipt f.src inc seq = .take) ∧
    (∃ (s : State) (k : Fin 48) (f : Frame) (inc : Nat) (seq : Nat) (part : Nat) (dst : Nat) (n : Nat) (home : Bool),
      f.body = .msg inc seq part (.answer dst home) ∧
      s.takes k f ∧
      s.receipt f.src inc seq = .take ∧
      Cells.get none s.fab.moveIn (dst / granBytes) = some (f.src, n) ∧
      (s.gran (dst / granBytes)).st = 1) ∧
    (∃ (s : State) (k : Fin 48) (f : Frame) (inc : Nat) (seq : Nat) (part : Nat) (l : Nat) (mine : Nat) (tx : Nat) (rx : Nat),
      f.body = .msg inc seq part (.ledgerQuery l mine tx rx) ∧
      s.takes k f ∧
      s.receipt f.src inc seq = .take) ∧
    (∃ (s : State) (k : Fin 48) (f : Frame) (inc : Nat) (seq : Nat) (part : Nat) (l : Nat) (rx : Nat) (fr : Nat),
      f.body = .msg inc seq part (.ledgerReply l rx fr) ∧
      s.takes k f ∧
      s.receipt f.src inc seq = .take) ∧
    (∃ (s : State) (k : Fin 48) (f : Frame) (seq : Nat) (c : Nat) (m : OutMsg),
      f.body = .msgAck seq c ∧
      s.takes k f ∧
      ((s.fab.msgs.find? fun m => decide (m.node = f.src ∧ m.seq = seq)) = some m) ∧
      (∀ src ∈ [m.msg], (match src with | .release _ _ _ | .leave _ => false | _ => true) = true)) ∧
    (∃ (s : State) (k : Fin 48) (f : Frame) (seq : Nat) (c : Nat) (nd : Nat) (src : Nat) (dst : Nat) (m : OutMsg),
      f.body = .msgAck seq c ∧
      s.takes k f ∧
      ((s.fab.msgs.find? fun m => decide (m.node = f.src ∧ m.seq = seq)) = some m) ∧
      m.msg = .release nd src dst) ∧
    (∃ (s : State) (k : Fin 48) (f : Frame) (seq : Nat) (c : Nat) (n : Nat) (m : OutMsg),
      f.body = .msgAck seq c ∧
      s.takes k f ∧
      ((s.fab.msgs.find? fun m => decide (m.node = f.src ∧ m.seq = seq)) = some m) ∧
      m.msg = .leave n ∧
      f.src = s.rd R.MOD.FAB_REGISTRAR ∧
      s.rd R.MOD.FAB_STAT.STATE = 4) ∧
    (∃ (s : State) (n : BitVec 16) (seq : Nat) (b : Nat) (m : OutMsg),
      ((s.fab.msgs.find? fun m => decide (m.node = n.toNat ∧ m.seq = seq)) = some m) ∧
      m.sent = some b ∧
      s.joined = true ∧
      b + s.retx ≤ s.now) :=
  ⟨⟨linkedStep.noteMsg 9 1 3, 0, frameOf (.msg 1 2 1 (.verdict verdict1)), 1, 2, 1, verdict1, by decide +kernel⟩,
   ⟨linkedStep.noteMsg 9 1 0, 0, frameOf (.msg 1 2 1 (.verdict verdict1)), 1, 2, 1, verdict1, by decide +kernel⟩,
   ⟨linkedStep, 0, frameOf (.msg 1 1 1 (.verdict verdict1)), 1, 1, 1, verdict1, closed1, by decide +kernel⟩,
   ⟨linkedStep, 0, frameOf (.msg 1 1 1 (.verdict { verdict1 with attempt := 1 })), 1, 1, 1, { verdict1 with attempt := 1 }, closed1, by decide +kernel⟩,
   ⟨linked, 0, frameOf (.msg 1 1 1 (.verdict verdict1)), 1, 1, 1, verdict1, by decide +kernel⟩,
   ⟨linkedStep, 0, frameOf (.msg 1 1 1 (.retract verdict1)), 1, 1, 1, verdict1, closed1, by decide +kernel⟩,
   ⟨(remote 1 1 1).onFab fun x => { x with moveIn := [(placedG, some (9, 4096))] }, 0, frameOf (.msg 1 1 255 (.release 9 4096 (40 * bondBytes))), 1, 1, 255, 9, 4096, 40 * bondBytes, .bond 40 0, by decide +kernel⟩,
   ⟨remote 1 1 0, 0, frameOf (.msg 1 1 255 (.release 9 4096 (40 * bondBytes))), 1, 1, 255, 9, 4096, 40 * bondBytes, .bond 40 0, by decide +kernel⟩,
   ⟨remote 1 1 0, 0, frameOf (.msg 1 1 255 (.release 9 4096 (90 * 2 ^ 40))), 1, 1, 255, 9, 4096, 90 * 2 ^ 40, by decide +kernel⟩,
   ⟨remote 1 1 0, 0, frameOf (.msg 1 1 255 (.query (40 * bondBytes) 4096)), 1, 1, 255, 40 * bondBytes, 4096, by decide +kernel⟩,
   ⟨(remote 1 1 1).onFab fun x => { x with moveIn := [(placedG, some (9, 4096))], held := [placedG] }, 0, frameOf (.msg 1 1 255 (.answer (40 * bondBytes) false)), 1, 1, 255, 40 * bondBytes, 4096, false, by decide +kernel⟩,
   ⟨linked, 0, frameOf (.msg 1 1 255 (.ledgerQuery 3 4 5 6)), 1, 1, 255, 3, 4, 5, 6, by decide +kernel⟩,
   ⟨linked, 0, frameOf (.msg 1 1 255 (.ledgerReply 3 7 0)), 1, 1, 255, 3, 7, 0, by decide +kernel⟩,
   ⟨unacked (.query 1 2), 0, frameOf (.msgAck 1 0), 1, 0, unackedMsg (.query 1 2), by decide +kernel⟩,
   ⟨unacked (.release 0 1 2), 0, frameOf (.msgAck 1 1), 1, 1, 0, 1, 2, unackedMsg (.release 0 1 2), by decide +kernel⟩,
   ⟨((unacked (.leave 0)).wr R.MOD.FAB_REGISTRAR 9).wr R.MOD.FAB_STAT.STATE 4, 0, frameOf (.msgAck 1 0), 1, 0, 0, unackedMsg (.leave 0), by decide +kernel⟩,
   ⟨(later 500000000 (unacked (.query 1 2))), 9, 1, 0, unackedMsg (.query 1 2), by decide +kernel⟩⟩

theorem witness_WindowsCapsAndCassettes :
    (∃ (s : State) (w : PowerWindow),
      s.time % windowTicks = 0 ∧
      s.modState ≠ 0) ∧
    (∃ (s : State) (p : Path),
      s.reaches p R.PWR.CAP_CFG.RELEASE.addr none ∧
      let u := s.taken p R.PWR.CAP_CFG.RELEASE.addr 4
      u.clk.capCeil.isSome = true ∧
      u.daxvoEmerg = false) ∧
    (∃ (s : State) (i : Fin 14),
      (s.rd R.PWR.CASS_MAP.PRESENT).testBit i = false) ∧
    (∃ (s : State) (i : Fin 14),
      (s.rd R.PWR.CASS_MAP.PRESENT).testBit i = false) ∧
    (∃ (s : State) (i : Fin 14) (mv : Int),
      44000 ≤ mv ∧
      mv ≤ 60000 ∧
      Cells.get 0 s.power.inserted i ≠ 0 ∧
      Cells.get 0 s.power.inserted i + softStart ≤ s.now + 1 ∧
      (s.rd R.PWR.CASS_MAP.HEALTHY).testBit i = false) ∧
    (∃ (s : State) (i : Fin 14) (mv : Int),
      (mv < 44000 ∨ 60000 < mv)) ∧
    (∃ (s : State) (lost : BitVec 14) (removed : BitVec 14) (gained : BitVec 14) (bus : Option (Nat × Nat)),
      ((bus.any fun b => busOut b.1 b.2) = false) ∧
      let a := s.loseCassettes lost.toNat removed.toNat gained.toNat
      2 < a.healthy) ∧
    (∃ (s : State) (lost : BitVec 14) (removed : BitVec 14) (gained : BitVec 14) (bus : Option (Nat × Nat)),
      ((bus.any fun b => busOut b.1 b.2) = false) ∧
      let a := s.loseCassettes lost.toNat removed.toNat gained.toNat
      a.healthy = 2 ∧
      2 < s.healthy) ∧
    (∃ (s : State) (lost : BitVec 14) (removed : BitVec 14) (gained : BitVec 14) (bus : Option (Nat × Nat)),
      ((bus.any fun b => busOut b.1 b.2) = false) ∧
      let a := s.loseCassettes lost.toNat removed.toNat gained.toNat
      a.healthy ≤ 1 ∧
      a.healthy < s.healthy ∧
      s.modState ≠ 0 ∧
      s.modState ≠ 7) ∧
    (∃ (s : State) (lost : BitVec 14) (removed : BitVec 14) (gained : BitVec 14) (mv : Nat) (ticks : Nat),
      (mv = 0 ∨ mv < 44000 ∧ 1562500 ≤ ticks ∨ 60000 < mv ∧ 15625 ≤ ticks) ∧
      s.modState ≠ 0 ∧
      s.modState ≠ 7) :=
  ⟨⟨State.reset.wr R.MOD.STATE 3, ⟨900, 1000, [(5, 4)], [], [1], 3, true, []⟩, by decide +kernel⟩,
   ⟨{ State.reset with clk := { State.reset.clk with capCeil := some 900 } }, (.sideband .a), by decide +kernel⟩,
   ⟨cass4, 6, by decide +kernel⟩,
   ⟨cass4, 6, by decide +kernel⟩,
   ⟨(later 100000000 (cass4.wr R.PWR.CASS_MAP.HEALTHY 7)), 3, 54000, by decide +kernel⟩,
   ⟨cass4, 3, 43999, by decide +kernel⟩,
   ⟨cass4, 1, 0, 0, none, by decide +kernel⟩,
   ⟨setAct cass4 (R.MOD.PART_DEF.VALID 1) 1, 1, 2, 0, some (60500, 15624), by decide +kernel⟩,
   ⟨cass4, 5, 2, 0, none, by decide +kernel⟩,
   ⟨cass4, 0, 0, 0, 43999, 1562500, by decide +kernel⟩⟩

theorem witness_TheEffectiveCeilingIsRecomputed :
    (∃ (s : State) (w : PowerWindow),
      s.time % windowTicks = 0 ∧
      s.modState ≠ 0) ∧
    (∃ (s : State) (i : Fin 14) (mv : Int),
      44000 ≤ mv ∧
      mv ≤ 60000 ∧
      Cells.get 0 s.power.inserted i ≠ 0 ∧
      Cells.get 0 s.power.inserted i + softStart ≤ s.now + 1 ∧
      (s.rd R.PWR.CASS_MAP.HEALTHY).testBit i = false) :=
  ⟨⟨State.reset.wr R.MOD.STATE 3, ⟨900, 1000, [(5, 4)], [], [1], 3, true, []⟩, by decide +kernel⟩,
   ⟨(later 100000000 (cass4.wr R.PWR.CASS_MAP.HEALTHY 7)), 3, 44000, by decide +kernel⟩⟩

theorem witness_RailsAndDomainsFail :
    (∃ (s : State) (r : Rail),
      s.modState ≠ 0 ∧
      s.railOn r = true ∧
      (∀ d ∈ List.finRange 84, r = .vcore d → s.rd (R.PDOM.STAT.STATE d) ≠ 4)) ∧
    (∃ (s : State) (d : Fin 84),
      s.railOn (.vcore d) = true ∧
      s.on (R.PDOM.STAT.SPARE_USED d) = false) ∧
    (∃ (s : State) (d : Fin 84),
      s.railOn (.vcore d) = true ∧
      s.on (R.PDOM.STAT.SPARE_USED d) = true ∧
      s.rd (R.PDOM.STAT.STATE d) ≠ 4) ∧
    (∃ (s : State) (d : Fin 84) (r : DomainReading),
      s.railOn (.vcore d) = true ∧
      domainFaulty r = true ∧
      s.rd (R.PDOM.STAT.STATE d) ≠ 4) ∧
    (∃ (s : State) (d : Fin 84) (i : Fin 16) (v : Nat) (n : Nat),
      s.railOn (.vcore d) = true ∧
      (s.rd (R.PDOM.SENSOR_EXCL d)).testBit i = false ∧
      s.excludes d i v n = true ∧
      12 < (s.validSensors d).length) ∧
    (∃ (s : State) (d : Fin 84) (v : Nat) (n : Nat),
      s.railOn (.vcore d) = true ∧
      v + s.rd (R.PDOM.DROOP_CFG.DROOP_MV d) < s.domTarget d ∧
      max 1 (s.rd (R.PDOM.DROOP_CFG.TICKS d)) ≤ n ∧
      s.domKeeps d = true) ∧
    (∃ (s : State) (d : Fin 84) (v : Nat) (m : Nat) (i : Fin 16),
      s.railOn (.vcore d) = true) :=
  ⟨⟨railed (State.reset.wr R.MOD.STATE 3) [.vopt 3], .vopt 3, by decide +kernel⟩,
   ⟨railed (State.reset.wr R.MOD.STATE 3) [.vcore 5], 5, by decide +kernel⟩,
   ⟨railed ((State.reset.wr R.MOD.STATE 3).wr (R.PDOM.STAT.SPARE_USED 5) 1) [.vcore 5], 5, by decide +kernel⟩,
   ⟨railed (State.reset.wr R.MOD.STATE 3) [.vcore 5], 5, .output 960 0, by decide +kernel⟩,
   ⟨railed State.reset [.vcore 5], 5, 3, 400, 0, by decide +kernel⟩,
   ⟨drooping, 5, 100, 99, by decide +kernel⟩,
   ⟨drooping, 5, 910, 600, 3, by decide +kernel⟩⟩

theorem witness_ShedsAndParks :
    (∃ (s : State) (p : Path),
      s.reaches p R.PWR.SHED_CTRL.GO.addr none ∧
      let u := s.taken p R.PWR.SHED_CTRL.GO.addr 4
      (u.rd R.PWR.SHED_STAT).testBit 0 = false ∧
      u.rd R.PWR.STAT.SHED ≠ 1 ∧
      u.rd R.PWR.STAT.SHED ≠ 2 ∧
      u.power.shedAt = none ∧
      u.time < u.rd R.PWR.SHED_EPOCH) ∧
    (∃ (s : State) (p : Path),
      s.reaches p R.PWR.SHED_CTRL.GO.addr none ∧
      let u := s.taken p R.PWR.SHED_CTRL.GO.addr 4
      (u.rd R.PWR.SHED_STAT).testBit 0 = false ∧
      u.rd R.PWR.STAT.SHED ≠ 1 ∧
      u.rd R.PWR.STAT.SHED ≠ 2 ∧
      u.power.shedAt = none ∧
      u.rd R.PWR.SHED_EPOCH = 0) ∧
    (∃ (s : State) (n : Nat),
      s.power.shedAt = some n ∧
      n ≤ s.time) ∧
    (∃ (s : State) (n : Nat),
      s.rd R.PWR.STAT.SHED = 1 ∧
      s.power.shedAt = none ∧
      s.power.freezeAt = some n ∧
      n ≤ s.time ∧
      (∀ r ∈ List.range 24, (s.rowFrac r).eff ≤ 2)) ∧
    (∃ (s : State) (p : Path),
      s.reaches p R.PWR.SHED_CTRL.GO.addr none ∧
      let u := s.taken p R.PWR.SHED_CTRL.GO.addr 4
      u.rd R.PWR.SHED_STAT / 2 = 0) ∧
    (∃ (s : State) (p : Path),
      s.reaches p R.PWR.SHED_CTRL.GO.addr none ∧
      let u := s.taken p R.PWR.SHED_CTRL.GO.addr 4
      u.rd R.PWR.SHED_STAT / 2 ≠ 0) ∧
    (∃ (s : State),
      s.rd R.PWR.STAT.SHED = 3 ∧
      s.steered = true) ∧
    (∃ (s : State) (p : Path) (part : Fin 8),
      s.reaches p R.PWR.PARK_CTRL.GO.addr none ∧
      let u := s.taken p R.PWR.PARK_CTRL.GO.addr 4
      u.rd R.PWR.STAT.SHED = 0 ∧
      u.partRead part = 5 ∧
      (u.rd R.PWR.PARK_STAT.PARKED).testBit part = false) ∧
    (∃ (s : State) (p : Path) (part : Fin 8),
      s.reaches p R.PWR.PARK_CTRL.GO.addr none ∧
      let u := s.taken p R.PWR.PARK_CTRL.GO.addr 4
      u.rd R.PWR.STAT.SHED = 0 ∧
      u.partRead part ≠ 5) ∧
    (∃ (s : State) (p : Path) (part : Fin 8),
      s.reaches p R.PWR.PARK_CTRL.GO.addr none ∧
      let u := s.taken p R.PWR.PARK_CTRL.GO.addr 4
      u.rd R.PWR.STAT.SHED ≠ 0) ∧
    (∃ (s : State) (part : Fin 8),
      s.power.parking.testBit part = true) ∧
    (∃ (s : State) (p : Path) (part : Fin 8),
      s.reaches p R.PWR.PARK_CTRL.GO.addr none ∧
      let u := s.taken p R.PWR.PARK_CTRL.GO.addr 4
      u.rd R.PWR.STAT.SHED = 0 ∧
      (u.rd R.PWR.PARK_STAT.PARKED).testBit part = true ∧
      ((u.rd R.PWR.PARK_STAT.FORCED).testBit part = false ∨ 3 ≤ u.healthy)) ∧
    (∃ (s : State) (p : Path) (part : Fin 8),
      s.reaches p R.PWR.PARK_CTRL.GO.addr none ∧
      let u := s.taken p R.PWR.PARK_CTRL.GO.addr 4
      u.rd R.PWR.STAT.SHED ≠ 0) ∧
    (∃ (s : State) (p : Path) (part : Fin 8),
      s.reaches p R.PWR.PARK_CTRL.GO.addr none ∧
      let u := s.taken p R.PWR.PARK_CTRL.GO.addr 4
      u.rd R.PWR.STAT.SHED = 0 ∧
      (u.rd R.PWR.PARK_STAT.PARKED).testBit part = true ∧
      (u.rd R.PWR.PARK_STAT.FORCED).testBit part = true ∧
      u.healthy < 3) ∧
    (∃ (s : State) (n : Fin 960),
      Cells.get 0 s.power.awake n ≠ 0 ∧
      Cells.get 0 s.power.awake n + 1562 ≤ s.now) :=
  ⟨⟨State.reset.wr R.PWR.SHED_EPOCH 50, (.sideband .a), by decide +kernel⟩,
   ⟨State.reset, (.sideband .a), by decide +kernel⟩,
   ⟨{ State.reset with power := { State.reset.power with shedAt := some 0 } }, 0, by decide +kernel⟩,
   ⟨{ State.reset.wr R.PWR.STAT.SHED 1 with power := { State.reset.power with freezeAt := some 0 } }, 0, by decide +kernel⟩,
   ⟨(State.reset.wr R.PWR.SHED_STAT 1).wr R.PWR.STAT.SHED 2, (.sideband .a), by decide +kernel⟩,
   ⟨State.reset.wr R.PWR.SHED_STAT 5, (.sideband .a), by decide +kernel⟩,
   ⟨{ State.reset.wr R.PWR.STAT.SHED 3 with power := { State.reset.power with frozen := true, rails := [] } }, by decide +kernel⟩,
   ⟨quiesced, (.sideband .a), 1, by decide +kernel⟩,
   ⟨inPart, (.sideband .a), 1, by decide +kernel⟩,
   ⟨quiesced.wr R.PWR.STAT.SHED 1, (.sideband .a), 1, by decide +kernel⟩,
   ⟨{ quiesced with power := { quiesced.power with parking := 2 } }, 1, by decide +kernel⟩,
   ⟨quiesced.wr R.PWR.PARK_STAT.PARKED 2, (.sideband .a), 1, by decide +kernel⟩,
   ⟨(quiesced.wr R.PWR.PARK_STAT.PARKED 2).wr R.PWR.STAT.SHED 1, (.sideband .a), 1, by decide +kernel⟩,
   ⟨(quiesced.wr R.PWR.PARK_STAT.PARKED 2).wr R.PWR.PARK_STAT.FORCED 2, (.sideband .a), 1, by decide +kernel⟩,
   ⟨{ (later 2000 State.reset) with power := { State.reset.power with awake := [(40, 1)] } }, 40, by decide +kernel⟩⟩

theorem witness_ThermalAndFlowLevels :
    (∃ (s : State) (r : Reading),
      s.atWarn r = true ∧
      s.rd R.PWR.STAT.THERM = 0) ∧
    (∃ (s : State) (n : Nat),
      s.power.warnAt = some n ∧
      n + ticks100ms ≤ s.now) ∧
    (∃ (s : State),
      s.rd R.PWR.STAT.THERM ≠ 0) ∧
    (∃ (s : State),
      s.rd R.PWR.STAT.THERM ≠ 0) ∧
    (∃ (s : State) (r : Reading),
      (s.levels r).shed ≤ readingValue r ∧
      s.rd R.PWR.STAT.THERM ≠ 2) ∧
    (∃ (s : State) (r : Reading),
      s.modState ≠ 0 ∧
      s.modState ≠ 7 ∧
      (s.levels r).trip ≤ readingValue r) ∧
    (∃ (s : State) (c : Port),
      s.on (presentFld c) = true) ∧
    (∃ (s : State) (c : Port),
      s.on (presentFld c) = false) ∧
    (∃ (s : State) (fa : Nat) (fb : Nat) (n : Nat),
      s.on R.PWR.COOL_STAT.FLOW_LOW = false ∧
      s.flow fa fb < s.rd R.PWR.FLOW_MIN ∧
      ticks100ms ≤ n) ∧
    (∃ (s : State) (fa : Nat) (fb : Nat) (n : Nat),
      s.on R.PWR.COOL_STAT.FLOW_LOW = true ∧
      s.rd R.PWR.FLOW_MIN ≤ s.flow fa fb ∧
      10 * ticks100ms ≤ n) :=
  ⟨⟨State.reset.wr R.PWR.P_MOD 30000, .wafer 5 200, by decide +kernel⟩,
   ⟨{ later 100000000 (State.reset.wr R.PWR.STAT.THERM 1) with power := { State.reset.power with warnAt := some 5 } }, 5, by decide +kernel⟩,
   ⟨(State.reset.wr R.PWR.STAT.THERM 1).wr R.PWR.SHED_STAT 4, by decide +kernel⟩,
   ⟨(State.reset.wr R.PWR.STAT.THERM 2).wr R.PWR.SHED_STAT 4, by decide +kernel⟩,
   ⟨State.reset, .wafer 5 200, by decide +kernel⟩,
   ⟨State.reset.wr R.MOD.STATE 3, .wafer 5 200, by decide +kernel⟩,
   ⟨State.reset.wr R.PWR.COOL_STAT.A_PRESENT 1, .a, by decide +kernel⟩,
   ⟨State.reset.wr R.PWR.COOL_STAT.A_PRESENT 0, .a, by decide +kernel⟩,
   ⟨State.reset.wr R.PWR.FLOW_MIN 9, 3, 4, 100000000, by decide +kernel⟩,
   ⟨((State.reset.wr R.PWR.COOL_STAT.FLOW_LOW 1).wr R.PWR.COOL_STAT.A_PRESENT 1).wr R.PWR.SHED_STAT 8, 900, 4, 900000000, by decide +kernel⟩⟩

theorem witness_DrydownRunsItsSteps :
    (∃ (s : State) (p : Path),
      s.reaches p R.PWR.DRYDOWN_CTRL.addr none ∧
      let u := s.taken p R.PWR.DRYDOWN_CTRL.addr 4
      u.modState ≠ 0 ∧
      u.modState ≠ 7 ∧
      u.power.dry = none) ∧
    (∃ (s : State) (p : Path),
      s.reaches p R.PWR.DRYDOWN_CTRL.addr none ∧
      let u := s.taken p R.PWR.DRYDOWN_CTRL.addr 4
      u.modState = 7) ∧
    (∃ (s : State) (n : Nat),
      4 ≤ n ∧
      s.modState ≠ 0 ∧
      s.modState ≠ 7) ∧
    (∃ (s : State) (d : Drydown) (fl : Bool) (lo : Bool) (ho : Bool) (stuck : BitVec 10),
      s.power.dry = some d ∧
      d.warm = false ∧
      ho = true ∧
      d.next < 16 ∧
      s.stepDue d fl lo = true) ∧
    (∃ (s : State) (d : Drydown) (fl : Bool) (lo : Bool) (ho : Bool) (stuck : BitVec 10),
      s.power.dry = some d ∧
      d.warm = false ∧
      ho = true ∧
      d.next = 17 ∧
      s.stepDue d fl lo = true) ∧
    (∃ (s : State) (d : Drydown) (fl : Bool) (lo : Bool) (stuck : BitVec 10),
      s.power.dry = some d ∧
      d.warm = false ∧
      s.on R.PWR.DD_LAST.COMPLETE = false) ∧
    (∃ (s : State) (d : Drydown) (fl : Bool) (lo : Bool) (stuck : BitVec 10),
      s.power.dry = some d ∧
      d.warm = false ∧
      s.on R.PWR.DD_LAST.COMPLETE = true) ∧
    (∃ (s : State) (d : Drydown) (fl : Bool) (lo : Bool) (ho : Bool) (stuck : BitVec 10),
      s.power.dry = some d ∧
      d.warm = true ∧
      d.next = 15 ∧
      s.stepDue d fl lo = true) ∧
    (∃ (s : State) (ev : PowerEvent) (sram : Bool),
      s.modState = 0 ∧
      (∀ x ∈ [ev], (match x with | .bus54 i high => (s.rd R.PWR.CASS_MAP.PRESENT).testBit i && high | .rackOff low bus => decide (156250 ≤ low) && bus) = true)) :=
  ⟨⟨State.reset.wr R.MOD.STATE 3, (.sideband .a), by decide +kernel⟩,
   ⟨State.reset.wr R.MOD.STATE 7, (.sideband .a), by decide +kernel⟩,
   ⟨State.reset.wr R.MOD.STATE 3, 4, by decide +kernel⟩,
   ⟨railed (drying 1 false) [.vcore 5], ⟨0, 1, 0, false, 0⟩, false, false, true, 0, by decide +kernel⟩,
   ⟨drying 17 false, ⟨0, 17, 0, false, 0⟩, false, false, true, 0, by decide +kernel⟩,
   ⟨drying 9 false, ⟨0, 9, 0, false, 0⟩, false, false, 0, by decide +kernel⟩,
   ⟨(drying 16 false).wr R.PWR.DD_LAST.COMPLETE 1, ⟨0, 16, 0, false, 0⟩, false, false, 0, by decide +kernel⟩,
   ⟨drying 15 true, ⟨0, 15, 0, true, 0⟩, false, false, true, 0, by decide +kernel⟩,
   ⟨State.reset.wr R.MOD.STATE 0, .rackOff 156250 true, true, by decide +kernel⟩⟩

theorem witness_BringUpRunsItsSteps :
    (∃ (s : State),
      s.modState = 1 ∧
      s.power.dry = none ∧
      s.on R.FUSE.CRC_STAT = true ∧
      s.on R.CLK.STATUS.LOCK = true ∧
      s.railOn .bus12 = true ∧
      s.on R.CFG.BOOT_CTRL.HOLD_FUSED = false ∧
      s.boot.vcardAt + ticks100ms ≤ s.now) ∧
    (∃ (s : State) (h : Bool) (b : Bool),
      s.modState = 1 ∧
      s.power.dry = none ∧
      (h = false ∨ b = false ∨ s.on R.CLK.STATUS.LOCK = false)) ∧
    (∃ (s : State),
      s.modState = 2 ∧
      s.boot.turn < 13 ∧
      s.boot.entered + 156250 * s.boot.turn ≤ s.now) ∧
    (∃ (s : State),
      s.modState = 2 ∧
      s.boot.turn = 13 ∧
      s.boot.entered + 156250 * 13 ≤ s.now) ∧
    (∃ (s : State),
      s.modState = 2 ∧
      1 ≤ s.boot.turn ∧
      s.boot.turn ≤ 13 ∧
      s.boot.entered + 156250 * s.boot.turn ≤ s.now) ∧
    (∃ (s : State) (slot : Nat),
      s.modState = 2 ∧
      s.boot.loadAt = none ∧
      s.ended [0] = true ∧
      s.nextSlotToTry = some slot) ∧
    (∃ (s : State) (p : Path),
      s.reaches p R.CFG.FW_READY.addr none ∧
      let u := s.taken p R.CFG.FW_READY.addr 4
      u.modState = 2 ∧
      u.ended [1, 2] = true ∧
      u.ended [3] = false) ∧
    (∃ (s : State) (n : Nat),
      s.boot.loadAt = some n ∧
      s.modState = 2 ∧
      s.ended [3] = false ∧
      n + 10 * Config.ticksPerS ≤ s.now) ∧
    (∃ (s : State) (x : EnfStep) (m : Nat),
      s.modState = 2 ∧
      x = .sfdp (some m) ∧
      128 ≤ m) ∧
    (∃ (s : State) (m : Option Nat),
      s.modState = 2 ∧
      ((m.all fun n => decide (n < 128)) = true)) ∧
    (∃ (s : State) (l : List Companion),
      s.modState = 2 ∧
      s.ended [1, 2, 3] = true ∧
      s.ended [4] = false) ∧
    (∃ (s : State),
      s.modState = 2 ∧
      s.ended [4] = true ∧
      s.ended [5] = false) ∧
    (∃ (s : State),
      s.modState = 2 ∧
      s.ended [4] = true ∧
      s.ended [6] = false) ∧
    (∃ (s : State),
      s.modState = 2 ∧
      s.ended [1, 2, 3, 4, 5] = true ∧
      (s.linksUp = true ∨ s.boot.linksAt + s.rd R.CFG.LINK_WAIT * Config.ticksPerMs ≤ s.now)) :=
  ⟨⟨railed ((later 100000000 State.reset)) [.bus12], by decide +kernel⟩,
   ⟨State.reset, true, false, by decide +kernel⟩,
   ⟨enfleuring 6 0, by decide +kernel⟩,
   ⟨enfleuring 13 0, by decide +kernel⟩,
   ⟨enfleuring 6 0, by decide +kernel⟩,
   ⟨enfleuring 3 1, 0, by decide +kernel⟩,
   ⟨enfleuring 14 7, (.sideband .a), by decide +kernel⟩,
   ⟨{ enfleuring 14 7 with boot := { (enfleuring 14 7).boot with loadAt := some 0 } }, 0, by decide +kernel⟩,
   ⟨enfleuring 0 0, .sfdp (some 256), 256, by decide +kernel⟩,
   ⟨enfleuring 0 0, some 64, by decide +kernel⟩,
   ⟨enfleuring 14 15, [], by decide +kernel⟩,
   ⟨enfleuring 14 31, by decide +kernel⟩,
   ⟨enfleuring 14 63, by decide +kernel⟩,
   ⟨enfleuring 14 127, by decide +kernel⟩⟩

theorem witness_PartitionsRunQuiesceAndReset :
    (∃ (s : State) (p : Path) (part : Fin 8),
      s.reaches p R.CFG.PART_CTRL.GO.addr (some part.val) ∧
      let u := s.taken p R.CFG.PART_CTRL.GO.addr 4
      u.modState = 3 ∧
      u.partState part = 3 ∧
      u.partHeld part = false ∧
      u.on R.TB.STAT.SET_DONE = true ∧
      u.holders part = 0) ∧
    (∃ (s : State) (p : Path) (part : Fin 8),
      s.reaches p R.CFG.PART_CTRL.GO.addr (some part.val) ∧
      let u := s.taken p R.CFG.PART_CTRL.GO.addr 4
      u.modState = 3 ∧
      u.partState part = 5 ∧
      u.partHeld part = false ∧
      u.on R.TB.STAT.SET_DONE = true ∧
      u.holders part = 1) ∧
    (∃ (s : State) (p : Path) (part : Fin 8),
      s.reaches p R.CFG.PART_CTRL.GO.addr (some part.val) ∧
      let u := s.taken p R.CFG.PART_CTRL.GO.addr 4
      (u.modState ≠ 3 ∨ u.partState part = 0 ∨ u.partHeld part = true ∨ u.on R.TB.STAT.SET_DONE = false)) ∧
    (∃ (s : State) (p : Path) (part : Fin 8),
      s.reaches p R.CFG.PART_CTRL.GO.addr (some part.val) ∧
      let u := s.taken p R.CFG.PART_CTRL.GO.addr 4
      u.modState = 3 ∧
      u.partState part ≠ 0) ∧
    (∃ (s : State) (part : Fin 8),
      s.holders part ≠ 0 ∧
      (s.partState part = 3 ∨ s.partState part = 4) ∧
      s.partBusy part = false) ∧
    (∃ (s : State) (p : Path),
      s.reaches p R.CFG.RESET_CTRL.GO.addr none ∧
      let u := s.taken p R.CFG.RESET_CTRL.GO.addr 4
      u.modState ≠ 0 ∧
      u.modState ≠ 7 ∧
      u.power.dry = none) ∧
    (∃ (s : State) (n : Nat),
      s.host.lostAt = some n ∧
      n + seconds (s.rd R.CFG.REATTACH) ≤ s.now) ∧
    (∃ (s : State) (c : Port),
      s.reaches (.sideband c) R.CFG.WDOG_CTRL.KICK.addr none ∧
      s.boot.wdogAt.isSome = true) ∧
    (∃ (s : State) (h : Port) (fn : Nat),
      s.reaches (.host h fn) R.CFG.WDOG_CTRL.KICK.addr none) ∧
    (∃ (s : State) (c : Port),
      c ≠ s.lead) ∧
    (∃ (s : State) (n : Nat),
      s.boot.wdogAt = some n ∧
      s.modState ≠ 0 ∧
      s.modState ≠ 7 ∧
      n + seconds s.wdogSeconds ≤ s.now) ∧
    (∃ (s : State) (p : Path),
      s.reaches p R.CFG.PREL_CLEAR.addr none) :=
  ⟨⟨(quiesced.wr (R.MOD.PART_STATE 1) 3).wr R.TB.STAT.SET_DONE 1, (.sideband .a), 1, by decide +kernel⟩,
   ⟨(quiesced.wr (R.CFG.QHOLD 1) 1).wr R.TB.STAT.SET_DONE 1, (.sideband .a), 1, by decide +kernel⟩,
   ⟨inPart, (.sideband .a), 1, by decide +kernel⟩,
   ⟨running, (.sideband .a), 1, by decide +kernel⟩,
   ⟨running.wr (R.CFG.QHOLD 1) 1, 1, by decide +kernel⟩,
   ⟨quiesced, (.sideband .a), by decide +kernel⟩,
   ⟨{ running with host := { running.host with lostAt := some 0, paused := 2 } }.wr R.CFG.REATTACH 0, 0, by decide +kernel⟩,
   ⟨{ later 77 quiesced with boot := { quiesced.boot with wdogAt := some 5 } }, .a, by decide +kernel⟩,
   ⟨{ quiesced.wr (R.HOST.PORT_STAT.ATTACHED 0) 1 with boot := { quiesced.boot with wdogAt := some 5 } }, .a, 0, by decide +kernel⟩,
   ⟨quiesced, .b, by decide +kernel⟩,
   ⟨{ (later 90000000000 quiesced) with boot := { quiesced.boot with wdogAt := some 5 } }, 5, by decide +kernel⟩,
   ⟨{ quiesced with island := { quiesced.island with releases := [⟨0, 9, 1, 2, none⟩] }, fab := { quiesced.fab with held := [placedG] } }, (.sideband .a), by decide +kernel⟩⟩

theorem witness_RowsShiftAndRetire :
    (∃ (s : State) (p : Path) (row : BitVec 5) (pcol : BitVec 6),
      s.reaches p R.SPARE.SHIFT_CTRL.GO.addr none ∧
      let u := s.taken p R.SPARE.SHIFT_CTRL.GO.addr 4
      row < 24 ∧
      pcol ≤ 41 ∧
      u.shiftIn row.toNat = none ∧
      pcol.toNat ∉ u.failedCols row.toNat ∧
      (((u.rowPart row.toNat).all fun q => decide (u.partRead q = 5)) = true) ∧
      (u.failedCols row.toNat).length < 2) ∧
    (∃ (s : State) (p : Path) (row : BitVec 5) (pcol : BitVec 6),
      s.reaches p R.SPARE.SHIFT_CTRL.GO.addr none ∧
      let u := s.taken p R.SPARE.SHIFT_CTRL.GO.addr 4
      row < 24 ∧
      pcol ≤ 41 ∧
      u.shiftIn row.toNat = none ∧
      pcol.toNat ∉ u.failedCols row.toNat ∧
      (((u.rowPart row.toNat).all fun q => decide (u.partRead q = 5)) = true) ∧
      2 ≤ (u.failedCols row.toNat).length) ∧
    (∃ (s : State) (p : Path) (row : BitVec 5) (pcol : BitVec 6),
      s.reaches p R.SPARE.SHIFT_CTRL.GO.addr none ∧
      let u := s.taken p R.SPARE.SHIFT_CTRL.GO.addr 4
      (24 ≤ row ∨ 41 < pcol ∨ (u.shiftIn row.toNat).isSome = true ∨ pcol.toNat ∈ u.failedCols row.toNat ∨ ((u.rowPart row.toNat).any fun q => decide (u.partRead q ≠ 5)) = true)) ∧
    (∃ (s : State) (row : Fin 24) (x : Shift) (lost : Bool),
      s.shiftIn row = some x ∧
      s.quiet (s.rowPart row) = true ∧
      x.pcol < 42) ∧
    (∃ (s : State) (row : Fin 24) (pcol : Fin 42),
      s.shiftIn row = none ∧
      pcol.val ∉ s.failedCols row ∧
      s.on (R.SPARE.ROWMAP.RETIRED row) = false ∧
      (s.failedCols row).length < 2) ∧
    (∃ (s : State) (row : Fin 24) (pcol : Fin 42),
      s.shiftIn row = none ∧
      pcol.val ∉ s.failedCols row ∧
      s.on (R.SPARE.ROWMAP.RETIRED row) = false ∧
      2 ≤ (s.failedCols row).length) ∧
    (∃ (s : State) (i : Fin 12),
      s.modState ≠ 0 ∧
      s.fitted (pgLINK (4 * i.val)) = true ∧
      (s.rd R.MOD.IODIE_FAIL).testBit i = false) :=
  ⟨⟨quiesced, (.sideband .a), 1, 3, by decide +kernel⟩,
   ⟨(((quiesced.wr (R.SPARE.ROWMAP.F1 1) 5).wr (R.SPARE.ROWMAP.F1_VALID 1) 1).wr (R.SPARE.ROWMAP.F2 1) 6).wr (R.SPARE.ROWMAP.F2_VALID 1) 1, (.sideband .a), 1, 3, by decide +kernel⟩,
   ⟨inPart, (.sideband .a), 30, 3, by decide +kernel⟩,
   ⟨{ quiesced with part := { quiesced.part with shifts := [⟨1, 3, false, some [3]⟩] } }, 1, ⟨1, 3, false, some [3]⟩, true, by decide +kernel⟩,
   ⟨running, 1, 3, by decide +kernel⟩,
   ⟨(((running.wr (R.SPARE.ROWMAP.F1 1) 5).wr (R.SPARE.ROWMAP.F1_VALID 1) 1).wr (R.SPARE.ROWMAP.F2 1) 6).wr (R.SPARE.ROWMAP.F2_VALID 1) 1, 1, 3, by decide +kernel⟩,
   ⟨State.reset.wr R.MOD.STATE 3, 5, by decide +kernel⟩⟩

theorem witness_LeadAndStandby :
    (∃ (s : State) (c : Port) (n : BitVec 32),
      s.cardUp c = true ∧
      s.reaches (.sideband c) R.MGMT.HEARTBEAT.addr none ∧
      s.mgmt.planned = false) ∧
    (∃ (s : State) (c : Port) (n : BitVec 32),
      c ≠ s.lead ∧
      s.mgmt.planned = false) ∧
    (∃ (s : State) (c : Port) (n : BitVec 32),
      s.cardUp .a = true ∧
      s.cardUp .b = true ∧
      s.answers (.sideband .a) R.MGMT.HEARTBEAT.addr = true ∧
      s.fitted R.MGMT.HEARTBEAT.addr = true) ∧
    (∃ (s : State) (c : Port) (n : BitVec 32),
      s.cardUp c = true ∧
      s.answers (.sideband c) R.MGMT.HEARTBEAT.addr = true ∧
      s.fitted R.MGMT.HEARTBEAT.addr = true ∧
      s.mgmt.planned = true ∧
      c ≠ s.lead) ∧
    (∃ (s : State) (why : CardLoss),
      s.modState ≠ 0 ∧
      s.on (cardFld (otherCard s.lead)) = true ∧
      ((why = .removed ∨ why = .reset) ∧ s.on (cardFld s.lead) = true ∨ why = .rail ∧ s.cardUp s.lead = true ∨ why = .silent ∧ s.on R.CFG.FW_READY = true ∧ s.mgmt.hbAt + ticks20ms ≤ s.now)) ∧
    (∃ (s : State) (why : CardLoss),
      s.modState ≠ 0 ∧
      s.on (cardFld (otherCard s.lead)) = false ∧
      s.on (cardFld s.lead) = true ∧
      (why = .reset ∨ why = .silent ∧ s.on R.CFG.FW_READY = true ∧ s.mgmt.hbAt + ticks20ms ≤ s.now)) ∧
    (∃ (s : State),
      s.reaches (.sideband s.lead) R.MGMT.TAKEOVER_CTRL.addr none ∧
      s.on R.MGMT.ROLE.STANDBY_OK = true) ∧
    (∃ (s : State),
      s.reaches (.sideband s.lead) R.MGMT.TAKEOVER_CTRL.addr none ∧
      s.on R.MGMT.ROLE.STANDBY_OK = false) ∧
    (∃ (s : State) (copied : Bool),
      s.firmware = true ∧
      s.cardUp (otherCard s.lead) = true ∧
      (Cells.get 0 s.mgmt.loads (portIx (otherCard s.lead)) = 0 ∨ copied = true ∨ Cells.get 0 s.mgmt.loads (portIx (otherCard s.lead)) + ticks120s ≤ s.now + 1)) ∧
    (∃ (s : State),
      Cells.get 0 s.mgmt.loads (portIx (otherCard s.lead)) ≠ 0 ∧
      s.now + 1 < Cells.get 0 s.mgmt.loads (portIx (otherCard s.lead)) + ticks120s) ∧
    (∃ (s : State) (why : CardLoss),
      s.modState ≠ 0 ∧
      s.on R.MGMT.ROLE.STANDBY_OK = true ∧
      let c := otherCard s.lead
      ((why = .removed ∨ why = .reset) ∧ s.on (cardFld c) = true ∨ why = .rail ∧ s.cardUp c = true ∨ why = .silent ∧ s.mgmt.mirrorAt + ticks20ms < s.now)) ∧
    (∃ (s : State) (c : Port) (link : Bool) (own : Bool),
      s.on (cardFld c) = false ∧
      s.modState ≠ 0 ∧
      s.railOn .bus12 = true) ∧
    (∃ (s : State) (c : Port) (link : Bool) (own : Bool),
      s.on (cardFld c) = false) ∧
    (∃ (s : State),
      s.sends = true) ∧
    (∃ (s : State) (r : ErrRec) (l : List ErrRec),
      s.island.queue = r :: l ∧
      s.portUp s.lead = true ∧
      s.now < s.island.zeroAt + Config.ticksPerS) ∧
    (∃ (s : State),
      s.island.queue = [] ∧
      s.portUp s.lead = true ∧
      s.island.zeroAt + Config.ticksPerS ≤ s.now) ∧
    (∃ (s : State) (r : ErrRec) (l : List ErrRec),
      s.island.queue = r :: l ∧
      s.portUp s.lead = true ∧
      s.island.zeroAt + Config.ticksPerS ≤ s.now) ∧
    (∃ (s : State) (loads : List ClassLoad) (x : SnapRec),
      s.sends = true ∧
      s.rd R.MGMT.TELEM_CFG ≠ 0 ∧
      let a := loads.foldl State.loadWindow s
      let n := a.rd R.MGMT.TELEM_STAT.DECIM_LOG2
      let b := (a.snapSw none).clkEdge.clkEdge
      2 ^ n ≤ a.mgmt.skipped + 1 ∧
      b.snap.taken.head? = some x) ∧
    (∃ (s : State) (loads : List ClassLoad),
      s.sends = true ∧
      s.rd R.MGMT.TELEM_CFG ≠ 0 ∧
      let a := loads.foldl State.loadWindow s
      a.mgmt.skipped + 1 < 2 ^ a.rd R.MGMT.TELEM_STAT.DECIM_LOG2) ∧
    (∃ (s : State) (w : ClassLoad),
      s.sends = true ∧
      s.rd R.MGMT.TELEM_CFG = 0) :=
  ⟨⟨carded, .a, 7, by decide +kernel⟩,
   ⟨carded, .b, 4, by decide +kernel⟩,
   ⟨carded, .b, 4, by decide +kernel⟩,
   ⟨{ carded with mgmt := { carded.mgmt with planned := true } }, .b, 7, by decide +kernel⟩,
   ⟨carded, .removed, by decide +kernel⟩,
   ⟨carded.wr R.MGMT.ROLE.B_PRESENT 0, .reset, by decide +kernel⟩,
   ⟨carded.setStandby true, by decide +kernel⟩,
   ⟨carded, by decide +kernel⟩,
   ⟨carded, false, by decide +kernel⟩,
   ⟨{ carded with mgmt := { carded.mgmt with loads := Cells.put 0 [] 1 5 } }, by decide +kernel⟩,
   ⟨carded.setStandby true, .removed, by decide +kernel⟩,
   ⟨railed (carded.wr R.MGMT.ROLE.B_PRESENT 0) [.bus12], .b, true, false, by decide +kernel⟩,
   ⟨carded.wr R.MGMT.ROLE.B_PRESENT 0, .b, true, true, by decide +kernel⟩,
   ⟨carded, by decide +kernel⟩,
   ⟨{ carded with island := { carded.island with queue := [errRec0] } }, errRec0, [], by decide +kernel⟩,
   ⟨later (2 ^ 40) carded, by decide +kernel⟩,
   ⟨let s := later (2 ^ 40) carded; { s with island := { s.island with queue := [errRec0] } }, errRec0, [], by decide +kernel⟩,
   ⟨telling, [⟨90, 20, 5, 1⟩], toldOf, by decide +kernel⟩,
   ⟨(carded.wr R.MGMT.TELEM_CFG 1).wr R.MGMT.TELEM_STAT.DECIM_LOG2 1, [], by decide +kernel⟩,
   ⟨carded.wr R.MGMT.TELEM_CFG 0, ⟨90, 20, 5, 1⟩, by decide +kernel⟩⟩

theorem witness_IcordRequestsAreServed :
    (∃ (s : State) (h : IcordHdr) (i : Nat) (offs : List (BitVec 26)),
      s.hears h 0x10 i ∧
      s.firmware = true ∧
      s.busyFor h.busy 0x10 = none ∧
      offs.length ≤ 64) ∧
    (∃ (s : State) (h : IcordHdr) (i : Nat) (w : BitVec 26 × Word),
      s.hears h 0x11 i ∧
      s.firmware = true ∧
      s.busyFor h.busy 0x11 = none) ∧
    (∃ (s : State) (h : IcordHdr) (i : Nat) (target : BitVec 16) (ramp : BitVec 16),
      s.hears h 0x12 i ∧
      s.firmware = true ∧
      s.modState ≠ 0 ∧
      s.modState ≠ 8) ∧
    (∃ (s : State) (h : IcordHdr) (i : Nat) (epoch : DWord),
      s.hears h 0x13 i ∧
      s.firmware = true ∧
      s.modState ≠ 0 ∧
      s.modState ≠ 8) ∧
    (∃ (s : State) (h : IcordHdr) (i : Nat) (epoch : DWord),
      s.hears h 0x13 i ∧
      s.firmware = true ∧
      s.modState ≠ 0 ∧
      s.modState ≠ 8 ∧
      s.rd R.PWR.SHED_STAT / 2 ≠ 0) ∧
    (∃ (s : State) (h : IcordHdr) (i : Nat) (test : BitVec 3) (part : BitVec 3),
      s.hears h 0x16 i ∧
      s.firmware = true ∧
      s.busyFor h.busy 0x16 = none ∧
      s.modState ≠ 0 ∧
      s.modState ≠ 8 ∧
      s.katRefused test.toNat part.toNat = false) ∧
    (∃ (s : State) (h : IcordHdr) (i : Nat) (test : BitVec 3) (part : BitVec 3),
      s.hears h 0x16 i ∧
      s.firmware = true ∧
      s.busyFor h.busy 0x16 = none ∧
      s.modState ≠ 0 ∧
      s.modState ≠ 8 ∧
      s.katRefused test.toNat part.toNat = true) ∧
    (∃ (s : State) (h : IcordHdr) (i : Nat) (slot : Fin 2) (off : BitVec 25) (bs : List Byte),
      s.hears h 0x20 i ∧
      s.firmware = true ∧
      s.busyFor h.busy 0x20 = none ∧
      bs.length ≤ 1024 ∧
      off.toNat + bs.length ≤ 2 ^ 25 ∧
      (s.loaded slot = false ∨ s.modState = 8)) ∧
    (∃ (s : State) (h : IcordHdr) (i : Nat) (slot : Fin 2),
      s.hears h 0x21 i ∧
      s.firmware = true ∧
      s.busyFor h.busy 0x21 = none ∧
      s.modState ≠ 0) ∧
    (∃ (s : State) (h : IcordHdr) (i : Nat) (off : BitVec 16) (len : BitVec 16),
      s.hears h 0x22 i ∧
      s.firmware = true ∧
      s.busyFor h.busy 0x22 = none ∧
      len.toNat ≤ 1024 ∧
      off.toNat + len.toNat ≤ tagBytes) ∧
    (∃ (s : State) (h : IcordHdr) (i : Nat) (area : BitVec 2) (bs : List Byte),
      s.hears h 0x23 i ∧
      s.firmware = true ∧
      s.busyFor h.busy 0x23 = none ∧
      s.modState ≠ 0 ∧
      (area = 1 ∨ area = 2) ∧
      bs.length = 32 ∧
      s.tag.queue.length < tagQueueMax) ∧
    (∃ (s : State) (h : IcordHdr) (i : Nat) (area : BitVec 2) (bs : List Byte),
      s.hears h 0x23 i ∧
      s.firmware = true ∧
      s.busyFor h.busy 0x23 = none ∧
      s.modState ≠ 0 ∧
      area ≠ 1 ∧
      area ≠ 2 ∧
      bs.length = 32) ∧
    (∃ (s : State) (h : IcordHdr) (i : Nat) (kind : Nat) (idx : Nat),
      s.hears h 0x24 i ∧
      s.firmware = true ∧
      s.busyFor h.busy 0x24 = none) ∧
    (∃ (s : State) (h : IcordHdr) (i : Nat),
      s.hears h 0x25 i ∧
      s.firmware = true ∧
      s.busyFor h.busy 0x25 = none) ∧
    (∃ (s : State) (h : IcordHdr) (i : Nat) (idx : Nat),
      s.hears h 0x26 i ∧
      s.firmware = true ∧
      s.busyFor h.busy 0x26 = none) :=
  ⟨⟨listening, hdr0, 2, [0, 0x3000], by decide +kernel⟩,
   ⟨listening, hdr0, 2, (0x3090, 9000), by decide +kernel⟩,
   ⟨listening, { hdr0 with busy := some 5 }, 2, 9000, 100, by decide +kernel⟩,
   ⟨listening, hdr0, 2, 5000000, by decide +kernel⟩,
   ⟨listening.wr R.PWR.SHED_STAT 2, hdr0, 2, 0, by decide +kernel⟩,
   ⟨(setAct (listening.wr (R.MOD.PART_STATE 1) 5) (R.MOD.PART_DEF.VALID 1) 1), hdr0, 2, 4, 1, by decide +kernel⟩,
   ⟨listening, hdr0, 2, 4, 1, by decide +kernel⟩,
   ⟨listening, hdr0, 2, 1, 16, [1, 2, 3], by decide +kernel⟩,
   ⟨listening, hdr0, 2, 1, by decide +kernel⟩,
   ⟨listening, hdr0, 2, 256, 64, by decide +kernel⟩,
   ⟨listening, hdr0, 2, 1, List.replicate 32 7, by decide +kernel⟩,
   ⟨listening, hdr0, 2, 3, List.replicate 32 7, by decide +kernel⟩,
   ⟨{ listening with life := { listening.life with records := [(0, [⟨1, [3], 9, true, none⟩])] } }, hdr0, 2, 1, 0, by decide +kernel⟩,
   ⟨listening, hdr0, 2, by decide +kernel⟩,
   ⟨listening, hdr0, 2, 0, by decide +kernel⟩⟩

theorem witness_IcordRequestsAreJudged :
    (∃ (s : State) (h : IcordHdr) (slot : Fin 2),
      h.serial.toNat ≠ s.fuses.serial) ∧
    (∃ (s : State) (h : IcordHdr) (slot : Fin 2),
      oddType h = false ∧
      s.handles h 0x21 = true ∧
      s.ctlSlot h.addr.toNat = none) ∧
    (∃ (s : State) (h : IcordHdr) (i : Nat) (w : List (BitVec 26 × Word)),
      oddType h = false ∧
      s.handles h 0x11 = true ∧
      s.ctlSlot h.addr.toNat = some i ∧
      s.seqFresh i h.seq.toNat = false) ∧
    (∃ (s : State) (h : IcordHdr) (i : Nat) (off : BitVec 16) (len : BitVec 16) (ms : Nat),
      s.hears h 0x22 i ∧
      s.busyFor h.busy 0x22 = some ms) ∧
    (∃ (s : State) (h : IcordHdr) (i : Nat) (off : BitVec 16) (len : BitVec 16),
      s.hears h 0x22 i ∧
      s.busyFor h.busy 0x22 = none ∧
      (1024 < len.toNat ∨ tagBytes < off.toNat + len.toNat)) ∧
    (∃ (s : State) (h : IcordHdr) (i : Nat) (off : BitVec 16) (len : BitVec 16) (ms : Nat),
      s.hears h 0x22 i ∧
      h.busy = some ms ∧
      s.mgmt.unmet.testBit 3 = true) ∧
    (∃ (s : State) (h : IcordHdr) (i : Nat) (offs : List (BitVec 26)) (x : BitVec 8),
      h.type = some x ∧
      typeListed x.toNat = false ∧
      s.handles h x.toNat = true ∧
      s.ctlSlot h.addr.toNat = some i ∧
      s.seqFresh i h.seq.toNat = true ∧
      s.busyFor h.busy x.toNat = none) ∧
    (∃ (s : State) (h : IcordHdr) (i : Nat),
      s.hearsZero h i ∧
      s.modState ≠ 7) ∧
    (∃ (s : State) (h : IcordHdr) (i : Nat),
      s.hearsZero h i ∧
      s.modState ≠ 7 ∧
      s.power.dry = none) ∧
    (∃ (s : State) (h : IcordHdr) (i : Nat),
      oddType h = false ∧
      s.modState ≠ 0 ∧
      s.portUp h.port = true ∧
      h.serial.toNat = s.fuses.serial ∧
      s.ctlSlot h.addr.toNat = some i ∧
      s.seqFresh i h.seq.toNat = false) ∧
    (∃ (s : State) (p : Path) (type : BitVec 8) (len : BitVec 8) (busy : Option Nat),
      s.reaches p R.MGMT.MBOX_CTRL.GO.addr none ∧
      let u := s.taken p R.MGMT.MBOX_CTRL.GO.addr 4
      u.rd R.MGMT.MBOX_STAT.STATE = 1) ∧
    (∃ (s : State) (p : Path) (type : BitVec 8) (len : BitVec 8) (busy : Option Nat),
      s.reaches p R.MGMT.MBOX_CTRL.GO.addr none ∧
      let u := s.taken p R.MGMT.MBOX_CTRL.GO.addr 4
      u.rd R.MGMT.MBOX_STAT.STATE ≠ 1 ∧
      (type = 0x14 ∨ type = 0x15)) ∧
    (∃ (s : State) (p : Path) (type : BitVec 8) (len : BitVec 8) (busy : Option Nat),
      s.reaches p R.MGMT.MBOX_CTRL.GO.addr none ∧
      let u := s.taken p R.MGMT.MBOX_CTRL.GO.addr 4
      u.rd R.MGMT.MBOX_STAT.STATE ≠ 1 ∧
      type ≠ 0x14 ∧
      type ≠ 0x15 ∧
      u.firmware = false) ∧
    (∃ (s : State) (p : Path) (type : BitVec 8) (len : BitVec 8) (ms : Nat),
      s.reaches p R.MGMT.MBOX_CTRL.GO.addr none ∧
      let u := s.taken p R.MGMT.MBOX_CTRL.GO.addr 4
      u.rd R.MGMT.MBOX_STAT.STATE ≠ 1 ∧
      type ∉ [0x12, 0x13, 0x14, 0x15] ∧
      u.firmware = true ∧
      u.mgmt.unmet.testBit (typeClass type.toNat) = true) ∧
    (∃ (s : State) (p : Path) (type : BitVec 8) (len : BitVec 8),
      s.reaches p R.MGMT.MBOX_CTRL.GO.addr none ∧
      let u := s.taken p R.MGMT.MBOX_CTRL.GO.addr 4
      u.rd R.MGMT.MBOX_STAT.STATE ≠ 1 ∧
      type ≠ 0x14 ∧
      type ≠ 0x15 ∧
      u.firmware = true ∧
      (64 < len ∨ parseBody type.toNat (u.mboxBytes.take len.toNat) = none)) ∧
    (∃ (s : State) (p : Path) (len : BitVec 8) (slot : Nat),
      s.reaches p R.MGMT.MBOX_CTRL.GO.addr none ∧
      let u := s.taken p R.MGMT.MBOX_CTRL.GO.addr 4
      u.rd R.MGMT.MBOX_STAT.STATE ≠ 1 ∧
      u.firmware = true ∧
      len ≤ 64 ∧
      parseBody 0x21 (u.mboxBytes.take len.toNat) = some (.imageSelect slot)) :=
  ⟨⟨listening, { hdr0 with serial := 1 }, 1, by decide +kernel⟩,
   ⟨listening, { hdr0 with addr := 0x99 }, 1, by decide +kernel⟩,
   ⟨listening.takeSeq 2 7, hdr0, 2, [(0x3090, 9000)], by decide +kernel⟩,
   ⟨{ listening with mgmt := { listening.mgmt with unmet := 8 } }, { hdr0 with busy := some 5 }, 2, 256, 64, 5, by decide +kernel⟩,
   ⟨listening, hdr0, 2, 8000, 256, by decide +kernel⟩,
   ⟨{ listening with mgmt := { listening.mgmt with unmet := 8 } }, { hdr0 with busy := some 5 }, 2, 256, 64, 5, by decide +kernel⟩,
   ⟨listening, { hdr0 with type := some 0x77 }, 2, [0], 0x77, by decide +kernel⟩,
   ⟨listening, hdr0, 2, by decide +kernel⟩,
   ⟨listening, hdr0, 2, by decide +kernel⟩,
   ⟨listening.takeSeq 2 7, hdr0, 2, by decide +kernel⟩,
   ⟨listening.wr R.MGMT.MBOX_STAT.STATE 1, (.sideband .a), 0x21, 4, none, by decide +kernel⟩,
   ⟨listening, (.sideband .a), 0x14, 0, none, by decide +kernel⟩,
   ⟨listening.wr R.CFG.FW_READY 0, (.sideband .a), 0x21, 4, none, by decide +kernel⟩,
   ⟨{ listening with mgmt := { listening.mgmt with unmet := 15 } }, (.sideband .a), 0x21, 4, 50, by decide +kernel⟩,
   ⟨listening, (.sideband .a), 0x21, 5, by decide +kernel⟩,
   ⟨listening.wr (R.MGMT.MBOX_REQ 0) 1, (.sideband .a), 4, 1, by decide +kernel⟩⟩

theorem witness_LedgersAreSealed :
    (∃ (s : State),
      s.modState ≠ 0 ∧
      s.rd R.LEDG.SEAL_CTRL.PERIOD_S ≠ 0) ∧
    (∃ (s : State),
      s.rd R.LEDG.SEAL_CTRL.PERIOD_S = 0) ∧
    (∃ (s : State) (p : Path),
      s.reaches p R.LEDG.SEAL_CTRL.GO.addr none) ∧
    (∃ (s : State) (p : Path) (charge : Bool) (token : Bool) (event : Bool),
      s.reaches p R.LEDG.ACK_OPEN.CHARGE.addr none) :=
  ⟨⟨carded, by decide +kernel⟩,
   ⟨carded.wr R.LEDG.SEAL_CTRL.PERIOD_S 0, by decide +kernel⟩,
   ⟨carded, (.sideband .a), by decide +kernel⟩,
   ⟨carded.wr R.LEDG.STATE.TOKEN 1, (.sideband .a), true, true, false, by decide +kernel⟩⟩

theorem witness_LifeAndServiceAreKept :
    (∃ (s : State) (x : LifeInput),
      s.firmware = true ∧
      lifeFits x = true) ∧
    (∃ (s : State) (i : Fin 4) (spare : Nat) (erase : Nat) (tb : Nat) (h : List Nat),
      s.firmware = true ∧
      h.length = 16 ∧
      s.on (R.FLASH.SLED_STAT.PRESENT i) = true ∧
      spare ≤ 100) ∧
    (∃ (s : State) (x : LifeInput) (y : Nat × List Byte),
      s.firmware = true ∧
      lifeFits x = true ∧
      let u := s.reportWear x
      let a := u.setFlash s.lead (s.flash s.lead ++ [⟨lifeKind x, u.lifeValues x, s.time, s.on R.TB.STAT.SET_DONE, s.ptp.utc⟩])
      a.lifeSummary x = some y ∧
      u.tag.queue.length < tagQueueMax) ∧
    (∃ (s : State) (ppm : List Nat) (d : Fin 84),
      s.firmware = true ∧
      s.modState ≠ 0 ∧
      ppm.length = physTiles) ∧
    (∃ (s : State) (optic : Bool),
      s.firmware = true) :=
  ⟨⟨carded, .powerOn 100, by decide +kernel⟩,
   ⟨carded.wr (R.FLASH.SLED_STAT.PRESENT 2) 1, 2, 90, 4000, 7, List.replicate 16 3, by decide +kernel⟩,
   ⟨carded, .thermal, (0x0102, leBytes 4 0 ++ leBytes 1 0 ++ leBytes 2 0), by decide +kernel⟩,
   ⟨carded, List.replicate 1008 3500, 7, by decide +kernel⟩,
   ⟨carded, true, by decide +kernel⟩⟩

theorem witness_WiredRecordsAreCommitted :
    (∃ (s : State) (p : Path) (byte : BitVec 13) (j : Fin 8),
      s.reaches p R.TAG.RD_ADDR.GO.addr none) ∧
    (∃ (s : State) (c : Port) (area : BitVec 2),
      s.reaches (.sideband c) R.TAG.WR_CTRL.GO.addr none ∧
      (area = 1 ∨ area = 2) ∧
      s.tag.queue.length < tagQueueMax) ∧
    (∃ (s : State) (c : Port) (area : BitVec 2),
      s.reaches (.sideband c) R.TAG.WR_CTRL.GO.addr none ∧
      area ≠ 1 ∧
      area ≠ 2) ∧
    (∃ (s : State) (port : Port) (fn : Fin 9) (area : BitVec 2),
      s.reaches (.host port fn) R.TAG.WR_CTRL.GO.addr none) ∧
    (∃ (s : State) (r : TagRec) (l : List TagRec),
      s.tag.queue = r :: l ∧
      s.tagFree = true ∧
      s.modState ≠ 0) ∧
    (∃ (s : State) (r : TagRec) (l : List TagRec),
      s.tag.queue = r :: l ∧
      s.tagFree = true ∧
      r.fails < 2) ∧
    (∃ (s : State) (r : TagRec) (l : List TagRec),
      s.tag.queue = r :: l ∧
      s.tagFree = true ∧
      2 ≤ r.fails) :=
  ⟨⟨{ carded with tag := { carded.tag with bytes := [(0x104, 0x12#8)] } }, (.sideband .a), 0x105, 1, by decide +kernel⟩,
   ⟨carded, .a, 1, by decide +kernel⟩,
   ⟨carded, .a, 3, by decide +kernel⟩,
   ⟨carded.wr (R.HOST.PORT_STAT.ATTACHED 0) 1, .a, 0, 1, by decide +kernel⟩,
   ⟨{ carded with tag := { carded.tag with queue := [rec0] } }, rec0, [], by decide +kernel⟩,
   ⟨{ carded with tag := { carded.tag with queue := [rec0] } }, rec0, [], by decide +kernel⟩,
   ⟨{ carded with tag := { carded.tag with queue := [{ rec0 with fails := 2 }] } }, { rec0 with fails := 2 }, [], by decide +kernel⟩⟩

theorem witness_RfSessionsAreServed :
    (∃ (s : State),
      s.on R.TAG.STAT.RF_HELD = false) ∧
    (∃ (s : State),
      s.on R.TAG.STAT.RF_HELD = false ∧
      s.on R.TAG.STAT.RF_SESSION = false) ∧
    (∃ (s : State),
      s.on R.TAG.STAT.RF_HELD = false ∧
      s.on R.TAG.STAT.RF_SESSION = true) ∧
    (∃ (s : State),
      s.on R.TAG.STAT.RF_HELD = true) ∧
    (∃ (s : State),
      s.on R.TAG.STAT.RF_HELD = false) ∧
    (∃ (s : State) (n : BitVec 16),
      s.on R.TAG.STAT.RF_HELD = false) ∧
    (∃ (s : State) (n : BitVec 16) (count : BitVec 16),
      s.on R.TAG.STAT.RF_HELD = false) ∧
    (∃ (s : State) (n : BitVec 16) (v : Word),
      s.on R.TAG.STAT.RF_HELD = false) ∧
    (∃ (s : State) (lost : Bool),
      s.on R.TAG.STAT.RF_SESSION = true ∧
      (lost = true ∨ (s.tag.lastRf.any fun n => decide (n + rfIdle ≤ s.now)) = true)) ∧
    (∃ (s : State),
      (∃ r ∈ s.tag.queue, r.since + rfPatience ≤ s.now) ∧
      s.on R.TAG.STAT.RF_SESSION = true ∧
      s.on R.TAG.STAT.RF_HELD = false) :=
  ⟨⟨State.reset, by decide +kernel⟩,
   ⟨State.reset, by decide +kernel⟩,
   ⟨State.reset.wr R.TAG.STAT.RF_SESSION 1, by decide +kernel⟩,
   ⟨State.reset.wr R.TAG.STAT.RF_HELD 1, by decide +kernel⟩,
   ⟨State.reset, by decide +kernel⟩,
   ⟨State.reset, 2047, by decide +kernel⟩,
   ⟨State.reset, 2046, 3, by decide +kernel⟩,
   ⟨State.reset, 0x500, 0x01020304, by decide +kernel⟩,
   ⟨State.reset.wr R.TAG.STAT.RF_SESSION 1, true, by decide +kernel⟩,
   ⟨{ (later 400000000 (State.reset.wr R.TAG.STAT.RF_SESSION 1)) with tag := { State.reset.tag with queue := [{ rec0 with since := 399999999 }, rec0] } }, by decide +kernel⟩⟩

theorem witness_PortsServeTheirFunctions :
    (∃ (s : State) (port : Port) (width : Nat) (rate : Nat) (cfg : PortCfg),
      s.modState ≠ 0 ∧
      s.attached port = false ∧
      width ∈ [1, 2, 4, 8, 16] ∧
      1 ≤ rate ∧
      rate ≤ 6 ∧
      cfgOk cfg = true ∧
      cfg.master = true ∧
      cfg.d3 = false) ∧
    (∃ (s : State) (port : Port) (width : Nat) (rate : Nat) (cfg : PortCfg),
      s.modState ≠ 0 ∧
      s.attached port = false ∧
      linkOk width rate = true ∧
      cfgOk cfg = true ∧
      cfg.master = false) ∧
    (∃ (s : State) (port : Port) (resent : Nat),
      s.attached port = false ∧
      s.on (R.HOST.PORT_STAT.LINK_UP (portIx port)) = true) ∧
    (∃ (s : State) (port : Port) (up : Bool) (resent : Nat),
      s.attached port = true ∧
      s.attached (otherCard port) = true) ∧
    (∃ (s : State) (port : Port) (up : Bool) (resent : Nat),
      s.attached port = true ∧
      s.attached (otherCard port) = false) ∧
    (∃ (s : State) (port : Port) (part : Fin 8),
      s.on (R.HOST.PORT_STAT.VF_EN (portIx port)) = true) ∧
    (∃ (s : State) (port : Port),
      s.modState ≠ 0 ∧
      s.attached port = true) ∧
    (∃ (s : State) (port : Port) (fn : Fin 9),
      s.modState ≠ 0 ∧
      s.fnUp port fn = true ∧
      fn ≠ 0 ∧
      s.on R.CFG.HOST_STAT.LOST = false) ∧
    (∃ (s : State) (port : Port) (fn : Fin 9),
      s.modState ≠ 0 ∧
      s.fnUp port fn = true ∧
      fn ≠ 0 ∧
      s.on R.CFG.HOST_STAT.LOST = true) ∧
    (∃ (s : State) (port : Port) (fn : Fin 9) (vec : Fin 128),
      s.modState ≠ 0 ∧
      s.fnUp port fn = true) ∧
    (∃ (s : State) (port : Port) (fn : Fin 9) (vec : Fin 128),
      s.modState ≠ 0 ∧
      s.fnUp port fn = true) ∧
    (∃ (s : State) (p : Path) (v : BitVec 8),
      s.reaches p R.HOST.PART_PORT.addr none) ∧
    (∃ (s : State) (part : Fin 8),
      s.host.moves.testBit part = true ∧
      s.hostReads part = [] ∧
      s.hostReqs part = [] ∧
      s.attached (s.preferred part) = true) ∧
    (∃ (s : State) (port : Port) (fn : Nat) (q : Nat) (v : DWord),
      q < 64 ∧
      s.answers (.host port fn) pgHOST = true) ∧
    (∃ (s : State) (port : Port) (fn : Nat) (q : Nat),
      q < 64 ∧
      s.answers (.host port fn) pgHOST = true ∧
      (fn = 0 ∨ s.queuePart q = some (fn - 1))) ∧
    (∃ (s : State) (port : Port) (fn : Nat) (a : BitVec 26),
      s.answers (.host port fn) pgHOST = true ∧
      a.toNat % 4 = 0 ∧
      (a.toNat < 0x40000 ∧ fn ≠ 0 ∧ s.queuePart (a.toNat / 0x1000) ≠ some (fn - 1) ∨ a.toNat < 0x40000 ∧ 0x10 ≤ a.toNat % 0x1000 ∨ 0x58010 ≤ a.toNat)) ∧
    (∃ (s : State) (port : Port) (fn : Fin 9),
      s.answers (.host port fn) pgHOST = true) ∧
    (∃ (s : State) (port : Port) (fn : Fin 9) (k : Fin 960),
      s.answers (.host port fn) pgHOST = true) ∧
    (∃ (s : State) (port : Port) (fn : Fin 9) (vec : Fin 128) (v : DWord),
      s.answers (.host port fn) pgHOST = true ∧
      v.toNat.testBit 0 = true) ∧
    (∃ (s : State) (port : Port) (fn : Fin 9) (vec : Fin 128) (i : Fin 3) (v : DWord),
      s.answers (.host port fn) pgHOST = true) ∧
    (∃ (s : State) (port : Port) (r : HostReq),
      s.attached port = true ∧
      s.hostUp = true ∧
      s.nextReq port = some r) ∧
    (∃ (c : PortCfg) (r : HostReq),
      cfgOk c = true) ∧
    (∃ (s : State),
      s.pending = []) :=
  ⟨⟨running.wr (R.HOST.PORT_STAT.ATTACHED 0) 0, .b, 16, 5, ⟨true, true, 6, 256, 512, false, false, false⟩, by decide +kernel⟩,
   ⟨running, .b, 8, 6, ⟨false, true, 6, 512, 4096, false, true, false⟩, by decide +kernel⟩,
   ⟨running.wr (R.HOST.PORT_STAT.LINK_UP 1) 1, .b, 3, by decide +kernel⟩,
   ⟨twoPorts, .a, false, 3, by decide +kernel⟩,
   ⟨running, .a, false, 0, by decide +kernel⟩,
   ⟨twoPorts, .a, 1, by decide +kernel⟩,
   ⟨twoPorts.wr R.CFG.HOST_STAT.LOST 1, .a, by decide +kernel⟩,
   ⟨twoPorts, .a, 2, by decide +kernel⟩,
   ⟨twoPorts.wr R.CFG.HOST_STAT.LOST 1, .a, 2, by decide +kernel⟩,
   ⟨twoPorts, .a, 2, 1, by decide +kernel⟩,
   ⟨{ twoPorts with msix := { twoPorts.msix with latch := Cells.put false [] (vecKey .a 2 1) true } }, .a, 2, 1, by decide +kernel⟩,
   ⟨twoPorts, (.sideband .a), 5, by decide +kernel⟩,
   ⟨{ twoPorts with host := { twoPorts.host with moves := 3 } }, 1, by decide +kernel⟩,
   ⟨twoPorts, .a, 2, 63, 9, by decide +kernel⟩,
   ⟨twoPorts, .a, 2, 5, by decide +kernel⟩,
   ⟨twoPorts, .a, 3, 0x05000, by decide +kernel⟩,
   ⟨twoPorts, .a, 2, by decide +kernel⟩,
   ⟨twoPorts, .a, 2, 959, by decide +kernel⟩,
   ⟨twoPorts, .a, 2, 127, 1, by decide +kernel⟩,
   ⟨twoPorts, .a, 2, 127, 2, 0xFEE00000, by decide +kernel⟩,
   ⟨{ twoPorts with host := { twoPorts.host with reqs := [hostReq0] } }, .a, hostReq0, by decide +kernel⟩,
   ⟨⟨true, true, 6, 256, 512, false, false, false⟩, hostReq0, by decide +kernel⟩,
   ⟨State.reset, rfl⟩⟩

theorem witness_LinkBitsReadBack :
    (∃ (f : Frame),
      f.vc = f.body.vc ∧
      f.layer < 2 ∧
      f.body.lenw ≤ typeLenw f.body.type ∧
      f.dst < 2 ^ 16 ∧
      f.src < 2 ^ 16 ∧
      f.offsetField < 2 ^ 44 ∧
      f.tag < 2 ^ 16 ∧
      f.fseq < 4096 ∧
      f.hops < 32 ∧
      f.part < 8) ∧
    (∃ (h : BitVec 180) (i : Fin 180),
      hcrcOk h = true) :=
  ⟨⟨{ frameOf (.write [1, 2] [7] 512) with offset := 2 ^ 44 - 1, dst := 65535, fseq := 4095, hops := 31, part := 7, layer := 1 }, by decide +kernel⟩,
   ⟨(frameOf .writeAck).header, 179, by decide +kernel⟩⟩

end Sys2Proof.Tests
end

section
/-! The arithmetic contract (spec/04, R242, R248): sums and adder stages are exact, FP32 words are their own rounding, and pruning
and list builds keep the entries that rank first. -/

namespace Sys2Proof.Machine

/-! ### Sums on a grid (R101) -/

theorem gridSum_perm {g : Int} {a b : List Val} (h : a.Perm b) : gridSum g a = gridSum g b :=
  h.foldl_eq' (fun _ _ _ _ s => Int.add_right_comm s _ _) 0

/-! ### Planes (R105 to R107) -/

theorem Planes.value_normalise (p : Planes) : p.normalise.value = p.value := by
  simp only [Planes.normalise, Planes.value]
  omega

/-- What is left of a plane after its carry is a signed 24-bit number (R106). -/
theorem planeRemainder_bounds (v : Int) :
    -8388608 ≤ v - planeCarry v * 2 ^ 24 ∧ v - planeCarry v * 2 ^ 24 ≤ 8388607 := by
  unfold planeCarry
  omega

theorem Planes.value_add (p q : Planes) : (p.add q).value = p.value + q.value := by
  simp only [Planes.add, Planes.value]
  omega

/-! ### Adder stages (R107, R109) -/

theorem Triple.code_replicated (c : Nat) (ps : List Planes) : Triple.code ⟨(c, c, c), ps⟩ = some c :=
  if_pos ⟨rfl, rfl⟩

/-- The plane sums of two triples, with what a slip adds to them. -/
def stageSums (a b : Triple) (slip : Option Slip) : List Planes :=
  match slip with
  | none => List.zipWith Planes.add a.outs b.outs
  | some x => (List.zipWith Planes.add a.outs b.outs).modify x.out fun p => p.slip x.plane x.by_

/-- The residue checks that an adder stage of two triples makes: of each plane, and of each output over its normalisation. -/
def stageChecks (a b : Triple) (sums : List Planes) : Bool :=
  (sums.zipIdx.all fun p => planesOk [a.outs.getD p.2 ⟨0, 0, 0⟩, b.outs.getD p.2 ⟨0, 0, 0⟩] p.1) &&
    (sums.zip (sums.map Planes.normalise)).all fun p =>
      residue (p.1.v0 + p.1.v1 + p.1.v2) = residue (p.2.v0 + p.2.v1 + p.2.v2)

/-- An adder stage whose first triple has no code answers an anchor error (R105). -/
theorem adderStage_pair_of_no_code {a b : Triple} {slip : Option Slip} (h : a.code = none) :
    adderStage [a, b] slip = .error .anchor := by
  simp only [adderStage, h]

/-- What an adder stage of two triples answers where the first has code `c` (R105 to R109). -/
theorem adderStage_pair_of_code {a b : Triple} {slip : Option Slip} {c : Nat} (h : a.code = some c) :
    adderStage [a, b] slip =
      if b.code = some c then
        if stageChecks a b (stageSums a b slip) = true then
          if ((stageSums a b slip).map Planes.normalise).all Planes.inRange = true then
            .ok ⟨(c, c, c), (stageSums a b slip).map Planes.normalise⟩
          else .error .range
        else .error .residue
      else .error .anchor := by
  simp only [adderStage, h, List.all_cons, List.all_nil, Bool.and_true, decide_eq_true_eq]
  rfl

/-- An adder stage of two triples that answers a sum: the codes agree, and the sum is in range. -/
theorem adderStage_pair_ok {a b x : Triple} {slip : Option Slip} (h : adderStage [a, b] slip = .ok x) :
    x.code = a.code ∧ x.code = b.code ∧ x.outs = (stageSums a b slip).map Planes.normalise ∧
      x.outs.all Planes.inRange = true := by
  cases ha : a.code with
  | none => rw [adderStage_pair_of_no_code ha] at h; cases h
  | some c =>
    rw [adderStage_pair_of_code ha] at h
    by_cases hb : b.code = some c
    · by_cases hc : stageChecks a b (stageSums a b slip) = true
      · by_cases hr : ((stageSums a b slip).map Planes.normalise).all Planes.inRange = true
        · rw [if_pos hb, if_pos hc, if_pos hr] at h
          cases h
          exact ⟨Triple.code_replicated .., (Triple.code_replicated ..).trans hb.symm, rfl, hr⟩
        · rw [if_pos hb, if_pos hc, if_neg hr] at h; cases h
      · rw [if_pos hb, if_neg hc] at h; cases h
    · rw [if_neg hb] at h; cases h

theorem adderStage_exact {a b x : Triple} (h : adderStage [a, b] none = .ok x) :
    x.outs.map Planes.value = List.zipWith (fun p r => p.value + r.value) a.outs b.outs := by
  obtain ⟨-, -, houts, -⟩ := adderStage_pair_ok h
  rw [houts, stageSums, List.map_map, List.map_zipWith]
  simp only [Function.comp_apply, Planes.value_normalise, Planes.value_add]

/-- The residue check of a plane passes a sum of two that is off by multiples of 255 alone. -/
theorem residueOk_pair_iff (u v d : Int) : residueOk [u, v] (u + v + d) = true ↔ d % 255 = 0 := by
  rw [residueOk, decide_eq_true_iff]
  simp only [residue, List.foldl_cons, List.foldl_nil]
  omega

theorem not_planesOk_slip (p q : Planes) (plane : Nat) {d : Int} (hd : d % 255 ≠ 0) :
    planesOk [p, q] ((p.add q).slip plane d) = false := by
  have hbad (u v : Int) : residueOk [u, v] (u + v + d) = false :=
    Bool.eq_false_iff.2 fun h => hd ((residueOk_pair_iff u v d).1 h)
  unfold planesOk Planes.slip
  split <;> simp only [Planes.add, List.map_cons, List.map_nil, hbad, Bool.and_false, Bool.false_and]

/-- Two triples with agreeing codes and a slip no multiple of 255 in one of their outputs: the stage answers a residue error. -/
theorem adderStage_slip {a b : Triple} {x : Slip} (ha : x.out < a.outs.length) (hb : x.out < b.outs.length)
    (hc : a.code ≠ none) (hcb : b.code = a.code) (hd : x.by_ % 255 ≠ 0) :
    adderStage [a, b] (some x) = .error .residue := by
  obtain ⟨c, hac⟩ := Option.ne_none_iff_exists'.1 hc
  have hmem : ((a.outs[x.out].add b.outs[x.out]).slip x.plane x.by_, x.out) ∈ (stageSums a b (some x)).zipIdx := by
    simp only [List.mk_mem_zipIdx_iff_getElem?, stageSums, List.getElem?_modify, List.getElem?_zipWith,
      List.getElem?_eq_getElem ha, List.getElem?_eq_getElem hb, Option.map_eq_map, Option.map_some, if_true]
  have hfail : stageChecks a b (stageSums a b (some x)) = false := by
    refine Bool.and_eq_false_iff.2 (.inl (List.all_eq_false.2 ⟨_, hmem, ?_⟩))
    rw [← List.getElem_eq_getD (h := ha), ← List.getElem_eq_getD (h := hb), not_planesOk_slip _ _ _ hd]
    exact Bool.false_ne_true
  rw [adderStage_pair_of_code hac, if_pos (hcb.trans hac), hfail, if_neg Bool.false_ne_true]

/-! ### FP32 (R89, R90, R96) -/

theorem roundEven_zero (m : Nat) : roundEven m 0 = m := by
  simp only [roundEven, shiftNat, shiftFloor, Int.le_refl, if_true, Int.toNat_zero, Nat.pow_zero, Nat.mul_one]

/-- An FP32 word from its sign, exponent and mantissa fields. -/
theorem fp32_fields (w : BitVec 32) : w.toNat =
    fp32.signBit (bitOf w.toNat 31) + w.toNat / 2 ^ 23 % 2 ^ 8 * 2 ^ 23 + w.toNat % 2 ^ 23 := by
  have hw : w.toNat < 2 ^ 32 := w.isLt
  have hs : bitOf w.toNat 31 = decide (w.toNat / 2 ^ 31 % 2 = 1) := by
    simp only [bitOf, Nat.testBit_eq_decide_div_mod_eq]
  simp only [hs, Fmt.signBit, fp32, decide_eq_true_eq]
  split <;> omega

/-- The value of an FP32 word of sign `s`, exponent field `e` and mantissa field `m` (R89). -/
def fp32Value (s : Bool) (e m : Nat) : Val :=
  if e = 255 then (if m = 0 then .inf s else .nan)
  else if e = 0 then .fin s m (-149)
  else .fin s (m + 2 ^ 23) (e - 150)

theorem f32_eq_fp32Value (w : Nat) : f32 w = fp32Value (bitOf w 31) (w / 2 ^ 23 % 2 ^ 8) (w % 2 ^ 23) := by
  have he (e : Nat) : (e : Int) - (127 : Nat) - (23 : Nat) = e - 150 := by omega
  simp only [f32, Fmt.decode, fp32, fp32Value, he, true_and, reduceCtorEq, false_and, if_false]
  rfl

/-- A magnitude of 24 bits, or a smaller one at the smallest exponent, is already at the spacing of FP32. -/
theorem fp32_quantum {n : Nat} {q : Int} (hn : n ≠ 0) (hlt : n < 2 ^ 24) (hq : -149 ≤ q) (hnorm : 2 ^ 23 ≤ n ∨ q = -149) :
    fp32.quantum n q = q := by
  have hhi : n.log2 < 24 := (Nat.log2_lt hn).2 hlt
  have hlo : 2 ^ 23 ≤ n → 23 ≤ n.log2 := (Nat.le_log2 hn).2
  simp only [Fmt.quantum, floorLog2, fp32]
  omega

/-- Such a magnitude is encoded as it is. -/
theorem toF32_fin {n : Nat} {q : Int} (s : Bool) (hn : n ≠ 0) (hlt : n < 2 ^ 24) (hq : -149 ≤ q)
    (hnorm : 2 ^ 23 ≤ n ∨ q = -149) : toF32 (.fin s n q) = fp32.encodeRounded s n q := by
  simp only [toF32, Fmt.encode, if_neg hn, fp32_quantum hn hlt hq hnorm, Int.sub_self, Rounding.apply, roundEven_zero]

/-- The code, without its sign, of a magnitude in units of `2 ^ q` (R89). -/
def fp32Code (n : Nat) (q : Int) : Nat := if n < 2 ^ 23 then n else (q + 150).toNat * 2 ^ 23 + (n - 2 ^ 23)

theorem encodeRounded_fp32 (s : Bool) {n : Nat} {q : Int} (hlt : n < 2 ^ 24) (hfin : fp32Code n q < 255 * 2 ^ 23) :
    fp32.encodeRounded s n q = fp32.signBit s + fp32Code n q := by
  have hcode : fp32.encodeRounded s n q = fp32.signBit s +
      if 255 * 2 ^ 23 - 1 < fp32Code n q then fp32.overflow else fp32Code n q := by
    have hne : n ≠ 2 ^ (fp32.mb + 1) := Nat.ne_of_lt hlt
    have hexp : q - (1 - (fp32.bias : Int) - fp32.mb) + 1 = q + 150 := by simp only [fp32]; omega
    simp only [Fmt.encodeRounded, if_neg hne, hexp]
    rfl
  rw [hcode, if_neg (by omega)]

/-- An FP32 value is encoded by its own fields, and a NaN by the canonical one (R90, R96). -/
theorem toF32_fp32Value (s : Bool) {e m : Nat} (he : e < 256) (hm : m < 2 ^ 23) :
    toF32 (fp32Value s e m) =
      if fp32Value s e m = .nan then 0x7FC00000 else fp32.signBit s + e * 2 ^ 23 + m := by
  by_cases hinf : e = 255
  · by_cases hm0 : m = 0
    · subst hinf hm0
      rfl
    · have hnan : fp32Value s e m = .nan := by rw [fp32Value, if_pos hinf, if_neg hm0]
      rw [hnan, if_pos rfl]
      rfl
  by_cases he0 : e = 0
  · by_cases hm0 : m = 0
    · subst he0 hm0
      rfl
    · have hcode : fp32Code m (-149) = m := if_pos hm
      simp only [fp32Value, if_neg hinf, if_pos he0, reduceCtorEq, if_false]
      rw [toF32_fin s hm0 (by omega) (Int.le_refl _) (.inr rfl), encodeRounded_fp32 s (by omega) (by omega), hcode]
      omega
  · have hcode : fp32Code (m + 2 ^ 23) (e - 150) = e * 2 ^ 23 + m := by
      have hexp : ((e : Int) - 150 + 150).toNat = e := by omega
      rw [fp32Code, if_neg (by omega), hexp, Nat.add_sub_cancel]
    simp only [fp32Value, if_neg hinf, if_neg he0, reduceCtorEq, if_false]
    rw [toF32_fin s (by omega) (by omega) (by omega) (.inl (by omega)), encodeRounded_fp32 s (by omega) (by omega), hcode]
    omega

/-- An FP32 word that is no NaN is the rounding of its own value (R89, R90, R96). -/
theorem toF32_f32 (w : BitVec 32) : toF32 (f32 w.toNat) = if f32 w.toNat = .nan then 0x7FC00000 else w.toNat := by
  have he : w.toNat / 2 ^ 23 % 2 ^ 8 < 256 := Nat.mod_lt _ (by decide)
  have hm : w.toNat % 2 ^ 23 < 2 ^ 23 := Nat.mod_lt _ (by decide)
  rw [f32_eq_fp32Value, toF32_fp32Value _ he hm, ← fp32_fields]

/-! ### The order of sizes -/

/-- Finite values lie below the infinities, and those below the NaNs (R242). -/
def Val.sizeClass : Val → Nat
  | .fin _ _ _ => 0
  | .inf _ => 1
  | .nan => 2

/-- The exponent of a finite value. -/
def Val.exponent : Val → Int
  | .fin _ _ e => e
  | _ => 0

/-- The magnitude of a finite value in units of `2 ^ g`, where `g` is at most its exponent. -/
def Val.unitsAt (g : Int) : Val → Nat
  | .fin _ m e => m * 2 ^ (e - g).toNat
  | _ => 0

/-- Whether `a` is smaller in size than `b`, both taken in units of `2 ^ g`. -/
def Val.smallerAt (g : Int) (a b : Val) : Bool :=
  decide (a.sizeClass < b.sizeClass ∨ a.sizeClass = b.sizeClass ∧ a.unitsAt g < b.unitsAt g)

/-- Whether `a` is smaller in size than `b`. -/
def Val.smaller (a b : Val) : Bool := a.smallerAt (min a.exponent b.exponent) b

theorem Val.unitsAt_mul {v : Val} {g h : Int} (hgh : g ≤ h) (hv : h ≤ v.exponent) :
    v.unitsAt g = v.unitsAt h * 2 ^ (h - g).toNat := by
  cases v with
  | fin s m e =>
    have hadd : (e - g).toNat = (e - h).toNat + (h - g).toNat := by
      simp only [Val.exponent] at hv
      omega
    simp only [Val.unitsAt, hadd, Nat.pow_add, Nat.mul_assoc]
  | inf s => exact (Nat.zero_mul _).symm
  | nan => exact (Nat.zero_mul _).symm

/-- Sizes compare alike in every unit that measures both exactly. -/
theorem Val.smaller_eq_smallerAt {a b : Val} {g : Int} (ha : g ≤ a.exponent) (hb : g ≤ b.exponent) :
    a.smaller b = a.smallerAt g b := by
  have hg : g ≤ min a.exponent b.exponent := by omega
  simp only [Val.smaller, Val.smallerAt, Val.unitsAt_mul hg (Int.min_le_left ..), Val.unitsAt_mul hg (Int.min_le_right ..),
    Nat.mul_lt_mul_right (Nat.two_pow_pos _)]

theorem scaled_zero (s : Bool) (e g : Int) : scaled s 0 e g = 0 := by
  cases s <;> simp only [scaled, Nat.zero_mul] <;> rfl

theorem scaled_false (m : Nat) (e g : Int) : scaled false m e g = (m * 2 ^ (e - g).toNat : Nat) := rfl

theorem scaled_true (m : Nat) (e g : Int) : scaled true m e g = -((m * 2 ^ (e - g).toNat : Nat) : Int) := rfl

/-- Without signs, and with no NaN on the right, the comparison of values is that of their sizes. -/
theorem Val.lt_eq_smaller {a b : Val} (ha : a.isNeg = false) (hb : b.isNeg = false) (hn : b ≠ .nan) : a.lt b = a.smaller b := by
  cases a with
  | nan => cases b <;> rfl
  | inf s =>
    cases (show s = false from ha)
    cases b with
    | nan => exact absurd rfl hn
    | inf t => cases (show t = false from hb); rfl
    | fin t n f => rfl
  | fin s m e =>
    cases (show s = false from ha)
    cases b with
    | nan => exact absurd rfl hn
    | inf t => cases (show t = false from hb); rfl
    | fin t n f =>
      cases (show t = false from hb)
      simp only [Val.lt, scaled_false, Int.ofNat_lt, Val.smaller, Val.smallerAt, Val.sizeClass, Val.exponent, Val.unitsAt,
        Nat.lt_irrefl, false_or, true_and]

/-! ### Ranks: by size, and among equals by position -/

/-- Whether a value at a position ranks above another: the larger first, and of two of one size the one at the lower position
(R242, R248). -/
def outranks (x y : Val × Nat) : Bool := y.1.smaller x.1 || (!x.1.smaller y.1 && decide (x.2 < y.2))

/-- What outranking says in units of `2 ^ g`. -/
theorem outranks_iff {x y : Val × Nat} {g : Int} (hx : g ≤ x.1.exponent) (hy : g ≤ y.1.exponent) :
    outranks x y = true ↔ y.1.sizeClass < x.1.sizeClass ∨ y.1.sizeClass = x.1.sizeClass ∧
      (y.1.unitsAt g < x.1.unitsAt g ∨ y.1.unitsAt g = x.1.unitsAt g ∧ x.2 < y.2) := by
  simp only [outranks, Val.smaller_eq_smallerAt hx hy, Val.smaller_eq_smallerAt hy hx, Val.smallerAt, Bool.or_eq_true,
    Bool.and_eq_true, Bool.not_eq_true', decide_eq_true_eq, decide_eq_false_iff_not]
  omega

theorem not_outranks_self (x : Val × Nat) : ¬ outranks x x = true := by
  rw [outranks_iff (Int.le_refl _) (Int.le_refl _)]
  omega

theorem outranks_asymm {x y : Val × Nat} (h : outranks x y = true) : ¬ outranks y x = true := by
  rw [outranks_iff (Int.min_le_left ..) (Int.min_le_right ..)] at h
  rw [outranks_iff (Int.min_le_right ..) (Int.min_le_left ..)]
  omega

/-- Of two positions, one outranks the other. -/
theorem outranks_of_not {x y : Val × Nat} (h : ¬ outranks y x = true) (hne : x.2 ≠ y.2) : outranks x y = true := by
  rw [outranks_iff (Int.min_le_right ..) (Int.min_le_left ..)] at h
  rw [outranks_iff (Int.min_le_left ..) (Int.min_le_right ..)]
  omega

/-- Not to be outranked is transitive: three sizes are compared in one unit that measures them all. -/
theorem not_outranks_trans {x y z : Val × Nat} (hxy : ¬ outranks x y = true) (hyz : ¬ outranks y z = true) :
    ¬ outranks x z = true := by
  have hx : min x.1.exponent (min y.1.exponent z.1.exponent) ≤ x.1.exponent := by omega
  have hy : min x.1.exponent (min y.1.exponent z.1.exponent) ≤ y.1.exponent := by omega
  have hz : min x.1.exponent (min y.1.exponent z.1.exponent) ≤ z.1.exponent := by omega
  rw [outranks_iff hx hy] at hxy
  rw [outranks_iff hy hz] at hyz
  rw [outranks_iff hx hz]
  omega

/-! ### Places in descending order of rank -/

/-- How many entries of `l` outrank `x`: the place of `x`, counted from 0, when `l` is put in descending order. -/
def placeIn {α : Type} (entry : α → Val × Nat) (l : List α) (x : α) : Nat :=
  l.countP fun y => outranks (entry y) (entry x)

section
variable {α : Type} {entry : α → Val × Nat} {l : List α}

theorem placeIn_le {x y : α} (h : ¬ outranks (entry x) (entry y) = true) : placeIn entry l y ≤ placeIn entry l x :=
  List.countP_mono_left fun _ _ hz => Decidable.byContradiction fun hzx => not_outranks_trans hzx h hz

/-- Every entry placed among the first `k` outranks every entry that is not. -/
theorem outranks_of_placeIn {x y : α} {k : Nat} (hx : placeIn entry l x < k) (hy : ¬ placeIn entry l y < k) :
    outranks (entry x) (entry y) = true :=
  Decidable.byContradiction fun h => hy (Nat.lt_of_le_of_lt (placeIn_le h) hx)

theorem placeIn_perm {l' : List α} (h : l.Perm l') : placeIn entry l = placeIn entry l' :=
  funext fun _ => h.countP_eq _

/-- In a list in descending order the head has place 0, and every other entry one more than in the tail. -/
theorem countP_placeIn_sorted (h : l.Pairwise fun x y => outranks (entry x) (entry y) = true) (k : Nat) :
    l.countP (fun x => placeIn entry l x < k) = min k l.length := by
  induction l generalizing k with
  | nil => exact (Nat.min_zero k).symm
  | cons x t ih =>
    obtain ⟨hx, ht⟩ := List.pairwise_cons.1 h
    have hhead : placeIn entry (x :: t) x = 0 := by
      refine List.countP_eq_zero.2 fun y hy => ?_
      rcases List.mem_cons.1 hy with rfl | hy
      · exact not_outranks_self _
      · exact outranks_asymm (hx y hy)
    have htail : ∀ y ∈ t, placeIn entry (x :: t) y = placeIn entry t y + 1 := fun y hy =>
      List.countP_cons_of_pos (hx y hy)
    cases k with
    | zero => simp only [Nat.not_lt_zero, decide_false, List.countP_false, Nat.zero_min]; rfl
    | succ k =>
      have hcongr : t.countP (fun y => placeIn entry (x :: t) y < k + 1) = t.countP fun y => placeIn entry t y < k :=
        List.countP_congr fun y hy => by rw [htail y hy, decide_eq_true_iff, decide_eq_true_iff]; omega
      rw [List.countP_cons_of_pos (by rw [hhead]; exact decide_eq_true (Nat.succ_pos k)), hcongr, ih ht, List.length_cons]
      omega

/-- The entries in descending order of rank. -/
def descending (entry : α → Val × Nat) (l : List α) : List α := l.mergeSort fun x y => !outranks (entry y) (entry x)

theorem descending_perm : (descending entry l).Perm l :=
  List.mergeSort_perm ..

/-- With distinct positions, every entry outranks all that come after it in descending order. -/
theorem descending_pairwise (hd : l.Pairwise fun x y => (entry x).2 ≠ (entry y).2) :
    (descending entry l).Pairwise fun x y => outranks (entry x) (entry y) = true := by
  have hweak : (descending entry l).Pairwise fun x y => (!outranks (entry y) (entry x)) = true := by
    refine List.pairwise_mergeSort (fun x y z hxy hyz => ?trans) (fun x y => ?total) l
    case trans =>
      rw [Bool.not_eq_true', Bool.eq_false_iff] at *
      exact not_outranks_trans hyz hxy
    case total =>
      rw [Bool.or_eq_true, Bool.not_eq_true', Bool.not_eq_true', Bool.eq_false_iff, Bool.eq_false_iff]
      exact Decidable.or_iff_not_imp_left.2 fun h => outranks_asymm (Decidable.not_not.1 h)
  have hne : (descending entry l).Pairwise fun x y => (entry x).2 ≠ (entry y).2 :=
    (descending_perm.pairwise_iff Ne.symm).2 hd
  exact hweak.imp₂ (fun x y h hne => outranks_of_not (Bool.eq_false_iff.1 ((Bool.not_eq_true' _).mp h)) hne) hne

/-- With distinct positions, the entries that fewer than `k` others outrank are `k` in number, or all. -/
theorem length_filter_placeIn_lt (hd : l.Pairwise fun x y => (entry x).2 ≠ (entry y).2) (k : Nat) :
    (l.filter fun x => placeIn entry l x < k).length = min k l.length := by
  have hperm : (descending entry l).Perm l := descending_perm
  rw [← List.countP_eq_length_filter, ← hperm.countP_eq, ← placeIn_perm hperm,
    countP_placeIn_sorted (descending_pairwise hd), hperm.length_eq]

end

/-! ### The group of four (R242) -/

/-- A value without its sign. -/
def Val.abs : Val → Val
  | .fin _ m e => .fin false m e
  | .inf _ => .inf false
  | .nan => .nan

theorem Val.smaller_abs (a b : Val) : a.abs.smaller b.abs = a.smaller b := by
  cases a <;> cases b <;> rfl

theorem Val.isNeg_abs (v : Val) : v.abs.isNeg = false := by
  cases v <;> rfl

theorem Val.abs_ne_nan {v : Val} (h : v ≠ .nan) : v.abs ≠ .nan := by
  cases v with
  | nan => exact absurd rfl h
  | inf s => exact nofun
  | fin s m e => exact nofun

theorem Val.abs_lt_abs {a b : Val} (hb : b ≠ .nan) : a.abs.lt b.abs = a.smaller b :=
  (Val.lt_eq_smaller a.isNeg_abs b.isNeg_abs (Val.abs_ne_nan hb)).trans (Val.smaller_abs a b)

/-- The order of R242 is that of the ranks. -/
theorem ranksAbove_eq_outranks (a b : Val) (i j : Nat) : ranksAbove a i b j = outranks (a, i) (b, j) := by
  by_cases hn : a = .nan ∨ b = .nan
  · rcases hn with rfl | rfl
    · cases b <;> rfl
    · cases a <;> rfl
  · obtain ⟨ha, hb⟩ := not_or.1 hn
    have hunf : ranksAbove a i b j = if b.abs.lt a.abs = true then true
        else if a.abs.lt b.abs = true then false else decide (i < j) := by
      simp only [ranksAbove, if_neg hn]
      rfl
    rw [hunf, Val.abs_lt_abs ha, Val.abs_lt_abs hb, outranks]
    cases b.smaller a <;> cases a.smaller b <;> rfl

/-- A position of a group with its value. -/
abbrev groupEntry (vs : List Val) (i : Nat) : Val × Nat := (vs.getD i .nan, i)

/-- A group keeps the positions placed first and second. -/
theorem keptOf_eq (vs : List Val) :
    keptOf vs = (List.range 4).filter fun i => placeIn (groupEntry vs) (List.range 4) i < 2 := by
  unfold keptOf placeIn
  refine List.filter_congr fun i _ => ?_
  rw [← List.countP_eq_length_filter]
  refine congrArg (fun n => decide (n < 2)) (List.countP_congr fun j _ => ?_)
  rw [Bool.and_eq_true, decide_eq_true_iff, ranksAbove_eq_outranks]
  exact and_iff_right_of_imp fun h e => not_outranks_self _ (e ▸ h)

theorem mem_keptOf {vs : List Val} {i : Nat} :
    i ∈ keptOf vs ↔ i < 4 ∧ placeIn (groupEntry vs) (List.range 4) i < 2 := by
  rw [keptOf_eq, List.mem_filter, List.mem_range, decide_eq_true_iff]

theorem length_keptOf (vs : List Val) : (keptOf vs).length = 2 := by
  rw [keptOf_eq]
  exact length_filter_placeIn_lt (entry := groupEntry vs) (List.nodup_range (n := 4)) 2

theorem pairwise_keptOf (vs : List Val) : (keptOf vs).Pairwise (· < ·) :=
  List.pairwise_lt_range.filter _

theorem ranksAbove_of_kept {vs : List Val} {i j : Nat} (hi : i ∈ keptOf vs) (hj : j < 4) (hjk : j ∉ keptOf vs) :
    ranksAbove (vs.getD i .nan) i (vs.getD j .nan) j = true := by
  rw [ranksAbove_eq_outranks]
  exact outranks_of_placeIn (entry := groupEntry vs) (mem_keptOf.1 hi).2 fun h => hjk (mem_keptOf.2 ⟨hj, h⟩)

/-! ### The list build (R248) -/

/-- A score above +0 is an infinity or a finite value, of positive sign. -/
theorem isNeg_and_ne_nan_of_activeScore {w : Nat} (h : activeScore w = true) : (f32 w).isNeg = false ∧ f32 w ≠ .nan := by
  unfold activeScore at h
  cases hv : f32 w with
  | nan => rw [hv] at h; exact absurd h Bool.false_ne_true
  | inf s => rw [hv] at h; exact ⟨(Bool.not_eq_true' s).mp h, nofun⟩
  | fin s m e =>
    cases s with
    | false => exact ⟨rfl, nofun⟩
    | true =>
      simp only [hv, Val.lt, scaled_zero, scaled_true, decide_eq_true_eq] at h
      omega

/-- The active blocks, each with its score and its number. -/
def activeBlocks (l : List Nat) : List (Nat × Nat) := l.zipIdx.filter fun x => activeScore x.1

/-- A block's number with the value of its score. -/
abbrev blockEntry (x : Nat × Nat) : Val × Nat := (f32 x.1, x.2)

theorem activeBlocks_pairwise (l : List Nat) : (activeBlocks l).Pairwise fun x y => x.2 < y.2 := by
  have h : (l.zipIdx.map Prod.snd).Pairwise (· < ·) := by
    rw [List.zipIdx_map_snd]
    exact List.pairwise_lt_range' 1
  exact (List.pairwise_map.1 h).filter _

theorem length_activeBlocks (l : List Nat) : (activeBlocks l).length = (l.filter activeScore).length := by
  calc (activeBlocks l).length = ((l.zipIdx.map Prod.fst).filter activeScore).length := by
        rw [List.filter_map, List.length_map]; rfl
    _ = (l.filter activeScore).length := by rw [List.zipIdx_map_fst]

/-- Active scores compare by size. -/
theorem f32_lt_of_active {v w : Nat} (hv : activeScore v = true) (hw : activeScore w = true) :
    (f32 v).lt (f32 w) = (f32 v).smaller (f32 w) :=
  Val.lt_eq_smaller (isNeg_and_ne_nan_of_activeScore hv).1 (isNeg_and_ne_nan_of_activeScore hw).1
    (isNeg_and_ne_nan_of_activeScore hw).2

/-- A list build selects the blocks with the `k` first places among the active ones. -/
theorem selectBlocks_eq (k : Nat) (l : List Nat) :
    selectBlocks k l = ((activeBlocks l).filter fun x => placeIn blockEntry (activeBlocks l) x < k).map Prod.snd := by
  unfold selectBlocks placeIn
  refine congrArg (List.map Prod.snd) (List.filter_congr fun x hx => ?_)
  have hxa : activeScore x.1 = true := (List.mem_filter.1 hx).2
  rw [← List.countP_eq_length_filter]
  refine congrArg (fun n => decide (n < k)) (List.countP_congr fun y hy => ?_)
  have hya : activeScore y.1 = true := (List.mem_filter.1 hy).2
  rw [f32_lt_of_active hxa hya, f32_lt_of_active hya hxa]
  exact Iff.rfl

theorem length_selectBlocks (k : Nat) (l : List Nat) : (selectBlocks k l).length = min k (l.filter activeScore).length := by
  rw [selectBlocks_eq, List.length_map, length_filter_placeIn_lt ((activeBlocks_pairwise l).imp Nat.ne_of_lt),
    length_activeBlocks]

theorem pairwise_selectBlocks (k : Nat) (l : List Nat) : (selectBlocks k l).Pairwise (· < ·) := by
  rw [selectBlocks_eq]
  exact List.pairwise_map.2 ((activeBlocks_pairwise l).filter _)

theorem activeScore_of_mem_selectBlocks {k i : Nat} {l : List Nat} (h : i ∈ selectBlocks k l) :
    i < l.length ∧ activeScore (l.getD i 0) = true := by
  rw [selectBlocks_eq] at h
  obtain ⟨⟨w, j⟩, hx, rfl⟩ := List.mem_map.1 h
  obtain ⟨hz, ha⟩ := List.mem_filter.1 (List.mem_filter.1 hx).1
  have hw : l[j]? = some w := List.mk_mem_zipIdx_iff_getElem?.1 hz
  obtain ⟨hj, rfl⟩ := List.getElem?_eq_some_iff.1 hw
  rw [← List.getElem_eq_getD (h := hj)]
  exact ⟨hj, ha⟩

/-! ### The statement -/

/-- Settles O19: sums on a grid are permuted, planes normalised, adder stages read off, FP32 words taken apart into their fields,
and the kept positions and blocks are those with the first places in the order of their ranks. -/
theorem arithmeticIsExact : Obligations.ArithmeticIsExact := by
  unfold Obligations.ArithmeticIsExact
  refine ⟨fun g a b => gridSum_perm, fun p => ?normalise, fun a b x _ _ h => ?exact,
    fun a b x ha hb hc hcb hx => ?slip, toF32_f32, fun a b c d => ?kept, fun k l => ?selected⟩
  case normalise =>
    obtain ⟨hlo0, hhi0⟩ := planeRemainder_bounds p.v0
    obtain ⟨hlo1, hhi1⟩ := planeRemainder_bounds (p.v1 + planeCarry p.v0)
    exact ⟨p.value_normalise, hlo0, hhi0, hlo1, hhi1⟩
  case exact =>
    obtain ⟨hxa, hxb, -, hrange⟩ := adderStage_pair_ok h
    exact ⟨hxa, hxb, adderStage_exact h, hrange⟩
  case slip =>
    exact adderStage_slip (ha ▸ hx) (hb ▸ hx) hc hcb
  case kept =>
    refine ⟨length_keptOf _, pairwise_keptOf _, ?_, fun i hi j hj hjk => ranksAbove_of_kept hi (List.mem_range.1 hj) hjk⟩
    exact List.all_eq_true.2 fun i hi => decide_eq_true (mem_keptOf.1 hi).1
  case selected =>
    refine ⟨length_selectBlocks k l, pairwise_selectBlocks k l, List.all_eq_true.2 fun i hi => ?_⟩
    obtain ⟨hlt, hact⟩ := activeScore_of_mem_selectBlocks hi
    simp only [hlt, hact, decide_true, Bool.and_true]

end Sys2Proof.Machine
end
